-- ==== Sys2Proof/Word.lean ====
section
/-!
DEFINITION. The words of the machine (R3, R13): the 64-bit scalar, the byte, and the 512-bit vector of one
64-byte token with its 64-bit lane-valid mask (R159).
-/
namespace Sys2Proof

/-- A 64-bit scalar: a register, a scalar token, an address while it is computed. -/
abbrev Word := BitVec 64

/-- One byte of memory. -/
abbrev Byte := BitVec 8

/-- The 64 bytes of a vector register or vector token, byte 0 lowest (R13). -/
abbrev Vec := BitVec 512

/-- A lane-valid mask, one bit per byte of a vector token (R159). -/
abbrev Mask := BitVec 64

end Sys2Proof
end

