-- ==== Sys2Proof/Config.lean ====
section
/-!
DEFINITION. What the spec leaves to the part or leaves open.  Every `opaque` here is a free value: nothing in
Lean can evaluate it, so a claim about the machine holds for every value of it (assumption logs 2, 7, 8, 9, 15, 28, 110, 130, 132).
-/
namespace Sys2Proof.Config

/-- Which of the steps that may happen next does happen (R131: agents interleave with no order but the stated
ones).  Read at the model's counter.  DESIGN CHOICE, log 2. -/
opaque choice : Nat → Nat

/-- A fresh 64-bit value the spec does not fix: keys, nonces, initial vectors (R389).  DESIGN CHOICE, log 7. -/
opaque freeWord : Nat → Word

/-- One byte of the AES-256-GCM key stream of a key under an initial vector (R377, R391).  The cipher is named by
the spec and not given by it.  DESIGN CHOICE, log 8. -/
opaque gcmKeyStream : (key ivGen count : Nat) → (index : Nat) → Byte

/-- The 16-byte AES-256-GCM tag (R377).  DESIGN CHOICE, log 8. -/
opaque gcmTag : (key ivGen count : Nat) → (clear sealed : List Byte) → List Byte

/-- The first 32 bits of the KMAC256 of a stile under the trust core's stile key (R386).  DESIGN CHOICE, log 8. -/
opaque stileCheck : (key index gen grantee : Nat) → (contents : Word) → BitVec 32

/-- SHAKE256 of bytes, and the bytes of a signature with its certificates and their number, below 65,536 (R398).  DESIGN CHOICE,
log 8. -/
opaque shake256 : List Byte → (index : Nat) → Byte
opaque signature : (seed : Nat) → (index : Nat) → Byte
opaque signatureLength : Fin 65536

/-- The clocks of the stream completion timeout (R395). -/
def completionTimeout : Nat := 55000000

/-- The hash of the Tonath root public key in every die's ROM (R396).  DESIGN CHOICE, log 9. -/
opaque romHash : BitVec 256

/-- Whether an image passes the boot ROM's check under that root, its version number and the bytes of its measurement
(R397, R398).  The image fixes them; its number stands for its bytes.  DESIGN CHOICE, log 9. -/
opaque firmwareGood : (root : BitVec 256) → (image : Nat) → Bool
opaque firmwareVersion : (image : Nat) → BitVec 32
opaque firmwareMeasure : (image : Nat) → (index : Nat) → Byte

/-- The context to which a collective group belongs (R386): the spec says that it has one, and not what sets it.  DESIGN CHOICE,
log 110. -/
opaque groupCtx : (group : Nat) → Nat

/-- The pool capacity in whole GiB that the gateways find at bring-up (R430), and whether a pool device is
shared.  The installation fixes them.  DESIGN CHOICE, log 9. -/
opaque poolGiB : Nat
opaque poolShared : Bool

/-- Which dies the self-test passes, of those that still have identity leaves, and which hold a stand-in copse (R40, R439).
DESIGN CHOICE, log 9. -/
opaque liveDies : (signing : BitVec 16) → BitVec 16
opaque spareDies : BitVec 16

/-- The bundle between two dies, 16 to 19 being the gateway dies, passes its checks at a training: both certificates under the root
in ROM, both signatures over the nonces, the ids and the bundle number (R102).  DESIGN CHOICE, log 9. -/
opaque bundleGood : (root : BitVec 256) → (training lower upper : Nat) → Bool

/-- Which of the present dies firmware marks absent next when some pair of nodes has no route: a place in their list (R101).
DESIGN CHOICE, log 132. -/
opaque absentNext : (live : BitVec 16) → Nat

/-- The TYPE and TAG fields of a packet's header, for its class: their values are not stated (R82).  DESIGN CHOICE, log 130. -/
opaque packetType : (cls step : Nat) → BitVec 8
opaque packetTag : (core slot run event : Nat) → BitVec 14

/-- The spill region of each die's task queue that firmware writes (R180).  DESIGN CHOICE, log 9. -/
opaque dieSpill : Nat → Word

/-- The spill base of a core's arrival queue and the base of its context backing area (R168, R169): the trust
core writes them, the spec gives no value.  DESIGN CHOICE, log 9. -/
opaque arrivalSpillBase : Nat → Word
opaque contextBackingBase : Nat → Word

/-- The set of a copse TLB, of 256 with 16 ways each, in which a translation stands (R34): the spec gives no index.
DESIGN CHOICE, log 28. -/
opaque copseTlbSet : (ctx depth base : Nat) → Fin 256

/-- Words of padding after the known fields of a record of type 8 or 10, whose body the spec does not lay out
(R421): so the length of such an image stays open.  DESIGN CHOICE, log 15. -/
opaque recordPad : (type : Nat) → Nat

end Sys2Proof.Config
end

