-- ==== Sys2Proof/Syntax.lean ====
section
/-!
DEFINITION. The instructions and steps of the machine: one constructor of `Instr` for each row of the opcode
table.  The first 194 rows are the instructions of a sheaf (R201 to R216), each with the fields its syllables
carry (`Form`).  The other 125 rows are the steps of the part that no syllable encodes; an `Event` is
such a step with the slot, packet, command or engine it belongs to.  The types these subjects use stand first.
-/
namespace Sys2Proof

/-- A target: the port (0 l, 1 r, 2 x, 3 p) and the body position (R201). -/
structure Tgt where
  port : BitVec 2
  pos  : BitVec 6
  deriving DecidableEq, Repr, Inhabited

/-- The fields of one instruction's syllables (R201 to R204): predicate mode, first target, SUB of its page
syllable, second target (TG2), the IMX chain most significant first, REG (class, number), LSQ (LSN, follow bit),
the FMT codes with their lane-mask selectors in order, and DEP (depth, mode). -/
structure Form where
  pm  : BitVec 2 := 0
  t   : Tgt
  sub : BitVec 6 := 0
  t2  : Option Tgt := none
  imm : List (BitVec 10) := []
  reg : Option (BitVec 2 × BitVec 8) := none
  lsq : Option (BitVec 5 × Bool) := none
  fmts : List (BitVec 6 × BitVec 4) := []
  dep : Option (BitVec 6 × BitVec 4) := none
  deriving DecidableEq, Repr, Inhabited

/-- The eight LD forms an LDF may take (R213, R268). -/
inductive LdForm where
  | b | bu | h | hu | w | wu | d | q
  deriving DecidableEq, Repr, Inhabited

/-- The causes of R367. -/
inductive Cause where
  | illegalEncoding | privilege | softTrap
  | nonCanonicalAddress | pageNotMapped | badPageEntry | badPhysicalTarget | pageRights | holeWrite | guardRights
  | keyMismatch | uncorrectableData | mixedShape | blockAlignment | misalignedAccess | misalignedAtomic | atomicTarget
  | badDescriptor | badDepth | badPath | badControlValue | badPolicy | badFormat | indexRange | overlap | lsnConflict
  | multipleExit | multipleWrite | multipleToken | sheafStuck | sheafAddress
  | watchTarget | stwTarget | watchBusy
  | badRick | rickRevoked | rickEmpty | staleRick | evictedRick | rickSize | ringOverflow | matrixThreshold
  | droverOnly | stileFault | runnelBusy | runnelUnbound | runnelMode | runnelEnd
  | croftRange | croftUnmapped | croftOwnership | croftPool | noDie | burrOnly | flockMember | flockFull
  deriving DecidableEq, Repr, Inhabited

/-- A trap record before it is written to a bank (R368): the cause, DCODE, the failing ordered event's LSN if it
has one, the imprecise flag, and the TADDR and TBLOCKP words where the spec states them (where it states none, the
register takes a free value, log 10). -/
structure TrapRec where
  cause  : Cause
  dcode  : Nat := 0
  lsn    : Option Nat := none
  imp    : Bool := false
  addr   : Option Word := none
  blockp : Option Word := none
  deriving DecidableEq, Repr, Inhabited

/-- Which waiting access an answer belongs to: the slot, the run of its sheaf (a discarded sheaf's answers find
no owner), the LSN, and the offset of the answered bytes within the access. -/
structure Tag where
  core : Nat
  slot : Nat
  run  : Nat
  lsn  : Nat
  off  : Nat := 0
  deriving DecidableEq, Repr, Inhabited

/-- The agents of R104 that make accesses. -/
inductive Agent where
  | slot (core slot : Nat)
  | copyEngine (copse : Nat)
  | feeder (core slot port : Nat)
  | array (core : Nat)
  | gateway (gw : Nat)
  deriving DecidableEq, Repr, Inhabited

/-- The operations of AM*, RED* and scatter-accumulate copies (R270, R271). -/
inductive RmwOp where
  | add | and | or | xor | min | max | minu | maxu | swap | cas | addf | minf | maxf
  deriving DecidableEq, Repr, Inhabited

/-- What an access does at its home.  `write` gives each byte that is written and leaves the others; `wake` is an STW
(R278). -/
inductive Access where
  | read (n : Nat)
  | write (bytes : List (Option Byte))
  | red (op : RmwOp) (n : Nat) (v : Word)
  | gath (els : List (Nat × Nat × Nat × Nat))   -- (result position, physical address, element size, virtual address)
  | reserve (n : Nat)
  | release (bytes : List Byte)
  | cancel
  | wake (v : Word)
  deriving DecidableEq, Repr, Inhabited

/-- A request to a home (R60, R81): who asks, under which context and key id, where (physical and virtual
address), what, and what the policy word of the access asks of the caches (R65). -/
structure Req where
  agent   : Agent
  tag     : Tag
  ctx     : Nat
  kid     : Nat
  pa      : Nat
  va      : Nat
  acc     : Access
  counted : Bool := false     -- counts in UCNT (R90)
  own     : Bool := false     -- a store to the own scratchpad that had to wait in the queue (R59, R108)
  install : Bool := false     -- the reply may fill the L1 (R57, R113)
  epoch   : Nat := 0          -- the core's invalidation count of the context when the request leaves (R113)
  sent    : Nat := 0          -- the step from which it is under way
  arrived : Option (Nat × Nat) := none   -- the clock and the step at which it reached its home (R136)
  join    : Option Nat := none           -- the access of which it is a granule's part, while parts of it wait (R139)
  pol     : BitVec 32 := 0
  retry   : Bool := false     -- R140
  entered : Bool := false     -- a host's store has entered the network at its gateway (R433)
  blockp  : Word := 0         -- TBLOCKP of the access, for a refused write (R71, R136)
  deriving DecidableEq, Repr, Inhabited

/-- An answer of a home to a load-kind access or reservation: bytes or a cause, and the whole sector with its
guard word where the L1 may take it. -/
structure Reply where
  tag   : Tag
  data  : List Byte
  err   : Option TrapRec := none
  fill  : Option (Nat × List Byte × BitVec 32) := none   -- sector number, 128 bytes, guard word
  ctx   : Nat := 0
  epoch : Nat := 0
  sent  : Nat := 0
  pol   : BitVec 32 := 0
  deriving DecidableEq, Repr, Inhabited

/-- A task packet (R174), with the clock from which its wait counts (R182) and the die that released it (R185). -/
structure TaskPkt where
  memb  : BitVec 32 := 0
  ctx   : Nat := 0
  chan  : Nat := 0
  cls   : Nat := 0
  orig  : Bool := false
  daff  : BitVec 16 := 0
  fmt   : BitVec 32 := 0
  scale : BitVec 56 := 0
  hrow  : Nat := 0
  hcol  : Nat := 0
  hcore : Nat := 0
  hv    : Bool := false
  rad   : Nat := 0
  reserved : Bool := false    -- a reserved bit of the record is non-zero: refused where it is formed
  a0 : Word := 0
  a1 : Word := 0
  a2 : Word := 0
  a3 : Word := 0
  since : Option Nat := none  -- when it first entered a die queue
  aged  : Nat := 0            -- class rises it has had since then
  deriving DecidableEq, Repr, Inhabited

/-- A burr as it travels (R164). -/
structure Burr where
  memb  : BitVec 32 := 0
  ctx   : Nat := 0
  chan  : Nat := 0
  fw    : Bool := false
  fmt   : BitVec 32 := 0
  scale : BitVec 56 := 0
  bid   : BitVec 32 := 0
  lfsr  : BitVec 32 := 1
  mode  : BitVec 3 := 0
  g     : Vector Word 8 := Vector.replicate 8 0
  k     : Word := 0
  n     : Word := 0
  q0    : Word := 0
  deriving DecidableEq, Repr, Inhabited

/-- What stands in an arrival queue (R167). `mgmt` is a management-class entry: a supervisor message, a copy-state
record or a misroute (R372, R329). -/
inductive EntryBody where
  | task (p : TaskPkt)
  | burr (b : Burr)
  | msg (data : Vec)
  | mgmt (w0 w1 w2 w3 : Word)
  deriving DecidableEq, Repr, Inhabited

/-- An arrival-queue entry: its context and channel, the slot whose MSGPOP holds a claim on it (R338), whether the
supervisor keeps it blocked (a returned or faulted burr, R100, R370), and the clock at which it began to wait. -/
structure Entry where
  ctx     : Nat
  chan    : Nat
  body    : EntryBody
  claim   : Option Nat := none
  held    : Bool := false
  since   : Nat := 0
  kid     : Option Nat := none       -- the key id under which a stile's payload is sealed (R337); else the context's
  tid     : Nat := 0                 -- of a pre-empted burr (R376): its thread
  imps    : List TrapRec := []       -- its pending imprecise traps (R313, R371)
  flock   : Option Nat := none       -- the barrier that it awaits (R362)
  halted  : Bool := false            -- it has run HALT (R375)
  moveTo  : Option Nat := none       -- the migration that it owes (R347, R362)
  deriving DecidableEq, Repr, Inhabited

/-- A K notice (R349): receiving core, context, burr id, committed K, whether it is a removal, the sender's map version, the slot
whose UCNT counts it, and the group of re-delivered or rebuilding notices to which it belongs. -/
structure Notice where
  core   : Nat
  ctx    : Nat
  bid    : BitVec 32
  k      : Word
  remove : Bool
  version : Nat
  sender : Option (Nat × Nat)
  join   : Option Nat := none
  deriving DecidableEq, Repr, Inhabited

/-- What an acknowledgement answers: a counted write (R90), a cancel (R141), a K notice (R349), a store to the own
scratchpad that has had to wait in the queue. -/
inductive AckKind where
  | write | cancel | notice | own
  deriving DecidableEq, Repr, Inhabited

/-- Where a packet leaves a core: a slot's injection queue, or the core's load requests (R89, R111). -/
inductive InjSrc where
  | queue (slot : Nat)
  | load (i : Nat)
  deriving DecidableEq, Repr, Inhabited

/-- Who sent a START: a slot of a core (R96) or a gateway (R433). -/
inductive InjSrcCore where
  | slot (core slot : Nat)
  | gateway (gw : Nat)
  deriving DecidableEq, Repr, Inhabited

/-- Registers that the host or a trust core writes and that have no behaviour of their own (R374, R431). -/
inductive DevReg where
  | lqcfg (gw ctx q : Nat)
  | troot (ctx : Nat) | tctl (ctx : Nat) | dtroot (ctx : Nat) | tskm (ctx : Nat) | supv (ctx : Nat)
  | csched (ctx : Nat) | rkquota (ctx : Nat)
  | aspill (core : Nat) | tccb (core : Nat) | stile (core i : Nat) | wcap (core : Nat)
  | hpool | spread (e : Nat) | dhome | pccfg | nroute (node die : Nat) | dsqcfg (die : Nat)
  | note (ctx n : Nat)
  | io (gw off : Nat)           -- an 8-byte host write at an offset of a gateway's register space (R431)
  deriving DecidableEq, Repr, Inhabited

/-- What happens at a launch queue (R432): the host writes the eight words of a record, the gateway sends the increments or the
packet of the oldest record on, or the flock records acknowledge an increment. -/
inductive LaunchStep where
  | record (ws : List Word)
  | send
  | counted
  deriving DecidableEq, Repr, Inhabited

/-- Readings of a die's monitors (R431, R438): the highest in degrees, how many sensors stand at or above the threshold, the raw
sensor codes and the process-monitor counts. -/
structure Sense where
  temp  : Nat
  n     : Nat
  codes : List Nat := []
  procs : List Nat := []
  deriving DecidableEq, Repr, Inhabited

/-- A step of the part with its subject: which slot, packet, command, engine or queue it belongs to.  A step that is
due stands in the machine's state as an `Event`; the step's name alone is an `Instr`.  `req` and `comp` mark a
request that awaits a completion and a completion; a host access names the phase under which it arrives (R395); a count change
that a gateway sends names the launch queue that awaits its acknowledgement (R432). -/
inductive Event where
  /-- TINV_WRITE (R32) -/
  | tinvWrite (core slot : Nat) (v : Word)
  /-- CLSTART_WRITE (R96) -/
  | clstartWrite (core slot : Nat) (v : Word)
  /-- MIXDBG_WRITE (R135) -/
  | mixdbgWrite (core slot : Nat) (v : Word)
  /-- CROOT_WRITE (R343) -/
  | crootWrite (core slot : Nat) (v : Word)
  /-- DRVCFG_WRITE (R321) -/
  | drvcfgWrite (core : Nat) (v : Word)
  /-- CPRES_RESUME (R330) -/
  | cpresResume (ctx : Nat) (v : Word)
  /-- CPRES_ABORT (R330) -/
  | cpresAbort (ctx : Nat) (v : Word)
  /-- REGISTER_WRITE (R374) -/
  | registerWrite (r : DevReg) (v : Word)
  /-- SHEAF_FETCH (R158) -/
  | sheafFetch (core slot : Nat)
  /-- SHEAF_COMMIT (R161) -/
  | sheafCommit (core slot : Nat)
  /-- TRAP_ENTRY (R370) -/
  | trapEntry (core slot : Nat) (r : TrapRec)
  /-- IMPRECISE_TRAP (R371) -/
  | impreciseTrap (core slot : Nat)
  /-- LOAD_REPLY (R262) -/
  | loadReply (r : Reply)
  /-- WRITE_ACK (R90) -/
  | writeAck (core slot : Nat) (kind : AckKind) (refused : Option TrapRec)
  /-- INJECTION_LEAVE (R89) -/
  | injectionLeave (core : Nat) (src : InjSrc)
  /-- ORDERED_PACKET_LEAVE (R93) -/
  | orderedPacketLeave (core slot : Nat)
  /-- PACKET_HOP (R86) -/
  | packetHop (i : Nat)
  /-- FLIT_RECEIVE (R103) -/
  | flitReceive (link : Nat) (good : Bool)
  /-- LINK_DOWN (R103) -/
  | linkDown (link : Nat)
  /-- TRANSLATION_WALK (R30) -/
  | translationWalk (copse ctx va : Nat)
  /-- ZERO_SWEEP (R46) -/
  | zeroSweep (sector : Nat)
  /-- SLICE_ACCESS (R60) -/
  | sliceAccess (r : Req)
  /-- RESERVE_REQUEST (R139) -/
  | reserveRequest (r : Req)
  /-- RELEASE (R139) -/
  | release (r : Req)
  /-- CANCEL (R139) -/
  | cancel (r : Req)
  /-- RESERVATION_REVOKE (R140) -/
  | reservationRevoke (granule : Nat)
  /-- REVOKE_RECEIVE (R140) -/
  | revokeReceive (t : Tag)
  /-- REDUCTION_APPLY (R142) -/
  | reductionApply (r : Req)
  /-- GATHER_HOME_READ (R143) -/
  | gatherHomeRead (r : Req)
  /-- SCRATCHPAD_ACCESS (R52) -/
  | scratchpadAccess (r : Req)
  /-- STW_APPLY (R278) -/
  | stwApply (r : Req)
  /-- UNPARK (R275) -/
  | unpark (core slot : Nat)
  /-- SCRUB (R75) -/
  | scrub (sector : Nat)
  /-- PROTB_DRAIN (R44) -/
  | protbDrain (id core : Nat)
  /-- PROTB_INSTALL (R44) -/
  | protbInstall (id : Nat)
  /-- TINV_COMPLETE (R32) -/
  | tinvComplete (id : Nat)
  /-- START (R97) -/
  | start (target : Nat) (sender : InjSrcCore)
  /-- CODE_LOAD_STORE (R95) -/
  | codeLoadStore (r : Req)
  /-- POOL_ACCESS (R62) -/
  | poolAccess (r : Req)
  /-- POOL_CACHE_MISS (R63) -/
  | poolCacheMiss (r : Req)
  /-- BACK_INVALIDATE (R64), with the bytes of the line that the other agent of the pool device then writes (R104) -/
  | backInvalidate (line : Nat) (after : List (Option Byte))
  /-- GATEWAY_DRAIN (R117) -/
  | gatewayDrain (gw : Nat)
  /-- HOST_MEM_ACCESS (R441) -/
  | hostMemAccess (gw off : Nat) (acc : Access) (phase : Bool)
  /-- ARRIVAL (R167) -/
  | arrival (core : Nat) (e : Entry)
  /-- DISPATCH (R177) -/
  | dispatch (core : Nat)
  /-- BURR_MIGRATION (R165) -/
  | burrMigration (core slot : Nat)
  /-- THREAD_RETIRE (R359) -/
  | threadRetire (core slot : Nat)
  /-- YIELD_RETIRE (R359) -/
  | yieldRetire (core slot : Nat)
  /-- HALTED (R375) -/
  | halted (core slot : Nat)
  /-- EVICTION (R376) -/
  | eviction (core slot : Nat)
  /-- SAVEC_COMPLETE (R422) -/
  | savecComplete (id : Nat)
  /-- LOADC_COMPLETE (R422) -/
  | loadcComplete (id : Nat)
  /-- MAILBOX_DEPOSIT (R319) -/
  | mailboxDeposit (core slot : Nat)
  /-- LAUNCH_RECORD (R432) -/
  | launchRecord (gw ctx q : Nat) (x : LaunchStep)
  /-- DIE_QUEUE_ENTER (R179) -/
  | dieQueueEnter (die : Nat) (p : TaskPkt)
  /-- TASK_RELEASE (R182) -/
  | taskRelease (die : Nat)
  /-- CLASS_AGING (R182) -/
  | classAging (die i : Nat)
  /-- TASK_OFFER (R184) -/
  | taskOffer (walk : Nat)
  /-- TASK_HINT_ARRIVAL (R185) -/
  | taskHintArrival (walk : Nat)
  /-- RETURN_HOLDOFF (R185) -/
  | returnHoldoff (die i : Nat)
  /-- DIE_SPILL_RELOAD (R180) -/
  | dieSpillReload (die : Nat)
  /-- IDLE_SUMMARY_UPDATE (R183) -/
  | idleSummaryUpdate (die : Nat)
  /-- STEAL_REQUEST (R186) -/
  | stealRequest (thief donor : Nat) (there : Bool)
  /-- STEAL_DONATION (R186) -/
  | stealDonation (thief : Nat) (p : TaskPkt)
  /-- FLOCK_COUNT_CHANGE (R360) -/
  | flockCountChange (ctx flock : Nat) (up : Bool) (ack : Option (Nat × Nat))
  /-- FLOCK_ARRIVAL (R360) -/
  | flockArrival (ctx flock core slot tid : Nat)
  /-- BARRIER_RELEASE (R362) -/
  | barrierRelease (ctx flock core slot tid : Nat)
  /-- OWNER_LOOKUP (R344) -/
  | ownerLookup (t : Tag) (k : Word)
  /-- K_NOTICE (R349) -/
  | kNotice (n : Notice)
  /-- TABLE_REBUILD (R350) -/
  | tableRebuild (core : Nat)
  /-- MAP_UPDATE_COMPLETE (R346) -/
  | mapUpdateComplete (id : Nat)
  /-- RETIRE_NOTICE (R356) -/
  | retireNotice (core ctx : Nat) (bid : BitVec 32)
  /-- MATRIX_COMMAND_START (R304) -/
  | matrixCommandStart (copse : Nat) (fill : Bool)
  /-- MMA_FINISH (R311) -/
  | mmaFinish (copse : Nat)
  /-- RKFILL_FINISH (R308) -/
  | rkfillFinish (copse : Nat)
  /-- RICK_REFILL (R310) -/
  | rickRefill (copse entry : Nat)
  /-- MDRAIN_FINISH (R312) -/
  | mdrainFinish (copse : Nat)
  /-- RICK_STALE_MARK (R151) -/
  | rickStaleMark (copse handle : Nat) (ack : Option Tag)
  /-- BANK_ZEROED (R307) -/
  | bankZeroed (copse bank : Nat)
  /-- COPY_RUN (R328) -/
  | copyRun (core tag : Nat)
  /-- COPY_LANDED (R150) -/
  | copyLanded (core tag : Nat)
  /-- RUNNEL_FILL_FETCH (R335) -/
  | runnelFillFetch (core slot port : Nat)
  /-- RUNNEL_DRAIN_WRITE (R335) -/
  | runnelDrainWrite (core slot port : Nat)
  /-- NEIGHBOUR_WORD (R335) -/
  | neighbourWord (core ctx link sender port : Nat) (w : Word)
  /-- NEIGHBOUR_CREDIT (R335) -/
  | neighbourCredit (core ctx link sender port : Nat)
  /-- FABRIC_CHUNK_RESULT (R435) -/
  | fabricChunkResult (core tag inst chunk : Nat) (data : List Byte)
  /-- FABRIC_ABORTED (R435) -/
  | fabricAborted (core tag inst : Nat)
  /-- COLLECTIVE_TIMEOUT (R435) -/
  | collectiveTimeout (core tag : Nat)
  /-- PRECOPY_PAGE (R434) -/
  | precopyPage (ctx : Nat)
  /-- PAGE_RECORD_RECEIVE (R434) -/
  | pageRecordReceive (ctx vpn : Nat) (guards : List (BitVec 32)) (data : List Byte)
  /-- STREAM_SEND (R394) -/
  | streamSend (gw stream : Nat) (req : Bool)
  /-- STREAM_RECEIVE (R395) -/
  | streamReceive (gw stream : Nat) (phase comp : Bool)
  /-- OLD_KEY_TIMEOUT (R395) -/
  | oldKeyTimeout (gw stream : Nat)
  /-- KEY_LOAD (R390) -/
  | keyLoad (kid : Nat)
  /-- CREATE (R383) -/
  | create (cmd : Nat)
  /-- ADDCORE (R383) -/
  | addcore (cmd : Nat)
  /-- REMCORE (R383) -/
  | remcore (cmd : Nat)
  /-- SETQUOTA (R384) -/
  | setquota (cmd : Nat)
  /-- GRANT (R386) -/
  | grant (cmd : Nat)
  /-- INSTALL (R387) -/
  | install (cmd : Nat)
  /-- REVOKE (R388) -/
  | revoke (cmd : Nat)
  /-- SHAREKEY (R383) -/
  | sharekey (cmd : Nat)
  /-- STOP (R383) -/
  | stop (cmd : Nat)
  /-- DESTROY (R385) -/
  | destroy (cmd : Nat)
  /-- EXPORT (R392) -/
  | exportKeys (cmd : Nat)
  /-- IMPORT (R392) -/
  | importKeys (cmd : Nat)
  /-- ATTEST (R398) -/
  | attest (cmd : Nat)
  /-- STREAMKEY (R393) -/
  | streamkey (cmd : Nat)
  /-- HOSTMAP (R441) -/
  | hostmap (cmd : Nat)
  /-- GWSTART_WRITE (R433) -/
  | gwstartWrite (gw : Nat) (v : Word)
  /-- HEALTH_CLEAR (R436) -/
  | healthClear (v : Word)
  /-- MONCFG_WRITE (R438) -/
  | moncfgWrite (die : Nat) (v : Word)
  /-- THERMAL_ALARM (R437) -/
  | thermalAlarm (die : Nat) (x : Sense)
  /-- THERMAL_TRIP (R437) -/
  | thermalTrip (die : Nat) (x : Sense)
  /-- THROTTLE_END (R437) -/
  | throttleEnd (die : Nat) (x : Sense)
  /-- DROOP (R437) -/
  | droop (die copse : Nat)
  /-- BRING_UP (R439) -/
  | bringUp
  /-- FIRMWARE_RELOAD (R440) -/
  | firmwareReload (image : Nat)
  /-- COMPLETION_TIMEOUT (R395) -/
  | completionTimeout (gw stream : Nat) (t : Tag)
  /-- POWER_CUT (R396) -/
  | powerCut
  /-- REMOTE_CHANNEL_CHANGE (R364) -/
  | remoteChannelChange (core ctx chan : Nat) (blk : Bool)
  /-- WAKE_ACKNOWLEDGEMENT (R278) -/
  | wakeAcknowledgement (core slot word : Nat)
  /-- ATOMIC_GRANT (R138) -/
  | atomicGrant (r : Reply)
  /-- TILE_READ_OUT (R312) -/
  | tileReadOut (copse : Nat)
  /-- FORCED_EVICTION (R306) -/
  | forcedEviction (copse entry : Nat)
  deriving DecidableEq, Repr, Inhabited

/-- One constructor for each row of the opcode table.  The steps of the part carry no fields here: the subject of the
step that happens is the machine's `event` field, as the position of the instruction that issues is its `turn`. -/
inductive Instr where
  | read (f : Form)
  | write (f : Form)
  | mov (f : Form)
  | const (f : Form)
  | null (f : Form)
  | add (f : Form)
  | sub (f : Form)
  | mul (f : Form)
  | and (f : Form)
  | or (f : Form)
  | xor (f : Form)
  | andn (f : Form)
  | not (f : Form)
  | shl (f : Form)
  | shr (f : Form)
  | sar (f : Form)
  | sel (f : Form)
  | teq (f : Form)
  | tne (f : Form)
  | tlt (f : Form)
  | tle (f : Form)
  | tltu (f : Form)
  | tleu (f : Form)
  | pand (f : Form)
  | por (f : Form)
  | pnot (f : Form)
  | br (f : Form)
  | bri (f : Form)
  | call (f : Form)
  | ret (f : Form)
  | exit (f : Form)
  | ldB (f : Form)
  | ldBu (f : Form)
  | ldH (f : Form)
  | ldHu (f : Form)
  | ldW (f : Form)
  | ldWu (f : Form)
  | ldD (f : Form)
  | ldQ (f : Form)
  | ldf (k : LdForm) (f : Form)
  | stB (f : Form)
  | stH (f : Form)
  | stW (f : Form)
  | stD (f : Form)
  | stQ (f : Form)
  | ldv (f : Form)
  | stv (f : Form)
  | qld (f : Form)
  | qst (f : Form)
  | mulh (f : Form)
  | mulhu (f : Form)
  | div (f : Form)
  | divu (f : Form)
  | rem (f : Form)
  | remu (f : Form)
  | rot (f : Form)
  | min (f : Form)
  | max (f : Form)
  | minu (f : Form)
  | maxu (f : Form)
  | abs (f : Form)
  | neg (f : Form)
  | clz (f : Form)
  | ctz (f : Form)
  | popc (f : Form)
  | brev (f : Form)
  | sext (f : Form)
  | zext (f : Form)
  | qdig (f : Form)
  | qset (f : Form)
  | qtrunc (f : Form)
  | qparent (f : Form)
  | qchild (f : Form)
  | qinter (f : Form)
  | qsplit (f : Form)
  | qdepth (f : Form)
  | qnext (f : Form)
  | amadd (f : Form)
  | amand (f : Form)
  | amor (f : Form)
  | amxor (f : Form)
  | ammin (f : Form)
  | ammax (f : Form)
  | amminu (f : Form)
  | ammaxu (f : Form)
  | amswap (f : Form)
  | amcas (f : Form)
  | amaddf (f : Form)
  | redadd (f : Form)
  | redmin (f : Form)
  | redmax (f : Form)
  | redand (f : Form)
  | redor (f : Form)
  | redxor (f : Form)
  | redaddf (f : Form)
  | gath (f : Form)
  | fence (f : Form)
  | xfence (f : Form)
  | watch (f : Form)
  | unwatch (f : Form)
  | stw (f : Form)
  | protb (f : Form)
  | vadd (f : Form)
  | vsub (f : Form)
  | vmul (f : Form)
  | vfma (f : Form)
  | vfms (f : Form)
  | vmin (f : Form)
  | vmax (f : Form)
  | vabs (f : Form)
  | vneg (f : Form)
  | vrcp (f : Form)
  | vrsq (f : Form)
  | vexp2 (f : Form)
  | vlog2 (f : Form)
  | vand (f : Form)
  | vor (f : Form)
  | vxor (f : Form)
  | vshl (f : Form)
  | vshr (f : Form)
  | vsar (f : Form)
  | vcmp (f : Form)
  | vsel (f : Form)
  | vredsum (f : Form)
  | vredmax (f : Form)
  | vdot (f : Form)
  | vcvt (f : Form)
  | vscale (f : Form)
  | vpack (f : Form)
  | vunpack (f : Form)
  | vperm (f : Form)
  | vbcast (f : Form)
  | vins (f : Form)
  | vext (f : Form)
  | vqshuf (f : Form)
  | vtrn (f : Form)
  | viota (f : Form)
  | rkalloc (f : Form)
  | rkfill (f : Form)
  | rkpin (f : Form)
  | rkunpin (f : Form)
  | rkrev (f : Form)
  | rkqry (f : Form)
  | mma (f : Form)
  | mmaz (f : Form)
  | mdrain (f : Form)
  | mring (f : Form)
  | mtail (f : Form)
  | mcnt (f : Form)
  | mthr (f : Form)
  | mwgt (f : Form)
  | mbxw (f : Form)
  | mbxr (f : Form)
  | copy (f : Form)
  | waitany (f : Form)
  | waitall (f : Form)
  | ffr (f : Form)
  | tagclr (f : Form)
  | rnbind (f : Form)
  | rnunbind (f : Form)
  | send (f : Form)
  | sendOrd (f : Form)
  | waitmsg (f : Form)
  | msgpop (f : Form)
  | spawn (f : Form)
  | spawnb (f : Form)
  | kset (f : Form)
  | kget (f : Form)
  | migrate (f : Form)
  | nbr (f : Form)
  | nbrn (f : Form)
  | csplit (f : Form)
  | cmerge (f : Form)
  | chand (f : Form)
  | cmap (f : Form)
  | hedge (f : Form)
  | fjoin (f : Form)
  | fleave (f : Form)
  | fbar (f : Form)
  | tblk (f : Form)
  | tubl (f : Form)
  | tset (f : Form)
  | yield (f : Form)
  | park (f : Form)
  | done (f : Form)
  | setrnd (f : Form)
  | trap (f : Form)
  | tret (f : Form)
  | ctlget (f : Form)
  | ctlset (f : Form)
  | savec (f : Form)
  | loadc (f : Form)
  | halt (f : Form)
  | preempt (f : Form)
  /-- TINV_WRITE (R32) -/
  | tinvWrite
  /-- CLSTART_WRITE (R96) -/
  | clstartWrite
  /-- MIXDBG_WRITE (R135) -/
  | mixdbgWrite
  /-- CROOT_WRITE (R343) -/
  | crootWrite
  /-- DRVCFG_WRITE (R321) -/
  | drvcfgWrite
  /-- CPRES_RESUME (R330) -/
  | cpresResume
  /-- CPRES_ABORT (R330) -/
  | cpresAbort
  /-- REGISTER_WRITE (R374) -/
  | registerWrite
  /-- SHEAF_FETCH (R158) -/
  | sheafFetch
  /-- SHEAF_COMMIT (R161) -/
  | sheafCommit
  /-- TRAP_ENTRY (R370) -/
  | trapEntry
  /-- IMPRECISE_TRAP (R371) -/
  | impreciseTrap
  /-- LOAD_REPLY (R262) -/
  | loadReply
  /-- WRITE_ACK (R90) -/
  | writeAck
  /-- INJECTION_LEAVE (R89) -/
  | injectionLeave
  /-- ORDERED_PACKET_LEAVE (R93) -/
  | orderedPacketLeave
  /-- PACKET_HOP (R86) -/
  | packetHop
  /-- FLIT_RECEIVE (R103) -/
  | flitReceive
  /-- LINK_DOWN (R103) -/
  | linkDown
  /-- TRANSLATION_WALK (R30) -/
  | translationWalk
  /-- ZERO_SWEEP (R46) -/
  | zeroSweep
  /-- SLICE_ACCESS (R60) -/
  | sliceAccess
  /-- RESERVE_REQUEST (R139) -/
  | reserveRequest
  /-- RELEASE (R139) -/
  | release
  /-- CANCEL (R139) -/
  | cancel
  /-- RESERVATION_REVOKE (R140) -/
  | reservationRevoke
  /-- REVOKE_RECEIVE (R140) -/
  | revokeReceive
  /-- REDUCTION_APPLY (R142) -/
  | reductionApply
  /-- GATHER_HOME_READ (R143) -/
  | gatherHomeRead
  /-- SCRATCHPAD_ACCESS (R52) -/
  | scratchpadAccess
  /-- STW_APPLY (R278) -/
  | stwApply
  /-- UNPARK (R275) -/
  | unpark
  /-- SCRUB (R75) -/
  | scrub
  /-- PROTB_DRAIN (R44) -/
  | protbDrain
  /-- PROTB_INSTALL (R44) -/
  | protbInstall
  /-- TINV_COMPLETE (R32) -/
  | tinvComplete
  /-- START (R97) -/
  | start
  /-- CODE_LOAD_STORE (R95) -/
  | codeLoadStore
  /-- POOL_ACCESS (R62) -/
  | poolAccess
  /-- POOL_CACHE_MISS (R63) -/
  | poolCacheMiss
  /-- BACK_INVALIDATE (R64) -/
  | backInvalidate
  /-- GATEWAY_DRAIN (R117) -/
  | gatewayDrain
  /-- HOST_MEM_ACCESS (R441) -/
  | hostMemAccess
  /-- ARRIVAL (R167) -/
  | arrival
  /-- DISPATCH (R177) -/
  | dispatch
  /-- BURR_MIGRATION (R165) -/
  | burrMigration
  /-- THREAD_RETIRE (R359) -/
  | threadRetire
  /-- YIELD_RETIRE (R359) -/
  | yieldRetire
  /-- HALTED (R375) -/
  | halted
  /-- EVICTION (R376) -/
  | eviction
  /-- SAVEC_COMPLETE (R422) -/
  | savecComplete
  /-- LOADC_COMPLETE (R422) -/
  | loadcComplete
  /-- MAILBOX_DEPOSIT (R319) -/
  | mailboxDeposit
  /-- LAUNCH_RECORD (R432) -/
  | launchRecord
  /-- DIE_QUEUE_ENTER (R179) -/
  | dieQueueEnter
  /-- TASK_RELEASE (R182) -/
  | taskRelease
  /-- CLASS_AGING (R182) -/
  | classAging
  /-- TASK_OFFER (R184) -/
  | taskOffer
  /-- TASK_HINT_ARRIVAL (R185) -/
  | taskHintArrival
  /-- RETURN_HOLDOFF (R185) -/
  | returnHoldoff
  /-- DIE_SPILL_RELOAD (R180) -/
  | dieSpillReload
  /-- IDLE_SUMMARY_UPDATE (R183) -/
  | idleSummaryUpdate
  /-- STEAL_REQUEST (R186) -/
  | stealRequest
  /-- STEAL_DONATION (R186) -/
  | stealDonation
  /-- FLOCK_COUNT_CHANGE (R360) -/
  | flockCountChange
  /-- FLOCK_ARRIVAL (R360) -/
  | flockArrival
  /-- BARRIER_RELEASE (R362) -/
  | barrierRelease
  /-- OWNER_LOOKUP (R344) -/
  | ownerLookup
  /-- K_NOTICE (R349) -/
  | kNotice
  /-- TABLE_REBUILD (R350) -/
  | tableRebuild
  /-- MAP_UPDATE_COMPLETE (R346) -/
  | mapUpdateComplete
  /-- RETIRE_NOTICE (R356) -/
  | retireNotice
  /-- MATRIX_COMMAND_START (R304) -/
  | matrixCommandStart
  /-- MMA_FINISH (R311) -/
  | mmaFinish
  /-- RKFILL_FINISH (R308) -/
  | rkfillFinish
  /-- RICK_REFILL (R310) -/
  | rickRefill
  /-- MDRAIN_FINISH (R312) -/
  | mdrainFinish
  /-- RICK_STALE_MARK (R151) -/
  | rickStaleMark
  /-- BANK_ZEROED (R307) -/
  | bankZeroed
  /-- COPY_RUN (R328) -/
  | copyRun
  /-- COPY_LANDED (R150) -/
  | copyLanded
  /-- RUNNEL_FILL_FETCH (R335) -/
  | runnelFillFetch
  /-- RUNNEL_DRAIN_WRITE (R335) -/
  | runnelDrainWrite
  /-- NEIGHBOUR_WORD (R335) -/
  | neighbourWord
  /-- NEIGHBOUR_CREDIT (R335) -/
  | neighbourCredit
  /-- FABRIC_CHUNK_RESULT (R435) -/
  | fabricChunkResult
  /-- FABRIC_ABORTED (R435) -/
  | fabricAborted
  /-- COLLECTIVE_TIMEOUT (R435) -/
  | collectiveTimeout
  /-- PRECOPY_PAGE (R434) -/
  | precopyPage
  /-- PAGE_RECORD_RECEIVE (R434) -/
  | pageRecordReceive
  /-- STREAM_SEND (R394) -/
  | streamSend
  /-- STREAM_RECEIVE (R395) -/
  | streamReceive
  /-- OLD_KEY_TIMEOUT (R395) -/
  | oldKeyTimeout
  /-- KEY_LOAD (R390) -/
  | keyLoad
  /-- CREATE (R383) -/
  | create
  /-- ADDCORE (R383) -/
  | addcore
  /-- REMCORE (R383) -/
  | remcore
  /-- SETQUOTA (R384) -/
  | setquota
  /-- GRANT (R386) -/
  | grant
  /-- INSTALL (R387) -/
  | install
  /-- REVOKE (R388) -/
  | revoke
  /-- SHAREKEY (R383) -/
  | sharekey
  /-- STOP (R383) -/
  | stop
  /-- DESTROY (R385) -/
  | destroy
  /-- EXPORT (R392) -/
  | exportKeys
  /-- IMPORT (R392) -/
  | importKeys
  /-- ATTEST (R398) -/
  | attest
  /-- STREAMKEY (R393) -/
  | streamkey
  /-- HOSTMAP (R441) -/
  | hostmap
  /-- GWSTART_WRITE (R433) -/
  | gwstartWrite
  /-- HEALTH_CLEAR (R436) -/
  | healthClear
  /-- MONCFG_WRITE (R438) -/
  | moncfgWrite
  /-- THERMAL_ALARM (R437) -/
  | thermalAlarm
  /-- THERMAL_TRIP (R437) -/
  | thermalTrip
  /-- THROTTLE_END (R437) -/
  | throttleEnd
  /-- DROOP (R437) -/
  | droop
  /-- BRING_UP (R439) -/
  | bringUp
  /-- FIRMWARE_RELOAD (R440) -/
  | firmwareReload
  /-- COMPLETION_TIMEOUT (R395) -/
  | completionTimeout
  /-- POWER_CUT (R396) -/
  | powerCut
  /-- REMOTE_CHANNEL_CHANGE (R364) -/
  | remoteChannelChange
  /-- WAKE_ACKNOWLEDGEMENT (R278) -/
  | wakeAcknowledgement
  /-- ATOMIC_GRANT (R138) -/
  | atomicGrant
  /-- TILE_READ_OUT (R312) -/
  | tileReadOut
  /-- FORCED_EVICTION (R306) -/
  | forcedEviction
  deriving DecidableEq, Repr, Inhabited

/-- The step an event is. -/
def Event.instr : Event → Instr
  | .tinvWrite .. => .tinvWrite
  | .clstartWrite .. => .clstartWrite
  | .mixdbgWrite .. => .mixdbgWrite
  | .crootWrite .. => .crootWrite
  | .drvcfgWrite .. => .drvcfgWrite
  | .cpresResume .. => .cpresResume
  | .cpresAbort .. => .cpresAbort
  | .registerWrite .. => .registerWrite
  | .sheafFetch .. => .sheafFetch
  | .sheafCommit .. => .sheafCommit
  | .trapEntry .. => .trapEntry
  | .impreciseTrap .. => .impreciseTrap
  | .loadReply .. => .loadReply
  | .writeAck .. => .writeAck
  | .injectionLeave .. => .injectionLeave
  | .orderedPacketLeave .. => .orderedPacketLeave
  | .packetHop .. => .packetHop
  | .flitReceive .. => .flitReceive
  | .linkDown .. => .linkDown
  | .translationWalk .. => .translationWalk
  | .zeroSweep .. => .zeroSweep
  | .sliceAccess .. => .sliceAccess
  | .reserveRequest .. => .reserveRequest
  | .release .. => .release
  | .cancel .. => .cancel
  | .reservationRevoke .. => .reservationRevoke
  | .revokeReceive .. => .revokeReceive
  | .reductionApply .. => .reductionApply
  | .gatherHomeRead .. => .gatherHomeRead
  | .scratchpadAccess .. => .scratchpadAccess
  | .stwApply .. => .stwApply
  | .unpark .. => .unpark
  | .scrub .. => .scrub
  | .protbDrain .. => .protbDrain
  | .protbInstall .. => .protbInstall
  | .tinvComplete .. => .tinvComplete
  | .start .. => .start
  | .codeLoadStore .. => .codeLoadStore
  | .poolAccess .. => .poolAccess
  | .poolCacheMiss .. => .poolCacheMiss
  | .backInvalidate .. => .backInvalidate
  | .gatewayDrain .. => .gatewayDrain
  | .hostMemAccess .. => .hostMemAccess
  | .arrival .. => .arrival
  | .dispatch .. => .dispatch
  | .burrMigration .. => .burrMigration
  | .threadRetire .. => .threadRetire
  | .yieldRetire .. => .yieldRetire
  | .halted .. => .halted
  | .eviction .. => .eviction
  | .savecComplete .. => .savecComplete
  | .loadcComplete .. => .loadcComplete
  | .mailboxDeposit .. => .mailboxDeposit
  | .launchRecord .. => .launchRecord
  | .dieQueueEnter .. => .dieQueueEnter
  | .taskRelease .. => .taskRelease
  | .classAging .. => .classAging
  | .taskOffer .. => .taskOffer
  | .taskHintArrival .. => .taskHintArrival
  | .returnHoldoff .. => .returnHoldoff
  | .dieSpillReload .. => .dieSpillReload
  | .idleSummaryUpdate .. => .idleSummaryUpdate
  | .stealRequest .. => .stealRequest
  | .stealDonation .. => .stealDonation
  | .flockCountChange .. => .flockCountChange
  | .flockArrival .. => .flockArrival
  | .barrierRelease .. => .barrierRelease
  | .ownerLookup .. => .ownerLookup
  | .kNotice .. => .kNotice
  | .tableRebuild .. => .tableRebuild
  | .mapUpdateComplete .. => .mapUpdateComplete
  | .retireNotice .. => .retireNotice
  | .matrixCommandStart .. => .matrixCommandStart
  | .mmaFinish .. => .mmaFinish
  | .rkfillFinish .. => .rkfillFinish
  | .rickRefill .. => .rickRefill
  | .mdrainFinish .. => .mdrainFinish
  | .rickStaleMark .. => .rickStaleMark
  | .bankZeroed .. => .bankZeroed
  | .copyRun .. => .copyRun
  | .copyLanded .. => .copyLanded
  | .runnelFillFetch .. => .runnelFillFetch
  | .runnelDrainWrite .. => .runnelDrainWrite
  | .neighbourWord .. => .neighbourWord
  | .neighbourCredit .. => .neighbourCredit
  | .fabricChunkResult .. => .fabricChunkResult
  | .fabricAborted .. => .fabricAborted
  | .collectiveTimeout .. => .collectiveTimeout
  | .precopyPage .. => .precopyPage
  | .pageRecordReceive .. => .pageRecordReceive
  | .streamSend .. => .streamSend
  | .streamReceive .. => .streamReceive
  | .oldKeyTimeout .. => .oldKeyTimeout
  | .keyLoad .. => .keyLoad
  | .create .. => .create
  | .addcore .. => .addcore
  | .remcore .. => .remcore
  | .setquota .. => .setquota
  | .grant .. => .grant
  | .install .. => .install
  | .revoke .. => .revoke
  | .sharekey .. => .sharekey
  | .stop .. => .stop
  | .destroy .. => .destroy
  | .exportKeys .. => .exportKeys
  | .importKeys .. => .importKeys
  | .attest .. => .attest
  | .streamkey .. => .streamkey
  | .hostmap .. => .hostmap
  | .gwstartWrite .. => .gwstartWrite
  | .healthClear .. => .healthClear
  | .moncfgWrite .. => .moncfgWrite
  | .thermalAlarm .. => .thermalAlarm
  | .thermalTrip .. => .thermalTrip
  | .throttleEnd .. => .throttleEnd
  | .droop .. => .droop
  | .bringUp => .bringUp
  | .firmwareReload _ => .firmwareReload
  | .completionTimeout .. => .completionTimeout
  | .powerCut => .powerCut
  | .remoteChannelChange .. => .remoteChannelChange
  | .wakeAcknowledgement .. => .wakeAcknowledgement
  | .atomicGrant .. => .atomicGrant
  | .tileReadOut .. => .tileReadOut
  | .forcedEviction .. => .forcedEviction

end Sys2Proof
end

