-- ==== Sys2Proof/WellFormed.lean ====
section
/-!
DEFINITION. What makes an instruction of a sheaf well formed apart from where it stands (R201 to R217): the page,
opcode, ports, immediate, result and prefixes of every instruction (the tables R238, R259, R283, R298, R318, R340
and R373), and the checks of R217's second pass that need neither the body position nor the thread kind.
-/
namespace Sys2Proof

/-- The kind of a token or port (R207).  `any` is MOV's own kind and NULL's, which has none. -/
inductive Kind where
  | sc | ve | any
  deriving DecidableEq, Repr, Inhabited

/-- What an entry says of a port: it has none, it is required, or it is optional (R260). -/
inductive Need where
  | no
  | req (k : Kind)
  | opt (k : Kind)
  deriving DecidableEq, Repr, Inhabited

/-- The immediate form of an entry (R204): none, the chain on a port, or a required chain. -/
inductive ImmUse where
  | no
  | port (n : Nat)
  | chain
  deriving DecidableEq, Repr, Inhabited

/-- What a REG prefix names (R206): READ and WRITE's register, a policy register, a runnel port. -/
inductive RegUse where
  | no | named | policy | runnel
  deriving DecidableEq, Repr, Inhabited

/-- The SUB values an instruction takes (R216). -/
inductive SubUse where
  | upTo (n : Nat)
  | one
  | paths
  | sat
  | tileSat
  deriving DecidableEq, Repr, Inhabited

/-- The sets of format codes that R282, R310 and R312 name. -/
inductive FmtSet where
  | fi | signed | f | i | dot | tile | drain | scaled
  deriving DecidableEq, Repr, Inhabited

/-- The size rule of a pair of formats (R282). -/
inductive SizeRule where
  | anySize | widen | narrow
  deriving DecidableEq, Repr, Inhabited

/-- The FMT prefixes of an instruction (R206). -/
inductive FmtUse where
  | no
  | one (s : FmtSet)
  | two (src dst : FmtSet) (rule : SizeRule)
  deriving DecidableEq, Repr, Inhabited

/-- The DEP prefix of an instruction (R269, R279, R298). -/
inductive DepUse where
  | no | corner | byteForm | elemForm
  deriving DecidableEq, Repr, Inhabited

/-- One row of the tables R238, R259, R283, R298, R318, R340 and R373. -/
structure Info where
  page : Nat
  op   : Nat
  l    : Need := .no
  r    : Need := .no
  x    : Need := .no
  imm  : ImmUse := .no
  res  : Option Kind := none
  res2 : Option Kind := none
  reg  : RegUse := .no
  lsq  : Bool := false
  fmts : FmtUse := .no
  dep  : DepUse := .no
  sub  : SubUse := .upTo 0
  priv : Bool := false
  deriving DecidableEq, Repr, Inhabited

/-- The opcode offset of an LD form (R213). -/
def LdForm.index : LdForm → Nat
  | .b => 0 | .bu => 1 | .h => 2 | .hu => 3 | .w => 4 | .wu => 5 | .d => 6 | .q => 7

/-- LD.q gives a vector token, the other forms a scalar (R265). -/
def LdForm.kind : LdForm → Kind
  | .q => .ve
  | _ => .sc

/-- The token kind of a READ's or WRITE's register (R239, R240). -/
def regKind (f : Form) : Kind :=
  match f.reg with
  | some (1, _) => .ve
  | _ => .sc

/-- QLD and QST move a vector at depths 29 and 30, a scalar at 31 and 32 (R269). -/
def depKind (f : Form) : Kind :=
  match f.dep with
  | some (d, _) => if d.toNat ≤ 30 then .ve else .sc
  | none => .sc

/-- A READ or WRITE of class S is an ordered event (R212). -/
def isRunnel (f : Form) : Bool :=
  match f.reg with
  | some (3, _) => true
  | _ => false

/-- The row of an instruction; the steps of the device have none. -/
def Instr.info : Instr → Option Info
  | .read f => some { page := 0, op := 0, res := some (regKind f), reg := .named, lsq := isRunnel f }
  | .write f => some { page := 0, op := 1, l := .req (regKind f), reg := .named, lsq := isRunnel f }
  | .mov _ => some { page := 0, op := 2, l := .req .any, res := some .any }
  | .const _ => some { page := 0, op := 3, imm := .chain, res := some .sc }
  | .null _ => some { page := 0, op := 4, res := some .any }
  | .add _ => some { page := 0, op := 5, l := .req .sc, r := .req .sc, imm := .port 1, res := some .sc }
  | .sub _ => some { page := 0, op := 6, l := .req .sc, r := .req .sc, imm := .port 1, res := some .sc }
  | .mul _ => some { page := 0, op := 7, l := .req .sc, r := .req .sc, imm := .port 1, res := some .sc }
  | .and _ => some { page := 0, op := 8, l := .req .sc, r := .req .sc, imm := .port 1, res := some .sc }
  | .or _ => some { page := 0, op := 9, l := .req .sc, r := .req .sc, imm := .port 1, res := some .sc }
  | .xor _ => some { page := 0, op := 0xa, l := .req .sc, r := .req .sc, imm := .port 1, res := some .sc }
  | .andn _ => some { page := 0, op := 0xb, l := .req .sc, r := .req .sc, imm := .port 1, res := some .sc }
  | .not _ => some { page := 0, op := 0xc, l := .req .sc, res := some .sc }
  | .shl _ => some { page := 0, op := 0xd, l := .req .sc, r := .req .sc, imm := .port 1, res := some .sc }
  | .shr _ => some { page := 0, op := 0xe, l := .req .sc, r := .req .sc, imm := .port 1, res := some .sc }
  | .sar _ => some { page := 0, op := 0xf, l := .req .sc, r := .req .sc, imm := .port 1, res := some .sc }
  | .sel _ => some { page := 0, op := 0x10, l := .req .sc, r := .req .sc, x := .req .sc, res := some .sc }
  | .teq _ => some { page := 0, op := 0x11, l := .req .sc, r := .req .sc, imm := .port 1, res := some .sc }
  | .tne _ => some { page := 0, op := 0x12, l := .req .sc, r := .req .sc, imm := .port 1, res := some .sc }
  | .tlt _ => some { page := 0, op := 0x13, l := .req .sc, r := .req .sc, imm := .port 1, res := some .sc }
  | .tle _ => some { page := 0, op := 0x14, l := .req .sc, r := .req .sc, imm := .port 1, res := some .sc }
  | .tltu _ => some { page := 0, op := 0x15, l := .req .sc, r := .req .sc, imm := .port 1, res := some .sc }
  | .tleu _ => some { page := 0, op := 0x16, l := .req .sc, r := .req .sc, imm := .port 1, res := some .sc }
  | .pand _ => some { page := 0, op := 0x17, l := .req .sc, r := .req .sc, res := some .sc }
  | .por _ => some { page := 0, op := 0x18, l := .req .sc, r := .req .sc, res := some .sc }
  | .pnot _ => some { page := 0, op := 0x19, l := .req .sc, res := some .sc }
  | .br _ => some { page := 0, op := 0x1a, l := .req .sc }
  | .bri _ => some { page := 0, op := 0x1b, imm := .chain }
  | .call _ => some { page := 0, op := 0x1c, imm := .chain, res := some .sc }
  | .ret _ => some { page := 0, op := 0x1d, l := .req .sc }
  | .exit _ => some { page := 0, op := 0x1e }
  | .ldB _ => some { page := 0, op := 0x20, l := .req .sc, x := .opt .sc, imm := .port 2, res := some .sc, reg := .policy, lsq := true }
  | .ldBu _ => some { page := 0, op := 0x21, l := .req .sc, x := .opt .sc, imm := .port 2, res := some .sc, reg := .policy, lsq := true }
  | .ldH _ => some { page := 0, op := 0x22, l := .req .sc, x := .opt .sc, imm := .port 2, res := some .sc, reg := .policy, lsq := true }
  | .ldHu _ => some { page := 0, op := 0x23, l := .req .sc, x := .opt .sc, imm := .port 2, res := some .sc, reg := .policy, lsq := true }
  | .ldW _ => some { page := 0, op := 0x24, l := .req .sc, x := .opt .sc, imm := .port 2, res := some .sc, reg := .policy, lsq := true }
  | .ldWu _ => some { page := 0, op := 0x25, l := .req .sc, x := .opt .sc, imm := .port 2, res := some .sc, reg := .policy, lsq := true }
  | .ldD _ => some { page := 0, op := 0x26, l := .req .sc, x := .opt .sc, imm := .port 2, res := some .sc, reg := .policy, lsq := true }
  | .ldQ _ => some { page := 0, op := 0x27, l := .req .sc, x := .opt .sc, imm := .port 2, res := some .ve, reg := .policy, lsq := true }
  | .ldf k _ => some { page := 0, op := 0x20 + k.index, l := .req .sc, x := .opt .sc, imm := .port 2, res := some k.kind, reg := .policy, lsq := true }
  | .stB _ => some { page := 0, op := 0x28, l := .req .sc, r := .req .sc, x := .opt .sc, imm := .port 2, reg := .policy, lsq := true }
  | .stH _ => some { page := 0, op := 0x29, l := .req .sc, r := .req .sc, x := .opt .sc, imm := .port 2, reg := .policy, lsq := true }
  | .stW _ => some { page := 0, op := 0x2a, l := .req .sc, r := .req .sc, x := .opt .sc, imm := .port 2, reg := .policy, lsq := true }
  | .stD _ => some { page := 0, op := 0x2b, l := .req .sc, r := .req .sc, x := .opt .sc, imm := .port 2, reg := .policy, lsq := true }
  | .stQ _ => some { page := 0, op := 0x2c, l := .req .sc, r := .req .ve, x := .opt .sc, imm := .port 2, reg := .policy, lsq := true }
  | .ldv _ => some { page := 0, op := 0x2d, l := .req .sc, x := .opt .sc, imm := .port 2, res := some .ve, reg := .policy, lsq := true }
  | .stv _ => some { page := 0, op := 0x2e, l := .req .sc, r := .req .ve, x := .opt .sc, imm := .port 2, reg := .policy, lsq := true }
  | .qld f => some { page := 0, op := 0x2f, l := .req .sc, x := .opt .sc, imm := .port 2, res := some (depKind f), reg := .policy, lsq := true, dep := .corner }
  | .qst f => some { page := 0, op := 0x30, l := .req .sc, r := .req (depKind f), x := .opt .sc, imm := .port 2, reg := .policy, lsq := true, dep := .corner }
  | .mulh _ => some { page := 1, op := 0, l := .req .sc, r := .req .sc, imm := .port 1, res := some .sc }
  | .mulhu _ => some { page := 1, op := 1, l := .req .sc, r := .req .sc, imm := .port 1, res := some .sc }
  | .div _ => some { page := 1, op := 2, l := .req .sc, r := .req .sc, imm := .port 1, res := some .sc }
  | .divu _ => some { page := 1, op := 3, l := .req .sc, r := .req .sc, imm := .port 1, res := some .sc }
  | .rem _ => some { page := 1, op := 4, l := .req .sc, r := .req .sc, imm := .port 1, res := some .sc }
  | .remu _ => some { page := 1, op := 5, l := .req .sc, r := .req .sc, imm := .port 1, res := some .sc }
  | .rot _ => some { page := 1, op := 6, l := .req .sc, r := .req .sc, imm := .port 1, res := some .sc }
  | .min _ => some { page := 1, op := 7, l := .req .sc, r := .req .sc, imm := .port 1, res := some .sc }
  | .max _ => some { page := 1, op := 8, l := .req .sc, r := .req .sc, imm := .port 1, res := some .sc }
  | .minu _ => some { page := 1, op := 9, l := .req .sc, r := .req .sc, imm := .port 1, res := some .sc }
  | .maxu _ => some { page := 1, op := 0xa, l := .req .sc, r := .req .sc, imm := .port 1, res := some .sc }
  | .abs _ => some { page := 1, op := 0xb, l := .req .sc, res := some .sc }
  | .neg _ => some { page := 1, op := 0xc, l := .req .sc, res := some .sc }
  | .clz _ => some { page := 1, op := 0xd, l := .req .sc, res := some .sc }
  | .ctz _ => some { page := 1, op := 0xe, l := .req .sc, res := some .sc }
  | .popc _ => some { page := 1, op := 0xf, l := .req .sc, res := some .sc }
  | .brev _ => some { page := 1, op := 0x10, l := .req .sc, res := some .sc }
  | .sext _ => some { page := 1, op := 0x11, l := .req .sc, res := some .sc, sub := .upTo 2 }
  | .zext _ => some { page := 1, op := 0x12, l := .req .sc, res := some .sc, sub := .upTo 2 }
  | .qdig _ => some { page := 1, op := 0x13, l := .req .sc, r := .req .sc, imm := .port 1, res := some .sc }
  | .qset _ => some { page := 1, op := 0x14, l := .req .sc, r := .req .sc, x := .req .sc, imm := .port 1, res := some .sc }
  | .qtrunc _ => some { page := 1, op := 0x15, l := .req .sc, r := .req .sc, imm := .port 1, res := some .sc }
  | .qparent _ => some { page := 1, op := 0x16, l := .req .sc, res := some .sc }
  | .qchild _ => some { page := 1, op := 0x17, l := .req .sc, r := .req .sc, imm := .port 1, res := some .sc }
  | .qinter _ => some { page := 1, op := 0x18, l := .req .sc, r := .req .sc, imm := .port 1, res := some .sc }
  | .qsplit _ => some { page := 1, op := 0x19, l := .req .sc, res := some .sc }
  | .qdepth _ => some { page := 1, op := 0x1a, l := .req .sc, r := .req .sc, imm := .port 1, res := some .sc }
  | .qnext _ => some { page := 1, op := 0x1b, l := .req .sc, r := .req .sc, imm := .port 1, res := some .sc }
  | .amadd _ => some { page := 2, op := 0, l := .req .sc, r := .req .sc, imm := .port 1, res := some .sc, reg := .policy, lsq := true, sub := .upTo 1 }
  | .amand _ => some { page := 2, op := 1, l := .req .sc, r := .req .sc, imm := .port 1, res := some .sc, reg := .policy, lsq := true, sub := .upTo 1 }
  | .amor _ => some { page := 2, op := 2, l := .req .sc, r := .req .sc, imm := .port 1, res := some .sc, reg := .policy, lsq := true, sub := .upTo 1 }
  | .amxor _ => some { page := 2, op := 3, l := .req .sc, r := .req .sc, imm := .port 1, res := some .sc, reg := .policy, lsq := true, sub := .upTo 1 }
  | .ammin _ => some { page := 2, op := 4, l := .req .sc, r := .req .sc, imm := .port 1, res := some .sc, reg := .policy, lsq := true, sub := .upTo 1 }
  | .ammax _ => some { page := 2, op := 5, l := .req .sc, r := .req .sc, imm := .port 1, res := some .sc, reg := .policy, lsq := true, sub := .upTo 1 }
  | .amminu _ => some { page := 2, op := 6, l := .req .sc, r := .req .sc, imm := .port 1, res := some .sc, reg := .policy, lsq := true, sub := .upTo 1 }
  | .ammaxu _ => some { page := 2, op := 7, l := .req .sc, r := .req .sc, imm := .port 1, res := some .sc, reg := .policy, lsq := true, sub := .upTo 1 }
  | .amswap _ => some { page := 2, op := 8, l := .req .sc, r := .req .sc, imm := .port 1, res := some .sc, reg := .policy, lsq := true, sub := .upTo 1 }
  | .amcas _ => some { page := 2, op := 9, l := .req .sc, r := .req .sc, x := .req .sc, imm := .port 1, res := some .sc, reg := .policy, lsq := true, sub := .upTo 1 }
  | .amaddf _ => some { page := 2, op := 0xa, l := .req .sc, r := .req .sc, imm := .port 1, res := some .sc, reg := .policy, lsq := true }
  | .redadd _ => some { page := 2, op := 0x10, l := .req .sc, r := .req .sc, imm := .port 1, reg := .policy, lsq := true, sub := .upTo 1 }
  | .redmin _ => some { page := 2, op := 0x11, l := .req .sc, r := .req .sc, imm := .port 1, reg := .policy, lsq := true, sub := .upTo 1 }
  | .redmax _ => some { page := 2, op := 0x12, l := .req .sc, r := .req .sc, imm := .port 1, reg := .policy, lsq := true, sub := .upTo 1 }
  | .redand _ => some { page := 2, op := 0x13, l := .req .sc, r := .req .sc, imm := .port 1, reg := .policy, lsq := true, sub := .upTo 1 }
  | .redor _ => some { page := 2, op := 0x14, l := .req .sc, r := .req .sc, imm := .port 1, reg := .policy, lsq := true, sub := .upTo 1 }
  | .redxor _ => some { page := 2, op := 0x15, l := .req .sc, r := .req .sc, imm := .port 1, reg := .policy, lsq := true, sub := .upTo 1 }
  | .redaddf _ => some { page := 2, op := 0x16, l := .req .sc, r := .req .sc, imm := .port 1, reg := .policy, lsq := true }
  | .gath _ => some { page := 2, op := 0x18, l := .req .sc, r := .req .ve, x := .opt .sc, imm := .port 2, res := some .ve, reg := .policy, lsq := true }
  | .fence _ => some { page := 2, op := 0x19, lsq := true, sub := .upTo 5 }
  | .xfence _ => some { page := 2, op := 0x1a, lsq := true, sub := .paths }
  | .watch _ => some { page := 2, op := 0x1b, l := .req .sc, lsq := true }
  | .unwatch _ => some { page := 2, op := 0x1c, l := .req .sc, lsq := true }
  | .stw _ => some { page := 2, op := 0x1d, l := .req .sc, r := .req .sc, imm := .port 1, reg := .policy, lsq := true }
  | .protb _ => some { page := 2, op := 0x1e, l := .req .sc, r := .req .sc, x := .opt .sc, imm := .port 2, lsq := true, dep := .byteForm }
  | .vadd _ => some { page := 3, op := 0, l := .req .ve, r := .req .ve, imm := .port 1, res := some .ve, fmts := .one .fi, sub := .sat }
  | .vsub _ => some { page := 3, op := 1, l := .req .ve, r := .req .ve, imm := .port 1, res := some .ve, fmts := .one .fi, sub := .sat }
  | .vmul _ => some { page := 3, op := 2, l := .req .ve, r := .req .ve, imm := .port 1, res := some .ve, fmts := .one .fi, sub := .sat }
  | .vfma _ => some { page := 3, op := 3, l := .req .ve, r := .req .ve, x := .req .ve, res := some .ve, fmts := .one .fi, sub := .sat }
  | .vfms _ => some { page := 3, op := 4, l := .req .ve, r := .req .ve, x := .req .ve, res := some .ve, fmts := .one .fi, sub := .sat }
  | .vmin _ => some { page := 3, op := 5, l := .req .ve, r := .req .ve, imm := .port 1, res := some .ve, fmts := .one .fi }
  | .vmax _ => some { page := 3, op := 6, l := .req .ve, r := .req .ve, imm := .port 1, res := some .ve, fmts := .one .fi }
  | .vabs _ => some { page := 3, op := 7, l := .req .ve, res := some .ve, fmts := .one .signed }
  | .vneg _ => some { page := 3, op := 8, l := .req .ve, res := some .ve, fmts := .one .signed }
  | .vrcp _ => some { page := 3, op := 9, l := .req .ve, res := some .ve, fmts := .one .f, sub := .sat }
  | .vrsq _ => some { page := 3, op := 0xa, l := .req .ve, res := some .ve, fmts := .one .f, sub := .sat }
  | .vexp2 _ => some { page := 3, op := 0xb, l := .req .ve, res := some .ve, fmts := .one .f, sub := .sat }
  | .vlog2 _ => some { page := 3, op := 0xc, l := .req .ve, res := some .ve, fmts := .one .f, sub := .sat }
  | .vand _ => some { page := 3, op := 0xd, l := .req .ve, r := .req .ve, imm := .port 1, res := some .ve, fmts := .one .i }
  | .vor _ => some { page := 3, op := 0xe, l := .req .ve, r := .req .ve, imm := .port 1, res := some .ve, fmts := .one .i }
  | .vxor _ => some { page := 3, op := 0xf, l := .req .ve, r := .req .ve, imm := .port 1, res := some .ve, fmts := .one .i }
  | .vshl _ => some { page := 3, op := 0x10, l := .req .ve, r := .req .ve, imm := .port 1, res := some .ve, fmts := .one .i }
  | .vshr _ => some { page := 3, op := 0x11, l := .req .ve, r := .req .ve, imm := .port 1, res := some .ve, fmts := .one .i }
  | .vsar _ => some { page := 3, op := 0x12, l := .req .ve, r := .req .ve, imm := .port 1, res := some .ve, fmts := .one .i }
  | .vcmp _ => some { page := 3, op := 0x13, l := .req .ve, r := .req .ve, imm := .port 1, res := some .sc, fmts := .one .fi, sub := .upTo 5 }
  | .vsel _ => some { page := 3, op := 0x14, l := .req .ve, r := .req .ve, x := .req .sc, res := some .ve, fmts := .one .fi }
  | .vredsum _ => some { page := 3, op := 0x15, l := .req .ve, res := some .sc, fmts := .one .fi, sub := .sat }
  | .vredmax _ => some { page := 3, op := 0x16, l := .req .ve, res := some .sc, fmts := .one .fi }
  | .vdot _ => some { page := 3, op := 0x17, l := .req .ve, r := .req .ve, x := .opt .sc, res := some .sc, fmts := .one .dot, sub := .sat }
  | .vcvt _ => some { page := 4, op := 0, l := .req .ve, res := some .ve, fmts := .two .fi .fi .anySize, sub := .sat }
  | .vscale _ => some { page := 4, op := 1, l := .req .ve, r := .req .sc, x := .opt .sc, imm := .port 2, res := some .ve, fmts := .two .scaled .f .anySize, sub := .sat }
  | .vpack _ => some { page := 4, op := 2, l := .req .ve, r := .req .ve, x := .opt .sc, imm := .port 2, res := some .ve, fmts := .two .fi .fi .narrow, sub := .sat }
  | .vunpack _ => some { page := 4, op := 3, l := .req .ve, x := .opt .sc, imm := .port 2, res := some .ve, fmts := .two .fi .fi .widen }
  | .vperm _ => some { page := 4, op := 4, l := .req .ve, r := .req .ve, res := some .ve, fmts := .one .fi }
  | .vbcast _ => some { page := 4, op := 5, l := .req .sc, imm := .port 0, res := some .ve, fmts := .one .fi }
  | .vins _ => some { page := 4, op := 6, l := .req .ve, r := .req .sc, x := .opt .sc, imm := .port 2, res := some .ve, fmts := .one .fi }
  | .vext _ => some { page := 4, op := 7, l := .req .ve, x := .opt .sc, imm := .port 2, res := some .sc, fmts := .one .fi }
  | .vqshuf _ => some { page := 4, op := 8, l := .req .ve, imm := .chain, res := some .ve, fmts := .one .fi }
  | .vtrn _ => some { page := 4, op := 9, l := .req .ve, res := some .ve, fmts := .one .fi }
  | .viota _ => some { page := 4, op := 0xa, l := .opt .sc, imm := .port 0, res := some .ve, fmts := .one .i }
  | .rkalloc _ => some { page := 5, op := 0, l := .req .sc, imm := .port 0, res := some .sc }
  | .rkfill _ => some { page := 5, op := 1, l := .req .sc, r := .req .sc, x := .opt .sc, imm := .port 2, lsq := true, dep := .elemForm }
  | .rkpin _ => some { page := 5, op := 2, l := .req .sc }
  | .rkunpin _ => some { page := 5, op := 3, l := .req .sc }
  | .rkrev _ => some { page := 5, op := 4, l := .req .sc }
  | .rkqry _ => some { page := 5, op := 5, l := .req .sc, res := some .sc }
  | .mma _ => some { page := 5, op := 6, l := .req .sc, r := .req .sc, imm := .port 1, lsq := true, fmts := .one .tile, sub := .upTo 1 }
  | .mmaz _ => some { page := 5, op := 7, l := .req .sc, r := .req .sc, imm := .port 1, lsq := true, fmts := .one .tile, sub := .upTo 1 }
  | .mdrain _ => some { page := 5, op := 8, l := .req .sc, r := .req .sc, imm := .port 1, lsq := true, fmts := .one .drain, sub := .tileSat }
  | .mring _ => some { page := 5, op := 9, l := .req .sc, r := .req .sc, imm := .port 1 }
  | .mtail _ => some { page := 5, op := 0xa, l := .req .sc, r := .opt .sc, imm := .port 1, res := some .sc }
  | .mcnt _ => some { page := 5, op := 0xb, l := .opt .sc, imm := .port 0, res := some .sc }
  | .mthr _ => some { page := 5, op := 0xc, l := .req .sc }
  | .mwgt _ => some { page := 5, op := 0xd, l := .req .sc, imm := .port 0 }
  | .mbxw _ => some { page := 6, op := 0, l := .req .sc, r := .req .ve, lsq := true }
  | .mbxr _ => some { page := 6, op := 1, l := .req .sc, imm := .port 0, res := some .ve, res2 := some .sc, lsq := true }
  | .copy _ => some { page := 6, op := 2, l := .req .sc, r := .req .sc, imm := .port 1, lsq := true }
  | .waitany _ => some { page := 6, op := 3, l := .req .sc, imm := .port 0, res := some .sc, sub := .upTo 1 }
  | .waitall _ => some { page := 6, op := 4, l := .req .sc, imm := .port 0, res := some .sc, sub := .upTo 1 }
  | .ffr _ => some { page := 6, op := 5, l := .req .sc, imm := .port 0, res := some .sc, sub := .upTo 1 }
  | .tagclr _ => some { page := 6, op := 6, l := .req .sc, imm := .port 0, res := some .sc }
  | .rnbind _ => some { page := 6, op := 7, l := .req .sc, x := .opt .sc, imm := .port 2, reg := .runnel, lsq := true, sub := .upTo 3 }
  | .rnunbind _ => some { page := 6, op := 8, reg := .runnel, lsq := true }
  | .send _ => some { page := 6, op := 9, l := .req .sc, r := .req .ve, x := .opt .sc, imm := .port 2, lsq := true }
  | .sendOrd _ => some { page := 6, op := 9, l := .req .sc, r := .req .ve, x := .opt .sc, imm := .port 2, lsq := true, sub := .one }
  | .waitmsg _ => some { page := 6, op := 0xa, l := .req .sc, imm := .port 0, res := some .sc, lsq := true }
  | .msgpop _ => some { page := 6, op := 0xb, l := .req .sc, imm := .port 0, res := some .ve, lsq := true }
  | .spawn _ => some { page := 7, op := 0, l := .req .sc, r := .req .ve, imm := .port 0, lsq := true }
  | .spawnb _ => some { page := 7, op := 1, l := .req .sc, r := .req .ve, x := .req .sc, imm := .port 0, res := some .sc, lsq := true }
  | .kset _ => some { page := 7, op := 2, l := .req .sc, r := .req .sc, imm := .port 1, res := some .sc }
  | .kget _ => some { page := 7, op := 3, l := .req .sc, res := some .sc }
  | .migrate _ => some { page := 7, op := 4, l := .req .sc }
  | .nbr _ => some { page := 7, op := 5, l := .req .sc, r := .opt .sc, imm := .port 0, res := some .ve }
  | .nbrn _ => some { page := 7, op := 6, l := .req .sc, imm := .port 0, res := some .sc }
  | .csplit _ => some { page := 7, op := 7, l := .req .sc }
  | .cmerge _ => some { page := 7, op := 8, l := .req .sc }
  | .chand _ => some { page := 7, op := 9, l := .req .sc, r := .req .sc, imm := .port 1 }
  | .cmap _ => some { page := 7, op := 0xa, l := .req .sc, res := some .sc }
  | .hedge _ => some { page := 7, op := 0xb, l := .req .sc, imm := .port 0 }
  | .fjoin _ => some { page := 7, op := 0xc, l := .req .sc, imm := .port 0 }
  | .fleave _ => some { page := 7, op := 0xd, l := .req .sc, imm := .port 0 }
  | .fbar _ => some { page := 7, op := 0xe, l := .req .sc, imm := .port 0, lsq := true }
  | .tblk _ => some { page := 7, op := 0xf, l := .req .sc, imm := .port 0 }
  | .tubl _ => some { page := 7, op := 0x10, l := .req .sc, imm := .port 0 }
  | .tset _ => some { page := 7, op := 0x11, l := .req .sc, r := .req .sc, imm := .port 0 }
  | .yield _ => some { page := 7, op := 0x12 }
  | .park _ => some { page := 7, op := 0x13 }
  | .done _ => some { page := 7, op := 0x14 }
  | .setrnd _ => some { page := 7, op := 0x15, l := .req .sc, r := .opt .sc, imm := .port 0 }
  | .trap _ => some { page := 8, op := 0, l := .opt .sc, imm := .port 0 }
  | .tret _ => some { page := 8, op := 1 }
  | .ctlget _ => some { page := 8, op := 2, l := .req .sc, imm := .port 0, res := some .sc }
  | .ctlset _ => some { page := 8, op := 3, l := .req .sc, r := .req .sc, imm := .port 0, lsq := true }
  | .savec _ => some { page := 8, op := 4, l := .req .sc, r := .req .sc, x := .opt .sc, imm := .port 2, res := some .sc, lsq := true, priv := true }
  | .loadc _ => some { page := 8, op := 5, l := .req .sc, r := .req .sc, res := some .sc, lsq := true, priv := true }
  | .halt _ => some { page := 8, op := 6 }
  | .preempt _ => some { page := 8, op := 7, l := .req .sc, imm := .port 0, priv := true }
  | .tinvWrite .. => none
  | .clstartWrite .. => none
  | .mixdbgWrite .. => none
  | .crootWrite .. => none
  | .drvcfgWrite .. => none
  | .cpresResume .. => none
  | .cpresAbort .. => none
  | .registerWrite .. => none
  | .sheafFetch .. => none
  | .sheafCommit .. => none
  | .trapEntry .. => none
  | .impreciseTrap .. => none
  | .loadReply .. => none
  | .writeAck .. => none
  | .injectionLeave .. => none
  | .orderedPacketLeave .. => none
  | .packetHop .. => none
  | .flitReceive .. => none
  | .linkDown .. => none
  | .translationWalk .. => none
  | .zeroSweep .. => none
  | .sliceAccess .. => none
  | .reserveRequest .. => none
  | .release .. => none
  | .cancel .. => none
  | .reservationRevoke .. => none
  | .revokeReceive .. => none
  | .reductionApply .. => none
  | .gatherHomeRead .. => none
  | .scratchpadAccess .. => none
  | .stwApply .. => none
  | .unpark .. => none
  | .scrub .. => none
  | .protbDrain .. => none
  | .protbInstall .. => none
  | .tinvComplete .. => none
  | .start .. => none
  | .codeLoadStore .. => none
  | .poolAccess .. => none
  | .poolCacheMiss .. => none
  | .backInvalidate .. => none
  | .gatewayDrain .. => none
  | .hostMemAccess .. => none
  | .arrival .. => none
  | .dispatch .. => none
  | .burrMigration .. => none
  | .threadRetire .. => none
  | .yieldRetire .. => none
  | .halted .. => none
  | .eviction .. => none
  | .savecComplete .. => none
  | .loadcComplete .. => none
  | .mailboxDeposit .. => none
  | .launchRecord .. => none
  | .dieQueueEnter .. => none
  | .taskRelease .. => none
  | .classAging .. => none
  | .taskOffer .. => none
  | .taskHintArrival .. => none
  | .returnHoldoff .. => none
  | .dieSpillReload .. => none
  | .idleSummaryUpdate .. => none
  | .stealRequest .. => none
  | .stealDonation .. => none
  | .flockCountChange .. => none
  | .flockArrival .. => none
  | .barrierRelease .. => none
  | .ownerLookup .. => none
  | .kNotice .. => none
  | .tableRebuild .. => none
  | .mapUpdateComplete .. => none
  | .retireNotice .. => none
  | .matrixCommandStart .. => none
  | .mmaFinish .. => none
  | .rkfillFinish .. => none
  | .rickRefill .. => none
  | .mdrainFinish .. => none
  | .rickStaleMark .. => none
  | .bankZeroed .. => none
  | .copyRun .. => none
  | .copyLanded .. => none
  | .runnelFillFetch .. => none
  | .runnelDrainWrite .. => none
  | .neighbourWord .. => none
  | .neighbourCredit .. => none
  | .fabricChunkResult .. => none
  | .fabricAborted .. => none
  | .collectiveTimeout .. => none
  | .precopyPage .. => none
  | .pageRecordReceive .. => none
  | .streamSend .. => none
  | .streamReceive .. => none
  | .oldKeyTimeout .. => none
  | .keyLoad .. => none
  | .create .. => none
  | .addcore .. => none
  | .remcore .. => none
  | .setquota .. => none
  | .grant .. => none
  | .install .. => none
  | .revoke .. => none
  | .sharekey .. => none
  | .stop .. => none
  | .destroy .. => none
  | .exportKeys .. => none
  | .importKeys .. => none
  | .attest .. => none
  | .streamkey .. => none
  | .hostmap .. => none
  | .gwstartWrite .. => none
  | .healthClear .. => none
  | .moncfgWrite .. => none
  | .thermalAlarm .. => none
  | .thermalTrip .. => none
  | .throttleEnd .. => none
  | .droop .. => none
  | .bringUp .. => none
  | .firmwareReload .. => none
  | .completionTimeout .. => none
  | .powerCut .. => none
  | .remoteChannelChange .. => none
  | .wakeAcknowledgement .. => none
  | .atomicGrant .. => none
  | .tileReadOut .. => none
  | .forcedEviction .. => none

/-- The fields of an instruction of a sheaf. -/
def Instr.form : Instr → Option Form
  | .read f => some f
  | .write f => some f
  | .mov f => some f
  | .const f => some f
  | .null f => some f
  | .add f => some f
  | .sub f => some f
  | .mul f => some f
  | .and f => some f
  | .or f => some f
  | .xor f => some f
  | .andn f => some f
  | .not f => some f
  | .shl f => some f
  | .shr f => some f
  | .sar f => some f
  | .sel f => some f
  | .teq f => some f
  | .tne f => some f
  | .tlt f => some f
  | .tle f => some f
  | .tltu f => some f
  | .tleu f => some f
  | .pand f => some f
  | .por f => some f
  | .pnot f => some f
  | .br f => some f
  | .bri f => some f
  | .call f => some f
  | .ret f => some f
  | .exit f => some f
  | .ldB f => some f
  | .ldBu f => some f
  | .ldH f => some f
  | .ldHu f => some f
  | .ldW f => some f
  | .ldWu f => some f
  | .ldD f => some f
  | .ldQ f => some f
  | .ldf _ f => some f
  | .stB f => some f
  | .stH f => some f
  | .stW f => some f
  | .stD f => some f
  | .stQ f => some f
  | .ldv f => some f
  | .stv f => some f
  | .qld f => some f
  | .qst f => some f
  | .mulh f => some f
  | .mulhu f => some f
  | .div f => some f
  | .divu f => some f
  | .rem f => some f
  | .remu f => some f
  | .rot f => some f
  | .min f => some f
  | .max f => some f
  | .minu f => some f
  | .maxu f => some f
  | .abs f => some f
  | .neg f => some f
  | .clz f => some f
  | .ctz f => some f
  | .popc f => some f
  | .brev f => some f
  | .sext f => some f
  | .zext f => some f
  | .qdig f => some f
  | .qset f => some f
  | .qtrunc f => some f
  | .qparent f => some f
  | .qchild f => some f
  | .qinter f => some f
  | .qsplit f => some f
  | .qdepth f => some f
  | .qnext f => some f
  | .amadd f => some f
  | .amand f => some f
  | .amor f => some f
  | .amxor f => some f
  | .ammin f => some f
  | .ammax f => some f
  | .amminu f => some f
  | .ammaxu f => some f
  | .amswap f => some f
  | .amcas f => some f
  | .amaddf f => some f
  | .redadd f => some f
  | .redmin f => some f
  | .redmax f => some f
  | .redand f => some f
  | .redor f => some f
  | .redxor f => some f
  | .redaddf f => some f
  | .gath f => some f
  | .fence f => some f
  | .xfence f => some f
  | .watch f => some f
  | .unwatch f => some f
  | .stw f => some f
  | .protb f => some f
  | .vadd f => some f
  | .vsub f => some f
  | .vmul f => some f
  | .vfma f => some f
  | .vfms f => some f
  | .vmin f => some f
  | .vmax f => some f
  | .vabs f => some f
  | .vneg f => some f
  | .vrcp f => some f
  | .vrsq f => some f
  | .vexp2 f => some f
  | .vlog2 f => some f
  | .vand f => some f
  | .vor f => some f
  | .vxor f => some f
  | .vshl f => some f
  | .vshr f => some f
  | .vsar f => some f
  | .vcmp f => some f
  | .vsel f => some f
  | .vredsum f => some f
  | .vredmax f => some f
  | .vdot f => some f
  | .vcvt f => some f
  | .vscale f => some f
  | .vpack f => some f
  | .vunpack f => some f
  | .vperm f => some f
  | .vbcast f => some f
  | .vins f => some f
  | .vext f => some f
  | .vqshuf f => some f
  | .vtrn f => some f
  | .viota f => some f
  | .rkalloc f => some f
  | .rkfill f => some f
  | .rkpin f => some f
  | .rkunpin f => some f
  | .rkrev f => some f
  | .rkqry f => some f
  | .mma f => some f
  | .mmaz f => some f
  | .mdrain f => some f
  | .mring f => some f
  | .mtail f => some f
  | .mcnt f => some f
  | .mthr f => some f
  | .mwgt f => some f
  | .mbxw f => some f
  | .mbxr f => some f
  | .copy f => some f
  | .waitany f => some f
  | .waitall f => some f
  | .ffr f => some f
  | .tagclr f => some f
  | .rnbind f => some f
  | .rnunbind f => some f
  | .send f => some f
  | .sendOrd f => some f
  | .waitmsg f => some f
  | .msgpop f => some f
  | .spawn f => some f
  | .spawnb f => some f
  | .kset f => some f
  | .kget f => some f
  | .migrate f => some f
  | .nbr f => some f
  | .nbrn f => some f
  | .csplit f => some f
  | .cmerge f => some f
  | .chand f => some f
  | .cmap f => some f
  | .hedge f => some f
  | .fjoin f => some f
  | .fleave f => some f
  | .fbar f => some f
  | .tblk f => some f
  | .tubl f => some f
  | .tset f => some f
  | .yield f => some f
  | .park f => some f
  | .done f => some f
  | .setrnd f => some f
  | .trap f => some f
  | .tret f => some f
  | .ctlget f => some f
  | .ctlset f => some f
  | .savec f => some f
  | .loadc f => some f
  | .halt f => some f
  | .preempt f => some f
  | .tinvWrite .. => none
  | .clstartWrite .. => none
  | .mixdbgWrite .. => none
  | .crootWrite .. => none
  | .drvcfgWrite .. => none
  | .cpresResume .. => none
  | .cpresAbort .. => none
  | .registerWrite .. => none
  | .sheafFetch .. => none
  | .sheafCommit .. => none
  | .trapEntry .. => none
  | .impreciseTrap .. => none
  | .loadReply .. => none
  | .writeAck .. => none
  | .injectionLeave .. => none
  | .orderedPacketLeave .. => none
  | .packetHop .. => none
  | .flitReceive .. => none
  | .linkDown .. => none
  | .translationWalk .. => none
  | .zeroSweep .. => none
  | .sliceAccess .. => none
  | .reserveRequest .. => none
  | .release .. => none
  | .cancel .. => none
  | .reservationRevoke .. => none
  | .revokeReceive .. => none
  | .reductionApply .. => none
  | .gatherHomeRead .. => none
  | .scratchpadAccess .. => none
  | .stwApply .. => none
  | .unpark .. => none
  | .scrub .. => none
  | .protbDrain .. => none
  | .protbInstall .. => none
  | .tinvComplete .. => none
  | .start .. => none
  | .codeLoadStore .. => none
  | .poolAccess .. => none
  | .poolCacheMiss .. => none
  | .backInvalidate .. => none
  | .gatewayDrain .. => none
  | .hostMemAccess .. => none
  | .arrival .. => none
  | .dispatch .. => none
  | .burrMigration .. => none
  | .threadRetire .. => none
  | .yieldRetire .. => none
  | .halted .. => none
  | .eviction .. => none
  | .savecComplete .. => none
  | .loadcComplete .. => none
  | .mailboxDeposit .. => none
  | .launchRecord .. => none
  | .dieQueueEnter .. => none
  | .taskRelease .. => none
  | .classAging .. => none
  | .taskOffer .. => none
  | .taskHintArrival .. => none
  | .returnHoldoff .. => none
  | .dieSpillReload .. => none
  | .idleSummaryUpdate .. => none
  | .stealRequest .. => none
  | .stealDonation .. => none
  | .flockCountChange .. => none
  | .flockArrival .. => none
  | .barrierRelease .. => none
  | .ownerLookup .. => none
  | .kNotice .. => none
  | .tableRebuild .. => none
  | .mapUpdateComplete .. => none
  | .retireNotice .. => none
  | .matrixCommandStart .. => none
  | .mmaFinish .. => none
  | .rkfillFinish .. => none
  | .rickRefill .. => none
  | .mdrainFinish .. => none
  | .rickStaleMark .. => none
  | .bankZeroed .. => none
  | .copyRun .. => none
  | .copyLanded .. => none
  | .runnelFillFetch .. => none
  | .runnelDrainWrite .. => none
  | .neighbourWord .. => none
  | .neighbourCredit .. => none
  | .fabricChunkResult .. => none
  | .fabricAborted .. => none
  | .collectiveTimeout .. => none
  | .precopyPage .. => none
  | .pageRecordReceive .. => none
  | .streamSend .. => none
  | .streamReceive .. => none
  | .oldKeyTimeout .. => none
  | .keyLoad .. => none
  | .create .. => none
  | .addcore .. => none
  | .remcore .. => none
  | .setquota .. => none
  | .grant .. => none
  | .install .. => none
  | .revoke .. => none
  | .sharekey .. => none
  | .stop .. => none
  | .destroy .. => none
  | .exportKeys .. => none
  | .importKeys .. => none
  | .attest .. => none
  | .streamkey .. => none
  | .hostmap .. => none
  | .gwstartWrite .. => none
  | .healthClear .. => none
  | .moncfgWrite .. => none
  | .thermalAlarm .. => none
  | .thermalTrip .. => none
  | .throttleEnd .. => none
  | .droop .. => none
  | .bringUp .. => none
  | .firmwareReload .. => none
  | .completionTimeout .. => none
  | .powerCut .. => none
  | .remoteChannelChange .. => none
  | .wakeAcknowledgement .. => none
  | .atomicGrant .. => none
  | .tileReadOut .. => none
  | .forcedEviction .. => none

/-- A binary8 code (R188). -/
def fmtIsB8 (c : Nat) : Bool := c < 0x1C

/-- An inherited code (R188). -/
def fmtInherited (c : Nat) : Bool := 0x3C ≤ c && c ≤ 0x3F

/-- The integer codes (R188). -/
def fmtIsInt (c : Nat) : Bool := 0x28 ≤ c && c ≤ 0x2F

/-- The floating-point codes: binary8, FP32, binary16, BF16 (R282). -/
def fmtIsFloat (c : Nat) : Bool := fmtIsB8 c || c == 0x20 || c == 0x21 || c == 0x22

/-- Element size in bytes of a fixed code (R188, R189, R191). -/
def fmtSize (c : Nat) : Nat :=
  if c < 0x1C then 1
  else if c == 0x20 then 4
  else if c == 0x21 || c == 0x22 then 2
  else if fmtIsInt c then 2 ^ (c % 4)
  else 1

/-- Membership of a fixed code in a set (R282, R310, R312). -/
def FmtSet.has (s : FmtSet) (c : Nat) : Bool :=
  match s with
  | .fi => fmtIsFloat c || fmtIsInt c
  | .signed => (fmtIsB8 c && c / 2 % 2 == 0) || c == 0x20 || c == 0x21 || c == 0x22 || (0x28 ≤ c && c ≤ 0x2B)
  | .f => fmtIsFloat c
  | .i => fmtIsInt c
  | .dot => fmtIsFloat c || c == 0x28 || c == 0x29 || c == 0x2C || c == 0x2D
  | .tile => fmtIsB8 c || c == 0x21 || c == 0x22 || c == 0x28 || c == 0x2C
  | .drain => fmtIsFloat c || (0x28 ≤ c && c ≤ 0x2A) || (0x2C ≤ c && c ≤ 0x2E)
  | .scaled => fmtIsFloat c || (0x28 ≤ c && c ≤ 0x2A) || (0x2C ≤ c && c ≤ 0x2E)

/-- A code as decode takes it: the set and the inherited codes (R282). -/
def FmtSet.accepts (s : FmtSet) (c : Nat) : Bool := s.has c || fmtInherited c

/-- The size rule on two fixed codes. -/
def SizeRule.holds (rule : SizeRule) (a b : Nat) : Bool :=
  match rule with
  | .anySize => true
  | .widen => fmtSize a < fmtSize b
  | .narrow => fmtSize b < fmtSize a

/-- The value of an IMX chain, sign-extended (R204). -/
def immValue (chain : List (BitVec 10)) : Word :=
  let n := chain.length
  let v := chain.foldl (fun a s => a * 1024 + s.toNat) 0
  if n == 0 then 0
  else if v < 2 ^ (10 * n - 1) then BitVec.ofNat 64 v
  else BitVec.ofInt 64 ((v : Int) - (2 ^ (10 * n) : Nat))

/-- DCODE 0x09: PM 0b11, or PM other than 0 on READ or CONST (R209). -/
def Form.pmOk (f : Form) (always : Bool) : Bool :=
  f.pm.toNat < 3 && (!always || f.pm == 0)

/-- READ and CONST take PM 0b00 only (R209). -/
def Instr.pmAlways : Instr → Bool
  | .read _ => true
  | .const _ => true
  | _ => false

/-- DCODE 0x0A: the SUB values of R216. -/
def SubUse.ok (u : SubUse) (s : BitVec 6) : Bool :=
  match u with
  | .upTo n => s.toNat ≤ n
  | .one => s == 1
  | .paths => s.toNat / 8 ≤ 5 && s.toNat % 8 ≤ 5
  | .sat => s == 0 || s == 0x20
  | .tileSat => s.toNat % 32 ≤ 1

/-- DCODE 0x0B, TG2: only beside a result (R206); NULL delivers one. -/
def Info.tg2Ok (n : Info) (f : Form) : Bool := f.t2.isNone || n.res.isSome

/-- DCODE 0x0B, IMX (R204, R206): a chain of at most four where the entry has an immediate form, one at least where
it is required. -/
def Info.immOk (n : Info) (f : Form) : Bool :=
  match n.imm with
  | .no => f.imm.isEmpty
  | .port _ => f.imm.length ≤ 4
  | .chain => 1 ≤ f.imm.length && f.imm.length ≤ 4

/-- DCODE 0x0B, REG: required by READ, WRITE and the runnel binders, a class-G policy register elsewhere
(R206, R259, R318). -/
def Info.regOk (n : Info) (f : Form) : Bool :=
  match n.reg, f.reg with
  | .no, none => true
  | .no, some _ => false
  | .named, none => false
  | .named, some _ => true
  | .policy, none => true
  | .policy, some (c, _) => c == 0
  | .runnel, none => false
  | .runnel, some (c, _) => c == 3

/-- DCODE 0x0B, LSQ: only on an ordered event (R206); a missing one is the third pass's 0x11. -/
def Info.lsqOk (n : Info) (f : Form) : Bool := f.lsq.isNone || n.lsq

/-- DCODE 0x0B, FMT: none, one or two (R206). -/
def Info.fmtCountOk (n : Info) (f : Form) : Bool :=
  match n.fmts with
  | .no => f.fmts.length == 0
  | .one _ => f.fmts.length == 1
  | .two .. => f.fmts.length == 2

/-- DCODE 0x0B, DEP: exactly one where it is accepted (R206). -/
def Info.depCountOk (n : Info) (f : Form) : Bool := f.dep.isSome == (n.dep != .no)

/-- DCODE 0x0C, FOL: follow mode is legal on the LD forms only, and then the instruction is an LDF (R203). -/
def Instr.followOk : Instr → Bool
  | .ldf _ f => f.lsq.any (·.2)
  | i => match i.form with
    | some f => !(f.lsq.any (·.2))
    | none => true

/-- A QSEL of one FMT prefix: none or one of the eight lane masks (R203). -/
def qselOk (q : BitVec 4) : Bool := q == 0 || 8 ≤ q.toNat

/-- DCODE 0x0C, QSEL: reserved values; only the second of two formats may have one (R206), page 5 has none (R298). -/
def Info.qselsOk (n : Info) (f : Form) : Bool :=
  match f.fmts with
  | [] => true
  | [(_, q)] => qselOk q && (n.page != 5 || q == 0)
  | (_, q) :: rest => q == 0 && rest.all (fun p => qselOk p.2)

/-- A register number of R205 that some thread may name. -/
def regNumOk (c : BitVec 2) (n : BitVec 8) : Bool :=
  if c == 0 then n.toNat < 32
  else if c == 1 then n.toNat < 64
  else if c == 2 then n.toNat ≤ 6 || (8 ≤ n.toNat && n.toNat ≤ 15)
  else n.toNat < 16

/-- A register number of R205 that a burr may name: G0 to G7, K, N, Q0 and the runnel ports. -/
def regNumBurrOk (c : BitVec 2) (n : BitVec 8) : Bool :=
  if c == 0 then n.toNat < 8
  else if c == 1 then false
  else if c == 2 then n == 0 || n == 1 || n == 8
  else n.toNat < 16

/-- WRITE names neither N nor F0 to F3 (R210). -/
def Instr.writesReadOnly : Instr → Bool
  | .write f => match f.reg with
    | some (c, n) => c == 2 && 1 ≤ n.toNat && n.toNat ≤ 5
    | none => false
  | _ => false

/-- DCODE 0x10 for a rooted thread: register numbers (R205, R210). -/
def Instr.regsOk (i : Instr) (f : Form) : Bool :=
  (match f.reg with
   | some (c, n) => regNumOk c n
   | none => true) && !i.writesReadOnly

/-- DCODE 0x12: format codes (R188, R282). -/
def Info.fmtCodesOk (n : Info) (f : Form) : Bool :=
  match n.fmts, f.fmts with
  | .one s, (a, _) :: _ => s.accepts a.toNat
  | .two s d rule, (a, _) :: (b, _) :: _ =>
    s.accepts a.toNat && d.accepts b.toNat &&
      (fmtInherited a.toNat || fmtInherited b.toNat || rule.holds a.toNat b.toNat)
  | _, _ => true

/-- DCODE 0x13: depth and mode (R203, R269, R279, R298). -/
def Info.depOk (n : Info) (f : Form) : Bool :=
  match f.dep with
  | none => true
  | some (d, m) =>
    match n.dep with
    | .no => true
    | .corner => 29 ≤ d.toNat && d.toNat ≤ 32 && m.toNat ≤ 1
    | .byteForm => d.toNat ≤ 32 && m == 0
    | .elemForm => d.toNat ≤ 32 && m == 1

/-- The number of prefix syllables of a form: at most four may stand before a base syllable (R201). -/
def Info.prefixes (n : Info) (f : Form) : Nat :=
  (if n.page == 0 then 0 else 1) + f.fmts.length + f.imm.length +
    (if f.dep.isSome then 1 else 0) + (if f.reg.isSome then 1 else 0) +
    (if f.lsq.isSome then 1 else 0) + (if f.t2.isSome then 1 else 0)

/-- An instruction that passes every check of the second pass of R217 that does not look at its place in a sheaf.
The steps of the device have no syllables and are well formed. -/
def Instr.wellFormed (i : Instr) : Bool :=
  match i.info, i.form with
  | some n, some f =>
    n.prefixes f ≤ 4 && f.pmOk i.pmAlways && n.sub.ok f.sub &&
      n.tg2Ok f && n.immOk f && n.regOk f && n.lsqOk f && n.fmtCountOk f && n.depCountOk f &&
      i.followOk && n.qselsOk f && i.regsOk f && n.fmtCodesOk f && n.depOk f
  | _, _ => true

end Sys2Proof
end

