-- ==== Sys2Proof/Decode.lean ====
section
/-!
DEFINITION. Decoding (R201 to R218) and encoding.  `decodeInstr` reads one instruction from a list of syllables, with
the checks of R217's second pass in ascending DCODE order; `decodeSheaf` reads a header and a body in R217's three
passes.  A refusal carries the DCODE (or privilege) and the syllable at fault.  `encode` writes an instruction's
syllables in the order of R206.
-/
namespace Sys2Proof

/-- A syllable of the instruction store (R201). -/
abbrev Syl := BitVec 16

/-- The prefix kinds of R202. -/
def kIMX : Nat := 0
def kTG2 : Nat := 1
def kPG : Nat := 2
def kREG : Nat := 3
def kLSQ : Nat := 4
def kFMT : Nat := 5
def kDEP : Nat := 6

/-- The syllables of one instruction: prefixes as (KIND, PAYLOAD), then the base syllable. -/
structure Raw where
  pre  : List (Nat × BitVec 10)
  base : Syl
  deriving DecidableEq, Repr

/-- A decode refusal: the DCODE (`none` is the cause privilege) and the index of the offending syllable within its
instruction (R218). -/
structure Bad where
  dcode : Option Nat
  at_   : Nat
  deriving DecidableEq, Repr

/-- Prefix syllables up to the base syllable (R201).  Refuses a fifth prefix (0x06) and KIND 0b111 (0x07); a run
of syllables that ends early reaches past the store (0x05). -/
def splitFrom (n : Nat) (acc : List (Nat × BitVec 10)) : List Syl → Except Bad (Raw × List Syl)
  | [] => .error ⟨some 0x05, n⟩
  | s :: rest =>
    if s.extractLsb' 13 3 == 7#3 then
      if n == 4 then .error ⟨some 0x06, n⟩
      else if s.extractLsb' 10 3 == 7#3 then .error ⟨some 0x07, n⟩
      else splitFrom (n + 1) (acc ++ [((s.extractLsb' 10 3).toNat, s.extractLsb' 0 10)]) rest
    else .ok (⟨acc, s⟩, rest)

/-- The payloads of one kind, in order. -/
def Raw.all (r : Raw) (k : Nat) : List (BitVec 10) := (r.pre.filter (·.1 == k)).map (·.2)

/-- The payload of the first prefix of a kind. -/
def Raw.first (r : Raw) (k : Nat) : Option (BitVec 10) := (r.all k).head?

/-- The index of the n-th prefix of a kind; the base syllable's index where there is none. -/
def nthKind (k : Nat) : Nat → Nat → List (Nat × BitVec 10) → Nat
  | _, i, [] => i
  | n, i, (k', _) :: rest =>
    if k' == k then
      match n with
      | 0 => i
      | n + 1 => nthKind k n (i + 1) rest
    else nthKind k n (i + 1) rest

def Raw.index (r : Raw) (k n : Nat) : Nat := nthKind k n 0 r.pre

/-- The index of the base syllable. -/
def Raw.baseAt (r : Raw) : Nat := r.pre.length

/-- A target byte: PORT and POS (R201, R203). -/
def tgtOf (b : BitVec 8) : Tgt := ⟨b.extractLsb' 6 2, b.extractLsb' 0 6⟩

/-- PAGE and SUB of a PG payload (R203). -/
def Raw.page (r : Raw) : Nat :=
  match r.first kPG with
  | some p => (p.extractLsb' 6 4).toNat
  | none => 0

/-- OP of the base syllable. -/
def Raw.op (r : Raw) : Nat := (r.base.extractLsb' 10 6).toNat

/-- The fields of the syllables (R201 to R204). -/
def Raw.form (r : Raw) : Form where
  pm := r.base.extractLsb' 8 2
  t := tgtOf (r.base.extractLsb' 0 8)
  sub := match r.first kPG with
    | some p => if p.extractLsb' 6 4 == 0 then 0 else p.extractLsb' 0 6
    | none => 0
  t2 := (r.first kTG2).map fun p => tgtOf (p.extractLsb' 0 8)
  imm := r.all kIMX
  reg := (r.first kREG).map fun p => (p.extractLsb' 8 2, p.extractLsb' 0 8)
  lsq := (r.first kLSQ).map fun p => (p.extractLsb' 5 5, p.getLsbD 4)
  fmts := (r.all kFMT).map fun p => (p.extractLsb' 4 6, p.extractLsb' 0 4)
  dep := (r.first kDEP).map fun p => (p.extractLsb' 4 6, p.extractLsb' 0 4)

/-- Page 0 in OP order (R213, R214). -/
def opPage0 : List (Option (Form → Instr)) :=
  [some .read, some .write, some .mov, some .const, some .null, some .add, some .sub, some .mul] ++
  [some .and, some .or, some .xor, some .andn, some .not, some .shl, some .shr, some .sar] ++
  [some .sel, some .teq, some .tne, some .tlt, some .tle, some .tltu, some .tleu, some .pand] ++
  [some .por, some .pnot, some .br, some .bri, some .call, some .ret, some .exit, none] ++
  [some .ldB, some .ldBu, some .ldH, some .ldHu, some .ldW, some .ldWu, some .ldD, some .ldQ] ++
  [some .stB, some .stH, some .stW, some .stD, some .stQ, some .ldv, some .stv, some .qld] ++
  [some .qst]

/-- Page 1 in OP order (R213, R214). -/
def opPage1 : List (Option (Form → Instr)) :=
  [some .mulh, some .mulhu, some .div, some .divu, some .rem, some .remu, some .rot, some .min] ++
  [some .max, some .minu, some .maxu, some .abs, some .neg, some .clz, some .ctz, some .popc] ++
  [some .brev, some .sext, some .zext, some .qdig, some .qset, some .qtrunc, some .qparent, some .qchild] ++
  [some .qinter, some .qsplit, some .qdepth, some .qnext]

/-- Page 2 in OP order (R213, R214). -/
def opPage2 : List (Option (Form → Instr)) :=
  [some .amadd, some .amand, some .amor, some .amxor, some .ammin, some .ammax, some .amminu, some .ammaxu] ++
  [some .amswap, some .amcas, some .amaddf, none, none, none, none, none] ++
  [some .redadd, some .redmin, some .redmax, some .redand, some .redor, some .redxor, some .redaddf, none] ++
  [some .gath, some .fence, some .xfence, some .watch, some .unwatch, some .stw, some .protb]

/-- Page 3 in OP order (R213, R214). -/
def opPage3 : List (Option (Form → Instr)) :=
  [some .vadd, some .vsub, some .vmul, some .vfma, some .vfms, some .vmin, some .vmax, some .vabs] ++
  [some .vneg, some .vrcp, some .vrsq, some .vexp2, some .vlog2, some .vand, some .vor, some .vxor] ++
  [some .vshl, some .vshr, some .vsar, some .vcmp, some .vsel, some .vredsum, some .vredmax, some .vdot]

/-- Page 4 in OP order (R213, R214). -/
def opPage4 : List (Option (Form → Instr)) :=
  [some .vcvt, some .vscale, some .vpack, some .vunpack, some .vperm, some .vbcast, some .vins, some .vext] ++
  [some .vqshuf, some .vtrn, some .viota]

/-- Page 5 in OP order (R213, R214). -/
def opPage5 : List (Option (Form → Instr)) :=
  [some .rkalloc, some .rkfill, some .rkpin, some .rkunpin, some .rkrev, some .rkqry, some .mma, some .mmaz] ++
  [some .mdrain, some .mring, some .mtail, some .mcnt, some .mthr, some .mwgt]

/-- Page 6 in OP order (R213, R214). -/
def opPage6 : List (Option (Form → Instr)) :=
  [some .mbxw, some .mbxr, some .copy, some .waitany, some .waitall, some .ffr, some .tagclr, some .rnbind] ++
  [some .rnunbind, some .send, some .waitmsg, some .msgpop]

/-- Page 7 in OP order (R213, R214). -/
def opPage7 : List (Option (Form → Instr)) :=
  [some .spawn, some .spawnb, some .kset, some .kget, some .migrate, some .nbr, some .nbrn, some .csplit] ++
  [some .cmerge, some .chand, some .cmap, some .hedge, some .fjoin, some .fleave, some .fbar, some .tblk] ++
  [some .tubl, some .tset, some .yield, some .park, some .done, some .setrnd]

/-- Page 8 in OP order (R213, R214). -/
def opPage8 : List (Option (Form → Instr)) :=
  [some .trap, some .tret, some .ctlget, some .ctlset, some .savec, some .loadc, some .halt, some .preempt]

/-- The instruction of a page and OP (R213, R214); `none` is a reserved OP.  FOL makes an LD an LDF (R213), and SUB 1
makes a SEND a SEND.ord (R216). -/
def opcode (page op : Nat) (f : Form) : Option Instr :=
  match page, f.lsq with
  | 0, some (_, true) =>
    match op with
    | 0x20 => some (.ldf .b f) | 0x21 => some (.ldf .bu f) | 0x22 => some (.ldf .h f) | 0x23 => some (.ldf .hu f)
    | 0x24 => some (.ldf .w f) | 0x25 => some (.ldf .wu f) | 0x26 => some (.ldf .d f) | 0x27 => some (.ldf .q f)
    | _ => pick opPage0 op
  | 0, _ => pick opPage0 op
  | 1, _ => pick opPage1 op
  | 2, _ => pick opPage2 op
  | 3, _ => pick opPage3 op
  | 4, _ => pick opPage4 op
  | 5, _ => pick opPage5 op
  | 6, _ => if op == 9 && f.sub == 1 then some (.sendOrd f) else pick opPage6 op
  | 7, _ => pick opPage7 op
  | 8, _ => pick opPage8 op
  | _, _ => none
where
  pick (l : List (Option (Form → Instr))) (op : Nat) : Option Instr :=
    match l[op]? with
    | some (some c) => some (c f)
    | _ => none

/-- Where an instruction stands: its body position, the sheaf's COUNT, whether a burr runs it and whether the sheaf
is privileged.  Without a place only the checks that need none are made. -/
structure Place where
  pos   : Nat
  count : Nat
  burr  : Bool
  priv  : Bool
  deriving DecidableEq, Repr

/-- The first failure of a list of checks. -/
def firstBad : List (Option Bad) → Option Bad
  | [] => none
  | some b :: _ => some b
  | none :: rest => firstBad rest

/-- Of the failures of one DCODE, the one at the earliest syllable: the syllables are read in turn (R217). -/
def earliest (l : List (Option Bad)) : Option Bad :=
  l.foldl (fun best x => match best, x with
    | some b, some c => if c.at_ < b.at_ then some c else some b
    | some b, none => some b
    | none, x => x) none

/-- A check that fails with a DCODE at a syllable. -/
def chk (ok : Bool) (dcode at_ : Nat) : Option Bad := if ok then none else some ⟨some dcode, at_⟩

/-- The IMX prefixes stand next to one another (R204): the index of the first one that begins a second chain. -/
def splitImx : Nat → Nat → List (Nat × BitVec 10) → Option Nat
  | _, _, [] => none
  | i, st, (k, _) :: rest =>
    if k == kIMX then (if st == 2 then some i else splitImx (i + 1) 1 rest)
    else splitImx (i + 1) (if st == 0 then 0 else 2) rest

/-- DCODE 0x0B: prefixes not accepted, missing, repeated, or a split chain (R206, R217). -/
def checkPrefixes (n : Info) (f : Form) (r : Raw) : Option Bad :=
  let b := r.baseAt
  earliest
    [ chk ((r.first kPG).isNone || n.page != 0) 0x0B (r.index kPG 0),
      chk (n.tg2Ok f) 0x0B (r.index kTG2 0),
      chk (n.immOk f) 0x0B (if f.imm.isEmpty then b else r.index kIMX 0),
      chk (n.regOk f) 0x0B (if f.reg.isNone then b else r.index kREG 0),
      chk (n.lsqOk f) 0x0B (r.index kLSQ 0),
      chk (n.fmtCountOk f) 0x0B
        (r.index kFMT (match n.fmts with | .no => 0 | .one _ => 1 | .two .. => 2)),
      chk (n.depCountOk f) 0x0B (if f.dep.isNone then b else r.index kDEP 0),
      chk ((r.all kPG).length ≤ 1) 0x0B (r.index kPG 1),
      chk ((r.all kTG2).length ≤ 1) 0x0B (r.index kTG2 1),
      chk ((r.all kREG).length ≤ 1) 0x0B (r.index kREG 1),
      chk ((r.all kLSQ).length ≤ 1) 0x0B (r.index kLSQ 1),
      chk ((r.all kDEP).length ≤ 1) 0x0B (r.index kDEP 1),
      match splitImx 0 0 r.pre with
      | some k => some ⟨some 0x0B, k⟩
      | none => none ]

/-- DCODE 0x0C: reserved prefix bits, FOL on other than an LD form, reserved QSEL (R203, R206, R298). -/
def checkReserved (i : Instr) (n : Info) (f : Form) (r : Raw) : Option Bad :=
  earliest
    [ match r.first kTG2 with
      | some p => chk (p.extractLsb' 8 2 == 0#2) 0x0C (r.index kTG2 0)
      | none => none,
      match r.first kLSQ with
      | some p => chk (p.extractLsb' 0 4 == 0#4 && i.followOk) 0x0C (r.index kLSQ 0)
      | none => none,
      chk (n.qselsOk f) 0x0C
        (match f.fmts with
         | [_, _] => if n.qselsOk { f with fmts := f.fmts.take 1 ++ [(0, 0)] } && (f.fmts.head?.any (·.2 == 0))
                     then r.index kFMT 1 else r.index kFMT 0
         | _ => r.index kFMT 0) ]

/-- The targets of a form with the syllables that carry them. -/
def Raw.targets (r : Raw) (f : Form) : List (Tgt × Nat) :=
  (f.t, r.baseAt) :: (match f.t2 with | some t => [(t, r.index kTG2 0)] | none => [])

/-- DCODE 0x0D and 0x0E: a target at or beyond COUNT, then one below the instruction's own position (R207). -/
def checkTargets (p : Place) (f : Form) (r : Raw) : Option Bad :=
  firstBad
    [ earliest ((r.targets f).map fun (t, a) => chk (t.pos.toNat == p.pos || t.pos.toNat < p.count) 0x0D a),
      earliest ((r.targets f).map fun (t, a) => chk (p.pos ≤ t.pos.toNat) 0x0E a) ]

/-- DCODE 0x10: register numbers in REG and QSEL for the thread kind; a WRITE of N or F0 to F3 (R205, R210). -/
def checkRegs (burr : Bool) (i : Instr) (f : Form) (r : Raw) : Option Bad :=
  earliest
    [ match f.reg with
      | some (c, n) => chk (if burr then regNumBurrOk c n else regNumOk c n) 0x10 (r.index kREG 0)
      | none => none,
      chk (!burr || f.fmts.all (fun q => q.2.toNat ≤ 8)) 0x10 (r.index kFMT (if f.fmts.head?.all (·.2.toNat ≤ 8) then 1 else 0)),
      chk (!i.writesReadOnly) 0x10 (r.index kREG 0) ]

/-- The checks of the base syllable, in ascending DCODE order from 0x09 (R217). -/
def checkInstr (place : Option Place) (i : Instr) (n : Info) (f : Form) (r : Raw) : Option Bad :=
  let b := r.baseAt
  firstBad
    [ chk (f.pmOk i.pmAlways) 0x09 b,
      chk (n.sub.ok f.sub) 0x0A (r.index kPG 0),
      checkPrefixes n f r,
      checkReserved i n f r,
      match place with
      | some p => checkTargets p f r
      | none => none,
      checkRegs (place.any (·.burr)) i f r,
      chk (n.fmtCodesOk f) 0x12
        (match n.fmts, f.fmts with
         | .two s _ _, (a, _) :: _ => if s.accepts a.toNat then r.index kFMT 1 else r.index kFMT 0
         | _, _ => r.index kFMT 0),
      chk (n.depOk f) 0x13 (r.index kDEP 0),
      match place with
      | some p => if n.priv && !p.priv then some ⟨none, b⟩ else none
      | none => none ]

/-- One instruction from the syllables at its start, with the syllables after it (R201, R217). -/
def decodeAt (place : Option Place) (syls : List Syl) : Except Bad (Instr × Raw × List Syl) :=
  match splitFrom 0 [] syls with
  | .error b => .error b
  | .ok (r, rest) =>
    let f := r.form
    if 8 < r.page then .error ⟨some 0x08, r.index kPG 0⟩
    else match opcode r.page r.op f with
      | none =>
        if (r.first kPG).isSome && r.page == 0 then
          (if f.pm == 3 then .error ⟨some 0x09, r.baseAt⟩ else .error ⟨some 0x0B, r.index kPG 0⟩)
        else .error ⟨some 0x08, r.baseAt⟩
      | some i =>
        match i.info with
        | none => .error ⟨some 0x08, r.baseAt⟩
        | some n =>
          match checkInstr place i n f r with
          | some b => .error b
          | none => .ok (i, r, rest)

/-- One instruction, by the checks that need no place in a sheaf, with the syllables after it. DEDUCED, log 22.
DEDUCED, log 37. DEDUCED, log 40. -/
def decodeInstr (syls : List Syl) : Option (Instr × List Syl) :=
  match decodeAt none syls with
  | .ok (i, _, rest) => some (i, rest)
  | .error _ => none

/-! ### The header (R210) -/

structure Header where
  priv  : Bool
  vec   : Bool
  wk    : Bool
  burr  : Bool
  qmask : BitVec 8
  vmask : BitVec 64
  gmask : BitVec 32
  nout  : Nat
  count : Nat
  deriving DecidableEq, Repr, Inhabited

/-- The fields of the 128 header bits. -/
def headerOf (h : BitVec 128) : Header where
  priv := h.getLsbD 119
  vec := h.getLsbD 118
  wk := h.getLsbD 117
  burr := h.getLsbD 116
  qmask := h.extractLsb' 108 8
  vmask := h.extractLsb' 44 64
  gmask := h.extractLsb' 12 32
  nout := (h.extractLsb' 6 6).toNat
  count := (h.extractLsb' 0 6).toNat + 1

/-- The header bits of a header's fields; `count` from 1 to 64. -/
def Header.bits (h : Header) : BitVec 128 :=
  BitVec.ofNat 128 ((h.count - 1) + h.nout * 2 ^ 6 + h.gmask.toNat * 2 ^ 12 + h.vmask.toNat * 2 ^ 44 +
    h.qmask.toNat * 2 ^ 108 + h.burr.toNat * 2 ^ 116 + h.wk.toNat * 2 ^ 117 + h.vec.toNat * 2 ^ 118 +
    h.priv.toNat * 2 ^ 119)

/-- A refusal of a whole sheaf: the DCODE (`none` is privilege) and the byte offset of the offending syllable from
the header's first byte. -/
structure SheafBad where
  dcode : Option Nat
  off   : Nat
  deriving DecidableEq, Repr

/-- A decoded sheaf: header, instructions in body order, and its length in bytes. -/
structure Sheaf where
  hdr   : Header
  insts : List Instr
  size  : Nat
  deriving DecidableEq, Repr, Inhabited

/-- First pass (R217): reserved bits, NOUT, the flags against the thread kind, then PRIV. -/
def checkHeader (burr privOk : Bool) (bits : BitVec 128) : Option SheafBad :=
  let h := headerOf bits
  if bits.extractLsb' 120 8 != 0#8 then some ⟨some 0x01, 0⟩
  else if 32 < h.nout then some ⟨some 0x02, 0⟩
  else if burr && (!h.burr || h.vec || h.priv || h.gmask.extractLsb' 8 24 != 0#24 || h.vmask != 0#64 ||
      h.qmask.extractLsb' 1 7 != 0#7) then some ⟨some 0x04, 0⟩
  else if h.priv && !privOk then some ⟨none, 0⟩
  else none

/-- Second pass (R217): `left` instructions from body position `pos`, the next syllable at byte offset `off`.
Answers each instruction with the byte offset of its base syllable, and the end of the body. -/
def decodeBody (burr priv : Bool) (count : Nat) :
    (left pos off : Nat) → List Syl → Except SheafBad (List (Instr × Nat) × Nat)
  | 0, _, off, _ => .ok ([], off)
  | left + 1, pos, off, syls =>
    match decodeAt (some ⟨pos, count, burr, priv⟩) syls with
    | .error b => .error ⟨b.dcode, off + 2 * b.at_⟩
    | .ok (i, r, rest) =>
      match decodeBody burr priv count left (pos + 1) (off + 2 * (r.pre.length + 1)) rest with
      | .error e => .error e
      | .ok (is, e) => .ok ((i, off + 2 * r.pre.length) :: is, e)

/-- The port of an entry: 0 l, 1 r, 2 x, 3 the predicate port of an instruction with PM 0b01 or 0b10 (R207). -/
def Info.port (n : Info) (f : Form) (p : Nat) : Need :=
  match p with
  | 0 => n.l
  | 1 => n.r
  | 2 => n.x
  | _ => if f.pm == 0 then .no else .req .sc

/-- The port an IMX chain supplies (R204). -/
def Info.immPort (n : Info) (f : Form) : Option Nat :=
  match n.imm with
  | .port p => if f.imm.isEmpty then none else some p
  | _ => none

/-- What the third pass keeps of the targets so far: the kinds that reach MOVs, and the ports that are fed. -/
structure Fed where
  movs : List (Nat × Kind) := []
  fed  : List (Nat × Nat) := []
  deriving DecidableEq, Repr

/-- The kind of a result for one target: NULL and a MOV that only NULLs feed have none (R207, R241, R243). -/
def resultKind (fd : Fed) (pos : Nat) (i : Instr) (n : Info) (second : Bool) : Option Kind :=
  match (if second then (match n.res2 with | some k => some k | none => n.res) else n.res) with
  | some .any => match i with
    | .mov _ => (fd.movs.find? (·.1 == pos)).map (·.2)
    | _ => none
  | some k => some k
  | none => none

/-- One target of the third pass (R207): no result, a port the consumer lacks or an IMX chain supplies, or a port of
the other kind.  `none` is DCODE 0x0F. -/
def feed (insts : List (Instr × Nat)) (fd : Fed) (pos : Nat) (i : Instr) (n : Info) (t : Tgt) (second : Bool) :
    Option Fed :=
  if t.pos.toNat == pos then some fd
  else if n.res.isNone then none
  else match insts[t.pos.toNat]? with
    | none => none
    | some (c, _) =>
      match c.info, c.form with
      | some m, some cf =>
        let p := t.port.toNat
        let k := resultKind fd pos i n second
        let fd' := { fd with fed := (t.pos.toNat, p) :: fd.fed }
        if m.immPort cf == some p then none
        else match m.port cf p with
          | .no => none
          | .req .any | .opt .any =>
            match k with
            | none => some fd'
            | some k =>
              match fd.movs.find? (·.1 == t.pos.toNat) with
              | some (_, k') => if k == k' then some fd' else none
              | none => some { fd' with movs := (t.pos.toNat, k) :: fd.movs }
          | .req q | .opt q =>
            match k with
            | none => some fd'
            | some k => if k == q then some fd' else none
      | _, _ => none

/-- The targets of every instruction in body order (DCODE 0x0F). -/
def feedAll (insts : List (Instr × Nat)) : Nat → Fed → List (Instr × Nat) → Except SheafBad Fed
  | _, fd, [] => .ok fd
  | pos, fd, (i, off) :: rest =>
    match i.info, i.form with
    | some n, some f =>
      match feed insts fd pos i n f.t false with
      | none => .error ⟨some 0x0F, off⟩
      | some fd =>
        match f.t2 with
        | none => feedAll insts (pos + 1) fd rest
        | some t2 =>
          match feed insts fd pos i n t2 true with
          | none => .error ⟨some 0x0F, off⟩
          | some fd => feedAll insts (pos + 1) fd rest
    | _, _ => .error ⟨some 0x0F, off⟩

/-- Every required port is fed or supplied by IMX (R208, DCODE 0x14). -/
def portsFed (fd : Fed) (pos : Nat) (i : Instr) : Bool :=
  match i.info, i.form with
  | some n, some f =>
    [0, 1, 2, 3].all fun p =>
      match n.port f p with
      | .req _ => n.immPort f == some p || fd.fed.contains (pos, p)
      | _ => true
  | _, _ => false

/-- The LSN of an ordered event: `none` where the instruction is none, `some none` where its LSQ is missing. -/
def Instr.lsn? (i : Instr) : Option (Option Nat) :=
  match i.info, i.form with
  | some n, some f => if n.lsq then some (f.lsq.map (·.1.toNat)) else none
  | _, _ => none

/-- Exits (R254). -/
def Instr.isExit : Instr → Bool
  | .br _ | .bri _ | .call _ | .ret _ | .exit _ => true
  | _ => false

/-- Matrix commands (R297). -/
def Instr.isCommand : Instr → Bool
  | .rkfill _ | .mma _ | .mmaz _ | .mdrain _ => true
  | _ => false

/-- The register a WRITE names. -/
def Instr.writeReg : Instr → Option (BitVec 2 × BitVec 8)
  | .write f => f.reg
  | _ => none

/-- Names a V register or belongs to page 3 or 4 (R210). -/
def Instr.needsVec (i : Instr) : Bool :=
  (match i with
   | .read f | .write f => regKind f == .ve
   | _ => false) ||
  (match i.info with
   | some n => n.page == 3 || n.page == 4
   | none => false)

/-- The first repeated, missing or out-of-range LSN, as the byte offset of its instruction (R212, DCODE 0x11). -/
def lsnBad (nout : Nat) : List Nat → List (Instr × Nat) → Option Nat
  | _, [] => none
  | seen, (i, off) :: rest =>
    match i.lsn? with
    | none => lsnBad nout seen rest
    | some none => some off
    | some (some n) => if n < nout && !seen.contains n then lsnBad nout (n :: seen) rest else some off

/-- The written register masks of a body (R210). -/
def maskOf (c : BitVec 2) (base n : Nat) (insts : List (Instr × Nat)) : Nat :=
  (List.range n).foldl (fun a k =>
    if insts.any (fun (i, _) => i.writeReg == some (c, BitVec.ofNat 8 (base + k))) then a + 2 ^ k else a) 0

/-- The header's masks and flags agree with the body (R210, DCODE 0x03). -/
def masksAgree (h : Header) (insts : List (Instr × Nat)) : Bool :=
  h.gmask.toNat == maskOf 0 0 32 insts && h.vmask.toNat == maskOf 1 0 64 insts &&
  h.qmask.toNat == maskOf 2 8 8 insts &&
  h.wk == insts.any (fun (i, _) => i.writeReg == some (2, 0)) &&
  h.vec == insts.any (fun (i, _) => i.needsVec)

/-- Third pass (R217). -/
def checkWhole (h : Header) (insts : List (Instr × Nat)) : Option SheafBad :=
  match feedAll insts 0 {} insts with
  | .error e => some e
  | .ok fd =>
    match (insts.zipIdx.find? fun (p, k) => !portsFed fd k p.1) with
    | some (p, _) => some ⟨some 0x14, p.2⟩
    | none =>
      match lsnBad h.nout [] insts with
      | some off => some ⟨some 0x11, off⟩
      | none =>
        if (insts.countP fun (i, _) => i.lsn?.isSome) != h.nout then some ⟨some 0x11, 0⟩
        else if !masksAgree h insts then some ⟨some 0x03, 0⟩
        else if !(insts.any fun (i, _) => i.isExit) then some ⟨some 0x15, 0⟩
        else if 8 < (insts.countP fun (i, _) => i.isCommand) then some ⟨some 0x16, 0⟩
        else none

/-- A whole sheaf (R217): the header bits, then as many of the body's syllables as the store holds. -/
def decodeSheaf (burr privOk : Bool) (bits : BitVec 128) (body : List Syl) : Except SheafBad Sheaf :=
  match checkHeader burr privOk bits with
  | some e => .error e
  | none =>
    let h := headerOf bits
    match decodeBody burr h.priv h.count h.count 0 16 body with
    | .error e => .error e
    | .ok (is, size) =>
      match checkWhole h is with
      | some e => .error e
      | none => .ok ⟨h, is.map (·.1), size⟩

/-! ### Encoding -/

/-- A prefix syllable (R202). -/
def prefixSyl (kind : Nat) (payload : Nat) : Syl := BitVec.ofNat 16 (0xE000 + kind * 1024 + payload)

/-- A target byte. -/
def Tgt.byte (t : Tgt) : Nat := t.port.toNat * 64 + t.pos.toNat

/-- The syllables of an instruction, prefixes in the order of R206: PG, FMT, DEP, REG, LSQ, TG2, IMX, then the base
syllable.  A step of the device has none. -/
def encode (i : Instr) : List Syl :=
  match i.info, i.form with
  | some n, some f =>
    (if n.page == 0 then [] else [prefixSyl kPG (n.page * 64 + f.sub.toNat)]) ++
    f.fmts.map (fun p => prefixSyl kFMT (p.1.toNat * 16 + p.2.toNat)) ++
    (match f.dep with | some (d, m) => [prefixSyl kDEP (d.toNat * 16 + m.toNat)] | none => []) ++
    (match f.reg with | some (c, k) => [prefixSyl kREG (c.toNat * 256 + k.toNat)] | none => []) ++
    (match f.lsq with | some (k, fol) => [prefixSyl kLSQ (k.toNat * 32 + fol.toNat * 16)] | none => []) ++
    (match f.t2 with | some t => [prefixSyl kTG2 t.byte] | none => []) ++
    f.imm.map (fun v => prefixSyl kIMX v.toNat) ++
    [BitVec.ofNat 16 (n.op * 1024 + f.pm.toNat * 256 + f.t.byte)]
  | _, _ => []

/-- The syllables of a table word: the opcode table writes an instruction's syllables from the most significant half
down, the leading prefix first (so READ's word is its REG prefix, then its base syllable). -/
def tableSyls : Nat → Nat → List Syl
  | 0, _ => []
  | k + 1, w => BitVec.ofNat 16 (w / 2 ^ (16 * k)) :: tableSyls k w

/-- The instruction this decoder reads from a table word; the syllables above the word are zero. DEDUCED, log 38. -/
def decodeTableWord (nbits w : Nat) : Option Instr :=
  (decodeInstr (tableSyls ((nbits + 15) / 16) w ++ [0, 0, 0, 0, 0])).map (·.1)

end Sys2Proof
end

