-- ==== Sys2Proof/Machine/State.lean ====
section
/-!
DEFINITION. The state of the machine, as plain data: every register, table, queue, cache and memory the spec gives
the device (INVENTORY.md, '## State'), and the few fields of the model's own (clock, choice counter, turn, inputs,
pending), which assumption logs 2 to 5 name.
-/
namespace Sys2Proof.Machine
open Sys2Proof

/-- Sparse data by key: pairs with strictly rising keys. -/
abbrev SMap (α : Type) := List (Nat × α)

/-! ### Tokens and the sheaf in flight (R157 to R162) -/

/-- A token: null, a 64-bit scalar, or a vector with its lane-valid mask (R159). -/
inductive Tok where
  | null
  | sc (w : Word)
  | ve (d : Vec) (m : Mask)
  deriving DecidableEq, Repr, Inhabited

/-- Whether an instruction of the sheaf in flight has fired, or is resolved without firing by a predicate mismatch
(R159). -/
inductive Ripe where
  | waiting | fired | absorbed
  deriving DecidableEq, Repr, Inhabited

/-- One instruction of the sheaf in flight: the tokens on its ports and whether it has fired. -/
structure Node where
  l : Option Tok := none
  r : Option Tok := none
  x : Option Tok := none
  p : Option Tok := none
  st : Ripe := .waiting
  deriving DecidableEq, Repr, Inhabited

/-- How the bytes of an answered access become a token (R265 to R272): sign- or zero-extended scalar, or a vector
with a mask. -/
inductive Shape where
  | sext (n : Nat)
  | zext (n : Nat)
  | vec (m : Mask)
  deriving DecidableEq, Repr, Inhabited

/-- What waits for an answer: a load-kind access (R262), an atomic's grant (R138), or a map update's grant (R346). -/
inductive HeldKind where
  | load (sh : Shape)
  | gath (m : Mask)
  | atomic (op : RmwOp) (n off : Nat) (b c : Word)
  | mapUpdate
  deriving DecidableEq, Repr, Inhabited

/-- An outstanding access of the sheaf: its LSN and body position, the bytes it covers and those that have come back
(R262, R263). `home` is the physical granule of a reservation. -/
structure Held where
  lsn  : Nat
  pos  : Nat
  kind : HeldKind
  va   : Nat
  got  : List (Option Byte)
  acq  : Option Nat := none       -- the scope of an ACQ access
  home : Option Nat := none
  kid  : Nat := 0
  vpn  : Nat := 0
  granted : Bool := false
  done : Bool := false
  deriving DecidableEq, Repr, Inhabited

/-- The class of an ordered access whose address has resolved, for R263. -/
inductive TouchKind where
  | load | store | gath | atomic | red | quad
  deriving DecidableEq, Repr, Inhabited

/-- The bytes an ordered access of the sheaf touches (R263): from `va` upward; a store's written bytes. -/
structure Touch where
  lsn   : Nat
  kind  : TouchKind
  va    : Nat
  bytes : List (Option Byte)
  elem  : Bool := false            -- an element-form QLD or QST
  wr    : Bool := false            -- a QST
  deriving DecidableEq, Repr, Inhabited

/-- A translated piece of an access, within one sector (R80, R133). -/
structure Piece where
  va    : Nat
  pa    : Nat
  kid   : Nat
  bytes : List (Option Byte)
  deriving DecidableEq, Repr, Inhabited

/-- The words of a copy descriptor as captured at fire (R323, R324), with the tensor descriptors it names. -/
structure CopyDesc where
  addr : Nat := 0
  hdr  : List Word := []            -- eight words
  dims : List (Word × Word × Word) := []
  src  : List Word := []            -- four words of a tensor-mode source
  dst  : List Word := []
  priv : Bool := false
  ctx  : Nat := 0
  group : Nat := 0                  -- the collective group of a fabric reduction's stile (R99)
  deriving DecidableEq, Repr, Inhabited

/-- A matrix command as captured at fire (R297). -/
inductive MCmd where
  | fill (handle : Nat) (desc : List Word) (path depth : Nat) (priv : Bool)
  | mma (zero : Bool) (tile ring bank handle wfmt : Nat)
  | drain (tile : Nat) (sat : Bool) (fmt dst tag : Nat) (mode : BitVec 3) (z0 : BitVec 32) (priv : Bool)
  deriving DecidableEq, Repr, Inhabited

/-- A change of the croft map, as committed (R346): the words to write in order, translated, the new root granule and
what completion owes. -/
structure MapPlan where
  writes : List Piece
  root   : Piece
  kind   : Nat                       -- 0 CSPLIT, 1 CMERGE, 2 CHAND, 3 HEDGE
  target : Nat := 0                  -- CHAND: the receiving core
  path   : Nat := 0                  -- the croft's digits and depth
  depth  : Nat := 0
  version : Nat := 0
  tag    : Tag := default            -- of the reservation
  deriving DecidableEq, Repr, Inhabited

/-- How a committed sheaf disposes of its thread (R359, R375). -/
inductive Dispo where
  | migrate (core : Nat) (fw : Bool)
  | yield_
  | park
  | done
  | softTrap (code : Word)
  | tret
  | halt
  deriving DecidableEq, Repr, Inhabited

/-- What a fired instruction does at commit (R161).  Registers are kept apart, in `Flight.regw`. -/
inductive Act where
  | store (ps : List Piece) (pol : BitVec 32) (blockp : Word)
  | red (op : RmwOp) (n : Nat) (v : Word) (p : Piece) (pol : BitVec 32) (blockp : Word)
  | stw (p : Piece) (pol : BitVec 32) (blockp : Word)
  | amRelease (lsn : Nat) (pol : BitVec 32)
  | fence (sys inv : Bool)
  | watch (word : Nat)
  | unwatch (word : Nat)
  | protb (grans : List (Nat × Nat × Nat)) (sys : Bool) (right : BitVec 2)   -- (sector, granule mask, address)
  | send (stile : Word) (chan : Nat) (data : Vec) (ord : Bool)
  | spawn (p : TaskPkt) (mi : Bool)
  | spawnb (b : Burr) (dest : Nat) (mi : Bool)
  | mbxw (slot box : Nat) (data : Vec)
  | mbxr (slot box : Nat) (any : Bool)
  | copy (tag : Nat) (d : CopyDesc)
  | tagclr (mask : Word)
  | rnbind (port mode : Nat) (operand x : Word) (pat : List Word) (priv : Bool)
  | rnunbind (port : Nat)
  | rnread (port : Nat)
  | rnwrite (port : Nat) (w : Word)
  | msgpop
  | ctlset (reg idx : Nat) (v : Word)
  | savec (addr : Nat) (ctl win : Word) (kind : Nat) (recs : List Byte) (ps : List Piece)
  | loadc (ctl : Word) (index kind : Nat) (epoch : Word) (recs : List Byte)
  | rkalloc (entry : Nat)
  | rkpin (handle : Nat) (pin : Bool)
  | rkrev (handle : Nat)
  | command (c : MCmd)
  | mring (base cfg : Word)
  | mtail (ring n : Nat)
  | mcnt (mask : Word)
  | mthr (v : Word)
  | mwgt (v : Word)
  | fjoin (id : Nat)
  | fleave (id : Nat)
  | fbar (id : Nat)
  | chan (core chan : Nat) (own : Bool) (blk : Bool)
  | tset (chan : Nat) (v : Word)
  | mapUpdate (kind : Nat) (point other : Word)      -- 0 CSPLIT, 1 CMERGE, 2 CHAND, 3 HEDGE
  | preempt (target : Word)
  deriving DecidableEq, Repr, Inhabited

/-- One action with its place in the order of commit: ordered events by LSN, then the others by body position. -/
structure Due where
  lsn : Option Nat
  pos : Nat
  act : Act
  deriving DecidableEq, Repr, Inhabited

/-- The registers a sheaf may write (R210, R240). -/
inductive Reg where
  | g (n : Nat) | v (n : Nat) | q (n : Nat) | k | rnd
  deriving DecidableEq, Repr, Inhabited

/-- The sheaf in flight (R158): the decoded sheaf, its run number, its nodes, what it has resolved and buffered. -/
structure Flight where
  sheaf  : Sheaf
  run    : Nat
  nodes  : List Node
  regw   : List (Reg × Tok) := []
  rndMode : Option (BitVec 3 × Option (BitVec 32)) := none     -- SETRND (R365)
  exit_  : Option Word := none
  dispo  : Option Dispo := none
  due    : List Due := []
  held   : List Held := []
  touch  : List Touch := []
  kOwner : Option (Option Nat) := none      -- the owner lookup of a WRITE of K (R345)
  looks  : List (Nat × Nat × Word) := []    -- lookups awaited: position, use (0 WRITE K, 1 SPAWNB), point
  rounded : Bool := false                   -- an RND-rounding instruction has fired (R195)
  tcause : Bool := false                    -- a CTLGET of TCAUSE bank 0 has fired (R369)
  follow : List (Nat × Nat) := []           -- LDFs with a follow owner: LSN, core (R166)
  nbr    : Option (List (Nat × Word) × Bool) := none  -- the table the sheaf's NBRs read (R352)
  uses   : List Nat := []                   -- rick handles whose use fired commands hold (R310)
  refill : List (Nat × Nat) := []           -- MMAs that wait for a refill: position, handle
  rnread : List (Nat × Nat) := []           -- words read tentatively from each port (R335)
  retry  : Bool := false                    -- run again after a revoke (R140)
  deriving DecidableEq, Repr, Inhabited

/-! ### Threads and slots -/

inductive ThreadKind where
  | rooted | burr
  deriving DecidableEq, Repr, Inhabited

/-- The registers of a thread (R205, R163). -/
structure Regs where
  g : Vector Word 32 := Vector.replicate 32 0
  v : Vector Vec 64 := Vector.replicate 64 0
  q : Vector Word 8 := Vector.replicate 8 0
  f : Vector Word 4 := Vector.replicate 4 0
  k : Word := 0
  n : Word := 0
  rnd : Word := 0x0000000100000000         -- LFSR 1, MODE 0 (R193)
  deriving DecidableEq, Repr, Inhabited

/-- The four trap registers of one bank (R368). -/
structure Bank where
  tcause  : Word := 0
  taddr   : Word := 0
  tblockp : Word := 0
  tsheaf  : Word := 0
  deriving DecidableEq, Repr, Inhabited

/-- Why a thread holds its slot without running (R378 record 4): it runs, is parked, halted, parked by a double
fault, or waits for a barrier's release. -/
inductive Rest where
  | none | parked | halted | dbl | barrier (flock : Nat)
  deriving DecidableEq, Repr, Inhabited

inductive PortMode where
  | fill | drain | nbr | ring
  deriving DecidableEq, Repr, Inhabited

/-- A bound runnel port (R334, R335, R378 record 6).  `pos` is the next word to fetch, write or send; `buf` the words
fetched, received or not yet written, a `none` standing for a word whose access failed (`err`). -/
structure Port where
  mode    : PortMode := .fill
  operand : Word := 0
  link    : Nat := 0
  stile   : Word := 0
  pat     : List Word := []
  priv    : Bool := false
  ctx     : Nat := 0                         -- the context it was bound in
  id      : Nat := 0                         -- the model's name of the binding, so that its words' credits find it (R335)
  pos     : Nat := 0
  buf     : List (Option Word) := []
  err     : Option TrapRec := none
  credits : Nat := 16
  unack   : Nat := 0
  stopped : Bool := false                    -- a drain word has failed its checks (R336)
  closing : Bool := false                    -- unbound, with words of its own sheaf still to write
  deriving DecidableEq, Repr, Inhabited

/-- A mailbox (R319). -/
structure Mbox where
  data  : Vec := 0
  full  : Bool := false
  claim : Option Nat := none
  deriving DecidableEq, Repr, Inhabited

/-- A 64-bit word of a register, as READ names it: class, number, word (R73, R205). -/
abbrev RegWord := Nat × Nat × Nat

/-- A thread's context: what a slot holds for it and what the thread-context cache and an image keep (R163, R378). -/
structure Thread where
  kind  : ThreadKind := .rooted
  regs  : Regs := {}
  memb  : BitVec 32 := 0
  ctx   : Nat := 0
  chan  : Nat := 0
  fw    : Bool := false
  bid   : BitVec 32 := 0
  hfmt  : BitVec 32 := 0
  scale : BitVec 56 := 0
  wake  : Bool := false                      -- WSTAT.WAKE (R275)
  bank0 : Bank := {}
  bank1 : Bank := {}
  act   : Bool := false                      -- TSTAT (R369)
  hnd   : Bool := false
  dbl   : Bool := false
  tstk  : Word := 0
  pstat : Word := 0                          -- R376; DESIGN CHOICE at reset, log 6
  imps  : List TrapRec := []                 -- pending imprecise traps (R371)
  rest  : Rest := .none
  release_ : Bool := false                   -- a barrier release kept with a saved thread (R362)
  ports : SMap Port := []
  box0  : Mbox := {}
  box1  : Mbox := {}
  moveTo : Option Nat := none                -- a coordinate migration owed after a barrier (R362, R165)
  tid   : Nat := 0                           -- the model's name of the thread, so that matrix traps find it (R313)
  bad   : List RegWord := []                 -- register words with an uncorrectable error (R73); DEDUCED, log 93
  soft  : List RegWord := []                 -- register words with a single-bit error (R73)
  deriving DecidableEq, Repr, Inhabited

/-- A packet as it stands in an injection queue or on a network (R80 to R82): class, source and destination as
(node, endpoint), its context and length, whether its write counts in UCNT, whether it is ordered (R93) or a release (R59), and the step that
happens where it arrives. -/
structure Pkt where
  msg     : Bool := false                    -- the message network, else the cached one
  cls     : Nat := 0
  src     : Nat × Nat := (0, 0)
  dst     : Nat × Nat := (0, 0)
  ctx     : Nat := 0
  counted : Bool := false
  own     : Bool := false                    -- a store to the own scratchpad that had to wait
  ord     : Bool := false
  rel     : Bool := false
  drain   : Bool := false                    -- waits for the gateway drain too (SYSTEM scope, R117)
  key     : Option Nat := none               -- the key id that seals its payload, where it is neither the request's nor the context's (R82)
  rtag    : Option Tag := none               -- the tag of the request that it acknowledges (R82)
  deliver : Event
  deriving DecidableEq, Repr, Inhabited

/-- An entry of an injection queue: a packet or a fence mark (R273), with whether it waits for the gateways too and whether its
fence invalidates the L1 (R58). -/
inductive InjEnt where
  | pkt (p : Pkt)
  | mark (sys inv : Bool)
  deriving DecidableEq, Repr, Inhabited

/-- A slot of a core: its thread and what belongs to the slot itself. -/
structure Slot where
  occ   : Bool := false
  th    : Thread := {}
  fl    : Option Flight := none
  runs  : Nat := 0                           -- sheafs started, the run numbers of tags
  ucnt  : Nat := 0                           -- counted writes (R90)
  ocnt  : Nat := 0                           -- stores to the own scratchpad that wait in the queue or travel; log 116
  injq  : List InjEnt := []
  disp  : Option Dispo := none               -- a disposal that waits for UCNT = 0
  deps  : List (Nat × Nat × Vec) := []       -- mailbox words to write once UCNT = 0 (R319)
  drain : Option (List (Nat × Nat)) := none  -- the drain request of a SYSTEM fence at fire: gateway, count awaited (R117)
  qdrain : Option (List (Nat × Nat)) := none -- the drain request of the queue's head
  wakes : List Nat := []                     -- STW words whose wake acknowledgement is awaited (R278)
  cancels : Nat := 0                         -- cancels not yet acknowledged (R141)
  retryNext : Bool := false                  -- the next run is a restart after a revoke (R140)
  tails : List (Nat × Nat) := []             -- tails committed behind stores to the own scratchpad that are still to be performed (R303)
  ports : SMap Port := []                    -- the slot's own bindings, which its burrs use, while a rooted thread is in it (R334)
  deriving DecidableEq, Repr, Inhabited

/-! ### The core -/

structure L1Sector where
  data  : List Byte
  guard : BitVec 32
  ctx   : Nat
  bad   : Bool := false                      -- an uncorrectable error (R73)
  soft  : Bool := false                      -- a single-bit error (R73)
  deriving DecidableEq, Repr, Inhabited

/-- A write of a sector by the core itself, for fills that left before it (R113): its step, and its place and bytes, or none for
a reduction, whose bytes the core does not know. -/
structure OwnWrite where
  step  : Nat
  off   : Nat := 0
  bytes : Option (List (Option Byte)) := none
  deriving DecidableEq, Repr, Inhabited

/-- An L1 line (R56): its line number, its sectors and its eviction class. -/
structure L1Line where
  line : Nat
  secs : SMap L1Sector := []
  cls  : Nat := 1
  deriving DecidableEq, Repr, Inhabited

/-- A leaf as the translation structures hold it (R28, R34): the page's block, kind, frame and rights; a HOLE leaf's
pad pattern. -/
structure Leaf where
  depth : Nat
  base  : Nat
  kind  : Nat
  frame : Nat
  kid   : Option Nat
  priv  : Bool
  w     : Bool
  rd    : Bool
  pad   : List Byte := []
  deriving DecidableEq, Repr, Inhabited

structure TlbEnt where
  ctx  : Nat
  leaf : Leaf
  deriving DecidableEq, Repr, Inhabited

/-- A ring of the core (R300, R301): base, configuration, head, tail, words filled of the entry a ring port is
writing. -/
structure Ring where
  base : Nat := 0
  en   : Bool := false
  scl  : Bool := false
  fmt  : Nat := 0
  ent  : Nat := 0
  head : Nat := 0
  tail : Nat := 0
  part : Nat := 0
  deriving DecidableEq, Repr, Inhabited

/-- A queued matrix command: its TSN and issuing slot (R297), its context, and, for a drain, where it stands (R312). -/
structure QCmd where
  cmd  : MCmd
  tsn  : Nat
  slot : Nat
  ctx  : Nat
  tid  : Nat := 0                            -- the issuing thread, so that a trap finds it (R313)
  next : Nat := 0                            -- next drain element
  held_ : Bool := false                      -- a drain held by a failing check
  freed : Bool := false                      -- its tile has been read out
  started : Bool := false
  deriving DecidableEq, Repr, Inhabited

inductive CopyState where
  | running | suspended | paused | aborted
  deriving DecidableEq, Repr, Inhabited

/-- An element of a run that has been read (R328): its destination and value, and the places it was translated to, as offset,
size, physical address and key id (R153). -/
structure RunElem where
  dst : Option Nat
  val : List Byte
  at_ : Option (List (Nat × Nat × Nat × Nat)) := none
  deriving DecidableEq, Repr, Inhabited

/-- A copy of the core (R328, R329): its tag, captured descriptor, state and the next linear index. -/
structure Copy where
  tag    : Nat
  desc   : CopyDesc
  state  : CopyState := .running
  resume : Nat := 0
  cause  : Nat := 0
  faddr  : Word := 0
  fblock : Word := 0
  wait   : Bool := false                     -- a REL copy that has not started its first run
  landing : Bool := false                    -- every run done, TAGL not yet set
  chunks : List Nat := []                    -- fabric reduction: the first linear index of each chunk contributed (R435)
  wrote  : List Nat := []
  failed : Option Nat := none                -- where it stopped, of a fabric reduction whose chunk could not be written (R329)
  inst   : Nat := 0                          -- the instance of its fabric reduction (R435)
  buf    : Option (List RunElem) := none     -- a run that has been read (R328)
  drain  : Option (List (Nat × Nat)) := none -- the drain request of a SYSTEM copy (R150, R117)
  deriving DecidableEq, Repr, Inhabited

/-- A croft cache entry (R344): the croft's block, its owner and the version it was read under. -/
structure CroftEnt where
  path    : Nat
  depth   : Nat
  core    : Nat
  splt    : Nat := 0
  version : Nat
  ctx     : Nat
  deriving DecidableEq, Repr, Inhabited

/-- An entry of the thread-context cache (R169, R376). -/
structure CacheEnt where
  th    : Thread
  drover : Bool := false
  waiting : Option Nat := none               -- the clock from which a yielded thread waits (R359)
  used  : Nat := 0
  ctagf : Word := 0
  ctagl : Word := 0
  ctage : Word := 0
  drvcfg : Word := 0
  copies : List Copy := []
  imaged : Bool := false                     -- installed from an image: its planes are the image's (R380)
  deriving DecidableEq, Repr, Inhabited

/-- A core (R18, R156). -/
structure Core where
  ctx    : Option Nat := none                -- the context it belongs to (R382)
  slots  : Vector Slot 8 := Vector.replicate 8 {}
  l1     : SMap (List L1Line) := []          -- by set, most recently used first
  epochs : SMap Nat := []                    -- invalidations of each context's sectors (R113)
  epochAll : Nat := 0                        -- invalidations of sectors of every context
  stored : SMap (List OwnWrite) := []        -- by sector, the core's own writes, oldest first, for fills that are awaited
  injPtr : Nat := 7                          -- the slot whose packet left last (R89); DESIGN CHOICE at reset, log 6
  gcache : List (Nat × BitVec 32) := []      -- guard cache (R42)
  tlb    : List TlbEnt := []
  loads  : List Pkt := []                    -- load requests that have not left the core (R111)
  aq     : List Entry := []
  spill  : List Entry := []
  spilled : Nat := 0                         -- entries ever spilled: the next one's place in the region (R168)
  aspill : Word := 0
  jamSent : Bool := false
  fullSent : Bool := false
  cache  : SMap CacheEnt := []
  backing : SMap CacheEnt := []              -- entries written to the backing area (R169)
  tccb   : Word := 0
  tchan  : SMap Word := []
  stile  : SMap Word := []
  ctagf  : Word := 0
  ctagl  : Word := 0
  ctage  : Word := 0
  acqTags : Word := 0                        -- tags whose last copy carries ACQ (R328)
  busy   : Word := 0                         -- tags taken and not yet landed or aborted (R333)
  copies : List Copy := []
  mbxPtr : Nat := 6                          -- the slot MBXR ANY served last; DESIGN CHOICE at reset, log 6
  drvcfg : Word := 0
  mxcfg  : Word := 0xF1                      -- RFX 0, WCAP 0xF, WGT 1 (R299)
  mxcnt  : Word := 0
  mxthr  : Word := 0
  crossed : BitVec 3 := 0                    -- counters that have crossed since MCNT cleared them (R313)
  rings  : Vector Ring 4 := Vector.replicate 4 {}
  mq     : List QCmd := []
  tiles  : SMap (BitVec 32) := []            -- 2 tiles x 2,048 FP32 words; absent words are +0
  tileBad : List Nat := []                   -- accumulator words with an uncorrectable error (R315)
  tileSoft : List Nat := []                  -- accumulator words with a single-bit error (R73)
  fixed  : Vector Word 6 := Vector.replicate 6 0   -- corrected-error counters (R73, R421): register file, thread-context
                                             -- cache, scratchpad, instruction store, accumulators, L1
  watch  : SMap (BitVec 5) := []             -- watched words: owner (R53)
  crofts : List CroftEnt := []
  croot  : Word := 0                         -- CROOT as it has arrived at the core (R343)
  table  : List (Nat × Word) := []           -- burr table: BID, K (R350)
  lost   : Bool := false
  dropped : Bool := false                    -- an entry has been dropped since the last rebuild began (R350)
  crowded : List (Nat × Nat) := []           -- crofts whose crowding event is not armed (R348)
  serial : Nat := 0
  live0  : Nat := 0
  live1  : Nat := 0
  links  : List (Nat × Nat × Nat × Word) := []   -- link store: link id, sender, its port, word (R335)
  deriving DecidableEq, Repr, Inhabited

/-! ### Copse, homes and contexts -/

/-- The state of a rick (R306). -/
inductive RkState where
  | empty | filling | ready | stale | evicted | revoked
  deriving DecidableEq, Repr, Inhabited

/-- A rick table entry (R305): the recorded source is the descriptor's words, the path and the depth. -/
structure Rick where
  handle : Nat := 0
  ctx    : Nat := 0
  state  : RkState := .revoked
  pin    : Bool := false
  nbanks : Nat := 0
  banks  : List Nat := []
  err    : Nat := 0
  src    : Option (List Word × Nat × Nat × Bool) := none
  bound  : Bool := false                     -- its RKALLOC has committed
  marked : Bool := false                     -- a source sector was written during the fill (R306)
  before : RkState := .empty                 -- the state the RKFILL that made it filling found (R304)
  refilling : Bool := false                  -- a refill from the recorded source is under way (R310)
  used   : Nat := 0
  fmt    : Nat := 1                          -- element size of the bank contents
  deriving DecidableEq, Repr, Inhabited

inductive BankState where
  | free | zeroing (since : Nat) | held (handle : Nat) (zeroing : Option Nat)
  deriving DecidableEq, Repr, Inhabited

/-- A running command of the array (R304). -/
structure Run where
  core  : Nat
  since : Nat
  deriving DecidableEq, Repr, Inhabited

structure Copse where
  tlb    : List TlbEnt := []
  lcache : List (Nat × Nat × Nat × Nat) := []   -- context, level, digits, node address (R34)
  ricks  : Vector Rick 8 := Vector.replicate 8 {}
  usedEntry : List Nat := []                    -- entries that have ever been taken
  rsv    : SMap Rick := []                      -- by entry, ricks that an RKALLOC has reserved and not committed (R308)
  gone   : List Rick := []                      -- revoked ricks in use whose entries have been taken again (R307)
  serial : Nat := 1
  banks  : Vector BankState 8 := Vector.replicate 8 .free
  bank   : SMap Byte := []                      -- bank contents: 0x8000 * bank + byte
  bankBad : List Nat := []                      -- bank words with an uncorrectable error (R315)
  bankSoft : List Nat := []                     -- bank words with a single-bit error (R73)
  fixed  : Vector Word 2 := Vector.replicate 2 0   -- corrected-error counters (R73): slice, rick banks
  mulPtr : Nat := 0                             -- arbiter pointers; DESIGN CHOICE at reset, log 6
  fillPtr : Nat := 0
  mulBudget : Nat := 0
  fillBudget : Nat := 0
  mul    : Option Run := none
  fill   : Option Run := none
  rr     : Nat := 0                             -- the copy engine's round robin (R328)
  droopUntil : Nat := 0                         -- R437
  skipUntil : Nat := 0                          -- a command's time that a throttled array lets pass (R437)
  parity : Bool := false                        -- throttled arrays start every second command (R437)
  deriving DecidableEq, Repr, Inhabited

/-- What a home keeps of a sector (R60): key id, guard word, zero-pending, host-held and rick-source marks, the 64-bit
words with an uncorrectable or a single-bit error, and whether the pool device answers it as poisoned (R73). DESIGN CHOICE, log 12. DESIGN CHOICE, log 44. -/
structure Sector where
  kid   : Option Nat := none                    -- none until a first write gives it one (R71; log 12)
  guard : BitVec 32 := 0
  zp    : Bool := false
  host  : Option Nat := none                    -- the gateway a host read came through (R117)
  rick  : Bool := false
  bad   : BitVec 16 := 0
  soft  : BitVec 16 := 0
  poison : Bool := false
  deriving DecidableEq, Repr, Inhabited

/-- An access in a granule's reservation queue (R139): the head may be granted; a retry request stands ahead (R140). -/
structure Waiter where
  req     : Req
  granted : Bool := false
  since   : Nat := 0
  revoked : Bool := false
  deriving DecidableEq, Repr, Inhabited

/-- A recent write (R136), with the granule's bytes before it and its place in the order of steps, for the reads and
writes that conflict with it (R134). -/
structure Recent where
  granule : Nat
  off     : Nat
  size    : Nat
  who     : Agent
  clock   : Nat
  now     : Nat := 0
  old     : List Byte := []
  plain   : Bool := false                       -- neither an atomic's release nor a reduction
  deriving DecidableEq, Repr, Inhabited

/-- A home's rick source table (R151, R152): first and last physical sector, copse, handle. -/
structure RickSrc where
  ents : List (Nat × Nat × Nat × Nat) := []
  overflow : Bool := false
  deriving DecidableEq, Repr, Inhabited

/-- A pool-cache line with its directory entry (R64): sector-valid, sector-dirty, class, and the sectors' bytes; `stuck`
marks dirty sectors reported for an uncorrectable word (R74), `waits` the accesses that wait for a fill. -/
structure PoolLine where
  line : Nat
  st   : Nat := 0
  sv   : BitVec 8 := 0
  sd   : BitVec 8 := 0
  cls  : Nat := 1
  data : SMap (List Byte) := []
  stuck : BitVec 8 := 0
  waits : List Event := []
  deriving DecidableEq, Repr, Inhabited

/-- The registers and tables of a context (R31, R369, R382). -/
structure Ctx where
  live   : Bool := false
  troot  : Word := 0
  tctl   : Word := 0
  dtroot : Word := 0
  tskm   : Word := 0
  supv   : Word := 0
  tvec   : Word := 0
  csched : Word := 0
  rkquota : Word := 0
  fspl   : SMap (BitVec 8) := []
  mixdbg : Word := 0
  mixAt  : SMap Word := []                      -- MIXDBG as it has arrived at each home (R135)
  croot  : Word := 0
  savecnt : Word := 0
  index  : Nat := 0                             -- images of the epoch
  used   : List Nat := []                       -- indexes restored or claimed (R380)
  claims : List (Nat × Nat × Nat) := []         -- claims taken at fire: index, core, slot
  ivgen  : Nat := 0
  sealed : Nat := 0                             -- images sealed under the present IVGEN (R391)
  made   : Bool := false                        -- CREATE has just made it: no core has joined and nothing was imported (R392)
  seals  : List (Nat × List Byte) := []         -- the images sealed here under KI, with their IVGEN (R377; log 8)
  ki     : Nat := 0                             -- names of keys (R390)
  kx     : Nat := 0
  priv   : Bool := false
  shmax  : Nat := 0
  spillSize : Nat := 0
  stopped : Bool := false
  notes  : List Byte := []
  deriving DecidableEq, Repr, Inhabited

structure Flock where
  count   : Int := 0                            -- below zero while a fall has overtaken the rise it undoes (R88)
  arrived : List (Nat × Nat × Nat) := []        -- core, slot and thread of each arrived member
  gen     : Nat := 0
  deriving DecidableEq, Repr, Inhabited

/-! ### Scheduling, networks, gateways, trust -/

/-- A packet in a die queue (R182, R185). -/
structure DieEnt where
  pkt   : TaskPkt
  since : Nat
  aged  : Nat := 0
  quota : Nat := 4096                           -- the context's QUOTA for it: as it entered, or raised since (R181, R384)
  cap   : Nat := 7                              -- MAXCLS likewise
  hold  : Option Nat := none                    -- the clock until which a returned packet is held
  deriving DecidableEq, Repr, Inhabited

/-- A die: its task scheduler (R179 to R187), monitors, status page and identity key; a gateway die uses the last three. -/
structure Die where
  queue  : List DieEnt := []
  spill  : List DieEnt := []
  dsqcfg : Word := 0
  rr     : SMap Nat := []                       -- round robin over contexts, by class
  lastRelease : Option Nat := none
  summary : List (Nat × Nat × Nat × List Nat) := []   -- copse, core, context, open channels with a free slot
  steals : SMap Nat := []                       -- clock of the last steal request to each neighbour
  moncfg : Word := 0x6E5F40                     -- TTRIP 110, TTHR 95, ISS 4 (R438)
  thr    : Bool := false
  page   : Vector Word 6 := Vector.replicate 6 0   -- status page words 0 to 5 (R431)
  leaf   : Nat := 0                             -- next identity leaf (R396)
  leafEnd : Nat := 0
  absent : Bool := false                        -- a gateway die that refuses training (R396)
  codes  : List Nat := []                       -- raw sensor codes (R438)
  procs  : List Nat := []                       -- process-monitor counts (R438)
  fullSent : Bool := false
  spilled : Nat := 0                            -- packets ever spilled: the next one's place in the region (R180)
  deriving DecidableEq, Repr, Inhabited

/-- A walking task packet (R184, R185). -/
structure Walk where
  ent  : DieEnt
  home : Nat                                    -- the die that released it
  node : Nat
  id   : Nat
  phase : Nat := 0                              -- routing phase (R101)
  input : Nat := 4                              -- the input whose buffer it holds, and whether a reserved one (R85)
  resv  : Bool := true
  since : Nat := 0                              -- when it reached the node, by steps (R184)
  deriving DecidableEq, Repr, Inhabited

/-- A packet on a network: the node it stands at, the input it stands at (0 and 1 row-ring
inputs by rising and falling positions, 2 and 3 column-ring inputs likewise, 4 local, 5 gateway, 6 still at its
endpoint), its routing phase and whether it holds a reserved buffer (R85, R101). -/
structure Flit where
  pkt   : Pkt
  node  : Nat
  input : Nat
  phase : Nat := 0
  resv  : Bool := true
  deriving DecidableEq, Repr, Inhabited

/-- An operation that a FENCE of its slot waits for (R273). -/
inductive OpKind where
  | tinv (ctx : Nat) (v : Word)
  | protb (ctx : Nat) (grans : List (Nat × Nat × Nat)) (sys : Bool) (right : BitVec 2)
  | mixdbg (ctx : Nat) (v : Word)
  | croot (ctx : Nat) (v : Word)
  | preempt (target : Word)
  | savec (ctx target : Nat) (ps : List Piece)
  | loadc (ctx : Nat) (ctl : Word) (kind : Nat) (recs : List Byte)
  | mapUpdate (ctx : Nat) (p : MapPlan)
  deriving DecidableEq, Repr, Inhabited

/-- An operation under way: who issued it, the cores, homes or writes it still waits for, and how many ordered packets of its
slot stand before it (R93). -/
structure Op where
  id   : Nat
  core : Nat
  slot : Nat
  kind : OpKind
  left : List Nat := []
  behind : Nat := 0
  deriving DecidableEq, Repr, Inhabited

/-- A request under way on a stream: the step that it completes, if the model follows it, its phase and its clock. -/
structure Sent where
  step  : Option Event
  phase : Bool
  since : Nat
  deriving DecidableEq, Repr, Inhabited

/-- A stream (R393). -/
structure Stream where
  cnt   : Nat := 0
  ph    : Bool := false
  nkr   : Bool := false
  warn  : Bool := false
  exh   : Bool := false
  oldrx : Bool := false
  early : Bool := false
  held  : List Event := []                      -- packets held for want of a key, as the steps that send them
  out   : List Sent := []                       -- requests that await their completions
  switchAt : Nat := 0
  integ : Nat := 0                              -- integrity errors
  keys  : SMap (Nat × Nat) := []                -- transmit and receive keys by phase (R393)
  deriving DecidableEq, Repr, Inhabited

structure LQ where
  cfg  : Word := 0
  recs : List TaskPkt := []
  refused : Nat := 0
  counted : Bool := false                       -- the increments of the oldest record have left (R432)
  owed    : Nat := 0                            -- increments that are not acknowledged
  deriving DecidableEq, Repr, Inhabited

structure Gateway where
  lqs     : SMap LQ := []                       -- by 8 * context + queue
  start   : List Nat := []                      -- the targets of the STARTs that are not acknowledged, oldest first (R433)
  streams : SMap Stream := []
  biq     : List Nat := []                      -- back-invalidations queued (R117)
  biDone  : Nat := 0                            -- back-invalidations that the host has completed
  replies : List (Bool × Option (List Byte)) := []   -- completions to the host: phase, and the bytes or poison (R395, R441)
  deriving DecidableEq, Repr, Inhabited

/-- A stile registry entry (R386). -/
structure StileEnt where
  gen     : Nat := 0
  live    : Bool := false
  content : Word := 0
  grantee : Nat := 0
  mask    : List Nat := []                      -- 64 * core + index
  deriving DecidableEq, Repr, Inhabited

/-- A host map window (R441). -/
structure Window where
  ctx  : Nat
  hb   : Nat
  len  : Nat
  vb   : Nat
  rw   : Bool
  deriving DecidableEq, Repr, Inhabited

/-- An attestation session (R398): its context and the name of its key. -/
structure Session where
  ctx : Nat
  key : Nat
  mig : Nat                                     -- its migration session key (R398)
  deriving DecidableEq, Repr, Inhabited

/-- A pre-copy stream record (R434). -/
structure PageRec where
  ctx : Nat
  vpn : Nat
  guards : List (BitVec 32)
  data : List Byte
  deriving DecidableEq, Repr, Inhabited

/-- A copy's part in a collective instance (R435): its group, and the chunks it has contributed. -/
structure Collective where
  core  : Nat
  tag   : Nat
  inst  : Nat := 0
  group : Nat
  since : Nat
  chunks : Nat := 0                             -- chunks that it is to contribute
  parts : SMap (List Byte) := []
  deriving DecidableEq, Repr, Inhabited

/-- The turn of the issue step: which core and slot issues, and the body position it issues.  The model's own,
log 4. -/
structure Turn where
  core : Nat := 0
  slot : Nat := 0
  pos  : Nat := 0
  deriving DecidableEq, Repr, Inhabited

/-- The machine. -/
structure State where
  clock   : Nat := 0
  now     : Nat := 0                            -- steps taken: the order of events within a clock, log 3
  issued  : List Nat := []                      -- cores that have issued on this clock (R156)
  fresh   : Nat := 0                            -- counter of choices and free values, log 2
  turn    : Turn := {}
  event   : Option Event := none               -- the step in hand, log 4
  inputs  : List Event := []
  pending : List Event := []
  mem     : List Host.Cell := []                -- physical memory; unlisted bytes read 0, log 1
  secs    : SMap Sector := []
  resvs   : SMap (List Waiter) := []            -- by granule
  revokes : List (Agent × Nat) := []            -- the step of the first revoke of each holder's sheaf (R140)
  joins   : SMap (Nat × Option TrapRec) := []   -- writes whose granules' parts wait: parts left, the first refusal (R139)
  scrubs  : SMap Nat := []                      -- the next sector of each structure's scrubber, by home (R75)
  errlogs : SMap (List Nat) := []               -- each structure's error log, by home (R75)
  tclog   : List Nat := []                      -- pool sectors reported to the trust core as stuck (R74)
  recents : SMap (List Recent) := []            -- by bank of a home
  lastAt  : SMap Nat := []                      -- the step of each engine's last access, or of the start of its work (R134)
  ricksrc : SMap RickSrc := []                  -- by home
  pcache  : SMap (List PoolLine) := []          -- by slice and set
  cores   : SMap Core := []
  copses  : SMap Copse := []
  ctxs    : SMap Ctx := []
  dies    : SMap Die := []                      -- 16 to 19 are the gateway dies
  gws     : SMap Gateway := []
  flocks  : SMap Flock := []                    -- by 256 * context + flock
  flits   : List Flit := []
  walks   : List Walk := []
  ops     : List Op := []
  nextId  : Nat := 0
  health  : Word := 0
  alarms  : Nat × Word := (0, 0)                -- the alarm bits raised on a clock (R436)
  poolcap : Word := 0
  hpool   : Word := 0
  spread  : SMap Word := []
  dhome   : Word := 0
  pccfg   : Word := 0
  nroute  : SMap (BitVec 16) := []              -- by 16 * node + die
  fwver   : BitVec 32 := 0
  image   : Nat := 0                            -- the firmware image that was written last (R397, R440)
  cmds    : SMap (List Word) := []              -- trust command slots (R431)
  tcqst   : BitVec 16 := 0
  tcq     : List Event := []                    -- commands whose doorbells have been taken, in order (R383)
  tcstage : Nat := 0                            -- how far the head command has come
  tcmsgs  : List (Nat × Nat × Bool) := []       -- messages to the trust core: gateway, stream, key-warning or else key-exhausted (R394)
  stileKey : Nat := 0                           -- the trust core's stile key (R386, R389)
  sharedKx : SMap Nat := []                     -- the KX of each shared key id (R390)
  shareAsk : List (Nat × Nat) := []             -- SHAREKEYs that one tenant has given: its context and the other's (log 104)
  stiles  : SMap StileEnt := []
  shared  : List Nat := []                      -- live shared key ids (R382)
  keyIds  : List Nat := []                      -- key ids whose key every sealing unit holds (R390)
  sessions : SMap Session := []
  attLeaf : Nat := 0                            -- attestation leaves spent (R398)
  attKey  : Nat := 0
  windows : SMap Window := []
  sent    : List PageRec := []                  -- page records sent on the migration stream (R434)
  precopy : List (Nat × Nat × Nat) := []        -- pages whose marks are cleared and that are not yet read: context, first, count
  preAt   : SMap Nat := []                      -- the page at which a context's round of pre-copy stands (R434)
  colls   : List Collective := []
  linkBad : SMap Nat := []                      -- replays in a row on each link (R103)
  linkSeq : SMap Nat := []                      -- flits delivered on each link
  linkDead : List Nat := []                     -- links declared down
  stopped : Bool := false                       -- FATAL: no work is accepted (R103)
  up      : Bool := false                       -- bring-up has ended
  deriving DecidableEq, Repr, Inhabited

/-! ### Faults and refusals -/

/-- Why the model stops with a fault.  Every trap of the machine is a next state; these stops are the model's. -/
inductive Fault where
  /-- Raised by the meaning of a sheaf instruction when the slot whose turn it is does not hold that instruction ready
  to issue (R157).  Safe: the machine never issues such an instruction. -/
  | noIssuer
  /-- Raised by a step of the device whose subject (packet, command, operation, walk, queue entry) is not there.
  Safe: the machine never makes such a step. -/
  | noSubject
  deriving DecidableEq, Repr, Inhabited

/-- Why the model refuses an instruction. -/
inductive Refusal where
  /-- Raised by the dispatcher for an instruction without a meaning.  Safe: nothing is claimed of it. -/
  | notModelled (mnemonic : String)
  deriving DecidableEq, Repr, Inhabited

/-- The machine right after reset: nothing has been brought up, every register stands at its reset value, and the
bring-up of R439 is due. DESIGN CHOICE, log 6. -/
def State.reset : State := { pending := [.bringUp] }

end Sys2Proof.Machine
end

