-- ==== Sys2Proof/Machine/Geo.lean ====
section
/-!
DEFINITION. Maps, bit fields and bytes; then where things are: nodes, rings and hops (R16, R77 to R84), homes of
physical addresses (R14 to R18, R38, R60 to R63), and gateways (R79, R429).
-/
namespace Sys2Proof.Machine
open Sys2Proof

/-! ### Sparse maps -/

/-- The value at a key. -/
def SMap.get? {α : Type} : SMap α → Nat → Option α
  | [], _ => none
  | (k, v) :: rest, a => if k == a then some v else if a < k then none else SMap.get? rest a

/-- The value at a key, or a default. -/
def SMap.get {α : Type} (m : SMap α) (a : Nat) (d : α) : α := (m.get? a).getD d

/-- Write a key, keeping the keys rising. -/
def SMap.put {α : Type} : SMap α → Nat → α → SMap α
  | [], a, v => [(a, v)]
  | (k, w) :: rest, a, v =>
    if k == a then (a, v) :: rest
    else if a < k then (a, v) :: (k, w) :: rest
    else (k, w) :: SMap.put rest a v

/-- Remove a key. -/
def SMap.del {α : Type} : SMap α → Nat → SMap α
  | [], _ => []
  | (k, w) :: rest, a =>
    if k == a then rest
    else if a < k then (k, w) :: rest
    else (k, w) :: SMap.del rest a

/-- Replace one element of a list; nothing where there is none. -/
def setAt {α : Type} : List α → Nat → α → List α
  | [], _, _ => []
  | _ :: rest, 0, v => v :: rest
  | x :: rest, n + 1, v => x :: setAt rest n v

/-- Remove one element of a list. -/
def dropAt {α : Type} : List α → Nat → List α
  | [], _ => []
  | _ :: rest, 0 => rest
  | x :: rest, n + 1 => x :: dropAt rest n

/-- The first element of a list that satisfies a test, with the list without it. -/
def takeFirst {α : Type} (p : α → Bool) : List α → Option (α × List α)
  | [] => none
  | x :: rest =>
    if p x then some (x, rest)
    else match takeFirst p rest with
      | some (y, l) => some (y, x :: l)
      | none => none

/-! ### Bit fields and bytes -/

/-- `len` bits of a number from bit `lo` up. -/
def nbits (v lo len : Nat) : Nat := v / 2 ^ lo % 2 ^ len

/-- `len` bits of a word from bit `lo` up. -/
def field (w : Word) (lo len : Nat) : Nat := nbits w.toNat lo len

/-- A word from a number. -/
def wd (n : Nat) : Word := BitVec.ofNat 64 n

/-- Put `v` in `len` bits of a word from bit `lo` up. -/
def setField (w : Word) (lo len v : Nat) : Word :=
  wd (w.toNat - field w lo len * 2 ^ lo + v % 2 ^ len * 2 ^ lo)

/-- `n` bytes of a number, lowest first (R13). -/
def toBytes : Nat → Nat → List Byte
  | 0, _ => []
  | n + 1, v => BitVec.ofNat 8 v :: toBytes n (v / 256)

/-- The number whose bytes, lowest first, are given (R13). -/
def ofBytes : List Byte → Nat
  | [] => 0
  | b :: rest => b.toNat + 256 * ofBytes rest

/-- The number read as two's complement of `n` bits. -/
def signed (n v : Nat) : Int := if v < 2 ^ (n - 1) then (v : Int) else (v : Int) - (2 ^ n : Nat)

/-- The bytes of a vector, lowest first. -/
def vecBytes (v : Vec) : List Byte := toBytes 64 v.toNat

/-- A vector from its bytes, lowest first. -/
def vecOf (bs : List Byte) : Vec := BitVec.ofNat 512 (ofBytes bs)

/-- `n` ones from bit 0. -/
def lowMask (n : Nat) : Mask := BitVec.ofNat 64 (2 ^ n - 1)

/-! ### The network grid -/

/-- Ring position of a physical row or column (R78). -/
def ringPos (c : Nat) : Nat := if c % 2 == 0 then c / 2 else 15 - (c - 1) / 2

/-- The row or column at a ring position (R78). -/
def ringAt (p : Nat) : Nat := if p < 8 then 2 * p else 2 * (15 - p) + 1

/-- The bits of odd or even place of a copse index: node row or column (R16). -/
def oddBits (i : Nat) : Nat := nbits i 1 1 + 2 * nbits i 3 1 + 4 * nbits i 5 1 + 8 * nbits i 7 1
def evenBits (i : Nat) : Nat := nbits i 0 1 + 2 * nbits i 2 1 + 4 * nbits i 4 1 + 8 * nbits i 6 1

/-- The network node of a copse: 16 × row + column (R16). -/
def nodeOf (copse : Nat) : Nat := 16 * oddBits copse + evenBits copse

/-- The copse at a node. -/
def copseAt (node : Nat) : Nat :=
  let r := node / 16
  let c := node % 16
  (List.range 4).foldl (fun a b => a + nbits r b 1 * 2 ^ (2 * b + 1) + nbits c b 1 * 2 ^ (2 * b)) 0

/-- The die of a copse (R16). -/
def dieOf (copse : Nat) : Nat := copse / 16

/-- Steps on a ring from one row or column to another, the shorter way (R83). -/
def ringDist (a b : Nat) : Nat :=
  let d := (ringPos b + 16 - ringPos a) % 16
  if d ≤ 8 then d else 16 - d

/-- Hop distance between nodes (R175). -/
def hopDist (a b : Nat) : Nat := ringDist (a % 16) (b % 16) + ringDist (a / 16) (b / 16)

/-- The next row or column on a ring, and whether the move is towards rising positions (R83). -/
def ringNext (here dest : Nat) : Nat × Bool :=
  let d := (ringPos dest + 16 - ringPos here) % 16
  if d ≤ 8 then (ringAt ((ringPos here + 1) % 16), true)
  else (ringAt ((ringPos here + 15) % 16), false)

/-- Every node of one dimension-order route, the ends included (R83). -/
def routeFrom : Nat → Nat → Nat → List Nat
  | 0, here, _ => [here]
  | n + 1, here, dest =>
    if here % 16 != dest % 16 then here :: routeFrom n (16 * (here / 16) + (ringNext (here % 16) (dest % 16)).1) dest
    else if here / 16 != dest / 16 then here :: routeFrom n (16 * (ringNext (here / 16) (dest / 16)).1 + here % 16) dest
    else [here]

def route (a b : Nat) : List Nat := routeFrom 16 a b

/-- Endpoint codes (R77). -/
def epSlice : Nat := 8
def epCopy : Nat := 9
def epArray : Nat := 10
def epFeeder : Nat := 12
def epGateway : Nat := 13
def epMgmt : Nat := 14

/-- A core's place on the networks: its copse's node and its endpoint code. -/
def coreEnd (core : Nat) : Nat × Nat := (nodeOf (core / 8), core % 8)

/-- A die is present (R40). -/
def State.dieLive (s : State) (d : Nat) : Bool := d < 16 && s.dhome.getLsbD d

/-- The four attachment nodes of a gateway: 0 north, 1 east, 2 south, 3 west (R79, R429). -/
def attachments (gw : Nat) : List Nat :=
  match gw with
  | 0 => [1, 5, 9, 13]
  | 1 => [31, 95, 159, 223]
  | 2 => [242, 246, 250, 254]
  | _ => [32, 96, 160, 224]

/-- The attachment node that serves a sending node: fewest hops, then lower column, then lower row; nodes of absent
dies are skipped (R429). -/
def State.attachment (s : State) (gw node : Nat) : Nat :=
  let key := fun n => hopDist node n * 256 + n % 16 * 16 + n / 16
  match (attachments gw).filter (fun n => s.dieLive (dieOf (copseAt n))) with
  | [] => (attachments gw).headD 0
  | a :: rest => rest.foldl (fun b n => if key n < key b then n else b) a

/-- A gateway is live: its die has not refused training (R396), and some attachment of it is used (R79). DEDUCED, log 45. -/
def State.gwLive (s : State) (g : Nat) : Bool :=
  !(s.dies.get (16 + g) {}).absent && (attachments g).any fun n => s.dieLive (dieOf (copseAt n))

/-- The primary gateway: the lowest-numbered live one (R382). -/
def State.primaryGw (s : State) : Nat := ((List.range 4).find? s.gwLive).getD 0

/-! ### Physical addresses -/

/-- Who is home to a physical byte (R60, R110). -/
inductive Home where
  | slice (copse : Nat)
  | scratch (core : Nat)
  | istore (core : Nat)
  | gateway (gw : Nat)       -- an uncached pool sector (R62)
  | host (gw : Nat)          -- the host window
  | nowhere
  deriving DecidableEq, Repr, Inhabited

def localBase : Nat := 0x400000000
def hostBase : Nat := 0x800000000
def reservedBase : Nat := 0xC00000000
def poolBase : Nat := 0x400000000000

/-- The physical address of the first byte of a core's scratchpad and of its instruction store (R18). -/
def scratchBase (core : Nat) : Nat := localBase + core / 8 * 0x4000000 + core % 8 * 0x40000
def istoreBase (core : Nat) : Nat := localBase + core / 8 * 0x4000000 + 0x1000000 + core % 8 * 0x20000

/-- PCCFG.PCSZ (R62). -/
def State.pcsz (s : State) : Nat := field s.pccfg 0 4

/-- HPOOL.HCYC and HBASE (R39). -/
def State.hcyc (s : State) : Nat := field s.hpool 32 16
def State.hbase (s : State) : Nat := field s.hpool 12 14 * 0x1000

/-- SPREAD[e].DIE and RANK (R39). -/
def State.spreadDie (s : State) (e : Nat) : Nat := field (s.spread.get e 0) 0 4
def State.spreadRank (s : State) (e : Nat) : Nat := field (s.spread.get e 0) 4 8

/-- The copse that caches a pool line, and the set there (R63). -/
def State.poolSlice (s : State) (line : Nat) : Nat := 16 * s.spreadDie (line % 256) + line / 256 % 16
def State.poolSet (s : State) (line : Nat) : Nat := line / 4096 % (s.pcsz * 256)

/-- The gateway that serves a pool line (R429). -/
def poolGw (line : Nat) : Nat := line / 4 % 4

/-- The home of a physical byte (R16, R18, R62, R63, R429). -/
def State.homeOf (s : State) (pa : Nat) : Home :=
  if pa < localBase then .slice (pa / 0x4000000)
  else if pa < hostBase then
    let o := pa - localBase
    let cp := o / 0x4000000
    let r := o % 0x4000000
    if r < 0x200000 then .scratch (8 * cp + r / 0x40000)
    else if 0x1000000 ≤ r && r < 0x1100000 then .istore (8 * cp + (r - 0x1000000) / 0x20000)
    else .nowhere
  else if pa < reservedBase then .host (pa / 4096 % 4)
  else if poolBase ≤ pa && pa < 2 * poolBase then
    let line := (pa - poolBase) / 1024
    if s.pcsz == 0 then .gateway (poolGw line) else .slice (s.poolSlice line)
  else .nowhere

/-- Where the packets for a home go from a node (R429). -/
def State.homeEnd (s : State) (from_ : Nat) (h : Home) : Nat × Nat :=
  match h with
  | .slice cp => (nodeOf cp, epSlice)
  | .scratch c => coreEnd c
  | .istore c => coreEnd c
  | .gateway g => (s.attachment g from_, epGateway)
  | .host g => (s.attachment g from_, epGateway)
  | .nowhere => (from_, 15)

/-- The first slice offset of the pool cache (R61). -/
def State.pcacheBase (s : State) : Nat :=
  let t := if s.hcyc == 0 then 0x4000000 else s.hbase
  t - s.pcsz * 0x400000

/-- A byte of an ordinary page or a page-table node may lie here: populated, not reserved, of a live die, and in
neither the hashed region nor the pool cache (R15, R30, R61). -/
def State.populated (s : State) (pa : Nat) : Bool :=
  if pa < localBase then
    s.dieLive (pa / 0x40000000) && pa % 0x4000000 < s.pcacheBase
  else if pa < hostBase then
    let o := pa - localBase
    let r := o % 0x4000000
    s.dieLive (o / 0x40000000) && (r < 0x200000 || (0x1000000 ≤ r && r < 0x1100000))
  else if pa < reservedBase then true
  else poolBase ≤ pa && pa < poolBase + field s.poolcap 30 17 * 0x40000000

/-- A near-store address of a live die: where nodes, pad cells and dirty chunks lie. -/
def State.nearOk (s : State) (pa : Nat) : Bool := pa < localBase && s.populated pa

/-- The number of spread entries that hold a die (R38). -/
def State.spreadCount (s : State) (die : Nat) : Nat :=
  (List.range 256).countP (fun e => s.spreadDie e == die)

/-- The physical byte of a hashed-pool offset (R38). -/
def State.hashedPa (s : State) (o : Nat) : Nat :=
  let k := o / 128
  let c := k / 4096
  let j := k / 256 % 16
  let e := (k % 256) ^^^ (c % 256)
  let die := s.spreadDie e
  (16 * die + j) * 0x4000000 + s.hbase + 128 * (c * s.spreadCount die + s.spreadRank e) + o % 128

/-- The eviction class of an access: 0 keep, 1 normal, 2 evict-first (R67). -/
def evictClass (pa : Nat) (pol : BitVec 32) : Nat :=
  let s := pa / 128
  let h := (List.range 6).foldl (fun a i => a ^^^ nbits s (8 * i) 8) 0 ^^^ nbits s 48 1
  let ha := nbits pol.toNat 24 8
  let hb0 := nbits pol.toNat 16 8
  let hb := if hb0 == 0 then 256 else hb0
  if h < ha then 0 else if hb ≤ h then 2 else 1

end Sys2Proof.Machine
end

