-- ==== Sys2Proof/Machine/Num.lean ====
section
/-!
DEFINITION. Number formats, rounding and saturation (R188 to R200): codes as values, exact arithmetic on them, one
rounding to a target code (R194, R195), range and special values (R197), integer conversion (R198) and the LFSR.
-/
namespace Sys2Proof.Machine
open Sys2Proof

/-! ### The LFSR (R195, R196) -/

/-- One Galois step. -/
def lfsrStep (s : BitVec 32) : BitVec 32 := if s.getLsbD 0 then (s >>> 1) ^^^ 0x80200003#32 else s >>> 1

/-- `n` steps. -/
def lfsrAdv : Nat → BitVec 32 → BitVec 32
  | 0, s => s
  | n + 1, s => lfsrAdv n (lfsrStep s)

/-! ### Formats -/

/-- A floating-point format (R189, R191): fraction bits, least normal exponent, whether it has a sign bit and signed
zeros, the code width, the largest finite magnitude code, the infinity code if it has one, and the NaN code. -/
structure Fmt where
  frac  : Nat
  emin  : Int
  sgn   : Bool
  wide  : Bool
  bits  : Nat
  maxFin : Nat
  inf?  : Option Nat
  nanCode : Nat
  deriving DecidableEq, Repr

/-- A binary8 format by its code (R188, R189). -/
def fmtB8 (code : Nat) : Fmt :=
  let p := code / 4 + 1
  let uns := code / 2 % 2 == 1
  let fin := code % 2 == 1
  let bias : Nat := if uns then 2 ^ (8 - p) else 2 ^ (7 - p)
  if uns then ⟨p - 1, 1 - (bias : Int), false, false, 8, if fin then 0xFE else 0xFD, if fin then none else some 0xFE, 0xFF⟩
  else ⟨p - 1, 1 - (bias : Int), true, false, 8, if fin then 0x7F else 0x7E, if fin then none else some 0x7F, 0x80⟩

def fmtF32 : Fmt := ⟨23, -126, true, true, 32, 0x7F7FFFFF, some 0x7F800000, 0x7FC00000⟩
def fmtF16 : Fmt := ⟨10, -14, true, true, 16, 0x7BFF, some 0x7C00, 0x7E00⟩
def fmtBf16 : Fmt := ⟨7, -126, true, true, 16, 0x7F7F, some 0x7F80, 0x7FC0⟩

/-- The floating-point format of a fixed code of the set F. -/
def fmtOf (code : Nat) : Fmt :=
  if code < 0x1C then fmtB8 code else if code == 0x21 then fmtF16 else if code == 0x22 then fmtBf16 else fmtF32

/-- An exact value: NaN, an infinity, or ± m × 2^e, whose sign counts for zero too. -/
inductive Val where
  | nan
  | inf (neg : Bool)
  | fin (neg : Bool) (m : Nat) (e : Int)
  deriving DecidableEq, Repr, Inhabited

/-- The value of a floating-point code (R189, R191). -/
def Fmt.decode (f : Fmt) (code : Nat) : Val :=
  let half := 2 ^ (f.bits - 1)
  let neg := f.sgn && half ≤ code
  let c := if f.sgn then code % half else code
  if !f.wide && code == f.nanCode then .nan
  else if f.inf? == some c then .inf neg
  else if f.wide && f.maxFin < c then .nan
  else
    let one := 2 ^ f.frac
    if c < one then .fin neg c (f.emin - f.frac)
    else .fin neg (one + c % one) (((c / one : Nat) : Int) - 1 + f.emin - f.frac)

/-- Width in bits and signedness of an integer code (R188). -/
def intBits (code : Nat) : Nat := 8 * 2 ^ (code % 4)
def intSigned (code : Nat) : Bool := code < 0x2C

/-- The exact integer of an integer code. -/
def intValue (code v : Nat) : Int :=
  if intSigned code then signed (intBits code) (v % 2 ^ intBits code) else ((v % 2 ^ intBits code : Nat) : Int)

/-- An integer as an exact value. -/
def valInt (i : Int) : Val := .fin (i < 0) i.natAbs 0

/-- The exact value of an element of any fixed code. -/
def decodeElem (code v : Nat) : Val :=
  if fmtIsInt code then valInt (intValue code v) else (fmtOf code).decode v

/-! ### Exact arithmetic -/

/-- The signed integer m × 2^(e − lo), for lo ≤ e. -/
def scaleTo (neg : Bool) (m : Nat) (e lo : Int) : Int :=
  let v : Int := ((m * 2 ^ (e - lo).toNat : Nat) : Int)
  if neg then -v else v

/-- Sum of two values; an exact zero sum of unlike signs is +0, or −0 when rounding toward −∞ (IEEE 754). -/
def Val.add (rtn : Bool) (a b : Val) : Val :=
  match a, b with
  | .nan, _ | _, .nan => .nan
  | .inf x, .inf y => if x == y then .inf x else .nan
  | .inf x, _ => .inf x
  | _, .inf y => .inf y
  | .fin x m e, .fin y n d =>
    if m == 0 && n == 0 then .fin (if x == y then x else rtn) 0 0
    else
      let lo := min e d
      let s := scaleTo x m e lo + scaleTo y n d lo
      if s == 0 then .fin rtn 0 0 else .fin (s < 0) s.natAbs lo

def Val.neg : Val → Val
  | .nan => .nan
  | .inf x => .inf (!x)
  | .fin x m e => .fin (!x) m e

def Val.abs : Val → Val
  | .nan => .nan
  | .inf _ => .inf false
  | .fin _ m e => .fin false m e

/-- Product; 0 × ∞ is NaN (R285). -/
def Val.mul (a b : Val) : Val :=
  match a, b with
  | .nan, _ | _, .nan => .nan
  | .inf x, .inf y => .inf (x != y)
  | .inf x, .fin y n _ => if n == 0 then .nan else .inf (x != y)
  | .fin x m _, .inf y => if m == 0 then .nan else .inf (x != y)
  | .fin x m e, .fin y n d => .fin (x != y) (m * n) (e + d)

/-- A product of integers: its zero has no sign. -/
def Val.unsignedZero (v : Val) : Val :=
  match v with
  | .fin x m e => .fin (x && m != 0) m e
  | v => v

/-- a < b by value; NaN compares false. -/
def Val.lt (a b : Val) : Bool :=
  match a, b with
  | .nan, _ | _, .nan => false
  | .inf x, .inf y => x && !y
  | .inf x, _ => x
  | _, .inf y => !y
  | .fin x m e, .fin y n d => let lo := min e d; scaleTo x m e lo < scaleTo y n d lo

/-- a = b by value, +0 = −0; NaN compares false. -/
def Val.eq (a b : Val) : Bool :=
  match a, b with
  | .nan, _ | _, .nan => false
  | .inf x, .inf y => x == y
  | .inf _, _ | _, .inf _ => false
  | .fin x m e, .fin y n d => let lo := min e d; scaleTo x m e lo == scaleTo y n d lo

/-- The lesser and the greater of two values; −0 is less than +0, and a NaN operand gives NaN (R286). -/
def Val.min2 (a b : Val) : Val :=
  if a == .nan || b == .nan then .nan
  else if a.lt b then a else if b.lt a then b
  else match a with | .fin true .. => a | .inf true => a | _ => b
def Val.max2 (a b : Val) : Val :=
  if a == .nan || b == .nan then .nan
  else if a.lt b then b else if b.lt a then a
  else match a with | .fin false .. => a | .inf false => a | _ => b

/-- An exact sum of exact products (R199): NaN for a NaN product or opposite infinities; a zero sum is −0 only when
every product is −0. -/
def groupSum (ps : List Val) : Val :=
  if ps.any (· == .nan) then .nan
  else
    let pinf := ps.any (· == .inf false)
    let ninf := ps.any (· == .inf true)
    if pinf && ninf then .nan
    else if pinf then .inf false
    else if ninf then .inf true
    else
      let lo := ps.foldl (fun a p => match p with | .fin _ _ e => min a e | _ => a) 0
      let s := ps.foldl (fun a p => match p with | .fin x m e => a + scaleTo x m e lo | _ => a) (0 : Int)
      if s == 0 then
        .fin (!ps.isEmpty && ps.all (fun p => match p with | .fin x m _ => x && m == 0 | _ => false)) 0 0
      else .fin (s < 0) s.natAbs lo

/-! ### Magnitudes for rounding -/

/-- A positive magnitude for rounding: the floor of its base-2 logarithm, and for any k the floor of the magnitude
times 2^k with whether that product is whole. -/
structure Mag where
  lg : Int
  fl : Int → Nat × Bool

/-- n × 2^k rounded down, and whether it is whole. -/
def shiftFloor (n : Nat) (k : Int) : Nat × Bool :=
  if 0 ≤ k then (n * 2 ^ k.toNat, true)
  else (n / 2 ^ (-k).toNat, n % 2 ^ (-k).toNat == 0)

/-- The magnitude m × 2^e. -/
def magFin (m : Nat) (e : Int) : Mag := ⟨(Nat.log2 m : Int) + e, fun k => shiftFloor m (e + k)⟩

/-- The magnitude 1 ÷ (m × 2^e). -/
def magRcp (m : Nat) (e : Int) : Mag :=
  let fl := fun (k : Int) =>
    if 0 ≤ k - e then (2 ^ (k - e).toNat / m, 2 ^ (k - e).toNat % m == 0) else (if m == 1 then 0 else 0, false)
  ⟨if m == 2 ^ Nat.log2 m then -(Nat.log2 m : Int) - e else -(Nat.log2 m : Int) - 1 - e, fl⟩

/-- Floor square root, one bit at a time from bit `n` down. -/
def sqrtFrom (v : Nat) : Nat → Nat → Nat
  | 0, r => r
  | n + 1, r => let t := r + 2 ^ n; if t * t ≤ v then sqrtFrom v n t else sqrtFrom v n r

def isqrt (v : Nat) : Nat := sqrtFrom v (Nat.log2 v / 2 + 1) 0

/-- The magnitude 1 ÷ √(m × 2^e). -/
def magRsq (m : Nat) (e : Int) : Mag :=
  let fl := fun (k : Int) =>
    let j := 2 * k - e
    if 0 ≤ j then
      let q := 2 ^ j.toNat / m
      let r := isqrt q
      (r, 2 ^ j.toNat % m == 0 && r * r == q)
    else (0, false)
  ⟨(Nat.log2 (fl 400).1 : Int) - 400, fl⟩

/-! 2^a and log2 a are exact here: bounds from both sides at a working precision, and an exact comparison of powers wherever
the bounds leave a choice (R286). -/

/-- Bits of working precision. -/
def guardBits : Nat := 640

/-- The greatest number from `lo` up to `hi` that passes a test which every smaller one passes; `lo` passes. -/
def settleFloor (lo hi : Nat) (test : Nat → Bool) : Nat :=
  lo + ((List.range (hi - lo)).takeWhile (fun i => test (lo + 1 + i))).length

/-- 2^f × 2^guardBits, rounded down, for the fraction f whose binary digits, from 1/2 down, are the bits of `r` from bit
`t` − 1 down: the product of the roots 2^(1/2^i).  Each root is less than 2 units short, each product adds less than 5 to
what is short, and all the roots together double it at most: the exact value is less than 16 × (t + 1) above. -/
def exp2Frac (t : Nat) (r : Nat) : Nat :=
  (List.range t).foldl (fun (acc : Nat × Nat) i =>
      let root := isqrt (acc.2 * 2 ^ guardBits)
      (if r / 2 ^ (t - 1 - i) % 2 == 1 then acc.1 * root / 2 ^ guardBits else acc.1, root))
    (2 ^ guardBits, 2 ^ (guardBits + 1)) |>.1

/-- q ≤ 2^(A ÷ 2^t) × 2^k. -/
def exp2Least (a : Int) (t : Nat) (k : Int) (q : Nat) : Bool :=
  let x : Int := a + k * ((2 ^ t : Nat) : Int)
  q == 0 || (decide (0 ≤ x) && decide (q ^ 2 ^ t ≤ 2 ^ x.toNat))

/-- The magnitude 2^a for a finite a = ±m × 2^e.  A whole a gives a power of two; any other 2^a is irrational.
DEDUCED, log 41. -/
def magExp2 (neg : Bool) (m : Nat) (e : Int) : Mag :=
  let t := (-e).toNat
  let a : Int := scaleTo neg m (max e 0) 0
  let i : Int := if 0 ≤ e then a else (if neg then -(((m + 2 ^ t - 1) / 2 ^ t : Nat) : Int) else ((m / 2 ^ t : Nat) : Int))
  let r : Nat := if 0 ≤ e then 0 else if neg then (2 ^ t - m % 2 ^ t) % 2 ^ t else m % 2 ^ t
  if r == 0 then ⟨i, fun k => shiftFloor 1 (i + k)⟩
  else
    let x := exp2Frac t r
    let n : Int := if neg then -(m : Int) else m
    ⟨i, fun k =>
      let at_ := fun (x : Nat) => (shiftFloor x (i + k - guardBits)).1
      (settleFloor (at_ x) (at_ (x + 16 * (t + 1))) (exp2Least n t k), false)⟩

/-- `n` binary digits of log2 of y ÷ 2^guardBits, y in [1, 2) at that scale, from squares that are rounded down, or up. -/
def log2Digits (up : Bool) : Nat → Nat → Nat → Nat
  | 0, _, acc => acc
  | n + 1, y, acc =>
    let c := if up then 2 ^ guardBits - 1 else 0
    let q := (y * y + c) / 2 ^ guardBits
    if 2 ^ (guardBits + 1) ≤ q then log2Digits up n ((q + if up then 1 else 0) / 2) (2 * acc + 1) else log2Digits up n q (2 * acc)

/-- q ≤ |log2 (m × 2^e)| × 2^k; `neg` says that the logarithm is negative. -/
def log2Least (neg : Bool) (m : Nat) (e k : Int) (q : Nat) : Bool :=
  let p : Nat := 2 ^ k.toNat                               -- the power to which m × 2^e is raised
  let x := ((q * 2 ^ (-k).toNat : Nat) : Int)
  let y := (if neg then -x else x) - e * (p : Int)         -- the exponent that m ^ p is compared with
  if neg then decide (0 ≤ y) && decide (m ^ p ≤ 2 ^ y.toNat) else decide (y ≤ 0) || decide (2 ^ y.toNat ≤ m ^ p)

/-- log2 of m × 2^e for m > 0: its sign and magnitude; `none` is zero.  A power of two gives a whole number; any
other logarithm is irrational. -/
def magLog2 (m : Nat) (e : Int) : Option (Bool × Mag) :=
  let n := Nat.log2 m
  let i : Int := (n : Int) + e
  if m == 2 ^ n then (if i == 0 then none else some (i < 0, magFin i.natAbs 0))
  else
    let y := m * 2 ^ guardBits / 2 ^ n
    let lo : Int := i * 2 ^ 200 + log2Digits false 200 y 0
    let hi : Int := i * 2 ^ 200 + log2Digits true 200 y 0 + 1
    let neg := lo < 0
    let fl := fun (k : Int) =>
      let a := shiftFloor (if neg then -hi else lo).toNat (k - 200)
      let b := shiftFloor (if neg then -lo else hi).toNat (k - 200)
      settleFloor a.1 (if b.2 then b.1 - 1 else b.1) (log2Least neg m e k)
    some (neg, ⟨(Nat.log2 (fl 200) : Int) - 200, fun k => (fl k, false)⟩)

/-! ### Rounding (R194, R195) -/

inductive RMode where
  | rne | rna | rtz | rtp | rtn | odd | sto (z : Nat)
  deriving DecidableEq, Repr, Inhabited

/-- The rounding mode of RND.MODE for an event whose LFSR state is z (R193, R195); 7 is never held. -/
def modeOf (m : BitVec 3) (z : BitVec 32) : RMode :=
  match m.toNat with
  | 0 => .rne | 1 => .rna | 2 => .rtz | 3 => .rtp | 4 => .rtn | 5 => .odd | _ => .sto z.toNat

/-- Round a magnitude given in quanta: `c` is the code of the neighbour toward zero, the fraction above it is that of
`fl` at scale k.  Answers the code of the result. -/
def roundCode (md : RMode) (neg : Bool) (c : Nat) (m : Mag) (k : Int) : Nat :=
  let (q, exact) := m.fl k
  if exact then c
  else
    let (h, hexact) := m.fl (k + 1)
    let up := match md with
      | .rne => h % 2 == 1 && (!hexact || c % 2 == 1)
      | .rna => h % 2 == 1
      | .rtz => false
      | .rtp => !neg
      | .rtn => neg
      | .odd => c % 2 == 0
      | .sto z => 2 ^ 32 ≤ (m.fl (k + 32)).1 - q * 2 ^ 32 + z
    if up then c + 1 else c

/-- The magnitude code that a magnitude rounds to in a format, unbounded above (R194). -/
def Fmt.roundMag (f : Fmt) (md : RMode) (neg : Bool) (m : Mag) : Nat :=
  let e := max m.lg f.emin
  let k : Int := (f.frac : Int) - e
  let c := (e - f.emin).toNat * 2 ^ f.frac + (m.fl k).1
  roundCode md neg c m k

/-- A signed code. -/
def Fmt.withSign (f : Fmt) (neg : Bool) (c : Nat) : Nat :=
  if neg && f.sgn && (f.wide || c != 0) then c + 2 ^ (f.bits - 1) else c

/-- Overflow of a finite or, to a finite format, infinite value (R197). -/
def Fmt.overflow (f : Fmt) (md : RMode) (sat inf neg : Bool) : Nat :=
  if sat then f.withSign neg f.maxFin
  else if inf then f.nanCode
  else
    let toMax := match md with
      | .rtz => true
      | .rtp => neg
      | .rtn => !neg
      | _ => false
    if toMax then f.withSign neg f.maxFin
    else match f.inf? with
      | some c => f.withSign neg c
      | none => f.nanCode

/-- One rounding of a signed magnitude to a format (R194, R197); the second answer says whether it overflowed. -/
def Fmt.finish (f : Fmt) (md : RMode) (sat neg : Bool) (m : Mag) : Nat × Bool :=
  let c := f.roundMag md neg m
  if neg && !f.sgn then (if sat || c == 0 then 0 else f.nanCode, f.maxFin < c)
  else if f.maxFin < c then (f.overflow md sat false neg, true)
  else (f.withSign neg c, false)

/-- An infinite value to a format (R197). -/
def Fmt.finishInf (f : Fmt) (md : RMode) (sat neg : Bool) : Nat × Bool :=
  if neg && !f.sgn then (if sat then 0 else f.nanCode, f.inf?.isNone)
  else match f.inf? with
    | some c => (f.withSign neg c, false)
    | none => (f.overflow md sat true neg, true)

/-- One rounding of an exact value to a floating-point format, with whether it overflowed. -/
def Fmt.round2 (f : Fmt) (md : RMode) (sat : Bool) (v : Val) : Nat × Bool :=
  match v with
  | .nan => (f.nanCode, false)
  | .inf neg => f.finishInf md sat neg
  | .fin neg m e => if m == 0 then (f.withSign (neg && f.wide) 0, false) else f.finish md sat neg (magFin m e)

def Fmt.round (f : Fmt) (md : RMode) (sat : Bool) (v : Val) : Nat := (f.round2 md sat v).1

/-- The range of an integer code. -/
def intMin (code : Nat) : Int := if intSigned code then -((2 ^ (intBits code - 1) : Nat) : Int) else 0
def intMax (code : Nat) : Int :=
  if intSigned code then ((2 ^ (intBits code - 1) : Nat) : Int) - 1 else ((2 ^ intBits code : Nat) : Int) - 1

/-- The element code of an integer, low bits of its two's complement. -/
def intCode (code : Nat) (i : Int) : Nat := (i % ((2 ^ intBits code : Nat) : Int)).toNat

/-- Clamp to the range, with whether it clamped. -/
def intClamp (code : Nat) (i : Int) : Int × Bool :=
  if i < intMin code then (intMin code, true) else if intMax code < i then (intMax code, true) else (i, false)

/-- Floating point to integer (R198): rounded by R194, always saturating; NaN becomes 0. -/
def toInt2 (code : Nat) (md : RMode) (v : Val) : Nat × Bool :=
  match v with
  | .nan => (0, false)
  | .inf neg => (intCode code (if neg then intMin code else intMax code), true)
  | .fin neg m e =>
    if m == 0 then (0, false)
    else
      let mg := magFin m e
      let c := roundCode md neg (mg.fl 0).1 mg 0
      let (i, o) := intClamp code (if neg then -(c : Int) else (c : Int))
      (intCode code i, o)

/-- The result of an exact integer in an integer format: clamped with SAT, else the low bits (R198, R284). -/
def intResult (code : Nat) (sat : Bool) (i : Int) : Nat × Bool :=
  if sat then let (j, o) := intClamp code i; (intCode code j, o) else (intCode code i, false)

/-- Conversion of one element between fixed codes (R291, R194, R197, R198), with whether it overflowed or saturated. -/
def convert2 (src dst : Nat) (md : RMode) (sat : Bool) (v : Nat) : Nat × Bool :=
  if fmtIsInt dst then
    (if fmtIsInt src then intResult dst sat (intValue src v) else toInt2 dst md ((fmtOf src).decode v))
  else (fmtOf dst).round2 md sat (decodeElem src v)

def convert (src dst : Nat) (md : RMode) (sat : Bool) (v : Nat) : Nat := (convert2 src dst md sat v).1

/-! ### Unary functions of floating-point elements (R286) -/

/-- 1 ÷ a. -/
def rcpElem (f : Fmt) (md : RMode) (sat : Bool) (v : Val) : Nat :=
  match v with
  | .nan => f.nanCode
  | .inf neg => f.withSign (neg && f.wide) 0
  | .fin neg m e => if m == 0 then (f.finishInf md sat neg).1 else (f.finish md sat neg (magRcp m e)).1

/-- 1 ÷ √a. -/
def rsqElem (f : Fmt) (md : RMode) (sat : Bool) (v : Val) : Nat :=
  match v with
  | .nan => f.nanCode
  | .inf neg => if neg then f.nanCode else f.withSign false 0
  | .fin neg m e =>
    if m == 0 then (f.finishInf md sat neg).1
    else if neg then f.nanCode
    else (f.finish md sat false (magRsq m e)).1

/-- The clamp of an exponent far outside every format, so that 2^a is not formed for a huge |a|: a of 2^12 or more in
magnitude rounds as ±2^12 does. -/
def exp2Arg (neg : Bool) (m : Nat) (e : Int) : Nat × Int :=
  if 12 ≤ (Nat.log2 m : Int) + e then (1, 12) else if neg && m == 0 then (0, 0) else (m, e)

/-- 2^a. -/
def exp2Elem (f : Fmt) (md : RMode) (sat : Bool) (v : Val) : Nat :=
  match v with
  | .nan => f.nanCode
  | .inf neg => if neg then f.withSign false 0 else (f.finishInf md sat false).1
  | .fin neg m e =>
    if m == 0 then (f.finish md sat false (magFin 1 0)).1
    else let (m, e) := exp2Arg neg m e; (f.finish md sat false (magExp2 neg m e)).1

/-- log2 a. -/
def log2Elem (f : Fmt) (md : RMode) (sat : Bool) (v : Val) : Nat :=
  match v with
  | .nan => f.nanCode
  | .inf neg => if neg then f.nanCode else (f.finishInf md sat false).1
  | .fin neg m e =>
    if m == 0 then (f.finishInf md sat true).1
    else if neg then f.nanCode
    else match magLog2 m e with
      | none => f.withSign false 0
      | some (sg, mg) => (f.finish md sat sg mg).1

/-! ### FP32 for homes and arrays -/

/-- FP32 addition rounded RNE, overflow to ±∞ (R142, R199, R270). -/
def f32Add (a b : Nat) : Nat := fmtF32.round .rne false ((fmtF32.decode a).add false (fmtF32.decode b))

/-- FP32 minimum and maximum; a NaN operand gives canonical NaN, −0 is less than +0 (R326). -/
def f32Min (a b : Nat) : Nat := fmtF32.round .rne false ((fmtF32.decode a).min2 (fmtF32.decode b))
def f32Max (a b : Nat) : Nat := fmtF32.round .rne false ((fmtF32.decode a).max2 (fmtF32.decode b))

/-- The value of an S8 scale (R192); `none` is NaN. -/
def scaleVal (s : Nat) : Option Val := if s == 0xFF then none else some (.fin false 1 ((s : Int) - 127))

end Sys2Proof.Machine
end

