-- ==== Sys2Proof/Machine/Ops.lean ====
section
/-!
DEFINITION. The shared operations of the machine: memory bytes, the accessors of cores, slots, copses, contexts and
dies, free values, packets and supervisor messages, the discard of a sheaf (R162), taking a trap (R370) and returning
from one (R375).
-/
namespace Sys2Proof.Machine
open Sys2Proof

/-- The outcome of a step. -/
abbrev Out := Host.Outcome State Fault Refusal

/-! ### Memory: a canonical list of bytes -/

/-- What an unlisted byte reads as (DESIGN CHOICE, log 1). -/
def unlisted : Byte := 0

/-- A byte of memory. -/
def memRead : List Host.Cell → Nat → Byte
  | [], _ => unlisted
  | (k, v) :: rest, a => if k == a then v else if a < k then unlisted else memRead rest a

/-- Memory with one byte written; writing what an unlisted byte reads as removes the entry. -/
def memWrite : List Host.Cell → Nat → Byte → List Host.Cell
  | [], a, b => if b == unlisted then [] else [(a, b)]
  | (k, v) :: rest, a, b =>
    if k == a then (if b == unlisted then rest else (a, b) :: rest)
    else if a < k then (if b == unlisted then (k, v) :: rest else (a, b) :: (k, v) :: rest)
    else (k, v) :: memWrite rest a b

/-- The canonical form: strictly rising addresses above a bound, and no entry an unlisted byte reads as. -/
def memWfAbove : Option Nat → List Host.Cell → Bool
  | _, [] => true
  | none, (k, v) :: rest => v != unlisted && memWfAbove (some k) rest
  | some a, (k, v) :: rest => decide (a < k) && v != unlisted && memWfAbove (some k) rest

/-- The canonical form of a memory. -/
def Memory.wf (m : List Host.Cell) : Bool := memWfAbove none m

/-- `n` bytes from an address. -/
def memBytes (m : List Host.Cell) (a : Nat) : Nat → List Byte
  | 0 => []
  | n + 1 => memRead m a :: memBytes m (a + 1) n

/-- Write the given bytes from an address upward, leaving the absent ones. -/
def memPut (m : List Host.Cell) (a : Nat) : List (Option Byte) → List Host.Cell
  | [] => m
  | none :: rest => memPut m (a + 1) rest
  | some b :: rest => memPut (memWrite m a b) (a + 1) rest

def State.bytes (s : State) (a n : Nat) : List Byte := memBytes s.mem a n
def State.putBytes (s : State) (a : Nat) (bs : List (Option Byte)) : State := { s with mem := memPut s.mem a bs }

/-- The 64-bit word at a physical address. -/
def State.word (s : State) (a : Nat) : Word := wd (ofBytes (s.bytes a 8))

/-- Zero a range of memory: drop its entries. -/
def memZero (m : List Host.Cell) (lo hi : Nat) : List Host.Cell := m.filter (fun c => c.1 < lo || hi ≤ c.1)

/-! ### Accessors -/

def State.core (s : State) (c : Nat) : Core := s.cores.get c {}
def State.setCore (s : State) (c : Nat) (k : Core) : State := { s with cores := s.cores.put c k }
def State.modCore (s : State) (c : Nat) (f : Core → Core) : State := s.setCore c (f (s.core c))

def Core.slot (k : Core) (i : Nat) : Slot := k.slots[i]?.getD {}
def Core.setSlot (k : Core) (i : Nat) (x : Slot) : Core := { k with slots := k.slots.setIfInBounds i x }

def State.slot (s : State) (c i : Nat) : Slot := (s.core c).slot i
def State.setSlot (s : State) (c i : Nat) (x : Slot) : State := s.setCore c ((s.core c).setSlot i x)
def State.modSlot (s : State) (c i : Nat) (f : Slot → Slot) : State := s.setSlot c i (f (s.slot c i))

/-- The sheaf in flight of a slot, when it has one. -/
def State.flight (s : State) (c i : Nat) : Option Flight := (s.slot c i).fl
def State.setFlight (s : State) (c i : Nat) (f : Flight) : State :=
  s.modSlot c i (fun x => { x with fl := some f })
def State.modFlight (s : State) (c i : Nat) (g : Flight → Flight) : State :=
  s.modSlot c i (fun x => { x with fl := x.fl.map g })
def State.modThread (s : State) (c i : Nat) (g : Thread → Thread) : State :=
  s.modSlot c i (fun x => { x with th := g x.th })

def State.copse (s : State) (i : Nat) : Copse := s.copses.get i {}
def State.setCopse (s : State) (i : Nat) (x : Copse) : State := { s with copses := s.copses.put i x }
def State.modCopse (s : State) (i : Nat) (f : Copse → Copse) : State := s.setCopse i (f (s.copse i))

def State.ctx (s : State) (i : Nat) : Ctx := s.ctxs.get i {}
def State.setCtx (s : State) (i : Nat) (x : Ctx) : State := { s with ctxs := s.ctxs.put i x }
def State.modCtx (s : State) (i : Nat) (f : Ctx → Ctx) : State := s.setCtx i (f (s.ctx i))

def State.die (s : State) (i : Nat) : Die := s.dies.get i {}
def State.setDie (s : State) (i : Nat) (x : Die) : State := { s with dies := s.dies.put i x }
def State.modDie (s : State) (i : Nat) (f : Die → Die) : State := s.setDie i (f (s.die i))

def State.gw (s : State) (i : Nat) : Gateway := s.gws.get i {}
def State.setGw (s : State) (i : Nat) (x : Gateway) : State := { s with gws := s.gws.put i x }
def State.modGw (s : State) (i : Nat) (f : Gateway → Gateway) : State := s.setGw i (f (s.gw i))

def State.sector (s : State) (i : Nat) : Sector := s.secs.get i {}
def State.setSector (s : State) (i : Nat) (x : Sector) : State := { s with secs := s.secs.put i x }
def State.modSector (s : State) (i : Nat) (f : Sector → Sector) : State := s.setSector i (f (s.sector i))

/-! ### Corrected errors (R73) -/

/-- Add to a status-page word of a die. -/
def State.pageAdd (s : State) (die i n : Nat) : State :=
  s.modDie die fun d => { d with page := d.page.setIfInBounds i (d.page[i]?.getD 0 + wd n) }

/-- Count corrected words of a structure of a core: 0 register file, 1 thread-context cache, 2 scratchpad, 3 instruction
store, 4 accumulators, 5 L1. -/
def Core.count (k : Core) (i n : Nat) : Core := { k with fixed := k.fixed.setIfInBounds i (k.fixed[i]?.getD 0 + wd n) }

/-- Count corrected words of a structure of a copse: 0 slice, 1 rick banks. -/
def Copse.count (x : Copse) (i n : Nat) : Copse := { x with fixed := x.fixed.setIfInBounds i (x.fixed[i]?.getD 0 + wd n) }

/-- The corrected-error counts of a die's structures, summed: word 3 of its status page (R431) holds those of structures
that no other rule names. -/
def State.fixedSum (s : State) (d : Nat) : Word :=
  let cs := (s.cores.filter fun p => p.1 / 128 == d).flatMap fun p => p.2.fixed.toList
  let xs := (s.copses.filter fun p => dieOf p.1 == d).flatMap fun p => p.2.fixed.toList
  (cs ++ xs).foldl (· + ·) ((s.die d).page[3])

/-- The cores that belong to a context (R382). -/
def State.coresOf (s : State) (ctx : Nat) : List Nat :=
  (s.cores.filter (fun p => p.2.ctx == some ctx)).map (·.1)

/-- The context that a core belongs to hosts a packet for `ctx` (R100). -/
def State.hosts (s : State) (core ctx : Nat) : Bool := (s.core core).ctx == some ctx

/-- SUPV.CORE, SUPV.CHAN and SUPV.MCHAN of a context (R369). -/
def State.supvCore (s : State) (ctx : Nat) : Nat := field (s.ctx ctx).supv 0 11
def State.supvChan (s : State) (ctx : Nat) : Nat := field (s.ctx ctx).supv 11 6
def State.supvMchan (s : State) (ctx : Nat) : Nat := field (s.ctx ctx).supv 17 6

/-- A free word, and the state whose counter has moved on (log 2). -/
def State.free (s : State) : Word × State := (Config.freeWord s.fresh, { s with fresh := s.fresh + 1 })

/-- A word the spec states, or a free value. -/
def State.orFree (s : State) (w : Option Word) : Word × State :=
  match w with
  | some w => (w, s)
  | none => s.free

/-- UCNT is zero, and no store of the slot to its own scratchpad has still to be performed (R90; log 116). -/
def Slot.allDone (x : Slot) : Bool := x.ucnt == 0 && x.ocnt == 0

/-- Packets of a kind that stand in the queue from a place on. -/
def packetsFrom (f : Pkt → Bool) (q : List InjEnt) (i : Nat) : Nat :=
  (q.drop i).countP fun e => match e with | .pkt p => f p | .mark .. => false

/-- An ordered packet. -/
def InjEnt.ordered : InjEnt → Bool
  | .pkt p => p.ord
  | .mark .. => false

/-- A fence mark stands in the queue. -/
def Slot.fenced (x : Slot) : Bool := x.injq.any fun e => match e with | .mark .. => true | .pkt _ => false

/-- Every write before an entry of the queue is acknowledged: what UCNT still counts stands behind it (R90). -/
def Slot.settledAt (x : Slot) (i : Nat) : Bool :=
  x.ucnt ≤ packetsFrom (·.counted) x.injq i && x.ocnt ≤ packetsFrom (·.own) x.injq i

/-! ### Packets and due steps -/

/-- The state once the step in hand has been taken up. -/
def State.taken (s : State) : State := { s with event := none }


/-- A step that is due: it happens after those already due. -/
def State.due (s : State) (i : Event) : State := { s with pending := s.pending ++ [i] }

/-- An endpoint's packet, waiting at its node to enter the network (R82, R86). -/
def State.post (s : State) (p : Pkt) : State := { s with flits := s.flits ++ [⟨p, p.src.1, 6, 0, false⟩] }

/-- A committed packet joins its slot's injection queue; a counted one raises UCNT (R89, R90). -/
def State.inject (s : State) (c k : Nat) (p : Pkt) : State :=
  s.modSlot c k fun x => { x with ucnt := if p.counted then x.ucnt + 1 else x.ucnt, ocnt := if p.own then x.ocnt + 1 else x.ocnt,
                                  injq := x.injq ++ [.pkt p] }

/-- A management-class packet of the message network from one core to another. -/
def State.postMgmt (s : State) (src dst : Nat × Nat) (ctx : Nat) (i : Event) : State :=
  s.post { msg := true, cls := 4, src := src, dst := dst, ctx := ctx, deliver := i }

/-- A cached-network packet. -/
def State.postCached (s : State) (cls : Nat) (src dst : Nat × Nat) (ctx : Nat) (i : Event) : State :=
  s.post { cls := cls, src := src, dst := dst, ctx := ctx, deliver := i }

/-- A management-class packet for a context that the core does not host is discarded and counted (R443). -/
def State.strayMgmt (s : State) (c : Nat) : State := s.pageAdd (c / 128) 5 1

/-- A four-word message to the supervisor core on one of its channels, as a management-class arrival (R372, R329). -/
def State.supvSend (s : State) (src : Nat × Nat) (ctx chan : Nat) (w0 w1 w2 w3 : Word) : State :=
  let c := s.supvCore ctx
  s.postMgmt src (coreEnd c) ctx (.arrival c { ctx := ctx, chan := chan, body := .mgmt w0 w1 w2 w3 })

/-- A supervisor message of R372: G0 holds TYPE, slot, core and the low 42 bits.  What the table of R372 leaves out
(a dash, a slot or core that the event does not have) takes free values (log 14). -/
def State.supvMsg (s : State) (src : Nat × Nat) (ctx type : Nat) (core slot low : Option Nat) (w1 w2 w3 : Option Word) : State :=
  let (co, s) := s.orFree (core.map wd)
  let (sl, s) := s.orFree (slot.map wd)
  let (lo, s) := s.orFree (low.map wd)
  let (w1, s) := s.orFree w1
  let (w2, s) := s.orFree w2
  let (w3, s) := s.orFree w3
  s.supvSend src ctx (s.supvMchan ctx)
    (wd (type * 2 ^ 56 + field sl 0 3 * 2 ^ 53 + field co 0 11 * 2 ^ 42 + field lo 0 42)) w1 w2 w3

/-- A message about a slot of a core. -/
def State.slotMsg (s : State) (core slot ctx type : Nat) (low : Option Nat) (w1 w2 w3 : Option Word) : State :=
  s.supvMsg (coreEnd core) ctx type (some core) (some slot) low w1 w2 w3

/-- Pending traps of a thread that has left its slot go to the supervisor as messages: those of the array (R313).  The spec gives
no message for the others (DEDUCED, log 79). -/
def State.orphans (s : State) (c k ctx : Nat) (rs : List TrapRec) : State :=
  (rs.filter fun r => r.cause == .matrixThreshold || r.cause == .uncorrectableData).foldl (fun s r =>
    s.supvMsg (nodeOf (c / 8), epArray) ctx 8 (some c) (some k) none r.addr none none) s

/-! ### Burrs as they travel (R164) -/

/-- The burr in a slot. -/
def Thread.toBurr (t : Thread) : Burr where
  memb := t.memb
  ctx := t.ctx
  chan := t.chan
  fw := t.fw
  fmt := t.hfmt
  scale := t.scale
  bid := t.bid
  lfsr := t.regs.rnd.extractLsb' 32 32
  mode := t.regs.rnd.extractLsb' 0 3
  g := Vector.ofFn fun i : Fin 8 => t.regs.g[i.val]?.getD 0
  k := t.regs.k
  n := t.regs.n
  q0 := t.regs.q[0]

/-- RND from its LFSR and MODE (R193). -/
def rndWord (lfsr : BitVec 32) (mode : BitVec 3) : Word := wd (lfsr.toNat * 2 ^ 32 + mode.toNat)

/-- A dispatched burr's thread in a slot that keeps its bindings (R205, R167). -/
def burrThread (b : Burr) (old : Thread) : Thread where
  kind := .burr
  regs := { g := Vector.ofFn fun i : Fin 32 => b.g[i.val]?.getD 0, k := b.k, n := b.n,
            q := Vector.ofFn fun i : Fin 8 => if i.val == 0 then b.q0 else 0, rnd := rndWord b.lfsr b.mode }
  memb := b.memb
  ctx := b.ctx
  chan := b.chan
  fw := b.fw
  bid := b.bid
  hfmt := b.fmt
  scale := b.scale
  ports := old.ports
  box0 := old.box0
  box1 := old.box1

/-- A burr packet to a core: message class, four flits (R164). -/
def burrPkt (src dst : Nat) (b : Burr) (held : Bool) : Pkt :=
  { msg := true, cls := 2, src := coreEnd src, dst := coreEnd dst, ctx := b.ctx,
    deliver := .arrival dst { ctx := b.ctx, chan := b.chan, body := .burr b, held := held } }

def State.postBurr (s : State) (src dst : Nat) (b : Burr) (held : Bool) : State := s.post (burrPkt src dst b held)

/-! ### Discarding a sheaf (R162) -/

/-- A mailbox without a slot's claim (R319). -/
def Mbox.unclaim (m : Mbox) (k : Nat) : Mbox := if m.claim == some k then { m with claim := none } else m

/-- Release every claim a slot's sheaf holds in its core: mailboxes and arrival entries (R319, R338). -/
def Core.unclaim (x : Core) (k : Nat) : Core :=
  { x with
    slots := x.slots.map fun sl => { sl with th := { sl.th with box0 := sl.th.box0.unclaim k, box1 := sl.th.box1.unclaim k } }
    aq := x.aq.map fun e => if e.claim == some k then { e with claim := none } else e
    spill := x.spill.map fun e => if e.claim == some k then { e with claim := none } else e }

/-- A bank given back unused: free, or zeroed further. -/
def BankState.release (b : BankState) (h : Nat) : BankState :=
  match b with
  | .held x none => if x == h then .free else b
  | .held x (some t) => if x == h then .zeroing t else b
  | _ => b

/-- Give back a rick entry and banks that an RKALLOC reserved (R308). -/
def Copse.unalloc (x : Copse) (e : Nat) : Copse :=
  match x.rsv.get? e with
  | some r => { x with rsv := x.rsv.del e, banks := x.banks.map (·.release r.handle) }
  | none => x

/-- The request that cancels a reservation (R138, R141). -/
def cancelReq (c k ctx : Nat) (run : Nat) (h : Held) (granule : Nat) : Req :=
  { agent := .slot c k, tag := { core := c, slot := k, run := run, lsn := h.lsn }, ctx := ctx, kid := h.kid,
    pa := granule * 16, va := h.va, acc := .cancel }

/-- A waiting load request is the reservation request of an access. -/
def Pkt.isReserve (l : Pkt) (c k run lsn : Nat) : Bool :=
  match l.deliver with
  | .reserveRequest r => r.tag.core == c && r.tag.slot == k && r.tag.run == run && r.tag.lsn == lsn
  | _ => false

/-- Send the cancel of one held or requested reservation; a request that has not left its core is dropped. -/
def State.sendCancel (s : State) (c k run : Nat) (h : Held) : State :=
  match h.home with
  | none => s
  | some g =>
    if (s.core c).loads.any fun l => l.isReserve c k run h.lsn then
      s.modCore c fun x => { x with loads := x.loads.filter fun l => !(l.isReserve c k run h.lsn) }
    else
      let ctx := (s.slot c k).th.ctx
      let src := coreEnd c
      let r := cancelReq c k ctx run h g
      (s.modSlot c k fun x => { x with cancels := x.cancels + 1 }).postCached 0 src
        (s.homeEnd src.1 (s.homeOf r.pa)) ctx (.cancel r)

/-- Discard the sheaf in flight: registers, runnel pointers, memory and N stay; reservations are cancelled, claims
released, buffered effects dropped (R162, R141); a drain request it has made is not the next sheaf's (R117). -/
def State.discard (s : State) (c k : Nat) : State :=
  match s.flight c k with
  | none => s
  | some fl =>
    let s := fl.held.foldl (fun s h => s.sendCancel c k fl.run h) s
    let s := s.modCore c (·.unclaim k)
    let s := fl.due.foldl (fun s d =>
      match d.act with
      | .rkalloc e => s.modCopse (c / 8) (·.unalloc e)
      | _ => s) s
    let s := s.modCtx (s.slot c k).th.ctx fun x =>
      { x with claims := x.claims.filter fun p => !(p.2.1 == c && p.2.2 == k) }
    s.modSlot c k fun x => { x with fl := none, drain := none }

/-! ### Traps -/

/-- The code of a cause (R367). -/
def causeCode : Cause → Nat
  | .illegalEncoding => 0x01 | .privilege => 0x02 | .softTrap => 0x03
  | .nonCanonicalAddress => 0x10 | .pageNotMapped => 0x11 | .badPageEntry => 0x12 | .badPhysicalTarget => 0x13
  | .pageRights => 0x14 | .holeWrite => 0x15 | .guardRights => 0x16 | .keyMismatch => 0x17
  | .uncorrectableData => 0x18 | .mixedShape => 0x19 | .blockAlignment => 0x1A | .misalignedAccess => 0x1B
  | .misalignedAtomic => 0x1C | .atomicTarget => 0x1D
  | .badDescriptor => 0x20 | .badDepth => 0x21 | .badPath => 0x22 | .badControlValue => 0x23 | .badPolicy => 0x24
  | .badFormat => 0x25 | .indexRange => 0x26 | .overlap => 0x27 | .lsnConflict => 0x28
  | .multipleExit => 0x30 | .multipleWrite => 0x31 | .multipleToken => 0x32 | .sheafStuck => 0x33
  | .sheafAddress => 0x34
  | .watchTarget => 0x38 | .stwTarget => 0x39 | .watchBusy => 0x3A
  | .badRick => 0x40 | .rickRevoked => 0x41 | .rickEmpty => 0x42 | .staleRick => 0x43 | .evictedRick => 0x44
  | .rickSize => 0x45 | .ringOverflow => 0x46 | .matrixThreshold => 0x47
  | .droverOnly => 0x50 | .stileFault => 0x51 | .runnelBusy => 0x52 | .runnelUnbound => 0x53 | .runnelMode => 0x54
  | .runnelEnd => 0x55
  | .croftRange => 0x60 | .croftUnmapped => 0x61 | .croftOwnership => 0x62 | .croftPool => 0x63 | .noDie => 0x64
  | .burrOnly => 0x65 | .flockMember => 0x66 | .flockFull => 0x67

/-- TCAUSE of a record (R368). -/
def tcauseWord (r : TrapRec) : Word :=
  wd (causeCode r.cause + r.dcode % 64 * 2 ^ 8 +
    (match r.lsn with | some n => n % 32 * 2 ^ 14 + 2 ^ 19 | none => 0) + (if r.imp then 2 ^ 20 else 0))

/-- The four registers of a record for a thread about to trap: TSHEAF is N, which is the discarded sheaf's, or the
next sheaf's at a boundary (R368); a TADDR or TBLOCKP the spec states nothing of takes a free value (log 10). -/
def State.bankOf (s : State) (n : Word) (r : TrapRec) : Bank × State :=
  let (a, s) := s.orFree r.addr
  let (b, s) := s.orFree r.blockp
  ({ tcause := tcauseWord r, taddr := a, tblockp := b, tsheaf := n }, s)

/-- TVEC.EN and TVEC.ENTRY (R369). -/
def Ctx.tvecEn (x : Ctx) : Bool := x.tvec.getLsbD 0
def Ctx.tvecEntry (x : Ctx) : Word := wd (field x.tvec 4 13 * 16)

/-- The owner code of a slot's watches, and a core without an owner's watches (R53, R276). -/
def slotOwner (k : Nat) : BitVec 5 := BitVec.ofNat 5 k
/-- DEDUCED, log 69. -/
def Core.unwatch (k : Core) (o : BitVec 5) : Core := { k with watch := k.watch.filter fun w => w.2 != o }

/-- The slot's own bindings: those a burr uses and leaves, apart from a rooted thread's (R334). -/
def Slot.ownPorts (x : Slot) : SMap Port := if x.occ && x.th.kind == .rooted then x.ports else x.th.ports

/-- Free a slot: its bindings and mailboxes stay with it (R205, R334). DEDUCED, log 36. -/
def Slot.freed (x : Slot) : Slot :=
  { x with occ := false, fl := none, disp := none, ports := [],
           th := { ports := x.ownPorts, box0 := x.th.box0, box1 := x.th.box1 } }

/-- Taking a trap (R370): the one operation every fault goes through.  The sheaf in flight is discarded.  A burr goes
to the supervisor, blocked, with burr-fault, and its slot is free; a thread whose ACT stands or whose context has no
handler takes a double fault in bank 1 and parks; any other thread gets bank 0, ACT, HND and N at the handler. -/
def State.takeTrap (s : State) (c k : Nat) (r : TrapRec) : State :=
  let s := s.discard c k
  let th := (s.slot c k).th
  let (bank, s) := s.bankOf th.regs.n r
  let x := s.ctx th.ctx
  match th.kind with
  | .burr =>
    let s := s.postBurr c (s.supvCore th.ctx) th.toBurr true
    let s := s.slotMsg c k th.ctx 2 (some th.bid.toNat) (some bank.tcause) (some bank.taddr) (some bank.tsheaf)
    let s := s.orphans c k th.ctx th.imps
    s.modCore c fun y => (y.unwatch (slotOwner k)).setSlot k (y.slot k).freed
  | .rooted =>
    if th.act || !x.tvecEn then
      let s := s.modThread c k fun t => { t with bank1 := bank, dbl := true, rest := .dbl }
      s.slotMsg c k th.ctx 1 none (some bank.tcause) (some bank.taddr) (some bank.tsheaf)
    else
      s.modThread c k fun t =>
        { t with bank0 := bank, act := true, hnd := true, regs := { t.regs with n := x.tvecEntry } }

/-- A fault without an address of its own. -/
def State.fault (s : State) (c k : Nat) (cause : Cause) (lsn : Option Nat := none) : State :=
  s.takeTrap c k { cause := cause, lsn := lsn }

/-- Returning from a trap, at the commit of a sheaf that holds TRET (R375): HND clears; the registers and N are those
the handler has set. -/
def Thread.trapReturn (t : Thread) : Thread := { t with hnd := false }

/-! ### Command rings (R303) -/

def Core.ring (k : Core) (i : Nat) : Ring := k.rings[i]?.getD {}
def Core.setRing (k : Core) (i : Nat) (r : Ring) : Core := { k with rings := k.rings.setIfInBounds i r }

/-- A tail moves. -/
def Core.moveTail (k : Core) (ring n : Nat) : Core :=
  let x := k.ring ring
  k.setRing ring { x with tail := (x.tail + n) % 0x10000 }

end Sys2Proof.Machine
end

