-- ==== Sys2Proof/Machine/Operands.lean ====
section
/-!
DEFINITION. Every operand form of a sheaf instruction: which instruction issues and the tokens on its ports (R157 to
R159, R206 to R209, R237, R260), delivering results (R208), registers as operands (R205, R239), policy words (R65,
R66, R261), block references and tensor descriptors (R10, R19 to R23), and the exits (R254, R255).
-/
namespace Sys2Proof

/-- Load-kind and store-kind accesses, atomics, reductions, fences (R259, R262). -/
def Info.isLoad (n : Info) : Bool :=
  (n.page == 0 && ((0x20 ≤ n.op && n.op ≤ 0x27) || n.op == 0x2D || n.op == 0x2F)) || (n.page == 2 && n.op == 0x18)
def Info.isStore (n : Info) : Bool :=
  (n.page == 0 && ((0x28 ≤ n.op && n.op ≤ 0x2C) || n.op == 0x2E || n.op == 0x30)) || (n.page == 2 && n.op == 0x1D)
def Info.isAtomic (n : Info) : Bool := n.page == 2 && n.op ≤ 0x0A
def Info.isRed (n : Info) : Bool := n.page == 2 && 0x10 ≤ n.op && n.op ≤ 0x16
def Info.isFence (n : Info) : Bool := n.page == 2 && (n.op == 0x19 || n.op == 0x1A)
def Info.isAccess (n : Info) : Bool := n.isLoad || n.isStore || n.isAtomic || n.isRed

/-- The instruction's LSN, info and form at a body position. -/
def Sheaf.ordered (sh : Sheaf) (pos : Nat) : Option (Nat × Info × Form) :=
  match sh.insts[pos]? with
  | some i =>
    match i.info, i.form with
    | some n, some f => if n.lsq then f.lsq.map fun q => (q.1.toNat, n, f) else none
    | _, _ => none
  | none => none

/-- The form at a body position. -/
def Sheaf.formAt (sh : Sheaf) (pos : Nat) : Option Form := (sh.insts[pos]?).bind (·.form)

end Sys2Proof

namespace Sys2Proof.Machine
open Sys2Proof

/-! ### Registers that an instruction reads (R73, R206, R239, R281) -/

/-- A register, as READ names it, that an instruction of a row and form reads: READ's, a policy register, a mask, the format register
of an inherited format (R188). -/
def readsOf (n : Info) (f : Form) (r : Nat × Nat) : Bool :=
  (match f.reg with
   | some (cls, num) => (n.reg == .policy || (n.reg == .named && n.res.isSome)) && cls != 3 && (cls.toNat, num.toNat) == r
   | none => false) ||
  f.fmts.any fun q => (q.2.getLsbD 3 && (2, 8 + q.2.toNat % 8) == r) || (fmtInherited q.1.toNat && (2, 2 + q.1.toNat % 4) == r)

end Sys2Proof.Machine

namespace Sys2Proof

/-- Registers that an instruction reads without naming them: K for the neighbours of a burr, F0 to F3 for the formats of new work,
RND for the rounding of a drain (R193, R312, R349, R353). -/
def Instr.hidden (i : Instr) : List (Nat × Nat) :=
  match i with
  | .nbr _ | .nbrn _ => [(2, 0)]
  | .spawn _ | .spawnb _ => [(2, 2), (2, 3), (2, 4), (2, 5)]
  | .mdrain _ => [(2, 6)]
  | _ => []

def Instr.readsReg (i : Instr) (r : Nat × Nat) : Bool :=
  i.hidden.contains r || match i.info, i.form with
  | some n, some f => Machine.readsOf n f r
  | _, _ => false

end Sys2Proof

namespace Sys2Proof.Machine
open Sys2Proof

/-! ### Ports and readiness -/

/-- The token on a port of a node. -/
def Node.port (n : Node) (p : Nat) : Option Tok :=
  match p with
  | 0 => n.l
  | 1 => n.r
  | 2 => n.x
  | _ => n.p

/-- A node with a token on a port. -/
def Node.setPort (n : Node) (p : Nat) (t : Tok) : Node :=
  match p with
  | 0 => { n with l := some t }
  | 1 => { n with r := some t }
  | 2 => { n with x := some t }
  | _ => { n with p := some t }

/-- A target of an earlier instruction names the port (R260). DEDUCED, log 11. -/
def feeds (insts : List Instr) (pos p : Nat) : Bool :=
  (insts.take pos).any fun i =>
    match i.form with
    | some f => (f.t.pos.toNat == pos && f.t.port.toNat == p) ||
        f.t2.any (fun t => t.pos.toNat == pos && t.port.toNat == p)
    | none => false

/-- The instruction waits for a token on this port: it is required, or optional and named by a target, and no IMX
chain supplies it (R157, R260; log 11). -/
def portUsed (insts : List Instr) (pos : Nat) (n : Info) (f : Form) (p : Nat) : Bool :=
  match n.port f p with
  | .no => false
  | .req _ => n.immPort f != some p
  | .opt _ => n.immPort f != some p && feeds insts pos p

/-- A predicate token lets an instruction of this PM fire (R209): a null token does too, without effect. -/
def predLets (pm : BitVec 2) (t : Tok) : Bool :=
  match t with
  | .null => true
  | .sc w => w.getLsbD 0 == (pm == 1)
  | .ve .. => false

/-- The instruction at a position holds every token it waits for and has not fired (R157). DEDUCED, log 46. -/
def Flight.ready (fl : Flight) (pos : Nat) : Bool :=
  match fl.sheaf.insts[pos]?, fl.nodes[pos]? with
  | some i, some nd =>
    match i.info, i.form with
    | some n, some f =>
      nd.st == .waiting &&
      [0, 1, 2].all (fun p => !portUsed fl.sheaf.insts pos n f p || (nd.port p).isSome) &&
      (f.pm == 0 || nd.p.any (predLets f.pm))
    | _, _ => false
  | _, _ => false

/-- What an issuing instruction sees: its slot and position, fields and row, the sheaf in flight, the thread, and the
token of each port (an unfed optional port reads 0, R260). -/
structure Iss where
  c   : Nat
  k   : Nat
  pos : Nat
  f   : Form
  n   : Info
  fl  : Flight
  th  : Thread
  l   : Tok
  r   : Tok
  x   : Tok
  deriving DecidableEq, Repr

/-- The value of a port: the IMX chain, the token, or 0. -/
def portTok (n : Info) (f : Form) (nd : Node) (p : Nat) : Tok :=
  if n.immPort f == some p then .sc (immValue f.imm) else (nd.port p).getD (.sc 0)

/-- The instruction that the turn issues, when the turn's slot holds it ready (R157). -/
def State.issuer (s : State) (i : Instr) : Option Iss :=
  let c := s.turn.core
  let k := s.turn.slot
  let pos := s.turn.pos
  let x := s.slot c k
  match x.fl, i.info, i.form with
  | some fl, some n, some f =>
    match fl.nodes[pos]? with
    | some nd =>
      if fl.sheaf.insts[pos]? == some i && fl.ready pos then
        some { c := c, k := k, pos := pos, f := f, n := n, fl := fl, th := x.th,
               l := portTok n f nd 0, r := portTok n f nd 1, x := portTok n f nd 2 }
      else none
    | none => none
  | _, _, _ => none

/-- The scalar of a token. -/
def Tok.word : Tok → Word
  | .sc w => w
  | _ => 0

def Tok.isNull : Tok → Bool
  | .null => true
  | _ => false

def Iss.lw (is : Iss) : Word := is.l.word
def Iss.rw_ (is : Iss) : Word := is.r.word
def Iss.xw (is : Iss) : Word := is.x.word

/-- A null token stands on a used port or on the predicate port (R159). -/
def Iss.anyNull (is : Iss) : Bool :=
  is.l.isNull || is.r.isNull || is.x.isNull ||
    (match is.fl.nodes[is.pos]? with
     | some nd => is.f.pm != 0 && nd.p.any Tok.isNull
     | none => false)

/-- A register that it reads has an uncorrectable error (R73). -/
def Iss.regBad (is : Iss) (i : Instr) : Bool := is.th.bad.any fun w => i.hidden.contains (w.1, w.2.1) || readsOf is.n is.f (w.1, w.2.1)

/-- A port is used (R260). -/
def Iss.fed (is : Iss) (p : Nat) : Bool :=
  is.n.immPort is.f == some p || portUsed is.fl.sheaf.insts is.pos is.n is.f p

/-- The issuing instruction's LSN. -/
def Iss.lsn (is : Iss) : Option Nat := is.f.lsq.map (·.1.toNat)
def Iss.lsnN (is : Iss) : Nat := is.lsn.getD 0

/-- The sheaf is privileged (R210). -/
def Iss.priv (is : Iss) : Bool := is.fl.sheaf.hdr.priv

/-- A burr runs it. -/
def Iss.burr (is : Iss) : Bool := is.th.kind == .burr

/-! ### Policy words (R65, R66, R261) -/

/-- The policy register's 64 bits, 0 without a REG. -/
def Iss.policy (is : Iss) : Word :=
  match is.f.reg with
  | some (_, n) => is.th.regs.g[n.toNat]?.getD 0
  | none => 0

def polScope (p : BitVec 32) : Nat := nbits p.toNat 13 3
def polAcq (p : BitVec 32) : Bool := p.getLsbD 12
def polRel (p : BitVec 32) : Bool := p.getLsbD 11
def polNoalloc (p : BitVec 32) : Bool := p.getLsbD 10
def polStream (p : BitVec 32) : Bool := p.getLsbD 9

/-- A policy word is legal where ACQ, REL or both are (R66). -/
def polOk (w : Word) (acq rel both : Bool) : Bool :=
  let p := w.extractLsb' 0 32
  field w 32 32 == 0 && polScope p ≤ 5 && nbits p.toNat 0 9 == 0 &&
    (acq || !polAcq p) && (rel || !polRel p) && (both || !(polAcq p && polRel p))

/-- Size of a block of a depth. -/
def blockSize (d : Nat) : Nat := 4 ^ (32 - d)

/-! ### Delivering tokens (R159, R207, R208) -/

/-- Deliver one token; `none` is a second token on one port (R208).  A predicate token that does not match resolves
its instruction without firing (R159). DEDUCED, log 56. -/
def Flight.deliver (fl : Flight) (self : Nat) (tg : Tgt) (t : Tok) : Option Flight :=
  let pos := tg.pos.toNat
  if pos == self then some fl
  else match fl.nodes[pos]? with
    | none => some fl
    | some nd =>
      if (nd.port tg.port.toNat).isSome then none
      else
        let nd := nd.setPort tg.port.toNat t
        let pm := match fl.sheaf.insts[pos]? with
          | some i => (match i.form with | some f => f.pm | none => 0)
          | none => 0
        let nd := if tg.port == 3 && nd.st == .waiting && !predLets pm t then { nd with st := .absorbed } else nd
        some { fl with nodes := setAt fl.nodes pos nd }

/-- A flight with one instruction fired. -/
def Flight.fired (fl : Flight) (pos : Nat) : Flight :=
  match fl.nodes[pos]? with
  | some nd => { fl with nodes := setAt fl.nodes pos { nd with st := .fired } }
  | none => fl

/-- Deliver a result to both targets of a form. -/
def Flight.emit (fl : Flight) (pos : Nat) (f : Form) (t t2 : Tok) : Option Flight :=
  match fl.deliver pos f.t t with
  | none => none
  | some fl =>
    match f.t2 with
    | none => some fl
    | some tg => fl.deliver pos tg t2

/-! ### Ordered events of the sheaf (R108, R263, R273) -/

/-- The access at a position carries ACQ (R65, R261). -/
def isAcq (th : Thread) (n : Info) (f : Form) : Bool :=
  (n.isLoad || n.isAtomic) && (match f.reg with
    | some (_, g) => polAcq ((th.regs.g[g.toNat]?.getD 0).extractLsb' 0 32)
    | none => false)

/-- The event at a position has fired or is resolved. -/
def Flight.resolved (fl : Flight) (pos : Nat) : Bool :=
  match fl.nodes[pos]? with
  | some nd => nd.st != .waiting
  | none => true

/-- The event at a position is resolved, and its reply or grant has been emitted. -/
def Flight.returned (fl : Flight) (pos : Nat) : Bool :=
  fl.resolved pos && fl.held.all fun h => h.pos != pos || h.done

/-- An ordered event must wait for earlier ones: an access behind an ACQ access or any event behind a fence that has
not finished; an ACQ access until every lower-LSN access has returned or, for a store, resolved; a fence until every
lower-LSN event has fired and every load-kind access has returned (R108, R261, R273). -/
def Flight.heldBack (fl : Flight) (th : Thread) (pos : Nat) : Bool :=
  match fl.sheaf.ordered pos with
  | none => false
  | some (lsn, n, f) =>
    (List.range fl.sheaf.insts.length).any fun j =>
      match fl.sheaf.ordered j with
      | none => false
      | some (m, n', f') =>
        m < lsn &&
          ((n'.isFence && !fl.resolved j) ||
           (n.isAccess && isAcq th n' f' && !fl.returned j) ||
           (isAcq th n f && n'.isAccess && !(if n'.isStore || n'.isRed then fl.resolved j else fl.returned j)) ||
           (n.isFence && !(if n'.isLoad then fl.returned j else fl.resolved j)))

/-! ### Replay of loads against the sheaf's stores (R263) -/

/-- Bytes that a store of a sheaf writes. -/
def storeSize (n : Info) (f : Form) : Nat :=
  if n.page == 2 then 8
  else match n.op with
    | 0x28 => 1
    | 0x29 => 2
    | 0x2A => 4
    | 0x2B => 8
    | 0x2C => 16
    | 0x2E => 64
    | _ => match f.dep with
      | some (d, _) => blockSize d.toNat
      | none => 0

/-- The bytes an unfired address-form store will touch, once its address tokens have arrived. -/
def Flight.storeSpan (fl : Flight) (pos : Nat) (n : Info) (f : Form) : Option (Nat × Nat) :=
  match fl.nodes[pos]? with
  | none => none
  | some nd =>
    let imm := fun (p : Nat) => n.immPort f == some p
    let off : Option Word :=
      if n.page == 2 then some 0
      else if imm 2 then some (immValue f.imm)
      else if feeds fl.sheaf.insts pos 2 then (match nd.x with | some (.sc w) => some w | _ => none)
      else some 0
    match nd.l, off with
    | some (.sc a), some o =>
      if n.page == 0 && n.op == 0x30 then
        match f.dep with
        | some (d, m) => if m == 0 then some ((a.toNat + o.toNat * blockSize d.toNat) % 2 ^ 64, blockSize d.toNat) else none
        | none => none
      else some ((a + o).toNat, storeSize n f)
    | _, _ => none

/-- Two byte ranges meet. -/
def rangesMeet (a n b m : Nat) : Bool := a < b + m && b < a + n

/-- No lower-LSN store of the sheaf holds back an answer: each has resolved, or its address is known and other. -/
def Flight.storesClear (fl : Flight) (h : Held) : Bool :=
  (List.range fl.sheaf.insts.length).all fun j =>
    match fl.sheaf.ordered j with
    | none => true
    | some (m, n, f) =>
      h.lsn ≤ m || !n.isStore || fl.resolved j ||
        (match fl.storeSpan j n f with
         | some (a, z) => !rangesMeet a z h.va h.got.length
         | none => false)

/-- A byte of a held load that it does not read: a pad of an element form (R269). -/
def Flight.padAt (fl : Flight) (h : Held) (i : Nat) : Bool :=
  fl.touch.any fun t => t.kind == .load && t.lsn == h.lsn && t.va == h.va && t.bytes[i]? == some none

/-- A held answer with every byte it reads taken from the highest lower-LSN store of the sheaf that writes it. -/
def Flight.replay (fl : Flight) (h : Held) : List Byte :=
  h.got.zipIdx.map fun (b, i) =>
    let hits := if fl.padAt h i then [] else fl.touch.filter fun t => t.kind == .store && t.lsn < h.lsn && t.va ≤ h.va + i &&
      ((t.bytes[h.va + i - t.va]?).getD none).isSome
    match hits.foldl (fun (best : Option Touch) t =>
        match best with
        | some u => if u.lsn < t.lsn then some t else best
        | none => some t) none with
    | some t => ((t.bytes[h.va + i - t.va]?).getD none).getD 0
    | none => b.getD 0

/-- The token of answered bytes (R265 to R272). -/
def Shape.token (sh : Shape) (bs : List Byte) : Tok :=
  match sh with
  | .sext n => .sc (BitVec.ofInt 64 (signed (8 * n) (ofBytes bs)))
  | .zext _ => .sc (wd (ofBytes bs))
  | .vec m => .ve (vecOf bs) m

/-- The answer of a held access that can be emitted: every byte is there and no store holds it back. -/
def Flight.answer (fl : Flight) (h : Held) : Option Tok :=
  if h.done || h.got.any Option.isNone then none
  else match h.kind with
    | .load sh => if fl.storesClear h then some (sh.token (fl.replay h)) else none
    | .gath m => some (.ve (vecOf (h.got.map (·.getD 0))) m)
    | _ => none

/-- Mark a held access done. -/
def Flight.finish (fl : Flight) (h : Held) : Flight :=
  { fl with held := fl.held.map fun x => if x.pos == h.pos then { x with done := true } else x }

/-- The first held access that can be emitted, with its token. -/
def Flight.nextAnswer (fl : Flight) : List Held → Option (Held × Tok)
  | [] => none
  | h :: rest => match fl.answer h with
    | some t => some (h, t)
    | none => fl.nextAnswer rest

/-- Emit every held answer that can be (R263); `none` is a second token on one port. -/
def Flight.flush : Nat → Flight → Option Flight
  | 0, fl => some fl
  | n + 1, fl =>
    match fl.nextAnswer fl.held with
    | none => some fl
    | some (h, t) =>
      match fl.sheaf.formAt h.pos with
      | none => some fl
      | some f =>
        match (fl.finish h).emit h.pos f t t with
        | none => none
        | some fl => Flight.flush n fl

/-- Put a flight back, with the answers it can now emit, or trap when a second token reached a port (R208). -/
def State.settle (s : State) (c k : Nat) (fl : Option Flight) : State :=
  match fl.bind (Flight.flush 64) with
  | some fl => s.setFlight c k fl
  | none => s.fault c k .multipleToken

/-- The slot's flight, as the state now holds it, through a change of it. -/
def State.withFlight (s : State) (c k : Nat) (g : Flight → Option Flight) : State :=
  match s.flight c k with
  | some fl => s.settle c k (g fl)
  | none => s

/-- Fire and deliver two results. -/
def State.emit2 (s : State) (is : Iss) (t t2 : Tok) : State :=
  s.withFlight is.c is.k fun fl => (fl.fired is.pos).emit is.pos is.f t t2

/-- Fire and deliver one result to the targets. -/
def State.emit (s : State) (is : Iss) (t : Tok) : State := s.emit2 is t t

/-- Fire without a result. -/
def State.fire (s : State) (is : Iss) : State := s.withFlight is.c is.k fun fl => some (fl.fired is.pos)

/-- Fire with an action due at commit (R161). -/
def State.fireDue (s : State) (is : Iss) (a : Act) : State :=
  s.withFlight is.c is.k fun fl => some { fl.fired is.pos with due := fl.due ++ [⟨is.lsn, is.pos, a⟩] }

/-- Fire with a result and an action due at commit. -/
def State.emitDue (s : State) (is : Iss) (t : Tok) (a : Act) : State :=
  (s.modFlight is.c is.k fun fl => { fl with due := fl.due ++ [⟨is.lsn, is.pos, a⟩] }).emit is t

/-- A fault of the issuing instruction; an ordered event records its LSN (R368). -/
def State.trapAt (s : State) (is : Iss) (cause : Cause) : State :=
  s.takeTrap is.c is.k { cause := cause, lsn := if is.n.lsq then is.lsn else none }

/-- The issue of an instruction: it must be the one the turn names, ready; an ordered event that must wait for earlier
ones stays; a null token on any port makes it fire without effect and deliver null (R159); one that reads a register with
an uncorrectable error traps (R73). -/
def issue (i : Instr) (s : State) (body : Iss → State → Out) : Out :=
  match s.issuer i with
  | none => .fault .noIssuer
  | some is =>
    if is.fl.heldBack is.th is.pos then .next s
    else if is.anyNull then .next (s.emit is .null)
    else if is.regBad i then .next (s.trapAt is .uncorrectableData)
    else body is s

/-- The same for an instruction that waits on something outside its sheaf (R160): while it waits, nothing happens. -/
def issueWhen (i : Instr) (s : State) (waits : Iss → State → Bool) (body : Iss → State → Out) : Out :=
  issue i s fun is s => if waits is s then .next s else body is s

/-- The same for an instruction that sees null tokens itself. -/
def issueRaw (i : Instr) (s : State) (body : Iss → State → Out) : Out :=
  match s.issuer i with
  | none => .fault .noIssuer
  | some is => body is s

/-- A one-operand scalar instruction (R237). -/
def scalar1 (i : Instr) (s : State) (g : Word → Word) : Out :=
  issue i s fun is s => .next (s.emit is (.sc (g is.lw)))

/-- A two-operand scalar instruction (R237). -/
def scalar2 (i : Instr) (s : State) (g : Word → Word → Word) : Out :=
  issue i s fun is s => .next (s.emit is (.sc (g is.lw is.rw_)))

/-- A three-operand scalar instruction. -/
def scalar3 (i : Instr) (s : State) (g : Word → Word → Word → Word) : Out :=
  issue i s fun is s => .next (s.emit is (.sc (g is.lw is.rw_ is.xw)))

/-! ### Exits (R254, R255) -/

/-- The fall-through offset: N plus the sheaf's length rounded up to 16 (R255). -/
def fallThrough (n : Word) (size : Nat) : Word := n + wd ((size + 15) / 16 * 16)

/-- An exit fires; a second one raises multiple-exit (R160). -/
def State.exitTo (s : State) (is : Iss) (target : Word) (res : Option Tok) : State :=
  if is.fl.exit_.isSome then s.fault is.c is.k .multipleExit
  else
    let s := s.modFlight is.c is.k fun fl => { fl with exit_ := some target }
    match res with
    | some t => s.emit is t
    | none => s.fire is

/-! ### Registers as operands (R205, R239) -/

/-- The register a READ names, as a token; `none` for a runnel port or a number R205 reserves. -/
def Regs.read (r : Regs) (cls : BitVec 2) (num : BitVec 8) : Option Tok :=
  let n := num.toNat
  if cls == 0 then (r.g[n]?).map .sc
  else if cls == 1 then (r.v[n]?).map fun v => .ve v (lowMask 64)
  else if cls == 2 then
    if n == 0 then some (.sc r.k)
    else if n == 1 then some (.sc r.n)
    else if n ≤ 5 then (r.f[n - 2]?).map .sc
    else if n == 6 then some (.sc r.rnd)
    else if 8 ≤ n then (r.q[n - 8]?).map .sc
    else none
  else none

/-- F0 to F3 as a thread sees them: a burr takes them from its header (R171). -/
def Thread.shadow (t : Thread) (i : Nat) : Word :=
  match t.kind with
  | .rooted => t.regs.f[i]?.getD 0
  | .burr => wd (nbits t.hfmt.toNat (8 * i) 6 * 2 ^ 56 + t.scale.toNat)

/-- The register that a WRITE names (R240). -/
def regOf (cls : BitVec 2) (num : BitVec 8) : Option Reg :=
  let n := num.toNat
  if cls == 0 then some (.g n)
  else if cls == 1 then some (.v n)
  else if cls == 2 then
    if n == 0 then some .k
    else if n == 6 then some .rnd
    else if 8 ≤ n && n ≤ 15 then some (.q (n - 8))
    else none
  else none

/-- Merge the valid bytes of a vector token into a register (R159). -/
def mergeVec (old d : Vec) (m : Mask) : Vec :=
  vecOf ((vecBytes old).zipIdx.map fun (b, i) => if m.getLsbD i then (d.extractLsb' (8 * i) 8) else b)

/-- A register file with a committed value (R161, R240). A written LFSR of zero is stored as 1 (R193). -/
def Regs.write (r : Regs) (reg : Reg) (t : Tok) : Regs :=
  match reg, t with
  | .g n, .sc w => { r with g := r.g.setIfInBounds n w }
  | .v n, .ve d m => { r with v := r.v.setIfInBounds n (mergeVec (r.v[n]?.getD 0) d m) }
  | .q n, .sc w => { r with q := r.q.setIfInBounds n w }
  | .k, .sc w => { r with k := w }
  | .rnd, .sc w => { r with rnd := if field w 32 32 == 0 then setField w 32 32 1 else w }
  | _, _ => r

/-- Bytes of a register word that a committed value covers (R74, R240). -/
def coversWord (reg : Reg) (t : Tok) (w : RegWord) : Nat :=
  match reg, t with
  | .g n, .sc _ => if w == (0, n, 0) then 0xFF else 0
  | .v n, .ve _ m => if w.1 == 1 && w.2.1 == n then field m (8 * w.2.2) 8 else 0
  | .q n, .sc _ => if w == (2, 8 + n, 0) then 0xFF else 0
  | .k, .sc _ => if w == (2, 0, 0) then 0xFF else 0
  | .rnd, .sc _ => if w == (2, 6, 0) then 0xFF else 0
  | _, _ => 0

/-- A write of part of a register word with an uncorrectable error (R74). -/
def Thread.badMerge (t : Thread) (reg : Reg) (v : Tok) : Bool :=
  t.bad.any fun w => coversWord reg v w != 0 && coversWord reg v w != 0xFF

/-! ### Blocks and tensors (R10, R19 to R23, R37) -/

/-- Depth and block address in the layout of TBLOCKP and TADDR (R37). -/
def blockWord (depth addr : Nat) : Word := wd (depth % 64 * 2 ^ 58 + addr % 2 ^ 56)

/-- The depth of the smallest square block that holds two bytes (R264, R327). -/
def coverFrom : Nat → Nat → Nat → Nat
  | 0, _, _ => 0
  | d + 1, a, b => if a / blockSize (d + 1) == b / blockSize (d + 1) then d + 1 else coverFrom d a b

def coverDepth (lo hi : Nat) : Nat := coverFrom 32 lo hi

/-- The smallest square block that holds `n` bytes from `a`, as TBLOCKP names it. -/
def coverWord (a n : Nat) : Word :=
  let hi := a + (n - 1)
  let d := coverDepth a hi
  blockWord d (a / blockSize d * blockSize d)

/-- A byte-form block reference: its address, or the fault of R10 in order. -/
def byteBlock (b p : Word) (d : Nat) : Except Cause Nat :=
  let sz := blockSize d
  if b.toNat % sz != 0 then .error .blockAlignment
  else
    let a := b.toNat + p.toNat * sz
    if a + sz ≤ 2 ^ 56 then .ok a else .error .nonCanonicalAddress

/-- Spread the bits of a number over the even places (R8, R21). -/
def spreadBits : Nat → Nat → Nat
  | 0, _ => 0
  | n + 1, v => v % 2 + 4 * spreadBits n (v / 2)

/-- Gather the bits of even place. -/
def gatherBits : Nat → Nat → Nat
  | 0, _ => 0
  | n + 1, v => v % 2 + 2 * gatherBits n (v / 4)

/-- The curve index of row i and column j of `n` bits each (R21). -/
def curveIndex (n i j : Nat) : Nat := 2 * spreadBits n i + spreadBits n j

/-- Row and column of a curve index. -/
def curveRow (n e : Nat) : Nat := gatherBits n (e / 2)
def curveCol (n e : Nat) : Nat := gatherBits n e

/-- A valid tensor descriptor (R19, R20). -/
structure Tensor where
  base : Nat
  rows : Nat
  cols : Nat
  pad  : Word
  skip : Bool
  s    : Nat
  m    : Nat
  deriving DecidableEq, Repr

/-- The least m with 2^m ≥ n (R20), for n up to 2^28. -/
def orderFrom : Nat → Nat → Nat → Nat
  | 0, m, _ => m
  | k + 1, m, n => if n ≤ 2 ^ m then m else orderFrom k (m + 1) n

/-- Read a descriptor's four words; `none` is bad-descriptor (R20). -/
def tensorOf (ws : List Word) : Option Tensor :=
  match ws with
  | [w0, w1, w2, w3] =>
    let rows := field w1 0 28 + 1
    let cols := field w1 32 28 + 1
    let s := 2 ^ field w3 0 2
    let m := orderFrom 32 0 (max rows cols)
    let size := 4 ^ m * s
    if field w1 60 4 == 0 && field w1 28 4 == 0 && field w3 3 61 == 0 &&
       size ≤ 2 ^ 56 && w0.toNat % size == 0 && w0.toNat + size ≤ 2 ^ 56 then
      some ⟨w0.toNat, rows, cols, w2, w3.getLsbD 2, s, m⟩
    else none
  | _ => none

/-- Address of element (i, j) (R21). -/
def Tensor.addr (t : Tensor) (i j : Nat) : Nat := t.base + curveIndex 28 i j * t.s

/-- Element (i, j) is inside the extents (R21). -/
def Tensor.inside (t : Tensor) (i j : Nat) : Bool := i < t.rows && j < t.cols

/-- The element of a curve index is inside the extents. -/
def Tensor.insideIdx (t : Tensor) (e : Nat) : Bool := t.inside (curveRow 28 e) (curveCol 28 e)

/-- The pad element's bytes (R23). -/
def Tensor.padBytes (t : Tensor) : List Byte := toBytes t.s t.pad.toNat

end Sys2Proof.Machine
end

