-- ==== Sys2Proof/Machine/Stream.lean ====
section
/-!
DEFINITION. Streams: counters, phases and held packets of the gateways' sealed links (R393 to R395).
-/
namespace Sys2Proof.Machine
open Sys2Proof

/-- The counter value that means every value of the key has been used, and the value at which WARN rises. -/
def cntEnd : Nat := 2 ^ 48
def cntWarn : Nat := 2 ^ 48 - 2 ^ 40

def bit1 (b : Bool) : Nat := if b then 1 else 0

/-- STRMST (R393). -/
def Stream.word (x : Stream) : Word :=
  wd (x.cnt + bit1 x.ph * 2 ^ 49 + bit1 x.nkr * 2 ^ 50 + bit1 x.warn * 2 ^ 51 + bit1 x.exh * 2 ^ 52 + bit1 x.oldrx * 2 ^ 53)

def State.stream (s : State) (gw i : Nat) : Stream := (s.gw gw).streams.get i {}
def State.modStream (s : State) (gw i : Nat) (f : Stream → Stream) : State :=
  s.modGw gw fun g => { g with streams := g.streams.put i (f (g.streams.get i {})) }

/-- Requests outstanding under the phase that is not the current one. -/
def Stream.oldOut (x : Stream) : Nat := x.out.countP fun r => r.phase != x.ph

/-- The switch to the other phase (R394). -/
def Stream.switch (x : Stream) (now : Nat) : Stream :=
  { x with ph := !x.ph, cnt := 0, nkr := false, oldrx := true, warn := false, exh := false, early := false, switchAt := now }

/-- A packet would be held: others are, or the key has no value left and the next one is not programmed. -/
def Stream.stuck (x : Stream) : Bool := !x.held.isEmpty || (x.cnt == cntEnd && !x.nkr)

/-- Seal and send with the next counter value; `req` is the step that completes a request. -/
def Stream.send (x : Stream) (now : Nat) (req : Option (Option Event)) : Stream :=
  { x with cnt := x.cnt + 1, warn := x.warn || x.cnt + 1 == cntWarn,
           out := x.out ++ (req.map fun e => ({ step := e, phase := x.ph, since := now } : Sent)).toList }

/-- One packet to send: the switch first where it is due; held, as the step `e` that sends it, where the key has no value left.
DEDUCED, log 100. -/
def Stream.offer (x : Stream) (now : Nat) (e : Event) (req : Option (Option Event)) : Stream :=
  if !x.held.isEmpty then { x with held := x.held ++ [e] }
  else
    let x := if x.nkr && (x.early || x.cnt == cntEnd) then x.switch now else x
    if x.cnt == cntEnd then { x with exh := true, held := [e] } else x.send now req

/-- A gateway offers a packet to a stream; key-exhausted and key-warning go to the trust core (R394). -/
def State.sealPkt (s : State) (gw i : Nat) (e : Event) (req : Option (Option Event)) : State :=
  let x := s.stream gw i
  let y := x.offer s.clock e req
  let s := s.modStream gw i fun _ => y
  { s with tcmsgs := s.tcmsgs ++ (if y.exh && !x.exh then [(gw, i, false)] else []) ++ (if y.warn && !x.warn then [(gw, i, true)] else []) }

/-- The key of a phase is held for receiving: the current one, the old one while OLDRX stands, or a programmed next one (R395). -/
def Stream.holds (x : Stream) (phase : Bool) : Bool :=
  phase == x.ph || x.oldrx || (x.nkr && (x.keys.get? (bit1 phase)).isSome)

/-- Drop the first of the requests that meet a condition. -/
def dropSent (p : Sent → Bool) : List Sent → List Sent
  | [] => []
  | r :: rest => if p r then rest else r :: dropSent p rest

/-- A packet arrives under a phase: one whose key is not held is an integrity error; a completion ends the oldest of the requests
that the model does not follow to their homes. -/
def Stream.receive (x : Stream) (phase comp : Bool) : Stream :=
  if !(x.holds phase) then { x with integ := x.integ + 1 }
  else if comp then { x with out := dropSent (fun r => r.step.isNone && r.phase == phase) x.out }
  else x

/-- The old receive key is dropped when nothing of its phase is outstanding, or at the timeout after the switch. -/
def Stream.oldDue (x : Stream) (now : Nat) : Bool :=
  x.oldrx && (x.oldOut == 0 || x.switchAt + Config.completionTimeout ≤ now)

def Stream.dropOld (x : Stream) : Stream := { x with oldrx := false, keys := x.keys.del (bit1 (!x.ph)) }

/-- A request has gone out and its completion has not come. -/
def State.sentOn (s : State) (gw i : Nat) (e : Event) : Option Sent := (s.stream gw i).out.find? fun r => r.step == some e

/-- The completion of a request has come, or will not. -/
def State.unsend (s : State) (gw i : Nat) (e : Event) : State :=
  s.modStream gw i fun x => { x with out := dropSent (fun r => r.step == some e) x.out }

/-- A request has waited for the stream's completion timeout, or, of the old phase, since the switch (R395). -/
def Stream.late (x : Stream) (now : Nat) (r : Sent) : Bool :=
  r.since + Config.completionTimeout ≤ now || (r.phase != x.ph && x.switchAt + Config.completionTimeout ≤ now)

/-- The pool link of a line at its gateway: streams 1 to 3. DESIGN CHOICE, log 142. -/
def poolStream (pa : Nat) : Nat := 1 + (pa - poolBase) / 4096 % 3

end Sys2Proof.Machine
end

