-- ==== Sys2Proof/Machine/Home.lean ====
section
/-!
DEFINITION. Homes: the bytes a home holds (R46, R60 to R64), writes with everything a home does before it acknowledges
them (R47 to R49, R71, R74, R116, R117, R151, R277), and the recent-write tables (R134, R136).
-/
namespace Sys2Proof.Machine
open Sys2Proof

/-! ### The pool cache (R63, R64, R67) -/

/-- Where a pool line is cached: slice and set as one key. -/
def State.poolKey (s : State) (line : Nat) : Nat := s.poolSlice line * 2048 + s.poolSet line

/-- The pool-cache entry of a line. -/
def State.poolLine? (s : State) (line : Nat) : Option PoolLine :=
  if s.pcsz == 0 then none
  else (s.pcache.get (s.poolKey line) []).find? fun l => l.line == line && l.st != 0

/-- A pool-tier address. -/
def isPool (pa : Nat) : Bool := poolBase ≤ pa

/-- The pool line of an address, and the sector in it. -/
def poolLineOf (pa : Nat) : Nat := (pa - poolBase) / 1024
def secInLine (pa : Nat) : Nat := pa / 128 % 8

/-- The bytes of a cached pool sector. -/
def State.poolData (s : State) (pa : Nat) : Option (List Byte) :=
  if isPool pa then
    match s.poolLine? (poolLineOf pa) with
    | some l => if l.sv.getLsbD (secInLine pa) then l.data.get? (secInLine pa) else none
    | none => none
  else none

/-- Put a line first in its set, as the one most recently used. -/
def State.putPoolLine (s : State) (l : PoolLine) : State :=
  let k := s.poolKey l.line
  { s with pcache := s.pcache.put k (l :: (s.pcache.get k []).filter fun x => x.line != l.line) }

/-- Change a line in its place. -/
def State.setPoolLine (s : State) (l : PoolLine) : State :=
  let k := s.poolKey l.line
  { s with pcache := s.pcache.put k ((s.pcache.get k []).map fun x => if x.line == l.line then l else x) }

/-- The physical number of a sector of a line. -/
def PoolLine.sec (l : PoolLine) (i : Nat) : Nat := (poolBase + l.line * 1024) / 128 + i

/-- A dirty sector of the line holds an uncorrectable word, or has been reported for one and not been written whole since:
it is never evicted or written back (R74). -/
def State.secStuck (s : State) (l : PoolLine) (i : Nat) : Bool :=
  l.stuck.getLsbD i || (l.sd.getLsbD i && (s.sector (l.sec i)).bad != 0)

/-- The stuck sectors of a line, as a mask. -/
def State.stuckMask (s : State) (l : PoolLine) : BitVec 8 :=
  (List.range 8).foldl (fun (m : BitVec 8) i => if s.secStuck l i then m ||| (1#8 <<< i) else m) 0

def State.poolStuck (s : State) (l : PoolLine) : Bool := s.stuckMask l != 0

/-- A slice that meets stuck sectors of a line reports them to the trust core, once (R74). DEDUCED, log 117. -/
def State.reportLine (s : State) (l : PoolLine) : State :=
  let m := s.stuckMask l
  if m == l.stuck then s
  else
    let s := s.setPoolLine { l with stuck := m }
    { s with tclog := s.tclog ++ ((List.range 8).filter fun i => m.getLsbD i && !(l.stuck.getLsbD i)).map l.sec }

/-- A line that holds the sector of an address is reported when it is stuck. -/
def State.reportAt (s : State) (pa : Nat) : State :=
  if isPool pa then
    match s.poolLine? (poolLineOf pa) with
    | some l => s.reportLine l
    | none => s
  else s

/-- Write the dirty sectors of a line back to the pool, but for stuck ones: a packet each on the line's stream. -/
def State.writeBack (s : State) (l : PoolLine) : State :=
  l.data.foldl (fun s (i, bs) =>
    if l.sd.getLsbD i && !(s.secStuck l i) then
      (s.sealPkt (poolGw l.line) (poolStream (poolBase + l.line * 1024)) (.streamSend (poolGw l.line) (poolStream (poolBase + l.line * 1024)) false) none).putBytes
        (poolBase + l.line * 1024 + i * 128) (bs.map some)
    else s) s

/-- The victim of a set: evict-first, then normal, then keep lines, the least recently used first (R67).
DESIGN CHOICE, log 112. -/
def State.poolVictim (s : State) (ls : List PoolLine) : Option PoolLine :=
  let free := ls.filter fun l => !(s.poolStuck l) && l.st != 3
  let pick := fun (c : Nat) => (free.filter fun l => l.cls == c).getLast?
  match pick 2 with
  | some l => some l
  | none => match pick 1 with
    | some l => some l
    | none => pick 0

/-- Make room in a set of 16 ways; `none` when no line of it may leave. -/
def State.poolRoom (s : State) (line : Nat) : Option State :=
  let k := s.poolKey line
  let ls := (s.pcache.get k []).filter fun l => l.st != 0
  if ls.length < 16 then some { s with pcache := s.pcache.put k ls }
  else
    let s := ls.foldl (fun s l => s.reportLine l) s
    let ls := (s.pcache.get k []).filter fun l => l.st != 0
    (s.poolVictim ls).map fun v =>
      let s := s.writeBack v
      { s with pcache := s.pcache.put k (ls.filter fun l => l.line != v.line) }

/-- A line's entry, made when the set has room: the state and the entry. -/
def State.poolEntry (s : State) (line : Nat) : Option (State × PoolLine) :=
  match s.poolLine? line with
  | some l => some (s, l)
  | none => (s.poolRoom line).map fun s => (s, { line := line, st := 1 })

/-- The class of an allocation: the thirteenth keep line of a set becomes normal (R67). -/
def State.poolClass (s : State) (line cls : Nat) : Nat :=
  if cls == 0 && 12 ≤ (s.pcache.get (s.poolKey line) []).countP (fun l => l.cls == 0 && l.line != line) then 1 else cls

/-- The pool's reply for a sector that the slice does not hold comes marked as poisoned (R73). -/
def State.poisoned (s : State) (pa : Nat) : Bool :=
  let sec := s.sector (pa / 128)
  isPool pa && sec.poison && !sec.zp && (s.poolData pa).isNone

/-- Bring the sector of an address into the pool cache, or the whole line for the stream hint (R63); a hit renews the
line's use (R67).  A poisoned reply installs nothing (R73), unless the access replaces the `whole` sector; with no way
left in the set the access goes to the pool uncached (log 117). -/
def State.poolEnsure (s : State) (pa : Nat) (pol : BitVec 32) (whole : Bool := false) : State :=
  if !(isPool pa) || s.pcsz == 0 || (s.poisoned pa && !whole) then s
  else
    let line := poolLineOf pa
    let base := poolBase + line * 1024
    match s.poolEntry line with
    | none => s
    | some (s, l) =>
      if l.sv.getLsbD (secInLine pa) then s.putPoolLine l
      else
        let want := fun i => i == secInLine pa || (polStream pol && !(s.poisoned (base + 128 * i)))
        let cls := s.poolClass line (if polStream pol then 2 else evictClass pa pol)
        let fetched := (List.range 8).filter fun i => want i && !(l.sv.getLsbD i)
        let l := fetched.foldl (fun l i =>
          { l with sv := l.sv ||| (1#8 <<< i), data := l.data.put i (s.bytes (base + 128 * i) 128) })
          { l with st := if l.st == 0 then 1 else l.st, cls := cls }
        let clean := s.secs.map fun p =>
          if fetched.any (fun i => l.sec i == p.1) then (p.1, { p.2 with bad := 0, soft := 0 }) else p
        State.putPoolLine { s with secs := clean } l

/-! ### The bytes at a home -/

/-- The bytes of a sector as its home answers them: zeros while zero-pending (R46), from the pool cache where it holds
them (R63), else from storage.  The range lies in one sector. -/
def State.homeBytes (s : State) (pa n : Nat) : List Byte :=
  if (s.sector (pa / 128)).zp then List.replicate n 0
  else match s.poolData pa with
    | some bs => (bs.drop (pa % 128)).take n
    | none => s.bytes pa n

/-- The 64-bit word at a home. -/
def State.homeWord (s : State) (pa : Nat) : Word := wd (ofBytes (s.homeBytes pa 8))

/-- The 64-bit words of a sector that a range touches. -/
def wordsOf (pa n : Nat) : List Nat :=
  (List.range 16).filter fun w => pa % 128 < 8 * w + 8 && 8 * w < pa % 128 + n

/-- A range of one sector holds a word with an uncorrectable error (R73). -/
def State.badIn (s : State) (pa n : Nat) : Bool :=
  let sec := s.sector (pa / 128)
  !sec.zp && sec.bad != 0 && (wordsOf pa n).any fun w => sec.bad.getLsbD w

/-- Count corrected words at the home of an address. -/
def State.countAt (s : State) (pa n : Nat) : State :=
  match s.homeOf pa with
  | .slice p => s.modCopse p (·.count 0 n)
  | .scratch c => s.modCore c (·.count 2 n)
  | .istore c => s.modCore c (·.count 3 n)
  | _ => s

/-- Words of a sector are read: single-bit errors are corrected in their place and counted (R73). -/
def State.fixWords (s : State) (pa : Nat) (ws : List Nat) : State :=
  let sec := s.sector (pa / 128)
  let hit := ws.filter fun w => sec.soft.getLsbD w
  if sec.zp || hit.isEmpty then s
  else (s.setSector (pa / 128) { sec with
      soft := hit.foldl (fun (b : BitVec 16) w => b &&& ~~~(1#16 <<< w)) sec.soft }).countAt pa hit.length

/-- A range of one sector is read. -/
def State.fixIn (s : State) (pa n : Nat) : State := s.fixWords pa (wordsOf pa n)

/-- Sectors hold sealed data, with a key id, in the near store and the pool (R69, R71). DEDUCED, log 33. -/
def sealedTier (pa : Nat) : Bool := pa < localBase || poolBase ≤ pa

/-- A key id differs from the sector's (R71). -/
def State.keyClash (s : State) (pa kid : Nat) : Bool :=
  let sec := s.sector (pa / 128)
  sealedTier pa && !sec.zp && (match sec.kid with | some k => k != kid | none => false)

/-- Which words a write covers whole. -/
def coveredWords (pa : Nat) (bs : List (Option Byte)) : List Nat :=
  (List.range 16).filter fun w =>
    (List.range 8).all fun i =>
      let o := 8 * w + i
      pa % 128 ≤ o && ((bs[o - pa % 128]?).getD none).isSome

/-- The words that a write covers in part, which a home reads to merge them. -/
def partWords (pa : Nat) (bs : List (Option Byte)) : List Nat :=
  (List.range 16).filter fun w => !(coveredWords pa bs).contains w &&
    (List.range 8).any fun i => pa % 128 ≤ 8 * w + i && ((bs[8 * w + i - pa % 128]?).getD none).isSome

/-- A write of a whole sector. -/
def wholeSector (pa : Nat) (bs : List (Option Byte)) : Bool := pa % 128 == 0 && bs.length == 128 && bs.all (·.isSome)

/-- Where a write writes part of a word with an uncorrectable error (R74), or of a sector whose fetch is poisoned (R73), as
offsets in the write. -/
def State.badWrites (s : State) (pa : Nat) (bs : List (Option Byte)) : List Nat :=
  let sec := s.sector (pa / 128)
  if s.poisoned pa && !(wholeSector pa bs) then [0]
  else if sec.zp || sec.bad == 0 then []
  else ((partWords pa bs).filter fun w => sec.bad.getLsbD w).map fun w => 8 * w - pa % 128

/-- The first such place. -/
def State.badWrite? (s : State) (pa : Nat) (bs : List (Option Byte)) : Option Nat := (s.badWrites pa bs).head?

def State.badWrite (s : State) (pa : Nat) (bs : List (Option Byte)) : Bool := (s.badWrite? pa bs).isSome

/-- Replace bytes within a list from an offset. -/
def overlay : List Byte → Nat → List (Option Byte) → List Byte
  | [], _, _ => []
  | b :: rest, 0, x :: xs => x.getD b :: overlay rest 0 xs
  | bs, 0, [] => bs
  | b :: rest, n + 1, xs => b :: overlay rest n xs

/-- Store bytes at a home within one sector: a zero-pending sector is first all zeros (R46); fresh check bits (R74);
a cached pool line becomes modified (R64); a write of the whole sector ends its being stuck or poisoned. -/
def State.putHome (s : State) (pa : Nat) (bs : List (Option Byte)) : State :=
  let sec := s.sector (pa / 128)
  let base := pa / 128 * 128
  let cached := s.poolData pa
  let s := if sec.zp && cached.isNone then { s with mem := memZero s.mem base (base + 128) } else s
  let fresh := fun (x : BitVec 16) =>
    if sec.zp then 0 else (coveredWords pa bs).foldl (fun (b : BitVec 16) w => b &&& ~~~(1#16 <<< w)) x
  let poison := sec.poison && !sec.zp && !(wholeSector pa bs)
  let s := if sec.zp || fresh sec.bad != sec.bad || fresh sec.soft != sec.soft || poison != sec.poison then
      s.setSector (pa / 128) { sec with zp := false, bad := fresh sec.bad, soft := fresh sec.soft, poison := poison,
                                        guard := if sec.zp then 0 else sec.guard } else s
  match cached with
  | some old =>
    let old := if sec.zp then List.replicate 128 0 else old
    match s.poolLine? (poolLineOf pa) with
    | some l => s.putPoolLine { l with st := if l.st == 3 then 3 else 2, sd := l.sd ||| (1#8 <<< secInLine pa),
                                       stuck := if wholeSector pa bs || sec.zp then l.stuck &&& ~~~(1#8 <<< secInLine pa)
                                                else l.stuck,
                                       data := l.data.put (secInLine pa) (overlay old (pa % 128) bs) }
    | none => s
  | none => s.putBytes pa bs

/-! ### Dirty tracking (R47, R48, R49) -/

/-- The machine's own write of bytes of one sector, sealed under a key id and not dirty-tracked, where memory is populated
(R168, R169, R180). -/
def State.putSealed (s : State) (kid a : Nat) (bs : List Byte) : State :=
  if s.populated a then (s.putHome a (bs.map some)).modSector (a / 128) fun x => { x with kid := some kid } else s

/-- A dirty-map entry of level 1 to 3 leads on: valid, well formed (R48). -/
def dirtyFollows (level : Nat) (e : Word) : Bool :=
  e.getLsbD 0 && field e 56 8 == 0 &&
    (if level < 3 then !(e.getLsbD 1) && field e 3 4 == 0 else e.getLsbD 1 && field e 3 14 == 0)

/-- Why a walker or a dirty mark of a context may not use the word at an address: its key id differs (R71) or it has an
uncorrectable error (R73).  Their accesses carry the context's own id. DEDUCED, log 118. -/
def State.tableFault (s : State) (ctx pa n : Nat) : Option Cause :=
  if s.keyClash pa ctx then some .keyMismatch
  else if s.badIn pa n then some .uncorrectableData
  else none

/-- The sector is given back by the host before a device write (R117): the gateway queues a back-invalidation. -/
def State.unhold (s : State) (sec : Nat) : State :=
  match (s.sector sec).host with
  | some g => (s.modGw g fun x => { x with biq := x.biq ++ [sec] }).modSector sec fun x => { x with host := none }
  | none => s

/-- Set a bit pattern in the word at a home by an atomic OR, or why not; nothing reaches a block that is not populated (R15). -/
def State.orWord (s : State) (ctx pa : Nat) (m : Word) : Except Cause State :=
  match s.tableFault ctx pa 8 with
  | some c => .error c
  | none => if !(s.populated pa) then .ok s else .ok ((((s.unhold (pa / 128)).fixIn pa 8).putHome pa ((toBytes 8 (s.homeWord pa ||| m).toNat).map some)).modSector
      (pa / 128) fun x => { x with kid := some ctx })

/-- Find from a node the word that a page's mark changes and what it sets there: the page's bit, or ALL of the entry that leads
no further.  The addresses of the words read come first, the word to change last.  An address outside the near store is
followed as it stands; an entry that names a block which is not populated leads no further.  DESIGN CHOICE, log 134. -/
def State.dirtyFind (s : State) (ctx va : Nat) : Nat → Nat → Except Cause (List Nat × Word)
  | 0, chunk => .ok ([chunk + 8 * (nbits va 12 20 / 64)], wd (2 ^ (nbits va 12 20 % 64)))
  | left + 1, node =>
    let level := 3 - left
    let pa := node + 8 * nbits va (56 - 8 * level) 8
    match s.tableFault ctx pa 8 with
    | some c => .error c
    | none =>
      let e := s.homeWord pa
      let next := if level < 3 then field e 7 49 * 128 else field e 17 39 * 0x20000
      if dirtyFollows level e && s.populated next then
        match s.dirtyFind ctx va left next with
        | .ok (path, m) => .ok (pa :: path, m)
        | .error c => .error c
      else .ok ([pa], 4)

/-- A context's writes of a tier are marked (R47): host-window pages and local state are not. -/
def State.tracks (s : State) (ctx pa : Nat) : Bool := (s.ctx ctx).tctl.getLsbD 0 && sealedTier pa

/-- The word that the mark of a write changes, after those read on the way. -/
def State.markPath (s : State) (ctx va : Nat) : Except Cause (List Nat × Word) :=
  s.dirtyFind ctx va 3 (field (s.ctx ctx).dtroot 11 45 * 2048)

/-- The dirty mark of a write of a context (R47). -/
def State.markDirty (s : State) (ctx va pa : Nat) : Except Cause State :=
  if s.tracks ctx pa then
    match s.markPath ctx va with
    | .error c => .error c
    | .ok (path, m) =>
      (path.dropLast.foldl (fun s a => s.fixIn a 8) s).orWord ctx (path.getLastD 0) m
  else .ok s

/-- The reserved granule that the mark of a write waits at (R139). -/
def State.markHeld (s : State) (ctx va pa : Nat) : Option Nat :=
  if s.tracks ctx pa then
    match s.markPath ctx va with
    | .ok (path, _) => if (s.resvs.get (path.getLastD 0 / 16) []).isEmpty then none else some (path.getLastD 0 / 16)
    | .error _ => none
  else none

/-! ### Keys of homes, recent writes and mixed shapes (R135, R136) -/

/-- A number for each home. -/
def homeKey : Home → Nat
  | .slice c => c
  | .gateway g => 256 + g
  | .host g => 260 + g
  | .scratch c => 512 + c
  | .istore c => 2560 + c
  | .nowhere => 4608

/-- The recent-write table of a byte: a bank of its home. -/
def State.recentKey (s : State) (pa : Nat) : Nat := homeKey (s.homeOf pa) * 4 + nbits pa 7 2

/-- The part of an access in each granule it touches: granule, offset, size. -/
def granuleParts (pa n : Nat) : List (Nat × Nat × Nat) :=
  (List.range ((pa % 16 + n + 15) / 16)).map fun i =>
    let g := pa / 16 + i
    let lo := max pa (16 * g)
    let hi := min (pa + n) (16 * g + 16)
    (g, lo - 16 * g, hi - lo)

/-- Who an agent is for R136: a slot, or the engine endpoint of its copse. -/
def endpointOf : Agent → Agent
  | .feeder c _ _ => .feeder (c / 8 * 8) 0 0
  | .array c => .array (c / 8 * 8)
  | a => a

/-- An access that arrives at a clock and step is a mixed-shape access of a context at a home (R136): the write it meets was
applied before it arrived, within WIN clocks, and is still in the table when it is served. DEDUCED, log 42. -/
def State.mixed (s : State) (ctx pa n : Nat) (who : Agent) (at_ : Nat × Nat) : Bool :=
  let m := (s.ctx ctx).mixAt.get (homeKey (s.homeOf pa)) 0
  let win := if field m 0 16 == 0 then 65536 else field m 0 16
  m.getLsbD 16 && (granuleParts pa n).any fun (g, o, z) =>
    (s.recents.get (s.recentKey (16 * g)) []).any fun r =>
      r.granule == g && r.off < o + z && o < r.off + r.size && (r.off != o || r.size != z) && r.who != endpointOf who &&
        r.now < at_.2 && at_.1 - r.clock ≤ win

/-- Record a write that is about to be applied, the oldest of 64 entries leaving first. DEDUCED, log 42. -/
def State.record (s : State) (pa n : Nat) (who : Agent) (plain : Bool) : State :=
  (granuleParts pa n).foldl (fun s (g, o, z) =>
    let k := s.recentKey (16 * g)
    let e : Recent := { granule := g, off := o, size := z, who := endpointOf who, clock := s.clock, now := s.now,
                        old := s.homeBytes (16 * g) 16, plain := plain }
    { s with recents := s.recents.put k ((e :: s.recents.get k []).take 64) }) s

/-! ### Conflicting accesses (R134) -/

/-- The writes applied since an access was sent that overlap it and differ from it in shape, of other agents: none of them
is ordered before or after it. DEDUCED, log 119. -/
def State.conflicts (s : State) (pa n : Nat) (who : Agent) (sent : Nat) : List Recent :=
  (granuleParts pa n).flatMap fun (g, o, z) =>
    (s.recents.get (s.recentKey (16 * g)) []).filter fun r =>
      r.granule == g && r.plain && r.off < o + z && o < r.off + r.size && (r.off != o || r.size != z) &&
        r.who != endpointOf who && sent ≤ r.now

/-- A number for each engine. -/
def engineKey : Agent → Nat
  | .copyEngine i => i
  | .array c => 512 + c
  | .feeder c k p => 4096 + 128 * c + 16 * k + p
  | .gateway _ | .slot .. => 0

/-- The step from which an access of an agent is under way: of an engine's, its last access or the start of its work; a core's
and a gateway's are made in one step. DEDUCED, log 119. -/
def State.lastOf (s : State) (who : Agent) : Nat :=
  match who with
  | .slot .. | .gateway _ => s.now
  | _ => s.lastAt.get (engineKey who) s.now

/-- An engine starts its work, or has made an access. -/
def State.engineAt (s : State) (who : Agent) : State :=
  match who with
  | .slot .. | .gateway _ => s
  | _ => { s with lastAt := s.lastAt.put (engineKey who) s.now }

/-- A write has covered a byte. -/
def Recent.covers (r : Recent) (a : Nat) : Bool := 16 * r.granule + r.off ≤ a && a < 16 * r.granule + r.off + r.size

/-- A free choice for each byte of an access, the model's counter moving on. -/
def State.coin (s : State) (i : Nat) : Bool := (Config.freeWord (s.fresh + i / 64)).getLsbD (i % 64)

/-- What a write leaves of its bytes: of a byte that a conflicting write has covered, either may stand. -/
def State.mixWrite (s : State) (pa : Nat) (bs : List (Option Byte)) (who : Agent) (sent : Option Nat) : List (Option Byte) × State :=
  match sent with
  | none => (bs, s)
  | some t => match s.conflicts pa bs.length who t with
    | [] => (bs, s)
    | cs => (bs.zipIdx.map fun (b, i) => if cs.any (·.covers (pa + i)) && s.coin i then none else b, { s with fresh := s.fresh + 2 })

/-- What a read returns: of a byte that a conflicting write has covered, the value before or after. -/
def State.mixRead (s : State) (pa : Nat) (bs : List Byte) (who : Agent) (sent : Nat) : List Byte × State :=
  match s.conflicts pa bs.length who sent with
  | [] => (bs, s)
  | cs => cs.foldl (fun (p : List Byte × State) r =>
      (p.1.zipIdx.map fun (b, i) => if r.covers (pa + i) && p.2.coin i then (r.old[(pa + i) % 16]?).getD b else b,
       { p.2 with fresh := p.2.fresh + 2 })) (bs, s)

/-! ### Side effects of a write before its acknowledgement -/

/-- The ricks a write to a sector makes stale (R151, R152). -/
def State.rickHits (s : State) (sec : Nat) : List (Nat × Nat) :=
  if (s.sector sec).rick then
    let t := s.ricksrc.get (homeKey (s.homeOf (sec * 128))) {}
    let hit := t.ents.filter fun e => e.1 ≤ sec && sec ≤ e.2.1
    ((if hit.isEmpty && t.overflow then t.ents else hit).map fun e => (e.2.2.1, e.2.2.2)).eraseDups
  else []

/-- Set the WAKE of a watch's owner: a slot, or a context in the thread-context cache (R53, R277). -/
def Core.wakeOwner (k : Core) (owner : BitVec 5) : Core :=
  if owner.getLsbD 4 then
    let e := owner.toNat % 16
    match k.cache.get? e with
    | some x => { k with cache := k.cache.put e { x with th := { x.th with wake := true } } }
    | none => k
  else
    let i := owner.toNat % 8
    let x := k.slot i
    k.setSlot i { x with th := { x.th with wake := true } }

/-- Wake the owners of the watched words of which a scratchpad write writes a byte, except the writing slot (R277). -/
def State.wakeWatchers (s : State) (core pa : Nat) (bs : List (Option Byte)) (who : Agent) : State :=
  let o := pa - scratchBase core
  let hit := (s.core core).watch.filter fun (w, own) =>
    o < 8 * w + 8 && 8 * w < o + bs.length && (bs.zipIdx.any fun (b, i) => b.isSome && (o + i) / 8 == w) &&
      !(who == .slot core (own.toNat % 8) && !(own.getLsbD 4))
  hit.foldl (fun s (_, own) => s.modCore core (·.wakeOwner own)) s

/-- Why a home refuses a write: the key id differs, part of a bad word is written (R71, R74). -/
def State.refusal (s : State) (pa kid : Nat) (bs : List (Option Byte)) : Option Cause :=
  if s.keyClash pa kid then some .keyMismatch
  else if s.badWrite pa bs then some .uncorrectableData
  else none

/-- How a write comes: its policy word, and for one that may conflict with others (R134) the step from which it is under
way. -/
structure WriteWay where
  pol  : BitVec 32 := 0
  sent : Option Nat := none
  deriving DecidableEq, Repr

/-- Apply a write of one sector at its home with its side effects: the host gives the sector back, the bytes and the
key id, watchers, the dirty mark after the data (R49).  The answer names the ricks to mark before the acknowledgement,
and why the dirty mark failed, if it did (R71, R73). -/
def State.homeWrite (s : State) (ctx kid va pa : Nat) (bs : List (Option Byte)) (who : Agent) (way : WriteWay := {}) :
    State × List (Nat × Nat) × Option Cause :=
  let sec := pa / 128
  let s := (s.unhold sec).poolEnsure pa way.pol (wholeSector pa bs)
  let hits := s.rickHits sec
  let (mixed, s) := s.mixWrite pa bs who way.sent
  let s := ((s.record pa bs.length who way.sent.isSome).fixWords pa (partWords pa bs)).putHome pa mixed
  let s := if sealedTier pa then s.modSector sec fun x => { x with kid := some kid } else s
  let s := match s.homeOf pa with
    | .scratch c => s.wakeWatchers c pa bs who
    | _ => s
  match s.markDirty ctx va pa with
  | .ok s => (s, hits, none)
  | .error c => (s, hits, some c)

/-- A stale mark reaches a rick (R151, R306). -/
def Rick.mark (r : Rick) : Rick :=
  match r.state with
  | .ready => { r with state := .stale }
  | .filling => { r with marked := true }
  | _ => r

/-- Mark the rick of a handle. -/
def State.markRick (s : State) (copse handle : Nat) : State :=
  s.modCopse copse fun x => { x with ricks := x.ricks.map fun r => if r.handle == handle then r.mark else r }

/-- Mark every rick that an engine's write makes stale, before it is acknowledged (R116). -/
def State.applyMarks (s : State) (hits : List (Nat × Nat)) : State :=
  hits.foldl (fun s (c, h) => s.markRick c h) s

/-- The marks of ricks are due; the last carries the acknowledgement it lets go. -/
def State.dueMarks (s : State) (hits : List (Nat × Nat)) (ack : Option Tag) : State :=
  match hits with
  | [] => s
  | [(c, h)] => s.due (.rickStaleMark c h ack)
  | (c, h) :: rest => State.dueMarks (s.due (.rickStaleMark c h none)) rest ack

/-- A record of a refused or failing write (R71): the granule of its first byte at depth 30. -/
def writeTrap (cause : Cause) (va : Nat) (blockp : Word) (imp : Bool) : TrapRec :=
  { cause := cause, imp := imp, addr := some (blockWord 30 va), blockp := some blockp }

/-! ### Reservations (R139) -/

/-- The reservation queue of a granule. -/
def State.resv (s : State) (g : Nat) : List Waiter := s.resvs.get g []
def State.setResv (s : State) (g : Nat) (q : List Waiter) : State :=
  { s with resvs := if q.isEmpty then s.resvs.del g else s.resvs.put g q }

/-- A granule of the range is reserved or awaited. -/
def State.reserved (s : State) (pa n : Nat) : Bool :=
  (granuleParts pa n).any fun (g, _, _) => !(s.resv g).isEmpty

end Sys2Proof.Machine
end

