-- ==== Sys2Proof/Machine/Xlate.lean ====
section
/-!
DEFINITION. Translation and protection: page-table walks (R26 to R31), translation buffers and level caches (R34), the
zero-pending claim (R45), the checks of an access in order (R36) and what they record (R37), guards (R42).
-/
namespace Sys2Proof.Machine
open Sys2Proof

/-! ### Page-table entries (R26 to R30) -/

/-- Depth of the block that one entry of a level covers (R26). -/
def entryDepth (level : Nat) : Nat := if level == 6 then 26 else 4 * level + 4

/-- A level's node index in an address (R26). -/
def nodeIndex (level va : Nat) : Nat := if level == 6 then nbits va 12 4 else nbits va (56 - 8 * level) 8

/-- The digits above and at a level, as the level cache names a node. -/
def nodePrefix (level va : Nat) : Nat := va / blockSize (4 * level + 4)

/-- A table entry is malformed (R30). -/
def tableBad (level : Nat) (e : Word) : Bool :=
  field e 56 8 != 0 || field e 2 5 != 0 || level == 6 || localBase ≤ field e 7 49 * 128 ||
    (level < 5 && field e 7 4 != 0)

/-- The fields of a leaf (R28). -/
def leafDepth (e : Word) : Nat := field e 59 5
def leafKind (e : Word) : Nat := field e 57 2
def leafZp (e : Word) : Bool := e.getLsbD 56
def leafFrame (e : Word) : Nat := field e 12 44 * 4096
def leafPad (e : Word) : Nat := field e 5 51 * 32

/-- A leaf is malformed (R30). -/
def leafBad (tskm : Word) (level : Nat) (e : Word) : Bool :=
  let d := leafDepth e
  let kind := leafKind e
  kind == 3 || (!(e.getLsbD 2) && e.getLsbD 3) || d < 15 || 26 < d || d ≤ 4 * level || entryDepth level < d ||
    (if kind == 2 then e.getLsbD 3 || leafZp e
     else leafFrame e % blockSize d != 0 ||
       (if e.getLsbD 11 then !(tskm.getLsbD (field e 5 6)) else field e 5 6 != 0))

/-- A leaf names a block that no ordinary page may lie in, or a hashed page past the pool (R30, R38).  A leaf of more than
256 KiB over scratchpads is translated (DESIGN CHOICE, log 114); a pad cell in a populated block outside the near store, which
R28 rules out without a cause, is refused as one in no populated block is (DESIGN CHOICE, log 135). -/
def State.leafAway (s : State) (e : Word) : Bool :=
  let size := blockSize (leafDepth e)
  match leafKind e with
  | 2 => !(s.nearOk (leafPad e)) || !(s.nearOk (leafPad e + 31))
  | 1 => s.hcyc * 0x80000 < leafFrame e + size
  | _ =>
    let part := min size 0x4000000
    (List.range (size / part)).any fun i =>
      !(s.populated (leafFrame e + part * i)) || !(s.populated (leafFrame e + part * i + part - 1))

/-- The 8-byte pad pattern of a pad cell (R24, R28): byte (o mod s) of the pad value. -/
def State.padPattern (s : State) (cell : Nat) : List Byte :=
  let w := s.homeBytes cell 8
  let size := 2 ^ field (s.homeWord (cell + 8)) 0 2
  (List.range 8).map fun o => (w[o % size]?).getD 0

/-- The leaf as the translation structures hold it. -/
def State.makeLeaf (s : State) (va : Nat) (e : Word) : Leaf :=
  let size := blockSize (leafDepth e)
  { depth := leafDepth e, base := va / size * size, kind := leafKind e,
    frame := if leafKind e == 2 then leafPad e else leafFrame e,
    kid := if leafKind e != 2 && e.getLsbD 11 then some (field e 5 6) else none,
    priv := e.getLsbD 4, w := e.getLsbD 3, rd := e.getLsbD 2,
    pad := if leafKind e == 2 then s.padPattern (leafPad e) else [] }

/-- The physical byte of a virtual byte of an ordinary or hashed leaf. -/
def State.leafPa (s : State) (l : Leaf) (va : Nat) : Nat :=
  let o := l.frame + va % blockSize l.depth
  if l.kind == 1 then s.hashedPa o else o

/-- Change or drop L1 sectors: `f` answers what becomes of each. -/
def Core.l1Map (k : Core) (f : (pa : Nat) → L1Sector → Option L1Sector) : Core :=
  { k with l1 := k.l1.map fun (set, ls) => (set, (ls.map fun l =>
      { l with secs := l.secs.filterMap fun (i, x) => (f (l.line * 1024 + 128 * i) x).map fun y => (i, y) }).filter
        fun l => !l.secs.isEmpty) }

/-! ### The zero-pending claim (R45) -/

/-- Mark `n` sectors from a first one zero-pending, for a page of a key id. -/
def zpSectors (m : SMap Sector) (lo n kid : Nat) : SMap Sector :=
  let inside := m.filter fun p => lo ≤ p.1 && p.1 < lo + n
  m.filter (fun p => p.1 < lo) ++
    (List.range n).map (fun i => (lo + i, { SMap.get inside (lo + i) {} with zp := true, kid := some kid, guard := 0 })) ++
    m.filter (fun p => lo + n ≤ p.1)

/-- A range of physical sectors becomes zero-pending: the host gives held ones back (R117), and no core keeps old bytes or
guard words of them or installs a fill that left before, so that no access through the new mapping finds what the frame held
before (R128). DEDUCED, log 120. -/
def State.zpRange (s : State) (lo n kid : Nat) : State :=
  let inside := fun (sec : Nat) => lo ≤ sec && sec < lo + n
  let s := ((s.secs.filter fun p => inside p.1 && p.2.host.isSome).map (·.1)).foldl State.unhold s
  { s with
    secs := zpSectors s.secs lo n kid
    cores := s.cores.map fun (c, k) => (c, { (k.l1Map fun pa x => if inside (pa / 128) then none else some x) with
      epochAll := k.epochAll + 1
      gcache := k.gcache.filter fun e => !(inside e.1) }) }

/-- Mark every sector of a page zero-pending at its home. -/
def State.zpPage (s : State) (ctx : Nat) (l : Leaf) : State :=
  let kid := l.kid.getD ctx
  let n := blockSize l.depth / 128
  if l.kind == 1 then (List.range n).foldl (fun s i => s.zpRange (s.hashedPa (l.frame + 128 * i) / 128) 1 kid) s
  else s.zpRange (l.frame / 128) n kid

/-- The dirty marks of every 4 KiB page of a block at a physical address, whose tier decides whether it is marked
(R46, R47). -/
def State.dirtyPages (s : State) (ctx base pa : Nat) : Nat → Except Cause State
  | 0 => .ok s
  | n + 1 => match State.dirtyPages s ctx base pa n with
    | .ok s => s.markDirty ctx (base + 4096 * n) pa
    | .error c => .error c

/-- Clear ZP in `n` copies of a leaf, from the last down: the entries of the node whose blocks lie in the page (R29, R45).
DEDUCED, log 34. -/
def State.clearZp (s : State) (ctx va : Nat) (pa : Nat) : Nat → Except Cause State
  | 0 => .ok s
  | n + 1 =>
    let here := pa + 8 * n
    match s.homeWrite ctx ctx va here ((toBytes 8 (setField (s.homeWord here) 56 1 0).toNat).map some) (.gateway 0) with
    | (s, hits, none) => (s.dueMarks hits none).clearZp ctx va pa n
    | (_, _, some c) => .error c

/-- Copies of a leaf of a depth at a level, and the address of the first in its node (R29). -/
def leafCopies (level depth : Nat) : Nat := 4 ^ (entryDepth level - depth)
def firstCopy (va node level depth : Nat) : Nat :=
  node + 8 * (nodeIndex level va / leafCopies level depth * leafCopies level depth)

/-- The claim of a new leaf: marks, dirty marks, ZP cleared (R45, R46).  One whose dirty mark or whose ZP clear fails is undone
as a whole, and the walk fails with that cause.  DESIGN CHOICE, log 136. -/
def State.claimZp (s : State) (ctx va node level : Nat) (l : Leaf) : Except Cause State :=
  let s := s.zpPage ctx l
  match (if (s.ctx ctx).tctl.getLsbD 0 then s.dirtyPages ctx l.base (s.leafPa l l.base) (blockSize l.depth / 4096) else .ok s) with
  | .ok s => s.clearZp ctx va (firstCopy va node level l.depth) (leafCopies level l.depth)
  | .error c => .error c

/-- A leaf that a walk ends at without a fault of its own (R30). -/
def State.leafGood (s : State) (ctx level : Nat) (e : Word) : Bool :=
  e.getLsbD 0 && e.getLsbD 1 && !(leafBad (s.ctx ctx).tskm level e) && !(s.leafAway e)

/-- The leaf entry that serves an access: where the copies of a leaf differ, any of them that covers the address and is a
good leaf, chosen afresh (R29): no fault results from the difference. DEDUCED, log 121. -/
def State.pickCopy (s : State) (ctx va node level : Nat) (e : Word) : Word × State :=
  let n := leafCopies level (leafDepth e)
  let first := firstCopy va node level (leafDepth e)
  let ws := (List.range n).map fun i => s.homeWord (first + 8 * i)
  let others := ws.filter fun w => leafDepth w == leafDepth e && s.leafGood ctx level w
  if others.all (· == e) then (e, s)
  else ((others[Config.choice s.fresh % others.length]?).getD e, { s with fresh := s.fresh + 1 })

/-! ### The walk (R30, R34) -/

/-- Why a translation fails, and the depth of the unit it fails at (R37). -/
structure XFail where
  cause : Cause
  depth : Nat
  deriving DecidableEq, Repr

/-- Remember a node address in the walker's level cache of 128 entries. -/
def Copse.keepNode (x : Copse) (ctx level digits node : Nat) : Copse :=
  { x with lcache := ((ctx, level, digits, node) :: x.lcache.filter fun e => !(e.1 == ctx && e.2.1 == level && e.2.2.1 == digits)).take 128 }

def Copse.node? (x : Copse) (ctx level digits : Nat) : Option Nat :=
  (x.lcache.find? fun e => e.1 == ctx && e.2.1 == level && e.2.2.1 == digits).map (·.2.2.2)

/-- Walk from a node, `left` levels remaining; each level's table entry may come from the level cache.  A NEXT in a block that is
not populated, of which R15 lets no access through, fails with bad-physical-target; one in the hashed region is followed as it
stands (DESIGN CHOICE, log 113). -/
def State.walkFrom (s : State) (copse ctx va : Nat) : Nat → Nat → State × Except XFail Leaf
  | 0, _ => (s, .error ⟨.badPageEntry, 26⟩)
  | left + 1, node =>
    let level := 6 - left
    match if level < 6 then (s.copse copse).node? ctx level (nodePrefix level va) else none with
    | some next => s.walkFrom copse ctx va left next
    | none =>
      let pa := node + 8 * nodeIndex level va
      match s.tableFault ctx pa 8 with
      | some c => (s, .error ⟨c, 30⟩)
      | none =>
        let e := s.homeWord pa
        let s := s.fixIn pa 8
        if !(e.getLsbD 0) then (s, .error ⟨.pageNotMapped, entryDepth level⟩)
        else if e.getLsbD 1 then
          let (e, s) := if s.leafGood ctx level e then s.pickCopy ctx va node level e else (e, s)
          if leafBad (s.ctx ctx).tskm level e then (s, .error ⟨.badPageEntry, entryDepth level⟩)
          else if s.leafAway e then (s, .error ⟨.badPhysicalTarget, entryDepth level⟩)
          else match (if leafKind e == 2 then s.tableFault ctx (leafPad e) 16 else none) with
          | some c => (s, .error ⟨c, 30⟩)
          | none =>
            let l := s.makeLeaf va e
            let s := if leafKind e == 2 then s.fixIn (leafPad e) 16 else s
            if leafZp e then
              match s.claimZp ctx va node level l with
              | .ok s => (s, .ok l)
              | .error c => (s, .error ⟨c, 30⟩)
            else (s, .ok l)
        else if tableBad level e then (s, .error ⟨.badPageEntry, entryDepth level⟩)
        else
          let next := field e 7 49 * 128
          if !(s.populated next) then (s, .error ⟨.badPhysicalTarget, entryDepth level⟩)
          else (s.modCopse copse (·.keepNode ctx level (nodePrefix level va) next)).walkFrom copse ctx va left next

/-- A walk of a context's page tables (R30). DESIGN CHOICE, log 27.  A root in a block that is not populated fails with
bad-physical-target; one in a populated block outside the near store is walked as it stands (DESIGN CHOICE, log 113). -/
def State.walk (s : State) (copse ctx va : Nat) : State × Except XFail Leaf :=
  let t := (s.ctx ctx).troot
  if !(t.getLsbD 0) then (s, .error ⟨.pageNotMapped, 4⟩)
  else if !(s.populated (field t 11 45 * 2048)) then (s, .error ⟨.badPhysicalTarget, 4⟩)
  else s.walkFrom copse ctx va 6 (field t 11 45 * 2048)

/-! ### Translation buffers (R34) -/

def Leaf.covers (l : Leaf) (va : Nat) : Bool := va / blockSize l.depth * blockSize l.depth == l.base

/-- Two blocks overlap: the smaller lies in the larger. -/
def blocksMeet (d1 a1 d2 a2 : Nat) : Bool :=
  let z := blockSize (min d1 d2)
  a1 / z == a2 / z

def tlbFind (t : List TlbEnt) (ctx va : Nat) : Option Leaf :=
  (t.find? fun e => e.ctx == ctx && e.leaf.covers va).map (·.leaf)

/-- Install a leaf in place of every entry of the context that overlaps it; the oldest entry makes room.
DESIGN CHOICE, log 28. -/
def tlbPut (cap : Nat) (t : List TlbEnt) (ctx : Nat) (l : Leaf) : List TlbEnt :=
  (⟨ctx, l⟩ :: t.filter fun e => !(e.ctx == ctx && blocksMeet e.leaf.depth e.leaf.base l.depth l.base)).take cap

/-- The set of the copse TLB that an entry stands in, of 256 (R34).  DESIGN CHOICE, log 28. -/
def TlbEnt.set (e : TlbEnt) : Nat := (Config.copseTlbSet e.ctx e.leaf.depth e.leaf.base).val

/-- Install a leaf in the copse TLB: the oldest of the 16 entries of its set makes room. -/
def copseTlbPut (t : List TlbEnt) (ctx : Nat) (l : Leaf) : List TlbEnt :=
  let new : TlbEnt := ⟨ctx, l⟩
  let rest := t.filter fun e => !(e.ctx == ctx && blocksMeet e.leaf.depth e.leaf.base l.depth l.base)
  let mine := (rest.filter fun e => e.set == new.set).take 15
  new :: rest.filter fun e => e.set != new.set || mine.contains e

/-- Translate in a copse: its TLB, else a walk that installs its leaf. -/
def State.xlateCopse (s : State) (copse ctx va : Nat) : State × Except XFail Leaf :=
  match tlbFind (s.copse copse).tlb ctx va with
  | some l => (s, .ok l)
  | none =>
    match s.walk copse ctx va with
    | (s, .ok l) => (s.modCopse copse fun x => { x with tlb := copseTlbPut x.tlb ctx l }, .ok l)
    | r => r

/-- A walk that takes no TLB entry: its leaf replaces what the copse and its cores hold of the page (R29). -/
def State.rewalk (s : State) (copse ctx va : Nat) : State :=
  match s.walk copse ctx va with
  | (s, .ok l) =>
    let s := s.modCopse copse fun x => { x with tlb := copseTlbPut x.tlb ctx l }
    (List.range 8).foldl (fun s i => s.modCore (8 * copse + i) fun k =>
      { k with tlb := k.tlb.filter fun e => !(e.ctx == ctx && blocksMeet e.leaf.depth e.leaf.base l.depth l.base) }) s
  | (s, .error _) => s

/-- Translate for a core: its TLB, else its copse. -/
def State.xlateCore (s : State) (core ctx va : Nat) : State × Except XFail Leaf :=
  match tlbFind (s.core core).tlb ctx va with
  | some l => (s, .ok l)
  | none =>
    match s.xlateCopse (core / 8) ctx va with
    | (s, .ok l) => (s.modCore core fun x => { x with tlb := tlbPut 256 x.tlb ctx l }, .ok l)
    | r => r

/-! ### The L1 (R56, R57, R67) -/

def l1Set (pa : Nat) : Nat := nbits pa 10 4

/-- The L1 sector of an address.  One with an uncorrectable error is dropped and refetched (R73). DEDUCED, log 32. -/
def Core.l1Sector (k : Core) (pa : Nat) : Option L1Sector :=
  match (k.l1.get (l1Set pa) []).find? fun l => l.line == pa / 1024 with
  | some l => (l.secs.get? (secInLine pa)).filter fun x => !x.bad
  | none => none

/-- A read of an L1 sector: a single-bit error is corrected in its place and counted (R73). -/
def Core.l1Fix (k : Core) (pa : Nat) : Core :=
  if (k.l1Sector pa).any (·.soft) then
    (k.l1Map fun a x => if a / 128 == pa / 128 then some { x with soft := false } else some x).count 5 1
  else k

/-- Bytes of a sector with the core's own writes since a step laid over them (R57, R113); `none` once a reduction is among
them. -/
def Core.ownBytes (k : Core) (sec since : Nat) (bs : List Byte) : Option (List Byte) :=
  ((k.stored.get sec []).filter fun w => since ≤ w.step).foldl (fun r w => match r, w.bytes with
    | some bs, some new => some (overlay bs w.off new)
    | _, _ => none) (some bs)

/-- Invalidations of a context's sectors so far, those of every context among them (R113). -/
def Core.epoch (k : Core) (ctx : Nat) : Nat := k.epochs.get ctx 0 + k.epochAll

/-- Mark the line of an address most recently used. -/
def Core.l1Touch (k : Core) (pa : Nat) : Core :=
  match takeFirst (fun l => l.line == pa / 1024) (k.l1.get (l1Set pa) []) with
  | some (l, rest) => { k with l1 := k.l1.put (l1Set pa) (l :: rest) }
  | none => k

/-- The line that makes room in a set: evict-first, normal, keep, the least recently used first (R67). -/
def l1Victim (ls : List L1Line) : Option L1Line :=
  let pick := fun (c : Nat) => (ls.filter fun l => l.cls == c).getLast?
  match pick 2 with
  | some l => some l
  | none => match pick 1 with
    | some l => some l
    | none => pick 0

/-- Fill a sector of the L1 (R57, R67): the fourth keep line of a set becomes normal. -/
def Core.l1Fill (k : Core) (pa cls : Nat) (x : L1Sector) : Core :=
  let ls := k.l1.get (l1Set pa) []
  let others := ls.filter fun l => l.line != pa / 1024
  let old := (ls.find? fun l => l.line == pa / 1024).getD { line := pa / 1024 }
  let room := if others.length < 4 then others
    else match l1Victim others with
      | some v => others.filter fun l => l.line != v.line
      | none => others
  let cls := if cls == 0 && 3 ≤ room.countP (fun l => l.cls == 0) then 1 else cls
  { k with l1 := k.l1.put (l1Set pa) ({ old with cls := cls, secs := old.secs.put (secInLine pa) x } :: room) }

/-- Drop one sector. -/
def Core.l1Drop (k : Core) (pa : Nat) : Core :=
  if (k.l1Sector pa).isSome then k.l1Map fun a x => if a / 128 == pa / 128 then none else some x else k

/-- A committed store updates a sector the L1 holds (R57). -/
def Core.l1Store (k : Core) (pa : Nat) (bs : List (Option Byte)) : Core :=
  match k.l1Sector pa with
  | none => k
  | some _ => k.l1Map fun a x =>
      if a / 128 == pa / 128 then some { x with data := overlay x.data (pa % 128) bs } else some x

/-- Invalidate a context's L1 sectors; fills in flight install nothing (R58, R113). -/
def Core.l1Invalidate (k : Core) (ctx : Nat) : Core :=
  { k.l1Map fun _ x => if x.ctx == ctx then none else some x with
    epochs := k.epochs.put ctx (k.epochs.get ctx 0 + 1) }

/-! ### Checks of an access (R36, R37, R42) -/

/-- The least right of the two layers of a granule: 0 RW, 1 RO, 2 NA (R42). -/
def guardRight (g : BitVec 32) (granule : Nat) : Nat :=
  max (nbits g.toNat (4 * (granule % 8)) 2) (nbits g.toNat (4 * (granule % 8) + 2) 2)

/-- The guard word a core checks with: its L1 sector's, its guard cache's, else the home's, which a write keeps in the
guard cache of 64 entries (R42). -/
def State.guardFor (s : State) (core pa : Nat) (wr : Bool) : State × BitVec 32 :=
  let k := s.core core
  match k.l1Sector pa with
  | some x => (s, x.guard)
  | none =>
    match k.gcache.find? fun e => e.1 == pa / 128 with
    | some e => (s, e.2)
    | none =>
      let sec := s.sector (pa / 128)
      let g := if sec.zp then 0 else sec.guard
      (if wr then s.modCore core fun k => { k with gcache := ((pa / 128, g) :: k.gcache).take 64 } else s, g)

/-- Who translates: a core for its slots, or an engine of a copse. -/
inductive Xer where
  | core (c : Nat)
  | copse (i : Nat)
  deriving DecidableEq, Repr

def State.xlate (s : State) (x : Xer) (ctx va : Nat) : State × Except XFail Leaf :=
  match x with
  | .core c => s.xlateCore c ctx va
  | .copse i => s.xlateCopse i ctx va

def State.guardOf (s : State) (x : Xer) (pa : Nat) (wr : Bool) : State × BitVec 32 :=
  match x with
  | .core c => s.guardFor c pa wr
  | .copse _ =>
    let sec := s.sector (pa / 128)
    (s, if sec.zp then 0 else sec.guard)

/-- Where a piece of an access lies: physical memory under a key id, or the pad bytes of a HOLE page. -/
inductive Place_ where
  | mem (pa kid : Nat)
  | pad (bs : List Byte)
  deriving DecidableEq, Repr

/-- Steps 1 to 5 of R36 for one byte: canonical, translation, privilege, kind, page right. -/
def State.checkPage (s : State) (x : Xer) (ctx : Nat) (priv : Bool) (va : Nat) (rd wr : Bool) :
    State × Except XFail Leaf :=
  if 2 ^ 56 ≤ va then (s, .error ⟨.nonCanonicalAddress, 4⟩)
  else match s.xlate x ctx va with
    | (s, .error e) => (s, .error e)
    | (s, .ok l) =>
      if l.priv && !priv then (s, .error ⟨.pageRights, l.depth⟩)
      else if l.kind == 2 && wr then (s, .error ⟨.holeWrite, l.depth⟩)
      else if (rd && !l.rd) || (wr && !l.w) then (s, .error ⟨.pageRights, l.depth⟩)
      else (s, .ok l)

/-- All checks of R36 for the bytes of one granule. -/
def State.checkGranule (s : State) (x : Xer) (ctx : Nat) (priv : Bool) (va n : Nat) (rd wr : Bool) :
    State × Except XFail Place_ :=
  match s.checkPage x ctx priv va rd wr with
  | (s, .error e) => (s, .error e)
  | (s, .ok l) =>
    if l.kind == 2 then (s, .ok (.pad ((List.range n).map fun i => (l.pad[(va + i) % 8]?).getD 0)))
    else
      let pa := s.leafPa l va
      let (s, g) := s.guardOf x pa wr
      let r := guardRight g (pa / 16)
      if (rd && 2 ≤ r) || (wr && 1 ≤ r) then (s, .error ⟨.guardRights, 30⟩)
      else (s, .ok (.mem pa (l.kid.getD ctx)))

/-- A piece of an access: its offset and size in the access, and its place. -/
structure Part where
  off : Nat
  n   : Nat
  at_ : Place_
  deriving DecidableEq, Repr

/-- The granules of an access as (offset, size); an address wraps modulo 2^64 (R260). -/
def splitAt16 (va n : Nat) : List (Nat × Nat) :=
  (List.range ((va % 16 + n + 15) / 16)).map fun i =>
    let lo := if i == 0 then 0 else 16 * i - va % 16
    (lo, min (16 * (i + 1) - va % 16) n - lo)

/-- Check the wanted bytes of an access granule by granule, upward; the first failing byte decides (R36, R37).
DEDUCED, log 24. -/
def State.checkParts (s : State) (x : Xer) (ctx : Nat) (priv : Bool) (va : Nat) (want : List Bool) (rd wr : Bool) :
    List (Nat × Nat) → State × Except (XFail × Nat) (List Part)
  | [] => (s, .ok [])
  | (o, n) :: rest =>
    let need := (want.drop o).take n
    if need.all (!·) then s.checkParts x ctx priv va want rd wr rest
    else
      let first := (va + o + need.findIdx (·)) % 2 ^ 64
      match s.checkGranule x ctx priv first 1 rd wr with
      | (s, .error e) => (s, .error (e, first))
      | (s, .ok p) =>
        let lo := need.findIdx (·)
        let p := match p with
          | .mem pa kid => Place_.mem (pa - lo) kid
          | .pad _ => match s.checkGranule x ctx priv ((va + o) % 2 ^ 64) n rd wr with
            | (_, .ok q) => q
            | (_, .error _) => p
        match s.checkParts x ctx priv va want rd wr rest with
        | (s, .ok ps) => (s, .ok (⟨o, n, p⟩ :: ps))
        | r => r

/-- Check an access over all its bytes. -/
def State.checkBytes (s : State) (x : Xer) (ctx : Nat) (priv : Bool) (va n : Nat) (rd wr : Bool) :
    State × Except (XFail × Nat) (List Part) :=
  s.checkParts x ctx priv va (List.replicate n true) rd wr (splitAt16 va n)

/-- The record of a failed check (R37): the failing unit and the block of the operation. -/
def xfailRec (e : XFail × Nat) (blockp : Word) : TrapRec :=
  { cause := e.1.cause, addr := some (blockWord e.1.depth e.2), blockp := some blockp }

/-- Join a part to the ones after it, when both lie in one sector and follow each other. -/
def joinPart (a : Part) (rest : List Part) : List Part :=
  match a.at_, rest with
  | .mem pa kid, b :: tail =>
    match b.at_ with
    | .mem pb _ =>
      if pa / 128 == pb / 128 && pb == pa + a.n && b.off == a.off + a.n then ⟨a.off, a.n + b.n, .mem pa kid⟩ :: tail
      else a :: rest
    | .pad _ => a :: rest
  | _, _ => a :: rest

/-- Join the parts of one sector, for accesses that travel by sector (R80, R267). -/
def joinParts (ps : List Part) : List Part := ps.foldr joinPart []

end Sys2Proof.Machine
end

