-- ==== Sys2Proof/Machine/Access.lean ====
section
/-!
DEFINITION. Accesses on their way: requests and replies (R60, R81, R110 to R113), what a home does with each (R133 to
R143), reservations (R137 to R141), acknowledgements (R90), and the immediate reads and writes of engines (R36, R153).
The events of the storage levels have their meanings here.
-/
namespace Sys2Proof.Machine
open Sys2Proof

/-! ### Requests as packets -/

/-- The request that a step at a home serves. -/
def reqOf : Event → Option Req
  | .sliceAccess r | .scratchpadAccess r | .codeLoadStore r | .poolAccess r | .poolCacheMiss r | .reductionApply r
  | .gatherHomeRead r | .reserveRequest r | .release r | .cancel r | .stwApply r => some r
  | _ => none

/-- Bytes that an access covers from its address on. -/
def reqSize (r : Req) : Nat :=
  match r.acc with
  | .read n => n
  | .write bs => bs.length
  | .red _ n _ => n
  | .gath _ => 0
  | .reserve n => n
  | .release bs => bs.length
  | .cancel => 0
  | .wake _ => 8

/-- The step that serves a request at its home (R52, R54, R60, R62). -/
def State.homeEvent (s : State) (r : Req) : Event :=
  match r.acc with
  | .red .. => .reductionApply r
  | .gath _ => .gatherHomeRead r
  | .reserve _ => .reserveRequest r
  | .release _ => .release r
  | .cancel => .cancel r
  | .wake _ => .stwApply r
  | .read _ =>
    match s.homeOf r.pa with
    | .scratch _ | .istore _ => .scratchpadAccess r
    | .gateway _ | .host _ => .poolAccess r
    | _ => .sliceAccess r
  | .write _ =>
    match s.homeOf r.pa with
    | .scratch _ => .scratchpadAccess r
    | .istore _ => .codeLoadStore r
    | .gateway _ | .host _ => .poolAccess r
    | _ => .sliceAccess r

/-- Where an agent sits on the networks (R77). -/
def agentEnd : Agent → Nat × Nat
  | .slot c _ => coreEnd c
  | .copyEngine i => (nodeOf i, epCopy)
  | .feeder c _ _ => (nodeOf (c / 8), epFeeder)
  | .array c => (nodeOf (c / 8), epArray)
  | .gateway g => ((attachments g).headD 0, epGateway)

/-- A request as a packet to its home: STW in wake class, everything else in request class (R81). -/
def State.reqPkt (s : State) (r : Req) : Pkt :=
  let src := agentEnd r.agent
  { msg := (match r.acc with | .wake _ => true | _ => false), cls := (match r.acc with | .wake _ => 3 | _ => 0),
    src := src, dst := s.homeEnd src.1 (s.homeOf r.pa), ctx := r.ctx, counted := r.counted, deliver := s.homeEvent r }

/-- An acknowledgement to a slot (R90), under the context of the traffic it answers. -/
def State.ack (s : State) (from_ : Nat × Nat) (ctx : Nat) (who : Agent) (kind : AckKind) (refused : Option TrapRec)
    (tag : Option Tag := none) : State :=
  match who with
  | .slot c k => s.post { cls := 1, src := from_, dst := coreEnd c, ctx := ctx, rtag := tag, deliver := .writeAck c k kind refused }
  | _ => s

/-- The endpoint that serves a request. -/
def State.servedAt (s : State) (r : Req) : Nat × Nat := s.homeEnd (agentEnd r.agent).1 (s.homeOf r.pa)

/-- Answer a load-kind request (R60, R113); a sector with an uncorrectable word fills no L1 (R73; DEDUCED, log 32). -/
def State.reply (s : State) (r : Req) (data : List Byte) (err : Option TrapRec) : State :=
  let sec := r.pa / 128
  let fill := if r.install && err.isNone && !(s.badIn (sec * 128) 128) then
      some (sec, s.homeBytes (sec * 128) 128, if (s.sector sec).zp then 0 else (s.sector sec).guard) else none
  let reply : Reply :=
    { tag := r.tag, data := data, err := err, fill := fill, ctx := r.ctx, epoch := r.epoch, sent := r.sent, pol := r.pol }
  match r.agent with
  | .slot c _ => s.post { cls := 1, src := s.servedAt r, dst := coreEnd c, ctx := r.ctx, key := some r.kid, deliver := .loadReply reply }
  | _ => s

/-- An imprecise trap is pending for a slot's thread (R371). -/
def State.impTrap (s : State) (who : Agent) (r : TrapRec) : State :=
  match who with
  | .slot c k => s.modThread c k fun t => { t with imps := t.imps ++ [r] }
  | _ => s

/-- A write is acknowledged, or refused: a counted one by a packet, as is one that had to wait on its way to the own
scratchpad; one that counts nothing leaves its trap pending. -/
def State.ackWhole (s : State) (r : Req) (refused : Option TrapRec) : State :=
  if r.counted then s.ack (s.servedAt r) r.ctx r.agent .write refused r.tag
  else if r.own then s.ack (s.servedAt r) r.ctx r.agent .own refused r.tag
  else match refused with
    | some t => s.impTrap r.agent t
    | none => s

/-- A write, or a granule's part of one, is done: an access whose parts have waited at their granules is acknowledged with the
last of them, and refused as the first that failed was (R132, R139). -/
def State.ackWrite (s : State) (r : Req) (refused : Option TrapRec) : State :=
  match r.join with
  | none => s.ackWhole r refused
  | some j => match s.joins.get? j with
    | some (n + 2, e) => { s with joins := s.joins.put j (n + 1, e.or refused) }
    | some (_, e) => State.ackWhole { s with joins := s.joins.del j } r (e.or refused)
    | none => s

/-! ### What a home does (R60, R71, R73, R136) -/

/-- When a request has reached its home: now, where it does not say. -/
def State.cameAt (s : State) (r : Req) : Nat × Nat := r.arrived.getD (s.clock, s.now)

/-- The first failing byte of a range that has a mixed-shape write or a bad word, as an offset. -/
def State.mixedOff (s : State) (r : Req) (n : Nat) : Nat :=
  match (granuleParts r.pa n).find? fun (g, o, z) => s.mixed r.ctx (16 * g + o) z r.agent (s.cameAt r) with
  | some (g, o, _) => 16 * g + o - r.pa
  | none => 0

/-- A range of one sector that holds an uncorrectable word, or that the pool answers as poisoned (R73). -/
def State.lost (s : State) (pa n : Nat) : Bool := s.badIn pa n || s.poisoned pa

def State.badOff (s : State) (pa n : Nat) : Nat :=
  match (wordsOf pa n).find? fun w => (s.sector (pa / 128)).bad.getLsbD w with
  | some w => 8 * w - pa % 128
  | none => 0

/-- Why a read is not answered, in the home's order. -/
def State.readFault (s : State) (r : Req) (n : Nat) : Option TrapRec :=
  if s.mixed r.ctx r.pa n r.agent (s.cameAt r) then some (writeTrap .mixedShape (r.va + s.mixedOff r n) r.blockp false)
  else if s.keyClash r.pa r.kid then some (writeTrap .keyMismatch r.va r.blockp false)
  else if s.lost r.pa n then some (writeTrap .uncorrectableData (r.va + s.badOff r.pa n) r.blockp false)
  else none

/-- Read-modify-write of `n` bytes: old o, operands b and c (R270, R271, R326). -/
def rmw (op : RmwOp) (n o b c : Nat) : Nat :=
  let m := 2 ^ (8 * n)
  let o := o % m
  let b := b % m
  match op with
  | .add => (o + b) % m
  | .and => o &&& b
  | .or => o ||| b
  | .xor => o ^^^ b
  | .min => if signed (8 * n) b < signed (8 * n) o then b else o
  | .max => if signed (8 * n) o < signed (8 * n) b then b else o
  | .minu => min o b
  | .maxu => max o b
  | .swap => b
  | .cas => if o == b then c % m else o
  | .addf => f32Add o b
  | .minf => f32Min o b
  | .maxf => f32Max o b

/-- The way a request writes: an atomic's release conflicts with nothing (R134). -/
def reqWay (r : Req) : WriteWay :=
  { pol := r.pol, sent := match r.acc with | .release _ => none | _ => some r.sent }

/-- The failing byte of a refused write, as an offset. -/
def State.refusedOff (s : State) (pa : Nat) (bs : List (Option Byte)) (c : Cause) : Nat :=
  if c == .uncorrectableData then (s.badWrite? pa bs).getD 0 else 0

/-- Serve a write at its home.  Its ricks are marked before it is acknowledged (R116, R151): at once where no counted
acknowledgement waits for their confirmation.  A dirty mark that fails leaves the data written and the trap pending
(DEDUCED, log 118). -/
def State.serveWrite (s : State) (r : Req) (bs : List (Option Byte)) : State :=
  if s.mixed r.ctx r.pa bs.length r.agent (s.cameAt r) then
    s.ackWrite r (some (writeTrap .mixedShape (r.va + s.mixedOff r bs.length) r.blockp true))
  else match s.refusal r.pa r.kid bs with
    | some c => (s.reportAt r.pa).ackWrite r (some (writeTrap c (r.va + s.refusedOff r.pa bs c) r.blockp true))
    | none =>
      match s.homeWrite r.ctx r.kid r.va r.pa bs r.agent (reqWay r) with
      | (s, hits, some c) => (s.applyMarks hits).ackWrite r (some (writeTrap c r.va r.blockp true))
      | (s, hits, none) =>
        if hits.isEmpty then s.ackWrite r none
        else if r.counted && r.join.isNone then s.dueMarks hits (some r.tag)
        else (s.applyMarks hits).ackWrite r none

/-- Serve a reduction (R142). -/
def State.serveRed (s : State) (r : Req) (op : RmwOp) (n : Nat) (b : Word) : State :=
  if s.lost r.pa n then (s.reportAt r.pa).ackWrite r (some (writeTrap .uncorrectableData (r.va + s.badOff r.pa n) r.blockp true))
  else ((s.poolEnsure r.pa r.pol).fixIn r.pa n).serveWrite r ((toBytes n (rmw op n (ofBytes (s.homeBytes r.pa n)) b.toNat 0)).map some)

/-- Serve a read at its home: the words it reads are corrected, and the whole sector where it fills an L1 (R73).  The bytes
answer every place `offs` of the access that names them. -/
def State.serveReadFor (s : State) (r : Req) (n : Nat) (offs : List Nat) : State :=
  let at_ := fun (o : Nat) => { r with tag := { r.tag with off := o } }
  match s.readFault r n with
  | some t => (s.reportAt r.pa).reply (at_ (offs.headD 0)) [] (some t)
  | none =>
    let s := s.poolEnsure r.pa r.pol
    let s := if r.install then s.fixIn (r.pa / 128 * 128) 128 else s.fixIn r.pa n
    let (bs, s) := s.mixRead r.pa (s.homeBytes r.pa n) r.agent r.sent
    offs.foldl (fun s o => s.reply (at_ o) bs none) s

def State.serveRead (s : State) (r : Req) (n : Nat) : State := s.serveReadFor r n [r.tag.off]

/-- Serve an STW: apply it, wake the owner, return the wake acknowledgement (R278). -/
def State.serveWake (s : State) (r : Req) (v : Word) : State :=
  let s := s.serveWrite r ((toBytes 8 v.toNat).map some)
  match r.agent with
  | .slot c k => s.post { msg := true, cls := 3, src := s.servedAt r, dst := coreEnd c, ctx := r.ctx,
                          deliver := .wakeAcknowledgement c k (r.pa / 8) }
  | _ => s

/-- The elements of a gather without repeats: the first that names each place. -/
def firstEls (els : List (Nat × Nat × Nat × Nat)) : List (Nat × Nat × Nat × Nat) :=
  els.foldl (fun l e => if l.any fun x => x.2.1 == e.2.1 then l else l ++ [e]) []

/-- Serve the elements of a gather at one home, each one access, ascending; one named more than once is read once and answers
every position that names it (R143); a failing one is named (R264). -/
def State.serveGath (s : State) (r : Req) (els : List (Nat × Nat × Nat × Nat)) : State :=
  (firstEls els).foldl (fun s (_, pa, n, va) =>
    s.serveReadFor { r with pa := pa, va := va, acc := .read n, blockp := coverWord va n } n
      ((els.filter fun e => e.2.1 == pa).map (·.1))) s

/-! ### Reservations (R139 to R141) -/

/-- The answer of a reservation. -/
def State.grantReply (s : State) (w : Waiter) (c : Nat) (data : List Byte) (err : Option TrapRec) : State :=
  let reply : Reply := { tag := w.req.tag, data := data, err := err, ctx := w.req.ctx }
  s.post { cls := 1, src := s.servedAt w.req, dst := coreEnd c, ctx := w.req.ctx, key := some w.req.kid, deliver := .atomicGrant reply }

/-- Grant the reservation at the head of a queue, or answer its failed check and drop it. -/
def State.grantHead (s : State) (g : Nat) (w : Waiter) (rest : List Waiter) : State × Bool :=
  match s.readFault w.req (reqSize w.req) with
  | some t =>
    let s := (s.setResv g rest).reportAt (g * 16)
    match w.req.agent with
    | .slot c _ => (s.grantReply w c [] (some t), false)
    | _ => (s, false)
  | none =>
    let s := ((s.setResv g ({ w with granted := true, since := s.clock } :: rest)).poolEnsure (g * 16) w.req.pol).fixIn (g * 16) 16
    match w.req.agent with
    | .slot c _ => (s.grantReply w c (s.homeBytes (g * 16) 16) none, true)
    | _ => (s, true)

/-- An access is a reservation. -/
def isReserve (a : Access) : Bool :=
  match a with
  | .reserve _ => true
  | _ => false

/-- The waiter of a tag. -/
def Waiter.owns (w : Waiter) (t : Tag) : Bool :=
  isReserve w.req.acc && w.req.tag.core == t.core && w.req.tag.slot == t.slot && w.req.tag.run == t.run &&
    w.req.tag.lsn == t.lsn

/-- Take the held or awaited reservation of a tag out of a queue. -/
def State.dropWaiter (s : State) (g : Nat) (t : Tag) : State := s.setResv g ((s.resv g).filter fun w => !(w.owns t))

/-- Serve an access that needs no reservation, or release one. -/
def State.serveNow (s : State) (r : Req) : State :=
  match r.acc with
  | .read n => s.serveRead r n
  | .write bs => s.serveWrite r bs
  | .red op n v => s.serveRed r op n v
  | .gath els => s.serveGath r els
  | .wake v => s.serveWake r v
  | .release bs => (s.dropWaiter (r.pa / 16) r.tag).serveWrite r (bs.map some)
  | .reserve _ | .cancel => s

/-- The granules an access touches, for the queues of R139. -/
def touched (r : Req) : List Nat :=
  match r.acc with
  | .gath els => (els.map fun e => e.2.1 / 16).eraseDups
  | _ => (granuleParts r.pa (reqSize r)).map (·.1)

/-- Take the head of a granule's queue. -/
def State.popResv (s : State) (g : Nat) : State := s.setResv g (s.resv g).tail

/-- The parts of an access that are single-copy atomic on their own (R132): its granules, the elements of a gather. -/
def reqParts (r : Req) : List Req :=
  let cut := fun (f : Nat → Nat → Access) => (granuleParts r.pa (reqSize r)).map fun (g, o, z) =>
    let d := 16 * g + o - r.pa
    { r with pa := r.pa + d, va := r.va + d, acc := f d z, tag := { r.tag with off := r.tag.off + d } }
  match r.acc with
  | .read _ => cut fun _ z => .read z
  | .write bs => cut fun d z => .write ((bs.drop d).take z)
  | .gath els => (els.map (·.2.1)).eraseDups.map fun pa => { r with acc := .gath (els.filter fun e => e.2.1 == pa) }
  | _ => [r]

/-- The reserved granule of the word that the dirty mark of a write sets, when it is none of the write's own. -/
def State.markWaits (s : State) (r : Req) : Option Nat :=
  match r.acc with
  | .write _ | .red .. | .release _ | .wake _ => (s.markHeld r.ctx r.va r.pa).filter fun g => !((touched r).contains g)
  | _ => none

/-- The granule whose queue an access joins, which has come through that of `past`: its own when that is reserved or awaited,
else that of its dirty mark. -/
def State.waitsAt (s : State) (r : Req) (past : Option Nat) : Option Nat :=
  match (touched r).find? fun g => past != some g && !(s.resv g).isEmpty with
  | some g => some g
  | none => (s.markWaits r).filter fun g => past != some g

/-- Join the queue of a granule. -/
def State.queueAt (s : State) (r : Req) (g : Nat) : State := s.setResv g (s.resv g ++ [{ req := r, since := s.now }])

/-- Serve one part of an access, or queue it where it must wait (R139). -/
def State.servePart (s : State) (r : Req) (past : Option Nat) : State :=
  match s.waitsAt r past with
  | some g => s.queueAt r g
  | none => s.serveNow r

/-- Serve what stands at the head of granules' queues, up to the next held reservation (R139). -/
def State.advance (s : State) : Nat → List Nat → State
  | 0, _ => s
  | _, [] => s
  | n + 1, g :: gs =>
    match s.resv g with
    | [] => s.advance n gs
    | w :: rest =>
      match w.req.acc with
      | .reserve _ =>
        if w.granted then s.advance n gs
        else
          let (s, held) := s.grantHead g w rest
          s.advance n (if held then gs else g :: gs)
      | _ =>
        ((s.popResv g).servePart w.req (some g)).advance n (g :: (touched w.req ++ gs))

/-- Enough rounds for every waiting access. -/
def State.rounds (s : State) : Nat := 2 * (s.resvs.map (·.2.length)).sum + 2

/-- Serve what a granule's queue now lets go. -/
def State.resumeAt (s : State) (g : Nat) : State := s.advance s.rounds [g]

/-- Serve an access at its home; one that meets a reserved or awaited granule goes by its parts, each served or queued at its
own granule, so that the others go on being served (R132, R139).  DEDUCED, log 137. -/
def State.serve (s : State) (r : Req) : State :=
  if (s.waitsAt r none).isNone then s.serveNow r
  else
    match reqParts r with
    | [p] => s.servePart p none
    | ps =>
      let s := match r.acc with
        | .write _ => { s with joins := s.joins.put s.nextId (ps.length, none), nextId := s.nextId + 1 }
        | _ => s
      let join := match r.acc with | .write _ => some (s.nextId - 1) | _ => none
      ps.foldl (fun s p => s.servePart { p with join := join } none) s

/-- Put a reservation request in its queue: that of a sheaf which runs again after a revoke, ahead of the unmarked requests that
have arrived since the revoke (R140).  DEDUCED, log 137. -/
def State.queueReserve (s : State) (r : Req) : State :=
  let g := r.pa / 16
  let q := s.resv g
  let w : Waiter := { req := r, since := s.now }
  match r.retry, s.revokes.find? fun e => e.1 == r.agent with
  | true, some e =>
    let ahead := q.takeWhile fun x => x.granted || x.req.retry || x.since ≤ e.2
    s.setResv g (ahead ++ w :: q.drop ahead.length)
  | _, _ => s.setResv g (q ++ [w])

/-- A release (R139): the bytes are applied, acknowledged, and the next in the queue is served. -/
def State.serveRelease (s : State) (r : Req) : State :=
  match s.markWaits r with
  | some g => s.queueAt r g
  | none => (s.serveNow r).resumeAt (r.pa / 16)

/-- A cancel (R139, R141). -/
def State.serveCancel (s : State) (r : Req) : State :=
  let g := r.pa / 16
  let s := s.dropWaiter g r.tag
  (s.ack (s.servedAt r) r.ctx r.agent .cancel none r.tag).resumeAt g

/-! ### The steps at homes -/

/-- A request with the clock and step of its arrival, kept while it waits (R136). -/
def State.stamp (s : State) (r : Req) : Req := { r with arrived := some (s.cameAt r) }

/-- A pool access misses the pool cache (R63). -/
def State.poolMiss (s : State) (pa : Nat) : Bool := isPool pa && s.pcsz != 0 && (s.poolData pa).isNone

/-- The line of an address is being filled (R64). -/
def State.poolPending (s : State) (pa : Nat) : Bool :=
  isPool pa && (match s.poolLine? (poolLineOf pa) with | some l => l.st == 3 | none => false)

/-- Mark the line of an address fill pending (R64); `none` when its set has no way left. -/
def State.poolStart (s : State) (pa : Nat) : Option State :=
  (s.poolEntry (poolLineOf pa)).map fun (s, l) => s.putPoolLine { l with st := 3 }

/-- The fill has ended: shared, or modified when a sector is dirty; what has waited for it comes next, in arrival
order. -/
def State.poolEnd (s : State) (pa : Nat) : State :=
  match s.poolLine? (poolLineOf pa) with
  | some l =>
    if l.st == 3 then
      let s := s.putPoolLine { l with st := if l.sd == 0 then 1 else 2, waits := [] }
      { s with pending := l.waits ++ s.pending }
    else s
  | none => s

/-- An access waits at a line whose fill is pending (R64). -/
def State.poolWait (s : State) (pa : Nat) (e : Event) : State :=
  match s.poolLine? (poolLineOf pa) with
  | some l => s.setPoolLine { l with waits := l.waits ++ [e] }
  | none => s

/-- The addresses of an access, one in each sector it touches. -/
def reqPlaces (r : Req) : List Nat :=
  match r.acc with
  | .gath els => els.map fun e => e.2.1
  | _ => [r.pa]

/-- A step whose subject is a request. -/
def withReq (s : State) (get : Event → Option Req) (body : State → Req → State) : Out :=
  match s.event.bind get with
  | some r => .next (body s.taken r)
  | none => .fault .noSubject

/-- What a home does with an access that it takes. -/
def State.perform (s : State) (r : Req) : State :=
  match r.acc with
  | .reserve _ => (s.queueReserve r).resumeAt (r.pa / 16)
  | .release _ => s.serveRelease r
  | .cancel => s.serveCancel r
  | _ => s.serve r

/-- An access reaches its home: at a pool-cache line whose fill is pending it waits in arrival order (R64), one that misses
starts the fill (R63), any other is performed. -/
def State.atHome (s : State) (e : Req → Event) (r : Req) : State :=
  let r := s.stamp r
  match (reqPlaces r).find? s.poolPending with
  | some pa => s.poolWait pa (e r)
  | none =>
    if s.poolMiss r.pa then
      match s.poolStart r.pa with
      | some s => s.due (.poolCacheMiss r)
      | none => s.perform r
    else s.perform r

/-- The stream over which the home of a request reaches the data: a gateway's link to the pool, or to the host (R62, R428). -/
def State.linkOf (s : State) (r : Req) : Option (Nat × Nat) :=
  match r.acc with
  | .reserve _ | .cancel => none
  | _ => match s.homeOf r.pa with
    | .gateway g => some (g, poolStream r.pa)
    | .host g => some (g, 0)
    | _ => none

/-- The answer of a request that has timed out: its access faults, or its write is refused, with uncorrectable-data (R395). -/
def State.timedOut (s : State) (e : Event) : State :=
  match reqOf e with
  | some r =>
    let t := writeTrap .uncorrectableData r.va r.blockp false
    let s := s.poolEnd r.pa
    match r.acc with
    | .read _ | .gath _ => s.reply r [] (some t)
    | .reserve _ | .cancel => s
    | _ => s.ackWrite r (some { t with imp := true })
  | none => s

/-- The step of a request is no longer due. -/
def State.forget (s : State) (e : Event) : State := { s with pending := s.pending.erase e }

/-- A request over a stream: it leaves sealed, or is held for want of a key; its completion then comes back, and `go` is what it
does.  A completion under a key that is no longer held ends as a timeout (R394, R395). DEDUCED, log 101. -/
def State.overLink (s : State) (l : Option (Nat × Nat)) (e : Event) (go : State → State) : State :=
  match l with
  | none => go s
  | some (g, i) => match s.sentOn g i e with
    | none =>
      let held := (s.stream g i).stuck
      let s := s.sealPkt g i e (some (some e))
      if held then s else s.due e
    | some x =>
      let s := s.unsend g i e
      if x.phase == (s.stream g i).ph || (s.stream g i).oldrx then go s else s.timedOut e

/-- A step at a home: `put` gives the step that serves a request, and `get` the request of a step. -/
def homeStep (s : State) (put : Req → Event) (get : Event → Option Req) : Out :=
  withReq s get fun s r => s.overLink (s.linkOf r) (put r) fun s => s.atHome put r

def execSliceAccess (s : State) : Out := homeStep s .sliceAccess fun e => match e with | .sliceAccess r => some r | _ => none

def execPoolCacheMiss (s : State) : Out :=
  withReq s (fun e => match e with | .poolCacheMiss r => some r | _ => none) fun s r =>
    s.overLink (some (poolGw (poolLineOf r.pa), poolStream r.pa)) (.poolCacheMiss r) fun s =>
      ((s.poolEnd r.pa).poolEnsure r.pa r.pol).perform r

def execPoolAccess (s : State) : Out := homeStep s .poolAccess fun e => match e with | .poolAccess r => some r | _ => none
def execScratchpadAccess (s : State) : Out := homeStep s .scratchpadAccess fun e => match e with | .scratchpadAccess r => some r | _ => none

/-- A host's store to the local tier enters the network at the attachment node that serves the target copse (R79, R95, R433). -/
def State.hostStore (s : State) (g : Nat) (r : Req) : State :=
  let c := match s.homeOf r.pa with | .istore c | .scratch c => c | _ => 0
  s.post { cls := 0, src := (s.attachment g (nodeOf (c / 8)), epGateway), dst := coreEnd c, ctx := r.ctx,
           deliver := .codeLoadStore { r with entered := true } }

/-- A code-loading store: the host's goes to the network first; at the owning core it is applied; one to a die that is absent reaches
nothing (R15). DEDUCED, log 95. -/
def execCodeLoadStore (s : State) : Out :=
  withReq s (fun e => match e with | .codeLoadStore r => some r | _ => none) fun s r =>
    match r.agent, r.entered with
    | .gateway g, false => if s.populated r.pa then s.hostStore g r else s.ackWrite r none
    | _, _ => if s.populated r.pa then s.perform (s.stamp r) else s.ackWrite r none

def execReductionApply (s : State) : Out := homeStep s .reductionApply fun e => match e with | .reductionApply r => some r | _ => none
def execGatherHomeRead (s : State) : Out := homeStep s .gatherHomeRead fun e => match e with | .gatherHomeRead r => some r | _ => none
/-- DEDUCED, log 77. -/
def execStwApply (s : State) : Out := homeStep s .stwApply fun e => match e with | .stwApply r => some r | _ => none
def execReserveRequest (s : State) : Out := homeStep s .reserveRequest fun e => match e with | .reserveRequest r => some r | _ => none
def execRelease (s : State) : Out := homeStep s .release fun e => match e with | .release r => some r | _ => none

/-- A cancel waits behind its reservation at a line whose fill is pending (R64, R141). -/
def execCancel (s : State) : Out :=
  withReq s (fun e => match e with | .cancel r => some r | _ => none) fun s r =>
    if s.poolPending r.pa then s.poolWait r.pa (.cancel r) else s.perform r

/-- A held reservation is revoked after 1,024 clocks while another waits (R140). -/
def State.revokeDue (s : State) (g : Nat) : Bool :=
  match s.resv g with
  | w :: rest => w.granted && !w.revoked && w.since + 1024 ≤ s.clock && rest.any fun x => isReserve x.req.acc
  | [] => false

def execReservationRevoke (s : State) : Out :=
  match s.event with
  | some (.reservationRevoke g) =>
    let s := s.taken
    match s.resv g with
    | w :: rest =>
      if s.revokeDue g then
        let s := { s.setResv g ({ w with revoked := true } :: rest) with
          revokes := if w.req.retry && s.revokes.any (·.1 == w.req.agent) then s.revokes
                     else (w.req.agent, s.now) :: s.revokes.filter (·.1 != w.req.agent) }
        .next (s.postCached 1 (s.servedAt w.req) (agentEnd w.req.agent) w.req.ctx (.revokeReceive w.req.tag))
      else .next s
    | [] => .next s
  | _ => .fault .noSubject

/-- The holder of a revoked reservation: a sheaf that has not committed is discarded and starts again (R140). -/
def execRevokeReceive (s : State) : Out :=
  match s.event with
  | some (.revokeReceive t) =>
    let s := s.taken
    match s.flight t.core t.slot with
    | some fl =>
      if fl.run == t.run then
        .next ((s.discard t.core t.slot).modSlot t.core t.slot fun x => { x with retryNext := true })
      else .next s
    | none => .next s
  | _ => .fault .noSubject

/-- The stores of a slot to the own scratchpad are performed: tails committed behind them move (R303). -/
def State.moveTails (s : State) (c k : Nat) : State :=
  ((s.slot c k).tails.foldl (fun s (ring, n) => s.modCore c (·.moveTail ring n)) s).modSlot c k fun x => { x with tails := [] }

/-- An acknowledgement (R90, R141, R349). -/
def execWriteAck (s : State) : Out :=
  match s.event with
  | some (.writeAck c k kind refused) =>
    let s := s.taken
    let s := s.modSlot c k fun x => match kind with
      | .write => { x with ucnt := x.ucnt - 1 }
      | .cancel => { x with cancels := x.cancels - 1 }
      | .notice => { x with ucnt := x.ucnt - 1 }
      | .own => { x with ocnt := x.ocnt - 1 }
    let s := if (s.slot c k).ocnt == 0 && !(s.slot c k).tails.isEmpty then s.moveTails c k else s
    match refused with
    | some r => .next (s.impTrap (.slot c k) r)
    | none => .next s
  | _ => .fault .noSubject

def execWakeAcknowledgement (s : State) : Out :=
  match s.event with
  | some (.wakeAcknowledgement c k w) => .next (s.taken.modSlot c k fun x => { x with wakes := x.wakes.erase w })
  | _ => .fault .noSubject

/-- A background walk (R29, R30, R34): its leaf replaces what the TLBs hold of the page; a failed walk leaves nothing. -/
def execTranslationWalk (s : State) : Out :=
  match s.event with
  | some (.translationWalk copse ctx va) => .next (s.taken.rewalk copse ctx va)
  | _ => .fault .noSubject

/-- The sweep of a zero-pending sector (R46). -/
def execZeroSweep (s : State) : Out :=
  match s.event with
  | some (.zeroSweep sec) =>
    let s := s.taken
    if (s.sector sec).zp then
      let s := (s.unhold sec).poolEnsure (sec * 128) 0 true
      let hits := s.rickHits sec
      .next ((s.putHome (sec * 128) (List.replicate 128 (some 0))).dueMarks hits none)
    else .next s
  | _ => .fault .noSubject

/-- A line after a back-invalidation: gone, but for stuck sectors, which are never written back (R74; log 117).  One whose fill
is pending keeps its entry without its sectors, and what waits there goes on waiting for the fill (R64; DEDUCED, log 117). -/
def State.dropLine (s : State) (l : PoolLine) : State :=
  let m := s.stuckMask l
  if m == 0 && l.st != 3 then
    { s with pcache := s.pcache.put (s.poolKey l.line) ((s.pcache.get (s.poolKey l.line) []).filter fun x => x.line != l.line) }
  else s.setPoolLine { l with st := if l.st == 3 then 3 else 2, sv := m, sd := m, data := l.data.filter fun p => m.getLsbD p.1 }

/-- A back-invalidation from a pool device shared with other agents (R64): the line's dirty sectors are written back, the
line goes, and the other agent may then write the pool's bytes (R104).
DEDUCED, log 133. -/
def execBackInvalidate (s : State) : Out :=
  match s.event with
  | some (.backInvalidate line after) =>
    let s := s.taken
    let s := match s.poolLine? line with
      | some l =>
        let s := (s.reportLine l).writeBack l
        s.dropLine ((s.poolLine? line).getD l)
      | none => s
    .next (s.putBytes (poolBase + 1024 * line) (after.take 1024))
  | _ => .fault .noSubject

/-! ### Replies and grants at the core -/

/-- The waiting access of a tag in a slot's sheaf. -/
def Flight.heldAt (fl : Flight) (lsn : Nat) : Option Held := fl.held.find? fun h => h.lsn == lsn && !h.done

def Flight.setHeld (fl : Flight) (h : Held) : Flight :=
  { fl with held := fl.held.map fun x => if x.pos == h.pos then h else x }

/-- What a reply's sector installs in the L1: nothing when its context has been invalidated since its request left the core
(R113), or a reduction by the core has (R58); else its bytes, with what the core has stored in the sector since laid over
them, which reaches the home behind the request (R57, R88, R119). DEDUCED, log 13. -/
def State.fillBytes (s : State) (r : Reply) : Option (Nat × List Byte × BitVec 32) :=
  let k := s.core r.tag.core
  match r.fill with
  | some (sec, bytes, guard) =>
    if k.epoch r.ctx == r.epoch then (k.ownBytes sec r.sent bytes).map fun bs => (sec, bs, guard) else none
  | none => none

/-- Fill the L1 with a sector and the guard word that travels with it (R42, R57). -/
def State.fillL1 (s : State) (r : Reply) : Option (Nat × List Byte × BitVec 32) → State
  | none => s
  | some (sec, bytes, guard) => s.modCore r.tag.core fun k =>
      k.l1Fill (sec * 128) (evictClass (sec * 128) r.pol) { data := bytes, guard := guard, ctx := r.ctx }

/-- An access that acquires at COPSE or wider, once its value has come, invalidates the context's L1 sectors: what the core
has filled since it fired may be older than what it has acquired (R58, R106, R261). DEDUCED, log 20. -/
def State.acquired (s : State) (t : Tag) : State :=
  match s.flight t.core t.slot with
  | some fl =>
    if fl.run == t.run && (fl.heldAt t.lsn).any fun h => h.acq.any (2 ≤ ·) then
      s.modCore t.core (·.l1Invalidate (s.slot t.core t.slot).th.ctx)
    else s
  | none => s

def execLoadReply (s : State) : Out :=
  match s.event with
  | some (.loadReply r) =>
    let s := s.taken
    let fill := s.fillBytes r
    let s := (s.acquired r.tag).fillL1 r fill
    let t := r.tag
    match s.flight t.core t.slot with
    | none => .next s
    | some fl =>
      if fl.run != t.run then .next s
      else match fl.heldAt t.lsn with
        | none => .next s
        | some h =>
          match r.err with
          | some e => .next (s.takeTrap t.core t.slot { e with lsn := some t.lsn })
          | none =>
            let got := h.got.take t.off ++ r.data.map some ++ h.got.drop (t.off + r.data.length)
            .next (s.settle t.core t.slot (some (fl.setHeld { h with got := got })))
  | _ => .fault .noSubject

/-- The grant of a reservation reaches the AM* that asked (R138), or a croft map update (R346). -/
def execAtomicGrant (s : State) : Out :=
  match s.event with
  | some (.atomicGrant r) =>
    let s := s.taken.acquired r.tag
    let t := r.tag
    match s.flight t.core t.slot with
    | none => .next s
    | some fl =>
      if fl.run != t.run then .next s
      else match fl.heldAt t.lsn with
        | none => .next s
        | some h =>
          match r.err with
          | some e => .next (s.takeTrap t.core t.slot { e with lsn := some t.lsn })
          | none =>
            match h.kind, fl.sheaf.formAt h.pos with
            | .atomic op n off b c, some f =>
              let o := ofBytes ((r.data.drop off).take n)
              let new := toBytes n (rmw op n o b.toNat c.toNat)
              let fl := fl.setHeld { h with got := new.map some, granted := true, done := true }
              .next (s.settle t.core t.slot (fl.emit h.pos f (.sc (wd o)) (.sc (wd o))))
            | .mapUpdate, _ =>
              .next (s.settle t.core t.slot (some (fl.setHeld { h with got := r.data.map some, granted := true })))
            | _, _ => .next s
  | _ => .fault .noSubject

/-! ### Immediate accesses of engines and descriptor reads (R25, R36, R153) -/

/-- A read through translation, served at the homes at once: of a descriptor or by an engine.  One that meets a reserved
granule or a pending fill waits (`State.readHeld`). -/
def State.readParts (s : State) (who : Agent) (ctx va : Nat) (blockp : Word) :
    List Part → State × Except TrapRec (List Byte)
  | [] => (s, .ok [])
  | p :: rest =>
    match p.at_ with
    | .pad bs => match s.readParts who ctx va blockp rest with
      | (s, .ok tail) => (s, .ok (bs ++ tail))
      | (s, .error e) => (s, .error e)
    | .mem pa kid =>
      let r : Req := { agent := who, tag := default, ctx := ctx, kid := kid, pa := pa, va := va + p.off, acc := .read p.n,
                       blockp := blockp }
      match s.readFault r p.n with
      | some t => (s.reportAt pa, .error t)
      | none =>
        let (bs, s) := s.mixRead pa (s.homeBytes pa p.n) who (s.lastOf who)
        match s.readParts who ctx va blockp rest with
        | (s, .ok tail) => (s, .ok (bs ++ tail))
        | (s, .error e) => (s, .error e)

/-- The parts of a read are fetched into the pool cache (R63) and corrected (R73). -/
def State.fixParts (s : State) (pol : BitVec 32) : List Part → State
  | [] => s
  | p :: rest =>
    match p.at_ with
    | .pad _ => s.fixParts pol rest
    | .mem pa _ => ((s.poolEnsure pa pol).fixIn pa p.n).fixParts pol rest

def State.readVa (s : State) (x : Xer) (who : Agent) (ctx : Nat) (priv : Bool) (va n : Nat) (blockp : Word)
    (pol : BitVec 32 := 0) : State × Except TrapRec (List Byte) :=
  match s.checkBytes x ctx priv va n true false with
  | (s, .error e) => (s, .error (xfailRec e blockp))
  | (s, .ok ps) =>
    let (s, r) := (s.fixParts pol ps).readParts who ctx va blockp ps
    (s.engineAt who, r)

/-- A place where an immediate access waits: a reserved granule (R139) or a line whose fill is pending (R64). -/
def State.busyAt (s : State) (pa n : Nat) : Bool := s.reserved pa n || s.poolPending pa

def State.partsBusy (s : State) (ps : List Part) : Bool :=
  ps.any fun p => match p.at_ with | .mem pa _ => s.busyAt pa p.n | .pad _ => false

/-- A read of an engine meets such a place and waits. -/
def State.readHeld (s : State) (x : Xer) (ctx : Nat) (priv : Bool) (va n : Nat) : Bool :=
  match s.checkBytes x ctx priv va n true false with
  | (s, .ok ps) => s.partsBusy ps
  | (_, .error _) => false

/-- The words of read bytes. -/
def wordsFrom : Nat → List Byte → List Word
  | 0, _ => []
  | n + 1, bs => wd (ofBytes (bs.take 8)) :: wordsFrom n (bs.drop 8)

/-- The outcome of an engine's write: done, refused with a record, or held back by a reservation. -/
inductive Wrote where
  | done (s : State)
  | fault (s : State) (r : TrapRec)
  | wait
  deriving Repr

/-- One piece of an engine's write, within a sector, applied at its home with its side effects. -/
def State.engineWrite (s : State) (who : Agent) (ctx kid va pa : Nat) (bs : List (Option Byte)) (blockp : Word)
    (pol : BitVec 32 := 0) : Wrote :=
  if s.busyAt pa bs.length || (s.markHeld ctx va pa).isSome then .wait
  else if s.mixed ctx pa bs.length who (s.clock, s.now) then .fault s (writeTrap .mixedShape va blockp false)
  else match s.refusal pa kid bs with
    | some c => .fault (s.reportAt pa) (writeTrap c (va + s.refusedOff pa bs c) blockp false)
    | none => match s.homeWrite ctx kid va pa bs who { pol := pol, sent := some (s.lastOf who) } with
      | (s, hits, some c) => .fault (s.applyMarks hits) (writeTrap c va blockp false)
      | (s, hits, none) => .done ((s.applyMarks hits).engineAt who)

/-! ### Earlier writes on their way (R108, R111) -/

/-- A request writes. -/
def isWriteReq (r : Req) : Bool :=
  match r.acc with
  | .write _ | .red .. | .release _ | .wake _ => true
  | _ => false

/-- The requests of a core's slots that have not been performed: queued, on the networks, arrived, or waiting at a home. -/
def State.underWay (s : State) (c : Nat) : List Req :=
  let mine := fun (e : Event) => (reqOf e).filter fun r => match r.agent with | .slot x _ => x == c | _ => false
  ((s.core c).slots.toList.flatMap fun x => x.injq.filterMap fun e => match e with | .pkt p => mine p.deliver | .mark .. => none) ++
    s.flits.filterMap (fun f => mine f.pkt.deliver) ++ s.pending.filterMap mine ++
    s.resvs.flatMap (fun p => p.2.filterMap fun w => match w.req.agent with | .slot x _ => if x == c then some w.req else none | _ => none) ++
    s.pcache.flatMap (fun p => p.2.flatMap fun l => l.waits.filterMap mine)

/-- A write of the core to a sector is under way: a descriptor read at the home would pass it (R25, R108, R111). -/
def State.writeAhead (s : State) (c sec : Nat) : Bool := (s.underWay c).any fun r => isWriteReq r && r.pa / 128 == sec

/-- A write of one slot that replaces the whole 64-bit word at an address is under way (R74, R76). -/
def State.replacedAhead (s : State) (c k pa : Nat) : Bool :=
  (s.underWay c).any fun r => r.agent == .slot c k && (match r.acc with
    | .write bs => pa / 128 == r.pa / 128 && (coveredWords r.pa bs).contains (pa % 128 / 8)
    | _ => false)

/-- A write of one slot to a range is under way, or a wake write to it is not acknowledged (R108, R278). -/
def State.slotAhead (s : State) (c k pa n : Nat) : Bool :=
  ((s.underWay c).any fun r => isWriteReq r && r.agent == .slot c k && rangesMeet r.pa (reqSize r) pa n) ||
    (s.slot c k).wakes.any fun w => rangesMeet (8 * w) 8 pa n

end Sys2Proof.Machine
end

