-- ==== Sys2Proof/Machine/Flags.lean ====
section
/-!
DEFINITION. The condition values of the machine: the scalar tests and predicate logic (R209, R252, R253), vector
compare masks (R288), tag planes (R332) and saturating counters (R313).  The device keeps no arithmetic flags (R191,
R244): a condition is a token, a lane mask, or a bit of a control register.
-/
namespace Sys2Proof.Machine
open Sys2Proof

/-- A condition as a scalar: 1 when it holds, 0 otherwise (R252). -/
def condWord (b : Bool) : Word := if b then 1 else 0

/-- The six test relations (R252). -/
def testEq (a b : Word) : Word := condWord (a == b)
def testNe (a b : Word) : Word := condWord (a != b)
def testLt (a b : Word) : Word := condWord (BitVec.slt a b)
def testLe (a b : Word) : Word := condWord (BitVec.sle a b)
def testLtu (a b : Word) : Word := condWord (BitVec.ult a b)
def testLeu (a b : Word) : Word := condWord (BitVec.ule a b)

/-- The predicate instructions read bit 0 only (R253). -/
def predAnd (a b : Word) : Word := condWord (a.getLsbD 0 && b.getLsbD 0)
def predOr (a b : Word) : Word := condWord (a.getLsbD 0 || b.getLsbD 0)
def predNot (a : Word) : Word := condWord (!a.getLsbD 0)

/-- The mask whose bits of element j are set when the element's flag is (R288). -/
def maskFrom (size : Nat) : Nat → List Bool → Nat
  | _, [] => 0
  | j, b :: rest => (if b then (2 ^ size - 1) * 2 ^ (j * size) else 0) + maskFrom size (j + 1) rest

def elemMask (size : Nat) (bs : List Bool) : Mask := BitVec.ofNat 64 (maskFrom size 0 bs)

/-- The tags of a mask that are satisfied on a plane: its bit or the tag's CTAGE bit is set (R332). -/
def satisfied (mask plane err : Word) : Word := mask &&& (plane ||| err)

/-- The lowest set bit's number; 64 for zero. -/
def lowestFrom : Nat → Nat → Word → Nat
  | 0, i, _ => i
  | n + 1, i, w => if w.getLsbD i then i else lowestFrom n (i + 1) w

def lowestBit (w : Word) : Nat := lowestFrom 64 0 w

/-- A 16-bit counter that saturates (R313). -/
def satAdd16 (a b : Nat) : Nat := min (a + b) 0xFFFF

end Sys2Proof.Machine
end

