-- ==== Sys2Proof/Machine/Mem.lean ====
section
/-!
DEFINITION. The memory instructions (R259 to R280): loads and stores, quadrant forms, atomics, reductions, gathers,
fences, watches, wake writes and guard changes.
-/
namespace Sys2Proof.Machine
open Sys2Proof

/-! ### Shared parts of an access (R260 to R264) -/

/-- The physical agent of an issuing instruction. -/
def Iss.agent (is : Iss) : Agent := .slot is.c is.k
def Iss.ctx (is : Iss) : Nat := is.th.ctx
def Iss.xer (is : Iss) : Xer := .core is.c

/-- A trap of the issuing access with the record of its failed check. -/
def State.accessTrap (s : State) (is : Iss) (e : XFail × Nat) (blockp : Word) : State :=
  s.takeTrap is.c is.k { xfailRec e blockp with lsn := is.lsn }

/-- A trap of an access without a failing unit of R37: TBLOCKP names the block that holds its bytes (R264). -/
def State.blockFault (s : State) (is : Iss) (c : Cause) (blockp : Word) : State :=
  s.takeTrap is.c is.k { cause := c, lsn := is.lsn, blockp := some blockp }

/-- A trap of the issuing instruction with a record. -/
def State.recTrap (s : State) (is : Iss) (r : TrapRec) : State :=
  s.takeTrap is.c is.k { r with lsn := if is.n.lsq then is.lsn else none }

/-- The effective address (R260). -/
def Iss.addr (is : Iss) : Nat := (is.lw + is.xw).toNat

/-- The policy word of the issuing access as 32 bits. -/
def Iss.pol (is : Iss) : BitVec 32 := is.policy.extractLsb' 0 32

/-- The bytes that an access touches within a range, for R263: written bytes, or a zero for each byte read. -/
def Touch.has (t : Touch) (a : Nat) : Bool := t.va ≤ a && ((t.bytes[a - t.va]?).getD none).isSome

/-- Two touches overlap in a byte. -/
def Touch.meets (t u : Touch) : Bool :=
  rangesMeet t.va t.bytes.length u.va u.bytes.length &&
    (List.range t.bytes.length).any fun i => t.has (t.va + i) && u.has (t.va + i)

/-- Two touches share a 16-byte granule of which each touches a byte. -/
def Touch.sharesGranule (t u : Touch) : Bool :=
  (List.range t.bytes.length).any fun i => t.has (t.va + i) &&
    (List.range 16).any fun j => u.has ((t.va + i) / 16 * 16 + j)

/-- The pair of R263 that raises lsn-conflict, in either order. DEDUCED, log 23. -/
def Touch.conflicts (t u : Touch) : Bool :=
  t.lsn != u.lsn &&
    ((t.kind == .gath && u.kind == .store && u.lsn < t.lsn && t.meets u) ||
     (t.kind == .atomic && t.sharesGranule u) ||
     (t.elem && u.kind == .store && t.meets u))

/-- An access resolves its address: its touches are recorded, and `none` is lsn-conflict (R263). -/
def Flight.touchAll (fl : Flight) (ts : List Touch) : Option Flight :=
  if ts.any (fun t => fl.touch.any fun u => t.conflicts u || u.conflicts t) then none
  else some { fl with touch := fl.touch ++ ts }

/-- An acquire of scope COPSE or wider invalidates the context's L1 sectors when it fires (R58), and again when its value
has come (`State.acquired`). -/
def State.acquire (s : State) (is : Iss) (p : BitVec 32) : State :=
  if polAcq p && 2 ≤ polScope p then s.modCore is.c (·.l1Invalidate is.ctx) else s

/-- The scope of an access that acquires. -/
def Iss.acqScope (is : Iss) : Option Nat := if polAcq is.pol then some (polScope is.pol) else none

/-- A request of the issuing access; it is stamped anew when it leaves the core. -/
def State.requestOf (s : State) (is : Iss) (off va pa kid : Nat) (acc : Access) (blockp : Word) : Req :=
  { agent := is.agent, tag := { core := is.c, slot := is.k, run := is.fl.run, lsn := is.lsnN, off := off },
    ctx := is.ctx, kid := kid, pa := pa, va := va, acc := acc, sent := s.now,
    install := sealedTier pa && !polNoalloc is.pol, epoch := (s.core is.c).epoch is.ctx, pol := is.pol,
    retry := is.fl.retry, blockp := blockp }

/-- A load request joins the core's requests, to leave behind queued writes of its sector (R111). -/
def State.addLoad (s : State) (c : Nat) (r : Req) : State :=
  let p := s.reqPkt r
  s.modCore c fun k => { k with loads := k.loads ++ [p] }

/-! ### Loads (R262, R263, R265 to R269) -/

/-- Fetch one part of a load: pad bytes, the core's own scratchpad, the L1, or a request to the home, which behind a fence mark
of its slot serves it in any case (R92, R108). -/
def State.fetchPart (s : State) (is : Iss) (va : Nat) (blockp : Word) (p : Part) : State × Except TrapRec (List (Option Byte)) :=
  match p.at_ with
  | .pad bs => (s, .ok (bs.map some))
  | .mem pa kid =>
    let r := s.requestOf is p.off (va + p.off) pa kid (.read p.n) blockp
    let here := s.homeOf pa == .scratch is.c
    let fenced := (s.slot is.c is.k).fenced
    let atHome := fenced || (polAcq is.pol && 2 ≤ polScope is.pol)
    if here && !fenced && !(s.reserved pa p.n) && !(s.writeAhead is.c (pa / 128)) && !(s.slotAhead is.c is.k pa p.n) then
      match s.readFault r p.n with
      | some t => (s, .error t)
      | none => (s.fixIn pa p.n, .ok ((s.homeBytes pa p.n).map some))
    else match if atHome then none else (s.core is.c).l1Sector pa with
      | some x => (s.modCore is.c fun k => (k.l1Fix pa).l1Touch pa, .ok (((x.data.drop (pa % 128)).take p.n).map some))
      | none => (s.addLoad is.c r, .ok (List.replicate p.n none))

/-- Fetch the parts of a load into its waiting bytes. -/
def State.fetchParts (s : State) (is : Iss) (va : Nat) (blockp : Word) (got : List (Option Byte)) :
    List Part → State × Except TrapRec (List (Option Byte))
  | [] => (s, .ok got)
  | p :: rest =>
    match s.fetchPart is va blockp p with
    | (s, .error t) => (s, .error t)
    | (s, .ok bs) =>
      let merged := (bs.zip ((got.drop p.off).take p.n)).map fun (b, g) => if g.isSome then g else b
      s.fetchParts is va blockp (got.take p.off ++ merged ++ got.drop (p.off + p.n)) rest

/-- Fire a load-kind access of one range: checks, bytes, and the token when they are there.  `init` holds the bytes that
are not read from memory, `wide` is an access that travels by sector. -/
def State.loadFire (s : State) (is : Iss) (va : Nat) (init : List (Option Byte)) (sh : Shape) (elem wide : Bool)
    (blockp : Word) : State :=
  let want := init.map Option.isNone
  match s.checkParts is.xer is.ctx is.priv va want true false (splitAt16 va init.length) with
  | (s, .error e) => s.accessTrap is e blockp
  | (s, .ok ps) =>
    let touch : Touch := { lsn := is.lsnN, kind := .load, va := va, elem := elem,
                           bytes := want.map fun w => if w then some 0 else none }
    match is.fl.touchAll [touch] with
    | none => s.trapAt is .lsnConflict
    | some fl =>
      let s := s.acquire is is.pol
      match s.fetchParts is va blockp init (if wide then joinParts ps else ps) with
      | (s, .error t) => s.recTrap is t
      | (s, .ok got) =>
        let h : Held := { lsn := is.lsnN, pos := is.pos, kind := .load sh, va := va, got := got, acq := is.acqScope }
        s.settle is.c is.k (some { fl.fired is.pos with held := fl.held ++ [h] })

/-- An address-form load of `n` bytes (R265, R267). -/
def loadAt (i : Instr) (s : State) (n : Nat) (sh : Shape) (align : Bool) : Out :=
  issue i s fun is s =>
    if !(polOk is.policy true false false) then .next (s.trapAt is .badPolicy)
    else if align && is.addr % 16 != 0 then .next (s.blockFault is .misalignedAccess (coverWord is.addr n))
    else .next (s.loadFire is is.addr (List.replicate n none) sh false align (coverWord is.addr n))

/-- Bytes and result of an LD form (R265). -/
def ldBytes : LdForm → Nat
  | .b | .bu => 1
  | .h | .hu => 2
  | .w | .wu => 4
  | .d => 8
  | .q => 16

def ldShape : LdForm → Shape
  | .b => .sext 1
  | .bu => .zext 1
  | .h => .sext 2
  | .hu => .zext 2
  | .w => .sext 4
  | .wu => .zext 4
  | .d => .zext 8
  | .q => .vec (lowMask 16)

/-- The follow owner of a physical address (R166). -/
def State.followOwner (s : State) (pa : Nat) : Option Nat :=
  match s.homeOf pa with
  | .slice c => if pa < localBase then some (8 * c + nbits pa 23 3) else none
  | .scratch c => some c
  | _ => none

/-- The follow owner of a load's first byte, where another core is it and the thread is a burr that has not followed
(R166, R268). -/
def State.followsTo (s : State) (is : Iss) : Option Nat :=
  if is.burr && !is.th.fw then
    match s.xlate is.xer is.ctx (is.addr % 2 ^ 56) with
    | (s, .ok l) => if l.kind == 2 then none else
        match s.followOwner (s.leafPa l is.addr) with
        | some o => if o != is.c then some o else none
        | none => none
    | (_, .error _) => none
  else none

/-! ### Stores (R262, R266, R267) -/

/-- The pieces of a store that write a byte. -/
def storePieces (va : Nat) (bytes : List (Option Byte)) (ps : List Part) : List Piece :=
  ps.filterMap fun p =>
    match p.at_ with
    | .mem pa kid =>
      let bs := (bytes.drop p.off).take p.n
      if bs.any Option.isSome then some ⟨va + p.off, pa, kid, bs⟩ else none
    | .pad _ => none

/-- A lower-LSN store of the sheaf replaces the whole 64-bit word at a virtual address (R74, R76). -/
def Flight.replaces (fl : Flight) (lsn va : Nat) : Bool :=
  fl.touch.any fun t => t.kind == .store && t.lsn < lsn && (List.range 8).all fun i => t.has (va / 8 * 8 + i)

/-- The first byte of a store's pieces that meets an uncorrectable error: a write of part of its word (R74), met before
commit, is a precise fault (R280).  A word that an earlier write of the slot replaces is none (R76). -/
def State.badPiece (s : State) (is : Iss) (ps : List Piece) : Option Nat :=
  ps.findSome? fun p => ((s.badWrites p.pa p.bytes).find? fun o =>
    !(s.replacedAhead is.c is.k (p.pa + o)) && !(is.fl.replaces is.lsnN (p.va + o))).map fun o => p.va + o

/-- Fire a store-kind access: `want` says which bytes are checked, `bytes` which are written. -/
def State.storeFire (s : State) (is : Iss) (va : Nat) (want : List Bool) (bytes : List (Option Byte)) (elem wide : Bool)
    (blockp : Word) : State :=
  match s.checkParts is.xer is.ctx is.priv va want false true (splitAt16 va want.length) with
  | (s, .error e) => s.accessTrap is e blockp
  | (s, .ok ps) =>
    match is.fl.touchAll [{ lsn := is.lsnN, kind := .store, va := va, bytes := bytes, elem := elem, wr := true }] with
    | none => s.trapAt is .lsnConflict
    | some fl =>
      let pieces := storePieces va bytes (if wide then joinParts ps else ps)
      match s.badPiece is pieces with
      | some a => s.recTrap is (writeTrap .uncorrectableData a blockp false)
      | none =>
        s.settle is.c is.k (some { fl.fired is.pos with due := fl.due ++ [⟨is.lsn, is.pos, .store pieces is.pol blockp⟩] })

/-- The valid bytes of a vector token among its first `n`. -/
def vecValid (n : Nat) (t : Tok) : List (Option Byte) :=
  match t with
  | .ve d m => (List.range n).map fun i => if m.getLsbD i then some (d.extractLsb' (8 * i) 8) else none
  | _ => List.replicate n none

/-- The low `n` bytes of a scalar. -/
def scalarBytes (n : Nat) (w : Word) : List (Option Byte) := (toBytes n w.toNat).map some

/-- An address-form store of `n` bytes. -/
def storeAt (i : Instr) (s : State) (n : Nat) (data : Iss → List (Option Byte)) (align : Bool) : Out :=
  issue i s fun is s =>
    if !(polOk is.policy false true false) then .next (s.trapAt is .badPolicy)
    else if align && is.addr % 16 != 0 then .next (s.blockFault is .misalignedAccess (coverWord is.addr n))
    else .next (s.storeFire is is.addr (List.replicate n true) (data is) false align (coverWord is.addr n))

/-! ### Quadrant forms (R269) -/

/-- The block of a QLD or QST: address, and for each byte whether an in-extent element holds it and its pad byte. -/
structure QBlock where
  va   : Nat
  want : List Bool
  pads : List Byte
  deriving DecidableEq, Repr

/-- log4 of a block size of 1, 4, 16 or 64. -/
def log4 (n : Nat) : Nat := Nat.log2 n / 2

/-- The block of an element form through a descriptor (R269). -/
def elemQBlock (t : Tensor) (d p : Nat) : Except Cause QBlock :=
  let size := blockSize d
  if (t.s != 1 && t.s != 4) || size < t.s then .error .badDepth
  else
    let q := log4 (size / t.s)
    if t.m < q then .error .badDepth
    else if 4 ^ (t.m - q) ≤ p then .error .badPath
    else
      let n := size / t.s
      .ok { va := t.base + p * size,
            want := (List.range size).map fun i => t.insideIdx (p * n + i / t.s),
            pads := (List.range size).map fun i => (t.padBytes[i % t.s]?).getD 0 }

/-- A descriptor read must wait: a write of the core to its bytes is under way, and would be passed (R25, R108, R111), or
its home makes it wait (R64, R139). DEDUCED, log 122. -/
def State.descHeld (s : State) (c k ctx : Nat) (priv : Bool) (va n : Nat) : Bool :=
  (s.slot c k).fenced || match s.checkBytes (.core c) ctx priv va n true false with
  | (s, .ok ps) => ps.any fun p => match p.at_ with
    | .mem pa _ => s.writeAhead c (pa / 128) || s.busyAt pa p.n || !(s.slot c k).wakes.isEmpty
    | .pad _ => false
  | (_, .error _) => false

/-- The tensor descriptor at the left operand must wait. -/
def tensorWaits (is : Iss) (s : State) : Bool := s.descHeld is.c is.k is.ctx is.priv is.lw.toNat 32

/-- Read a tensor descriptor at its home, once (R25): the record of a failed read, or bad-descriptor, which an address that is
not a multiple of 32 raises too, after the read's own checks (DEDUCED, log 47). -/
def State.readTensor (s : State) (is : Iss) (va : Nat) : State × Except TrapRec Tensor :=
  match s.readVa is.xer is.agent is.ctx is.priv va 32 (coverWord va 32) with
  | (s, .error r) => (s, .error r)
  | (s, .ok bs) => match tensorOf (wordsFrom 4 bs) with
    | some t => if va % 32 == 0 then (s, .ok t) else (s, .error { cause := .badDescriptor })
    | none => (s, .error { cause := .badDescriptor })

/-- A record of a byte-form block's fault (R10): TBLOCKP names the operand block (R264). -/
def blockTrap (c : Cause) (b p : Word) (d : Nat) : TrapRec :=
  let a := b.toNat + p.toNat * blockSize d
  { cause := c, addr := if c == .nonCanonicalAddress then some (blockWord 4 a) else none, blockp := some (blockWord d a) }

/-- The operand block of a QLD or QST. -/
def State.qblock (s : State) (is : Iss) (d : Nat) (elem : Bool) : State × Except TrapRec QBlock :=
  if elem then
    match s.readTensor is is.lw.toNat with
    | (s, .error r) => (s, .error r)
    | (s, .ok t) => match elemQBlock t d is.xw.toNat with
      | .error c => (s, .error { cause := c, blockp := some (blockWord d (t.base + is.xw.toNat * blockSize d)) })
      | .ok q => (s, .ok q)
  else match byteBlock is.lw is.xw d with
    | .error c => (s, .error (blockTrap c is.lw is.xw d))
    | .ok a => (s, .ok { va := a, want := List.replicate (blockSize d) true, pads := List.replicate (blockSize d) 0 })

/-- Depth and mode of a DEP prefix. -/
def depthOf (f : Form) : Nat := match f.dep with | some (d, _) => d.toNat | none => 32
def elemModeOf (f : Form) : Bool := match f.dep with | some (_, m) => m == 1 | none => false

/-- QLD (R269): pads come from the descriptor, the other bytes from memory. -/
def State.qldFire (s : State) (is : Iss) (q : QBlock) (d : Nat) (elem : Bool) : State :=
  let init := (q.want.zip q.pads).map fun (w, p) => if w then none else some p
  let sh := if 31 ≤ d then Shape.zext (blockSize d) else Shape.vec (lowMask (blockSize d))
  s.loadFire is q.va init sh elem true (blockWord d q.va)

/-- QST (R269): pad elements are discarded. -/
def State.qstFire (s : State) (is : Iss) (q : QBlock) (d : Nat) (elem : Bool) : State :=
  let data := match is.r with
    | .ve .. => vecValid (blockSize d) is.r
    | _ => scalarBytes (blockSize d) is.rw_
  let bytes := (q.want.zip data).map fun (w, b) => if w then b else none
  s.storeFire is q.va q.want bytes elem true (blockWord d q.va)

/-! ### Atomics and reductions (R270, R271) -/

/-- The physical place of a one-granule access that reads and writes; HOLE pages have failed before. -/
def onlyPlace (ps : List Part) : Nat × Nat :=
  match ps with
  | [⟨_, _, .mem pa kid⟩] => (pa, kid)
  | _ => (0, 0)

/-- An AM* or RED* may not name an instruction store or the host window (R137, R142). -/
def State.atomicHome (s : State) (pa : Nat) : Bool :=
  match s.homeOf pa with
  | .istore _ | .host _ => false
  | _ => true

/-- Size of a `.w` or `.d` form (R270). -/
def wordSize (f : Form) : Nat := if f.sub == 1 then 8 else 4

/-- The checks that AM* and RED* share: policy, alignment, R36 as a read and a write, target; then the body with the
physical place and the flight that has recorded the access. -/
def rmwAt (i : Instr) (s : State) (n : Nat) (acq : Bool) (kind : TouchKind)
    (body : Iss → State → Flight → Nat → Nat → State) : Out :=
  issue i s fun is s =>
    let a := is.lw.toNat
    if !(polOk is.policy acq true acq) then .next (s.trapAt is .badPolicy)
    else if a % n != 0 then .next (s.blockFault is .misalignedAtomic (coverWord a n))
    else match s.checkBytes is.xer is.ctx is.priv a n true true with
      | (s, .error e) => .next (s.accessTrap is e (coverWord a n))
      | (s, .ok ps) =>
        let (pa, kid) := onlyPlace ps
        if !(s.atomicHome pa) then .next (s.blockFault is .atomicTarget (coverWord a n))
        else match is.fl.touchAll [{ lsn := is.lsnN, kind := kind, va := a, bytes := List.replicate n (some 0), wr := true }] with
          | none => .next (s.trapAt is .lsnConflict)
          | some fl => .next (body is s fl pa kid)

/-- AM*: a reservation is asked for; its release is due at commit (R138). -/
def atomicAt (i : Instr) (s : State) (op : RmwOp) (n : Nat) : Out :=
  rmwAt i s n true .atomic fun is s fl pa kid =>
    let a := is.lw.toNat
    let s := (s.acquire is is.pol).modCore is.c (·.l1Drop pa)
    let s := s.addLoad is.c (s.requestOf is 0 a pa kid (.reserve n) (coverWord a n))
    let h : Held := { lsn := is.lsnN, pos := is.pos, kind := .atomic op n (pa % 16) is.rw_ is.xw, va := a,
                      got := List.replicate n none, acq := is.acqScope, home := some (pa / 16), kid := kid, vpn := a / 4096 }
    s.settle is.c is.k (some { fl.fired is.pos with
      held := fl.held ++ [h], due := fl.due ++ [⟨is.lsn, is.pos, .amRelease is.lsnN is.pol⟩] })

/-- RED*: sent at commit (R271); an uncorrectable word is met when it fires (R280). -/
def reduceAt (i : Instr) (s : State) (op : RmwOp) (n : Nat) : Out :=
  rmwAt i s n false .red fun is s fl pa kid =>
    let a := is.lw.toNat
    if s.lost pa n && !(s.replacedAhead is.c is.k pa) && !(fl.replaces is.lsnN a) then s.recTrap is (writeTrap .uncorrectableData a (coverWord a n) false)
    else
    let act := Act.red op n is.rw_ ⟨a, pa, kid, List.replicate n (some 0)⟩ is.pol (coverWord a n)
    s.settle is.c is.k (some { fl.fired is.pos with due := fl.due ++ [⟨is.lsn, is.pos, act⟩] })

/-! ### Gathers (R143, R146, R272) -/

/-- What a gather makes of its indices: waiting bytes, touches, elements to read with their key ids, or a record. -/
structure GathPlan where
  got   : List (Option Byte)
  touch : List Touch := []
  els   : List (Nat × Nat × Nat × Nat × Nat) := []      -- offset, physical address, size, key id, virtual address
  deriving DecidableEq, Repr

/-- Put bytes into a list of 64 waiting bytes. -/
def placeBytes (got : List (Option Byte)) (off : Nat) (bs : List (Option Byte)) : List (Option Byte) :=
  got.take off ++ bs ++ got.drop (off + bs.length)

/-- A gather's index-range fault: TBLOCKP names the failing element, where the tensor's order gives it an address (R264). -/
def gathRange (t : Tensor) (row : Int) (col : Nat) : TrapRec :=
  { cause := .indexRange, blockp := if row < 0 then none else some (coverWord (t.addr row.toNat col) t.s) }

/-- The used indices one by one (R272). -/
def State.gathPlan (s : State) (is : Iss) (t : Tensor) (col : Nat) (plan : GathPlan) :
    List (Nat × Option Int) → State × Except TrapRec GathPlan
  | [] => (s, .ok plan)
  | (_, none) :: rest => s.gathPlan is t col plan rest
  | (j, some row) :: rest =>
    if t.cols ≤ col then (s, .error (gathRange t row col))
    else if row < 0 || (t.rows : Int) ≤ row then
      if t.skip then s.gathPlan is t col { plan with got := placeBytes plan.got (j * t.s) (t.padBytes.map some) } rest
      else (s, .error (gathRange t row col))
    else
      let va := t.addr row.toNat col
      match s.checkBytes is.xer is.ctx is.priv va t.s true false with
      | (s, .error e) => (s, .error (xfailRec e (coverWord va t.s)))
      | (s, .ok ps) =>
        let touch : Touch := { lsn := is.lsnN, kind := .gath, va := va, bytes := List.replicate t.s (some 0) }
        let plan := match ps with
          | [⟨_, _, .mem pa kid⟩] =>
            { plan with got := placeBytes plan.got (j * t.s) (List.replicate t.s none), touch := plan.touch ++ [touch],
                        els := plan.els ++ [(j * t.s, pa, t.s, kid, va)] }
          | [⟨_, _, .pad bs⟩] =>
            { plan with got := placeBytes plan.got (j * t.s) (bs.map some), touch := plan.touch ++ [touch] }
          | _ => plan
        s.gathPlan is t col plan rest

/-- The requests of a gather: one to each home, with its elements in ascending position (R143). DEDUCED, log 26. -/
def State.gathSend (s : State) (is : Iss) (els : List (Nat × Nat × Nat × Nat × Nat)) : State :=
  let keys := (els.map fun e => (homeKey (s.homeOf e.2.1), e.2.2.2.1)).eraseDups
  keys.foldl (fun s (h, kid) =>
    let mine := els.filter fun e => homeKey (s.homeOf e.2.1) == h && e.2.2.2.1 == kid
    match mine with
    | [] => s
    | (o, pa, n, _, va) :: _ =>
      s.addLoad is.c { s.requestOf is o va pa kid (.gath (mine.map fun e => (e.1, e.2.1, e.2.2.1, e.2.2.2.2))) (coverWord va n) with
                       install := false }) s

/-- Index j of the vector operand, when its byte 4j is valid. -/
def gathIndex (t : Tok) (j : Nat) : Option Int :=
  match t with
  | .ve d m => if m.getLsbD (4 * j) then some (signed 32 (nbits d.toNat (32 * j) 32)) else none
  | _ => none

def State.gathFire (s : State) (is : Iss) (t : Tensor) : State :=
  let n := min 16 (64 / t.s)
  let idx := (List.range n).map fun j => (j, gathIndex is.r j)
  if idx.all fun p => p.2.isNone then s.emit is .null
  else
    match s.gathPlan is t is.xw.toNat { got := List.replicate 64 (some 0) } idx with
    | (s, .error r) => s.recTrap is r
    | (s, .ok plan) =>
      match is.fl.touchAll plan.touch with
      | none => s.trapAt is .lsnConflict
      | some fl =>
        let mask := elemMask t.s (idx.map fun p => p.2.isSome)
        let s := (s.acquire is is.pol).gathSend is plan.els
        let h : Held := { lsn := is.lsnN, pos := is.pos, kind := .gath mask, va := 0, got := plan.got, acq := is.acqScope }
        s.settle is.c is.k (some { fl.fired is.pos with held := fl.held ++ [h] })

/-! ### Fences (R148, R273, R274) -/

/-- The slot's UCNT is zero, and no store to the own scratchpad has still to be performed. -/
def State.quiet (s : State) (c k : Nat) : Bool := (s.slot c k).allDone

/-- No operation of the slot that a FENCE of scope DEVICE waits for is under way (R273). -/
def State.opsDone (s : State) (c k : Nat) : Bool := s.ops.all fun o => !(o.core == c && o.slot == k)

/-- A drain request: for each gateway, how many back-invalidations it has queued up to now (R117). -/
def State.drainRequest (s : State) : List (Nat × Nat) := s.gws.map fun g => (g.1, g.2.biDone + g.2.biq.length)

/-- Every gateway has answered a drain request: the host has completed what it had queued before. -/
def State.drainAnswered (s : State) (d : List (Nat × Nat)) : Bool := d.all fun (g, n) => n ≤ (s.gw g).biDone

/-- A FENCE waits (R273): at SYSTEM scope also for the answers to its drain request. -/
def fenceWaits (is : Iss) (s : State) : Bool :=
  let scope := is.f.sub.toNat
  !(s.quiet is.c is.k) || (4 ≤ scope && !(s.opsDone is.c is.k)) ||
    (scope == 5 && (s.slot is.c is.k).drain.any fun d => !(s.drainAnswered d))

/-- The paths of an XFENCE (R274). -/
def xfFirst (f : Form) : Nat := nbits f.sub.toNat 3 3
def xfSecond (f : Form) : Nat := nbits f.sub.toNat 0 3

def xfenceWaits (is : Iss) (s : State) : Bool :=
  !(s.quiet is.c is.k) || (xfFirst is.f == xfSecond is.f && !(s.opsDone is.c is.k))

/-- How far a port's pointer stands ahead of the words of its buffer from a place on: a word whose access failed has not
moved it. -/
def Port.ahead (p : Port) (from_ : Nat) : Nat := (p.buf.drop from_).countP Option.isSome

/-- Discard the words a fill-bound port holds that the sheaf has not read, to be fetched again, a failed one too (R148).
DEDUCED, log 50. -/
def Port.refetch (p : Port) (read : Nat) : Port :=
  if p.mode == .fill then
    { p with buf := p.buf.take read, pos := p.pos - p.ahead read,
             err := if (p.buf.drop read).any Option.isNone then none else p.err }
  else p

def refetchPorts (fl : Flight) (t : Thread) : Thread :=
  { t with ports := t.ports.map fun (n, p) =>
      (n, p.refetch (match fl.rnread.find? fun e => e.1 == n with | some e => e.2 | none => 0)) }

/-! ### Guard changes (R43, R279) -/

/-- The granules of a block, page by page upward, as (sector, granule mask, address); the first failing page is an error; HOLE
pages are skipped. -/
def State.protbPages (s : State) (is : Iss) (lo hi : Nat) : Nat → State × Except (XFail × Nat) (List (Nat × Nat × Nat))
  | 0 => (s, .ok [])
  | n + 1 =>
    if hi ≤ lo then (s, .ok [])
    else match s.checkPage is.xer is.ctx is.priv lo false false with
      | (s, .error e) => (s, .error (e, lo))
      | (s, .ok l) =>
        let stop := min hi (l.base + blockSize l.depth)
        let here := if l.kind == 2 then []
          else (List.range ((stop - lo + 127) / 128)).map fun i =>
            let va := lo / 128 * 128 + 128 * i
            let first := (max lo va - va) / 16
            let last := (min stop (va + 128) - va + 15) / 16
            (s.leafPa l (max lo va) / 128, 2 ^ last - 2 ^ first, max lo va)
        match State.protbPages s is stop hi n with
        | (s, .ok rest) => (s, .ok (here ++ rest))
        | r => r

/-! ### Meanings -/

def execLdB (f : Form) (s : State) : Out := loadAt (.ldB f) s 1 (.sext 1) false
def execLdBu (f : Form) (s : State) : Out := loadAt (.ldBu f) s 1 (.zext 1) false
def execLdH (f : Form) (s : State) : Out := loadAt (.ldH f) s 2 (.sext 2) false
def execLdHu (f : Form) (s : State) : Out := loadAt (.ldHu f) s 2 (.zext 2) false
def execLdW (f : Form) (s : State) : Out := loadAt (.ldW f) s 4 (.sext 4) false
def execLdWu (f : Form) (s : State) : Out := loadAt (.ldWu f) s 4 (.zext 4) false
def execLdD (f : Form) (s : State) : Out := loadAt (.ldD f) s 8 (.zext 8) false
def execLdQ (f : Form) (s : State) : Out := loadAt (.ldQ f) s 16 (.vec (lowMask 16)) false
def execLdv (f : Form) (s : State) : Out := loadAt (.ldv f) s 64 (.vec (lowMask 64)) true

/-- LDF (R268): an LD that also records where a burr follows to (R166). -/
def execLdf (k : LdForm) (f : Form) (s : State) : Out :=
  issue (.ldf k f) s fun is s =>
    if !(polOk is.policy true false false) then .next (s.trapAt is .badPolicy)
    else
      let owner := s.followsTo is
      let s := s.loadFire is is.addr (List.replicate (ldBytes k) none) (ldShape k) false false (coverWord is.addr (ldBytes k))
      .next (match owner with
        | some o => s.modFlight is.c is.k fun fl => { fl with follow := fl.follow ++ [(is.lsnN, o)] }
        | none => s)

def execStB (f : Form) (s : State) : Out := storeAt (.stB f) s 1 (fun is => scalarBytes 1 is.rw_) false
def execStH (f : Form) (s : State) : Out := storeAt (.stH f) s 2 (fun is => scalarBytes 2 is.rw_) false
def execStW (f : Form) (s : State) : Out := storeAt (.stW f) s 4 (fun is => scalarBytes 4 is.rw_) false
def execStD (f : Form) (s : State) : Out := storeAt (.stD f) s 8 (fun is => scalarBytes 8 is.rw_) false
def execStQ (f : Form) (s : State) : Out := storeAt (.stQ f) s 16 (fun is => vecValid 16 is.r) false
def execStv (f : Form) (s : State) : Out := storeAt (.stv f) s 64 (fun is => vecValid 64 is.r) true

def execQld (f : Form) (s : State) : Out :=
  issueWhen (.qld f) s (fun is s => elemModeOf f && tensorWaits is s) fun is s =>
    if !(polOk is.policy true false false) then .next (s.trapAt is .badPolicy)
    else match s.qblock is (depthOf f) (elemModeOf f) with
      | (s, .error r) => .next (s.recTrap is r)
      | (s, .ok q) => .next (s.qldFire is q (depthOf f) (elemModeOf f))

def execQst (f : Form) (s : State) : Out :=
  issueWhen (.qst f) s (fun is s => elemModeOf f && tensorWaits is s) fun is s =>
    if !(polOk is.policy false true false) then .next (s.trapAt is .badPolicy)
    else match s.qblock is (depthOf f) (elemModeOf f) with
      | (s, .error r) => .next (s.recTrap is r)
      | (s, .ok q) => .next (s.qstFire is q (depthOf f) (elemModeOf f))

def execAmadd (f : Form) (s : State) : Out := atomicAt (.amadd f) s .add (wordSize f)
def execAmand (f : Form) (s : State) : Out := atomicAt (.amand f) s .and (wordSize f)
def execAmor (f : Form) (s : State) : Out := atomicAt (.amor f) s .or (wordSize f)
def execAmxor (f : Form) (s : State) : Out := atomicAt (.amxor f) s .xor (wordSize f)
def execAmmin (f : Form) (s : State) : Out := atomicAt (.ammin f) s .min (wordSize f)
def execAmmax (f : Form) (s : State) : Out := atomicAt (.ammax f) s .max (wordSize f)
def execAmminu (f : Form) (s : State) : Out := atomicAt (.amminu f) s .minu (wordSize f)
def execAmmaxu (f : Form) (s : State) : Out := atomicAt (.ammaxu f) s .maxu (wordSize f)
def execAmswap (f : Form) (s : State) : Out := atomicAt (.amswap f) s .swap (wordSize f)
def execAmcas (f : Form) (s : State) : Out := atomicAt (.amcas f) s .cas (wordSize f)
def execAmaddf (f : Form) (s : State) : Out := atomicAt (.amaddf f) s .addf 4

def execRedadd (f : Form) (s : State) : Out := reduceAt (.redadd f) s .add (wordSize f)
def execRedmin (f : Form) (s : State) : Out := reduceAt (.redmin f) s .min (wordSize f)
def execRedmax (f : Form) (s : State) : Out := reduceAt (.redmax f) s .max (wordSize f)
def execRedand (f : Form) (s : State) : Out := reduceAt (.redand f) s .and (wordSize f)
def execRedor (f : Form) (s : State) : Out := reduceAt (.redor f) s .or (wordSize f)
def execRedxor (f : Form) (s : State) : Out := reduceAt (.redxor f) s .xor (wordSize f)
def execRedaddf (f : Form) (s : State) : Out := reduceAt (.redaddf f) s .addf 4

def execGath (f : Form) (s : State) : Out :=
  issueWhen (.gath f) s tensorWaits fun is s =>
    if !(polOk is.policy true false false) then .next (s.trapAt is .badPolicy)
    else match s.readTensor is is.lw.toNat with
      | (s, .error r) => .next (s.recTrap is r)
      | (s, .ok t) => .next (s.gathFire is t)

def execFence (f : Form) (s : State) : Out :=
  issueWhen (.fence f) s fenceWaits fun is s =>
    let asked := (s.slot is.c is.k).drain.getD s.drainRequest
    if f.sub == 5 && !(s.drainAnswered asked) then .next (s.modSlot is.c is.k fun x => { x with drain := some asked })
    else
      let s := if 2 ≤ f.sub.toNat then s.modCore is.c (·.l1Invalidate is.ctx) else s
      .next ((s.modSlot is.c is.k fun x => { x with drain := none }).fireDue is (.fence (f.sub == 5) (2 ≤ f.sub.toNat)))

def execXfence (f : Form) (s : State) : Out :=
  issueWhen (.xfence f) s xfenceWaits fun is s =>
    let s := if xfSecond f == 0 || xfFirst f == xfSecond f then s.modCore is.c (·.l1Invalidate is.ctx) else s
    let s := if xfSecond f == 3 then s.modThread is.c is.k (refetchPorts is.fl) else s
    .next (s.fireDue is (.fence false (xfSecond f == 0 || xfFirst f == xfSecond f)))

/-- The 8-byte word that WATCH and UNWATCH name, in the issuing core's own scratchpad (R276). -/
def watchAt (i : Instr) (s : State) (act : Nat → Act) : Out :=
  issue i s fun is s =>
    let a := is.lw.toNat
    if a % 8 != 0 then .next (s.blockFault is .watchTarget (coverWord a 8))
    else match s.checkBytes is.xer is.ctx is.priv a 8 true false with
      | (s, .error e) => .next (s.accessTrap is e (coverWord a 8))
      | (s, .ok ps) =>
        match ps with
        | [⟨_, _, .mem pa _⟩] =>
          if s.homeOf pa == .scratch is.c then .next (s.fireDue is (act ((pa - scratchBase is.c) / 8)))
          else .next (s.blockFault is .watchTarget (coverWord a 8))
        | _ => .next (s.blockFault is .watchTarget (coverWord a 8))

def execWatch (f : Form) (s : State) : Out := watchAt (.watch f) s .watch
def execUnwatch (f : Form) (s : State) : Out := watchAt (.unwatch f) s .unwatch

def execStw (f : Form) (s : State) : Out :=
  issue (.stw f) s fun is s =>
    let a := is.lw.toNat
    if !(polOk is.policy false true false) then .next (s.trapAt is .badPolicy)
    else if a % 8 != 0 then .next (s.blockFault is .stwTarget (coverWord a 8))
    else match s.checkBytes is.xer is.ctx is.priv a 8 false true with
      | (s, .error e) => .next (s.accessTrap is e (coverWord a 8))
      | (s, .ok ps) =>
        match ps with
        | [⟨_, _, .mem pa kid⟩] =>
          match s.homeOf pa, is.fl.touchAll [{ lsn := is.lsnN, kind := .store, va := a, bytes := scalarBytes 8 is.rw_, wr := true }] with
          | .scratch _, some fl =>
            let act := Act.stw ⟨a, pa, kid, scalarBytes 8 is.rw_⟩ is.pol (coverWord a 8)
            .next (s.settle is.c is.k (some { fl.fired is.pos with due := fl.due ++ [⟨is.lsn, is.pos, act⟩] }))
          | .scratch _, none => .next (s.trapAt is .lsnConflict)
          | _, _ => .next (s.blockFault is .stwTarget (coverWord a 8))
        | _ => .next (s.blockFault is .stwTarget (coverWord a 8))

/-- A block of depth 0 to 3 raises non-canonical-address before its alignment is looked at. DEDUCED, log 31. -/
def execProtb (f : Form) (s : State) : Out :=
  issue (.protb f) s fun is s =>
    let d := depthOf f
    if d < 4 then .next (s.recTrap is (blockTrap .nonCanonicalAddress is.lw is.xw d))
    else if 31 ≤ d then .next (s.recTrap is (blockTrap .badDepth is.lw is.xw d))
    else match byteBlock is.lw is.xw d with
      | .error c => .next (s.recTrap is (blockTrap c is.lw is.xw d))
      | .ok a =>
        if field is.rw_ 3 61 != 0 || field is.rw_ 0 2 == 3 then .next (s.recTrap is (blockTrap .badControlValue is.lw is.xw d))
        else if is.rw_.getLsbD 2 && !is.priv then .next (s.recTrap is (blockTrap .privilege is.lw is.xw d))
        else match s.protbPages is a (a + blockSize d) (blockSize d / 16) with
          | (s, .error e) => .next (s.accessTrap is e (blockWord d a))
          | (s, .ok grans) => .next (s.fireDue is (.protb grans (is.rw_.getLsbD 2) (is.rw_.extractLsb' 0 2)))

end Sys2Proof.Machine
end

