-- ==== Sys2Proof/Machine/CopyEng.lean ====
section
/-!
DEFINITION. Copies (R323 to R331): the checks of a descriptor, the walk in L order, runs, suspension and resumption, and
fabric reductions (R435).
-/
namespace Sys2Proof.Machine
open Sys2Proof

/-! ### The descriptor's fields (R324) -/

def CopyDesc.w (d : CopyDesc) (i : Nat) : Word := (d.hdr[i]?).getD 0
def CopyDesc.srcBase (d : CopyDesc) : Nat := field (d.w 0) 0 56
def CopyDesc.dstBase (d : CopyDesc) : Nat := field (d.w 1) 0 56
def CopyDesc.idxBase (d : CopyDesc) : Nat := field (d.w 2) 0 56
def CopyDesc.ndim (d : CopyDesc) : Nat := field (d.w 4) 60 4
def CopyDesc.opc (d : CopyDesc) : Nat := field (d.w 4) 57 3
def CopyDesc.size (d : CopyDesc) : Nat := 2 ^ field (d.w 4) 55 2
def CopyDesc.afmt (d : CopyDesc) : Nat := field (d.w 4) 49 6
def CopyDesc.idxo (d : CopyDesc) : Nat := field (d.w 4) 47 2
def CopyDesc.rblk (d : CopyDesc) : Bool := (d.w 4).getLsbD 46
def CopyDesc.stm (d : CopyDesc) : Bool := (d.w 4).getLsbD 45
def CopyDesc.dtm (d : CopyDesc) : Bool := (d.w 4).getLsbD 44
def CopyDesc.idim (d : CopyDesc) : Nat := field (d.w 4) 40 4
def CopyDesc.stile (d : CopyDesc) : Nat := field (d.w 4) 34 6
def CopyDesc.pol (d : CopyDesc) : BitVec 32 := (d.w 4).extractLsb' 0 32
def CopyDesc.srow (d : CopyDesc) : Nat := field (d.w 5) 32 32
def CopyDesc.scol (d : CopyDesc) : Nat := field (d.w 5) 0 32
def CopyDesc.drow (d : CopyDesc) : Nat := field (d.w 6) 32 32
def CopyDesc.dcol (d : CopyDesc) : Nat := field (d.w 6) 0 32
def CopyDesc.iext (d : CopyDesc) : Nat := field (d.w 7) 0 32
def CopyDesc.exts (d : CopyDesc) : List Nat := d.dims.map fun x => field x.1 0 32
def CopyDesc.dmap (d : CopyDesc) : List Nat := d.dims.map fun x => field x.1 32 4
def CopyDesc.sstr (d : CopyDesc) : List Int := d.dims.map fun x => x.2.1.toInt
def CopyDesc.dstr (d : CopyDesc) : List Int := d.dims.map fun x => x.2.2.toInt
def CopyDesc.stens (d : CopyDesc) : Option Tensor := if d.stm then tensorOf d.src else none
def CopyDesc.dtens (d : CopyDesc) : Option Tensor := if d.dtm then tensorOf d.dst else none
def CopyDesc.total (d : CopyDesc) : Nat := d.exts.foldl (· * ·) 1
def CopyDesc.gather (d : CopyDesc) : Bool := d.opc == 1
def CopyDesc.scatter (d : CopyDesc) : Bool := 2 ≤ d.opc && d.opc ≤ 5
def CopyDesc.indexed (d : CopyDesc) : Bool := d.gather || d.scatter

def natAt (l : List Nat) (i : Nat) : Nat := (l[i]?).getD 0
def intAt (l : List Int) (i : Nat) : Int := (l[i]?).getD 0

/-- Element size that an arithmetic format of OPC 3 to 6 has. -/
def afmtSize (c : Nat) : Nat :=
  match c with
  | 0x20 | 0x2A | 0x2E => 4
  | 0x2B | 0x2F => 8
  | _ => 0

/-- DMAP is a permutation of 0 to n − 1. -/
def isPerm (l : List Nat) (n : Nat) : Bool := l.length == n && (List.range n).all fun i => l.contains i

/-- A descriptor is valid (R325), its tensor descriptors apart. -/
def CopyDesc.valid (d : CopyDesc) : Bool :=
  d.addr % 64 == 0 && field (d.w 0) 56 8 == 0 && field (d.w 1) 56 8 == 0 && field (d.w 2) 56 8 == 0 &&
    field (d.w 4) 32 2 == 0 && field (d.w 7) 32 32 == 0 &&
    1 ≤ d.ndim && d.ndim ≤ 14 && d.dims.length == d.ndim && d.dims.all (fun x => field x.1 36 28 == 0) &&
    !(d.exts.contains 0) && d.total < 2 ^ 48 && isPerm d.dmap d.ndim && d.opc != 7 && d.idxo != 3 &&
    (!d.indexed || d.idim < d.ndim) && (d.opc < 3 || afmtSize d.afmt == d.size) &&
    (!(d.stm || d.dtm) || 2 ≤ d.ndim) && (!d.rblk || (!d.dtm && 2 ≤ d.ndim)) &&
    polOk ((d.w 4).setWidth 32 |>.setWidth 64) true true true

/-! ### Indices and bounds (R326, R146) -/

/-- The bound of the index: of the tensor's dimension on a tensor-mode side, else IEXT. -/
def CopyDesc.bound (d : CopyDesc) : Nat :=
  let dim := if d.gather then d.idim else natAt d.dmap d.idim
  match (if d.gather then d.stens else d.dtens) with
  | some t =>
    if dim == 0 then t.cols - (if d.gather then d.scol else d.dcol)
    else if dim == 1 then t.rows - (if d.gather then d.srow else d.drow)
    else d.iext
  | none => d.iext

/-- An index out of range is skipped. -/
def CopyDesc.skips (d : CopyDesc) : Bool :=
  d.idxo == 2 || (d.idxo == 0 && (match (if d.gather then d.stens else d.dtens) with | some t => t.skip | none => false))

/-- The pad element of a skipped gather. -/
def CopyDesc.gatherPad (d : CopyDesc) : List Byte :=
  match d.stens with
  | some t => t.padBytes
  | none => toBytes d.size (d.w 3).toNat

/-- Extent of each source dimension with the index running over its bound. -/
def CopyDesc.srcExts (d : CopyDesc) : List Nat :=
  d.exts.zipIdx.map fun (e, i) => if d.gather && i == d.idim then d.bound else e

/-- Extent of each destination dimension, likewise. -/
def CopyDesc.dstExts (d : CopyDesc) : List Nat :=
  (List.range d.ndim).map fun e =>
    if d.scatter && e == natAt d.dmap d.idim then d.bound else natAt d.exts (d.dmap.findIdx (· == e))

/-! ### Ranges and covering blocks (R327) -/

/-- Lowest and highest offset of a sum of index times stride; a dimension of no element has its index at 0. -/
def strideRange (exts : List Nat) (strs : List Int) : Int × Int :=
  (exts.zip strs).foldl (fun (lo, hi) (n, st) =>
    let v := ((n - 1 : Nat) : Int) * st
    (lo + min v 0, hi + max v 0)) (0, 0)

/-- The bytes that a tensor-mode side can address: its in-extent elements from the origin on. -/
def tensorRange (t : Tensor) (row col : Nat) (exts : List Nat) (strs : List Int) : Option (Int × Int) :=
  let r1 := min (row + natAt exts 1) t.rows
  let c1 := min (col + natAt exts 0) t.cols
  if r1 ≤ row || c1 ≤ col || (exts.drop 2).contains 0 then none
  else
    let (lo, hi) := strideRange (exts.drop 2) (strs.drop 2)
    some ((t.addr row col : Int) + lo, (t.addr (r1 - 1) (c1 - 1) : Int) + hi + t.s - 1)

/-- The offsets of the two dimensions of a reblocked destination (R326). -/
def reblockRange (s n0 n1 : Nat) (str1 : Int) : Int × Int :=
  let c0 := n0 - 1
  let g := (n1 - 1) / 16
  let top := fun (band h : Nat) => (band : Int) * str1 + ((s * (256 * (c0 / 16) + curveIndex 4 h (c0 % 16)) : Nat) : Int)
  let last := top g ((n1 - 1) % 16)
  let full := if 0 < g then max (top 0 15) (top (g - 1) 15) else last
  (min 0 ((g : Int) * str1), max last full)

/-- First and last byte that the copy can address on its source, its destination and its index array. -/
def CopyDesc.srcRange (d : CopyDesc) : Option (Int × Int) :=
  match d.stens with
  | some t => tensorRange t d.srow d.scol d.srcExts d.sstr
  | none =>
    if d.srcExts.contains 0 then none
    else
    let (lo, hi) := strideRange d.srcExts d.sstr
    some ((d.srcBase : Int) + lo, (d.srcBase : Int) + hi + d.size - 1)

def CopyDesc.dstRange (d : CopyDesc) : Option (Int × Int) :=
  match d.dtens with
  | some t => tensorRange t d.drow d.dcol d.dstExts d.dstr
  | none =>
    if d.dstExts.contains 0 then none
    else if d.rblk then
      let (lo2, hi2) := reblockRange d.size (natAt d.dstExts 0) (natAt d.dstExts 1) (intAt d.dstr 1)
      let (lo, hi) := strideRange (d.dstExts.drop 2) (d.dstr.drop 2)
      some ((d.dstBase : Int) + lo + lo2, (d.dstBase : Int) + hi + hi2 + d.size - 1)
    else
      let (lo, hi) := strideRange d.dstExts d.dstr
      some ((d.dstBase : Int) + lo, (d.dstBase : Int) + hi + d.size - 1)

/-- Elements that have destination bytes: of a destination tensor, those inside its extents. -/
def CopyDesc.landing (d : CopyDesc) : Nat :=
  match d.dtens with
  | some t => min (natAt d.dstExts 0) (t.cols - d.dcol) * min (natAt d.dstExts 1) (t.rows - d.drow) *
      (d.dstExts.drop 2).foldl (· * ·) 1
  | none => d.total

/-- Chunks of a fabric reduction: 4 KiB of destination bytes in L order. -/
def CopyDesc.perChunk (d : CopyDesc) : Nat := 4096 / d.size
def CopyDesc.chunkCount (d : CopyDesc) : Nat := (d.landing + d.perChunk - 1) / d.perChunk

def CopyDesc.idxRange (d : CopyDesc) : Option (Int × Int) :=
  if d.indexed then some (d.idxBase, (d.idxBase + 4 * natAt d.exts d.idim - 1 : Nat))
  else if d.opc == 6 && d.chunkCount != 0 then some (d.idxBase, (d.idxBase + (d.chunkCount + 7) / 8 - 1 : Nat))
  else none

/-- A range lies in canonical space. -/
def canonical (r : Option (Int × Int)) : Bool :=
  match r with
  | some (lo, hi) => 0 ≤ lo && hi < 2 ^ 56
  | none => true

/-- Depth and base of a range's covering block. -/
def coverOf (r : Int × Int) : Nat × Nat :=
  let d := coverDepth r.1.toNat r.2.toNat
  (d, r.1.toNat / blockSize d * blockSize d)

/-- The covering block as TBLOCKP names it. -/
def coverWordOf (r : Option (Int × Int)) : Word :=
  match r with
  | some r => blockWord (coverOf r).1 (coverOf r).2
  | none => 0

/-- The covering blocks of two ranges overlap. -/
def coversMeet (a b : Option (Int × Int)) : Bool :=
  match a, b with
  | some a, some b => blocksMeet (coverOf a).1 (coverOf a).2 (coverOf b).1 (coverOf b).2
  | _, _ => false

/-- An identity copy that begins at the same byte on both sides. DEDUCED, log 54. -/
def CopyDesc.identity (d : CopyDesc) : Bool :=
  d.opc == 0 && d.dmap == List.range d.ndim && !d.rblk && d.stm == d.dtm &&
    (if d.stm then d.src == d.dst && d.w 5 == d.w 6
     else d.srcBase == d.dstBase && d.sstr == d.dstr)

def CopyDesc.overlaps (d : CopyDesc) : Bool :=
  (coversMeet d.dstRange d.srcRange && !d.identity) || (d.indexed && coversMeet d.dstRange d.idxRange)

/-! ### COPY at fire and at commit (R323) -/

/-- Read `n` words at homes, each an 8-byte access. -/
def State.readWords (s : State) (x : Xer) (who : Agent) (ctx : Nat) (priv : Bool) (va : Nat) :
    Nat → State × Except TrapRec (List Word)
  | 0 => (s, .ok [])
  | n + 1 =>
    match s.readVa x who ctx priv va 8 (coverWord va 8) with
    | (s, .error r) => (s, .error r)
    | (s, .ok bs) => match State.readWords s x who ctx priv (va + 8) n with
      | (s, .ok ws) => (s, .ok (wd (ofBytes bs) :: ws))
      | r => r

/-- Three words for each dimension. -/
def dimsOf : List Word → List (Word × Word × Word)
  | a :: b :: c :: rest => (a, b, c) :: dimsOf rest
  | _ => []

/-- A tensor descriptor of one side, read and checked. -/
def State.sideTensor (s : State) (x : Xer) (who : Agent) (ctx : Nat) (priv : Bool) (on : Bool) (va size : Nat) :
    State × Except TrapRec (List Word) :=
  if !on then (s, .ok [])
  else match s.readVa x who ctx priv va 32 (coverWord va 32) with
    | (s, .error r) => (s, .error r)
    | (s, .ok bs) => match tensorOf (wordsFrom 4 bs) with
      | some t => if va % 32 == 0 && t.s == size then (s, .ok (wordsFrom 4 bs)) else (s, .error { cause := .badDescriptor })
      | none => (s, .error { cause := .badDescriptor })

/-- A stile-table entry allows what an instruction needs (R98, R99). -/
def stileKind (e : Word) : Nat := field e 61 2
def stileGroup (e : Word) : Nat := field e 22 12
def stileCore (e : Word) : Nat := 8 * copseAt (16 * field e 48 4 + field e 44 4) + field e 40 3
def stileOk (e : Word) (kinds : List Nat) (right : Nat) : Bool := e.getLsbD 63 && kinds.contains (stileKind e) && e.getLsbD right

/-- Everything COPY checks when it fires (R323), for a core's drover. DEDUCED, log 47.  A fabric reduction's group is that of the
stile entry as it stands then (R99).  DESIGN CHOICE, log 138. -/
def State.copyCheck (s : State) (c ctx : Nat) (priv : Bool) (addr ctl : Word) : State × Except TrapRec CopyDesc :=
  let who := Agent.slot c 7
  let bad := fun (e : Cause) => Except.error (α := CopyDesc) ({ cause := e } : TrapRec)
  if field ctl 6 58 != 0 then (s, bad .badControlValue)
  else match s.readWords (.core c) who ctx priv addr.toNat 8 with
    | (s, .error r) => (s, .error r)
    | (s, .ok hdr) =>
      let d : CopyDesc := { addr := addr.toNat, hdr := hdr, priv := priv, ctx := ctx }
      match s.readWords (.core c) who ctx priv (addr.toNat + 64) (if d.ndim ≤ 14 then 3 * d.ndim else 0) with
      | (s, .error r) => (s, .error r)
      | (s, .ok ws) =>
        let d := { d with dims := dimsOf ws }
        if !d.valid then (s, bad .badDescriptor)
        else match s.sideTensor (.core c) who ctx priv d.stm d.srcBase d.size with
          | (s, .error r) => (s, .error r)
          | (s, .ok src) => match s.sideTensor (.core c) who ctx priv d.dtm d.dstBase d.size with
            | (s, .error r) => (s, .error r)
            | (s, .ok dst) =>
              let d := { d with src := src, dst := dst }
              if !(canonical d.srcRange && canonical d.dstRange && canonical d.idxRange) then (s, bad .nonCanonicalAddress)
              else if d.overlaps then (s, bad .overlap)
              else if d.opc == 6 && !(stileOk ((s.core c).stile.get d.stile 0) [2] 58) then (s, bad .stileFault)
              else (s, .ok { d with group := if d.opc == 6 then stileGroup ((s.core c).stile.get d.stile 0) else 0 })

/-- A descriptor that a copy reads must wait for a write of the core to it (`State.descHeld`): the header, the records, a side's
tensor descriptor. -/
def State.copyHeld (s : State) (c ctx : Nat) (priv : Bool) (a : Nat) : Bool :=
  s.descHeld c 7 ctx priv a 64 ||
    (match s.readWords (.core c) (.slot c 7) ctx priv a 8 with
     | (_, .error _) => false
     | (s, .ok hdr) =>
       let d : CopyDesc := { hdr := hdr }
       (d.ndim ≤ 14 && s.descHeld c 7 ctx priv (a + 64) (24 * d.ndim)) || (d.stm && s.descHeld c 7 ctx priv d.srcBase 32) ||
         (d.dtm && s.descHeld c 7 ctx priv d.dstBase 32))

def copyWaits (is : Iss) (s : State) : Bool :=
  is.k == 7 && field is.rw_ 6 58 == 0 && s.copyHeld is.c is.ctx is.priv is.lw.toNat

/-- Set or clear one bit of a plane. -/
def setBit (w : Word) (i : Nat) (b : Bool) : Word := if b then w ||| wd (2 ^ i) else w &&& ~~~(wd (2 ^ i))

/-- Clear both planes of a tag and its error bit, and take it (R150, R333). -/
def Core.takeTag (k : Core) (t : Nat) (acq : Bool) : Core :=
  { k with ctagf := setBit k.ctagf t false, ctagl := setBit k.ctagl t false, ctage := setBit k.ctage t false,
           busy := setBit k.busy t true, acqTags := setBit k.acqTags t acq }

/-- COPY's commit: the tag is taken and the engine holds the captured descriptor; a fabric reduction begins an instance. -/
def State.copyStart (s : State) (c tag : Nat) (d : CopyDesc) : State :=
  let s := (s.engineAt (.copyEngine (c / 8))).modCore c fun k =>
    { k.takeTag tag (polAcq d.pol) with
      copies := k.copies.filter (fun x => x.tag != tag) ++ [{ tag := tag, desc := d, wait := polRel d.pol, inst := s.nextId }] }
  if d.opc == 6 then
    { s with colls := { core := c, tag := tag, inst := s.nextId, group := d.group, since := s.clock,
                         chunks := d.chunkCount } :: s.colls, nextId := s.nextId + 1 }
  else s

/-- COPY waits while its tag is busy: the commit does (R323). -/
def Core.tagBusy (k : Core) (t : Nat) : Bool := k.busy.getLsbD t

def execCopy (f : Form) (s : State) : Out :=
  issueWhen (.copy f) s copyWaits fun is s =>
    if is.k != 7 then .next (s.trapAt is .droverOnly)
    else match s.copyCheck is.c is.ctx is.priv is.lw is.rw_ with
      | (s, .error r) => .next (s.recTrap is r)
      | (s, .ok d) => .next (s.fireDue is (.copy (field is.rw_ 0 6) d))

/-! ### The walk (R326) -/

/-- The index vector of a linear index. -/
def unlinear : List Nat → Nat → List Nat
  | [], _ => []
  | e :: rest, l => l % e :: unlinear rest (l / e)

/-- One element of the walk: where it is read (else its pad bytes), and where it is written, if anywhere. -/
structure Elem where
  src : Option Nat
  pad : List Byte := []
  dst : Option Nat
  deriving DecidableEq, Repr

/-- What becomes of one element: it is copied, or it cannot be: with its destination where that is known. -/
inductive ElemOut where
  | ok (e : Elem)
  | bad (r : TrapRec) (dst : Option Nat)
  deriving Repr

/-- Sum of index times stride over the dimensions from `k` up. -/
def strideSum (k : Nat) (i : List Nat) (strs : List Int) : Int :=
  ((i.zip strs).drop k).foldl (fun a (x, st) => a + (x : Int) * st) 0

def CopyDesc.srcAt (d : CopyDesc) (i : List Nat) : Option Nat × List Byte :=
  match d.stens with
  | some t =>
    let r := d.srow + natAt i 1
    let c := d.scol + natAt i 0
    if t.inside r c then (some ((t.addr r c : Int) + strideSum 2 i d.sstr).toNat, []) else (none, t.padBytes)
  | none => (some ((d.srcBase : Int) + strideSum 0 i d.sstr).toNat, [])

def CopyDesc.dstAt (d : CopyDesc) (j : List Nat) : Option Nat :=
  match d.dtens with
  | some t =>
    let r := d.drow + natAt j 1
    let c := d.dcol + natAt j 0
    if t.inside r c then some ((t.addr r c : Int) + strideSum 2 j d.dstr).toNat else none
  | none =>
    if d.rblk then
      let o := d.size * (256 * (natAt j 0 / 16) + curveIndex 4 (natAt j 1 % 16) (natAt j 0 % 16))
      some ((d.dstBase : Int) + o + ((natAt j 1 / 16 : Nat) : Int) * intAt d.dstr 1 + strideSum 2 j d.dstr).toNat
    else some ((d.dstBase : Int) + strideSum 0 j d.dstr).toNat

/-- The element of a linear index, once its index value is known (none where the copy is not indexed). -/
def CopyDesc.elem (d : CopyDesc) (l : Nat) (x : Option Int) : ElemOut :=
  let i := unlinear d.exts l
  let j := (List.range d.ndim).map fun e => natAt i (d.dmap.findIdx (· == e))
  match x with
  | none =>
    let (a, p) := d.srcAt i
    .ok ⟨a, p, d.dstAt j⟩
  | some x =>
    let inRange := 0 ≤ x && x < (d.bound : Int)
    let fault : TrapRec := { cause := .indexRange, addr := some (blockWord 31 (d.idxBase + 4 * natAt i d.idim)),
                             blockp := some (coverWordOf d.idxRange) }
    if d.gather then
      if inRange then
        let (a, p) := d.srcAt (setAt i d.idim x.toNat)
        .ok ⟨a, p, d.dstAt j⟩
      else if d.skips then .ok ⟨none, d.gatherPad, d.dstAt j⟩
      else .bad fault (d.dstAt j)
    else
      if inRange then
        let (a, p) := d.srcAt i
        .ok ⟨a, p, d.dstAt (setAt j (natAt d.dmap d.idim) x.toNat)⟩
      else if d.skips then .ok ⟨none, [], none⟩
      else .bad fault none

/-- The element of a linear index, its index read at the home by the engine. -/
def State.elemAt (s : State) (copse : Nat) (d : CopyDesc) (l : Nat) : State × ElemOut :=
  if d.indexed then
    let i := unlinear d.exts l
    match s.readVa (.copse copse) (.copyEngine copse) d.ctx d.priv (d.idxBase + 4 * natAt i d.idim) 4
        (coverWordOf d.idxRange) d.pol with
    | (s, .ok bs) => (s, d.elem l (some (signed 32 (ofBytes bs))))
    | (s, .error r) =>
      let j := (List.range d.ndim).map fun e => natAt i (d.dmap.findIdx (· == e))
      (s, .bad r (if d.gather then d.dstAt j else none))
  else (s, d.elem l none)

/-! ### Runs (R328, R329) -/

/-- Collect a run from a linear index: its elements, or the fault that stops it.  `sec` holds the first and last sector
of the destination bytes so far; `room` counts the elements with destination bytes that a chunk of a fabric reduction still
takes, which end its runs instead. -/
def State.runFrom (s : State) (copse : Nat) (d : CopyDesc) (first : Nat) (sec : Option (Nat × Nat)) (room : Nat)
    (acc : List Elem) (l : Nat) : Nat → State × Except TrapRec (List Elem)
  | 0 => (s, .ok acc)
  | n + 1 =>
    if d.total ≤ l then (s, .ok acc)
    else
      let span := fun (a : Nat) => (a / 128, (a + d.size - 1) / 128)
      let away := fun (dst : Option Nat) => match dst, sec with
        | some a, some p => if d.opc == 6 then room == 0 else span a != p
        | _, _ => false
      match s.elemAt copse d l with
      | (s, .bad r dst) =>
        if l != first && (away dst || (dst.isNone && d.scatter)) then (s, .ok acc) else (s, .error r)
      | (s, .ok e) =>
        if away e.dst then (s, .ok acc)
        else
          let sec := match e.dst, sec with
            | some a, none => some (span a)
            | _, x => x
          State.runFrom s copse d first sec (if e.dst.isSome then room - 1 else room) (acc ++ [e]) (l + 1) n

/-- The failure at the lower byte address of two, as their records' TADDR names it (R37). -/
def lowerFault (a b : TrapRec) : TrapRec :=
  match a.addr, b.addr with
  | some x, some y => if field y 0 56 < field x 0 56 then b else a
  | _, _ => a

/-- Check the pages of one side of a run, as a read, a write or both (R36), and keep where each element lies; the failure is that
of the lowest byte address among them (R37). -/
def State.checkSide (s : State) (copse : Nat) (d : CopyDesc) (rd wr : Bool) (blk : Word) :
    List (Option Nat) → State × Except TrapRec (List (List Part))
  | [] => (s, .ok [])
  | e :: rest =>
    let one : State × Except (XFail × Nat) (List Part) := match e with
      | none => (s, .ok [])
      | some a => s.checkBytes (.copse copse) d.ctx d.priv a d.size rd wr
    match one with
    | (s, .error x) => match State.checkSide s copse d rd wr blk rest with
      | (s, .ok _) => (s, .error (xfailRec x blk))
      | (s, .error r) => (s, .error (lowerFault (xfailRec x blk) r))
    | (s, .ok ps) => match State.checkSide s copse d rd wr blk rest with
      | (s, .ok more) => (s, .ok (ps :: more))
      | r => r

def State.checkSources (s : State) (copse : Nat) (d : CopyDesc) (es : List Elem) : State × Except TrapRec (List (List Part)) :=
  s.checkSide copse d true false (coverWordOf d.srcRange) (es.map (·.src))

def State.checkDests (s : State) (copse : Nat) (d : CopyDesc) (ds : List (Option Nat)) : State × Except TrapRec (List (List Part)) :=
  s.checkSide copse d (3 ≤ d.opc && d.opc ≤ 5) true (coverWordOf d.dstRange) ds

/-- The values of a run's elements, read in order once all their pages have been checked. -/
def State.readElems (s : State) (copse : Nat) (d : CopyDesc) : List (Elem × List Part) → State × Except TrapRec (List (List Byte))
  | [] => (s, .ok [])
  | (e, ps) :: rest =>
    let one : State × Except TrapRec (List Byte) := match e.src with
      | none => (s, .ok e.pad)
      | some a => (s.fixParts d.pol ps).readParts (.copyEngine copse) d.ctx a (coverWordOf d.srcRange) ps
    match one with
    | (s, .error r) => (s, .error r)
    | (s, .ok v) => match State.readElems s copse d rest with
      | (s, .ok vs) => (s, .ok (v :: vs))
      | r => r

/-- A read of the copy would meet a place where it waits (R64, R139): the index words of the next elements, or a source. -/
def State.indexHeld (s : State) (copse : Nat) (d : CopyDesc) (l n : Nat) : Bool :=
  d.indexed && (List.range (min n (d.total - l))).any fun i =>
    s.readHeld (.copse copse) d.ctx d.priv (d.idxBase + 4 * natAt (unlinear d.exts (l + i)) d.idim) 4

def State.partsHeld (s : State) (ps : List (List Part)) : Bool :=
  ps.any fun l => l.any fun p => match p.at_ with
    | .mem pa _ => s.busyAt pa p.n
    | .pad _ => false

/-- The operation of a scatter-accumulate copy. -/
def CopyDesc.rmwOp (d : CopyDesc) : RmwOp :=
  let f := d.afmt == 0x20
  let u := d.afmt == 0x2E || d.afmt == 0x2F
  if d.opc == 3 then (if f then .addf else .add)
  else if d.opc == 4 then (if f then .minf else if u then .minu else .min)
  else (if f then .maxf else if u then .maxu else .max)

/-- Write the parts of one element. -/
def State.writeParts (s : State) (who : Agent) (ctx va : Nat) (bs : List Byte) (blockp : Word) (pol : BitVec 32) :
    List Part → Wrote
  | [] => .done s
  | p :: rest =>
    match p.at_ with
    | .pad _ => State.writeParts s who ctx va bs blockp pol rest
    | .mem pa kid =>
      match s.engineWrite who ctx kid (va + p.off) pa (((bs.drop p.off).take p.n).map some) blockp pol with
      | .done s => State.writeParts s who ctx va bs blockp pol rest
      | w => w

/-- The places of an element's parts, as a run keeps them, and the parts of kept places. -/
def placesOf (ps : List Part) : List (Nat × Nat × Nat × Nat) :=
  ps.filterMap fun p => match p.at_ with
    | .mem pa kid => some (p.off, p.n, pa, kid)
    | .pad _ => none

def partsAt (l : List (Nat × Nat × Nat × Nat)) : List Part := l.map fun (o, n, pa, kid) => ⟨o, n, .mem pa kid⟩

/-- A run has been read and holds the translations under which it is written (R153). -/
def Copy.translated (x : Copy) : Bool := x.buf.any fun r => r.any (·.at_.isSome)

/-- The bytes now at the parts of an element. -/
def State.partBytes (s : State) (ps : List Part) : List Byte :=
  ps.flatMap fun p => match p.at_ with
    | .mem pa _ => s.homeBytes pa p.n
    | .pad bs => bs

/-- The first part whose old bytes cannot be read. -/
def State.partsFault (s : State) (who : Agent) (ctx va : Nat) (blockp : Word) (ps : List Part) : Option TrapRec :=
  ps.findSome? fun p => match p.at_ with
    | .mem pa kid => s.readFault { agent := who, tag := default, ctx := ctx, kid := kid, pa := pa, va := va + p.off,
                                   acc := .read p.n, blockp := blockp } p.n
    | .pad _ => none

/-- Apply the elements of a run in ascending order (R144, R145). -/
def State.writeElems (s : State) (copse : Nat) (d : CopyDesc) : List ((Option Nat × List Byte) × List Part) → Wrote
  | [] => .done s
  | ((dst, v), ps) :: rest =>
    match dst with
    | none => State.writeElems s copse d rest
    | some a =>
      let who := Agent.copyEngine copse
      let blk := coverWordOf d.dstRange
      let acc := 3 ≤ d.opc && d.opc ≤ 5
      match if acc then s.partsFault who d.ctx a blk ps else none with
      | some r => .fault s r
      | none =>
        let new := if acc then toBytes d.size (rmw d.rmwOp d.size (ofBytes (s.partBytes ps)) (ofBytes v) 0) else v
        match s.writeParts who d.ctx a new blk d.pol ps with
        | .done s => State.writeElems s copse d rest
        | w => w

/-- The copy of a tag. -/
def Core.copy? (k : Core) (tag : Nat) : Option Copy := k.copies.find? fun x => x.tag == tag

def State.modCopy (s : State) (c tag : Nat) (g : Copy → Copy) : State :=
  s.modCore c fun k => { k with copies := k.copies.map fun x => if x.tag == tag then g x else x }

/-- A copy-state record goes to the supervisor core (R329). -/
def State.sendRecord (s : State) (src : Nat × Nat) (ctx : Nat) (cause : Cause) (desc : Nat) (w1 : Nat) (addr blk : Word) :
    State :=
  s.supvSend src ctx (s.supvChan ctx) (wd (causeCode cause * 2 ^ 56 + desc % 2 ^ 56)) (wd w1) addr blk

/-- Where a copy has stopped: RESUME (R329). -/
def Copy.stopAt (x : Copy) : Nat := x.failed.getD x.resume

/-- A run stops the copy (R329). -/
def State.copySuspend (s : State) (c : Nat) (x : Copy) (r : TrapRec) : State :=
  let addr := r.addr.getD 0
  let blk := r.blockp.getD 0
  (s.modCopy c x.tag fun y => { y with state := .suspended, cause := causeCode r.cause, faddr := addr, fblock := blk }).sendRecord
    (nodeOf (c / 8), epCopy) x.desc.ctx r.cause x.desc.addr (x.tag * 2 ^ 58 + 2 * 2 ^ 55 + x.stopAt % 2 ^ 48) addr blk

/-- The copy has done `n` more elements; a SYSTEM copy that has done its last asks for the gateway drain (R150, R117). -/
def State.copyAdvance (s : State) (c : Nat) (x : Copy) (n : Nat) : State :=
  let ended := x.desc.total ≤ x.resume + n
  s.modCopy c x.tag fun y => { y with resume := y.resume + n, landing := ended, wait := false, buf := none,
                                      drain := if ended && polScope y.desc.pol == 5 then some s.drainRequest else none }

/-- The copy has read `n` more elements: after the last one its source is free (R150). -/
def State.copySource (s : State) (c : Nat) (x : Copy) (n : Nat) : State :=
  if x.desc.total ≤ x.resume + n then s.modCore c fun k => { k with ctagf := setBit k.ctagf x.tag true } else s

/-- A chunk of a fabric reduction goes to the switch (R435). -/
def State.contribute (s : State) (c : Nat) (x : Copy) (bytes : List Byte) : State :=
  let n := x.chunks.length
  let s := s.modCopy c x.tag fun y => { y with chunks := y.chunks ++ [x.resume] }
  { s with colls := s.colls.map fun g =>
      if g.core == c && g.tag == x.tag then { g with parts := g.parts.put n bytes } else g }

/-- Elements of a run at most: 128, but for a fabric reduction, whose runs end at chunks (R328). -/
def CopyDesc.runMax (d : CopyDesc) : Nat := if d.opc == 6 then d.total else 128

/-- The first half of a run (R328): its indices and pages are checked, source pages first (log 115), and it is read.  A chunk
of a fabric reduction is then contributed. -/
def State.copyRead (s : State) (c : Nat) (x : Copy) : State :=
  let copse := c / 8
  let d := x.desc
  if s.indexHeld copse d x.resume 128 then s
  else match s.runFrom copse d x.resume none d.perChunk [] x.resume d.runMax with
  | (s, .error r) => s.copySuspend c x r
  | (s, .ok es) =>
    match s.checkSources copse d es with
    | (s, .error r) => s.copySuspend c x r
    | (s, .ok ps) =>
      match s.checkDests copse d (es.map (·.dst)) with
      | (s, .error r) => s.copySuspend c x r
      | (s, .ok ds) =>
        if s.partsHeld ps then s
        else match s.readElems copse d (es.zip ps) with
        | (s, .error r) => s.copySuspend c x r
        | (s, .ok vs) =>
          if d.opc == 6 then
            let bytes := ((es.zip vs).filter fun e => e.1.dst.isSome).flatMap (·.2)
            ((s.contribute c x bytes).copySource c x es.length).copyAdvance c x es.length
          else
            let run := ((es.zip vs).zip ds).map fun e => { dst := e.1.1.dst, val := e.1.2, at_ := some (placesOf e.2) : RunElem }
            (s.copySource c x es.length).modCopy c x.tag fun y => { y with buf := some run }

/-- The second half of a run: it is written, under the translations that it was read with (R153).  The last run keeps the values
it has read when it is stopped, since its source has been freed (R150), and is translated again when it goes on. -/
def State.copyWrite (s : State) (c : Nat) (x : Copy) (run : List RunElem) : State :=
  let copse := c / 8
  let stop := fun (s : State) (r : TrapRec) =>
    (s.modCopy c x.tag fun y => { y with buf :=
      if x.desc.total ≤ x.resume + run.length then some (run.map fun e => { e with at_ := none }) else none }).copySuspend c x r
  match (if x.translated then (s, .ok (run.map fun e => partsAt (e.at_.getD []))) else s.checkDests copse x.desc (run.map (·.dst))) with
  | (s, .error r) => stop s r
  | (s, .ok ps) => match s.writeElems copse x.desc ((run.map fun e => (e.dst, e.val)).zip ps) with
    | .done t => t.copyAdvance c x run.length
    | .fault _ r => stop s r
    | .wait => s

/-- One half of a run of a copy. DESIGN CHOICE, log 43. -/
def State.copyRun (s : State) (c : Nat) (x : Copy) : State :=
  match x.buf with
  | none => s.copyRead c x
  | some run => s.copyWrite c x run

/-! The fields of a PREEMPT target word (R376). -/

def preCore (w : Word) : Nat := field w 0 11
def preSlot (w : Word) : Nat := field w 11 3
def preAct (w : Word) : Nat := field w 14 2
def preEnt (w : Word) : Nat := field w 16 4

/-- The eviction that a slot awaits. -/
def State.evictOp (s : State) (c k : Nat) : Option Op :=
  s.ops.find? fun o => match o.kind with
    | .preempt w => preAct w == 0 && preCore w == c && preSlot w == k
    | _ => false

/-- A copy may do its next run (R328): none starts while the drover slot awaits its eviction (R331). -/
def State.copyCanRun (s : State) (c : Nat) (x : Copy) : Bool :=
  x.state == .running && !x.landing && x.resume < x.desc.total && (!x.wait || s.quiet c 7) &&
    (x.buf.isSome || (s.evictOp c 7).isNone)

/-- The copies of a core stand at run boundaries (R331). -/
def Core.copiesRest (k : Core) : Bool := k.copies.all fun x => x.state != .running || x.buf.isNone

/-- A copy that has done its last run may land: a reduction has every chunk; a SYSTEM copy waits for the drain (R150). -/
def Copy.mayLand (x : Copy) : Bool := x.state == .running && x.landing && (x.desc.opc != 6 || x.wrote.length == x.desc.chunkCount)
def State.copyCanLand (s : State) (x : Copy) : Bool := x.mayLand && (polScope x.desc.pol != 5 || x.drain.any s.drainAnswered)

/-- A SYSTEM copy that an image has brought to its landing has no drain request: it makes one. -/
def Copy.asksDrain (x : Copy) : Bool := x.mayLand && polScope x.desc.pol == 5 && x.drain.isNone

/-- The copy whose run comes next in a copse's round robin (R328): after the one served last, in order of core and tag. -/
def State.copyTurn (s : State) (copse : Nat) : Option (Nat × Nat) :=
  let act := (List.range 8).flatMap fun i =>
    let c := 8 * copse + i
    ((s.core c).copies.filter fun x => s.copyCanRun c x).map fun x => (c, x.tag)
  let at_ := fun (p : Nat × Nat) => (p.1 % 8 * 64 + p.2 + 512 - (s.copse copse).rr - 1) % 512
  act.foldl (fun (b : Option (Nat × Nat)) p => match b with
    | some q => if at_ p < at_ q then some p else b
    | none => some p) none

/-- A step about a copy. -/
def withCopy (s : State) (get : Event → Option (Nat × Nat)) (body : State → Nat → Copy → State) : Out :=
  match s.event.bind get with
  | some (c, tag) => match (s.core c).copy? tag with
    | some x => .next (body s.taken c x)
    | none => .next s.taken
  | none => .fault .noSubject

def execCopyRun (s : State) : Out :=
  withCopy s (fun e => match e with | .copyRun c t => some (c, t) | _ => none) fun s c x =>
    if s.copyCanRun c x && s.copyTurn (c / 8) == some (c, x.tag) then
      let s := s.modCopse (c / 8) fun y => { y with rr := c % 8 * 64 + x.tag }
      s.copyRun c x
    else s

/-- The copy ends: its tag is no longer busy (R333). -/
def State.copyEnd (s : State) (c tag : Nat) (l e : Bool) : State :=
  let s := s.modCore c fun k =>
    { k with ctagl := if l then setBit k.ctagl tag true else k.ctagl,
             ctagf := if l then setBit k.ctagf tag true else k.ctagf,
             ctage := if e then setBit k.ctage tag true else k.ctage,
             busy := setBit k.busy tag false, copies := k.copies.filter fun y => y.tag != tag }
  { s with colls := s.colls.filter fun g => !(g.core == c && g.tag == tag) }

def execCopyLanded (s : State) : Out :=
  withCopy s (fun e => match e with | .copyLanded c t => some (c, t) | _ => none) fun s c x =>
    if s.copyCanLand x then s.copyEnd c x.tag true false
    else if x.asksDrain then s.modCopy c x.tag fun y => { y with drain := some s.drainRequest }
    else s

/-! ### Fabric reductions (R435) -/

/-- The elements of a chunk with destination bytes and the bytes of its result, from a linear index on. -/
def CopyDesc.chunkElems (d : CopyDesc) (data : List Byte) (l : Nat) : Nat → List (Option Nat × List Byte)
  | 0 => []
  | n + 1 =>
    if d.total ≤ l || data.isEmpty then []
    else match d.elem l none with
      | .ok ⟨_, _, some a⟩ => (some a, data.take d.size) :: d.chunkElems (data.drop d.size) (l + 1) n
      | _ => d.chunkElems data (l + 1) n

/-- The destination bytes of a chunk. -/
def CopyDesc.chunkBytes (d : CopyDesc) (chunk : Nat) : Nat := min d.perChunk (d.landing - chunk * d.perChunk) * d.size

/-- A copy is part of a collective instance, in its core or saved with its drover. -/
def State.inCollective (s : State) (c tag inst : Nat) : Bool := s.colls.any fun g => g.core == c && g.tag == tag && g.inst == inst

/-- The bit of a chunk is set in the bitmap. -/
def State.setBitmap (s : State) (copse : Nat) (d : CopyDesc) (chunk : Nat) : Wrote :=
  let va := d.idxBase + chunk / 8
  match s.readVa (.copse copse) (.copyEngine copse) d.ctx d.priv va 1 (coverWord va 1) with
  | (s, .error r) => .fault s r
  | (s, .ok bs) =>
    match s.checkBytes (.copse copse) d.ctx d.priv va 1 false true with
    | (s, .error e) => .fault s (xfailRec e (coverWord va 1))
    | (s, .ok ps) => s.writeParts (.copyEngine copse) d.ctx va (toBytes 1 (ofBytes bs ||| 2 ^ (chunk % 8))) (coverWord va 1) d.pol ps

/-- The copy stops at a chunk whose result cannot be written: RESUME is the chunk's first linear index (R329). -/
def State.chunkStop (s : State) (c : Nat) (x : Copy) (chunk : Nat) (r : TrapRec) : State :=
  let at_ := some (natAt x.chunks chunk)
  (s.modCopy c x.tag fun y => { y with failed := at_ }).copySuspend c { x with failed := at_ } r

/-- A chunk's result arrives; one that is whole is written and its bit set, one of an instance that has ended is dropped; the
result of a copy that is suspended, or saved with its drover (R331), waits. DEDUCED, log 55. -/
def execFabricChunkResult (s : State) : Out :=
  match s.event with
  | some (.fabricChunkResult c tag inst chunk data) =>
    let s := s.taken
    let wait := fun (s : State) => s.due (.fabricChunkResult c tag inst chunk data)
    match (s.core c).copy? tag with
    | none => .next (if s.inCollective c tag inst then wait s else s)
    | some x =>
      let copse := c / 8
      if x.desc.opc != 6 || x.inst != inst || x.wrote.contains chunk || x.chunks.length ≤ chunk ||
          data.length != x.desc.chunkBytes chunk then .next s
      else if x.state != .running then .next (wait s)
      else
        let es := x.desc.chunkElems data (natAt x.chunks chunk) x.desc.total
        match s.checkDests copse x.desc (es.map (·.1)) with
        | (s, .error r) => .next (wait (s.chunkStop c x chunk r))
        | (s, .ok ps) =>
          match s.writeElems copse x.desc (es.zip ps) with
          | .wait => .next (wait s)
          | .fault _ r => .next (wait (s.chunkStop c x chunk r))
          | .done t => match t.setBitmap copse x.desc chunk with
            | .done t => .next (t.modCopy c tag fun y => { y with
                wrote := y.wrote ++ [chunk], drain := if polScope y.desc.pol == 5 then some t.drainRequest else none })
            | .fault _ r => .next (wait (s.chunkStop c x chunk r))
            | .wait => .next (wait s)
  | _ => .fault .noSubject

/-- The switch has aborted the instance: TAGE; TAGL stays clear.  A copy saved with its drover hears of it on its return. -/
def execFabricAborted (s : State) : Out :=
  match s.event with
  | some (.fabricAborted c tag inst) =>
    let s := s.taken
    match (s.core c).copy? tag with
    | some x => .next (if x.desc.opc == 6 && x.inst == inst then s.copyEnd c tag false true else s)
    | none => .next (if s.inCollective c tag inst then s.due (.fabricAborted c tag inst) else s)
  | _ => .fault .noSubject

/-- A participant has not contributed within 2^26 clocks: the switch aborts the instance. -/
def State.collectiveLate (s : State) (c tag : Nat) : Bool :=
  s.colls.any fun g => g.core == c && g.tag == tag && g.since + 2 ^ 26 ≤ s.clock && g.parts.length < g.chunks

def execCollectiveTimeout (s : State) : Out :=
  match s.event with
  | some (.collectiveTimeout c tag) =>
    let s := s.taken
    if s.collectiveLate c tag then
      let g := (s.colls.find? fun g => g.core == c && g.tag == tag).map (·.group)
      let same := s.colls.filter fun x => some x.group == g
      .next (same.foldl (fun s x => s.due (.fabricAborted x.core x.tag x.inst)) s)
    else .next s
  | _ => .fault .noSubject

/-! ### Resume and abort (R330) -/

/-- The fields of a CPRES word. -/
def cpresCore (v : Word) : Nat := field v 0 11
def cpresTag (v : Word) : Nat := field v 11 6
def cpresSlot (v : Word) : Nat := field v 17 3
def cpresPort (v : Word) : Bool := v.getLsbD 20

/-- Change a port of a slot. -/
def State.modPort (s : State) (c k p : Nat) (g : Port → Port) : State :=
  s.modThread c k fun t => { t with ports := t.ports.map fun (n, x) => if n == p then (n, g x) else (n, x) }

/-- Change or unbind the stopped port that a CPRES names: of the thread in the slot, else of the slot's own bindings, which wait
under a rooted thread (R334, R336). -/
def State.modStopped (s : State) (c k p : Nat) (g : Port → Option Port) : State :=
  s.modSlot c k fun x =>
    let f := fun (ps : SMap Port) => ps.filterMap fun (n, y) =>
      if n == p && y.stopped then (g y).map fun z => (n, z) else some (n, y)
    if (x.th.ports.get? p).any (·.stopped) then { x with th := { x.th with ports := f x.th.ports } }
    else { x with ports := f x.ports }

/-- A held drain of a core with a tag. -/
def Core.heldDrain (k : Core) (tag : Nat) : Bool :=
  match k.mq.head? with
  | some q => q.held_ && (match q.cmd with | .drain _ _ _ _ t _ _ _ => t == tag | _ => false)
  | none => false

def execCpresResume (s : State) : Out :=
  match s.event with
  | some (.cpresResume ctx v) =>
    let s := s.taken
    let c := cpresCore v
    let k := s.core c
    if k.ctx != some ctx then .next (s.strayMgmt c)
    else if cpresPort v then .next (s.modStopped c (cpresSlot v) (cpresTag v % 16) fun p => some { p with stopped := false })
    else if k.heldDrain (cpresTag v) then
      .next (s.modCore c fun k => { k with mq := match k.mq with | q :: rest => { q with held_ := false } :: rest | [] => [] })
    else .next ((s.engineAt (.copyEngine (c / 8))).modCopy c (cpresTag v) fun x =>
      if x.state == .suspended then { x with state := .running, failed := none } else x)
  | _ => .fault .noSubject

/-- An aborted port drops the words it has not written; one that was to unbind once they were written unbinds.
DEDUCED, log 52. -/
def Port.aborted (p : Port) : Option Port :=
  if p.closing then none else some { p with stopped := false, pos := p.pos + p.buf.length, buf := [] }

def execCpresAbort (s : State) : Out :=
  match s.event with
  | some (.cpresAbort ctx v) =>
    let s := s.taken
    let c := cpresCore v
    let k := s.core c
    let tag := cpresTag v
    if k.ctx != some ctx then .next (s.strayMgmt c)
    else if cpresPort v then .next (s.modStopped c (cpresSlot v) (tag % 16) Port.aborted)
    else if k.heldDrain tag then
      .next ((s.modCore c fun k => { k with mq := k.mq.tail }).copyEnd c tag false true)
    else match k.copy? tag with
      | some x => if x.state == .suspended then .next (s.copyEnd c tag false true) else .next s
      | none => .next s
  | _ => .fault .noSubject

end Sys2Proof.Machine
end

