-- ==== Sys2Proof/Machine/Drover.lean ====
section
/-!
DEFINITION. READ and WRITE (R239, R240, R335), mailboxes and the standard drover (R319 to R322), tag waits (R332, R333),
runnels (R334 to R336) and messages (R337, R338).
-/
namespace Sys2Proof.Machine
open Sys2Proof

/-! ### Mailboxes (R319) -/

def Thread.box (t : Thread) (b : Nat) : Mbox := if b == 0 then t.box0 else t.box1
def Thread.setBox (t : Thread) (b : Nat) (m : Mbox) : Thread := if b == 0 then { t with box0 := m } else { t with box1 := m }
def State.box (s : State) (c k b : Nat) : Mbox := (s.slot c k).th.box b
def State.modBox (s : State) (c k b : Nat) (g : Mbox → Mbox) : State := s.modThread c k fun t => t.setBox b (g (t.box b))

def Mbox.mayWrite (m : Mbox) : Bool := !m.full && m.claim.isNone
def Mbox.mayRead (m : Mbox) : Bool := m.full && m.claim.isNone

def selSlot (w : Word) : Nat := field w 0 3
def selBox (w : Word) : Nat := field w 3 1
def selAny (w : Word) : Bool := w.getLsbD 4

/-- The selector is legal for MBXW. -/
def mbxwOk (is : Iss) : Bool :=
  let w := is.lw
  !is.burr && field w 4 60 == 0 &&
    (if is.k == 7 then selSlot w != 7 && selBox w == 1 else selSlot w == is.k && selBox w == 0)

/-- The selector is legal for MBXR. -/
def mbxrOk (is : Iss) : Bool :=
  let w := is.lw
  !is.burr && field w 5 59 == 0 &&
    (if selAny w then is.k == 7 && field w 0 4 == 0
     else if is.k == 7 then selSlot w != 7 && selBox w == 0
     else selSlot w == is.k && selBox w == 1)

/-- The slot whose full, unclaimed box 0 is next after the one served last. DEDUCED, log 57. -/
def State.nextBox (s : State) (c : Nat) : Option Nat :=
  ((List.range 7).map fun i => ((s.core c).mbxPtr + 1 + i) % 7).find? fun k => (s.box c k 0).mayRead

/-- The slot that an MBXR reads, when its box is there to read. -/
def mbxrSource (is : Iss) (s : State) : Option Nat :=
  if selAny is.lw then s.nextBox is.c
  else if (s.box is.c (selSlot is.lw) (selBox is.lw)).mayRead then some (selSlot is.lw) else none

def mbxwWaits (is : Iss) (s : State) : Bool := mbxwOk is && !(s.box is.c (selSlot is.lw) (selBox is.lw)).mayWrite
def mbxrWaits (is : Iss) (s : State) : Bool := mbxrOk is && (mbxrSource is s).isNone

/-- The 64 bytes of a vector token, invalid bytes as zero. -/
def Tok.bytes (t : Tok) : Vec :=
  match t with
  | .ve d m => vecOf ((List.range 64).map fun i => if m.getLsbD i then d.extractLsb' (8 * i) 8 else 0)
  | _ => 0

/-- A vector with every byte valid. -/
def fullVec (d : Vec) : Tok := .ve d (lowMask 64)

def execMbxw (f : Form) (s : State) : Out :=
  issueWhen (.mbxw f) s mbxwWaits fun is s =>
    if !(mbxwOk is) then .next (s.trapAt is .badControlValue)
    else
      let k := selSlot is.lw
      let b := selBox is.lw
      .next ((s.modBox is.c k b fun m => { m with claim := some is.k }).fireDue is (.mbxw k b is.r.bytes))

def execMbxr (f : Form) (s : State) : Out :=
  issueWhen (.mbxr f) s mbxrWaits fun is s =>
    if !(mbxrOk is) then .next (s.trapAt is .badControlValue)
    else match mbxrSource is s with
      | none => .next s
      | some k =>
        let b := if selAny is.lw then 0 else selBox is.lw
        let d := (s.box is.c k b).data
        let s := s.modBox is.c k b fun m => { m with claim := some is.k }
        let s := s.modFlight is.c is.k fun fl => { fl with due := fl.due ++ [⟨is.lsn, is.pos, .mbxr k b (selAny is.lw)⟩] }
        .next (s.emit2 is (fullVec d) (.sc (wd k)))

/-- The mailbox words of a slot that wait for its UCNT are written (R319). -/
def execMailboxDeposit (s : State) : Out :=
  match s.event with
  | some (.mailboxDeposit c k) =>
    let s := s.taken
    if s.quiet c k then
      let s := (s.slot c k).deps.foldl (fun s (j, b, d) => s.modBox c j b fun _ => { data := d, full := true, claim := none }) s
      .next (s.modSlot c k fun x => { x with deps := [] })
    else .next s
  | _ => .fault .noSubject

/-- MBXST (R320). -/
def Core.mbxst (k : Core) : Word :=
  (List.range 7).foldl (fun w i =>
    let t := (k.slot i).th
    setBit (setBit w i t.box0.full) (7 + i) t.box1.full) 0

/-! ### Tag waits (R332, R333) -/

/-- The plane that a wait selects. -/
def waitPlane (f : Form) (k : Core) : Word := if f.sub.getLsbD 0 then k.ctagl else k.ctagf

/-- The satisfied tags of a wait's mask. -/
def waitSat (is : Iss) (s : State) : Word := satisfied is.lw (waitPlane is.f (s.core is.c)) (s.core is.c).ctage

/-- The tags a wait observes landing whose copies carry ACQ: it then acts as XFENCE copy, core (R328). -/
def acqSeen (is : Iss) (s : State) (seen : Word) : Bool :=
  is.f.sub.getLsbD 0 && (seen &&& (s.core is.c).ctagl &&& (s.core is.c).acqTags) != 0

/-- A wait that has observed: it fires, with the invalidation an ACQ copy asks for. -/
def waitFire (is : Iss) (s : State) (seen : Word) (res : Word) : State :=
  (if acqSeen is s seen then s.modCore is.c (·.l1Invalidate is.ctx) else s).emit is (.sc res)

/-- An observation of an ACQ copy waits for UCNT = 0 as an XFENCE does (R148). -/
def acqHeld (is : Iss) (s : State) (seen : Word) : Bool := acqSeen is s seen && !(s.quiet is.c is.k)

def ffrSeen (is : Iss) (s : State) : Word := wd (2 ^ lowestBit (waitSat is s))

def waitanyWaits (is : Iss) (s : State) : Bool :=
  is.lw != 0 && (waitSat is s == 0 || acqHeld is s (waitSat is s))
def waitallWaits (is : Iss) (s : State) : Bool := waitSat is s != is.lw || acqHeld is s is.lw
def ffrWaits (is : Iss) (s : State) : Bool := is.lw != 0 && (waitSat is s == 0 || acqHeld is s (ffrSeen is s))

def execWaitany (f : Form) (s : State) : Out :=
  issueWhen (.waitany f) s waitanyWaits fun is s =>
    if is.lw == 0 then .next (s.trapAt is .badControlValue)
    else .next (waitFire is s (waitSat is s) (waitSat is s))

def execWaitall (f : Form) (s : State) : Out :=
  issueWhen (.waitall f) s waitallWaits fun is s => .next (waitFire is s is.lw is.lw)

def execFfr (f : Form) (s : State) : Out :=
  issueWhen (.ffr f) s ffrWaits fun is s =>
    if is.lw == 0 then .next (s.trapAt is .badControlValue)
    else .next (waitFire is s (ffrSeen is s) (wd (lowestBit (waitSat is s))))

def execTagclr (f : Form) (s : State) : Out :=
  issue (.tagclr f) s fun is s => .next (s.emitDue is (.sc (is.lw &&& (s.core is.c).busy)) (.tagclr is.lw))

/-- TAGCLR's commit (R333). -/
def Core.tagclr (k : Core) (mask : Word) : Core :=
  let keep := ~~~(mask &&& ~~~k.busy)
  { k with ctagf := k.ctagf &&& keep, ctagl := k.ctagl &&& keep, ctage := k.ctage &&& keep }

/-! ### The standard drover (R321, R322) -/

/-- The standard drover's place in its program (R322, log 19): N is 0 while it awaits a request, and 16 (k + 1) while its reply
to slot k, which V0 holds, is not yet in that slot's box. -/
def Thread.drvReply (t : Thread) : Option (Nat × Vec) :=
  let n := t.regs.n.toNat
  if n % 16 == 0 && 1 ≤ n / 16 && n / 16 ≤ 7 then some (n / 16 - 1, t.regs.v[0]) else none

def Thread.drvOwes (t : Thread) (k : Nat) (d : Vec) : Thread :=
  { t with regs := { t.regs with n := wd (16 * (k + 1)), v := t.regs.v.setIfInBounds 0 d } }

/-- DRVCFG.EXP. -/
def Core.drvExp (k : Core) : Bool := k.drvcfg.getLsbD 17

/-- A reply of the standard drover. -/
def reply8 (ws : List Word) : Vec := vecOf (ws.flatMap fun w => toBytes 8 w.toNat)

/-- Serve one request: its effects and the reply words. -/
def State.drvServe (s : State) (c : Nat) (d : Vec) : State × List Word :=
  let w := wordsFrom 8 (vecBytes d)
  let w0 := (w[0]?).getD 0
  let w1 := (w[1]?).getD 0
  let op := field w0 0 8
  let tag := field w0 8 6
  let used := if op == 3 then 1 else 2
  let k := s.core c
  if op == 0 || 3 < op || field w0 14 50 != 0 || (w.drop used).any (· != 0) then (s, [3])
  else if op == 3 then (s, [0, k.ctagf, k.ctagl, k.ctage])
  else if op == 2 then (s.modCore c (·.tagclr w1), [0, w1 &&& k.busy])
  else if k.tagBusy tag then (s, [1])
  else match s.copyCheck c (s.slot c 7).th.ctx false w1 (wd tag) with
    | (s, .error r) => (s, [wd (2 + causeCode r.cause * 256)])
    | (s, .ok cd) => (s.copyStart c tag cd, [0])

/-- A request is a COPY whose descriptors' reads must wait, as those of the instruction do (R25, R111). -/
def State.drvHeld (s : State) (c : Nat) (d : Vec) : Bool :=
  let w := wordsFrom 8 (vecBytes d)
  field ((w[0]?).getD 0) 0 8 == 1 && s.copyHeld c (s.slot c 7).th.ctx false ((w[1]?).getD 0).toNat

/-- The standard drover can act: a reply can be written, or a request claimed. -/
def State.drvReady (s : State) (c : Nat) : Bool :=
  match (s.slot c 7).th.drvReply with
  | some (k, _) => (s.box c k 1).mayWrite && s.quiet c 7
  | none => match s.nextBox c with
    | some k => !(s.drvHeld c (s.box c k 0).data)
    | none => false

/-- One act of the standard drover: it writes its reply, or claims and serves the next request.
DESIGN CHOICE, log 19. -/
def State.drvStep (s : State) (c : Nat) : State :=
  match (s.slot c 7).th.drvReply with
  | some (k, d) =>
    if (s.box c k 1).mayWrite && s.quiet c 7 then
      (s.modBox c k 1 fun _ => { data := d, full := true }).modThread c 7 fun t => { t with regs := { t.regs with n := 0 } }
    else s
  | none =>
    match s.nextBox c with
    | none => s
    | some k =>
      let d := (s.box c k 0).data
      if s.drvHeld c d then s else
      let s := (s.modBox c k 0 fun m => { m with full := false }).modCore c fun x => { x with mbxPtr := k }
      let (s, ws) := s.drvServe c d
      s.modThread c 7 fun t => t.drvOwes k (reply8 ws)

/-! ### Runnel ports (R334 to R336) -/

/-- Extent and stride of a pattern's dimension. -/
def patExt (pat : List Word) (d : Nat) : Nat := field ((pat[1 + d]?).getD 0) 0 32
def patStr (pat : List Word) (d : Nat) : Int := signed 32 (field ((pat[1 + d]?).getD 0) 32 32)
def patBase (pat : List Word) : Nat := field ((pat[0]?).getD 0) 0 56
def patExts (pat : List Word) : List Nat := (List.range 4).map (patExt pat)
def patStrs (pat : List Word) : List Int := (List.range 4).map (patStr pat)
def patTotal (pat : List Word) : Nat := (patExts pat).foldl (· * ·) 1

/-- The address of word `w`. -/
def patAddr (pat : List Word) (w : Nat) : Nat := ((patBase pat : Int) + strideSum 0 (unlinear (patExts pat) w) (patStrs pat)).toNat

/-- First and last byte of a pattern. -/
def patRange (pat : List Word) : Int × Int :=
  let (lo, hi) := strideRange (patExts pat) (patStrs pat)
  ((patBase pat : Int) + lo, (patBase pat : Int) + hi + 7)

/-- A pattern record is valid. -/
def patValid (addr : Nat) (pat : List Word) : Bool :=
  addr % 64 == 0 && field ((pat[0]?).getD 0) 56 8 == 0 && patBase pat % 8 == 0 &&
    (List.range 4).all (fun d => patStr pat d % 8 == 0 && patExt pat d != 0) &&
    field ((pat[5]?).getD 0) 32 32 == 0 && polOk ((pat[5]?).getD 0) false false false &&
    (pat[6]?).getD 0 == 0 && (pat[7]?).getD 0 == 0

/-- The port an instruction names. -/
def Iss.portNo (is : Iss) : Nat := match is.f.reg with | some (_, n) => n.toNat | none => 0

/-- A bound port. -/
def Thread.port? (t : Thread) (p : Nat) : Option Port := (t.ports.get? p).filter fun x => !x.closing

/-- The sheaf has already bound the port. -/
def Flight.binds (fl : Flight) (p : Nat) : Bool := fl.due.any fun d => match d.act with | .rnbind q .. => q == p | _ => false

def rnMode (n : Nat) : PortMode :=
  match n with
  | 0 => .fill
  | 1 => .drain
  | 2 => .nbr
  | _ => .ring

/-- The pattern record that RNBIND reads must wait (`State.descHeld`). -/
def rnbindWaits (is : Iss) (s : State) : Bool := is.f.sub.toNat ≤ 1 && s.descHeld is.c is.k is.ctx is.priv is.lw.toNat 64

/-- DEDUCED, log 48. -/
def execRnbind (f : Form) (s : State) : Out :=
  issueWhen (.rnbind f) s rnbindWaits fun is s =>
    let p := is.portNo
    let mode := is.f.sub.toNat
    if (is.th.ports.get? p).isSome || is.fl.binds p then .next (s.trapAt is .runnelBusy)
    else if mode ≤ 1 then
      match s.readWords is.xer is.agent is.ctx is.priv is.lw.toNat 8 with
      | (s, .error r) => .next (s.recTrap is r)
      | (s, .ok pat) =>
        if !(patValid is.lw.toNat pat) then .next (s.trapAt is .badDescriptor)
        else if !(canonical (some (patRange pat))) then .next (s.trapAt is .nonCanonicalAddress)
        else .next (s.fireDue is (.rnbind p mode is.lw 0 pat is.priv))
    else if mode == 2 then
      if !(is.lw.toNat < 64 && stileOk ((s.core is.c).stile.get is.lw.toNat 0) [0] 59) then .next (s.trapAt is .stileFault)
      else if 64 ≤ is.xw.toNat then .next (s.trapAt is .badControlValue)
      else .next (s.fireDue is (.rnbind p mode ((s.core is.c).stile.get is.lw.toNat 0) is.xw [is.lw] is.priv))
    else if 4 ≤ is.lw.toNat || !((s.core is.c).rings[is.lw.toNat]?.getD {}).en then .next (s.trapAt is .badControlValue)
    else .next (s.fireDue is (.rnbind p mode is.lw 0 [] is.priv))

/-- RNBIND's commit. DEDUCED, log 53. -/
def State.bindPort (s : State) (c k p mode : Nat) (operand x : Word) (pat : List Word) (priv : Bool) : State :=
  let m := rnMode mode
  let port : Port := { mode := m, operand := if m == .nbr then (pat[0]?).getD 0 else operand, link := x.toNat,
                       stile := if m == .nbr then operand else 0, pat := if m == .nbr then [] else pat, priv := priv,
                       ctx := (s.slot c k).th.ctx, id := s.nextId + 1 }
  let s := { s.engineAt (.feeder c k p) with nextId := s.nextId + 1 }
  let s := if m == .ring then s.modCore c fun y => { y with rings := y.rings.mapIdx fun i r => if i == operand.toNat then { r with part := 0 } else r } else s
  s.modThread c k fun t => { t with ports := t.ports.put p port }

/-- RNUNBIND waits for the port's work to settle. -/
def rnunbindWaits (is : Iss) (_ : State) : Bool :=
  match is.th.port? is.portNo with
  | some p => (match p.mode with
    | .drain => !p.buf.isEmpty
    | .nbr => p.unack != 0
    | _ => false)
  | none => false

def execRnunbind (f : Form) (s : State) : Out :=
  issueWhen (.rnunbind f) s rnunbindWaits fun is s =>
    match is.th.port? is.portNo with
    | none => .next (s.trapAt is .runnelUnbound)
    | some _ => .next (s.fireDue is (.rnunbind is.portNo))

/-- RNUNBIND's commit; a drain with words of the same sheaf closes once they are written. DEDUCED, log 51. -/
def State.unbindPort (s : State) (c k p : Nat) : State :=
  s.modThread c k fun t =>
    match t.ports.get? p with
    | some x => if x.mode == .drain && !x.buf.isEmpty then { t with ports := t.ports.put p { x with closing := true } }
                else { t with ports := t.ports.del p }
    | none => t

/-- Words of a link that wait at a core from the peer of a port. -/
def State.linkWords (s : State) (c : Nat) (p : Port) : List Word :=
  ((s.core c).links.filter fun e => e.1 == p.link && e.2.1 == stileCore p.stile).map (·.2.2.2)

/-- Words the sheaf has read of a port. -/
def Flight.readCount (fl : Flight) (p : Nat) : Nat := ((fl.rnread.find? fun e => e.1 == p).map (·.2)).getD 0

/-- A lower-LSN READ of the same port has not resolved. DEDUCED, log 49. -/
def Flight.readBehind (fl : Flight) (lsn p : Nat) : Bool :=
  (List.range fl.sheaf.insts.length).any fun j =>
    match fl.sheaf.ordered j with
    | some (m, n, f) => m < lsn && n.page == 0 && n.op == 0 && f.reg.any (fun r => r.2.toNat == p) && !fl.resolved j
    | none => false

/-- A READ of a bound port is not ready (R335). -/
def rnreadWaits (is : Iss) (s : State) : Bool :=
  match is.th.port? is.portNo with
  | none => false
  | some p =>
    let r := is.fl.readCount is.portNo
    is.fl.readBehind is.lsnN is.portNo ||
      (match p.mode with
       | .fill => p.buf.length ≤ r && p.pos < patTotal p.pat
       | .nbr => (s.linkWords is.c p).length ≤ r
       | _ => false)

/-- One more word of a port is read. -/
def Flight.countRead (fl : Flight) (p : Nat) : Flight :=
  { fl with rnread := (p, fl.readCount p + 1) :: fl.rnread.filter fun e => e.1 != p }

/-- A READ of class S. -/
def rnread (is : Iss) (s : State) : State :=
  let p := is.portNo
  match is.th.port? p with
  | none => s.trapAt is .runnelUnbound
  | some x =>
    let r := is.fl.readCount p
    let got := fun (w : Word) => ((s.modFlight is.c is.k (·.countRead p)).emitDue is (.sc w) (.rnread p))
    match x.mode with
    | .drain | .ring => s.trapAt is .runnelMode
    | .nbr => match (s.linkWords is.c x)[r]? with
      | some w => got w
      | none => s
    | .fill => match x.buf[r]? with
      | some (some w) => got w
      | some none =>
        (s.recTrap is (x.err.getD { cause := .pageNotMapped })).modPort is.c is.k p fun y =>
          { y with buf := y.buf.take r, err := none }
      | none => s.emit is .null

def execRead (f : Form) (s : State) : Out :=
  if isRunnel f then issueWhen (.read f) s rnreadWaits fun is s => .next (rnread is s)
  else issue (.read f) s fun is s =>
    match f.reg with
    | some (cls, n) =>
      let t := if cls == 2 && 2 ≤ n.toNat && n.toNat ≤ 5 then some (.sc (is.th.shadow (n.toNat - 2)))
        else is.th.regs.read cls n
      .next (s.emit is (t.getD (.sc 0)))
    | none => .next (s.emit is (.sc 0))

/-- A WRITE of class S: a word is buffered until commit. -/
def rnwrite (is : Iss) (s : State) : State :=
  match is.th.port? is.portNo with
  | none => s.trapAt is .runnelUnbound
  | some x => if x.mode == .fill then s.trapAt is .runnelMode else s.fireDue is (.rnwrite is.portNo is.lw)

/-! ### The feeders (R335) -/

/-- The policy word of a pattern. -/
def Port.pol (p : Port) : BitVec 32 := ((p.pat[5]?).getD 0).setWidth 32

/-- A step of a port. -/
def withPort (s : State) (get : Event → Option (Nat × Nat × Nat)) (body : State → Nat → Nat → Nat → Port → State) : Out :=
  match s.event.bind get with
  | some (c, k, p) => match (s.slot c k).th.ports.get? p with
    | some x => .next (body s.taken c k p x)
    | none => .next s.taken
  | none => .fault .noSubject

/-- A fill port may fetch: its buffer has room and its pattern goes on. -/
def Port.canFetch (p : Port) : Bool :=
  p.mode == .fill && p.err.isNone && p.buf.length < 16 && p.pos < patTotal p.pat

def execRunnelFillFetch (s : State) : Out :=
  withPort s (fun e => match e with | .runnelFillFetch c k p => some (c, k, p) | _ => none) fun s c k p x =>
    let va := patAddr x.pat x.pos
    if !x.canFetch || s.readHeld (.copse (c / 8)) x.ctx x.priv va 8 then s
    else
      match s.readVa (.copse (c / 8)) (.feeder c k p) x.ctx x.priv va 8 (coverWord va 8) x.pol with
      | (s, .ok bs) => s.modPort c k p fun y => { y with buf := y.buf ++ [some (wd (ofBytes bs))], pos := y.pos + 1 }
      | (s, .error r) => s.modPort c k p fun y => { y with buf := y.buf ++ [none], err := some r }

/-- A drain port has a word to write. -/
def Port.canDrain (p : Port) : Bool := p.mode == .drain && !p.stopped && !p.buf.isEmpty

/-- A drain word fails its checks: the port stops and reports (R336). -/
def State.portStop (s : State) (c k p : Nat) (x : Port) (r : TrapRec) : State :=
  (s.modPort c k p fun y => { y with stopped := true }).sendRecord (nodeOf (c / 8), epFeeder) x.ctx r.cause
    x.operand.toNat (p * 2 ^ 58 + 2 * 2 ^ 55 + 2 ^ 54 + k * 2 ^ 51 + x.pos % 2 ^ 48) (r.addr.getD 0)
    (coverWordOf (some (patRange x.pat)))

/-- A drain word has been written. -/
def State.portWrote (s : State) (c k p : Nat) : State :=
  s.modThread c k fun t => match t.ports.get? p with
    | some x =>
      let x := { x with buf := x.buf.drop 1, pos := x.pos + 1 }
      if x.closing && x.buf.isEmpty then { t with ports := t.ports.del p } else { t with ports := t.ports.put p x }
    | none => t

def execRunnelDrainWrite (s : State) : Out :=
  withPort s (fun e => match e with | .runnelDrainWrite c k p => some (c, k, p) | _ => none) fun s c k p x =>
    match x.canDrain, x.buf with
    | true, some w :: _ =>
      let va := patAddr x.pat x.pos
      match s.checkBytes (.copse (c / 8)) x.ctx x.priv va 8 false true with
      | (s, .error e) => s.portStop c k p x (xfailRec e 0)
      | (s, .ok ps) => match s.writeParts (.feeder c k p) x.ctx va (toBytes 8 w.toNat) 0 x.pol ps with
        | .done s => s.portWrote c k p
        | .fault s r => s.portStop c k p x r
        | .wait => s
    | _, _ => s

/-- A neighbour port on a link to a peer; of one binding where its name is given. -/
def Port.joins (x : Port) (link peer : Nat) (id : Option Nat) : Bool :=
  x.mode == .nbr && x.link == link && stileCore x.stile == peer && (match id with | some n => x.id == n | none => true)

/-- Change such ports. -/
def fixPorts (link peer : Nat) (id : Option Nat) (g : Port → Port) (ps : SMap Port) : SMap Port :=
  ps.map fun (n, x) => (n, if x.joins link peer id then g x else x)

def Thread.fixPorts (t : Thread) (link peer : Nat) (id : Option Nat) (g : Port → Port) : Thread :=
  { t with ports := Sys2Proof.Machine.fixPorts link peer id g t.ports }

/-- Such a port is bound at a core: in a slot, or by a context in the thread-context cache or behind it. -/
def Core.hasPort (k : Core) (link peer : Nat) (id : Option Nat) : Bool :=
  let has := fun (ps : SMap Port) => ps.any fun e => e.2.joins link peer id
  k.slots.toList.any (fun x => has x.th.ports || has x.ports) || (k.cache ++ k.backing).any fun e => has e.2.th.ports

/-- Change the port that a word or a credit is of: the binding that sent the word; where that is gone, the port on the link to
the peer. -/
def State.peerPort (s : State) (c link peer id : Nat) (g : Port → Port) : State :=
  s.modCore c fun k =>
    let id := if k.hasPort link peer (some id) then some id else none
    { k with slots := k.slots.map (fun x => { x with th := x.th.fixPorts link peer id g, ports := fixPorts link peer id g x.ports }),
             cache := k.cache.map fun (n, e) => (n, { e with th := e.th.fixPorts link peer id g })
             backing := k.backing.map fun (n, e) => (n, { e with th := e.th.fixPorts link peer id g }) }

/-- A packet that its core's network interface does not accept, since the core does not host its context, returns as a misroute
message without words (R100). DEDUCED, log 67. -/
def State.notHosted (s : State) (c ctx : Nat) : State := s.supvMsg (coreEnd c) ctx 4 (some c) none none none none none

/-- A word has reached the peer core, which takes it for a context that it hosts (R100, R388). -/
def execNeighbourWord (s : State) : Out :=
  match s.event with
  | some (.neighbourWord c ctx link sender id w) =>
    let s := s.taken
    let s := if s.hosts c ctx then s.modCore c fun k => { k with links := k.links ++ [(link, sender, id, w)] } else s.notHosted c ctx
    .next (s.peerPort sender link c id fun p => { p with unack := p.unack - 1 })
  | _ => .fault .noSubject

/-- A credit has come back to the sender's port: one word of its 16 has been taken. -/
def execNeighbourCredit (s : State) : Out :=
  match s.event with
  | some (.neighbourCredit c ctx link peer id) =>
    let s := s.taken
    .next (if s.hosts c ctx then s.peerPort c link peer id fun p => { p with credits := min 16 (p.credits + 1) }
           else s.notHosted c ctx)
  | _ => .fault .noSubject

/-- Drop the first word of a link from a sender. -/
def dropWord (link sender : Nat) : List (Nat × Nat × Nat × Word) → List (Nat × Nat × Nat × Word)
  | [] => []
  | e :: rest => if e.1 == link && e.2.1 == sender then rest else e :: dropWord link sender rest

/-- The binding that sent the first word of a link. -/
def Core.wordPort (k : Core) (link sender : Nat) : Nat :=
  ((k.links.find? fun e => e.1 == link && e.2.1 == sender).map (·.2.2.1)).getD 0

/-- The port advances by one word read, at commit; the credit of a neighbour's word joins the slot's queue, in message class
(R89; DESIGN CHOICE, log 139). -/
def State.readAdvance (s : State) (c k p : Nat) : State :=
  match (s.slot c k).th.ports.get? p with
  | none => s
  | some x =>
    match x.mode with
    | .fill => s.modPort c k p fun y => { y with buf := y.buf.drop 1 }
    | .nbr =>
      let peer := stileCore x.stile
      let ctx := (s.slot c k).th.ctx
      (s.modCore c fun y => { y with links := dropWord x.link peer y.links }).inject c k
        { msg := true, cls := 2, src := coreEnd c, dst := coreEnd peer, ctx := ctx,
          deliver := .neighbourCredit peer ctx x.link c ((s.core c).wordPort x.link peer) }
    | _ => s

/-! ### Ring ports (R300, R335) -/

/-- Bytes of an entry. -/
def Ring.es (r : Ring) : Nat := if r.scl then 0x1080 else 0x1000
def Ring.count (r : Ring) : Nat := (r.tail + 0x10000 - r.head) % 0x10000

/-- Words that a ring port may still write. -/
def Ring.room (r : Ring) : Nat := (r.ent - r.count) * (r.es / 8) - r.part

/-- The scratchpad address of entry `i`. -/
def Ring.addr (r : Ring) (c i : Nat) : Nat := scratchBase c + r.base + i % r.ent * r.es


/-- The next words of a ring's entry lie in granules that another agent has reserved, where a write waits (R139). -/
def State.ringHeld (s : State) (c k ring n : Nat) : Bool :=
  let r := (s.core c).ring ring
  (List.range n).any fun i =>
    let w := r.part + i
    let pa := r.addr c (r.tail + w / (r.es / 8)) + 8 * (w % (r.es / 8))
    match s.resv (pa / 16) with
    | w :: _ => w.req.agent != .slot c k
    | [] => false

/-- A ring after one more word has been written: a completed entry is published. -/
def Ring.wrote (r : Ring) : Ring :=
  if r.part + 1 == r.es / 8 then { r with part := 0, tail := (r.tail + 1) % 0x10000 } else { r with part := r.part + 1 }

/-- A word of a ring is stored in the core's scratchpad, and the ricks it makes stale are marked. -/
def State.ringStore (s : State) (c k ctx pa : Nat) (w : Word) : State :=
  match s.homeWrite ctx ctx 0 pa ((toBytes 8 w.toNat).map some) (.slot c k) with
  | (s, hits, _) => s.applyMarks hits

/-- A word fills the ring's next unpublished entry. -/
def State.ringWrite (s : State) (c k ctx ring : Nat) (w : Word) : State :=
  let r := (s.core c).ring ring
  if r.room == 0 then s
  else (s.ringStore c k ctx (r.addr c r.tail + 8 * r.part) w).modCore c fun y => y.setRing ring r.wrote

/-! ### Messages (R337, R338) -/

/-- The channel of a SEND, or why it is refused. -/
def sendChan (is : Iss) (e : Word) : Except Cause Nat :=
  if !(stileOk e [0, 1] 60) then .error .stileFault
  else if stileKind e == 1 then .ok (field e 34 6)
  else if 64 ≤ is.xw.toNat then .error .badControlValue
  else .ok is.xw.toNat

def sendAt (i : Instr) (s : State) (ord : Bool) : Out :=
  issue i s fun is s =>
    if 64 ≤ is.lw.toNat then .next (s.trapAt is .badControlValue)
    else
      let e := (s.core is.c).stile.get is.lw.toNat 0
      match sendChan is e with
      | .error c => .next (s.trapAt is c)
      | .ok ch => .next (s.fireDue is (.send e ch is.r.bytes ord))

def execSend (f : Form) (s : State) : Out := sendAt (.send f) s false
def execSendOrd (f : Form) (s : State) : Out := sendAt (.sendOrd f) s true

/-- The packet of a send. -/
def sendPkt (c : Nat) (stile : Word) (ch : Nat) (data : Vec) (ord : Bool) : Pkt :=
  let to_ := stileCore stile
  let ctx := field stile 52 6
  { msg := true, cls := 2, src := coreEnd c, dst := coreEnd to_, ctx := ctx, ord := ord,
    deliver := .arrival to_ { ctx := ctx, chan := ch, body := .msg data, kid := some (field stile 16 6) } }

/-- WAITMSG and MSGPOP see an entry: a message or task packet of the channel, unclaimed. -/
def poppable (e : Entry) (ch : Nat) : Bool :=
  e.chan == ch && e.claim.isNone && (match e.body with | .burr _ => false | _ => true)

def Core.entriesOf (k : Core) (ch : Nat) : List Entry := (k.aq ++ k.spill).filter fun e => poppable e ch

/-- A channel is open (R176). -/
def chanOpen (e : Word) : Bool := e.getLsbD 63 && !e.getLsbD 61
def Core.chanOpen (k : Core) (ch : Nat) : Bool := Sys2Proof.Machine.chanOpen (k.tchan.get ch 0)

/-- What MSGPOP delivers of an entry. -/
def popData (e : Entry) : Vec :=
  match e.body with
  | .msg d => d
  | .task p => reply8 [p.a0, p.a1, p.a2, p.a3]
  | .mgmt a b c d => reply8 [a, b, c, d]
  | .burr _ => 0

def waitmsgWaits (is : Iss) (s : State) : Bool := is.lw.toNat < 64 && ((s.core is.c).entriesOf is.lw.toNat).isEmpty
def msgpopWaits (is : Iss) (s : State) : Bool :=
  is.lw.toNat < 64 && !((s.core is.c).chanOpen is.lw.toNat) && ((s.core is.c).entriesOf is.lw.toNat).isEmpty

def execWaitmsg (f : Form) (s : State) : Out :=
  issueWhen (.waitmsg f) s waitmsgWaits fun is s =>
    if 64 ≤ is.lw.toNat then .next (s.trapAt is .badControlValue)
    else .next (s.emit is (.sc (wd ((s.core is.c).entriesOf is.lw.toNat).length)))

/-- Claim the first entry of a channel. -/
def claimFirst (ch k : Nat) : List Entry → List Entry
  | [] => []
  | e :: rest => if poppable e ch then { e with claim := some k } :: rest else e :: claimFirst ch k rest

def execMsgpop (f : Form) (s : State) : Out :=
  issueWhen (.msgpop f) s msgpopWaits fun is s =>
    let ch := is.lw.toNat
    let k := s.core is.c
    if 64 ≤ ch || k.chanOpen ch then .next (s.trapAt is .badControlValue)
    else match k.entriesOf ch with
      | [] => .next s
      | e :: _ =>
        let s := s.setCore is.c
          (if k.aq.any fun x => poppable x ch then { k with aq := claimFirst ch is.k k.aq }
           else { k with spill := claimFirst ch is.k k.spill })
        .next (s.emitDue is (fullVec (popData e)) .msgpop)

/-- The head of the spill moves into a queue with room (R167). -/
def Core.reload (k : Core) : Nat → Core
  | 0 => k
  | n + 1 =>
    if k.aq.length < 48 then
      match k.spill with
      | e :: rest => Core.reload { k with aq := k.aq ++ [e], spill := rest } n
      | [] => k
    else k

/-- Remove the first entry a slot has claimed. -/
def dropClaim (k : Nat) : List Entry → List Entry
  | [] => []
  | e :: rest => if e.claim == some k then rest else e :: dropClaim k rest

/-- MSGPOP's commit. -/
def Core.popClaim (x : Core) (k : Nat) : Core :=
  (if x.aq.any fun e => e.claim == some k then { x with aq := dropClaim k x.aq }
   else { x with spill := dropClaim k x.spill }).reload 48

end Sys2Proof.Machine
end

