-- ==== Sys2Proof/Machine/Crofts.lean ====
section
/-!
DEFINITION. Arrival queues (R167), the croft map and owner lookups (R342 to R345), covered regions, burr tables and K
notices (R348 to R350), map updates (R346, R347).
-/
namespace Sys2Proof.Machine
open Sys2Proof

/-! ### Packets as words (R164, R174) -/

/-- The eight words of a task packet. -/
def taskWords (p : TaskPkt) : List Word :=
  [wd (p.memb.toNat * 2 ^ 32 + p.ctx * 2 ^ 26 + p.chan * 2 ^ 20 + p.cls * 2 ^ 17 + (if p.orig then 2 ^ 16 else 0) + p.daff.toNat),
   p.fmt.setWidth 64, p.scale.setWidth 64,
   wd (p.hrow * 2 ^ 60 + p.hcol * 2 ^ 56 + p.hcore * 2 ^ 53 + (if p.hv then 2 ^ 52 else 0) + p.rad * 2 ^ 48),
   p.a0, p.a1, p.a2, p.a3]

/-- A task packet from its eight words; a non-zero reserved bit is noted (R174). -/
def taskFrom (ws : List Word) : TaskPkt :=
  let w := fun (i : Nat) => (ws[i]?).getD 0
  { memb := (w 0).extractLsb' 32 32, ctx := field (w 0) 26 6, chan := field (w 0) 20 6, cls := field (w 0) 17 3, orig := (w 0).getLsbD 16,
    daff := (w 0).extractLsb' 0 16, fmt := (w 1).extractLsb' 0 32, scale := (w 2).extractLsb' 0 56, hrow := field (w 3) 60 4,
    hcol := field (w 3) 56 4, hcore := field (w 3) 53 3, hv := (w 3).getLsbD 52, rad := field (w 3) 48 4,
    reserved := field (w 1) 32 32 != 0 || field (w 2) 56 8 != 0 || field (w 3) 0 48 != 0,
    a0 := w 4, a1 := w 5, a2 := w 6, a3 := w 7 }

/-- The sixteen words of a burr packet. -/
def burrWords (b : Burr) : List Word :=
  [wd (b.memb.toNat * 2 ^ 32 + b.ctx * 2 ^ 26 + b.chan * 2 ^ 20 + if b.fw then 2 ^ 19 else 0), b.fmt.setWidth 64,
   b.scale.setWidth 64, wd (b.bid.toNat * 2 ^ 32 + b.lfsr.toNat), b.mode.setWidth 64] ++ b.g.toList ++ [b.k, b.n, b.q0]

/-- The words of an entry. -/
def entryWords (e : Entry) : List Word :=
  match e.body with
  | .task p => taskWords p
  | .burr b => burrWords b
  | .msg d => wordsFrom 8 (vecBytes d)
  | .mgmt a b c d => [a, b, c, d]

/-! ### Joining an arrival queue (R167) -/

/-- Entries that a core's spill region holds at most: 32 in each 4 KiB, the last 32 kept for management-class entries; a region
of one 4 KiB serves every class, as R414 has it (DESIGN CHOICE, log 140). -/
def Core.spillCap (k : Core) (mgmt : Bool) : Nat :=
  let n := 32 * field k.aspill 56 8
  if mgmt || n == 32 then n else n - 32

/-- Entries that the core still takes of message or management class. -/
def Core.room (k : Core) (mgmt : Bool) : Nat :=
  (if k.spill.isEmpty then 48 - k.aq.length else 0) + (k.spillCap mgmt - k.spill.length)

/-- The core takes another entry. -/
def Core.takes (k : Core) (mgmt : Bool) : Bool := k.room mgmt != 0

/-- Entries that have reached a core and join its arrival queue or spill next. -/
def State.arriving (s : State) (c : Nat) : Nat :=
  s.pending.countP fun e => match e with | .arrival d _ => d == c | _ => false

/-- A core has room for one more entry beside those that have reached it. -/
def State.coreRoom (s : State) (c : Nat) (mgmt : Bool) : Bool := s.arriving c < (s.core c).room mgmt

/-- All 48 entries belong to blocked channels while the spill holds entries. -/
def Core.jammed (k : Core) : Bool := 48 ≤ k.aq.length && !k.spill.isEmpty && k.aq.all fun e => !(k.chanOpen e.chan)

/-- arrival-jam and spill-full go to the supervisor core, once for each jam and each filling (R167, R372); spill-full goes too
when there is no spill region and the queue is full (DESIGN CHOICE, log 124). -/
def State.noteJam (s : State) (c : Nat) : State :=
  let k := s.core c
  let s := match k.jammed, k.jamSent, k.ctx with
    | true, false, some ctx =>
      (s.modCore c fun k => { k with jamSent := true }).supvMsg (coreEnd c) ctx 5 (some c) none none none none none
    | false, true, _ => s.modCore c fun k => { k with jamSent := false }
    | _, _, _ => s
  match k.takes false, k.fullSent, k.ctx with
  | false, false, some ctx =>
    (s.modCore c fun k => { k with fullSent := true }).supvMsg (coreEnd c) ctx 6 (some c) none none none none none
  | true, true, _ => s.modCore c fun k => { k with fullSent := false }
  | _, _, _ => s

/-- The bytes of an entry. -/
def entryBody (e : Entry) : List Byte := (entryWords e).flatMap fun w => toBytes 8 w.toNat

/-- A spilled entry is written to the next of the region's places of 128 bytes, sealed under its key id and not dirty-tracked
(R168).  The order of the places is the model's (DESIGN CHOICE, log 123). -/
def State.writeSpilled (s : State) (aspill : Word) (n : Nat) (e : Entry) : State :=
  s.putSealed (e.kid.getD e.ctx) (field aspill 12 44 * 4096 + 128 * (n % (32 * field aspill 56 8))) (entryBody e)

/-- An entry joins the tail: of the queue, or of the spill once anything is spilled. -/
def State.enqueue (s : State) (c : Nat) (e : Entry) : State :=
  let k := s.core c
  let e := { e with since := s.now }
  (if k.spill.isEmpty && k.aq.length < 48 then s.setCore c { k with aq := k.aq ++ [e] }
   else (s.setCore c { k with spill := k.spill ++ [e], spilled := k.spilled + 1 }).writeSpilled k.aspill k.spilled e).noteJam c

/-! ### The croft map (R341, R342) -/

/-- The coordinate path of a K value: depth 32, as 64 bits (R341). -/
def kPath (k : Word) : Nat := curveIndex 32 (field k 32 32) (field k 0 32)
def kRow (k : Word) : Nat := field k 32 32
def kCol (k : Word) : Nat := field k 0 32

/-- A read of a map word at its home, privileged (no sheaf makes it). DEDUCED, log 58. -/
def State.mapWord (s : State) (c ctx va : Nat) : State × Except TrapRec Word :=
  match s.readVa (.core c) (.slot c 0) ctx true va 8 (coverWord va 8) with
  | (s, .ok bs) => (s, .ok (wd (ofBytes bs)))
  | (s, .error r) => (s, .error r)

/-- CROOT as it has arrived at a core. -/
def Core.crootEn (k : Core) : Bool := k.croot.getLsbD 0
def Core.crootAddr (k : Core) : Nat := field k.croot 5 51 * 32

/-- A leaf entry, and a table entry that leads on. -/
def entLeaf (e : Word) : Bool := e.getLsbD 63 && e.getLsbD 62 && field e 56 6 == 0 && field e 11 29 == 0
def entTable (e : Word) : Bool := e.getLsbD 63 && !(e.getLsbD 62) && field e 56 6 == 0 && field e 0 5 == 0
def entNext (e : Word) : Nat := field e 5 51 * 32
def entCore (e : Word) : Nat := field e 0 11
def entSplt (e : Word) : Nat := field e 40 16
def leafEntry (core splt : Nat) : Word := wd (3 * 2 ^ 62 + splt * 2 ^ 40 + core)
def tableEntry (node : Nat) : Word := wd (2 ^ 63 + node)

/-- A croft found in the map: its digits and depth, owner, threshold, the address of its entry, of its node, and of the
entry that leads to its node. -/
structure Found where
  path  : Nat
  depth : Nat
  core  : Nat
  splt  : Nat
  ent   : Nat
  node  : Nat
  up    : Option Nat
  deriving DecidableEq, Repr

/-- Digit of a depth-32 path at a depth. -/
def pathDigit (p depth : Nat) : Nat := nbits p (64 - 2 * depth) 2

/-- Descend from a node at a depth to the croft of a point. -/
def State.descend (s : State) (c ctx p : Nat) (depth node : Nat) (up : Option Nat) :
    Nat → State × Except TrapRec (Option Found)
  | 0 => (s, .ok none)
  | n + 1 =>
    let ent := node + 8 * pathDigit p depth
    match s.mapWord c ctx ent with
    | (s, .error r) => (s, .error r)
    | (s, .ok e) =>
      if entLeaf e then (s, .ok (some ⟨p / 4 ^ (32 - depth), depth, entCore e, entSplt e, ent, node, up⟩))
      else if entTable e && depth < 32 then State.descend s c ctx p (depth + 1) (entNext e) (some ent) n
      else (s, .ok none)

/-- The root record's first three words. -/
structure Root where
  w0   : Word
  w1   : Word
  node : Nat
  deriving DecidableEq, Repr

def Root.version (r : Root) : Nat := field r.w0 32 32
def Root.crwd (r : Root) : Nat := field r.w0 26 6
def Root.hw (r : Root) : Nat := field r.w0 0 17
def Root.free (r : Root) : Nat := field r.w1 5 51 * 32

def State.rootRecord (s : State) (c ctx : Nat) : State × Except TrapRec Root :=
  let a := (s.core c).crootAddr
  match s.mapWord c ctx a with
  | (s, .error r) => (s, .error r)
  | (s, .ok w0) => match s.mapWord c ctx (a + 8) with
    | (s, .error r) => (s, .error r)
    | (s, .ok w1) => match s.mapWord c ctx (a + 16) with
      | (s, .error r) => (s, .error r)
      | (s, .ok w2) => (s, .ok ⟨w0, w1, field w2 5 51 * 32⟩)

/-- Find the croft of a point by a walk of the map. -/
def State.findCroft (s : State) (c ctx : Nat) (k : Word) : State × Except TrapRec (Root × Option Found) :=
  match s.rootRecord c ctx with
  | (s, .error r) => (s, .error r)
  | (s, .ok root) => match s.descend c ctx (kPath k) 1 root.node none 32 with
    | (s, .error r) => (s, .error r)
    | (s, .ok f) => (s, .ok (root, f))

/-- What a lookup answers: the croft's depth and owner, and the version used. -/
structure Owner where
  core    : Nat
  depth   : Nat
  version : Nat
  deriving DecidableEq, Repr

/-- An owner lookup (R344): the croft cache of 64 entries, unless a fresh walk is asked for, then the map; a failed read
means that nothing owns the point.  The version is known when VERSION could be read. -/
def State.lookup (s : State) (c ctx : Nat) (k : Word) (walk : Bool) : State × Option Owner × Option Nat :=
  let x := s.core c
  if !x.crootEn then (s, none, none)
  else match if walk then none else x.crofts.find? fun e => e.ctx == ctx && kPath k / 4 ^ (32 - e.depth) == e.path with
    | some e => (s, some ⟨e.core, e.depth, e.version⟩, some e.version)
    | none =>
      let version := match s.mapWord c ctx x.crootAddr with
        | (_, .ok w) => some (field w 32 32)
        | (_, .error _) => none
      match s.findCroft c ctx k with
      | (s, .error _) => (s, none, version)
      | (s, .ok (root, none)) => (s, none, some root.version)
      | (s, .ok (root, some f)) =>
        let e : CroftEnt := { path := f.path, depth := f.depth, core := f.core, splt := f.splt, version := root.version, ctx := ctx }
        (s.modCore c fun y => { y with crofts := (e :: y.crofts.filter fun z => !(z.ctx == ctx && z.path == f.path && z.depth == f.depth)).take 64 },
          some ⟨f.core, f.depth, root.version⟩, some root.version)

/-! ### Every croft of a map, covered regions (R349, R352) -/

/-- A croft: digits, depth, owner, threshold. -/
structure Croft where
  path  : Nat
  depth : Nat
  core  : Nat
  splt  : Nat
  deriving DecidableEq, Repr

/-- Every croft below a node; where a read of the map fails, its record stands for the crofts that it leads to. -/
def State.croftsBelow (s : State) (c ctx : Nat) (path depth node : Nat) : Nat → List (Except TrapRec Croft)
  | 0 => []
  | n + 1 => (List.range 4).flatMap fun d =>
      match (s.mapWord c ctx (node + 8 * d)).2 with
      | .error r => [.error r]
      | .ok e =>
        if entLeaf e then [.ok ⟨4 * path + d, depth, entCore e, entSplt e⟩]
        else if entTable e && depth < 32 then State.croftsBelow s c ctx (4 * path + d) (depth + 1) (entNext e) n
        else []

/-- The crofts whose entries could be read. -/
def croftsRead (l : List (Except TrapRec Croft)) : List Croft := l.filterMap fun x => match x with | .ok y => some y | .error _ => none

/-- The first read that failed. -/
def mapError (l : List (Except TrapRec Croft)) : Option TrapRec := l.findSome? fun x => match x with | .error r => some r | .ok _ => none

/-- The map as a core sees it: its root and its crofts. -/
def State.croftMap (s : State) (c ctx : Nat) : Option (Root × List Croft) :=
  if !(s.core c).crootEn then none
  else match (s.rootRecord c ctx).2 with
    | .error _ => none
    | .ok r => some (r, croftsRead (s.croftsBelow c ctx 0 1 r.node 32))

/-- A box of coordinate space: rows r0 to r1 and columns c0 to c1, the ends left out. -/
structure Box where
  r0 : Nat
  r1 : Nat
  c0 : Nat
  c1 : Nat
  deriving DecidableEq, Repr

def Box.has (b : Box) (k : Word) : Bool := b.r0 ≤ kRow k && kRow k < b.r1 && b.c0 ≤ kCol k && kCol k < b.c1

/-- A croft's box, grown by `h` and clipped. -/
def Croft.box (x : Croft) (h : Nat) : Box :=
  let side := 2 ^ (32 - x.depth)
  let r := gatherBits 32 (x.path / 2) * side
  let c := gatherBits 32 x.path * side
  ⟨r - h, min (r + side + h) (2 ^ 32), c - h, min (c + side + h) (2 ^ 32)⟩

/-- The covered region of a core. -/
def coveredBy (cs : List Croft) (core h : Nat) : List Box := (cs.filter fun x => x.core == core).map fun x => x.box h

def inBoxes (bs : List Box) (k : Word) : Bool := bs.any fun b => b.has k

/-- What is left of a box outside another. -/
def Box.minus (a b : Box) : List Box :=
  if a.r1 ≤ b.r0 || b.r1 ≤ a.r0 || a.c1 ≤ b.c0 || b.c1 ≤ a.c0 then [a]
  else
    let lo := max a.r0 b.r0
    let hi := min a.r1 b.r1
    (if a.r0 < b.r0 then [⟨a.r0, b.r0, a.c0, a.c1⟩] else []) ++ (if b.r1 < a.r1 then [⟨b.r1, a.r1, a.c0, a.c1⟩] else []) ++
    (if a.c0 < b.c0 then [⟨lo, hi, a.c0, b.c0⟩] else []) ++ (if b.c1 < a.c1 then [⟨lo, hi, b.c1, a.c1⟩] else [])

/-- A box lies within a union of boxes. -/
def boxCovered (bs : List Box) (a : Box) : Bool :=
  (bs.foldl (fun rest b => rest.flatMap fun x => x.minus b) [a]).isEmpty

/-- The box of a query around K, without wraparound (R352). -/
def queryBox (k : Word) (r : Nat) : Box :=
  ⟨kRow k - r, min (kRow k + r + 1) (2 ^ 32), kCol k - r, min (kCol k + r + 1) (2 ^ 32)⟩

/-! ### Burr tables (R348, R350) -/

/-- Put a burr into a table of 1,024 entries: an entry inside the core's crofts displaces one that lies only in the
hedge; what cannot be kept sets LOST. -/
def tablePut (own : List Box) (t : List (Nat × Word)) (lost : Bool) (bid : Nat) (k : Word) : List (Nat × Word) × Bool :=
  if t.any fun e => e.1 == bid then (t.map fun e => if e.1 == bid then (bid, k) else e, lost)
  else if t.length < 1024 then (t ++ [(bid, k)], lost)
  else if inBoxes own k then
    match takeFirst (fun e => !(inBoxes own e.2)) t with
    | some (_, rest) => (rest ++ [(bid, k)], true)
    | none => (t, true)
  else (t, true)

/-- A notice changes a core's table. -/
def Core.tableApply (x : Core) (own cov : List Box) (bid : Nat) (k : Word) (remove : Bool) : Core :=
  if remove || !(inBoxes cov k) then { x with table := x.table.filter fun e => e.1 != bid }
  else
    let (t, drop) := tablePut own x.table false bid k
    { x with table := t, lost := x.lost || drop, dropped := x.dropped || drop }

/-- The burrs of a table inside a box. -/
def Core.countIn (x : Core) (b : Box) : Nat := x.table.countP fun e => b.has e.2

/-- Crowding of one croft of a core (R348). -/
def State.crowd (s : State) (c : Nat) (root : Root) (x : Croft) : State :=
  let k := s.core c
  let key := (x.path, x.depth)
  let n := k.countIn (x.box 0)
  if x.splt == 0 then s
  else if x.splt < n then
    if k.crowded.contains key || !(s.coreRoom c false) then s
    else
      let b := x.box 0
      (s.modCore c fun k => { k with crowded := key :: k.crowded }).enqueue c
        { ctx := (k.ctx).getD 0, chan := root.crwd,
          body := .msg (reply8 [wd (b.r0 * 2 ^ 32 + b.c0), wd x.depth, wd n, wd root.version]) }
  else if n ≤ x.splt / 2 then s.modCore c fun k => { k with crowded := k.crowded.erase key }
  else s

/-- Crowding of every croft of a core. -/
def State.crowdAll (s : State) (c : Nat) (root : Root) (cs : List Croft) : State :=
  (cs.filter fun x => x.core == c).foldl (fun s x => s.crowd c root x) s

/-- The version of a core's croft map, and the cores whose covered region holds a K or held a previous one (R349). -/
def State.noticeCores (s : State) (c ctx : Nat) (k1 prev : Word) : Nat × List Nat :=
  match s.croftMap c ctx with
  | none => (0, [])
  | some (root, cs) => (root.version, ((cs.map (·.core)).eraseDups).filter fun g =>
      let bs := coveredBy cs g root.hw
      inBoxes bs k1 || inBoxes bs prev)

/-- Send K notices of a burr to every core whose covered region holds its K or held its previous one (R349): each joins the
slot's queue and counts in its UCNT. -/
def State.sendNotices (s : State) (c k ctx : Nat) (bid : BitVec 32) (k1 prev : Word) (remove : Bool) : State :=
  let (version, cores) := s.noticeCores c ctx k1 prev
  cores.foldl (fun s g => s.inject c k
    { msg := true, cls := 4, src := coreEnd c, dst := coreEnd g, ctx := ctx, counted := true,
      deliver := .kNotice { core := g, ctx := ctx, bid := bid, k := k1, remove := remove, version := version, sender := some (c, k) } }) s

/-- The updates that wait for a core's rebuild go on; the last one ends its update (R346). -/
def State.rebuilt (s : State) (c : Nat) : State :=
  { s with ops := (s.ops.map fun o =>
      match o.kind with
      | .mapUpdate .. => { o with left := o.left.erase c }
      | _ => o).filter fun o => match o.kind with
        | .mapUpdate .. => !(o.left.isEmpty) || (s.ops.any fun x => x.id == o.id && x.left.isEmpty)
        | _ => true }

/-- A rebuild completes: LOST clears when nothing has been dropped since it began (R350). -/
def State.endRebuild (s : State) (c : Nat) : State :=
  (s.modCore c fun x => { x with lost := x.lost && x.dropped }).rebuilt c

/-- A notice has been applied: it is acknowledged to the slot that counts it, or ends its core's rebuild when it is the last of
those. -/
def State.noticeDone (s : State) (at_ : Nat) (n : Notice) : State :=
  match n.sender with
  | some (sc, sk) =>
    if sk < 8 then s.post { msg := true, cls := 4, src := coreEnd at_, dst := coreEnd sc, ctx := n.ctx, deliver := .writeAck sc sk .notice none }
    else s.endRebuild sc
  | none => s

/-- Cores that now cover the K of a notice and lack what it says (R349). -/
def State.missed (s : State) (n : Notice) (root : Root) (cs : List Croft) : List Nat :=
  ((cs.map (·.core)).eraseDups).filter fun g => g != n.core && inBoxes (coveredBy cs g root.hw) n.k &&
    (if n.remove then (s.core g).table.any fun e => e.1 == n.bid.toNat else !((s.core g).table.contains (n.bid.toNat, n.k)))

/-- Send a notice to some cores, from the core that it names. -/
def State.sendOn (s : State) (n : Notice) (gs : List Nat) : State :=
  gs.foldl (fun s g => s.postMgmt (coreEnd n.core) (coreEnd g) n.ctx (.kNotice { n with core := g })) s

/-- A notice is passed on to some cores; it counts as applied once they have all applied it (R351). -/
def State.spreadNotice (s : State) (n : Notice) (gs : List Nat) : State :=
  match n.join with
  | some j =>
    let left := ((s.joins.get? j).map (·.1)).getD 1 + gs.length - 1
    if left == 0 then State.noticeDone { s with joins := s.joins.del j } n.core n
    else State.sendOn { s with joins := s.joins.put j (left, none) } n gs
  | none =>
    if gs.isEmpty then s.noticeDone n.core n
    else State.sendOn { s with joins := s.joins.put s.nextId (gs.length, none), nextId := s.nextId + 1 } { n with join := some s.nextId } gs

/-- A K notice arrives (R349, R350): the table changes, crowding is checked, and one computed under an older map goes on to
every core that now covers the K and was missed; then it is acknowledged.  One for a context that the core does not host is discarded
(R443), and acknowledged, so that its sender does not wait for ever (DESIGN CHOICE, log 141). -/
def execKNotice (s : State) : Out :=
  match s.event with
  | some (.kNotice n) =>
    let s := s.taken
    let c := n.core
    if !(s.hosts c n.ctx) then .next ((s.strayMgmt c).spreadNotice n [])
    else match s.croftMap c n.ctx with
      | none => .next ((s.modCore c fun x => { x with table := x.table.filter fun e => e.1 != n.bid.toNat }).spreadNotice n [])
      | some (root, cs) =>
        let s := s.modCore c fun x => x.tableApply (coveredBy cs c 0) (coveredBy cs c root.hw) n.bid.toNat n.k n.remove
        let s := s.crowdAll c root cs
        .next (if n.version < root.version then s.spreadNotice { n with version := root.version } (s.missed n root cs)
               else s.spreadNotice n [])
  | _ => .fault .noSubject

/-! ### Lookups of a sheaf (R345) -/

/-- The answer of a sheaf's owner lookup. -/
def State.ownerAnswer (s : State) (t : Tag) (k : Word) : State :=
  match s.flight t.core t.slot with
  | none => s
  | some fl =>
    match fl.looks.find? fun l => l.1 == t.lsn && l.2.2 == k with
    | none => s
    | some look =>
      if fl.run != t.run then s
      else
        let th := (s.slot t.core t.slot).th
        let (s, o, _) := s.lookup t.core th.ctx k false
        let s := s.modFlight t.core t.slot fun fl => { fl with looks := fl.looks.erase look }
        match o with
        | none => s.fault t.core t.slot .croftUnmapped ((fl.sheaf.ordered t.lsn).map (·.1))
        | some o =>
          if look.2.1 == 0 then
            if th.kind == .rooted && o.core != t.core then s.fault t.core t.slot .croftRange
            else s.modFlight t.core t.slot fun fl => { fl with kOwner := some (some o.core) }
          else
            s.modFlight t.core t.slot fun fl => { fl with due := fl.due.map fun d =>
              match d.act with
              | .spawnb b _ mi => if d.pos == t.lsn then { d with act := .spawnb b o.core mi } else d
              | _ => d }

def execOwnerLookup (s : State) : Out :=
  match s.event with
  | some (.ownerLookup t k) => .next (s.taken.ownerAnswer t k)
  | _ => .fault .noSubject

/-- The croft cache of a core holds the croft of a point. -/
def State.croftHit (s : State) (c ctx : Nat) (k : Word) : Bool :=
  (s.core c).crofts.any fun e => e.ctx == ctx && kPath k / 4 ^ (32 - e.depth) == e.path

/-- A sheaf asks for an owner: a hit of the croft cache answers before the slot's next turn (R416), and a walk takes a step of its
own. -/
def State.askOwner (s : State) (t : Tag) (ctx : Nat) (k : Word) : State :=
  if s.croftHit t.core ctx k then s.ownerAnswer t k else s.due (.ownerLookup t k)

/-- A value of RND that no sheaf may write (R193). -/
def rndBad (w : Word) : Bool := field w 3 29 != 0 || field w 0 3 == 7

/-- A register is resolved by a WRITE (R240): a second token raises multiple-write. -/
def State.resolveReg (s : State) (is : Iss) (reg : Reg) (t : Tok) : State :=
  if is.fl.regw.any fun e => e.1 == reg then s.fault is.c is.k .multipleWrite
  else if is.th.badMerge reg t then s.trapAt is .uncorrectableData
  else
    let s := s.modFlight is.c is.k fun fl => { fl with regw := fl.regw ++ [(reg, t)] }
    match reg, t with
    | .k, .sc w =>
      ((s.modFlight is.c is.k fun fl => { fl with looks := fl.looks ++ [(is.pos, 0, w)] }).fire is).askOwner
        { core := is.c, slot := is.k, run := is.fl.run, lsn := is.pos } is.ctx w
    | _, _ => s.fire is

def execWrite (f : Form) (s : State) : Out :=
  if isRunnel f then issue (.write f) s fun is s => .next (rnwrite is s)
  else issueRaw (.write f) s fun is s =>
    match f.reg with
    | some (cls, n) => match regOf cls n with
      | some reg => .next (s.resolveReg is reg (if is.anyNull then .null else is.l))
      | none => .next (s.fire is)
    | none => .next (s.fire is)

/-! ### Map updates (R346, R347) -/

/-- What an update would write: words by address, in order, the new root words, and what it changes. -/
structure MapChange where
  writes : List (Nat × Word)
  w0     : Word
  w1     : Word
  path   : Nat := 0
  depth  : Nat := 0
  target : Nat := 0
  deriving DecidableEq, Repr

/-- The root's version rises by one. -/
def bumpVersion (w : Word) : Word := setField w 32 32 (field w 32 32 + 1)

/-- The three siblings of a croft's entry, and it, are leaves of a core. -/
def State.siblings (s : State) (c ctx node core : Nat) : State × Except TrapRec (Option Word) :=
  match s.readWords (.core c) (.slot c 0) ctx true node 4 with
  | (s, .error r) => (s, .error r)
  | (s, .ok ws) => (s, .ok (if ws.all fun e => entLeaf e && entCore e == core then ws.head? else none))

/-- Check an update against a root record and the map, and find its writes. DEDUCED, log 59. -/
def State.mapChange (s : State) (c ctx kind : Nat) (point other : Word) (root : Root) :
    State × Except TrapRec MapChange :=
  let fail := fun (e : Cause) => Except.error (α := MapChange) ({ cause := e } : TrapRec)
  if kind == 3 then (s, .ok { writes := [], w0 := bumpVersion (setField root.w0 0 17 point.toNat), w1 := root.w1 })
  else match s.descend c ctx (kPath point) 1 root.node none 32 with
    | (s, .error r) => (s, .error r)
    | (s, .ok none) => (s, fail (if kind == 2 then .croftUnmapped else .croftOwnership))
    | (s, .ok (some f)) =>
      if f.core != c then (s, fail .croftOwnership)
      else if kind == 0 then
        if 32 ≤ f.depth then (s, fail .croftOwnership)
        else if root.free == 0 then (s, fail .croftPool)
        else match s.mapWord c ctx root.free with
          | (s, .error r) => (s, .error r)
          | (s, .ok w) =>
            let leaf := leafEntry c f.splt
            (s, .ok { writes := [(root.free, leaf), (root.free + 8, leaf), (root.free + 16, leaf), (root.free + 24, leaf),
                                 (f.ent, tableEntry root.free)],
                      w0 := bumpVersion root.w0, w1 := wd (field w 5 51 * 32), path := f.path, depth := f.depth })
      else if kind == 1 then
        match f.up with
        | none => (s, fail .croftOwnership)
        | some up => match s.siblings c ctx f.node c with
          | (s, .error r) => (s, .error r)
          | (s, .ok none) => (s, fail .croftOwnership)
          | (s, .ok (some e0)) =>
            (s, .ok { writes := [(up, leafEntry c (entSplt e0)), (f.node, wd root.free), (f.node + 8, 0), (f.node + 16, 0),
                                 (f.node + 24, 0)],
                      w0 := bumpVersion root.w0, w1 := wd f.node, path := f.path, depth := f.depth })
      else if other.toNat == c then (s, fail .croftOwnership)
      else
        let all := s.croftsBelow c ctx 0 1 root.node 32
        if 2 ≤ (croftsRead all).countP (fun x => x.core == c) then
          (s, .ok { writes := [(f.ent, leafEntry other.toNat f.splt)], w0 := bumpVersion root.w0, w1 := root.w1,
                       path := f.path, depth := f.depth, target := other.toNat })
        else match mapError all with
          | some r => (s, .error r)
          | none => (s, fail .croftOwnership)

/-- Translate the words of a change as writes. -/
def State.mapPieces (s : State) (c ctx : Nat) : List (Nat × Word) → State × Except TrapRec (List Piece)
  | [] => (s, .ok [])
  | (va, w) :: rest =>
    match s.checkBytes (.core c) ctx true va 8 false true with
    | (s, .error e) => (s, .error (xfailRec e (coverWord va 8)))
    | (s, .ok ps) =>
      let (pa, kid) := onlyPlace ps
      match State.mapPieces s c ctx rest with
      | (s, .ok more) => (s, .ok (⟨va, pa, kid, scalarBytes 8 w⟩ :: more))
      | r => r

/-- A change, translated. -/
def State.mapPlan (s : State) (c ctx kind : Nat) (m : MapChange) (tag : Tag) : State × Except TrapRec MapPlan :=
  let root := (s.core c).crootAddr
  match s.mapPieces c ctx m.writes with
  | (s, .error r) => (s, .error r)
  | (s, .ok ws) => match s.checkBytes (.core c) ctx true root 16 true true with
    | (s, .error e) => (s, .error (xfailRec e (coverWord root 16)))
    | (s, .ok ps) =>
      let (pa, kid) := onlyPlace ps
      (s, .ok { writes := ws, root := ⟨root, pa, kid, scalarBytes 8 m.w0 ++ scalarBytes 8 m.w1⟩, kind := kind,
                target := m.target, path := m.path, depth := m.depth, version := field m.w0 32 32, tag := tag })

/-- The plan of an update that holds its grant, made when its sheaf is about to commit. -/
def State.grantedPlan (s : State) (c k : Nat) (h : Held) (kind : Nat) (point other : Word) : State × Except TrapRec MapPlan :=
  let ctx := (s.slot c k).th.ctx
  let run := ((s.flight c k).map (·.run)).getD 0
  match s.rootRecord c ctx with
  | (s, .error r) => (s, .error r)
  | (s, .ok root) =>
    let got := h.got.map (·.getD 0)
    let root := { root with w0 := wd (ofBytes (got.take 8)), w1 := wd (ofBytes ((got.drop 8).take 8)) }
    match s.mapChange c ctx kind point other root with
    | (s, .error r) => (s, .error r)
    | (s, .ok m) => s.mapPlan c ctx kind m { core := c, slot := k, run := run, lsn := h.lsn }

/-- An update fires (R346): operand checks, the fire-time translations, and the reservation of the root granule. -/
def mapUpdateAt (i : Instr) (s : State) (kind : Nat) (bad : Iss → State → Bool) : Out :=
  issue i s fun is s =>
    let k := s.core is.c
    if bad is s then .next (s.trapAt is .badControlValue)
    else if !k.crootEn then .next (s.trapAt is .croftUnmapped)
    else
      let a := k.crootAddr
      match s.checkBytes is.xer is.ctx true a 16 true true with
      | (s, .error e) => .next (s.accessTrap is e (coverWord a 16))
      | (s, .ok ps) =>
        let (s, early) := match s.rootRecord is.c is.ctx with
          | (s, .error r) => (s, some r)
          | (s, .ok root) => match s.mapChange is.c is.ctx kind is.lw is.rw_ root with
            | (s, .error _) => (s, none)
            | (s, .ok m) => match s.mapPieces is.c is.ctx m.writes with
              | (s, .error r) => (s, some r)
              | (s, .ok _) => (s, none)
        match early with
        | some r => .next (s.recTrap is r)
        | none =>
          let (pa, kid) := onlyPlace ps
          -- a map update has no LSN: its tag and its touch take a number above every LSN, by body position
          let lsn := 32 + is.pos
          match is.fl.touchAll [{ lsn := lsn, kind := .atomic, va := a, bytes := List.replicate 16 (some 0), wr := true }] with
          | none => .next (s.trapAt is .lsnConflict)
          | some fl =>
            let r := { s.requestOf is 0 a pa kid (.reserve 16) (coverWord a 16) with
                       tag := { core := is.c, slot := is.k, run := fl.run, lsn := lsn } }
            let s := (s.modCore is.c (·.l1Drop pa)).addLoad is.c r
            let h : Held := { lsn := lsn, pos := is.pos, kind := .mapUpdate, va := a, got := List.replicate 16 none,
                              home := some (pa / 16), kid := kid, vpn := a / 4096 }
            .next (s.settle is.c is.k (some { fl.fired is.pos with
              held := fl.held ++ [h], due := fl.due ++ [⟨none, is.pos, .mapUpdate kind is.lw is.rw_⟩] }))

/-- A burr's K lies in a croft. -/
def inCroft (path depth : Nat) (k : Word) : Bool := kPath k / 4 ^ (32 - depth) == path

/-- The K that a sheaf has written lies in a croft, and its owner is known. -/
def Flight.kIn (fl : Flight) (path depth : Nat) : Bool :=
  fl.kOwner.isSome && fl.regw.any fun e => e.1 == .k && (match e.2 with | .sc w => inCroft path depth w | _ => false)

/-- The queued burrs of a handed croft leave for its new owner, in queue order; those in slots will, as will those queued ones that
a barrier or a pending trap keeps, and a sheaf that has written such a K goes to the new owner (R347, R362).
DEDUCED, log 62. -/
def State.handOver (s : State) (a c path depth : Nat) : State :=
  let k := s.core a
  let there := fun (e : Entry) => match e.body with
    | .burr b => inCroft path depth b.k && !b.fw && !e.held
    | _ => false
  let goes := fun (e : Entry) => there e && e.flock.isNone && e.imps.isEmpty
  let owes := fun (e : Entry) => if there e then { e with moveTo := some c } else e
  let leave := (k.aq ++ k.spill).filter goes
  let turn := fun (x : Slot) =>
    let x := { x with fl := x.fl.map fun fl => if fl.kIn path depth then { fl with kOwner := some (some c) } else fl }
    if x.occ && x.th.kind == .burr && !x.th.fw && inCroft path depth x.th.regs.k
    then { x with th := { x.th with moveTo := some c } } else x
  let k' : Core := { k with aq := (k.aq.filter fun e => !(goes e)).map owes, spill := (k.spill.filter fun e => !(goes e)).map owes,
                            slots := k.slots.map turn }
  let s := s.setCore a (k'.reload 48)
  leave.foldl (fun s e => match e.body with
    | .burr b => s.postBurr a c b false
    | _ => s) s

/-- The work an update leaves for its completion: rebuilds of tables (R350). -/
def rebuildCores (s : State) (ctx : Nat) (c : Nat) (p : MapPlan) : List Nat :=
  if p.kind == 3 then s.coresOf ctx else if p.kind == 2 then [c, p.target] else []

/-- What the end of an update brings, once its release is written: croft caches emptied of older entries, burrs of a handed
croft sent on, tables to rebuild (R346, R347). -/
def State.mapRelease (s : State) (o : Op) (ctx : Nat) (p : MapPlan) : State :=
  let bytes := p.root.bytes.map (·.getD 0)
  let s := s.serveRelease { agent := .slot o.core o.slot, tag := p.tag, ctx := ctx, kid := p.root.kid, pa := p.root.pa, va := p.root.va,
                            acc := .release bytes }
  let s := { s with cores := s.cores.map fun (n, x) =>
    (n, { x with crofts := x.crofts.filter fun e => !(e.ctx == ctx && e.version < p.version) }) }
  let s := if p.kind == 0 then s.modCore o.core fun x => { x with crowded := x.crowded.erase (p.path, p.depth) } else s
  let s := if p.kind == 2 then s.handOver o.core p.target p.path p.depth else s
  let cores := rebuildCores s ctx o.core p
  let s := cores.foldl (fun s g => s.due (.tableRebuild g)) s
  { s with ops := if cores.isEmpty then s.ops.filter (fun x => x.id != o.id)
                  else s.ops.map fun x => if x.id == o.id then { x with left := cores } else x }

/-- A committed update goes on: it writes its next word, in the order of R346, and once all are written it releases the root
granule with the new version. -/
def execMapUpdateComplete (s : State) : Out :=
  match s.event with
  | some (.mapUpdateComplete id) =>
    let s := s.taken
    match s.ops.find? fun o => o.id == id with
    | none => .next s
    | some o =>
      if o.behind != 0 then .next s else
      match o.kind with
      | .mapUpdate ctx p =>
        let who := Agent.slot o.core o.slot
        match p.writes with
        | [] => .next (s.mapRelease o ctx p)
        | w :: rest => match s.engineWrite who ctx w.kid w.va w.pa w.bytes 0 with
          | .wait => .next s
          | .fault s r =>
            let s := (s.impTrap who r).serveCancel
              { agent := who, tag := p.tag, ctx := ctx, kid := p.root.kid, pa := p.root.pa / 16 * 16, va := p.root.va, acc := .cancel }
            .next { s with ops := s.ops.filter fun x => x.id != id }
          | .done s =>
            let s := s.modCore o.core (·.l1Drop w.pa)
            .next { s with ops := s.ops.map fun x =>
              if x.id == id then { x with kind := .mapUpdate ctx { p with writes := rest } } else x }
      | _ => .next s
  | _ => .fault .noSubject

/-- The notices of a rebuild (R350): each inside entry of a core to every other core that now covers it. -/
def State.rebuildNotices (s : State) (c ctx : Nat) (root : Root) (cs : List Croft) : List Notice :=
  let others := (cs.map fun (x : Croft) => x.core).eraseDups.filter fun (g : Nat) => g != c
  ((s.core c).table.filter fun e => inBoxes (coveredBy cs c 0) e.2).flatMap fun e =>
    (others.filter fun g => inBoxes (coveredBy cs g root.hw) e.2).map fun g =>
      { core := g, ctx := ctx, bid := BitVec.ofNat 32 e.1, k := e.2, remove := false, version := root.version, sender := some (c, 8) }

/-- A core rebuilds its table (R350): its inside entries leave as notices, and entries no longer covered are dropped; the rebuild
completes once the notices have been applied.  Slot number 8 of a notice's sender stands for a rebuild. -/
def execTableRebuild (s : State) : Out :=
  match s.event with
  | some (.tableRebuild c) =>
    let s := s.taken.modCore c fun x => { x with dropped := false }
    let ctx := ((s.core c).ctx).getD 0
    match s.croftMap c ctx with
    | none => .next ((s.modCore c fun x => { x with table := [] }).endRebuild c)
    | some (root, cs) =>
      let ns := s.rebuildNotices c ctx root cs
      let s := s.modCore c fun x => { x with table := x.table.filter fun e => inBoxes (coveredBy cs c root.hw) e.2 }
      let s := s.crowdAll c root cs
      if ns.isEmpty then .next (s.endRebuild c)
      else
        .next (ns.foldl (fun (s : State) n => s.postMgmt (coreEnd c) (coreEnd n.core) ctx (.kNotice { n with join := some s.nextId }))
          { s with joins := s.joins.put s.nextId (ns.length, none) } |> fun s => { s with nextId := s.nextId + 1 })
  | _ => .fault .noSubject

/-- A retire notice reaches the core that created the burr (R356). -/
def execRetireNotice (s : State) : Out :=
  match s.event with
  | some (.retireNotice c ctx bid) =>
    let s := s.taken
    .next (if s.hosts c ctx then s.modCore c fun k =>
      if bid.getLsbD 20 then { k with live1 := k.live1 - 1 } else { k with live0 := k.live0 - 1 } else s.strayMgmt c)
  | _ => .fault .noSubject

end Sys2Proof.Machine
end

