-- ==== Sys2Proof/Machine/Threads.lean ====
section
/-!
DEFINITION. The instructions of page 7 (R340 to R366): spawning, coordinates, map updates, neighbours, flocks, channels,
what becomes of a thread, and rounding.
-/
namespace Sys2Proof.Machine
open Sys2Proof

/-! ### Spawning (R353 to R357) -/

/-- A spawn control word breaks no rule. -/
def spawnCtlOk (w : Word) (burr : Bool) : Bool :=
  field w 8 24 == 0 && field w 6 1 == 0 && (!burr || field w 32 32 == 0)

def ctlChan (w : Word) : Nat := field w 0 6
def ctlMi (w : Word) : Bool := w.getLsbD 7
def ctlDaff (w : Word) : BitVec 16 := w.extractLsb' 32 16

/-- The arguments A0 to A3: bytes 0 to 31 of the vector, invalid ones zero. -/
def argWords (t : Tok) : List Word := wordsFrom 4 (vecBytes t.bytes)
def argWord (t : Tok) (i : Nat) : Word := ((argWords t)[i]?).getD 0

/-- FMT and SCALE of new work (R353). -/
def Thread.fmtWord (t : Thread) : BitVec 32 :=
  BitVec.ofNat 32 ((List.range 4).foldl (fun a i => a + field (t.shadow i) 56 6 * 2 ^ (8 * i)) 0)
def Thread.scaleWord (t : Thread) : BitVec 56 := (t.shadow 0).extractLsb' 0 56

/-- A DAFF allows a die (R174). -/
def daffAllows (daff : BitVec 16) (d : Nat) : Bool := daff == 0 || daff.getLsbD d

/-- The live dies a DAFF allows (R179). -/
def State.allowedDies (s : State) (daff : BitVec 16) : List Nat :=
  (List.range 16).filter fun d => s.dieLive d && daffAllows daff d

/-- The seed of a new thread's LFSR (R196). -/
def seedLfsr (g0 : Word) (chan : Nat) : BitVec 32 :=
  let s := (g0.extractLsb' 0 32) ^^^ (g0.extractLsb' 32 32) ^^^ BitVec.ofNat 32 (0x9E3779B9 * (chan + 1))
  if s == 0 then 1 else s

/-- MEMB of new work. DEDUCED, log 65. -/
def Iss.newMemb (is : Iss) : BitVec 32 := if ctlMi is.lw then is.th.memb else 0

/-- The task packet of a SPAWN, but for its class (R354). -/
def spawnPacket (is : Iss) : TaskPkt where
  memb := is.newMemb
  ctx := is.ctx
  chan := ctlChan is.lw
  orig := true
  daff := ctlDaff is.lw
  fmt := is.th.fmtWord
  scale := is.th.scaleWord
  hrow := field is.lw 60 4
  hcol := field is.lw 56 4
  hcore := field is.lw 53 3
  hv := is.lw.getLsbD 52
  rad := field is.lw 48 4
  a0 := argWord is.r 0
  a1 := argWord is.r 1
  a2 := argWord is.r 2
  a3 := argWord is.r 3

def execSpawn (f : Form) (s : State) : Out :=
  issue (.spawn f) s fun is s =>
    if !(spawnCtlOk is.lw false) then .next (s.trapAt is .badControlValue)
    else if (s.allowedDies (ctlDaff is.lw)).isEmpty then .next (s.trapAt is .noDie)
    else .next (s.fireDue is (.spawn (spawnPacket is) (ctlMi is.lw)))

/-- The counter of live burrs in the half of a serial (R356). -/
def Core.liveOf (k : Core) (serial : Nat) : Nat := if serial < 2 ^ 20 then k.live0 else k.live1

/-- One burr more or less in the half of a serial. -/
def Core.liveAdd (k : Core) (serial : Nat) : Core :=
  if serial < 2 ^ 20 then { k with live0 := k.live0 + 1 } else { k with live1 := k.live1 + 1 }

/-- The next serial is the first of a half that still has live burrs (R356). -/
def Core.serialHeld (k : Core) : Bool := k.serial % 2 ^ 20 == 0 && k.liveOf k.serial != 0

/-- Take the next serial. -/
def Core.takeSerial (k : Core) : Core := { k with serial := (k.serial + 1) % 2 ^ 21 }

/-- A burr id: the creating core and its serial (R442). -/
def bidOf (core serial : Nat) : BitVec 32 := BitVec.ofNat 32 (core * 2 ^ 21 + serial)

/-- The channel is defined for burrs. -/
def burrChan (e : Word) : Bool := e.getLsbD 63 && e.getLsbD 62

/-- The burr of a SPAWNB, but for its N (R355). -/
def spawnBurr (is : Iss) (bid : BitVec 32) : Burr where
  memb := is.newMemb
  ctx := is.ctx
  chan := ctlChan is.lw
  fmt := is.th.fmtWord
  scale := is.th.scaleWord
  bid := bid
  lfsr := seedLfsr (argWord is.r 0) (ctlChan is.lw)
  g := Vector.ofFn fun i : Fin 8 => if i.val < 4 then argWord is.r i.val else 0
  k := is.xw

/-- A destination that no lookup has answered yet. -/
def noOwner : Nat := 2048

def spawnbWaits (is : Iss) (s : State) : Bool := (s.core is.c).serialHeld

def execSpawnb (f : Form) (s : State) : Out :=
  issueWhen (.spawnb f) s spawnbWaits fun is s =>
    let k := s.core is.c
    if !(spawnCtlOk is.lw true) then .next (s.trapAt is .badControlValue)
    else if !(burrChan (k.tchan.get (ctlChan is.lw) 0)) then .next (s.trapAt is .badControlValue)
    else
      let bid := bidOf is.c k.serial
      let s := (s.setCore is.c k.takeSerial).modFlight is.c is.k fun fl => { fl with looks := fl.looks ++ [(is.pos, 1, is.xw)] }
      .next ((s.emitDue is (.sc (bid.setWidth 64)) (.spawnb (spawnBurr is bid) noOwner (ctlMi is.lw))).askOwner
        { core := is.c, slot := is.k, run := is.fl.run, lsn := is.pos } is.ctx is.xw)

/-! ### Coordinates (R341, R344) -/

/-- K from a row and a column. -/
def ksetWord (row col : Word) : Word := wd (field row 0 32 * 2 ^ 32 + field col 0 32)

def execKset (f : Form) (s : State) : Out := scalar2 (.kset f) s ksetWord
def execKget (f : Form) (s : State) : Out := scalar1 (.kget f) s fun w => wd (kPath w)

/-- What CMAP delivers. -/
def cmapWord (o : Option Owner) (version : Nat) : Word :=
  match o with
  | some o => wd (version * 2 ^ 32 + o.depth * 2 ^ 16 + 2 ^ 15 + o.core)
  | none => wd (version * 2 ^ 32)

/-- DESIGN CHOICE, log 61. -/
def execCmap (f : Form) (s : State) : Out :=
  issue (.cmap f) s fun is s =>
    match s.lookup is.c is.ctx is.lw false with
    | (s, o, some v) => .next (s.emit is (.sc (cmapWord o v)))
    | (s, o, none) =>
      let (w, s) := s.free
      .next (s.emit is (.sc (cmapWord o (field w 0 32))))

/-! ### What becomes of a thread (R358, R359, R375) -/

/-- A disposal fires; a second one raises multiple-exit. -/
def State.dispose (s : State) (is : Iss) (d : Dispo) : State :=
  if is.fl.dispo.isSome then s.fault is.c is.k .multipleExit
  else (s.modFlight is.c is.k fun fl => { fl with dispo := some d }).fire is

/-- MIGRATE to its own core does nothing at commit (R358). DEDUCED, log 63. -/
def execMigrate (f : Form) (s : State) : Out :=
  issue (.migrate f) s fun is s =>
    let a := is.lw.toNat
    let blk := blockWord 32 a
    if !is.burr then .next (s.trapAt is .burrOnly)
    else if 2 ^ 56 ≤ a then .next (s.accessTrap is (⟨.nonCanonicalAddress, 4⟩, a) blk)
    else match s.xlate is.xer is.ctx a with
      | (s, .error e) => .next (s.accessTrap is (e, a) blk)
      | (s, .ok l) =>
        let owner := if l.kind == 2 then none else s.followOwner (s.leafPa l a)
        .next (s.dispose is (.migrate (owner.getD is.c) true))

def execYield (f : Form) (s : State) : Out := issue (.yield f) s fun is s => .next (s.dispose is .yield_)
def execPark (f : Form) (s : State) : Out := issue (.park f) s fun is s => .next (s.dispose is .park)
def execDone (f : Form) (s : State) : Out := issue (.done f) s fun is s => .next (s.dispose is .done)

/-! ### Neighbours (R352) -/

/-- Insert in ascending coordinate path, ties by ascending BID. -/
def insertBurr (e : Nat × Word) : List (Nat × Word) → List (Nat × Word)
  | [] => [e]
  | x :: rest =>
    if kPath e.2 < kPath x.2 || (kPath e.2 == kPath x.2 && e.1 < x.1) then e :: x :: rest
    else x :: insertBurr e rest

def sortBurrs (l : List (Nat × Word)) : List (Nat × Word) := l.foldr insertBurr []

/-- The checks that NBR and NBRN share, and their matches in order with LOST. -/
def neighbours (is : Iss) (s : State) (start : Nat) : Except Cause (List (Nat × Word) × Bool) :=
  let k := s.core is.c
  let (h, bs) := match s.croftMap is.c is.ctx with
    | some (root, cs) => (root.hw, coveredBy cs is.c root.hw)
    | none => (0, [])
  let r := is.lw.toNat
  let box := queryBox is.th.regs.k r
  if h < r || 2 ^ 16 ≤ start then .error .badControlValue
  else if !(boxCovered bs box) then .error .croftRange
  else
    let (t, lost) := is.fl.nbr.getD (k.table, k.lost)
    .ok (sortBurrs (t.filter fun e => box.has e.2 && !(is.burr && e.1 == is.th.bid.toNat)), lost)

/-- The first query of a sheaf fixes the table that the others read. -/
def State.fixTable (s : State) (is : Iss) : State :=
  let k := s.core is.c
  s.modFlight is.c is.k fun fl => { fl with nbr := some (fl.nbr.getD (k.table, k.lost)) }

/-- One entry of NBR's result. -/
def nbrEntry (e : Nat × Word) : List Byte := toBytes 8 e.1 ++ toBytes 8 e.2.toNat

/-- NBR's vector: up to four entries, the bytes of absent ones invalid. -/
def nbrTok (es : List (Nat × Word)) : Tok := .ve (vecOf (es.flatMap nbrEntry)) (lowMask (16 * es.length))

/-- NBRN's word. -/
def nbrnWord (n : Nat) (lost : Bool) : Word := wd (n + if lost then 2 ^ 63 else 0)

def execNbr (f : Form) (s : State) : Out :=
  issue (.nbr f) s fun is s =>
    match neighbours is s is.rw_.toNat with
    | .error c => .next (s.trapAt is c)
    | .ok (es, _) => .next ((s.fixTable is).emit is (nbrTok ((es.drop is.rw_.toNat).take 4)))

def execNbrn (f : Form) (s : State) : Out :=
  issue (.nbrn f) s fun is s =>
    match neighbours is s 0 with
    | .error c => .next (s.trapAt is c)
    | .ok (es, lost) => .next ((s.fixTable is).emit is (.sc (nbrnWord es.length lost)))

/-! ### Map updates (R346) -/

def execCsplit (f : Form) (s : State) : Out := mapUpdateAt (.csplit f) s 0 fun _ _ => false
def execCmerge (f : Form) (s : State) : Out := mapUpdateAt (.cmerge f) s 1 fun _ _ => false
def execChand (f : Form) (s : State) : Out :=
  mapUpdateAt (.chand f) s 2 fun is s => 2047 < is.rw_.toNat || !(s.hosts is.rw_.toNat is.ctx)
def execHedge (f : Form) (s : State) : Out := mapUpdateAt (.hedge f) s 3 fun is _ => 65536 < is.lw.toNat

/-! ### Flocks (R360 to R362) -/

/-- A flock id is legal. -/
def flockOk (w : Word) : Bool := w != 0 && w.toNat < 256

/-- FLKi of a MEMB. -/
def flk (m : BitVec 32) (i : Nat) : Nat := nbits m.toNat (8 * i) 8
def flocksOf (m : BitVec 32) : List Nat := ((List.range 4).map (flk m)).filter (· != 0)

/-- MEMB with FLKi set. -/
def setFlk (m : BitVec 32) (i id : Nat) : BitVec 32 :=
  BitVec.ofNat 32 (m.toNat - flk m i * 2 ^ (8 * i) + id % 256 * 2 ^ (8 * i))

/-- FJOIN on a MEMB: `none` when all four places are in use. -/
def joinMemb (m : BitVec 32) (id : Nat) : Option (BitVec 32) :=
  if (flocksOf m).contains id then some m
  else ((List.range 4).find? fun i => flk m i == 0).map fun i => setFlk m i id

/-- FLEAVE on a MEMB. -/
def leaveMemb (m : BitVec 32) (id : Nat) : BitVec 32 :=
  match (List.range 4).find? fun i => flk m i == id with
  | some i => setFlk m i 0
  | none => m

def flockAt (i : Instr) (s : State) (act : Nat → Act) : Out :=
  issue i s fun is s =>
    if flockOk is.lw then .next (s.fireDue is (act is.lw.toNat)) else .next (s.trapAt is .badControlValue)

def execFjoin (f : Form) (s : State) : Out := flockAt (.fjoin f) s .fjoin
def execFleave (f : Form) (s : State) : Out := flockAt (.fleave f) s .fleave

def execFbar (f : Form) (s : State) : Out :=
  issue (.fbar f) s fun is s =>
    if (flocksOf is.th.memb).contains is.lw.toNat then .next (s.fireDue is (.fbar is.lw.toNat))
    else .next (s.trapAt is .flockMember)

/-! ### Channels (R363, R364) -/

/-- The target of TBLK or TUBL: core, channel and whether it is the own core. DEDUCED, log 66. -/
def chanTarget (is : Iss) (s : State) : Except Cause (Nat × Nat × Bool) :=
  let w := is.lw
  if field w 14 50 != 0 || field w 6 1 != 0 then .error .badControlValue
  else if !(w.getLsbD 7) then .ok (is.c, field w 0 6, true)
  else
    let e := (s.core is.c).stile.get (field w 0 6) 0
    if !(e.getLsbD 63 && [0, 1].contains (stileKind e)) then .error .stileFault
    else .ok (stileCore e, (if stileKind e == 1 then field e 34 6 else field w 8 6), false)

def blockAt (i : Instr) (s : State) (blk : Bool) : Out :=
  issue i s fun is s =>
    match chanTarget is s with
    | .error c => .next (s.trapAt is c)
    | .ok (c, ch, own) => .next (s.fireDue is (.chan c ch own blk))

def execTblk (f : Form) (s : State) : Out := blockAt (.tblk f) s true
def execTubl (f : Form) (s : State) : Out := blockAt (.tubl f) s false

/-- A TCHAN entry with a reserved bit set (R176). -/
def tchanBad (e : Word) : Bool := field e 17 41 != 0 || field e 0 4 != 0

def execTset (f : Form) (s : State) : Out :=
  issue (.tset f) s fun is s =>
    if 64 ≤ is.lw.toNat || tchanBad is.rw_ then .next (s.trapAt is .badControlValue)
    else .next (s.fireDue is (.tset is.lw.toNat is.rw_))

/-- TSET's commit: BLK stays. -/
def Core.tset (k : Core) (ch : Nat) (v : Word) : Core :=
  { k with tchan := k.tchan.put ch (setField v 61 1 (field (k.tchan.get ch 0) 61 1)) }

/-- BLK of a channel is set or cleared. -/
def Core.block (k : Core) (ch : Nat) (blk : Bool) : Core :=
  { k with tchan := k.tchan.put ch (setField (k.tchan.get ch 0) 61 1 (if blk then 1 else 0)) }

/-- A remote change of a channel arrives (R364). -/
def execRemoteChannelChange (s : State) : Out :=
  match s.event with
  | some (.remoteChannelChange c ctx ch blk) =>
    let s := s.taken
    .next (if s.hosts c ctx then (s.modCore c (·.block ch blk)).noteJam c else s.strayMgmt c)
  | _ => .fault .noSubject

/-! ### Rounding (R365) -/

def execSetrnd (f : Form) (s : State) : Out :=
  issue (.setrnd f) s fun is s =>
    if 7 ≤ is.lw.toNat then .next (s.trapAt is .badControlValue)
    else if is.fl.regw.any fun e => e.1 == .rnd then .next (s.fault is.c is.k .multipleWrite)
    else
      let seed := if is.fed 1 then some (is.rw_.extractLsb' 0 32) else none
      .next ((s.modFlight is.c is.k fun fl =>
        { fl with regw := fl.regw ++ [(.rnd, .null)], rndMode := some (is.lw.extractLsb' 0 3, seed) }).fire is)

/-- RND after a SETRND. -/
def setRnd (old : Word) (mode : BitVec 3) (seed : Option (BitVec 32)) : Word :=
  let lfsr := match seed with
    | some v => if v == 0 then 1 else v
    | none => old.extractLsb' 32 32
  rndWord lfsr mode

end Sys2Proof.Machine
end

