-- ==== Sys2Proof/Machine/Slots.lean ====
section
/-!
DEFINITION. Threads coming to slots and leaving them: arrivals (R100, R167, R347, R443), dispatch (R177), the
thread-context cache (R169, R376), migration (R165), disposals (R359, R375), waking (R275) and barrier releases (R362).
-/
namespace Sys2Proof.Machine
open Sys2Proof

/-- An entry is of management class. -/
def isMgmt (e : Entry) : Bool :=
  match e.body with
  | .mgmt .. => true
  | _ => false

/-! ### Arrivals -/

/-- A misroute message to the supervisor core of the entry's context (R100, R372). DEDUCED, log 67. -/
def State.misroute (s : State) (c : Nat) (e : Entry) : State :=
  let w := fun i => (entryWords e)[i]?
  s.supvMsg (coreEnd c) e.ctx 4 (some c) none (some e.chan) (w 0) (w 1) (w 2)

/-- A packet of a context that the core does not host, or of an undefined channel (R100, R443). -/
def State.stray (s : State) (c : Nat) (e : Entry) : State :=
  match e.body with
  | .mgmt .. => s.strayMgmt c
  | .burr b => (s.postBurr c (s.supvCore e.ctx) b true).misroute c e
  | _ => s.misroute c e

/-- The burr of an entry that must go on to another core: its owner by a fresh walk (R347). -/
def State.forwardTo (s : State) (c : Nat) (e : Entry) : State × Option (Nat × Burr) :=
  match e.body with
  | .burr b =>
    if e.held || b.fw then (s, none)
    else match s.lookup c e.ctx b.k false with
      | (s, o, _) =>
        if (match o with | some o => o.core == c | none => false) then (s, none)
        else match s.lookup c e.ctx b.k true with
          | (s, some o, _) => (s, if o.core == c then none else some (o.core, b))
          | (s, none, _) => (s, none)
  | _ => (s, none)

def execArrival (s : State) : Out :=
  match s.event with
  | some (.arrival c e) =>
    let s := s.taken
    if !(s.hosts c e.ctx) then .next (s.stray c e)
    else match s.forwardTo c e with
      | (s, some (d, b)) => .next (s.postBurr c d b false)
      | (s, none) => .next (s.enqueue c e)
  | _ => .fault .noSubject

/-! ### Watches and their owners (R53, R276) -/

def entOwner (e : Nat) : BitVec 5 := BitVec.ofNat 5 (16 + e)

def Core.relabel (k : Core) (a b : BitVec 5) : Core :=
  { k with watch := k.watch.map fun w => (w.1, if w.2 == a then b else w.2) }

/-! ### The thread-context cache (R169, R376) -/

/-- The lowest free cache entry. -/
def Core.freeEnt (k : Core) : Option Nat := (List.range 16).find? fun e => (k.cache.get? e).isNone

/-- The least recently used entry. -/
def Core.lruEnt (k : Core) : Nat :=
  (k.cache.foldl (fun (best : Option (Nat × Nat)) (e, x) =>
    match best with
    | some (_, u) => if x.used < u then some (e, x.used) else best
    | none => some (e, x.used)) none |>.map (·.1)).getD 0

/-- An entry is spilled to the backing area: it loses its watches and its saved WAKE is set. What lies behind is numbered by
spills, with the entry's number in the low four bits. -/
def Core.spillEnt (k : Core) (now e : Nat) : Core :=
  match k.cache.get? e with
  | none => k
  | some x =>
    let x := { x with th := { x.th with wake := true } }
    { k.unwatch (entOwner e) with cache := k.cache.del e, backing := k.backing.put (16 * now + e) x }

/-- Make an entry free: the lowest, after a spill when none is. -/
def Core.roomEnt (k : Core) (now : Nat) : Core × Nat :=
  match k.freeEnt with
  | some e => (k, e)
  | none => (k.spillEnt now k.lruEnt, k.lruEnt)

/-- A free byte (log 2). -/
def freeByte (n : Nat) : Byte := (Config.freeWord n).setWidth 8

/-- The 8 KiB of an entry in the backing area are written, sealed under the context's key id (R169, R374).  How a context is laid
out there is not stated: the bytes are free values (DESIGN CHOICE, log 123). -/
def State.writeBacking (s : State) (c e ctx : Nat) : State :=
  let a := field (s.core c).tccb 13 43 * 8192 + 8192 * e
  (List.range 64).foldl (fun s i =>
    { s.putSealed ctx (a + 128 * i) ((List.range 128).map fun j => freeByte (s.fresh + j)) with fresh := s.fresh + 128 }) s

/-- The backing area is written when a full cache gives up its least recently used entry. -/
def State.spillLru (s : State) (c : Nat) : State :=
  let k := s.core c
  match k.freeEnt, k.cache.get? k.lruEnt with
  | none, some x => s.writeBacking c k.lruEnt x.th.ctx
  | _, _ => s

/-- A port as it is saved: a fill port's buffer is fetched again (R336). -/
def Port.saved (p : Port) : Port :=
  if p.mode == .fill then { p with buf := [], pos := p.pos - p.ahead 0, err := none } else p

/-- A thread as it moves between a slot and the cache: its words are read, and single-bit errors corrected (R73). -/
def Thread.saved (t : Thread) : Thread := { t with ports := t.ports.map fun (n, p) => (n, p.saved), soft := [] }

/-- Tags that copies hold busy. -/
def copyTags (cs : List Copy) : Word := cs.foldl (fun w x => setBit w x.tag true) 0

/-- A copy as pre-emption of the drover leaves it: suspended at its run boundary, without a message (R331). -/
def Copy.pause (x : Copy) : Copy := if x.state == .running then { x with state := .paused } else x
def Copy.unpause (x : Copy) : Copy := if x.state == .paused then { x with state := .running } else x

/-- What the cache holds of a slot's context: for the drover slot, DRVCFG, the tag planes and the copies too. -/
def Core.entryOf (k : Core) (i now : Nat) (waiting : Option Nat) : CacheEnt :=
  let th := (k.slot i).th.saved
  if i == 7 then
    { th := th, drover := true, waiting := waiting, used := now, ctagf := k.ctagf, ctagl := k.ctagl, ctage := k.ctage,
      drvcfg := k.drvcfg, copies := k.copies.map Copy.pause }
  else { th := th, waiting := waiting, used := now }

/-- Move a slot's context to the cache: the core and the entry taken.  The tags of the drover's copies stay busy (R333). -/
def Core.toCache (k : Core) (i now : Nat) (waiting : Option Nat) : Core × Nat :=
  let (k, e) := k.roomEnt now
  let x := k.entryOf i now waiting
  let fixed := (k.slot i).th.soft.length
  let k := (k.relabel (slotOwner i) (entOwner e)).setSlot i
    { k.slot i with occ := false, fl := none, disp := none, th := { ports := (k.slot i).ownPorts }, ports := [] }
  let k := { k with cache := k.cache.put e x }.count 0 fixed
  (if i == 7 then { k with copies := [] } else k, e)

/-- The context that an entry's number names: in the cache, else the one spilled last. -/
def Core.findEnt (k : Core) (e : Nat) : Option (CacheEnt × Bool × Nat) :=
  match k.cache.get? e with
  | some x => some (x, true, e)
  | none => ((k.backing.filter fun p => p.1 % 16 == e).getLast?).map fun p => (p.2, false, p.1)

/-- Remove a context from the cache or the backing area. -/
def Core.dropEnt (k : Core) (cached : Bool) (key : Nat) : Core :=
  if cached then { k with cache := k.cache.del key } else { k with backing := k.backing.del key }

/-- A context as it resumes: a kept barrier release lets it run (R362); a double fault ends with DBL and ACT clear and
the fetch at TVEC (R376). -/
def Thread.resumed (t : Thread) (x : Ctx) : Thread :=
  let t := if t.release_ then { t with rest := .none, release_ := false } else t
  if t.dbl then { t with dbl := false, act := false, rest := .none, regs := { t.regs with n := x.tvecEntry } } else t

/-- Load a context into a slot; the core's L1 sectors of the context are invalidated (R115).  The tags of a saved drover's copies
have stayed busy and the core's planes with them, so the planes stand as they are; those of an image are taken from it, but
for tags that commands of the core hold (R331, R380). -/
def State.loadContext (s : State) (c i : Nat) (x : CacheEnt) (cached : Bool) (key : Nat) : State :=
  let ctx := x.th.ctx
  let t := { x.th.resumed (s.ctx ctx) with soft := [] }
  s.modCore c fun k =>
    let k := ((k.dropEnt cached key).l1Invalidate ctx).count 1 x.th.soft.length
    let k := if cached then k.relabel (entOwner key) (slotOwner i) else k
    let k := k.setSlot i { k.slot i with occ := true, fl := none, disp := none, th := t, ports := (k.slot i).ownPorts }
    if x.drover then
      let cs := x.copies.map Copy.unpause
      let plane := fun (now saved : Word) => if x.imaged then now &&& k.busy ||| saved &&& ~~~k.busy else now
      { k with ctagf := plane k.ctagf x.ctagf, ctagl := plane k.ctagl x.ctagl, ctage := plane k.ctage x.ctage,
               drvcfg := x.drvcfg, copies := cs, busy := k.busy ||| copyTags cs,
               acqTags := cs.foldl (fun w y => setBit w y.tag (polAcq y.desc.pol)) k.acqTags }
    else k

/-! ### Dispatch (R177, R359) -/

/-- Fi of a new thread (R171). -/
def fWord (fmt : BitVec 32) (scale : BitVec 56) (i : Nat) : Word :=
  wd (nbits fmt.toNat (8 * i) 6 * 2 ^ 56 + scale.toNat)

/-- What an entry gives a new thread: MEMB, FMT, SCALE and the first four words; a message gives no MEMB, FMT or SCALE
(DESIGN CHOICE, log 125). -/
def entryGives (e : Entry) : BitVec 32 × BitVec 32 × BitVec 56 × List Word :=
  match e.body with
  | .task p => (p.memb, p.fmt, p.scale, [p.a0, p.a1, p.a2, p.a3])
  | .msg d => (0, 0, 0, wordsFrom 4 (vecBytes d))
  | .mgmt a b c d => (0, 0, 0, [a, b, c, d])
  | .burr _ => (0, 0, 0, [])

/-- N of a channel's entry sheaf, an instruction-store offset (R211). -/
def chanEntry (tchan : Word) : Word := wd (field tchan 4 13 * 16)

/-- A new rooted thread. -/
def rootedThread (e : Entry) (tchan : Word) (old : Thread) : Thread :=
  let (memb, fmt, scale, a) := entryGives e
  { kind := .rooted
    regs := { g := Vector.ofFn fun i : Fin 32 => if i.val < 4 then (a[i.val]?).getD 0 else 0,
              f := Vector.ofFn fun i : Fin 4 => fWord fmt scale i.val, n := chanEntry tchan,
              rnd := rndWord (seedLfsr ((a[0]?).getD 0) e.chan) 0 }
    memb := memb, ctx := e.ctx, chan := e.chan, box0 := old.box0, box1 := old.box1 }

/-- A new burr of a task packet or message (R177, R442). -/
def newBurr (e : Entry) (tchan : Word) (bid : BitVec 32) : Burr :=
  let (memb, fmt, scale, a) := entryGives e
  { memb := memb, ctx := e.ctx, chan := e.chan, fmt := fmt, scale := scale, bid := bid,
    lfsr := seedLfsr ((a[0]?).getD 0) e.chan,
    g := Vector.ofFn fun i : Fin 8 => if i.val < 4 then (a[i.val]?).getD 0 else 0, n := chanEntry tchan }

/-- An entry has reached dispatch: its channel is open, or undefined and the entry may be sent on (R443). -/
def Core.reaches (k : Core) (e : Entry) : Bool :=
  !e.held && e.claim.isNone && (k.chanOpen e.chan || (!((k.tchan.get e.chan 0).getLsbD 63) && !(isMgmt e)))

/-- No sheaf of the core has claimed a mailbox of the slot (R319): one that has lets go when its words are in place.
DEDUCED, log 36. -/
def Thread.unclaimed (t : Thread) : Bool := t.box0.claim.isNone && t.box1.claim.isNone

/-- Free program slots. -/
def Core.freeSlots (k : Core) : List Nat := (List.range 7).filter fun i => !(k.slot i).occ && (k.slot i).th.unclaimed

/-- A slot's own drain ports hold no word that is still to be written: a rooted thread may take the slot over
(DESIGN CHOICE, log 139). -/
def Thread.settled (t : Thread) : Bool := t.ports.all fun p => p.2.mode != .drain || p.2.buf.isEmpty || p.2.stopped

/-- The free slots that a rooted thread, or a burr, may take. -/
def Core.slotsFor (k : Core) (rooted : Bool) : List Nat := k.freeSlots.filter fun i => !rooted || (k.slot i).th.settled

/-- The thread of an entry is rooted. -/
def Core.makesRooted (k : Core) (e : Entry) : Bool :=
  (match e.body with | .burr _ => false | _ => true) && !(burrChan (k.tchan.get e.chan 0))

/-- One of several slots: which is not stated (log 2). -/
def State.oneOf (s : State) (xs : List Nat) : Option Nat × State :=
  match xs with
  | [] => (none, s)
  | [x] => (some x, s)
  | xs => (xs[Config.choice s.fresh % xs.length]?, { s with fresh := s.fresh + 1 })

/-- The waiting context that has waited longest, cached or spilled: its clock, place and contents. -/
def Core.oldestWaiting (k : Core) : Option (Nat × Bool × Nat × CacheEnt) :=
  let all := (k.cache.map fun (e, x) => (true, e, x)) ++ (k.backing.map fun (e, x) => (false, e, x))
  all.foldl (fun best (cached, key, x) =>
    match x.waiting, best with
    | some t, some (u, _) => if t < u then some (t, cached, key, x) else best
    | some t, none => some (t, cached, key, x)
    | none, _ => best) none

/-- The entry of a burr channel must wait for a serial (R356). -/
def Core.serialWaits (k : Core) (e : Entry) : Bool :=
  k.chanOpen e.chan && burrChan (k.tchan.get e.chan 0) && k.serialHeld && (match e.body with | .burr _ => false | _ => true)

/-- Start the thread of an entry in a slot. -/
def State.startEntry (s : State) (c i : Nat) (e : Entry) : State :=
  let k := s.core c
  let tc := k.tchan.get e.chan 0
  let old := (k.slot i).th
  let put := fun (s : State) (t : Thread) =>
    { s.modSlot c i fun x => { x with occ := true, fl := none, disp := none, ports := if t.kind == .rooted then old.ports else [],
                                      th := { t with tid := if e.tid == 0 then s.nextId + 1 else e.tid } } with
      nextId := s.nextId + 1 }
  match e.body with
  | .burr b =>
    let rest := match e.flock with
      | some f => Rest.barrier f
      | none => if e.halted then .halted else .none
    (put s { burrThread b old with imps := e.imps, rest := rest, moveTo := e.moveTo }).modCore c (·.l1Invalidate e.ctx)
  | _ =>
    if burrChan tc then
      let b := newBurr e tc (bidOf c k.serial)
      (put s (burrThread b old)).modCore c fun y => ((y.liveAdd k.serial).takeSerial).l1Invalidate e.ctx
    else put s (rootedThread e tc old)

/-- Take an entry out of a queue, and reload its end from the spill. -/
def Core.takeEntry (k : Core) : Core × Option Entry :=
  match takeFirst (fun e => k.reaches e) k.aq with
  | some (e, rest) => ({ k with aq := rest }.reload 48, some e)
  | none => (k, none)

/-- The core can dispatch; one of a context that is being destroyed does not (R385). -/
def State.canDispatch (s : State) (c : Nat) : Bool :=
  let k := s.core c
  let resume := !(k.slotsFor true).isEmpty
  let start := fun (e : Entry) => !(k.serialWaits e) && !(k.slotsFor (k.makesRooted e)).isEmpty
  !(match k.ctx with | some x => (s.ctx x).stopped | none => true) &&
    (match k.aq.find? k.reaches, k.oldestWaiting with
     | some e, none => start e
     | some e, some (t, _) => if t < e.since then resume else start e
     | none, some _ => resume
     | none, none => false)

/-- DEDUCED, log 68. -/
def execDispatch (s : State) : Out :=
  match s.event with
  | some (.dispatch c) =>
    let s := s.taken
    if !(s.canDispatch c) then .next s
    else
      let k := s.core c
      let slot := fun (rooted : Bool) => (k.slotsFor rooted).headD 0
      let resume := fun (cached : Bool) (key : Nat) (x : CacheEnt) => s.loadContext c (slot true) x cached key
      let entry := match k.takeEntry with
        | (y, some e) =>
          let s := (s.setCore c y).noteJam c
          if y.chanOpen e.chan then s.startEntry c (slot (k.makesRooted e)) e else s.stray c e
        | (_, none) => s
      match k.oldestWaiting, k.aq.find? k.reaches with
      | some (t, cached, key, x), some e => .next (if t < e.since then resume cached key x else entry)
      | some (_, cached, key, x), none => .next (resume cached key x)
      | none, _ => .next entry
  | _ => .fault .noSubject

/-! ### Leaving a slot -/

/-- A slot whose disposal waits, with its thread, and all its counted writes acknowledged; a barrier is waited for first
(R362). -/
def Slot.mayLeave (x : Slot) : Bool :=
  x.allDone && x.deps.isEmpty && x.fl.isNone && x.th.unclaimed && (match x.th.rest with | .barrier _ => false | _ => true)

/-- A step about a slot whose disposal waits. -/
def withDisp (s : State) (get : Event → Option (Nat × Nat)) (body : State → Nat → Nat → Slot → Dispo → State) : Out :=
  match s.event.bind get with
  | some (c, k) =>
    let s := s.taken
    let x := s.slot c k
    match x.disp with
    | some d => if x.occ && x.mayLeave then .next (body s c k x d) else .next s
    | none => .next s
  | none => .fault .noSubject

/-- The thread leaves its slot for good, its watches cleared. -/
def State.freeSlot (s : State) (c k : Nat) : State :=
  s.modCore c fun y => (y.unwatch (slotOwner k)).setSlot k (y.slot k).freed

/-- A burr migrates (R165, R166, R358): it joins its slot's queue, behind what the slot has committed (DESIGN CHOICE, log 139). -/
def execBurrMigration (s : State) : Out :=
  withDisp s (fun e => match e with | .burrMigration c k => some (c, k) | _ => none) fun s c k x d =>
    match d with
    | .migrate dst fw => (s.inject c k (burrPkt c dst { x.th.toBurr with fw := fw } false)).freeSlot c k
    | _ => s

/-- The home node of a flock (R170). -/
def State.flockHome (s : State) (f : Nat) : Nat :=
  if s.dieLive (f / 16) then nodeOf f
  else
    let d := ((List.range 15).map fun i => (f / 16 + 1 + i) % 16).find? fun d => s.dieLive d
    nodeOf (16 * d.getD 0 + f % 16)

/-- A count change goes to a flock's record from a core's node, in wake-and-barrier class (R360). DEDUCED, log 71. -/
def State.postCount (s : State) (src : Nat × Nat) (ctx f : Nat) (up : Bool) (ack : Option (Nat × Nat) := none) : State :=
  s.post { msg := true, cls := 3, src := src, dst := (s.flockHome f, epMgmt), ctx := ctx,
           deliver := .flockCountChange ctx f up ack }

/-- A count change of a slot's commit joins its queue, in order with its barrier arrivals (R360, R89). -/
def State.sendCount (s : State) (c k ctx f : Nat) (up : Bool) : State :=
  s.inject c k { msg := true, cls := 3, src := coreEnd c, dst := (s.flockHome f, epMgmt), ctx := ctx,
                 deliver := .flockCountChange ctx f up none }

def State.sendCounts (s : State) (c k ctx : Nat) (memb : BitVec 32) (up : Bool) : State :=
  (flocksOf memb).foldl (fun s f => s.sendCount c k ctx f up) s

/-- The flocks of a MEMB each gain or lose a member. -/
def State.postCounts (s : State) (src : Nat × Nat) (ctx : Nat) (memb : BitVec 32) (up : Bool) : State :=
  (flocksOf memb).foldl (fun s f => s.postCount src ctx f up) s

/-- Every word written to the thread's drain ports has reached its home (R335). -/
def Thread.emptied (t : Thread) : Bool := t.ports.all fun p => p.2.mode != .drain || p.2.buf.isEmpty

/-- A thread that has run DONE leaves (R359), a rooted one once its drain ports are empty; its pending traps go to the supervisor
(R313). -/
def execThreadRetire (s : State) : Out :=
  withDisp s (fun e => match e with | .threadRetire c k => some (c, k) | _ => none) fun s c k x d =>
    match d with
    | .done =>
      if x.th.kind == .rooted && !x.th.emptied then s else
      ((s.sendCounts c k x.th.ctx x.th.memb false).orphans c k x.th.ctx x.th.imps).freeSlot c k
    | _ => s

/-- A burr that has yielded or been pre-empted, as an entry: it keeps its barrier-wait and its pending traps (R313, R362). -/
def Thread.burrEntry (t : Thread) : Entry :=
  { ctx := t.ctx, chan := t.chan, body := .burr t.toBurr, tid := t.tid, imps := t.imps, halted := t.rest == .halted,
    flock := (match t.rest with | .barrier f => some f | _ => none), moveTo := t.moveTo }

/-- A burr of a handed croft that nothing keeps goes to the croft's new owner in place of the queue (R347). -/
def Thread.goesTo (t : Thread) : Option Nat := if t.rest == .none && t.imps.isEmpty then t.moveTo else none

/-- A burr leaves its slot for the tail of its core's queue, or migrates. -/
def State.requeue (s : State) (c k : Nat) (t : Thread) : State :=
  match t.goesTo with
  | some d => (s.inject c k (burrPkt c d t.toBurr false)).freeSlot c k
  | none => (s.freeSlot c k).enqueue c t.burrEntry

/-- A burr may be requeued: its core has room for it; until then it stays in its slot (DESIGN CHOICE, log 124). -/
def State.mayRequeue (s : State) (c : Nat) (t : Thread) : Bool := t.goesTo.isSome || s.coreRoom c false

/-- A yielding thread leaves: to the cache as waiting, or to the tail of its core's queue (R359). -/
def execYieldRetire (s : State) : Out :=
  withDisp s (fun e => match e with | .yieldRetire c k => some (c, k) | _ => none) fun s c k x d =>
    match d with
    | .yield_ =>
      if x.th.kind == .rooted then
        if k == 7 && !(s.core c).copiesRest then s
        else
          let s := s.spillLru c
          s.setCore c ((s.core c).toCache k s.now (some s.now)).1
      else if s.mayRequeue c x.th then s.requeue c k x.th else s
    | _ => s

/-- A halting slot leaves the rotation with its thread (R375). -/
def execHalted (s : State) : Out :=
  withDisp s (fun e => match e with | .halted c k => some (c, k) | _ => none) fun s c k x d =>
    match d with
    | .halt =>
      (s.modSlot c k fun y => { y with disp := none, th := { y.th with rest := .halted } }).slotMsg c k x.th.ctx 3 none
        (some x.th.regs.n) none none
    | _ => s

/-- A parked slot whose WAKE is set runs on (R275). -/
def execUnpark (s : State) : Out :=
  match s.event with
  | some (.unpark c k) =>
    let s := s.taken
    let t := (s.slot c k).th
    if t.rest == .parked && t.wake then .next (s.modThread c k fun t => { t with rest := .none, wake := false }) else .next s
  | _ => .fault .noSubject

/-- PARK's effect: with WAKE set it clears WAKE and the slot runs on (R275). -/
def Thread.parkNow (t : Thread) : Thread := if t.wake then { t with wake := false } else { t with rest := .parked }

/-! ### Barriers (R360, R362) -/

/-- The thread is the one that a release is for; with `own` false, one restored from an image, whose flock is not known (R421). -/
def Thread.takes (t : Thread) (ctx f tid : Nat) (own : Bool) : Bool :=
  t.ctx == ctx && !t.release_ && (if own then t.tid == tid && t.rest == .barrier f else t.rest == .barrier 0)

/-- Let the first saved context that a release is for keep it. -/
def keepRelease (p : Thread → Bool) : SMap CacheEnt → SMap CacheEnt
  | [] => []
  | (e, x) :: rest =>
    if p x.th then (e, { x with th := { x.th with release_ := true } }) :: rest else (e, x) :: keepRelease p rest

/-- A slot whose barrier has been released: a PARK of the same sheaf takes effect now. DEDUCED, log 88. -/
def Slot.released (x : Slot) : Slot :=
  let x := { x with th := { x.th with rest := .none } }
  match x.disp with
  | some .park => { x with disp := none, th := x.th.parkNow }
  | _ => x

/-- A release goes to its thread: in a slot, whose L1 sectors of the context are invalidated and which runs on, or saved, or queued;
`none` where it is not found. -/
def State.giveRelease (s : State) (c ctx f tid : Nat) (own : Bool) : Option State :=
  let y := s.core c
  let p := fun (t : Thread) => t.takes ctx f tid own
  let q := fun (e : Entry) => own && e.tid == tid && e.flock == some f
  let free := fun (es : List Entry) => es.map fun e => if q e then { e with flock := none } else e
  match (List.range 8).find? fun k => (y.slot k).occ && p (y.slot k).th with
  | some k => some ((s.modCore c (·.l1Invalidate ctx)).modSlot c k Slot.released)
  | none =>
    if y.cache.any fun e => p e.2.th then some (s.setCore c { y with cache := keepRelease p y.cache })
    else if y.backing.any fun e => p e.2.th then some (s.setCore c { y with backing := keepRelease p y.backing })
    else if (y.aq ++ y.spill).any q then some (s.setCore c { y with aq := free y.aq, spill := free y.spill })
    else none

/-- A release reaches a member's core, which hands it to the member wherever it stands (R362).  A core of another context returns a
misroute (R100; log 67). -/
def execBarrierRelease (s : State) : Out :=
  match s.event with
  | some (.barrierRelease ctx f c _ tid) =>
    let s := s.taken
    if !(s.hosts c ctx) then .next (s.notHosted c ctx)
    else .next (((s.giveRelease c ctx f tid true).orElse fun _ => s.giveRelease c ctx f tid false).getD s)
  | _ => .fault .noSubject

/-- The record of a flock. -/
def flockKey (ctx f : Nat) : Nat := 256 * ctx + f
def State.flock (s : State) (ctx f : Nat) : Flock := s.flocks.get (flockKey ctx f) {}
def State.setFlock (s : State) (ctx f : Nat) (x : Flock) : State := { s with flocks := s.flocks.put (flockKey ctx f) x }

/-- A barrier completes once every member has arrived: releases leave, the generation rises (R360). -/
def State.flockCheck (s : State) (ctx f : Nat) : State :=
  let x := s.flock ctx f
  if x.count != 0 && (x.arrived.length : Int) == x.count then
    let s := s.setFlock ctx f { x with arrived := [], gen := x.gen + 1 }
    x.arrived.foldl (fun s (c, k, tid) =>
      s.post { msg := true, cls := 3, src := (s.flockHome f, epMgmt), dst := coreEnd c, ctx := ctx,
               deliver := .barrierRelease ctx f c k tid }) s
  else s

/-- A flock's record acknowledges an increment to the launch queue that awaits it (R432). -/
def State.ackCount (s : State) (ctx f : Nat) (ack : Option (Nat × Nat)) : State :=
  match ack with
  | some (g, q) => s.post { msg := true, cls := 3, src := (s.flockHome f, epMgmt), dst := (s.attachment g (s.flockHome f), epGateway),
                            ctx := ctx, deliver := .launchRecord g ctx q .counted }
  | none => s

def execFlockCountChange (s : State) : Out :=
  match s.event with
  | some (.flockCountChange ctx f up ack) =>
    let s := s.taken
    let x := s.flock ctx f
    .next (((s.setFlock ctx f { x with count := if up then x.count + 1 else x.count - 1 }).flockCheck ctx f).ackCount ctx f ack)
  | _ => .fault .noSubject

def execFlockArrival (s : State) : Out :=
  match s.event with
  | some (.flockArrival ctx f c k tid) =>
    let s := s.taken
    let x := s.flock ctx f
    .next ((s.setFlock ctx f { x with arrived := x.arrived ++ [(c, k, tid)] }).flockCheck ctx f)
  | _ => .fault .noSubject

/-! ### PREEMPT and eviction (R376) -/

/-- PSTAT's word: the entry used, the outcome, and completion. DESIGN CHOICE, log 70. -/
def pstatWord (ent outcome : Nat) : Word := wd (ent % 16 + outcome * 16 + 256)

/-- The number that stands for the trust core as the issuer of an eviction (STOP, R383): no core has it. -/
def trustCore : Nat := 2048

/-- An operation completes: PSTAT of the issuing slot is written. An outcome without an entry leaves those bits free. -/
def State.preemptDone (s : State) (c k : Nat) (ent : Option Nat) (outcome : Nat) : State :=
  if c == trustCore then s
  else
    let (e, s) := s.orFree (ent.map wd)
    s.modThread c k fun t => { t with pstat := pstatWord (field e 0 4) outcome }

/-- A resume (R376). -/
def State.resumeEnt (s : State) (c k : Nat) (w : Word) : State :=
  let d := preCore w
  match (s.core d).findEnt (preEnt w) with
  | none => s.preemptDone c k (some (preEnt w)) 3
  | some (x, cached, key) =>
    if (s.slot d (preSlot w)).occ then s.preemptDone c k (some (preEnt w)) 2
    else (s.loadContext d (preSlot w) x cached key).preemptDone c k (some (preEnt w)) 0

/-- A drop (R376): the entry is freed, its watches cleared, its flocks left. -/
def State.dropContext (s : State) (c k : Nat) (w : Word) : State :=
  let d := preCore w
  match (s.core d).findEnt (preEnt w) with
  | none => s.preemptDone c k (some (preEnt w)) 3
  | some (x, cached, key) =>
    let s := s.modCore d fun y =>
      { (if cached then y.unwatch (entOwner key) else y).dropEnt cached key with busy := y.busy &&& ~~~(copyTags x.copies) }
    let s := { s with colls := s.colls.filter fun g => !(g.core == d && x.copies.any fun y => y.tag == g.tag) }
    (s.postCounts (coreEnd d) x.th.ctx x.th.memb false).preemptDone c k (some (preEnt w)) 0

/-- PREEMPT's commit. -/
def State.preempt (s : State) (c k : Nat) (w : Word) : State :=
  let ctx := (s.slot c k).th.ctx
  let d := preCore w
  if !(s.hosts d ctx) then s.preemptDone c k (if preAct w == 0 then none else some (preEnt w)) 4
  else if preAct w == 1 then s.resumeEnt c k w
  else if preAct w == 2 then s.dropContext c k w
  else if !(s.slot d (preSlot w)).occ then s.preemptDone c k none 1
  else
    let s := s.discard d (preSlot w)
    { s with ops := s.ops ++ [{ id := s.nextId, core := c, slot := k, kind := .preempt w }], nextId := s.nextId + 1 }

/-- The eviction of a slot may be carried out; a port that has stopped holds it up until CPRES acts on it (R336). -/
def State.canEvict (s : State) (c k : Nat) : Bool :=
  let x := s.slot c k
  x.allDone && x.deps.isEmpty && x.cancels == 0 && x.fl.isNone && x.disp.isNone && x.th.emptied && x.th.unclaimed &&
    (k != 7 || (s.core c).copiesRest) && (x.th.kind == .rooted || s.mayRequeue c x.th)

/-- The eviction (R376). -/
def State.evict (s : State) (c k : Nat) (o : Op) : State :=
  let x := s.slot c k
  let s := { s with ops := s.ops.filter fun y => y.id != o.id }
  if !x.occ then s.preemptDone o.core o.slot none 1
  else if x.th.kind == .burr then
    (s.requeue c k x.th).preemptDone o.core o.slot none 0
  else
    let s := s.spillLru c
    let (y, e) := (s.core c).toCache k s.now none
    (s.setCore c y).preemptDone o.core o.slot (some e) 0

def execEviction (s : State) : Out :=
  match s.event with
  | some (.eviction c k) =>
    let s := s.taken
    match s.evictOp c k with
    | some o => if s.canEvict c k then .next (s.evict c k o) else .next s
    | none => .next s
  | _ => .fault .noSubject

end Sys2Proof.Machine
end

