-- ==== Sys2Proof/Machine/Vec.lean ====
section
/-!
DEFINITION. Vector arithmetic, reductions, conversion and moves of pages 3 and 4 (R281 to R296).
-/
namespace Sys2Proof.Machine
open Sys2Proof

/-! ### Elements, masks and formats (R281, R282) -/

/-- The elements of a vector token, `none` where invalid; an immediate on a vector port is broadcast (R283). -/
def elemsOf (s : Nat) (t : Tok) : List (Option Nat) :=
  match t with
  | .ve d m => (List.range (64 / s)).map fun j =>
      if m.getLsbD (j * s) then some (nbits d.toNat (8 * s * j) (8 * s)) else none
  | .sc w => List.replicate (64 / s) (some (nbits w.toNat 0 (8 * s)))
  | .null => List.replicate (64 / s) none

/-- The number whose digits of s bytes are given, lowest first. -/
def packElems (s : Nat) : List (Option Nat) → Nat
  | [] => 0
  | e :: rest => e.getD 0 % 2 ^ (8 * s) + 2 ^ (8 * s) * packElems s rest

/-- A vector token of elements. -/
def vecTok (s : Nat) (es : List (Option Nat)) : Tok :=
  .ve (BitVec.ofNat 512 (packElems s es)) (elemMask s (es.map (·.isSome)))

/-- Elements ANDed with a lane mask at the bit of each element's lowest byte (R281). -/
def maskElems (s : Nat) (q : Mask) (es : List (Option Nat)) : List (Option Nat) :=
  es.zipIdx.map fun (e, j) => if q.getLsbD (j * s) then e else none

/-- The lane mask that a QSEL selects: Qq at the start of the sheaf, or all ones (R206, R281). -/
def Thread.qselMask (t : Thread) (q : BitVec 4) : Mask :=
  if q.getLsbD 3 then t.regs.q[q.toNat % 8]?.getD 0 else BitVec.allOnes 64

/-- The lane mask of the last FMT prefix. -/
def Iss.qmask (is : Iss) : Mask :=
  match is.f.fmts.getLast? with
  | some (_, q) => is.th.qselMask q
  | none => BitVec.allOnes 64

/-- A format code resolved at fire: an inherited code is the shadow's (R188, R281); `none` is bad-format. -/
def Thread.resolve (t : Thread) (set : FmtSet) (code : Nat) : Option Nat :=
  let c := if fmtInherited code then field (t.shadow (code % 4)) 56 6 else code
  if set.has c then some c else none

/-- The rounding mode of rounding event `k` of the issuing instruction (R193, R195). -/
def Iss.rmode (is : Iss) (k : Nat) : RMode :=
  let m := is.th.regs.rnd.extractLsb' 0 3
  if m == 6 then .sto (lfsrAdv (64 * is.pos + k + 1) (is.th.regs.rnd.extractLsb' 32 32)).toNat else modeOf m 0

/-- The SAT bit of a page syllable: SUB[5] (R283). -/
def Iss.sat (is : Iss) : Bool := is.f.sub.getLsbD 5

/-- Fire with a result; the sheaf then holds an RND-rounding instruction if the formats round (R195), which reads RND (R73, R193). -/
def State.emitRounded (s : State) (is : Iss) (rounds : Bool) (t : Tok) : State :=
  if rounds && is.th.bad.any (fun w => (w.1, w.2.1) == (2, 6)) then s.trapAt is .uncorrectableData
  else (if rounds then s.modFlight is.c is.k fun fl => { fl with rounded := true } else s).emit is t

/-- An instruction with one format: resolved, or bad-format. -/
def withFormat (i : Instr) (s : State) (body : Iss → State → Nat → Out) : Out :=
  issue i s fun is s =>
    match is.n.fmts, is.f.fmts with
    | .one set, (c, _) :: _ =>
      match is.th.resolve set c.toNat with
      | some code => body is s code
      | none => .next (s.trapAt is .badFormat)
    | _, _ => .next (s.trapAt is .badFormat)

/-- An instruction with a source and a result format. -/
def withFormats (i : Instr) (s : State) (body : Iss → State → Nat → Nat → Out) : Out :=
  issue i s fun is s =>
    match is.n.fmts, is.f.fmts with
    | .two ss ds rule, (a, _) :: (b, _) :: _ =>
      match is.th.resolve ss a.toNat, is.th.resolve ds b.toNat with
      | some ca, some cb => if rule.holds ca cb then body is s ca cb else .next (s.trapAt is .badFormat)
      | _, _ => .next (s.trapAt is .badFormat)
    | _, _ => .next (s.trapAt is .badFormat)

/-! ### Element-wise forms -/

/-- One operand: result element j from element j, by the code and the rounding mode of event j. -/
def vec1 (i : Instr) (s : State) (rounds : Nat → Bool) (g : Nat → RMode → Bool → Nat → Nat) : Out :=
  withFormat i s fun is s code =>
    let sz := fmtSize code
    let es := (elemsOf sz is.l).zipIdx.map fun (a, j) => a.map (g code (is.rmode j) is.sat)
    .next (s.emitRounded is (rounds code) (vecTok sz (maskElems sz is.qmask es)))

/-- Two operands. -/
def vec2 (i : Instr) (s : State) (rounds : Nat → Bool) (g : Nat → RMode → Bool → Nat → Nat → Nat) : Out :=
  withFormat i s fun is s code =>
    let sz := fmtSize code
    let es := ((elemsOf sz is.l).zip (elemsOf sz is.r)).zipIdx.map fun ((a, b), j) =>
      match a, b with
      | some a, some b => some (g code (is.rmode j) is.sat a b)
      | _, _ => none
    .next (s.emitRounded is (rounds code) (vecTok sz (maskElems sz is.qmask es)))

/-- Three operands. -/
def vec3 (i : Instr) (s : State) (g : Nat → RMode → Bool → Nat → Nat → Nat → Nat) : Out :=
  withFormat i s fun is s code =>
    let sz := fmtSize code
    let es := ((elemsOf sz is.l).zip ((elemsOf sz is.r).zip (elemsOf sz is.x))).zipIdx.map fun ((a, b, c), j) =>
      match a, b, c with
      | some a, some b, some c => some (g code (is.rmode j) is.sat a b c)
      | _, _, _ => none
    .next (s.emitRounded is (fmtIsFloat code) (vecTok sz (maskElems sz is.qmask es)))

/-! ### Element arithmetic (R284 to R287) -/

/-- Rounding toward −∞ gives an exact zero sum of unlike signs the sign − (R194). -/
def isRtn (md : RMode) : Bool := md == .rtn

def addElem (code : Nat) (md : RMode) (sat : Bool) (a b : Nat) : Nat :=
  if fmtIsInt code then (intResult code sat (intValue code a + intValue code b)).1
  else (fmtOf code).round md sat (((fmtOf code).decode a).add (isRtn md) ((fmtOf code).decode b))

def subElem (code : Nat) (md : RMode) (sat : Bool) (a b : Nat) : Nat :=
  if fmtIsInt code then (intResult code sat (intValue code a - intValue code b)).1
  else (fmtOf code).round md sat (((fmtOf code).decode a).add (isRtn md) ((fmtOf code).decode b).neg)

def mulElem (code : Nat) (md : RMode) (sat : Bool) (a b : Nat) : Nat :=
  if fmtIsInt code then (intResult code sat (intValue code a * intValue code b)).1
  else (fmtOf code).round md sat (((fmtOf code).decode a).mul ((fmtOf code).decode b))

def fmaElem (code : Nat) (md : RMode) (sat : Bool) (a b c : Nat) : Nat :=
  if fmtIsInt code then (intResult code sat (intValue code a * intValue code b + intValue code c)).1
  else (fmtOf code).round md sat
    ((((fmtOf code).decode a).mul ((fmtOf code).decode b)).add (isRtn md) ((fmtOf code).decode c))

def fmsElem (code : Nat) (md : RMode) (sat : Bool) (a b c : Nat) : Nat :=
  if fmtIsInt code then (intResult code sat (intValue code a * intValue code b - intValue code c)).1
  else (fmtOf code).round md sat
    ((((fmtOf code).decode a).mul ((fmtOf code).decode b)).add (isRtn md) ((fmtOf code).decode c).neg)

def minElem (code : Nat) (md : RMode) (_ : Bool) (a b : Nat) : Nat :=
  if fmtIsInt code then intCode code (min (intValue code a) (intValue code b))
  else (fmtOf code).round md false (((fmtOf code).decode a).min2 ((fmtOf code).decode b))

def maxElem (code : Nat) (md : RMode) (_ : Bool) (a b : Nat) : Nat :=
  if fmtIsInt code then intCode code (max (intValue code a) (intValue code b))
  else (fmtOf code).round md false (((fmtOf code).decode a).max2 ((fmtOf code).decode b))

def absElem (code : Nat) (md : RMode) (_ : Bool) (a : Nat) : Nat :=
  if fmtIsInt code then intCode code ((intValue code a).natAbs : Int)
  else (fmtOf code).round md false ((fmtOf code).decode a).abs

def negElem (code : Nat) (md : RMode) (_ : Bool) (a : Nat) : Nat :=
  if fmtIsInt code then intCode code (-(intValue code a))
  else (fmtOf code).round md false ((fmtOf code).decode a).neg

/-- A function of floating-point elements only. -/
def floatElem (h : Fmt → RMode → Bool → Val → Nat) (code : Nat) (md : RMode) (sat : Bool) (a : Nat) : Nat :=
  h (fmtOf code) md sat ((fmtOf code).decode a)

/-- A shift by element b mod 8s (R287). -/
def shiftElem (h : Nat → Nat → Nat → Nat) (code : Nat) (_ : RMode) (_ : Bool) (a b : Nat) : Nat :=
  let w := intBits code
  h w a (b % w) % 2 ^ w

def shlBits (_ a c : Nat) : Nat := a * 2 ^ c
def shrBits (_ a c : Nat) : Nat := a / 2 ^ c
def sarBits (w a c : Nat) : Nat := ((signed w a / ((2 ^ c : Nat) : Int)) % ((2 ^ w : Nat) : Int)).toNat

/-- The relation of a VCMP condition, EQ NE LT LE GT GE, by the format (R288). -/
def cmpElem (cond code a b : Nat) : Bool :=
  let (lt, eq, gt) :=
    if fmtIsInt code then
      let x := intValue code a
      let y := intValue code b
      (decide (x < y), x == y, decide (y < x))
    else
      let x := (fmtOf code).decode a
      let y := (fmtOf code).decode b
      (x.lt y, x.eq y, y.lt x)
  match cond with
  | 0 => eq
  | 1 => !eq
  | 2 => lt
  | 3 => lt || eq
  | 4 => gt
  | _ => gt || eq

/-! ### Reductions (R200, R289, R290) -/

/-- One level of the tree: the nodes from number `k` up, a node with one valid input passing it through. -/
def treeLevel (g : Nat → Nat → Nat → Nat) : Nat → List (Option Nat) → List (Option Nat)
  | k, a :: b :: rest =>
    (match a, b with
      | some a, some b => some (g k a b)
      | some a, none => some a
      | none, b => b) :: treeLevel g (k + 1) rest
  | _, l => l

/-- The tree over `2^n` elements. -/
def tree (g : Nat → Nat → Nat → Nat) : Nat → Nat → List (Option Nat) → Option Nat
  | 0, _, l => l.headD none
  | n + 1, k, l => tree g n (k + l.length / 2) (treeLevel g k l)

/-- A result element as a scalar: signed integers sign-extended, the others zero-extended (R289, R293). -/
def elemWord (code v : Nat) : Word :=
  if fmtIsInt code && intSigned code then BitVec.ofInt 64 (intValue code v) else wd v

/-- NaN made canonical for a value passed through by a maximum (R289). -/
def canonElem (code v : Nat) : Nat :=
  if fmtIsInt code then v
  else if (fmtOf code).decode v == .nan then (fmtOf code).nanCode else v

/-- A lane reduction (R289). -/
def reduceVec (i : Instr) (s : State) (rounds : Bool) (g : Nat → RMode → Bool → Nat → Nat → Nat)
    (fin : Nat → Nat → Nat) : Out :=
  withFormat i s fun is s code =>
    let sz := fmtSize code
    let es := maskElems sz is.qmask (elemsOf sz is.l)
    match tree (fun k a b => g code (is.rmode k) is.sat a b) (Nat.log2 (64 / sz)) 0 es with
    | none => .next (s.emit is .null)
    | some v => .next (s.emitRounded is (rounds && fmtIsFloat code) (.sc (elemWord code (fin code v))))

/-- The pairs of VDOT valid in both operands. -/
def dotPairs (sz : Nat) (q : Mask) (l r : Tok) : List (Nat × Nat) :=
  ((maskElems sz q (elemsOf sz l)).zip (maskElems sz q (elemsOf sz r))).filterMap fun (a, b) =>
    match a, b with
    | some a, some b => some (a, b)
    | _, _ => none

/-- VDOT (R290). -/
def dotWord (code : Nat) (md : RMode) (sat : Bool) (acc : Word) (ps : List (Nat × Nat)) : Word :=
  if fmtIsInt code then
    let x : Int := signed 32 (field acc 0 32) + ps.foldl (fun t (a, b) => t + intValue code a * intValue code b) 0
    let y := if sat then max (-(2 ^ 31)) (min (2 ^ 31 - 1) x) else x
    BitVec.ofInt 64 (signed 32 (y % ((2 ^ 32 : Nat) : Int)).toNat)
  else
    if ps.isEmpty then wd (field acc 0 32)
    else
      let g := groupSum (ps.map fun (a, b) => ((fmtOf code).decode a).mul ((fmtOf code).decode b))
      wd (fmtF32.round md sat ((fmtF32.decode (field acc 0 32)).add (isRtn md) g))

/-! ### Conversions (R291, R292) -/

/-- A conversion between these codes makes rounding events: not between integers (R195). -/
def convRounds (a b : Nat) : Bool := !(fmtIsInt a && fmtIsInt b)

/-- The whole base-4 digits of the element index (R294). -/
def curveDigits (n : Nat) : Nat := Nat.log2 n / 2

/-- Index e with digit L replaced (R294). -/
def putDigit (e l v : Nat) : Nat := e - nbits e (2 * l) 2 * 4 ^ l + v * 4 ^ l

/-- Index e with the bits of each digit below D exchanged (R294). -/
def swapDigits : Nat → Nat → Nat
  | 0, e => e
  | d + 1, e => swapDigits d (putDigit e d (nbits e (2 * d) 1 * 2 + nbits e (2 * d + 1) 1))

/-! ### Meanings -/

def execVadd (f : Form) (s : State) : Out := vec2 (.vadd f) s fmtIsFloat addElem
def execVsub (f : Form) (s : State) : Out := vec2 (.vsub f) s fmtIsFloat subElem
def execVmul (f : Form) (s : State) : Out := vec2 (.vmul f) s fmtIsFloat mulElem
def execVfma (f : Form) (s : State) : Out := vec3 (.vfma f) s fmaElem
def execVfms (f : Form) (s : State) : Out := vec3 (.vfms f) s fmsElem
def execVmin (f : Form) (s : State) : Out := vec2 (.vmin f) s fmtIsFloat minElem
def execVmax (f : Form) (s : State) : Out := vec2 (.vmax f) s fmtIsFloat maxElem
def execVabs (f : Form) (s : State) : Out := vec1 (.vabs f) s fmtIsFloat absElem
def execVneg (f : Form) (s : State) : Out := vec1 (.vneg f) s fmtIsFloat negElem
def execVrcp (f : Form) (s : State) : Out := vec1 (.vrcp f) s fmtIsFloat (floatElem rcpElem)
def execVrsq (f : Form) (s : State) : Out := vec1 (.vrsq f) s fmtIsFloat (floatElem rsqElem)
def execVexp2 (f : Form) (s : State) : Out := vec1 (.vexp2 f) s fmtIsFloat (floatElem exp2Elem)
def execVlog2 (f : Form) (s : State) : Out := vec1 (.vlog2 f) s fmtIsFloat (floatElem log2Elem)
def execVand (f : Form) (s : State) : Out := vec2 (.vand f) s (fun _ => false) fun _ _ _ a b => a &&& b
def execVor (f : Form) (s : State) : Out := vec2 (.vor f) s (fun _ => false) fun _ _ _ a b => a ||| b
def execVxor (f : Form) (s : State) : Out := vec2 (.vxor f) s (fun _ => false) fun _ _ _ a b => a ^^^ b
def execVshl (f : Form) (s : State) : Out := vec2 (.vshl f) s (fun _ => false) (shiftElem shlBits)
def execVshr (f : Form) (s : State) : Out := vec2 (.vshr f) s (fun _ => false) (shiftElem shrBits)
def execVsar (f : Form) (s : State) : Out := vec2 (.vsar f) s (fun _ => false) (shiftElem sarBits)

def execVcmp (f : Form) (s : State) : Out := withFormat (.vcmp f) s fun is s code =>
  let sz := fmtSize code
  let l := maskElems sz is.qmask (elemsOf sz is.l)
  let r := maskElems sz is.qmask (elemsOf sz is.r)
  let bs := (l.zip r).map fun (a, b) =>
    match a, b with
    | some a, some b => cmpElem (f.sub.toNat % 8) code a b
    | _, _ => false
  .next (s.emit is (.sc (elemMask sz bs)))

def execVsel (f : Form) (s : State) : Out := withFormat (.vsel f) s fun is s code =>
  let sz := fmtSize code
  let es := ((elemsOf sz is.l).zip (elemsOf sz is.r)).zipIdx.map fun ((a, b), j) =>
    if is.xw.getLsbD (j * sz) then a else b
  .next (s.emit is (vecTok sz (maskElems sz is.qmask es)))

def execVredsum (f : Form) (s : State) : Out := reduceVec (.vredsum f) s true addElem canonElem
def execVredmax (f : Form) (s : State) : Out :=
  reduceVec (.vredmax f) s false (fun code _ _ a b => maxElem code .rne false a b) canonElem

def execVdot (f : Form) (s : State) : Out := withFormat (.vdot f) s fun is s code =>
  let ps := dotPairs (fmtSize code) is.qmask is.l is.r
  .next (s.emitRounded is (fmtIsFloat code) (.sc (dotWord code (is.rmode 0) is.sat is.xw ps)))

def execVcvt (f : Form) (s : State) : Out := withFormats (.vcvt f) s fun is s a b =>
  let sa := fmtSize a
  let sb := fmtSize b
  let n := 64 / max sa sb
  let es := ((elemsOf sa is.l).take n).zipIdx.map fun (e, j) => e.map (convert a b (is.rmode j) is.sat)
  .next (s.emitRounded is (convRounds a b) (vecTok sb (maskElems sb is.qmask es)))

def execVscale (f : Form) (s : State) : Out := withFormats (.vscale f) s fun is s a b =>
  let sa := fmtSize a
  let sb := fmtSize b
  let n := 64 / max sa sb
  let q := is.xw.toNat % (64 / sa / n)
  let es := (((elemsOf sa is.l).drop (q * n)).take n).zipIdx.map fun (e, j) =>
    e.map fun v =>
      let val := match scaleVal (field is.rw_ (8 * ((q * n + j) / 32)) 8) with
        | none => .nan
        | some k => (decodeElem a v).mul k
      (fmtOf b).round (is.rmode j) is.sat val
  .next (s.emitRounded is true (vecTok sb (maskElems sb is.qmask es)))

def execVpack (f : Form) (s : State) : Out := withFormats (.vpack f) s fun is s a b =>
  let sa := fmtSize a
  let sb := fmtSize b
  let n := 64 / sa
  let q := is.xw.toNat % (sa / sb)
  let r := elemsOf sb is.r
  let es := (elemsOf sa is.l).zipIdx.map fun (e, j) => e.map (convert a b (is.rmode j) is.sat)
  let res := r.take (q * n) ++ es ++ r.drop (q * n + n)
  .next (s.emitRounded is (convRounds a b) (vecTok sb (maskElems sb is.qmask res)))

def execVunpack (f : Form) (s : State) : Out := withFormats (.vunpack f) s fun is s a b =>
  let sa := fmtSize a
  let sb := fmtSize b
  let n := 64 / sb
  let q := is.xw.toNat % (sb / sa)
  let es := (((elemsOf sa is.l).drop (q * n)).take n).zipIdx.map fun (e, j) =>
    e.map (convert a b (is.rmode j) false)
  .next (s.emitRounded is (convRounds a b) (vecTok sb (maskElems sb is.qmask es)))

def execVperm (f : Form) (s : State) : Out := withFormat (.vperm f) s fun is s code =>
  let sz := fmtSize code
  let l := elemsOf sz is.l
  let es := (elemsOf sz is.r).map fun k =>
    match k with
    | some k => (l[k % l.length]?).getD none
    | none => none
  .next (s.emit is (vecTok sz (maskElems sz is.qmask es)))

def execVbcast (f : Form) (s : State) : Out := withFormat (.vbcast f) s fun is s code =>
  let sz := fmtSize code
  .next (s.emit is (vecTok sz (maskElems sz is.qmask (elemsOf sz (.sc is.lw)))))

def execVins (f : Form) (s : State) : Out := withFormat (.vins f) s fun is s code =>
  let sz := fmtSize code
  let es := setAt (elemsOf sz is.l) (is.xw.toNat % (64 / sz)) (some (nbits is.rw_.toNat 0 (8 * sz)))
  .next (s.emit is (vecTok sz (maskElems sz is.qmask es)))

def execVext (f : Form) (s : State) : Out := withFormat (.vext f) s fun is s code =>
  let sz := fmtSize code
  match (maskElems sz is.qmask (elemsOf sz is.l))[is.xw.toNat % (64 / sz)]? with
  | some (some v) => .next (s.emit is (.sc (elemWord code v)))
  | _ => .next (s.emit is .null)

def execVqshuf (f : Form) (s : State) : Out := withFormat (.vqshuf f) s fun is s code =>
  let sz := fmtSize code
  let v := immValue f.imm
  let l := field v 8 2
  if curveDigits (64 / sz) ≤ l then .next (s.trapAt is .badControlValue)
  else
    let es := elemsOf sz is.l
    let res := (List.range (64 / sz)).map fun e =>
      (es[putDigit e l (field v (2 * nbits e (2 * l) 2) 2)]?).getD none
    .next (s.emit is (vecTok sz (maskElems sz is.qmask res)))

def execVtrn (f : Form) (s : State) : Out := withFormat (.vtrn f) s fun is s code =>
  let sz := fmtSize code
  let es := elemsOf sz is.l
  let res := (List.range (64 / sz)).map fun e => (es[swapDigits (curveDigits (64 / sz)) e]?).getD none
  .next (s.emit is (vecTok sz (maskElems sz is.qmask res)))

def execViota (f : Form) (s : State) : Out := withFormat (.viota f) s fun is s code =>
  let sz := fmtSize code
  let es := (List.range (64 / sz)).map fun j => some ((is.lw.toNat + j) % 2 ^ (8 * sz))
  .next (s.emit is (vecTok sz (maskElems sz is.qmask es)))

end Sys2Proof.Machine
end

