-- ==== Sys2Proof/Machine/Matrix.lean ====
section
/-!
DEFINITION. Matrix arrays (R297 to R317): ricks and banks, rings, commands and their queue, the arbiter, fills and refills,
products, drains, counters and their traps.
-/
namespace Sys2Proof.Machine
open Sys2Proof

/-! ### Ricks (R305 to R307) -/

/-- The entry of a handle, when it holds the handle's serial and the context. -/
def Copse.rick? (x : Copse) (ctx : Nat) (h : Word) : Option (Nat × Rick) :=
  if 65536 ≤ h.toNat then none
  else
    let e := h.toNat % 8
    match x.ricks[e]? with
    | some r => if r.bound && r.handle == h.toNat && r.ctx == ctx then some (e, r) else none
    | none => none

def Copse.setRick (x : Copse) (e : Nat) (r : Rick) : Copse := { x with ricks := x.ricks.setIfInBounds e r }
def Copse.rick (x : Copse) (e : Nat) : Rick := x.ricks[e]?.getD {}
def Copse.modRick (x : Copse) (e : Nat) (g : Rick → Rick) : Copse := x.setRick e (g (x.rick e))

/-- Every rick of the array: the table's, and revoked ones in use that have left it. -/
def Copse.allRicks (x : Copse) : List Rick := x.ricks.toList ++ x.gone

/-- The rick of a handle. -/
def Copse.find (x : Copse) (h : Nat) : Option Rick := x.allRicks.find? fun r => r.bound && r.handle == h

/-- Change the rick of a handle. -/
def Copse.modHandle (x : Copse) (h : Nat) (g : Rick → Rick) : Copse :=
  let f := fun (r : Rick) => if r.bound && r.handle == h then g r else r
  { x with ricks := x.ricks.map f, gone := x.gone.map f }

/-- The handle that a command names. -/
def MCmd.handle? : MCmd → Option Nat
  | .fill h .. => some h
  | .mma _ _ _ _ h _ => some h
  | .drain .. => none

/-- A queued command names the rick, or a fired instruction holds a use of it (R307, R310). -/
def State.rickUsed (s : State) (copse handle : Nat) : Bool :=
  (List.range 8).any fun i =>
    let k := s.core (8 * copse + i)
    k.mq.any (fun q => q.cmd.handle? == some handle) ||
      k.slots.toList.any fun x => match x.fl with
        | some fl => fl.uses.contains handle
        | none => false

/-- The banks of a rick are freed: each is zeroed before it is allocated again. -/
def Copse.freeBanks (x : Copse) (h now : Nat) : Copse :=
  { (x.modHandle h fun r => { r with banks := [] }) with
    banks := x.banks.map fun b => match b with
      | .held f none => if f == h then .zeroing now else b
      | .held f (some t) => if f == h then .zeroing t else b
      | _ => b }

/-- Remove a rick's entries from the source tables of every home. -/
def State.dropEntries (s : State) (copse handle : Nat) : State :=
  { s with ricksrc := s.ricksrc.map fun (h, t) =>
      (h, ({ ents := t.ents.filter fun e => !(e.2.2.1 == copse && e.2.2.2 == handle), overflow := t.overflow } : RickSrc)) }

/-- The overflow bit of an empty table clears, and so do the marks that no entry needs (R152). -/
def State.tidySources (s : State) : State :=
  let s : State := { s with ricksrc := s.ricksrc.map fun (h, t) => (h, ({ ents := t.ents, overflow := t.overflow && !t.ents.isEmpty } : RickSrc)) }
  { s with secs := s.secs.map fun (n, x) =>
      let t := s.ricksrc.get (homeKey (s.homeOf (128 * n))) {}
      (n, if x.rick && !t.overflow && !(t.ents.any fun e => e.1 ≤ n && n ≤ e.2.1) then { x with rick := false } else x) }

/-- A rick's source is tracked no more (R152). -/
def State.dropSources (s : State) (copse handle : Nat) : State := (s.dropEntries copse handle).tidySources

/-- A rick is evicted: it holds no banks, keeps its recorded source, and is no longer tracked. -/
def State.evictRick (s : State) (copse e : Nat) : State :=
  let h := ((s.copse copse).rick e).handle
  (s.modCopse copse fun x => (x.freeBanks h s.clock).modRick e fun r => { r with state := .evicted }).dropSources copse h

/-- Revoked ricks that nothing uses any more give up their banks (R307). -/
def State.sweepRicks (s : State) (copse : Nat) : State :=
  let s := (s.copse copse).allRicks.foldl (fun s r =>
    if r.bound && r.state == .revoked && !r.banks.isEmpty && !(s.rickUsed copse r.handle) then
      s.modCopse copse fun x => x.freeBanks r.handle s.clock
    else s) s
  s.modCopse copse fun x => { x with gone := x.gone.filter fun r => !r.banks.isEmpty }

/-- The positions of a flight that wait for the refill of a handle. -/
def Flight.waitsRefill (fl : Flight) (h : Nat) : Option Nat := (fl.refill.find? fun p => p.2 == h).map (·.1)

/-- A refill has ended: the MMAs that wait for it have fired, or their sheafs trap. DEDUCED, log 78. -/
def State.refillEnd (s : State) (copse h : Nat) (out : Option TrapRec) : State :=
  (List.range 64).foldl (fun s i =>
    let c := 8 * copse + i / 8
    let k := i % 8
    match s.flight c k with
    | none => s
    | some fl => match fl.waitsRefill h with
      | none => s
      | some pos => match out with
        | none => s.setFlight c k { fl with refill := fl.refill.filter fun p => p.2 != h }
        | some r => s.takeTrap c k { r with lsn := (fl.sheaf.ordered pos).map (·.1) }) s

/-- RKREV's commit: the rick is revoked and its source is tracked no more (R152, R308); a refill under way ends, and the MMAs that
wait for it, which have not fired, raise rick-revoked. -/
def Rick.revoke (r : Rick) : Rick := { r with state := .revoked, refilling := false }
def State.revokeRick (s : State) (copse handle : Nat) : State :=
  let refills := ((s.copse copse).find handle).any (·.refilling)
  let s := s.modCopse copse fun x => x.modHandle handle Rick.revoke
  let s := if refills then s.refillEnd copse handle (some { cause := .rickRevoked }) else s
  (s.dropSources copse handle).sweepRicks copse

/-- The standard drover waits for a request, out of the rotation (R160). -/
def Core.drvIdle (y : Core) (k : Nat) : Bool :=
  k == 7 && !(y.drvcfg.getLsbD 17) && (y.slot 7).fl.isNone && (y.slot 7).th.drvReply.isNone

/-- A context has a slot in a rotation of the copse. DEDUCED, log 21. -/
def State.inRotation (s : State) (copse ctx : Nat) : Bool :=
  (List.range 64).any fun i =>
    let y := s.core (8 * copse + i / 8)
    let x := y.slot (i % 8)
    x.occ && x.th.ctx == ctx && x.th.rest != .halted && x.th.rest != .dbl && !(y.drvIdle (i % 8))

/-- Banks that may be allocated. -/
def Copse.openBanks (x : Copse) : List Nat :=
  (List.range 8).filter fun b => match x.banks[b]?.getD (.held 0 none) with
    | .held .. => false
    | _ => true

/-- The least recently used rick that an RKALLOC may evict. -/
def State.evictable (s : State) (copse : Nat) : Option Nat :=
  let x := s.copse copse
  let ok := (List.range 8).filter fun e =>
    let r := x.rick e
    r.bound && (r.state == .ready || r.state == .stale) && !r.pin && !(s.inRotation copse r.ctx) && !(s.rickUsed copse r.handle)
  ok.foldl (fun best e => match best with
    | none => some e
    | some b => if (x.rick e).used < (x.rick b).used then some e else best) none

/-- Evict until enough banks are open. -/
def State.makeRoom (s : State) (copse n : Nat) : Nat → State
  | 0 => s
  | fuel + 1 =>
    if n ≤ (s.copse copse).openBanks.length then s
    else match s.evictable copse with
      | some e => (s.evictRick copse e).makeRoom copse n fuel
      | none => s

/-- Banks that a context holds in an array, reserved ones too. -/
def Copse.heldBy (x : Copse) (ctx : Nat) : Nat :=
  (x.allRicks ++ x.rsv.map (·.2)).foldl (fun a r => if r.ctx == ctx then a + r.banks.length else a) 0

def bankQuota (x : Ctx) : Nat := field x.rkquota 0 4

/-- Take banks for a rick. -/
def Copse.takeBanks (x : Copse) (h : Nat) (bs : List Nat) : Copse :=
  { x with banks := bs.foldl (fun v b => match v[b]?.getD .free with
      | .zeroing t => v.setIfInBounds b (.held h (some t))
      | _ => v.setIfInBounds b (.held h none)) x.banks }

/-- The entry an RKALLOC takes: the lowest unused one, or else the lowest revoked one. -/
def Copse.openEntry (x : Copse) : Option Nat :=
  let ok := (List.range 8).filter fun e => (x.rick e).state == .revoked && (x.rsv.get? e).isNone
  match ok.find? fun e => !(x.usedEntry.contains e) with
  | some e => some e
  | none => ok.head?

/-- A status of RKALLOC in place of a handle. -/
def rkStatus (code : Nat) : Word := wd (2 ^ 63 + code)

/-! ### Rick instructions (R308, R309) -/

/-- DEDUCED, log 73. -/
def execRkalloc (f : Form) (s : State) : Out :=
  issue (.rkalloc f) s fun is s =>
    let n := is.lw.toNat
    let cp := is.c / 8
    if n == 0 || 8 < n then .next (s.trapAt is .badControlValue)
    else
      let s := s.sweepRicks cp
      if bankQuota (s.ctx is.ctx) < (s.copse cp).heldBy is.ctx + n then .next (s.emit is (.sc (rkStatus 1)))
      else
        let s := s.makeRoom cp n 8
        let x := s.copse cp
        if x.openBanks.length < n then .next (s.emit is (.sc (rkStatus 2)))
        else match x.openEntry with
          | none => .next (s.emit is (.sc (rkStatus 3)))
          | some e =>
            let bs := x.openBanks.take n
            let h := x.serial * 8 + e
            let r : Rick := { handle := h, ctx := is.ctx, state := .empty, nbanks := n, banks := bs, used := s.now }
            let x := { x.takeBanks h bs with rsv := x.rsv.put e r }
            let x := { x with serial := if x.serial == 8191 then 1 else x.serial + 1 }
            .next ((s.setCopse cp x).emitDue is (.sc (wd h)) (.rkalloc e))

/-- RKALLOC's commit: the reservation becomes a rick; a revoked one in its entry that is still in use is kept apart. -/
def Copse.bindRick (x : Copse) (e : Nat) : Copse :=
  match x.rsv.get? e with
  | none => x
  | some r =>
    let old := x.rick e
    { x.setRick e { r with bound := true } with
      rsv := x.rsv.del e
      gone := if old.bound && !old.banks.isEmpty then x.gone ++ [old] else x.gone
      usedEntry := if x.usedEntry.contains e then x.usedEntry else e :: x.usedEntry }

/-- A handle's check: bad-rick, or rick-revoked. -/
def State.needRick (s : State) (is : Iss) : Except Cause (Nat × Rick) :=
  match (s.copse (is.c / 8)).rick? is.ctx is.lw with
  | none => .error .badRick
  | some (e, r) => if r.state == .revoked then .error .rickRevoked else .ok (e, r)

/-- Elements of k in a weight tile, by element size (R302). -/
def tileK (sz : Nat) : Nat := if sz == 1 then 256 else 128

/-- Banks that a block of side S needs. -/
def banksNeeded (sz side : Nat) : Nat := max 1 (side / 128) * max 1 ((side + tileK sz - 1) / tileK sz)

/-- Checks 2 to 5 of RKFILL. -/
def fillCheck (t : Tensor) (k p nbanks : Nat) : Option Cause :=
  if 2 < t.s then some .badFormat
  else if t.m < k then some .badDepth
  else if 4 ^ k ≤ p then some .badPath
  else if nbanks < banksNeeded t.s (2 ^ (t.m - k)) then some .rickSize
  else none

/-- The descriptor that an RKFILL reads must wait (`State.descHeld`). -/
def rkfillWaits (is : Iss) (s : State) : Bool := s.descHeld is.c is.k is.ctx is.priv is.rw_.toNat 32

def execRkfill (f : Form) (s : State) : Out :=
  issueWhen (.rkfill f) s rkfillWaits fun is s =>
    match s.needRick is with
    | .error c => .next (s.trapAt is c)
    | .ok (_, r) =>
      let a := is.rw_.toNat
      match s.readVa is.xer is.agent is.ctx is.priv a 32 (coverWord a 32) with
      | (s, .error e) => .next (s.recTrap is e)
      | (s, .ok bs) =>
        match if a % 32 == 0 then tensorOf (wordsFrom 4 bs) else none with
        | none => .next (s.trapAt is .badDescriptor)
        | some t =>
          match fillCheck t (depthOf f) is.xw.toNat r.nbanks with
          | some c => .next (s.trapAt is c)
          | none =>
            .next ((s.modFlight is.c is.k fun fl => { fl with uses := fl.uses ++ [r.handle] }).fireDue is
              (.command (.fill r.handle (wordsFrom 4 bs) is.xw.toNat (depthOf f) is.priv)))

def rickAt (i : Instr) (s : State) (act : Nat → Act) : Out :=
  issue i s fun is s =>
    match s.needRick is with
    | .error c => .next (s.trapAt is c)
    | .ok (_, r) => .next (s.fireDue is (act r.handle))

def execRkpin (f : Form) (s : State) : Out := rickAt (.rkpin f) s fun h => .rkpin h true
def execRkunpin (f : Form) (s : State) : Out := rickAt (.rkunpin f) s fun h => .rkpin h false
def execRkrev (f : Form) (s : State) : Out := rickAt (.rkrev f) s fun h => .rkrev h

def rkCode : RkState → Nat
  | .empty => 0 | .filling => 1 | .ready => 2 | .stale => 3 | .evicted => 4 | .revoked => 5

/-- RKQRY's word (R309). -/
def rickWord (r : Option (Nat × Rick)) : Word :=
  match r with
  | none => 7
  | some (_, r) => wd (r.err * 2 ^ 8 + r.banks.length * 2 ^ 4 + (if r.pin then 8 else 0) + rkCode r.state)

def execRkqry (f : Form) (s : State) : Out :=
  issue (.rkqry f) s fun is s =>
    let s := s.sweepRicks (is.c / 8)
    .next (s.emit is (.sc (rickWord ((s.copse (is.c / 8)).rick? is.ctx is.lw))))

/-! ### Rings (R300 to R303) -/

/-- MRING's checks, with the element code resolved; `none` is bad-control-value. -/
def ringCfg (t : Thread) (base cfg : Word) : Option Nat :=
  if field cfg 16 48 != 0 then none
  else if !(cfg.getLsbD 15) then some 0
  else
    let ent := field cfg 2 6
    let es := if cfg.getLsbD 14 then 0x1080 else 0x1000
    if base.toNat % 128 != 0 || 0x40000 < base.toNat + ent * es || ent == 0 || 32 < ent then none
    else t.resolve .tile (field cfg 8 6)

/-- DEDUCED, log 75. -/
def execMring (f : Form) (s : State) : Out :=
  issue (.mring f) s fun is s =>
    match ringCfg is.th is.lw is.rw_ with
    | none => .next (s.trapAt is .badControlValue)
    | some code => .next (s.fireDue is (.mring is.lw (setField is.rw_ 8 6 code)))

/-- MRING's commit. -/
def Core.mring (k : Core) (base cfg : Word) : Core :=
  k.setRing (field cfg 0 2)
    { base := base.toNat, en := cfg.getLsbD 15, scl := cfg.getLsbD 14, fmt := field cfg 8 6, ent := field cfg 2 6 }

/-- A queued command of the core still uses a ring. -/
def Core.ringUsed (k : Core) (ring : Nat) : Bool :=
  k.mq.any fun q => match q.cmd with
    | .mma _ _ r _ _ _ => r == ring
    | _ => false

/-- MTAIL's word. -/
def ringWord (r : Ring) : Word := wd ((if r.en then 2 ^ 32 else 0) + r.tail * 2 ^ 16 + r.head)

/-- A tail of the ring has still to move, behind stores of the sheaf that committed it (R303): the next MTAIL of the ring waits. -/
def mtailWaits (is : Iss) (s : State) : Bool :=
  is.lw.toNat < 4 && (s.core is.c).slots.toList.any fun x => x.tails.any fun t => t.1 == is.lw.toNat

def execMtail (f : Form) (s : State) : Out :=
  issueWhen (.mtail f) s mtailWaits fun is s =>
    if 4 ≤ is.lw.toNat || 32 < is.rw_.toNat then .next (s.trapAt is .badControlValue)
    else .next (s.emitDue is (.sc (ringWord ((s.core is.c).ring is.lw.toNat))) (.mtail is.lw.toNat is.rw_.toNat))

/-- MTAIL's commit raises ring-overflow. -/
def Ring.overflows (r : Ring) (n : Nat) : Bool := n != 0 && r.ent < r.count + n

/-- What tails of a ring that have still to move will add. -/
def Core.tailsOwed (k : Core) (ring : Nat) : Nat := (k.slots.toList.flatMap fun x => x.tails.map fun t => if t.1 == ring then t.2 else 0).sum

/-! ### Counters and weights (R313, R314) -/

def execMcnt (f : Form) (s : State) : Out :=
  issue (.mcnt f) s fun is s =>
    if 8 ≤ is.lw.toNat then .next (s.trapAt is .badControlValue)
    else .next (s.emitDue is (.sc (s.core is.c).mxcnt) (.mcnt is.lw.toNat))

/-- MCNT's commit: a cleared counter may cross its threshold again (R313). -/
def Core.mcnt (k : Core) (mask : Nat) : Core :=
  { k with crossed := k.crossed &&& ~~~(BitVec.ofNat 3 mask), mxcnt := (List.range 3).foldl (fun w i => if mask.testBit i then setField w (16 * i) 16 0 else w) k.mxcnt }

def execMthr (f : Form) (s : State) : Out :=
  issue (.mthr f) s fun is s =>
    if field is.lw 48 16 != 0 then .next (s.trapAt is .badControlValue) else .next (s.fireDue is (.mthr is.lw))

def execMwgt (f : Form) (s : State) : Out :=
  issue (.mwgt f) s fun is s =>
    if is.lw == 0 || 16 ≤ is.lw.toNat then .next (s.trapAt is .badControlValue) else .next (s.fireDue is (.mwgt is.lw))

/-- MWGT's commit: no more than WCAP. -/
def Core.mwgt (k : Core) (v : Word) : Core := { k with mxcfg := setField k.mxcfg 0 4 (min v.toNat (field k.mxcfg 4 4)) }

def Core.wgt (k : Core) : Nat := field k.mxcfg 0 4
def Core.rfx (k : Core) : Bool := k.mxcfg.getLsbD 8

/-! ### Commands at fire (R310, R312) -/

def mmaRing (w : Word) : Nat := field w 3 2
def mmaBank (w : Word) : Nat := field w 0 3

/-- Why an MMA faults at fire, or its rick and resolved weight format. -/
def mmaCheck (is : Iss) (s : State) : Except Cause (Nat × Rick × Nat) :=
  let ring := (s.core is.c).ring (mmaRing is.rw_)
  let r := (s.copse (is.c / 8)).rick? is.ctx is.lw
  if field is.rw_ 5 59 != 0 || !ring.en || (match r with | some (_, r) => r.nbanks ≤ mmaBank is.rw_ | none => false) then
    .error .badControlValue
  else match s.needRick is with
    | .error c => .error c
    | .ok (e, r) =>
      if r.state == .empty then .error .rickEmpty
      else match is.f.fmts with
        | (c, _) :: _ =>
          match is.th.resolve .tile c.toNat with
          | some w => if fmtSize w != fmtSize ring.fmt || fmtIsInt w != fmtIsInt ring.fmt then .error .badFormat else .ok (e, r, w)
          | none => .error .badFormat
        | [] => .error .badFormat

/-- An MMA on a stale or evicted rick with RFX = 0 starts a refill and waits for it; so does one that finds the refill
under way. -/
def mmaAt (i : Instr) (s : State) (zero : Bool) : Out :=
  issue i s fun is s =>
    match mmaCheck is s with
    | .error c => .next (s.trapAt is c)
    | .ok (e, r, w) =>
      let old := r.state == .stale || r.state == .evicted
      if old && (s.core is.c).rfx then .next (s.trapAt is (if r.state == .stale then .staleRick else .evictedRick))
      else
        let wait := old || r.refilling
        let s := if old then
            s.modCopse (is.c / 8) fun x => x.modRick e fun r => { r with state := .filling, refilling := true, marked := false, before := r.state }
          else s
        let s := s.modFlight is.c is.k fun fl =>
          { fl with uses := fl.uses ++ [r.handle], refill := if wait then fl.refill ++ [(is.pos, r.handle)] else fl.refill }
        .next (s.fireDue is (.command (.mma zero (nbits is.f.sub.toNat 0 1) (mmaRing is.rw_) (mmaBank is.rw_) r.handle w)))

def execMma (f : Form) (s : State) : Out := mmaAt (.mma f) s false
def execMmaz (f : Form) (s : State) : Out := mmaAt (.mmaz f) s true

def execMdrain (f : Form) (s : State) : Out :=
  issue (.mdrain f) s fun is s =>
    if field is.rw_ 6 58 != 0 then .next (s.trapAt is .badControlValue)
    else match is.f.fmts.head?.bind fun c => is.th.resolve .drain c.1.toNat with
      | none => .next (s.trapAt is .badFormat)
      | some code =>
        let d := is.lw.toNat
        let n := 2048 * fmtSize code
        if d % n != 0 then .next (s.trapAt is .misalignedAccess)
        else if 2 ^ 56 < d + n then .next (s.accessTrap is (⟨.nonCanonicalAddress, 4⟩, d) (coverWord d n))
        else
          let mode := is.th.regs.rnd.extractLsb' 0 3
          let z0 := lfsrAdv (64 * is.pos + 1) (is.th.regs.rnd.extractLsb' 32 32)
          .next (s.fireDue is (.command (.drain (nbits f.sub.toNat 0 1) (f.sub.getLsbD 5) code d (field is.rw_ 0 6) mode z0 is.priv)))

/-! ### The queue and the arbiter (R297, R304) -/

/-- A command enters the queue at commit and receives the next TSN; an RKFILL makes its rick filling; a drain takes its
tag. -/
def State.queueCmd (s : State) (c k : Nat) (cmd : MCmd) : State :=
  let x := s.core c
  let t := (s.slot c k).th
  let tsn := (field x.mxcnt 48 16 + 1) % 0x10000
  let x := { x with mxcnt := setField x.mxcnt 48 16 tsn, mq := x.mq ++ [{ cmd := cmd, tsn := tsn, slot := k, ctx := t.ctx, tid := t.tid }] }
  match cmd with
  | .drain _ _ _ _ tag _ _ _ => s.setCore c (x.takeTag tag false)
  | .fill h .. =>
    (s.setCore c x).modCopse (c / 8) fun y => y.modHandle h fun r =>
      if r.state == .revoked then r
      else { r with before := if r.state == .filling then r.before else r.state, state := .filling,
                    marked := r.marked && r.state == .filling }
  | .mma .. => s.setCore c x

/-- A command fills the rick of a handle. -/
def QCmd.fills (q : QCmd) (handle : Nat) : Bool := match q.cmd with | .fill h .. => h == handle | _ => false

/-- The RKFILLs of a rick that are queued or run, by core. -/
def State.fillsOf (s : State) (copse handle : Nat) : List (Nat × QCmd) :=
  (List.range 8).flatMap fun i => ((s.core (8 * copse + i)).mq.filter fun q => q.fills handle).map fun q => (8 * copse + i, q)

/-- The state a rick counts as being in for an MMA at the head of a core's queue: one that is filling only because of RKFILLs
that stand behind it in that queue counts as it was before them (R304). -/
def State.rickFor (s : State) (c : Nat) (r : Rick) : RkState :=
  if r.state == .filling && !r.refilling && (s.fillsOf (c / 8) r.handle).all (fun p => p.1 == c && !p.2.started) then r.before
  else r.state

/-- The head command of a core is ready for a path (R304); a revoked rick's commands still run. -/
def State.headReady (s : State) (c : Nat) (fill : Bool) : Bool :=
  let k := s.core c
  match k.mq.head? with
  | none => false
  | some q =>
    !q.started && !q.held_ &&
      (match q.cmd with
       | .mma _ _ ring _ h _ =>
         !fill && (k.ring ring).count != 0 &&
           (s.copse (c / 8)).allRicks.any fun r => r.bound && r.handle == h &&
             (match s.rickFor c r with
              | .ready | .stale | .revoked => true
              | _ => false)
       | _ => fill)

/-- The core that a path starts next: the one at the pointer up to its weight, then the others in turn, then it again. -/
def State.arbitrate (s : State) (copse ptr used : Nat) (fill : Bool) : Option (Nat × Nat) :=
  let ready := fun i => s.headReady (8 * copse + i) fill
  if ready ptr && used < (s.core (8 * copse + ptr)).wgt then some (ptr, used + 1)
  else ((List.range 8).map fun i => (ptr + 1 + i) % 8).find? ready |>.map fun i => (i, 1)

/-- A path falls free: a core at the pointer with nothing ready is passed over, whatever is left of its weight. -/
def State.pathFree (s : State) (copse : Nat) (fill : Bool) : State :=
  let x := s.copse copse
  if fill then
    s.setCopse copse { x with fill := none, fillBudget := if s.headReady (8 * copse + x.fillPtr) true then x.fillBudget else 16 }
  else
    s.setCopse copse { x with mul := none, mulBudget := if s.headReady (8 * copse + x.mulPtr) false then x.mulBudget else 16 }

/-- A throttled array starts a command only on every second chance (R437): it lets the other go by, for the 16 clocks of a product
(DESIGN CHOICE, log 108). -/
def State.skips (s : State) (copse : Nat) : Bool := (s.die (copse / 16)).thr && !(s.copse copse).parity

/-- A path is free and the arbiter has a command to start. -/
def State.canStart (s : State) (copse : Nat) (fill : Bool) : Bool :=
  let x := s.copse copse
  (if fill then x.fill.isNone else x.mul.isNone) && x.droopUntil ≤ s.clock && x.skipUntil ≤ s.clock &&
    (s.arbitrate copse (if fill then x.fillPtr else x.mulPtr) (if fill then x.fillBudget else x.mulBudget) fill).isSome

/-- Mark the head command of a core as started. -/
def Core.startHead (k : Core) : Core :=
  { k with mq := match k.mq with
      | q :: rest => { q with started := true } :: rest
      | [] => [] }

/-! ### Fills (R151, R308) -/

/-- Where position (i, j) of the block lies: outside the extents a pad, and its virtual address. -/
structure FillBlock where
  t    : Tensor
  row0 : Nat
  col0 : Nat
  side : Nat
  deriving DecidableEq, Repr

def fillBlock (ws : List Word) (p k : Nat) : Option FillBlock :=
  (tensorOf ws).map fun t =>
    let side := 2 ^ (t.m - k)
    { t := t, row0 := curveRow 28 p * side, col0 := curveCol 28 p * side, side := side }

/-- The address of an element of the block, if it is inside the extents. -/
def FillBlock.addr (b : FillBlock) (i j : Nat) : Option Nat :=
  if b.t.inside (b.row0 + i) (b.col0 + j) then some (b.t.addr (b.row0 + i) (b.col0 + j)) else none

/-- Every in-extent address of the block, ascending by curve index. -/
def FillBlock.addrs (b : FillBlock) (p : Nat) : List Nat :=
  (List.range (b.side * b.side)).filterMap fun e =>
    let idx := p * (b.side * b.side) + e
    if b.t.insideIdx idx then some (b.t.base + idx * b.t.s) else none

/-- The whole block as TBLOCKP names it. -/
def FillBlock.word (b : FillBlock) (p : Nat) : Word :=
  let n := b.side * b.side * b.t.s
  coverWord (b.t.base + p * n) n

/-- Translate and check the source as reads, and list its physical sectors. -/
def State.sourceSectors (s : State) (copse ctx : Nat) (priv : Bool) (sz : Nat) (blk : Word) (acc : List Nat) :
    List Nat → State × Except TrapRec (List Nat)
  | [] => (s, .ok acc)
  | a :: rest =>
    match s.checkBytes (.copse copse) ctx priv a sz true false with
    | (s, .error e) => (s, .error (xfailRec e blk))
    | (s, .ok ps) =>
      let secs := ps.filterMap fun p => match p.at_ with
        | .mem pa _ => some (pa / 128)
        | .pad _ => none
      s.sourceSectors copse ctx priv sz blk (secs.foldl (fun l n => if l.contains n then l else n :: l) acc) rest

/-- Add one sector of a rick's source to its home's table (R151, R152): a run of sectors is one entry. -/
def State.registerSector (s : State) (copse handle sec : Nat) : State :=
  let h := homeKey (s.homeOf (128 * sec))
  let t := s.ricksrc.get h {}
  let mine := fun (e : Nat × Nat × Nat × Nat) => e.2.2.1 == copse && e.2.2.2 == handle
  let t := match takeFirst (fun e => mine e && (e.2.1 + 1 == sec || sec + 1 == e.1 || (e.1 ≤ sec && sec ≤ e.2.1))) t.ents with
    | some (e, rest) => { t with ents := (min e.1 sec, max e.2.1 sec, copse, handle) :: rest }
    | none => if t.ents.length < 4096 then { t with ents := t.ents ++ [(sec, sec, copse, handle)] } else { t with overflow := true }
  { s with ricksrc := s.ricksrc.put h t }.modSector sec fun x => { x with rick := true }

/-- The entries of a rick cover nothing but these sectors: its source has been registered from this block. -/
def State.sameSource (s : State) (copse handle : Nat) (secs : List Nat) : Bool :=
  s.ricksrc.all fun p => p.2.ents.all fun e =>
    !(e.2.2.1 == copse && e.2.2.2 == handle) || (List.range (e.2.1 + 1 - e.1)).all fun i => secs.contains (e.1 + i)

/-- Register a rick's source; a refill from another block removes the entries of the old one (R152).  A revoked rick is not
tracked. -/
def State.registerSource (s : State) (copse handle : Nat) (secs : List Nat) : State :=
  if ((s.copse copse).find handle).all (·.state == .revoked) then s
  else
    let s := if s.sameSource copse handle secs then s else s.dropEntries copse handle
    (secs.foldl (fun s n => s.registerSector copse handle n) s).tidySources

/-- The bytes of one weight tile: W[k'][n] row by row; a read that fails is an error (R308). -/
def State.tileBytes (s : State) (copse core ctx : Nat) (priv : Bool) (b : FillBlock) (blk : Word) (j : Nat) :
    List Nat → State × Except TrapRec (List Byte)
  | [] => (s, .ok [])
  | e :: rest =>
    let c := max 1 (b.side / 128)
    let row := tileK b.t.s * (j / c) + e / 128
    let col := 128 * (j % c) + e % 128
    let one : State × Except TrapRec (List Byte) :=
      if b.side ≤ row || b.side ≤ col then (s, .ok (List.replicate b.t.s 0))
      else match b.addr row col with
        | none => (s, .ok b.t.padBytes)
        | some a => s.readVa (.copse copse) (.array core) ctx priv a b.t.s blk
    match one with
    | (s, .error r) => (s, .error r)
    | (s, .ok v) => match s.tileBytes copse core ctx priv b blk j rest with
      | (s, .ok vs) => (s, .ok (v ++ vs))
      | r => r

/-- Write a bank whole: fresh check bits too. -/
def Copse.writeBank (x : Copse) (bank : Nat) (bs : List Byte) : Copse :=
  let lo := 0x8000 * bank
  let new := (bs.zipIdx.filter fun p => p.1 != 0).map fun (b, i) => (lo + i, b)
  { x with bank := x.bank.filter (fun p => p.1 < lo) ++ new ++ x.bank.filter (fun p => lo + 0x8000 ≤ p.1),
           bankBad := x.bankBad.filter fun w => w / 4096 != bank
           bankSoft := x.bankSoft.filter fun w => w / 4096 != bank }

/-- Read every tile of a fill into its banks. -/
def State.fillBanks (s : State) (copse core ctx : Nat) (priv : Bool) (b : FillBlock) (blk : Word) :
    List (Nat × Nat) → State × Except TrapRec Unit
  | [] => (s, .ok ())
  | (j, bank) :: rest =>
    match s.tileBytes copse core ctx priv b blk j (List.range (tileK b.t.s * 128)) with
    | (s, .error r) => (s, .error r)
    | (s, .ok bs) => (s.modCopse copse fun x => x.writeBank bank bs).fillBanks copse core ctx priv b blk rest

/-- A rick comes out of a fill in a state; with another RKFILL of it queued, or a refill of it under way, it goes on filling, and for
an MMA before that it counts as being in the state reached (R304, R306, R310). DEDUCED, log 73. -/
def Rick.ends (r : Rick) (st : RkState) (more : Bool) : Rick :=
  if r.state == .revoked then r
  else { r with state := if more || r.refilling then .filling else st, before := st, marked := false }

/-- A fill stops on a fault: the rick becomes empty with ERR (R308). -/
def Rick.failed (r : Rick) (c : Cause) (more : Bool) : Rick := { r.ends .empty more with err := causeCode c }

/-- A fill ends (R306). -/
def Rick.filled (r : Rick) (src : List Word × Nat × Nat × Bool) (sz now : Nat) (more : Bool) : Rick :=
  { r with src := some src, fmt := sz, used := now }.ends (if r.marked then .stale else .ready) more

/-- A fill begins: marks since its RKFILL committed count (R306). -/
def Rick.opens (r : Rick) : Rick := if r.state == .revoked then r else { r with state := .filling }

/-- A refill is over, and its rick comes out of it. -/
def Rick.refilled (r : Rick) : Rick := { r with refilling := false }

/-- Another RKFILL of the rick is queued behind the one that runs. -/
def State.fillsOn (s : State) (copse handle : Nat) : Bool := (s.fillsOf copse handle).any fun p => !p.2.started

/-- The banks of a rick are all zeroed (R307). -/
def Copse.zeroed (x : Copse) (r : Rick) : Bool :=
  r.banks.all fun b => match x.banks[b]?.getD .free with
    | .held f none => f == r.handle
    | _ => false

/-- An evicted rick takes its banks again, within its context's quota; `none` when it cannot. DEDUCED, log 74. -/
def State.regainBanks (s : State) (copse : Nat) (r : Rick) : Option State :=
  let s := s.sweepRicks copse
  if !r.banks.isEmpty || r.nbanks == 0 then some s
  else if bankQuota (s.ctx r.ctx) < (s.copse copse).heldBy r.ctx + r.nbanks then none
  else
    let s := s.makeRoom copse r.nbanks 8
    let x := s.copse copse
    if x.openBanks.length < r.nbanks then none
    else
      let bs := x.openBanks.take r.nbanks
      some (s.setCopse copse ((x.takeBanks r.handle bs).modHandle r.handle fun r => { r with banks := bs }))

/-- Check and register the source of a fill. -/
def State.fillOpen (s : State) (copse ctx handle : Nat) (ws : List Word) (p k : Nat) (priv : Bool) :
    State × Except TrapRec FillBlock :=
  match fillBlock ws p k with
  | none => (s, .error { cause := .badDescriptor })
  | some b =>
    match s.sourceSectors copse ctx priv b.t.s (b.word p) [] (b.addrs p) with
    | (s, .error r) => (s, .error r)
    | (s, .ok secs) => (s.registerSource copse handle secs.reverse, .ok b)

/-- A fill would read a place where it waits (R64, R139). -/
def State.sourceHeld (s : State) (copse ctx : Nat) (ws : List Word) (p k : Nat) (priv : Bool) : Bool :=
  match fillBlock ws p k with
  | none => false
  | some b => match s.sourceSectors copse ctx priv b.t.s 0 [] (b.addrs p) with
    | (s, .ok secs) => secs.any fun n => s.busyAt (128 * n) 128
    | (_, .error _) => false

/-- The command at the head of a core's queue leaves it. -/
def Core.popCmd (k : Core) : Core := { k with mq := k.mq.tail }

/-- A fill's fault goes to the supervisor (R308, R372). -/
def State.fillFault (s : State) (c : Nat) (q : QCmd) (handle : Nat) (r : TrapRec) : State :=
  let (a, s) := s.orFree r.addr
  let (b, s) := s.orFree r.blockp
  let s := s.modCopse (c / 8) fun x => x.modHandle handle (·.failed r.cause (s.fillsOn (c / 8) handle))
  (((s.modCore c (·.popCmd)).pathFree (c / 8) true).sweepRicks (c / 8)).slotMsg c q.slot q.ctx 7 (some (causeCode r.cause)) (some (wd handle)) (some a) (some b)

/-- The start of a command: a fill checks and registers its source first. -/
def State.startCmd (s : State) (copse c : Nat) (fill : Bool) : State :=
  let run : Run := { core := c, since := s.clock }
  let s := s.modCopse copse fun x => if fill then { x with fill := some run } else { x with mul := some run }
  let s := (s.modCore c (·.startHead)).engineAt (.array c)
  match (s.core c).mq.head? with
  | some q =>
    match q.cmd with
    | .fill h ws p k priv =>
      let s := s.modCopse copse fun x => x.modHandle h Rick.opens
      match (s.copse copse).find h with
      | none => s
      | some r => match s.regainBanks copse r with
        | none => s.fillFault c q h { cause := .evictedRick, addr := none, blockp := none }
        | some s => match s.fillOpen copse q.ctx h ws p k priv with
          | (s, .error r) => s.fillFault c q h r
          | (s, .ok _) => s
    | _ => s
  | none => s

def execMatrixCommandStart (s : State) : Out :=
  match s.event with
  | some (.matrixCommandStart copse fill) =>
    let s := s.taken
    if !(s.canStart copse fill) then .next s
    else if s.skips copse then .next (s.modCopse copse fun x => { x with parity := true, skipUntil := s.clock + 16 })
    else
      let x := s.copse copse
      match s.arbitrate copse (if fill then x.fillPtr else x.mulPtr) (if fill then x.fillBudget else x.mulBudget) fill with
      | none => .next s
      | some (i, used) =>
        let x := { x with parity := false }
        let x := if fill then { x with fillPtr := i, fillBudget := used } else { x with mulPtr := i, mulBudget := used }
        .next ((s.setCopse copse x).startCmd copse (8 * copse + i) fill)
  | _ => .fault .noSubject

/-- The command that a path runs. -/
def State.running (s : State) (r : Option Run) : Option (Nat × QCmd × Nat) :=
  r.bind fun r => ((s.core r.core).mq.head?).map fun q => (r.core, q, r.since)

/-- The fill that runs can finish: its banks are zeroed, and nothing holds its reads back. -/
def State.canFinishFill (s : State) (copse : Nat) : Bool :=
  match s.running (s.copse copse).fill with
  | some (_, q, _) => (match q.cmd with
    | .fill h ws p k priv => (match (s.copse copse).find h with
      | some r => (s.copse copse).zeroed r && !(s.sourceHeld copse q.ctx ws p k priv)
      | none => true)
    | _ => false)
  | none => false

def execRkfillFinish (s : State) : Out :=
  match s.event with
  | some (.rkfillFinish copse) =>
    let s := s.taken
    match s.canFinishFill copse, s.running (s.copse copse).fill with
    | true, some (c, q, _) =>
      match q.cmd with
      | .fill h ws p k priv =>
        match (s.copse copse).find h with
        | some r =>
          match s.fillOpen copse q.ctx h ws p k priv with
          | (s, .error t) => .next (s.fillFault c q h t)
          | (s, .ok b) =>
            match s.fillBanks copse c q.ctx priv b (b.word p) (r.banks.zipIdx.map fun (b, j) => (j, b)) with
            | (s, .error t) => .next (s.fillFault c q h t)
            | (s, .ok _) =>
              let s := s.modCopse copse fun x => x.modHandle h (·.filled (ws, p, k, priv) b.t.s s.now (s.fillsOn copse h))
              .next (((s.modCore c (·.popCmd)).pathFree copse true).sweepRicks copse)
        | none => .next ((s.modCore c (·.popCmd)).pathFree copse true)
      | _ => .next s
    | _, _ => .next s
  | _ => .fault .noSubject

end Sys2Proof.Machine
end

