-- ==== Sys2Proof/Machine/MatrixRun.lean ====
section
/-!
DEFINITION. What the matrix arrays do by themselves: products (R311), refills (R310), drains (R312), counters and
their traps (R313, R315), banks (R307), stale marks (R151) and forced evictions (R306).
-/
namespace Sys2Proof.Machine
open Sys2Proof

/-! ### Traps of commands (R313, R371) -/

/-- A saved context of the thread takes the pending trap. -/
def pendIn (tid : Nat) (r : TrapRec) (m : SMap CacheEnt) : SMap CacheEnt :=
  m.map fun (e, x) => (e, if x.th.tid == tid then { x with th := { x.th with imps := x.th.imps ++ [r] } } else x)

/-- A queued burr of the thread, pre-empted, takes it (R313). -/
def pendAt (tid : Nat) (r : TrapRec) (es : List Entry) : List Entry :=
  es.map fun e => if e.tid == tid then { e with imps := e.imps ++ [r] } else e

/-- A trap of a command goes to its issuing thread: in a slot, saved or queued; when the thread has left, to the supervisor.
DEDUCED, log 79. -/
def State.matrixTrap (s : State) (c : Nat) (q : QCmd) (cause : Cause) (addr : Word) : State :=
  let r : TrapRec := { cause := cause, imp := true, addr := some addr, blockp := none }
  let k := s.core c
  match (List.range 8).find? fun i => (k.slot i).occ && (k.slot i).th.tid == q.tid with
  | some i => s.modThread c i fun t => { t with imps := t.imps ++ [r] }
  | none =>
    if (k.cache ++ k.backing).any fun p => p.2.th.tid == q.tid then
      s.modCore c fun y => { y with cache := pendIn q.tid r y.cache, backing := pendIn q.tid r y.backing }
    else if (k.aq ++ k.spill).any fun e => e.tid == q.tid then
      s.modCore c fun y => { y with aq := pendAt q.tid r y.aq, spill := pendAt q.tid r y.spill }
    else s.orphans c q.slot q.ctx [r]

/-- Add to a counter, saturating; a threshold that is crossed raises its trap, once until MCNT clears the counter. -/
def State.addCount (s : State) (c : Nat) (q : QCmd) (i n : Nat) : State :=
  let k := s.core c
  let old := field k.mxcnt (16 * i) 16
  let new := satAdd16 old n
  let thr := field k.mxthr (16 * i) 16
  let cross := thr != 0 && old < thr && thr ≤ new && !(k.crossed.getLsbD i)
  let s := s.setCore c { k with mxcnt := setField k.mxcnt (16 * i) 16 new, crossed := if cross then k.crossed ||| (1#3 <<< i) else k.crossed }
  if cross then s.matrixTrap c q .matrixThreshold (wd (q.tsn + i * 0x10000)) else s

/-- The events of a command: SATC, NANC, BSOC. -/
def State.addCounts (s : State) (c : Nat) (q : QCmd) (sat nan bso : Nat) : State :=
  ((s.addCount c q 0 sat).addCount c q 1 nan).addCount c q 2 bso

/-! ### Products (R302, R311) -/

/-- Elements of k in a group. -/
def groupK (sz : Nat) : Nat := if sz == 1 then 32 else 16

/-- Where the entry at a ring's head lies. -/
def ringBase (c : Nat) (r : Ring) : Nat :=
  scratchBase c + r.base + r.head % r.ent * (if r.scl then 0x1080 else 0x1000)

def ringElemPa (c : Nat) (r : Ring) (row k : Nat) : Nat :=
  let sz := fmtSize r.fmt
  ringBase c r + 256 * sz * (k / 16) + curveIndex 4 row (k % 16) * sz

/-- The writes that have been applied to an element of an entry since its product started. -/
def State.entryWrites (s : State) (c pa n : Nat) : List Recent :=
  (s.recents.get (s.recentKey pa) []).filter fun w =>
    w.granule == pa / 16 && w.off < pa % 16 + n && pa % 16 < w.off + w.size && s.lastOf (.array c) ≤ w.now

/-- An element of the entry that a product reads: where it has been written since the product started, its old or its new value,
element by element (R303). -/
def State.entryElem (s : State) (c pa n : Nat) : List Byte :=
  match s.entryWrites c pa n with
  | [] => s.homeBytes pa n
  | ws => match ws[Config.choice (s.fresh + 0x8000 + pa % 0x2000) % (ws.length + 1)]? with
    | some w => (w.old.drop (pa % 16)).take n
    | none => s.homeBytes pa n

/-- The scale byte of a row's group of 32. -/
def State.ringScale (s : State) (c : Nat) (r : Ring) (row g : Nat) : Nat :=
  ofBytes (s.entryElem c (ringBase c r + 0x1000 + 8 * row + g) 1)

/-- A scaled element of A, exact. -/
def State.ringVal (s : State) (c : Nat) (r : Ring) (row k : Nat) : Val :=
  let a := decodeElem r.fmt (ofBytes (s.entryElem c (ringElemPa c r row k) (fmtSize r.fmt)))
  if r.scl then (match scaleVal (s.ringScale c r row (k / 32)) with
    | some v => a.mul v
    | none => .nan)
  else a

/-- The bytes of a bank. -/
def Copse.bankBytes (x : Copse) (a n : Nat) : List Byte := (List.range n).map fun i => x.bank.get (a + i) 0

/-- An element of W.  How a bank filled with elements of another size reads is not stated: free values. -/
def State.weight (s : State) (copse bank fmt sz wfmt k n : Nat) : Val :=
  if fmt == sz then decodeElem wfmt (ofBytes ((s.copse copse).bankBytes (0x8000 * bank + (k * 128 + n) * sz) sz))
  else decodeElem wfmt ((Config.freeWord (s.fresh + k * 128 + n)).toNat % 256 ^ sz)

/-- One accumulator element through its groups. -/
def mmaElem (acc : Nat) (groups : List (List Val)) : Nat :=
  groups.foldl (fun a g => fmtF32.round .rne false ((fmtF32.decode a).add false (groupSum g))) acc

def f32Finite (v : Nat) : Bool := v % 0x80000000 < 0x7F800000
def f32Inf (v : Nat) : Bool := v % 0x80000000 == 0x7F800000
def f32Nan (v : Nat) : Bool := 0x7F800000 < v % 0x80000000

/-- A scaled product of magnitude 2^128 or more. -/
def bigProduct (v : Val) : Bool :=
  match v with
  | .nan => false
  | v => !(v.abs.lt (.fin false 1 128))

/-- The products of one element, by group. DEDUCED, log 76. -/
def State.products (s : State) (c copse bank fmt wfmt : Nat) (r : Ring) (row n : Nat) : List (List Val) :=
  let sz := fmtSize r.fmt
  (List.range (tileK sz / groupK sz)).map fun g => (List.range (groupK sz)).map fun i =>
    let k := groupK sz * g + i
    let v := (s.ringVal c r row k).mul (s.weight copse bank fmt sz wfmt k n)
    if fmtIsInt r.fmt then v.unsignedZero else v

/-- Scale bytes of 0xFF that a command meets. -/
def State.nanScales (s : State) (c : Nat) (r : Ring) : Nat :=
  if r.scl then
    (List.range 16).foldl (fun a row => a + (List.range (tileK (fmtSize r.fmt) / 32)).countP fun g => s.ringScale c r row g == 0xFF) 0
  else 0

/-- An accumulator word. -/
def Core.accWord (k : Core) (tile e : Nat) : Nat := (k.tiles.get (2048 * tile + e) 0).toNat

/-- Accumulator words are read: single-bit errors are corrected and counted; without `read` they are only written (R73). -/
def Core.fixTiles (k : Core) (p : Nat → Bool) (read : Bool) : Core :=
  { k with tileSoft := k.tileSoft.filter fun w => !(p w) }.count 4 (if read then (k.tileSoft.filter p).length else 0)

/-- A bank is read. -/
def Copse.fixBank (x : Copse) (bank : Nat) : Copse :=
  { x with bankSoft := x.bankSoft.filter fun w => w / 4096 != bank }.count 1 (x.bankSoft.filter fun w => w / 4096 == bank).length

/-- The entry of a ring, by sectors. -/
def entrySectors (c : Nat) (r : Ring) : List Nat :=
  (List.range (if r.scl then 33 else 32)).map fun i => ringBase c r + 128 * i

/-- What a product reads is corrected: the tile unless it is written afresh, the bank, the ring entry (R73). -/
def State.mmaReads (s : State) (c : Nat) (zero : Bool) (tile : Nat) (r : Ring) (bank : Nat) : State :=
  (entrySectors c r).foldl (fun s pa => s.fixIn pa 128)
    ((s.modCore c fun k => k.fixTiles (fun w => w / 2048 == tile) (!zero)).modCopse (c / 8) (·.fixBank bank))

/-- The product: the new tile, and what it counts. -/
def State.mmaRun (s : State) (c : Nat) (q : QCmd) (zero : Bool) (tile : Nat) (r : Ring) (bank fmt wfmt : Nat) : State :=
  let s := s.mmaReads c zero tile r bank
  let k := s.core c
  let res := (List.range 2048).map fun e =>
    let old := k.accWord tile e
    let ps := s.products c (c / 8) bank fmt wfmt r (e / 128) (e % 128)
    (e, old, mmaElem (if zero then 0 else old) ps, if r.scl then ps.flatten.countP bigProduct else 0)
  let tiles := res.foldl (fun m (e, _, v, _) =>
    if v == 0 then m.del (2048 * tile + e) else m.put (2048 * tile + e) (BitVec.ofNat 32 v)) k.tiles
  let k := { k with tiles := tiles, tileBad := if zero then k.tileBad.filter (fun w => w / 2048 != tile) else k.tileBad }
  let s := { s.setCore c k with fresh := s.fresh + 0xA000 }
  s.addCounts c q (res.countP fun x => f32Finite x.2.1 && f32Inf x.2.2.1) (res.countP fun x => !(f32Nan x.2.1) && f32Nan x.2.2.1)
    (s.nanScales c r + res.foldl (fun a x => a + x.2.2.2) 0)

/-- The command at the head of a core's queue has finished on the multipliers: its entry is popped. -/
def State.mmaPop (s : State) (copse c ring : Nat) : State :=
  ((s.modCore c fun k =>
    let r := k.ring ring
    (k.popCmd).setRing ring { r with head := (r.head + 1) % 0x10000 }).pathFree copse false).sweepRicks copse

/-- Clocks of a product. -/
def mmaClocks (r : Ring) : Nat := if fmtSize r.fmt == 1 then 16 else 32

/-- The product that runs can finish. -/
def State.mmaDue (s : State) (copse : Nat) : Bool :=
  match s.running (s.copse copse).mul with
  | some (c, q, since) => (match q.cmd with
    | .mma _ _ ring _ _ _ => since + mmaClocks ((s.core c).ring ring) ≤ s.clock
    | _ => false)
  | none => false

/-- An operand of the command has an uncorrectable error: in the bank, in the tile, or in the ring entry (R315; the
entry as R73 has it). -/
def State.bankError (s : State) (copse bank : Nat) : Bool := (s.copse copse).bankBad.any fun w => w / 4096 == bank
def State.tileError (s : State) (c tile : Nat) (zero : Bool) : Bool := !zero && (s.core c).tileBad.any fun w => w / 2048 == tile
def State.entryError (s : State) (c : Nat) (r : Ring) : Bool :=
  (entrySectors c r).any fun pa => s.badIn pa 128

def execMmaFinish (s : State) : Out :=
  match s.event with
  | some (.mmaFinish copse) =>
    let s := s.taken
    match s.mmaDue copse, s.running (s.copse copse).mul with
    | true, some (c, q, _) =>
      match q.cmd with
      | .mma zero tile ring bank h wfmt =>
        let r := (s.core c).ring ring
        match (s.copse copse).find h with
        | some k =>
          let b := (k.banks[bank]?).getD 0
          let s := s.modCopse copse fun x => x.modHandle h fun k => { k with used := s.now }
          if s.bankError copse b then
            let s := s.modCopse copse fun x => x.modHandle h Rick.mark
            .next ((s.mmaPop copse c ring).matrixTrap c q .uncorrectableData (wd q.tsn))
          else if s.tileError c tile zero || s.entryError c r then
            .next ((s.mmaPop copse c ring).matrixTrap c q .uncorrectableData (wd q.tsn))
          else .next ((s.mmaRun c q zero tile r b k.fmt wfmt).mmaPop copse c ring)
        | none => .next (s.mmaPop copse c ring)
      | _ => .next s
    | _, _ => .next s
  | _ => .fault .noSubject

/-! ### Refills (R310) -/

/-- A core of the copse whose sheaf waits for a refill. -/
def State.refillCore (s : State) (copse h : Nat) : Nat :=
  ((List.range 64).find? fun i => match s.flight (8 * copse + i / 8) (i % 8) with
    | some fl => (fl.waitsRefill h).isSome
    | none => false).elim (8 * copse) fun i => 8 * copse + i / 8

/-- A refill can go on: its banks are to be taken again, or are zeroed and nothing holds its reads back. -/
def State.refillDue (s : State) (copse e : Nat) : Bool :=
  let r := (s.copse copse).rick e
  r.bound && r.refilling && (r.banks.isEmpty || ((s.copse copse).zeroed r &&
    (match r.src with | some (ws, p, k, priv) => !(s.sourceHeld copse r.ctx ws p k priv) | none => true)))

/-- The end of a refill that fails. -/
def State.refillFail (s : State) (copse e : Nat) (g : Rick → Rick) (r : TrapRec) : State :=
  let h := ((s.copse copse).rick e).handle
  (s.modCopse copse fun x => x.modRick e g).refillEnd copse h (some r)

def causeOnly (c : Cause) : TrapRec := { cause := c, addr := none, blockp := none }

/-- An evicted rick that cannot get its banks stays evicted. -/
def Rick.keptOut (r : Rick) (more : Bool) : Rick := r.refilled.ends .evicted more

def execRickRefill (s : State) : Out :=
  match s.event with
  | some (.rickRefill copse e) =>
    let s := s.taken
    if !(s.refillDue copse e) then .next s
    else
      let r := (s.copse copse).rick e
      if r.banks.isEmpty then
        match s.regainBanks copse r with
        | none => .next (s.refillFail copse e (·.keptOut (s.fillsOn copse r.handle)) (causeOnly .evictedRick))
        | some s => .next s
      else match r.src with
        | none => .next (s.refillFail copse e (·.refilled.failed .badDescriptor (s.fillsOn copse r.handle)) (causeOnly .badDescriptor))
        | some (ws, p, k, priv) =>
          match s.fillOpen copse r.ctx r.handle ws p k priv with
          | (s, .error t) => .next (s.refillFail copse e (·.refilled.failed t.cause (s.fillsOn copse r.handle)) t)
          | (s, .ok b) =>
            match s.fillBanks copse (s.refillCore copse r.handle) r.ctx priv b (b.word p) (r.banks.zipIdx.map fun (b, j) => (j, b)) with
            | (s, .error t) => .next (s.refillFail copse e (·.refilled.failed t.cause (s.fillsOn copse r.handle)) t)
            | (s, .ok _) =>
              let stale := ((s.copse copse).rick e).marked
              let s := s.modCopse copse fun x => x.modRick e fun r => r.refilled.filled (ws, p, k, priv) b.t.s s.now (s.fillsOn copse r.handle)
              .next (s.refillEnd copse r.handle (if stale then some (causeOnly .staleRick) else none))
  | _ => .fault .noSubject

/-! ### Drains (R312) -/

/-- The drain that runs, with its fields. -/
structure Drain where
  c     : Nat
  q     : QCmd
  since : Nat
  tile  : Nat
  sat   : Bool
  fmt   : Nat
  dst   : Nat
  tag   : Nat
  mode  : BitVec 3
  z0    : BitVec 32
  priv  : Bool
  deriving DecidableEq, Repr

def State.drainOf (s : State) (copse : Nat) : Option Drain :=
  match s.running (s.copse copse).fill with
  | some (c, q, since) => match q.cmd with
    | .drain tile sat fmt dst tag mode z0 priv => some ⟨c, q, since, tile, sat, fmt, dst, tag, mode, z0, priv⟩
    | _ => none
  | none => none

/-- Change the command at the head of a core's queue. -/
def Core.modHead (k : Core) (g : QCmd → QCmd) : Core :=
  { k with mq := match k.mq with
      | q :: rest => g q :: rest
      | [] => [] }

/-- The tile has been read out once 32 clocks have passed. -/
def State.readOutDue (s : State) (copse : Nat) : Bool :=
  match s.drainOf copse with
  | some d => !d.q.freed && d.since + 32 ≤ s.clock
  | none => false

def execTileReadOut (s : State) : Out :=
  match s.event with
  | some (.tileReadOut copse) =>
    let s := s.taken
    match s.readOutDue copse, s.drainOf copse with
    | true, some d =>
      .next (s.modCore d.c fun k => { k.modHead fun q => { q with freed := true } with ctagf := setBit k.ctagf d.tag true })
    | _, _ => .next s
  | _ => .fault .noSubject

/-- Where an element goes. -/
def Drain.addr (d : Drain) (e : Nat) : Nat :=
  d.dst + fmtSize d.fmt * (256 * (e % 128 / 16) + curveIndex 4 (e / 128) (e % 128 % 16))

/-- The covering block of the destination. -/
def Drain.block (d : Drain) : Word := coverWord d.dst (2048 * fmtSize d.fmt)

/-- An element's converted bytes, and whether it overflowed or saturated. -/
def State.drainElem (s : State) (d : Drain) (e : Nat) : Nat × Bool :=
  convert2 0x20 d.fmt (modeOf d.mode (lfsrAdv e d.z0)) d.sat ((s.core d.c).accWord d.tile e)

/-- Write elements from `e` on: how far it came, and why it stopped. -/
def State.drainFrom (s : State) (copse : Nat) (d : Drain) : Nat → Nat → State × Nat × Option (Option TrapRec)
  | _, 0 => (s, 2048, none)
  | e, n + 1 =>
    if (s.core d.c).tileBad.contains (2048 * d.tile + e) then
      (s, e, some (some { cause := .uncorrectableData, addr := none, blockp := some d.block }))
    else
      let sz := fmtSize d.fmt
      let s := s.modCore d.c fun k => k.fixTiles (· == 2048 * d.tile + e) true
      match s.checkBytes (.copse copse) d.q.ctx d.priv (d.addr e) sz false true with
      | (s, .error x) => (s, e, some (some (xfailRec x d.block)))
      | (s, .ok ps) =>
        match s.writeParts (.array d.c) d.q.ctx (d.addr e) (toBytes sz (s.drainElem d e).1) d.block 0 ps with
        | .done t => t.drainFrom copse d (e + 1) n
        | .fault t r => (t, e, some (some r))
        | .wait => (s, e, some none)

/-- A failing element holds the drain at the head of its queue; the path is free for others. -/
def State.holdDrain (s : State) (copse : Nat) (d : Drain) (e : Nat) (r : TrapRec) : State :=
  let (a, s) := s.orFree r.addr
  let s := (s.modCore d.c fun k => k.modHead fun q => { q with next := e, held_ := true, started := false }).pathFree copse true
  s.sendRecord (nodeOf copse, epArray) d.q.ctx r.cause d.dst (d.tag * 2 ^ 58 + 2 * 2 ^ 55 + 2 ^ 50 + e) a d.block

def execMdrainFinish (s : State) : Out :=
  match s.event with
  | some (.mdrainFinish copse) =>
    let s := s.taken
    match s.drainOf copse with
    | none => .next s
    | some d =>
      if !d.q.freed then .next s
      else match s.drainFrom copse d d.q.next (2048 - d.q.next) with
        | (s, e, some (some r)) => .next (s.holdDrain copse d e r)
        | (s, e, some none) => .next (s.modCore d.c fun k => k.modHead fun q => { q with next := e })
        | (s, _, none) =>
          let sat := (List.range 2048).countP fun e => (s.drainElem d e).2
          let s := (s.modCore d.c (·.popCmd)).pathFree copse true
          .next ((s.copyEnd d.c d.tag true false).addCounts d.c d.q sat 0 0)
  | _ => .fault .noSubject

/-! ### Marks, banks and forced evictions -/

/-- A stale mark reaches its rick; the write it holds back is acknowledged (R151). -/
def execRickStaleMark (s : State) : Out :=
  match s.event with
  | some (.rickStaleMark copse h ack) =>
    let s := s.taken.markRick copse h
    match ack with
    | some t => .next (s.ack (nodeOf copse, epArray) (s.slot t.core t.slot).th.ctx (.slot t.core t.slot) .write none t)
    | none => .next s
  | _ => .fault .noSubject

/-- A bank has been zeroed for 128 clocks (R307). -/
def BankState.zeroedAt (b : BankState) (now : Nat) : Bool :=
  match b with
  | .zeroing t | .held _ (some t) => t + 128 ≤ now
  | _ => false

def BankState.clean (b : BankState) : BankState :=
  match b with
  | .zeroing _ => .free
  | .held e _ => .held e none
  | .free => .free

def execBankZeroed (s : State) : Out :=
  match s.event with
  | some (.bankZeroed copse bank) =>
    let s := s.taken
    let x := s.copse copse
    let b := x.banks[bank]?.getD .free
    if b.zeroedAt s.clock then
      .next (s.setCopse copse { x.writeBank bank [] with banks := x.banks.setIfInBounds bank b.clean })
    else .next s
  | _ => .fault .noSubject

/-- The trust core evicts a rick, pinned or not, once nothing uses it (R306, R307). -/
def execForcedEviction (s : State) : Out :=
  match s.event with
  | some (.forcedEviction copse e) =>
    let s := s.taken
    let r := (s.copse copse).rick e
    if !r.bound || !(r.state == .ready || r.state == .stale) then .next s
    else if s.rickUsed copse r.handle then .next (s.due (.forcedEviction copse e))
    else .next (s.evictRick copse e)
  | _ => .fault .noSubject

end Sys2Proof.Machine
end

