-- ==== Sys2Proof/Machine/Traps.lean ====
section
/-!
DEFINITION. Page 8 but for its images (R373 to R376): TRAP, TRET, HALT, PREEMPT, and reading and writing the control
registers.
-/
namespace Sys2Proof.Machine
open Sys2Proof

/-! ### TRAP, TRET, HALT, PREEMPT (R375, R376) -/

def execTrap (f : Form) (s : State) : Out :=
  issue (.trap f) s fun is s =>
    if field is.lw 8 56 != 0 then .next (s.trapAt is .badControlValue) else .next (s.dispose is (.softTrap is.lw))

def execTret (f : Form) (s : State) : Out := issue (.tret f) s fun is s => .next (s.dispose is .tret)
def execHalt (f : Form) (s : State) : Out := issue (.halt f) s fun is s => .next (s.dispose is .halt)

def execPreempt (f : Form) (s : State) : Out :=
  issue (.preempt f) s fun is s =>
    if field is.lw 20 44 != 0 || preAct is.lw == 3 then .next (s.trapAt is .badControlValue)
    else .next (s.fireDue is (.preempt is.lw))

/-! ### Reading a register (R374) -/

def selReg (w : Word) : Nat := field w 8 8
def selIdx (w : Word) : Nat := field w 0 8

/-- An ordered packet heads the slot's injection queue and waits for the writes before it (R90, R91). -/
def Slot.owait (x : Slot) : Bool :=
  !(x.settledAt 0) && (match x.injq.head? with
    | some (.pkt p) => p.ord
    | _ => false)

/-- USTAT (R91). -/
def Slot.ustat (x : Slot) : Word := wd (x.ucnt % 512 + if x.owait then 512 else 0)

/-- TSTAT (R369). -/
def Thread.tstat (t : Thread) : Word := wd ((if t.act then 1 else 0) + (if t.hnd then 2 else 0) + (if t.dbl then 4 else 0))

def Thread.bank (t : Thread) (i : Nat) : Bank := if i == 0 then t.bank0 else t.bank1

/-- Highest index of a register. -/
def ctlIndexes (reg : Nat) : Nat :=
  if 1 ≤ reg && reg ≤ 4 then 2
  else if reg == 0x15 || reg == 0x27 then 256
  else if reg == 0x18 then 16
  else if reg == 0x24 || reg == 0x28 then 64
  else 1

/-- Registers that only a privileged sheaf reads. -/
def ctlReadPriv (reg : Nat) : Bool := reg == 0x0B || (0x10 ≤ reg && reg ≤ 0x19)

/-- The value of a register as a slot reads it; `none` for a number that CTLGET does not read. -/
def State.ctlValue (s : State) (c k reg i : Nat) : Option Word :=
  let y := s.core c
  let x := y.slot k
  let t := x.th
  let m := s.ctx t.ctx
  match reg with
  | 0x01 => some (t.bank i).tcause
  | 0x02 => some (t.bank i).taddr
  | 0x03 => some (t.bank i).tblockp
  | 0x04 => some (t.bank i).tsheaf
  | 0x05 => some t.tstat
  | 0x06 => some m.tvec
  | 0x07 => some t.tstk
  | 0x08 => some m.supv
  | 0x09 => some m.savecnt
  | 0x0A => some t.pstat
  | 0x0B => some y.tccb
  | 0x0C => some (s.fwver.setWidth 64)
  | 0x10 => some m.troot
  | 0x11 => some m.tctl
  | 0x12 => some m.dtroot
  | 0x14 => some s.hpool
  | 0x15 => some (s.spread.get i 0)
  | 0x16 => some s.dhome
  | 0x17 => some s.pccfg
  | 0x18 => some ((s.nroute.get (16 * nodeOf (c / 8) + i) 0).setWidth 64)
  | 0x19 => some m.tskm
  | 0x20 => some x.ustat
  | 0x21 => some (condWord t.wake)
  | 0x22 => some (t.memb.setWidth 64)
  | 0x23 => some y.aspill
  | 0x24 => some (y.tchan.get i 0)
  | 0x25 => some (s.die (dieOf (c / 8))).dsqcfg
  | 0x26 => some m.csched
  | 0x27 => some ((m.fspl.get i 0).setWidth 64)
  | 0x28 => some (y.stile.get i 0)
  | 0x2A => some m.mixdbg
  | 0x2B => some y.croot
  | 0x30 => some y.mxcfg
  | 0x31 => some y.mxcnt
  | 0x32 => some y.mxthr
  | 0x33 => some m.rkquota
  | 0x34 => some y.mbxst
  | 0x35 => some y.drvcfg
  | 0x37 => some y.ctagf
  | 0x38 => some y.ctagl
  | 0x39 => some y.ctage
  | _ => none

def execCtlget (f : Form) (s : State) : Out :=
  issue (.ctlget f) s fun is s =>
    let reg := selReg is.lw
    let i := selIdx is.lw
    match s.ctlValue is.c is.k reg i with
    | none => .next (s.trapAt is .badControlValue)
    | some v =>
      if field is.lw 16 48 != 0 || ctlIndexes reg ≤ i then .next (s.trapAt is .badControlValue)
      else if ctlReadPriv reg && !is.priv then .next (s.trapAt is .privilege)
      else
        let s := if reg == 1 && i == 0 then s.modFlight is.c is.k fun fl => { fl with tcause := true } else s
        .next (s.emit is (.sc v))

/-! ### Writing a register (R374) -/

/-- Registers that CTLSET writes. -/
def ctlWritable (reg : Nat) : Bool := [0x06, 0x07, 0x13, 0x27, 0x29, 0x2A, 0x2B, 0x30, 0x35, 0x36].contains reg

/-- Of these, all but MXCFG need a privileged sheaf. -/
def ctlWritePriv (reg : Nat) : Bool := reg != 0x30

/-- A number of the table. -/
def ctlKnown (reg : Nat) : Bool :=
  (1 ≤ reg && reg ≤ 0x0C) || (0x10 ≤ reg && reg ≤ 0x19) || (0x20 ≤ reg && reg ≤ 0x2B) || (0x30 ≤ reg && reg ≤ 0x39)

def tinvAll (v : Word) : Bool := v.getLsbD 57
def tinvDepth (v : Word) : Nat := field v 58 6
def tinvBase (v : Word) : Nat := field v 0 56

/-- Why a value is refused. DEDUCED, log 81. -/
def State.ctlBad (s : State) (reg : Nat) (v : Word) : Option Cause :=
  let bad := fun (b : Bool) => if b then some Cause.badControlValue else none
  match reg with
  | 0x06 => bad (field v 17 47 != 0 || field v 1 3 != 0)
  | 0x07 => bad (field v 56 8 != 0)
  | 0x13 =>
    if v.getLsbD 56 || (!(tinvAll v) && (tinvDepth v < 4 || 32 < tinvDepth v)) then some .badControlValue
    else if !(tinvAll v) && tinvBase v % blockSize (tinvDepth v) != 0 then some .blockAlignment
    else none
  | 0x27 => bad (255 < v.toNat)
  | 0x29 => bad (field v 11 53 != 0 || !(s.dieLive (dieOf (field v 0 11 / 8))))
  | 0x2A => bad (field v 17 47 != 0)
  | 0x2B => bad (field v 56 8 != 0 || field v 1 4 != 0)
  | 0x30 => bad (field v 9 55 != 0)
  | 0x35 => bad (field v 18 46 != 0 || field v 0 4 != 0)
  | 0x36 => bad (field v 22 42 != 0)
  | _ => none

/-- DEDUCED, log 80. -/
def execCtlset (f : Form) (s : State) : Out :=
  issue (.ctlset f) s fun is s =>
    let reg := selReg is.lw
    let i := selIdx is.lw
    if field is.lw 16 48 != 0 || !(ctlKnown reg) || ctlIndexes reg ≤ i then .next (s.trapAt is .badControlValue)
    else if !(ctlWritable reg) || (ctlWritePriv reg && !is.priv) then .next (s.trapAt is .privilege)
    else match s.ctlBad reg is.rw_ with
      | some c => .next (s.trapAt is c)
      | none => .next (s.fireDue is (.ctlset reg i is.rw_))

/-- A START packet to a core, in request class, counted (R96). -/
def startPkt (c k ctx : Nat) (v : Word) : Pkt :=
  { cls := 0, src := coreEnd c, dst := coreEnd (field v 0 11), ctx := ctx, counted := true,
    deliver := .start (field v 0 11) (.slot c k) }

/-- An operation of a slot that its FENCEs wait for; what the slot's core sends for it waits behind the ordered packets that the
slot has queued (R93), while images are written past the queue (R89). -/
def State.addOp (s : State) (c k : Nat) (kind : OpKind) (left : List Nat) : State :=
  let behind := (s.slot c k).injq.countP InjEnt.ordered
  { s with ops := s.ops ++ [{ id := s.nextId, core := c, slot := k, kind := kind, left := left, behind := behind }], nextId := s.nextId + 1 }

def State.modOp (s : State) (id : Nat) (g : Op → Op) : State :=
  { s with ops := s.ops.map fun o => if o.id == id then g o else o }
def State.endOp (s : State) (id : Nat) : State := { s with ops := s.ops.filter fun o => o.id != id }
def State.op? (s : State) (id : Nat) : Option Op := s.ops.find? fun o => o.id == id

/-- CTLSET's commit: a register of its own takes the value, an operation or packet starts (R32, R96, R135, R321, R330,
R343). -/
def State.ctlCommit (s : State) (c k reg i : Nat) (v : Word) : State :=
  let ctx := (s.slot c k).th.ctx
  match reg with
  | 0x06 => s.modCtx ctx fun x => { x with tvec := v }
  | 0x07 => s.modThread c k fun t => { t with tstk := v }
  | 0x13 => (s.addOp c k (.tinv ctx v) []).due (.tinvWrite c k v)
  | 0x27 => s.modCtx ctx fun x => { x with fspl := x.fspl.put i (v.extractLsb' 0 8) }
  | 0x29 => s.inject c k (startPkt c k ctx v)
  | 0x2A => ((s.modCtx ctx fun x => { x with mixdbg := v }).addOp c k (.mixdbg ctx v) []).due (.mixdbgWrite c k v)
  | 0x2B => ((s.modCtx ctx fun x => { x with croot := v }).addOp c k (.croot ctx v) []).due (.crootWrite c k v)
  | 0x30 => s.modCore c fun y => { y with mxcfg := setField y.mxcfg 8 1 (field v 8 1) }
  | 0x35 => s.due (.drvcfgWrite c v)
  | 0x36 => s.inject c k { msg := true, cls := 4, src := coreEnd c, dst := coreEnd (cpresCore v), ctx := ctx,
                           deliver := if v.getLsbD 21 then .cpresAbort ctx v else .cpresResume ctx v }
  | _ => s

/-! ### The registers' own steps -/

/-- A write of CLSTART that is made (R96): the START packet joins the slot's injection queue. -/
def execClstartWrite (s : State) : Out :=
  match s.event with
  | some (.clstartWrite c k v) => .next (s.taken.ctlCommit c k 0x29 0 v)
  | _ => .fault .noSubject

/-- A translation entry overlaps the block of a TINV. -/
def tinvHits (ctx : Nat) (v : Word) (e : TlbEnt) : Bool :=
  e.ctx == ctx && (tinvAll v || blocksMeet (tinvDepth v) (tinvBase v) e.leaf.depth e.leaf.base)

/-- The entries are removed and the level caches emptied (R32). -/
def State.tinv (s : State) (ctx : Nat) (v : Word) : State :=
  { s with
    cores := s.cores.map fun (n, y) =>
      (n, if y.ctx == some ctx then { y with tlb := y.tlb.filter fun e => !(tinvHits ctx v e) } else y)
    copses := s.copses.map fun (n, x) =>
      (n, { x with tlb := x.tlb.filter (fun e => !(tinvHits ctx v e)), lcache := x.lcache.filter fun e => e.1 != ctx }) }

/-- The slots whose counted writes a drain of a context's cores waits for. -/
def State.drainSlots (s : State) (ctx : Nat) : List Nat :=
  (s.coresOf ctx).flatMap fun c => (List.range 8).map fun k => 8 * c + k

/-- A write of TINV: the entries go; the accesses made through them are still to drain. DEDUCED, log 39. -/
def execTinvWrite (s : State) : Out :=
  match s.event with
  | some (.tinvWrite c k v) =>
    let s := s.taken
    match s.ops.find? fun o => o.core == c && o.slot == k && (match o.kind with | .tinv _ w => w == v && o.left.isEmpty | _ => false) with
    | some o => match o.kind with
      | .tinv ctx _ =>
        if o.behind != 0 then .next (s.due (.tinvWrite c k v))
        else
          let s := (s.tinv ctx v).modOp o.id fun o => { o with left := s.drainSlots ctx }
          .next (if (s.drainSlots ctx).isEmpty then s.endOp o.id else s)
      | _ => .next s
    | none => .next s
  | _ => .fault .noSubject

/-- An access that a sheaf has translated and that leaves at its commit. -/
def Act.isAccess : Act → Bool
  | .store .. | .red .. | .stw .. | .amRelease .. | .savec .. | .watch _ | .unwatch _ => true
  | _ => false

/-- An image of a slot has writes still to make. -/
def State.imaging (s : State) (c k : Nat) : Bool :=
  s.ops.any fun o => o.core == c && o.slot == k && (match o.kind with | .savec _ _ ps => !ps.isEmpty | _ => false)

/-- A slot has a wake write or a map update on its way that it has translated. -/
def State.updating (s : State) (c k : Nat) : Bool :=
  !(s.slot c k).wakes.isEmpty || ((s.underWay c).any fun r => r.agent == .slot c k && (match r.acc with | .wake _ => true | _ => false)) ||
    s.ops.any fun o => o.core == c && o.slot == k && (match o.kind with | .mapUpdate .. => true | _ => false)

/-- A slot has drained the accesses it has translated: its counter is zero, no load of it is still to be answered, no
image, wake write or map update of it is still being written and, but in the slot that waits itself, no access waits for its
sheaf's commit; the copies of a core, which the drover slot stands for, hold no run that they have read (R153).
DEDUCED, log 39. -/
def State.slotDrained (s : State) (own n : Nat) : Bool :=
  let x := s.slot (n / 8) (n % 8)
  x.allDone && !(s.imaging (n / 8) (n % 8)) && !(s.updating (n / 8) (n % 8)) &&
    (n % 8 != 7 || (s.core (n / 8)).copies.all fun y => !y.translated) && (match x.fl with
    | some fl => (n == own || fl.due.all fun d => !d.act.isAccess) && fl.held.all fun h => h.done || (match h.kind with
      | .load _ | .gath _ => !(h.got.any Option.isNone)
      | _ => true)
    | none => true)

/-- The slot whose operation it is, as drains number slots. -/
def Op.own (o : Op) : Nat := 8 * o.core + o.slot

/-- A drain can go on: some slot it waits for has drained. -/
def State.tinvDue (s : State) (id : Nat) : Bool :=
  match s.op? id with
  | some o => (match o.kind with | .tinv .. => !o.left.isEmpty && o.left.any (s.slotDrained o.own) | _ => false)
  | none => false

/-- The slots that have drained are done with; after the last the invalidation is complete (R32).  Feeders and arrays finish
a sector in one step. -/
def execTinvComplete (s : State) : Out :=
  match s.event with
  | some (.tinvComplete id) =>
    let s := s.taken
    match s.op? id with
    | some o => match o.kind with
      | .tinv .. =>
        let left := o.left.filter fun n => !(s.slotDrained o.own n)
        .next (if left.isEmpty && !o.left.isEmpty then s.endOp id else s.modOp id fun o => { o with left := left })
      | _ => .next s
    | none => .next s
  | _ => .fault .noSubject

/-- The homes of a context's accesses: every slice, gateway and scratchpad port of the context (R135). -/
def State.homesOf (s : State) (ctx : Nat) : List Nat :=
  ((List.range 256).filter fun i => s.dieLive (dieOf i)).map (fun i => homeKey (.slice i)) ++
    (List.range 4).map (fun g => homeKey (.gateway g)) ++ (s.coresOf ctx).map fun c => homeKey (.scratch c)

/-- Two operations write the same register. -/
def OpKind.sameReg : OpKind → OpKind → Bool
  | .mixdbg .., .mixdbg .. | .croot .., .croot .. => true
  | _, _ => false

/-- An earlier write of the slot to the same register has still to arrive at a place: one path keeps their order (R88). -/
def State.behindWrite (s : State) (o : Op) (n : Nat) : Bool :=
  s.ops.any fun x => x.id < o.id && x.core == o.core && x.slot == o.slot && x.kind.sameReg o.kind &&
    (x.left.isEmpty || x.left.contains n)

/-- One step of a write that spreads: where it has still to arrive, or the places it starts with. -/
def State.spreadWrite (s : State) (o : Op) (places : List Nat) (arrive : State → Nat → State) (again : Event) : State :=
  let left := if o.left.isEmpty then places else o.left
  if left.isEmpty then s.endOp o.id
  else
    match s.oneOf (left.filter fun n => o.behind == 0 && !(s.behindWrite o n)) with
    | (none, s) => (s.modOp o.id fun o => { o with left := left }).due again
    | (some n, s) =>
      let rest := left.filter (· != n)
      let s := arrive s n
      if rest.isEmpty then s.endOp o.id else (s.modOp o.id fun o => { o with left := rest }).due again

/-- A write of MIXDBG arrives at one home after another, in any order (R135). -/
def execMixdbgWrite (s : State) : Out :=
  match s.event with
  | some (.mixdbgWrite c k v) =>
    let s := s.taken
    match s.ops.find? fun o => o.core == c && o.slot == k && (match o.kind with | .mixdbg _ w => w == v | _ => false) with
    | some o => match o.kind with
      | .mixdbg ctx _ =>
        .next (s.spreadWrite o (s.homesOf ctx)
          (fun s n => s.modCtx ctx fun x => { x with mixAt := x.mixAt.put n v }) (.mixdbgWrite c k v))
      | _ => .next s
    | none => .next s
  | _ => .fault .noSubject

/-- A write of CROOT arrives at one core after another; each empties its croft cache (R343). -/
def execCrootWrite (s : State) : Out :=
  match s.event with
  | some (.crootWrite c k v) =>
    let s := s.taken
    match s.ops.find? fun o => o.core == c && o.slot == k && (match o.kind with | .croot _ w => w == v | _ => false) with
    | some o => match o.kind with
      | .croot ctx _ =>
        .next (s.spreadWrite o (s.coresOf ctx)
          (fun s n => s.modCore n fun y => { y with croot := v, crofts := [] }) (.crootWrite c k v))
      | _ => .next s
    | none => .next s
  | _ => .fault .noSubject

/-! ### PROTB after its commit (R44) -/

/-- The sectors of a PROTB. -/
def granSectors (gs : List (Nat × Nat × Nat)) : List Nat := (gs.map (·.1)).eraseDups

/-- A core's drain phase: its L1 sectors and guard-cache entries of the block go, and fills of the context in flight install
nothing (R58, R113). -/
def Core.dropBlock (k : Core) (ctx : Nat) (secs : List Nat) : Core :=
  { secs.foldl (fun k n => k.l1Drop (128 * n)) k with
    epochs := k.epochs.put ctx (k.epochs.get ctx 0 + 1)
    gcache := k.gcache.filter fun e => !(secs.contains e.1) }

/-- A core may drain: its counted writes are acknowledged. -/
def State.coreDrained (s : State) (c : Nat) : Bool := (List.range 8).all fun k => (s.slot c k).allDone

def State.protbDrainDue (s : State) (id c : Nat) : Bool :=
  match s.op? id with
  | some o => (match o.kind with | .protb .. => o.behind == 0 && o.left.contains (c + 1) && s.coreDrained c | _ => false)
  | none => false

def execProtbDrain (s : State) : Out :=
  match s.event with
  | some (.protbDrain id c) =>
    let s := s.taken
    match s.op? id with
    | some o => match o.kind with
      | .protb ctx gs _ _ =>
        if s.protbDrainDue id c then
          .next ((s.modCore c fun k => k.dropBlock ctx (granSectors gs)).modOp id fun o => { o with left := o.left.filter (· != c + 1) })
        else .next s
      | _ => .next s
    | none => .next s
  | _ => .fault .noSubject

/-- A guard word with one layer of some granules set (R42). -/
def setGuard (g : BitVec 32) (mask : Nat) (sys : Bool) (right : BitVec 2) : BitVec 32 :=
  (List.range 8).foldl (fun g i =>
    if mask.testBit i then
      let lo := 4 * i + if sys then 2 else 0
      BitVec.ofNat 32 (g.toNat - nbits g.toNat lo 2 * 2 ^ lo + right.toNat * 2 ^ lo)
    else g) g

/-- The slices install the new words; each changed page gets a dirty mark (R43, R47), and one that fails leaves its trap pending
(R73). DEDUCED, log 82. -/
def State.protbInstall (s : State) (who : Agent) (ctx : Nat) (gs : List (Nat × Nat × Nat)) (sys : Bool) (right : BitVec 2) : State :=
  let s := gs.foldl (fun s (n, mask, va) =>
    let s := if (s.sector n).zp then s.putHome (128 * n) (List.replicate 128 (some 0)) else s
    let s := s.modSector n fun x => { x with guard := setGuard x.guard mask sys right }
    match s.markDirty ctx va (128 * n) with
    | .ok s => s
    | .error e => s.impTrap who { cause := e, imp := true, addr := some (blockWord 30 va) }) s
  (s.coresOf ctx).foldl (fun s c => s.modCore c fun k => k.dropBlock ctx (granSectors gs)) s

def execProtbInstall (s : State) : Out :=
  match s.event with
  | some (.protbInstall id) =>
    let s := s.taken
    match s.op? id with
    | some o => match o.kind with
      | .protb ctx gs sys right => if o.left.isEmpty then .next ((s.protbInstall (.slot o.core o.slot) ctx gs sys right).endOp id) else .next s
      | _ => .next s
    | none => .next s
  | _ => .fault .noSubject

/-- PROTB's commit: every core of the context is to drain. -/
def State.protbStart (s : State) (c k ctx : Nat) (gs : List (Nat × Nat × Nat)) (sys : Bool) (right : BitVec 2) : State :=
  s.addOp c k (.protb ctx gs sys right) ((s.coresOf ctx).map (· + 1))

/-! ### START (R97) -/

/-- START arrives: the code-loading stores before it have been applied in order; it is acknowledged. -/
def execStart (s : State) : Out :=
  match s.event with
  | some (.start target sender) =>
    let s := s.taken
    match sender with
    | .slot c k => .next (s.ack (coreEnd target) (s.slot c k).th.ctx (.slot c k) .write none)
    | .gateway g => .next (s.modGw g fun x => { x with start := x.start.erase target })
  | _ => .fault .noSubject

end Sys2Proof.Machine
end

