-- ==== Sys2Proof/Machine/Images.lean ====
section
/-!
DEFINITION. Context images (R377 to R380, R391, R421, R422): their header and records, SAVEC and LOADC.
-/
namespace Sys2Proof.Machine
open Sys2Proof

/-! ### Words and bytes -/

def wordBytes (ws : List Word) : List Byte := ws.flatMap fun w => toBytes 8 w.toNat

/-- Word `i` of a body; a field that is missing reads as zero (R378). -/
def bodyWord (b : List Byte) (i : Nat) : Word := wd (ofBytes ((b.drop (8 * i)).take 8))
def bodyWords (b : List Byte) (i n : Nat) : List Word := (List.range n).map fun j => bodyWord b (i + j)

/-! ### The records of a context (R378, R421) -/

/-- A record: its head and its body. -/
def imageRecord (type : Nat) (mu : Bool) (body : List Byte) : List Byte :=
  toBytes 8 (type * 2 ^ 48 + 2 ^ 40 + (if mu then 2 ^ 39 else 0) + body.length) ++ body

def flagWord (bs : List Bool) : Word := wd ((bs.zipIdx.map fun (b, i) => if b then 2 ^ i else 0).foldl (· + ·) 0)

/-- The state word of record 4: parked, by a double fault too (R370), halted, barrier-wait, a held release. -/
def Thread.stateWord (t : Thread) : Word :=
  flagWord [t.rest == .parked || t.rest == .dbl, t.rest == .halted, (match t.rest with | .barrier _ => true | _ => false), t.release_]

def bankWords (b : Bank) : List Word := [b.tcause, b.taddr, b.tblockp, b.tsheaf]

def modeCode : PortMode → Nat
  | .fill => 0 | .drain => 1 | .nbr => 2 | .ring => 3

/-- The words kept with a port: unread link words, or the words of a drain that has stopped. -/
def State.portWords (s : State) (c : Nat) (p : Port) : List Word :=
  match p.mode with
  | .nbr => s.linkWords c p
  | .drain => p.buf.map (·.getD 0)
  | _ => []

/-- A port's entry of record 6.  Bits 6 and 7 of its first word keep the privilege of its accesses and a drain's stop;
a neighbour port keeps its stile entry where others keep the pattern. -/
def State.portEntry (s : State) (c n : Nat) (p : Port) : List Word :=
  let ws := s.portWords c p
  let pat := if p.mode == .nbr then [p.stile] else p.pat
  [wd (n + modeCode p.mode * 16 + (if p.priv then 64 else 0) + (if p.stopped then 128 else 0)), p.operand, wd p.link] ++
    (List.range 8).map (fun i => (pat[i]?).getD 0) ++ [wd p.pos, wd p.credits, wd ws.length] ++ ws

/-- Record 9: the window and the entry's own watches in it. -/
def State.windowBody (s : State) (c ent off len : Nat) : List Byte :=
  let w := (s.core c).watch
  wordBytes [wd off, wd len] ++ ((List.range (len / 128)).flatMap fun i => s.homeBytes (scratchBase c + off + 128 * i) 128) ++
    (List.range (len / 8)).map fun i => if w.get? (off / 8 + i) == some (entOwner ent) then 0x80 else 0

/-- The sectors of a window. -/
def windowSectors (c off len : Nat) : List Nat := (List.range (len / 128)).map fun i => scratchBase c + off + 128 * i

/-- A window holds a word with an uncorrectable error (R73). -/
def State.windowLost (s : State) (c : Nat) (win : Option (Nat × Nat)) : Bool :=
  win.any fun (off, len) => (windowSectors c off len).any fun pa => s.lost pa 128

/-- The words of a window are read, and their single-bit errors corrected (R73). -/
def State.fixWindow (s : State) (c : Nat) (win : Option (Nat × Nat)) : State :=
  match win with
  | some (off, len) => (windowSectors c off len).foldl (fun s pa => s.fixIn pa 128) s
  | none => s

def optWords (n : Nat) (ws : List Word) : List Word := (List.range n).map fun i => (ws[i]?).getD 0

/-- An element of a run that has been read: its destination, if it has one, and its value. -/
def RunElem.words (e : RunElem) : List Word :=
  [wd (e.val.length + if e.dst.isSome then 16 else 0), wd (e.dst.getD 0), wd (ofBytes e.val)]

/-- A copy's state record with its captured descriptor, and a run that it has read and not written, in record 8. -/
def Copy.words (x : Copy) : List Word :=
  let st := match x.state with | .running => 1 | .suspended => 2 | .paused => 3 | .aborted => 4
  let d := x.desc
  [wd x.tag, wd st, wd x.resume, wd x.cause, x.faddr, x.fblock, wd d.addr, flagWord [d.priv, x.wait, x.landing], wd d.ctx,
   wd d.dims.length, wd d.src.length, wd d.dst.length, wd x.chunks.length, wd x.wrote.length,
   wd d.group, wd (x.failed.elim 0 (· + 1)), wd (x.buf.elim 0 fun r => r.length + 1)] ++ optWords 8 d.hdr ++
    d.dims.flatMap (fun y => [y.1, y.2.1, y.2.2]) ++ d.src ++ d.dst ++ x.chunks.map wd ++ x.wrote.map wd ++
    (x.buf.getD []).flatMap RunElem.words

/-- Record 8: the drover's part. -/
def CacheEnt.droverBody (e : CacheEnt) : List Byte :=
  wordBytes ([e.drvcfg, e.ctagf, e.ctagl, e.ctage, wd e.copies.length] ++ e.copies.flatMap Copy.words ++
    List.replicate (Config.recordPad 8) 0)

/-- Record 10: the ricks of the context in the copse, with the contents of their banks. -/
def State.rickBody (s : State) (copse ctx : Nat) : List Byte :=
  let x := s.copse copse
  let rs := x.ricks.toList.filter fun r => r.bound && r.ctx == ctx && r.state != .revoked
  wordBytes [wd rs.length] ++ (rs.flatMap fun r =>
    let (ws, p, k, priv) := r.src.getD ([], 0, 0, false)
    wordBytes ([wd r.handle, wd (rkCode r.state), flagWord [r.pin, r.src.isSome, priv], wd r.nbanks, wd r.banks.length, wd r.err,
                wd r.fmt, wd p, wd k] ++ optWords 4 ws) ++
      r.banks.flatMap fun b => x.bankBytes (0x8000 * b) 0x8000) ++ wordBytes (List.replicate (Config.recordPad 10) 0)

/-- The records of a cache entry, in ascending type. DEDUCED, log 83. -/
def State.records (s : State) (c ent : Nat) (e : CacheEnt) (win : Option (Nat × Nat)) (ricks : Bool) : List Byte :=
  let t := e.th
  let r := t.regs
  imageRecord 1 true (wordBytes r.g.toList) ++
  imageRecord 2 true (r.v.toList.flatMap vecBytes) ++
  imageRecord 3 true (wordBytes ([r.k, r.n] ++ r.f.toList ++ [r.rnd] ++ r.q.toList)) ++
  imageRecord 4 true (wordBytes [t.memb.setWidth 64, condWord t.wake, t.tstat, t.stateWord]) ++
  imageRecord 5 true (wordBytes (bankWords t.bank0 ++ bankWords t.bank1 ++ [wd t.imps.length] ++
    t.imps.flatMap fun i => [tcauseWord i, i.addr.getD 0])) ++
  imageRecord 6 true (wordBytes ([wd t.ports.length] ++ t.ports.flatMap fun (n, p) => s.portEntry c n p)) ++
  imageRecord 7 true (vecBytes t.box0.data ++ vecBytes t.box1.data ++ wordBytes [flagWord [t.box0.full, t.box1.full]]) ++
  (if e.drover then imageRecord 8 true e.droverBody else []) ++
  (match win with | some (off, len) => imageRecord 9 true (s.windowBody c ent off len) | none => []) ++
  (if ricks then imageRecord 10 true (s.rickBody (c / 8) t.ctx) else []) ++
  imageRecord 11 false (wordBytes ((s.core c).fixed.toList.take 4))

/-! ### SAVEC (R379) -/

def savCore (w : Word) : Nat := field w 0 11
def savEnt (w : Word) : Nat := field w 11 4
def savNew (w : Word) : Bool := w.getLsbD 15
def savWin (w : Word) : Bool := w.getLsbD 16
def savRick (w : Word) : Bool := w.getLsbD 17
def winOff (w : Word) : Nat := field w 0 18
def winLen (w : Word) : Nat := field w 20 18

/-- The window of a SAVEC, when it names one. -/
def savWindow (ctl x : Word) : Option (Nat × Nat) := if savWin ctl then some (winOff x, winLen x) else none

def windowOk (ctl x : Word) : Bool :=
  field x 18 2 == 0 && field x 38 26 == 0 &&
    (!(savWin ctl) || (winOff x % 4096 == 0 && winLen x % 4096 == 0 && winOff x + winLen x ≤ 0x40000))

/-- The value of SAVECNT that marks an exported context (R391). -/
def savecntEnd : Word := 0xFFFFFFFFFFFFFFFF

/-- The cached entry that a SAVEC names. -/
def State.savEntry (s : State) (ctx : Nat) (ctl : Word) : Option CacheEnt :=
  ((s.core (savCore ctl)).cache.get? (savEnt ctl)).filter fun e => e.th.ctx == ctx

/-- No image may be made: the epoch is full, or the counter stands at its end (R379).  Checked at fire, and again at commit, by when
other SAVECs may have committed. -/
def Ctx.saveStops (x : Ctx) (new : Bool) : Bool :=
  (!new && 64 ≤ x.index) || x.savecnt == savecntEnd || (new && x.savecnt == savecntEnd - 1)

/-- KIND of a context's image (R377). -/
def CacheEnt.kind (e : CacheEnt) : Nat := if e.drover then 1 else 0

def execSavec (f : Form) (s : State) : Out :=
  issue (.savec f) s fun is s =>
    let a := is.lw.toNat
    let ctl := is.rw_
    if a % 64 != 0 || field ctl 18 46 != 0 || !(windowOk ctl is.xw) then .next (s.trapAt is .badControlValue)
    else match s.savEntry is.ctx ctl with
      | none => .next (s.trapAt is .badControlValue)
      | some e =>
        if (s.ctx is.ctx).saveStops (savNew ctl) then .next (s.trapAt is .badControlValue)
        else if !e.th.bad.isEmpty || s.windowLost (savCore ctl) (savWindow ctl is.xw) then .next (s.trapAt is .uncorrectableData)
        else
          let s := s.fixWindow (savCore ctl) (savWindow ctl is.xw)
          let recs := s.records (savCore ctl) (savEnt ctl) e (savWindow ctl is.xw) (savRick ctl)
          let n := 64 + recs.length + 16
          match s.checkBytes is.xer is.ctx is.priv a n false true with
          | (s, .error x) => .next (s.accessTrap is x (coverWord a n))
          | (s, .ok ps) =>
            .next (s.emitDue is (.sc (wd n)) (.savec a ctl is.xw e.kind recs (storePieces a (List.replicate n (some 0)) (joinParts ps))))

/-- The 64-byte header (R377). -/
def imageHeader (kind ctx index : Nat) (fwver : BitVec 32) (epoch : Word) (len ivGen count : Nat) : List Byte :=
  [0x49, 0x44, 0x59, 0x43] ++ toBytes 2 1 ++ toBytes 2 kind ++ toBytes 1 ctx ++ toBytes 1 index ++ toBytes 2 0 ++
    toBytes 4 fwver.toNat ++ toBytes 8 epoch.toNat ++ toBytes 8 len ++ toBytes 8 count ++ toBytes 4 ivGen ++
    List.replicate 20 0

/-- The key stream over bytes. -/
def gcmXor (key ivGen count : Nat) (bs : List Byte) : List Byte :=
  bs.zipIdx.map fun (b, i) => b ^^^ Config.gcmKeyStream key ivGen count i

/-- A whole image: header, sealed records, tag. -/
def sealImage (key kind ctx index : Nat) (fwver : BitVec 32) (epoch : Word) (ivGen count : Nat) (recs : List Byte) : List Byte :=
  let h := imageHeader kind ctx index fwver epoch (64 + recs.length + 16) ivGen count
  let body := gcmXor key ivGen count recs
  h ++ body ++ (List.range 16).map fun i => ((Config.gcmTag key ivGen count h body)[i]?).getD 0

/-- SAVEC's commit: NEW raises SAVECNT, the image is stamped, and its writes are the target core's to make. -/
def State.savecCommit (s : State) (c k addr : Nat) (ctl win : Word) (kind : Nat) (recs : List Byte) (ps : List Piece) : State :=
  let ctx := (s.slot c k).th.ctx
  let x := s.ctx ctx
  let x := if savNew ctl then { x with savecnt := x.savecnt + 1, index := 0, used := [], claims := [] } else x
  let (kind, recs) := match s.savEntry ctx ctl with
    | some e =>
      let now := s.records (savCore ctl) (savEnt ctl) e (savWindow ctl win) (savRick ctl)
      if e.kind == kind && now.length == recs.length then (kind, now) else (kind, recs)
    | none => (kind, recs)
  let image := sealImage x.ki kind ctx x.index s.fwver x.savecnt x.ivgen x.sealed recs
  let ps := ps.map fun p => { p with bytes := ((image.drop (p.va - addr)).take p.bytes.length).map some }
  (s.setCtx ctx { x with index := x.index + 1, sealed := x.sealed + 1, seals := x.seals ++ [(x.ivgen, image)] }).addOp c k (.savec ctx (savCore ctl) ps) []

/-- One write of an image: counted in the issuing slot's UCNT, made by the target core's crypto unit (R379). -/
def State.imageWrite (s : State) (c k ctx target : Nat) (p : Piece) : State :=
  let r : Req := { agent := .slot c k, tag := { core := c, slot := k, run := 0, lsn := 0 }, ctx := ctx, kid := p.kid, pa := p.pa,
                   va := p.va, acc := .write p.bytes, counted := true, blockp := coverWord p.va p.bytes.length }
  let q := s.reqPkt r
  (s.modSlot c k fun x => { x with ucnt := x.ucnt + 1 }).post { q with src := coreEnd target }

/-- An image's next write may be made, or the last has been acknowledged. -/
def State.savecDue (s : State) (id : Nat) : Bool :=
  match s.op? id with
  | some o => (match o.kind with
    | .savec _ _ ps => if ps.isEmpty then (s.slot o.core o.slot).ucnt == 0 else (s.slot o.core o.slot).ucnt < 256
    | _ => false)
  | none => false

/-- SAVEC goes on: its writes leave as UCNT has room; it is complete when every one is acknowledged (R422). -/
def execSavecComplete (s : State) : Out :=
  match s.event with
  | some (.savecComplete id) =>
    let s := s.taken
    match s.savecDue id, s.op? id with
    | true, some o => match o.kind with
      | .savec ctx target ps => match ps with
        | [] => .next (s.endOp id)
        | p :: rest =>
          .next ((s.imageWrite o.core o.slot ctx target p).modOp id fun o => { o with kind := .savec ctx target rest })
      | _ => .next s
    | _, _ => .next s
  | _ => .fault .noSubject

/-! ### Reading records (R378) -/

/-- The records of an image as (type, body); `none` when one with MU = 1 is not understood. -/
def parseRecords : Nat → List Byte → Option (List (Nat × List Byte))
  | 0, _ => none
  | n + 1, bs =>
    if bs.isEmpty then some []
    else
      let h := bodyWord bs 0
      let type := field h 48 16
      let len := field h 0 32
      let known := 1 ≤ type && type ≤ 11 && field h 40 8 ≤ 1
      if field h 32 7 != 0 || len % 8 != 0 || bs.length < 8 + len || (h.getLsbD 39 && !known) then none
      else (parseRecords n (bs.drop (8 + len))).map fun rest =>
        if known then (type, (bs.drop 8).take len) :: rest else rest

/-- The body of a record; one that is missing reads as zeros. -/
def recordBody (rs : List (Nat × List Byte)) (type : Nat) : List Byte := ((rs.find? fun r => r.1 == type).map (·.2)).getD []

def vecAt (b : List Byte) (i : Nat) : Vec := vecOf ((List.range 64).map fun j => (b[64 * i + j]?).getD 0)

/-- A bank from four words. -/
def bankFrom (b : List Byte) (i : Nat) : Bank := ⟨bodyWord b i, bodyWord b (i + 1), bodyWord b (i + 2), bodyWord b (i + 3)⟩

/-- The cause of a code. -/
def causeFrom (n : Nat) : Cause :=
  (([.illegalEncoding, .privilege, .softTrap, .nonCanonicalAddress, .pageNotMapped, .badPageEntry, .badPhysicalTarget, .pageRights,
     .holeWrite, .guardRights, .keyMismatch, .uncorrectableData, .mixedShape, .blockAlignment, .misalignedAccess, .misalignedAtomic,
     .atomicTarget, .badDescriptor, .badDepth, .badPath, .badControlValue, .badPolicy, .badFormat, .indexRange, .overlap,
     .lsnConflict, .multipleExit, .multipleWrite, .multipleToken, .sheafStuck, .sheafAddress, .watchTarget, .stwTarget, .watchBusy,
     .badRick, .rickRevoked, .rickEmpty, .staleRick, .evictedRick, .rickSize, .ringOverflow, .matrixThreshold, .droverOnly,
     .stileFault, .runnelBusy, .runnelUnbound, .runnelMode, .runnelEnd, .croftRange, .croftUnmapped, .croftOwnership, .croftPool,
     .noDie, .burrOnly, .flockMember, .flockFull] : List Cause).find? fun c => causeCode c == n).getD .uncorrectableData

/-- A pending trap from TCAUSE and TADDR. -/
def trapFrom (tcause addr : Word) : TrapRec :=
  { cause := causeFrom (field tcause 0 8), dcode := field tcause 8 6,
    lsn := if tcause.getLsbD 19 then some (field tcause 14 5) else none, imp := tcause.getLsbD 20, addr := some addr, blockp := none }

/-- One port of record 6 from its 14 words and what follows; its link words. -/
def portFrom (ws : List Word) : Nat × Port × List Word × List Word :=
  let w := fun (i : Nat) => (ws[i]?).getD 0
  let n := (w 13).toNat
  let mode := rnMode (field (w 0) 4 2)
  let more := (ws.drop 14).take n
  (field (w 0) 0 4,
   { mode := mode, operand := w 1, link := (w 2).toNat, stile := if mode == .nbr then w 3 else 0,
     pat := if mode == .nbr then [] else (List.range 8).map fun i => w (3 + i), priv := (w 0).getLsbD 6, pos := (w 11).toNat,
     buf := if mode == .drain then more.map some else [], credits := (w 12).toNat, stopped := (w 0).getLsbD 7 },
   (if mode == .nbr then more else []), (ws.drop 14).drop n)

def portsFrom : Nat → List Word → List (Nat × Port × List Word)
  | 0, _ => []
  | q + 1, ws =>
    let (n, p, link, rest) := portFrom ws
    (n, p, link) :: portsFrom q rest

/-- A thread from its records.  TSTK and PSTAT are in no record and read as zero. -/
def threadFrom (ctx tid : Nat) (rs : List (Nat × List Byte)) : Thread :=
  let b := recordBody rs
  let st := bodyWord (b 4) 3
  let tstat := bodyWord (b 4) 2
  let full := bodyWord (b 7) 16
  { kind := .rooted
    regs := { g := Vector.ofFn fun i : Fin 32 => bodyWord (b 1) i.val, v := Vector.ofFn fun i : Fin 64 => vecAt (b 2) i.val,
              q := Vector.ofFn fun i : Fin 8 => bodyWord (b 3) (7 + i.val), f := Vector.ofFn fun i : Fin 4 => bodyWord (b 3) (2 + i.val),
              k := bodyWord (b 3) 0, n := bodyWord (b 3) 1, rnd := bodyWord (b 3) 6 }
    memb := (bodyWord (b 4) 0).extractLsb' 0 32, ctx := ctx, wake := (bodyWord (b 4) 1).getLsbD 0
    act := tstat.getLsbD 0, hnd := tstat.getLsbD 1, dbl := tstat.getLsbD 2
    rest := if tstat.getLsbD 2 then .dbl else if st.getLsbD 0 then .parked else if st.getLsbD 1 then .halted
            else if st.getLsbD 2 then .barrier 0 else .none
    release_ := st.getLsbD 3, bank0 := bankFrom (b 5) 0, bank1 := bankFrom (b 5) 4
    imps := (List.range (min (bodyWord (b 5) 8).toNat (b 5).length)).map fun i => trapFrom (bodyWord (b 5) (9 + 2 * i)) (bodyWord (b 5) (10 + 2 * i))
    ports := (portsFrom (min (bodyWord (b 6) 0).toNat 16) ((bodyWords (b 6) 0 ((b 6).length / 8)).drop 1)).foldl
      (fun (m : SMap Port) (n, p, _) => m.put n { p with ctx := ctx }) []
    box0 := { data := vecAt (b 7) 0, full := full.getLsbD 0 }, box1 := { data := vecAt (b 7) 1, full := full.getLsbD 1 }
    tid := tid }

/-- A run of record 8. -/
def runFrom : Nat → List Word → List RunElem
  | 0, _ => []
  | n + 1, ws =>
    let w := fun (i : Nat) => (ws[i]?).getD 0
    { dst := if (w 0).getLsbD 4 then some (w 1).toNat else none, val := toBytes (field (w 0) 0 4) (w 2).toNat, at_ := none } :: runFrom n (ws.drop 3)

/-- Copies of record 8, suspended until the context is resumed. -/
def copiesFrom : Nat → List Word → List Copy
  | 0, _ => []
  | n + 1, ws =>
    let w := fun (i : Nat) => (ws[i]?).getD 0
    let m := fun (i : Nat) => (w i).toNat
    let rest := ws.drop 25
    let lists := rest.drop (3 * m 9 + m 10 + m 11)
    let x : Copy :=
      { tag := m 0, resume := m 2, cause := m 3, faddr := w 4, fblock := w 5, wait := (w 7).getLsbD 1, landing := (w 7).getLsbD 2,
        state := if m 1 == 2 then .suspended else .paused
        desc := { addr := m 6, hdr := (ws.drop 17).take 8, dims := dimsOf (rest.take (3 * m 9)), src := (rest.drop (3 * m 9)).take (m 10),
                  dst := (rest.drop (3 * m 9 + m 10)).take (m 11), priv := (w 7).getLsbD 0, ctx := m 8, group := m 14 }
        chunks := (lists.take (m 12)).map (·.toNat)
        wrote := ((lists.drop (m 12)).take (m 13)).map (·.toNat)
        failed := if m 15 == 0 then none else some (m 15 - 1)
        buf := if m 16 == 0 then none else some (runFrom (m 16 - 1) (lists.drop (m 12 + m 13))) }
    x :: copiesFrom n (lists.drop (m 12 + m 13 + 3 * (m 16 - 1)))

/-- Ricks of record 10: each with the contents of its banks. -/
def ricksFrom (ctx now : Nat) : Nat → List Byte → List (Rick × List (List Byte))
  | 0, _ => []
  | n + 1, bs =>
    let m := fun (i : Nat) => (bodyWord bs i).toNat
    let fl := bodyWord bs 2
    let held := m 4
    let st := match m 1 with | 0 => RkState.empty | 1 => .empty | 2 => .ready | 3 => .stale | 4 => .evicted | _ => .revoked
    let r : Rick := { handle := m 0, ctx := ctx, state := st, pin := fl.getLsbD 0, nbanks := m 3, err := m 5, fmt := m 6, bound := true,
                      src := if fl.getLsbD 1 then some (bodyWords bs 9 4, m 7, m 8, fl.getLsbD 2) else none, used := now }
    (r, (List.range held).map fun j => (bs.drop (104 + 0x8000 * j)).take 0x8000) :: ricksFrom ctx now n (bs.drop (104 + 0x8000 * held))

def rickCount (rs : List (Nat × List Byte)) : Nat := min (bodyWord (recordBody rs 10) 0).toNat 8
def rickList (ctx now : Nat) (rs : List (Nat × List Byte)) : List (Rick × List (List Byte)) :=
  ricksFrom ctx now (rickCount rs) ((recordBody rs 10).drop 8)

/-! ### LOADC (R380) -/

def lodCore (w : Word) : Nat := field w 0 11
def lodEnt (w : Word) : Nat := field w 11 4
def lodWin (w : Word) : Bool := w.getLsbD 15
def lodRick (w : Word) : Bool := w.getLsbD 16

/-- MAGIC, FVER and the reserved fields are right. -/
def headerOk (h : List Byte) : Bool :=
  h.take 4 == [0x49, 0x44, 0x59, 0x43] && ofBytes ((h.drop 4).take 2) == 1 && ofBytes ((h.drop 10).take 2) == 0 &&
    (h.drop 0x2C).all (· == 0)

def headField (h : List Byte) (off n : Nat) : Nat := ofBytes ((h.drop off).take n)

/-- The entry is busy: it holds a context, or another LOADC is to fill it. -/
def State.entBusy (s : State) (fl : Flight) (ctl : Word) : Bool :=
  ((s.core (lodCore ctl)).cache.get? (lodEnt ctl)).isSome ||
    s.ops.any (fun o => match o.kind with | .loadc _ w _ _ => lodCore w == lodCore ctl && lodEnt w == lodEnt ctl | _ => false) ||
    fl.due.any fun d => match d.act with | .loadc w _ _ _ _ => lodCore w == lodCore ctl && lodEnt w == lodEnt ctl | _ => false

/-- The ricks of an image find their table entries and banks. -/
def State.ricksFit (s : State) (copse ctx : Nat) (rs : List (Rick × List (List Byte))) : Bool :=
  let x := s.copse copse
  let n := rs.foldl (fun a r => a + r.2.length) 0
  rs.all (fun r => let y := x.rick (r.1.handle % 8); y.state == .revoked && y.banks.isEmpty && (x.rsv.get? (r.1.handle % 8)).isNone) &&
    n + x.heldBy ctx ≤ bankQuota (s.ctx ctx) && n ≤ x.openBanks.length

/-- An image's tag passes (R377, R380): of an IVGEN under which images have been sealed here, that of an image sealed here and unaltered;
of one of another device's, the tag of GCM under KI (DESIGN CHOICE, log 8). -/
def Ctx.genuine (x : Ctx) (gen count : Nat) (image : List Byte) : Bool :=
  if gen == x.ivgen || x.seals.any fun p => p.1 == gen then x.seals.any fun p => p.1 == gen && p.2 == image
  else
    let body := (image.drop 64).take (image.length - 80)
    image.drop (image.length - 16) == (List.range 16).map fun i => ((Config.gcmTag x.ki gen count (image.take 64) body)[i]?).getD 0

/-- What LOADC finds in an image, in the order of its status codes: a status, or the kind, index and records. -/
def State.loadcCheck (s : State) (is : Iss) (ctl : Word) (image : List Byte) : Nat × Nat × Nat × List Byte :=
  let no := fun (st : Nat) => (st, 0, 0, ([] : List Byte))
  let h := image.take 64
  let x := s.ctx is.ctx
  let index := headField h 9 1
  let body := (image.drop 64).take (image.length - 80)
  let count := headField h 0x20 8
  let gen := headField h 0x28 4
  if !(headerOk h) then no 4
  else if headField h 8 1 != is.ctx then no 5
  else if headField h 0x10 8 != x.savecnt.toNat || x.savecnt == savecntEnd then no 1
  else if image.length < 80 || !(x.genuine gen count image) then no 2
  else if x.used.contains index || x.claims.any (fun p => p.1 == index) then no 3
  else
    let recs := gcmXor x.ki gen count body
    match parseRecords (recs.length + 1) recs with
    | none => no 4
    | some rs =>
      if s.entBusy is.fl ctl || (lodRick ctl && !(s.ricksFit (lodCore ctl / 8) is.ctx (rickList is.ctx s.now rs))) then no 6
      else (0, headField h 6 2, index, recs)

/-- Read the header, then the whole image; one whose header is no image's is read no further. -/
def State.readImage (s : State) (is : Iss) (a : Nat) : State × Except TrapRec (List Byte) :=
  match s.readVa is.xer is.agent is.ctx is.priv a 64 (coverWord a 64) with
  | (s, .error r) => (s, .error r)
  | (s, .ok h) =>
    let n := headField h 0x18 8
    if !(headerOk h) || n ≤ 64 then (s, .ok h)
    else if 2 ^ 56 < a + n then (s, .error { cause := .nonCanonicalAddress, addr := some (blockWord 4 (a + n - 1)), blockp := some (coverWord a n) })
    else s.readVa is.xer is.agent is.ctx is.priv a n (coverWord a n)

/-- DEDUCED, log 84. -/
def execLoadc (f : Form) (s : State) : Out :=
  issue (.loadc f) s fun is s =>
    let ctl := is.rw_
    if field ctl 17 47 != 0 || is.lw.toNat % 64 != 0 || !(s.hosts (lodCore ctl) is.ctx) then .next (s.trapAt is .badControlValue)
    else match s.readImage is is.lw.toNat with
      | (s, .error r) => .next (s.recTrap is r)
      | (s, .ok image) =>
        let (st, kind, index, recs) := s.loadcCheck is ctl image
        if st != 0 then .next (s.emit is (.sc (wd st)))
        else
          let s := s.modCtx is.ctx fun x => { x with claims := x.claims ++ [(index, is.c, is.k)] }
          .next (s.emitDue is (.sc 0) (.loadc ctl index kind (s.ctx is.ctx).savecnt recs))

/-- LOADC's commit: INDEX is restored in the image's epoch, which a SAVEC with NEW may have ended since the fire, and the installation
begins. -/
def State.loadcCommit (s : State) (c k : Nat) (ctl : Word) (index kind : Nat) (epoch : Word) (recs : List Byte) : State :=
  let ctx := (s.slot c k).th.ctx
  let s := s.modCtx ctx fun x => { x with used := if x.savecnt == epoch then index :: x.used else x.used, claims := x.claims.filter fun p => p != (index, c, k) }
  s.addOp c k (.loadc ctx ctl kind recs) []

/-- The window's bytes, written with fresh check bits (R74), and the image's watches in it; a word that is watched already keeps its owner, and the entry's
WAKE is set instead. -/
def State.installWindow (s : State) (c ent : Nat) (b : List Byte) : State × Bool :=
  let off := (bodyWord b 0).toNat % 0x40000
  let len := min (bodyWord b 1).toNat (0x40000 - off)
  let s := (List.range ((len + 127) / 128)).foldl (fun s i =>
    let pa := scratchBase c + off + 128 * i
    (s.putHome pa ((((b.drop 16).take len).drop (128 * i)).take 128 |>.map some)).applyMarks (s.rickHits (pa / 128))) s
  let own := (List.range (len / 8)).filter fun i => ((b[16 + len + i]?).getD 0).getLsbD 7
  own.foldl (fun (s, wake) i =>
    let w := off / 8 + i
    if ((s.core c).watch.get? w).isSome then (s, true)
    else (s.modCore c fun k => { k with watch := k.watch.put w (entOwner ent) }, wake)) (s, false)

/-- One rick: its table entry, its banks, and the tracking of its source again. -/
def State.installRick (s : State) (copse : Nat) (r : Rick) (banks : List (List Byte)) : State :=
  let e := r.handle % 8
  let x := s.copse copse
  let bs := x.openBanks.take banks.length
  let x := (x.takeBanks r.handle bs).setRick e { r with banks := bs }
  let x := (bs.zip banks).foldl (fun (x : Copse) (b, bytes) =>
    { x.writeBank b bytes with banks := x.banks.setIfInBounds b (.held r.handle none) }) x
  let s := s.setCopse copse { x with usedEntry := if x.usedEntry.contains e then x.usedEntry else e :: x.usedEntry }
  match r.state, r.src with
  | .ready, some (ws, p, k, priv) => match s.fillOpen copse r.ctx r.handle ws p k priv with
    | (s, .ok _) => s
    | (s, .error _) => s.modCopse copse fun x => x.modRick e fun r => { r with state := .stale }
  | _, _ => s

/-- The whole context is installed in its entry (R380). -/
def State.install (s : State) (ctx : Nat) (ctl : Word) (kind : Nat) (recs : List Byte) : State :=
  let c := lodCore ctl
  let ent := lodEnt ctl
  let rs := (parseRecords (recs.length + 1) recs).getD []
  let t := threadFrom ctx (s.nextId + 1) rs
  let b8 := recordBody rs 8
  let copies := copiesFrom (min (bodyWord b8 4).toNat 64) ((bodyWords b8 0 (b8.length / 8)).drop 5)
  let links := portsFrom (min (bodyWord (recordBody rs 6) 0).toNat 16)
    ((bodyWords (recordBody rs 6) 0 ((recordBody rs 6).length / 8)).drop 1)
  let s := { s with nextId := s.nextId + 1 }
  let (s, wake) := if lodWin ctl && rs.any (fun r => r.1 == 9) then s.installWindow c ent (recordBody rs 9) else (s, false)
  let e : CacheEnt := { th := { t with wake := t.wake || wake }, drover := kind == 1, used := s.now, drvcfg := bodyWord b8 0,
                        ctagf := bodyWord b8 1, ctagl := bodyWord b8 2, ctage := bodyWord b8 3,
                        copies := if kind == 1 then copies else [], imaged := true }
  let s := s.modCore c fun k =>
    { k with cache := k.cache.put ent e,
             links := links.foldl (fun l (_, p, ws) =>
               if p.mode == .nbr then l.filter (fun y => !(y.1 == p.link && y.2.1 == stileCore p.stile)) ++ ws.map fun w => (p.link, stileCore p.stile, 0, w)
               else l) k.links }
  if lodRick ctl then (rickList ctx s.now rs).foldl (fun s (r, banks) => s.installRick (c / 8) r banks) s else s

def execLoadcComplete (s : State) : Out :=
  match s.event with
  | some (.loadcComplete id) =>
    let s := s.taken
    match s.op? id with
    | some o => match o.kind with
      | .loadc ctx ctl kind recs => .next ((s.install ctx ctl kind recs).endOp id)
      | _ => .next s
    | none => .next s
  | _ => .fault .noSubject

end Sys2Proof.Machine
end

