-- ==== Sys2Proof/Machine/Sched.lean ====
section
/-!
DEFINITION. Task packets from die queues to cores (R179 to R187): entry, release, aging, the walk, returns, spills, idle
summaries and stealing.
-/
namespace Sys2Proof.Machine
open Sys2Proof

/-! ### Ways (R83, R84, R101) -/

/-- The waypoint that a node's table gives a packet's destination. -/
def State.waypoint (s : State) (node dest : Nat) : Option Nat :=
  let e := s.nroute.get (16 * node + dieOf (copseAt dest)) 0
  if e.getLsbD 8 then some (nbits e.toNat 4 4 * 16 + nbits e.toNat 0 4) else none

/-- The next node towards a goal, and the ring input there (R83). -/
def hopTo (node goal : Nat) : Option (Nat × Nat) :=
  if node % 16 != goal % 16 then
    let (c, up) := ringNext (node % 16) (goal % 16)
    some (16 * (node / 16) + c, if up then 0 else 1)
  else if node / 16 != goal / 16 then
    let (r, up) := ringNext (node / 16) (goal / 16)
    some (16 * r + node % 16, if up then 2 else 3)
  else none

/-- The link into a node at an input, as LINK_DOWN numbers it. DEDUCED, log 92. -/
def linkInto (node input : Nat) : Nat := 8 * node + input

/-! ### Buffers (R85, R86) -/

/-- Some packet of the device travels by a waypoint (R101). -/
def State.waypoints (s : State) : Bool := s.nroute.any fun e => e.2.getLsbD 8

/-- Reserved buffers of a class on a network at one input. -/
def reservedBufs (msg : Bool) (cls : Nat) : Nat :=
  if msg then (if cls == 2 || cls == 3 then 3 else if cls == 4 then 2 else 0)
  else if cls ≤ 1 then 4 else if cls == 4 then 2 else 0

/-- Shared buffers at one input; with waypoints each phase has reserved ones of its own. -/
def State.sharedBufs (s : State) (msg : Bool) : Nat :=
  if s.waypoints then (if msg then 0 else 4) else if msg then 8 else 14

/-- Buffers of an input that walking task packets hold: packets of the message network and class (R81, R174). -/
def State.walkBufs (s : State) (p : Pkt) (node input : Nat) (held : Walk → Bool) : Nat :=
  s.walks.countP fun w => p.msg && w.node == node && w.input == input && held w

/-- Reserved buffers of the class that a packet may take and others have not. -/
def State.reservedFree (s : State) (p : Pkt) (node input phase : Nat) : Nat :=
  reservedBufs p.msg p.cls - ((s.flits.countP fun f =>
    f.node == node && f.input == input && f.pkt.msg == p.msg && f.pkt.cls == p.cls && f.resv &&
      (!s.waypoints || f.phase == phase)) + s.walkBufs p node input fun w => p.cls == 2 && w.resv && (!s.waypoints || w.phase == phase))

/-- available(c) at an input (R86). DEDUCED, log 85. -/
def State.available (s : State) (p : Pkt) (node input phase : Nat) : Nat :=
  s.reservedFree p node input phase +
    (s.sharedBufs p.msg - ((s.flits.countP fun f => f.node == node && f.input == input && f.pkt.msg == p.msg && !f.resv) +
      s.walkBufs p node input fun w => !w.resv))

/-- The hop distance between two nodes, by the tables in force (R84). -/
def State.hops (s : State) (node dest : Nat) : Nat :=
  match s.waypoint node dest with
  | some w => hopDist node w + hopDist w dest
  | none => hopDist node dest

/-! ### Where packets go (R179) -/

/-- The scheduler of a die on the message network: endpoint 14 at the node of its copse 0. -/
def schedEnd (die : Nat) : Nat × Nat := (nodeOf (16 * die), epMgmt)

/-- The die of a hint. -/
def TaskHint (p : TaskPkt) : Nat := 16 * p.hrow + p.hcol
def hintDie (p : TaskPkt) : Nat := dieOf (copseAt (TaskHint p))

/-- The die of a list with the fewest queued packets, the lowest on a tie. -/
def State.shortest (s : State) (ds : List Nat) : Option Nat :=
  let len := fun (d : Nat) => (s.die d).queue.length + (s.die d).spill.length
  ds.foldl (fun best d => match best with
    | none => some d
    | some b => if len d < len b then some d else best) none

/-- The die queue that a packet is sent to; `own` is the spawning die. -/
def State.chooseDie (s : State) (p : TaskPkt) (own : Option Nat) : Option Nat :=
  let allowed := s.allowedDies p.daff
  if p.hv && allowed.contains (hintDie p) then some (hintDie p)
  else match own with
    | some d => if allowed.contains d then some d else s.shortest allowed
    | none => s.shortest allowed

/-- A task packet on its way to its die queue. -/
def State.taskSend (s : State) (src : Nat × Nat) (p : TaskPkt) (own : Option Nat) : Option Pkt :=
  (s.chooseDie p own).map fun d =>
    { msg := true, cls := 2, src := src, dst := schedEnd d, ctx := p.ctx, deliver := .dieQueueEnter d p }

/-! ### Die queues (R180 to R182) -/

def maxClsOf (w : Word) : Nat := field w 12 3
def maxCls (x : Ctx) : Nat := maxClsOf x.csched
def quotaIn (w : Word) : Nat := if field w 0 12 == 0 then 4096 else field w 0 12
def quotaOf (x : Ctx) : Nat := quotaIn x.csched

/-- Packets the spill region holds. -/
def Die.spillCap (d : Die) : Nat := 64 * field d.dsqcfg 56 8

/-- Packets that the scheduler still takes. -/
def Die.room (d : Die) : Nat := (if d.spill.isEmpty then 4096 - d.queue.length else 0) + (d.spillCap - d.spill.length)

/-- The scheduler takes another packet. -/
def Die.takes (d : Die) : Bool := d.room != 0

/-- Packets that have reached a die's scheduler and join its queue or spill next. -/
def State.arrivingDie (s : State) (d : Nat) : Nat :=
  s.pending.countP fun e => match e with | .dieQueueEnter x _ => x == d | .stealDonation x _ => x == d | _ => false

/-- A scheduler has room for one more packet beside those that have reached it (R180). -/
def State.dieRoom (s : State) (d : Nat) : Bool := s.arrivingDie d < (s.die d).room

/-- A packet joins the queue, or the spill once anything is spilled. -/
def Die.join (d : Die) (e : DieEnt) : Die :=
  if d.spill.isEmpty && d.queue.length < 4096 then { d with queue := d.queue ++ [e] }
  else { d with spill := d.spill ++ [e], spilled := d.spilled + 1 }

/-- A packet joins a die's queue; a spilled one is written to the next of the region's places of 64 bytes (R180).  The order of the
places, and the context's key id that seals it, are the model's (DESIGN CHOICE, log 123). -/
def State.joinDie (s : State) (die : Nat) (e : DieEnt) : State :=
  let d := s.die die
  let s := s.setDie die (d.join e)
  if d.spill.isEmpty && d.queue.length < 4096 then s
  else s.putSealed e.pkt.ctx (field d.dsqcfg 12 44 * 4096 + 64 * (d.spilled % d.spillCap)) ((taskWords e.pkt).flatMap fun w => toBytes 8 w.toNat)

/-- spill-full goes to the supervisors of the contexts that wait, once for each filling (R180). -/
def State.noteDie (s : State) (die : Nat) : State :=
  let d := s.die die
  match d.takes, d.fullSent with
  | false, false =>
    let ctxs := ((d.queue ++ d.spill).map fun e => e.pkt.ctx).eraseDups
    ctxs.foldl (fun s ctx => s.supvMsg (schedEnd die) ctx 6 none none none none none none)
      (s.modDie die fun d => { d with fullSent := true })
  | true, true => s.modDie die fun d => { d with fullSent := false }
  | _, _ => s

/-- A packet as it enters a die queue, for the first time or again: its class clamped to MAXCLS (R181), its wait clock from
its first entry, and the rises it has had (R182); the limits are those of this entry (R384). -/
def State.entering (s : State) (p : TaskPkt) : DieEnt :=
  let x := s.ctx p.ctx
  let since := p.since.getD s.clock
  { pkt := { p with cls := min p.cls (maxCls x), since := some since }, since := since, aged := p.aged, quota := quotaOf x,
    cap := maxCls x }

/-- A packet as it leaves a die queue: its wait clock runs on. -/
def DieEnt.leaving (e : DieEnt) : TaskPkt := { e.pkt with since := some e.since, aged := e.aged }

/-- CSCHED changes: raised limits hold for the packets already queued, lower ones for those that enter next (R384). -/
def State.setCsched (s : State) (ctx : Nat) (v : Word) : State :=
  let raise := fun (e : DieEnt) =>
    if e.pkt.ctx == ctx then { e with quota := max e.quota (quotaIn v), cap := max e.cap (maxClsOf v) } else e
  { s.modCtx ctx fun x => { x with csched := v } with
    dies := s.dies.map fun (n, d) => (n, { d with queue := d.queue.map raise, spill := d.spill.map raise }) }

def execDieQueueEnter (s : State) : Out :=
  match s.event with
  | some (.dieQueueEnter die p) =>
    let s := s.taken
    .next ((s.joinDie die (s.entering p)).noteDie die)
  | _ => .fault .noSubject

def execDieSpillReload (s : State) : Out :=
  match s.event with
  | some (.dieSpillReload die) =>
    let s := s.taken
    let d := s.die die
    match d.spill with
    | e :: rest =>
      if d.queue.length < 4096 then .next ((s.setDie die { d with queue := d.queue ++ [e], spill := rest }).noteDie die)
      else .next s
    | [] => .next s
  | _ => .fault .noSubject

/-- Every 2^16 clocks of wait raise a packet's class by one, up to MAXCLS. -/
def State.ageDue (s : State) (e : DieEnt) : Bool := e.aged < (s.clock - e.since) / 65536

def DieEnt.age (e : DieEnt) : DieEnt :=
  { e with aged := e.aged + 1, pkt := { e.pkt with cls := min (e.pkt.cls + 1) (max e.pkt.cls e.cap) } }

def execClassAging (s : State) : Out :=
  match s.event with
  | some (.classAging die i) =>
    let s := s.taken
    match (s.die die).queue[i]? with
    | some e => if s.ageDue e then .next (s.modDie die fun d => { d with queue := setAt d.queue i e.age }) else .next s
    | none => .next s
  | _ => .fault .noSubject

/-! ### The idle summary (R183) -/

/-- Open channels of a core. -/
def Core.openChans (k : Core) : List Nat := (List.range 64).filter k.chanOpen

/-- Cores of a die with a free program slot: copse, core, context, open channels. -/
def State.summaryOf (s : State) (die : Nat) : List (Nat × Nat × Nat × List Nat) :=
  s.cores.filterMap fun (c, k) =>
    if c / 128 == die && !k.freeSlots.isEmpty then k.ctx.map fun x => (c / 8, c, x, k.openChans) else none

/-- A packet is no longer held off. -/
def DieEnt.free (e : DieEnt) : DieEnt := { e with hold := none }

def execIdleSummaryUpdate (s : State) : Out :=
  match s.event with
  | some (.idleSummaryUpdate die) =>
    let s := s.taken
    let now := s.summaryOf die
    if now == (s.die die).summary then .next s
    else .next (s.modDie die fun d => { d with summary := now, queue := d.queue.map DieEnt.free, spill := d.spill.map DieEnt.free })
  | _ => .fault .noSubject

/-- The suitable core for a packet without a hint: of the lowest copse, its lowest core. -/
def Die.suitable (d : Die) (p : TaskPkt) : Option Nat :=
  let ok := d.summary.filter fun e => e.2.2.1 == p.ctx && e.2.2.2.contains p.chan
  ok.foldl (fun best e => match best with
    | none => some e.2.1
    | some b => if e.2.1 < b then some e.2.1 else best) none

/-! ### Release (R182, R183) -/

/-- Packets of a queue within their contexts' quotas, with their places, in arrival order (R181, R384). -/
def inQuota (q : List DieEnt) : List (Nat × DieEnt) :=
  (q.zipIdx.filter fun (e, i) => (q.take i).countP (fun x => x.pkt.ctx == e.pkt.ctx) < e.quota).map
    fun (e, i) => (i, e)

/-- Packets eligible for release.  One that is held off after a return counts as eligible, for idleness and donations too
(DESIGN CHOICE, log 128). -/
def State.eligible (s : State) (die : Nat) : List (Nat × DieEnt) := inQuota (s.die die).queue

/-- A packet may be released now: its hold-off is over, and without a hint a suitable core is known. -/
def Die.ready (d : Die) (e : DieEnt) : Bool := e.hold.isNone && (e.pkt.hv || (d.suitable e.pkt).isSome)

/-- The oldest of some packets. -/
def oldest (l : List (Nat × DieEnt)) : Option (Nat × DieEnt) :=
  l.foldl (fun best x => match best with
    | none => some x
    | some b => if x.2.since < b.2.since then some x else best) none

/-- The first context after `last`, in round robin by id, among some packets. -/
def nextCtx (last : Nat) (l : List (Nat × DieEnt)) : Nat :=
  (((List.range 64).map fun i => (last + 1 + i) % 64).find? fun c => l.any fun e => e.2.pkt.ctx == c).getD 0

/-- The packet that a scheduler releases: highest class, then round robin over contexts, then the oldest. -/
def State.releasePick (s : State) (die : Nat) : Option (Nat × DieEnt) :=
  let d := s.die die
  let l := (s.eligible die).filter fun e => d.ready e.2
  match l with
  | [] => none
  | _ =>
    let top := l.foldl (fun m e => max m e.2.pkt.cls) 0
    let l := l.filter fun e => e.2.pkt.cls == top
    let c := nextCtx (d.rr.get top 63) l
    oldest (l.filter fun e => e.2.pkt.ctx == c)

/-- A task packet as it walks: of the message network and class (R174). -/
def taskPkt (die : Nat) (p : TaskPkt) : Pkt := { msg := true, cls := 2, ctx := p.ctx, deliver := .dieQueueEnter die p }

/-- A release may happen: four clocks after the last one, with a buffer of the scheduler's local port free (R85, R182). -/
def State.mayRelease (s : State) (die : Nat) : Bool :=
  (match (s.die die).lastRelease with
   | some t => t + 4 ≤ s.clock
   | none => true) && (match s.releasePick die with
   | some (_, e) => s.available (taskPkt die e.pkt) (nodeOf (16 * die)) 4 0 != 0
   | none => false)

/-- A packet without a hint takes the suitable core as its hint, with RAD read as 0. -/
def Die.aim (d : Die) (p : TaskPkt) : TaskPkt :=
  if p.hv then p
  else
    let c := (d.suitable p).getD 0
    let n := nodeOf (c / 8)
    { p with hrow := n / 16, hcol := n % 16, hcore := c % 8 }

def execTaskRelease (s : State) : Out :=
  match s.event with
  | some (.taskRelease die) =>
    let s := s.taken
    match s.mayRelease die, s.releasePick die with
    | true, some (i, e) =>
      let d := s.die die
      let resv := s.reservedFree (taskPkt die e.pkt) (nodeOf (16 * die)) 4 0 != 0
      let w : Walk := { ent := { e with pkt := d.aim e.pkt }, home := die, node := nodeOf (16 * die), id := s.nextId, resv := resv, since := s.now }
      .next { (s.setDie die { d with queue := dropAt d.queue i, lastRelease := some s.clock,
                                     rr := d.rr.put e.pkt.cls e.pkt.ctx }).noteDie die with
              walks := s.walks ++ [w], nextId := s.nextId + 1 }
    | _, _ => .next s
  | _ => .fault .noSubject

/-! ### The walk (R184, R185) -/

def State.walk? (s : State) (id : Nat) : Option Walk := s.walks.find? fun w => w.id == id
def State.endWalk (s : State) (id : Nat) : State := { s with walks := s.walks.filter fun w => w.id != id }

/-- A core takes an offered packet; it has room for it (R167). -/
def State.takesTask (s : State) (c : Nat) (p : TaskPkt) : Bool :=
  let k := s.core c
  s.hosts c p.ctx && s.coreRoom c false && k.chanOpen p.chan && !k.freeSlots.isEmpty && (k.aq ++ k.spill).all fun e => !(k.chanOpen e.chan)

/-- The cores of a node, lowest first. -/
def nodeCores (node : Nat) : List Nat := (List.range 8).map fun i => 8 * copseAt node + i

/-- Nodes whose hop distance to the hint is within the capture radius make offers. -/
def State.offers (s : State) (p : TaskPkt) (node : Nat) : Bool :=
  node == TaskHint p || s.hops node (TaskHint p) ≤ if p.hv then p.rad else 0

def taskEntry (p : TaskPkt) : Entry := { ctx := p.ctx, chan := p.chan, body := .task p }

/-- The core of its node that takes a walking packet. -/
def State.taker (s : State) (w : Walk) : Option Nat :=
  if s.offers w.ent.pkt w.node then (nodeCores w.node).find? fun c => s.takesTask c w.ent.pkt else none

/-- A packet that reached the node before and is offered to some core there: it is served first (R184). -/
def State.walksBehind (s : State) (w : Walk) : Bool :=
  s.walks.any fun v => v.id != w.id && v.node == w.node && v.since < w.since && (s.taker v).isSome

/-- A walk's next node, input and phase: in phase 0 towards the scheduler's waypoint for the hint, if it has one, and from there in
phase 1 (R83, R101). -/
def State.walkNext (s : State) (w : Walk) : Option (Nat × Nat × Nat) :=
  let hint := TaskHint w.ent.pkt
  let goal := if w.phase == 0 then (s.waypoint (nodeOf (16 * w.home)) hint).getD hint else hint
  match hopTo w.node goal with
  | some (n, i) => some (n, i, w.phase)
  | none => (hopTo w.node hint).map fun (n, i) => (n, i, 1)

/-- A walk's next hop, when it has the permits it needs, as any packet of its class, and the link is up (R86, R103). -/
def State.walkHop (s : State) (w : Walk) : Option (Nat × Nat × Nat) :=
  (s.walkNext w).filter fun (n, i, ph) =>
    (if i == w.input && ph == w.phase then 1 else 2) ≤ s.available (taskPkt w.home w.ent.pkt) n i ph && !(s.linkDead.contains (linkInto n i))

/-- A walk has something to do where it stands: a core takes it, it has come to its hint node, or it may go on. -/
def State.walkDue (s : State) (w : Walk) : Bool :=
  !(s.walksBehind w) && ((s.taker w).isSome || w.node == TaskHint w.ent.pkt || (s.walkHop w).isSome)

/-- A walk takes a hop and a buffer at the next input. -/
def State.walkOn (s : State) (w : Walk) (n i ph : Nat) : State :=
  let resv := s.reservedFree (taskPkt w.home w.ent.pkt) n i ph != 0
  { s with walks := s.walks.map fun x =>
      if x.id == w.id then { x with node := n, input := i, phase := ph, resv := resv, since := s.now } else x }

/-- DEDUCED, log 72. -/
def execTaskOffer (s : State) : Out :=
  match s.event with
  | some (.taskOffer id) =>
    let s := s.taken
    match s.walk? id with
    | none => .next s
    | some w =>
      if s.walksBehind w then .next s
      else match s.taker w with
        | some c => .next ((s.enqueue c (taskEntry w.ent.pkt)).endWalk id)
        | none =>
          if w.node == TaskHint w.ent.pkt then .next (s.due (.taskHintArrival id))
          else match s.walkHop w with
            | some (n, i, ph) => .next (s.walkOn w n i ph)
            | none => .next s
  | _ => .fault .noSubject

/-- FLK0 of an entry. -/
def entryFlk0 (e : Entry) : Nat :=
  match e.body with
  | .task p => flk p.memb 0
  | .burr b => flk b.memb 0
  | _ => 0

/-- The flock's spawn limit lets the packet join (R185). -/
def State.underLimit (s : State) (c : Nat) (p : TaskPkt) : Bool :=
  let f := flk p.memb 0
  let lim := ((s.ctx p.ctx).fspl.get f 0).toNat
  let k := s.core c
  f == 0 || lim == 0 || (k.aq ++ k.spill).countP (fun e => entryFlk0 e == f) < lim

/-- A packet returns to the die queue that released it, held off for 1,024 clocks; it joins the spill even beyond SIZE
(DESIGN CHOICE, log 126). -/
def State.returnTask (s : State) (w : Walk) : State :=
  (s.joinDie w.home { s.entering w.ent.leaving with hold := some (s.clock + 1024) }).noteDie w.home

/-- A packet reaches its hint node.  While its core has no room it stands at the node, and is offered to the node's cores again
(DESIGN CHOICE, log 127). -/
def execTaskHintArrival (s : State) : Out :=
  match s.event with
  | some (.taskHintArrival id) =>
    let s := s.taken
    match s.walk? id with
    | none => .next s
    | some w =>
      let p := w.ent.pkt
      let c := 8 * copseAt (TaskHint p) + p.hcore
      let k := s.core c
      if !(s.hosts c p.ctx) then .next ((s.misroute c (taskEntry p)).endWalk id)
      else if !((k.tchan.get p.chan 0).getLsbD 63) || !(s.underLimit c p) then .next ((s.returnTask w).endWalk id)
      else if s.coreRoom c false then .next ((s.enqueue c (taskEntry p)).endWalk id)
      else .next s
  | _ => .fault .noSubject

/-- A hold-off has run out. -/
def State.holdOver (s : State) (e : DieEnt) : Bool :=
  match e.hold with
  | some t => t ≤ s.clock
  | none => false

def execReturnHoldoff (s : State) : Out :=
  match s.event with
  | some (.returnHoldoff die i) =>
    let s := s.taken
    match (s.die die).queue[i]? with
    | some e =>
      if s.holdOver e then .next (s.modDie die fun d => { d with queue := setAt d.queue i { e with hold := none } })
      else .next s
    | none => .next s
  | _ => .fault .noSubject

/-! ### Stealing (R186) -/

/-- Row and column of a die in the grid. -/
def dieRow (d : Nat) : Nat := nbits d 1 1 + 2 * nbits d 3 1
def dieCol (d : Nat) : Nat := nbits d 0 1 + 2 * nbits d 2 1

/-- Two dies are adjacent. -/
def diesAdjacent (a b : Nat) : Bool :=
  let r := (dieRow a - dieRow b) + (dieRow b - dieRow a)
  let c := (dieCol a - dieCol b) + (dieCol b - dieCol a)
  r + c == 1

/-- Free program slots of a die's cores that belong to some context. -/
def State.freeOnDie (s : State) (die : Nat) : Nat :=
  s.cores.foldl (fun n (c, k) => if c / 128 == die && k.ctx.isSome then n + k.freeSlots.length else n) 0

/-- A die is idle. -/
def State.dieIdle (s : State) (die : Nat) : Bool := (s.eligible die).isEmpty && 16 ≤ s.freeOnDie die

/-- A thief may ask a donor. -/
def State.maySteal (s : State) (thief donor : Nat) : Bool :=
  s.dieLive thief && s.dieLive donor && diesAdjacent thief donor && s.dieIdle thief &&
    (match (s.die thief).steals.get? donor with
     | some t => t + 4096 ≤ s.clock
     | none => true)

/-- Insert by the clock of first entry. -/
def insertOld (e : Nat × DieEnt) : List (Nat × DieEnt) → List (Nat × DieEnt)
  | [] => [e]
  | x :: rest => if e.2.since ≤ x.2.since then e :: x :: rest else x :: insertOld e rest

/-- What a donor gives: half of its lowest class's eligible packets, oldest first, skipping those the thief may not
hold. -/
def State.donation (s : State) (thief donor : Nat) : List (Nat × DieEnt) :=
  match (s.die donor).queue with
  | [] => []
  | e :: rest =>
    let low := rest.foldl (fun m x => min m x.pkt.cls) e.pkt.cls
    let l := (s.eligible donor).filter fun x => x.2.pkt.cls == low
    let l' := l.filter fun x => daffAllows x.2.pkt.daff thief
    (l'.foldr insertOld []).take (l.length / 2)

/-- Packets leave a donor for a thief, each as a packet of its own (R186). -/
def State.donate (s : State) (thief donor : Nat) : State :=
  let give := s.donation thief donor
  let s := s.modDie donor fun d => { d with queue := (d.queue.zipIdx.filter fun (_, i) => !(give.any fun x => x.1 == i)).map (·.1) }
  (give.foldl (fun s x => s.post { msg := true, cls := 2, src := schedEnd donor, dst := schedEnd thief, ctx := x.2.pkt.ctx,
                                   deliver := .stealDonation thief x.2.leaving }) s).noteDie donor

/-- A thief's request leaves, or reaches its donor (R81, R186). -/
def execStealRequest (s : State) : Out :=
  match s.event with
  | some (.stealRequest thief donor false) =>
    let s := s.taken
    if s.maySteal thief donor then
      .next ((s.modDie thief fun d => { d with steals := d.steals.put donor s.clock }).post
        { msg := true, cls := 2, src := schedEnd thief, dst := schedEnd donor, deliver := .stealRequest thief donor true })
    else .next s
  | some (.stealRequest thief donor true) => .next (s.taken.donate thief donor)
  | _ => .fault .noSubject

def execStealDonation (s : State) : Out :=
  match s.event with
  | some (.stealDonation thief p) =>
    let s := s.taken
    .next ((s.joinDie thief (s.entering p)).noteDie thief)
  | _ => .fault .noSubject

end Sys2Proof.Machine
end

