-- ==== Sys2Proof/Machine/Commit.lean ====
section
/-!
DEFINITION. When a sheaf commits, waits or is stuck (R160), and its commit in one step (R161 and the rules of each
instruction).
-/
namespace Sys2Proof.Machine
open Sys2Proof

/-! ### Waiting on something outside the sheaf (R160) -/

/-- The instruction at a position as its issue would see it, when it holds its tokens. -/
def State.seen (s : State) (c k pos : Nat) : Option (Instr × Iss) :=
  match (s.flight c k).bind fun fl => fl.sheaf.insts[pos]? with
  | some i => ({ s with turn := { core := c, slot := k, pos := pos } }.issuer i).map fun is => (i, is)
  | none => none

/-- The condition outside the sheaf that keeps an instruction from being ready. -/
def outsideWaits (i : Instr) (is : Iss) (s : State) : Bool :=
  match i with
  | .read f => isRunnel f && rnreadWaits is s
  | .fence _ => fenceWaits is s
  | .xfence _ => xfenceWaits is s
  | .mbxw _ => mbxwWaits is s
  | .mbxr _ => mbxrWaits is s
  | .waitany _ => waitanyWaits is s
  | .waitall _ => waitallWaits is s
  | .ffr _ => ffrWaits is s
  | .rnunbind _ => rnunbindWaits is s
  | .waitmsg _ => waitmsgWaits is s
  | .msgpop _ => msgpopWaits is s
  | .spawnb _ => spawnbWaits is s
  | .qld f => elemModeOf f && tensorWaits is s
  | .qst f => elemModeOf f && tensorWaits is s
  | .gath _ => tensorWaits is s
  | .mtail _ => mtailWaits is s
  | .copy _ => copyWaits is s
  | .rnbind _ => rnbindWaits is s
  | .rkfill _ => rkfillWaits is s
  | _ => false

/-- An instruction holds all its tokens and waits on something outside its sheaf. -/
def State.awaits (s : State) (c k pos : Nat) : Bool :=
  match s.seen c k pos with
  | some (i, is) => !is.anyNull && outsideWaits i is s
  | none => false

/-- An instruction is ready to issue (R157): it holds its tokens, no earlier ordered event holds it back, and it waits on
nothing outside. -/
def State.mayIssue (s : State) (c k pos : Nat) : Bool :=
  match s.flight c k with
  | some fl => fl.ready pos && !(fl.heldBack (s.slot c k).th pos) && !(s.awaits c k pos)
  | none => false

/-- Something outside the sheaf will still reach it: a reply or grant, a lookup, a refill, or what an instruction
waits on. -/
def State.outstanding (s : State) (c k : Nat) : Bool :=
  match s.flight c k with
  | some fl =>
    (fl.held.any fun h => !h.done && h.got.any Option.isNone) || !fl.looks.isEmpty || !fl.refill.isEmpty ||
      (List.range fl.sheaf.insts.length).any fun pos => !(fl.heldBack (s.slot c k).th pos) && s.awaits c k pos
  | none => false

/-! ### The commit condition -/

def Flight.resolvedReg (fl : Flight) (r : Reg) : Bool := fl.regw.any fun e => e.1 == r

/-- Every register that the header declares has received a value or null, and RND where the body writes it (R210).  K
counts as declared by WK (DEDUCED, log 16). -/
def Flight.regsDone (fl : Flight) : Bool :=
  let h := fl.sheaf.hdr
  (List.range 32).all (fun n => !h.gmask.getLsbD n || fl.resolvedReg (.g n)) &&
    (List.range 64).all (fun n => !h.vmask.getLsbD n || fl.resolvedReg (.v n)) &&
    (List.range 8).all (fun n => !h.qmask.getLsbD n || fl.resolvedReg (.q n)) &&
    (!h.wk || fl.resolvedReg .k) && (!(fl.sheaf.insts.any fun i => i.writeReg == some (2, 6)) || fl.resolvedReg .rnd)

/-- Every ordered event has fired or is resolved. -/
def Flight.eventsDone (fl : Flight) : Bool :=
  (List.range fl.sheaf.insts.length).all fun pos =>
    match fl.sheaf.insts[pos]? with
    | some i => i.lsn?.isNone || fl.resolved pos
    | none => true

/-- Every reply, grant, lookup and refill has come. -/
def Flight.repliesDone (fl : Flight) : Bool :=
  (fl.held.all fun h => h.done || h.granted) && fl.looks.isEmpty && fl.refill.isEmpty

def Flight.complete (fl : Flight) : Bool := fl.exit_.isSome && fl.regsDone && fl.eventsDone && fl.repliesDone

/-- A burr's sheaf with a remote LDF is withdrawn: the owner that the lowest LSN names (R166). -/
def Flight.withdrawTo (fl : Flight) : Option Nat :=
  (fl.follow.foldl (fun (best : Option (Nat × Nat)) e => match best with
    | some b => if e.1 < b.1 then some e else best
    | none => some e) none).map (·.2)

/-- Nothing is ready, nothing is outstanding and the commit condition does not hold. -/
def State.stuck (s : State) (c k : Nat) : Bool :=
  match s.flight c k with
  | some fl => !fl.complete && !(s.outstanding c k) && !((List.range fl.sheaf.insts.length).any fun pos => s.mayIssue c k pos)
  | none => false

/-! ### Waits of a commit (R89, R90, R297, R301, R312, R323, R335) -/

/-- A piece is stored in the core's own scratchpad, at commit. -/
def State.ownPiece (s : State) (c : Nat) (p : Piece) : Bool := s.homeOf p.pa == .scratch c

/-- A piece of the own scratchpad is performed at commit (R149): no reservation, earlier write or wake of the slot to its
bytes is in the way (R108, R139, R278), nor a fence mark (R92), and a release of scope COPSE or wider finds every earlier write performed (R59),
at SYSTEM scope the gateways drained (R117). DEDUCED, log 116. -/
def State.ownNow (s : State) (c k : Nat) (pol : BitVec 32) (p : Piece) : Bool :=
  !(s.slot c k).fenced && !(s.reserved p.pa p.bytes.length) && !(s.slotAhead c k p.pa p.bytes.length) &&
    (!(polRel pol && 2 ≤ polScope pol) || ((s.slot c k).allDone && (polScope pol != 5 || s.drainAnswered s.drainRequest)))

/-- The port a WRITE of class S names is a neighbour channel. -/
def Thread.isNbr (t : Thread) (p : Nat) : Bool :=
  match t.ports.get? p with
  | some x => x.mode == .nbr
  | none => false

/-- Packets an action puts into the injection queue, and how many of them count; flock counts and K notices, which go with
an action, are not ordered events of their own. DEDUCED, log 35. -/
def State.actPackets (s : State) (c k : Nat) (t : Thread) (a : Act) : Nat × Nat :=
  match a with
  | .store ps pol _ => (ps.countP fun p => !(s.ownPiece c p && s.ownNow c k pol p), ps.countP fun p => !(s.ownPiece c p))
  | .red .. | .amRelease .. => (1, 1)
  | .ctlset reg _ _ => if reg == 0x29 then (1, 1) else if reg == 0x36 then (1, 0) else (0, 0)
  | .chan _ _ own _ => if own then (0, 0) else (1, 0)
  | .stw .. | .send .. | .spawn .. | .spawnb .. | .fbar _ => (1, 0)
  | .rnread p => if t.isNbr p then (1, 0) else (0, 0)
  | .rnwrite p _ => if t.isNbr p then (1, 0) else (0, 0)
  | _ => (0, 0)

def State.flightPackets (s : State) (c k : Nat) (t : Thread) (fl : Flight) : Nat × Nat :=
  fl.due.foldl (fun (n, m) d => let (a, b) := s.actPackets c k t d.act; (n + a, m + b)) (0, 0)

/-- The K notices that a sheaf sends, each counted (R349): for the K it writes or the removal of DONE, and for the K of
each burr it spawns. -/
def State.flightNotices (s : State) (c : Nat) (t : Thread) (fl : Flight) : Nat :=
  let k1 := (fl.regw.foldl (fun r e => r.write e.1 e.2) t.regs).k
  let n := fun (k prev : Word) => (s.noticeCores c t.ctx k prev).2.length
  (if t.kind == .burr && fl.kOwner.isSome then n k1 t.regs.k else 0) +
    (if t.kind == .burr && fl.dispo == some .done then n k1 k1 else 0) +
    (fl.due.map fun d => match d.act with | .spawnb b _ _ => n b.k b.k | _ => 0).sum

/-- Packets that stand in a slot's injection queue. -/
def Slot.queued (x : Slot) : Nat := x.injq.countP fun e => match e with | .pkt _ => true | .mark .. => false

/-- The tag that an action takes. -/
def actTag : Act → Option Nat
  | .copy tag _ => some tag
  | .command (.drain _ _ _ _ tag _ _ _) => some tag
  | _ => none

/-- Tags of a sheaf: none busy, none taken twice (log 17). -/
def Core.tagsFree (k : Core) : List Nat → Bool
  | [] => true
  | t :: rest => !(k.tagBusy t) && !(rest.contains t) && k.tagsFree rest

/-- A bound port has room for the words that the sheaf writes to it. -/
def State.portRoom (s : State) (c k : Nat) (t : Thread) (fl : Flight) (p : Nat) : Bool :=
  let n := fl.due.countP fun d => match d.act with | .rnwrite q _ => q == p | _ => false
  n == 0 || (match t.ports.get? p with
    | some x => (match x.mode with
      | .drain => x.buf.length + n ≤ 16
      | .nbr => n ≤ x.credits
      | .ring => n ≤ ((s.core c).ring x.operand.toNat).room && !(s.ringHeld c k x.operand.toNat n)
      | .fill => true)
    | none => true)

/-- Commands of a sheaf. -/
def Flight.commands (fl : Flight) : Nat := fl.due.countP fun d => match d.act with | .command _ => true | _ => false

/-- A PREEMPT would resume a context into a free slot that a claimed mailbox or unwritten drain words still hold (R319, R334). -/
def State.resumeHeld (s : State) (ctx k : Nat) (w : Word) : Bool :=
  let x := s.slot (preCore w) (preSlot w)
  let free := fun (m : Mbox) => m.claim.all (· == k)
  preAct w == 1 && s.hosts (preCore w) ctx && !x.occ && !(x.th.settled && free x.th.box0 && free x.th.box1)

/-- A commit waits for room or for an earlier operation.  Notices that alone exceed the count wait for UCNT = 0 and then leave
(DESIGN CHOICE, log 139). -/
def State.commitWaits (s : State) (c k : Nat) (fl : Flight) : Bool :=
  let x := s.slot c k
  let y := s.core c
  let (n, m) := s.flightPackets c k x.th fl
  let m := m + s.flightNotices c x.th fl
  64 < x.queued + n || (m != 0 && x.ucnt != 0 && 256 < x.ucnt + m) || (fl.commands != 0 && 8 < y.mq.length + fl.commands) ||
    !(y.tagsFree (fl.due.filterMap fun d => actTag d.act)) ||
    (fl.due.any fun d => match d.act with | .mring _ cfg => y.ringUsed (field cfg 0 2) | _ => false) ||
    !((List.range 16).all fun p => s.portRoom c k x.th fl p) ||
    (fl.due.any fun d => match d.act with | .preempt w => s.resumeHeld x.th.ctx k w | _ => false)

/-- The drover's sheaf is outstanding, or its commit waits: a write of DRVCFG discards it at once (R160, R321). -/
def State.held7 (s : State) (c : Nat) : Bool :=
  match s.flight c 7 with
  | some fl => s.outstanding c 7 || (fl.complete && s.commitWaits c 7 fl)
  | none => false

/-! ### Memory effects -/

/-- The request of a committed access. -/
def State.commitReq (s : State) (c k : Nat) (fl : Flight) (lsn : Nat) (p : Piece) (acc : Access) (counted : Bool)
    (pol : BitVec 32) (blockp : Word) : Req :=
  { agent := .slot c k, tag := { core := c, slot := k, run := fl.run, lsn := lsn }, ctx := (s.slot c k).th.ctx, kid := p.kid,
    pa := p.pa, va := p.va, acc := acc, counted := counted, sent := s.now, pol := pol, blockp := blockp }

/-- A release of scope COPSE or wider waits at the head of the queue (R59), at SYSTEM scope for the gateways too (R117). -/
def Pkt.released (p : Pkt) (pol : BitVec 32) : Pkt :=
  let rel := polRel pol && 2 ≤ polScope pol
  { p with rel := rel, drain := rel && polScope pol == 5 }

/-- The core's write of a sector is kept for fills that are still to come (R113); a reduction's bytes are not known. -/
def Core.noteStore (k : Core) (pa now : Nat) (bytes : Option (List (Option Byte))) : Core :=
  { k with stored := k.stored.put (pa / 128) (k.stored.get (pa / 128) [] ++ [{ step := now, off := pa % 128, bytes := bytes }]) }

/-- One piece of a store at commit: performed in the own scratchpad, or queued on its way there when it must wait; else the
L1 is updated and it joins the queue (R57). -/
def State.storePiece (s : State) (c k : Nat) (fl : Flight) (lsn : Nat) (pol : BitVec 32) (blockp : Word) (p : Piece) : State :=
  if s.ownPiece c p then
    let r := s.commitReq c k fl lsn p (.write p.bytes) false pol blockp
    if s.ownNow c k pol p then s.serve r
    else s.inject c k { (s.reqPkt { r with own := true }).released pol with own := true }
  else
    let q := (s.reqPkt (s.commitReq c k fl lsn p (.write p.bytes) true pol blockp)).released pol
    (s.modCore c fun y => (y.l1Store p.pa p.bytes).noteStore p.pa s.now (some p.bytes)).inject c k q

/-- A reduction or release write leaves; the core's L1 sector goes (R57). -/
def State.homeUpdate (s : State) (c k : Nat) (fl : Flight) (lsn : Nat) (pol : BitVec 32) (blockp : Word) (p : Piece)
    (acc : Access) : State :=
  let q := (s.reqPkt (s.commitReq c k fl lsn p acc true pol blockp)).released pol
  let bytes := match acc with
    | .release bs => some (bs.map some)
    | _ => none
  (s.modCore c fun y => (y.l1Drop p.pa).noteStore p.pa s.now bytes).inject c k q

/-- The release write of an AM* that holds its grant (R138). -/
def State.releaseHeld (s : State) (c k : Nat) (fl : Flight) (lsn : Nat) (pol : BitVec 32) : State :=
  match fl.held.find? fun h => h.lsn == lsn with
  | some h => match h.kind, h.home with
    | .atomic _ n off _ _, some g =>
      s.homeUpdate c k fl lsn pol (coverWord h.va n) ⟨h.va, 16 * g + off, h.kid, h.got⟩ (.release (h.got.map (·.getD 0)))
    | _, _ => s
  | none => s

/-! ### Runnel words -/

/-- A written word: into a drain's buffer, to a neighbour, or into a ring (R335). -/
def State.portWord (s : State) (c k p : Nat) (w : Word) : Except TrapRec State :=
  let t := (s.slot c k).th
  match t.ports.get? p with
  | none => .ok s
  | some x =>
    match x.mode with
    | .fill => .ok s
    | .drain =>
      if patTotal x.pat ≤ x.pos + x.buf.length then .error { cause := .runnelEnd }
      else .ok (s.modPort c k p fun y => { y with buf := y.buf ++ [some w] })
    | .nbr =>
      let peer := stileCore x.stile
      let q : Pkt := { msg := true, cls := 2, src := coreEnd c, dst := coreEnd peer, ctx := field x.stile 52 6,
                       deliver := .neighbourWord peer (field x.stile 52 6) x.link c x.id w }
      .ok ((s.modPort c k p fun y => { y with credits := y.credits - 1, unack := y.unack + 1 }).inject c k q)
    | .ring => .ok (s.ringWrite c k t.ctx x.operand.toNat w)

/-! ### The other effects -/

/-- A WATCH at commit: `none` is watch-busy (R276). -/
def Core.setWatch (y : Core) (k word : Nat) : Option Core :=
  match y.watch.get? word with
  | some o => if o == slotOwner k then some y else none
  | none => some { y with watch := y.watch.put word (slotOwner k) }

/-- An UNWATCH at commit. -/
def Core.clearWatch (y : Core) (k word : Nat) : Core :=
  if y.watch.get? word == some (slotOwner k) then { y with watch := y.watch.del word } else y

/-- SPAWN leaves (R354, R357). -/
def State.spawnTask (s : State) (c k : Nat) (p : TaskPkt) : State :=
  let p := { p with cls := field ((s.core c).tchan.get p.chan 0) 58 3 }
  let s := s.sendCounts c k p.ctx p.memb true
  match s.taskSend (coreEnd c) p (some (dieOf (c / 8))) with
  | some q => s.inject c k q
  | none => s

/-- SPAWNB's burr leaves for the owner of its K (R355, R356, R349). -/
def State.spawnBurr (s : State) (c k : Nat) (b : Burr) (dest : Nat) : State :=
  let b := { b with n := chanEntry ((s.core c).tchan.get b.chan 0) }
  let s := (s.modCore c fun y => y.liveAdd (nbits b.bid.toNat 0 21)).sendCounts c k b.ctx b.memb true
  (s.inject c k (burrPkt c dest b false)).sendNotices c k b.ctx b.bid b.k b.k false

/-- FJOIN at commit (R361). -/
def State.joinFlock (s : State) (c k id : Nat) : Except TrapRec State :=
  let t := (s.slot c k).th
  match joinMemb t.memb id with
  | none => .error { cause := .flockFull }
  | some m =>
    if m == t.memb then .ok s
    else .ok ((s.modThread c k fun t => { t with memb := m }).sendCount c k t.ctx id true)

/-- FLEAVE at commit. -/
def State.leaveFlock (s : State) (c k id : Nat) : State :=
  let t := (s.slot c k).th
  let m := leaveMemb t.memb id
  if m == t.memb then s
  else (s.modThread c k fun t => { t with memb := m }).sendCount c k t.ctx id false

/-- FBAR at commit: the arrival is a release at DEVICE scope; the slot enters barrier-wait (R362). -/
def State.arrive (s : State) (c k id : Nat) : State :=
  let ctx := (s.slot c k).th.ctx
  let q : Pkt := { msg := true, cls := 3, src := coreEnd c, dst := (s.flockHome id, epMgmt), ctx := ctx, rel := true,
                   deliver := .flockArrival ctx id c k (s.slot c k).th.tid }
  (s.modThread c k fun t => { t with rest := .barrier id }).inject c k q

/-- A map update that holds its grant commits (R346). DEDUCED, log 60. -/
def State.commitMap (s : State) (c k : Nat) (fl : Flight) (pos kind : Nat) (point other : Word) : Except TrapRec State :=
  match fl.held.find? fun h => h.pos == pos with
  | none => .ok s
  | some h => match s.grantedPlan c k h kind point other with
    | (_, .error r) => .error r
    | (s, .ok p) => .ok (s.addOp c k (.mapUpdate (s.slot c k).th.ctx p) [])

/-- A change of a channel takes effect here, or leaves for another core in management class (R364). -/
def State.changeChan (s : State) (c k co ch : Nat) (own blk : Bool) : State :=
  if own then (s.modCore c (·.block ch blk)).noteJam c
  else s.inject c k { msg := true, cls := 4, src := coreEnd c, dst := coreEnd co, ctx := (s.slot c k).th.ctx,
                      deliver := .remoteChannelChange co (s.slot c k).th.ctx ch blk }

/-- What one fired instruction does at commit. -/
def State.commitAct (s : State) (c k : Nat) (fl : Flight) (d : Due) : Except TrapRec State :=
  let lsn := d.lsn.getD 0
  let ctx := (s.slot c k).th.ctx
  match d.act with
  | .store ps pol b => .ok (ps.foldl (fun s p => s.storePiece c k fl lsn pol b p) s)
  | .red op n v p pol b => .ok (s.homeUpdate c k fl lsn pol b p (.red op n v))
  | .stw p pol b =>
    .ok (s.inject c k { (s.reqPkt (s.commitReq c k fl lsn p (.wake (wd (ofBytes (p.bytes.map (·.getD 0))))) false pol b)).released pol with
      ord := true })
  | .amRelease n pol => .ok (s.releaseHeld c k fl n pol)
  | .fence sys inv => .ok (s.modSlot c k fun x => { x with injq := x.injq ++ [.mark sys inv] })
  | .watch w => match (s.core c).setWatch k w with
    | some y => .ok (s.setCore c y)
    | none => .error { cause := .watchBusy }
  | .unwatch w => .ok (s.modCore c fun y => y.clearWatch k w)
  | .protb gs sys right => .ok (s.protbStart c k ctx gs sys right)
  | .send e ch data ord => .ok (s.inject c k (sendPkt c e ch data ord))
  | .spawn p _ => .ok (s.spawnTask c k p)
  | .spawnb b dest _ => .ok (s.spawnBurr c k b dest)
  | .mbxw j b data =>
    .ok ((s.modBox c j b fun m => { m with claim := some (8 + k) }).modSlot c k fun x => { x with deps := x.deps ++ [(j, b, data)] })
  | .mbxr j b any =>
    let s := s.modBox c j b fun m => { m with full := false, claim := none }
    .ok (if any then s.modCore c fun y => { y with mbxPtr := j } else s)
  | .copy tag cd => .ok (s.copyStart c tag cd)
  | .tagclr m => .ok (s.modCore c (·.tagclr m))
  | .rnbind p mode op x pat priv => .ok (s.bindPort c k p mode op x pat priv)
  | .rnunbind p => .ok (s.unbindPort c k p)
  | .rnread p => .ok (s.readAdvance c k p)
  | .rnwrite p w => s.portWord c k p w
  | .msgpop => .ok ((s.modCore c (·.popClaim k)).noteJam c)
  | .ctlset reg i v => .ok ((if reg == 0x35 && k != 7 && s.held7 c then s.discard c 7 else s).ctlCommit c k reg i v)
  | .savec a ctl win kind recs ps =>
    if (s.ctx ctx).saveStops (savNew ctl) then .error { cause := .badControlValue }
    else if s.windowLost (savCore ctl) (savWindow ctl win) then .error { cause := .uncorrectableData }
    else .ok (s.savecCommit c k a ctl win kind recs ps)
  | .loadc ctl index kind epoch recs => .ok (s.loadcCommit c k ctl index kind epoch recs)
  | .rkalloc e => .ok (s.modCopse (c / 8) (·.bindRick e))
  | .rkpin h pin => .ok (s.modCopse (c / 8) fun x => x.modHandle h fun r => { r with pin := pin })
  | .rkrev h => .ok (s.revokeRick (c / 8) h)
  | .command m => .ok (s.queueCmd c k m)
  | .mring base cfg => .ok (s.modCore c fun y => y.mring base cfg)
  | .mtail r n =>
    let x := (s.core c).ring r
    if x.overflows (if n == 0 then 0 else n + (s.core c).tailsOwed r) then .error { cause := .ringOverflow }
    else if n != 0 && (s.slot c k).ocnt != 0 then .ok (s.modSlot c k fun y => { y with tails := y.tails ++ [(r, n)] })
    else .ok (s.modCore c (·.moveTail r n))
  | .mcnt m => .ok (s.modCore c fun y => y.mcnt m.toNat)
  | .mthr v => .ok (s.modCore c fun y => { y with mxthr := v })
  | .mwgt v => .ok (s.modCore c fun y => y.mwgt v)
  | .fjoin id => s.joinFlock c k id
  | .fleave id => .ok (s.leaveFlock c k id)
  | .fbar id => .ok (s.arrive c k id)
  | .chan co ch own blk => .ok (s.changeChan c k co ch own blk)
  | .tset ch v => .ok ((s.modCore c fun y => y.tset ch v).noteJam c)
  | .mapUpdate kind point other => s.commitMap c k fl d.pos kind point other
  | .preempt _ => .ok s

/-- The actions in the order of commit: ordered events by LSN, then the others by body position (R161). -/
def Flight.acts (fl : Flight) : List Due :=
  ((List.range 32).flatMap fun n => fl.due.filter fun d => d.lsn == some n) ++
    (List.range 64).flatMap fun p => fl.due.filter fun d => d.lsn.isNone && d.pos == p

/-- The dirty mark of a committing write meets an uncorrectable error (R73). -/
def State.markFails (s : State) (c k va pa : Nat) : Bool :=
  match s.markDirty (s.slot c k).th.ctx va pa with
  | .error .uncorrectableData => true
  | _ => false

/-- Why a piece of a write may not commit: at its home part of a bad word would be written that no earlier write of the slot
replaces, or its dirty mark meets one (R73, R74, R76, R280). DEDUCED, log 131. -/
def State.pieceFault (s : State) (c k : Nat) (whole : Bool) (blockp : Word) (p : Piece) : Option TrapRec :=
  let trap := fun (o : Nat) => writeTrap .uncorrectableData (p.va + o) blockp false
  let n := p.bytes.length
  let bad := if whole then (if s.lost p.pa n then [s.badOff p.pa n] else []) else s.badWrites p.pa p.bytes
  match bad.find? fun o => !(s.replacedAhead c k (p.pa + o)) with
  | some o => some (trap o)
  | none => if s.markFails c k p.va p.pa then some (trap 0) else none

/-- Why an action may not commit for an uncorrectable error at a home: a precise fault of its instruction. -/
def State.actFault (s : State) (c k : Nat) (fl : Flight) (a : Act) : Option TrapRec :=
  match a with
  | .amRelease n _ => match fl.held.find? fun h => h.lsn == n with
    | some h => match h.home with
      | some g => if s.markFails c k h.va (16 * g) then
          some (writeTrap .uncorrectableData h.va (coverWord h.va h.got.length) false) else none
      | none => none
    | none => none
  | .protb gs _ _ => (gs.find? fun g => s.markFails c k g.2.2 (128 * g.1)).map fun g =>
      { cause := .uncorrectableData, addr := some (blockWord 30 g.2.2) }
  | .store ps _ b => ps.findSome? (s.pieceFault c k false b)
  | .red _ _ _ p _ b => s.pieceFault c k true b p
  | .stw p _ b => s.pieceFault c k false b p
  | _ => none

/-- Perform the actions; the first that faults at commit ends it. -/
def State.commitActs (s : State) (c k : Nat) (fl : Flight) : List Due → Except TrapRec State
  | [] => .ok s
  | d :: rest =>
    match s.actFault c k fl d.act with
    | some r => .error { r with lsn := d.lsn }
    | none => match s.commitAct c k fl d with
      | .error r => .error { r with lsn := d.lsn }
      | .ok s => State.commitActs s c k fl rest

/-! ### Registers and disposal -/

/-- The sheaf writes RND with a value. DEDUCED, log 89. -/
def Flight.writesRnd (fl : Flight) : Bool := fl.rndMode.isSome || fl.regw.any fun e => e.1 == .rnd && e.2 != .null

/-- RND at commit: SETRND's mode, a WRITE's value, or the LFSR 4,096 steps on (R195, R365). DEDUCED, log 109. -/
def Flight.newRnd (fl : Flight) (old : Word) : Word :=
  match fl.rndMode with
  | some (mode, seed) => setRnd old mode seed
  | none =>
    if !fl.writesRnd && fl.rounded && field old 0 3 == 6 then rndWord (lfsrAdv 4096 (old.extractLsb' 32 32)) 6 else old

/-- The sheaf writes RND with a value that R193 refuses: checked at commit (R240). -/
def Flight.badRnd (fl : Flight) : Bool :=
  fl.regw.any fun e => e.1 == .rnd && (match e.2 with | .sc w => rndBad w | _ => false)

/-- The registers and N after the sheaf. -/
def Flight.newRegs (fl : Flight) (r : Regs) : Regs :=
  let r := { r with rnd := fl.newRnd r.rnd, n := fl.exit_.getD r.n }
  fl.regw.foldl (fun r e => r.write e.1 e.2) r

/-- A register word is written whole by the sheaf, which gives it fresh check bits (R74); N always is. -/
def Flight.overwrites (fl : Flight) (w : RegWord) : Bool :=
  w == (2, 1, 0) || fl.regw.any fun e => coversWord e.1 e.2 w == 0xFF

/-- The thread after registers, FW and ACT (R166, R369). -/
def Flight.newThread (fl : Flight) (t : Thread) : Thread :=
  { t with regs := fl.newRegs t.regs, fw := false, act := t.act && !fl.tcause,
           bad := t.bad.filter fun w => !(fl.overwrites w), soft := t.soft.filter fun w => !(fl.overwrites w) }

/-- The notices of a burr's committed K and of its DONE (R349).  They join the queue before the sheaf's other packets, so that an FBAR
arrival of the same sheaf leaves behind them (R351). -/
def State.commitK (s : State) (c k : Nat) (fl : Flight) (old : Word) : State :=
  let t := (s.slot c k).th
  let s := if t.kind == .burr && fl.kOwner.isSome then s.sendNotices c k t.ctx t.bid t.regs.k old false else s
  if t.kind == .burr && fl.dispo == some .done then s.sendNotices c k t.ctx t.bid t.regs.k t.regs.k true else s

/-- Where a burr's coordinate takes it: the owner of the K it has written, or of a handed croft (R165, R347).
DEDUCED, log 18. -/
def State.leavesFor (s : State) (c k : Nat) (fl : Flight) : Option Nat :=
  let t := (s.slot c k).th
  if t.kind == .burr then
    match fl.kOwner with
    | some o => o.filter (· != c)
    | none => t.moveTo
  else none

/-- A burr that has run DONE: its retire notice (R356). -/
def State.burrDone (s : State) (c k : Nat) : State :=
  let t := (s.slot c k).th
  if t.kind == .burr then
    let made := nbits t.bid.toNat 21 11
    let retire : Pkt :=
      { msg := true, cls := 4, src := coreEnd c, dst := coreEnd made, ctx := t.ctx, deliver := .retireNotice made t.ctx t.bid }
    s.inject c k retire
  else s

def State.disposed (s : State) (c k : Nat) (d : Dispo) : State := s.modSlot c k fun x => { x with disp := some d }

/-- What becomes of the thread (R359, R375): MIGRATE to another core, DONE, HALT and TRAP decide; else a burr whose
coordinate has left the core migrates (log 18); else YIELD, PARK or TRET. -/
def State.dispoCommit (s : State) (c k : Nat) (fl : Flight) : State :=
  let move := (s.leavesFor c k fl).map fun o => Dispo.migrate o false
  let s := s.modThread c k fun t => { t with moveTo := none }
  let orMove := fun (s : State) (other : State) => match move with
    | some d => s.disposed c k d
    | none => other
  match fl.dispo with
  | some (.migrate o fw) => if o != c then s.disposed c k (.migrate o fw) else orMove s s
  | some .done => (s.burrDone c k).disposed c k .done
  | some .halt => s.disposed c k .halt
  | some (.softTrap w) => s.disposed c k (.softTrap w)
  | some .yield_ => orMove s (s.disposed c k .yield_)
  | some .tret => let s := s.modThread c k Thread.trapReturn; orMove s s
  | some .park =>
    orMove s (match (s.slot c k).th.rest with
      | .barrier _ => s.disposed c k .park
      | _ => s.modThread c k Thread.parkNow)
  | none => orMove s s

/-- PREEMPTs of the sheaf, once everything else is done. DEDUCED, log 90. -/
def State.commitPreempts (s : State) (c k : Nat) (fl : Flight) : State :=
  fl.acts.foldl (fun s d => match d.act with
    | .preempt w => s.preempt c k w
    | _ => s) s

/-- The commit of a sheaf, or the fault it meets; a fault leaves everything as before (R162). -/
def State.commit (s : State) (c k : Nat) (fl : Flight) : Except TrapRec State :=
  let old := (s.slot c k).th.regs.k
  if fl.badRnd then .error { cause := .badControlValue }
  else match (((s.modThread c k fl.newThread).commitK c k fl old).commitActs c k fl fl.acts) with
  | .error r => .error r
  | .ok s =>
    let s := s.modSlot c k fun x => { x with fl := none }
    .ok ((s.dispoCommit c k fl).commitPreempts c k fl)

/-- The slot's sheaf commits, is withdrawn, or is stuck. -/
def State.mayCommit (s : State) (c k : Nat) : Bool :=
  match s.flight c k with
  | some fl => if fl.complete then fl.withdrawTo.isSome || !(s.commitWaits c k fl) else s.stuck c k
  | none => false

def execSheafCommit (s : State) : Out :=
  match s.event with
  | some (.sheafCommit c k) =>
    let s := s.taken
    match s.flight c k with
    | none => .next s
    | some fl =>
      if fl.complete then
        match fl.withdrawTo with
        | some o => .next ((s.discard c k).disposed c k (.migrate o true))
        | none =>
          if s.commitWaits c k fl then .next s
          else match s.commit c k fl with
            | .error r => .next (s.takeTrap c k r)
            | .ok s => .next s
      else if s.stuck c k then .next (s.fault c k .sheafStuck) else .next s
  | _ => .fault .noSubject

end Sys2Proof.Machine
end

