-- ==== Sys2Proof/Machine/Life.lean ====
section
/-!
DEFINITION. A sheaf's fetch and decode (R158, R211, R217, R218), trap entry after TRAP (R370, R375), imprecise traps
(R371) and the drover's configuration (R321).
-/
namespace Sys2Proof.Machine
open Sys2Proof

/-! ### Sheaf boundaries -/

/-- An imprecise trap may be taken at this boundary (R371): HND is clear; a burr about to migrate or yield takes it
first. DEDUCED, log 91. -/
def Slot.mayTrap (x : Slot) : Bool :=
  x.occ && x.fl.isNone && !x.th.hnd && x.th.rest == .none && !x.th.imps.isEmpty &&
    (match x.disp, x.th.kind with
     | none, _ => true
     | some (.migrate ..), .burr => true
     | some .yield_, .burr => true
     | _, _ => false)

/-- A write of a core's DRVCFG is pending: the drover starts no other sheaf (R321). -/
def State.drvTurns (s : State) (c : Nat) : Bool := s.pending.any fun e => match e with | .drvcfgWrite d _ => d == c | _ => false

/-- The slot stands at a boundary with nothing before its next fetch. -/
def State.mayFetch (s : State) (c k : Nat) : Bool :=
  let x := s.slot c k
  x.occ && x.fl.isNone && x.disp.isNone && x.th.rest == .none && !x.mayTrap && (s.evictOp c k).isNone &&
    (k != 7 || (!(s.drvTurns c) && ((s.core c).drvExp || s.drvReady c)))

/-! ### The instruction store (R211) -/

/-- Bytes of a core's instruction store, read at its port in pieces that lie in one sector. -/
def State.codeBytes (s : State) (c off : Nat) : Nat → List Byte
  | 0 => []
  | n + 1 => s.homeBytes (istoreBase c + off) 16 ++ s.codeBytes c (off + 16) n

/-- Syllables from bytes, little-endian. -/
def sylsOf : List Byte → List Syl
  | a :: b :: rest => BitVec.ofNat 16 (a.toNat + 256 * b.toNat) :: sylsOf rest
  | _ => []

/-- The syllables of a body of some instructions, prefixes and bases, as far as the list goes. -/
def bodySyls : Nat → List Syl → Nat
  | 0, _ => 0
  | _, [] => 0
  | n + 1, s :: rest => 1 + if s.extractLsb' 13 3 == 7#3 then bodySyls (n + 1) rest else bodySyls n rest

/-- The bytes of the sheaf at an offset: the 16 of its header and those of its body, as far as the store goes. -/
def State.codeAt (s : State) (c n : Nat) : List Byte := s.codeBytes c n (min 41 ((0x20000 - n) / 16))
def headerAt (bs : List Byte) : BitVec 128 := BitVec.ofNat 128 (ofBytes (bs.take 16))
def bodyAt (bs : List Byte) : List Syl := (sylsOf (bs.drop 16)).take 320
def sheafSize (bs : List Byte) : Nat := 16 + 2 * bodySyls (headerOf (headerAt bs)).count (bodyAt bs)

/-- A 64-bit word of a sheaf holds an uncorrectable error (R73). -/
def State.codeBad (s : State) (c n size : Nat) : Bool :=
  (List.range ((size + 7) / 8)).any fun i => s.badIn (istoreBase c + n + 8 * i) 8

/-- The words of a sheaf are read: single-bit errors are corrected and counted (R73). -/
def State.fixCode (s : State) (c n size : Nat) : State :=
  (List.range ((size + 7) / 8)).foldl (fun s i => s.fixIn (istoreBase c + n + 8 * i) 8) s

/-- Bits of N that no fetch allows (R211). -/
def nBad (n : Word) : Bool := field n 17 47 != 0 || field n 0 4 != 0

/-- The record of a decode failure (R218). -/
def decodeTrap (c n : Nat) (e : SheafBad) : TrapRec :=
  { cause := if e.dcode.isSome then .illegalEncoding else .privilege, dcode := e.dcode.getD 0,
    addr := some (blockWord 32 (istoreBase c + n + e.off)), blockp := some 0 }

/-- Decode the sheaf at an offset, for a thread. -/
def State.decodeAt (s : State) (c : Nat) (t : Thread) (n : Nat) : Except TrapRec Sheaf :=
  let bs := s.codeAt c n
  match decodeSheaf (t.kind == .burr) (s.ctx t.ctx).priv (headerAt bs) (bodyAt bs) with
  | .error e => .error (decodeTrap c n e)
  | .ok sh => .ok sh

/-- A sheaf starts: the register words that its READs, policy registers and masks read are corrected (R73, R206, R239).
DEDUCED, log 93. -/
def State.sheafReads (s : State) (c k : Nat) (sh : Sheaf) : State :=
  let t := (s.slot c k).th
  let hit := t.soft.filter fun w => sh.insts.any fun i => i.readsReg (w.1, w.2.1)
  if hit.isEmpty then s
  else (s.modThread c k fun t => { t with soft := t.soft.filter fun w => !(hit.contains w) }).modCore c (·.count 0 hit.length)

/-- The sheaf in flight right after decode. -/
def newFlight (x : Slot) (sh : Sheaf) : Flight :=
  { sheaf := sh, run := x.runs, nodes := List.replicate sh.insts.length {}, retry := x.retryNext }

/-- A fetch of a slot (R158): the whole sheaf is read in one snapshot, and then decoded (R211, R217).
DESIGN CHOICE, log 30. -/
def State.fetch (s : State) (c k : Nat) : State :=
  let x := s.slot c k
  let n := x.th.regs.n
  if nBad n then s.fault c k .sheafAddress
  else
    let size := sheafSize (s.codeAt c n.toNat)
    let bad := s.codeBad c n.toNat size
    let s := s.fixCode c n.toNat size
    if bad then s.takeTrap c k { cause := .uncorrectableData }
    else match s.decodeAt c x.th n.toNat with
      | .error r => s.takeTrap c k r
      | .ok sh => (s.sheafReads c k sh).modSlot c k fun x => { x with fl := some (newFlight x sh), runs := x.runs + 1, retryNext := false }

/-- A slot fetches its next sheaf; a burr whose croft was handed over leaves instead (R347); the standard drover takes
its next act (R322, log 19). -/
def execSheafFetch (s : State) : Out :=
  match s.event with
  | some (.sheafFetch c k) =>
    let s := s.taken
    if !(s.mayFetch c k) then .next s
    else match (s.slot c k).th.moveTo with
      | some d => .next ((s.modThread c k fun t => { t with moveTo := none }).disposed c k (.migrate d false))
      | none =>
        if k == 7 && !(s.core c).drvExp then .next (s.drvStep c) else .next (s.fetch c k)
  | _ => .fault .noSubject

/-! ### Traps at a boundary -/

/-- Trap entry after the commit of a TRAP (R375). -/
def execTrapEntry (s : State) : Out :=
  match s.event with
  | some (.trapEntry c k _) =>
    let s := s.taken
    match (s.slot c k).disp with
    | some (.softTrap code) =>
      let s := s.modSlot c k fun x => { x with disp := none }
      .next (s.takeTrap c k { cause := .softTrap, addr := some code })
    | _ => .next s
  | _ => .fault .noSubject

/-- The first pending imprecise trap is taken (R371). -/
def execImpreciseTrap (s : State) : Out :=
  match s.event with
  | some (.impreciseTrap c k) =>
    let s := s.taken
    let x := s.slot c k
    match x.mayTrap, x.th.imps with
    | true, r :: rest =>
      let s := s.modSlot c k fun x => { x with disp := none, th := { x.th with imps := rest } }
      .next (s.takeTrap c k r)
    | _, _ => .next s
  | _ => .fault .noSubject

/-! ### DRVCFG (R321) -/

/-- N of the drover under a configuration. -/
def drvEntry (v : Word) : Word := if v.getLsbD 17 then wd (field v 4 13 * 16) else 0

/-- A step that must wait goes before the first of its kind that is due behind it (R321). -/
def State.dueBefore (s : State) (same : Event → Bool) (e : Event) : State :=
  { s with pending := s.pending.takeWhile (fun x => !(same x)) ++ e :: s.pending.dropWhile fun x => !(same x) }

/-- A write of DRVCFG takes effect at the drover's next sheaf boundary; an outstanding sheaf has been discarded when the write
committed (`State.commitAct`). -/
def execDrvcfgWrite (s : State) : Out :=
  match s.event with
  | some (.drvcfgWrite c v) =>
    let s := s.taken
    if (s.slot c 7).fl.isNone then
      let s := s.modCore c fun k => { k with drvcfg := v }
      .next (s.modThread c 7 fun t => { t with regs := { t.regs with n := drvEntry v } })
    else .next (s.dueBefore (fun e => match e with | .drvcfgWrite d _ => d == c | _ => false) (.drvcfgWrite c v))
  | _ => .fault .noSubject

end Sys2Proof.Machine
end

