-- ==== Sys2Proof/Machine/Net.lean ====
section
/-!
DEFINITION. Packets on their way: leaving a core (R59, R89 to R94, R111, R273, R278), hops with permits and bubbles (R83 to
R88, R101), link errors (R103) and the scrubbers (R75).
-/
namespace Sys2Proof.Machine
open Sys2Proof

/-! ### Buffers (R85, R86) -/

/-- A packet takes a buffer at an input: a reserved one of its class before a shared one. -/
def State.place_ (s : State) (p : Pkt) (node input phase : Nat) : State :=
  { s with flits := s.flits ++ [⟨p, node, input, phase, s.reservedFree p node input phase != 0⟩] }

/-! ### Leaving a core (R89 to R94) -/

/-- A write to a word whose wake acknowledgement is awaited (R278). -/
def Slot.wakeHeld (x : Slot) (p : Pkt) : Bool :=
  match reqOf p.deliver with
  | some r => (match r.acc with
    | .write _ | .red .. | .release _ | .wake _ => x.wakes.any fun w => rangesMeet (8 * w) 8 r.pa (reqSize r)
    | _ => false)
  | none => false

/-- No endpoint packet of the same source, network and class is still before it (R88). DEDUCED, log 29. -/
def State.endClear (s : State) (p : Pkt) : Bool :=
  !(s.flits.any fun f => f.input == 6 && f.pkt.src == p.src && f.pkt.msg == p.msg && f.pkt.cls == p.cls)

/-- A packet may take a buffer of its local port. -/
def State.canEnter (s : State) (p : Pkt) : Bool := s.endClear p && s.available p p.src.1 4 0 != 0

/-- An entry waits for the gateway drain too (R117): a release or fence mark of SYSTEM scope. -/
def InjEnt.drains : InjEnt → Bool
  | .mark sys _ => sys
  | .pkt p => p.drain

/-- An entry of the queue may leave, but for a drain: nothing before it of its network, no mark and no ordered packet
(R93, R273); an ordered packet heads the queue. -/
def State.mayLeaveBut (s : State) (x : Slot) (i : Nat) : Bool :=
  match x.injq[i]? with
  | some (.mark ..) => i == 0 && x.settledAt 0
  | some (.pkt p) =>
    (if p.ord then i == 0 && x.settledAt 0
     else ((x.injq.take i).all fun e => match e with
       | .pkt q => !q.ord && q.msg != p.msg
       | .mark .. => false) && (!p.rel || x.settledAt i)) &&
      !(x.wakeHeld p) && s.canEnter p
  | none => false

/-- The entry at a place waits for a drain that has not been answered. -/
def State.drainWaits (s : State) (x : Slot) (i : Nat) : Bool :=
  (x.injq[i]?).any InjEnt.drains && !(x.qdrain.any s.drainAnswered)

/-- The first entry of a slot's queue, ordered packets apart, that may leave. DEDUCED, log 25. -/
def State.leaveIndex (s : State) (c k : Nat) : Option Nat :=
  let x := s.slot c k
  (List.range x.injq.length).find? fun i => !((x.injq[i]?).any InjEnt.ordered) && s.mayLeaveBut x i && !(s.drainWaits x i)

/-- An entry could leave but for a drain that has not been asked for: the drain request is due (R117). -/
def State.drainDue (s : State) (c k : Nat) : Bool :=
  let x := s.slot c k
  x.qdrain.isNone && (List.range x.injq.length).any fun i => s.mayLeaveBut x i && s.drainWaits x i

/-- Sectors that a request reads. -/
def reqSectors (r : Req) : List Nat :=
  match r.acc with
  | .gath els => els.map fun e => e.2.1 / 128
  | _ => [r.pa / 128]

/-- A queued write of the core touches a sector. -/
def Core.queuedWrite (y : Core) (sec : Nat) : Bool :=
  y.slots.toList.any fun x => x.injq.any fun e => match e with
    | .pkt p => (match reqOf p.deliver with | some r => r.pa / 128 == sec | none => false)
    | .mark .. => false

/-- The bytes a request reads: places and sizes. -/
def reqBytes (r : Req) : List (Nat × Nat) :=
  match r.acc with
  | .read n | .reserve n => [(r.pa, n)]
  | .gath els => els.map fun e => (e.2.1, e.2.2.1)
  | _ => []

/-- A request of a slot reads a word whose wake acknowledgement the slot awaits: memory order keeps it behind the STW,
which travels in another class (R108, R278). DEDUCED, log 20. -/
def Core.behindWake (y : Core) (r : Req) : Bool :=
  match r.agent with
  | .slot _ k => (y.slot k).wakes.any fun w => (reqBytes r).any fun b => rangesMeet (8 * w) 8 b.1 b.2
  | _ => false

/-- A request of a slot whose queue holds a fence mark: the fence comes before it (R92, R108). -/
def Core.behindFence (y : Core) (r : Req) : Bool :=
  match r.agent with
  | .slot _ k => (y.slot k).fenced
  | _ => false

/-- A load request may leave: behind every queued write of its sector (R111), and behind its slot's fences. -/
def State.loadMayLeave (s : State) (c i : Nat) : Bool :=
  match (s.core c).loads[i]? with
  | some p => s.canEnter p && (match reqOf p.deliver with
    | some r => !((reqSectors r).any (s.core c).queuedWrite) && !((s.core c).behindWake r) && !((s.core c).behindFence r)
    | none => true)
  | none => false

/-- A request as it leaves the core: what tells whether its fill is still wanted counts from here (R113). -/
def stampEvent (e : Event) (f : Req → Req) : Event :=
  match e with
  | .sliceAccess r => .sliceAccess (f r)
  | .scratchpadAccess r => .scratchpadAccess (f r)
  | .poolAccess r => .poolAccess (f r)
  | .gatherHomeRead r => .gatherHomeRead (f r)
  | .reserveRequest r => .reserveRequest (f r)
  | e => e

def State.stampLoad (s : State) (c : Nat) (p : Pkt) : Pkt :=
  { p with deliver := stampEvent p.deliver fun r => { r with epoch := (s.core c).epoch r.ctx, sent := s.now } }

def execInjectionLeave (s : State) : Out :=
  match s.event with
  | some (.injectionLeave c (.queue k)) =>
    let s := s.taken
    let x := s.slot c k
    match s.leaveIndex c k with
    | none => .next (if s.drainDue c k then s.setSlot c k { x with qdrain := some s.drainRequest } else s)
    | some i =>
      let s := s.setSlot c k { x with injq := dropAt x.injq i, qdrain := if (x.injq[i]?).any InjEnt.drains then none else x.qdrain }
      match x.injq[i]? with
      | some (.pkt p) => .next ((s.modCore c fun y => { y with injPtr := k }).place_ p p.src.1 4 0)
      | some (.mark _ true) => .next (s.modCore c (·.l1Invalidate x.th.ctx))
      | _ => .next s
  | some (.injectionLeave c (.load i)) =>
    let s := s.taken
    match (s.core c).loads[i]? with
    | some p =>
      if s.loadMayLeave c i then
        .next ((s.modCore c fun y => { y with loads := dropAt y.loads i }).place_ (s.stampLoad c p) p.src.1 4 0)
      else .next s
    | none => .next s
  | _ => .fault .noSubject

/-- An ordered packet heads its queue and every earlier counted write is acknowledged (R93). -/
def State.orderedMayLeave (s : State) (c k : Nat) : Bool :=
  let x := s.slot c k
  x.injq.head?.any InjEnt.ordered && s.mayLeaveBut x 0 && !(s.drainWaits x 0)

/-- A slot has a packet that may leave. -/
def State.injReady (s : State) (c k : Nat) : Bool :=
  !(s.slot c k).injq.isEmpty && ((s.leaveIndex c k).isSome || s.orderedMayLeave c k)

/-- The slot that the core's local port serves next: round robin over those that hold a ready packet (R89). -/
def State.injTurn (s : State) (c : Nat) : Option Nat :=
  ((List.range 8).map fun i => ((s.core c).injPtr + 1 + i) % 8).find? (s.injReady c)

/-- The word that an STW writes. -/
def stwWord (p : Pkt) : List Nat :=
  match p.deliver with
  | .stwApply r => [r.pa / 8]
  | _ => []

/-- An ordered packet of a slot has left: the slot's operations committed behind it wait for one fewer (R93). -/
def State.orderedLeft (s : State) (c k : Nat) : State :=
  { s with ops := s.ops.map fun o => if o.core == c && o.slot == k then { o with behind := o.behind - 1 } else o }

/-- DEDUCED, log 87. -/
def execOrderedPacketLeave (s : State) : Out :=
  match s.event with
  | some (.orderedPacketLeave c k) =>
    let s := s.taken
    if s.orderedMayLeave c k then
      let x := s.slot c k
      match x.injq with
      | .pkt p :: rest =>
        let y := { x with injq := rest, wakes := x.wakes ++ stwWord p, qdrain := if p.drain then none else x.qdrain }
        .next ((((s.orderedLeft c k).setSlot c k y).modCore c fun y => { y with injPtr := k }).place_ p p.src.1 4 0)
      | _ => .next s
    else .next s
  | _ => .fault .noSubject

/-! ### Hops (R83, R86, R101) -/

/-- Where a flit is bound in its phase: in phase 0 its source's waypoint, if it has one. -/
def State.flitGoal (s : State) (f : Flit) : Nat :=
  if f.phase == 0 then (s.waypoint f.pkt.src.1 f.pkt.dst.1).getD f.pkt.dst.1 else f.pkt.dst.1

/-- A flit ahead of it at its input, of its class (R88). -/
def flitBehind (g f : Flit) : Bool :=
  g.node == f.node && g.input == f.input && g.pkt.msg == f.pkt.msg && g.pkt.cls == f.pkt.cls && g.phase == f.phase &&
    (f.input != 6 || g.pkt.src == f.pkt.src)

/-- A link's words at a core have a bound port that takes them. -/
def State.linkBound (s : State) (c link peer : Nat) : Bool :=
  (s.core c).slots.toList.any fun x => (x.th.ports ++ x.ports).any fun e =>
    e.2.joins link peer none

/-- Words of the link store: those of links with no bound port (R335). -/
def State.linkStored (s : State) (c : Nat) : Nat := (s.core c).links.countP fun w => !(s.linkBound c w.1 w.2.1)

/-- Words that have reached a core and join its link store next. -/
def State.arrivingWords (s : State) (c : Nat) : Nat :=
  s.pending.countP fun e => match e with | .neighbourWord d _ l p _ _ => d == c && !(s.linkBound c l p) | _ => false

/-- The endpoint takes the packet (R87, R167, R180, R335); what has reached it and is not yet placed counts. -/
def State.accepts (s : State) (p : Pkt) : Bool :=
  match p.deliver with
  | .arrival c e => !(s.hosts c e.ctx) || s.coreRoom c (isMgmt e)
  | .dieQueueEnter d _ | .stealDonation d _ => s.dieRoom d
  | .neighbourWord c ctx link peer _ _ => !(s.hosts c ctx) || s.linkBound c link peer || s.linkStored c + s.arrivingWords c < 256
  | .stealRequest _ d _ => (s.die d).takes
  | _ => true

/-- What a flit may do: leave its endpoint for the local port, arrive, or move to an input of the next node in a phase. -/
inductive Move where
  | enter | arrive
  | go (node input phase : Nat)
  deriving DecidableEq, Repr

/-- The gateway port of a node is input 5, the local port input 4. -/
def portInput (p : Pkt) : Nat := if p.src.2 == epGateway then 5 else 4

/-- A hop of a flit in a phase, when it has the permits it needs: one to continue along its ring, two to enter a ring, as it
does when it starts phase 1 (R86); nothing goes over a link that is down (R103). -/
def State.hopOf (s : State) (f : Flit) (phase n i : Nat) : Option Move :=
  let need := if i == f.input && phase == f.phase then 1 else 2
  if need ≤ s.available f.pkt n i phase && !(s.linkDead.contains (linkInto n i)) then some (.go n i phase) else none

/-- The move of a flit, when its way is free.  At its waypoint it goes on in phase 1, and while it must wait it stays in its
buffer (R86, R101). -/
def State.moveOf (s : State) (f : Flit) : Option Move :=
  if f.input == 6 then (if s.available f.pkt f.node (portInput f.pkt) 0 != 0 then some .enter else none)
  else match hopTo f.node (s.flitGoal f) with
    | some (n, i) => s.hopOf f f.phase n i
    | none => match hopTo f.node f.pkt.dst.1 with
      | some (n, i) => s.hopOf f 1 n i
      | none => if s.accepts f.pkt then some .arrive else none

/-- The flit at a place of the list may move: none of its class is ahead of it at its input. -/
def State.hopMove (s : State) (i : Nat) : Option Move :=
  match s.flits[i]? with
  | some f => if (s.flits.take i).any fun g => flitBehind g f then none else s.moveOf f
  | none => none

def execPacketHop (s : State) : Out :=
  match s.event with
  | some (.packetHop i) =>
    let s := s.taken
    match s.hopMove i, s.flits[i]? with
    | some m, some f =>
      let s := { s with flits := dropAt s.flits i }
      .next (match m with
        | .enter => s.place_ f.pkt f.node (portInput f.pkt) 0
        | .arrive => s.due f.pkt.deliver
        | .go n j phase => s.place_ f.pkt n j phase)
    | _, _ => .next s
  | _ => .fault .noSubject

/-! ### Headers (R82) -/

/-- Bytes that an arrival entry carries. -/
def entryBytes (e : Entry) : Nat :=
  match e.body with
  | .burr _ => 128
  | .task _ => 64
  | .msg _ => 64
  | .mgmt .. => 32

/-- The flits of a packet: one on the cached network; on the message network one for every 32 bytes, at most four (R80). -/
def Pkt.flits (p : Pkt) : Nat :=
  if !p.msg then 1
  else match p.deliver with
    | .arrival _ e => max 1 (min 4 ((entryBytes e + 31) / 32))
    | .dieQueueEnter .. | .stealDonation .. => 2
    | _ => 1

/-- The key id under which a packet's payload is sealed: a request's own, which its reply takes over, a stile's, or else its
context's. -/
def Pkt.kid (p : Pkt) : Nat :=
  match reqOf p.deliver, p.deliver, p.key with
  | some r, _, _ => r.kid
  | none, .arrival _ e, _ => e.kid.getD p.ctx
  | none, _, key => key.getD p.ctx

/-- The requester's tag, of a request and its answers; 0 elsewhere, a START and its acknowledgement among them. -/
def Pkt.tag (p : Pkt) : BitVec 14 :=
  let word := fun (t : Tag) => Config.packetTag t.core t.slot t.run t.lsn
  match p.deliver with
  | .loadReply r | .atomicGrant r => word r.tag
  | .revokeReceive t => word t
  | e => match p.rtag, reqOf e with
    | some t, _ => word t
    | none, some r => word r.tag
    | none, none => 0

/-- The sideband header that a packet carries where it stands (R82). -/
def Flit.header (f : Flit) : Word :=
  let p := f.pkt
  let d := p.dst.1
  let c := p.src.1
  wd (d / 16 * 2 ^ 60 + d % 16 * 2 ^ 56 + p.dst.2 % 16 * 2 ^ 52 + c / 16 * 2 ^ 48 + c % 16 * 2 ^ 44 + p.src.2 % 16 * 2 ^ 40 +
    p.cls % 8 * 2 ^ 37 + f.phase % 2 * 2 ^ 36 + (p.flits - 1) * 2 ^ 34 + p.ctx % 64 * 2 ^ 28 + p.kid % 64 * 2 ^ 22 +
    (Config.packetType p.cls p.deliver.instr.ctorIdx).toNat * 2 ^ 14 + p.tag.toNat)

/-! ### Links (R103) -/

/-- HEALTH with an alarm bit set, and the clock on which it rose (R436). -/
def State.alarm (s : State) (bit : Nat) : State :=
  { s with health := s.health ||| wd (2 ^ bit)
           alarms := (s.clock, (if s.alarms.1 == s.clock then s.alarms.2 else 0) ||| wd (2 ^ bit)) }

/-- The device accepts no more work. -/
def State.halt (s : State) : State := { (s.alarm 7) with stopped := true }

/-- A flit is received: a good one is delivered once; a bad one is replayed, and the eighth bad replay in a row takes the
link down. DEDUCED, log 92. -/
def execFlitReceive (s : State) : Out :=
  match s.event with
  | some (.flitReceive link good) =>
    let s := s.taken
    if good then .next { s with linkBad := s.linkBad.del link, linkSeq := s.linkSeq.put link (s.linkSeq.get link 0 + 1) }
    else
      let n := s.linkBad.get link 0 + 1
      let s := { s with linkBad := s.linkBad.put link n }
      .next (if n == 9 then s.due (.linkDown link) else s)
  | _ => .fault .noSubject

def execLinkDown (s : State) : Out :=
  match s.event with
  | some (.linkDown link) => .next { s.taken.halt with linkDead := link :: s.linkDead }
  | _ => .fault .noSubject

/-! ### Scrubbers (R75) -/

/-- The copse whose structure holds a physical sector. -/
def State.sectorCopse (s : State) (sec : Nat) : Option Nat :=
  match s.homeOf (128 * sec) with
  | .slice i => some i
  | .scratch c => some (c / 8)
  | .istore c => some (c / 8)
  | _ => none

/-- A sector's structure, as scrubbers and error logs number it: its home. -/
def State.structOf (s : State) (sec : Nat) : Nat := homeKey (s.homeOf (128 * sec))

/-- The sectors with an error of a structure, in address order. -/
def State.flawed (s : State) (h : Nat) : List Nat :=
  (s.secs.filter fun p => (p.2.bad != 0 || p.2.soft != 0) && (s.sectorCopse p.1).isSome && s.structOf p.1 == h).map (·.1)

/-- The next sector at which a structure's scrubber changes something: sectors in address order, round and round; it passes
over those without an error (R75). DEDUCED, log 93. -/
def State.nextScrub (s : State) (h : Nat) : Option Nat :=
  let l := s.flawed h
  match l.find? fun n => s.scrubs.get h 0 ≤ n with
  | some n => some n
  | none => l.head?

/-- The scrubber reads a sector and corrects it: an uncorrectable error is logged and raises UEA; the word stays.
DEDUCED, log 93. -/
def execScrub (s : State) : Out :=
  match s.event with
  | some (.scrub sec) =>
    let s := s.taken
    match s.sectorCopse sec with
    | some i =>
      let h := s.structOf sec
      let s := ({ s with scrubs := s.scrubs.put h (sec + 1) }).fixIn (128 * sec) 128
      if (s.sector sec).bad == 0 then .next s
      else
        let s := { s.reportAt (128 * sec) with errlogs := s.errlogs.put h (s.errlogs.get h [] ++ [128 * sec]) }
        .next ((s.pageAdd (dieOf i) 4 1).alarm 6)
    | none => .next s
  | _ => .fault .noSubject

end Sys2Proof.Machine
end

