-- ==== Sys2Proof/Machine/Gateway.lean ====
section
/-!
DEFINITION. Gateways: the register space the host reads (R431), launches (R178, R432), START (R433), host accesses
through map windows (R117, R441), pre-copy (R434) and the sealed streams (R393 to R395).
-/
namespace Sys2Proof.Machine
open Sys2Proof

/-! ### Launch queues (R178, R432) -/

/-- Where a gateway enters the networks for a node (R429). -/
def State.gwEnd (s : State) (gw node : Nat) : Nat × Nat := (s.attachment gw node, epGateway)

/-- A launch queue of a gateway. -/
def lqKey (ctx q : Nat) : Nat := 8 * ctx + q
def State.lq (s : State) (gw ctx q : Nat) : LQ := (s.gw gw).lqs.get (lqKey ctx q) {}
def State.modLq (s : State) (gw ctx q : Nat) (f : LQ → LQ) : State :=
  s.modGw gw fun g => { g with lqs := g.lqs.put (lqKey ctx q) (f (g.lqs.get (lqKey ctx q) {})) }

def LQ.en (l : LQ) : Bool := l.cfg.getLsbD 3
def LQ.prio (l : LQ) : Nat := field l.cfg 0 3
def LQ.refuse (l : LQ) : LQ := { l with refused := min 65535 (l.refused + 1) }

/-- A record that the gateway refuses, or that finds the queue full, or a device that takes no work (R103, R179, R432).
DEDUCED, log 94. -/
def State.launchRefused (s : State) (gw ctx q : Nat) (p : TaskPkt) : Bool :=
  let l := s.lq gw ctx q
  s.stopped || !s.up || !l.en || p.ctx != ctx || p.reserved || (s.allowedDies p.daff).isEmpty || 256 ≤ l.recs.length

/-- The packet of a record, as it leaves now. -/
def LQ.form (l : LQ) (p : TaskPkt) : TaskPkt := { p with orig := false, cls := l.prio, since := none, aged := 0 }

/-- The oldest record's packet, and the way it takes to a die queue (R179). -/
def State.launchPkt (s : State) (gw ctx q : Nat) : Option (TaskPkt × Pkt) :=
  let l := s.lq gw ctx q
  match l.recs with
  | [] => none
  | r :: _ =>
    let p := l.form r
    (s.chooseDie p none).bind fun d => (s.taskSend (s.gwEnd gw (schedEnd d).1) p none).map fun k => (p, k)

/-- The gateway may send the increments of the oldest record, or, once they are all acknowledged, its packet. -/
def State.mayLaunch (s : State) (gw ctx q : Nat) : Bool :=
  let l := s.lq gw ctx q
  if !l.counted then !l.recs.isEmpty
  else l.owed == 0 && (match s.launchPkt gw ctx q with | some (_, k) => s.endClear k | none => false)

/-- One count increment goes to the record of each flock of the oldest record (R360, R432). -/
def State.launchCounts (s : State) (gw ctx q : Nat) (r : TaskPkt) : State :=
  let fs := flocksOf r.memb
  let s := s.modLq gw ctx q fun l => { l with counted := true, owed := fs.length }
  fs.foldl (fun s f => s.postCount (s.gwEnd gw (s.flockHome f)) ctx f true (some (gw, q))) s

/-- The oldest record goes on: its increments, then, with all of them acknowledged, its packet (R432). -/
def State.launchOn (s : State) (gw ctx q : Nat) : State :=
  let l := s.lq gw ctx q
  if l.counted then
    match s.launchPkt gw ctx q with
    | some (_, k) => (s.modLq gw ctx q fun l => { l with recs := l.recs.tail, counted := false }).post k
    | none => s
  else match l.recs with
    | r :: _ => s.launchCounts gw ctx q r
    | [] => s

/-- The host writes a record, the gateway sends the oldest one on, or an increment is acknowledged. -/
def execLaunchRecord (s : State) : Out :=
  match s.event with
  | some (.launchRecord gw ctx q x) =>
    let s := s.taken
    match x with
    | .record ws =>
      let p := taskFrom ws
      if s.launchRefused gw ctx q p then .next (s.modLq gw ctx q LQ.refuse)
      else .next (s.modLq gw ctx q fun l => { l with recs := l.recs ++ [p] })
    | .send => .next (if s.mayLaunch gw ctx q then s.launchOn gw ctx q else s)
    | .counted => .next (s.modLq gw ctx q fun l => { l with owed := l.owed - 1 })
  | _ => .fault .noSubject

/-- A launch queue's status word. -/
def LQ.status (l : LQ) : Word := wd (l.refused * 2 ^ 48 + l.recs.length)

/-! ### GWSTART (R433) -/

/-- The START a gateway sends to a core, from the attachment node that serves its copse. -/
def State.gwStart (s : State) (gw target : Nat) : Pkt :=
  { src := s.gwEnd gw (nodeOf (target / 8)), dst := coreEnd target, deliver := .start target (.gateway gw) }

/-- The host writes GWSTART: START follows its earlier stores to that core.  Nothing goes to an absent die.  DEDUCED, log 96. -/
def State.gwstart (s : State) (gw : Nat) (v : Word) : State :=
  let c := field v 0 11
  if s.dieLive (c / 128) then (s.modGw gw fun g => { g with start := g.start ++ [c] }).post (s.gwStart gw c) else s

def execGwstartWrite (s : State) : Out :=
  match s.event with
  | some (.gwstartWrite gw v) => .next (s.taken.gwstart gw v)
  | _ => .fault .noSubject

/-! ### Registers the host reads (R431) -/

/-- The words of a command slot. -/
def State.cmdWords (s : State) (i : Nat) : List Word := s.cmds.get i (List.replicate 32 0)

/-- An 8-byte read of a gateway's register space. -/
def State.ioRead (s : State) (gw off : Nat) : Word :=
  if off % 8 != 0 then 0
  else if off == 0x00 then s.health
  else if off == 0x08 then s.poolcap
  else if off == 0x10 then wd (bit1 (!(s.gw gw).start.isEmpty) * 2 ^ 63)
  else if off == 0x18 then wd (gw + bit1 (gw == s.primaryGw) * 256)
  else if off == 0x28 then (if gw == s.primaryGw then wd s.tcqst.toNat else 0)
  else if off == 0x30 then wd s.fwver.toNat
  else if 0x1000 ≤ off && off < 0x2000 then
    if gw == s.primaryGw then ((s.cmdWords ((off - 0x1000) / 0x100))[(off % 0x100) / 8]?).getD 0 else 0
  else if 0x3000 ≤ off && off < 0x3100 then (s.stream gw ((off - 0x3000) / 8)).word
  else if 0x10000 ≤ off && off < 0x24000 then
    let d := (off - 0x10000) / 0x1000
    if off % 0x1000 == 0x18 then s.fixedSum d else ((s.die d).page[(off % 0x1000) / 8]?).getD 0
  else if 0x200000 ≤ off && off < 0x201000 then ((s.gw gw).lqs.get ((off - 0x200000) / 8) {}).cfg
  else if 0x408000 ≤ off && off < 0x410000 && off % 0x40 == 0 then ((s.gw gw).lqs.get ((off - 0x408000) / 0x40) {}).status
  else 0

/-! ### The host's accesses (R117, R441) -/

/-- The host has completed every back-invalidation that the gateway has queued: the gateway answers its drains. -/
def execGatewayDrain (s : State) : Out :=
  match s.event with
  | some (.gatewayDrain gw) => .next (s.taken.modGw gw fun g => { g with biDone := g.biDone + g.biq.length, biq := [] })
  | _ => .fault .noSubject

/-- The open window of an offset. -/
def State.windowAt (s : State) (off : Nat) : Option Window :=
  (s.windows.find? fun w => w.2.hb ≤ off && off < w.2.hb + w.2.len).map (·.2)

/-- Who translates for a gateway: the copse at its attachment. -/
def State.gwXer (s : State) (gw : Nat) : Xer := .copse (copseAt (s.attachment gw ((attachments gw).headD 0)))

/-- A completion goes to the host, sealed under the phase in which the request arrived: a read's bytes, or poison (R395, R441). -/
def State.hostReply (s : State) (gw : Nat) (phase : Bool) (data : Option (List Byte)) : State :=
  (s.sealPkt gw 0 (.streamSend gw 0 false) none).modGw gw fun g => { g with replies := g.replies ++ [(phase, data)] }

/-- An access that is not made counts at the gateway die; a read completes with poison, and a write is discarded. -/
def State.hostRefuse (s : State) (gw : Nat) (phase : Bool) (acc : Access) : State :=
  (s.pageAdd (16 + gw) 5 1).hostReply gw phase (match acc with | .read _ => none | _ => some [])

/-- The host may cache what it has read of a sector that the device homes (R117). -/
def State.holdParts (s : State) (gw : Nat) (ps : List Part) : State :=
  ps.foldl (fun s p => match p.at_ with
    | .mem pa _ => (match s.homeOf pa with
      | .slice _ | .gateway _ => s.modSector (pa / 128) fun x => { x with host := some gw }
      | _ => s)
    | .pad _ => s) s

/-- An input comes again: it waits at the head of the inputs. -/
def State.again (s : State) (e : Event) : State := { s with inputs := e :: s.inputs }

/-- A host access as it reaches a gateway: the gateway, the phase and what it asks. -/
structure HostReq where
  gw    : Nat
  off   : Nat
  acc   : Access
  phase : Bool
  deriving Repr

def HostReq.event (h : HostReq) : Event := .hostMemAccess h.gw h.off h.acc h.phase

/-- A read of the host.  One that meets a reservation or a pending fill waits, and the host's later accesses behind it; one that
meets an uncorrectable word completes with poison (R73). -/
def State.hostRead (s : State) (h : HostReq) (w : Window) (va n : Nat) : State :=
  match s.checkBytes (s.gwXer h.gw) w.ctx false va n true false with
  | (s, .error _) => s.hostRefuse h.gw h.phase h.acc
  | (s, .ok ps) =>
    if s.partsBusy ps then s.again h.event
    else
      let s := s.fixParts 0 ps
      match s.readParts (.gateway h.gw) w.ctx va 0 ps with
      | (s, .ok bs) => (s.holdParts h.gw ps).hostReply h.gw h.phase (some bs)
      | (s, .error t) => if t.cause == .uncorrectableData then s.hostReply h.gw h.phase none else s.hostRefuse h.gw h.phase h.acc

/-- One sector's part of a host write: the sector the host itself holds stays held. -/
def State.hostPart (s : State) (gw ctx va : Nat) (bs : List (Option Byte)) (p : Part) : Wrote :=
  match p.at_ with
  | .pad _ => .done s
  | .mem pa kid =>
    let old := (s.sector (pa / 128)).host
    match (s.modSector (pa / 128) fun x => { x with host := none }).engineWrite (.gateway gw) ctx kid (va + p.off) pa
        ((bs.drop p.off).take p.n) 0 with
    | .done t => .done (t.modSector (pa / 128) fun x => { x with host := old })
    | .fault t r => .fault (t.modSector (pa / 128) fun x => { x with host := old }) r
    | .wait => .wait

def State.hostParts (s : State) (gw ctx va : Nat) (bs : List (Option Byte)) : List Part → Wrote
  | [] => .done s
  | p :: rest => match s.hostPart gw ctx va bs p with
    | .done s => State.hostParts s gw ctx va bs rest
    | w => w

/-- A write of the host; one that meets a reservation waits, and the host's later accesses behind it. -/
def State.hostWrite (s : State) (h : HostReq) (w : Window) (va : Nat) (bs : List (Option Byte)) : State :=
  if !w.rw then s.hostRefuse h.gw h.phase h.acc
  else match s.checkParts (s.gwXer h.gw) w.ctx false va (bs.map (·.isSome)) false true (splitAt16 va bs.length) with
    | (s, .error _) => s.hostRefuse h.gw h.phase h.acc
    | (s, .ok ps) => match s.hostParts h.gw w.ctx va bs (joinParts ps) with
      | .done s => s.hostReply h.gw h.phase (some [])
      | .fault s t => if t.cause == .uncorrectableData then s.hostReply h.gw h.phase (some []) else s.hostRefuse h.gw h.phase h.acc
      | .wait => s.again h.event

/-- A host access through the open window that holds all of it, or not made. -/
def State.hostAccess (s : State) (h : HostReq) : State :=
  match s.windowAt h.off with
  | none => s.hostRefuse h.gw h.phase h.acc
  | some w =>
    let va := w.vb + (h.off - w.hb)
    let room := w.hb + w.len - h.off
    match h.acc with
    | .read n => if n ≤ room then s.hostRead h w va n else s.hostRefuse h.gw h.phase h.acc
    | .write bs => if bs.length ≤ room then s.hostWrite h w va bs else s.hostRefuse h.gw h.phase h.acc
    | _ => s.hostRefuse h.gw h.phase h.acc

/-- A host access arrives: under a phase whose key is not held it is discarded; while the gateway cannot answer for want of a key
it is held (R394, R395). DEDUCED, log 97. -/
def execHostMemAccess (s : State) : Out :=
  match s.event with
  | some (.hostMemAccess gw off acc phase) =>
    let h : HostReq := { gw := gw, off := off, acc := acc, phase := phase }
    let s := s.taken
    if !((s.stream gw 0).holds phase) then .next (s.modStream gw 0 (·.receive phase false))
    else if (s.stream gw 0).stuck then .next (s.sealPkt gw 0 h.event none)
    else .next (s.hostAccess h)
  | _ => .fault .noSubject

/-! ### Pre-copy (R48, R49, R434) -/

/-- The stream of the Ultra Ethernet port that carries page records. DESIGN CHOICE, log 142. -/
def migrationStream : Nat := 4

/-- The next mark of a context's dirty map at or after a page, in curve order (R48, R434): the address of its word, whether it is
the ALL bit of an entry, and the first page and the number of pages that the word covers. -/
def State.nextMark (s : State) (ctx from_ : Nat) : Nat → Nat → Nat → Option (Nat × Bool × Nat × Nat)
  | 0, chunk, base => (List.range 16384).findSome? fun i =>
    let pa := chunk + 8 * i
    if base + 64 * i + 64 ≤ from_ || (s.tableFault ctx pa 8).isSome || s.homeWord pa == 0 then none else some (pa, false, base + 64 * i, 64)
  | left + 1, node, base => (List.range 256).findSome? fun i =>
    let level := 3 - left
    let size := blockSize (entryDepth level) / 4096
    let pa := node + 8 * i
    let at_ := base + i * size
    if at_ + size ≤ from_ || (s.tableFault ctx pa 8).isSome then none
    else
      let e := s.homeWord pa
      let next := if level < 3 then field e 7 49 * 128 else field e 17 39 * 0x20000
      if e.getLsbD 2 then some (pa, true, at_, size)
      else if dirtyFollows level e && s.populated next then s.nextMark ctx from_ left next at_ else none

/-- The pre-copy engine writes a word of the dirty map (R49, R117). -/
def State.putMark (s : State) (pa : Nat) (w : Word) : State :=
  ((s.unhold (pa / 128)).fixIn pa 8).putHome pa ((toBytes 8 w.toNat).map some)

/-- Swap a mark with zero at its home, an entry's ALL bit alone: the pages it marked are due, and the round moves on behind it. -/
def State.takeMark (s : State) (ctx : Nat) (m : Nat × Bool × Nat × Nat) : State :=
  let (pa, all, first, n) := m
  let w := s.homeWord pa
  let runs := if all then [(ctx, first, n)] else ((List.range 64).filter w.getLsbD).map fun i => (ctx, first + i, 1)
  { s.putMark pa (if all then w &&& ~~~4 else 0) with precopy := s.precopy ++ runs, preAt := s.preAt.put ctx (first + n) }

/-- The next page of a context whose mark is cleared, and the runs without it. -/
def takePage (ctx : Nat) : List (Nat × Nat × Nat) → Option (Nat × List (Nat × Nat × Nat))
  | [] => none
  | (c, lo, n) :: rest =>
    if c == ctx && n != 0 then some (lo, if n == 1 then rest else (c, lo + 1, n - 1) :: rest)
    else (takePage ctx rest).map fun r => (r.1, (c, lo, n) :: r.2)

/-- The physical sectors of a page, through its leaf. -/
def State.pageSectors (s : State) (l : Leaf) (vpn : Nat) : List Nat :=
  (List.range 32).map fun i => s.leafPa l (vpn * 4096 + 128 * i)

/-- What the engine finds of a page: nothing to send where it is not mapped to the near store or the pool, no reading where it must
wait (R64, R139), a word or a key that fails, or its record: guard words and bytes, zeros where it is zero-pending. -/
inductive PageRead where
  | none
  | busy
  | bad (pa : Nat)
  | record (r : PageRec)
  deriving Repr

def State.readPage (s : State) (ctx vpn : Nat) : State × PageRead :=
  match s.xlate (s.gwXer s.primaryGw) ctx (vpn * 4096) with
  | (s, .error _) => (s, .none)
  | (s, .ok l) =>
    let pas := s.pageSectors l vpn
    if l.kind == 2 || !(pas.all sealedTier) then (s, .none)
    else if pas.any fun pa => s.busyAt pa 128 then (s, .busy)
    else match pas.find? fun pa => s.badIn pa 128 || s.keyClash pa (l.kid.getD ctx) with
      | some pa => (s, .bad pa)
      | _ => (s, .record { ctx := ctx, vpn := vpn,
                           guards := pas.map fun pa => if (s.sector (pa / 128)).zp then 0 else (s.sector (pa / 128)).guard,
                           data := pas.flatMap fun pa => s.homeBytes pa 128 })

/-- Read and send the next page of a context whose mark is cleared, sealed on the migration stream; it comes again while it must
wait, and one that cannot be read is marked again. -/
def State.sendPage (s : State) (ctx : Nat) : State :=
  match takePage ctx s.precopy with
  | none => s
  | some (vpn, runs) => match s.readPage ctx vpn with
    | (s, .busy) => s.again (.precopyPage ctx)
    | (s, .none) => { s with precopy := runs }
    | (s, .bad pa) => (match ({ s with precopy := runs } : State).markDirty ctx (vpn * 4096) pa with
      | .ok s => s
      | .error _ => { s with precopy := runs })
    | (s, .record r) =>
      let s : State := { s with precopy := runs }
      { s.sealPkt s.primaryGw migrationStream (.streamSend s.primaryGw migrationStream false) none with sent := s.sent ++ [r] }

/-- The pre-copy engine goes on in its round: it clears the next mark before it reads what that marked, page by page in curve order;
behind the last mark the next round begins (R49, R434). DEDUCED, log 98. -/
def execPrecopyPage (s : State) : Out :=
  match s.event with
  | some (.precopyPage ctx) =>
    let s := s.taken
    if (s.stream s.primaryGw migrationStream).stuck then .next (s.sealPkt s.primaryGw migrationStream (.precopyPage ctx) none)
    else if (takePage ctx s.precopy).isSome then .next (s.sendPage ctx)
    else if !((s.ctx ctx).tctl.getLsbD 0) then .next s
    else match s.nextMark ctx (s.preAt.get ctx 0) 3 (field (s.ctx ctx).dtroot 11 45 * 2048) 0 with
      | some m => .next (if s.reserved m.1 8 then s.again (.precopyPage ctx) else (s.takeMark ctx m).sendPage ctx)
      | none => .next { s with preAt := s.preAt.put ctx 0 }
  | _ => .fault .noSubject

/-- Write a received page sector by sector, with its guard words. -/
def State.pageWrite (s : State) (ctx kid : Nat) : List (Nat × Nat × List Byte × BitVec 32) → Wrote
  | [] => .done s
  | (va, pa, bs, g) :: rest =>
    match s.engineWrite (.gateway s.primaryGw) ctx kid va pa (bs.map some) 0 with
    | .done s => State.pageWrite (s.modSector (pa / 128) fun x => { x with guard := g }) ctx kid rest
    | .fault s _ => State.pageWrite s ctx kid rest
    | .wait => .wait

/-- A page record arrives and is written through the destination context's mapping. DEDUCED, log 99. -/
def execPageRecordReceive (s : State) : Out :=
  match s.event with
  | some (.pageRecordReceive ctx vpn guards data) =>
    let e : Event := .pageRecordReceive ctx vpn guards data
    let s := s.taken
    match s.xlate (s.gwXer s.primaryGw) ctx (vpn * 4096) with
    | (s, .error _) => .next s
    | (s, .ok l) =>
      let pas := s.pageSectors l vpn
      if l.kind == 2 || !(pas.all sealedTier) then .next s
      else
        let work := pas.zipIdx.map fun (pa, i) =>
          (vpn * 4096 + 128 * i, pa, (List.range 128).map (fun j => (data[128 * i + j]?).getD 0), (guards[i]?).getD 0)
        match s.pageWrite ctx (l.kid.getD ctx) work with
        | .done s => .next s
        | .fault s _ => .next s
        | .wait => .next (s.again e)
  | _ => .fault .noSubject

/-! ### Streams (R393 to R395) -/

def execStreamSend (s : State) : Out :=
  match s.event with
  | some (.streamSend gw i req) => .next (s.taken.sealPkt gw i (.streamSend gw i req) (if req then some none else none))
  | _ => .fault .noSubject

def execStreamReceive (s : State) : Out :=
  match s.event with
  | some (.streamReceive gw i phase comp) => .next (s.taken.modStream gw i fun x => x.receive phase comp)
  | _ => .fault .noSubject

def execOldKeyTimeout (s : State) : Out :=
  match s.event with
  | some (.oldKeyTimeout gw i) =>
    let s := s.taken
    if (s.stream gw i).oldDue s.clock then .next (s.modStream gw i Stream.dropOld) else .next s
  | _ => .fault .noSubject

/-- A request's completion has not come within the stream's timeout, or came under a key that is no longer held: the access that
waits for it faults with uncorrectable-data (R395). DEDUCED, log 101. -/
def execCompletionTimeout (s : State) : Out :=
  match s.event with
  | some (.completionTimeout gw i t) =>
    let s := s.taken
    let x := s.stream gw i
    match x.out.find? fun r => x.late s.clock r && ((r.step.bind reqOf).any fun q => q.tag == t) with
    | some r => match r.step with
      | some e => .next (((s.unsend gw i e).forget e).timedOut e)
      | none => .next s
    | none => .next s
  | _ => .fault .noSubject

end Sys2Proof.Machine
end

