-- ==== Sys2Proof/Machine/Trust.lean ====
section
/-!
DEFINITION. The trust core: registers the host and the trust core write (R374, R431), the command queue (R383, R431),
contexts, cores, stiles, keys, host map windows and attestation (R382 to R398, R441).
-/
namespace Sys2Proof.Machine
open Sys2Proof

/-! ### The command queue (R383, R431) -/

/-- The command that a code names, for a slot. -/
def commandOf (code i : Nat) : Option Event :=
  match code with
  | 1 => some (.create i)
  | 2 => some (.addcore i)
  | 3 => some (.remcore i)
  | 4 => some (.setquota i)
  | 5 => some (.grant i)
  | 6 => some (.install i)
  | 7 => some (.revoke i)
  | 8 => some (.sharekey i)
  | 9 => some (.stop i)
  | 10 => some (.destroy i)
  | 11 => some (.exportKeys i)
  | 12 => some (.importKeys i)
  | 13 => some (.attest i)
  | 14 => some (.streamkey i)
  | 15 => some (.hostmap i)
  | _ => none

/-- Word 0 of a command. -/
def cmdCode (w : Word) : Nat := field w 0 8
def cmdTenant (w : Word) : Bool := w.getLsbD 8
def cmdSess (w : Word) : Nat := field w 16 16
def cmdLen (w : Word) : Nat := field w 32 16
def cmdBad (w : Word) : Bool := field w 9 7 != 0 || field w 48 16 != 0 || 232 < cmdLen w

/-- A command completes: word 31, then word 30, then its TCQST bit. -/
def State.cmdDone (s : State) (i status result : Nat) : State :=
  { s with
    cmds := s.cmds.put i (setAt (setAt (s.cmdWords i) 31 (wd result)) 30 (wd (2 ^ 63 + status)))
    tcqst := s.tcqst &&& ~~~(1#16 <<< i)
    tcq := s.tcq.tail
    tcstage := 0 }

/-- The trust core takes a doorbell: the slot's command joins the queue.  A word that names no command joins it too, and completes
as malformed in its turn.  Before bring-up has ended no trust core runs (R439). DEDUCED, log 102. -/
def State.doorbell (s : State) (i : Nat) : State :=
  if s.tcqst.getLsbD i || !s.up then s
  else
    let e := (commandOf (cmdCode ((s.cmdWords i)[0]?.getD 0)) i).getD (.create i)
    { s with tcqst := s.tcqst ||| (1#16 <<< i), tcq := s.tcq ++ [e] }

/-- The bits of a register that are not reserved: reserved ones read as zero (R31, R39, R40, R62, R101, R168, R180, R181,
R299, R369). -/
def regMask (r : DevReg) : Word :=
  match r with
  | .lqcfg .. => 0xF
  | .troot _ => 0x00FFFFFFFFFFF801
  | .tctl _ => 1
  | .dtroot _ => 0x00FFFFFFFFFFF800
  | .supv _ => 0x7FFFFF
  | .csched _ => 0x7FFF
  | .rkquota _ => 0xF
  | .aspill _ | .dsqcfg _ => 0xFFFFFFFFFFFFF000
  | .tccb _ => 0x00FFFFFFFFFFE000
  | .wcap _ => 0xF
  | .hpool => 0x0000FFFF03FFF000
  | .spread _ => 0xFFF
  | .dhome => 0xFFFFFFFF
  | .pccfg => 0xF
  | .nroute .. => 0x1FF
  | .tskm _ | .stile .. | .note .. | .io .. => ~~~0

/-- The pool cache has at most 8 units and does not reach below offset 0 (R62). -/
def State.pcFits (s : State) : Bool :=
  s.pcsz ≤ 8 && s.pcsz * 0x400000 ≤ if s.hcyc == 0 then 0x4000000 else s.hbase

/-- The alarm bits that the host clears: FATAL, UEA, TALM, VALM. -/
def alarmBits : Word := 0xD8

/-- The host writes HEALTH: each alarm bit that it names clears, but for one raised on the same clock (R436). -/
def State.clearAlarms (s : State) (v : Word) : State :=
  let keep := if s.alarms.1 == s.clock then s.alarms.2 else 0
  { s with health := s.health &&& ~~~(v &&& alarmBits &&& ~~~keep) }

/-- An 8-byte host write at an offset of a gateway's register space (R431): HEALTH, GWSTART, the doorbell and the command slots at the
primary gateway, a launch queue's configuration; anywhere else it is ignored. -/
def State.ioWrite (s : State) (gw off : Nat) (v : Word) : State :=
  if off % 8 != 0 then s
  else if off == 0x00 then s.clearAlarms v
  else if off == 0x10 then s.gwstart gw v
  else if off == 0x20 then (if gw == s.primaryGw then s.doorbell (field v 0 4) else s)
  else if 0x1000 ≤ off && off < 0x2000 then
    (let i := (off - 0x1000) / 0x100
     if gw == s.primaryGw then { s with cmds := s.cmds.put i (setAt (s.cmdWords i) (off % 0x100 / 8) v) } else s)
  else if 0x200000 ≤ off && off < 0x201000 then
    s.modLq gw ((off - 0x200000) / 64) ((off - 0x200000) / 8 % 8) fun l => { l with cfg := v &&& 0xF }
  else s

/-- A register's new value.  A write that would break R62 is not made (DESIGN CHOICE, log 129). -/
def State.regWrite (s : State) (r : DevReg) (v : Word) : State :=
  let v := v &&& regMask r
  match r with
  | .lqcfg gw ctx q => s.modLq gw ctx q fun l => { l with cfg := v }
  | .troot c => s.modCtx c fun x => { x with troot := v }
  | .tctl c => s.modCtx c fun x => { x with tctl := v }
  | .dtroot c => s.modCtx c fun x => { x with dtroot := v }
  | .tskm c => s.modCtx c fun x => { x with tskm := v }
  | .supv c => s.modCtx c fun x => { x with supv := v }
  | .csched c => s.setCsched c v
  | .rkquota c => s.modCtx c fun x => { x with rkquota := v }
  | .aspill c => s.modCore c fun x => { x with aspill := v }
  | .tccb c => s.modCore c fun x => { x with tccb := v }
  | .stile c i => s.modCore c fun x => { x with stile := x.stile.put i v }
  | .wcap c => s.modCore c fun x => { x with mxcfg := setField x.mxcfg 4 4 v.toNat }
  | .hpool => let t : State := { s with hpool := v }; if t.pcFits then t else s
  | .spread e => { s with spread := s.spread.put e v }
  | .dhome => { s with dhome := v }
  | .pccfg => let t : State := { s with pccfg := v }; if t.pcFits then t else s
  | .nroute n d => { s with nroute := s.nroute.put (16 * n + d) (v.extractLsb' 0 16) }
  | .dsqcfg d => s.modDie d fun x => { x with dsqcfg := v }
  | .note c n => s.modCtx c fun x => { x with notes := x.notes ++ toBytes n v.toNat }
  | .io gw off => s.ioWrite gw off v

def execRegisterWrite (s : State) : Out :=
  match s.event with
  | some (.registerWrite r v) => .next (s.taken.regWrite r v)
  | _ => .fault .noSubject

/-! ### Operands (R383, R431) -/

/-- An opened command: the context that its session is bound to, for a tenant's, and its operand words. -/
structure Cmd where
  tenant : Option Nat
  ops    : List Word
  deriving Repr

/-- The operand bytes of a slot. -/
def State.cmdBytes (s : State) (i len : Nat) : List Byte :=
  ((s.cmdWords i).drop 1).flatMap (fun w => toBytes 8 w.toNat) |>.take len

/-- Open a block sealed as a 12-byte nonce, the ciphertext and a 16-byte tag; `none` when the tag fails. -/
def openSealed (key : Nat) (bs : List Byte) : Option (List Byte) :=
  let ivGen := ofBytes (bs.take 4)
  let count := ofBytes ((bs.take 12).drop 4)
  let body := (bs.drop 12).take (bs.length - 28)
  let tag := Config.gcmTag key ivGen count [] body
  if bs.drop (bs.length - 16) == (List.range 16).map (fun j => (tag[j]?).getD 0) then some (gcmXor key ivGen count body) else none

/-- Seal a block in that form under a nonce. -/
def sealBlock (key ivGen count : Nat) (bs : List Byte) : List Byte :=
  let body := gcmXor key ivGen count bs
  let tag := Config.gcmTag key ivGen count [] body
  toBytes 4 ivGen ++ toBytes 8 count ++ body ++ (List.range 16).map fun j => (tag[j]?).getD 0

/-- Open a command: a tenant's under its session's key; or the status that refuses it. -/
def State.openCmd (s : State) (i : Nat) : Except Nat Cmd :=
  let w := (s.cmdWords i)[0]?.getD 0
  let bs := s.cmdBytes i (cmdLen w)
  if cmdBad w then .error 4
  else if !(cmdTenant w) then .ok { tenant := none, ops := wordsFrom (cmdLen w / 8) bs }
  else match s.sessions.get? (cmdSess w) with
    | none => .error 1
    | some x =>
      if cmdLen w < 28 then .error 4
      else match openSealed x.key bs with
        | none => .error 1
        | some clear => .ok { tenant := some x.ctx, ops := wordsFrom (clear.length / 8) clear }

/-- Who may issue a command. -/
inductive Issuer where
  | host | tenant | both
  deriving DecidableEq, Repr

def Issuer.allows (x : Issuer) (tenant : Bool) : Bool :=
  match x with
  | .host => !tenant
  | .tenant => tenant
  | .both => true

/-- A command with its operands: the one that its slot names, at least `n` words, from an issuer that may give it.
DESIGN CHOICE, log 103. -/
def withCmd (s : State) (get : Event → Option Nat) (who : Issuer) (n : Nat)
    (body : State → Nat → Option Nat → (Nat → Word) → State) : Out :=
  match s.event.bind get with
  | none => .fault .noSubject
  | some i =>
    let named := commandOf (cmdCode ((s.cmdWords i)[0]?.getD 0)) i == s.event
    let s := s.taken
    match if named then s.openCmd i else .error 4 with
    | .error st => .next (s.cmdDone i st 0)
    | .ok c =>
      if !(who.allows c.tenant.isSome) then .next (s.cmdDone i 1 0)
      else if c.ops.length < n then .next (s.cmdDone i 4 0)
      else .next (body s i c.tenant fun j => (c.ops[j]?).getD 0)

/-- A tenant's session names the context it acts on; a host's command needs none. -/
def namesCtx (tenant : Option Nat) (ctx : Nat) : Bool :=
  match tenant with
  | some t => t == ctx
  | none => true

/-- A live context of an operand. -/
def State.liveCtx (s : State) (w : Word) : Bool := w.toNat < 64 && (s.ctx w.toNat).live

/-! ### Keys (R389, R390) -/

/-- A fresh value of `n` words. -/
def State.draw (s : State) : Nat → Nat × State
  | 0 => (0, s)
  | n + 1 =>
    let (w, s) := s.free
    let (r, s) := s.draw n
    (w.toNat + 2 ^ 64 * r, s)

/-- The lowest free id (R382). -/
def State.freeId (s : State) : Option Nat := (List.range 64).find? fun i => !(s.ctx i).live && !(s.shared.contains i)

/-- Mark zero-pending every sector that carries one of some key ids (R71, R385). -/
def State.scrubKeys (s : State) (ids : List Nat) : State :=
  let hit := fun (p : Nat × Sector) => p.2.kid.any ids.contains && sealedTier (128 * p.1)
  let s := ((s.secs.filter fun p => hit p && p.2.host.isSome).map (·.1)).foldl State.unhold s
  { s with secs := s.secs.map fun (n, x) =>
      (n, if hit (n, x) then { x with zp := true, guard := 0 } else x) }

/-- Send a key id's key to every sealing unit. -/
def State.loadKey (s : State) (kid : Nat) : State :=
  ({ s with keyIds := s.keyIds.filter (· != kid) } : State).due (.keyLoad kid)

/-- Every sealing unit has acknowledged the load of a key id. -/
def execKeyLoad (s : State) : Out :=
  match s.event with
  | some (.keyLoad kid) =>
    let s := s.taken
    .next { s with keyIds := if s.keyIds.contains kid then s.keyIds else s.keyIds ++ [kid] }
  | _ => .fault .noSubject

/-! ### Contexts and cores (R382 to R385) -/

/-- Word 3 of a context record (R384). -/
def recBanks (w : Word) : Nat := field w 58 4
def recMaxcls (w : Word) : Nat := field w 55 3
def recQuota (w : Word) : Nat := field w 43 12
def recSpill (w : Word) : Nat := field w 35 8
def recShmax (w : Word) : Nat := field w 29 6

/-- Word 3 has a reserved bit, or more banks than an array has. -/
def flagsBad (w : Word) : Bool := field w 0 29 != 0 || 8 < recBanks w

/-- A record with a reserved bit. -/
def recordBad (troot dtroot supv flags : Word) : Bool :=
  field troot 56 8 != 0 || field troot 1 10 != 0 || field dtroot 56 8 != 0 || field dtroot 0 11 != 0 ||
    field supv 23 41 != 0 || flagsBad flags

/-- CSCHED of word 3 (R384). -/
def recCsched (w : Word) : Word := wd (recMaxcls w * 2 ^ 12 + recQuota w)

/-- The quota fields of word 3 (R384). -/
def Ctx.quotas (x : Ctx) (w : Word) : Ctx :=
  { x with rkquota := wd (recBanks w), csched := recCsched w, spillSize := recSpill w,
           shmax := recShmax w }

/-- The context of a record. -/
def newCtx (troot dtroot supv flags : Word) (kx ki : Nat) : Ctx :=
  ({ live := true, troot := troot, tctl := wd (bit1 (flags.getLsbD 62)), dtroot := dtroot, supv := supv, savecnt := 1,
     kx := kx, ki := ki, priv := flags.getLsbD 63, made := true } : Ctx).quotas flags

/-- The command at hand is going on: its number. -/
def cmdOf (s : State) (get : Event → Option Nat) : Option Nat := if s.tcstage == 0 then none else s.event.bind get

def State.createGo (s : State) (i : Nat) (troot dtroot supv flags : Word) : State :=
  if recordBad troot dtroot supv flags then s.cmdDone i 4 0
  else match s.freeId with
    | none => s.cmdDone i 3 0
    | some id =>
      let (kx, s) := s.draw 8
      let (ki, s) := s.draw 4
      { ((s.scrubKeys [id]).setCtx id (newCtx troot dtroot supv flags kx ki)).loadKey id with tcstage := id + 1 }

/-- CREATE: it completes once the context's key is in every sealing unit. DEDUCED, log 105. -/
def execCreate (s : State) : Out :=
  let get := fun e => match e with | Event.create i => some i | _ => none
  match cmdOf s get with
  | some i =>
    let s := s.taken
    .next (if s.keyIds.contains (s.tcstage - 1) then s.cmdDone i 0 (s.tcstage - 1) else s)
  | none => withCmd s get .host 4 fun s i _ op => s.createGo i (op 0) (op 1) (op 2) (op 3)

/-- Byte ranges of a core's scratchpad and instruction store. -/
def inCore (c a : Nat) : Bool :=
  (scratchBase c ≤ a && a < scratchBase c + 0x40000) || (istoreBase c ≤ a && a < istoreBase c + 0x20000)

/-- A core without contents: only what tells late answers apart stays (the run numbers and invalidation counts). -/
def Core.cleared (k : Core) : Core :=
  { slots := k.slots.map fun x => { runs := x.runs }, epochs := k.epochs }

/-- A copse without commands of a core. -/
def Copse.without (x : Copse) (c : Nat) : Copse :=
  let other := fun (r : Option Run) => r.filter fun y => y.core != c
  { x with mul := other x.mul, fill := other x.fill }

/-- Zero a core (R55): its registers, scratchpad, instruction store, accumulators and watches. -/
def State.zeroCore (s : State) (c : Nat) : State :=
  let s := { s with
    mem := memZero (memZero s.mem (scratchBase c) (scratchBase c + 0x40000)) (istoreBase c) (istoreBase c + 0x20000)
    secs := s.secs.filter fun p => !(inCore c (128 * p.1))
    ops := s.ops.filter fun o => o.core != c
    colls := s.colls.filter fun g => g.core != c }
  (s.setCore c (s.core c).cleared).modCopse (c / 8) (·.without c)

/-- A core joins a context, with its registers (R168, R169, R382) and the standard drover in slot 7 (log 19). -/
def State.joinCore (s : State) (c ctx : Nat) : State :=
  let s := s.zeroCore c
  let x := s.ctx ctx
  let drover : Slot := { (s.slot c 7) with occ := true, th := { ctx := ctx, tid := s.nextId + 1 } }
  let s := s.modCore c fun k => ({ k with
    ctx := some ctx
    aspill := wd (x.spillSize * 2 ^ 56 + field (Config.arrivalSpillBase c) 12 44 * 2 ^ 12)
    tccb := wd (field (Config.contextBackingBase c) 13 43 * 2 ^ 13)
    croot := x.croot } : Core).setSlot 7 drover
  let s := s.modCtx ctx fun x => { x with made := false, mixAt := (x.mixAt.put (homeKey (.scratch c)) x.mixdbg).put (homeKey (.istore c)) x.mixdbg }
  { s with nextId := s.nextId + 1 }

/-- ADDCORE core, context. -/
def execAddcore (s : State) : Out :=
  withCmd s (fun e => match e with | .addcore i => some i | _ => none) .host 2 fun s i _ op =>
    let c := (op 0).toNat
    if 2048 ≤ c || !(s.dieLive (c / 128)) || (s.core c).ctx.isSome || !(s.liveCtx (op 1)) then s.cmdDone i 1 0
    else (s.joinCore c (op 1).toNat).cmdDone i 0 0

/-- The slots, thread-context cache and arrival queue of a core are empty; the built-in drover is no thread of the
context. -/
def Core.idle (k : Core) : Bool :=
  k.freeSlots.length == 7 && (!(k.slot 7).occ || !k.drvExp) && k.cache.isEmpty && k.backing.isEmpty && k.aq.isEmpty &&
    k.spill.isEmpty

/-- REMCORE core. -/
def execRemcore (s : State) : Out :=
  withCmd s (fun e => match e with | .remcore i => some i | _ => none) .host 1 fun s i _ op =>
    let c := (op 0).toNat
    match (s.core c).ctx with
    | none => s.cmdDone i 1 0
    | some ctx =>
      if s.supvCore ctx == c && 1 < (s.coresOf ctx).length then s.cmdDone i 1 0
      else if !(s.core c).idle then s.cmdDone i 2 0
      else (s.modCore c fun k => ({ k with ctx := none } : Core).setSlot 7 { runs := (k.slot 7).runs }).cmdDone i 0 0

/-- SETQUOTA context, word 3 of a record. -/
def execSetquota (s : State) : Out :=
  withCmd s (fun e => match e with | .setquota i => some i | _ => none) .host 2 fun s i _ op =>
    if flagsBad (op 1) then s.cmdDone i 4 0
    else if !(s.liveCtx (op 0)) then s.cmdDone i 1 0
    else ((s.setCsched (op 0).toNat (recCsched (op 1))).modCtx (op 0).toNat (·.quotas (op 1))).cmdDone i 0 0

/-! ### Stiles (R386 to R388) -/

/-- The fields of a handle. -/
def handleIdx (h : Word) : Nat := field h 52 12
def handleGen (h : Word) : Nat := field h 32 20
def handleChk (h : Word) : BitVec 32 := h.extractLsb' 0 32

def StileEnt.chk (e : StileEnt) (key idx : Nat) : BitVec 32 := Config.stileCheck key idx e.gen e.grantee e.content

/-- The handle of a registry entry. -/
def StileEnt.handle (e : StileEnt) (key idx : Nat) : Nat := idx * 2 ^ 52 + e.gen * 2 ^ 32 + (e.chk key idx).toNat

/-- The registry entry that a handle names now: its check and generation are right. -/
def State.stile? (s : State) (h : Word) : Option StileEnt :=
  (s.stiles.get? (handleIdx h)).filter fun e =>
    e.live && e.gen == handleGen h && e.chk s.stileKey (handleIdx h) == handleChk h

/-- The fields of a stile entry (R98) that name its destination context, its kind and its key id. -/
def entCtx (e : Word) : Nat := field e 52 6
def entKid (e : Word) : Nat := field e 16 6

/-- A key id that both contexts of a stile may use: the destination's own, or one they share. -/
def State.kidOk (s : State) (kid dest grantee : Nat) : Bool :=
  kid == dest || (s.shared.contains kid && (s.ctx dest).tskm.getLsbD kid && (s.ctx grantee).tskm.getLsbD kid)

/-- What a stile names is the issuing context's: a core or channel of its cores, or a collective group of its own (R386).
DESIGN CHOICE, log 110. -/
def State.grantOk (s : State) (ctx grantee : Nat) (e : Word) : Bool :=
  entCtx e == ctx && stileKind e != 3 && (if stileKind e == 2 then Config.groupCtx (stileGroup e) == ctx else (s.core (stileCore e)).ctx == some ctx) &&
    s.kidOk (entKid e) ctx grantee

/-- GRANT contents, grantee. -/
def execGrant (s : State) : Out :=
  withCmd s (fun e => match e with | .grant i => some i | _ => none) .tenant 2 fun s i t op =>
    let e := op 0
    if e.getLsbD 43 || field e 0 16 != 0 then s.cmdDone i 4 0
    else if !(namesCtx t (entCtx e)) || !(s.liveCtx (op 1)) || !(s.grantOk (entCtx e) (op 1).toNat e) then s.cmdDone i 1 0
    else match (List.range 4096).find? fun n => !((s.stiles.get n {}).live) with
      | none => s.cmdDone i 1 0
      | some n =>
        let x : StileEnt := { (s.stiles.get n {}) with live := true, content := e ||| wd (2 ^ 63), grantee := (op 1).toNat, mask := [] }
        ({ s with stiles := s.stiles.put n x }).cmdDone i 0 (x.handle s.stileKey n)

/-- A write of a core's stile table leaves the primary trust core (R387). -/
def State.stileWrite (s : State) (c i : Nat) (v : Word) : State :=
  s.postMgmt (s.gwEnd s.primaryGw (nodeOf (c / 8))) (coreEnd c) 0 (.registerWrite (.stile c i) v)

/-- INSTALL handle, core, index. DEDUCED, log 106. -/
def execInstall (s : State) : Out :=
  withCmd s (fun e => match e with | .install i => some i | _ => none) .tenant 3 fun s i t op =>
    let c := (op 1).toNat
    let n := (op 2).toNat
    if 63 < n then s.cmdDone i 4 0
    else match s.stile? (op 0) with
      | none => s.cmdDone i 1 0
      | some e =>
        if !(namesCtx t e.grantee) || !(s.hosts c e.grantee) then s.cmdDone i 1 0
        else
          let x := { e with mask := if e.mask.contains (64 * c + n) then e.mask else e.mask ++ [64 * c + n] }
          (({ s with stiles := s.stiles.put (handleIdx (op 0)) x }).stileWrite c n e.content).cmdDone i 0 0

/-- End a stile: its generation rises and every slot of its mask is cleared. -/
def State.endStile (s : State) (n : Nat) : State :=
  let e := s.stiles.get n {}
  e.mask.foldl (fun s m => s.stileWrite (m / 64) (m % 64) 0)
    { s with stiles := s.stiles.put n { e with gen := (e.gen + 1) % 2 ^ 20, live := false, mask := [] } }

/-- A clear of a stile-table slot has not reached its core. -/
def clearing (e : Event) : Bool :=
  match e with
  | .registerWrite (.stile _ _) v => v == 0
  | _ => false

def State.stilesCleared (s : State) : Bool := !(s.pending.any clearing) && !(s.flits.any fun f => clearing f.pkt.deliver)

/-- REVOKE handle: it completes once every core has acknowledged. -/
def execRevoke (s : State) : Out :=
  let get := fun e => match e with | Event.revoke i => some i | _ => none
  match cmdOf s get with
  | some i =>
    let s := s.taken
    .next (if s.stilesCleared then s.cmdDone i 0 0 else s)
  | none => withCmd s get .both 1 fun s i t op =>
    match s.stile? (op 0) with
    | none => s.cmdDone i 1 0
    | some e =>
      if namesCtx t (entCtx e.content) then { s.endStile (handleIdx (op 0)) with tcstage := 1 } else s.cmdDone i 1 0

/-! ### Shared keys (R383) -/

/-- Shared key ids that a context holds. -/
def Ctx.sharedIds (x : Ctx) : List Nat := (List.range 64).filter x.tskm.getLsbD

def Ctx.holdKey (x : Ctx) (id : Nat) : Ctx := { x with tskm := x.tskm ||| wd (2 ^ id) }

/-- SHAREKEY has both tenants: the session of one gives the command for a pair that the other's has asked for. -/
def State.asked (s : State) (me other : Nat) : Bool := s.shareAsk.contains (other, me)

/-- SHAREKEY context, context: the first of the two tenants to give it is told BUSY; with the other's the key is drawn, and the command
completes once it is in every sealing unit. DESIGN CHOICE, log 104. -/
def execSharekey (s : State) : Out :=
  let get := fun e => match e with | Event.sharekey i => some i | _ => none
  match cmdOf s get with
  | some i =>
    let s := s.taken
    let n := s.tcstage - 1
    let id := n % 64
    .next (if s.keyIds.contains id then ((s.modCtx (n / 64 % 64) (·.holdKey id)).modCtx (n / 4096) (·.holdKey id)).cmdDone i 0 id
           else s)
  | none => withCmd s get .tenant 2 fun s i t op =>
    let a := (op 0).toNat
    let b := (op 1).toNat
    let full := fun (c : Nat) => (s.ctx c).shmax ≤ (s.ctx c).sharedIds.length
    let me := t.getD a
    let other := if me == a then b else a
    if !(s.liveCtx (op 0)) || !(s.liveCtx (op 1)) || a == b || !(namesCtx t a || namesCtx t b) || full a || full b then
      s.cmdDone i 1 0
    else if !(s.asked me other) then
      ({ s with shareAsk := if s.shareAsk.contains (me, other) then s.shareAsk else s.shareAsk ++ [(me, other)] }).cmdDone i 2 0
    else match s.freeId with
      | none => s.cmdDone i 3 0
      | some id =>
        let (kx, s) := s.draw 8
        let s := s.scrubKeys [id]
        { ({ s with shared := s.shared ++ [id], sharedKx := s.sharedKx.put id kx, shareAsk := s.shareAsk.erase (other, me) }).loadKey id with
          tcstage := 1 + id + 64 * a + 4096 * b }

/-! ### STOP and DESTROY (R383, R385) -/

/-- The occupied slots of a context. -/
def State.occupied (s : State) (ctx : Nat) : List (Nat × Nat) :=
  (s.coresOf ctx).flatMap fun c => ((List.range 8).filter fun k => (s.slot c k).occ).map fun k => (c, k)

/-- The word of an eviction (R376). -/
def evictWord (c k : Nat) : Word := wd (k * 2 ^ 11 + c)

/-- Evict every slot of a context, as PREEMPT does. -/
def State.stopCtx (s : State) (ctx : Nat) : State :=
  (s.occupied ctx).foldl (fun s (c, k) =>
    if (s.evictOp c k).isSome then s
    else
      let s := s.discard c k
      { s with ops := s.ops ++ [{ id := s.nextId, core := trustCore, slot := 0, kind := .preempt (evictWord c k) }],
               nextId := s.nextId + 1 }) s

/-- No eviction of a slot of the context is under way. -/
def State.stopDone (s : State) (ctx : Nat) : Bool :=
  s.ops.all fun o => match o.kind with
    | .preempt w => !(preAct w == 0 && s.hosts (preCore w) ctx)
    | _ => true

/-- STOP context: it completes once every slot it found occupied has been evicted. -/
def execStop (s : State) : Out :=
  let get := fun e => match e with | Event.stop i => some i | _ => none
  match cmdOf s get with
  | some i =>
    let s := s.taken
    .next (if s.stopDone (s.tcstage - 1) then s.cmdDone i 0 0 else s)
  | none => withCmd s get .host 1 fun s i _ op =>
    if !(s.liveCtx (op 0)) then s.cmdDone i 1 0
    else { s.stopCtx (op 0).toNat with tcstage := 1 + (op 0).toNat }

/-- Step 2 of DESTROY: every stile the context granted or holds ends, and its windows close. -/
def State.destroyStiles (s : State) (ctx : Nat) : State :=
  let mine := (s.stiles.filter fun p => p.2.live && (entCtx p.2.content == ctx || p.2.grantee == ctx)).map (·.1)
  let s := mine.foldl State.endStile s
  { s with windows := s.windows.filter fun w => w.2.ctx != ctx }

/-- Step 3: the ricks of a context are revoked in every copse, and their banks scrubbed. -/
def State.destroyRicks (s : State) (ctx : Nat) : State :=
  s.copses.foldl (fun s (i, _) =>
    ((s.copse i).allRicks.filter fun r => r.ctx == ctx && r.bound).foldl (fun s r => s.revokeRick i r.handle) s) s

/-- The key ids that die with a context: its own, and shared ones that no other context holds. -/
def State.dyingIds (s : State) (ctx : Nat) : List Nat :=
  ctx :: ((s.ctx ctx).sharedIds.filter fun k => !(s.ctxs.any fun p => p.1 != ctx && p.2.live && p.2.tskm.getLsbD k))

/-- A copse keeps no translation of a context (R34, R385). -/
def Copse.dropCtx (x : Copse) (ctx : Nat) : Copse :=
  { x with tlb := x.tlb.filter fun e => e.ctx != ctx, lcache := x.lcache.filter fun e => e.1 != ctx }

/-- Steps 3 to 6. -/
def State.destroyRest (s : State) (ctx : Nat) : State :=
  let ids := s.dyingIds ctx
  let cores := s.coresOf ctx
  let s := cores.foldl State.zeroCore s
  let s := (s.destroyRicks ctx).scrubKeys ids
  let s := { s with copses := s.copses.map fun (p : Nat × Copse) => (p.1, p.2.dropCtx ctx)
                    keyIds := s.keyIds.filter fun k => !(ids.contains k)
                    shared := s.shared.filter fun k => !(ids.contains k)
                    sharedKx := s.sharedKx.filter fun p => !(ids.contains p.1)
                    shareAsk := s.shareAsk.filter fun p => p.1 != ctx && p.2 != ctx
                    sessions := s.sessions.filter fun p => p.2.ctx != ctx }
  { s with ctxs := s.ctxs.del ctx, flocks := s.flocks.filter fun p => p.1 / 256 != ctx }

/-- DESTROY context: stop, then revoke, then the rest; done only after the last step. -/
def execDestroy (s : State) : Out :=
  let get := fun e => match e with | Event.destroy i => some i | _ => none
  match cmdOf s get with
  | some i =>
    let s := s.taken
    let ctx := (s.tcstage - 1) % 64
    if s.tcstage ≤ 64 then
      .next (if s.stopDone ctx then { s.destroyStiles ctx with tcstage := s.tcstage + 64 } else s)
    else .next (if s.stilesCleared then (s.destroyRest ctx).cmdDone i 0 0 else s)
  | none => withCmd s get .host 1 fun s i _ op =>
    let ctx := (op 0).toNat
    if !(s.liveCtx (op 0)) then s.cmdDone i 1 0
    else { (s.modCtx ctx fun x => { x with stopped := true }).stopCtx ctx with tcstage := 1 + ctx }

/-! ### Export, import, attestation (R391, R392, R396 to R398) -/

/-- A range of the host window. -/
def hostRange (a n : Nat) : Bool := hostBase ≤ a && a + n ≤ reservedBase

/-- The session of a context whose tenant issues a command. -/
def State.sessionOf (s : State) (i : Nat) : Session :=
  s.sessions.get (cmdSess ((s.cmdWords i)[0]?.getD 0)) { ctx := 0, key := 0, mig := 0 }

/-- The contents of an export bundle: KI, SAVECNT, IVGEN + 1 and SHMAX. -/
def bundleBytes (x : Ctx) : List Byte :=
  toBytes 32 x.ki ++ toBytes 8 x.savecnt.toNat ++ toBytes 8 (x.ivgen + 1) ++ toBytes 8 x.shmax

def bundleLen : Nat := 84

/-- EXPORT context, host-window address: the bundle is wrapped and written, the source's counter ends, and so do the
context's sessions. -/
def execExportKeys (s : State) : Out :=
  withCmd s (fun e => match e with | .exportKeys i => some i | _ => none) .tenant 2 fun s i t op =>
    let ctx := (op 0).toNat
    let a := (op 1).toNat
    if !(s.liveCtx (op 0)) || !(namesCtx t ctx) then s.cmdDone i 1 0
    else if !(hostRange a bundleLen) then s.cmdDone i 4 0
    else
      let key := (s.sessionOf i).mig
      let (nonce, s) := s.draw 2
      let bs := sealBlock key (nonce % 2 ^ 32) (nonce / 2 ^ 32 % 2 ^ 64) (bundleBytes (s.ctx ctx))
      let s := (s.putBytes a (bs.map some)).modCtx ctx fun x => { x with savecnt := savecntEnd }
      ({ s with sessions := s.sessions.filter fun p => p.2.ctx != ctx }).cmdDone i 0 bundleLen

/-- The context of an opened bundle, with a fresh KX. -/
def Ctx.importBundle (x : Ctx) (b : List Byte) (kx : Nat) : Ctx :=
  { x with ki := ofBytes (b.take 32), savecnt := bodyWord b 4, ivgen := (bodyWord b 5).toNat, shmax := (bodyWord b 6).toNat,
           kx := kx, sealed := 0, index := 0, used := [], claims := [], seals := [], made := false }

/-- IMPORT bundle, context: into a context that CREATE has just made; it completes once the fresh KX is in every sealing unit. -/
def execImportKeys (s : State) : Out :=
  let get := fun e => match e with | Event.importKeys i => some i | _ => none
  match cmdOf s get with
  | some i =>
    let s := s.taken
    .next (if s.keyIds.contains (s.tcstage - 1) then s.cmdDone i 0 0 else s)
  | none => withCmd s get .tenant 12 fun s i t op =>
    let ctx := (op 11).toNat
    if !(s.liveCtx (op 11)) || !(namesCtx t ctx) || !(s.ctx ctx).made then s.cmdDone i 1 0
    else
      let bs := ((List.range 11).flatMap fun j => toBytes 8 (op j).toNat).take bundleLen
      match openSealed (s.sessionOf i).mig bs with
      | none => s.cmdDone i 1 0
      | some b =>
        let (kx, s) := s.draw 8
        { (s.modCtx ctx fun x => x.importBundle b kx).loadKey ctx with tcstage := 1 + ctx }

/-- A die's identity key has no leaf left (R396). -/
def Die.spent (d : Die) : Bool := 65536 ≤ d.leaf

/-- Spend a leaf; a new block of 64 is reserved when the last is used up. -/
def Die.sign (d : Die) : Die :=
  if d.spent then d
  else { d with leaf := d.leaf + 1, leafEnd := if d.leaf == d.leafEnd then d.leafEnd + 64 else d.leafEnd }

/-- RPL stands while DEG does or a die's identity leaves are spent (R436). -/
def State.setRpl (s : State) : State :=
  if s.health.getLsbD 1 || (List.range 20).any fun d => (s.die d).spent then { s with health := s.health ||| 1 } else s

/-- A new attestation key, certified with the primary gateway die's identity key (R398); with no leaf left there is none.
DEDUCED, log 107. -/
def State.newAttKey (s : State) : State :=
  if (s.die (16 + s.primaryGw)).spent then { s with attLeaf := 1024 }
  else
    let (k, s) := s.draw 4
    (({ s with attKey := k, attLeaf := 0 } : State).modDie (16 + s.primaryGw) Die.sign).setRpl

/-- Hash bytes. -/
def hash32 (bs : List Byte) : List Byte := (List.range 32).map fun j => Config.shake256 bs j

/-- The report (R398), before its signature. -/
def State.report (s : State) (ctx : Nat) (nonce : List Byte) (kem : List Byte) : List Byte :=
  let x := s.ctx ctx
  [0x49, 0x44, 0x59, 0x41] ++ toBytes 4 1 ++ nonce ++ (List.range 32).map (Config.firmwareMeasure s.image) ++
    toBytes 8 (ctx + bit1 x.priv * 256) ++ toBytes 8 x.savecnt.toNat ++ hash32 x.notes ++ hash32 kem

/-- ATTEST nonce (four words), context, host-window address: the signed report with its certificates, and a session
under the number that the slot names. -/
def execAttest (s : State) : Out :=
  withCmd s (fun e => match e with | .attest i => some i | _ => none) .both 6 fun s i t op =>
    let ctx := (op 4).toNat
    let a := (op 5).toNat
    let n := 152 + Config.signatureLength.val
    let s := if s.attLeaf == 1024 then s.newAttKey else s
    if !(s.liveCtx (op 4)) || !(namesCtx t ctx) || s.attLeaf == 1024 then s.cmdDone i 1 0
    else if !(hostRange a n) then s.cmdDone i 4 0
    else
      let (kem, s) := s.draw 4
      let (key, s) := s.draw 4
      let (mig, s) := s.draw 4
      let bs := s.report ctx ((List.range 4).flatMap fun j => toBytes 8 (op j).toNat) (toBytes 32 kem) ++
        (List.range Config.signatureLength.val).map (Config.signature s.fresh)
      let s := s.putBytes a (bs.map some)
      let sess := cmdSess ((s.cmdWords i)[0]?.getD 0)
      ({ s with attLeaf := s.attLeaf + 1, fresh := s.fresh + 1,
                sessions := s.sessions.put sess { ctx := ctx, key := key, mig := mig } }).cmdDone i 0 n

/-! ### Streams' keys and host map windows (R393, R394, R441) -/

/-- The keys of the other phase are programmed; packets held for want of them are due again. -/
def State.streamKeys (s : State) (gw n tx rx : Nat) (early : Bool) : State :=
  let x := s.stream gw n
  let s := s.modStream gw n fun x =>
    { x with keys := x.keys.put (bit1 (!x.ph)) (tx, rx), nkr := true, early := early, held := [] }
  x.held.foldl State.due s

/-- STREAMKEY gateway, stream, transmit key, receive key (four words each), early switch. -/
def execStreamkey (s : State) : Out :=
  withCmd s (fun e => match e with | .streamkey i => some i | _ => none) .host 11 fun s i _ op =>
    let gw := (op 0).toNat
    let n := (op 1).toNat
    let key := fun (j : Nat) => ofBytes ((List.range 4).flatMap fun m => toBytes 8 (op (j + m)).toNat)
    if 3 < gw || 31 < n || 1 < (op 10).toNat then s.cmdDone i 4 0
    else if (s.stream gw n).oldrx then s.cmdDone i 2 0
    else (s.streamKeys gw n (key 2) (key 6) (op 10 == 1)).cmdDone i 0 0

/-- Two ranges of the HDM range share a byte. -/
def Window.meets (w : Window) (hb len : Nat) : Bool := w.hb < hb + len && hb < w.hb + w.len

/-- HOSTMAP window, offset, length, virtual base, right. -/
def execHostmap (s : State) : Out :=
  withCmd s (fun e => match e with | .hostmap i => some i | _ => none) .tenant 5 fun s i t op =>
    let w := (op 0).toNat
    let hb := (op 1).toNat
    let len := (op 2).toNat
    let vb := (op 3).toNat
    let ctx := t.getD 0
    if 15 < w || hb % 4096 != 0 || len % 4096 != 0 || vb % 4096 != 0 || 1 < (op 4).toNat then s.cmdDone i 4 0
    else if (s.windows.get? w).any (fun x => x.ctx != ctx) then s.cmdDone i 1 0
    else if len == 0 then ({ s with windows := s.windows.del w }).cmdDone i 0 0
    else if s.windows.any fun p => p.1 != w && p.2.meets hb len then s.cmdDone i 1 0
    else
      let x : Window := { ctx := ctx, hb := hb, len := len, vb := vb, rw := op 4 == 1 }
      ({ s with windows := s.windows.put w x }).cmdDone i 0 0

end Sys2Proof.Machine
end

