-- ==== Sys2Proof/Machine/Device.lean ====
section
/-!
DEFINITION. The device as a whole: HEALTH and the monitors (R436 to R438), bring-up (R39 to R41, R55, R61, R62, R101, R102,
R430, R439), reload (R440) and loss of supply (R396).
-/
namespace Sys2Proof.Machine
open Sys2Proof

/-! ### HEALTH and the monitors (R436 to R438) -/

def execHealthClear (s : State) : Out :=
  match s.event with
  | some (.healthClear v) => .next (s.taken.clearAlarms v)
  | _ => .fault .noSubject

/-- Fields of MONCFG (R438). -/
def Die.ttrip (d : Die) : Nat := field d.moncfg 16 8
def Die.tthr (d : Die) : Nat := field d.moncfg 8 8
def Die.iss (d : Die) : Nat := field d.moncfg 4 4

/-- A value within MONCFG's limits. -/
def moncfgOk (v : Word) : Bool :=
  field v 24 40 == 0 && field v 0 4 == 0 && field v 16 8 ≤ 110 && field v 8 8 < field v 16 8 && 1 ≤ field v 4 4 && field v 4 4 ≤ 8

def execMoncfgWrite (s : State) : Out :=
  match s.event with
  | some (.moncfgWrite die v) =>
    .next (if moncfgOk v then s.taken.modDie die fun d => { d with moncfg := v } else s.taken)
  | _ => .fault .noSubject

/-- The highest reading of a die and its sensors at or above the threshold stand in its status page (R431), the raw codes and the
process-monitor counts where the trust core reads them (R438). -/
def Die.sensed (d : Die) (x : Sense) : Die :=
  { d with page := (d.page.setIfInBounds 0 (wd x.temp)).setIfInBounds 1 (wd x.n), codes := x.codes, procs := x.procs }

/-- THR stands while some die throttles. -/
def State.thrBit (s : State) : State :=
  { s with health := if s.dies.any (fun p => p.2.thr) then s.health ||| 0x20 else s.health &&& ~~~0x20 }

/-- A sensor at or above TTHR: TALM, and the die throttles. -/
def State.throttle (s : State) (die temp : Nat) : State :=
  if (s.die die).tthr ≤ temp then ((s.modDie die fun d => { d with thr := true }).alarm 4).thrBit else s

def execThermalAlarm (s : State) : Out :=
  match s.event with
  | some (.thermalAlarm die x) => .next ((s.taken.modDie die fun d => d.sensed x).throttle die x.temp)
  | _ => .fault .noSubject

/-- A sensor reaches TTRIP: FATAL, and the device stops; it is past TTHR too. -/
def execThermalTrip (s : State) : Out :=
  match s.event with
  | some (.thermalTrip die x) =>
    let s := (s.taken.modDie die fun d => d.sensed x).throttle die x.temp
    .next (if (s.die die).ttrip ≤ x.temp then s.halt else s)
  | _ => .fault .noSubject

/-- Every sensor of a die is below 90 degrees: it throttles no more. DESIGN CHOICE, log 108. -/
def execThrottleEnd (s : State) : Out :=
  match s.event with
  | some (.throttleEnd die x) =>
    let s := s.taken.modDie die fun d => d.sensed x
    .next (if x.temp < 90 then (s.modDie die fun d => { d with thr := false }).thrBit else s)
  | _ => .fault .noSubject

/-- A droop detector fires: VALM, a count, and 64 clocks in which the copse's array starts nothing. -/
def execDroop (s : State) : Out :=
  match s.event with
  | some (.droop die copse) =>
    .next (((s.taken.pageAdd die 2 1).modCopse copse fun x => { x with droopUntil := s.clock + 64 }).alarm 3)
  | _ => .fault .noSubject

/-- What the trust core alone reads, or reads directly (R393, R430, R431, R436, R438). -/
inductive TcReg where
  | health | poolcap
  | strmst (gw i : Nat)
  | moncfg (die : Nat) | codes (die : Nat) | procs (die : Nat)
  | coreCounts (core : Nat) | copseCounts (copse : Nat)
  | errors (structure_ : Nat)
  | reports
  deriving DecidableEq, Repr

/-- The words of a direct read. -/
def State.tcRead (s : State) (r : TcReg) : List Word :=
  match r with
  | .health => [s.health]
  | .poolcap => [s.poolcap]
  | .strmst gw i => [(s.stream gw i).word]
  | .moncfg d => [(s.die d).moncfg]
  | .codes d => (s.die d).codes.map wd
  | .procs d => (s.die d).procs.map wd
  | .coreCounts c => (s.core c).fixed.toList
  | .copseCounts i => (s.copse i).fixed.toList
  | .errors h => (s.errlogs.get h []).map wd
  | .reports => s.tclog.map wd

/-! ### Bring-up (R439) -/

/-- The copses of a die, and their nodes. -/
def dieNodes (d : Nat) : List Nat := (List.range 16).map fun j => nodeOf (16 * d + j)

/-- A route keeps to live dies. -/
def routeOk (live : BitVec 16) (a b : Nat) : Bool := (route a b).all fun n => live.getLsbD (dieOf (copseAt n))

/-- The cost of a waypoint to a die, when both phases keep to live dies: the hops to every node (R101). -/
def waypointCost (live : BitVec 16) (n w d : Nat) : Option Nat :=
  if routeOk live n w && (dieNodes d).all (routeOk live w) then
    some ((dieNodes d).foldl (fun c m => c + hopDist n w + hopDist w m) 0)
  else none

/-- The cheapest waypoint, the lowest node on a tie. -/
def bestWaypoint (live : BitVec 16) (n d : Nat) : Option Nat :=
  ((List.range 256).foldl (fun (best : Option (Nat × Nat)) w =>
    match waypointCost live n w d, best with
    | some c, some (b, v) => if c < b then some (c, w) else some (b, v)
    | some c, none => some (c, w)
    | none, b => b) none).map (·.2)

/-- An entry of NROUTE under basic control (R101). -/
def routeEntry (live : BitVec 16) (n d : Nat) : Option (BitVec 16) :=
  if !(live.getLsbD d) || (dieNodes d).all (routeOk live n) then none
  else (bestWaypoint live n d).map fun w => BitVec.ofNat 16 (256 + w)

/-- NROUTE of every live node: the entries with WV = 1. -/
def routeTable (live : BitVec 16) : SMap (BitVec 16) :=
  (List.range 256).flatMap fun n =>
    if live.getLsbD (dieOf (copseAt n)) then
      (List.range 16).filterMap fun d => (routeEntry live n d).map fun e => (16 * n + d, e)
    else []

/-- The live dies, ascending. -/
def diesOf (live : BitVec 16) : List Nat := (List.range 16).filter live.getLsbD

/-- SPREAD under basic control: round robin over the live dies (R41). -/
def spreadTable (ds : List Nat) : SMap Word :=
  if ds.isEmpty then []
  else (List.range 256).map fun e => (e, wd (e / ds.length * 16 + (ds[e % ds.length]?).getD 0))

/-- HPOOL under basic control: 16 MiB of each slice, and the most cycles R39 allows. -/
def hpoolWord (n : Nat) : Word := if n == 0 then 0 else wd (0x1000000 / (128 * ((256 + n - 1) / n)) * 2 ^ 32 + 0x3000000)

/-- POOLCAP (R430) and PCCFG (R62) under basic control. -/
def poolcapWord : Word := wd (min Config.poolGiB 65536 * 2 ^ 30 + bit1 Config.poolShared)
def pccfgWord : Word := if min Config.poolGiB 65536 == 0 then 0 else 4

/-- A die that is marked absent for some other pair to have a route: `none` when every pair has one (R101). -/
def firstUnrouted (live : BitVec 16) : Option Nat :=
  let missing := (List.range 256).any fun n => live.getLsbD (dieOf (copseAt n)) &&
    (List.range 16).any fun d => live.getLsbD d && !((dieNodes d).all (routeOk live n)) && (bestWaypoint live n d).isNone
  if missing then (diesOf live)[Config.absentNext live % (diesOf live).length]? else none

/-- Dies are marked absent until every pair of live nodes has a route. -/
def routable : Nat → BitVec 16 → BitVec 16
  | 0, live => live
  | n + 1, live => match firstUnrouted live with
    | some d => routable n (live &&& ~~~(1#16 <<< d))
    | none => live

/-- The gateways, of those that train, that a compute die attaches. -/
def gwsAt (gws : List Nat) (d : Nat) : List Nat := gws.filter fun g => (attachments g).any fun n => dieOf (copseAt n) == d

/-- The bundles of a compute die, with its neighbours and its gateways, pass their checks at a training (R102). -/
def bundlesGood (training : Nat) (live : BitVec 16) (gws : List Nat) (d : Nat) : Bool :=
  ((List.range 16).all fun e => !(live.getLsbD e && diesAdjacent d e) || Config.bundleGood Config.romHash training (min d e) (max d e)) &&
    (gwsAt gws d).all fun g => Config.bundleGood Config.romHash training d (16 + g)

/-- The dies that stay: a die with a disabled bundle is marked absent, and with it the attachment of a gateway there is not
used (R79, R102). -/
def authentic (training : Nat) (live : BitVec 16) (gws : List Nat) : BitVec 16 :=
  (diesOf live).foldl (fun v d => if bundlesGood training live gws d then v else v &&& ~~~(1#16 <<< d)) live

/-- Bundles of a compute die that train with live neighbours and with gateways: one leaf each (R102). -/
def bundles (live : BitVec 16) (gws : List Nat) (d : Nat) : Nat :=
  (List.range 16).countP (fun e => live.getLsbD e && diesAdjacent d e) + (gwsAt gws d).length

/-- Bundles of a gateway die: one for each attachment in a live die (R79). -/
def gwBundles (live : BitVec 16) (g : Nat) : Nat := (attachments g).countP fun n => live.getLsbD (dieOf (copseAt n))

/-- Spend leaves. -/
def Die.signs (d : Die) : Nat → Die
  | 0 => d
  | n + 1 => d.sign.signs n

/-- A die has leaves for all its bundles. -/
def Die.canSign (d : Die) (n : Nat) : Bool := !d.spent && d.leaf + n ≤ 65536

/-- The gateway dies that train: one that is spent, or runs out on the way, refuses and is absent (R396). DEDUCED, log 107. -/
def State.gwsTrain (s : State) (live : BitVec 16) : List Nat := (List.range 4).filter fun g => (s.die (16 + g)).canSign (gwBundles live g)

/-- The compute dies, of those that begin to train, whose leaves last. -/
def State.lasting (s : State) (live : BitVec 16) (gws : List Nat) : BitVec 16 :=
  (diesOf live).foldl (fun v d => if (s.die d).canSign (bundles live gws d) then v else v &&& ~~~(1#16 <<< d)) live

/-- Dies whose identity keys can still sign. -/
def State.signing (s : State) : BitVec 16 :=
  (List.range 16).foldl (fun v d => if (s.die d).spent then v else v ||| (1#16 <<< d)) 0

/-- Step 3: links train; every live die signs once for each bundle, and every gateway die once for each attachment, as far as its
leaves last; a gateway die that does not train is absent. -/
def State.train (s : State) (live : BitVec 16) (gws : List Nat) : State :=
  let s := (diesOf live).foldl (fun s d => s.modDie d fun x => x.signs (bundles live gws d)) s
  (List.range 4).foldl (fun s g =>
    s.modDie (16 + g) fun x => { x.signs (gwBundles live g) with absent := !(gws.contains g) }) s

/-- DSQCFG: the size and place that firmware chose, in the die's own slices (R180). -/
def dieSpillWord (d : Nat) : Word :=
  let w := Config.dieSpill d
  wd (field w 56 8 * 2 ^ 56 + d * 2 ^ 30 + field w 12 18 * 2 ^ 12)

/-- Step 4: the tables. -/
def State.tables (s : State) (live spare : BitVec 16) : State :=
  let ds := diesOf live
  let s := { s with dhome := wd (spare.toNat * 2 ^ 16 + live.toNat), nroute := routeTable live, spread := spreadTable ds,
                    hpool := hpoolWord ds.length, pccfg := pccfgWord, poolcap := poolcapWord }
  ds.foldl (fun s d => s.modDie d fun x => { x with dsqcfg := dieSpillWord d }) s

/-- Step 5: every core, rick bank and accumulator is zero, and no watch stands (R55). -/
def State.zeroAll (s : State) : State :=
  { s with
    mem := memZero s.mem localBase hostBase
    secs := s.secs.filter fun p => !(localBase ≤ 128 * p.1 && 128 * p.1 < hostBase)
    cores := s.cores.map fun (c, k) => (c, k.cleared)
    copses := [] }

/-- Step 6: the trust cores start, and draw the stile key (R389); FWVER, READY, DEG and RPL are set. -/
def State.ready (s : State) (live spare : BitVec 16) : State :=
  let deg := spare != 0 || live != 0xFFFF
  let (key, s) := s.draw 4
  ({ s with up := true, fwver := Config.firmwareVersion s.image, stileKey := key,
            health := s.health ||| wd (4 + bit1 deg * 2) } : State).newAttKey.setRpl

/-- Bring-up: an image that fails the boot ROM's check waits for a reload. DEDUCED, log 107. -/
def execBringUp (s : State) : Out :=
  match s.event with
  | some .bringUp =>
    let training := s.fresh
    let s := { s.taken with fresh := s.fresh + 1 }
    if !(Config.firmwareGood Config.romHash s.image) then .next s
    else
      let can := s.signing
      let fit := Config.liveDies can &&& can
      let gws := s.gwsTrain fit
      let live := routable 16 (authentic training (s.lasting fit gws) gws)
      let spare := Config.spareDies &&& live
      .next ((((s.train fit gws).tables live spare).zeroAll).ready live spare)
  | _ => .fault .noSubject

/-! ### Reset (R440) and loss of supply (R396) -/

/-- What outlives a reset: the model's clock and counters, host memory, the image that the host has written, and the leaf counters of every die. -/
def State.afterReset (s : State) : State :=
  let keep := fun (d : Die) => ({ leaf := d.leaf, leafEnd := d.leafEnd } : Die)
  { State.reset with
    clock := s.clock
    now := s.now
    fresh := s.fresh
    image := s.image
    nextId := s.nextId
    inputs := s.inputs
    mem := s.mem.filter fun c => hostBase ≤ c.1 && c.1 < reservedBase
    dies := s.dies.map fun (i, d) => (i, keep d) }

/-- The host writes the image again after a reset; bring-up starts at its first step. -/
def execFirmwareReload (s : State) : Out :=
  match s.event with
  | some (.firmwareReload image) => .next { s.afterReset with image := image }
  | _ => .fault .noSubject

/-- The supply is lost: a reserved block of leaves is skipped, never used again. -/
def execPowerCut (s : State) : Out :=
  match s.event with
  | some .powerCut =>
    let s := s.afterReset
    .next { s with dies := s.dies.map fun (i, d) => (i, { d with leaf := d.leafEnd }) }
  | _ => .fault .noSubject

end Sys2Proof.Machine
end

