-- ==== Sys2Proof/Machine/Int.lean ====
section
/-!
DEFINITION. The dataflow core, integer and quadrant instructions of pages 0 and 1 (R237 to R258).  READ and WRITE are in
Drover.lean.
-/
namespace Sys2Proof.Machine
open Sys2Proof

/-! ### Values -/

/-- Bits 127:64 of the signed product (R244). -/
def mulHigh (a b : Word) : Word := BitVec.ofInt 64 (a.toInt * b.toInt / 2 ^ 64)
/-- Bits 127:64 of the unsigned product (R244). -/
def mulHighU (a b : Word) : Word := wd (a.toNat * b.toNat / 2 ^ 64)

/-- DIV, REM, DIVU, REMU (R245): quotients rounded toward zero, remainders with the dividend's sign. -/
def divS (a b : Word) : Word := if b == 0 then BitVec.allOnes 64 else BitVec.ofInt 64 (a.toInt.tdiv b.toInt)
def remS (a b : Word) : Word := if b == 0 then a else BitVec.ofInt 64 (a.toInt.tmod b.toInt)
def divU (a b : Word) : Word := if b == 0 then BitVec.allOnes 64 else wd (a.toNat / b.toNat)
def remU (a b : Word) : Word := if b == 0 then a else wd (a.toNat % b.toNat)

/-- The shift count: the low six bits (R247). -/
def shiftCount (b : Word) : Nat := field b 0 6

def shl (a b : Word) : Word := a <<< shiftCount b
def shr (a b : Word) : Word := a >>> shiftCount b
def sar (a b : Word) : Word := BitVec.sshiftRight a (shiftCount b)
def rotl (a b : Word) : Word := a.rotateLeft (shiftCount b)

/-- Minima and maxima, absolute value (R248). -/
def minS (a b : Word) : Word := if BitVec.slt b a then b else a
def maxS (a b : Word) : Word := if BitVec.slt a b then b else a
def minU (a b : Word) : Word := if BitVec.ult b a then b else a
def maxU (a b : Word) : Word := if BitVec.ult a b then b else a
def absW (a : Word) : Word := if BitVec.slt a 0 then 0 - a else a

/-- Bit counts and reversal (R249). -/
def clzFrom : Nat → Word → Nat
  | 0, _ => 64
  | i + 1, a => if a.getLsbD i then 63 - i else clzFrom i a
def clz (a : Word) : Word := wd (clzFrom 64 a)
def ctz (a : Word) : Word := wd (lowestBit a)
def popFrom : Nat → Word → Nat
  | 0, _ => 0
  | i + 1, a => (if a.getLsbD i then 1 else 0) + popFrom i a
def popc (a : Word) : Word := wd (popFrom 64 a)
def revFrom : Nat → Word → Nat
  | 0, _ => 0
  | i + 1, a => (if a.getLsbD i then 2 ^ (63 - i) else 0) + revFrom i a
def brev (a : Word) : Word := wd (revFrom 64 a)

/-- Source width in bits of SEXT and ZEXT: 8, 16 or 32 by SUB (R250). -/
def extWidth (sub : BitVec 6) : Nat := 8 * 2 ^ sub.toNat
def sextW (sub : BitVec 6) (a : Word) : Word := BitVec.ofInt 64 (signed (extWidth sub) (field a 0 (extWidth sub)))
def zextW (sub : BitVec 6) (a : Word) : Word := wd (field a 0 (extWidth sub))

/-- Digit n of an address, n from 1 to 32 (R6, R256). -/
def digit (a : Word) (n : Nat) : Nat := field a (64 - 2 * n) 2

def qdig (a n : Word) : Word := if 1 ≤ n.toNat && n.toNat ≤ 32 then wd (digit a n.toNat) else 0
def qset (a n v : Word) : Word :=
  if 1 ≤ n.toNat && n.toNat ≤ 32 then setField a (64 - 2 * n.toNat) 2 (field v 0 2) else a
def qtrunc (a d : Word) : Word :=
  let d := min d.toNat 32
  if d == 0 then 0 else wd (a.toNat / 2 ^ (64 - 2 * d) * 2 ^ (64 - 2 * d))
def qnext (a d : Word) : Word := qtrunc a d + wd (2 ^ (64 - 2 * min d.toNat 32))
def qparent (a : Word) : Word := a >>> 2
def qchild (a b : Word) : Word := (a <<< 2) ||| wd (field b 0 2)
def qinter (a b : Word) : Word := wd (curveIndex 32 (field a 0 32) (field b 0 32))
def qsplitRow (e : Word) : Word := wd (curveRow 32 e.toNat)
def qsplitCol (e : Word) : Word := wd (curveCol 32 e.toNat)
def qdepth (a b : Word) : Word := if a == b then 32 else wd (clzFrom 64 (a ^^^ b) / 2)

/-! ### Meanings -/

def execMov (f : Form) (s : State) : Out := issueRaw (.mov f) s fun is s =>
  .next (s.emit is (if is.anyNull then .null else is.l))
def execConst (f : Form) (s : State) : Out := issue (.const f) s fun is s => .next (s.emit is (.sc (immValue f.imm)))
def execNull (f : Form) (s : State) : Out := issueRaw (.null f) s fun is s => .next (s.emit is .null)

def execAdd (f : Form) (s : State) : Out := scalar2 (.add f) s (· + ·)
def execSub (f : Form) (s : State) : Out := scalar2 (.sub f) s (· - ·)
def execMul (f : Form) (s : State) : Out := scalar2 (.mul f) s (· * ·)
def execAnd (f : Form) (s : State) : Out := scalar2 (.and f) s (· &&& ·)
def execOr (f : Form) (s : State) : Out := scalar2 (.or f) s (· ||| ·)
def execXor (f : Form) (s : State) : Out := scalar2 (.xor f) s (· ^^^ ·)
def execAndn (f : Form) (s : State) : Out := scalar2 (.andn f) s fun a b => a &&& ~~~b
def execNot (f : Form) (s : State) : Out := scalar1 (.not f) s (~~~ ·)
def execShl (f : Form) (s : State) : Out := scalar2 (.shl f) s shl
def execShr (f : Form) (s : State) : Out := scalar2 (.shr f) s shr
def execSar (f : Form) (s : State) : Out := scalar2 (.sar f) s sar
def execSel (f : Form) (s : State) : Out := scalar3 (.sel f) s fun a b x => if x.getLsbD 0 then a else b
def execTeq (f : Form) (s : State) : Out := scalar2 (.teq f) s testEq
def execTne (f : Form) (s : State) : Out := scalar2 (.tne f) s testNe
def execTlt (f : Form) (s : State) : Out := scalar2 (.tlt f) s testLt
def execTle (f : Form) (s : State) : Out := scalar2 (.tle f) s testLe
def execTltu (f : Form) (s : State) : Out := scalar2 (.tltu f) s testLtu
def execTleu (f : Form) (s : State) : Out := scalar2 (.tleu f) s testLeu
def execPand (f : Form) (s : State) : Out := scalar2 (.pand f) s predAnd
def execPor (f : Form) (s : State) : Out := scalar2 (.por f) s predOr
def execPnot (f : Form) (s : State) : Out := scalar1 (.pnot f) s predNot

/-- The exits (R254, R255).  An exit that receives null does not count as fired (R159). -/
def execBr (f : Form) (s : State) : Out := issue (.br f) s fun is s => .next (s.exitTo is is.lw none)
def execBri (f : Form) (s : State) : Out := issue (.bri f) s fun is s => .next (s.exitTo is (immValue f.imm) none)
def execCall (f : Form) (s : State) : Out := issue (.call f) s fun is s =>
  .next (s.exitTo is (immValue f.imm) (some (.sc (fallThrough is.th.regs.n is.fl.sheaf.size))))
def execRet (f : Form) (s : State) : Out := issue (.ret f) s fun is s => .next (s.exitTo is is.lw none)
def execExit (f : Form) (s : State) : Out := issue (.exit f) s fun is s =>
  .next (s.exitTo is (fallThrough is.th.regs.n is.fl.sheaf.size) none)

def execMulh (f : Form) (s : State) : Out := scalar2 (.mulh f) s mulHigh
def execMulhu (f : Form) (s : State) : Out := scalar2 (.mulhu f) s mulHighU
def execDiv (f : Form) (s : State) : Out := scalar2 (.div f) s divS
def execDivu (f : Form) (s : State) : Out := scalar2 (.divu f) s divU
def execRem (f : Form) (s : State) : Out := scalar2 (.rem f) s remS
def execRemu (f : Form) (s : State) : Out := scalar2 (.remu f) s remU
def execRot (f : Form) (s : State) : Out := scalar2 (.rot f) s rotl
def execMin (f : Form) (s : State) : Out := scalar2 (.min f) s minS
def execMax (f : Form) (s : State) : Out := scalar2 (.max f) s maxS
def execMinu (f : Form) (s : State) : Out := scalar2 (.minu f) s minU
def execMaxu (f : Form) (s : State) : Out := scalar2 (.maxu f) s maxU
def execAbs (f : Form) (s : State) : Out := scalar1 (.abs f) s absW
def execNeg (f : Form) (s : State) : Out := scalar1 (.neg f) s (0 - ·)
def execClz (f : Form) (s : State) : Out := scalar1 (.clz f) s clz
def execCtz (f : Form) (s : State) : Out := scalar1 (.ctz f) s ctz
def execPopc (f : Form) (s : State) : Out := scalar1 (.popc f) s popc
def execBrev (f : Form) (s : State) : Out := scalar1 (.brev f) s brev
def execSext (f : Form) (s : State) : Out := scalar1 (.sext f) s (sextW f.sub)
def execZext (f : Form) (s : State) : Out := scalar1 (.zext f) s (zextW f.sub)

def execQdig (f : Form) (s : State) : Out := scalar2 (.qdig f) s qdig
def execQset (f : Form) (s : State) : Out := scalar3 (.qset f) s qset
def execQtrunc (f : Form) (s : State) : Out := scalar2 (.qtrunc f) s qtrunc
def execQparent (f : Form) (s : State) : Out := scalar1 (.qparent f) s qparent
def execQchild (f : Form) (s : State) : Out := scalar2 (.qchild f) s qchild
def execQinter (f : Form) (s : State) : Out := scalar2 (.qinter f) s qinter
def execQsplit (f : Form) (s : State) : Out := issue (.qsplit f) s fun is s =>
  .next (s.emit2 is (.sc (qsplitRow is.lw)) (.sc (qsplitCol is.lw)))
def execQdepth (f : Form) (s : State) : Out := scalar2 (.qdepth f) s qdepth
def execQnext (f : Form) (s : State) : Out := scalar2 (.qnext f) s qnext

end Sys2Proof.Machine
end

