-- ==== Sys2Proof/Machine/Dispatch.lean ====
section
/-!
DEFINITION. The dispatch: one arm for each row of the opcode table, each a call of its meaning.
-/
namespace Sys2Proof.Machine
open Sys2Proof

/-- The meaning of an instruction of a sheaf, issued by the slot whose turn it is, or of a step of the part. -/
def exec (i : Instr) (s : State) : Host.Outcome State Fault Refusal :=
  match i with
  | .read f => Sys2Proof.Machine.execRead f s
  | .write f => Sys2Proof.Machine.execWrite f s
  | .mov f => Sys2Proof.Machine.execMov f s
  | .const f => Sys2Proof.Machine.execConst f s
  | .null f => Sys2Proof.Machine.execNull f s
  | .add f => Sys2Proof.Machine.execAdd f s
  | .sub f => Sys2Proof.Machine.execSub f s
  | .mul f => Sys2Proof.Machine.execMul f s
  | .and f => Sys2Proof.Machine.execAnd f s
  | .or f => Sys2Proof.Machine.execOr f s
  | .xor f => Sys2Proof.Machine.execXor f s
  | .andn f => Sys2Proof.Machine.execAndn f s
  | .not f => Sys2Proof.Machine.execNot f s
  | .shl f => Sys2Proof.Machine.execShl f s
  | .shr f => Sys2Proof.Machine.execShr f s
  | .sar f => Sys2Proof.Machine.execSar f s
  | .sel f => Sys2Proof.Machine.execSel f s
  | .teq f => Sys2Proof.Machine.execTeq f s
  | .tne f => Sys2Proof.Machine.execTne f s
  | .tlt f => Sys2Proof.Machine.execTlt f s
  | .tle f => Sys2Proof.Machine.execTle f s
  | .tltu f => Sys2Proof.Machine.execTltu f s
  | .tleu f => Sys2Proof.Machine.execTleu f s
  | .pand f => Sys2Proof.Machine.execPand f s
  | .por f => Sys2Proof.Machine.execPor f s
  | .pnot f => Sys2Proof.Machine.execPnot f s
  | .br f => Sys2Proof.Machine.execBr f s
  | .bri f => Sys2Proof.Machine.execBri f s
  | .call f => Sys2Proof.Machine.execCall f s
  | .ret f => Sys2Proof.Machine.execRet f s
  | .exit f => Sys2Proof.Machine.execExit f s
  | .ldB f => Sys2Proof.Machine.execLdB f s
  | .ldBu f => Sys2Proof.Machine.execLdBu f s
  | .ldH f => Sys2Proof.Machine.execLdH f s
  | .ldHu f => Sys2Proof.Machine.execLdHu f s
  | .ldW f => Sys2Proof.Machine.execLdW f s
  | .ldWu f => Sys2Proof.Machine.execLdWu f s
  | .ldD f => Sys2Proof.Machine.execLdD f s
  | .ldQ f => Sys2Proof.Machine.execLdQ f s
  | .ldf k f => Sys2Proof.Machine.execLdf k f s
  | .stB f => Sys2Proof.Machine.execStB f s
  | .stH f => Sys2Proof.Machine.execStH f s
  | .stW f => Sys2Proof.Machine.execStW f s
  | .stD f => Sys2Proof.Machine.execStD f s
  | .stQ f => Sys2Proof.Machine.execStQ f s
  | .ldv f => Sys2Proof.Machine.execLdv f s
  | .stv f => Sys2Proof.Machine.execStv f s
  | .qld f => Sys2Proof.Machine.execQld f s
  | .qst f => Sys2Proof.Machine.execQst f s
  | .mulh f => Sys2Proof.Machine.execMulh f s
  | .mulhu f => Sys2Proof.Machine.execMulhu f s
  | .div f => Sys2Proof.Machine.execDiv f s
  | .divu f => Sys2Proof.Machine.execDivu f s
  | .rem f => Sys2Proof.Machine.execRem f s
  | .remu f => Sys2Proof.Machine.execRemu f s
  | .rot f => Sys2Proof.Machine.execRot f s
  | .min f => Sys2Proof.Machine.execMin f s
  | .max f => Sys2Proof.Machine.execMax f s
  | .minu f => Sys2Proof.Machine.execMinu f s
  | .maxu f => Sys2Proof.Machine.execMaxu f s
  | .abs f => Sys2Proof.Machine.execAbs f s
  | .neg f => Sys2Proof.Machine.execNeg f s
  | .clz f => Sys2Proof.Machine.execClz f s
  | .ctz f => Sys2Proof.Machine.execCtz f s
  | .popc f => Sys2Proof.Machine.execPopc f s
  | .brev f => Sys2Proof.Machine.execBrev f s
  | .sext f => Sys2Proof.Machine.execSext f s
  | .zext f => Sys2Proof.Machine.execZext f s
  | .qdig f => Sys2Proof.Machine.execQdig f s
  | .qset f => Sys2Proof.Machine.execQset f s
  | .qtrunc f => Sys2Proof.Machine.execQtrunc f s
  | .qparent f => Sys2Proof.Machine.execQparent f s
  | .qchild f => Sys2Proof.Machine.execQchild f s
  | .qinter f => Sys2Proof.Machine.execQinter f s
  | .qsplit f => Sys2Proof.Machine.execQsplit f s
  | .qdepth f => Sys2Proof.Machine.execQdepth f s
  | .qnext f => Sys2Proof.Machine.execQnext f s
  | .amadd f => Sys2Proof.Machine.execAmadd f s
  | .amand f => Sys2Proof.Machine.execAmand f s
  | .amor f => Sys2Proof.Machine.execAmor f s
  | .amxor f => Sys2Proof.Machine.execAmxor f s
  | .ammin f => Sys2Proof.Machine.execAmmin f s
  | .ammax f => Sys2Proof.Machine.execAmmax f s
  | .amminu f => Sys2Proof.Machine.execAmminu f s
  | .ammaxu f => Sys2Proof.Machine.execAmmaxu f s
  | .amswap f => Sys2Proof.Machine.execAmswap f s
  | .amcas f => Sys2Proof.Machine.execAmcas f s
  | .amaddf f => Sys2Proof.Machine.execAmaddf f s
  | .redadd f => Sys2Proof.Machine.execRedadd f s
  | .redmin f => Sys2Proof.Machine.execRedmin f s
  | .redmax f => Sys2Proof.Machine.execRedmax f s
  | .redand f => Sys2Proof.Machine.execRedand f s
  | .redor f => Sys2Proof.Machine.execRedor f s
  | .redxor f => Sys2Proof.Machine.execRedxor f s
  | .redaddf f => Sys2Proof.Machine.execRedaddf f s
  | .gath f => Sys2Proof.Machine.execGath f s
  | .fence f => Sys2Proof.Machine.execFence f s
  | .xfence f => Sys2Proof.Machine.execXfence f s
  | .watch f => Sys2Proof.Machine.execWatch f s
  | .unwatch f => Sys2Proof.Machine.execUnwatch f s
  | .stw f => Sys2Proof.Machine.execStw f s
  | .protb f => Sys2Proof.Machine.execProtb f s
  | .vadd f => Sys2Proof.Machine.execVadd f s
  | .vsub f => Sys2Proof.Machine.execVsub f s
  | .vmul f => Sys2Proof.Machine.execVmul f s
  | .vfma f => Sys2Proof.Machine.execVfma f s
  | .vfms f => Sys2Proof.Machine.execVfms f s
  | .vmin f => Sys2Proof.Machine.execVmin f s
  | .vmax f => Sys2Proof.Machine.execVmax f s
  | .vabs f => Sys2Proof.Machine.execVabs f s
  | .vneg f => Sys2Proof.Machine.execVneg f s
  | .vrcp f => Sys2Proof.Machine.execVrcp f s
  | .vrsq f => Sys2Proof.Machine.execVrsq f s
  | .vexp2 f => Sys2Proof.Machine.execVexp2 f s
  | .vlog2 f => Sys2Proof.Machine.execVlog2 f s
  | .vand f => Sys2Proof.Machine.execVand f s
  | .vor f => Sys2Proof.Machine.execVor f s
  | .vxor f => Sys2Proof.Machine.execVxor f s
  | .vshl f => Sys2Proof.Machine.execVshl f s
  | .vshr f => Sys2Proof.Machine.execVshr f s
  | .vsar f => Sys2Proof.Machine.execVsar f s
  | .vcmp f => Sys2Proof.Machine.execVcmp f s
  | .vsel f => Sys2Proof.Machine.execVsel f s
  | .vredsum f => Sys2Proof.Machine.execVredsum f s
  | .vredmax f => Sys2Proof.Machine.execVredmax f s
  | .vdot f => Sys2Proof.Machine.execVdot f s
  | .vcvt f => Sys2Proof.Machine.execVcvt f s
  | .vscale f => Sys2Proof.Machine.execVscale f s
  | .vpack f => Sys2Proof.Machine.execVpack f s
  | .vunpack f => Sys2Proof.Machine.execVunpack f s
  | .vperm f => Sys2Proof.Machine.execVperm f s
  | .vbcast f => Sys2Proof.Machine.execVbcast f s
  | .vins f => Sys2Proof.Machine.execVins f s
  | .vext f => Sys2Proof.Machine.execVext f s
  | .vqshuf f => Sys2Proof.Machine.execVqshuf f s
  | .vtrn f => Sys2Proof.Machine.execVtrn f s
  | .viota f => Sys2Proof.Machine.execViota f s
  | .rkalloc f => Sys2Proof.Machine.execRkalloc f s
  | .rkfill f => Sys2Proof.Machine.execRkfill f s
  | .rkpin f => Sys2Proof.Machine.execRkpin f s
  | .rkunpin f => Sys2Proof.Machine.execRkunpin f s
  | .rkrev f => Sys2Proof.Machine.execRkrev f s
  | .rkqry f => Sys2Proof.Machine.execRkqry f s
  | .mma f => Sys2Proof.Machine.execMma f s
  | .mmaz f => Sys2Proof.Machine.execMmaz f s
  | .mdrain f => Sys2Proof.Machine.execMdrain f s
  | .mring f => Sys2Proof.Machine.execMring f s
  | .mtail f => Sys2Proof.Machine.execMtail f s
  | .mcnt f => Sys2Proof.Machine.execMcnt f s
  | .mthr f => Sys2Proof.Machine.execMthr f s
  | .mwgt f => Sys2Proof.Machine.execMwgt f s
  | .mbxw f => Sys2Proof.Machine.execMbxw f s
  | .mbxr f => Sys2Proof.Machine.execMbxr f s
  | .copy f => Sys2Proof.Machine.execCopy f s
  | .waitany f => Sys2Proof.Machine.execWaitany f s
  | .waitall f => Sys2Proof.Machine.execWaitall f s
  | .ffr f => Sys2Proof.Machine.execFfr f s
  | .tagclr f => Sys2Proof.Machine.execTagclr f s
  | .rnbind f => Sys2Proof.Machine.execRnbind f s
  | .rnunbind f => Sys2Proof.Machine.execRnunbind f s
  | .send f => Sys2Proof.Machine.execSend f s
  | .sendOrd f => Sys2Proof.Machine.execSendOrd f s
  | .waitmsg f => Sys2Proof.Machine.execWaitmsg f s
  | .msgpop f => Sys2Proof.Machine.execMsgpop f s
  | .spawn f => Sys2Proof.Machine.execSpawn f s
  | .spawnb f => Sys2Proof.Machine.execSpawnb f s
  | .kset f => Sys2Proof.Machine.execKset f s
  | .kget f => Sys2Proof.Machine.execKget f s
  | .migrate f => Sys2Proof.Machine.execMigrate f s
  | .nbr f => Sys2Proof.Machine.execNbr f s
  | .nbrn f => Sys2Proof.Machine.execNbrn f s
  | .csplit f => Sys2Proof.Machine.execCsplit f s
  | .cmerge f => Sys2Proof.Machine.execCmerge f s
  | .chand f => Sys2Proof.Machine.execChand f s
  | .cmap f => Sys2Proof.Machine.execCmap f s
  | .hedge f => Sys2Proof.Machine.execHedge f s
  | .fjoin f => Sys2Proof.Machine.execFjoin f s
  | .fleave f => Sys2Proof.Machine.execFleave f s
  | .fbar f => Sys2Proof.Machine.execFbar f s
  | .tblk f => Sys2Proof.Machine.execTblk f s
  | .tubl f => Sys2Proof.Machine.execTubl f s
  | .tset f => Sys2Proof.Machine.execTset f s
  | .yield f => Sys2Proof.Machine.execYield f s
  | .park f => Sys2Proof.Machine.execPark f s
  | .done f => Sys2Proof.Machine.execDone f s
  | .setrnd f => Sys2Proof.Machine.execSetrnd f s
  | .trap f => Sys2Proof.Machine.execTrap f s
  | .tret f => Sys2Proof.Machine.execTret f s
  | .ctlget f => Sys2Proof.Machine.execCtlget f s
  | .ctlset f => Sys2Proof.Machine.execCtlset f s
  | .savec f => Sys2Proof.Machine.execSavec f s
  | .loadc f => Sys2Proof.Machine.execLoadc f s
  | .halt f => Sys2Proof.Machine.execHalt f s
  | .preempt f => Sys2Proof.Machine.execPreempt f s
  | .tinvWrite => Sys2Proof.Machine.execTinvWrite s
  | .clstartWrite => Sys2Proof.Machine.execClstartWrite s
  | .mixdbgWrite => Sys2Proof.Machine.execMixdbgWrite s
  | .crootWrite => Sys2Proof.Machine.execCrootWrite s
  | .drvcfgWrite => Sys2Proof.Machine.execDrvcfgWrite s
  | .cpresResume => Sys2Proof.Machine.execCpresResume s
  | .cpresAbort => Sys2Proof.Machine.execCpresAbort s
  | .registerWrite => Sys2Proof.Machine.execRegisterWrite s
  | .sheafFetch => Sys2Proof.Machine.execSheafFetch s
  | .sheafCommit => Sys2Proof.Machine.execSheafCommit s
  | .trapEntry => Sys2Proof.Machine.execTrapEntry s
  | .impreciseTrap => Sys2Proof.Machine.execImpreciseTrap s
  | .loadReply => Sys2Proof.Machine.execLoadReply s
  | .writeAck => Sys2Proof.Machine.execWriteAck s
  | .injectionLeave => Sys2Proof.Machine.execInjectionLeave s
  | .orderedPacketLeave => Sys2Proof.Machine.execOrderedPacketLeave s
  | .packetHop => Sys2Proof.Machine.execPacketHop s
  | .flitReceive => Sys2Proof.Machine.execFlitReceive s
  | .linkDown => Sys2Proof.Machine.execLinkDown s
  | .translationWalk => Sys2Proof.Machine.execTranslationWalk s
  | .zeroSweep => Sys2Proof.Machine.execZeroSweep s
  | .sliceAccess => Sys2Proof.Machine.execSliceAccess s
  | .reserveRequest => Sys2Proof.Machine.execReserveRequest s
  | .release => Sys2Proof.Machine.execRelease s
  | .cancel => Sys2Proof.Machine.execCancel s
  | .reservationRevoke => Sys2Proof.Machine.execReservationRevoke s
  | .revokeReceive => Sys2Proof.Machine.execRevokeReceive s
  | .reductionApply => Sys2Proof.Machine.execReductionApply s
  | .gatherHomeRead => Sys2Proof.Machine.execGatherHomeRead s
  | .scratchpadAccess => Sys2Proof.Machine.execScratchpadAccess s
  | .stwApply => Sys2Proof.Machine.execStwApply s
  | .unpark => Sys2Proof.Machine.execUnpark s
  | .scrub => Sys2Proof.Machine.execScrub s
  | .protbDrain => Sys2Proof.Machine.execProtbDrain s
  | .protbInstall => Sys2Proof.Machine.execProtbInstall s
  | .tinvComplete => Sys2Proof.Machine.execTinvComplete s
  | .start => Sys2Proof.Machine.execStart s
  | .codeLoadStore => Sys2Proof.Machine.execCodeLoadStore s
  | .poolAccess => Sys2Proof.Machine.execPoolAccess s
  | .poolCacheMiss => Sys2Proof.Machine.execPoolCacheMiss s
  | .backInvalidate => Sys2Proof.Machine.execBackInvalidate s
  | .gatewayDrain => Sys2Proof.Machine.execGatewayDrain s
  | .hostMemAccess => Sys2Proof.Machine.execHostMemAccess s
  | .arrival => Sys2Proof.Machine.execArrival s
  | .dispatch => Sys2Proof.Machine.execDispatch s
  | .burrMigration => Sys2Proof.Machine.execBurrMigration s
  | .threadRetire => Sys2Proof.Machine.execThreadRetire s
  | .yieldRetire => Sys2Proof.Machine.execYieldRetire s
  | .halted => Sys2Proof.Machine.execHalted s
  | .eviction => Sys2Proof.Machine.execEviction s
  | .savecComplete => Sys2Proof.Machine.execSavecComplete s
  | .loadcComplete => Sys2Proof.Machine.execLoadcComplete s
  | .mailboxDeposit => Sys2Proof.Machine.execMailboxDeposit s
  | .launchRecord => Sys2Proof.Machine.execLaunchRecord s
  | .dieQueueEnter => Sys2Proof.Machine.execDieQueueEnter s
  | .taskRelease => Sys2Proof.Machine.execTaskRelease s
  | .classAging => Sys2Proof.Machine.execClassAging s
  | .taskOffer => Sys2Proof.Machine.execTaskOffer s
  | .taskHintArrival => Sys2Proof.Machine.execTaskHintArrival s
  | .returnHoldoff => Sys2Proof.Machine.execReturnHoldoff s
  | .dieSpillReload => Sys2Proof.Machine.execDieSpillReload s
  | .idleSummaryUpdate => Sys2Proof.Machine.execIdleSummaryUpdate s
  | .stealRequest => Sys2Proof.Machine.execStealRequest s
  | .stealDonation => Sys2Proof.Machine.execStealDonation s
  | .flockCountChange => Sys2Proof.Machine.execFlockCountChange s
  | .flockArrival => Sys2Proof.Machine.execFlockArrival s
  | .barrierRelease => Sys2Proof.Machine.execBarrierRelease s
  | .ownerLookup => Sys2Proof.Machine.execOwnerLookup s
  | .kNotice => Sys2Proof.Machine.execKNotice s
  | .tableRebuild => Sys2Proof.Machine.execTableRebuild s
  | .mapUpdateComplete => Sys2Proof.Machine.execMapUpdateComplete s
  | .retireNotice => Sys2Proof.Machine.execRetireNotice s
  | .matrixCommandStart => Sys2Proof.Machine.execMatrixCommandStart s
  | .mmaFinish => Sys2Proof.Machine.execMmaFinish s
  | .rkfillFinish => Sys2Proof.Machine.execRkfillFinish s
  | .rickRefill => Sys2Proof.Machine.execRickRefill s
  | .mdrainFinish => Sys2Proof.Machine.execMdrainFinish s
  | .rickStaleMark => Sys2Proof.Machine.execRickStaleMark s
  | .bankZeroed => Sys2Proof.Machine.execBankZeroed s
  | .copyRun => Sys2Proof.Machine.execCopyRun s
  | .copyLanded => Sys2Proof.Machine.execCopyLanded s
  | .runnelFillFetch => Sys2Proof.Machine.execRunnelFillFetch s
  | .runnelDrainWrite => Sys2Proof.Machine.execRunnelDrainWrite s
  | .neighbourWord => Sys2Proof.Machine.execNeighbourWord s
  | .neighbourCredit => Sys2Proof.Machine.execNeighbourCredit s
  | .fabricChunkResult => Sys2Proof.Machine.execFabricChunkResult s
  | .fabricAborted => Sys2Proof.Machine.execFabricAborted s
  | .collectiveTimeout => Sys2Proof.Machine.execCollectiveTimeout s
  | .precopyPage => Sys2Proof.Machine.execPrecopyPage s
  | .pageRecordReceive => Sys2Proof.Machine.execPageRecordReceive s
  | .streamSend => Sys2Proof.Machine.execStreamSend s
  | .streamReceive => Sys2Proof.Machine.execStreamReceive s
  | .oldKeyTimeout => Sys2Proof.Machine.execOldKeyTimeout s
  | .keyLoad => Sys2Proof.Machine.execKeyLoad s
  | .create => Sys2Proof.Machine.execCreate s
  | .addcore => Sys2Proof.Machine.execAddcore s
  | .remcore => Sys2Proof.Machine.execRemcore s
  | .setquota => Sys2Proof.Machine.execSetquota s
  | .grant => Sys2Proof.Machine.execGrant s
  | .install => Sys2Proof.Machine.execInstall s
  | .revoke => Sys2Proof.Machine.execRevoke s
  | .sharekey => Sys2Proof.Machine.execSharekey s
  | .stop => Sys2Proof.Machine.execStop s
  | .destroy => Sys2Proof.Machine.execDestroy s
  | .exportKeys => Sys2Proof.Machine.execExportKeys s
  | .importKeys => Sys2Proof.Machine.execImportKeys s
  | .attest => Sys2Proof.Machine.execAttest s
  | .streamkey => Sys2Proof.Machine.execStreamkey s
  | .hostmap => Sys2Proof.Machine.execHostmap s
  | .gwstartWrite => Sys2Proof.Machine.execGwstartWrite s
  | .healthClear => Sys2Proof.Machine.execHealthClear s
  | .moncfgWrite => Sys2Proof.Machine.execMoncfgWrite s
  | .thermalAlarm => Sys2Proof.Machine.execThermalAlarm s
  | .thermalTrip => Sys2Proof.Machine.execThermalTrip s
  | .throttleEnd => Sys2Proof.Machine.execThrottleEnd s
  | .droop => Sys2Proof.Machine.execDroop s
  | .bringUp => Sys2Proof.Machine.execBringUp s
  | .firmwareReload => Sys2Proof.Machine.execFirmwareReload s
  | .completionTimeout => Sys2Proof.Machine.execCompletionTimeout s
  | .powerCut => Sys2Proof.Machine.execPowerCut s
  | .remoteChannelChange => Sys2Proof.Machine.execRemoteChannelChange s
  | .wakeAcknowledgement => Sys2Proof.Machine.execWakeAcknowledgement s
  | .atomicGrant => Sys2Proof.Machine.execAtomicGrant s
  | .tileReadOut => Sys2Proof.Machine.execTileReadOut s
  | .forcedEviction => Sys2Proof.Machine.execForcedEviction s

end Sys2Proof.Machine
end

