-- ==== Sys2Proof/Machine/Choose.lean ====
section
/-!
DEFINITION. Which steps may happen next (R131, R156; logs 2 to 5), taking one of them, and placing one instruction as
the next to issue.
-/
namespace Sys2Proof.Machine
open Sys2Proof

/-- A step that may happen: the head of the inputs, the head of the due steps, a step of the machine's own, the passing of
a clock, or the issue of an instruction. -/
inductive Cand where
  | input (e : Event)
  | due (e : Event)
  | own (e : Event)
  | clock
  | issue (core slot pos : Nat)
  deriving DecidableEq, Repr

/-! ### The issue step (R156, R157, R437) -/

/-- The first body position of a slot that may issue; a slot whose sheaf may commit issues nothing more.
DEDUCED, log 86. -/
def State.firstReady (s : State) (c k : Nat) : Option Nat :=
  match s.flight c k with
  | some fl => if s.mayCommit c k then none else (List.range fl.sheaf.insts.length).find? fun pos => s.mayIssue c k pos
  | none => none

/-- A core may issue on this clock: a throttled die's cores issue on ISS of 8 clocks, spread so that with ISS 4 every slot has its turn
within 16 clocks (R437; DESIGN CHOICE, log 108). -/
def State.issueClock (s : State) (c : Nat) : Bool :=
  let n := (s.die (c / 128)).iss
  !(s.die (c / 128)).thr || (s.clock % 8 + s.clock / 8) * n % 8 < n

/-- The slot of a core that has the turn of this clock, with what it issues (R156): a core issues once on a clock. -/
def State.turnOf (s : State) (c : Nat) : Option Cand :=
  if s.issueClock c && !(s.issued.contains c) then
    ((List.range 8).map fun i => (s.clock + i) % 8).findSome? fun k =>
      (s.firstReady c k).map fun pos => Cand.issue c k pos
  else none

/-! ### The machine's own steps -/

/-- An event when its condition holds. -/
def when_ (b : Bool) (e : Event) : List Event := if b then [e] else []

/-- How a slot leaves, once its disposal may happen (R165, R359, R375). -/
def dispoEvent (c k : Nat) (x : Slot) : List Event :=
  match x.disp with
  | some (.softTrap _) => [.trapEntry c k { cause := .softTrap }]
  | some (.migrate ..) => when_ (x.mayLeave && !x.mayTrap) (.burrMigration c k)
  | some .yield_ => when_ (x.mayLeave && !x.mayTrap) (.yieldRetire c k)
  | some .done => when_ x.mayLeave (.threadRetire c k)
  | some .halt => when_ x.mayLeave (.halted c k)
  | _ => []

/-- Runnel ports that move a word (R335). -/
def portEvents (c k : Nat) (x : Slot) : List Event :=
  x.th.ports.flatMap fun (p, y) => when_ y.canFetch (.runnelFillFetch c k p) ++ when_ y.canDrain (.runnelDrainWrite c k p)

/-- The steps of a slot's thread. -/
def State.threadSteps (s : State) (c k : Nat) : List Event :=
  let x := s.slot c k
  when_ (s.mayCommit c k) (.sheafCommit c k) ++ when_ (s.mayFetch c k) (.sheafFetch c k) ++
    when_ x.mayTrap (.impreciseTrap c k) ++ when_ (x.th.rest == .parked && x.th.wake) (.unpark c k) ++ dispoEvent c k x ++
    when_ ((s.evictOp c k).isSome && s.canEvict c k) (.eviction c k)

/-- The steps of a slot. -/
def State.slotSteps (s : State) (c k : Nat) : List Event :=
  let x := s.slot c k
  (if x.occ then s.threadSteps c k else when_ (s.evictOp c k).isSome (.eviction c k)) ++ portEvents c k x ++
    (if x.deps.isEmpty then [] else when_ (s.quiet c k) (.mailboxDeposit c k)) ++
    (if x.injq.isEmpty then []
     else when_ ((s.leaveIndex c k).isSome && s.injTurn c == some k || s.drainDue c k) (.injectionLeave c (.queue k)) ++
       when_ (s.orderedMayLeave c k && s.injTurn c == some k) (.orderedPacketLeave c k))

/-- The steps of a core: its slots, load requests, copies and dispatch (R111, R167, R328, R435). -/
def State.coreSteps (s : State) (c : Nat) : List Event :=
  let y := s.core c
  ((List.range 8).flatMap fun k => s.slotSteps c k) ++
    ((List.range y.loads.length).filter fun i => s.loadMayLeave c i).map (fun i => .injectionLeave c (.load i)) ++
    y.copies.flatMap (fun x => when_ (s.copyCanRun c x && s.copyTurn (c / 8) == some (c, x.tag)) (.copyRun c x.tag) ++ when_ (s.copyCanLand x || x.asksDrain) (.copyLanded c x.tag) ++
      when_ (s.collectiveLate c x.tag) (.collectiveTimeout c x.tag)) ++
    when_ (s.canDispatch c) (.dispatch c)

/-- The steps of a copse: its array (R304 to R312), and walks behind translations that it holds, of which each may find another copy of
its leaf (R29). -/
def State.copseSteps (s : State) (i : Nat) : List Event :=
  when_ (s.canStart i false) (.matrixCommandStart i false) ++ when_ (s.canStart i true) (.matrixCommandStart i true) ++
    when_ (s.mmaDue i) (.mmaFinish i) ++ when_ (s.canFinishFill i) (.rkfillFinish i) ++
    ((List.range 8).filter fun e => s.refillDue i e).map (fun e => .rickRefill i e) ++
    when_ (s.readOutDue i) (.tileReadOut i) ++
    when_ ((s.drainOf i).any fun d => d.q.freed) (.mdrainFinish i) ++
    ((List.range 8).filter fun b => ((s.copse i).banks[b]?.getD .free).zeroedAt s.clock).map (fun b => .bankZeroed i b) ++
    (s.copse i).tlb.map (fun e => .translationWalk i e.ctx e.leaf.base)

/-- The steps of a die's scheduler (R180 to R186). -/
def State.dieSteps (s : State) (d : Nat) : List Event :=
  let x := s.die d
  when_ (s.mayRelease d) (.taskRelease d) ++
    ((List.range x.queue.length).filter fun i => (x.queue[i]?).any s.ageDue).map (fun i => .classAging d i) ++
    ((List.range x.queue.length).filter fun i => (x.queue[i]?).any s.holdOver).map (fun i => .returnHoldoff d i) ++
    when_ (!x.spill.isEmpty && x.queue.length < 4096) (.dieSpillReload d) ++
    when_ (s.summaryOf d != x.summary) (.idleSummaryUpdate d) ++
    ((List.range 16).filter fun e => s.maySteal d e).map (fun e => .stealRequest d e false)

/-- The steps of the homes: revocations, sweeps of zero-pending sectors, scrubbing (R46, R75, R140). -/
def State.homeSteps (s : State) : List Event :=
  (s.resvs.filter fun p => s.revokeDue p.1).map (fun p => .reservationRevoke p.1) ++
    ((s.secs.find? fun p => p.2.zp).map fun p => Event.zeroSweep p.1).toList ++
    (((s.secs.filter fun p => p.2.bad != 0 || p.2.soft != 0).map fun p => s.structOf p.1).eraseDups.filterMap s.nextScrub).map .scrub

/-- The steps of an operation under way. -/
def State.opSteps (s : State) (o : Op) : List Event :=
  match o.kind with
  | .tinv .. => when_ (s.tinvDue o.id) (.tinvComplete o.id)
  | .protb .. => if o.left.isEmpty then [.protbInstall o.id]
                 else (o.left.filter fun n => s.protbDrainDue o.id (n - 1)).map fun n => .protbDrain o.id (n - 1)
  | .savec .. => when_ (s.savecDue o.id) (.savecComplete o.id)
  | .loadc .. => [.loadcComplete o.id]
  | .mapUpdate .. => when_ (o.behind == 0 && o.left.isEmpty) (.mapUpdateComplete o.id)
  | _ => []

/-- The steps of a gateway: launches, old keys and requests that have timed out (R395, R432). -/
def State.gwSteps (s : State) (g : Nat) : List Event :=
  let x := s.gw g
  ((x.lqs.filter fun p => s.mayLaunch g (p.1 / 8) (p.1 % 8)).map fun p => .launchRecord g (p.1 / 8) (p.1 % 8) .send) ++
    ((x.streams.filter fun p => p.2.oldDue s.clock).map fun p => .oldKeyTimeout g p.1) ++
    x.streams.flatMap fun p => (p.2.out.filter fun r => p.2.late s.clock r).filterMap fun r => (r.step.bind reqOf).map fun q => .completionTimeout g p.1 q.tag

/-- The packets that may move (R86). -/
def State.netSteps (s : State) : List Event :=
  ((List.range s.flits.length).filter fun i => (s.hopMove i).isSome).map fun i => .packetHop i

/-- Copses with an array in use or a core in use. -/
def State.copseList (s : State) : List Nat :=
  (s.copses.map Prod.fst ++ s.cores.map fun (p : Nat × Core) => p.1 / 8).eraseDups

/-- Every step of the machine's own that may happen now.  The trust core's commands wait for bring-up (R439). -/
def State.ownSteps (s : State) : List Event :=
  s.cores.flatMap (fun p => s.coreSteps p.1) ++ s.copseList.flatMap s.copseSteps ++
    ((List.range 16).filter s.dieLive).flatMap s.dieSteps ++ (s.walks.filter s.walkDue).map (fun w => .taskOffer w.id) ++ s.homeSteps ++
    s.ops.flatMap s.opSteps ++ s.gws.flatMap (fun p => s.gwSteps p.1) ++ s.netSteps ++ (if s.up then s.tcq.head?.toList else [])

/-- The issues of this clock that are still to come. -/
def State.turns (s : State) : List Cand := s.cores.filterMap fun p => s.turnOf p.1

/-- Everything that may happen next; the clock passes only once every core that can issue on it has issued (R156).
DESIGN CHOICE, log 111. -/
def State.cands (s : State) : List Cand :=
  (s.inputs.head?.map Cand.input).toList ++ (s.pending.head?.map Cand.due).toList ++ s.ownSteps.map Cand.own ++
    s.turns ++ (if s.turns.isEmpty then [.clock] else [])

/-- The step that happens: the only one, or a free choice among several (log 2). -/
def State.pick (s : State) : Option Cand × State :=
  match s.cands with
  | [] => (none, s)
  | [c] => (some c, s)
  | cs => (cs[Config.choice s.fresh % cs.length]?, { s with fresh := s.fresh + 1 })

/-- The state with the step in hand, and the instruction that it runs. -/
def State.prepare (s : State) (c : Cand) : State × Instr :=
  match c with
  | .input e => ({ s with inputs := s.inputs.tail, event := some e }, e.instr)
  | .due e => ({ s with pending := s.pending.tail, event := some e }, e.instr)
  | .own e => ({ s with event := some e }, e.instr)
  | .clock => (s, .bringUp)
  | .issue core slot pos =>
    ({ s with turn := { core := core, slot := slot, pos := pos }, issued := core :: s.issued },
      (((s.flight core slot).bind fun fl => fl.sheaf.insts[pos]?)).getD .bringUp)

/-- A step is over: the next one comes after it (log 3). -/
def State.tick (s : State) : State := { s with now := s.now + 1 }

/-- A clock passes: every core may issue again (R156; log 3). -/
def State.nextClock (s : State) : State := { s with clock := s.clock + 1, issued := [] }

/-! ### Placing one instruction -/

/-- A token of zeros for a port; the predicate matches. -/
def zeroTok (k : Kind) : Tok :=
  match k with
  | .ve => .ve 0 (lowMask 64)
  | _ => .sc 0

/-- The tokens an instruction waits for, all zero. -/
def fullNode (i : Instr) : Node :=
  match i.info, i.form with
  | some n, some f =>
    let tok := fun (p : Nat) => match n.port f p with
      | .req k => if n.immPort f == some p then none else some (zeroTok k)
      | _ => none
    { l := tok 0, r := tok 1, x := tok 2, p := if f.pm == 0 then none else some (.sc (condWord (f.pm == 1))) }
  | _, _ => {}

/-- A sheaf in flight that holds one instruction and its tokens. -/
def loneFlight (i : Instr) : Flight :=
  let h : Header := { priv := true, vec := true, wk := true, burr := true, qmask := 0, vmask := 0, gmask := 0, nout := 0,
                      count := 1 }
  { sheaf := { hdr := h, insts := [i], size := 32 }, run := 0, nodes := [fullNode i] }

/-- Place an instruction at the only slot that runs. -/
def State.place (s : State) (i : Instr) : State :=
  let s := { s with inputs := [], pending := [], event := none }
  s.modSlot 0 0 fun x => { x with occ := true, fl := some (loneFlight i) }

/-- Place the instruction a table word stands for, and nothing where it stands for none. -/
def State.placeWord (s : State) (nbits w : Nat) : State :=
  match decodeTableWord nbits w with
  | some i => s.place i
  | none => { s with inputs := [], pending := [], event := none }

end Sys2Proof.Machine
end

