-- ==== Sys2Proof/Machine/Step.lean ====
section
/-!
DEFINITION. One step of the machine.
-/
namespace Sys2Proof.Machine
open Sys2Proof

/-- One step: a step that may happen does happen; the passing of a clock is one of them (R156). -/
def step (s : State) : Host.Outcome State Fault Refusal :=
  match s.pick with
  | (none, s) | (some .clock, s) => .next s.nextClock.tick
  | (some c, s) =>
    match s.prepare c with
    | (s, i) => match exec i s with
      | .next t => .next t.tick
      | .fault f => .fault f
      | .refused r => .refused r

/-- The instruction of a table word stands where the next step issues it. DESIGN CHOICE, log 5. -/
def State.withFetchWord (s : State) (nbits w : Nat) : State := s.placeWord nbits w

end Sys2Proof.Machine
end

