-- ==== Sys2Proof/Certificates/Slice0/Obligations.lean ====
section
/-!
DEFINITION. The statements for the provers: the encoding, the step, each instruction and each step of the device.
-/
namespace Sys2Proof.Claims
open Sys2Proof Sys2Proof.Machine

/-- The turn's slot holds instruction `i` ready at the turn's position, no earlier ordered event holds it back, and no
null token stands on a port it waits for: the instruction fires (R157, R159, R160). -/
abbrev Fires (i : Instr) (s : State) (is : Iss) : Prop :=
  s.issuer i = some is ∧ is.fl.heldBack is.th is.pos = false ∧ is.anyNull = false ∧ is.regBad i = false

/-- Whenever `i` fires, it delivers the scalar `g` to its targets and nothing else happens. -/
abbrev Delivers (i : Instr) (g : Iss → Word) : Prop :=
  ∀ s is, Fires i s is → exec i s = .next (s.emit is (.sc (g is)))

/-- The next step comes after what an instruction does. -/
def ticked (o : Out) : Out :=
  match o with
  | .next t => .next { t with now := t.now + 1 }
  | .fault f => .fault f
  | .refused r => .refused r

/-- A word from an exact integer. -/
abbrev ofZ (z : Int) : Word := BitVec.ofInt 64 z

/-- The count of R247. -/
abbrev count (b : Word) : Nat := b.toNat % 64

/-- 1 when a relation holds, else 0. -/
abbrev truth (p : Prop) [Decidable p] : Word := if p then 1 else 0

/-- The checks of R36 pass for a load of `want` bytes at `va`, no access of the sheaf conflicts (R263), and the parts
that need no request answer `got`; `t` is the state after them, `fl` the flight that has recorded the access. -/
def LoadReady (s : State) (is : Iss) (va : Nat) (init : List (Option Byte)) (elem wide : Bool) (blk : Word)
    (fl : Flight) (t : State) (got : List (Option Byte)) : Prop :=
  ∃ s1 ps, s.checkParts is.xer is.ctx is.priv va (init.map Option.isNone) true false (splitAt16 va init.length) =
      (s1, .ok ps) ∧
    is.fl.touchAll [{ lsn := is.lsnN, kind := .load, va := va, elem := elem,
                      bytes := (init.map Option.isNone).map fun w => if w then some 0 else none }] = some fl ∧
    (s1.acquire is is.pol).fetchParts is va blk init (if wide then joinParts ps else ps) = (t, .ok got)

/-- The load has fired and its bytes are awaited. -/
def loadHeld (is : Iss) (va : Nat) (sh : Shape) (fl : Flight) (t : State) (got : List (Option Byte)) : State :=
  t.settle is.c is.k (some { fl.fired is.pos with
    held := fl.held ++ [{ lsn := is.lsnN, pos := is.pos, kind := .load sh, va := va, got := got, acq := is.acqScope }] })

/-- `i` is a load of `n` bytes whose answer takes shape `sh`; `align` where its address must be a multiple of 16. -/
def LoadsAs (i : Instr) (n : Nat) (sh : Shape) (align : Bool) : Prop :=
  ∀ s is, Fires i s is →
    (∀ fl t got, polOk is.policy true false false = true → (align = true → is.addr % 16 = 0) →
      LoadReady s is is.addr (List.replicate n none) false align (coverWord is.addr n) fl t got →
      exec i s = .next (loadHeld is is.addr sh fl t got)) ∧
    (polOk is.policy true false false = false → exec i s = .next (s.trapAt is .badPolicy)) ∧
    (polOk is.policy true false false = true → align = true → is.addr % 16 ≠ 0 →
      exec i s = .next (s.blockFault is .misalignedAccess (coverWord is.addr n)))

/-- The checks of R36 pass for a store of `want` bytes at `va`, and no access of the sheaf conflicts. -/
def StoreReady (s : State) (is : Iss) (va : Nat) (want : List Bool) (bytes : List (Option Byte)) (elem : Bool)
    (fl : Flight) (t : State) (ps : List Part) : Prop :=
  s.checkParts is.xer is.ctx is.priv va want false true (splitAt16 va want.length) = (t, .ok ps) ∧
    is.fl.touchAll [{ lsn := is.lsnN, kind := .store, va := va, bytes := bytes, elem := elem, wr := true }] = some fl

/-- The store has fired: its bytes are buffered until commit, at the physical places of its parts; where it would write
part of a word with an uncorrectable error, it traps at that word instead (R74, R280). -/
def storeHeld (is : Iss) (va : Nat) (bytes : List (Option Byte)) (wide : Bool) (blk : Word) (fl : Flight) (t : State)
    (ps : List Part) : State :=
  let pieces := storePieces va bytes (if wide then joinParts ps else ps)
  match t.badPiece is pieces with
  | some a => t.recTrap is { cause := .uncorrectableData, addr := some (blockWord 30 a), blockp := some blk }
  | none => t.settle is.c is.k (some { fl.fired is.pos with due := fl.due ++ [⟨is.lsn, is.pos, .store pieces is.pol blk⟩] })

/-- `i` stores the bytes `data` gives, `n` of them. -/
def StoresAs (i : Instr) (n : Nat) (data : Iss → List (Option Byte)) (align : Bool) : Prop :=
  ∀ s is, Fires i s is →
    (∀ fl t ps, polOk is.policy false true false = true → (align = true → is.addr % 16 = 0) →
      StoreReady s is is.addr (List.replicate n true) (data is) false fl t ps →
      exec i s = .next (storeHeld is is.addr (data is) align (coverWord is.addr n) fl t ps)) ∧
    (polOk is.policy false true false = false → exec i s = .next (s.trapAt is .badPolicy)) ∧
    (polOk is.policy false true false = true → align = true → is.addr % 16 ≠ 0 →
      exec i s = .next (s.blockFault is .misalignedAccess (coverWord is.addr n)))

/-- The checks that AM* and RED* share pass: the place `pa` and its key id, and the flight that has recorded the
access. -/
def RmwReady (s : State) (is : Iss) (n : Nat) (kind : TouchKind) (fl : Flight) (t : State) (pa kid : Nat) : Prop :=
  (∃ off, s.checkBytes is.xer is.ctx is.priv is.lw.toNat n true true = (t, .ok [⟨off, n, .mem pa kid⟩])) ∧
    t.atomicHome pa = true ∧
    is.fl.touchAll [{ lsn := is.lsnN, kind := kind, va := is.lw.toNat, bytes := List.replicate n (some 0), wr := true }] = some fl

/-- `i` is an atomic of `n` bytes: it asks for the granule's reservation and its release is due at commit. -/
def AtomicAs (i : Instr) (op : RmwOp) (n : Nat) : Prop :=
  ∀ s is, Fires i s is →
    (∀ fl t pa kid, polOk is.policy true true true = true → is.lw.toNat % n = 0 → RmwReady s is n .atomic fl t pa kid →
      ∃ u, u = (((t.acquire is is.pol).modCore is.c (·.l1Drop pa)).addLoad is.c
          (((t.acquire is is.pol).modCore is.c (·.l1Drop pa)).requestOf is 0 is.lw.toNat pa kid (.reserve n)
            (coverWord is.lw.toNat n))) ∧
        exec i s = .next (u.settle is.c is.k (some { fl.fired is.pos with
          held := fl.held ++ [{ lsn := is.lsnN, pos := is.pos, kind := .atomic op n (pa % 16) is.rw_ is.xw,
                                va := is.lw.toNat, got := List.replicate n none, acq := is.acqScope, home := some (pa / 16),
                                kid := kid, vpn := is.lw.toNat / 4096 }],
          due := fl.due ++ [⟨is.lsn, is.pos, .amRelease is.lsnN is.pol⟩] }))) ∧
    (polOk is.policy true true true = true → is.lw.toNat % n ≠ 0 →
      exec i s = .next (s.blockFault is .misalignedAtomic (coverWord is.lw.toNat n)))

/-- `i` is a reduction of `n` bytes: it is sent at commit; where its word is lost it traps. -/
def ReducesAs (i : Instr) (op : RmwOp) (n : Nat) : Prop :=
  ∀ s is, Fires i s is →
    (∀ fl t pa kid, polOk is.policy false true false = true → is.lw.toNat % n = 0 → RmwReady s is n .red fl t pa kid →
      (t.lost pa n = false → exec i s = .next (t.settle is.c is.k (some { fl.fired is.pos with
        due := fl.due ++ [⟨is.lsn, is.pos, .red op n is.rw_ ⟨is.lw.toNat, pa, kid, List.replicate n (some 0)⟩ is.pol
          (coverWord is.lw.toNat n)⟩] }))) ∧
      (t.lost pa n = true → exec i s = .next (t.recTrap is
        { cause := .uncorrectableData, addr := some (blockWord 30 is.lw.toNat), blockp := some (coverWord is.lw.toNat n) }))) ∧
    (polOk is.policy false true false = true → is.lw.toNat % n ≠ 0 →
      exec i s = .next (s.blockFault is .misalignedAtomic (coverWord is.lw.toNat n)))

/-- The format code that a one-format instruction fires with, an inherited code resolved through the shadow (R188,
R281). -/
def formatOf (is : Iss) : Option Nat :=
  match is.n.fmts, is.f.fmts with
  | .one set, (c, _) :: _ => is.th.resolve set c.toNat
  | _, _ => none

/-- The source and result codes of a conversion. -/
def formatsOf (is : Iss) : Option (Nat × Nat) :=
  match is.n.fmts, is.f.fmts with
  | .two ss ds rule, (a, _) :: (b, _) :: _ =>
    match is.th.resolve ss a.toNat, is.th.resolve ds b.toNat with
    | some ca, some cb => if rule.holds ca cb then some (ca, cb) else none
    | _, _ => none
  | _, _ => none

/-- `i` fires with one format and answers `g`; without a legal format it raises bad-format. -/
def VecAs (i : Instr) (g : Iss → State → Nat → State) : Prop :=
  ∀ s is, Fires i s is →
    (∀ code, formatOf is = some code → exec i s = .next (g is s code)) ∧
    (formatOf is = none → exec i s = .next (s.trapAt is .badFormat))

/-- The same with a source and a result format. -/
def ConvAs (i : Instr) (g : Iss → State → Nat → Nat → State) : Prop :=
  ∀ s is, Fires i s is →
    (∀ a b, formatsOf is = some (a, b) → exec i s = .next (g is s a b)) ∧
    (formatsOf is = none → exec i s = .next (s.trapAt is .badFormat))

/-- Element j of a vector operand. -/
abbrev el (sz : Nat) (t : Tok) (j : Nat) : Option Nat := ((elemsOf sz t)[j]?).getD none

/-- A result vector from its elements, kept where the lane mask is set. -/
def lanes (is : Iss) (sz : Nat) (g : Nat → Option Nat) : Tok :=
  vecTok sz (maskElems sz is.qmask ((List.range (64 / sz)).map g))

/-- Element by element of one, two and three operands; `r` says whether the format rounds. -/
def map1 (r : Nat → Bool) (g : Nat → RMode → Bool → Nat → Nat) (is : Iss) (s : State) (c : Nat) : State :=
  s.emitRounded is (r c) (lanes is (fmtSize c) fun j => do
    let a ← el (fmtSize c) is.l j
    return g c (is.rmode j) is.sat a)
def map2 (r : Nat → Bool) (g : Nat → RMode → Bool → Nat → Nat → Nat) (is : Iss) (s : State) (c : Nat) : State :=
  s.emitRounded is (r c) (lanes is (fmtSize c) fun j => do
    let a ← el (fmtSize c) is.l j
    let b ← el (fmtSize c) is.r j
    return g c (is.rmode j) is.sat a b)
def map3 (g : Nat → RMode → Bool → Nat → Nat → Nat → Nat) (is : Iss) (s : State) (c : Nat) : State :=
  s.emitRounded is (fmtIsFloat c) (lanes is (fmtSize c) fun j => do
    let a ← el (fmtSize c) is.l j
    let b ← el (fmtSize c) is.r j
    let x ← el (fmtSize c) is.x j
    return g c (is.rmode j) is.sat a b x)

/-- The fire-time checks of a map update pass: the root granule at `pa`, the flight that has recorded the access. -/
def MapReady (s : State) (is : Iss) (kind : Nat) (fl : Flight) (t : State) (pa kid : Nat) : Prop :=
  ∃ s1 o n s2 root s3 m ps, (s.core is.c).crootEn = true ∧
    s.checkBytes is.xer is.ctx true (s.core is.c).crootAddr 16 true true = (s1, .ok [⟨o, n, .mem pa kid⟩]) ∧
    s1.rootRecord is.c is.ctx = (s2, .ok root) ∧
    s2.mapChange is.c is.ctx kind is.lw is.rw_ root = (s3, .ok m) ∧
    s3.mapPieces is.c is.ctx m.writes = (t, .ok ps) ∧
    is.fl.touchAll [{ lsn := 32 + is.pos, kind := .atomic, va := (s.core is.c).crootAddr,
                      bytes := List.replicate 16 (some 0), wr := true }] = some fl

/-- `i` is a map update of this kind: it takes the reservation of the root granule and is applied after commit. -/
def UpdatesMapAs (i : Instr) (kind : Nat) (bad : Iss → State → Prop) : Prop :=
  ∀ s is, Fires i s is →
    (bad is s → exec i s = .next (s.trapAt is .badControlValue)) ∧
    (¬ bad is s → (s.core is.c).crootEn = false → exec i s = .next (s.trapAt is .croftUnmapped)) ∧
    (¬ bad is s → ∀ fl t pa kid, MapReady s is kind fl t pa kid → ∃ u : State,
      exec i s = .next (u.settle is.c is.k (some { fl.fired is.pos with
        held := fl.held ++ [{ lsn := 32 + is.pos, pos := is.pos, kind := .mapUpdate, va := (s.core is.c).crootAddr,
                              got := List.replicate 16 none, home := some (pa / 16), kid := kid,
                              vpn := (s.core is.c).crootAddr / 4096 }],
        due := fl.due ++ [⟨none, is.pos, .mapUpdate kind is.lw is.rw_⟩] })) ∧
      u.mem = t.mem)

/-- The step `i`, made for the event `e`, does `g` whenever `w` holds of the state that has taken it up. -/
def Does (i : Instr) (e : Event) (w : State → Prop) (g : State → State) : Prop :=
  ∀ s, s.event = some e → w s.taken → exec i s = .next (g s.taken)

/-- Nothing is asked of the state. -/
abbrev always : State → Prop := fun _ => True

/-- A record whose TADDR and TBLOCKP are stated. -/
def bankAs (r : TrapRec) (addr blockp n : Word) : Bank := { tcause := tcauseWord r, taddr := addr, tblockp := blockp, tsheaf := n }

/-- An access that asks for no reservation and ends none. -/
def plainAcc (a : Access) : Prop :=
  match a with
  | .reserve _ | .release _ | .cancel => False
  | _ => True

/-- The step `e`, made for `i`, whose request goes over the stream `link` names, if any: without one it does `go`; over one it
leaves sealed or is held for want of a key, and when its completion has come under a key that is held it does `go`, and else it
times out (R394, R395). -/
def OverLink (i : Instr) (e : Event) (link : State → Option (Nat × Nat)) (go : State → State) : Prop :=
  Does i e (fun u => link u = none) go ∧
  ∀ g j,
    let send := fun (u : State) => u.sealPkt g j e (some (some e))
    Does i e (fun u => link u = some (g, j) ∧ u.sentOn g j e = none ∧ (u.stream g j).stuck = false) (fun u => (send u).due e) ∧
    Does i e (fun u => link u = some (g, j) ∧ u.sentOn g j e = none ∧ (u.stream g j).stuck = true) send ∧
    ∀ x,
      let held := fun (u : State) => x.phase = (u.stream g j).ph ∨ (u.stream g j).oldrx = true
      Does i e (fun u => link u = some (g, j) ∧ u.sentOn g j e = some x ∧ held u) (fun u => go (u.unsend g j e)) ∧
      Does i e (fun u => link u = some (g, j) ∧ u.sentOn g j e = some x ∧ ¬ held u) (fun u => (u.unsend g j e).timedOut e)

/-- A step at a home: at a pool line whose fill is pending it waits in arrival order (R64); one that misses the pool cache
starts the fill of its line (R63), where the set has a way left; a plain access is served at once when none of its granules is
reserved or awaited, nor that of its dirty mark; within one such granule it joins that granule's queue, and of an access of
several each part does (R132, R139). -/
def ServesAt (i : Instr) (e : Req → Event) : Prop :=
  ∀ r, plainAcc r.acc →
    OverLink i (e r) (fun u => u.linkOf r) (fun u => u.atHome e r) ∧
    ∀ u : State,
      let q := u.stamp r
      ((∀ pa ∈ reqPlaces r, u.poolPending pa = false) → (u.poolMiss r.pa = true → u.poolStart r.pa = none) →
        ((∀ x ∈ touched r, u.resv x = []) → u.markWaits r = none → u.atHome e r = u.serveNow q) ∧
        (∀ g, reqParts q = [q] → u.waitsAt q none = some g →
          u.atHome e r = u.setResv g (u.resv g ++ [{ req := q, since := u.now }])) ∧
        (r.join = none → (∀ bs, r.acc ≠ .write bs) → 2 ≤ (reqParts q).length → u.waitsAt q none ≠ none →
          u.atHome e r = (reqParts q).foldl (fun s p => match s.waitsAt p none with
            | some g => s.setResv g (s.resv g ++ [{ req := p, since := s.now }])
            | none => s.serveNow p) u)) ∧
      (∀ pa rest, reqPlaces r = pa :: rest → u.poolPending pa = true → u.atHome e r = u.poolWait pa (e q)) ∧
      (∀ v, (∀ pa ∈ reqPlaces r, u.poolPending pa = false) → u.poolMiss r.pa = true → u.poolStart r.pa = some v →
        u.atHome e r = v.due (.poolCacheMiss q))

/-- Command slot `i` holds a well-formed command of the host (`t` is none) or of a tenant whose session is bound to context
`t`, in no later stage, with at least `n` operand words, the first `n` of which `op` gives: the slot's words from word 1 on,
or those that a tenant's block opens to under its session's key (R383, R431). -/
def Commanded (s : State) (e : Event) (i n : Nat) (t : Option Nat) (op : Nat → Word) : Prop :=
  let w := ((s.cmdWords i)[0]?).getD 0
  s.event = some e ∧ s.tcstage = 0 ∧ cmdBad w = false ∧ commandOf (cmdCode w) i = some e ∧
    match t with
    | none => cmdTenant w = false ∧ 8 * n ≤ cmdLen w ∧ ∀ j, j < n → op j = ((s.cmdWords i)[j + 1]?).getD 0
    | some ctx => cmdTenant w = true ∧ 28 ≤ cmdLen w ∧ ∃ x clear, s.sessions.get? (cmdSess w) = some x ∧ x.ctx = ctx ∧
        openSealed x.key (s.cmdBytes i (cmdLen w)) = some clear ∧ 8 * n ≤ clear.length ∧
        ∀ j, j < n → op j = BitVec.ofNat 64 (ofBytes ((clear.drop (8 * j)).take 8))

end Sys2Proof.Claims

open Sys2Proof Sys2Proof.Machine Sys2Proof.Claims

/-! ### Encoding -/

/-- R201 to R206: decoding the syllables that `encode` writes for a well-formed instruction gives it back, with the
syllables after it. -/
def Obligations.EncodeThenDecode : Prop :=
  ∀ (i : Instr) (rest : List Syl), i.form.isSome = true → i.wellFormed = true →
    decodeInstr (encode i ++ rest) = some (i, rest)

/-- R201, R217: what the decoder accepts is a well-formed sheaf instruction, read from one to five syllables. -/
def Obligations.DecodeIsWellFormed : Prop :=
  ∀ (syls rest : List Syl) (i : Instr), decodeInstr syls = some (i, rest) →
    i.form.isSome = true ∧ i.wellFormed = true ∧
      ∃ pre, syls = pre ++ rest ∧ 1 ≤ pre.length ∧ pre.length ≤ 5

/-- Worked encodings of the spec, one or more from each page: the assembly listings beside R207, R239, R250, R257, R273,
R289, R293, R312, R324, R352, R362, R369, R374 and R379 decode to what they spell. -/
def Obligations.SpecWordsDecode : Prop :=
  decodeInstr [0xEC01, 0x0003] = some (.read { t := ⟨0, 3⟩, reg := some (0, 1) }, []) ∧
  decodeInstr [0xE3FD, 0x1402] = some (.add { t := ⟨0, 2⟩, imm := [0x3FD] }, []) ∧
  decodeInstr [0xE406, 0x1405] = some (.add { t := ⟨0, 5⟩, t2 := some ⟨0, 6⟩ }, []) ∧
  decodeInstr [0xE841, 0x4406] = some (.sext { t := ⟨0, 6⟩, sub := 1 }, []) ∧
  decodeInstr [0xE840, 0xE01F, 0x5407] = some (.qtrunc { t := ⟨0, 7⟩, imm := [31] }, []) ∧
  decodeInstr [0xFA01, 0xEC02, 0xF000, 0xE027, 0xBC04] =
    some (.qld { t := ⟨0, 4⟩, reg := some (0, 2), lsq := some (0, false), imm := [39], dep := some (32, 1) }, []) ∧
  decodeInstr [0xF020, 0xAC04] = some (.stD { t := ⟨0, 4⟩, lsq := some (1, false) }, []) ∧
  decodeInstr [0xE884, 0xF000, 0x6400] = some (.fence { t := ⟨0, 0⟩, sub := 4, lsq := some (0, false) }, []) ∧
  decodeInstr [0xE920, 0xF600, 0xF4C9, 0x0003] =
    some (.vcvt { t := ⟨0, 3⟩, sub := 32, fmts := [(0x20, 0), (0x0C, 9)] }, []) ∧
  decodeInstr [0xE8C2, 0xF600, 0xE000, 0x4C05] =
    some (.vcmp { t := ⟨0, 5⟩, sub := 2, fmts := [(0x20, 0)], imm := [0] }, []) ∧
  decodeInstr [0xE900, 0xF600, 0xE11B, 0x2003] = some (.vqshuf { t := ⟨0, 3⟩, fmts := [(0x20, 0)], imm := [0x11B] }, []) ∧
  decodeInstr [0xE961, 0xF620, 0xF020, 0xE003, 0x2007] =
    some (.mdrain { t := ⟨0, 7⟩, sub := 33, fmts := [(0x22, 0)], lsq := some (1, false), imm := [3] }, []) ∧
  decodeInstr [0xE980, 0xF000, 0xE005, 0x0801] = some (.copy { t := ⟨0, 1⟩, lsq := some (0, false), imm := [5] }, []) ∧
  decodeInstr [0xE9C0, 0xF000, 0xE007, 0x3803] = some (.fbar { t := ⟨0, 3⟩, lsq := some (0, false), imm := [7] }, []) ∧
  decodeInstr [0xEA00, 0xF0C0, 0xE001, 0xE200, 0x0C14] =
    some (.ctlset { t := ⟨0, 20⟩, lsq := some (6, false), imm := [1, 0x200] }, []) ∧
  decodeTableWord 32 0xEC010003 = some (.read { t := ⟨0, 3⟩, reg := some (0, 1) })

/-- R217, first pass: the header's failures in their order.  A reserved bit gives 0x01, NOUT above 32 gives 0x02, a
sheaf that a burr may not run gives 0x04, and PRIV without the grant gives the cause privilege. -/
def Obligations.HeaderFailures : Prop :=
  ∀ (burr privOk : Bool) (h : BitVec 128) (body : List Syl),
    let reserved := h.extractLsb' 120 8 ≠ 0
    let tooMany := 32 < (h.extractLsb' 6 6).toNat
    let notBurr := burr = true ∧ (h.getLsbD 116 = false ∨ h.getLsbD 118 = true ∨ h.getLsbD 119 = true ∨
      h.extractLsb' 20 24 ≠ 0 ∨ h.extractLsb' 44 64 ≠ 0 ∨ h.extractLsb' 109 7 ≠ 0)
    (reserved → decodeSheaf burr privOk h body = .error ⟨some 0x01, 0⟩) ∧
    (¬ reserved → tooMany → decodeSheaf burr privOk h body = .error ⟨some 0x02, 0⟩) ∧
    (¬ reserved → ¬ tooMany → notBurr → decodeSheaf burr privOk h body = .error ⟨some 0x04, 0⟩) ∧
    (¬ reserved → ¬ tooMany → ¬ notBurr → h.getLsbD 119 = true → privOk = false →
      decodeSheaf burr privOk h body = .error ⟨none, 0⟩)

/-- R210, R212, R217, R297: a sheaf that decodes holds COUNT well-formed instructions, its ordered events carry the
LSNs below NOUT once each, its masks and WK name exactly the registers its WRITEs name, VEC stands exactly when it names a V
register or holds an instruction of page 3 or 4, it has an exit, at most eight matrix
commands, and at most 656 bytes. -/
def Obligations.DecodedSheafKeepsTheLimits : Prop :=
  ∀ (burr privOk : Bool) (h : BitVec 128) (body : List Syl) (sh : Sheaf),
    decodeSheaf burr privOk h body = .ok sh →
      sh.insts.length = (h.extractLsb' 0 6).toNat + 1 ∧
      sh.size ≤ 656 ∧
      (∀ i ∈ sh.insts, i.form.isSome = true ∧ i.wellFormed = true) ∧
      (∀ i ∈ sh.insts, ∀ o, i.lsn? = some o → ∃ n, o = some n ∧ n < sh.hdr.nout) ∧
      (sh.insts.filterMap Instr.lsn?).Nodup ∧
      (sh.insts.filterMap Instr.lsn?).length = sh.hdr.nout ∧
      (∀ n : Nat, n < 32 → (sh.hdr.gmask.getLsbD n = true ↔ ∃ f, Instr.write f ∈ sh.insts ∧ f.reg = some (0, BitVec.ofNat 8 n))) ∧
      (∀ n : Nat, n < 64 → (sh.hdr.vmask.getLsbD n = true ↔ ∃ f, Instr.write f ∈ sh.insts ∧ f.reg = some (1, BitVec.ofNat 8 n))) ∧
      (∀ n : Nat, n < 8 → (sh.hdr.qmask.getLsbD n = true ↔
        ∃ f, Instr.write f ∈ sh.insts ∧ f.reg = some (2, BitVec.ofNat 8 (8 + n)))) ∧
      (sh.hdr.wk = true ↔ ∃ f, Instr.write f ∈ sh.insts ∧ f.reg = some (2, 0)) ∧
      (sh.hdr.vec = true ↔ ∃ i ∈ sh.insts, (∃ f, (i = .read f ∨ i = .write f) ∧ regKind f = .ve) ∨
        ∃ x, i.info = some x ∧ (x.page = 3 ∨ x.page = 4)) ∧
      (∃ i ∈ sh.insts, i.isExit = true) ∧
      sh.insts.countP Instr.isCommand ≤ 8

/-! ### The step -/

/-- R156, R131: the clock may pass exactly when no core has an issue of this clock before it, and a core that has issued
issues no more on it; the head of the inputs and the head of the due steps may happen; when one step may happen it does;
among several, one of them does.  Where the spec is silent it states the model's choice (logs 2, 3, 5 and 111). -/
def Obligations.StepTakesACandidate : Prop :=
  ∀ s : State,
    (Cand.clock ∈ s.cands ↔ s.turns = []) ∧
    (∀ c k pos, c ∈ s.issued → Cand.issue c k pos ∉ s.cands) ∧
    (∀ e rest, s.inputs = e :: rest → Cand.input e ∈ s.cands) ∧
    (∀ e rest, s.pending = e :: rest → Cand.due e ∈ s.cands) ∧
    (s.cands = [.clock] → step s = .next { s with clock := s.clock + 1, issued := [], now := s.now + 1 }) ∧
    (∀ c, c ≠ .clock → s.cands = [c] → step s = ticked (exec (s.prepare c).2 (s.prepare c).1)) ∧
    (2 ≤ s.cands.length → ∃ c ∈ s.cands,
      let u := { s with fresh := s.fresh + 1 }
      (c = .clock → step s = .next { u with clock := s.clock + 1, issued := [], now := s.now + 1 }) ∧
      (c ≠ .clock → step s = ticked (exec (u.prepare c).2 (u.prepare c).1)))

/-- R157: a step whose candidate is the issue of the instruction decoded at a body position runs exactly that
instruction, with the turn naming its place, and its core has then issued on this clock; where a step of the
device is due and nothing else may happen but the passing of the clock, it runs as the row of its own name with its subject in
hand, or the clock passes.  Where the spec is silent it states the model's choice (logs 3 and 4). -/
def Obligations.StepRunsTheDecodedInstruction : Prop :=
  (∀ (s : State) (c k pos : Nat) (fl : Flight) (i : Instr),
    s.cands = [.issue c k pos] → s.flight c k = some fl → fl.sheaf.insts[pos]? = some i →
      step s = ticked (exec i { s with turn := { core := c, slot := k, pos := pos }, issued := c :: s.issued })) ∧
  (∀ (s : State) (e : Event) (rest : List Event), s.pending = e :: rest → s.cands = [.due e, .clock] →
    let u := { s with fresh := s.fresh + 1 }
    step s = if Config.choice s.fresh % 2 = 0 then ticked (exec e.instr { u with pending := rest, event := some e })
             else .next { u with clock := s.clock + 1, issued := [], now := s.now + 1 })

/-! ### Reset and memory -/

/-- R193, R299, R305, R431, R436, R438: what the spec gives the registers at reset.  That TCQST is zero, with no command accepted
yet, is R431's with the model's choice of log 6.  The zeros that R55 has bring-up write stand at reset too (log 6): no other
statement here rests on them. -/
def Obligations.ResetValues : Prop :=
  (∀ c k, (State.reset.slot c k).th.regs.rnd = 0x100000000) ∧
  (∀ c, (State.reset.core c).mxcfg = 0xF1) ∧
  (∀ c, (State.reset.core c).mxcnt = 0) ∧
  (∀ p, (State.reset.copse p).serial = 1) ∧
  (∀ d, (State.reset.die d).moncfg = 0x6E5F40) ∧
  State.reset.health = 0 ∧ State.reset.tcqst = 0

/-- The memory of the reset state is in the canonical form, and every byte of it reads as an unlisted byte does
(the model's choice, log 1). -/
def Obligations.ResetMemoryIsCanonical : Prop :=
  Memory.wf State.reset.mem = true ∧ ∀ a, memRead State.reset.mem a = unlisted

/-- Every step keeps the canonical form of memory: addresses strictly rising, and no entry an unlisted byte reads as. -/
def Obligations.StepKeepsMemoryCanonical : Prop :=
  ∀ s t : State, Memory.wf s.mem = true → step s = .next t → Memory.wf t.mem = true

/-- R13, R46, R60, R63: bytes stored at an address read back, bytes not stored keep their values, and the canonical form stays;
bytes stored at a home read back from it, and every other byte of memory reads as before: a zero-pending sector reads as
zeros before and around them. -/
def Obligations.StoredBytesReadBack : Prop :=
  (∀ (s : State) (a : Nat) (bs : List (Option Byte)), Memory.wf s.mem = true →
    Memory.wf (s.putBytes a bs).mem = true ∧
    (∀ j b, bs[j]? = some (some b) → memRead (s.putBytes a bs).mem (a + j) = b) ∧
    (∀ j, bs[j]? = some none → memRead (s.putBytes a bs).mem (a + j) = memRead s.mem (a + j)) ∧
    (∀ x, x < a ∨ a + bs.length ≤ x → memRead (s.putBytes a bs).mem x = memRead s.mem x)) ∧
  (∀ (s : State) (pa : Nat) (bs : List (Option Byte)), Memory.wf s.mem = true → s.poolData pa = none →
    pa % 128 + bs.length ≤ 128 →
    (∀ j b, bs[j]? = some (some b) → (s.putHome pa bs).homeBytes (pa + j) 1 = [b]) ∧
    (∀ a, a < pa ∨ pa + bs.length ≤ a ∨ bs[a - pa]? = some none →
      (s.putHome pa bs).homeBytes a 1 = s.homeBytes a 1))

/-! ### Tokens and frames -/

/-- R207 to R209: delivering a token to a target.  The null target takes nothing; an empty port takes the token, and a
predicate token that does not match absorbs a waiting consumer; every other port, instruction and field stays.  A second
token of any kind on one port raises multiple-token: the sheaf is discarded and the trap taken. -/
def Obligations.TokenDelivery : Prop :=
  (∀ (fl : Flight) (self : Nat) (tg : Tgt) (t : Tok) (nd : Node),
    (tg.pos.toNat = self → fl.deliver self tg t = some fl) ∧
    (tg.pos.toNat ≠ self → fl.nodes[tg.pos.toNat]? = some nd → nd.port tg.port.toNat = none →
      ∃ fl' nd', fl.deliver self tg t = some fl' ∧ fl' = { fl with nodes := fl.nodes.set tg.pos.toNat nd' } ∧
        nd'.port tg.port.toNat = some t ∧
        (∀ q, q < 4 → q ≠ tg.port.toNat → nd'.port q = nd.port q) ∧
        (tg.port ≠ 3 → nd'.st = nd.st) ∧
        (tg.port = 3 → nd.st = .waiting → predLets ((fl.sheaf.formAt tg.pos.toNat).elim 0 (·.pm)) t = false →
          nd'.st = .absorbed) ∧
        (tg.port = 3 → predLets ((fl.sheaf.formAt tg.pos.toNat).elim 0 (·.pm)) t = true → nd'.st = nd.st))) ∧
  ((∀ (fl : Flight) (self : Nat) (tg : Tgt) (t : Tok) (nd : Node), tg.pos.toNat ≠ self →
    fl.nodes[tg.pos.toNat]? = some nd → nd.port tg.port.toNat ≠ none → fl.deliver self tg t = none) ∧
  (∀ (s : State) (is : Iss) (t : Tok) (fl : Flight), s.flight is.c is.k = some fl →
    (fl.fired is.pos).deliver is.pos is.f.t t = none → s.emit is t = s.fault is.c is.k .multipleToken))

/-- R159: an instruction with a null token on a port it waits for fires without its effect and delivers null.  Where the
spec is silent it states the model's choice (log 46). -/
def Obligations.NullTokenFiresWithoutEffect : Prop :=
  ∀ (f : Form) (k : LdForm) (i : Instr),
    i ∈ ([.add f, .sub f, .mul f, .and f, .or f, .xor f, .andn f, .not f, .shl f, .shr f, .sar f, .sel f, .teq f, .tne f,
      .tlt f, .tle f, .tltu f, .tleu f, .pand f, .por f, .pnot f, .br f, .ret f, .mulh f, .mulhu f, .div f, .divu f,
      .rem f, .remu f, .rot f, .min f, .max f, .minu f, .maxu f, .abs f, .neg f, .clz f, .ctz f, .popc f, .brev f,
      .sext f, .zext f, .qdig f, .qset f, .qtrunc f, .qparent f, .qchild f, .qinter f, .qsplit f, .qdepth f, .qnext f,
      .mov f, .ldB f, .ldBu f, .ldH f, .ldHu f, .ldW f, .ldWu f, .ldD f, .ldQ f, .ldf k f, .stB f, .stH f, .stW f, .stD f,
      .stQ f, .ldv f, .stv f, .qld f, .qst f, .amadd f, .amcas f, .redadd f, .gath f, .stw f, .protb f, .vadd f, .vfma f,
      .vcvt f, .mtail f, .copy f, .send f, .spawn f, .migrate f, .trap f, .ctlget f, .ctlset f] : List Instr) →
    ∀ s is, s.issuer i = some is → is.fl.heldBack is.th is.pos = false → is.anyNull = true →
      exec i s = .next (s.emit is .null)

/-- R162, R237, R281: a dataflow instruction, scalar or vector, changes nothing but its own sheaf in flight, unless it traps
(its result reaches a port that holds a token, or its format is not one): every register, every byte of memory and every
other slot stays. -/
def Obligations.DataflowFrame : Prop :=
  ∀ (f : Form) (i : Instr),
    i ∈ ([.mov f, .const f, .null f, .add f, .sub f, .mul f, .and f, .or f, .xor f, .andn f, .not f, .shl f, .shr f,
      .sar f, .sel f, .teq f, .tne f, .tlt f, .tle f, .tltu f, .tleu f, .pand f, .por f, .pnot f, .mulh f, .mulhu f,
      .div f, .divu f, .rem f, .remu f, .rot f, .min f, .max f, .minu f, .maxu f, .abs f, .neg f, .clz f, .ctz f,
      .popc f, .brev f, .sext f, .zext f, .qdig f, .qset f, .qtrunc f, .qparent f, .qchild f, .qinter f, .qsplit f,
      .qdepth f, .qnext f, .kset f, .kget f, .vadd f, .vsub f, .vmul f, .vfma f, .vfms f, .vmin f, .vmax f, .vabs f,
      .vneg f, .vrcp f, .vrsq f, .vexp2 f, .vlog2 f, .vand f, .vor f, .vxor f, .vshl f, .vshr f, .vsar f, .vcmp f, .vsel f,
      .vredsum f, .vredmax f, .vdot f, .vcvt f, .vscale f, .vperm f, .vbcast f, .vins f, .vext f, .viota f, .vpack f,
      .vunpack f, .vtrn f, .vqshuf f] : List Instr) →
    ∀ s t, exec i s = .next t →
      t = s ∨ (∃ fl, t = s.setFlight s.turn.core s.turn.slot fl) ∨
        ∃ r, t = s.takeTrap s.turn.core s.turn.slot r

/-- R162: the instructions that access no memory as they fire change no byte of it (the loads, stores and the others that
translate an address may mark pages and write back pool lines, and store at commit). -/
def Obligations.MemoryFrame : Prop :=
  ∀ f i,
    i ∈ ([
      .read f, .write f, .mov f, .const f, .null f, .add f, .sub f, .mul f, .and f, .or f, .xor f, .andn f, .not f,
      .shl f, .shr f, .sar f, .sel f, .teq f, .tne f, .tlt f, .tle f, .tltu f, .tleu f, .pand f, .por f, .pnot f,
      .br f, .bri f, .call f, .ret f, .exit f, .mulh f, .mulhu f, .div f, .divu f, .rem f, .remu f, .rot f, .min f,
      .max f, .minu f, .maxu f, .abs f, .neg f, .clz f, .ctz f, .popc f, .brev f, .sext f, .zext f, .qdig f, .qset f,
      .qtrunc f, .qparent f, .qchild f, .qinter f, .qsplit f, .qdepth f, .qnext f, .fence f, .xfence f, .vadd f,
      .vsub f, .vmul f, .vfma f, .vfms f, .vmin f, .vmax f, .vabs f, .vneg f, .vrcp f, .vrsq f, .vexp2 f, .vlog2 f,
      .vand f, .vor f, .vxor f, .vshl f, .vshr f, .vsar f, .vcmp f, .vsel f, .vredsum f, .vredmax f, .vdot f,
      .vcvt f, .vscale f, .vpack f, .vunpack f, .vperm f, .vbcast f, .vins f, .vext f, .vqshuf f, .vtrn f, .viota f,
      .rkalloc f, .rkpin f, .rkunpin f, .rkrev f, .rkqry f, .mma f, .mmaz f, .mdrain f, .mring f, .mtail f, .mcnt f,
      .mthr f, .mwgt f, .mbxw f, .mbxr f, .waitany f, .waitall f, .ffr f, .tagclr f, .rnunbind f, .send f,
      .sendOrd f, .waitmsg f, .msgpop f, .spawn f, .spawnb f, .kset f, .kget f, .nbr f, .nbrn f, .fjoin f, .fleave f,
      .fbar f, .tblk f, .tubl f, .tset f, .yield f, .park f, .done f, .setrnd f, .trap f, .tret f, .ctlget f,
      .ctlset f, .halt f, .preempt f] : List Instr) →
    ∀ s t, exec i s = .next t → ∀ a, memRead t.mem a = memRead s.mem a

/-! ### Pages 0 and 1, registers and exits -/

/-- R241 to R244, R246 to R248, R250 to R253: sums, differences, products and logic; shifts and rotations by the low six bits
of their count; minima, maxima, absolute value, negation and extensions; SEL, the tests and the predicate instructions;
MOV, CONST and NULL. -/
def Obligations.ScalarResults : Prop :=
  (∀ f,
    Delivers (.add f) (fun is => ofZ (is.lw.toNat + is.rw_.toNat)) ∧
    Delivers (.sub f) (fun is => ofZ (is.lw.toNat - is.rw_.toNat)) ∧
    Delivers (.mul f) (fun is => ofZ (is.lw.toInt * is.rw_.toInt)) ∧
    Delivers (.mulh f) (fun is => ofZ (is.lw.toInt * is.rw_.toInt / 2 ^ 64)) ∧
    Delivers (.mulhu f) (fun is => ofZ (is.lw.toNat * is.rw_.toNat / 2 ^ 64)) ∧
    Delivers (.and f) (fun is => is.lw &&& is.rw_) ∧
    Delivers (.or f) (fun is => is.lw ||| is.rw_) ∧
    Delivers (.xor f) (fun is => is.lw ^^^ is.rw_) ∧
    Delivers (.andn f) (fun is => is.lw &&& ~~~is.rw_) ∧
    Delivers (.not f) (fun is => ~~~is.lw)) ∧
  (∀ f,
    Delivers (.shl f) (fun is => ofZ (is.lw.toNat * 2 ^ count is.rw_)) ∧
    Delivers (.shr f) (fun is => ofZ (is.lw.toNat / 2 ^ count is.rw_)) ∧
    Delivers (.sar f) (fun is => ofZ (is.lw.toInt / 2 ^ count is.rw_)) ∧
    Delivers (.rot f) (fun is =>
      if count is.rw_ = 0 then is.lw else (is.lw <<< count is.rw_) ||| (is.lw >>> (64 - count is.rw_)))) ∧
  (∀ f,
    Delivers (.min f) (fun is => ofZ (min is.lw.toInt is.rw_.toInt)) ∧
    Delivers (.max f) (fun is => ofZ (max is.lw.toInt is.rw_.toInt)) ∧
    Delivers (.minu f) (fun is => ofZ (min is.lw.toNat is.rw_.toNat)) ∧
    Delivers (.maxu f) (fun is => ofZ (max is.lw.toNat is.rw_.toNat)) ∧
    Delivers (.abs f) (fun is => ofZ is.lw.toInt.natAbs) ∧
    Delivers (.neg f) (fun is => ofZ (- is.lw.toInt)) ∧
    (f.sub.toNat ≤ 2 → Delivers (.zext f) (fun is => ofZ (is.lw.toNat % 2 ^ (8 * 2 ^ f.sub.toNat)))) ∧
    (f.sub.toNat ≤ 2 → Delivers (.sext f) (fun is => ofZ (is.lw.toInt.bmod (2 ^ (8 * 2 ^ f.sub.toNat)))))) ∧
  (∀ f,
    Delivers (.sel f) (fun is => if is.xw.toNat % 2 = 1 then is.lw else is.rw_) ∧
    Delivers (.teq f) (fun is => truth (is.lw = is.rw_)) ∧
    Delivers (.tne f) (fun is => truth (is.lw ≠ is.rw_)) ∧
    Delivers (.tlt f) (fun is => truth (is.lw.toInt < is.rw_.toInt)) ∧
    Delivers (.tle f) (fun is => truth (is.lw.toInt ≤ is.rw_.toInt)) ∧
    Delivers (.tltu f) (fun is => truth (is.lw.toNat < is.rw_.toNat)) ∧
    Delivers (.tleu f) (fun is => truth (is.lw.toNat ≤ is.rw_.toNat)) ∧
    Delivers (.pand f) (fun is => ofZ (is.lw.toNat % 2 * (is.rw_.toNat % 2))) ∧
    Delivers (.por f) (fun is => ofZ (max (is.lw.toNat % 2) (is.rw_.toNat % 2))) ∧
    Delivers (.pnot f) (fun is => ofZ (1 - is.lw.toNat % 2))) ∧
  (∀ f,
    (∀ s is, Fires (.mov f) s is → exec (.mov f) s = .next (s.emit is is.l)) ∧
    (∀ s is, Fires (.const f) s is → exec (.const f) s = .next (s.emit is (.sc (immValue f.imm)))) ∧
    (∀ v : BitVec 10, immValue [v] = v.signExtend 64) ∧
    (∀ v w : BitVec 10, immValue [v, w] = (v ++ w).signExtend 64) ∧
    (∀ s is, s.issuer (.null f) = some is → exec (.null f) s = .next (s.emit is .null)))

/-- R245: quotients rounded toward zero, remainders with the dividend's sign; a zero divisor gives all ones and the
dividend, and −2^63 by −1 gives −2^63 and 0. -/
def Obligations.Division : Prop :=
  ∀ f,
    Delivers (.div f) (fun is => if is.rw_ = 0 then 0xFFFFFFFFFFFFFFFF else ofZ (is.lw.toInt.tdiv is.rw_.toInt)) ∧
    Delivers (.rem f) (fun is => if is.rw_ = 0 then is.lw else ofZ (is.lw.toInt.tmod is.rw_.toInt)) ∧
    Delivers (.divu f) (fun is => if is.rw_ = 0 then 0xFFFFFFFFFFFFFFFF else ofZ (is.lw.toNat / is.rw_.toNat)) ∧
    Delivers (.remu f) (fun is => if is.rw_ = 0 then is.lw else ofZ (is.lw.toNat % is.rw_.toNat)) ∧
    (∀ s is, Fires (.div f) s is → is.lw = 0x8000000000000000 → is.rw_ = 0xFFFFFFFFFFFFFFFF →
      exec (.div f) s = .next (s.emit is (.sc 0x8000000000000000))) ∧
    (∀ s is, Fires (.rem f) s is → is.lw = 0x8000000000000000 → is.rw_ = 0xFFFFFFFFFFFFFFFF →
      exec (.rem f) s = .next (s.emit is (.sc 0)))

/-- R249, R256, R257: CLZ and CTZ count the zeros above and below the set bits, 64 for zero, POPC the set bits, BREV gives
bit 63 − i in bit i; the quadrant instructions, with digit n of A at bits 65 − 2n and 64 − 2n. -/
def Obligations.BitAndQuadrantResults : Prop :=
  (∀ f s is,
    (Fires (.clz f) s is → ∃ n ≤ 64, exec (.clz f) s = .next (s.emit is (.sc (BitVec.ofNat 64 n))) ∧
      (∀ i, 64 - n ≤ i → is.lw.getLsbD i = false) ∧ (n < 64 → is.lw.getLsbD (63 - n) = true)) ∧
    (Fires (.ctz f) s is → ∃ n ≤ 64, exec (.ctz f) s = .next (s.emit is (.sc (BitVec.ofNat 64 n))) ∧
      (∀ i, i < n → is.lw.getLsbD i = false) ∧ (n < 64 → is.lw.getLsbD n = true)) ∧
    (Fires (.popc f) s is → exec (.popc f) s =
      .next (s.emit is (.sc (BitVec.ofNat 64 ((List.range 64).countP fun i => is.lw.getLsbD i))))) ∧
    (Fires (.brev f) s is → ∃ w : Word, exec (.brev f) s = .next (s.emit is (.sc w)) ∧
      ∀ i, i < 64 → w.getLsbD i = is.lw.getLsbD (63 - i))) ∧
  (∀ f,
    Delivers (.qdig f) (fun is => if 1 ≤ is.rw_.toNat ∧ is.rw_.toNat ≤ 32
      then ofZ (is.lw.toNat / 4 ^ (32 - is.rw_.toNat) % 4) else 0) ∧
    (∀ s is, Fires (.qset f) s is → ∃ w : Word, exec (.qset f) s = .next (s.emit is (.sc w)) ∧
      (is.rw_.toNat < 1 ∨ 32 < is.rw_.toNat → w = is.lw) ∧
      (1 ≤ is.rw_.toNat → is.rw_.toNat ≤ 32 → ∀ i, i < 64 →
        w.getLsbD i = if 64 - 2 * is.rw_.toNat ≤ i ∧ i < 66 - 2 * is.rw_.toNat
          then is.xw.getLsbD (i - (64 - 2 * is.rw_.toNat)) else is.lw.getLsbD i)) ∧
    Delivers (.qtrunc f) (fun is => ofZ (is.lw.toNat / 4 ^ (32 - min is.rw_.toNat 32) * 4 ^ (32 - min is.rw_.toNat 32))) ∧
    Delivers (.qnext f) (fun is =>
      ofZ ((is.lw.toNat / 4 ^ (32 - min is.rw_.toNat 32) + 1) * 4 ^ (32 - min is.rw_.toNat 32))) ∧
    Delivers (.qparent f) (fun is => ofZ (is.lw.toNat / 4)) ∧
    Delivers (.qchild f) (fun is => ofZ (4 * is.lw.toNat + is.rw_.toNat % 4)) ∧
    (∀ s is, Fires (.qinter f) s is → ∃ w : Word, exec (.qinter f) s = .next (s.emit is (.sc w)) ∧
      ∀ b, b < 32 → w.getLsbD (2 * b + 1) = is.lw.getLsbD b ∧ w.getLsbD (2 * b) = is.rw_.getLsbD b) ∧
    (∀ s is, Fires (.qsplit f) s is → ∃ i j : Word, exec (.qsplit f) s = .next (s.emit2 is (.sc i) (.sc j)) ∧
      i.toNat < 2 ^ 32 ∧ j.toNat < 2 ^ 32 ∧
      ∀ b, b < 32 → i.getLsbD b = is.lw.getLsbD (2 * b + 1) ∧ j.getLsbD b = is.lw.getLsbD (2 * b)) ∧
    (∀ s is, Fires (.qdepth f) s is → ∃ d ≤ 32, exec (.qdepth f) s = .next (s.emit is (.sc (BitVec.ofNat 64 d))) ∧
      is.lw.toNat / 4 ^ (32 - d) = is.rw_.toNat / 4 ^ (32 - d) ∧
      (d < 32 → is.lw.toNat / 4 ^ (31 - d) ≠ is.rw_.toNat / 4 ^ (31 - d))))

/-- R160, R254, R255, R358, R359, R375: an exit sets the sheaf's target: the token, the immediate, or the fall-through offset,
which CALL also delivers; a disposal decides what becomes of the thread at commit; a second exit or disposal raises
multiple-exit.  MIGRATE outside a burr raises burr-only, TRAP with a code above 255 bad-control-value. -/
def Obligations.ExitsAndDisposals : Prop :=
  (∀ f,
    let ft := fun (is : Iss) => is.th.regs.n + ofZ ((is.fl.sheaf.size + 15) / 16 * 16)
    let leave := fun (s : State) (is : Iss) (w : Word) => s.modFlight is.c is.k fun fl => { fl with exit_ := some w }
    (∀ s is, Fires (.br f) s is → is.fl.exit_ = none → exec (.br f) s = .next ((leave s is is.lw).fire is)) ∧
    (∀ s is, Fires (.ret f) s is → is.fl.exit_ = none → exec (.ret f) s = .next ((leave s is is.lw).fire is)) ∧
    (∀ s is, Fires (.bri f) s is → is.fl.exit_ = none → exec (.bri f) s = .next ((leave s is (immValue f.imm)).fire is)) ∧
    (∀ s is, Fires (.exit f) s is → is.fl.exit_ = none → exec (.exit f) s = .next ((leave s is (ft is)).fire is)) ∧
    (∀ s is, Fires (.call f) s is → is.fl.exit_ = none →
      exec (.call f) s = .next ((leave s is (immValue f.imm)).emit is (.sc (ft is)))) ∧
    (∀ s is i, i ∈ ([.br f, .ret f, .bri f, .exit f, .call f] : List Instr) → Fires i s is → is.fl.exit_.isSome = true →
      exec i s = .next (s.fault is.c is.k .multipleExit))) ∧
  (∀ f s is,
    let leave := fun (s : State) (d : Dispo) => (s.modFlight is.c is.k fun fl => { fl with dispo := some d }).fire is
    (∀ i d, (i, d) ∈ ([(.yield f, .yield_), (.park f, .park), (.done f, .done), (.tret f, .tret), (.halt f, .halt)] :
        List (Instr × Dispo)) → Fires i s is →
      (is.fl.dispo = none → exec i s = .next (leave s d)) ∧
      (is.fl.dispo.isSome = true → exec i s = .next (s.fault is.c is.k .multipleExit))) ∧
    (Fires (.trap f) s is → is.lw.toNat < 256 → is.fl.dispo = none → exec (.trap f) s = .next (leave s (.softTrap is.lw))) ∧
    (Fires (.trap f) s is → 256 ≤ is.lw.toNat → exec (.trap f) s = .next (s.trapAt is .badControlValue)) ∧
    (Fires (.migrate f) s is → is.burr = false → exec (.migrate f) s = .next (s.trapAt is .burrOnly)) ∧
    (Fires (.migrate f) s is → is.burr = true → is.lw.toNat < 2 ^ 56 → is.fl.dispo = none → ∀ t l,
      s.xlate is.xer is.ctx is.lw.toNat = (t, .ok l) →
      exec (.migrate f) s = .next (leave t (.migrate
        ((if l.kind == 2 then none else t.followOwner (t.leafPa l is.lw.toNat)).getD is.c) true))))

/-- R160, R239, R240, R335: READ delivers the register as it stands (registers change only at commit, so this is its
value at the start of the sheaf); WRITE holds its token until commit, null included, and a register that the sheaf has
already resolved raises multiple-write; a WRITE of K also asks for its owner, and a value that RND may not hold makes
the commit trap with bad-control-value; a WRITE of a runnel port buffers a word
for a bound drain or neighbour port, and traps at an unbound or a fill port.  A register word with an uncorrectable
error makes the instruction that reads it, or merges into it, trap.  Where the spec is silent it states the model's
choice (logs 49 and 64). -/
def Obligations.RegisterReadsAndWrites : Prop :=
  (∀ f s is n, Fires (.read f) s is →
    (f.reg = some (0, n) → ∀ h : n.toNat < 32, exec (.read f) s = .next (s.emit is (.sc is.th.regs.g[n.toNat]))) ∧
    (f.reg = some (1, n) → ∀ h : n.toNat < 64,
      exec (.read f) s = .next (s.emit is (.ve is.th.regs.v[n.toNat] 0xFFFFFFFFFFFFFFFF))) ∧
    (f.reg = some (2, 0) → exec (.read f) s = .next (s.emit is (.sc is.th.regs.k))) ∧
    (f.reg = some (2, 1) → exec (.read f) s = .next (s.emit is (.sc is.th.regs.n))) ∧
    (f.reg = some (2, 6) → exec (.read f) s = .next (s.emit is (.sc is.th.regs.rnd))) ∧
    (f.reg = some (2, n) → 2 ≤ n.toNat → n.toNat ≤ 5 → is.th.kind = .rooted →
      exec (.read f) s = .next (s.emit is (.sc (is.th.regs.f[n.toNat - 2]?.getD 0)))) ∧
    (f.reg = some (2, n) → 8 ≤ n.toNat → ∀ h : n.toNat - 8 < 8,
      exec (.read f) s = .next (s.emit is (.sc is.th.regs.q[n.toNat - 8]))) ∧
    (f.reg = some (3, n) → rnreadWaits is s = false → exec (.read f) s = .next (rnread is s))) ∧
  (∀ f s is cls n reg, s.issuer (.write f) = some is → f.reg = some (cls, n) → regOf cls n = some reg →
    let t := if is.anyNull then Tok.null else is.l
    let held := s.modFlight is.c is.k fun fl => { fl with regw := fl.regw ++ [(reg, t)] }
    ((∃ e ∈ is.fl.regw, e.1 = reg) → exec (.write f) s = .next (s.fault is.c is.k .multipleWrite)) ∧
    ((∀ e ∈ is.fl.regw, e.1 ≠ reg) → is.th.badMerge reg t = false → reg ≠ .k → exec (.write f) s = .next (held.fire is)) ∧
    ((∀ e ∈ is.fl.regw, e.1 ≠ reg) → is.th.badMerge reg t = true →
      exec (.write f) s = .next (s.trapAt is .uncorrectableData)) ∧
    ((∀ e ∈ is.fl.regw, e.1 ≠ reg) → is.th.badMerge reg t = false → reg = .k → ∀ w, t = .sc w → exec (.write f) s =
      .next (((held.modFlight is.c is.k fun fl => { fl with looks := fl.looks ++ [(is.pos, 0, w)] }).due
        (.ownerLookup { core := is.c, slot := is.k, run := is.fl.run, lsn := is.pos } w)).fire is))) ∧
  (∀ f s is, Fires (.write f) s is → isRunnel f = true →
    (is.th.port? is.portNo = none → exec (.write f) s = .next (s.trapAt is .runnelUnbound)) ∧
    (∀ x, is.th.port? is.portNo = some x → x.mode = .fill → exec (.write f) s = .next (s.trapAt is .runnelMode)) ∧
    (∀ x, is.th.port? is.portNo = some x → x.mode ≠ .fill →
      exec (.write f) s = .next (s.fireDue is (.rnwrite is.portNo is.lw)))) ∧
  (∀ (s : State) c k fl w, (Reg.rnd, Tok.sc w) ∈ fl.regw → w.extractLsb' 3 29 ≠ 0 ∨ w.extractLsb' 0 3 = 7 →
    s.commit c k fl = .error { cause := .badControlValue }) ∧
  ((∀ (f : Form) (k : LdForm) (i : Instr),
    i ∈ ([.read f, .ldB f, .ldD f, .ldQ f, .ldf k f, .ldv f, .qld f, .stB f, .stD f, .stQ f, .stv f, .qst f, .amadd f, .amcas f,
      .redadd f, .gath f, .stw f] : List Instr) →
    ∀ s is cls n w, s.issuer i = some is → is.fl.heldBack is.th is.pos = false → is.anyNull = false →
      f.reg = some (cls, n) → cls ≠ 3 → (cls.toNat, n.toNat, w) ∈ is.th.bad →
      exec i s = .next (s.trapAt is .uncorrectableData)) ∧
  (∀ (f : Form) (i : Instr),
    i ∈ ([.vadd f, .vsub f, .vmul f, .vfma f, .vmin f, .vmax f, .vand f, .vshl f, .vcmp f, .vsel f, .vredsum f, .vdot f, .vcvt f,
      .vbcast f, .vperm f] : List Instr) →
    ∀ s is p w, s.issuer i = some is → is.fl.heldBack is.th is.pos = false → is.anyNull = false →
      p ∈ f.fmts → p.2.getLsbD 3 = true → (2, 8 + p.2.toNat % 8, w) ∈ is.th.bad →
      exec i s = .next (s.trapAt is .uncorrectableData)))

/-! ### Memory instructions -/

/-- R260 to R262, R265, R267, R268: the loads.  A load whose checks pass waits for its bytes with the shape its form
gives; LDV at an address that is no multiple of 16 raises misaligned-access, a policy word that R261 forbids bad-policy.
LDF acts as its LD, and in a burr that has not followed it records the owner of its first byte's follow mark, where that
is another.  Where the spec is silent it states the model's choice (logs 24 and 32). -/
def Obligations.LoadsFire : Prop :=
  (∀ f,
    LoadsAs (.ldB f) 1 (.sext 1) false ∧ LoadsAs (.ldBu f) 1 (.zext 1) false ∧
    LoadsAs (.ldH f) 2 (.sext 2) false ∧ LoadsAs (.ldHu f) 2 (.zext 2) false ∧
    LoadsAs (.ldW f) 4 (.sext 4) false ∧ LoadsAs (.ldWu f) 4 (.zext 4) false ∧
    LoadsAs (.ldD f) 8 (.zext 8) false ∧ LoadsAs (.ldQ f) 16 (.vec 0xFFFF) false ∧
    LoadsAs (.ldv f) 64 (.vec 0xFFFFFFFFFFFFFFFF) true) ∧
  (∀ k f s is fl t got, Fires (.ldf k f) s is → polOk is.policy true false false = true →
    LoadReady s is is.addr (List.replicate (ldBytes k) none) false false (coverWord is.addr (ldBytes k)) fl t got →
    (s.followsTo is = none → exec (.ldf k f) s = .next (loadHeld is is.addr (ldShape k) fl t got)) ∧
    (∀ o, s.followsTo is = some o → exec (.ldf k f) s =
      .next ((loadHeld is is.addr (ldShape k) fl t got).modFlight is.c is.k fun x =>
        { x with follow := x.follow ++ [(is.lsnN, o)] })) ∧
    (is.burr = false ∨ is.th.fw = true → s.followsTo is = none))

/-- R161, R263, R265: a held answer takes each byte from the highest lower-LSN store of the sheaf that writes it, and the other
bytes from the reply; the bytes, lowest first, become the token: sign- or zero-extended, or the low bytes of a vector.
That the bytes are replayed by virtual address is the model's reading (log 23). -/
def Obligations.LoadedBytesBecomeTheToken : Prop :=
  ((∀ b : Byte, (Shape.sext 1).token [b] = .sc (b.signExtend 64) ∧ (Shape.zext 1).token [b] = .sc (b.zeroExtend 64)) ∧
  (∀ a b : Byte, (Shape.sext 2).token [a, b] = .sc ((b ++ a).signExtend 64) ∧
    (Shape.zext 2).token [a, b] = .sc ((b ++ a).zeroExtend 64)) ∧
  (∀ a b c d : Byte, (Shape.sext 4).token [a, b, c, d] = .sc ((d ++ c ++ b ++ a).signExtend 64) ∧
    (Shape.zext 4).token [a, b, c, d] = .sc ((d ++ c ++ b ++ a).zeroExtend 64)) ∧
  (∀ (bs : List Byte) (m : Mask) (i : Nat) (b : Byte), bs.length ≤ 64 → bs[i]? = some b →
    ∃ v, (Shape.vec m).token bs = .ve v m ∧ v.extractLsb' (8 * i) 8 = b)) ∧
  (∀ (fl : Flight) (h : Held) (i : Nat) (b : Byte), h.got[i]? = some (some b) →
    let writes := fun (t : Touch) => t.kind = .store ∧ t.lsn < h.lsn ∧ t.va ≤ h.va + i ∧
      ∃ v, t.bytes[h.va + i - t.va]? = some (some v)
    ((∀ t ∈ fl.touch, ¬ writes t) → (fl.replay h)[i]? = some b) ∧
    (∀ t ∈ fl.touch, writes t → (∀ u ∈ fl.touch, writes u → u ≠ t → u.lsn < t.lsn) →
      ∀ v, t.bytes[h.va + i - t.va]? = some (some v) → (fl.replay h)[i]? = some v))

/-- R262, R266, R267: the stores.  A store whose checks pass buffers its bytes until commit; ST.q and STV write the
valid bytes only. -/
def Obligations.StoresFire : Prop :=
  ∀ f,
    let scalar := fun n (is : Iss) => (List.range n).map fun i => some (is.rw_.extractLsb' (8 * i) 8)
    let vector := fun n (is : Iss) => vecValid n is.r
    StoresAs (.stB f) 1 (scalar 1) false ∧ StoresAs (.stH f) 2 (scalar 2) false ∧
    StoresAs (.stW f) 4 (scalar 4) false ∧ StoresAs (.stD f) 8 (scalar 8) false ∧
    StoresAs (.stQ f) 16 (vector 16) false ∧ StoresAs (.stv f) 64 (vector 64) true

/-- R10, R25, R269: QLD and QST move one block of their depth, in byte form at B + P × size, or of elements through a
descriptor, which waits for the core's own writes of it that are under way (log 122); R10's faults end them: in byte form the base must be aligned to the block, and the block must lie below 2^56. -/
def Obligations.QuadrantAccesses : Prop :=
  (∀ f s is,
    (Fires (.qld f) s is → (elemModeOf f = true → tensorWaits is s = false) → polOk is.policy true false false = true →
      (∀ u q fl t got, s.qblock is (depthOf f) (elemModeOf f) = (u, .ok q) →
        LoadReady u is q.va ((q.want.zip q.pads).map fun (w, p) => if w then none else some p) (elemModeOf f) true
          (blockWord (depthOf f) q.va) fl t got →
        exec (.qld f) s = .next (loadHeld is q.va
          (if 31 ≤ depthOf f then .zext (4 ^ (32 - depthOf f)) else .vec (lowMask (4 ^ (32 - depthOf f)))) fl t got)) ∧
      (∀ u r, s.qblock is (depthOf f) (elemModeOf f) = (u, .error r) → exec (.qld f) s = .next (u.recTrap is r))) ∧
    (∀ i, i = .qld f ∨ i = .qst f → Fires i s is → elemModeOf f = true → tensorWaits is s = true → exec i s = .next s) ∧
    (Fires (.qst f) s is → (elemModeOf f = true → tensorWaits is s = false) → polOk is.policy false true false = true →
      (∀ u q fl t ps bytes, s.qblock is (depthOf f) (elemModeOf f) = (u, .ok q) →
        bytes = ((q.want.zip (match is.r with
          | .ve .. => vecValid (4 ^ (32 - depthOf f)) is.r
          | _ => scalarBytes (4 ^ (32 - depthOf f)) is.rw_)).map fun (w, b) => if w then b else none) →
        StoreReady u is q.va q.want bytes (elemModeOf f) fl t ps →
        exec (.qst f) s = .next (storeHeld is q.va bytes true (blockWord (depthOf f) q.va) fl t ps)) ∧
      (∀ u r, s.qblock is (depthOf f) (elemModeOf f) = (u, .error r) → exec (.qst f) s = .next (u.recTrap is r)))) ∧
  (∀ (b p : Word) (d : Nat), d ≤ 32 →
    (b.toNat % 4 ^ (32 - d) ≠ 0 → byteBlock b p d = .error .blockAlignment) ∧
    (b.toNat % 4 ^ (32 - d) = 0 → 2 ^ 56 < b.toNat + p.toNat * 4 ^ (32 - d) + 4 ^ (32 - d) →
      byteBlock b p d = .error .nonCanonicalAddress) ∧
    (b.toNat % 4 ^ (32 - d) = 0 → b.toNat + p.toNat * 4 ^ (32 - d) + 4 ^ (32 - d) ≤ 2 ^ 56 →
      byteBlock b p d = .ok (b.toNat + p.toNat * 4 ^ (32 - d))))

/-- R138, R142, R270, R271: the atomics take their reservation when they fire; the reductions are checked as a read and a
write when they fire, and are sent at commit; an unaligned address raises misaligned-atomic.  The new value of each
read-modify-write, of 4 or 8 bytes. -/
def Obligations.AtomicsAndReductionsFire : Prop :=
  (∀ f,
    let z := if f.sub = 1 then 8 else 4
    AtomicAs (.amadd f) .add z ∧ AtomicAs (.amand f) .and z ∧ AtomicAs (.amor f) .or z ∧ AtomicAs (.amxor f) .xor z ∧
    AtomicAs (.ammin f) .min z ∧ AtomicAs (.ammax f) .max z ∧ AtomicAs (.amminu f) .minu z ∧
    AtomicAs (.ammaxu f) .maxu z ∧ AtomicAs (.amswap f) .swap z ∧ AtomicAs (.amcas f) .cas z ∧
    AtomicAs (.amaddf f) .addf 4) ∧
  (∀ f,
    let z := if f.sub = 1 then 8 else 4
    ReducesAs (.redadd f) .add z ∧ ReducesAs (.redmin f) .min z ∧ ReducesAs (.redmax f) .max z ∧
    ReducesAs (.redand f) .and z ∧ ReducesAs (.redor f) .or z ∧ ReducesAs (.redxor f) .xor z ∧
    ReducesAs (.redaddf f) .addf 4) ∧
  (∀ (o b c : BitVec 32) (p q r : BitVec 64),
    rmw .add 4 o.toNat b.toNat c.toNat = (o + b).toNat ∧ rmw .add 8 p.toNat q.toNat r.toNat = (p + q).toNat ∧
    rmw .and 4 o.toNat b.toNat c.toNat = (o &&& b).toNat ∧ rmw .or 4 o.toNat b.toNat c.toNat = (o ||| b).toNat ∧
    rmw .xor 8 p.toNat q.toNat r.toNat = (p ^^^ q).toNat ∧
    rmw .min 4 o.toNat b.toNat c.toNat = (if b.slt o then b else o).toNat ∧
    rmw .max 8 p.toNat q.toNat r.toNat = (if p.slt q then q else p).toNat ∧
    rmw .minu 4 o.toNat b.toNat c.toNat = (if b.ult o then b else o).toNat ∧
    rmw .maxu 8 p.toNat q.toNat r.toNat = (if p.ult q then q else p).toNat ∧
    rmw .swap 4 o.toNat b.toNat c.toNat = b.toNat ∧
    rmw .cas 8 p.toNat q.toNat r.toNat = (if p = q then r else p).toNat)

/-- R25, R272: GATH, once no write of its core to the descriptor is under way, delivers null with no valid index; otherwise
its elements are read at their homes, one request a home and key id.  With skipping a row outside the tensor is a pad
element, which no memory is read for; a policy, a descriptor or an index that the spec forbids ends it.  Where the spec
is silent it states the model's choice (logs 26 and 122). -/
def Obligations.GatherFires : Prop :=
  ∀ f s is, Fires (.gath f) s is →
    (tensorWaits is s = true → exec (.gath f) s = .next s) ∧
    (tensorWaits is s = false → polOk is.policy true false false = false → exec (.gath f) s = .next (s.trapAt is .badPolicy)) ∧
    (tensorWaits is s = false → polOk is.policy true false false = true →
      (∀ u r, s.readTensor is is.lw.toNat = (u, .error r) → exec (.gath f) s = .next (u.recTrap is r)) ∧
      (∀ u t, s.readTensor is is.lw.toNat = (u, .ok t) →
        let idx := (List.range (min 16 (64 / t.s))).map fun j => (j, gathIndex is.r j)
        let held := fun (v : State) (fl : Flight) (got : List (Option Byte)) => v.settle is.c is.k
          (some { fl.fired is.pos with held := fl.held ++
            [{ lsn := is.lsnN, pos := is.pos, kind := .gath (elemMask t.s (idx.map fun p => p.2.isSome)), va := 0,
               got := got, acq := is.acqScope }] })
        ((∀ p ∈ idx, p.2 = none) → exec (.gath f) s = .next (u.emit is .null)) ∧
        ((∃ p ∈ idx, p.2 ≠ none) → is.xw.toNat < t.cols → t.skip = true →
          (∀ p ∈ idx, ∀ row, p.2 = some row → row < 0 ∨ (t.rows : Int) ≤ row) → ∃ got,
            exec (.gath f) s = .next (held (u.acquire is is.pol) is.fl got) ∧
            ∀ j row, (j, some row) ∈ idx → ∀ i, i < t.s → got[j * t.s + i]? = some (t.padBytes[i]?)) ∧
        ((∃ p ∈ idx, p.2 ≠ none) → ∀ v plan fl,
          u.gathPlan is t is.xw.toNat { got := List.replicate 64 (some 0) } idx = (v, .ok plan) →
          is.fl.touchAll plan.touch = some fl →
          exec (.gath f) s = .next (held ((v.acquire is is.pol).gathSend is plan.els) fl plan.got)) ∧
        ((∃ p ∈ idx, p.2 ≠ none) → t.cols ≤ is.xw.toNat → exec (.gath f) s = .next (u.recTrap is { cause := .indexRange })) ∧
        ((∃ p ∈ idx, p.2 ≠ none) → is.xw.toNat < t.cols → t.skip = false →
          (∀ p ∈ idx, ∀ row, p.2 = some row → row < 0 ∨ (t.rows : Int) ≤ row) →
          exec (.gath f) s = .next (u.recTrap is { cause := .indexRange }))))

/-- R148, R273, R274: FENCE and XFENCE fire once the slot's writes are acknowledged and, at DEVICE and SYSTEM scope, its
operations done; a SYSTEM fence asks the gateways to drain and fires once each has answered.  They follow their L1 rules
and leave a fence mark for commit, which says whether the fence invalidates the L1.  Where the spec is silent it states the model's choice (log 29; that the
wait counts the stores to the own scratchpad beside UCNT, log 116). -/
def Obligations.FencesFire : Prop :=
  (∀ (s : State) c k, s.quiet c k = true ↔ (s.slot c k).ucnt = 0 ∧ (s.slot c k).ocnt = 0) ∧
  ∀ f s is,
    let quiet := s.quiet is.c is.k = true
    let ops := s.opsDone is.c is.k = true
    let inval := s.modCore is.c (·.l1Invalidate is.ctx)
    let drop := fun (u : State) => u.modSlot is.c is.k fun x => { x with drain := none }
    (Fires (.fence f) s is → quiet → f.sub.toNat ≤ 1 → exec (.fence f) s = .next ((drop s).fireDue is (.fence false false))) ∧
    (Fires (.fence f) s is → quiet → 2 ≤ f.sub.toNat → f.sub.toNat ≤ 3 →
      exec (.fence f) s = .next ((drop inval).fireDue is (.fence false true))) ∧
    (Fires (.fence f) s is → quiet → ops → f.sub.toNat = 4 → exec (.fence f) s = .next ((drop inval).fireDue is (.fence false true))) ∧
    (Fires (.fence f) s is → quiet → ops → f.sub.toNat = 5 → ∀ d,
      (s.slot is.c is.k).drain = some d ∨ ((s.slot is.c is.k).drain = none ∧ d = s.gws.map fun g => (g.1, g.2.biDone + g.2.biq.length)) →
      ((∀ p ∈ d, p.2 ≤ (s.gw p.1).biDone) → exec (.fence f) s = .next ((drop inval).fireDue is (.fence true true))) ∧
      ((∃ p ∈ d, (s.gw p.1).biDone < p.2) → (s.slot is.c is.k).drain = none →
        exec (.fence f) s = .next (s.modSlot is.c is.k fun x => { x with drain := some d })) ∧
      ((∃ p ∈ d, (s.gw p.1).biDone < p.2) → (s.slot is.c is.k).drain = some d → exec (.fence f) s = .next s)) ∧
    (Fires (.fence f) s is → ¬ quiet ∨ (4 ≤ f.sub.toNat ∧ ¬ ops) → exec (.fence f) s = .next s) ∧
    (Fires (.xfence f) s is → quiet → f.sub.toNat / 8 ≠ f.sub.toNat % 8 → f.sub.toNat % 8 ≠ 0 → f.sub.toNat % 8 ≠ 3 →
      exec (.xfence f) s = .next (s.fireDue is (.fence false false))) ∧
    (Fires (.xfence f) s is → quiet → f.sub.toNat / 8 ≠ f.sub.toNat % 8 → f.sub.toNat % 8 = 0 →
      exec (.xfence f) s = .next (inval.fireDue is (.fence false true))) ∧
    (Fires (.xfence f) s is → quiet → f.sub.toNat / 8 ≠ 3 → f.sub.toNat % 8 = 3 →
      exec (.xfence f) s = .next ((s.modThread is.c is.k (refetchPorts is.fl)).fireDue is (.fence false false))) ∧
    (Fires (.xfence f) s is → quiet → ops → f.sub.toNat / 8 = f.sub.toNat % 8 → f.sub.toNat % 8 ≠ 3 →
      exec (.xfence f) s = .next (inval.fireDue is (.fence false true))) ∧
    (Fires (.xfence f) s is → quiet → ops → f.sub.toNat / 8 = 3 → f.sub.toNat % 8 = 3 →
      exec (.xfence f) s = .next ((inval.modThread is.c is.k (refetchPorts is.fl)).fireDue is (.fence false true))) ∧
    (Fires (.xfence f) s is → ¬ quiet ∨ (f.sub.toNat / 8 = f.sub.toNat % 8 ∧ ¬ ops) → exec (.xfence f) s = .next s)

/-- R43, R276, R278, R279: WATCH and UNWATCH name an 8-byte word of the issuing core's own scratchpad, STW one of any
scratchpad; PROTB names granules of a block; their effect is due at commit, and what they may not name raises watch-
target, stw-target, bad-depth, bad-control-value or privilege.  Where the spec is silent it states the model's choice
(log 31). -/
def Obligations.WatchesWakesAndGuards : Prop :=
  (∀ f s is,
    let a := is.lw.toNat
    (∀ i act, (i = .watch f ∧ act = Act.watch) ∨ (i = .unwatch f ∧ act = Act.unwatch) → Fires i s is →
      (a % 8 ≠ 0 → exec i s = .next (s.blockFault is .watchTarget (coverWord a 8))) ∧
      (a % 8 = 0 → ∀ t o n pa kid, s.checkBytes is.xer is.ctx is.priv a 8 true false = (t, .ok [⟨o, n, .mem pa kid⟩]) →
        (t.homeOf pa = .scratch is.c → exec i s = .next (t.fireDue is (act ((pa - scratchBase is.c) / 8)))) ∧
        (t.homeOf pa ≠ .scratch is.c → exec i s = .next (t.blockFault is .watchTarget (coverWord a 8))))) ∧
    (Fires (.stw f) s is → polOk is.policy false true false = true →
      (a % 8 ≠ 0 → exec (.stw f) s = .next (s.blockFault is .stwTarget (coverWord a 8))) ∧
      (a % 8 = 0 → ∀ t o n pa kid, s.checkBytes is.xer is.ctx is.priv a 8 false true = (t, .ok [⟨o, n, .mem pa kid⟩]) →
        (∀ c fl, t.homeOf pa = .scratch c →
          is.fl.touchAll [{ lsn := is.lsnN, kind := .store, va := a, bytes := scalarBytes 8 is.rw_, wr := true }] = some fl →
          exec (.stw f) s = .next (t.settle is.c is.k (some { fl.fired is.pos with
            due := fl.due ++ [⟨is.lsn, is.pos, .stw ⟨a, pa, kid, scalarBytes 8 is.rw_⟩ is.pol (coverWord a 8)⟩] }))) ∧
        ((∀ c, t.homeOf pa ≠ .scratch c) → exec (.stw f) s = .next (t.blockFault is .stwTarget (coverWord a 8)))))) ∧
  (∀ f s is, Fires (.protb f) s is →
    let d := depthOf f
    let ctl := is.rw_
    let bad := ctl.extractLsb' 3 61 ≠ 0 ∨ ctl.extractLsb' 0 2 = 3
    let trap := fun c => s.recTrap is (blockTrap c is.lw is.xw d)
    (d < 4 → exec (.protb f) s = .next (trap .nonCanonicalAddress)) ∧
    (30 < d → exec (.protb f) s = .next (trap .badDepth)) ∧
    (4 ≤ d → d ≤ 30 → ∀ c, byteBlock is.lw is.xw d = .error c → exec (.protb f) s = .next (trap c)) ∧
    (4 ≤ d → d ≤ 30 → ∀ a, byteBlock is.lw is.xw d = .ok a →
      (bad → exec (.protb f) s = .next (trap .badControlValue)) ∧
      (¬ bad → ctl.getLsbD 2 = true → is.priv = false → exec (.protb f) s = .next (trap .privilege)) ∧
      (¬ bad → ctl.getLsbD 2 = false ∨ is.priv = true → ∀ t grans,
        s.protbPages is a (a + blockSize d) (blockSize d / 16) = (t, .ok grans) →
        exec (.protb f) s = .next (t.fireDue is (.protb grans (ctl.getLsbD 2) (ctl.extractLsb' 0 2))))))

/-! ### Vector instructions -/

/-- R281 to R287: the element-wise instructions.  Element j of the result comes from the elements j of the operands,
rounded with event j; it is valid where they all are and the lane mask is set. -/
def Obligations.VectorElementwise : Prop :=
  ∀ f,
    let no := fun (_ : Nat) => false
    VecAs (.vadd f) (map2 fmtIsFloat addElem) ∧ VecAs (.vsub f) (map2 fmtIsFloat subElem) ∧
    VecAs (.vmul f) (map2 fmtIsFloat mulElem) ∧ VecAs (.vfma f) (map3 fmaElem) ∧ VecAs (.vfms f) (map3 fmsElem) ∧
    VecAs (.vmin f) (map2 fmtIsFloat minElem) ∧ VecAs (.vmax f) (map2 fmtIsFloat maxElem) ∧
    VecAs (.vabs f) (map1 fmtIsFloat absElem) ∧ VecAs (.vneg f) (map1 fmtIsFloat negElem) ∧
    VecAs (.vrcp f) (map1 fmtIsFloat (floatElem rcpElem)) ∧ VecAs (.vrsq f) (map1 fmtIsFloat (floatElem rsqElem)) ∧
    VecAs (.vexp2 f) (map1 fmtIsFloat (floatElem exp2Elem)) ∧ VecAs (.vlog2 f) (map1 fmtIsFloat (floatElem log2Elem)) ∧
    VecAs (.vand f) (map2 no fun _ _ _ a b => a &&& b) ∧ VecAs (.vor f) (map2 no fun _ _ _ a b => a ||| b) ∧
    VecAs (.vxor f) (map2 no fun _ _ _ a b => a ^^^ b) ∧
    VecAs (.vshl f) (map2 no (shiftElem shlBits)) ∧ VecAs (.vshr f) (map2 no (shiftElem shrBits)) ∧
    VecAs (.vsar f) (map2 no (shiftElem sarBits))

/-- R200, R288 to R290: compares, selection, reductions and the dot product. -/
def Obligations.VectorCompareAndReduce : Prop :=
  ∀ f,
    VecAs (.vcmp f) (fun is s c => s.emit is (.sc (elemMask (fmtSize c) ((List.range (64 / fmtSize c)).map fun j =>
      is.qmask.getLsbD (j * fmtSize c) &&
        (match el (fmtSize c) is.l j, el (fmtSize c) is.r j with
         | some a, some b => cmpElem (f.sub.toNat % 8) c a b
         | _, _ => false))))) ∧
    VecAs (.vsel f) (fun is s c => s.emit is (lanes is (fmtSize c) fun j =>
      if is.xw.getLsbD (j * fmtSize c) then el (fmtSize c) is.l j else el (fmtSize c) is.r j)) ∧
    (∀ s is code, Fires (.vredsum f) s is → formatOf is = some code →
      let r := tree (fun k a b => addElem code (is.rmode k) is.sat a b) (Nat.log2 (64 / fmtSize code)) 0
        (maskElems (fmtSize code) is.qmask (elemsOf (fmtSize code) is.l))
      (r = none → exec (.vredsum f) s = .next (s.emit is .null)) ∧
      (∀ v, r = some v → exec (.vredsum f) s =
        .next (s.emitRounded is (fmtIsFloat code) (.sc (elemWord code (canonElem code v)))))) ∧
    (∀ s is code, Fires (.vredmax f) s is → formatOf is = some code →
      let r := tree (fun _ a b => maxElem code .rne false a b) (Nat.log2 (64 / fmtSize code)) 0
        (maskElems (fmtSize code) is.qmask (elemsOf (fmtSize code) is.l))
      (r = none → exec (.vredmax f) s = .next (s.emit is .null)) ∧
      (∀ v, r = some v → exec (.vredmax f) s = .next (s.emitRounded is false (.sc (elemWord code (canonElem code v)))))) ∧
    VecAs (.vdot f) (fun is s c => s.emitRounded is (fmtIsFloat c)
      (.sc (dotWord c (is.rmode 0) is.sat is.xw (dotPairs (fmtSize c) is.qmask is.l is.r))))

/-- R159, R281, R284, R287: the elements of a vector token read back, with their validity; integer sums, differences and
products wrap to the element's width, or clamp under SAT; the shifts take their count modulo the width. -/
def Obligations.VectorElementsAndIntegers : Prop :=
  (∀ (sz : Nat) (es : List (Option Nat)), sz ∈ ([1, 2, 4, 8] : List Nat) → es.length = 64 / sz →
    (∀ v, some v ∈ es → v < 2 ^ (8 * sz)) → elemsOf sz (vecTok sz es) = es) ∧
  (∀ (code : Nat) (md : RMode) (a b c : Nat), 0x28 ≤ code → code ≤ 0x2F → a < 2 ^ intBits code → b < 2 ^ intBits code →
    c < 2 ^ intBits code →
    let n := intBits code
    addElem code md false a b = (a + b) % 2 ^ n ∧
    subElem code md false a b = (a + 2 ^ n - b) % 2 ^ n ∧
    mulElem code md false a b = a * b % 2 ^ n ∧
    fmaElem code md false a b c = (a * b + c) % 2 ^ n ∧
    negElem code md false a = (2 ^ n - a) % 2 ^ n ∧
    (intSigned code = false → addElem code md true a b = min (a + b) (2 ^ n - 1)) ∧
    (intSigned code = false → subElem code md true a b = a - b) ∧
    (intSigned code = true → signed n (addElem code md true a b) =
      max (-2 ^ (n - 1)) (min (signed n a + signed n b) (2 ^ (n - 1) - 1))) ∧
    shiftElem shlBits code md false a b = a * 2 ^ (b % n) % 2 ^ n ∧
    shiftElem shrBits code md false a b = a / 2 ^ (b % n))

/-- R293, R294: the moves of page 4.  Each result element is one element of the operands, chosen by position; nothing is
rounded. -/
def Obligations.VectorMoves : Prop :=
  ∀ f,
    VecAs (.vperm f) (fun is s c => s.emit is (lanes is (fmtSize c) fun j =>
      (el (fmtSize c) is.r j).bind fun k => el (fmtSize c) is.l (k % (64 / fmtSize c)))) ∧
    VecAs (.vbcast f) (fun is s c => s.emit is (lanes is (fmtSize c) fun _ => some (is.lw.toNat % 2 ^ (8 * fmtSize c)))) ∧
    VecAs (.vins f) (fun is s c => s.emit is (lanes is (fmtSize c) fun j =>
      if j = is.xw.toNat % (64 / fmtSize c) then some (is.rw_.toNat % 2 ^ (8 * fmtSize c)) else el (fmtSize c) is.l j)) ∧
    VecAs (.viota f) (fun is s c => s.emit is (lanes is (fmtSize c) fun j => some ((is.lw.toNat + j) % 2 ^ (8 * fmtSize c)))) ∧
    VecAs (.vtrn f) (fun is s c => s.emit is (lanes is (fmtSize c) fun j =>
      el (fmtSize c) is.l (swapDigits (curveDigits (64 / fmtSize c)) j))) ∧
    VecAs (.vqshuf f) (fun is s c =>
      let v := immValue f.imm
      let l := (v.extractLsb' 8 2).toNat
      if curveDigits (64 / fmtSize c) ≤ l then s.trapAt is .badControlValue
      else s.emit is (lanes is (fmtSize c) fun e =>
        el (fmtSize c) is.l (putDigit e l ((v.extractLsb' (2 * (e / 4 ^ l % 4)) 2).toNat)))) ∧
    VecAs (.vext f) (fun is s c =>
      let j := is.xw.toNat % (64 / fmtSize c)
      match el (fmtSize c) is.l j with
      | some v => if is.qmask.getLsbD (j * fmtSize c) then s.emit is (.sc (elemWord c v)) else s.emit is .null
      | none => s.emit is .null)

/-- R291, R292, R295: the conversions.  Element j is converted from the source format to the result format with event
j. -/
def Obligations.VectorConversions : Prop :=
  ∀ f,
    ConvAs (.vcvt f) (fun is s a b => s.emitRounded is (convRounds a b) (vecTok (fmtSize b) (maskElems (fmtSize b) is.qmask
      ((List.range (64 / max (fmtSize a) (fmtSize b))).map fun j =>
        (el (fmtSize a) is.l j).map (convert a b (is.rmode j) is.sat))))) ∧
    ConvAs (.vscale f) (fun is s a b =>
      let n := 64 / max (fmtSize a) (fmtSize b)
      let q := is.xw.toNat % (64 / fmtSize a / n)
      s.emitRounded is true (vecTok (fmtSize b) (maskElems (fmtSize b) is.qmask
        ((List.range n).map fun j => (el (fmtSize a) is.l (q * n + j)).map fun v =>
          (fmtOf b).round (is.rmode j) is.sat
            (match scaleVal (is.rw_.toNat / 2 ^ (8 * ((q * n + j) / 32)) % 256) with
             | none => .nan
             | some k => (decodeElem a v).mul k))))) ∧
    ConvAs (.vpack f) (fun is s a b =>
      let n := 64 / fmtSize a
      let q := is.xw.toNat % (fmtSize a / fmtSize b)
      s.emitRounded is (convRounds a b) (vecTok (fmtSize b) (maskElems (fmtSize b) is.qmask
        ((List.range (64 / fmtSize b)).map fun j =>
          if q * n ≤ j ∧ j < q * n + n
          then (el (fmtSize a) is.l (j - q * n)).map (convert a b (is.rmode (j - q * n)) is.sat)
          else el (fmtSize b) is.r j)))) ∧
    ConvAs (.vunpack f) (fun is s a b =>
      let n := 64 / fmtSize b
      let q := is.xw.toNat % (fmtSize b / fmtSize a)
      s.emitRounded is (convRounds a b) (vecTok (fmtSize b) (maskElems (fmtSize b) is.qmask
        ((List.range n).map fun j => (el (fmtSize a) is.l (q * n + j)).map (convert a b (is.rmode j) false)))))

/-! ### Matrix instructions -/

/-- R305, R307 to R309: RKALLOC delivers a handle (serial and entry) and holds banks for a new empty rick, or delivers
the status of what is short: quota 1, banks 2, entries 3; a count outside 1 to 8 raises bad-control-value; the entry is
taken at commit, and a revoked rick of it that is still in use is kept apart.  In the
instructions that name a rick an unknown handle raises bad-rick, a revoked one rick-revoked; RKQRY never traps.  Where
the spec is silent it states the model's choice (log 73). -/
def Obligations.Ricks : Prop :=
  (∀ f s is, Fires (.rkalloc f) s is →
    let n := is.lw.toNat
    let cp := is.c / 8
    let u := s.sweepRicks cp
    let v := u.makeRoom cp n 8
    let x := v.copse cp
    (n = 0 ∨ 8 < n → exec (.rkalloc f) s = .next (s.trapAt is .badControlValue)) ∧
    (1 ≤ n → n ≤ 8 → (u.ctx is.ctx).rkquota.toNat % 16 < (u.copse cp).heldBy is.ctx + n →
      exec (.rkalloc f) s = .next (u.emit is (.sc 0x8000000000000001))) ∧
    (1 ≤ n → n ≤ 8 → (u.copse cp).heldBy is.ctx + n ≤ (u.ctx is.ctx).rkquota.toNat % 16 →
      (x.openBanks.length < n → exec (.rkalloc f) s = .next (v.emit is (.sc 0x8000000000000002))) ∧
      (n ≤ x.openBanks.length → x.openEntry = none → exec (.rkalloc f) s = .next (v.emit is (.sc 0x8000000000000003))) ∧
      (n ≤ x.openBanks.length → ∀ e, x.openEntry = some e → ∃ y : Copse,
        exec (.rkalloc f) s = .next ((v.setCopse cp y).emitDue is (.sc (BitVec.ofNat 64 (8 * x.serial + e))) (.rkalloc e)) ∧
        y.serial = (if x.serial = 8191 then 1 else x.serial + 1) ∧
        y.rsv.get? e = some { handle := x.serial * 8 + e, ctx := is.ctx, state := .empty, nbanks := n,
                              banks := x.openBanks.take n, used := v.now } ∧
        ∀ e', y.rick e' = x.rick e'))) ∧
  (∀ (x : Copse) e r, e < 8 → x.rsv.get? e = some r →
    (x.bindRick e).rick e = { r with bound := true } ∧
    ((x.rsv.map Prod.fst).Pairwise (· < ·) → (x.bindRick e).rsv.get? e = none) ∧
    ((x.rick e).bound = true → (x.rick e).banks ≠ [] → x.rick e ∈ (x.bindRick e).gone) ∧
    ∀ e', e' ≠ e → (x.bindRick e).rick e' = x.rick e') ∧
  (∀ f s is,
    (∀ i act, (i = .rkpin f ∧ act = fun h => Act.rkpin h true) ∨ (i = .rkunpin f ∧ act = fun h => Act.rkpin h false) ∨
        (i = .rkrev f ∧ act = Act.rkrev) → Fires i s is →
      ((s.copse (is.c / 8)).rick? is.ctx is.lw = none → exec i s = .next (s.trapAt is .badRick)) ∧
      (∀ e r, (s.copse (is.c / 8)).rick? is.ctx is.lw = some (e, r) →
        (r.state = .revoked → exec i s = .next (s.trapAt is .rickRevoked)) ∧
        (r.state ≠ .revoked → exec i s = .next (s.fireDue is (act r.handle))))) ∧
    (Fires (.rkqry f) s is → exec (.rkqry f) s =
      .next ((s.sweepRicks (is.c / 8)).emit is
        (.sc (rickWord (((s.sweepRicks (is.c / 8)).copse (is.c / 8)).rick? is.ctx is.lw))))) ∧
    (Fires (.rkfill f) s is → rkfillWaits is s = true → exec (.rkfill f) s = .next s) ∧
    (Fires (.rkfill f) s is → rkfillWaits is s = false → ∀ e r t bs d, s.needRick is = .ok (e, r) →
      s.readVa is.xer is.agent is.ctx is.priv is.rw_.toNat 32 (coverWord is.rw_.toNat 32) = (t, .ok bs) →
      is.rw_.toNat % 32 = 0 → tensorOf (wordsFrom 4 bs) = some d →
      (∀ c, fillCheck d (depthOf f) is.xw.toNat r.nbanks = some c → exec (.rkfill f) s = .next (t.trapAt is c)) ∧
      (fillCheck d (depthOf f) is.xw.toNat r.nbanks = none → exec (.rkfill f) s =
        .next ((t.modFlight is.c is.k fun fl => { fl with uses := fl.uses ++ [r.handle] }).fireDue is
          (.command (.fill r.handle (wordsFrom 4 bs) is.xw.toNat (depthOf f) is.priv))))))

/-- R310: MMA and MMAZ queue a command on a legal ring, bank, rick and format; a rick that is stale or evicted starts a
refill that the sheaf waits for, or traps under RFX = 1.  Where the spec is silent it states the model's choice (logs 74
and 75). -/
def Obligations.MultiplyCommands : Prop :=
  ∀ f s is i zero, (i = .mma f ∧ zero = false) ∨ (i = .mmaz f ∧ zero = true) → Fires i s is →
    (∀ c, mmaCheck is s = .error c → exec i s = .next (s.trapAt is c)) ∧
    (∀ e r w, mmaCheck is s = .ok (e, r, w) →
      let cmd := Act.command (.mma zero (f.sub.toNat % 2) (is.rw_.toNat / 8 % 4) (is.rw_.toNat % 8) r.handle w)
      let used := fun (s : State) (l : List (Nat × Nat)) => s.modFlight is.c is.k fun fl =>
        { fl with uses := fl.uses ++ [r.handle], refill := fl.refill ++ l }
      (r.state ≠ .stale → r.state ≠ .evicted → r.refilling = false → exec i s = .next ((used s []).fireDue is cmd)) ∧
      (r.state ≠ .stale → r.state ≠ .evicted → r.refilling = true →
        exec i s = .next ((used s [(is.pos, r.handle)]).fireDue is cmd)) ∧
      (r.state = .stale ∨ r.state = .evicted → (s.core is.c).mxcfg.getLsbD 8 = false →
        exec i s = .next ((used (s.modCopse (is.c / 8) fun x => x.modRick e fun r =>
          { r with state := .filling, refilling := true, marked := false, before := r.state })
            [(is.pos, r.handle)]).fireDue is cmd)) ∧
      (r.state = .stale → (s.core is.c).mxcfg.getLsbD 8 = true → exec i s = .next (s.trapAt is .staleRick)) ∧
      (r.state = .evicted → (s.core is.c).mxcfg.getLsbD 8 = true → exec i s = .next (s.trapAt is .evictedRick)))

/-- R301, R303, R312 to R314: MDRAIN, the ring, the counters, the threshold and the weight; their effect is due at
commit.  Where the spec is silent it states the model's choice (log 75). -/
def Obligations.DrainsRingsAndCounters : Prop :=
  ∀ f s is,
    (Fires (.mdrain f) s is → ∀ c q rest code, f.fmts = (c, q) :: rest → is.th.resolve .drain c.toNat = some code →
      is.rw_.toNat < 64 → is.lw.toNat % (2048 * fmtSize code) = 0 → is.lw.toNat + 2048 * fmtSize code ≤ 2 ^ 56 →
      exec (.mdrain f) s = .next (s.fireDue is (.command (.drain (f.sub.toNat % 2) (f.sub.getLsbD 5) code is.lw.toNat
        is.rw_.toNat (is.th.regs.rnd.extractLsb' 0 3)
        (lfsrAdv (64 * is.pos + 1) (is.th.regs.rnd.extractLsb' 32 32)) is.priv)))) ∧
    (Fires (.mdrain f) s is → 64 ≤ is.rw_.toNat → exec (.mdrain f) s = .next (s.trapAt is .badControlValue)) ∧
    (Fires (.mring f) s is → ringCfg is.th is.lw is.rw_ = none → exec (.mring f) s = .next (s.trapAt is .badControlValue)) ∧
    (Fires (.mring f) s is → ∀ code, ringCfg is.th is.lw is.rw_ = some code →
      exec (.mring f) s = .next (s.fireDue is (.mring is.lw (setField is.rw_ 8 6 code)))) ∧
    (Fires (.mtail f) s is → is.lw.toNat < 4 → is.rw_.toNat ≤ 32 → exec (.mtail f) s =
      .next (s.emitDue is (.sc (ringWord ((s.core is.c).ring is.lw.toNat))) (.mtail is.lw.toNat is.rw_.toNat))) ∧
    (Fires (.mcnt f) s is → is.lw.toNat < 8 →
      exec (.mcnt f) s = .next (s.emitDue is (.sc (s.core is.c).mxcnt) (.mcnt is.lw.toNat))) ∧
    (Fires (.mthr f) s is → is.lw.toNat < 2 ^ 48 → exec (.mthr f) s = .next (s.fireDue is (.mthr is.lw))) ∧
    (Fires (.mwgt f) s is → 1 ≤ is.lw.toNat → is.lw.toNat ≤ 15 → exec (.mwgt f) s = .next (s.fireDue is (.mwgt is.lw)))

/-! ### Drover, copies, runnels, tags and messages -/

/-- R98, R319, R320, R336 to R338: MBXW claims an empty mailbox, MBXR reads a full one; each slot names its own two
boxes and the drover those of the others, and any other selector raises bad-control-value.  SEND and SEND.ord send
through a stile at commit; WAITMSG waits for an entry and counts them; MSGPOP claims and delivers the first entry of a
channel that is not open.  Where the spec is silent it states the model's choice (logs 57 and 67). -/
def Obligations.MailboxesAndMessages : Prop :=
  (∀ f s is,
    (Fires (.mbxw f) s is → mbxwOk is = true → (s.box is.c (selSlot is.lw) (selBox is.lw)).mayWrite = true →
      exec (.mbxw f) s = .next ((s.modBox is.c (selSlot is.lw) (selBox is.lw) fun m => { m with claim := some is.k }).fireDue is
        (.mbxw (selSlot is.lw) (selBox is.lw) is.r.bytes))) ∧
    (Fires (.mbxw f) s is → mbxwOk is = false → exec (.mbxw f) s = .next (s.trapAt is .badControlValue)) ∧
    (Fires (.mbxr f) s is → mbxrOk is = true → ∀ k, mbxrSource is s = some k →
      let b := if selAny is.lw then 0 else selBox is.lw
      exec (.mbxr f) s = .next ((((s.modBox is.c k b fun m => { m with claim := some is.k }).modFlight is.c is.k fun fl =>
        { fl with due := fl.due ++ [⟨is.lsn, is.pos, .mbxr k b (selAny is.lw)⟩] })).emit2 is
          (.ve (s.box is.c k b).data 0xFFFFFFFFFFFFFFFF) (.sc (BitVec.ofNat 64 k)))) ∧
    (Fires (.mbxr f) s is → mbxrOk is = false → exec (.mbxr f) s = .next (s.trapAt is .badControlValue)) ∧
    (is.burr = true → mbxwOk is = false ∧ mbxrOk is = false)) ∧
  (∀ f s is,
    (∀ i ord, (i = .send f ∧ ord = false) ∨ (i = .sendOrd f ∧ ord = true) → Fires i s is →
      (64 ≤ is.lw.toNat → exec i s = .next (s.trapAt is .badControlValue)) ∧
      (is.lw.toNat < 64 → ∀ c, sendChan is ((s.core is.c).stile.get is.lw.toNat 0) = .error c →
        exec i s = .next (s.trapAt is c)) ∧
      (is.lw.toNat < 64 → ∀ ch, sendChan is ((s.core is.c).stile.get is.lw.toNat 0) = .ok ch →
        exec i s = .next (s.fireDue is (.send ((s.core is.c).stile.get is.lw.toNat 0) ch is.r.bytes ord)))) ∧
    (Fires (.waitmsg f) s is → 64 ≤ is.lw.toNat → exec (.waitmsg f) s = .next (s.trapAt is .badControlValue)) ∧
    (Fires (.waitmsg f) s is → is.lw.toNat < 64 → (s.core is.c).entriesOf is.lw.toNat = [] →
      exec (.waitmsg f) s = .next s) ∧
    (Fires (.waitmsg f) s is → is.lw.toNat < 64 → (s.core is.c).entriesOf is.lw.toNat ≠ [] → exec (.waitmsg f) s =
      .next (s.emit is (.sc (BitVec.ofNat 64 ((s.core is.c).entriesOf is.lw.toNat).length)))) ∧
    (Fires (.msgpop f) s is → 64 ≤ is.lw.toNat ∨ (s.core is.c).chanOpen is.lw.toNat = true →
      exec (.msgpop f) s = .next (s.trapAt is .badControlValue)) ∧
    (Fires (.msgpop f) s is → is.lw.toNat < 64 → (s.core is.c).chanOpen is.lw.toNat = false → ∀ e rest,
      (s.core is.c).entriesOf is.lw.toNat = e :: rest → ∃ k : Core,
        exec (.msgpop f) s = .next ((s.setCore is.c k).emitDue is (.ve (popData e) 0xFFFFFFFFFFFFFFFF) .msgpop) ∧
        k.entriesOf is.lw.toNat = rest))

/-- R324, R328, R332 to R334: COPY starts at commit, and only in the drover's slot; the waits answer the tags of their
plane that are set or in error, TAGCLR the mask's busy tags.  A bound runnel port raises runnel-busy; a fill or drain
takes the pattern record it reads, a neighbour port a stile of kind 0 and a link below 64, a ring port an enabled ring.
Where the spec is silent it states the model's choice (logs 47, 48 and 55). -/
def Obligations.CopiesTagsAndRunnels : Prop :=
  (∀ f s is,
    let plane := if f.sub.getLsbD 0 then (s.core is.c).ctagl else (s.core is.c).ctagf
    let sat := is.lw &&& (plane ||| (s.core is.c).ctage)
    let acq := fun (seen : Word) => f.sub.getLsbD 0 = true ∧ seen &&& (s.core is.c).ctagl &&& (s.core is.c).acqTags ≠ 0
    let quiet := s.quiet is.c is.k = true
    let inval := s.modCore is.c (·.l1Invalidate is.ctx)
    (Fires (.copy f) s is → is.k ≠ 7 → exec (.copy f) s = .next (s.trapAt is .droverOnly)) ∧
    (Fires (.copy f) s is → is.k = 7 → copyWaits is s = true → exec (.copy f) s = .next s) ∧
    (Fires (.copy f) s is → is.k = 7 → copyWaits is s = false → ∀ t d, s.copyCheck is.c is.ctx is.priv is.lw is.rw_ = (t, .ok d) →
      exec (.copy f) s = .next (t.fireDue is (.copy (is.rw_.toNat % 64) d))) ∧
    (Fires (.copy f) s is → is.k = 7 → copyWaits is s = false → ∀ t r, s.copyCheck is.c is.ctx is.priv is.lw is.rw_ = (t, .error r) →
      exec (.copy f) s = .next (t.recTrap is r)) ∧
    (Fires (.waitany f) s is → sat ≠ 0 → ¬ acq sat → exec (.waitany f) s = .next (s.emit is (.sc sat))) ∧
    (Fires (.waitany f) s is → sat ≠ 0 → acq sat → quiet → exec (.waitany f) s = .next (inval.emit is (.sc sat))) ∧
    (Fires (.waitany f) s is → is.lw = 0 → exec (.waitany f) s = .next (s.trapAt is .badControlValue)) ∧
    (Fires (.waitany f) s is → is.lw ≠ 0 → sat = 0 → exec (.waitany f) s = .next s) ∧
    (Fires (.waitall f) s is → sat = is.lw → ¬ acq is.lw → exec (.waitall f) s = .next (s.emit is (.sc is.lw))) ∧
    (Fires (.waitall f) s is → sat = is.lw → acq is.lw → quiet → exec (.waitall f) s = .next (inval.emit is (.sc is.lw))) ∧
    (Fires (.waitall f) s is → sat ≠ is.lw → exec (.waitall f) s = .next s) ∧
    (Fires (.ffr f) s is → sat ≠ 0 → f.sub.getLsbD 0 = false → ∃ n < 64, sat.getLsbD n = true ∧
      (∀ j, j < n → sat.getLsbD j = false) ∧ exec (.ffr f) s = .next (s.emit is (.sc (BitVec.ofNat 64 n)))) ∧
    (Fires (.tagclr f) s is →
      exec (.tagclr f) s = .next (s.emitDue is (.sc (is.lw &&& (s.core is.c).busy)) (.tagclr is.lw)))) ∧
  (∀ f s is,
    let p := is.portNo
    let free := is.th.ports.get? p = none ∧ is.fl.binds p = false
    (Fires (.rnbind f) s is → ¬ free → rnbindWaits is s = false → exec (.rnbind f) s = .next (s.trapAt is .runnelBusy)) ∧
    (Fires (.rnbind f) s is → rnbindWaits is s = true → exec (.rnbind f) s = .next s) ∧
    (Fires (.rnbind f) s is → free → f.sub.toNat ≤ 1 → rnbindWaits is s = false → ∀ t pat,
      s.readWords is.xer is.agent is.ctx is.priv is.lw.toNat 8 = (t, .ok pat) →
      (patValid is.lw.toNat pat = false → exec (.rnbind f) s = .next (t.trapAt is .badDescriptor)) ∧
      (patValid is.lw.toNat pat = true → canonical (some (patRange pat)) = true →
        exec (.rnbind f) s = .next (t.fireDue is (.rnbind p f.sub.toNat is.lw 0 pat is.priv)))) ∧
    (Fires (.rnbind f) s is → free → f.sub.toNat = 2 →
      (is.lw.toNat < 64 ∧ stileOk ((s.core is.c).stile.get is.lw.toNat 0) [0] 59 = true → is.xw.toNat < 64 →
        exec (.rnbind f) s = .next
          (s.fireDue is (.rnbind p 2 ((s.core is.c).stile.get is.lw.toNat 0) is.xw [is.lw] is.priv))) ∧
      (64 ≤ is.lw.toNat ∨ stileOk ((s.core is.c).stile.get is.lw.toNat 0) [0] 59 = false →
        exec (.rnbind f) s = .next (s.trapAt is .stileFault))) ∧
    (Fires (.rnbind f) s is → free → f.sub.toNat = 3 → is.lw.toNat < 4 → ((s.core is.c).ring is.lw.toNat).en = true →
      exec (.rnbind f) s = .next (s.fireDue is (.rnbind p 3 is.lw 0 [] is.priv))) ∧
    (Fires (.rnunbind f) s is → is.th.port? p = none → exec (.rnunbind f) s = .next (s.trapAt is .runnelUnbound)) ∧
    (Fires (.rnunbind f) s is → ∀ x, is.th.port? p = some x → (x.mode = .drain → x.buf = []) → (x.mode = .nbr → x.unack = 0) →
      exec (.rnunbind f) s = .next (s.fireDue is (.rnunbind p))))

/-! ### Spawning, crofts, neighbours and flocks -/

/-- R173, R355 to R357: SPAWN and SPAWNB check their control word and send a task or a burr at commit; SPAWNB delivers
the new burr's id, of this core and its next serial.  Where the spec is silent it states the model's choice (log 65). -/
def Obligations.Spawning : Prop :=
  ∀ f s is,
    (Fires (.spawn f) s is → spawnCtlOk is.lw false = false → exec (.spawn f) s = .next (s.trapAt is .badControlValue)) ∧
    (Fires (.spawn f) s is → spawnCtlOk is.lw false = true → s.allowedDies (ctlDaff is.lw) = [] →
      exec (.spawn f) s = .next (s.trapAt is .noDie)) ∧
    (Fires (.spawn f) s is → spawnCtlOk is.lw false = true → s.allowedDies (ctlDaff is.lw) ≠ [] →
      exec (.spawn f) s = .next (s.fireDue is (.spawn (spawnPacket is) (ctlMi is.lw)))) ∧
    (Fires (.spawnb f) s is → (s.core is.c).serialHeld = true → exec (.spawnb f) s = .next s) ∧
    (Fires (.spawnb f) s is → (s.core is.c).serialHeld = false →
      spawnCtlOk is.lw true = false ∨ burrChan ((s.core is.c).tchan.get (ctlChan is.lw) 0) = false →
      exec (.spawnb f) s = .next (s.trapAt is .badControlValue)) ∧
    (Fires (.spawnb f) s is → (s.core is.c).serialHeld = false → spawnCtlOk is.lw true = true →
      burrChan ((s.core is.c).tchan.get (ctlChan is.lw) 0) = true →
      let bid := bidOf is.c (s.core is.c).serial
      exec (.spawnb f) s = .next
        ((((s.setCore is.c (s.core is.c).takeSerial).modFlight is.c is.k fun fl =>
            { fl with looks := fl.looks ++ [(is.pos, 1, is.xw)] }).due
          (.ownerLookup { core := is.c, slot := is.k, run := is.fl.run, lsn := is.pos } is.xw)).emitDue is
            (.sc (bid.setWidth 64)) (.spawnb (spawnBurr is bid) noOwner (ctlMi is.lw))))

/-- R341, R344, R346, R351, R352, R354: KSET packs a row and a column, KGET gives the path of a coordinate, CMAP the
owner of a path, NBR and NBRN the burrs near a coordinate; the map updates fire once their checks pass, with the
reservation of the root granule.  Where the spec is silent it states the model's choice (logs 59 and 61). -/
def Obligations.CoordinatesAndMapUpdates : Prop :=
  (∀ f,
    Delivers (.kset f) (fun is => ofZ (is.lw.toNat % 2 ^ 32 * 2 ^ 32 + is.rw_.toNat % 2 ^ 32)) ∧
    (∀ s is, Fires (.kget f) s is → ∃ w : Word, exec (.kget f) s = .next (s.emit is (.sc w)) ∧
      ∀ b, b < 32 → w.getLsbD (2 * b + 1) = is.lw.getLsbD (32 + b) ∧ w.getLsbD (2 * b) = is.lw.getLsbD b) ∧
    (∀ s is t o v, Fires (.cmap f) s is → s.lookup is.c is.ctx is.lw false = (t, o, some v) →
      exec (.cmap f) s = .next (t.emit is (.sc (cmapWord o v)))) ∧
    (∀ s is t o, Fires (.cmap f) s is → s.lookup is.c is.ctx is.lw false = (t, o, none) →
      exec (.cmap f) s = .next (({ t with fresh := t.fresh + 1 } : State).emit is
        (.sc (cmapWord o ((Config.freeWord t.fresh).toNat % 2 ^ 32))))) ∧
    (∀ s is es lost, Fires (.nbr f) s is → neighbours is s is.rw_.toNat = .ok (es, lost) →
      exec (.nbr f) s = .next ((s.fixTable is).emit is (nbrTok ((es.drop is.rw_.toNat).take 4)))) ∧
    (∀ s is es lost, Fires (.nbrn f) s is → neighbours is s 0 = .ok (es, lost) →
      exec (.nbrn f) s = .next ((s.fixTable is).emit is (.sc (nbrnWord es.length lost)))) ∧
    (∀ s is c, Fires (.nbr f) s is → neighbours is s is.rw_.toNat = .error c → exec (.nbr f) s = .next (s.trapAt is c))) ∧
  (∀ f,
    UpdatesMapAs (.csplit f) 0 (fun _ _ => False) ∧ UpdatesMapAs (.cmerge f) 1 (fun _ _ => False) ∧
    UpdatesMapAs (.chand f) 2 (fun is s => 2047 < is.rw_.toNat ∨ (s.core is.rw_.toNat).ctx ≠ some is.ctx) ∧
    UpdatesMapAs (.hedge f) 3 (fun is _ => 65536 < is.lw.toNat))

/-- R360 to R365: flocks, channels and rounding state.  Their effect is due at commit; operands out of range raise bad-
control-value, FBAR outside the thread's flocks flock-member.  Where the spec is silent it states the model's choice
(logs 65 and 66). -/
def Obligations.FlocksChannelsRounding : Prop :=
  ∀ f s is,
    (∀ i act, (i = .fjoin f ∧ act = Act.fjoin) ∨ (i = .fleave f ∧ act = Act.fleave) → Fires i s is →
      (1 ≤ is.lw.toNat → is.lw.toNat ≤ 255 → exec i s = .next (s.fireDue is (act is.lw.toNat))) ∧
      (is.lw.toNat = 0 ∨ 255 < is.lw.toNat → exec i s = .next (s.trapAt is .badControlValue))) ∧
    (Fires (.fbar f) s is → is.lw.toNat ∈ flocksOf is.th.memb → exec (.fbar f) s = .next (s.fireDue is (.fbar is.lw.toNat))) ∧
    (Fires (.fbar f) s is → is.lw.toNat ∉ flocksOf is.th.memb → exec (.fbar f) s = .next (s.trapAt is .flockMember)) ∧
    (∀ i blk, (i = .tblk f ∧ blk = true) ∨ (i = .tubl f ∧ blk = false) → Fires i s is →
      (∀ c ch own, chanTarget is s = .ok (c, ch, own) → exec i s = .next (s.fireDue is (.chan c ch own blk))) ∧
      (∀ c, chanTarget is s = .error c → exec i s = .next (s.trapAt is c))) ∧
    (Fires (.tset f) s is → is.lw.toNat < 64 → is.rw_.extractLsb' 17 41 = 0 → is.rw_.extractLsb' 0 4 = 0 →
      exec (.tset f) s = .next (s.fireDue is (.tset is.lw.toNat is.rw_))) ∧
    (Fires (.tset f) s is → 64 ≤ is.lw.toNat → exec (.tset f) s = .next (s.trapAt is .badControlValue)) ∧
    (Fires (.setrnd f) s is → 7 ≤ is.lw.toNat → exec (.setrnd f) s = .next (s.trapAt is .badControlValue)) ∧
    (Fires (.setrnd f) s is → is.lw.toNat < 7 → (∀ e ∈ is.fl.regw, e.1 ≠ Reg.rnd) → exec (.setrnd f) s =
      .next ((s.modFlight is.c is.k fun fl => { fl with
        regw := fl.regw ++ [(.rnd, .null)],
        rndMode := some (is.lw.extractLsb' 0 3, if is.fed 1 then some (is.rw_.extractLsb' 0 32) else none) }).fire is))

/-! ### System instructions -/

/-- R374: CTLGET delivers a control register and CTLSET writes one at commit.  A selector with reserved bits, an unknown
register or an index beyond its range raises bad-control-value; the privileged ones raise privilege in a sheaf that is
not; TCAUSE of bank 0 clears ACT at commit. -/
def Obligations.ControlRegisters : Prop :=
  ∀ f s is,
    let reg := is.lw.toNat / 2 ^ 8 % 2 ^ 8
    let i := is.lw.toNat % 2 ^ 8
    let shape := is.lw.toNat < 2 ^ 16 ∧ i < ctlIndexes reg
    (Fires (.ctlget f) s is → s.ctlValue is.c is.k reg i = none ∨ ¬ shape →
      exec (.ctlget f) s = .next (s.trapAt is .badControlValue)) ∧
    (Fires (.ctlget f) s is → ∀ v, s.ctlValue is.c is.k reg i = some v → shape →
      (ctlReadPriv reg = true → is.priv = false → exec (.ctlget f) s = .next (s.trapAt is .privilege)) ∧
      (ctlReadPriv reg = false ∨ is.priv = true → ¬ (reg = 1 ∧ i = 0) → exec (.ctlget f) s = .next (s.emit is (.sc v))) ∧
      (ctlReadPriv reg = false ∨ is.priv = true → reg = 1 ∧ i = 0 → exec (.ctlget f) s =
        .next ((s.modFlight is.c is.k fun fl => { fl with tcause := true }).emit is (.sc v)))) ∧
    (Fires (.ctlset f) s is → ¬ shape ∨ ctlKnown reg = false → exec (.ctlset f) s = .next (s.trapAt is .badControlValue)) ∧
    (Fires (.ctlset f) s is → shape → ctlKnown reg = true →
      ctlWritable reg = false ∨ (ctlWritePriv reg = true ∧ is.priv = false) →
      exec (.ctlset f) s = .next (s.trapAt is .privilege)) ∧
    (Fires (.ctlset f) s is → shape → ctlKnown reg = true → ctlWritable reg = true →
      ctlWritePriv reg = false ∨ is.priv = true →
      (∀ c, s.ctlBad reg is.rw_ = some c → exec (.ctlset f) s = .next (s.trapAt is c)) ∧
      (s.ctlBad reg is.rw_ = none → exec (.ctlset f) s = .next (s.fireDue is (.ctlset reg i is.rw_))))

/-- R376, R421, R422: PREEMPT, SAVEC and LOADC.  SAVEC delivers the image's length, LOADC a status; the transfer follows
commit.  Where the spec is silent it states the model's choice (logs 15, 83 and 84). -/
def Obligations.PreemptionAndImages : Prop :=
  ∀ f s is,
    (Fires (.preempt f) s is → is.lw.toNat < 2 ^ 20 → preAct is.lw ≠ 3 → exec (.preempt f) s =
      .next (s.fireDue is (.preempt is.lw))) ∧
    (Fires (.preempt f) s is → 2 ^ 20 ≤ is.lw.toNat ∨ preAct is.lw = 3 →
      exec (.preempt f) s = .next (s.trapAt is .badControlValue)) ∧
    (Fires (.savec f) s is → is.lw.toNat % 64 = 0 → is.rw_.toNat < 2 ^ 18 → windowOk is.rw_ is.xw = true → ∀ e t ps,
      s.savEntry is.ctx is.rw_ = some e → (s.ctx is.ctx).saveStops (savNew is.rw_) = false →
      let lost := s.windowLost (savCore is.rw_) (savWindow is.rw_ is.xw)
      (e.th.bad ≠ [] ∨ lost = true → exec (.savec f) s = .next (s.trapAt is .uncorrectableData)) ∧ (e.th.bad = [] → lost = false →
      let v := s.fixWindow (savCore is.rw_) (savWindow is.rw_ is.xw)
      let recs := v.records (savCore is.rw_) (savEnt is.rw_) e (savWindow is.rw_ is.xw) (savRick is.rw_)
      let n := 64 + recs.length + 16
      v.checkBytes is.xer is.ctx is.priv is.lw.toNat n false true = (t, .ok ps) →
      exec (.savec f) s = .next (t.emitDue is (.sc (BitVec.ofNat 64 n)) (.savec is.lw.toNat is.rw_ is.xw e.kind recs
        (storePieces is.lw.toNat (List.replicate n (some 0)) (joinParts ps)))))) ∧
    (Fires (.savec f) s is → is.lw.toNat % 64 ≠ 0 ∨ 2 ^ 18 ≤ is.rw_.toNat →
      exec (.savec f) s = .next (s.trapAt is .badControlValue)) ∧
    (Fires (.loadc f) s is → is.rw_.toNat < 2 ^ 17 → is.lw.toNat % 64 = 0 → s.hosts (lodCore is.rw_) is.ctx = true →
      ∀ t image st kind index recs, s.readImage is is.lw.toNat = (t, .ok image) →
      t.loadcCheck is is.rw_ image = (st, kind, index, recs) →
      (st ≠ 0 → exec (.loadc f) s = .next (t.emit is (.sc (BitVec.ofNat 64 st)))) ∧
      (st = 0 → exec (.loadc f) s = .next ((t.modCtx is.ctx fun x =>
        { x with claims := x.claims ++ [(index, is.c, is.k)] }).emitDue is (.sc 0)
          (.loadc is.rw_ index kind (t.ctx is.ctx).savecnt recs)))) ∧
    (Fires (.loadc f) s is → 2 ^ 17 ≤ is.rw_.toNat ∨ is.lw.toNat % 64 ≠ 0 ∨ s.hosts (lodCore is.rw_) is.ctx = false →
      exec (.loadc f) s = .next (s.trapAt is .badControlValue))

/-! ### Sheaf boundaries and traps -/

/-- R73, R158, R211, R217, R218: a fetch reads up to 656 bytes of the instruction store at N, corrects the single-bit errors
of its words without changing a byte, and puts the sheaf they decode to in flight, its nodes empty, under the slot's next
run number; N outside the store raises sheaf-address; an uncorrectable word of the sheaf raises uncorrectable-data; a
decode failure traps with its cause, its DCODE and the address of its syllable.  Where the spec is silent it states the
model's choice (logs 10, 22 and 30). -/
def Obligations.FetchDecodesTheSheaf : Prop :=
  ∀ (s : State) (c k : Nat), s.event = some (.sheafFetch c k) → s.taken.mayFetch c k = true →
    (s.slot c k).th.moveTo = none → k ≠ 7 ∨ (s.core c).drvExp = true →
    let u := s.taken
    let x := u.slot c k
    let n := x.th.regs.n.toNat
    let bytes := u.codeAt c n
    let size := sheafSize bytes
    let v := u.fixCode c n size
    let decoded := decodeSheaf (x.th.kind == .burr) (u.ctx x.th.ctx).priv (BitVec.ofNat 128 (ofBytes (bytes.take 16)))
      ((sylsOf (bytes.drop 16)).take 320)
    (n % 16 ≠ 0 ∨ 2 ^ 17 ≤ n → exec .sheafFetch s = .next (u.fault c k .sheafAddress)) ∧
    (n % 16 = 0 → n < 2 ^ 17 → u.codeBad c n size = true →
      exec .sheafFetch s = .next (v.takeTrap c k { cause := .uncorrectableData })) ∧
    (n % 16 = 0 → n < 2 ^ 17 → v.mem = u.mem) ∧
    (n % 16 = 0 → n < 2 ^ 17 → u.codeBad c n size = false →
      (∀ sh, decoded = .ok sh → exec .sheafFetch s = .next ((v.sheafReads c k sh).modSlot c k fun y =>
        { y with fl := some { sheaf := sh, run := y.runs, nodes := List.replicate sh.insts.length {}, retry := y.retryNext },
                 runs := y.runs + 1, retryNext := false })) ∧
      (∀ e, decoded = .error e → exec .sheafFetch s = .next (v.takeTrap c k
        { cause := if e.dcode.isSome then .illegalEncoding else .privilege, dcode := e.dcode.getD 0,
          addr := some (blockWord 32 (istoreBase c + n + e.off)), blockp := some 0 })))

/-- R160 to R162, R166, R240, R280, R375: a complete sheaf commits in one step, or meets a fault that leaves everything as before
and traps: a value that RND refuses, or the word of a store, STW or RED* that is lost at its home; a sheaf that can come
no further traps with sheaf-stuck.  A rooted thread's sheaf without buffered effects completes: it writes exactly the
registers that received values, takes N from its exit, and changes nothing else but the marks of its own thread; TRET
clears HND.  Where the spec is silent it states the model's choice (logs 16, 64, 86, 89, 93 and 131). -/
def Obligations.SheafCommit : Prop :=
  (∀ (s : State) (c k : Nat) (fl : Flight), s.event = some (.sheafCommit c k) → s.taken.flight c k = some fl →
    (fl.complete = true → fl.withdrawTo = none → s.taken.commitWaits c k fl = false →
      (∀ t, s.taken.commit c k fl = .ok t → exec .sheafCommit s = .next t) ∧
      (∀ r, s.taken.commit c k fl = .error r → exec .sheafCommit s = .next (s.taken.takeTrap c k r)) ∧
      (fl.badRnd = true → exec .sheafCommit s = .next (s.taken.takeTrap c k { cause := .badControlValue })) ∧
      (∀ d r, fl.badRnd = false → fl.acts = [d] →
        ((s.taken.modThread c k fl.newThread).commitK c k fl (s.slot c k).th.regs.k).actFault c k fl d.act = some r →
        exec .sheafCommit s = .next (s.taken.takeTrap c k { r with lsn := d.lsn }))) ∧
    (fl.complete = true → ∀ o, fl.withdrawTo = some o →
      exec .sheafCommit s = .next ((s.taken.discard c k).disposed c k (.migrate o true))) ∧
    (s.taken.stuck c k = true → exec .sheafCommit s = .next (s.taken.fault c k .sheafStuck))) ∧
  (∀ (s : State) (c k : Nat) (fl : Flight) (w : Word), s.event = some (.sheafCommit c k) → s.taken.flight c k = some fl →
    k < 8 → (s.slot c k).th.kind = .rooted → fl.complete = true → fl.follow = [] → s.taken.commitWaits c k fl = false →
    fl.badRnd = false → fl.due = [] → fl.exit_ = some w → fl.dispo = none ∨ fl.dispo = some .tret →
    (fl.regw.map Prod.fst).Nodup →
    ∃ r : Regs, exec .sheafCommit s = .next (s.taken.modSlot c k fun x =>
        { x with fl := none
                 th := { x.th with regs := r, fw := false, moveTo := none, act := x.th.act && !fl.tcause,
                                   hnd := if fl.dispo = some .tret then false else x.th.hnd,
                                   bad := x.th.bad.filter fun w => !(fl.overwrites w),
                                   soft := x.th.soft.filter fun w => !(fl.overwrites w) } }) ∧
      r.n = w ∧ r.f = (s.slot c k).th.regs.f ∧
      (∀ (n : Nat) (h : n < 32) v, (Reg.g n, Tok.sc v) ∈ fl.regw → r.g[n] = v) ∧
      (∀ (n : Nat) (h : n < 32), (∀ e ∈ fl.regw, e.1 = .g n → e.2 = .null) → r.g[n] = (s.slot c k).th.regs.g[n]) ∧
      (∀ (n : Nat) (h : n < 64), (∀ e ∈ fl.regw, e.1 = .v n → e.2 = .null) → r.v[n] = (s.slot c k).th.regs.v[n]) ∧
      (∀ (n : Nat) (h : n < 64) d m, (Reg.v n, Tok.ve d m) ∈ fl.regw → ∀ j < 64, (r.v[n]).extractLsb' (8 * j) 8 =
        if m.getLsbD j then d.extractLsb' (8 * j) 8 else ((s.slot c k).th.regs.v[n]).extractLsb' (8 * j) 8) ∧
      (∀ (n : Nat) (h : n < 8) v, (Reg.q n, Tok.sc v) ∈ fl.regw → r.q[n] = v) ∧
      (∀ (n : Nat) (h : n < 8), (∀ e ∈ fl.regw, e.1 = .q n → e.2 = .null) → r.q[n] = (s.slot c k).th.regs.q[n]) ∧
      (∀ v, (Reg.k, Tok.sc v) ∈ fl.regw → r.k = v) ∧
      ((∀ e ∈ fl.regw, e.1 = .k → e.2 = .null) → r.k = (s.slot c k).th.regs.k) ∧
      (∀ v, (Reg.rnd, Tok.sc v) ∈ fl.regw → r.rnd = if v.toNat / 2 ^ 32 = 0 then v + 2 ^ 32 else v) ∧
      ((∀ e ∈ fl.regw, e.1 = .rnd → e.2 = .null) →
        let old := (s.slot c k).th.regs.rnd
        let lfsr := (old.extractLsb' 32 32).toNat
        (∀ mode, fl.rndMode = some (mode, none) → r.rnd = BitVec.ofNat 64 (lfsr * 2 ^ 32 + mode.toNat)) ∧
        (∀ mode (z : BitVec 32), fl.rndMode = some (mode, some z) →
          r.rnd = BitVec.ofNat 64 ((if z = 0 then 1 else z.toNat) * 2 ^ 32 + mode.toNat)) ∧
        (fl.rndMode = none → r.rnd = if fl.rounded = true ∧ old.toNat % 8 = 6
          then BitVec.ofNat 64 ((lfsrAdv 4096 (old.extractLsb' 32 32)).toNat * 2 ^ 32 + 6) else old)))

/-- R368 to R371: trap entry.  A rooted thread with a handler and a clear ACT saves the record in bank 0, sets ACT and
HND and goes to TVEC.ENTRY; with ACT set or no handler it takes a double fault into bank 1 and parks; a burr leaves for
the supervisor and its slot is free.  TCAUSE holds the cause, DCODE, LSN with its valid bit, and IMP.  Trap entry after
TRAP and imprecise traps go the same way.  Where the spec is silent it states the model's choice (logs 10 and 91). -/
def Obligations.TrapEntry : Prop :=
  (∀ (s : State) (c k : Nat) (r : TrapRec) (a b : Word), s.flight c k = none → r.addr = some a → r.blockp = some b →
    let th := (s.slot c k).th
    let x := s.ctx th.ctx
    (th.kind = .rooted → th.act = false → x.tvec.getLsbD 0 = true →
      s.takeTrap c k r = s.modThread c k fun t =>
        { t with bank0 := bankAs r a b th.regs.n, act := true, hnd := true,
                 regs := { t.regs with n := ofZ (x.tvec.toNat / 16 % 2 ^ 13 * 16) } }) ∧
    (th.kind = .rooted → th.act = true ∨ x.tvec.getLsbD 0 = false →
      s.takeTrap c k r = (s.modThread c k fun t =>
        { t with bank1 := bankAs r a b th.regs.n, dbl := true, rest := .dbl }).slotMsg c k th.ctx 1 none
          (some (tcauseWord r)) (some a) (some th.regs.n)) ∧
    (th.kind = .burr →
      s.takeTrap c k r = (((s.postBurr c (s.supvCore th.ctx) th.toBurr true).slotMsg c k th.ctx 2 (some th.bid.toNat)
        (some (tcauseWord r)) (some a) (some th.regs.n))).modCore c fun y =>
          (y.unwatch (slotOwner k)).setSlot k (y.slot k).freed)) ∧
  (∀ r : TrapRec, r.dcode < 64 → (∀ n, r.lsn = some n → n < 32) →
    (tcauseWord r).toNat % 2 ^ 8 = causeCode r.cause ∧
    (tcauseWord r).toNat / 2 ^ 8 % 2 ^ 6 = r.dcode ∧
    (tcauseWord r).toNat / 2 ^ 14 % 2 ^ 5 = r.lsn.getD 0 ∧
    (tcauseWord r).getLsbD 19 = r.lsn.isSome ∧
    (tcauseWord r).getLsbD 20 = r.imp ∧
    (tcauseWord r).toNat < 2 ^ 21) ∧
  (∀ c k r code, Does .trapEntry (.trapEntry c k r) (fun u => (u.slot c k).disp = some (.softTrap code))
    (fun u => (u.modSlot c k fun x => { x with disp := none }).takeTrap c k { cause := .softTrap, addr := some code })) ∧
  (∀ c k r rest, Does .impreciseTrap (.impreciseTrap c k)
    (fun u => (u.slot c k).mayTrap = true ∧ (u.slot c k).th.imps = r :: rest)
    (fun u => (u.modSlot c k fun x => { x with disp := none, th := { x.th with imps := rest } }).takeTrap c k r))

/-! ### Homes, replies and reservations -/

/-- R52, R60, R62 to R64, R73, R95, R136, R139, R142, R143, R278, R394, R395, R433: the accesses at homes, over the streams of the
gateways where the data lies in the pool or the host; a host's store to the local tier enters the network at an attachment.  A read that its checks let
through and that conflicts with no write is answered with the bytes at the home; a reduction's new value is written, and
an access whose words are lost is not.  A code-loading store to an absent die reaches nothing (R15).  Where the spec is
silent it states the model's choice (logs 95, 100, 101, 117, 119 and 137). -/
def Obligations.HomeAccesses : Prop :=
  ServesAt .scratchpadAccess .scratchpadAccess ∧
  ServesAt .poolAccess .poolAccess ∧
  ServesAt .sliceAccess .sliceAccess ∧
  ServesAt .reductionApply .reductionApply ∧
  ServesAt .gatherHomeRead .gatherHomeRead ∧
  ServesAt .stwApply .stwApply ∧
  (∀ r,
    let here := r.entered = true ∨ ∀ g, r.agent ≠ .gateway g
    (plainAcc r.acc → Does .codeLoadStore (.codeLoadStore r)
      (fun u => here ∧ u.populated r.pa = true ∧ u.waitsAt (u.stamp r) none = none) (fun u => u.serveNow (u.stamp r))) ∧
    Does .codeLoadStore (.codeLoadStore r) (fun u => u.populated r.pa = false) (fun u => u.ackWrite r none) ∧
    (∀ g c, r.agent = .gateway g → r.entered = false → Does .codeLoadStore (.codeLoadStore r)
      (fun u => u.populated r.pa = true ∧ u.homeOf r.pa = .istore c) (fun u => u.post
        { cls := 0, src := (u.attachment g (nodeOf (c / 8)), epGateway), dst := coreEnd c, ctx := r.ctx,
          deliver := .codeLoadStore { r with entered := true } })) ∧
    (plainAcc r.acc → OverLink .poolCacheMiss (.poolCacheMiss r) (fun _ => some (poolGw (poolLineOf r.pa), poolStream r.pa))
      (fun u => ((u.poolEnd r.pa).poolEnsure r.pa r.pol).serve r))) ∧
  (∀ (s : State) (r : Req), s.waitsAt r none = none → s.serve r = s.serveNow r) ∧
  (∀ (s : State) (r : Req) (n : Nat), r.acc = .read n →
    (∀ t, s.readFault r n = some t → s.serveNow r = (s.reportAt r.pa).reply r [] (some t)) ∧
    (s.readFault r n = none → s.conflicts r.pa n r.agent r.sent = [] → isPool r.pa = false → ∃ u : State,
      s.serveNow r = u.reply r (s.homeBytes r.pa n) none ∧ u.mem = s.mem)) ∧
  (∀ (s : State) (r : Req) (op : RmwOp) (n : Nat) (v : Word), r.acc = .red op n v →
    (s.lost r.pa n = false → s.serveNow r = ((s.poolEnsure r.pa r.pol).fixIn r.pa n).serveWrite r
      ((toBytes n (rmw op n (ofBytes (s.homeBytes r.pa n)) v.toNat 0)).map some)) ∧
    (s.lost r.pa n = true → s.serveNow r = (s.reportAt r.pa).ackWrite r (some
      { cause := .uncorrectableData, imp := true, addr := some (blockWord 30 (r.va + s.badOff r.pa n)), blockp := some r.blockp }))) ∧
  (∀ (s : State) (r : Req) (bs : List (Option Byte)), s.mixed r.ctx r.pa bs.length r.agent (s.cameAt r) = true →
    s.serveWrite r bs = s.ackWrite r (some
      { cause := .mixedShape, imp := true, addr := some (blockWord 30 (r.va + s.mixedOff r bs.length)), blockp := some r.blockp }))

/-- R138 to R141: reservations.  A request joins its granule's queue and is granted at its head; a release applies its bytes
and lets the next one go; a cancel only lets it go; a reservation held too long while another waits is revoked, and its
sheaf starts again, its requests ahead of those that came after the first revoke; a cancel waits at a line whose fill is
pending.  A grant gives an AM* its old value and
buffers the new one. -/
def Obligations.Reservations : Prop :=
  (∀ r n, r.acc = .reserve n → Does .reserveRequest (.reserveRequest r)
    (fun u => u.poolPending r.pa = false ∧ u.poolMiss r.pa = false ∧ u.resv (r.pa / 16) = [] ∧ r.retry = false ∧
      (u.setResv (r.pa / 16) [{ req := u.stamp r, since := u.now }]).readFault (u.stamp r) n = none)
    (fun u =>
      let w : Waiter := { req := u.stamp r, since := u.now }
      let q := (((u.setResv (r.pa / 16) [w]).setResv (r.pa / 16) [{ w with granted := true, since := u.clock }]).poolEnsure
        (r.pa / 16 * 16) r.pol).fixIn (r.pa / 16 * 16) 16
      match r.agent with
      | .slot c _ =>
        let grant : Reply := { tag := r.tag, data := q.homeBytes (r.pa / 16 * 16) 16, ctx := r.ctx }
        q.post { cls := 1, src := q.servedAt (u.stamp r), dst := coreEnd c, ctx := r.ctx, key := some r.kid, deliver := .atomicGrant grant }
      | _ => q)) ∧
  (∀ r n, r.acc = .reserve n → Does .reserveRequest (.reserveRequest r)
    (fun u => u.poolPending r.pa = false ∧ u.poolMiss r.pa = false ∧ r.retry = false ∧
      ∃ w rest, u.resv (r.pa / 16) = w :: rest ∧ w.granted = true ∧ isReserve w.req.acc = true)
    (fun u => u.setResv (r.pa / 16) (u.resv (r.pa / 16) ++ [{ req := u.stamp r, since := u.now }]))) ∧
  (∀ (s : State) (r : Req) t ahead behind, r.retry = true → (s.revokes.find? fun e => e.1 == r.agent) = some (r.agent, t) →
    s.resv (r.pa / 16) = ahead ++ behind → (∀ w ∈ ahead, w.granted = true ∨ w.req.retry = true ∨ w.since ≤ t) →
    (∀ w rest, behind = w :: rest → w.granted = false ∧ w.req.retry = false ∧ t < w.since) →
    s.queueReserve r = s.setResv (r.pa / 16) (ahead ++ { req := r, since := s.now } :: behind)) ∧
  (∀ r bs, r.acc = .release bs → Does .release (.release r)
    (fun u => u.linkOf r = none ∧ u.poolPending r.pa = false ∧ u.poolMiss r.pa = false ∧ u.markWaits r = none)
    (fun u => (((u.setResv (r.pa / 16) ((u.resv (r.pa / 16)).filter fun w => !(w.owns r.tag))).serveWrite (u.stamp r)
      (bs.map some)).resumeAt (r.pa / 16)))) ∧
  (∀ r, r.acc = .cancel → Does .cancel (.cancel r) (fun u => u.poolPending r.pa = false) (fun u =>
    let v := u.setResv (r.pa / 16) ((u.resv (r.pa / 16)).filter fun w => !(w.owns r.tag))
    (v.ack (v.servedAt r) r.ctx r.agent .cancel none r.tag).resumeAt (r.pa / 16))) ∧
  (∀ r, r.acc = .cancel → Does .cancel (.cancel r) (fun u => u.poolPending r.pa = true) (fun u => u.poolWait r.pa (.cancel r))) ∧
  (∀ g w rest, Does .reservationRevoke (.reservationRevoke g) (fun u => u.resv g = w :: rest ∧ w.granted = true ∧
      w.revoked = false ∧ w.since + 1024 ≤ u.clock ∧ ∃ x ∈ rest, isReserve x.req.acc = true)
    (fun u =>
      let v : State := { u.setResv g ({ w with revoked := true } :: rest) with
        revokes := if w.req.retry = true ∧ ∃ e ∈ u.revokes, e.1 = w.req.agent then u.revokes
                   else (w.req.agent, u.now) :: u.revokes.filter fun e => e.1 != w.req.agent }
      v.postCached 1 (v.servedAt w.req) (agentEnd w.req.agent) w.req.ctx (.revokeReceive w.req.tag))) ∧
  (∀ t fl, Does .revokeReceive (.revokeReceive t) (fun u => u.flight t.core t.slot = some fl ∧ fl.run = t.run)
    (fun u => (u.discard t.core t.slot).modSlot t.core t.slot fun x => { x with retryNext := true })) ∧
  (∀ r fl h f op n off b x, Does .atomicGrant (.atomicGrant r)
    (fun u => u.flight r.tag.core r.tag.slot = some fl ∧ fl.run = r.tag.run ∧ fl.heldAt r.tag.lsn = some h ∧ r.err = none ∧
      h.kind = .atomic op n off b x ∧ fl.sheaf.formAt h.pos = some f)
    (fun u =>
      let o := ofBytes ((r.data.drop off).take n)
      let fl := fl.setHeld { h with got := (toBytes n (rmw op n o b.toNat x.toNat)).map some, granted := true, done := true }
      (u.acquired r.tag).settle r.tag.core r.tag.slot (fl.emit h.pos f (.sc (wd o)) (.sc (wd o)))))

/-- R34, R46, R57, R58, R64, R75, R90, R104, R113, R262, R278: replies to a core and the homes' own steps.  A reply may
fill the L1, with the guard word that it brings, when since its request left the core its context has not been
invalidated, and with what the core has written in the sector since laid over it; the last store to the own scratchpad
moves the tails that wait for it (R303); it fills the bytes of its access that it answers, or traps with the
access's LSN; a write acknowledgement takes one from UCNT; a zero-pending sector is swept to zeros; a back-invalidated
line is written back and dropped, and the other agent may then have written the pool; a scrubber corrects its sector.
Where the spec is silent it states the model's choice (logs 13, 20, 27, 35, 93, 116, 117 and 133). -/
def Obligations.RepliesAndHomeSteps : Prop :=
  (∀ r fl h,
    let came := fun (u : State) => (u.acquired r.tag).fillL1 r (u.fillBytes r)
    let waits := fun (u : State) => u.flight r.tag.core r.tag.slot = some fl ∧ fl.run = r.tag.run ∧ fl.heldAt r.tag.lsn = some h
    Does .loadReply (.loadReply r) (fun u => waits u ∧ r.err = none) (fun u =>
      let got := h.got.take r.tag.off ++ r.data.map some ++ h.got.drop (r.tag.off + r.data.length)
      (came u).settle r.tag.core r.tag.slot (some (fl.setHeld { h with got := got }))) ∧
    (∀ e, Does .loadReply (.loadReply r) (fun u => waits u ∧ r.err = some e)
      (fun u => (came u).takeTrap r.tag.core r.tag.slot { e with lsn := some r.tag.lsn }))) ∧
  (∀ (s : State) r sec bytes guard, r.fill = some (sec, bytes, guard) →
    let k := s.core r.tag.core
    (k.epochs.get r.ctx 0 + k.epochAll ≠ r.epoch → s.fillBytes r = none) ∧
    (k.epochs.get r.ctx 0 + k.epochAll = r.epoch →
      (k.stored.get sec [] = [] → s.fillBytes r = some (sec, bytes, guard)) ∧
      (∀ w new, k.stored.get sec [] = [w] → r.sent ≤ w.step → w.bytes = some new →
        s.fillBytes r = some (sec, overlay bytes w.off new, guard)) ∧
      (∀ w, k.stored.get sec [] = [w] → r.sent ≤ w.step → w.bytes = none → s.fillBytes r = none) ∧
      (∀ w, k.stored.get sec [] = [w] → w.step < r.sent → s.fillBytes r = some (sec, bytes, guard)))) ∧
  (∀ c k, Does .writeAck (.writeAck c k .write none) (fun u => (u.slot c k).tails = [])
    (fun u => u.modSlot c k fun x => { x with ucnt := x.ucnt - 1 })) ∧
  (∀ c k, Does .writeAck (.writeAck c k .notice none) (fun u => (u.slot c k).tails = [])
    (fun u => u.modSlot c k fun x => { x with ucnt := x.ucnt - 1 })) ∧
  (∀ c k, Does .writeAck (.writeAck c k .own none) (fun u => (u.slot c k).tails = [])
    (fun u => u.modSlot c k fun x => { x with ocnt := x.ocnt - 1 })) ∧
  (∀ c k ring n, k < 8 → Does .writeAck (.writeAck c k .own none) (fun u => (u.slot c k).tails = [(ring, n)] ∧ (u.slot c k).ocnt = 1)
    (fun u => (((u.modSlot c k fun x => { x with ocnt := 0 }).modCore c (·.moveTail ring n)).modSlot c k fun x => { x with tails := [] }))) ∧
  (∀ c k, Does .writeAck (.writeAck c k .cancel none) (fun u => (u.slot c k).tails = [])
    (fun u => u.modSlot c k fun x => { x with cancels := x.cancels - 1 })) ∧
  (∀ c k r, Does .writeAck (.writeAck c k .write (some r)) (fun u => (u.slot c k).tails = [])
    (fun u => (u.modSlot c k fun x => { x with ucnt := x.ucnt - 1 }).modThread c k fun t => { t with imps := t.imps ++ [r] })) ∧
  (∀ c k w, Does .wakeAcknowledgement (.wakeAcknowledgement c k w) always
    (fun u => u.modSlot c k fun x => { x with wakes := x.wakes.erase w })) ∧
  (∀ n, Does .zeroSweep (.zeroSweep n) (fun u => (u.sector n).zp = true) (fun u =>
    let v := (u.unhold n).poolEnsure (n * 128) 0 true
    (v.putHome (n * 128) (List.replicate 128 (some 0))).dueMarks (v.rickHits n) none)) ∧
  (∀ line after l, Does .backInvalidate (.backInvalidate line after) (fun u => u.poolLine? line = some l) (fun u =>
    let v := (u.reportLine l).writeBack l
    (v.dropLine ((v.poolLine? line).getD l)).putBytes (poolBase + 1024 * line) (after.take 1024))) ∧
  (∀ line after, Does .backInvalidate (.backInvalidate line after) (fun u => u.poolLine? line = none)
    (fun u => u.putBytes (poolBase + 1024 * line) (after.take 1024))) ∧
  (∀ (s : State) l, s.stuckMask l = 0 → l.st ≠ 3 → s.dropLine l =
    { s with pcache := s.pcache.put (s.poolKey l.line) ((s.pcache.get (s.poolKey l.line) []).filter fun x => x.line != l.line) }) ∧
  (∀ (s : State) l, s.stuckMask l = 0 → l.st = 3 → s.dropLine l =
    s.setPoolLine { l with sv := 0, sd := 0, data := [] }) ∧
  (∀ i ctx va, Does .translationWalk (.translationWalk i ctx va) always (fun u => u.rewalk i ctx va)) ∧
  (∀ n i,
    let read := fun (u : State) => ({ u with scrubs := u.scrubs.put (u.structOf n) (n + 1) } : State).fixIn (128 * n) 128
    Does .scrub (.scrub n) (fun u => u.sectorCopse n = some i ∧ (u.sector n).bad = 0) read ∧
    Does .scrub (.scrub n) (fun u => u.sectorCopse n = some i ∧ (u.sector n).bad ≠ 0) (fun u =>
      let v := (read u).reportAt (128 * n)
      let x := v.errlogs.put (u.structOf n) (v.errlogs.get (u.structOf n) [] ++ [128 * n])
      (({ v with errlogs := x } : State).pageAdd (dieOf i) 4 1).alarm 6))

/-! ### Packets, threads, control registers, tasks, crofts -/

/-- R86, R89, R93, R101, R103, R113, R117: packets leave their injection queues in order, a SYSTEM release once the gateways
have answered its drain request, a load stamped as it leaves; they move from node to node, and into phase 1 at their
waypoint, as buffers are free, and happen where they arrive; the ninth bad flit in a row takes its link down, and nothing
goes over it any more.  Where the spec is silent it states the model's choice (logs 25, 85 and 92). -/
def Obligations.PacketSteps : Prop :=
  (∀ c k i p, Does .injectionLeave (.injectionLeave c (.queue k))
    (fun u => u.leaveIndex c k = some i ∧ (u.slot c k).injq[i]? = some (.pkt p))
    (fun u => ((u.setSlot c k { u.slot c k with
      injq := dropAt (u.slot c k).injq i, qdrain := if p.drain then none else (u.slot c k).qdrain }).modCore c
        fun y => { y with injPtr := k }).place_ p p.src.1 4 0)) ∧
  (∀ c k i b inv, Does .injectionLeave (.injectionLeave c (.queue k))
    (fun u => u.leaveIndex c k = some i ∧ (u.slot c k).injq[i]? = some (.mark b inv))
    (fun u =>
      let v := u.setSlot c k { u.slot c k with injq := dropAt (u.slot c k).injq i, qdrain := if b then none else (u.slot c k).qdrain }
      if inv then v.modCore c (·.l1Invalidate (u.slot c k).th.ctx) else v)) ∧
  (∀ c k, Does .injectionLeave (.injectionLeave c (.queue k)) (fun u => u.leaveIndex c k = none ∧ u.drainDue c k = true)
    (fun u => u.setSlot c k { u.slot c k with qdrain := some (u.gws.map fun g => (g.1, g.2.biDone + g.2.biq.length)) })) ∧
  (∀ c i p, Does .injectionLeave (.injectionLeave c (.load i)) (fun u => (u.core c).loads[i]? = some p ∧ u.loadMayLeave c i = true)
    (fun u => (u.modCore c fun y => { y with loads := dropAt y.loads i }).place_
      { p with deliver := stampEvent p.deliver fun r => { r with epoch := (u.core c).epochs.get r.ctx 0 + (u.core c).epochAll, sent := u.now } } p.src.1 4 0)) ∧
  (∀ c k p rest, Does .orderedPacketLeave (.orderedPacketLeave c k)
    (fun u => u.orderedMayLeave c k = true ∧ (u.slot c k).injq = .pkt p :: rest)
    (fun u => (((u.orderedLeft c k).setSlot c k { u.slot c k with
      injq := rest, wakes := (u.slot c k).wakes ++ stwWord p, qdrain := if p.drain then none else (u.slot c k).qdrain }).modCore c
        fun y => { y with injPtr := k }).place_ p p.src.1 4 0)) ∧
  (∀ i f n j ph, Does .packetHop (.packetHop i) (fun u => u.flits[i]? = some f ∧ u.hopMove i = some (.go n j ph))
    (fun u => { u with flits := dropAt u.flits i }.place_ f.pkt n j ph)) ∧
  (∀ i f, Does .packetHop (.packetHop i) (fun u => u.flits[i]? = some f ∧ u.hopMove i = some .arrive)
    (fun u => { u with flits := dropAt u.flits i }.due f.pkt.deliver)) ∧
  (∀ i f, Does .packetHop (.packetHop i) (fun u => u.flits[i]? = some f ∧ u.hopMove i = some .enter)
    (fun u => { u with flits := dropAt u.flits i }.place_ f.pkt f.node (portInput f.pkt) 0)) ∧
  (∀ (s : State) f ph n j m, s.hopOf f ph n j = some m → m = .go n j ph ∧ linkInto n j ∉ s.linkDead ∧
    1 ≤ s.available f.pkt n j ph ∧ (j ≠ f.input ∨ ph ≠ f.phase → 2 ≤ s.available f.pkt n j ph)) ∧
  (∀ l, Does .flitReceive (.flitReceive l true) always
    (fun u => { u with linkBad := u.linkBad.del l, linkSeq := u.linkSeq.put l (u.linkSeq.get l 0 + 1) })) ∧
  (∀ l, Does .flitReceive (.flitReceive l false) (fun u => u.linkBad.get l 0 ≠ 8)
    (fun u => { u with linkBad := u.linkBad.put l (u.linkBad.get l 0 + 1) })) ∧
  (∀ l, Does .flitReceive (.flitReceive l false) (fun u => u.linkBad.get l 0 = 8)
    (fun u => { u with linkBad := u.linkBad.put l 9 }.due (.linkDown l))) ∧
  (∀ l, Does .linkDown (.linkDown l) always (fun u => { u.halt with linkDead := l :: u.linkDead }))

/-- R100, R165, R167, R177, R275, R319, R347, R359, R360, R362, R364, R375, R376, R422: arrivals, dispatch and how
threads leave their slots; flocks: a count changes or a member arrives, when all have arrived each is released, and a
release invalidates the L1 sectors of its context and lets the member run on; a remote channel change takes effect where
it arrives.  Where the spec is silent it states the model's choice (logs 36, 67 to 69, 71 and 88). -/
def Obligations.ThreadSteps : Prop :=
  ((∀ c e, Does .arrival (.arrival c e) (fun u => u.hosts c e.ctx = true ∧ ∀ b, e.body ≠ .burr b) (fun u => u.enqueue c e)) ∧
  (∀ c e b, e.body = .burr b → e.held = true ∨ b.fw = true →
    Does .arrival (.arrival c e) (fun u => u.hosts c e.ctx = true) (fun u => u.enqueue c e)) ∧
  (∀ c e, Does .arrival (.arrival c e) (fun u => u.hosts c e.ctx = false) (fun u => u.stray c e)) ∧
  (∀ c i rest e y, Does .dispatch (.dispatch c)
    (fun u => u.canDispatch c = true ∧ (u.core c).slotsFor ((u.core c).makesRooted e) = i :: rest ∧
      (u.core c).oldestWaiting = none ∧ (u.core c).takeEntry = (y, some e) ∧ y.chanOpen e.chan = true)
    (fun u => ((u.setCore c y).noteJam c).startEntry c i e)) ∧
  (∀ c e y, Does .dispatch (.dispatch c)
    (fun u => u.canDispatch c = true ∧ (u.core c).oldestWaiting = none ∧
      (u.core c).takeEntry = (y, some e) ∧ y.chanOpen e.chan = false)
    (fun u => ((u.setCore c y).noteJam c).stray c e)) ∧
  (∀ c i rest t b key x, Does .dispatch (.dispatch c)
    (fun u => u.canDispatch c = true ∧ (u.core c).slotsFor true = i :: rest ∧ (u.core c).oldestWaiting = some (t, b, key, x) ∧
      (u.core c).aq.find? (u.core c).reaches = none)
    (fun u => u.loadContext c i x b key)) ∧
  (∀ c k d fw, Does .burrMigration (.burrMigration c k)
    (fun u => (u.slot c k).occ = true ∧ (u.slot c k).mayLeave = true ∧ (u.slot c k).disp = some (.migrate d fw))
    (fun u => (u.inject c k (burrPkt c d { (u.slot c k).th.toBurr with fw := fw } false)).freeSlot c k)) ∧
  (∀ c k, Does .threadRetire (.threadRetire c k)
    (fun u => (u.slot c k).occ = true ∧ (u.slot c k).mayLeave = true ∧ (u.slot c k).disp = some .done ∧
      ((u.slot c k).th.kind = .rooted → ∀ p ∈ (u.slot c k).th.ports, p.2.mode = .drain → p.2.buf = []))
    (fun u =>
      let t := (u.slot c k).th
      ((u.sendCounts c k t.ctx t.memb false).orphans c k t.ctx t.imps).freeSlot c k)) ∧
  (∀ c k, Does .yieldRetire (.yieldRetire c k)
    (fun u => (u.slot c k).occ = true ∧ (u.slot c k).mayLeave = true ∧ (u.slot c k).disp = some .yield_ ∧
      ((u.slot c k).th.kind = .rooted → k = 7 → (u.core c).copiesRest = true) ∧
      ((u.slot c k).th.kind = .burr → (u.slot c k).th.goesTo.isSome = true ∨ u.coreRoom c false = true))
    (fun u =>
      let t := (u.slot c k).th
      if t.kind = .rooted then
        let v := u.spillLru c
        v.setCore c ((v.core c).toCache k v.now (some v.now)).1
      else match t.goesTo with
        | some d => (u.inject c k (burrPkt c d t.toBurr false)).freeSlot c k
        | none => (u.freeSlot c k).enqueue c t.burrEntry)) ∧
  (∀ c k, Does .halted (.halted c k)
    (fun u => (u.slot c k).occ = true ∧ (u.slot c k).mayLeave = true ∧ (u.slot c k).disp = some .halt)
    (fun u => (u.modSlot c k fun y => { y with disp := none, th := { y.th with rest := .halted } }).slotMsg c k
      (u.slot c k).th.ctx 3 none (some (u.slot c k).th.regs.n) none none)) ∧
  (∀ c k o, Does .eviction (.eviction c k) (fun u => u.evictOp c k = some o ∧ u.canEvict c k = true) (fun u => u.evict c k o)) ∧
  (∀ c k, Does .unpark (.unpark c k) (fun u => (u.slot c k).th.rest = .parked ∧ (u.slot c k).th.wake = true)
    (fun u => u.modThread c k fun t => { t with rest := .none, wake := false })) ∧
  (∀ c k, Does .mailboxDeposit (.mailboxDeposit c k) (fun u => (u.slot c k).ucnt = 0 ∧ (u.slot c k).ocnt = 0)
    (fun u => ((u.slot c k).deps.foldl (fun s d => s.modBox c d.1 d.2.1 fun _ => { data := d.2.2, full := true, claim := none }) u).modSlot
      c k fun x => { x with deps := [] })) ∧
  (∀ id o ctx d, Does .savecComplete (.savecComplete id) (fun u => u.savecDue id = true ∧ u.op? id = some o ∧ o.kind = .savec ctx d [])
    (fun u => u.endOp id)) ∧
  (∀ id o ctx d p ps, Does .savecComplete (.savecComplete id)
    (fun u => u.savecDue id = true ∧ u.op? id = some o ∧ o.kind = .savec ctx d (p :: ps))
    (fun u => (u.imageWrite o.core o.slot ctx d p).modOp id fun o => { o with kind := .savec ctx d ps })) ∧
  (∀ id o ctx w kind recs, Does .loadcComplete (.loadcComplete id) (fun u => u.op? id = some o ∧ o.kind = .loadc ctx w kind recs)
    (fun u => (u.install ctx w kind recs).endOp id))) ∧
  ((∀ ctx f up ack, Does .flockCountChange (.flockCountChange ctx f up ack) always (fun u =>
    ((u.setFlock ctx f { u.flock ctx f with
      count := if up then (u.flock ctx f).count + 1 else (u.flock ctx f).count - 1 }).flockCheck ctx f).ackCount ctx f ack)) ∧
  (∀ (s : State) ctx f g q, s.ackCount ctx f none = s ∧ s.ackCount ctx f (some (g, q)) =
    s.post { msg := true, cls := 3, src := (s.flockHome f, epMgmt), dst := (s.attachment g (s.flockHome f), epGateway),
             ctx := ctx, deliver := .launchRecord g ctx q .counted }) ∧
  (∀ ctx f c k tid, Does .flockArrival (.flockArrival ctx f c k tid) always (fun u =>
    (u.setFlock ctx f { u.flock ctx f with arrived := (u.flock ctx f).arrived ++ [(c, k, tid)] }).flockCheck ctx f)) ∧
  (∀ (s : State) ctx f, (s.flock ctx f).count ≠ (s.flock ctx f).arrived.length → s.flockCheck ctx f = s) ∧
  (∀ (s : State) ctx f c k tid, (s.flock ctx f).count = 1 → (s.flock ctx f).arrived = [(c, k, tid)] → s.flockCheck ctx f =
    (s.setFlock ctx f { s.flock ctx f with arrived := [], gen := (s.flock ctx f).gen + 1 }).post
      { msg := true, cls := 3, src := (s.flockHome f, epMgmt), dst := coreEnd c, ctx := ctx,
        deliver := .barrierRelease ctx f c k tid }) ∧
  (∀ ctx f c k tid j, Does .barrierRelease (.barrierRelease ctx f c k tid)
    (fun u => u.hosts c ctx = true ∧ ((List.range 8).find? fun i =>
      (u.slot c i).occ && (u.slot c i).th.takes ctx f tid true) = some j)
    (fun u => (u.modCore c (·.l1Invalidate ctx)).modSlot c j Slot.released)) ∧
  (∀ (x : Slot), x.disp ≠ some .park → x.released = { x with th := { x.th with rest := .none } }) ∧
  (∀ ctx f c k tid, Does .barrierRelease (.barrierRelease ctx f c k tid) (fun u => u.hosts c ctx = false)
    (fun u => u.supvMsg (coreEnd c) ctx 4 (some c) none none none none none)) ∧
  (∀ c ctx ch blk, Does .remoteChannelChange (.remoteChannelChange c ctx ch blk) (fun u => u.hosts c ctx = true)
    (fun u => (u.modCore c (·.block ch blk)).noteJam c)) ∧
  (∀ c ctx ch blk, Does .remoteChannelChange (.remoteChannelChange c ctx ch blk) (fun u => u.hosts c ctx = false)
    (fun u => u.pageAdd (c / 128) 5 1)))

/-- R32, R44, R93, R96, R97, R135, R321, R330, R343, R374: the steps that follow a write of a control register, behind the
ordered packets of its slot.  Where the
spec is silent it states the model's choice (logs 39, 81 and 82). -/
def Obligations.ControlRegisterSteps : Prop :=
  (∀ c k v id ctx, Does .tinvWrite (.tinvWrite c k v)
    (fun u => ∃ o, u.ops = [o] ∧ o.id = id ∧ o.core = c ∧ o.slot = k ∧ o.kind = .tinv ctx v ∧ o.left = [] ∧ o.behind = 0 ∧
      u.coresOf ctx ≠ [])
    (fun u => (u.tinv ctx v).modOp id fun o => { o with left := u.drainSlots ctx })) ∧
  (∀ c k v ctx, Does .tinvWrite (.tinvWrite c k v)
    (fun u => ∃ o, u.ops = [o] ∧ o.core = c ∧ o.slot = k ∧ o.kind = .tinv ctx v ∧ o.left = [] ∧ o.behind ≠ 0)
    (fun u => u.due (.tinvWrite c k v))) ∧
  (∀ id o ctx v, Does .tinvComplete (.tinvComplete id) (fun u => u.op? id = some o ∧ o.kind = .tinv ctx v ∧ o.left ≠ [] ∧
      ∀ n ∈ o.left, u.slotDrained o.own n = true) (fun u => u.endOp id)) ∧
  (∀ (s : State) own n, s.slotDrained own n = true →
    let x := s.slot (n / 8) (n % 8)
    x.ucnt = 0 ∧ x.ocnt = 0 ∧ s.imaging (n / 8) (n % 8) = false ∧ s.updating (n / 8) (n % 8) = false ∧
      (n % 8 = 7 → ∀ y ∈ (s.core (n / 8)).copies, y.translated = false) ∧ ∀ fl, x.fl = some fl → n ≠ own → ∀ d ∈ fl.due, d.act.isAccess = false) ∧
  (∀ c k v, Does .clstartWrite (.clstartWrite c k v) always (fun u => u.ctlCommit c k 0x29 0 v)) ∧
  (∀ c g, Does .start (.start c (.gateway g)) always (fun u => u.modGw g fun x => { x with start := x.start.erase c })) ∧
  (∀ c d k, Does .start (.start c (.slot d k)) always
    (fun u => u.ack (coreEnd c) (u.slot d k).th.ctx (.slot d k) .write none)) ∧
  (∀ c k v o ctx, o.core = c → o.slot = k → o.kind = .mixdbg ctx v →
    Does .mixdbgWrite (.mixdbgWrite c k v) (fun u => u.ops = [o])
      (fun u => u.spreadWrite o (u.homesOf ctx) (fun s n => s.modCtx ctx fun x => { x with mixAt := x.mixAt.put n v })
        (.mixdbgWrite c k v)) ∧
    (∀ n, Does .mixdbgWrite (.mixdbgWrite c k v) (fun u => u.ops = [o] ∧ o.left = [n] ∧ o.behind = 0)
      (fun u => { u.modCtx ctx fun x => { x with mixAt := x.mixAt.put n v } with ops := [] }))) ∧
  (∀ c k v o ctx, o.core = c → o.slot = k → o.kind = .croot ctx v →
    Does .crootWrite (.crootWrite c k v) (fun u => u.ops = [o])
      (fun u => u.spreadWrite o (u.coresOf ctx) (fun s n => s.modCore n fun y => { y with croot := v, crofts := [] })
        (.crootWrite c k v)) ∧
    (∀ n, Does .crootWrite (.crootWrite c k v) (fun u => u.ops = [o] ∧ o.left = [n] ∧ o.behind = 0)
      (fun u => { u.modCore n fun y => { y with croot := v, crofts := [] } with ops := [] }))) ∧
  (∀ (s : State) o x n, x ∈ s.ops → x.id < o.id → x.core = o.core → x.slot = o.slot → x.kind.sameReg o.kind = true →
    n ∈ x.left → s.behindWrite o n = true) ∧
  (∀ c v, Does .drvcfgWrite (.drvcfgWrite c v) (fun u => (u.slot c 7).fl = none) (fun u =>
    (u.modCore c fun k => { k with drvcfg := v }).modThread c 7 fun t =>
      { t with regs := { t.regs with n := if v.getLsbD 17 then ofZ (v.toNat / 16 % 2 ^ 13 * 16) else 0 } })) ∧
  (∀ c v, Does .drvcfgWrite (.drvcfgWrite c v) (fun u => (u.slot c 7).fl ≠ none)
    (fun u => u.dueBefore (fun e => match e with | .drvcfgWrite d _ => d == c | _ => false) (.drvcfgWrite c v))) ∧
  (∀ ctx v, Does .cpresResume (.cpresResume ctx v) (fun u => (u.core (cpresCore v)).ctx = some ctx ∧ cpresPort v = false ∧
      (u.core (cpresCore v)).heldDrain (cpresTag v) = false)
    (fun u => (u.engineAt (.copyEngine (cpresCore v / 8))).modCopy (cpresCore v) (cpresTag v)
      fun x => if x.state = .suspended then { x with state := .running, failed := none } else x)) ∧
  (∀ ctx v x, Does .cpresAbort (.cpresAbort ctx v) (fun u => (u.core (cpresCore v)).ctx = some ctx ∧ cpresPort v = false ∧
      (u.core (cpresCore v)).heldDrain (cpresTag v) = false ∧ (u.core (cpresCore v)).copy? (cpresTag v) = some x ∧
      x.state = .suspended)
    (fun u => u.copyEnd (cpresCore v) (cpresTag v) false true)) ∧
  (∀ r v, Does .registerWrite (.registerWrite r v) always (fun u => u.regWrite r v)) ∧
  (∀ c v, Does .registerWrite (.registerWrite (.tskm c) v) always (fun u => u.modCtx c fun x => { x with tskm := v })) ∧
  (∀ c v, Does .registerWrite (.registerWrite (.tccb c) v) always (fun u => u.modCore c fun x => { x with tccb := v &&& 0x00FFFFFFFFFFE000 })) ∧
  (∀ v, Does .registerWrite (.registerWrite .pccfg v) (fun u => ({ u with pccfg := v &&& 15 } : State).pcFits = false) id) ∧
  (∀ id c o ctx gs sys right, Does .protbDrain (.protbDrain id c)
    (fun u => u.op? id = some o ∧ o.kind = .protb ctx gs sys right ∧ u.protbDrainDue id c = true)
    (fun u => (u.modCore c fun k => k.dropBlock ctx (granSectors gs)).modOp id fun o => { o with left := o.left.filter (· != c + 1) })) ∧
  (∀ id o ctx gs sys right, Does .protbInstall (.protbInstall id)
    (fun u => u.op? id = some o ∧ o.kind = .protb ctx gs sys right ∧ o.left = [])
    (fun u => (u.protbInstall (.slot o.core o.slot) ctx gs sys right).endOp id))

/-- R179 to R186, R432: launches, die queues, releases, offers, hints, returns and steals: a packet enters with its class
within MAXCLS and keeps its wait clock and its rises; a donation is of eligible packets of the donor's lowest class that
the thief may hold.  Where the spec is silent it states the model's choice (logs 72, 94, 126, 127 and 128). -/
def Obligations.TaskScheduling : Prop :=
  (∀ g ctx q ws, Does .launchRecord (.launchRecord g ctx q (.record ws)) (fun u => u.launchRefused g ctx q (taskFrom ws) = false)
    (fun u => u.modLq g ctx q fun l => { l with recs := l.recs ++ [taskFrom ws] })) ∧
  (∀ g ctx q ws, Does .launchRecord (.launchRecord g ctx q (.record ws)) (fun u => u.launchRefused g ctx q (taskFrom ws) = true)
    (fun u => u.modLq g ctx q LQ.refuse)) ∧
  (∀ g ctx q r rest, Does .launchRecord (.launchRecord g ctx q .send)
    (fun u => (u.lq g ctx q).counted = false ∧ (u.lq g ctx q).recs = r :: rest)
    (fun u => (flocksOf r.memb).foldl (fun s f => s.postCount (s.gwEnd g (s.flockHome f)) ctx f true (some (g, q)))
      (u.modLq g ctx q fun l => { l with counted := true, owed := (flocksOf r.memb).length }))) ∧
  (∀ g ctx q p k, Does .launchRecord (.launchRecord g ctx q .send)
    (fun u => (u.lq g ctx q).counted = true ∧ (u.lq g ctx q).owed = 0 ∧ u.launchPkt g ctx q = some (p, k) ∧ u.endClear k = true)
    (fun u => (u.modLq g ctx q fun l => { l with recs := l.recs.tail, counted := false }).post k)) ∧
  (∀ g ctx q, Does .launchRecord (.launchRecord g ctx q .send)
    (fun u => (u.lq g ctx q).counted = true ∧ (u.lq g ctx q).owed ≠ 0) id) ∧
  (∀ g ctx q, Does .launchRecord (.launchRecord g ctx q .counted) always
    (fun u => u.modLq g ctx q fun l => { l with owed := l.owed - 1 })) ∧
  (∀ d p, Does .dieQueueEnter (.dieQueueEnter d p) always (fun u => (u.joinDie d (u.entering p)).noteDie d)) ∧
  (∀ (s : State) d e, ((s.joinDie d e).die d).queue ++ ((s.joinDie d e).die d).spill = (s.die d).queue ++ (s.die d).spill ++ [e]) ∧
  (∀ d i e, Does .taskRelease (.taskRelease d) (fun u => u.mayRelease d = true ∧ u.releasePick d = some (i, e)) (fun u =>
    let x := u.die d
    let w : Walk := { ent := { e with pkt := x.aim e.pkt }, home := d, node := nodeOf (16 * d), id := u.nextId,
                      resv := u.reservedFree (taskPkt d e.pkt) (nodeOf (16 * d)) 4 0 != 0, since := u.now }
    { (u.setDie d { x with queue := dropAt x.queue i, lastRelease := some u.clock, rr := x.rr.put e.pkt.cls e.pkt.ctx }).noteDie d with
      walks := u.walks ++ [w], nextId := u.nextId + 1 })) ∧
  (∀ (s : State) p, p.since = none → (s.entering p).since = s.clock) ∧
  (∀ (s : State) p, (s.entering p).pkt.cls ≤ maxCls (s.ctx p.ctx) ∧ (s.entering p).aged = p.aged ∧
    ∀ t, p.since = some t → (s.entering p).since = t) ∧
  (∀ d i e, Does .classAging (.classAging d i)
    (fun u => (u.die d).queue[i]? = some e ∧ e.aged < (u.clock - e.since) / 65536)
    (fun u => u.modDie d fun x => { x with queue := setAt x.queue i { e with
      aged := e.aged + 1, pkt := { e.pkt with cls := min (e.pkt.cls + 1) (max e.pkt.cls e.cap) } } })) ∧
  (∀ id w c, Does .taskOffer (.taskOffer id)
    (fun u => u.walk? id = some w ∧ u.walksBehind w = false ∧ u.offers w.ent.pkt w.node = true ∧
      (nodeCores w.node).find? (fun c => u.takesTask c w.ent.pkt) = some c)
    (fun u => (u.enqueue c (taskEntry w.ent.pkt)).endWalk id)) ∧
  (∀ id w n j ph, Does .taskOffer (.taskOffer id)
    (fun u => u.walk? id = some w ∧ u.walksBehind w = false ∧ u.taker w = none ∧ w.node ≠ TaskHint w.ent.pkt ∧
      u.walkHop w = some (n, j, ph))
    (fun u => { u with walks := u.walks.map fun x => if x.id == id then { x with
      node := n, input := j, phase := ph, resv := u.reservedFree (taskPkt w.home w.ent.pkt) n j ph != 0, since := u.now } else x })) ∧
  (∀ id w, Does .taskOffer (.taskOffer id)
    (fun u => u.walk? id = some w ∧ u.walksBehind w = false ∧ u.taker w = none ∧ w.node ≠ TaskHint w.ent.pkt ∧ u.walkHop w = none)
    (fun u => u)) ∧
  (∀ (s : State) w n j ph, s.walkHop w = some (n, j, ph) → s.walkNext w = some (n, j, ph) ∧
    s.linkDead.contains (linkInto n j) = false ∧ 1 ≤ s.available (taskPkt w.home w.ent.pkt) n j ph ∧
    (j ≠ w.input ∨ ph ≠ w.phase → 2 ≤ s.available (taskPkt w.home w.ent.pkt) n j ph)) ∧
  (∀ (s : State) w n j, hopTo w.node (TaskHint w.ent.pkt) = some (n, j) →
    w.phase = 1 ∨ s.waypoint (nodeOf (16 * w.home)) (TaskHint w.ent.pkt) = none → s.walkNext w = some (n, j, w.phase)) ∧
  (∀ (s : State) w g n j, w.phase = 0 → s.waypoint (nodeOf (16 * w.home)) (TaskHint w.ent.pkt) = some g →
    (hopTo w.node g = some (n, j) → s.walkNext w = some (n, j, 0)) ∧
    (hopTo w.node g = none → hopTo w.node (TaskHint w.ent.pkt) = some (n, j) → s.walkNext w = some (n, j, 1))) ∧
  (∀ id w, Does .taskOffer (.taskOffer id)
    (fun u => u.walk? id = some w ∧ u.walksBehind w = false ∧ u.taker w = none ∧ w.node = TaskHint w.ent.pkt)
    (fun u => u.due (.taskHintArrival id))) ∧
  (∀ id w c, c = 8 * copseAt (TaskHint w.ent.pkt) + w.ent.pkt.hcore →
    Does .taskHintArrival (.taskHintArrival id)
      (fun u => u.walk? id = some w ∧ u.hosts c w.ent.pkt.ctx = true ∧
        ((u.core c).tchan.get w.ent.pkt.chan 0).getLsbD 63 = true ∧ u.underLimit c w.ent.pkt = true ∧ u.coreRoom c false = true)
      (fun u => (u.enqueue c (taskEntry w.ent.pkt)).endWalk id) ∧
    Does .taskHintArrival (.taskHintArrival id)
      (fun u => u.walk? id = some w ∧ u.hosts c w.ent.pkt.ctx = true ∧
        (((u.core c).tchan.get w.ent.pkt.chan 0).getLsbD 63 = false ∨ u.underLimit c w.ent.pkt = false))
      (fun u => (u.returnTask w).endWalk id) ∧
    Does .taskHintArrival (.taskHintArrival id) (fun u => u.walk? id = some w ∧ u.hosts c w.ent.pkt.ctx = false)
      (fun u => (u.misroute c (taskEntry w.ent.pkt)).endWalk id)) ∧
  (∀ d i e, Does .returnHoldoff (.returnHoldoff d i) (fun u => (u.die d).queue[i]? = some e ∧ u.holdOver e = true)
    (fun u => u.modDie d fun x => { x with queue := setAt x.queue i { e with hold := none } })) ∧
  (∀ d e rest, Does .dieSpillReload (.dieSpillReload d) (fun u => (u.die d).spill = e :: rest ∧ (u.die d).queue.length < 4096)
    (fun u => (u.setDie d { u.die d with queue := (u.die d).queue ++ [e], spill := rest }).noteDie d)) ∧
  (∀ d, Does .idleSummaryUpdate (.idleSummaryUpdate d) (fun u => u.summaryOf d ≠ (u.die d).summary)
    (fun u => u.modDie d fun x => { x with summary := u.summaryOf d, queue := x.queue.map DieEnt.free, spill := x.spill.map DieEnt.free })) ∧
  (∀ t d, Does .stealRequest (.stealRequest t d false) (fun u => u.maySteal t d = true)
    (fun u => (u.modDie t fun x => { x with steals := x.steals.put d u.clock }).post
      { msg := true, cls := 2, src := schedEnd t, dst := schedEnd d, deliver := .stealRequest t d true })) ∧
  (∀ t d, Does .stealRequest (.stealRequest t d false) (fun u => u.maySteal t d = false) id) ∧
  (∀ t d, Does .stealRequest (.stealRequest t d true) always (fun u => u.donate t d)) ∧
  (∀ (s : State) t d x, x ∈ s.donation t d → x ∈ s.eligible d ∧ daffAllows x.2.pkt.daff t = true ∧
    ∀ e ∈ (s.die d).queue, x.2.pkt.cls ≤ e.pkt.cls) ∧
  (∀ t p, Does .stealDonation (.stealDonation t p) always
    (fun u => (u.joinDie t (u.entering p)).noteDie t))

/-- R165, R344 to R347, R349, R350, R355, R356: the steps behind K and the croft map.  A lookup that finds no owner
raises croft-unmapped, a rooted thread's K outside its croft croft-range; otherwise the owner is known to the sheaf.
Where the spec is silent it states the model's choice (logs 58 to 60 and 62). -/
def Obligations.CroftSteps : Prop :=
  (∀ s t k fl pos usage v o n, s.event = some (.ownerLookup t k) → s.taken.flight t.core t.slot = some fl → fl.run = t.run →
    fl.looks.find? (fun l => l.1 == t.lsn && l.2.2 == k) = some (pos, usage, k) →
    s.taken.lookup t.core (s.taken.slot t.core t.slot).th.ctx k false = (v, o, n) →
    let x := v.modFlight t.core t.slot fun fl => { fl with looks := fl.looks.erase (pos, usage, k) }
    let rooted := (s.taken.slot t.core t.slot).th.kind = .rooted
    (o = none → exec .ownerLookup s =
      .next (x.fault t.core t.slot .croftUnmapped ((fl.sheaf.ordered t.lsn).map (·.1)))) ∧
    (∀ w, o = some w → usage = 0 → rooted → w.core ≠ t.core →
      exec .ownerLookup s = .next (x.fault t.core t.slot .croftRange)) ∧
    (∀ w, o = some w → usage = 0 → ¬ (rooted ∧ w.core ≠ t.core) → exec .ownerLookup s =
      .next (x.modFlight t.core t.slot fun fl => { fl with kOwner := some (some w.core) })) ∧
    (∀ w, o = some w → usage ≠ 0 → exec .ownerLookup s =
      .next (x.modFlight t.core t.slot fun fl => { fl with due := fl.due.map fun d =>
        match d.act with
        | .spawnb b _ mi => if d.pos == t.lsn then { d with act := .spawnb b w.core mi } else d
        | _ => d }))) ∧
  (∀ n, Does .kNotice (.kNotice n) (fun u => u.hosts n.core n.ctx = false)
    (fun u => (u.pageAdd (n.core / 128) 5 1).spreadNotice n [])) ∧
  (∀ n, Does .kNotice (.kNotice n) (fun u => u.hosts n.core n.ctx = true ∧ u.croftMap n.core n.ctx = none)
    (fun u => (u.modCore n.core fun x => { x with table := x.table.filter fun e => e.1 != n.bid.toNat }).spreadNotice n [])) ∧
  (∀ n root cs, Does .kNotice (.kNotice n)
    (fun u => u.hosts n.core n.ctx = true ∧ u.croftMap n.core n.ctx = some (root, cs))
    (fun u =>
      let v := (u.modCore n.core fun x =>
        x.tableApply (coveredBy cs n.core 0) (coveredBy cs n.core root.hw) n.bid.toNat n.k n.remove).crowdAll n.core root cs
      if n.version < root.version then v.spreadNotice { n with version := root.version } (v.missed n root cs)
      else v.spreadNotice n [])) ∧
  (∀ (s : State) n c k, n.join = none → n.sender = some (c, k) → k < 8 → s.spreadNotice n [] =
    s.post { msg := true, cls := 4, src := coreEnd n.core, dst := coreEnd c, ctx := n.ctx, deliver := .writeAck c k .notice none }) ∧
  (∀ (s : State) n root cs g, g ∈ s.missed n root cs → g ≠ n.core ∧ inBoxes (coveredBy cs g root.hw) n.k = true) ∧
  (∀ c ctx, Does .tableRebuild (.tableRebuild c)
    (fun u => (u.core c).ctx = some ctx ∧ (u.modCore c fun x => { x with dropped := false }).croftMap c ctx = none)
    (fun u => ((u.modCore c fun x => { x with dropped := false }).modCore c fun x => { x with table := [] }).endRebuild c)) ∧
  (∀ c ctx root cs, Does .tableRebuild (.tableRebuild c)
    (fun u => (u.core c).ctx = some ctx ∧ (u.modCore c fun x => { x with dropped := false }).croftMap c ctx = some (root, cs))
    (fun u =>
      let v := u.modCore c fun x => { x with dropped := false }
      let ns := v.rebuildNotices c ctx root cs
      let w := (v.modCore c fun x => { x with table := x.table.filter fun e => inBoxes (coveredBy cs c root.hw) e.2 }).crowdAll
        c root cs
      if ns = [] then w.endRebuild c
      else
        let x := ns.foldl (fun (s : State) n => s.postMgmt (coreEnd c) (coreEnd n.core) ctx (.kNotice { n with join := some s.nextId }))
          { w with joins := w.joins.put w.nextId (ns.length, none) }
        { x with nextId := x.nextId + 1 })) ∧
  (∀ (s : State) c ctx root cs n, n ∈ s.rebuildNotices c ctx root cs → n.remove = false ∧ n.core ≠ c ∧
    inBoxes (coveredBy cs c 0) n.k = true ∧ inBoxes (coveredBy cs n.core root.hw) n.k = true ∧
    ∃ b, (b, n.k) ∈ (s.core c).table ∧ n.bid = BitVec.ofNat 32 b) ∧
  (∀ (s : State) c x, s.ops = [] → s.cores.get? c = some x → ∃ y, (s.endRebuild c).cores.get? c = some y ∧
    y.lost = (x.lost && x.dropped)) ∧
  (∀ id o ctx p w rest v r, Does .mapUpdateComplete (.mapUpdateComplete id)
    (fun u => u.op? id = some o ∧ o.kind = .mapUpdate ctx p ∧ p.writes = w :: rest ∧ o.behind = 0 ∧
      u.engineWrite (.slot o.core o.slot) ctx w.kid w.va w.pa w.bytes 0 = .fault v r)
    (fun _ =>
      let x := (v.impTrap (.slot o.core o.slot) r).serveCancel
        { agent := .slot o.core o.slot, tag := p.tag, ctx := ctx, kid := p.root.kid, pa := p.root.pa / 16 * 16, va := p.root.va,
          acc := .cancel }
      { x with ops := x.ops.filter fun y => y.id != id })) ∧
  (∀ id o ctx p w rest v, Does .mapUpdateComplete (.mapUpdateComplete id)
    (fun u => u.op? id = some o ∧ o.kind = .mapUpdate ctx p ∧ p.writes = w :: rest ∧ o.behind = 0 ∧
      u.engineWrite (.slot o.core o.slot) ctx w.kid w.va w.pa w.bytes 0 = .done v)
    (fun _ =>
      let x := v.modCore o.core (·.l1Drop w.pa)
      { x with ops := x.ops.map fun y => if y.id == id then { y with kind := .mapUpdate ctx { p with writes := rest } } else y })) ∧
  (∀ s id o ctx p, s.event = some (.mapUpdateComplete id) → s.taken.op? id = some o → o.kind = .mapUpdate ctx p →
    p.writes = [] → o.behind = 0 → ∃ t, exec .mapUpdateComplete s = .next t ∧
      (∀ c x, t.cores.get? c = some x → ∀ e ∈ x.crofts, e.ctx = ctx → p.version ≤ e.version)) ∧
  (∀ c ctx b, Does .retireNotice (.retireNotice c ctx b) (fun u => u.hosts c ctx = true) (fun u => u.modCore c fun k =>
    if b.getLsbD 20 then { k with live1 := k.live1 - 1 } else { k with live0 := k.live0 - 1 })) ∧
  (∀ c ctx b, Does .retireNotice (.retireNotice c ctx b) (fun u => u.hosts c ctx = false)
    (fun u => u.pageAdd (c / 128) 5 1))

/-! ### Arrays, copies, gateways, trust core, device -/

/-- R151, R304, R306 to R308, R310 to R312: the arrays' own steps.  Where the spec is silent it states the model's
choice (logs 74, 76 and 78). -/
def Obligations.MatrixSteps : Prop :=
  (∀ p fill i n, Does .matrixCommandStart (.matrixCommandStart p fill)
    (fun u => u.canStart p fill = true ∧ u.skips p = false ∧
      u.arbitrate p (if fill then (u.copse p).fillPtr else (u.copse p).mulPtr)
        (if fill then (u.copse p).fillBudget else (u.copse p).mulBudget) fill = some (i, n))
    (fun u => (u.setCopse p
      (if fill then { u.copse p with parity := false, fillPtr := i, fillBudget := n }
       else { u.copse p with parity := false, mulPtr := i, mulBudget := n })).startCmd p (8 * p + i) fill)) ∧
  (∀ p c q since zero tile ring bank h w r, q.cmd = .mma zero tile ring bank h w →
    let b := (r.banks[bank]?).getD 0
    let used := fun (u : State) => u.modCopse p fun x => x.modHandle h fun k => { k with used := u.now }
    let runs := fun (u : State) => u.mmaDue p = true ∧ u.running (u.copse p).mul = some (c, q, since) ∧ (u.copse p).find h = some r
    Does .mmaFinish (.mmaFinish p)
      (fun u => runs u ∧ (used u).bankError p b = false ∧ (used u).tileError c tile zero = false ∧
        (used u).entryError c ((u.core c).ring ring) = false)
      (fun u => ((used u).mmaRun c q zero tile ((u.core c).ring ring) b r.fmt w).mmaPop p c ring) ∧
    Does .mmaFinish (.mmaFinish p) (fun u => runs u ∧ (used u).bankError p b = true)
      (fun u => (((used u).modCopse p fun x => x.modHandle h Rick.mark).mmaPop p c ring).matrixTrap c q .uncorrectableData
        (BitVec.ofNat 64 q.tsn)) ∧
    Does .mmaFinish (.mmaFinish p)
      (fun u => runs u ∧ (used u).bankError p b = false ∧
        ((used u).tileError c tile zero = true ∨ (used u).entryError c ((u.core c).ring ring) = true))
      (fun u => ((used u).mmaPop p c ring).matrixTrap c q .uncorrectableData (BitVec.ofNat 64 q.tsn))) ∧
  (∀ s p c q since h ws path depth priv r v b, s.event = some (.rkfillFinish p) → q.cmd = .fill h ws path depth priv →
    s.taken.canFinishFill p = true → s.taken.running (s.taken.copse p).fill = some (c, q, since) →
    (s.taken.copse p).find h = some r →
    (∀ e, s.taken.fillOpen p q.ctx h ws path depth priv = (v, .error e) → exec .rkfillFinish s = .next (v.fillFault c q h e)) ∧
    (s.taken.fillOpen p q.ctx h ws path depth priv = (v, .ok b) → ∀ w,
      (v.fillBanks p c q.ctx priv b (b.word path) (r.banks.zipIdx.map fun x => (x.2, x.1)) = (w, .ok ()) →
        exec .rkfillFinish s = .next ((((w.modCopse p fun x =>
          x.modHandle h (·.filled (ws, path, depth, priv) b.t.s w.now (w.fillsOn p h))).modCore c (·.popCmd)).pathFree p
            true).sweepRicks p)) ∧
      (∀ e, v.fillBanks p c q.ctx priv b (b.word path) (r.banks.zipIdx.map fun x => (x.2, x.1)) = (w, .error e) →
        exec .rkfillFinish s = .next (w.fillFault c q h e)))) ∧
  (∀ s p e, s.event = some (.rickRefill p e) → s.taken.refillDue p e = true →
    let r := (s.taken.copse p).rick e
    let u := s.taken.sweepRicks p
    let bs := (u.copse p).openBanks.take r.nbanks
    (r.banks = [] → 1 ≤ r.nbanks → (u.copse p).heldBy r.ctx + r.nbanks ≤ (u.ctx r.ctx).rkquota.toNat % 16 →
      r.nbanks ≤ (u.copse p).openBanks.length →
      exec .rickRefill s = .next (u.setCopse p (((u.copse p).takeBanks r.handle bs).modHandle r.handle fun k => { k with banks := bs }))) ∧
    (r.banks = [] → 1 ≤ r.nbanks → (u.ctx r.ctx).rkquota.toNat % 16 < (u.copse p).heldBy r.ctx + r.nbanks →
      exec .rickRefill s = .next (s.taken.refillFail p e (·.keptOut (s.taken.fillsOn p r.handle)) (causeOnly .evictedRick))) ∧
    (r.banks ≠ [] → ∀ ws path depth priv v b w, r.src = some (ws, path, depth, priv) →
      s.taken.fillOpen p r.ctx r.handle ws path depth priv = (v, .ok b) →
      v.fillBanks p (v.refillCore p r.handle) r.ctx priv b (b.word path) (r.banks.zipIdx.map fun x => (x.2, x.1)) = (w, .ok ()) →
      exec .rickRefill s = .next ((w.modCopse p fun x =>
        x.modRick e fun k => k.filled (ws, path, depth, priv) b.t.s w.now (w.fillsOn p r.handle)).refillEnd p r.handle
          (if ((w.copse p).rick e).marked then some (causeOnly .staleRick) else none)))) ∧
  (∀ (r : Rick) src sz now more, r.state ≠ .revoked → r.err = (r.filled src sz now more).err ∧
    (r.filled src sz now more).state = (if more then .filling else if r.marked then .stale else .ready) ∧
    ∀ c, (r.failed c more).err = causeCode c ∧ (r.failed c more).state = if more then .filling else .empty) ∧
  (∀ p d, Does .tileReadOut (.tileReadOut p) (fun u => u.readOutDue p = true ∧ u.drainOf p = some d)
    (fun u => u.modCore d.c fun k => { k.modHead fun q => { q with freed := true } with ctagf := setBit k.ctagf d.tag true })) ∧
  (∀ s p d v n, s.event = some (.mdrainFinish p) → s.taken.drainOf p = some d → d.q.freed = true →
    (s.taken.drainFrom p d d.q.next (2048 - d.q.next) = (v, n, none) → exec .mdrainFinish s =
      .next ((((v.modCore d.c (·.popCmd)).pathFree p true).copyEnd d.c d.tag true false).addCounts d.c
        d.q ((List.range 2048).countP fun e => (v.drainElem d e).2) 0 0)) ∧
    (∀ r, s.taken.drainFrom p d d.q.next (2048 - d.q.next) = (v, n, some (some r)) →
      exec .mdrainFinish s = .next (v.holdDrain p d n r))) ∧
  (∀ p h, Does .rickStaleMark (.rickStaleMark p h none) always (fun u => u.markRick p h)) ∧
  (∀ p h t, Does .rickStaleMark (.rickStaleMark p h (some t)) always
    (fun u => (u.markRick p h).ack (nodeOf p, epArray) (u.slot t.core t.slot).th.ctx (.slot t.core t.slot) .write none)) ∧
  (∀ p b, Does .bankZeroed (.bankZeroed p b) (fun u => (((u.copse p).banks[b]?).getD .free).zeroedAt u.clock = true)
    (fun u => u.setCopse p { (u.copse p).writeBank b [] with
      banks := (u.copse p).banks.setIfInBounds b (((u.copse p).banks[b]?).getD .free).clean })) ∧
  (∀ p e, Does .forcedEviction (.forcedEviction p e)
    (fun u => ((u.copse p).rick e).bound = true ∧
      (((u.copse p).rick e).state = .ready ∨ ((u.copse p).rick e).state = .stale) ∧
      u.rickUsed p ((u.copse p).rick e).handle = false)
    (fun u => u.evictRick p e))

/-- R65, R150, R328, R330 to R333, R335, R336, R435: copies run in turn, half a run at a time, and land; after the last run
is read the source is free; runnel words move.  Where the spec is silent it states the model's choice (logs 43, 50 to 52,
55 and 115). -/
def Obligations.CopyAndRunnelSteps : Prop :=
  (∀ c t x, Does .copyRun (.copyRun c t) (fun u => (u.core c).copy? t = some x ∧ u.copyCanRun c x = true ∧ u.copyTurn (c / 8) = some (c, x.tag))
    (fun u => (u.modCopse (c / 8) fun y => { y with rr := c % 8 * 64 + x.tag }).copyRun c x)) ∧
  (∀ c t x, Does .copyLanded (.copyLanded c t) (fun u => (u.core c).copy? t = some x ∧ u.copyCanLand x = true)
    (fun u => u.copyEnd c x.tag true false)) ∧
  (∀ c t x, Does .fabricAborted (.fabricAborted c t x.inst) (fun u => (u.core c).copy? t = some x ∧ x.desc.opc = 6)
    (fun u => u.copyEnd c t false true)) ∧
  (∀ c t x i, x.inst ≠ i → Does .fabricAborted (.fabricAborted c t i) (fun u => (u.core c).copy? t = some x) id) ∧
  (∀ c t g, g.core = c → g.tag = t → Does .collectiveTimeout (.collectiveTimeout c t)
    (fun u => u.collectiveLate c t = true ∧ u.colls = [g]) (fun u => u.due (.fabricAborted c t g.inst))) ∧
  (∀ (s : State) c x n, x.desc.total ≤ x.resume + n →
    s.copySource c x n = s.modCore c fun k => { k with ctagf := setBit k.ctagf x.tag true }) ∧
  (∀ (s : State) c x run t, x.buf = some run → x.translated = true →
    s.writeElems (c / 8) x.desc ((run.map fun e => (e.dst, e.val)).zip (run.map fun e => partsAt (e.at_.getD []))) = .done t →
    s.copyRun c x = t.copyAdvance c x run.length) ∧
  (∀ (s : State) c x run s1 ps t, x.buf = some run → x.translated = false →
    s.checkDests (c / 8) x.desc (run.map fun e => e.dst) = (s1, .ok ps) →
    s1.writeElems (c / 8) x.desc ((run.map fun e => (e.dst, e.val)).zip ps) = .done t →
    s.copyRun c x = t.copyAdvance c x run.length) ∧
  (∀ s c t n data x, s.event = some (.fabricChunkResult c t x.inst n data) → (s.taken.core c).copy? t = some x → x.desc.opc = 6 →
    x.wrote.contains n = false → n < x.chunks.length → x.state = .running → data.length = x.desc.chunkBytes n →
    let es := x.desc.chunkElems data (natAt x.chunks n) x.desc.total
    (∀ u r, s.taken.checkDests (c / 8) x.desc (es.map Prod.fst) = (u, .error r) →
      exec .fabricChunkResult s = .next ((u.chunkStop c x n r).due (.fabricChunkResult c t x.inst n data))) ∧
    (∀ u ps v w, s.taken.checkDests (c / 8) x.desc (es.map Prod.fst) = (u, .ok ps) →
      u.writeElems (c / 8) x.desc (es.zip ps) = .done v → v.setBitmap (c / 8) x.desc n = .done w →
      exec .fabricChunkResult s = .next (w.modCopy c t fun y => { y with
        wrote := y.wrote ++ [n], drain := if polScope y.desc.pol == 5 then some w.drainRequest else none }))) ∧
  (∀ c t i n data, Does .fabricChunkResult (.fabricChunkResult c t i n data)
    (fun u => (u.core c).copy? t = none ∧ u.inCollective c t i = true) (fun u => u.due (.fabricChunkResult c t i n data))) ∧
  (∀ c t i n data x, x.inst ≠ i ∨ data.length ≠ x.desc.chunkBytes n → Does .fabricChunkResult (.fabricChunkResult c t i n data)
    (fun u => (u.core c).copy? t = some x) id) ∧
  (∀ s c k p x, s.event = some (.runnelFillFetch c k p) → (s.slot c k).th.ports.get? p = some x → x.canFetch = true →
    s.taken.readHeld (.copse (c / 8)) x.ctx x.priv (patAddr x.pat x.pos) 8 = false → ∀ v,
    (∀ bs, s.taken.readVa (.copse (c / 8)) (.feeder c k p) x.ctx x.priv (patAddr x.pat x.pos) 8
        (coverWord (patAddr x.pat x.pos) 8) x.pol = (v, .ok bs) →
      exec .runnelFillFetch s = .next (v.modPort c k p fun y =>
        { y with buf := y.buf ++ [some (BitVec.ofNat 64 (ofBytes bs))], pos := y.pos + 1 })) ∧
    (∀ r, s.taken.readVa (.copse (c / 8)) (.feeder c k p) x.ctx x.priv (patAddr x.pat x.pos) 8
        (coverWord (patAddr x.pat x.pos) 8) x.pol = (v, .error r) →
      exec .runnelFillFetch s = .next (v.modPort c k p fun y => { y with buf := y.buf ++ [none], err := some r }))) ∧
  (∀ s c k p x w rest v ps t, s.event = some (.runnelDrainWrite c k p) → (s.slot c k).th.ports.get? p = some x →
    x.canDrain = true → x.buf = some w :: rest →
    s.taken.checkBytes (.copse (c / 8)) x.ctx x.priv (patAddr x.pat x.pos) 8 false true = (v, .ok ps) →
    v.writeParts (.feeder c k p) x.ctx (patAddr x.pat x.pos) (toBytes 8 w.toNat) 0 x.pol ps = .done t →
    exec .runnelDrainWrite s = .next (t.portWrote c k p)) ∧
  (∀ c ctx l d id w, Does .neighbourWord (.neighbourWord c ctx l d id w) (fun u => u.hosts c ctx = true) (fun u =>
    (u.modCore c fun k => { k with links := k.links ++ [(l, d, id, w)] }).peerPort d l c id fun p => { p with unack := p.unack - 1 })) ∧
  (∀ c ctx l d id w, Does .neighbourWord (.neighbourWord c ctx l d id w) (fun u => u.hosts c ctx = false) (fun u =>
    (u.supvMsg (coreEnd c) ctx 4 (some c) none none none none none).peerPort d l c id fun p => { p with unack := p.unack - 1 })) ∧
  (∀ c ctx l d id, Does .neighbourCredit (.neighbourCredit c ctx l d id) (fun u => u.hosts c ctx = true) (fun u =>
    u.peerPort c l d id fun p => { p with credits := min 16 (p.credits + 1) }))

/-- R64, R117, R393 to R395, R433, R434, R441: the gateways' steps.  Where the spec is silent it states the model's
choice (logs 96 to 101). -/
def Obligations.GatewaySteps : Prop :=
  (∀ g, Does .gatewayDrain (.gatewayDrain g) always
    (fun u => u.modGw g fun x => { x with biDone := x.biDone + x.biq.length, biq := [] })) ∧
  (∀ g off acc ph, Does .hostMemAccess (.hostMemAccess g off acc ph) (fun u => (u.stream g 0).holds ph = false)
    (fun u => u.modStream g 0 fun x => { x with integ := x.integ + 1 })) ∧
  (∀ g off acc ph, Does .hostMemAccess (.hostMemAccess g off acc ph)
    (fun u => (u.stream g 0).holds ph = true ∧ (u.stream g 0).stuck = true)
    (fun u => u.sealPkt g 0 (.hostMemAccess g off acc ph) none)) ∧
  (∀ g off acc ph, Does .hostMemAccess (.hostMemAccess g off acc ph)
    (fun u => (u.stream g 0).holds ph = true ∧ (u.stream g 0).stuck = false ∧ u.windowAt off = none)
    (fun u => u.hostRefuse g ph acc)) ∧
  (∀ g off n w ph, Does .hostMemAccess (.hostMemAccess g off (.read n) ph)
    (fun u => (u.stream g 0).holds ph = true ∧ (u.stream g 0).stuck = false ∧ u.windowAt off = some w ∧ n ≤ w.hb + w.len - off)
    (fun u => u.hostRead ⟨g, off, .read n, ph⟩ w (w.vb + (off - w.hb)) n)) ∧
  (∀ g off bs w ph, Does .hostMemAccess (.hostMemAccess g off (.write bs) ph)
    (fun u => (u.stream g 0).holds ph = true ∧ (u.stream g 0).stuck = false ∧ u.windowAt off = some w ∧
      bs.length ≤ w.hb + w.len - off)
    (fun u => u.hostWrite ⟨g, off, .write bs, ph⟩ w (w.vb + (off - w.hb)) bs)) ∧
  (∀ (s : State) g ph n, (s.hostRefuse g ph (.read n)) =
    ((s.pageAdd (16 + g) 5 1).sealPkt g 0 (.streamSend g 0 false) none).modGw g
      fun x => { x with replies := x.replies ++ [(ph, none)] }) ∧
  (∀ c, Does .precopyPage (.precopyPage c)
    (fun u => (u.stream u.primaryGw migrationStream).stuck = false ∧ (takePage c u.precopy).isSome = true) (fun u => u.sendPage c)) ∧
  (∀ c m, Does .precopyPage (.precopyPage c)
    (fun u => (u.stream u.primaryGw migrationStream).stuck = false ∧ takePage c u.precopy = none ∧
      (u.ctx c).tctl.getLsbD 0 = true ∧
      u.nextMark c (u.preAt.get c 0) 3 ((u.ctx c).dtroot.toNat / 2 ^ 11 % 2 ^ 45 * 2048) 0 = some m)
    (fun u => if u.reserved m.1 8 then u.again (.precopyPage c) else (u.takeMark c m).sendPage c)) ∧
  (∀ c, Does .precopyPage (.precopyPage c)
    (fun u => (u.stream u.primaryGw migrationStream).stuck = false ∧ takePage c u.precopy = none ∧
      (u.ctx c).tctl.getLsbD 0 = true ∧
      u.nextMark c (u.preAt.get c 0) 3 ((u.ctx c).dtroot.toNat / 2 ^ 11 % 2 ^ 45 * 2048) 0 = none)
    (fun u => { u with preAt := u.preAt.put c 0 })) ∧
  (∀ (s : State) c p runs u r, takePage c s.precopy = some (p, runs) → s.readPage c p = (u, .record r) →
    ∃ t, s.sendPage c = t ∧ t.sent = u.sent ++ [r] ∧ t.precopy = runs) ∧
  (∀ s c p gs data v l t, s.event = some (.pageRecordReceive c p gs data) →
    s.taken.xlate (s.taken.gwXer s.primaryGw) c (p * 4096) = (v, .ok l) → l.kind ≠ 2 → (v.pageSectors l p).all sealedTier = true →
    v.pageWrite c (l.kid.getD c) ((v.pageSectors l p).zipIdx.map fun x =>
      (p * 4096 + 128 * x.2, x.1, (List.range 128).map (fun j => (data[128 * x.2 + j]?).getD 0), (gs[x.2]?).getD 0)) = .done t →
    exec .pageRecordReceive s = .next t) ∧
  (∀ g i r, Does .streamSend (.streamSend g i r) always
    (fun u => u.sealPkt g i (.streamSend g i r) (if r then some none else none))) ∧
  (∀ (s : State) g i e r, let x := s.stream g i
    let y := x.offer s.clock e r
    s.sealPkt g i e r = { s.modStream g i fun _ => y with tcmsgs := s.tcmsgs ++
      (if y.exh = true ∧ x.exh = false then [(g, i, false)] else []) ++ (if y.warn = true ∧ x.warn = false then [(g, i, true)] else []) }) ∧
  (∀ (x : Stream) now e r, x.held = [] → x.nkr = false → x.cnt < 2 ^ 48 → (x.offer now e r).cnt = x.cnt + 1 ∧
    (x.offer now e r).held = [] ∧ (x.offer now e r).ph = x.ph) ∧
  (∀ (x : Stream) now e r, x.held = [] → x.nkr = false → x.cnt = 2 ^ 48 → (x.offer now e r).cnt = x.cnt ∧
    (x.offer now e r).held = [e] ∧ (x.offer now e r).exh = true) ∧
  (∀ (x : Stream) now e r, x.held ≠ [] → x.offer now e r = { x with held := x.held ++ [e] }) ∧
  (∀ (x : Stream) now e r, x.held = [] → x.nkr = true → x.early = true ∨ x.cnt = 2 ^ 48 →
    (x.offer now e r).ph = (!x.ph) ∧ (x.offer now e r).cnt = 1 ∧ (x.offer now e r).oldrx = true) ∧
  (∀ g i a b, Does .streamReceive (.streamReceive g i a b) always (fun u => u.modStream g i fun x => x.receive a b)) ∧
  (∀ g i, Does .oldKeyTimeout (.oldKeyTimeout g i) (fun u => (u.stream g i).oldDue u.clock = true)
    (fun u => u.modStream g i Stream.dropOld)) ∧
  (∀ (x : Stream) ph c, x.holds ph = false → x.receive ph c = { x with integ := x.integ + 1 }) ∧
  (∀ g i t r e, Does .completionTimeout (.completionTimeout g i t)
    (fun u => ((u.stream g i).out.find? fun r => (u.stream g i).late u.clock r && ((r.step.bind reqOf).any fun q => q.tag == t)) = some r ∧
      r.step = some e)
    (fun u => ((u.unsend g i e).forget e).timedOut e)) ∧
  (∀ g v, Does .gwstartWrite (.gwstartWrite g v) (fun u => u.dieLive (v.toNat % 2 ^ 11 / 128) = true)
    (fun u => (u.modGw g fun x => { x with start := x.start ++ [v.toNat % 2 ^ 11] }).post (u.gwStart g (v.toNat % 2 ^ 11))))

/-- R382 to R385, R390 to R392: the trust core's commands on contexts, cores and keys, and the stages in which the longer ones
complete.  Where the spec is silent it states the model's choice (logs 103 to 105). -/
def Obligations.TrustContextCommands : Prop :=
  (∀ kid, Does .keyLoad (.keyLoad kid) (fun u => u.keyIds.contains kid = false)
    (fun u => { u with keyIds := u.keyIds ++ [kid] })) ∧
  (∀ kid, Does .keyLoad (.keyLoad kid) (fun u => u.keyIds.contains kid = true) id) ∧
  (∀ s i op id, Commanded s (.create i) i 4 none op → recordBad (op 0) (op 1) (op 2) (op 3) = false →
    s.taken.freeId = some id → ∃ v : State, exec .create s = .next v ∧ v.tcstage = id + 1 ∧ (v.ctx id).live = true ∧
      (v.ctx id).troot = op 0 ∧ (v.ctx id).dtroot = op 1 ∧ (v.ctx id).supv = op 2 ∧ (v.ctx id).savecnt = 1 ∧
      (v.ctx id).priv = (op 3).getLsbD 63 ∧ (v.ctx id).tctl = truth ((op 3).getLsbD 62 = true)) ∧
  (∀ s i id, s.event = some (.create i) → s.tcstage = id + 1 → s.keyIds.contains id = true →
    exec .create s = .next (s.taken.cmdDone i 0 id)) ∧
  (∀ s i op, Commanded s (.addcore i) i 2 none op → (op 0).toNat < 2048 → s.taken.dieLive ((op 0).toNat / 128) = true →
    (s.taken.core (op 0).toNat).ctx = none → s.taken.liveCtx (op 1) = true →
    exec .addcore s = .next ((s.taken.joinCore (op 0).toNat (op 1).toNat).cmdDone i 0 0)) ∧
  (∀ s i op ctx, Commanded s (.remcore i) i 1 none op → (s.taken.core (op 0).toNat).ctx = some ctx →
    s.taken.supvCore ctx ≠ (op 0).toNat ∨ (s.taken.coresOf ctx).length ≤ 1 → (s.taken.core (op 0).toNat).idle = true →
    exec .remcore s = .next ((s.taken.modCore (op 0).toNat fun k =>
      ({ k with ctx := none } : Core).setSlot 7 { runs := (k.slot 7).runs }).cmdDone i 0 0)) ∧
  (∀ s i op, Commanded s (.setquota i) i 2 none op → flagsBad (op 1) = false → s.taken.liveCtx (op 0) = true →
    exec .setquota s = .next (((s.taken.setCsched (op 0).toNat (recCsched (op 1))).modCtx (op 0).toNat
      (·.quotas (op 1))).cmdDone i 0 0)) ∧
  (∀ s i t op id, Commanded s (.sharekey i) i 2 (some t) op → s.taken.liveCtx (op 0) = true → s.taken.liveCtx (op 1) = true →
    op 0 ≠ op 1 → t = (op 0).toNat ∨ t = (op 1).toNat →
    (s.ctx (op 0).toNat).sharedIds.length < (s.ctx (op 0).toNat).shmax →
    (s.ctx (op 1).toNat).sharedIds.length < (s.ctx (op 1).toNat).shmax →
    let other := if t = (op 0).toNat then (op 1).toNat else (op 0).toNat
    (s.shareAsk.contains (other, t) = false → ∃ v : State, exec .sharekey s = .next (v.cmdDone i 2 0) ∧
      v.shared = s.shared ∧ (t, other) ∈ v.shareAsk) ∧
    (s.shareAsk.contains (other, t) = true → s.taken.freeId = some id → ∃ v : State,
      exec .sharekey s = .next v ∧ v.shared = s.shared ++ [id] ∧ v.sharedKx.get? id = some (s.taken.draw 8).1 ∧
      v.shareAsk = s.shareAsk.erase (other, t) ∧ v.tcstage = 1 + id + 64 * (op 0).toNat + 4096 * (op 1).toNat)) ∧
  (∀ s i id a b, s.event = some (.sharekey i) → id < 64 → a < 64 → b < 64 → s.tcstage = 1 + id + 64 * a + 4096 * b →
    s.keyIds.contains id = true →
    exec .sharekey s = .next (((s.taken.modCtx a (·.holdKey id)).modCtx b (·.holdKey id)).cmdDone i 0 id)) ∧
  (∀ s i op, Commanded s (.stop i) i 1 none op → s.taken.liveCtx (op 0) = true →
    exec .stop s = .next { s.taken.stopCtx (op 0).toNat with tcstage := 1 + (op 0).toNat }) ∧
  (∀ s i ctx, s.event = some (.stop i) → s.tcstage = 1 + ctx → s.taken.stopDone ctx = true →
    exec .stop s = .next (s.taken.cmdDone i 0 0)) ∧
  (∀ s i op, Commanded s (.destroy i) i 1 none op → s.taken.liveCtx (op 0) = true →
    exec .destroy s = .next { ((s.taken.modCtx (op 0).toNat fun x => { x with stopped := true }).stopCtx (op 0).toNat) with
      tcstage := 1 + (op 0).toNat }) ∧
  (∀ s i ctx, s.event = some (.destroy i) → ctx < 64 → s.tcstage = 1 + ctx → s.taken.stopDone ctx = true →
    exec .destroy s = .next { s.taken.destroyStiles ctx with tcstage := 65 + ctx }) ∧
  (∀ s i ctx, s.event = some (.destroy i) → ctx < 64 → s.tcstage = 65 + ctx → s.taken.stilesCleared = true →
    exec .destroy s = .next ((s.taken.destroyRest ctx).cmdDone i 0 0)) ∧
  (∀ s i t op, Commanded s (.exportKeys i) i 2 (some t) op → s.taken.liveCtx (op 0) = true → t = (op 0).toNat →
    hostRange (op 1).toNat bundleLen = true → ∃ v : State, exec .exportKeys s = .next v ∧
      (v.ctx t).savecnt = savecntEnd ∧ (∀ p ∈ v.sessions, p.2.ctx ≠ t)) ∧
  (∀ s i t op b, Commanded s (.importKeys i) i 12 (some t) op → s.taken.liveCtx (op 11) = true →
    t = (op 11).toNat → (s.ctx t).made = true →
    openSealed (s.sessionOf i).mig (((List.range 11).flatMap fun j => toBytes 8 (op j).toNat).take bundleLen) = some b →
    exec .importKeys s = .next { (((s.taken.draw 8).2.modCtx t fun x => x.importBundle b (s.taken.draw 8).1).loadKey t) with
      tcstage := 1 + t }) ∧
  (∀ s i ctx, s.event = some (.importKeys i) → s.tcstage = 1 + ctx → s.keyIds.contains ctx = true →
    exec .importKeys s = .next (s.taken.cmdDone i 0 0))

/-- R383, R386 to R388, R393, R394, R398, R441: the trust core's commands on stiles, host windows, streams and reports.  A
command that is malformed completes with status 4, and one of a session that is not open with status 1.  Where the spec is
silent it states the model's choice (logs 102, 103, 106 and 110). -/
def Obligations.TrustRegistryCommands : Prop :=
  (∀ s i t op n, Commanded s (.grant i) i 2 (some t) op → (op 0).getLsbD 43 = false → (op 0).toNat % 2 ^ 16 = 0 →
    t = entCtx (op 0) → s.taken.liveCtx (op 1) = true → s.taken.grantOk t (op 1).toNat (op 0) = true → n < 4096 →
    (s.stiles.get n {}).live = false → (∀ m, m < n → (s.stiles.get m {}).live = true) →
    let x : StileEnt := { s.stiles.get n {} with
      live := true, content := op 0 ||| 0x8000000000000000, grantee := (op 1).toNat, mask := [] }
    exec .grant s = .next (({ s.taken with stiles := s.stiles.put n x } : State).cmdDone i 0 (x.handle s.stileKey n))) ∧
  (∀ s i t op e, Commanded s (.install i) i 3 (some t) op → (op 2).toNat ≤ 63 → s.taken.stile? (op 0) = some e →
    t = e.grantee → s.taken.hosts (op 1).toNat e.grantee = true →
    let m := 64 * (op 1).toNat + (op 2).toNat
    let x := { e with mask := if e.mask.contains m then e.mask else e.mask ++ [m] }
    exec .install s = .next ((({ s.taken with stiles := s.stiles.put (handleIdx (op 0)) x } : State).stileWrite (op 1).toNat
      (op 2).toNat e.content).cmdDone i 0 0)) ∧
  (∀ s i t op e, Commanded s (.revoke i) i 1 t op → s.taken.stile? (op 0) = some e →
    (∀ c, t = some c → c = entCtx e.content) →
    exec .revoke s = .next { s.taken.endStile (handleIdx (op 0)) with tcstage := 1 }) ∧
  (∀ s i, s.event = some (.revoke i) → s.tcstage ≠ 0 → s.taken.stilesCleared = true →
    exec .revoke s = .next (s.taken.cmdDone i 0 0)) ∧
  (∀ s i t op, Commanded s (.attest i) i 6 t op → s.taken.liveCtx (op 4) = true →
    (∀ c, t = some c → c = (op 4).toNat) → s.attLeaf ≠ 1024 ∨ (s.die (16 + s.primaryGw)).spent = false → hostRange (op 5).toNat (152 + Config.signatureLength.val) = true →
    ∃ v : State, exec .attest s = .next v ∧ v.attLeaf = (if s.attLeaf = 1024 then 1 else s.attLeaf + 1) ∧
      ∃ x, v.sessions.get? (cmdSess (((s.cmdWords i)[0]?).getD 0)) = some x ∧ x.ctx = (op 4).toNat) ∧
  (∀ s i op, Commanded s (.streamkey i) i 11 none op → (op 0).toNat ≤ 3 → (op 1).toNat ≤ 31 → (op 10).toNat ≤ 1 →
    (s.stream (op 0).toNat (op 1).toNat).oldrx = false → ∃ v : State, exec .streamkey s = .next (v.cmdDone i 0 0) ∧
      (v.stream (op 0).toNat (op 1).toNat).nkr = true ∧ (v.stream (op 0).toNat (op 1).toNat).held = []) ∧
  (∀ s i t op, Commanded s (.hostmap i) i 5 (some t) op → (op 0).toNat ≤ 15 → (op 1).toNat % 4096 = 0 →
    (op 2).toNat % 4096 = 0 → (op 3).toNat % 4096 = 0 → (op 4).toNat ≤ 1 →
    (∀ x, s.windows.get? (op 0).toNat = some x → x.ctx = t) →
    (op 2 = 0 → exec .hostmap s = .next (({ s.taken with windows := s.windows.del (op 0).toNat } : State).cmdDone i 0 0)) ∧
    (op 2 ≠ 0 → (∀ p ∈ s.windows, p.1 ≠ (op 0).toNat → p.2.meets (op 1).toNat (op 2).toNat = false) →
      let x : Window := { ctx := t, hb := (op 1).toNat, len := (op 2).toNat, vb := (op 3).toNat, rw := op 4 == 1 }
      exec .hostmap s = .next (({ s.taken with windows := s.windows.put (op 0).toNat x } : State).cmdDone i 0 0))) ∧
  (∀ (s : State) (i : Nat) (p : Instr × Event),
    p ∈ ([(.create, .create i), (.addcore, .addcore i), (.remcore, .remcore i), (.setquota, .setquota i), (.grant, .grant i),
      (.install, .install i), (.revoke, .revoke i), (.sharekey, .sharekey i), (.stop, .stop i), (.destroy, .destroy i),
      (.exportKeys, .exportKeys i), (.importKeys, .importKeys i), (.attest, .attest i), (.streamkey, .streamkey i),
      (.hostmap, .hostmap i)] : List (Instr × Event)) →
    s.event = some p.2 → s.tcstage = 0 →
    let w := ((s.cmdWords i)[0]?).getD 0
    (cmdBad w = true ∨ commandOf (cmdCode w) i ≠ some p.2 → exec p.1 s = .next (s.taken.cmdDone i 4 0)) ∧
    (cmdBad w = false → commandOf (cmdCode w) i = some p.2 → cmdTenant w = true → s.sessions.get? (cmdSess w) = none →
      exec p.1 s = .next (s.taken.cmdDone i 1 0)))

/-- R396, R436 to R440: alarms, monitors, bring-up and reset.  Where the spec is silent it states the model's choice
(logs 107 and 108). -/
def Obligations.DeviceSteps : Prop :=
  (∀ v, Does .healthClear (.healthClear v) (fun u => u.alarms.1 ≠ u.clock) (fun u => { u with health := u.health &&& ~~~(v &&& 0xD8) })) ∧
  (∀ v, Does .healthClear (.healthClear v) (fun u => u.alarms.1 = u.clock)
    (fun u => { u with health := u.health &&& ~~~(v &&& 0xD8 &&& ~~~u.alarms.2) })) ∧
  (∀ d v, Does .moncfgWrite (.moncfgWrite d v) (fun _ => v.toNat < 2 ^ 24 ∧ v.toNat % 16 = 0 ∧ v.toNat / 2 ^ 16 ≤ 110 ∧
      v.toNat / 2 ^ 8 % 2 ^ 8 < v.toNat / 2 ^ 16 ∧ 1 ≤ v.toNat / 16 % 16 ∧ v.toNat / 16 % 16 ≤ 8)
    (fun u => u.modDie d fun x => { x with moncfg := v })) ∧
  (∀ d v, Does .moncfgWrite (.moncfgWrite d v) (fun _ => ¬ (v.toNat < 2 ^ 24 ∧ v.toNat % 16 = 0 ∧ v.toNat / 2 ^ 16 ≤ 110 ∧
      v.toNat / 2 ^ 8 % 2 ^ 8 < v.toNat / 2 ^ 16 ∧ 1 ≤ v.toNat / 16 % 16 ∧ v.toNat / 16 % 16 ≤ 8))
    (fun u => u)) ∧
  (∀ d y, Does .thermalAlarm (.thermalAlarm d y) (fun u => (u.die d).moncfg.toNat / 2 ^ 8 % 2 ^ 8 ≤ y.temp)
    (fun u => (((u.modDie d fun x => x.sensed y).modDie d fun x => { x with thr := true }).alarm 4).thrBit)) ∧
  (∀ d y, Does .thermalTrip (.thermalTrip d y)
    (fun u => (u.die d).moncfg.toNat / 2 ^ 16 % 2 ^ 8 ≤ y.temp ∧ (u.die d).moncfg.toNat / 2 ^ 8 % 2 ^ 8 ≤ y.temp)
    (fun u => ((((u.modDie d fun x => x.sensed y).modDie d fun x => { x with thr := true }).alarm 4).thrBit).halt)) ∧
  (∀ d y, Does .throttleEnd (.throttleEnd d y) (fun _ => y.temp < 90)
    (fun u => ((u.modDie d fun x => x.sensed y).modDie d fun x => { x with thr := false }).thrBit)) ∧
  (∀ d p, Does .droop (.droop d p) always
    (fun u => ((u.pageAdd d 2 1).modCopse p fun x => { x with droopUntil := u.clock + 64 }).alarm 3)) ∧
  (∀ s, s.event = some .bringUp → ∃ t, exec .bringUp s = .next t ∧
    (Config.firmwareGood Config.romHash s.image = true → t.up = true ∧ t.health.getLsbD 2 = true ∧
      t.fwver = Config.firmwareVersion s.image ∧ t.copses = [] ∧
      (Memory.wf s.mem = true → ∀ a, localBase ≤ a → a < hostBase → memRead t.mem a = 0)) ∧
    (Config.firmwareGood Config.romHash s.image = false → t = { s.taken with fresh := s.fresh + 1 })) ∧
  (∀ i e, (i = .firmwareReload ∧ ∃ x, e = Event.firmwareReload x) ∨ (i = .powerCut ∧ e = Event.powerCut) → ∀ s, s.event = some e →
    ∃ t, exec i s = .next t ∧ t.cores = [] ∧ t.ctxs = [] ∧ t.health = 0 ∧ t.pending = [.bringUp] ∧
      (∀ d, (t.die d).leafEnd = (s.die d).leafEnd) ∧
      (∀ d, (t.die d).leaf = if i = .powerCut then (s.die d).leafEnd else (s.die d).leaf))
end

