-- ==== Sys2Proof/Laws/State.lean ====
section
/-!
SUPPORT. What each update of the state changes and what it leaves: one lemma for each field of each update, and what
the accessors read after an update.
-/

-- The proofs run one after another, so that the whole package compiles within the memory a check allows.
set_option Elab.async false

namespace Sys2Proof.Machine
open Sys2Proof

/-! ### Sparse maps -/

theorem SMap.get?_put_self {α : Type} (m : SMap α) (a : Nat) (v : α) : (m.put a v).get? a = some v := by
  induction m with
  | nil => simp [SMap.put, SMap.get?]
  | cons x rest ih =>
    obtain ⟨k, w⟩ := x
    simp only [SMap.put]
    split
    · simp [SMap.get?]
    · split
      · simp [SMap.get?]
      · rename_i h1 h2
        simp only [SMap.get?, if_neg h1, if_neg h2]
        exact ih

theorem SMap.get?_put_ne {α : Type} (m : SMap α) {a b : Nat} (v : α) (h : b ≠ a) : (m.put a v).get? b = m.get? b := by
  induction m with
  | nil => simp [SMap.put, SMap.get?, show ¬ a = b from fun e => h e.symm]
  | cons x rest ih =>
    obtain ⟨k, w⟩ := x
    simp only [SMap.put]
    split
    · rename_i hk
      have hk : k = a := by simpa using hk
      subst hk
      simp [SMap.get?, show ¬ k = b from fun e => h e.symm]
    · split
      · rename_i h1 h2
        simp only [SMap.get?, beq_iff_eq, show ¬ a = b from fun e => h e.symm, if_false]
        by_cases hb : b < a
        · rw [if_pos hb, if_neg (by omega), if_pos (by omega)]
        · rw [if_neg hb]
      · simp only [SMap.get?, ih]

@[simp] theorem SMap.get_put_self {α : Type} (m : SMap α) (a : Nat) (v d : α) : (m.put a v).get a d = v := by
  simp [SMap.get, SMap.get?_put_self]

theorem SMap.get_put_ne {α : Type} (m : SMap α) {a b : Nat} (v d : α) (h : b ≠ a) : (m.put a v).get b d = m.get b d := by
  simp [SMap.get, SMap.get?_put_ne m v h]

/-! ### Accessors after updates -/

@[simp] theorem State.core_setCore_self (s : State) (c : Nat) (k : Core) : (s.setCore c k).core c = k := by
  simp [State.core, State.setCore]
theorem State.core_setCore_ne (s : State) {c d : Nat} (k : Core) (h : d ≠ c) : (s.setCore c k).core d = s.core d := by
  simp [State.core, State.setCore, SMap.get_put_ne _ _ _ h]
@[simp] theorem State.copse_setCopse_self (s : State) (i : Nat) (x : Copse) : (s.setCopse i x).copse i = x := by
  simp [State.copse, State.setCopse]
theorem State.copse_setCopse_ne (s : State) {i j : Nat} (x : Copse) (h : j ≠ i) :
    (s.setCopse i x).copse j = s.copse j := by simp [State.copse, State.setCopse, SMap.get_put_ne _ _ _ h]
@[simp] theorem State.ctx_setCtx_self (s : State) (i : Nat) (x : Ctx) : (s.setCtx i x).ctx i = x := by
  simp [State.ctx, State.setCtx]
theorem State.ctx_setCtx_ne (s : State) {i j : Nat} (x : Ctx) (h : j ≠ i) : (s.setCtx i x).ctx j = s.ctx j := by
  simp [State.ctx, State.setCtx, SMap.get_put_ne _ _ _ h]
@[simp] theorem State.die_setDie_self (s : State) (i : Nat) (x : Die) : (s.setDie i x).die i = x := by
  simp [State.die, State.setDie]
theorem State.die_setDie_ne (s : State) {i j : Nat} (x : Die) (h : j ≠ i) : (s.setDie i x).die j = s.die j := by
  simp [State.die, State.setDie, SMap.get_put_ne _ _ _ h]
@[simp] theorem State.gw_setGw_self (s : State) (i : Nat) (x : Gateway) : (s.setGw i x).gw i = x := by
  simp [State.gw, State.setGw]
theorem State.gw_setGw_ne (s : State) {i j : Nat} (x : Gateway) (h : j ≠ i) : (s.setGw i x).gw j = s.gw j := by
  simp [State.gw, State.setGw, SMap.get_put_ne _ _ _ h]
@[simp] theorem State.sector_setSector_self (s : State) (i : Nat) (x : Sector) : (s.setSector i x).sector i = x := by
  simp [State.sector, State.setSector]
theorem State.sector_setSector_ne (s : State) {i j : Nat} (x : Sector) (h : j ≠ i) :
    (s.setSector i x).sector j = s.sector j := by simp [State.sector, State.setSector, SMap.get_put_ne _ _ _ h]

@[simp] theorem State.core_modCore_self (s : State) (c : Nat) (f : Core → Core) : (s.modCore c f).core c = f (s.core c) := by
  simp [State.modCore]
theorem State.core_modCore_ne (s : State) {c d : Nat} (f : Core → Core) (h : d ≠ c) : (s.modCore c f).core d = s.core d :=
  State.core_setCore_ne s _ h

@[simp] theorem Core.slot_setSlot_self (k : Core) {i : Nat} (x : Slot) (h : i < 8) : (k.setSlot i x).slot i = x := by
  simp [Core.slot, Core.setSlot, h]
theorem Core.slot_setSlot_ne (k : Core) {i j : Nat} (x : Slot) (h : j ≠ i) : (k.setSlot i x).slot j = k.slot j := by
  simp only [Core.slot, Core.setSlot]
  rw [Vector.getElem?_setIfInBounds_ne (Ne.symm h)]

@[simp] theorem State.slot_setSlot_self (s : State) (c : Nat) {i : Nat} (x : Slot) (h : i < 8) :
    (s.setSlot c i x).slot c i = x := by simp [State.slot, State.setSlot, h]
@[simp] theorem State.slot_modSlot_self (s : State) (c : Nat) {i : Nat} (f : Slot → Slot) (h : i < 8) :
    (s.modSlot c i f).slot c i = f (s.slot c i) := by simp [State.modSlot, h]
theorem State.slot_setSlot_ne (s : State) {c i d j : Nat} (x : Slot) (h : d ≠ c ∨ j ≠ i) :
    (s.setSlot c i x).slot d j = s.slot d j := by
  by_cases hd : d = c
  · subst hd
    have hj : j ≠ i := by rcases h with h | h <;> simp_all
    simp [State.slot, State.setSlot, Core.slot_setSlot_ne _ _ hj]
  · simp [State.slot, State.setSlot, State.core_setCore_ne _ _ hd]
theorem State.slot_modSlot_ne (s : State) {c i d j : Nat} (f : Slot → Slot) (h : d ≠ c ∨ j ≠ i) :
    (s.modSlot c i f).slot d j = s.slot d j := State.slot_setSlot_ne s _ h

@[simp] theorem State.flight_setFlight_self (s : State) (c : Nat) {i : Nat} (f : Flight) (h : i < 8) :
    (s.setFlight c i f).flight c i = some f := by simp [State.flight, State.setFlight, h]

/-! ### setCore -/

@[simp] theorem State.setCore_clock (s : State) (c : Nat) (k : Core) : (s.setCore c k).clock = s.clock := rfl
@[simp] theorem State.setCore_now (s : State) (c : Nat) (k : Core) : (s.setCore c k).now = s.now := rfl
@[simp] theorem State.setCore_issued (s : State) (c : Nat) (k : Core) : (s.setCore c k).issued = s.issued := rfl
@[simp] theorem State.setCore_scrubs (s : State) (c : Nat) (k : Core) : (s.setCore c k).scrubs = s.scrubs := rfl
@[simp] theorem State.setCore_errlogs (s : State) (c : Nat) (k : Core) : (s.setCore c k).errlogs = s.errlogs := rfl
@[simp] theorem State.setCore_tclog (s : State) (c : Nat) (k : Core) : (s.setCore c k).tclog = s.tclog := rfl
@[simp] theorem State.setCore_linkDead (s : State) (c : Nat) (k : Core) : (s.setCore c k).linkDead = s.linkDead := rfl
@[simp] theorem State.setCore_fresh (s : State) (c : Nat) (k : Core) : (s.setCore c k).fresh = s.fresh := rfl
@[simp] theorem State.setCore_turn (s : State) (c : Nat) (k : Core) : (s.setCore c k).turn = s.turn := rfl
@[simp] theorem State.setCore_event (s : State) (c : Nat) (k : Core) : (s.setCore c k).event = s.event := rfl
@[simp] theorem State.setCore_inputs (s : State) (c : Nat) (k : Core) : (s.setCore c k).inputs = s.inputs := rfl
@[simp] theorem State.setCore_pending (s : State) (c : Nat) (k : Core) : (s.setCore c k).pending = s.pending := rfl
@[simp] theorem State.setCore_mem (s : State) (c : Nat) (k : Core) : (s.setCore c k).mem = s.mem := rfl
@[simp] theorem State.setCore_secs (s : State) (c : Nat) (k : Core) : (s.setCore c k).secs = s.secs := rfl
@[simp] theorem State.setCore_resvs (s : State) (c : Nat) (k : Core) : (s.setCore c k).resvs = s.resvs := rfl
@[simp] theorem State.setCore_revokes (s : State) (c : Nat) (k : Core) : (s.setCore c k).revokes = s.revokes := rfl
@[simp] theorem State.setCore_joins (s : State) (c : Nat) (k : Core) : (s.setCore c k).joins = s.joins := rfl
@[simp] theorem State.setCore_recents (s : State) (c : Nat) (k : Core) : (s.setCore c k).recents = s.recents := rfl
@[simp] theorem State.setCore_lastAt (s : State) (c : Nat) (k : Core) : (s.setCore c k).lastAt = s.lastAt := rfl
@[simp] theorem State.setCore_ricksrc (s : State) (c : Nat) (k : Core) : (s.setCore c k).ricksrc = s.ricksrc := rfl
@[simp] theorem State.setCore_pcache (s : State) (c : Nat) (k : Core) : (s.setCore c k).pcache = s.pcache := rfl
@[simp] theorem State.setCore_cores (s : State) (c : Nat) (k : Core) : (s.setCore c k).cores = s.cores.put c k := rfl
@[simp] theorem State.setCore_copses (s : State) (c : Nat) (k : Core) : (s.setCore c k).copses = s.copses := rfl
@[simp] theorem State.setCore_ctxs (s : State) (c : Nat) (k : Core) : (s.setCore c k).ctxs = s.ctxs := rfl
@[simp] theorem State.setCore_dies (s : State) (c : Nat) (k : Core) : (s.setCore c k).dies = s.dies := rfl
@[simp] theorem State.setCore_gws (s : State) (c : Nat) (k : Core) : (s.setCore c k).gws = s.gws := rfl
@[simp] theorem State.setCore_flocks (s : State) (c : Nat) (k : Core) : (s.setCore c k).flocks = s.flocks := rfl
@[simp] theorem State.setCore_flits (s : State) (c : Nat) (k : Core) : (s.setCore c k).flits = s.flits := rfl
@[simp] theorem State.setCore_walks (s : State) (c : Nat) (k : Core) : (s.setCore c k).walks = s.walks := rfl
@[simp] theorem State.setCore_ops (s : State) (c : Nat) (k : Core) : (s.setCore c k).ops = s.ops := rfl
@[simp] theorem State.setCore_nextId (s : State) (c : Nat) (k : Core) : (s.setCore c k).nextId = s.nextId := rfl
@[simp] theorem State.setCore_health (s : State) (c : Nat) (k : Core) : (s.setCore c k).health = s.health := rfl
@[simp] theorem State.setCore_alarms (s : State) (c : Nat) (k : Core) : (s.setCore c k).alarms = s.alarms := rfl
@[simp] theorem State.setCore_poolcap (s : State) (c : Nat) (k : Core) : (s.setCore c k).poolcap = s.poolcap := rfl
@[simp] theorem State.setCore_hpool (s : State) (c : Nat) (k : Core) : (s.setCore c k).hpool = s.hpool := rfl
@[simp] theorem State.setCore_spread (s : State) (c : Nat) (k : Core) : (s.setCore c k).spread = s.spread := rfl
@[simp] theorem State.setCore_dhome (s : State) (c : Nat) (k : Core) : (s.setCore c k).dhome = s.dhome := rfl
@[simp] theorem State.setCore_pccfg (s : State) (c : Nat) (k : Core) : (s.setCore c k).pccfg = s.pccfg := rfl
@[simp] theorem State.setCore_nroute (s : State) (c : Nat) (k : Core) : (s.setCore c k).nroute = s.nroute := rfl
@[simp] theorem State.setCore_fwver (s : State) (c : Nat) (k : Core) : (s.setCore c k).fwver = s.fwver := rfl
@[simp] theorem State.setCore_image (s : State) (c : Nat) (k : Core) : (s.setCore c k).image = s.image := rfl
@[simp] theorem State.setCore_cmds (s : State) (c : Nat) (k : Core) : (s.setCore c k).cmds = s.cmds := rfl
@[simp] theorem State.setCore_tcqst (s : State) (c : Nat) (k : Core) : (s.setCore c k).tcqst = s.tcqst := rfl
@[simp] theorem State.setCore_tcq (s : State) (c : Nat) (k : Core) : (s.setCore c k).tcq = s.tcq := rfl
@[simp] theorem State.setCore_tcstage (s : State) (c : Nat) (k : Core) : (s.setCore c k).tcstage = s.tcstage := rfl
@[simp] theorem State.setCore_tcmsgs (s : State) (c : Nat) (k : Core) : (s.setCore c k).tcmsgs = s.tcmsgs := rfl
@[simp] theorem State.setCore_stileKey (s : State) (c : Nat) (k : Core) : (s.setCore c k).stileKey = s.stileKey := rfl
@[simp] theorem State.setCore_sharedKx (s : State) (c : Nat) (k : Core) : (s.setCore c k).sharedKx = s.sharedKx := rfl
@[simp] theorem State.setCore_shareAsk (s : State) (c : Nat) (k : Core) : (s.setCore c k).shareAsk = s.shareAsk := rfl
@[simp] theorem State.setCore_stiles (s : State) (c : Nat) (k : Core) : (s.setCore c k).stiles = s.stiles := rfl
@[simp] theorem State.setCore_shared (s : State) (c : Nat) (k : Core) : (s.setCore c k).shared = s.shared := rfl
@[simp] theorem State.setCore_keyIds (s : State) (c : Nat) (k : Core) : (s.setCore c k).keyIds = s.keyIds := rfl
@[simp] theorem State.setCore_sessions (s : State) (c : Nat) (k : Core) : (s.setCore c k).sessions = s.sessions := rfl
@[simp] theorem State.setCore_attLeaf (s : State) (c : Nat) (k : Core) : (s.setCore c k).attLeaf = s.attLeaf := rfl
@[simp] theorem State.setCore_attKey (s : State) (c : Nat) (k : Core) : (s.setCore c k).attKey = s.attKey := rfl
@[simp] theorem State.setCore_windows (s : State) (c : Nat) (k : Core) : (s.setCore c k).windows = s.windows := rfl
@[simp] theorem State.setCore_sent (s : State) (c : Nat) (k : Core) : (s.setCore c k).sent = s.sent := rfl
@[simp] theorem State.setCore_precopy (s : State) (c : Nat) (k : Core) : (s.setCore c k).precopy = s.precopy := rfl
@[simp] theorem State.setCore_preAt (s : State) (c : Nat) (k : Core) : (s.setCore c k).preAt = s.preAt := rfl
@[simp] theorem State.setCore_colls (s : State) (c : Nat) (k : Core) : (s.setCore c k).colls = s.colls := rfl
@[simp] theorem State.setCore_linkBad (s : State) (c : Nat) (k : Core) : (s.setCore c k).linkBad = s.linkBad := rfl
@[simp] theorem State.setCore_linkSeq (s : State) (c : Nat) (k : Core) : (s.setCore c k).linkSeq = s.linkSeq := rfl
@[simp] theorem State.setCore_stopped (s : State) (c : Nat) (k : Core) : (s.setCore c k).stopped = s.stopped := rfl
@[simp] theorem State.setCore_up (s : State) (c : Nat) (k : Core) : (s.setCore c k).up = s.up := rfl

/-! ### modCore -/

@[simp] theorem State.modCore_clock (s : State) (c : Nat) (f : Core → Core) : (s.modCore c f).clock = s.clock := rfl
@[simp] theorem State.modCore_now (s : State) (c : Nat) (f : Core → Core) : (s.modCore c f).now = s.now := rfl
@[simp] theorem State.modCore_issued (s : State) (c : Nat) (f : Core → Core) : (s.modCore c f).issued = s.issued := rfl
@[simp] theorem State.modCore_scrubs (s : State) (c : Nat) (f : Core → Core) : (s.modCore c f).scrubs = s.scrubs := rfl
@[simp] theorem State.modCore_errlogs (s : State) (c : Nat) (f : Core → Core) : (s.modCore c f).errlogs = s.errlogs := rfl
@[simp] theorem State.modCore_tclog (s : State) (c : Nat) (f : Core → Core) : (s.modCore c f).tclog = s.tclog := rfl
@[simp] theorem State.modCore_linkDead (s : State) (c : Nat) (f : Core → Core) : (s.modCore c f).linkDead = s.linkDead := rfl
@[simp] theorem State.modCore_fresh (s : State) (c : Nat) (f : Core → Core) : (s.modCore c f).fresh = s.fresh := rfl
@[simp] theorem State.modCore_turn (s : State) (c : Nat) (f : Core → Core) : (s.modCore c f).turn = s.turn := rfl
@[simp] theorem State.modCore_event (s : State) (c : Nat) (f : Core → Core) : (s.modCore c f).event = s.event := rfl
@[simp] theorem State.modCore_inputs (s : State) (c : Nat) (f : Core → Core) : (s.modCore c f).inputs = s.inputs := rfl
@[simp] theorem State.modCore_pending (s : State) (c : Nat) (f : Core → Core) : (s.modCore c f).pending = s.pending := rfl
@[simp] theorem State.modCore_mem (s : State) (c : Nat) (f : Core → Core) : (s.modCore c f).mem = s.mem := rfl
@[simp] theorem State.modCore_secs (s : State) (c : Nat) (f : Core → Core) : (s.modCore c f).secs = s.secs := rfl
@[simp] theorem State.modCore_resvs (s : State) (c : Nat) (f : Core → Core) : (s.modCore c f).resvs = s.resvs := rfl
@[simp] theorem State.modCore_revokes (s : State) (c : Nat) (f : Core → Core) : (s.modCore c f).revokes = s.revokes := rfl
@[simp] theorem State.modCore_joins (s : State) (c : Nat) (f : Core → Core) : (s.modCore c f).joins = s.joins := rfl
@[simp] theorem State.modCore_recents (s : State) (c : Nat) (f : Core → Core) : (s.modCore c f).recents = s.recents := rfl
@[simp] theorem State.modCore_lastAt (s : State) (c : Nat) (f : Core → Core) : (s.modCore c f).lastAt = s.lastAt := rfl
@[simp] theorem State.modCore_ricksrc (s : State) (c : Nat) (f : Core → Core) : (s.modCore c f).ricksrc = s.ricksrc := rfl
@[simp] theorem State.modCore_pcache (s : State) (c : Nat) (f : Core → Core) : (s.modCore c f).pcache = s.pcache := rfl
@[simp] theorem State.modCore_copses (s : State) (c : Nat) (f : Core → Core) : (s.modCore c f).copses = s.copses := rfl
@[simp] theorem State.modCore_ctxs (s : State) (c : Nat) (f : Core → Core) : (s.modCore c f).ctxs = s.ctxs := rfl
@[simp] theorem State.modCore_dies (s : State) (c : Nat) (f : Core → Core) : (s.modCore c f).dies = s.dies := rfl
@[simp] theorem State.modCore_gws (s : State) (c : Nat) (f : Core → Core) : (s.modCore c f).gws = s.gws := rfl
@[simp] theorem State.modCore_flocks (s : State) (c : Nat) (f : Core → Core) : (s.modCore c f).flocks = s.flocks := rfl
@[simp] theorem State.modCore_flits (s : State) (c : Nat) (f : Core → Core) : (s.modCore c f).flits = s.flits := rfl
@[simp] theorem State.modCore_walks (s : State) (c : Nat) (f : Core → Core) : (s.modCore c f).walks = s.walks := rfl
@[simp] theorem State.modCore_ops (s : State) (c : Nat) (f : Core → Core) : (s.modCore c f).ops = s.ops := rfl
@[simp] theorem State.modCore_nextId (s : State) (c : Nat) (f : Core → Core) : (s.modCore c f).nextId = s.nextId := rfl
@[simp] theorem State.modCore_health (s : State) (c : Nat) (f : Core → Core) : (s.modCore c f).health = s.health := rfl
@[simp] theorem State.modCore_alarms (s : State) (c : Nat) (f : Core → Core) : (s.modCore c f).alarms = s.alarms := rfl
@[simp] theorem State.modCore_poolcap (s : State) (c : Nat) (f : Core → Core) : (s.modCore c f).poolcap = s.poolcap := rfl
@[simp] theorem State.modCore_hpool (s : State) (c : Nat) (f : Core → Core) : (s.modCore c f).hpool = s.hpool := rfl
@[simp] theorem State.modCore_spread (s : State) (c : Nat) (f : Core → Core) : (s.modCore c f).spread = s.spread := rfl
@[simp] theorem State.modCore_dhome (s : State) (c : Nat) (f : Core → Core) : (s.modCore c f).dhome = s.dhome := rfl
@[simp] theorem State.modCore_pccfg (s : State) (c : Nat) (f : Core → Core) : (s.modCore c f).pccfg = s.pccfg := rfl
@[simp] theorem State.modCore_nroute (s : State) (c : Nat) (f : Core → Core) : (s.modCore c f).nroute = s.nroute := rfl
@[simp] theorem State.modCore_fwver (s : State) (c : Nat) (f : Core → Core) : (s.modCore c f).fwver = s.fwver := rfl
@[simp] theorem State.modCore_image (s : State) (c : Nat) (f : Core → Core) : (s.modCore c f).image = s.image := rfl
@[simp] theorem State.modCore_cmds (s : State) (c : Nat) (f : Core → Core) : (s.modCore c f).cmds = s.cmds := rfl
@[simp] theorem State.modCore_tcqst (s : State) (c : Nat) (f : Core → Core) : (s.modCore c f).tcqst = s.tcqst := rfl
@[simp] theorem State.modCore_tcq (s : State) (c : Nat) (f : Core → Core) : (s.modCore c f).tcq = s.tcq := rfl
@[simp] theorem State.modCore_tcstage (s : State) (c : Nat) (f : Core → Core) : (s.modCore c f).tcstage = s.tcstage := rfl
@[simp] theorem State.modCore_tcmsgs (s : State) (c : Nat) (f : Core → Core) : (s.modCore c f).tcmsgs = s.tcmsgs := rfl
@[simp] theorem State.modCore_stileKey (s : State) (c : Nat) (f : Core → Core) : (s.modCore c f).stileKey = s.stileKey := rfl
@[simp] theorem State.modCore_sharedKx (s : State) (c : Nat) (f : Core → Core) : (s.modCore c f).sharedKx = s.sharedKx := rfl
@[simp] theorem State.modCore_shareAsk (s : State) (c : Nat) (f : Core → Core) : (s.modCore c f).shareAsk = s.shareAsk := rfl
@[simp] theorem State.modCore_stiles (s : State) (c : Nat) (f : Core → Core) : (s.modCore c f).stiles = s.stiles := rfl
@[simp] theorem State.modCore_shared (s : State) (c : Nat) (f : Core → Core) : (s.modCore c f).shared = s.shared := rfl
@[simp] theorem State.modCore_keyIds (s : State) (c : Nat) (f : Core → Core) : (s.modCore c f).keyIds = s.keyIds := rfl
@[simp] theorem State.modCore_sessions (s : State) (c : Nat) (f : Core → Core) : (s.modCore c f).sessions = s.sessions := rfl
@[simp] theorem State.modCore_attLeaf (s : State) (c : Nat) (f : Core → Core) : (s.modCore c f).attLeaf = s.attLeaf := rfl
@[simp] theorem State.modCore_attKey (s : State) (c : Nat) (f : Core → Core) : (s.modCore c f).attKey = s.attKey := rfl
@[simp] theorem State.modCore_windows (s : State) (c : Nat) (f : Core → Core) : (s.modCore c f).windows = s.windows := rfl
@[simp] theorem State.modCore_sent (s : State) (c : Nat) (f : Core → Core) : (s.modCore c f).sent = s.sent := rfl
@[simp] theorem State.modCore_precopy (s : State) (c : Nat) (f : Core → Core) : (s.modCore c f).precopy = s.precopy := rfl
@[simp] theorem State.modCore_preAt (s : State) (c : Nat) (f : Core → Core) : (s.modCore c f).preAt = s.preAt := rfl
@[simp] theorem State.modCore_colls (s : State) (c : Nat) (f : Core → Core) : (s.modCore c f).colls = s.colls := rfl
@[simp] theorem State.modCore_linkBad (s : State) (c : Nat) (f : Core → Core) : (s.modCore c f).linkBad = s.linkBad := rfl
@[simp] theorem State.modCore_linkSeq (s : State) (c : Nat) (f : Core → Core) : (s.modCore c f).linkSeq = s.linkSeq := rfl
@[simp] theorem State.modCore_stopped (s : State) (c : Nat) (f : Core → Core) : (s.modCore c f).stopped = s.stopped := rfl
@[simp] theorem State.modCore_up (s : State) (c : Nat) (f : Core → Core) : (s.modCore c f).up = s.up := rfl

/-! ### setSlot -/

@[simp] theorem State.setSlot_clock (s : State) (c i : Nat) (x : Slot) : (s.setSlot c i x).clock = s.clock := rfl
@[simp] theorem State.setSlot_now (s : State) (c i : Nat) (x : Slot) : (s.setSlot c i x).now = s.now := rfl
@[simp] theorem State.setSlot_issued (s : State) (c i : Nat) (x : Slot) : (s.setSlot c i x).issued = s.issued := rfl
@[simp] theorem State.setSlot_scrubs (s : State) (c i : Nat) (x : Slot) : (s.setSlot c i x).scrubs = s.scrubs := rfl
@[simp] theorem State.setSlot_errlogs (s : State) (c i : Nat) (x : Slot) : (s.setSlot c i x).errlogs = s.errlogs := rfl
@[simp] theorem State.setSlot_tclog (s : State) (c i : Nat) (x : Slot) : (s.setSlot c i x).tclog = s.tclog := rfl
@[simp] theorem State.setSlot_linkDead (s : State) (c i : Nat) (x : Slot) : (s.setSlot c i x).linkDead = s.linkDead := rfl
@[simp] theorem State.setSlot_fresh (s : State) (c i : Nat) (x : Slot) : (s.setSlot c i x).fresh = s.fresh := rfl
@[simp] theorem State.setSlot_turn (s : State) (c i : Nat) (x : Slot) : (s.setSlot c i x).turn = s.turn := rfl
@[simp] theorem State.setSlot_event (s : State) (c i : Nat) (x : Slot) : (s.setSlot c i x).event = s.event := rfl
@[simp] theorem State.setSlot_inputs (s : State) (c i : Nat) (x : Slot) : (s.setSlot c i x).inputs = s.inputs := rfl
@[simp] theorem State.setSlot_pending (s : State) (c i : Nat) (x : Slot) : (s.setSlot c i x).pending = s.pending := rfl
@[simp] theorem State.setSlot_mem (s : State) (c i : Nat) (x : Slot) : (s.setSlot c i x).mem = s.mem := rfl
@[simp] theorem State.setSlot_secs (s : State) (c i : Nat) (x : Slot) : (s.setSlot c i x).secs = s.secs := rfl
@[simp] theorem State.setSlot_resvs (s : State) (c i : Nat) (x : Slot) : (s.setSlot c i x).resvs = s.resvs := rfl
@[simp] theorem State.setSlot_revokes (s : State) (c i : Nat) (x : Slot) : (s.setSlot c i x).revokes = s.revokes := rfl
@[simp] theorem State.setSlot_joins (s : State) (c i : Nat) (x : Slot) : (s.setSlot c i x).joins = s.joins := rfl
@[simp] theorem State.setSlot_recents (s : State) (c i : Nat) (x : Slot) : (s.setSlot c i x).recents = s.recents := rfl
@[simp] theorem State.setSlot_lastAt (s : State) (c i : Nat) (x : Slot) : (s.setSlot c i x).lastAt = s.lastAt := rfl
@[simp] theorem State.setSlot_ricksrc (s : State) (c i : Nat) (x : Slot) : (s.setSlot c i x).ricksrc = s.ricksrc := rfl
@[simp] theorem State.setSlot_pcache (s : State) (c i : Nat) (x : Slot) : (s.setSlot c i x).pcache = s.pcache := rfl
@[simp] theorem State.setSlot_copses (s : State) (c i : Nat) (x : Slot) : (s.setSlot c i x).copses = s.copses := rfl
@[simp] theorem State.setSlot_ctxs (s : State) (c i : Nat) (x : Slot) : (s.setSlot c i x).ctxs = s.ctxs := rfl
@[simp] theorem State.setSlot_dies (s : State) (c i : Nat) (x : Slot) : (s.setSlot c i x).dies = s.dies := rfl
@[simp] theorem State.setSlot_gws (s : State) (c i : Nat) (x : Slot) : (s.setSlot c i x).gws = s.gws := rfl
@[simp] theorem State.setSlot_flocks (s : State) (c i : Nat) (x : Slot) : (s.setSlot c i x).flocks = s.flocks := rfl
@[simp] theorem State.setSlot_flits (s : State) (c i : Nat) (x : Slot) : (s.setSlot c i x).flits = s.flits := rfl
@[simp] theorem State.setSlot_walks (s : State) (c i : Nat) (x : Slot) : (s.setSlot c i x).walks = s.walks := rfl
@[simp] theorem State.setSlot_ops (s : State) (c i : Nat) (x : Slot) : (s.setSlot c i x).ops = s.ops := rfl
@[simp] theorem State.setSlot_nextId (s : State) (c i : Nat) (x : Slot) : (s.setSlot c i x).nextId = s.nextId := rfl
@[simp] theorem State.setSlot_health (s : State) (c i : Nat) (x : Slot) : (s.setSlot c i x).health = s.health := rfl
@[simp] theorem State.setSlot_alarms (s : State) (c i : Nat) (x : Slot) : (s.setSlot c i x).alarms = s.alarms := rfl
@[simp] theorem State.setSlot_poolcap (s : State) (c i : Nat) (x : Slot) : (s.setSlot c i x).poolcap = s.poolcap := rfl
@[simp] theorem State.setSlot_hpool (s : State) (c i : Nat) (x : Slot) : (s.setSlot c i x).hpool = s.hpool := rfl
@[simp] theorem State.setSlot_spread (s : State) (c i : Nat) (x : Slot) : (s.setSlot c i x).spread = s.spread := rfl
@[simp] theorem State.setSlot_dhome (s : State) (c i : Nat) (x : Slot) : (s.setSlot c i x).dhome = s.dhome := rfl
@[simp] theorem State.setSlot_pccfg (s : State) (c i : Nat) (x : Slot) : (s.setSlot c i x).pccfg = s.pccfg := rfl
@[simp] theorem State.setSlot_nroute (s : State) (c i : Nat) (x : Slot) : (s.setSlot c i x).nroute = s.nroute := rfl
@[simp] theorem State.setSlot_fwver (s : State) (c i : Nat) (x : Slot) : (s.setSlot c i x).fwver = s.fwver := rfl
@[simp] theorem State.setSlot_image (s : State) (c i : Nat) (x : Slot) : (s.setSlot c i x).image = s.image := rfl
@[simp] theorem State.setSlot_cmds (s : State) (c i : Nat) (x : Slot) : (s.setSlot c i x).cmds = s.cmds := rfl
@[simp] theorem State.setSlot_tcqst (s : State) (c i : Nat) (x : Slot) : (s.setSlot c i x).tcqst = s.tcqst := rfl
@[simp] theorem State.setSlot_tcq (s : State) (c i : Nat) (x : Slot) : (s.setSlot c i x).tcq = s.tcq := rfl
@[simp] theorem State.setSlot_tcstage (s : State) (c i : Nat) (x : Slot) : (s.setSlot c i x).tcstage = s.tcstage := rfl
@[simp] theorem State.setSlot_tcmsgs (s : State) (c i : Nat) (x : Slot) : (s.setSlot c i x).tcmsgs = s.tcmsgs := rfl
@[simp] theorem State.setSlot_stileKey (s : State) (c i : Nat) (x : Slot) : (s.setSlot c i x).stileKey = s.stileKey := rfl
@[simp] theorem State.setSlot_sharedKx (s : State) (c i : Nat) (x : Slot) : (s.setSlot c i x).sharedKx = s.sharedKx := rfl
@[simp] theorem State.setSlot_shareAsk (s : State) (c i : Nat) (x : Slot) : (s.setSlot c i x).shareAsk = s.shareAsk := rfl
@[simp] theorem State.setSlot_stiles (s : State) (c i : Nat) (x : Slot) : (s.setSlot c i x).stiles = s.stiles := rfl
@[simp] theorem State.setSlot_shared (s : State) (c i : Nat) (x : Slot) : (s.setSlot c i x).shared = s.shared := rfl
@[simp] theorem State.setSlot_keyIds (s : State) (c i : Nat) (x : Slot) : (s.setSlot c i x).keyIds = s.keyIds := rfl
@[simp] theorem State.setSlot_sessions (s : State) (c i : Nat) (x : Slot) : (s.setSlot c i x).sessions = s.sessions := rfl
@[simp] theorem State.setSlot_attLeaf (s : State) (c i : Nat) (x : Slot) : (s.setSlot c i x).attLeaf = s.attLeaf := rfl
@[simp] theorem State.setSlot_attKey (s : State) (c i : Nat) (x : Slot) : (s.setSlot c i x).attKey = s.attKey := rfl
@[simp] theorem State.setSlot_windows (s : State) (c i : Nat) (x : Slot) : (s.setSlot c i x).windows = s.windows := rfl
@[simp] theorem State.setSlot_sent (s : State) (c i : Nat) (x : Slot) : (s.setSlot c i x).sent = s.sent := rfl
@[simp] theorem State.setSlot_precopy (s : State) (c i : Nat) (x : Slot) : (s.setSlot c i x).precopy = s.precopy := rfl
@[simp] theorem State.setSlot_preAt (s : State) (c i : Nat) (x : Slot) : (s.setSlot c i x).preAt = s.preAt := rfl
@[simp] theorem State.setSlot_colls (s : State) (c i : Nat) (x : Slot) : (s.setSlot c i x).colls = s.colls := rfl
@[simp] theorem State.setSlot_linkBad (s : State) (c i : Nat) (x : Slot) : (s.setSlot c i x).linkBad = s.linkBad := rfl
@[simp] theorem State.setSlot_linkSeq (s : State) (c i : Nat) (x : Slot) : (s.setSlot c i x).linkSeq = s.linkSeq := rfl
@[simp] theorem State.setSlot_stopped (s : State) (c i : Nat) (x : Slot) : (s.setSlot c i x).stopped = s.stopped := rfl
@[simp] theorem State.setSlot_up (s : State) (c i : Nat) (x : Slot) : (s.setSlot c i x).up = s.up := rfl

/-! ### modSlot -/

@[simp] theorem State.modSlot_clock (s : State) (c i : Nat) (f : Slot → Slot) : (s.modSlot c i f).clock = s.clock := rfl
@[simp] theorem State.modSlot_now (s : State) (c i : Nat) (f : Slot → Slot) : (s.modSlot c i f).now = s.now := rfl
@[simp] theorem State.modSlot_issued (s : State) (c i : Nat) (f : Slot → Slot) : (s.modSlot c i f).issued = s.issued := rfl
@[simp] theorem State.modSlot_scrubs (s : State) (c i : Nat) (f : Slot → Slot) : (s.modSlot c i f).scrubs = s.scrubs := rfl
@[simp] theorem State.modSlot_errlogs (s : State) (c i : Nat) (f : Slot → Slot) : (s.modSlot c i f).errlogs = s.errlogs := rfl
@[simp] theorem State.modSlot_tclog (s : State) (c i : Nat) (f : Slot → Slot) : (s.modSlot c i f).tclog = s.tclog := rfl
@[simp] theorem State.modSlot_linkDead (s : State) (c i : Nat) (f : Slot → Slot) : (s.modSlot c i f).linkDead = s.linkDead := rfl
@[simp] theorem State.modSlot_fresh (s : State) (c i : Nat) (f : Slot → Slot) : (s.modSlot c i f).fresh = s.fresh := rfl
@[simp] theorem State.modSlot_turn (s : State) (c i : Nat) (f : Slot → Slot) : (s.modSlot c i f).turn = s.turn := rfl
@[simp] theorem State.modSlot_event (s : State) (c i : Nat) (f : Slot → Slot) : (s.modSlot c i f).event = s.event := rfl
@[simp] theorem State.modSlot_inputs (s : State) (c i : Nat) (f : Slot → Slot) : (s.modSlot c i f).inputs = s.inputs := rfl
@[simp] theorem State.modSlot_pending (s : State) (c i : Nat) (f : Slot → Slot) : (s.modSlot c i f).pending = s.pending := rfl
@[simp] theorem State.modSlot_mem (s : State) (c i : Nat) (f : Slot → Slot) : (s.modSlot c i f).mem = s.mem := rfl
@[simp] theorem State.modSlot_secs (s : State) (c i : Nat) (f : Slot → Slot) : (s.modSlot c i f).secs = s.secs := rfl
@[simp] theorem State.modSlot_resvs (s : State) (c i : Nat) (f : Slot → Slot) : (s.modSlot c i f).resvs = s.resvs := rfl
@[simp] theorem State.modSlot_revokes (s : State) (c i : Nat) (f : Slot → Slot) : (s.modSlot c i f).revokes = s.revokes := rfl
@[simp] theorem State.modSlot_joins (s : State) (c i : Nat) (f : Slot → Slot) : (s.modSlot c i f).joins = s.joins := rfl
@[simp] theorem State.modSlot_recents (s : State) (c i : Nat) (f : Slot → Slot) : (s.modSlot c i f).recents = s.recents := rfl
@[simp] theorem State.modSlot_lastAt (s : State) (c i : Nat) (f : Slot → Slot) : (s.modSlot c i f).lastAt = s.lastAt := rfl
@[simp] theorem State.modSlot_ricksrc (s : State) (c i : Nat) (f : Slot → Slot) : (s.modSlot c i f).ricksrc = s.ricksrc := rfl
@[simp] theorem State.modSlot_pcache (s : State) (c i : Nat) (f : Slot → Slot) : (s.modSlot c i f).pcache = s.pcache := rfl
@[simp] theorem State.modSlot_copses (s : State) (c i : Nat) (f : Slot → Slot) : (s.modSlot c i f).copses = s.copses := rfl
@[simp] theorem State.modSlot_ctxs (s : State) (c i : Nat) (f : Slot → Slot) : (s.modSlot c i f).ctxs = s.ctxs := rfl
@[simp] theorem State.modSlot_dies (s : State) (c i : Nat) (f : Slot → Slot) : (s.modSlot c i f).dies = s.dies := rfl
@[simp] theorem State.modSlot_gws (s : State) (c i : Nat) (f : Slot → Slot) : (s.modSlot c i f).gws = s.gws := rfl
@[simp] theorem State.modSlot_flocks (s : State) (c i : Nat) (f : Slot → Slot) : (s.modSlot c i f).flocks = s.flocks := rfl
@[simp] theorem State.modSlot_flits (s : State) (c i : Nat) (f : Slot → Slot) : (s.modSlot c i f).flits = s.flits := rfl
@[simp] theorem State.modSlot_walks (s : State) (c i : Nat) (f : Slot → Slot) : (s.modSlot c i f).walks = s.walks := rfl
@[simp] theorem State.modSlot_ops (s : State) (c i : Nat) (f : Slot → Slot) : (s.modSlot c i f).ops = s.ops := rfl
@[simp] theorem State.modSlot_nextId (s : State) (c i : Nat) (f : Slot → Slot) : (s.modSlot c i f).nextId = s.nextId := rfl
@[simp] theorem State.modSlot_health (s : State) (c i : Nat) (f : Slot → Slot) : (s.modSlot c i f).health = s.health := rfl
@[simp] theorem State.modSlot_alarms (s : State) (c i : Nat) (f : Slot → Slot) : (s.modSlot c i f).alarms = s.alarms := rfl
@[simp] theorem State.modSlot_poolcap (s : State) (c i : Nat) (f : Slot → Slot) : (s.modSlot c i f).poolcap = s.poolcap := rfl
@[simp] theorem State.modSlot_hpool (s : State) (c i : Nat) (f : Slot → Slot) : (s.modSlot c i f).hpool = s.hpool := rfl
@[simp] theorem State.modSlot_spread (s : State) (c i : Nat) (f : Slot → Slot) : (s.modSlot c i f).spread = s.spread := rfl
@[simp] theorem State.modSlot_dhome (s : State) (c i : Nat) (f : Slot → Slot) : (s.modSlot c i f).dhome = s.dhome := rfl
@[simp] theorem State.modSlot_pccfg (s : State) (c i : Nat) (f : Slot → Slot) : (s.modSlot c i f).pccfg = s.pccfg := rfl
@[simp] theorem State.modSlot_nroute (s : State) (c i : Nat) (f : Slot → Slot) : (s.modSlot c i f).nroute = s.nroute := rfl
@[simp] theorem State.modSlot_fwver (s : State) (c i : Nat) (f : Slot → Slot) : (s.modSlot c i f).fwver = s.fwver := rfl
@[simp] theorem State.modSlot_image (s : State) (c i : Nat) (f : Slot → Slot) : (s.modSlot c i f).image = s.image := rfl
@[simp] theorem State.modSlot_cmds (s : State) (c i : Nat) (f : Slot → Slot) : (s.modSlot c i f).cmds = s.cmds := rfl
@[simp] theorem State.modSlot_tcqst (s : State) (c i : Nat) (f : Slot → Slot) : (s.modSlot c i f).tcqst = s.tcqst := rfl
@[simp] theorem State.modSlot_tcq (s : State) (c i : Nat) (f : Slot → Slot) : (s.modSlot c i f).tcq = s.tcq := rfl
@[simp] theorem State.modSlot_tcstage (s : State) (c i : Nat) (f : Slot → Slot) : (s.modSlot c i f).tcstage = s.tcstage := rfl
@[simp] theorem State.modSlot_tcmsgs (s : State) (c i : Nat) (f : Slot → Slot) : (s.modSlot c i f).tcmsgs = s.tcmsgs := rfl
@[simp] theorem State.modSlot_stileKey (s : State) (c i : Nat) (f : Slot → Slot) : (s.modSlot c i f).stileKey = s.stileKey := rfl
@[simp] theorem State.modSlot_sharedKx (s : State) (c i : Nat) (f : Slot → Slot) : (s.modSlot c i f).sharedKx = s.sharedKx := rfl
@[simp] theorem State.modSlot_shareAsk (s : State) (c i : Nat) (f : Slot → Slot) : (s.modSlot c i f).shareAsk = s.shareAsk := rfl
@[simp] theorem State.modSlot_stiles (s : State) (c i : Nat) (f : Slot → Slot) : (s.modSlot c i f).stiles = s.stiles := rfl
@[simp] theorem State.modSlot_shared (s : State) (c i : Nat) (f : Slot → Slot) : (s.modSlot c i f).shared = s.shared := rfl
@[simp] theorem State.modSlot_keyIds (s : State) (c i : Nat) (f : Slot → Slot) : (s.modSlot c i f).keyIds = s.keyIds := rfl
@[simp] theorem State.modSlot_sessions (s : State) (c i : Nat) (f : Slot → Slot) : (s.modSlot c i f).sessions = s.sessions := rfl
@[simp] theorem State.modSlot_attLeaf (s : State) (c i : Nat) (f : Slot → Slot) : (s.modSlot c i f).attLeaf = s.attLeaf := rfl
@[simp] theorem State.modSlot_attKey (s : State) (c i : Nat) (f : Slot → Slot) : (s.modSlot c i f).attKey = s.attKey := rfl
@[simp] theorem State.modSlot_windows (s : State) (c i : Nat) (f : Slot → Slot) : (s.modSlot c i f).windows = s.windows := rfl
@[simp] theorem State.modSlot_sent (s : State) (c i : Nat) (f : Slot → Slot) : (s.modSlot c i f).sent = s.sent := rfl
@[simp] theorem State.modSlot_precopy (s : State) (c i : Nat) (f : Slot → Slot) : (s.modSlot c i f).precopy = s.precopy := rfl
@[simp] theorem State.modSlot_preAt (s : State) (c i : Nat) (f : Slot → Slot) : (s.modSlot c i f).preAt = s.preAt := rfl
@[simp] theorem State.modSlot_colls (s : State) (c i : Nat) (f : Slot → Slot) : (s.modSlot c i f).colls = s.colls := rfl
@[simp] theorem State.modSlot_linkBad (s : State) (c i : Nat) (f : Slot → Slot) : (s.modSlot c i f).linkBad = s.linkBad := rfl
@[simp] theorem State.modSlot_linkSeq (s : State) (c i : Nat) (f : Slot → Slot) : (s.modSlot c i f).linkSeq = s.linkSeq := rfl
@[simp] theorem State.modSlot_stopped (s : State) (c i : Nat) (f : Slot → Slot) : (s.modSlot c i f).stopped = s.stopped := rfl
@[simp] theorem State.modSlot_up (s : State) (c i : Nat) (f : Slot → Slot) : (s.modSlot c i f).up = s.up := rfl

/-! ### setFlight -/

@[simp] theorem State.setFlight_clock (s : State) (c i : Nat) (f : Flight) : (s.setFlight c i f).clock = s.clock := rfl
@[simp] theorem State.setFlight_now (s : State) (c i : Nat) (f : Flight) : (s.setFlight c i f).now = s.now := rfl
@[simp] theorem State.setFlight_issued (s : State) (c i : Nat) (f : Flight) : (s.setFlight c i f).issued = s.issued := rfl
@[simp] theorem State.setFlight_scrubs (s : State) (c i : Nat) (f : Flight) : (s.setFlight c i f).scrubs = s.scrubs := rfl
@[simp] theorem State.setFlight_errlogs (s : State) (c i : Nat) (f : Flight) : (s.setFlight c i f).errlogs = s.errlogs := rfl
@[simp] theorem State.setFlight_tclog (s : State) (c i : Nat) (f : Flight) : (s.setFlight c i f).tclog = s.tclog := rfl
@[simp] theorem State.setFlight_linkDead (s : State) (c i : Nat) (f : Flight) : (s.setFlight c i f).linkDead = s.linkDead := rfl
@[simp] theorem State.setFlight_fresh (s : State) (c i : Nat) (f : Flight) : (s.setFlight c i f).fresh = s.fresh := rfl
@[simp] theorem State.setFlight_turn (s : State) (c i : Nat) (f : Flight) : (s.setFlight c i f).turn = s.turn := rfl
@[simp] theorem State.setFlight_event (s : State) (c i : Nat) (f : Flight) : (s.setFlight c i f).event = s.event := rfl
@[simp] theorem State.setFlight_inputs (s : State) (c i : Nat) (f : Flight) : (s.setFlight c i f).inputs = s.inputs := rfl
@[simp] theorem State.setFlight_pending (s : State) (c i : Nat) (f : Flight) : (s.setFlight c i f).pending = s.pending := rfl
@[simp] theorem State.setFlight_mem (s : State) (c i : Nat) (f : Flight) : (s.setFlight c i f).mem = s.mem := rfl
@[simp] theorem State.setFlight_secs (s : State) (c i : Nat) (f : Flight) : (s.setFlight c i f).secs = s.secs := rfl
@[simp] theorem State.setFlight_resvs (s : State) (c i : Nat) (f : Flight) : (s.setFlight c i f).resvs = s.resvs := rfl
@[simp] theorem State.setFlight_revokes (s : State) (c i : Nat) (f : Flight) : (s.setFlight c i f).revokes = s.revokes := rfl
@[simp] theorem State.setFlight_joins (s : State) (c i : Nat) (f : Flight) : (s.setFlight c i f).joins = s.joins := rfl
@[simp] theorem State.setFlight_recents (s : State) (c i : Nat) (f : Flight) : (s.setFlight c i f).recents = s.recents := rfl
@[simp] theorem State.setFlight_lastAt (s : State) (c i : Nat) (f : Flight) : (s.setFlight c i f).lastAt = s.lastAt := rfl
@[simp] theorem State.setFlight_ricksrc (s : State) (c i : Nat) (f : Flight) : (s.setFlight c i f).ricksrc = s.ricksrc := rfl
@[simp] theorem State.setFlight_pcache (s : State) (c i : Nat) (f : Flight) : (s.setFlight c i f).pcache = s.pcache := rfl
@[simp] theorem State.setFlight_copses (s : State) (c i : Nat) (f : Flight) : (s.setFlight c i f).copses = s.copses := rfl
@[simp] theorem State.setFlight_ctxs (s : State) (c i : Nat) (f : Flight) : (s.setFlight c i f).ctxs = s.ctxs := rfl
@[simp] theorem State.setFlight_dies (s : State) (c i : Nat) (f : Flight) : (s.setFlight c i f).dies = s.dies := rfl
@[simp] theorem State.setFlight_gws (s : State) (c i : Nat) (f : Flight) : (s.setFlight c i f).gws = s.gws := rfl
@[simp] theorem State.setFlight_flocks (s : State) (c i : Nat) (f : Flight) : (s.setFlight c i f).flocks = s.flocks := rfl
@[simp] theorem State.setFlight_flits (s : State) (c i : Nat) (f : Flight) : (s.setFlight c i f).flits = s.flits := rfl
@[simp] theorem State.setFlight_walks (s : State) (c i : Nat) (f : Flight) : (s.setFlight c i f).walks = s.walks := rfl
@[simp] theorem State.setFlight_ops (s : State) (c i : Nat) (f : Flight) : (s.setFlight c i f).ops = s.ops := rfl
@[simp] theorem State.setFlight_nextId (s : State) (c i : Nat) (f : Flight) : (s.setFlight c i f).nextId = s.nextId := rfl
@[simp] theorem State.setFlight_health (s : State) (c i : Nat) (f : Flight) : (s.setFlight c i f).health = s.health := rfl
@[simp] theorem State.setFlight_alarms (s : State) (c i : Nat) (f : Flight) : (s.setFlight c i f).alarms = s.alarms := rfl
@[simp] theorem State.setFlight_poolcap (s : State) (c i : Nat) (f : Flight) : (s.setFlight c i f).poolcap = s.poolcap := rfl
@[simp] theorem State.setFlight_hpool (s : State) (c i : Nat) (f : Flight) : (s.setFlight c i f).hpool = s.hpool := rfl
@[simp] theorem State.setFlight_spread (s : State) (c i : Nat) (f : Flight) : (s.setFlight c i f).spread = s.spread := rfl
@[simp] theorem State.setFlight_dhome (s : State) (c i : Nat) (f : Flight) : (s.setFlight c i f).dhome = s.dhome := rfl
@[simp] theorem State.setFlight_pccfg (s : State) (c i : Nat) (f : Flight) : (s.setFlight c i f).pccfg = s.pccfg := rfl
@[simp] theorem State.setFlight_nroute (s : State) (c i : Nat) (f : Flight) : (s.setFlight c i f).nroute = s.nroute := rfl
@[simp] theorem State.setFlight_fwver (s : State) (c i : Nat) (f : Flight) : (s.setFlight c i f).fwver = s.fwver := rfl
@[simp] theorem State.setFlight_image (s : State) (c i : Nat) (f : Flight) : (s.setFlight c i f).image = s.image := rfl
@[simp] theorem State.setFlight_cmds (s : State) (c i : Nat) (f : Flight) : (s.setFlight c i f).cmds = s.cmds := rfl
@[simp] theorem State.setFlight_tcqst (s : State) (c i : Nat) (f : Flight) : (s.setFlight c i f).tcqst = s.tcqst := rfl
@[simp] theorem State.setFlight_tcq (s : State) (c i : Nat) (f : Flight) : (s.setFlight c i f).tcq = s.tcq := rfl
@[simp] theorem State.setFlight_tcstage (s : State) (c i : Nat) (f : Flight) : (s.setFlight c i f).tcstage = s.tcstage := rfl
@[simp] theorem State.setFlight_tcmsgs (s : State) (c i : Nat) (f : Flight) : (s.setFlight c i f).tcmsgs = s.tcmsgs := rfl
@[simp] theorem State.setFlight_stileKey (s : State) (c i : Nat) (f : Flight) : (s.setFlight c i f).stileKey = s.stileKey := rfl
@[simp] theorem State.setFlight_sharedKx (s : State) (c i : Nat) (f : Flight) : (s.setFlight c i f).sharedKx = s.sharedKx := rfl
@[simp] theorem State.setFlight_shareAsk (s : State) (c i : Nat) (f : Flight) : (s.setFlight c i f).shareAsk = s.shareAsk := rfl
@[simp] theorem State.setFlight_stiles (s : State) (c i : Nat) (f : Flight) : (s.setFlight c i f).stiles = s.stiles := rfl
@[simp] theorem State.setFlight_shared (s : State) (c i : Nat) (f : Flight) : (s.setFlight c i f).shared = s.shared := rfl
@[simp] theorem State.setFlight_keyIds (s : State) (c i : Nat) (f : Flight) : (s.setFlight c i f).keyIds = s.keyIds := rfl
@[simp] theorem State.setFlight_sessions (s : State) (c i : Nat) (f : Flight) : (s.setFlight c i f).sessions = s.sessions := rfl
@[simp] theorem State.setFlight_attLeaf (s : State) (c i : Nat) (f : Flight) : (s.setFlight c i f).attLeaf = s.attLeaf := rfl
@[simp] theorem State.setFlight_attKey (s : State) (c i : Nat) (f : Flight) : (s.setFlight c i f).attKey = s.attKey := rfl
@[simp] theorem State.setFlight_windows (s : State) (c i : Nat) (f : Flight) : (s.setFlight c i f).windows = s.windows := rfl
@[simp] theorem State.setFlight_sent (s : State) (c i : Nat) (f : Flight) : (s.setFlight c i f).sent = s.sent := rfl
@[simp] theorem State.setFlight_precopy (s : State) (c i : Nat) (f : Flight) : (s.setFlight c i f).precopy = s.precopy := rfl
@[simp] theorem State.setFlight_preAt (s : State) (c i : Nat) (f : Flight) : (s.setFlight c i f).preAt = s.preAt := rfl
@[simp] theorem State.setFlight_colls (s : State) (c i : Nat) (f : Flight) : (s.setFlight c i f).colls = s.colls := rfl
@[simp] theorem State.setFlight_linkBad (s : State) (c i : Nat) (f : Flight) : (s.setFlight c i f).linkBad = s.linkBad := rfl
@[simp] theorem State.setFlight_linkSeq (s : State) (c i : Nat) (f : Flight) : (s.setFlight c i f).linkSeq = s.linkSeq := rfl
@[simp] theorem State.setFlight_stopped (s : State) (c i : Nat) (f : Flight) : (s.setFlight c i f).stopped = s.stopped := rfl
@[simp] theorem State.setFlight_up (s : State) (c i : Nat) (f : Flight) : (s.setFlight c i f).up = s.up := rfl

/-! ### modFlight -/

@[simp] theorem State.modFlight_clock (s : State) (c i : Nat) (g : Flight → Flight) : (s.modFlight c i g).clock = s.clock := rfl
@[simp] theorem State.modFlight_now (s : State) (c i : Nat) (g : Flight → Flight) : (s.modFlight c i g).now = s.now := rfl
@[simp] theorem State.modFlight_issued (s : State) (c i : Nat) (g : Flight → Flight) : (s.modFlight c i g).issued = s.issued := rfl
@[simp] theorem State.modFlight_scrubs (s : State) (c i : Nat) (g : Flight → Flight) : (s.modFlight c i g).scrubs = s.scrubs := rfl
@[simp] theorem State.modFlight_errlogs (s : State) (c i : Nat) (g : Flight → Flight) : (s.modFlight c i g).errlogs = s.errlogs := rfl
@[simp] theorem State.modFlight_tclog (s : State) (c i : Nat) (g : Flight → Flight) : (s.modFlight c i g).tclog = s.tclog := rfl
@[simp] theorem State.modFlight_linkDead (s : State) (c i : Nat) (g : Flight → Flight) : (s.modFlight c i g).linkDead = s.linkDead := rfl
@[simp] theorem State.modFlight_fresh (s : State) (c i : Nat) (g : Flight → Flight) : (s.modFlight c i g).fresh = s.fresh := rfl
@[simp] theorem State.modFlight_turn (s : State) (c i : Nat) (g : Flight → Flight) : (s.modFlight c i g).turn = s.turn := rfl
@[simp] theorem State.modFlight_event (s : State) (c i : Nat) (g : Flight → Flight) : (s.modFlight c i g).event = s.event := rfl
@[simp] theorem State.modFlight_inputs (s : State) (c i : Nat) (g : Flight → Flight) : (s.modFlight c i g).inputs = s.inputs := rfl
@[simp] theorem State.modFlight_pending (s : State) (c i : Nat) (g : Flight → Flight) : (s.modFlight c i g).pending = s.pending := rfl
@[simp] theorem State.modFlight_mem (s : State) (c i : Nat) (g : Flight → Flight) : (s.modFlight c i g).mem = s.mem := rfl
@[simp] theorem State.modFlight_secs (s : State) (c i : Nat) (g : Flight → Flight) : (s.modFlight c i g).secs = s.secs := rfl
@[simp] theorem State.modFlight_resvs (s : State) (c i : Nat) (g : Flight → Flight) : (s.modFlight c i g).resvs = s.resvs := rfl
@[simp] theorem State.modFlight_revokes (s : State) (c i : Nat) (g : Flight → Flight) : (s.modFlight c i g).revokes = s.revokes := rfl
@[simp] theorem State.modFlight_joins (s : State) (c i : Nat) (g : Flight → Flight) : (s.modFlight c i g).joins = s.joins := rfl
@[simp] theorem State.modFlight_recents (s : State) (c i : Nat) (g : Flight → Flight) : (s.modFlight c i g).recents = s.recents := rfl
@[simp] theorem State.modFlight_lastAt (s : State) (c i : Nat) (g : Flight → Flight) : (s.modFlight c i g).lastAt = s.lastAt := rfl
@[simp] theorem State.modFlight_ricksrc (s : State) (c i : Nat) (g : Flight → Flight) : (s.modFlight c i g).ricksrc = s.ricksrc := rfl
@[simp] theorem State.modFlight_pcache (s : State) (c i : Nat) (g : Flight → Flight) : (s.modFlight c i g).pcache = s.pcache := rfl
@[simp] theorem State.modFlight_copses (s : State) (c i : Nat) (g : Flight → Flight) : (s.modFlight c i g).copses = s.copses := rfl
@[simp] theorem State.modFlight_ctxs (s : State) (c i : Nat) (g : Flight → Flight) : (s.modFlight c i g).ctxs = s.ctxs := rfl
@[simp] theorem State.modFlight_dies (s : State) (c i : Nat) (g : Flight → Flight) : (s.modFlight c i g).dies = s.dies := rfl
@[simp] theorem State.modFlight_gws (s : State) (c i : Nat) (g : Flight → Flight) : (s.modFlight c i g).gws = s.gws := rfl
@[simp] theorem State.modFlight_flocks (s : State) (c i : Nat) (g : Flight → Flight) : (s.modFlight c i g).flocks = s.flocks := rfl
@[simp] theorem State.modFlight_flits (s : State) (c i : Nat) (g : Flight → Flight) : (s.modFlight c i g).flits = s.flits := rfl
@[simp] theorem State.modFlight_walks (s : State) (c i : Nat) (g : Flight → Flight) : (s.modFlight c i g).walks = s.walks := rfl
@[simp] theorem State.modFlight_ops (s : State) (c i : Nat) (g : Flight → Flight) : (s.modFlight c i g).ops = s.ops := rfl
@[simp] theorem State.modFlight_nextId (s : State) (c i : Nat) (g : Flight → Flight) : (s.modFlight c i g).nextId = s.nextId := rfl
@[simp] theorem State.modFlight_health (s : State) (c i : Nat) (g : Flight → Flight) : (s.modFlight c i g).health = s.health := rfl
@[simp] theorem State.modFlight_alarms (s : State) (c i : Nat) (g : Flight → Flight) : (s.modFlight c i g).alarms = s.alarms := rfl
@[simp] theorem State.modFlight_poolcap (s : State) (c i : Nat) (g : Flight → Flight) : (s.modFlight c i g).poolcap = s.poolcap := rfl
@[simp] theorem State.modFlight_hpool (s : State) (c i : Nat) (g : Flight → Flight) : (s.modFlight c i g).hpool = s.hpool := rfl
@[simp] theorem State.modFlight_spread (s : State) (c i : Nat) (g : Flight → Flight) : (s.modFlight c i g).spread = s.spread := rfl
@[simp] theorem State.modFlight_dhome (s : State) (c i : Nat) (g : Flight → Flight) : (s.modFlight c i g).dhome = s.dhome := rfl
@[simp] theorem State.modFlight_pccfg (s : State) (c i : Nat) (g : Flight → Flight) : (s.modFlight c i g).pccfg = s.pccfg := rfl
@[simp] theorem State.modFlight_nroute (s : State) (c i : Nat) (g : Flight → Flight) : (s.modFlight c i g).nroute = s.nroute := rfl
@[simp] theorem State.modFlight_fwver (s : State) (c i : Nat) (g : Flight → Flight) : (s.modFlight c i g).fwver = s.fwver := rfl
@[simp] theorem State.modFlight_image (s : State) (c i : Nat) (g : Flight → Flight) : (s.modFlight c i g).image = s.image := rfl
@[simp] theorem State.modFlight_cmds (s : State) (c i : Nat) (g : Flight → Flight) : (s.modFlight c i g).cmds = s.cmds := rfl
@[simp] theorem State.modFlight_tcqst (s : State) (c i : Nat) (g : Flight → Flight) : (s.modFlight c i g).tcqst = s.tcqst := rfl
@[simp] theorem State.modFlight_tcq (s : State) (c i : Nat) (g : Flight → Flight) : (s.modFlight c i g).tcq = s.tcq := rfl
@[simp] theorem State.modFlight_tcstage (s : State) (c i : Nat) (g : Flight → Flight) : (s.modFlight c i g).tcstage = s.tcstage := rfl
@[simp] theorem State.modFlight_tcmsgs (s : State) (c i : Nat) (g : Flight → Flight) : (s.modFlight c i g).tcmsgs = s.tcmsgs := rfl
@[simp] theorem State.modFlight_stileKey (s : State) (c i : Nat) (g : Flight → Flight) : (s.modFlight c i g).stileKey = s.stileKey := rfl
@[simp] theorem State.modFlight_sharedKx (s : State) (c i : Nat) (g : Flight → Flight) : (s.modFlight c i g).sharedKx = s.sharedKx := rfl
@[simp] theorem State.modFlight_shareAsk (s : State) (c i : Nat) (g : Flight → Flight) : (s.modFlight c i g).shareAsk = s.shareAsk := rfl
@[simp] theorem State.modFlight_stiles (s : State) (c i : Nat) (g : Flight → Flight) : (s.modFlight c i g).stiles = s.stiles := rfl
@[simp] theorem State.modFlight_shared (s : State) (c i : Nat) (g : Flight → Flight) : (s.modFlight c i g).shared = s.shared := rfl
@[simp] theorem State.modFlight_keyIds (s : State) (c i : Nat) (g : Flight → Flight) : (s.modFlight c i g).keyIds = s.keyIds := rfl
@[simp] theorem State.modFlight_sessions (s : State) (c i : Nat) (g : Flight → Flight) : (s.modFlight c i g).sessions = s.sessions := rfl
@[simp] theorem State.modFlight_attLeaf (s : State) (c i : Nat) (g : Flight → Flight) : (s.modFlight c i g).attLeaf = s.attLeaf := rfl
@[simp] theorem State.modFlight_attKey (s : State) (c i : Nat) (g : Flight → Flight) : (s.modFlight c i g).attKey = s.attKey := rfl
@[simp] theorem State.modFlight_windows (s : State) (c i : Nat) (g : Flight → Flight) : (s.modFlight c i g).windows = s.windows := rfl
@[simp] theorem State.modFlight_sent (s : State) (c i : Nat) (g : Flight → Flight) : (s.modFlight c i g).sent = s.sent := rfl
@[simp] theorem State.modFlight_precopy (s : State) (c i : Nat) (g : Flight → Flight) : (s.modFlight c i g).precopy = s.precopy := rfl
@[simp] theorem State.modFlight_preAt (s : State) (c i : Nat) (g : Flight → Flight) : (s.modFlight c i g).preAt = s.preAt := rfl
@[simp] theorem State.modFlight_colls (s : State) (c i : Nat) (g : Flight → Flight) : (s.modFlight c i g).colls = s.colls := rfl
@[simp] theorem State.modFlight_linkBad (s : State) (c i : Nat) (g : Flight → Flight) : (s.modFlight c i g).linkBad = s.linkBad := rfl
@[simp] theorem State.modFlight_linkSeq (s : State) (c i : Nat) (g : Flight → Flight) : (s.modFlight c i g).linkSeq = s.linkSeq := rfl
@[simp] theorem State.modFlight_stopped (s : State) (c i : Nat) (g : Flight → Flight) : (s.modFlight c i g).stopped = s.stopped := rfl
@[simp] theorem State.modFlight_up (s : State) (c i : Nat) (g : Flight → Flight) : (s.modFlight c i g).up = s.up := rfl

/-! ### modThread -/

@[simp] theorem State.modThread_clock (s : State) (c i : Nat) (g : Thread → Thread) : (s.modThread c i g).clock = s.clock := rfl
@[simp] theorem State.modThread_now (s : State) (c i : Nat) (g : Thread → Thread) : (s.modThread c i g).now = s.now := rfl
@[simp] theorem State.modThread_issued (s : State) (c i : Nat) (g : Thread → Thread) : (s.modThread c i g).issued = s.issued := rfl
@[simp] theorem State.modThread_scrubs (s : State) (c i : Nat) (g : Thread → Thread) : (s.modThread c i g).scrubs = s.scrubs := rfl
@[simp] theorem State.modThread_errlogs (s : State) (c i : Nat) (g : Thread → Thread) : (s.modThread c i g).errlogs = s.errlogs := rfl
@[simp] theorem State.modThread_tclog (s : State) (c i : Nat) (g : Thread → Thread) : (s.modThread c i g).tclog = s.tclog := rfl
@[simp] theorem State.modThread_linkDead (s : State) (c i : Nat) (g : Thread → Thread) : (s.modThread c i g).linkDead = s.linkDead := rfl
@[simp] theorem State.modThread_fresh (s : State) (c i : Nat) (g : Thread → Thread) : (s.modThread c i g).fresh = s.fresh := rfl
@[simp] theorem State.modThread_turn (s : State) (c i : Nat) (g : Thread → Thread) : (s.modThread c i g).turn = s.turn := rfl
@[simp] theorem State.modThread_event (s : State) (c i : Nat) (g : Thread → Thread) : (s.modThread c i g).event = s.event := rfl
@[simp] theorem State.modThread_inputs (s : State) (c i : Nat) (g : Thread → Thread) : (s.modThread c i g).inputs = s.inputs := rfl
@[simp] theorem State.modThread_pending (s : State) (c i : Nat) (g : Thread → Thread) : (s.modThread c i g).pending = s.pending := rfl
@[simp] theorem State.modThread_mem (s : State) (c i : Nat) (g : Thread → Thread) : (s.modThread c i g).mem = s.mem := rfl
@[simp] theorem State.modThread_secs (s : State) (c i : Nat) (g : Thread → Thread) : (s.modThread c i g).secs = s.secs := rfl
@[simp] theorem State.modThread_resvs (s : State) (c i : Nat) (g : Thread → Thread) : (s.modThread c i g).resvs = s.resvs := rfl
@[simp] theorem State.modThread_revokes (s : State) (c i : Nat) (g : Thread → Thread) : (s.modThread c i g).revokes = s.revokes := rfl
@[simp] theorem State.modThread_joins (s : State) (c i : Nat) (g : Thread → Thread) : (s.modThread c i g).joins = s.joins := rfl
@[simp] theorem State.modThread_recents (s : State) (c i : Nat) (g : Thread → Thread) : (s.modThread c i g).recents = s.recents := rfl
@[simp] theorem State.modThread_lastAt (s : State) (c i : Nat) (g : Thread → Thread) : (s.modThread c i g).lastAt = s.lastAt := rfl
@[simp] theorem State.modThread_ricksrc (s : State) (c i : Nat) (g : Thread → Thread) : (s.modThread c i g).ricksrc = s.ricksrc := rfl
@[simp] theorem State.modThread_pcache (s : State) (c i : Nat) (g : Thread → Thread) : (s.modThread c i g).pcache = s.pcache := rfl
@[simp] theorem State.modThread_copses (s : State) (c i : Nat) (g : Thread → Thread) : (s.modThread c i g).copses = s.copses := rfl
@[simp] theorem State.modThread_ctxs (s : State) (c i : Nat) (g : Thread → Thread) : (s.modThread c i g).ctxs = s.ctxs := rfl
@[simp] theorem State.modThread_dies (s : State) (c i : Nat) (g : Thread → Thread) : (s.modThread c i g).dies = s.dies := rfl
@[simp] theorem State.modThread_gws (s : State) (c i : Nat) (g : Thread → Thread) : (s.modThread c i g).gws = s.gws := rfl
@[simp] theorem State.modThread_flocks (s : State) (c i : Nat) (g : Thread → Thread) : (s.modThread c i g).flocks = s.flocks := rfl
@[simp] theorem State.modThread_flits (s : State) (c i : Nat) (g : Thread → Thread) : (s.modThread c i g).flits = s.flits := rfl
@[simp] theorem State.modThread_walks (s : State) (c i : Nat) (g : Thread → Thread) : (s.modThread c i g).walks = s.walks := rfl
@[simp] theorem State.modThread_ops (s : State) (c i : Nat) (g : Thread → Thread) : (s.modThread c i g).ops = s.ops := rfl
@[simp] theorem State.modThread_nextId (s : State) (c i : Nat) (g : Thread → Thread) : (s.modThread c i g).nextId = s.nextId := rfl
@[simp] theorem State.modThread_health (s : State) (c i : Nat) (g : Thread → Thread) : (s.modThread c i g).health = s.health := rfl
@[simp] theorem State.modThread_alarms (s : State) (c i : Nat) (g : Thread → Thread) : (s.modThread c i g).alarms = s.alarms := rfl
@[simp] theorem State.modThread_poolcap (s : State) (c i : Nat) (g : Thread → Thread) : (s.modThread c i g).poolcap = s.poolcap := rfl
@[simp] theorem State.modThread_hpool (s : State) (c i : Nat) (g : Thread → Thread) : (s.modThread c i g).hpool = s.hpool := rfl
@[simp] theorem State.modThread_spread (s : State) (c i : Nat) (g : Thread → Thread) : (s.modThread c i g).spread = s.spread := rfl
@[simp] theorem State.modThread_dhome (s : State) (c i : Nat) (g : Thread → Thread) : (s.modThread c i g).dhome = s.dhome := rfl
@[simp] theorem State.modThread_pccfg (s : State) (c i : Nat) (g : Thread → Thread) : (s.modThread c i g).pccfg = s.pccfg := rfl
@[simp] theorem State.modThread_nroute (s : State) (c i : Nat) (g : Thread → Thread) : (s.modThread c i g).nroute = s.nroute := rfl
@[simp] theorem State.modThread_fwver (s : State) (c i : Nat) (g : Thread → Thread) : (s.modThread c i g).fwver = s.fwver := rfl
@[simp] theorem State.modThread_image (s : State) (c i : Nat) (g : Thread → Thread) : (s.modThread c i g).image = s.image := rfl
@[simp] theorem State.modThread_cmds (s : State) (c i : Nat) (g : Thread → Thread) : (s.modThread c i g).cmds = s.cmds := rfl
@[simp] theorem State.modThread_tcqst (s : State) (c i : Nat) (g : Thread → Thread) : (s.modThread c i g).tcqst = s.tcqst := rfl
@[simp] theorem State.modThread_tcq (s : State) (c i : Nat) (g : Thread → Thread) : (s.modThread c i g).tcq = s.tcq := rfl
@[simp] theorem State.modThread_tcstage (s : State) (c i : Nat) (g : Thread → Thread) : (s.modThread c i g).tcstage = s.tcstage := rfl
@[simp] theorem State.modThread_tcmsgs (s : State) (c i : Nat) (g : Thread → Thread) : (s.modThread c i g).tcmsgs = s.tcmsgs := rfl
@[simp] theorem State.modThread_stileKey (s : State) (c i : Nat) (g : Thread → Thread) : (s.modThread c i g).stileKey = s.stileKey := rfl
@[simp] theorem State.modThread_sharedKx (s : State) (c i : Nat) (g : Thread → Thread) : (s.modThread c i g).sharedKx = s.sharedKx := rfl
@[simp] theorem State.modThread_shareAsk (s : State) (c i : Nat) (g : Thread → Thread) : (s.modThread c i g).shareAsk = s.shareAsk := rfl
@[simp] theorem State.modThread_stiles (s : State) (c i : Nat) (g : Thread → Thread) : (s.modThread c i g).stiles = s.stiles := rfl
@[simp] theorem State.modThread_shared (s : State) (c i : Nat) (g : Thread → Thread) : (s.modThread c i g).shared = s.shared := rfl
@[simp] theorem State.modThread_keyIds (s : State) (c i : Nat) (g : Thread → Thread) : (s.modThread c i g).keyIds = s.keyIds := rfl
@[simp] theorem State.modThread_sessions (s : State) (c i : Nat) (g : Thread → Thread) : (s.modThread c i g).sessions = s.sessions := rfl
@[simp] theorem State.modThread_attLeaf (s : State) (c i : Nat) (g : Thread → Thread) : (s.modThread c i g).attLeaf = s.attLeaf := rfl
@[simp] theorem State.modThread_attKey (s : State) (c i : Nat) (g : Thread → Thread) : (s.modThread c i g).attKey = s.attKey := rfl
@[simp] theorem State.modThread_windows (s : State) (c i : Nat) (g : Thread → Thread) : (s.modThread c i g).windows = s.windows := rfl
@[simp] theorem State.modThread_sent (s : State) (c i : Nat) (g : Thread → Thread) : (s.modThread c i g).sent = s.sent := rfl
@[simp] theorem State.modThread_precopy (s : State) (c i : Nat) (g : Thread → Thread) : (s.modThread c i g).precopy = s.precopy := rfl
@[simp] theorem State.modThread_preAt (s : State) (c i : Nat) (g : Thread → Thread) : (s.modThread c i g).preAt = s.preAt := rfl
@[simp] theorem State.modThread_colls (s : State) (c i : Nat) (g : Thread → Thread) : (s.modThread c i g).colls = s.colls := rfl
@[simp] theorem State.modThread_linkBad (s : State) (c i : Nat) (g : Thread → Thread) : (s.modThread c i g).linkBad = s.linkBad := rfl
@[simp] theorem State.modThread_linkSeq (s : State) (c i : Nat) (g : Thread → Thread) : (s.modThread c i g).linkSeq = s.linkSeq := rfl
@[simp] theorem State.modThread_stopped (s : State) (c i : Nat) (g : Thread → Thread) : (s.modThread c i g).stopped = s.stopped := rfl
@[simp] theorem State.modThread_up (s : State) (c i : Nat) (g : Thread → Thread) : (s.modThread c i g).up = s.up := rfl

/-! ### setCopse -/

@[simp] theorem State.setCopse_clock (s : State) (i : Nat) (x : Copse) : (s.setCopse i x).clock = s.clock := rfl
@[simp] theorem State.setCopse_now (s : State) (i : Nat) (x : Copse) : (s.setCopse i x).now = s.now := rfl
@[simp] theorem State.setCopse_issued (s : State) (i : Nat) (x : Copse) : (s.setCopse i x).issued = s.issued := rfl
@[simp] theorem State.setCopse_scrubs (s : State) (i : Nat) (x : Copse) : (s.setCopse i x).scrubs = s.scrubs := rfl
@[simp] theorem State.setCopse_errlogs (s : State) (i : Nat) (x : Copse) : (s.setCopse i x).errlogs = s.errlogs := rfl
@[simp] theorem State.setCopse_tclog (s : State) (i : Nat) (x : Copse) : (s.setCopse i x).tclog = s.tclog := rfl
@[simp] theorem State.setCopse_linkDead (s : State) (i : Nat) (x : Copse) : (s.setCopse i x).linkDead = s.linkDead := rfl
@[simp] theorem State.setCopse_fresh (s : State) (i : Nat) (x : Copse) : (s.setCopse i x).fresh = s.fresh := rfl
@[simp] theorem State.setCopse_turn (s : State) (i : Nat) (x : Copse) : (s.setCopse i x).turn = s.turn := rfl
@[simp] theorem State.setCopse_event (s : State) (i : Nat) (x : Copse) : (s.setCopse i x).event = s.event := rfl
@[simp] theorem State.setCopse_inputs (s : State) (i : Nat) (x : Copse) : (s.setCopse i x).inputs = s.inputs := rfl
@[simp] theorem State.setCopse_pending (s : State) (i : Nat) (x : Copse) : (s.setCopse i x).pending = s.pending := rfl
@[simp] theorem State.setCopse_mem (s : State) (i : Nat) (x : Copse) : (s.setCopse i x).mem = s.mem := rfl
@[simp] theorem State.setCopse_secs (s : State) (i : Nat) (x : Copse) : (s.setCopse i x).secs = s.secs := rfl
@[simp] theorem State.setCopse_resvs (s : State) (i : Nat) (x : Copse) : (s.setCopse i x).resvs = s.resvs := rfl
@[simp] theorem State.setCopse_revokes (s : State) (i : Nat) (x : Copse) : (s.setCopse i x).revokes = s.revokes := rfl
@[simp] theorem State.setCopse_joins (s : State) (i : Nat) (x : Copse) : (s.setCopse i x).joins = s.joins := rfl
@[simp] theorem State.setCopse_recents (s : State) (i : Nat) (x : Copse) : (s.setCopse i x).recents = s.recents := rfl
@[simp] theorem State.setCopse_lastAt (s : State) (i : Nat) (x : Copse) : (s.setCopse i x).lastAt = s.lastAt := rfl
@[simp] theorem State.setCopse_ricksrc (s : State) (i : Nat) (x : Copse) : (s.setCopse i x).ricksrc = s.ricksrc := rfl
@[simp] theorem State.setCopse_pcache (s : State) (i : Nat) (x : Copse) : (s.setCopse i x).pcache = s.pcache := rfl
@[simp] theorem State.setCopse_cores (s : State) (i : Nat) (x : Copse) : (s.setCopse i x).cores = s.cores := rfl
@[simp] theorem State.setCopse_copses (s : State) (i : Nat) (x : Copse) : (s.setCopse i x).copses = s.copses.put i x := rfl
@[simp] theorem State.setCopse_ctxs (s : State) (i : Nat) (x : Copse) : (s.setCopse i x).ctxs = s.ctxs := rfl
@[simp] theorem State.setCopse_dies (s : State) (i : Nat) (x : Copse) : (s.setCopse i x).dies = s.dies := rfl
@[simp] theorem State.setCopse_gws (s : State) (i : Nat) (x : Copse) : (s.setCopse i x).gws = s.gws := rfl
@[simp] theorem State.setCopse_flocks (s : State) (i : Nat) (x : Copse) : (s.setCopse i x).flocks = s.flocks := rfl
@[simp] theorem State.setCopse_flits (s : State) (i : Nat) (x : Copse) : (s.setCopse i x).flits = s.flits := rfl
@[simp] theorem State.setCopse_walks (s : State) (i : Nat) (x : Copse) : (s.setCopse i x).walks = s.walks := rfl
@[simp] theorem State.setCopse_ops (s : State) (i : Nat) (x : Copse) : (s.setCopse i x).ops = s.ops := rfl
@[simp] theorem State.setCopse_nextId (s : State) (i : Nat) (x : Copse) : (s.setCopse i x).nextId = s.nextId := rfl
@[simp] theorem State.setCopse_health (s : State) (i : Nat) (x : Copse) : (s.setCopse i x).health = s.health := rfl
@[simp] theorem State.setCopse_alarms (s : State) (i : Nat) (x : Copse) : (s.setCopse i x).alarms = s.alarms := rfl
@[simp] theorem State.setCopse_poolcap (s : State) (i : Nat) (x : Copse) : (s.setCopse i x).poolcap = s.poolcap := rfl
@[simp] theorem State.setCopse_hpool (s : State) (i : Nat) (x : Copse) : (s.setCopse i x).hpool = s.hpool := rfl
@[simp] theorem State.setCopse_spread (s : State) (i : Nat) (x : Copse) : (s.setCopse i x).spread = s.spread := rfl
@[simp] theorem State.setCopse_dhome (s : State) (i : Nat) (x : Copse) : (s.setCopse i x).dhome = s.dhome := rfl
@[simp] theorem State.setCopse_pccfg (s : State) (i : Nat) (x : Copse) : (s.setCopse i x).pccfg = s.pccfg := rfl
@[simp] theorem State.setCopse_nroute (s : State) (i : Nat) (x : Copse) : (s.setCopse i x).nroute = s.nroute := rfl
@[simp] theorem State.setCopse_fwver (s : State) (i : Nat) (x : Copse) : (s.setCopse i x).fwver = s.fwver := rfl
@[simp] theorem State.setCopse_image (s : State) (i : Nat) (x : Copse) : (s.setCopse i x).image = s.image := rfl
@[simp] theorem State.setCopse_cmds (s : State) (i : Nat) (x : Copse) : (s.setCopse i x).cmds = s.cmds := rfl
@[simp] theorem State.setCopse_tcqst (s : State) (i : Nat) (x : Copse) : (s.setCopse i x).tcqst = s.tcqst := rfl
@[simp] theorem State.setCopse_tcq (s : State) (i : Nat) (x : Copse) : (s.setCopse i x).tcq = s.tcq := rfl
@[simp] theorem State.setCopse_tcstage (s : State) (i : Nat) (x : Copse) : (s.setCopse i x).tcstage = s.tcstage := rfl
@[simp] theorem State.setCopse_tcmsgs (s : State) (i : Nat) (x : Copse) : (s.setCopse i x).tcmsgs = s.tcmsgs := rfl
@[simp] theorem State.setCopse_stileKey (s : State) (i : Nat) (x : Copse) : (s.setCopse i x).stileKey = s.stileKey := rfl
@[simp] theorem State.setCopse_sharedKx (s : State) (i : Nat) (x : Copse) : (s.setCopse i x).sharedKx = s.sharedKx := rfl
@[simp] theorem State.setCopse_shareAsk (s : State) (i : Nat) (x : Copse) : (s.setCopse i x).shareAsk = s.shareAsk := rfl
@[simp] theorem State.setCopse_stiles (s : State) (i : Nat) (x : Copse) : (s.setCopse i x).stiles = s.stiles := rfl
@[simp] theorem State.setCopse_shared (s : State) (i : Nat) (x : Copse) : (s.setCopse i x).shared = s.shared := rfl
@[simp] theorem State.setCopse_keyIds (s : State) (i : Nat) (x : Copse) : (s.setCopse i x).keyIds = s.keyIds := rfl
@[simp] theorem State.setCopse_sessions (s : State) (i : Nat) (x : Copse) : (s.setCopse i x).sessions = s.sessions := rfl
@[simp] theorem State.setCopse_attLeaf (s : State) (i : Nat) (x : Copse) : (s.setCopse i x).attLeaf = s.attLeaf := rfl
@[simp] theorem State.setCopse_attKey (s : State) (i : Nat) (x : Copse) : (s.setCopse i x).attKey = s.attKey := rfl
@[simp] theorem State.setCopse_windows (s : State) (i : Nat) (x : Copse) : (s.setCopse i x).windows = s.windows := rfl
@[simp] theorem State.setCopse_sent (s : State) (i : Nat) (x : Copse) : (s.setCopse i x).sent = s.sent := rfl
@[simp] theorem State.setCopse_precopy (s : State) (i : Nat) (x : Copse) : (s.setCopse i x).precopy = s.precopy := rfl
@[simp] theorem State.setCopse_preAt (s : State) (i : Nat) (x : Copse) : (s.setCopse i x).preAt = s.preAt := rfl
@[simp] theorem State.setCopse_colls (s : State) (i : Nat) (x : Copse) : (s.setCopse i x).colls = s.colls := rfl
@[simp] theorem State.setCopse_linkBad (s : State) (i : Nat) (x : Copse) : (s.setCopse i x).linkBad = s.linkBad := rfl
@[simp] theorem State.setCopse_linkSeq (s : State) (i : Nat) (x : Copse) : (s.setCopse i x).linkSeq = s.linkSeq := rfl
@[simp] theorem State.setCopse_stopped (s : State) (i : Nat) (x : Copse) : (s.setCopse i x).stopped = s.stopped := rfl
@[simp] theorem State.setCopse_up (s : State) (i : Nat) (x : Copse) : (s.setCopse i x).up = s.up := rfl

/-! ### modCopse -/

@[simp] theorem State.modCopse_clock (s : State) (i : Nat) (f : Copse → Copse) : (s.modCopse i f).clock = s.clock := rfl
@[simp] theorem State.modCopse_now (s : State) (i : Nat) (f : Copse → Copse) : (s.modCopse i f).now = s.now := rfl
@[simp] theorem State.modCopse_issued (s : State) (i : Nat) (f : Copse → Copse) : (s.modCopse i f).issued = s.issued := rfl
@[simp] theorem State.modCopse_scrubs (s : State) (i : Nat) (f : Copse → Copse) : (s.modCopse i f).scrubs = s.scrubs := rfl
@[simp] theorem State.modCopse_errlogs (s : State) (i : Nat) (f : Copse → Copse) : (s.modCopse i f).errlogs = s.errlogs := rfl
@[simp] theorem State.modCopse_tclog (s : State) (i : Nat) (f : Copse → Copse) : (s.modCopse i f).tclog = s.tclog := rfl
@[simp] theorem State.modCopse_linkDead (s : State) (i : Nat) (f : Copse → Copse) : (s.modCopse i f).linkDead = s.linkDead := rfl
@[simp] theorem State.modCopse_fresh (s : State) (i : Nat) (f : Copse → Copse) : (s.modCopse i f).fresh = s.fresh := rfl
@[simp] theorem State.modCopse_turn (s : State) (i : Nat) (f : Copse → Copse) : (s.modCopse i f).turn = s.turn := rfl
@[simp] theorem State.modCopse_event (s : State) (i : Nat) (f : Copse → Copse) : (s.modCopse i f).event = s.event := rfl
@[simp] theorem State.modCopse_inputs (s : State) (i : Nat) (f : Copse → Copse) : (s.modCopse i f).inputs = s.inputs := rfl
@[simp] theorem State.modCopse_pending (s : State) (i : Nat) (f : Copse → Copse) : (s.modCopse i f).pending = s.pending := rfl
@[simp] theorem State.modCopse_mem (s : State) (i : Nat) (f : Copse → Copse) : (s.modCopse i f).mem = s.mem := rfl
@[simp] theorem State.modCopse_secs (s : State) (i : Nat) (f : Copse → Copse) : (s.modCopse i f).secs = s.secs := rfl
@[simp] theorem State.modCopse_resvs (s : State) (i : Nat) (f : Copse → Copse) : (s.modCopse i f).resvs = s.resvs := rfl
@[simp] theorem State.modCopse_revokes (s : State) (i : Nat) (f : Copse → Copse) : (s.modCopse i f).revokes = s.revokes := rfl
@[simp] theorem State.modCopse_joins (s : State) (i : Nat) (f : Copse → Copse) : (s.modCopse i f).joins = s.joins := rfl
@[simp] theorem State.modCopse_recents (s : State) (i : Nat) (f : Copse → Copse) : (s.modCopse i f).recents = s.recents := rfl
@[simp] theorem State.modCopse_lastAt (s : State) (i : Nat) (f : Copse → Copse) : (s.modCopse i f).lastAt = s.lastAt := rfl
@[simp] theorem State.modCopse_ricksrc (s : State) (i : Nat) (f : Copse → Copse) : (s.modCopse i f).ricksrc = s.ricksrc := rfl
@[simp] theorem State.modCopse_pcache (s : State) (i : Nat) (f : Copse → Copse) : (s.modCopse i f).pcache = s.pcache := rfl
@[simp] theorem State.modCopse_cores (s : State) (i : Nat) (f : Copse → Copse) : (s.modCopse i f).cores = s.cores := rfl
@[simp] theorem State.modCopse_ctxs (s : State) (i : Nat) (f : Copse → Copse) : (s.modCopse i f).ctxs = s.ctxs := rfl
@[simp] theorem State.modCopse_dies (s : State) (i : Nat) (f : Copse → Copse) : (s.modCopse i f).dies = s.dies := rfl
@[simp] theorem State.modCopse_gws (s : State) (i : Nat) (f : Copse → Copse) : (s.modCopse i f).gws = s.gws := rfl
@[simp] theorem State.modCopse_flocks (s : State) (i : Nat) (f : Copse → Copse) : (s.modCopse i f).flocks = s.flocks := rfl
@[simp] theorem State.modCopse_flits (s : State) (i : Nat) (f : Copse → Copse) : (s.modCopse i f).flits = s.flits := rfl
@[simp] theorem State.modCopse_walks (s : State) (i : Nat) (f : Copse → Copse) : (s.modCopse i f).walks = s.walks := rfl
@[simp] theorem State.modCopse_ops (s : State) (i : Nat) (f : Copse → Copse) : (s.modCopse i f).ops = s.ops := rfl
@[simp] theorem State.modCopse_nextId (s : State) (i : Nat) (f : Copse → Copse) : (s.modCopse i f).nextId = s.nextId := rfl
@[simp] theorem State.modCopse_health (s : State) (i : Nat) (f : Copse → Copse) : (s.modCopse i f).health = s.health := rfl
@[simp] theorem State.modCopse_alarms (s : State) (i : Nat) (f : Copse → Copse) : (s.modCopse i f).alarms = s.alarms := rfl
@[simp] theorem State.modCopse_poolcap (s : State) (i : Nat) (f : Copse → Copse) : (s.modCopse i f).poolcap = s.poolcap := rfl
@[simp] theorem State.modCopse_hpool (s : State) (i : Nat) (f : Copse → Copse) : (s.modCopse i f).hpool = s.hpool := rfl
@[simp] theorem State.modCopse_spread (s : State) (i : Nat) (f : Copse → Copse) : (s.modCopse i f).spread = s.spread := rfl
@[simp] theorem State.modCopse_dhome (s : State) (i : Nat) (f : Copse → Copse) : (s.modCopse i f).dhome = s.dhome := rfl
@[simp] theorem State.modCopse_pccfg (s : State) (i : Nat) (f : Copse → Copse) : (s.modCopse i f).pccfg = s.pccfg := rfl
@[simp] theorem State.modCopse_nroute (s : State) (i : Nat) (f : Copse → Copse) : (s.modCopse i f).nroute = s.nroute := rfl
@[simp] theorem State.modCopse_fwver (s : State) (i : Nat) (f : Copse → Copse) : (s.modCopse i f).fwver = s.fwver := rfl
@[simp] theorem State.modCopse_image (s : State) (i : Nat) (f : Copse → Copse) : (s.modCopse i f).image = s.image := rfl
@[simp] theorem State.modCopse_cmds (s : State) (i : Nat) (f : Copse → Copse) : (s.modCopse i f).cmds = s.cmds := rfl
@[simp] theorem State.modCopse_tcqst (s : State) (i : Nat) (f : Copse → Copse) : (s.modCopse i f).tcqst = s.tcqst := rfl
@[simp] theorem State.modCopse_tcq (s : State) (i : Nat) (f : Copse → Copse) : (s.modCopse i f).tcq = s.tcq := rfl
@[simp] theorem State.modCopse_tcstage (s : State) (i : Nat) (f : Copse → Copse) : (s.modCopse i f).tcstage = s.tcstage := rfl
@[simp] theorem State.modCopse_tcmsgs (s : State) (i : Nat) (f : Copse → Copse) : (s.modCopse i f).tcmsgs = s.tcmsgs := rfl
@[simp] theorem State.modCopse_stileKey (s : State) (i : Nat) (f : Copse → Copse) : (s.modCopse i f).stileKey = s.stileKey := rfl
@[simp] theorem State.modCopse_sharedKx (s : State) (i : Nat) (f : Copse → Copse) : (s.modCopse i f).sharedKx = s.sharedKx := rfl
@[simp] theorem State.modCopse_shareAsk (s : State) (i : Nat) (f : Copse → Copse) : (s.modCopse i f).shareAsk = s.shareAsk := rfl
@[simp] theorem State.modCopse_stiles (s : State) (i : Nat) (f : Copse → Copse) : (s.modCopse i f).stiles = s.stiles := rfl
@[simp] theorem State.modCopse_shared (s : State) (i : Nat) (f : Copse → Copse) : (s.modCopse i f).shared = s.shared := rfl
@[simp] theorem State.modCopse_keyIds (s : State) (i : Nat) (f : Copse → Copse) : (s.modCopse i f).keyIds = s.keyIds := rfl
@[simp] theorem State.modCopse_sessions (s : State) (i : Nat) (f : Copse → Copse) : (s.modCopse i f).sessions = s.sessions := rfl
@[simp] theorem State.modCopse_attLeaf (s : State) (i : Nat) (f : Copse → Copse) : (s.modCopse i f).attLeaf = s.attLeaf := rfl
@[simp] theorem State.modCopse_attKey (s : State) (i : Nat) (f : Copse → Copse) : (s.modCopse i f).attKey = s.attKey := rfl
@[simp] theorem State.modCopse_windows (s : State) (i : Nat) (f : Copse → Copse) : (s.modCopse i f).windows = s.windows := rfl
@[simp] theorem State.modCopse_sent (s : State) (i : Nat) (f : Copse → Copse) : (s.modCopse i f).sent = s.sent := rfl
@[simp] theorem State.modCopse_precopy (s : State) (i : Nat) (f : Copse → Copse) : (s.modCopse i f).precopy = s.precopy := rfl
@[simp] theorem State.modCopse_preAt (s : State) (i : Nat) (f : Copse → Copse) : (s.modCopse i f).preAt = s.preAt := rfl
@[simp] theorem State.modCopse_colls (s : State) (i : Nat) (f : Copse → Copse) : (s.modCopse i f).colls = s.colls := rfl
@[simp] theorem State.modCopse_linkBad (s : State) (i : Nat) (f : Copse → Copse) : (s.modCopse i f).linkBad = s.linkBad := rfl
@[simp] theorem State.modCopse_linkSeq (s : State) (i : Nat) (f : Copse → Copse) : (s.modCopse i f).linkSeq = s.linkSeq := rfl
@[simp] theorem State.modCopse_stopped (s : State) (i : Nat) (f : Copse → Copse) : (s.modCopse i f).stopped = s.stopped := rfl
@[simp] theorem State.modCopse_up (s : State) (i : Nat) (f : Copse → Copse) : (s.modCopse i f).up = s.up := rfl

/-! ### setCtx -/

@[simp] theorem State.setCtx_clock (s : State) (i : Nat) (x : Ctx) : (s.setCtx i x).clock = s.clock := rfl
@[simp] theorem State.setCtx_now (s : State) (i : Nat) (x : Ctx) : (s.setCtx i x).now = s.now := rfl
@[simp] theorem State.setCtx_issued (s : State) (i : Nat) (x : Ctx) : (s.setCtx i x).issued = s.issued := rfl
@[simp] theorem State.setCtx_scrubs (s : State) (i : Nat) (x : Ctx) : (s.setCtx i x).scrubs = s.scrubs := rfl
@[simp] theorem State.setCtx_errlogs (s : State) (i : Nat) (x : Ctx) : (s.setCtx i x).errlogs = s.errlogs := rfl
@[simp] theorem State.setCtx_tclog (s : State) (i : Nat) (x : Ctx) : (s.setCtx i x).tclog = s.tclog := rfl
@[simp] theorem State.setCtx_linkDead (s : State) (i : Nat) (x : Ctx) : (s.setCtx i x).linkDead = s.linkDead := rfl
@[simp] theorem State.setCtx_fresh (s : State) (i : Nat) (x : Ctx) : (s.setCtx i x).fresh = s.fresh := rfl
@[simp] theorem State.setCtx_turn (s : State) (i : Nat) (x : Ctx) : (s.setCtx i x).turn = s.turn := rfl
@[simp] theorem State.setCtx_event (s : State) (i : Nat) (x : Ctx) : (s.setCtx i x).event = s.event := rfl
@[simp] theorem State.setCtx_inputs (s : State) (i : Nat) (x : Ctx) : (s.setCtx i x).inputs = s.inputs := rfl
@[simp] theorem State.setCtx_pending (s : State) (i : Nat) (x : Ctx) : (s.setCtx i x).pending = s.pending := rfl
@[simp] theorem State.setCtx_mem (s : State) (i : Nat) (x : Ctx) : (s.setCtx i x).mem = s.mem := rfl
@[simp] theorem State.setCtx_secs (s : State) (i : Nat) (x : Ctx) : (s.setCtx i x).secs = s.secs := rfl
@[simp] theorem State.setCtx_resvs (s : State) (i : Nat) (x : Ctx) : (s.setCtx i x).resvs = s.resvs := rfl
@[simp] theorem State.setCtx_revokes (s : State) (i : Nat) (x : Ctx) : (s.setCtx i x).revokes = s.revokes := rfl
@[simp] theorem State.setCtx_joins (s : State) (i : Nat) (x : Ctx) : (s.setCtx i x).joins = s.joins := rfl
@[simp] theorem State.setCtx_recents (s : State) (i : Nat) (x : Ctx) : (s.setCtx i x).recents = s.recents := rfl
@[simp] theorem State.setCtx_lastAt (s : State) (i : Nat) (x : Ctx) : (s.setCtx i x).lastAt = s.lastAt := rfl
@[simp] theorem State.setCtx_ricksrc (s : State) (i : Nat) (x : Ctx) : (s.setCtx i x).ricksrc = s.ricksrc := rfl
@[simp] theorem State.setCtx_pcache (s : State) (i : Nat) (x : Ctx) : (s.setCtx i x).pcache = s.pcache := rfl
@[simp] theorem State.setCtx_cores (s : State) (i : Nat) (x : Ctx) : (s.setCtx i x).cores = s.cores := rfl
@[simp] theorem State.setCtx_copses (s : State) (i : Nat) (x : Ctx) : (s.setCtx i x).copses = s.copses := rfl
@[simp] theorem State.setCtx_ctxs (s : State) (i : Nat) (x : Ctx) : (s.setCtx i x).ctxs = s.ctxs.put i x := rfl
@[simp] theorem State.setCtx_dies (s : State) (i : Nat) (x : Ctx) : (s.setCtx i x).dies = s.dies := rfl
@[simp] theorem State.setCtx_gws (s : State) (i : Nat) (x : Ctx) : (s.setCtx i x).gws = s.gws := rfl
@[simp] theorem State.setCtx_flocks (s : State) (i : Nat) (x : Ctx) : (s.setCtx i x).flocks = s.flocks := rfl
@[simp] theorem State.setCtx_flits (s : State) (i : Nat) (x : Ctx) : (s.setCtx i x).flits = s.flits := rfl
@[simp] theorem State.setCtx_walks (s : State) (i : Nat) (x : Ctx) : (s.setCtx i x).walks = s.walks := rfl
@[simp] theorem State.setCtx_ops (s : State) (i : Nat) (x : Ctx) : (s.setCtx i x).ops = s.ops := rfl
@[simp] theorem State.setCtx_nextId (s : State) (i : Nat) (x : Ctx) : (s.setCtx i x).nextId = s.nextId := rfl
@[simp] theorem State.setCtx_health (s : State) (i : Nat) (x : Ctx) : (s.setCtx i x).health = s.health := rfl
@[simp] theorem State.setCtx_alarms (s : State) (i : Nat) (x : Ctx) : (s.setCtx i x).alarms = s.alarms := rfl
@[simp] theorem State.setCtx_poolcap (s : State) (i : Nat) (x : Ctx) : (s.setCtx i x).poolcap = s.poolcap := rfl
@[simp] theorem State.setCtx_hpool (s : State) (i : Nat) (x : Ctx) : (s.setCtx i x).hpool = s.hpool := rfl
@[simp] theorem State.setCtx_spread (s : State) (i : Nat) (x : Ctx) : (s.setCtx i x).spread = s.spread := rfl
@[simp] theorem State.setCtx_dhome (s : State) (i : Nat) (x : Ctx) : (s.setCtx i x).dhome = s.dhome := rfl
@[simp] theorem State.setCtx_pccfg (s : State) (i : Nat) (x : Ctx) : (s.setCtx i x).pccfg = s.pccfg := rfl
@[simp] theorem State.setCtx_nroute (s : State) (i : Nat) (x : Ctx) : (s.setCtx i x).nroute = s.nroute := rfl
@[simp] theorem State.setCtx_fwver (s : State) (i : Nat) (x : Ctx) : (s.setCtx i x).fwver = s.fwver := rfl
@[simp] theorem State.setCtx_image (s : State) (i : Nat) (x : Ctx) : (s.setCtx i x).image = s.image := rfl
@[simp] theorem State.setCtx_cmds (s : State) (i : Nat) (x : Ctx) : (s.setCtx i x).cmds = s.cmds := rfl
@[simp] theorem State.setCtx_tcqst (s : State) (i : Nat) (x : Ctx) : (s.setCtx i x).tcqst = s.tcqst := rfl
@[simp] theorem State.setCtx_tcq (s : State) (i : Nat) (x : Ctx) : (s.setCtx i x).tcq = s.tcq := rfl
@[simp] theorem State.setCtx_tcstage (s : State) (i : Nat) (x : Ctx) : (s.setCtx i x).tcstage = s.tcstage := rfl
@[simp] theorem State.setCtx_tcmsgs (s : State) (i : Nat) (x : Ctx) : (s.setCtx i x).tcmsgs = s.tcmsgs := rfl
@[simp] theorem State.setCtx_stileKey (s : State) (i : Nat) (x : Ctx) : (s.setCtx i x).stileKey = s.stileKey := rfl
@[simp] theorem State.setCtx_sharedKx (s : State) (i : Nat) (x : Ctx) : (s.setCtx i x).sharedKx = s.sharedKx := rfl
@[simp] theorem State.setCtx_shareAsk (s : State) (i : Nat) (x : Ctx) : (s.setCtx i x).shareAsk = s.shareAsk := rfl
@[simp] theorem State.setCtx_stiles (s : State) (i : Nat) (x : Ctx) : (s.setCtx i x).stiles = s.stiles := rfl
@[simp] theorem State.setCtx_shared (s : State) (i : Nat) (x : Ctx) : (s.setCtx i x).shared = s.shared := rfl
@[simp] theorem State.setCtx_keyIds (s : State) (i : Nat) (x : Ctx) : (s.setCtx i x).keyIds = s.keyIds := rfl
@[simp] theorem State.setCtx_sessions (s : State) (i : Nat) (x : Ctx) : (s.setCtx i x).sessions = s.sessions := rfl
@[simp] theorem State.setCtx_attLeaf (s : State) (i : Nat) (x : Ctx) : (s.setCtx i x).attLeaf = s.attLeaf := rfl
@[simp] theorem State.setCtx_attKey (s : State) (i : Nat) (x : Ctx) : (s.setCtx i x).attKey = s.attKey := rfl
@[simp] theorem State.setCtx_windows (s : State) (i : Nat) (x : Ctx) : (s.setCtx i x).windows = s.windows := rfl
@[simp] theorem State.setCtx_sent (s : State) (i : Nat) (x : Ctx) : (s.setCtx i x).sent = s.sent := rfl
@[simp] theorem State.setCtx_precopy (s : State) (i : Nat) (x : Ctx) : (s.setCtx i x).precopy = s.precopy := rfl
@[simp] theorem State.setCtx_preAt (s : State) (i : Nat) (x : Ctx) : (s.setCtx i x).preAt = s.preAt := rfl
@[simp] theorem State.setCtx_colls (s : State) (i : Nat) (x : Ctx) : (s.setCtx i x).colls = s.colls := rfl
@[simp] theorem State.setCtx_linkBad (s : State) (i : Nat) (x : Ctx) : (s.setCtx i x).linkBad = s.linkBad := rfl
@[simp] theorem State.setCtx_linkSeq (s : State) (i : Nat) (x : Ctx) : (s.setCtx i x).linkSeq = s.linkSeq := rfl
@[simp] theorem State.setCtx_stopped (s : State) (i : Nat) (x : Ctx) : (s.setCtx i x).stopped = s.stopped := rfl
@[simp] theorem State.setCtx_up (s : State) (i : Nat) (x : Ctx) : (s.setCtx i x).up = s.up := rfl

/-! ### modCtx -/

@[simp] theorem State.modCtx_clock (s : State) (i : Nat) (f : Ctx → Ctx) : (s.modCtx i f).clock = s.clock := rfl
@[simp] theorem State.modCtx_now (s : State) (i : Nat) (f : Ctx → Ctx) : (s.modCtx i f).now = s.now := rfl
@[simp] theorem State.modCtx_issued (s : State) (i : Nat) (f : Ctx → Ctx) : (s.modCtx i f).issued = s.issued := rfl
@[simp] theorem State.modCtx_scrubs (s : State) (i : Nat) (f : Ctx → Ctx) : (s.modCtx i f).scrubs = s.scrubs := rfl
@[simp] theorem State.modCtx_errlogs (s : State) (i : Nat) (f : Ctx → Ctx) : (s.modCtx i f).errlogs = s.errlogs := rfl
@[simp] theorem State.modCtx_tclog (s : State) (i : Nat) (f : Ctx → Ctx) : (s.modCtx i f).tclog = s.tclog := rfl
@[simp] theorem State.modCtx_linkDead (s : State) (i : Nat) (f : Ctx → Ctx) : (s.modCtx i f).linkDead = s.linkDead := rfl
@[simp] theorem State.modCtx_fresh (s : State) (i : Nat) (f : Ctx → Ctx) : (s.modCtx i f).fresh = s.fresh := rfl
@[simp] theorem State.modCtx_turn (s : State) (i : Nat) (f : Ctx → Ctx) : (s.modCtx i f).turn = s.turn := rfl
@[simp] theorem State.modCtx_event (s : State) (i : Nat) (f : Ctx → Ctx) : (s.modCtx i f).event = s.event := rfl
@[simp] theorem State.modCtx_inputs (s : State) (i : Nat) (f : Ctx → Ctx) : (s.modCtx i f).inputs = s.inputs := rfl
@[simp] theorem State.modCtx_pending (s : State) (i : Nat) (f : Ctx → Ctx) : (s.modCtx i f).pending = s.pending := rfl
@[simp] theorem State.modCtx_mem (s : State) (i : Nat) (f : Ctx → Ctx) : (s.modCtx i f).mem = s.mem := rfl
@[simp] theorem State.modCtx_secs (s : State) (i : Nat) (f : Ctx → Ctx) : (s.modCtx i f).secs = s.secs := rfl
@[simp] theorem State.modCtx_resvs (s : State) (i : Nat) (f : Ctx → Ctx) : (s.modCtx i f).resvs = s.resvs := rfl
@[simp] theorem State.modCtx_revokes (s : State) (i : Nat) (f : Ctx → Ctx) : (s.modCtx i f).revokes = s.revokes := rfl
@[simp] theorem State.modCtx_joins (s : State) (i : Nat) (f : Ctx → Ctx) : (s.modCtx i f).joins = s.joins := rfl
@[simp] theorem State.modCtx_recents (s : State) (i : Nat) (f : Ctx → Ctx) : (s.modCtx i f).recents = s.recents := rfl
@[simp] theorem State.modCtx_lastAt (s : State) (i : Nat) (f : Ctx → Ctx) : (s.modCtx i f).lastAt = s.lastAt := rfl
@[simp] theorem State.modCtx_ricksrc (s : State) (i : Nat) (f : Ctx → Ctx) : (s.modCtx i f).ricksrc = s.ricksrc := rfl
@[simp] theorem State.modCtx_pcache (s : State) (i : Nat) (f : Ctx → Ctx) : (s.modCtx i f).pcache = s.pcache := rfl
@[simp] theorem State.modCtx_cores (s : State) (i : Nat) (f : Ctx → Ctx) : (s.modCtx i f).cores = s.cores := rfl
@[simp] theorem State.modCtx_copses (s : State) (i : Nat) (f : Ctx → Ctx) : (s.modCtx i f).copses = s.copses := rfl
@[simp] theorem State.modCtx_dies (s : State) (i : Nat) (f : Ctx → Ctx) : (s.modCtx i f).dies = s.dies := rfl
@[simp] theorem State.modCtx_gws (s : State) (i : Nat) (f : Ctx → Ctx) : (s.modCtx i f).gws = s.gws := rfl
@[simp] theorem State.modCtx_flocks (s : State) (i : Nat) (f : Ctx → Ctx) : (s.modCtx i f).flocks = s.flocks := rfl
@[simp] theorem State.modCtx_flits (s : State) (i : Nat) (f : Ctx → Ctx) : (s.modCtx i f).flits = s.flits := rfl
@[simp] theorem State.modCtx_walks (s : State) (i : Nat) (f : Ctx → Ctx) : (s.modCtx i f).walks = s.walks := rfl
@[simp] theorem State.modCtx_ops (s : State) (i : Nat) (f : Ctx → Ctx) : (s.modCtx i f).ops = s.ops := rfl
@[simp] theorem State.modCtx_nextId (s : State) (i : Nat) (f : Ctx → Ctx) : (s.modCtx i f).nextId = s.nextId := rfl
@[simp] theorem State.modCtx_health (s : State) (i : Nat) (f : Ctx → Ctx) : (s.modCtx i f).health = s.health := rfl
@[simp] theorem State.modCtx_alarms (s : State) (i : Nat) (f : Ctx → Ctx) : (s.modCtx i f).alarms = s.alarms := rfl
@[simp] theorem State.modCtx_poolcap (s : State) (i : Nat) (f : Ctx → Ctx) : (s.modCtx i f).poolcap = s.poolcap := rfl
@[simp] theorem State.modCtx_hpool (s : State) (i : Nat) (f : Ctx → Ctx) : (s.modCtx i f).hpool = s.hpool := rfl
@[simp] theorem State.modCtx_spread (s : State) (i : Nat) (f : Ctx → Ctx) : (s.modCtx i f).spread = s.spread := rfl
@[simp] theorem State.modCtx_dhome (s : State) (i : Nat) (f : Ctx → Ctx) : (s.modCtx i f).dhome = s.dhome := rfl
@[simp] theorem State.modCtx_pccfg (s : State) (i : Nat) (f : Ctx → Ctx) : (s.modCtx i f).pccfg = s.pccfg := rfl
@[simp] theorem State.modCtx_nroute (s : State) (i : Nat) (f : Ctx → Ctx) : (s.modCtx i f).nroute = s.nroute := rfl
@[simp] theorem State.modCtx_fwver (s : State) (i : Nat) (f : Ctx → Ctx) : (s.modCtx i f).fwver = s.fwver := rfl
@[simp] theorem State.modCtx_image (s : State) (i : Nat) (f : Ctx → Ctx) : (s.modCtx i f).image = s.image := rfl
@[simp] theorem State.modCtx_cmds (s : State) (i : Nat) (f : Ctx → Ctx) : (s.modCtx i f).cmds = s.cmds := rfl
@[simp] theorem State.modCtx_tcqst (s : State) (i : Nat) (f : Ctx → Ctx) : (s.modCtx i f).tcqst = s.tcqst := rfl
@[simp] theorem State.modCtx_tcq (s : State) (i : Nat) (f : Ctx → Ctx) : (s.modCtx i f).tcq = s.tcq := rfl
@[simp] theorem State.modCtx_tcstage (s : State) (i : Nat) (f : Ctx → Ctx) : (s.modCtx i f).tcstage = s.tcstage := rfl
@[simp] theorem State.modCtx_tcmsgs (s : State) (i : Nat) (f : Ctx → Ctx) : (s.modCtx i f).tcmsgs = s.tcmsgs := rfl
@[simp] theorem State.modCtx_stileKey (s : State) (i : Nat) (f : Ctx → Ctx) : (s.modCtx i f).stileKey = s.stileKey := rfl
@[simp] theorem State.modCtx_sharedKx (s : State) (i : Nat) (f : Ctx → Ctx) : (s.modCtx i f).sharedKx = s.sharedKx := rfl
@[simp] theorem State.modCtx_shareAsk (s : State) (i : Nat) (f : Ctx → Ctx) : (s.modCtx i f).shareAsk = s.shareAsk := rfl
@[simp] theorem State.modCtx_stiles (s : State) (i : Nat) (f : Ctx → Ctx) : (s.modCtx i f).stiles = s.stiles := rfl
@[simp] theorem State.modCtx_shared (s : State) (i : Nat) (f : Ctx → Ctx) : (s.modCtx i f).shared = s.shared := rfl
@[simp] theorem State.modCtx_keyIds (s : State) (i : Nat) (f : Ctx → Ctx) : (s.modCtx i f).keyIds = s.keyIds := rfl
@[simp] theorem State.modCtx_sessions (s : State) (i : Nat) (f : Ctx → Ctx) : (s.modCtx i f).sessions = s.sessions := rfl
@[simp] theorem State.modCtx_attLeaf (s : State) (i : Nat) (f : Ctx → Ctx) : (s.modCtx i f).attLeaf = s.attLeaf := rfl
@[simp] theorem State.modCtx_attKey (s : State) (i : Nat) (f : Ctx → Ctx) : (s.modCtx i f).attKey = s.attKey := rfl
@[simp] theorem State.modCtx_windows (s : State) (i : Nat) (f : Ctx → Ctx) : (s.modCtx i f).windows = s.windows := rfl
@[simp] theorem State.modCtx_sent (s : State) (i : Nat) (f : Ctx → Ctx) : (s.modCtx i f).sent = s.sent := rfl
@[simp] theorem State.modCtx_precopy (s : State) (i : Nat) (f : Ctx → Ctx) : (s.modCtx i f).precopy = s.precopy := rfl
@[simp] theorem State.modCtx_preAt (s : State) (i : Nat) (f : Ctx → Ctx) : (s.modCtx i f).preAt = s.preAt := rfl
@[simp] theorem State.modCtx_colls (s : State) (i : Nat) (f : Ctx → Ctx) : (s.modCtx i f).colls = s.colls := rfl
@[simp] theorem State.modCtx_linkBad (s : State) (i : Nat) (f : Ctx → Ctx) : (s.modCtx i f).linkBad = s.linkBad := rfl
@[simp] theorem State.modCtx_linkSeq (s : State) (i : Nat) (f : Ctx → Ctx) : (s.modCtx i f).linkSeq = s.linkSeq := rfl
@[simp] theorem State.modCtx_stopped (s : State) (i : Nat) (f : Ctx → Ctx) : (s.modCtx i f).stopped = s.stopped := rfl
@[simp] theorem State.modCtx_up (s : State) (i : Nat) (f : Ctx → Ctx) : (s.modCtx i f).up = s.up := rfl

/-! ### setDie -/

@[simp] theorem State.setDie_clock (s : State) (i : Nat) (x : Die) : (s.setDie i x).clock = s.clock := rfl
@[simp] theorem State.setDie_now (s : State) (i : Nat) (x : Die) : (s.setDie i x).now = s.now := rfl
@[simp] theorem State.setDie_issued (s : State) (i : Nat) (x : Die) : (s.setDie i x).issued = s.issued := rfl
@[simp] theorem State.setDie_scrubs (s : State) (i : Nat) (x : Die) : (s.setDie i x).scrubs = s.scrubs := rfl
@[simp] theorem State.setDie_errlogs (s : State) (i : Nat) (x : Die) : (s.setDie i x).errlogs = s.errlogs := rfl
@[simp] theorem State.setDie_tclog (s : State) (i : Nat) (x : Die) : (s.setDie i x).tclog = s.tclog := rfl
@[simp] theorem State.setDie_linkDead (s : State) (i : Nat) (x : Die) : (s.setDie i x).linkDead = s.linkDead := rfl
@[simp] theorem State.setDie_fresh (s : State) (i : Nat) (x : Die) : (s.setDie i x).fresh = s.fresh := rfl
@[simp] theorem State.setDie_turn (s : State) (i : Nat) (x : Die) : (s.setDie i x).turn = s.turn := rfl
@[simp] theorem State.setDie_event (s : State) (i : Nat) (x : Die) : (s.setDie i x).event = s.event := rfl
@[simp] theorem State.setDie_inputs (s : State) (i : Nat) (x : Die) : (s.setDie i x).inputs = s.inputs := rfl
@[simp] theorem State.setDie_pending (s : State) (i : Nat) (x : Die) : (s.setDie i x).pending = s.pending := rfl
@[simp] theorem State.setDie_mem (s : State) (i : Nat) (x : Die) : (s.setDie i x).mem = s.mem := rfl
@[simp] theorem State.setDie_secs (s : State) (i : Nat) (x : Die) : (s.setDie i x).secs = s.secs := rfl
@[simp] theorem State.setDie_resvs (s : State) (i : Nat) (x : Die) : (s.setDie i x).resvs = s.resvs := rfl
@[simp] theorem State.setDie_revokes (s : State) (i : Nat) (x : Die) : (s.setDie i x).revokes = s.revokes := rfl
@[simp] theorem State.setDie_joins (s : State) (i : Nat) (x : Die) : (s.setDie i x).joins = s.joins := rfl
@[simp] theorem State.setDie_recents (s : State) (i : Nat) (x : Die) : (s.setDie i x).recents = s.recents := rfl
@[simp] theorem State.setDie_lastAt (s : State) (i : Nat) (x : Die) : (s.setDie i x).lastAt = s.lastAt := rfl
@[simp] theorem State.setDie_ricksrc (s : State) (i : Nat) (x : Die) : (s.setDie i x).ricksrc = s.ricksrc := rfl
@[simp] theorem State.setDie_pcache (s : State) (i : Nat) (x : Die) : (s.setDie i x).pcache = s.pcache := rfl
@[simp] theorem State.setDie_cores (s : State) (i : Nat) (x : Die) : (s.setDie i x).cores = s.cores := rfl
@[simp] theorem State.setDie_copses (s : State) (i : Nat) (x : Die) : (s.setDie i x).copses = s.copses := rfl
@[simp] theorem State.setDie_ctxs (s : State) (i : Nat) (x : Die) : (s.setDie i x).ctxs = s.ctxs := rfl
@[simp] theorem State.setDie_dies (s : State) (i : Nat) (x : Die) : (s.setDie i x).dies = s.dies.put i x := rfl
@[simp] theorem State.setDie_gws (s : State) (i : Nat) (x : Die) : (s.setDie i x).gws = s.gws := rfl
@[simp] theorem State.setDie_flocks (s : State) (i : Nat) (x : Die) : (s.setDie i x).flocks = s.flocks := rfl
@[simp] theorem State.setDie_flits (s : State) (i : Nat) (x : Die) : (s.setDie i x).flits = s.flits := rfl
@[simp] theorem State.setDie_walks (s : State) (i : Nat) (x : Die) : (s.setDie i x).walks = s.walks := rfl
@[simp] theorem State.setDie_ops (s : State) (i : Nat) (x : Die) : (s.setDie i x).ops = s.ops := rfl
@[simp] theorem State.setDie_nextId (s : State) (i : Nat) (x : Die) : (s.setDie i x).nextId = s.nextId := rfl
@[simp] theorem State.setDie_health (s : State) (i : Nat) (x : Die) : (s.setDie i x).health = s.health := rfl
@[simp] theorem State.setDie_alarms (s : State) (i : Nat) (x : Die) : (s.setDie i x).alarms = s.alarms := rfl
@[simp] theorem State.setDie_poolcap (s : State) (i : Nat) (x : Die) : (s.setDie i x).poolcap = s.poolcap := rfl
@[simp] theorem State.setDie_hpool (s : State) (i : Nat) (x : Die) : (s.setDie i x).hpool = s.hpool := rfl
@[simp] theorem State.setDie_spread (s : State) (i : Nat) (x : Die) : (s.setDie i x).spread = s.spread := rfl
@[simp] theorem State.setDie_dhome (s : State) (i : Nat) (x : Die) : (s.setDie i x).dhome = s.dhome := rfl
@[simp] theorem State.setDie_pccfg (s : State) (i : Nat) (x : Die) : (s.setDie i x).pccfg = s.pccfg := rfl
@[simp] theorem State.setDie_nroute (s : State) (i : Nat) (x : Die) : (s.setDie i x).nroute = s.nroute := rfl
@[simp] theorem State.setDie_fwver (s : State) (i : Nat) (x : Die) : (s.setDie i x).fwver = s.fwver := rfl
@[simp] theorem State.setDie_image (s : State) (i : Nat) (x : Die) : (s.setDie i x).image = s.image := rfl
@[simp] theorem State.setDie_cmds (s : State) (i : Nat) (x : Die) : (s.setDie i x).cmds = s.cmds := rfl
@[simp] theorem State.setDie_tcqst (s : State) (i : Nat) (x : Die) : (s.setDie i x).tcqst = s.tcqst := rfl
@[simp] theorem State.setDie_tcq (s : State) (i : Nat) (x : Die) : (s.setDie i x).tcq = s.tcq := rfl
@[simp] theorem State.setDie_tcstage (s : State) (i : Nat) (x : Die) : (s.setDie i x).tcstage = s.tcstage := rfl
@[simp] theorem State.setDie_tcmsgs (s : State) (i : Nat) (x : Die) : (s.setDie i x).tcmsgs = s.tcmsgs := rfl
@[simp] theorem State.setDie_stileKey (s : State) (i : Nat) (x : Die) : (s.setDie i x).stileKey = s.stileKey := rfl
@[simp] theorem State.setDie_sharedKx (s : State) (i : Nat) (x : Die) : (s.setDie i x).sharedKx = s.sharedKx := rfl
@[simp] theorem State.setDie_shareAsk (s : State) (i : Nat) (x : Die) : (s.setDie i x).shareAsk = s.shareAsk := rfl
@[simp] theorem State.setDie_stiles (s : State) (i : Nat) (x : Die) : (s.setDie i x).stiles = s.stiles := rfl
@[simp] theorem State.setDie_shared (s : State) (i : Nat) (x : Die) : (s.setDie i x).shared = s.shared := rfl
@[simp] theorem State.setDie_keyIds (s : State) (i : Nat) (x : Die) : (s.setDie i x).keyIds = s.keyIds := rfl
@[simp] theorem State.setDie_sessions (s : State) (i : Nat) (x : Die) : (s.setDie i x).sessions = s.sessions := rfl
@[simp] theorem State.setDie_attLeaf (s : State) (i : Nat) (x : Die) : (s.setDie i x).attLeaf = s.attLeaf := rfl
@[simp] theorem State.setDie_attKey (s : State) (i : Nat) (x : Die) : (s.setDie i x).attKey = s.attKey := rfl
@[simp] theorem State.setDie_windows (s : State) (i : Nat) (x : Die) : (s.setDie i x).windows = s.windows := rfl
@[simp] theorem State.setDie_sent (s : State) (i : Nat) (x : Die) : (s.setDie i x).sent = s.sent := rfl
@[simp] theorem State.setDie_precopy (s : State) (i : Nat) (x : Die) : (s.setDie i x).precopy = s.precopy := rfl
@[simp] theorem State.setDie_preAt (s : State) (i : Nat) (x : Die) : (s.setDie i x).preAt = s.preAt := rfl
@[simp] theorem State.setDie_colls (s : State) (i : Nat) (x : Die) : (s.setDie i x).colls = s.colls := rfl
@[simp] theorem State.setDie_linkBad (s : State) (i : Nat) (x : Die) : (s.setDie i x).linkBad = s.linkBad := rfl
@[simp] theorem State.setDie_linkSeq (s : State) (i : Nat) (x : Die) : (s.setDie i x).linkSeq = s.linkSeq := rfl
@[simp] theorem State.setDie_stopped (s : State) (i : Nat) (x : Die) : (s.setDie i x).stopped = s.stopped := rfl
@[simp] theorem State.setDie_up (s : State) (i : Nat) (x : Die) : (s.setDie i x).up = s.up := rfl

/-! ### modDie -/

@[simp] theorem State.modDie_clock (s : State) (i : Nat) (f : Die → Die) : (s.modDie i f).clock = s.clock := rfl
@[simp] theorem State.modDie_now (s : State) (i : Nat) (f : Die → Die) : (s.modDie i f).now = s.now := rfl
@[simp] theorem State.modDie_issued (s : State) (i : Nat) (f : Die → Die) : (s.modDie i f).issued = s.issued := rfl
@[simp] theorem State.modDie_scrubs (s : State) (i : Nat) (f : Die → Die) : (s.modDie i f).scrubs = s.scrubs := rfl
@[simp] theorem State.modDie_errlogs (s : State) (i : Nat) (f : Die → Die) : (s.modDie i f).errlogs = s.errlogs := rfl
@[simp] theorem State.modDie_tclog (s : State) (i : Nat) (f : Die → Die) : (s.modDie i f).tclog = s.tclog := rfl
@[simp] theorem State.modDie_linkDead (s : State) (i : Nat) (f : Die → Die) : (s.modDie i f).linkDead = s.linkDead := rfl
@[simp] theorem State.modDie_fresh (s : State) (i : Nat) (f : Die → Die) : (s.modDie i f).fresh = s.fresh := rfl
@[simp] theorem State.modDie_turn (s : State) (i : Nat) (f : Die → Die) : (s.modDie i f).turn = s.turn := rfl
@[simp] theorem State.modDie_event (s : State) (i : Nat) (f : Die → Die) : (s.modDie i f).event = s.event := rfl
@[simp] theorem State.modDie_inputs (s : State) (i : Nat) (f : Die → Die) : (s.modDie i f).inputs = s.inputs := rfl
@[simp] theorem State.modDie_pending (s : State) (i : Nat) (f : Die → Die) : (s.modDie i f).pending = s.pending := rfl
@[simp] theorem State.modDie_mem (s : State) (i : Nat) (f : Die → Die) : (s.modDie i f).mem = s.mem := rfl
@[simp] theorem State.modDie_secs (s : State) (i : Nat) (f : Die → Die) : (s.modDie i f).secs = s.secs := rfl
@[simp] theorem State.modDie_resvs (s : State) (i : Nat) (f : Die → Die) : (s.modDie i f).resvs = s.resvs := rfl
@[simp] theorem State.modDie_revokes (s : State) (i : Nat) (f : Die → Die) : (s.modDie i f).revokes = s.revokes := rfl
@[simp] theorem State.modDie_joins (s : State) (i : Nat) (f : Die → Die) : (s.modDie i f).joins = s.joins := rfl
@[simp] theorem State.modDie_recents (s : State) (i : Nat) (f : Die → Die) : (s.modDie i f).recents = s.recents := rfl
@[simp] theorem State.modDie_lastAt (s : State) (i : Nat) (f : Die → Die) : (s.modDie i f).lastAt = s.lastAt := rfl
@[simp] theorem State.modDie_ricksrc (s : State) (i : Nat) (f : Die → Die) : (s.modDie i f).ricksrc = s.ricksrc := rfl
@[simp] theorem State.modDie_pcache (s : State) (i : Nat) (f : Die → Die) : (s.modDie i f).pcache = s.pcache := rfl
@[simp] theorem State.modDie_cores (s : State) (i : Nat) (f : Die → Die) : (s.modDie i f).cores = s.cores := rfl
@[simp] theorem State.modDie_copses (s : State) (i : Nat) (f : Die → Die) : (s.modDie i f).copses = s.copses := rfl
@[simp] theorem State.modDie_ctxs (s : State) (i : Nat) (f : Die → Die) : (s.modDie i f).ctxs = s.ctxs := rfl
@[simp] theorem State.modDie_gws (s : State) (i : Nat) (f : Die → Die) : (s.modDie i f).gws = s.gws := rfl
@[simp] theorem State.modDie_flocks (s : State) (i : Nat) (f : Die → Die) : (s.modDie i f).flocks = s.flocks := rfl
@[simp] theorem State.modDie_flits (s : State) (i : Nat) (f : Die → Die) : (s.modDie i f).flits = s.flits := rfl
@[simp] theorem State.modDie_walks (s : State) (i : Nat) (f : Die → Die) : (s.modDie i f).walks = s.walks := rfl
@[simp] theorem State.modDie_ops (s : State) (i : Nat) (f : Die → Die) : (s.modDie i f).ops = s.ops := rfl
@[simp] theorem State.modDie_nextId (s : State) (i : Nat) (f : Die → Die) : (s.modDie i f).nextId = s.nextId := rfl
@[simp] theorem State.modDie_health (s : State) (i : Nat) (f : Die → Die) : (s.modDie i f).health = s.health := rfl
@[simp] theorem State.modDie_alarms (s : State) (i : Nat) (f : Die → Die) : (s.modDie i f).alarms = s.alarms := rfl
@[simp] theorem State.modDie_poolcap (s : State) (i : Nat) (f : Die → Die) : (s.modDie i f).poolcap = s.poolcap := rfl
@[simp] theorem State.modDie_hpool (s : State) (i : Nat) (f : Die → Die) : (s.modDie i f).hpool = s.hpool := rfl
@[simp] theorem State.modDie_spread (s : State) (i : Nat) (f : Die → Die) : (s.modDie i f).spread = s.spread := rfl
@[simp] theorem State.modDie_dhome (s : State) (i : Nat) (f : Die → Die) : (s.modDie i f).dhome = s.dhome := rfl
@[simp] theorem State.modDie_pccfg (s : State) (i : Nat) (f : Die → Die) : (s.modDie i f).pccfg = s.pccfg := rfl
@[simp] theorem State.modDie_nroute (s : State) (i : Nat) (f : Die → Die) : (s.modDie i f).nroute = s.nroute := rfl
@[simp] theorem State.modDie_fwver (s : State) (i : Nat) (f : Die → Die) : (s.modDie i f).fwver = s.fwver := rfl
@[simp] theorem State.modDie_image (s : State) (i : Nat) (f : Die → Die) : (s.modDie i f).image = s.image := rfl
@[simp] theorem State.modDie_cmds (s : State) (i : Nat) (f : Die → Die) : (s.modDie i f).cmds = s.cmds := rfl
@[simp] theorem State.modDie_tcqst (s : State) (i : Nat) (f : Die → Die) : (s.modDie i f).tcqst = s.tcqst := rfl
@[simp] theorem State.modDie_tcq (s : State) (i : Nat) (f : Die → Die) : (s.modDie i f).tcq = s.tcq := rfl
@[simp] theorem State.modDie_tcstage (s : State) (i : Nat) (f : Die → Die) : (s.modDie i f).tcstage = s.tcstage := rfl
@[simp] theorem State.modDie_tcmsgs (s : State) (i : Nat) (f : Die → Die) : (s.modDie i f).tcmsgs = s.tcmsgs := rfl
@[simp] theorem State.modDie_stileKey (s : State) (i : Nat) (f : Die → Die) : (s.modDie i f).stileKey = s.stileKey := rfl
@[simp] theorem State.modDie_sharedKx (s : State) (i : Nat) (f : Die → Die) : (s.modDie i f).sharedKx = s.sharedKx := rfl
@[simp] theorem State.modDie_shareAsk (s : State) (i : Nat) (f : Die → Die) : (s.modDie i f).shareAsk = s.shareAsk := rfl
@[simp] theorem State.modDie_stiles (s : State) (i : Nat) (f : Die → Die) : (s.modDie i f).stiles = s.stiles := rfl
@[simp] theorem State.modDie_shared (s : State) (i : Nat) (f : Die → Die) : (s.modDie i f).shared = s.shared := rfl
@[simp] theorem State.modDie_keyIds (s : State) (i : Nat) (f : Die → Die) : (s.modDie i f).keyIds = s.keyIds := rfl
@[simp] theorem State.modDie_sessions (s : State) (i : Nat) (f : Die → Die) : (s.modDie i f).sessions = s.sessions := rfl
@[simp] theorem State.modDie_attLeaf (s : State) (i : Nat) (f : Die → Die) : (s.modDie i f).attLeaf = s.attLeaf := rfl
@[simp] theorem State.modDie_attKey (s : State) (i : Nat) (f : Die → Die) : (s.modDie i f).attKey = s.attKey := rfl
@[simp] theorem State.modDie_windows (s : State) (i : Nat) (f : Die → Die) : (s.modDie i f).windows = s.windows := rfl
@[simp] theorem State.modDie_sent (s : State) (i : Nat) (f : Die → Die) : (s.modDie i f).sent = s.sent := rfl
@[simp] theorem State.modDie_precopy (s : State) (i : Nat) (f : Die → Die) : (s.modDie i f).precopy = s.precopy := rfl
@[simp] theorem State.modDie_preAt (s : State) (i : Nat) (f : Die → Die) : (s.modDie i f).preAt = s.preAt := rfl
@[simp] theorem State.modDie_colls (s : State) (i : Nat) (f : Die → Die) : (s.modDie i f).colls = s.colls := rfl
@[simp] theorem State.modDie_linkBad (s : State) (i : Nat) (f : Die → Die) : (s.modDie i f).linkBad = s.linkBad := rfl
@[simp] theorem State.modDie_linkSeq (s : State) (i : Nat) (f : Die → Die) : (s.modDie i f).linkSeq = s.linkSeq := rfl
@[simp] theorem State.modDie_stopped (s : State) (i : Nat) (f : Die → Die) : (s.modDie i f).stopped = s.stopped := rfl
@[simp] theorem State.modDie_up (s : State) (i : Nat) (f : Die → Die) : (s.modDie i f).up = s.up := rfl

/-! ### setGw -/

@[simp] theorem State.setGw_clock (s : State) (i : Nat) (x : Gateway) : (s.setGw i x).clock = s.clock := rfl
@[simp] theorem State.setGw_now (s : State) (i : Nat) (x : Gateway) : (s.setGw i x).now = s.now := rfl
@[simp] theorem State.setGw_issued (s : State) (i : Nat) (x : Gateway) : (s.setGw i x).issued = s.issued := rfl
@[simp] theorem State.setGw_scrubs (s : State) (i : Nat) (x : Gateway) : (s.setGw i x).scrubs = s.scrubs := rfl
@[simp] theorem State.setGw_errlogs (s : State) (i : Nat) (x : Gateway) : (s.setGw i x).errlogs = s.errlogs := rfl
@[simp] theorem State.setGw_tclog (s : State) (i : Nat) (x : Gateway) : (s.setGw i x).tclog = s.tclog := rfl
@[simp] theorem State.setGw_linkDead (s : State) (i : Nat) (x : Gateway) : (s.setGw i x).linkDead = s.linkDead := rfl
@[simp] theorem State.setGw_fresh (s : State) (i : Nat) (x : Gateway) : (s.setGw i x).fresh = s.fresh := rfl
@[simp] theorem State.setGw_turn (s : State) (i : Nat) (x : Gateway) : (s.setGw i x).turn = s.turn := rfl
@[simp] theorem State.setGw_event (s : State) (i : Nat) (x : Gateway) : (s.setGw i x).event = s.event := rfl
@[simp] theorem State.setGw_inputs (s : State) (i : Nat) (x : Gateway) : (s.setGw i x).inputs = s.inputs := rfl
@[simp] theorem State.setGw_pending (s : State) (i : Nat) (x : Gateway) : (s.setGw i x).pending = s.pending := rfl
@[simp] theorem State.setGw_mem (s : State) (i : Nat) (x : Gateway) : (s.setGw i x).mem = s.mem := rfl
@[simp] theorem State.setGw_secs (s : State) (i : Nat) (x : Gateway) : (s.setGw i x).secs = s.secs := rfl
@[simp] theorem State.setGw_resvs (s : State) (i : Nat) (x : Gateway) : (s.setGw i x).resvs = s.resvs := rfl
@[simp] theorem State.setGw_revokes (s : State) (i : Nat) (x : Gateway) : (s.setGw i x).revokes = s.revokes := rfl
@[simp] theorem State.setGw_joins (s : State) (i : Nat) (x : Gateway) : (s.setGw i x).joins = s.joins := rfl
@[simp] theorem State.setGw_recents (s : State) (i : Nat) (x : Gateway) : (s.setGw i x).recents = s.recents := rfl
@[simp] theorem State.setGw_lastAt (s : State) (i : Nat) (x : Gateway) : (s.setGw i x).lastAt = s.lastAt := rfl
@[simp] theorem State.setGw_ricksrc (s : State) (i : Nat) (x : Gateway) : (s.setGw i x).ricksrc = s.ricksrc := rfl
@[simp] theorem State.setGw_pcache (s : State) (i : Nat) (x : Gateway) : (s.setGw i x).pcache = s.pcache := rfl
@[simp] theorem State.setGw_cores (s : State) (i : Nat) (x : Gateway) : (s.setGw i x).cores = s.cores := rfl
@[simp] theorem State.setGw_copses (s : State) (i : Nat) (x : Gateway) : (s.setGw i x).copses = s.copses := rfl
@[simp] theorem State.setGw_ctxs (s : State) (i : Nat) (x : Gateway) : (s.setGw i x).ctxs = s.ctxs := rfl
@[simp] theorem State.setGw_dies (s : State) (i : Nat) (x : Gateway) : (s.setGw i x).dies = s.dies := rfl
@[simp] theorem State.setGw_gws (s : State) (i : Nat) (x : Gateway) : (s.setGw i x).gws = s.gws.put i x := rfl
@[simp] theorem State.setGw_flocks (s : State) (i : Nat) (x : Gateway) : (s.setGw i x).flocks = s.flocks := rfl
@[simp] theorem State.setGw_flits (s : State) (i : Nat) (x : Gateway) : (s.setGw i x).flits = s.flits := rfl
@[simp] theorem State.setGw_walks (s : State) (i : Nat) (x : Gateway) : (s.setGw i x).walks = s.walks := rfl
@[simp] theorem State.setGw_ops (s : State) (i : Nat) (x : Gateway) : (s.setGw i x).ops = s.ops := rfl
@[simp] theorem State.setGw_nextId (s : State) (i : Nat) (x : Gateway) : (s.setGw i x).nextId = s.nextId := rfl
@[simp] theorem State.setGw_health (s : State) (i : Nat) (x : Gateway) : (s.setGw i x).health = s.health := rfl
@[simp] theorem State.setGw_alarms (s : State) (i : Nat) (x : Gateway) : (s.setGw i x).alarms = s.alarms := rfl
@[simp] theorem State.setGw_poolcap (s : State) (i : Nat) (x : Gateway) : (s.setGw i x).poolcap = s.poolcap := rfl
@[simp] theorem State.setGw_hpool (s : State) (i : Nat) (x : Gateway) : (s.setGw i x).hpool = s.hpool := rfl
@[simp] theorem State.setGw_spread (s : State) (i : Nat) (x : Gateway) : (s.setGw i x).spread = s.spread := rfl
@[simp] theorem State.setGw_dhome (s : State) (i : Nat) (x : Gateway) : (s.setGw i x).dhome = s.dhome := rfl
@[simp] theorem State.setGw_pccfg (s : State) (i : Nat) (x : Gateway) : (s.setGw i x).pccfg = s.pccfg := rfl
@[simp] theorem State.setGw_nroute (s : State) (i : Nat) (x : Gateway) : (s.setGw i x).nroute = s.nroute := rfl
@[simp] theorem State.setGw_fwver (s : State) (i : Nat) (x : Gateway) : (s.setGw i x).fwver = s.fwver := rfl
@[simp] theorem State.setGw_image (s : State) (i : Nat) (x : Gateway) : (s.setGw i x).image = s.image := rfl
@[simp] theorem State.setGw_cmds (s : State) (i : Nat) (x : Gateway) : (s.setGw i x).cmds = s.cmds := rfl
@[simp] theorem State.setGw_tcqst (s : State) (i : Nat) (x : Gateway) : (s.setGw i x).tcqst = s.tcqst := rfl
@[simp] theorem State.setGw_tcq (s : State) (i : Nat) (x : Gateway) : (s.setGw i x).tcq = s.tcq := rfl
@[simp] theorem State.setGw_tcstage (s : State) (i : Nat) (x : Gateway) : (s.setGw i x).tcstage = s.tcstage := rfl
@[simp] theorem State.setGw_tcmsgs (s : State) (i : Nat) (x : Gateway) : (s.setGw i x).tcmsgs = s.tcmsgs := rfl
@[simp] theorem State.setGw_stileKey (s : State) (i : Nat) (x : Gateway) : (s.setGw i x).stileKey = s.stileKey := rfl
@[simp] theorem State.setGw_sharedKx (s : State) (i : Nat) (x : Gateway) : (s.setGw i x).sharedKx = s.sharedKx := rfl
@[simp] theorem State.setGw_shareAsk (s : State) (i : Nat) (x : Gateway) : (s.setGw i x).shareAsk = s.shareAsk := rfl
@[simp] theorem State.setGw_stiles (s : State) (i : Nat) (x : Gateway) : (s.setGw i x).stiles = s.stiles := rfl
@[simp] theorem State.setGw_shared (s : State) (i : Nat) (x : Gateway) : (s.setGw i x).shared = s.shared := rfl
@[simp] theorem State.setGw_keyIds (s : State) (i : Nat) (x : Gateway) : (s.setGw i x).keyIds = s.keyIds := rfl
@[simp] theorem State.setGw_sessions (s : State) (i : Nat) (x : Gateway) : (s.setGw i x).sessions = s.sessions := rfl
@[simp] theorem State.setGw_attLeaf (s : State) (i : Nat) (x : Gateway) : (s.setGw i x).attLeaf = s.attLeaf := rfl
@[simp] theorem State.setGw_attKey (s : State) (i : Nat) (x : Gateway) : (s.setGw i x).attKey = s.attKey := rfl
@[simp] theorem State.setGw_windows (s : State) (i : Nat) (x : Gateway) : (s.setGw i x).windows = s.windows := rfl
@[simp] theorem State.setGw_sent (s : State) (i : Nat) (x : Gateway) : (s.setGw i x).sent = s.sent := rfl
@[simp] theorem State.setGw_precopy (s : State) (i : Nat) (x : Gateway) : (s.setGw i x).precopy = s.precopy := rfl
@[simp] theorem State.setGw_preAt (s : State) (i : Nat) (x : Gateway) : (s.setGw i x).preAt = s.preAt := rfl
@[simp] theorem State.setGw_colls (s : State) (i : Nat) (x : Gateway) : (s.setGw i x).colls = s.colls := rfl
@[simp] theorem State.setGw_linkBad (s : State) (i : Nat) (x : Gateway) : (s.setGw i x).linkBad = s.linkBad := rfl
@[simp] theorem State.setGw_linkSeq (s : State) (i : Nat) (x : Gateway) : (s.setGw i x).linkSeq = s.linkSeq := rfl
@[simp] theorem State.setGw_stopped (s : State) (i : Nat) (x : Gateway) : (s.setGw i x).stopped = s.stopped := rfl
@[simp] theorem State.setGw_up (s : State) (i : Nat) (x : Gateway) : (s.setGw i x).up = s.up := rfl

/-! ### modGw -/

@[simp] theorem State.modGw_clock (s : State) (i : Nat) (f : Gateway → Gateway) : (s.modGw i f).clock = s.clock := rfl
@[simp] theorem State.modGw_now (s : State) (i : Nat) (f : Gateway → Gateway) : (s.modGw i f).now = s.now := rfl
@[simp] theorem State.modGw_issued (s : State) (i : Nat) (f : Gateway → Gateway) : (s.modGw i f).issued = s.issued := rfl
@[simp] theorem State.modGw_scrubs (s : State) (i : Nat) (f : Gateway → Gateway) : (s.modGw i f).scrubs = s.scrubs := rfl
@[simp] theorem State.modGw_errlogs (s : State) (i : Nat) (f : Gateway → Gateway) : (s.modGw i f).errlogs = s.errlogs := rfl
@[simp] theorem State.modGw_tclog (s : State) (i : Nat) (f : Gateway → Gateway) : (s.modGw i f).tclog = s.tclog := rfl
@[simp] theorem State.modGw_linkDead (s : State) (i : Nat) (f : Gateway → Gateway) : (s.modGw i f).linkDead = s.linkDead := rfl
@[simp] theorem State.modGw_fresh (s : State) (i : Nat) (f : Gateway → Gateway) : (s.modGw i f).fresh = s.fresh := rfl
@[simp] theorem State.modGw_turn (s : State) (i : Nat) (f : Gateway → Gateway) : (s.modGw i f).turn = s.turn := rfl
@[simp] theorem State.modGw_event (s : State) (i : Nat) (f : Gateway → Gateway) : (s.modGw i f).event = s.event := rfl
@[simp] theorem State.modGw_inputs (s : State) (i : Nat) (f : Gateway → Gateway) : (s.modGw i f).inputs = s.inputs := rfl
@[simp] theorem State.modGw_pending (s : State) (i : Nat) (f : Gateway → Gateway) : (s.modGw i f).pending = s.pending := rfl
@[simp] theorem State.modGw_mem (s : State) (i : Nat) (f : Gateway → Gateway) : (s.modGw i f).mem = s.mem := rfl
@[simp] theorem State.modGw_secs (s : State) (i : Nat) (f : Gateway → Gateway) : (s.modGw i f).secs = s.secs := rfl
@[simp] theorem State.modGw_resvs (s : State) (i : Nat) (f : Gateway → Gateway) : (s.modGw i f).resvs = s.resvs := rfl
@[simp] theorem State.modGw_revokes (s : State) (i : Nat) (f : Gateway → Gateway) : (s.modGw i f).revokes = s.revokes := rfl
@[simp] theorem State.modGw_joins (s : State) (i : Nat) (f : Gateway → Gateway) : (s.modGw i f).joins = s.joins := rfl
@[simp] theorem State.modGw_recents (s : State) (i : Nat) (f : Gateway → Gateway) : (s.modGw i f).recents = s.recents := rfl
@[simp] theorem State.modGw_lastAt (s : State) (i : Nat) (f : Gateway → Gateway) : (s.modGw i f).lastAt = s.lastAt := rfl
@[simp] theorem State.modGw_ricksrc (s : State) (i : Nat) (f : Gateway → Gateway) : (s.modGw i f).ricksrc = s.ricksrc := rfl
@[simp] theorem State.modGw_pcache (s : State) (i : Nat) (f : Gateway → Gateway) : (s.modGw i f).pcache = s.pcache := rfl
@[simp] theorem State.modGw_cores (s : State) (i : Nat) (f : Gateway → Gateway) : (s.modGw i f).cores = s.cores := rfl
@[simp] theorem State.modGw_copses (s : State) (i : Nat) (f : Gateway → Gateway) : (s.modGw i f).copses = s.copses := rfl
@[simp] theorem State.modGw_ctxs (s : State) (i : Nat) (f : Gateway → Gateway) : (s.modGw i f).ctxs = s.ctxs := rfl
@[simp] theorem State.modGw_dies (s : State) (i : Nat) (f : Gateway → Gateway) : (s.modGw i f).dies = s.dies := rfl
@[simp] theorem State.modGw_flocks (s : State) (i : Nat) (f : Gateway → Gateway) : (s.modGw i f).flocks = s.flocks := rfl
@[simp] theorem State.modGw_flits (s : State) (i : Nat) (f : Gateway → Gateway) : (s.modGw i f).flits = s.flits := rfl
@[simp] theorem State.modGw_walks (s : State) (i : Nat) (f : Gateway → Gateway) : (s.modGw i f).walks = s.walks := rfl
@[simp] theorem State.modGw_ops (s : State) (i : Nat) (f : Gateway → Gateway) : (s.modGw i f).ops = s.ops := rfl
@[simp] theorem State.modGw_nextId (s : State) (i : Nat) (f : Gateway → Gateway) : (s.modGw i f).nextId = s.nextId := rfl
@[simp] theorem State.modGw_health (s : State) (i : Nat) (f : Gateway → Gateway) : (s.modGw i f).health = s.health := rfl
@[simp] theorem State.modGw_alarms (s : State) (i : Nat) (f : Gateway → Gateway) : (s.modGw i f).alarms = s.alarms := rfl
@[simp] theorem State.modGw_poolcap (s : State) (i : Nat) (f : Gateway → Gateway) : (s.modGw i f).poolcap = s.poolcap := rfl
@[simp] theorem State.modGw_hpool (s : State) (i : Nat) (f : Gateway → Gateway) : (s.modGw i f).hpool = s.hpool := rfl
@[simp] theorem State.modGw_spread (s : State) (i : Nat) (f : Gateway → Gateway) : (s.modGw i f).spread = s.spread := rfl
@[simp] theorem State.modGw_dhome (s : State) (i : Nat) (f : Gateway → Gateway) : (s.modGw i f).dhome = s.dhome := rfl
@[simp] theorem State.modGw_pccfg (s : State) (i : Nat) (f : Gateway → Gateway) : (s.modGw i f).pccfg = s.pccfg := rfl
@[simp] theorem State.modGw_nroute (s : State) (i : Nat) (f : Gateway → Gateway) : (s.modGw i f).nroute = s.nroute := rfl
@[simp] theorem State.modGw_fwver (s : State) (i : Nat) (f : Gateway → Gateway) : (s.modGw i f).fwver = s.fwver := rfl
@[simp] theorem State.modGw_image (s : State) (i : Nat) (f : Gateway → Gateway) : (s.modGw i f).image = s.image := rfl
@[simp] theorem State.modGw_cmds (s : State) (i : Nat) (f : Gateway → Gateway) : (s.modGw i f).cmds = s.cmds := rfl
@[simp] theorem State.modGw_tcqst (s : State) (i : Nat) (f : Gateway → Gateway) : (s.modGw i f).tcqst = s.tcqst := rfl
@[simp] theorem State.modGw_tcq (s : State) (i : Nat) (f : Gateway → Gateway) : (s.modGw i f).tcq = s.tcq := rfl
@[simp] theorem State.modGw_tcstage (s : State) (i : Nat) (f : Gateway → Gateway) : (s.modGw i f).tcstage = s.tcstage := rfl
@[simp] theorem State.modGw_tcmsgs (s : State) (i : Nat) (f : Gateway → Gateway) : (s.modGw i f).tcmsgs = s.tcmsgs := rfl
@[simp] theorem State.modGw_stileKey (s : State) (i : Nat) (f : Gateway → Gateway) : (s.modGw i f).stileKey = s.stileKey := rfl
@[simp] theorem State.modGw_sharedKx (s : State) (i : Nat) (f : Gateway → Gateway) : (s.modGw i f).sharedKx = s.sharedKx := rfl
@[simp] theorem State.modGw_shareAsk (s : State) (i : Nat) (f : Gateway → Gateway) : (s.modGw i f).shareAsk = s.shareAsk := rfl
@[simp] theorem State.modGw_stiles (s : State) (i : Nat) (f : Gateway → Gateway) : (s.modGw i f).stiles = s.stiles := rfl
@[simp] theorem State.modGw_shared (s : State) (i : Nat) (f : Gateway → Gateway) : (s.modGw i f).shared = s.shared := rfl
@[simp] theorem State.modGw_keyIds (s : State) (i : Nat) (f : Gateway → Gateway) : (s.modGw i f).keyIds = s.keyIds := rfl
@[simp] theorem State.modGw_sessions (s : State) (i : Nat) (f : Gateway → Gateway) : (s.modGw i f).sessions = s.sessions := rfl
@[simp] theorem State.modGw_attLeaf (s : State) (i : Nat) (f : Gateway → Gateway) : (s.modGw i f).attLeaf = s.attLeaf := rfl
@[simp] theorem State.modGw_attKey (s : State) (i : Nat) (f : Gateway → Gateway) : (s.modGw i f).attKey = s.attKey := rfl
@[simp] theorem State.modGw_windows (s : State) (i : Nat) (f : Gateway → Gateway) : (s.modGw i f).windows = s.windows := rfl
@[simp] theorem State.modGw_sent (s : State) (i : Nat) (f : Gateway → Gateway) : (s.modGw i f).sent = s.sent := rfl
@[simp] theorem State.modGw_precopy (s : State) (i : Nat) (f : Gateway → Gateway) : (s.modGw i f).precopy = s.precopy := rfl
@[simp] theorem State.modGw_preAt (s : State) (i : Nat) (f : Gateway → Gateway) : (s.modGw i f).preAt = s.preAt := rfl
@[simp] theorem State.modGw_colls (s : State) (i : Nat) (f : Gateway → Gateway) : (s.modGw i f).colls = s.colls := rfl
@[simp] theorem State.modGw_linkBad (s : State) (i : Nat) (f : Gateway → Gateway) : (s.modGw i f).linkBad = s.linkBad := rfl
@[simp] theorem State.modGw_linkSeq (s : State) (i : Nat) (f : Gateway → Gateway) : (s.modGw i f).linkSeq = s.linkSeq := rfl
@[simp] theorem State.modGw_stopped (s : State) (i : Nat) (f : Gateway → Gateway) : (s.modGw i f).stopped = s.stopped := rfl
@[simp] theorem State.modGw_up (s : State) (i : Nat) (f : Gateway → Gateway) : (s.modGw i f).up = s.up := rfl

/-! ### setSector -/

@[simp] theorem State.setSector_clock (s : State) (i : Nat) (x : Sector) : (s.setSector i x).clock = s.clock := rfl
@[simp] theorem State.setSector_now (s : State) (i : Nat) (x : Sector) : (s.setSector i x).now = s.now := rfl
@[simp] theorem State.setSector_issued (s : State) (i : Nat) (x : Sector) : (s.setSector i x).issued = s.issued := rfl
@[simp] theorem State.setSector_scrubs (s : State) (i : Nat) (x : Sector) : (s.setSector i x).scrubs = s.scrubs := rfl
@[simp] theorem State.setSector_errlogs (s : State) (i : Nat) (x : Sector) : (s.setSector i x).errlogs = s.errlogs := rfl
@[simp] theorem State.setSector_tclog (s : State) (i : Nat) (x : Sector) : (s.setSector i x).tclog = s.tclog := rfl
@[simp] theorem State.setSector_linkDead (s : State) (i : Nat) (x : Sector) : (s.setSector i x).linkDead = s.linkDead := rfl
@[simp] theorem State.setSector_fresh (s : State) (i : Nat) (x : Sector) : (s.setSector i x).fresh = s.fresh := rfl
@[simp] theorem State.setSector_turn (s : State) (i : Nat) (x : Sector) : (s.setSector i x).turn = s.turn := rfl
@[simp] theorem State.setSector_event (s : State) (i : Nat) (x : Sector) : (s.setSector i x).event = s.event := rfl
@[simp] theorem State.setSector_inputs (s : State) (i : Nat) (x : Sector) : (s.setSector i x).inputs = s.inputs := rfl
@[simp] theorem State.setSector_pending (s : State) (i : Nat) (x : Sector) : (s.setSector i x).pending = s.pending := rfl
@[simp] theorem State.setSector_mem (s : State) (i : Nat) (x : Sector) : (s.setSector i x).mem = s.mem := rfl
@[simp] theorem State.setSector_secs (s : State) (i : Nat) (x : Sector) : (s.setSector i x).secs = s.secs.put i x := rfl
@[simp] theorem State.setSector_resvs (s : State) (i : Nat) (x : Sector) : (s.setSector i x).resvs = s.resvs := rfl
@[simp] theorem State.setSector_revokes (s : State) (i : Nat) (x : Sector) : (s.setSector i x).revokes = s.revokes := rfl
@[simp] theorem State.setSector_joins (s : State) (i : Nat) (x : Sector) : (s.setSector i x).joins = s.joins := rfl
@[simp] theorem State.setSector_recents (s : State) (i : Nat) (x : Sector) : (s.setSector i x).recents = s.recents := rfl
@[simp] theorem State.setSector_lastAt (s : State) (i : Nat) (x : Sector) : (s.setSector i x).lastAt = s.lastAt := rfl
@[simp] theorem State.setSector_ricksrc (s : State) (i : Nat) (x : Sector) : (s.setSector i x).ricksrc = s.ricksrc := rfl
@[simp] theorem State.setSector_pcache (s : State) (i : Nat) (x : Sector) : (s.setSector i x).pcache = s.pcache := rfl
@[simp] theorem State.setSector_cores (s : State) (i : Nat) (x : Sector) : (s.setSector i x).cores = s.cores := rfl
@[simp] theorem State.setSector_copses (s : State) (i : Nat) (x : Sector) : (s.setSector i x).copses = s.copses := rfl
@[simp] theorem State.setSector_ctxs (s : State) (i : Nat) (x : Sector) : (s.setSector i x).ctxs = s.ctxs := rfl
@[simp] theorem State.setSector_dies (s : State) (i : Nat) (x : Sector) : (s.setSector i x).dies = s.dies := rfl
@[simp] theorem State.setSector_gws (s : State) (i : Nat) (x : Sector) : (s.setSector i x).gws = s.gws := rfl
@[simp] theorem State.setSector_flocks (s : State) (i : Nat) (x : Sector) : (s.setSector i x).flocks = s.flocks := rfl
@[simp] theorem State.setSector_flits (s : State) (i : Nat) (x : Sector) : (s.setSector i x).flits = s.flits := rfl
@[simp] theorem State.setSector_walks (s : State) (i : Nat) (x : Sector) : (s.setSector i x).walks = s.walks := rfl
@[simp] theorem State.setSector_ops (s : State) (i : Nat) (x : Sector) : (s.setSector i x).ops = s.ops := rfl
@[simp] theorem State.setSector_nextId (s : State) (i : Nat) (x : Sector) : (s.setSector i x).nextId = s.nextId := rfl
@[simp] theorem State.setSector_health (s : State) (i : Nat) (x : Sector) : (s.setSector i x).health = s.health := rfl
@[simp] theorem State.setSector_alarms (s : State) (i : Nat) (x : Sector) : (s.setSector i x).alarms = s.alarms := rfl
@[simp] theorem State.setSector_poolcap (s : State) (i : Nat) (x : Sector) : (s.setSector i x).poolcap = s.poolcap := rfl
@[simp] theorem State.setSector_hpool (s : State) (i : Nat) (x : Sector) : (s.setSector i x).hpool = s.hpool := rfl
@[simp] theorem State.setSector_spread (s : State) (i : Nat) (x : Sector) : (s.setSector i x).spread = s.spread := rfl
@[simp] theorem State.setSector_dhome (s : State) (i : Nat) (x : Sector) : (s.setSector i x).dhome = s.dhome := rfl
@[simp] theorem State.setSector_pccfg (s : State) (i : Nat) (x : Sector) : (s.setSector i x).pccfg = s.pccfg := rfl
@[simp] theorem State.setSector_nroute (s : State) (i : Nat) (x : Sector) : (s.setSector i x).nroute = s.nroute := rfl
@[simp] theorem State.setSector_fwver (s : State) (i : Nat) (x : Sector) : (s.setSector i x).fwver = s.fwver := rfl
@[simp] theorem State.setSector_image (s : State) (i : Nat) (x : Sector) : (s.setSector i x).image = s.image := rfl
@[simp] theorem State.setSector_cmds (s : State) (i : Nat) (x : Sector) : (s.setSector i x).cmds = s.cmds := rfl
@[simp] theorem State.setSector_tcqst (s : State) (i : Nat) (x : Sector) : (s.setSector i x).tcqst = s.tcqst := rfl
@[simp] theorem State.setSector_tcq (s : State) (i : Nat) (x : Sector) : (s.setSector i x).tcq = s.tcq := rfl
@[simp] theorem State.setSector_tcstage (s : State) (i : Nat) (x : Sector) : (s.setSector i x).tcstage = s.tcstage := rfl
@[simp] theorem State.setSector_tcmsgs (s : State) (i : Nat) (x : Sector) : (s.setSector i x).tcmsgs = s.tcmsgs := rfl
@[simp] theorem State.setSector_stileKey (s : State) (i : Nat) (x : Sector) : (s.setSector i x).stileKey = s.stileKey := rfl
@[simp] theorem State.setSector_sharedKx (s : State) (i : Nat) (x : Sector) : (s.setSector i x).sharedKx = s.sharedKx := rfl
@[simp] theorem State.setSector_shareAsk (s : State) (i : Nat) (x : Sector) : (s.setSector i x).shareAsk = s.shareAsk := rfl
@[simp] theorem State.setSector_stiles (s : State) (i : Nat) (x : Sector) : (s.setSector i x).stiles = s.stiles := rfl
@[simp] theorem State.setSector_shared (s : State) (i : Nat) (x : Sector) : (s.setSector i x).shared = s.shared := rfl
@[simp] theorem State.setSector_keyIds (s : State) (i : Nat) (x : Sector) : (s.setSector i x).keyIds = s.keyIds := rfl
@[simp] theorem State.setSector_sessions (s : State) (i : Nat) (x : Sector) : (s.setSector i x).sessions = s.sessions := rfl
@[simp] theorem State.setSector_attLeaf (s : State) (i : Nat) (x : Sector) : (s.setSector i x).attLeaf = s.attLeaf := rfl
@[simp] theorem State.setSector_attKey (s : State) (i : Nat) (x : Sector) : (s.setSector i x).attKey = s.attKey := rfl
@[simp] theorem State.setSector_windows (s : State) (i : Nat) (x : Sector) : (s.setSector i x).windows = s.windows := rfl
@[simp] theorem State.setSector_sent (s : State) (i : Nat) (x : Sector) : (s.setSector i x).sent = s.sent := rfl
@[simp] theorem State.setSector_precopy (s : State) (i : Nat) (x : Sector) : (s.setSector i x).precopy = s.precopy := rfl
@[simp] theorem State.setSector_preAt (s : State) (i : Nat) (x : Sector) : (s.setSector i x).preAt = s.preAt := rfl
@[simp] theorem State.setSector_colls (s : State) (i : Nat) (x : Sector) : (s.setSector i x).colls = s.colls := rfl
@[simp] theorem State.setSector_linkBad (s : State) (i : Nat) (x : Sector) : (s.setSector i x).linkBad = s.linkBad := rfl
@[simp] theorem State.setSector_linkSeq (s : State) (i : Nat) (x : Sector) : (s.setSector i x).linkSeq = s.linkSeq := rfl
@[simp] theorem State.setSector_stopped (s : State) (i : Nat) (x : Sector) : (s.setSector i x).stopped = s.stopped := rfl
@[simp] theorem State.setSector_up (s : State) (i : Nat) (x : Sector) : (s.setSector i x).up = s.up := rfl

/-! ### modSector -/

@[simp] theorem State.modSector_clock (s : State) (i : Nat) (f : Sector → Sector) : (s.modSector i f).clock = s.clock := rfl
@[simp] theorem State.modSector_now (s : State) (i : Nat) (f : Sector → Sector) : (s.modSector i f).now = s.now := rfl
@[simp] theorem State.modSector_issued (s : State) (i : Nat) (f : Sector → Sector) : (s.modSector i f).issued = s.issued := rfl
@[simp] theorem State.modSector_scrubs (s : State) (i : Nat) (f : Sector → Sector) : (s.modSector i f).scrubs = s.scrubs := rfl
@[simp] theorem State.modSector_errlogs (s : State) (i : Nat) (f : Sector → Sector) : (s.modSector i f).errlogs = s.errlogs := rfl
@[simp] theorem State.modSector_tclog (s : State) (i : Nat) (f : Sector → Sector) : (s.modSector i f).tclog = s.tclog := rfl
@[simp] theorem State.modSector_linkDead (s : State) (i : Nat) (f : Sector → Sector) : (s.modSector i f).linkDead = s.linkDead := rfl
@[simp] theorem State.modSector_fresh (s : State) (i : Nat) (f : Sector → Sector) : (s.modSector i f).fresh = s.fresh := rfl
@[simp] theorem State.modSector_turn (s : State) (i : Nat) (f : Sector → Sector) : (s.modSector i f).turn = s.turn := rfl
@[simp] theorem State.modSector_event (s : State) (i : Nat) (f : Sector → Sector) : (s.modSector i f).event = s.event := rfl
@[simp] theorem State.modSector_inputs (s : State) (i : Nat) (f : Sector → Sector) : (s.modSector i f).inputs = s.inputs := rfl
@[simp] theorem State.modSector_pending (s : State) (i : Nat) (f : Sector → Sector) : (s.modSector i f).pending = s.pending := rfl
@[simp] theorem State.modSector_mem (s : State) (i : Nat) (f : Sector → Sector) : (s.modSector i f).mem = s.mem := rfl
@[simp] theorem State.modSector_resvs (s : State) (i : Nat) (f : Sector → Sector) : (s.modSector i f).resvs = s.resvs := rfl
@[simp] theorem State.modSector_revokes (s : State) (i : Nat) (f : Sector → Sector) : (s.modSector i f).revokes = s.revokes := rfl
@[simp] theorem State.modSector_joins (s : State) (i : Nat) (f : Sector → Sector) : (s.modSector i f).joins = s.joins := rfl
@[simp] theorem State.modSector_recents (s : State) (i : Nat) (f : Sector → Sector) : (s.modSector i f).recents = s.recents := rfl
@[simp] theorem State.modSector_lastAt (s : State) (i : Nat) (f : Sector → Sector) : (s.modSector i f).lastAt = s.lastAt := rfl
@[simp] theorem State.modSector_ricksrc (s : State) (i : Nat) (f : Sector → Sector) : (s.modSector i f).ricksrc = s.ricksrc := rfl
@[simp] theorem State.modSector_pcache (s : State) (i : Nat) (f : Sector → Sector) : (s.modSector i f).pcache = s.pcache := rfl
@[simp] theorem State.modSector_cores (s : State) (i : Nat) (f : Sector → Sector) : (s.modSector i f).cores = s.cores := rfl
@[simp] theorem State.modSector_copses (s : State) (i : Nat) (f : Sector → Sector) : (s.modSector i f).copses = s.copses := rfl
@[simp] theorem State.modSector_ctxs (s : State) (i : Nat) (f : Sector → Sector) : (s.modSector i f).ctxs = s.ctxs := rfl
@[simp] theorem State.modSector_dies (s : State) (i : Nat) (f : Sector → Sector) : (s.modSector i f).dies = s.dies := rfl
@[simp] theorem State.modSector_gws (s : State) (i : Nat) (f : Sector → Sector) : (s.modSector i f).gws = s.gws := rfl
@[simp] theorem State.modSector_flocks (s : State) (i : Nat) (f : Sector → Sector) : (s.modSector i f).flocks = s.flocks := rfl
@[simp] theorem State.modSector_flits (s : State) (i : Nat) (f : Sector → Sector) : (s.modSector i f).flits = s.flits := rfl
@[simp] theorem State.modSector_walks (s : State) (i : Nat) (f : Sector → Sector) : (s.modSector i f).walks = s.walks := rfl
@[simp] theorem State.modSector_ops (s : State) (i : Nat) (f : Sector → Sector) : (s.modSector i f).ops = s.ops := rfl
@[simp] theorem State.modSector_nextId (s : State) (i : Nat) (f : Sector → Sector) : (s.modSector i f).nextId = s.nextId := rfl
@[simp] theorem State.modSector_health (s : State) (i : Nat) (f : Sector → Sector) : (s.modSector i f).health = s.health := rfl
@[simp] theorem State.modSector_alarms (s : State) (i : Nat) (f : Sector → Sector) : (s.modSector i f).alarms = s.alarms := rfl
@[simp] theorem State.modSector_poolcap (s : State) (i : Nat) (f : Sector → Sector) : (s.modSector i f).poolcap = s.poolcap := rfl
@[simp] theorem State.modSector_hpool (s : State) (i : Nat) (f : Sector → Sector) : (s.modSector i f).hpool = s.hpool := rfl
@[simp] theorem State.modSector_spread (s : State) (i : Nat) (f : Sector → Sector) : (s.modSector i f).spread = s.spread := rfl
@[simp] theorem State.modSector_dhome (s : State) (i : Nat) (f : Sector → Sector) : (s.modSector i f).dhome = s.dhome := rfl
@[simp] theorem State.modSector_pccfg (s : State) (i : Nat) (f : Sector → Sector) : (s.modSector i f).pccfg = s.pccfg := rfl
@[simp] theorem State.modSector_nroute (s : State) (i : Nat) (f : Sector → Sector) : (s.modSector i f).nroute = s.nroute := rfl
@[simp] theorem State.modSector_fwver (s : State) (i : Nat) (f : Sector → Sector) : (s.modSector i f).fwver = s.fwver := rfl
@[simp] theorem State.modSector_image (s : State) (i : Nat) (f : Sector → Sector) : (s.modSector i f).image = s.image := rfl
@[simp] theorem State.modSector_cmds (s : State) (i : Nat) (f : Sector → Sector) : (s.modSector i f).cmds = s.cmds := rfl
@[simp] theorem State.modSector_tcqst (s : State) (i : Nat) (f : Sector → Sector) : (s.modSector i f).tcqst = s.tcqst := rfl
@[simp] theorem State.modSector_tcq (s : State) (i : Nat) (f : Sector → Sector) : (s.modSector i f).tcq = s.tcq := rfl
@[simp] theorem State.modSector_tcstage (s : State) (i : Nat) (f : Sector → Sector) : (s.modSector i f).tcstage = s.tcstage := rfl
@[simp] theorem State.modSector_tcmsgs (s : State) (i : Nat) (f : Sector → Sector) : (s.modSector i f).tcmsgs = s.tcmsgs := rfl
@[simp] theorem State.modSector_stileKey (s : State) (i : Nat) (f : Sector → Sector) : (s.modSector i f).stileKey = s.stileKey := rfl
@[simp] theorem State.modSector_sharedKx (s : State) (i : Nat) (f : Sector → Sector) : (s.modSector i f).sharedKx = s.sharedKx := rfl
@[simp] theorem State.modSector_shareAsk (s : State) (i : Nat) (f : Sector → Sector) : (s.modSector i f).shareAsk = s.shareAsk := rfl
@[simp] theorem State.modSector_stiles (s : State) (i : Nat) (f : Sector → Sector) : (s.modSector i f).stiles = s.stiles := rfl
@[simp] theorem State.modSector_shared (s : State) (i : Nat) (f : Sector → Sector) : (s.modSector i f).shared = s.shared := rfl
@[simp] theorem State.modSector_keyIds (s : State) (i : Nat) (f : Sector → Sector) : (s.modSector i f).keyIds = s.keyIds := rfl
@[simp] theorem State.modSector_sessions (s : State) (i : Nat) (f : Sector → Sector) : (s.modSector i f).sessions = s.sessions := rfl
@[simp] theorem State.modSector_attLeaf (s : State) (i : Nat) (f : Sector → Sector) : (s.modSector i f).attLeaf = s.attLeaf := rfl
@[simp] theorem State.modSector_attKey (s : State) (i : Nat) (f : Sector → Sector) : (s.modSector i f).attKey = s.attKey := rfl
@[simp] theorem State.modSector_windows (s : State) (i : Nat) (f : Sector → Sector) : (s.modSector i f).windows = s.windows := rfl
@[simp] theorem State.modSector_sent (s : State) (i : Nat) (f : Sector → Sector) : (s.modSector i f).sent = s.sent := rfl
@[simp] theorem State.modSector_precopy (s : State) (i : Nat) (f : Sector → Sector) : (s.modSector i f).precopy = s.precopy := rfl
@[simp] theorem State.modSector_preAt (s : State) (i : Nat) (f : Sector → Sector) : (s.modSector i f).preAt = s.preAt := rfl
@[simp] theorem State.modSector_colls (s : State) (i : Nat) (f : Sector → Sector) : (s.modSector i f).colls = s.colls := rfl
@[simp] theorem State.modSector_linkBad (s : State) (i : Nat) (f : Sector → Sector) : (s.modSector i f).linkBad = s.linkBad := rfl
@[simp] theorem State.modSector_linkSeq (s : State) (i : Nat) (f : Sector → Sector) : (s.modSector i f).linkSeq = s.linkSeq := rfl
@[simp] theorem State.modSector_stopped (s : State) (i : Nat) (f : Sector → Sector) : (s.modSector i f).stopped = s.stopped := rfl
@[simp] theorem State.modSector_up (s : State) (i : Nat) (f : Sector → Sector) : (s.modSector i f).up = s.up := rfl

/-! ### taken -/

@[simp] theorem State.taken_clock (s : State) : (s.taken).clock = s.clock := rfl
@[simp] theorem State.taken_now (s : State) : (s.taken).now = s.now := rfl
@[simp] theorem State.taken_issued (s : State) : (s.taken).issued = s.issued := rfl
@[simp] theorem State.taken_scrubs (s : State) : (s.taken).scrubs = s.scrubs := rfl
@[simp] theorem State.taken_errlogs (s : State) : (s.taken).errlogs = s.errlogs := rfl
@[simp] theorem State.taken_tclog (s : State) : (s.taken).tclog = s.tclog := rfl
@[simp] theorem State.taken_linkDead (s : State) : (s.taken).linkDead = s.linkDead := rfl
@[simp] theorem State.taken_fresh (s : State) : (s.taken).fresh = s.fresh := rfl
@[simp] theorem State.taken_turn (s : State) : (s.taken).turn = s.turn := rfl
@[simp] theorem State.taken_event (s : State) : (s.taken).event = none := rfl
@[simp] theorem State.taken_inputs (s : State) : (s.taken).inputs = s.inputs := rfl
@[simp] theorem State.taken_pending (s : State) : (s.taken).pending = s.pending := rfl
@[simp] theorem State.taken_mem (s : State) : (s.taken).mem = s.mem := rfl
@[simp] theorem State.taken_secs (s : State) : (s.taken).secs = s.secs := rfl
@[simp] theorem State.taken_resvs (s : State) : (s.taken).resvs = s.resvs := rfl
@[simp] theorem State.taken_revokes (s : State) : (s.taken).revokes = s.revokes := rfl
@[simp] theorem State.taken_joins (s : State) : (s.taken).joins = s.joins := rfl
@[simp] theorem State.taken_recents (s : State) : (s.taken).recents = s.recents := rfl
@[simp] theorem State.taken_lastAt (s : State) : (s.taken).lastAt = s.lastAt := rfl
@[simp] theorem State.taken_ricksrc (s : State) : (s.taken).ricksrc = s.ricksrc := rfl
@[simp] theorem State.taken_pcache (s : State) : (s.taken).pcache = s.pcache := rfl
@[simp] theorem State.taken_cores (s : State) : (s.taken).cores = s.cores := rfl
@[simp] theorem State.taken_copses (s : State) : (s.taken).copses = s.copses := rfl
@[simp] theorem State.taken_ctxs (s : State) : (s.taken).ctxs = s.ctxs := rfl
@[simp] theorem State.taken_dies (s : State) : (s.taken).dies = s.dies := rfl
@[simp] theorem State.taken_gws (s : State) : (s.taken).gws = s.gws := rfl
@[simp] theorem State.taken_flocks (s : State) : (s.taken).flocks = s.flocks := rfl
@[simp] theorem State.taken_flits (s : State) : (s.taken).flits = s.flits := rfl
@[simp] theorem State.taken_walks (s : State) : (s.taken).walks = s.walks := rfl
@[simp] theorem State.taken_ops (s : State) : (s.taken).ops = s.ops := rfl
@[simp] theorem State.taken_nextId (s : State) : (s.taken).nextId = s.nextId := rfl
@[simp] theorem State.taken_health (s : State) : (s.taken).health = s.health := rfl
@[simp] theorem State.taken_alarms (s : State) : (s.taken).alarms = s.alarms := rfl
@[simp] theorem State.taken_poolcap (s : State) : (s.taken).poolcap = s.poolcap := rfl
@[simp] theorem State.taken_hpool (s : State) : (s.taken).hpool = s.hpool := rfl
@[simp] theorem State.taken_spread (s : State) : (s.taken).spread = s.spread := rfl
@[simp] theorem State.taken_dhome (s : State) : (s.taken).dhome = s.dhome := rfl
@[simp] theorem State.taken_pccfg (s : State) : (s.taken).pccfg = s.pccfg := rfl
@[simp] theorem State.taken_nroute (s : State) : (s.taken).nroute = s.nroute := rfl
@[simp] theorem State.taken_fwver (s : State) : (s.taken).fwver = s.fwver := rfl
@[simp] theorem State.taken_image (s : State) : (s.taken).image = s.image := rfl
@[simp] theorem State.taken_cmds (s : State) : (s.taken).cmds = s.cmds := rfl
@[simp] theorem State.taken_tcqst (s : State) : (s.taken).tcqst = s.tcqst := rfl
@[simp] theorem State.taken_tcq (s : State) : (s.taken).tcq = s.tcq := rfl
@[simp] theorem State.taken_tcstage (s : State) : (s.taken).tcstage = s.tcstage := rfl
@[simp] theorem State.taken_tcmsgs (s : State) : (s.taken).tcmsgs = s.tcmsgs := rfl
@[simp] theorem State.taken_stileKey (s : State) : (s.taken).stileKey = s.stileKey := rfl
@[simp] theorem State.taken_sharedKx (s : State) : (s.taken).sharedKx = s.sharedKx := rfl
@[simp] theorem State.taken_shareAsk (s : State) : (s.taken).shareAsk = s.shareAsk := rfl
@[simp] theorem State.taken_stiles (s : State) : (s.taken).stiles = s.stiles := rfl
@[simp] theorem State.taken_shared (s : State) : (s.taken).shared = s.shared := rfl
@[simp] theorem State.taken_keyIds (s : State) : (s.taken).keyIds = s.keyIds := rfl
@[simp] theorem State.taken_sessions (s : State) : (s.taken).sessions = s.sessions := rfl
@[simp] theorem State.taken_attLeaf (s : State) : (s.taken).attLeaf = s.attLeaf := rfl
@[simp] theorem State.taken_attKey (s : State) : (s.taken).attKey = s.attKey := rfl
@[simp] theorem State.taken_windows (s : State) : (s.taken).windows = s.windows := rfl
@[simp] theorem State.taken_sent (s : State) : (s.taken).sent = s.sent := rfl
@[simp] theorem State.taken_precopy (s : State) : (s.taken).precopy = s.precopy := rfl
@[simp] theorem State.taken_preAt (s : State) : (s.taken).preAt = s.preAt := rfl
@[simp] theorem State.taken_colls (s : State) : (s.taken).colls = s.colls := rfl
@[simp] theorem State.taken_linkBad (s : State) : (s.taken).linkBad = s.linkBad := rfl
@[simp] theorem State.taken_linkSeq (s : State) : (s.taken).linkSeq = s.linkSeq := rfl
@[simp] theorem State.taken_stopped (s : State) : (s.taken).stopped = s.stopped := rfl
@[simp] theorem State.taken_up (s : State) : (s.taken).up = s.up := rfl

/-! ### due -/

@[simp] theorem State.due_clock (s : State) (i : Event) : (s.due i).clock = s.clock := rfl
@[simp] theorem State.due_now (s : State) (i : Event) : (s.due i).now = s.now := rfl
@[simp] theorem State.due_issued (s : State) (i : Event) : (s.due i).issued = s.issued := rfl
@[simp] theorem State.due_scrubs (s : State) (i : Event) : (s.due i).scrubs = s.scrubs := rfl
@[simp] theorem State.due_errlogs (s : State) (i : Event) : (s.due i).errlogs = s.errlogs := rfl
@[simp] theorem State.due_tclog (s : State) (i : Event) : (s.due i).tclog = s.tclog := rfl
@[simp] theorem State.due_linkDead (s : State) (i : Event) : (s.due i).linkDead = s.linkDead := rfl
@[simp] theorem State.due_fresh (s : State) (i : Event) : (s.due i).fresh = s.fresh := rfl
@[simp] theorem State.due_turn (s : State) (i : Event) : (s.due i).turn = s.turn := rfl
@[simp] theorem State.due_event (s : State) (i : Event) : (s.due i).event = s.event := rfl
@[simp] theorem State.due_inputs (s : State) (i : Event) : (s.due i).inputs = s.inputs := rfl
@[simp] theorem State.due_pending (s : State) (i : Event) : (s.due i).pending = s.pending ++ [i] := rfl
@[simp] theorem State.due_mem (s : State) (i : Event) : (s.due i).mem = s.mem := rfl
@[simp] theorem State.due_secs (s : State) (i : Event) : (s.due i).secs = s.secs := rfl
@[simp] theorem State.due_resvs (s : State) (i : Event) : (s.due i).resvs = s.resvs := rfl
@[simp] theorem State.due_revokes (s : State) (i : Event) : (s.due i).revokes = s.revokes := rfl
@[simp] theorem State.due_joins (s : State) (i : Event) : (s.due i).joins = s.joins := rfl
@[simp] theorem State.due_recents (s : State) (i : Event) : (s.due i).recents = s.recents := rfl
@[simp] theorem State.due_lastAt (s : State) (i : Event) : (s.due i).lastAt = s.lastAt := rfl
@[simp] theorem State.due_ricksrc (s : State) (i : Event) : (s.due i).ricksrc = s.ricksrc := rfl
@[simp] theorem State.due_pcache (s : State) (i : Event) : (s.due i).pcache = s.pcache := rfl
@[simp] theorem State.due_cores (s : State) (i : Event) : (s.due i).cores = s.cores := rfl
@[simp] theorem State.due_copses (s : State) (i : Event) : (s.due i).copses = s.copses := rfl
@[simp] theorem State.due_ctxs (s : State) (i : Event) : (s.due i).ctxs = s.ctxs := rfl
@[simp] theorem State.due_dies (s : State) (i : Event) : (s.due i).dies = s.dies := rfl
@[simp] theorem State.due_gws (s : State) (i : Event) : (s.due i).gws = s.gws := rfl
@[simp] theorem State.due_flocks (s : State) (i : Event) : (s.due i).flocks = s.flocks := rfl
@[simp] theorem State.due_flits (s : State) (i : Event) : (s.due i).flits = s.flits := rfl
@[simp] theorem State.due_walks (s : State) (i : Event) : (s.due i).walks = s.walks := rfl
@[simp] theorem State.due_ops (s : State) (i : Event) : (s.due i).ops = s.ops := rfl
@[simp] theorem State.due_nextId (s : State) (i : Event) : (s.due i).nextId = s.nextId := rfl
@[simp] theorem State.due_health (s : State) (i : Event) : (s.due i).health = s.health := rfl
@[simp] theorem State.due_alarms (s : State) (i : Event) : (s.due i).alarms = s.alarms := rfl
@[simp] theorem State.due_poolcap (s : State) (i : Event) : (s.due i).poolcap = s.poolcap := rfl
@[simp] theorem State.due_hpool (s : State) (i : Event) : (s.due i).hpool = s.hpool := rfl
@[simp] theorem State.due_spread (s : State) (i : Event) : (s.due i).spread = s.spread := rfl
@[simp] theorem State.due_dhome (s : State) (i : Event) : (s.due i).dhome = s.dhome := rfl
@[simp] theorem State.due_pccfg (s : State) (i : Event) : (s.due i).pccfg = s.pccfg := rfl
@[simp] theorem State.due_nroute (s : State) (i : Event) : (s.due i).nroute = s.nroute := rfl
@[simp] theorem State.due_fwver (s : State) (i : Event) : (s.due i).fwver = s.fwver := rfl
@[simp] theorem State.due_image (s : State) (i : Event) : (s.due i).image = s.image := rfl
@[simp] theorem State.due_cmds (s : State) (i : Event) : (s.due i).cmds = s.cmds := rfl
@[simp] theorem State.due_tcqst (s : State) (i : Event) : (s.due i).tcqst = s.tcqst := rfl
@[simp] theorem State.due_tcq (s : State) (i : Event) : (s.due i).tcq = s.tcq := rfl
@[simp] theorem State.due_tcstage (s : State) (i : Event) : (s.due i).tcstage = s.tcstage := rfl
@[simp] theorem State.due_tcmsgs (s : State) (i : Event) : (s.due i).tcmsgs = s.tcmsgs := rfl
@[simp] theorem State.due_stileKey (s : State) (i : Event) : (s.due i).stileKey = s.stileKey := rfl
@[simp] theorem State.due_sharedKx (s : State) (i : Event) : (s.due i).sharedKx = s.sharedKx := rfl
@[simp] theorem State.due_shareAsk (s : State) (i : Event) : (s.due i).shareAsk = s.shareAsk := rfl
@[simp] theorem State.due_stiles (s : State) (i : Event) : (s.due i).stiles = s.stiles := rfl
@[simp] theorem State.due_shared (s : State) (i : Event) : (s.due i).shared = s.shared := rfl
@[simp] theorem State.due_keyIds (s : State) (i : Event) : (s.due i).keyIds = s.keyIds := rfl
@[simp] theorem State.due_sessions (s : State) (i : Event) : (s.due i).sessions = s.sessions := rfl
@[simp] theorem State.due_attLeaf (s : State) (i : Event) : (s.due i).attLeaf = s.attLeaf := rfl
@[simp] theorem State.due_attKey (s : State) (i : Event) : (s.due i).attKey = s.attKey := rfl
@[simp] theorem State.due_windows (s : State) (i : Event) : (s.due i).windows = s.windows := rfl
@[simp] theorem State.due_sent (s : State) (i : Event) : (s.due i).sent = s.sent := rfl
@[simp] theorem State.due_precopy (s : State) (i : Event) : (s.due i).precopy = s.precopy := rfl
@[simp] theorem State.due_preAt (s : State) (i : Event) : (s.due i).preAt = s.preAt := rfl
@[simp] theorem State.due_colls (s : State) (i : Event) : (s.due i).colls = s.colls := rfl
@[simp] theorem State.due_linkBad (s : State) (i : Event) : (s.due i).linkBad = s.linkBad := rfl
@[simp] theorem State.due_linkSeq (s : State) (i : Event) : (s.due i).linkSeq = s.linkSeq := rfl
@[simp] theorem State.due_stopped (s : State) (i : Event) : (s.due i).stopped = s.stopped := rfl
@[simp] theorem State.due_up (s : State) (i : Event) : (s.due i).up = s.up := rfl

/-! ### post -/

@[simp] theorem State.post_clock (s : State) (p : Pkt) : (s.post p).clock = s.clock := rfl
@[simp] theorem State.post_now (s : State) (p : Pkt) : (s.post p).now = s.now := rfl
@[simp] theorem State.post_issued (s : State) (p : Pkt) : (s.post p).issued = s.issued := rfl
@[simp] theorem State.post_scrubs (s : State) (p : Pkt) : (s.post p).scrubs = s.scrubs := rfl
@[simp] theorem State.post_errlogs (s : State) (p : Pkt) : (s.post p).errlogs = s.errlogs := rfl
@[simp] theorem State.post_tclog (s : State) (p : Pkt) : (s.post p).tclog = s.tclog := rfl
@[simp] theorem State.post_linkDead (s : State) (p : Pkt) : (s.post p).linkDead = s.linkDead := rfl
@[simp] theorem State.post_fresh (s : State) (p : Pkt) : (s.post p).fresh = s.fresh := rfl
@[simp] theorem State.post_turn (s : State) (p : Pkt) : (s.post p).turn = s.turn := rfl
@[simp] theorem State.post_event (s : State) (p : Pkt) : (s.post p).event = s.event := rfl
@[simp] theorem State.post_inputs (s : State) (p : Pkt) : (s.post p).inputs = s.inputs := rfl
@[simp] theorem State.post_pending (s : State) (p : Pkt) : (s.post p).pending = s.pending := rfl
@[simp] theorem State.post_mem (s : State) (p : Pkt) : (s.post p).mem = s.mem := rfl
@[simp] theorem State.post_secs (s : State) (p : Pkt) : (s.post p).secs = s.secs := rfl
@[simp] theorem State.post_resvs (s : State) (p : Pkt) : (s.post p).resvs = s.resvs := rfl
@[simp] theorem State.post_revokes (s : State) (p : Pkt) : (s.post p).revokes = s.revokes := rfl
@[simp] theorem State.post_joins (s : State) (p : Pkt) : (s.post p).joins = s.joins := rfl
@[simp] theorem State.post_recents (s : State) (p : Pkt) : (s.post p).recents = s.recents := rfl
@[simp] theorem State.post_lastAt (s : State) (p : Pkt) : (s.post p).lastAt = s.lastAt := rfl
@[simp] theorem State.post_ricksrc (s : State) (p : Pkt) : (s.post p).ricksrc = s.ricksrc := rfl
@[simp] theorem State.post_pcache (s : State) (p : Pkt) : (s.post p).pcache = s.pcache := rfl
@[simp] theorem State.post_cores (s : State) (p : Pkt) : (s.post p).cores = s.cores := rfl
@[simp] theorem State.post_copses (s : State) (p : Pkt) : (s.post p).copses = s.copses := rfl
@[simp] theorem State.post_ctxs (s : State) (p : Pkt) : (s.post p).ctxs = s.ctxs := rfl
@[simp] theorem State.post_dies (s : State) (p : Pkt) : (s.post p).dies = s.dies := rfl
@[simp] theorem State.post_gws (s : State) (p : Pkt) : (s.post p).gws = s.gws := rfl
@[simp] theorem State.post_flocks (s : State) (p : Pkt) : (s.post p).flocks = s.flocks := rfl
@[simp] theorem State.post_flits (s : State) (p : Pkt) : (s.post p).flits = s.flits ++ [⟨p, p.src.1, 6, 0, false⟩] := rfl
@[simp] theorem State.post_walks (s : State) (p : Pkt) : (s.post p).walks = s.walks := rfl
@[simp] theorem State.post_ops (s : State) (p : Pkt) : (s.post p).ops = s.ops := rfl
@[simp] theorem State.post_nextId (s : State) (p : Pkt) : (s.post p).nextId = s.nextId := rfl
@[simp] theorem State.post_health (s : State) (p : Pkt) : (s.post p).health = s.health := rfl
@[simp] theorem State.post_alarms (s : State) (p : Pkt) : (s.post p).alarms = s.alarms := rfl
@[simp] theorem State.post_poolcap (s : State) (p : Pkt) : (s.post p).poolcap = s.poolcap := rfl
@[simp] theorem State.post_hpool (s : State) (p : Pkt) : (s.post p).hpool = s.hpool := rfl
@[simp] theorem State.post_spread (s : State) (p : Pkt) : (s.post p).spread = s.spread := rfl
@[simp] theorem State.post_dhome (s : State) (p : Pkt) : (s.post p).dhome = s.dhome := rfl
@[simp] theorem State.post_pccfg (s : State) (p : Pkt) : (s.post p).pccfg = s.pccfg := rfl
@[simp] theorem State.post_nroute (s : State) (p : Pkt) : (s.post p).nroute = s.nroute := rfl
@[simp] theorem State.post_fwver (s : State) (p : Pkt) : (s.post p).fwver = s.fwver := rfl
@[simp] theorem State.post_image (s : State) (p : Pkt) : (s.post p).image = s.image := rfl
@[simp] theorem State.post_cmds (s : State) (p : Pkt) : (s.post p).cmds = s.cmds := rfl
@[simp] theorem State.post_tcqst (s : State) (p : Pkt) : (s.post p).tcqst = s.tcqst := rfl
@[simp] theorem State.post_tcq (s : State) (p : Pkt) : (s.post p).tcq = s.tcq := rfl
@[simp] theorem State.post_tcstage (s : State) (p : Pkt) : (s.post p).tcstage = s.tcstage := rfl
@[simp] theorem State.post_tcmsgs (s : State) (p : Pkt) : (s.post p).tcmsgs = s.tcmsgs := rfl
@[simp] theorem State.post_stileKey (s : State) (p : Pkt) : (s.post p).stileKey = s.stileKey := rfl
@[simp] theorem State.post_sharedKx (s : State) (p : Pkt) : (s.post p).sharedKx = s.sharedKx := rfl
@[simp] theorem State.post_shareAsk (s : State) (p : Pkt) : (s.post p).shareAsk = s.shareAsk := rfl
@[simp] theorem State.post_stiles (s : State) (p : Pkt) : (s.post p).stiles = s.stiles := rfl
@[simp] theorem State.post_shared (s : State) (p : Pkt) : (s.post p).shared = s.shared := rfl
@[simp] theorem State.post_keyIds (s : State) (p : Pkt) : (s.post p).keyIds = s.keyIds := rfl
@[simp] theorem State.post_sessions (s : State) (p : Pkt) : (s.post p).sessions = s.sessions := rfl
@[simp] theorem State.post_attLeaf (s : State) (p : Pkt) : (s.post p).attLeaf = s.attLeaf := rfl
@[simp] theorem State.post_attKey (s : State) (p : Pkt) : (s.post p).attKey = s.attKey := rfl
@[simp] theorem State.post_windows (s : State) (p : Pkt) : (s.post p).windows = s.windows := rfl
@[simp] theorem State.post_sent (s : State) (p : Pkt) : (s.post p).sent = s.sent := rfl
@[simp] theorem State.post_precopy (s : State) (p : Pkt) : (s.post p).precopy = s.precopy := rfl
@[simp] theorem State.post_preAt (s : State) (p : Pkt) : (s.post p).preAt = s.preAt := rfl
@[simp] theorem State.post_colls (s : State) (p : Pkt) : (s.post p).colls = s.colls := rfl
@[simp] theorem State.post_linkBad (s : State) (p : Pkt) : (s.post p).linkBad = s.linkBad := rfl
@[simp] theorem State.post_linkSeq (s : State) (p : Pkt) : (s.post p).linkSeq = s.linkSeq := rfl
@[simp] theorem State.post_stopped (s : State) (p : Pkt) : (s.post p).stopped = s.stopped := rfl
@[simp] theorem State.post_up (s : State) (p : Pkt) : (s.post p).up = s.up := rfl

/-! ### putBytes -/

@[simp] theorem State.putBytes_clock (s : State) (a : Nat) (bs : List (Option Byte)) : (s.putBytes a bs).clock = s.clock := rfl
@[simp] theorem State.putBytes_now (s : State) (a : Nat) (bs : List (Option Byte)) : (s.putBytes a bs).now = s.now := rfl
@[simp] theorem State.putBytes_issued (s : State) (a : Nat) (bs : List (Option Byte)) : (s.putBytes a bs).issued = s.issued := rfl
@[simp] theorem State.putBytes_scrubs (s : State) (a : Nat) (bs : List (Option Byte)) : (s.putBytes a bs).scrubs = s.scrubs := rfl
@[simp] theorem State.putBytes_errlogs (s : State) (a : Nat) (bs : List (Option Byte)) : (s.putBytes a bs).errlogs = s.errlogs := rfl
@[simp] theorem State.putBytes_tclog (s : State) (a : Nat) (bs : List (Option Byte)) : (s.putBytes a bs).tclog = s.tclog := rfl
@[simp] theorem State.putBytes_linkDead (s : State) (a : Nat) (bs : List (Option Byte)) : (s.putBytes a bs).linkDead = s.linkDead := rfl
@[simp] theorem State.putBytes_fresh (s : State) (a : Nat) (bs : List (Option Byte)) : (s.putBytes a bs).fresh = s.fresh := rfl
@[simp] theorem State.putBytes_turn (s : State) (a : Nat) (bs : List (Option Byte)) : (s.putBytes a bs).turn = s.turn := rfl
@[simp] theorem State.putBytes_event (s : State) (a : Nat) (bs : List (Option Byte)) : (s.putBytes a bs).event = s.event := rfl
@[simp] theorem State.putBytes_inputs (s : State) (a : Nat) (bs : List (Option Byte)) : (s.putBytes a bs).inputs = s.inputs := rfl
@[simp] theorem State.putBytes_pending (s : State) (a : Nat) (bs : List (Option Byte)) : (s.putBytes a bs).pending = s.pending := rfl
@[simp] theorem State.putBytes_mem (s : State) (a : Nat) (bs : List (Option Byte)) : (s.putBytes a bs).mem = memPut s.mem a bs := rfl
@[simp] theorem State.putBytes_secs (s : State) (a : Nat) (bs : List (Option Byte)) : (s.putBytes a bs).secs = s.secs := rfl
@[simp] theorem State.putBytes_resvs (s : State) (a : Nat) (bs : List (Option Byte)) : (s.putBytes a bs).resvs = s.resvs := rfl
@[simp] theorem State.putBytes_revokes (s : State) (a : Nat) (bs : List (Option Byte)) : (s.putBytes a bs).revokes = s.revokes := rfl
@[simp] theorem State.putBytes_joins (s : State) (a : Nat) (bs : List (Option Byte)) : (s.putBytes a bs).joins = s.joins := rfl
@[simp] theorem State.putBytes_recents (s : State) (a : Nat) (bs : List (Option Byte)) : (s.putBytes a bs).recents = s.recents := rfl
@[simp] theorem State.putBytes_lastAt (s : State) (a : Nat) (bs : List (Option Byte)) : (s.putBytes a bs).lastAt = s.lastAt := rfl
@[simp] theorem State.putBytes_ricksrc (s : State) (a : Nat) (bs : List (Option Byte)) : (s.putBytes a bs).ricksrc = s.ricksrc := rfl
@[simp] theorem State.putBytes_pcache (s : State) (a : Nat) (bs : List (Option Byte)) : (s.putBytes a bs).pcache = s.pcache := rfl
@[simp] theorem State.putBytes_cores (s : State) (a : Nat) (bs : List (Option Byte)) : (s.putBytes a bs).cores = s.cores := rfl
@[simp] theorem State.putBytes_copses (s : State) (a : Nat) (bs : List (Option Byte)) : (s.putBytes a bs).copses = s.copses := rfl
@[simp] theorem State.putBytes_ctxs (s : State) (a : Nat) (bs : List (Option Byte)) : (s.putBytes a bs).ctxs = s.ctxs := rfl
@[simp] theorem State.putBytes_dies (s : State) (a : Nat) (bs : List (Option Byte)) : (s.putBytes a bs).dies = s.dies := rfl
@[simp] theorem State.putBytes_gws (s : State) (a : Nat) (bs : List (Option Byte)) : (s.putBytes a bs).gws = s.gws := rfl
@[simp] theorem State.putBytes_flocks (s : State) (a : Nat) (bs : List (Option Byte)) : (s.putBytes a bs).flocks = s.flocks := rfl
@[simp] theorem State.putBytes_flits (s : State) (a : Nat) (bs : List (Option Byte)) : (s.putBytes a bs).flits = s.flits := rfl
@[simp] theorem State.putBytes_walks (s : State) (a : Nat) (bs : List (Option Byte)) : (s.putBytes a bs).walks = s.walks := rfl
@[simp] theorem State.putBytes_ops (s : State) (a : Nat) (bs : List (Option Byte)) : (s.putBytes a bs).ops = s.ops := rfl
@[simp] theorem State.putBytes_nextId (s : State) (a : Nat) (bs : List (Option Byte)) : (s.putBytes a bs).nextId = s.nextId := rfl
@[simp] theorem State.putBytes_health (s : State) (a : Nat) (bs : List (Option Byte)) : (s.putBytes a bs).health = s.health := rfl
@[simp] theorem State.putBytes_alarms (s : State) (a : Nat) (bs : List (Option Byte)) : (s.putBytes a bs).alarms = s.alarms := rfl
@[simp] theorem State.putBytes_poolcap (s : State) (a : Nat) (bs : List (Option Byte)) : (s.putBytes a bs).poolcap = s.poolcap := rfl
@[simp] theorem State.putBytes_hpool (s : State) (a : Nat) (bs : List (Option Byte)) : (s.putBytes a bs).hpool = s.hpool := rfl
@[simp] theorem State.putBytes_spread (s : State) (a : Nat) (bs : List (Option Byte)) : (s.putBytes a bs).spread = s.spread := rfl
@[simp] theorem State.putBytes_dhome (s : State) (a : Nat) (bs : List (Option Byte)) : (s.putBytes a bs).dhome = s.dhome := rfl
@[simp] theorem State.putBytes_pccfg (s : State) (a : Nat) (bs : List (Option Byte)) : (s.putBytes a bs).pccfg = s.pccfg := rfl
@[simp] theorem State.putBytes_nroute (s : State) (a : Nat) (bs : List (Option Byte)) : (s.putBytes a bs).nroute = s.nroute := rfl
@[simp] theorem State.putBytes_fwver (s : State) (a : Nat) (bs : List (Option Byte)) : (s.putBytes a bs).fwver = s.fwver := rfl
@[simp] theorem State.putBytes_image (s : State) (a : Nat) (bs : List (Option Byte)) : (s.putBytes a bs).image = s.image := rfl
@[simp] theorem State.putBytes_cmds (s : State) (a : Nat) (bs : List (Option Byte)) : (s.putBytes a bs).cmds = s.cmds := rfl
@[simp] theorem State.putBytes_tcqst (s : State) (a : Nat) (bs : List (Option Byte)) : (s.putBytes a bs).tcqst = s.tcqst := rfl
@[simp] theorem State.putBytes_tcq (s : State) (a : Nat) (bs : List (Option Byte)) : (s.putBytes a bs).tcq = s.tcq := rfl
@[simp] theorem State.putBytes_tcstage (s : State) (a : Nat) (bs : List (Option Byte)) : (s.putBytes a bs).tcstage = s.tcstage := rfl
@[simp] theorem State.putBytes_tcmsgs (s : State) (a : Nat) (bs : List (Option Byte)) : (s.putBytes a bs).tcmsgs = s.tcmsgs := rfl
@[simp] theorem State.putBytes_stileKey (s : State) (a : Nat) (bs : List (Option Byte)) : (s.putBytes a bs).stileKey = s.stileKey := rfl
@[simp] theorem State.putBytes_sharedKx (s : State) (a : Nat) (bs : List (Option Byte)) : (s.putBytes a bs).sharedKx = s.sharedKx := rfl
@[simp] theorem State.putBytes_shareAsk (s : State) (a : Nat) (bs : List (Option Byte)) : (s.putBytes a bs).shareAsk = s.shareAsk := rfl
@[simp] theorem State.putBytes_stiles (s : State) (a : Nat) (bs : List (Option Byte)) : (s.putBytes a bs).stiles = s.stiles := rfl
@[simp] theorem State.putBytes_shared (s : State) (a : Nat) (bs : List (Option Byte)) : (s.putBytes a bs).shared = s.shared := rfl
@[simp] theorem State.putBytes_keyIds (s : State) (a : Nat) (bs : List (Option Byte)) : (s.putBytes a bs).keyIds = s.keyIds := rfl
@[simp] theorem State.putBytes_sessions (s : State) (a : Nat) (bs : List (Option Byte)) : (s.putBytes a bs).sessions = s.sessions := rfl
@[simp] theorem State.putBytes_attLeaf (s : State) (a : Nat) (bs : List (Option Byte)) : (s.putBytes a bs).attLeaf = s.attLeaf := rfl
@[simp] theorem State.putBytes_attKey (s : State) (a : Nat) (bs : List (Option Byte)) : (s.putBytes a bs).attKey = s.attKey := rfl
@[simp] theorem State.putBytes_windows (s : State) (a : Nat) (bs : List (Option Byte)) : (s.putBytes a bs).windows = s.windows := rfl
@[simp] theorem State.putBytes_sent (s : State) (a : Nat) (bs : List (Option Byte)) : (s.putBytes a bs).sent = s.sent := rfl
@[simp] theorem State.putBytes_precopy (s : State) (a : Nat) (bs : List (Option Byte)) : (s.putBytes a bs).precopy = s.precopy := rfl
@[simp] theorem State.putBytes_preAt (s : State) (a : Nat) (bs : List (Option Byte)) : (s.putBytes a bs).preAt = s.preAt := rfl
@[simp] theorem State.putBytes_colls (s : State) (a : Nat) (bs : List (Option Byte)) : (s.putBytes a bs).colls = s.colls := rfl
@[simp] theorem State.putBytes_linkBad (s : State) (a : Nat) (bs : List (Option Byte)) : (s.putBytes a bs).linkBad = s.linkBad := rfl
@[simp] theorem State.putBytes_linkSeq (s : State) (a : Nat) (bs : List (Option Byte)) : (s.putBytes a bs).linkSeq = s.linkSeq := rfl
@[simp] theorem State.putBytes_stopped (s : State) (a : Nat) (bs : List (Option Byte)) : (s.putBytes a bs).stopped = s.stopped := rfl
@[simp] theorem State.putBytes_up (s : State) (a : Nat) (bs : List (Option Byte)) : (s.putBytes a bs).up = s.up := rfl

end Sys2Proof.Machine
end

