-- ==== Sys2Proof/Laws/Issue.lean ====
section
/-!
SUPPORT. What the shared operations can do, said once: the issue of an instruction, delivering results, formats, and a
command of the trust core.
-/

-- The proofs run one after another, so that the whole package compiles within the memory a check allows.
set_option Elab.async false

namespace Sys2Proof.Machine
open Sys2Proof

/-! ### Issue -/

/-- What the record of an issuing instruction holds (R157): its slot's thread and flight, its form and row, and a node
of the flight that is ready. -/
theorem State.issuer_spec {s : State} {i : Instr} {is : Iss} (h : s.issuer i = some is) :
    i.form = some is.f ∧ i.info = some is.n ∧ is.c = s.turn.core ∧ is.k = s.turn.slot ∧ is.pos = s.turn.pos ∧
      s.flight is.c is.k = some is.fl ∧ is.th = (s.slot is.c is.k).th ∧ is.fl.sheaf.insts[is.pos]? = some i ∧
      is.fl.ready is.pos = true ∧ ∃ nd, is.fl.nodes[is.pos]? = some nd ∧
        is.l = portTok is.n is.f nd 0 ∧ is.r = portTok is.n is.f nd 1 ∧ is.x = portTok is.n is.f nd 2 := by
  simp only [State.issuer] at h
  split at h
  · split at h
    · split at h
      · rename_i h1 h2 h3 _ nd h4 h5
        cases h
        simp only [Bool.and_eq_true, beq_iff_eq] at h5
        exact ⟨h3, h2, rfl, rfl, rfl, h1, rfl, h5.1, h5.2, nd, h4, rfl, rfl, rfl⟩
      · contradiction
    · contradiction
  · contradiction

theorem State.issuer_form {s : State} {i : Instr} {is : Iss} (h : s.issuer i = some is) : i.form = some is.f :=
  (State.issuer_spec h).1

theorem State.issuer_info {s : State} {i : Instr} {is : Iss} (h : s.issuer i = some is) : i.info = some is.n :=
  (State.issuer_spec h).2.1

theorem State.issuer_flight {s : State} {i : Instr} {is : Iss} (h : s.issuer i = some is) :
    s.flight is.c is.k = some is.fl := (State.issuer_spec h).2.2.2.2.2.1

/-- An instruction that the turn does not hold ready stops by name. -/
theorem issue_of_none {i : Instr} {s : State} {body : Iss → State → Out} (h : s.issuer i = none) :
    issue i s body = .fault .noIssuer := by simp [issue, h]

/-- An ordered event that must wait for earlier ones changes nothing. -/
theorem issue_of_heldBack {i : Instr} {s : State} {body : Iss → State → Out} {is : Iss} (h : s.issuer i = some is)
    (hb : is.fl.heldBack is.th is.pos = true) : issue i s body = .next s := by simp [issue, h, hb]

/-- With a null token it fires without effect. -/
theorem issue_of_null {i : Instr} {s : State} {body : Iss → State → Out} {is : Iss} (h : s.issuer i = some is)
    (hb : is.fl.heldBack is.th is.pos = false) (hn : is.anyNull = true) :
    issue i s body = .next (s.emit is .null) := by simp [issue, h, hb, hn]

/-- Otherwise its body runs. -/
theorem issue_of_fires {i : Instr} {s : State} {body : Iss → State → Out} {is : Iss} (h : s.issuer i = some is)
    (hb : is.fl.heldBack is.th is.pos = false) (hn : is.anyNull = false) (hr : is.regBad i = false) : issue i s body = body is s := by
  simp [issue, h, hb, hn, hr]

/-- One that reads a register with an uncorrectable error traps (R73). -/
theorem issue_of_regBad {i : Instr} {s : State} {body : Iss → State → Out} {is : Iss} (h : s.issuer i = some is)
    (hb : is.fl.heldBack is.th is.pos = false) (hn : is.anyNull = false) (hr : is.regBad i = true) :
    issue i s body = .next (s.trapAt is .uncorrectableData) := by simp [issue, h, hb, hn, hr]

/-- Everything an issue can answer. -/
theorem issue_next {i : Instr} {s t : State} {body : Iss → State → Out} (h : issue i s body = .next t) :
    ∃ is, s.issuer i = some is ∧
      ((is.fl.heldBack is.th is.pos = true ∧ t = s) ∨
       (is.fl.heldBack is.th is.pos = false ∧ is.anyNull = true ∧ t = s.emit is .null) ∨
       (is.fl.heldBack is.th is.pos = false ∧ is.anyNull = false ∧ is.regBad i = true ∧
         t = s.trapAt is .uncorrectableData) ∨
       (is.fl.heldBack is.th is.pos = false ∧ is.anyNull = false ∧ is.regBad i = false ∧ body is s = .next t)) := by
  match hi : s.issuer i with
  | none => simp [issue, hi] at h
  | some is =>
    refine ⟨is, rfl, ?_⟩
    by_cases hb : is.fl.heldBack is.th is.pos = true
    · simp [issue, hi, hb] at h; exact .inl ⟨hb, h.symm⟩
    · by_cases hn : is.anyNull = true
      · simp [issue, hi, hb, hn] at h; exact .inr (.inl ⟨by simpa using hb, hn, h.symm⟩)
      · by_cases hr : is.regBad i = true
        · simp [issue, hi, hb, hn, hr] at h
          exact .inr (.inr (.inl ⟨by simpa using hb, by simpa using hn, hr, h.symm⟩))
        · simp [issue, hi, hb, hn, hr] at h
          exact .inr (.inr (.inr ⟨by simpa using hb, by simpa using hn, by simpa using hr, h⟩))

theorem issueWhen_of_waits {i : Instr} {s : State} {w : Iss → State → Bool} {body : Iss → State → Out} {is : Iss}
    (h : s.issuer i = some is) (hb : is.fl.heldBack is.th is.pos = false) (hn : is.anyNull = false) (hr : is.regBad i = false)
    (hw : w is s = true) : issueWhen i s w body = .next s := by
  rw [issueWhen, issue_of_fires h hb hn hr, if_pos hw]

theorem issueWhen_of_fires {i : Instr} {s : State} {w : Iss → State → Bool} {body : Iss → State → Out} {is : Iss}
    (h : s.issuer i = some is) (hb : is.fl.heldBack is.th is.pos = false) (hn : is.anyNull = false) (hr : is.regBad i = false)
    (hw : w is s = false) : issueWhen i s w body = body is s := by
  rw [issueWhen, issue_of_fires h hb hn hr, hw]; rfl

theorem issueRaw_of_issuer {i : Instr} {s : State} {body : Iss → State → Out} {is : Iss} (h : s.issuer i = some is) :
    issueRaw i s body = body is s := by simp [issueRaw, h]

/-! ### Putting a flight back -/

/-- Everything settling a flight can do: the slot holds a flight, or a trap is taken in it. -/
theorem State.settle_cases (s : State) (c k : Nat) (fl : Option Flight) :
    (∃ g, s.settle c k fl = s.setFlight c k g) ∨ s.settle c k fl = s.fault c k .multipleToken := by
  unfold State.settle; split
  · exact .inl ⟨_, rfl⟩
  · exact .inr rfl

theorem State.withFlight_cases (s : State) (c k : Nat) (g : Flight → Option Flight) :
    s.withFlight c k g = s ∨ (∃ fl, s.withFlight c k g = s.setFlight c k fl) ∨
      s.withFlight c k g = s.fault c k .multipleToken := by
  unfold State.withFlight; split
  · exact .inr (State.settle_cases ..)
  · exact .inl rfl

/-- Everything delivering results can do. -/
theorem State.emit2_cases (s : State) (is : Iss) (t u : Tok) :
    s.emit2 is t u = s ∨ (∃ fl, s.emit2 is t u = s.setFlight is.c is.k fl) ∨
      s.emit2 is t u = s.fault is.c is.k .multipleToken := State.withFlight_cases ..

theorem State.emit_cases (s : State) (is : Iss) (t : Tok) :
    s.emit is t = s ∨ (∃ fl, s.emit is t = s.setFlight is.c is.k fl) ∨
      s.emit is t = s.fault is.c is.k .multipleToken := State.emit2_cases ..

/-- A flight whose sheaf and held answers are settled goes back as it is. -/
theorem State.settle_of_flush {s : State} {c k : Nat} {fl g : Flight} (h : Flight.flush 64 fl = some g) :
    s.settle c k (some fl) = s.setFlight c k g := by simp [State.settle, h]

/-- Without an answer to give, flushing changes nothing. -/
theorem Flight.flush_of_none {fl : Flight} (n : Nat) (h : fl.nextAnswer fl.held = none) : Flight.flush n fl = some fl := by
  cases n <;> simp [Flight.flush, h]

/-! ### Formats -/

/-- With a legal format the body runs on its code (R188, R281). -/
theorem withFormat_of_fires {i : Instr} {s : State} {body : Iss → State → Nat → Out} {is : Iss} {set : FmtSet}
    {c : BitVec 6} {q : BitVec 4} {rest : List (BitVec 6 × BitVec 4)} {code : Nat} (h : s.issuer i = some is)
    (hb : is.fl.heldBack is.th is.pos = false) (hn : is.anyNull = false) (hr : is.regBad i = false) (hs : is.n.fmts = .one set)
    (hf : is.f.fmts = (c, q) :: rest) (hc : is.th.resolve set c.toNat = some code) :
    withFormat i s body = body is s code := by
  rw [withFormat, issue_of_fires h hb hn hr]; simp [hs, hf, hc]

/-- Without one it traps. -/
theorem withFormat_of_bad {i : Instr} {s : State} {body : Iss → State → Nat → Out} {is : Iss} {set : FmtSet}
    {c : BitVec 6} {q : BitVec 4} {rest : List (BitVec 6 × BitVec 4)} (h : s.issuer i = some is)
    (hb : is.fl.heldBack is.th is.pos = false) (hn : is.anyNull = false) (hr : is.regBad i = false) (hs : is.n.fmts = .one set)
    (hf : is.f.fmts = (c, q) :: rest) (hc : is.th.resolve set c.toNat = none) :
    withFormat i s body = .next (s.trapAt is .badFormat) := by
  rw [withFormat, issue_of_fires h hb hn hr]; simp [hs, hf, hc]

/-- A vector operand has one element for each element-sized part of its 64 bytes. -/
theorem elemsOf_length (sz : Nat) (t : Tok) : (elemsOf sz t).length = 64 / sz := by cases t <;> simp [elemsOf]

/-! ### Loads and stores -/

/-- Everything firing a load can do: a trap of its checks, of the sheaf's order or of its bytes, or it is held (R36,
R263). -/
theorem State.loadFire_ok {s u t : State} {is : Iss} {va : Nat} {init got : List (Option Byte)} {sh : Shape}
    {elem wide : Bool} {blk : Word} {ps : List Part} {fl : Flight}
    (hc : s.checkParts is.xer is.ctx is.priv va (init.map Option.isNone) true false (splitAt16 va init.length) = (u, .ok ps))
    (ht : is.fl.touchAll [{ lsn := is.lsnN, kind := .load, va := va, elem := elem,
                              bytes := (init.map Option.isNone).map fun w => if w then some 0 else none }] = some fl)
    (hf : (u.acquire is is.pol).fetchParts is va blk init (if wide then joinParts ps else ps) = (t, .ok got)) :
    s.loadFire is va init sh elem wide blk = t.settle is.c is.k (some { fl.fired is.pos with
      held := fl.held ++ [{ lsn := is.lsnN, pos := is.pos, kind := .load sh, va := va, got := got,
                            acq := is.acqScope }] }) := by
  simp only [State.loadFire, hc, ht, hf]

theorem State.loadFire_refused {s u : State} {is : Iss} {va : Nat} {init : List (Option Byte)} {sh : Shape}
    {elem wide : Bool} {blk : Word} {e}
    (hc : s.checkParts is.xer is.ctx is.priv va (init.map Option.isNone) true false (splitAt16 va init.length) =
      (u, .error e)) :
    s.loadFire is va init sh elem wide blk = u.accessTrap is e blk := by simp only [State.loadFire, hc]

theorem State.loadFire_conflict {s u : State} {is : Iss} {va : Nat} {init : List (Option Byte)} {sh : Shape}
    {elem wide : Bool} {blk : Word} {ps : List Part}
    (hc : s.checkParts is.xer is.ctx is.priv va (init.map Option.isNone) true false (splitAt16 va init.length) = (u, .ok ps))
    (ht : is.fl.touchAll [{ lsn := is.lsnN, kind := .load, va := va, elem := elem,
                              bytes := (init.map Option.isNone).map fun w => if w then some 0 else none }] = none) :
    s.loadFire is va init sh elem wide blk = u.trapAt is .lsnConflict := by simp only [State.loadFire, hc, ht]

theorem State.storeFire_ok {s u : State} {is : Iss} {va : Nat} {want : List Bool} {bytes : List (Option Byte)}
    {elem wide : Bool} {blk : Word} {ps : List Part} {fl : Flight}
    (hc : s.checkParts is.xer is.ctx is.priv va want false true (splitAt16 va want.length) = (u, .ok ps))
    (ht : is.fl.touchAll [{ lsn := is.lsnN, kind := .store, va := va, bytes := bytes, elem := elem, wr := true }] = some fl) :
    s.storeFire is va want bytes elem wide blk = match u.badPiece is (storePieces va bytes (if wide then joinParts ps else ps)) with
      | some a => u.recTrap is (writeTrap .uncorrectableData a blk false)
      | none => u.settle is.c is.k (some { fl.fired is.pos with
          due := fl.due ++ [⟨is.lsn, is.pos, .store (storePieces va bytes (if wide then joinParts ps else ps)) is.pol blk⟩] }) := by
  simp only [State.storeFire, hc, ht] <;> rfl

theorem State.storeFire_refused {s u : State} {is : Iss} {va : Nat} {want : List Bool} {bytes : List (Option Byte)}
    {elem wide : Bool} {blk : Word} {e}
    (hc : s.checkParts is.xer is.ctx is.priv va want false true (splitAt16 va want.length) = (u, .error e)) :
    s.storeFire is va want bytes elem wide blk = u.accessTrap is e blk := by simp only [State.storeFire, hc]

theorem State.storeFire_conflict {s u : State} {is : Iss} {va : Nat} {want : List Bool} {bytes : List (Option Byte)}
    {elem wide : Bool} {blk : Word} {ps : List Part}
    (hc : s.checkParts is.xer is.ctx is.priv va want false true (splitAt16 va want.length) = (u, .ok ps))
    (ht : is.fl.touchAll [{ lsn := is.lsnN, kind := .store, va := va, bytes := bytes, elem := elem, wr := true }] = none) :
    s.storeFire is va want bytes elem wide blk = u.trapAt is .lsnConflict := by simp only [State.storeFire, hc, ht]

/-! ### Steps of the device -/


/-- A command that opens, that its issuer may give and that has its operands runs its body (R441). -/
theorem withCmd_runs {s : State} {get : Event → Option Nat} {who : Issuer} {n i : Nat} {e : Event}
    {body : State → Nat → Option Nat → (Nat → Word) → State} {c : Cmd} (he : s.event = some e) (hg : get e = some i)
    (hc : commandOf (cmdCode (((s.cmdWords i)[0]?).getD 0)) i = some e) (ho : s.taken.openCmd i = .ok c) (hw : who.allows c.tenant.isSome = true) (hn : n ≤ c.ops.length) :
    withCmd s get who n body = .next (body s.taken i c.tenant fun j => (c.ops[j]?).getD 0) := by
  have hc : (commandOf (cmdCode (((s.cmdWords i)[0]?).getD 0)) i == some e) = true := by simpa using hc
  simp only [withCmd, he, hg, Option.bind_some, hc, if_true, ho, hw, Bool.not_true, Bool.false_eq_true, if_false, Nat.not_lt.mpr hn]

/-- A command that does not open completes with its status. -/
theorem withCmd_refused {s : State} {get : Event → Option Nat} {who : Issuer} {n i st : Nat} {e : Event}
    {body : State → Nat → Option Nat → (Nat → Word) → State} (he : s.event = some e) (hg : get e = some i)
    (hc : commandOf (cmdCode (((s.cmdWords i)[0]?).getD 0)) i = some e) (ho : s.taken.openCmd i = .error st) : withCmd s get who n body = .next (s.taken.cmdDone i st 0) := by
  have hc : (commandOf (cmdCode (((s.cmdWords i)[0]?).getD 0)) i == some e) = true := by simpa using hc
  simp only [withCmd, he, hg, Option.bind_some, hc, if_true, ho]

/-- A slot whose word names another command completes as malformed. -/
theorem withCmd_unnamed {s : State} {get : Event → Option Nat} {who : Issuer} {n i : Nat} {e : Event}
    {body : State → Nat → Option Nat → (Nat → Word) → State} (he : s.event = some e) (hg : get e = some i)
    (hc : commandOf (cmdCode (((s.cmdWords i)[0]?).getD 0)) i ≠ some e) : withCmd s get who n body = .next (s.taken.cmdDone i 4 0) := by
  have hc : (commandOf (cmdCode (((s.cmdWords i)[0]?).getD 0)) i == some e) = false := by simpa using hc
  simp only [withCmd, he, hg, Option.bind_some, hc, Bool.false_eq_true, if_false]

/-- Between commands no stage is under way. -/
theorem cmdOf_of_zero {s : State} {get : Event → Option Nat} (h : s.tcstage = 0) : cmdOf s get = none := by
  simp [cmdOf, h]

theorem cmdOf_of_stage {s : State} {get : Event → Option Nat} {e : Event} (h : s.tcstage ≠ 0) (he : s.event = some e) :
    cmdOf s get = get e := by simp [cmdOf, h, he]

end Sys2Proof.Machine
end

