-- ==== Sys2Proof/Laws/Memory.lean ====
section
/-!
SUPPORT. The laws of the byte memory: every operation keeps the canonical form, and a read after a write gives the
bytes written and leaves every other byte alone.
-/

-- The proofs run one after another, so that the whole package compiles within the memory a check allows.
set_option Elab.async false

namespace Sys2Proof.Machine
open Sys2Proof

/-- Every address of a canonical memory stands above the bound. -/
theorem memWfAbove_some_lt {m : List Host.Cell} : ∀ {a : Nat}, memWfAbove (some a) m = true → ∀ c ∈ m, a < c.1 := by
  induction m with
  | nil => simp
  | cons x rest ih =>
    obtain ⟨k, v⟩ := x
    intro a h c hc
    simp only [memWfAbove, Bool.and_eq_true, decide_eq_true_eq] at h
    rcases List.mem_cons.1 hc with rfl | hc
    · exact h.1.1
    · exact Nat.lt_trans h.1.1 (ih h.2 c hc)

/-- A bound may be lowered or dropped. -/
theorem memWfAbove_weaken {m : List Host.Cell} {a b : Nat} (h : memWfAbove (some b) m = true) (hab : a ≤ b) :
    memWfAbove (some a) m = true := by
  cases m with
  | nil => rfl
  | cons x rest =>
    simp only [memWfAbove, Bool.and_eq_true, decide_eq_true_eq] at h ⊢
    exact ⟨⟨Nat.lt_of_le_of_lt hab h.1.1, h.1.2⟩, h.2⟩

theorem memWfAbove_none {m : List Host.Cell} {b : Nat} (h : memWfAbove (some b) m = true) : Memory.wf m = true := by
  cases m with
  | nil => rfl
  | cons x rest =>
    simp only [Memory.wf, memWfAbove, Bool.and_eq_true, decide_eq_true_eq] at h ⊢
    exact ⟨h.1.2, h.2⟩

/-- A write above the bound keeps the form above the bound. -/
theorem memWrite_above {m : List Host.Cell} (a : Nat) (b : Byte) :
    ∀ {o : Nat}, o < a → memWfAbove (some o) m = true → memWfAbove (some o) (memWrite m a b) = true := by
  induction m with
  | nil =>
    intro o ho _
    simp only [memWrite]
    split
    · rfl
    · simp_all [memWfAbove]
  | cons x rest ih =>
    obtain ⟨k, v⟩ := x
    intro o ho h
    simp only [memWfAbove, Bool.and_eq_true, decide_eq_true_eq] at h
    simp only [memWrite]
    split
    · rename_i hk
      have hk : k = a := by simpa using hk
      subst hk
      split
      · exact memWfAbove_weaken h.2 (Nat.le_of_lt h.1.1)
      · simp_all [memWfAbove]
    · split
      · rename_i hlt
        split
        · simp_all [memWfAbove]
        · simp_all [memWfAbove]
      · rename_i hk hlt
        have hk : k ≠ a := by simpa using hk
        simp only [memWfAbove, Bool.and_eq_true, decide_eq_true_eq]
        exact ⟨h.1, ih (by omega) h.2⟩

/-- A write keeps the canonical form. -/
theorem memWrite_wf {m : List Host.Cell} (a : Nat) (b : Byte) (h : Memory.wf m = true) :
    Memory.wf (memWrite m a b) = true := by
  cases m with
  | nil =>
    simp only [memWrite]
    split
    · rfl
    · simp_all [Memory.wf, memWfAbove]
  | cons x rest =>
    obtain ⟨k, v⟩ := x
    simp only [Memory.wf, memWfAbove, Bool.and_eq_true] at h
    simp only [memWrite]
    split
    · rename_i hk
      have hk : k = a := by simpa using hk
      subst hk
      split
      · exact memWfAbove_none h.2
      · simp_all [Memory.wf, memWfAbove]
    · split
      · split
        · simp_all [Memory.wf, memWfAbove]
        · simp_all [Memory.wf, memWfAbove]
      · rename_i hk hlt
        have hk : k ≠ a := by simpa using hk
        simp only [Memory.wf, memWfAbove, Bool.and_eq_true]
        exact ⟨h.1, memWrite_above a b (by omega) h.2⟩

/-- Writing bytes keeps the canonical form. -/
theorem memPut_wf (bs : List (Option Byte)) : ∀ {m : List Host.Cell} (a : Nat), Memory.wf m = true →
    Memory.wf (memPut m a bs) = true := by
  induction bs with
  | nil => intro m a h; exact h
  | cons b rest ih =>
    intro m a h
    cases b with
    | none => exact ih (a + 1) h
    | some b => exact ih (a + 1) (memWrite_wf a b h)

/-- Dropping entries keeps the canonical form. -/
theorem memFilter_above (p : Host.Cell → Bool) {m : List Host.Cell} :
    ∀ {o : Nat}, memWfAbove (some o) m = true → memWfAbove (some o) (m.filter p) = true := by
  induction m with
  | nil => intro o h; exact h
  | cons x rest ih =>
    intro o h
    have h' := h
    simp only [memWfAbove, Bool.and_eq_true, decide_eq_true_eq] at h'
    simp only [List.filter_cons]
    split
    · simp only [memWfAbove, Bool.and_eq_true, decide_eq_true_eq]
      exact ⟨h'.1, ih h'.2⟩
    · exact ih (memWfAbove_weaken h'.2 (Nat.le_of_lt h'.1.1))

theorem memFilter_wf (p : Host.Cell → Bool) {m : List Host.Cell} (h : Memory.wf m = true) :
    Memory.wf (m.filter p) = true := by
  cases m with
  | nil => exact h
  | cons x rest =>
    simp only [Memory.wf, memWfAbove, Bool.and_eq_true] at h
    simp only [List.filter_cons]
    split
    · simp only [Memory.wf, memWfAbove, Bool.and_eq_true]
      exact ⟨h.1, memFilter_above p h.2⟩
    · exact memWfAbove_none (memFilter_above p h.2)

theorem memZero_wf {m : List Host.Cell} (lo hi : Nat) (h : Memory.wf m = true) : Memory.wf (memZero m lo hi) = true :=
  memFilter_wf _ h

/-- Reading below every entry gives an unlisted byte. -/
theorem memRead_below {m : List Host.Cell} {o x : Nat} (h : memWfAbove (some o) m = true) (hx : x ≤ o) :
    memRead m x = unlisted := by
  cases m with
  | nil => rfl
  | cons c rest =>
    obtain ⟨k, v⟩ := c
    simp only [memWfAbove, Bool.and_eq_true, decide_eq_true_eq] at h
    simp only [memRead]
    rw [if_neg (by simp; omega), if_pos (by omega)]

/-- A read after a write, above a bound. -/
theorem memRead_memWrite_above {m : List Host.Cell} (a x : Nat) (b : Byte) :
    ∀ {o : Nat}, memWfAbove (some o) m = true → memRead (memWrite m a b) x = if x = a then b else memRead m x := by
  induction m with
  | nil =>
    intro o _
    simp only [memWrite]
    split <;> by_cases hx : x = a <;> simp_all [memRead] <;> grind
  | cons c rest ih =>
    obtain ⟨k, v⟩ := c
    intro o h
    simp only [memWfAbove, Bool.and_eq_true, decide_eq_true_eq] at h
    have ih := ih h.2
    have hb := fun y (hy : y ≤ k) => memRead_below h.2 hy
    simp only [memWrite]
    by_cases hka : k = a
    · subst hka
      by_cases hbu : b = unlisted
      · simp only [BEq.rfl, if_true, hbu]
        by_cases hx : x = k
        · subst hx; simp [hb x (Nat.le_refl _)]
        · simp only [hx, if_false, memRead]
          by_cases hlt : x < k
          · rw [hb x (by omega)]; simp [show ¬ k = x by omega, hlt]
          · simp [show ¬ k = x by omega, hlt]
      · simp only [BEq.rfl, if_true, beq_iff_eq, hbu, if_false, memRead]
        by_cases hx : x = k
        · simp [hx]
        · simp [hx, show ¬ k = x by omega]
    · by_cases hak : a < k
      · by_cases hbu : b = unlisted
        · simp only [beq_iff_eq, hka, if_false, hak, if_true, hbu, memRead]
          by_cases hx : x = a
          · subst hx; simp [hka, hak]
          · simp [hx]
        · simp only [beq_iff_eq, hka, if_false, hak, if_true, hbu, memRead]
          by_cases hx : x = a
          · subst hx; simp
          · by_cases hxl : x < a
            · simp [hx, show ¬ a = x by omega, hxl, show ¬ k = x by omega, show x < k by omega]
            · simp [hx, show ¬ a = x by omega, hxl]
      · simp only [beq_iff_eq, hka, if_false, hak, memRead, ih]
        by_cases hx : x = a
        · subst hx; simp [hka, hak]
        · simp [hx]

/-- A read after a write (R13): the byte written, and every other byte as before. -/
theorem memRead_memWrite {m : List Host.Cell} (a x : Nat) (b : Byte) (h : Memory.wf m = true) :
    memRead (memWrite m a b) x = if x = a then b else memRead m x := by
  cases m with
  | nil => exact memRead_memWrite_above (o := 0) a x b rfl
  | cons c rest =>
    obtain ⟨k, v⟩ := c
    by_cases hk : 0 < k
    · refine memRead_memWrite_above (o := 0) a x b ?_
      simp only [Memory.wf, memWfAbove, Bool.and_eq_true, decide_eq_true_eq] at h ⊢
      exact ⟨⟨hk, h.1⟩, h.2⟩
    · have hk : k = 0 := by omega
      subst hk
      simp only [Memory.wf, memWfAbove, Bool.and_eq_true] at h
      have hb := fun y (hy : y ≤ 0) => memRead_below h.2 hy
      have ih := memRead_memWrite_above a x b h.2
      simp only [memWrite]
      by_cases ha : 0 = a
      · subst ha
        by_cases hbu : b = unlisted
        · simp only [BEq.rfl, if_true, hbu]
          by_cases hx : x = 0
          · subst hx; simp [hb 0 (Nat.le_refl _)]
          · simp [hx, memRead, show ¬ 0 = x by omega]
        · simp only [BEq.rfl, if_true, beq_iff_eq, hbu, if_false, memRead]
          by_cases hx : x = 0
          · simp [hx]
          · simp [hx, show ¬ 0 = x by omega]
      · simp only [beq_iff_eq, ha, if_false, Nat.not_lt_zero, memRead, ih]
        by_cases hx : x = a
        · subst hx; simp [ha]
        · simp [hx]

/-- A read after bytes are written from an address upward. -/
theorem memRead_memPut (bs : List (Option Byte)) : ∀ {m : List Host.Cell} (a x : Nat), Memory.wf m = true →
    memRead (memPut m a bs) x =
      if a ≤ x ∧ x < a + bs.length then ((bs[x - a]?).getD none).getD (memRead m x) else memRead m x := by
  induction bs with
  | nil => intro m a x _; simp [memPut, show ¬ (a ≤ x ∧ x < a) by omega]
  | cons b rest ih =>
    intro m a x h
    have step : memRead (memPut m a (b :: rest)) x =
        if a + 1 ≤ x ∧ x < a + 1 + rest.length
        then ((rest[x - (a + 1)]?).getD none).getD (if x = a then b.getD (memRead m x) else memRead m x)
        else if x = a then b.getD (memRead m x) else memRead m x := by
      cases b with
      | none => simp only [memPut]; rw [ih (a + 1) x h]; simp
      | some b => simp only [memPut]; rw [ih (a + 1) x (memWrite_wf a b h), memRead_memWrite a x b h]; simp
    rw [step]
    by_cases hx : x = a
    · subst hx; simp [show ¬ (x + 1 ≤ x) by omega]
    · by_cases hr : a + 1 ≤ x ∧ x < a + 1 + rest.length
      · have : x - a = (x - (a + 1)) + 1 := by omega
        simp [hx, hr, this, show a ≤ x ∧ x < a + (rest.length + 1) by omega]
      · simp only [hx, hr, if_false, List.length_cons]
        rw [if_neg (by omega)]

/-- Two canonical memories that read alike everywhere are equal data. -/
theorem memRead_ext_above : ∀ {m n : List Host.Cell} {o : Nat}, memWfAbove (some o) m = true →
    memWfAbove (some o) n = true → (∀ x, memRead m x = memRead n x) → m = n := by
  intro m
  induction m with
  | nil =>
    intro n o _ hn h
    cases n with
    | nil => rfl
    | cons c rest =>
      have := h c.1
      simp_all [memRead, memWfAbove]
  | cons c rest ih =>
    obtain ⟨k, v⟩ := c
    intro n o hm hn h
    cases n with
    | nil =>
      have := h k
      simp_all [memRead, memWfAbove]
    | cons d rest' =>
      obtain ⟨k', v'⟩ := d
      simp only [memWfAbove, Bool.and_eq_true, decide_eq_true_eq] at hm hn
      have hk := h k
      have hk' := h k'
      simp only [memRead, BEq.rfl, if_true] at hk hk'
      have : k = k' := by
        rcases Nat.lt_trichotomy k k' with hlt | heq | hlt
        · rw [if_neg (by simp; omega), if_pos hlt] at hk; simp_all
        · exact heq
        · rw [if_neg (by simp; omega), if_pos hlt] at hk'; simp_all
      subst this
      simp only [BEq.rfl, if_true] at hk
      subst hk
      refine congrArg _ (ih hm.2 hn.2 fun x => ?_)
      by_cases hx : x ≤ k
      · rw [memRead_below hm.2 hx, memRead_below hn.2 hx]
      · have := h x
        simpa only [memRead, show (k == x) = false by simp; omega, if_neg (show ¬ x < k by omega), Bool.false_eq_true,
          if_false] using this

/-- The memory after reset is canonical: nothing is listed. -/
theorem reset_mem_wf : Memory.wf State.reset.mem = true := rfl

/-! ### States with a canonical memory -/

/-- The memory of a state is in canonical form. -/
def Canon (s : State) : Prop := Memory.wf s.mem = true

theorem Canon.of_mem {s t : State} (h : Canon s) (e : t.mem = s.mem) : Canon t := by unfold Canon; rw [e]; exact h

theorem Canon.ite {c : Prop} [Decidable c] {s t : State} (hs : Canon s) (ht : Canon t) :
    Canon (if c then s else t) := by split <;> assumption

theorem Canon.getD {o : Option State} {s : State} (hs : Canon s) (ho : ∀ t, o = some t → Canon t) : Canon (o.getD s) := by
  cases o with
  | none => exact hs
  | some t => exact ho t rfl

/-- A fold of steps that leave memory alone leaves it alone. -/
theorem foldl_mem {α : Type} (f : State → α → State) (h : ∀ s x, (f s x).mem = s.mem) :
    ∀ (l : List α) (s : State), (l.foldl f s).mem = s.mem
  | [], _ => rfl
  | x :: l, s => by rw [List.foldl_cons, foldl_mem f h l, h]

/-- The same for a fold that carries a value beside the state. -/
theorem foldl_mem2 {α β : Type} (f : β × State → α → β × State) (h : ∀ p x, (f p x).2.mem = p.2.mem) :
    ∀ (l : List α) (p : β × State), (l.foldl f p).2.mem = p.2.mem
  | [], _ => rfl
  | x :: l, p => by rw [List.foldl_cons, foldl_mem2 f h l, h]

/-- A fold of steps that keep the canonical form keeps it. -/
theorem foldl_canon {α : Type} (f : State → α → State) (h : ∀ s x, Canon s → Canon (f s x)) :
    ∀ (l : List α) (s : State), Canon s → Canon (l.foldl f s)
  | [], _, hs => hs
  | x :: l, s, hs => by rw [List.foldl_cons]; exact foldl_canon f h l _ (h s x hs)

theorem State.putBytes_canon {s : State} (a : Nat) (bs : List (Option Byte)) (h : Canon s) : Canon (s.putBytes a bs) :=
  memPut_wf bs a h

end Sys2Proof.Machine
end

