-- ==== Sys2Proof/Laws/KeepOps.lean ====
section
/-!
SUPPORT. The operations of Ops.lean keep the canonical form of memory; those that write none leave it alone.
-/

-- The proofs run one after another, so that the whole package compiles within the memory a check allows.
set_option Elab.async false

namespace Sys2Proof.Machine
open Sys2Proof

@[simp] theorem State.pageAdd_mem (s : State) (die i n : Nat) :
    (State.pageAdd s die i n).mem = s.mem := by
  unfold State.pageAdd; simp

@[simp] theorem State.free_mem (s : State) :
    (State.free s).2.mem = s.mem := by
  rfl

@[simp] theorem State.orFree_mem (s : State) (w : Option Word) :
    (State.orFree s w).2.mem = s.mem := by
  unfold State.orFree; grind [State.free_mem]

@[simp] theorem State.inject_mem (s : State) (c k : Nat) (p : Pkt) :
    (State.inject s c k p).mem = s.mem := by
  rfl

@[simp] theorem State.postMgmt_mem (s : State) (src dst : Nat × Nat) (ctx : Nat) (i : Event) :
    (State.postMgmt s src dst ctx i).mem = s.mem := by
  rfl

@[simp] theorem State.postCached_mem (s : State) (cls : Nat) (src dst : Nat × Nat) (ctx : Nat) (i : Event) :
    (State.postCached s cls src dst ctx i).mem = s.mem := by
  rfl

@[simp] theorem State.strayMgmt_mem (s : State) (c : Nat) :
    (State.strayMgmt s c).mem = s.mem := by
  rfl

@[simp] theorem State.supvSend_mem (s : State) (src : Nat × Nat) (ctx chan : Nat) (w0 w1 w2 w3 : Word) :
    (State.supvSend s src ctx chan w0 w1 w2 w3).mem = s.mem := by
  rfl

@[simp] theorem State.supvMsg_mem (s : State) (src : Nat × Nat) (ctx type : Nat) (core slot low : Option Nat) (w1 w2 w3 : Option Word) :
    (State.supvMsg s src ctx type core slot low w1 w2 w3).mem = s.mem := by
  unfold State.supvMsg; simp

@[simp] theorem State.slotMsg_mem (s : State) (core slot ctx type : Nat) (low : Option Nat) (w1 w2 w3 : Option Word) :
    (State.slotMsg s core slot ctx type low w1 w2 w3).mem = s.mem := by
  unfold State.slotMsg; simp

@[simp] theorem State.orphans_mem (s : State) (c k ctx : Nat) (rs : List TrapRec) :
    (State.orphans s c k ctx rs).mem = s.mem := by
  unfold State.orphans; refine foldl_mem _ (fun _ _ => ?_) _ _; (try dsimp only); (repeat' split) <;> simp

@[simp] theorem State.postBurr_mem (s : State) (src dst : Nat) (b : Burr) (held : Bool) :
    (State.postBurr s src dst b held).mem = s.mem := by
  rfl

@[simp] theorem State.sendCancel_mem (s : State) (c k run : Nat) (h : Held) :
    (State.sendCancel s c k run h).mem = s.mem := by
  unfold State.sendCancel; grind [State.modCore_mem, State.modSlot_mem, State.postCached_mem]

@[simp] theorem State.discard_mem (s : State) (c k : Nat) :
    (State.discard s c k).mem = s.mem := by
  unfold State.discard; intros; (repeat' (first | split | (simp [State.due_mem, State.modCopse_mem, State.modCore_mem, State.modCtx_mem, State.modSlot_mem, State.sendCancel_mem]; done) | (rw [foldl_mem] <;> intros) | (simp only [State.due_mem, State.modCopse_mem, State.modCore_mem, State.modCtx_mem, State.modSlot_mem, State.sendCancel_mem]))) <;> grind [State.due_mem, State.modCopse_mem, State.modCore_mem, State.modCtx_mem, State.modSlot_mem, State.sendCancel_mem]

@[simp] theorem State.bankOf_mem (s : State) (n : Word) (r : TrapRec) :
    (State.bankOf s n r).2.mem = s.mem := by
  unfold State.bankOf; simp

@[simp] theorem State.takeTrap_mem (s : State) (c k : Nat) (r : TrapRec) :
    (State.takeTrap s c k r).mem = s.mem := by
  unfold State.takeTrap; grind [State.bankOf_mem, State.discard_mem, State.modCore_mem, State.modThread_mem, State.orphans_mem, State.postBurr_mem, State.setSlot_mem, State.slotMsg_mem]

@[simp] theorem State.fault_mem (s : State) (c k : Nat) (cause : Cause) (lsn : Option Nat) :
    (State.fault s c k cause lsn).mem = s.mem := by
  unfold State.fault; simp

end Sys2Proof.Machine
end

