-- ==== Sys2Proof/Laws/KeepOperands.lean ====
section
/-!
SUPPORT. The operations of Operands.lean keep the canonical form of memory; those that write none leave it alone.
-/

-- The proofs run one after another, so that the whole package compiles within the memory a check allows.
set_option Elab.async false

namespace Sys2Proof.Machine
open Sys2Proof

@[simp] theorem State.settle_mem (s : State) (c k : Nat) (fl : Option Flight) :
    (State.settle s c k fl).mem = s.mem := by
  unfold State.settle; grind [State.fault_mem, State.setFlight_mem]

@[simp] theorem State.withFlight_mem (s : State) (c k : Nat) (g : Flight → Option Flight) :
    (s.withFlight c k g).mem = s.mem := by unfold State.withFlight; split <;> simp

@[simp] theorem State.emit2_mem (s : State) (is : Iss) (t t2 : Tok) :
    (State.emit2 s is t t2).mem = s.mem := by
  unfold State.emit2; simp

@[simp] theorem State.emit_mem (s : State) (is : Iss) (t : Tok) :
    (State.emit s is t).mem = s.mem := by
  unfold State.emit; simp

@[simp] theorem State.fire_mem (s : State) (is : Iss) :
    (State.fire s is).mem = s.mem := by
  unfold State.fire; simp

@[simp] theorem State.fireDue_mem (s : State) (is : Iss) (a : Act) :
    (State.fireDue s is a).mem = s.mem := by
  unfold State.fireDue; simp

@[simp] theorem State.emitDue_mem (s : State) (is : Iss) (t : Tok) (a : Act) :
    (State.emitDue s is t a).mem = s.mem := by
  unfold State.emitDue; simp

@[simp] theorem State.trapAt_mem (s : State) (is : Iss) (cause : Cause) :
    (State.trapAt s is cause).mem = s.mem := by
  unfold State.trapAt; simp

theorem issue_mem (i : Instr) (s : State) (body : Iss → State → Out) (t : State)
    (hb : ∀ is, body is s = .next t → t.mem = s.mem) : issue i s body = .next t → t.mem = s.mem := by
  unfold issue; grind [State.emit_mem, State.trapAt_mem]

theorem issue_canon (i : Instr) (s : State) (body : Iss → State → Out) (t : State) (h : Canon s)
    (hb : ∀ is, body is s = .next t → Canon t) : issue i s body = .next t → Canon t := by
  unfold issue; grind [State.emit_mem, State.trapAt_mem, Canon.of_mem]

theorem issueWhen_mem (i : Instr) (s : State) (waits : Iss → State → Bool) (body : Iss → State → Out) (t : State)
    (hb : ∀ is, body is s = .next t → t.mem = s.mem) : issueWhen i s waits body = .next t → t.mem = s.mem := by
  unfold issueWhen; exact issue_mem _ _ _ _ (by intro is; split <;> grind)

theorem issueWhen_canon (i : Instr) (s : State) (waits : Iss → State → Bool) (body : Iss → State → Out) (t : State)
    (h : Canon s) (hb : ∀ is, body is s = .next t → Canon t) : issueWhen i s waits body = .next t → Canon t := by
  unfold issueWhen; exact issue_canon _ _ _ _ h (by intro is; split <;> grind)

theorem issueRaw_mem (i : Instr) (s : State) (body : Iss → State → Out) (t : State)
    (hb : ∀ is, body is s = .next t → t.mem = s.mem) : issueRaw i s body = .next t → t.mem = s.mem := by
  unfold issueRaw; grind

theorem issueRaw_canon (i : Instr) (s : State) (body : Iss → State → Out) (t : State)
    (hb : ∀ is, body is s = .next t → Canon t) : issueRaw i s body = .next t → Canon t := by
  unfold issueRaw; grind

theorem scalar1_mem (i : Instr) (s : State) (g : Word → Word) :
    ∀ s', scalar1 i s g = .next s' → s'.mem = s.mem := by
  unfold scalar1; grind [State.emit_mem, issue_mem]

theorem scalar2_mem (i : Instr) (s : State) (g : Word → Word → Word) :
    ∀ s', scalar2 i s g = .next s' → s'.mem = s.mem := by
  unfold scalar2; grind [State.emit_mem, issue_mem]

theorem scalar3_mem (i : Instr) (s : State) (g : Word → Word → Word → Word) :
    ∀ s', scalar3 i s g = .next s' → s'.mem = s.mem := by
  unfold scalar3; grind [State.emit_mem, issue_mem]

@[simp] theorem State.exitTo_mem (s : State) (is : Iss) (target : Word) (res : Option Tok) :
    (State.exitTo s is target res).mem = s.mem := by
  unfold State.exitTo; grind [State.emit_mem, State.fault_mem, State.fire_mem, State.modFlight_mem]

end Sys2Proof.Machine
end

