-- ==== Sys2Proof/Laws/KeepStream.lean ====
section
/-!
SUPPORT. The operations of Stream.lean write no memory.
-/

-- The proofs run one after another, so that the whole package compiles within the memory a check allows.
set_option Elab.async false

namespace Sys2Proof.Machine
open Sys2Proof

@[simp] theorem State.modStream_mem (s : State) (gw i : Nat) (f : Stream → Stream) :
    (State.modStream s gw i f).mem = s.mem := by
  rfl

@[simp] theorem State.sealPkt_mem (s : State) (gw i : Nat) (e : Event) (req : Option (Option Event)) :
    (State.sealPkt s gw i e req).mem = s.mem := by
  rfl

@[simp] theorem State.unsend_mem (s : State) (gw i : Nat) (e : Event) :
    (State.unsend s gw i e).mem = s.mem := by
  rfl

end Sys2Proof.Machine
end

