-- ==== Sys2Proof/Laws/KeepHome.lean ====
section
/-!
SUPPORT. The operations of Home.lean keep the canonical form of memory; those that write none leave it alone.
-/

-- The proofs run one after another, so that the whole package compiles within the memory a check allows.
set_option Elab.async false

namespace Sys2Proof.Machine
open Sys2Proof

@[simp] theorem State.putPoolLine_mem (s : State) (l : PoolLine) :
    (State.putPoolLine s l).mem = s.mem := by
  rfl

@[simp] theorem State.setPoolLine_mem (s : State) (l : PoolLine) :
    (State.setPoolLine s l).mem = s.mem := by
  rfl

@[simp] theorem State.reportLine_mem (s : State) (l : PoolLine) :
    (State.reportLine s l).mem = s.mem := by
  unfold State.reportLine; grind [State.setPoolLine_mem]

@[simp] theorem State.reportAt_mem (s : State) (pa : Nat) :
    (State.reportAt s pa).mem = s.mem := by
  unfold State.reportAt; grind [State.reportLine_mem]

theorem State.writeBack_canon (s : State) (l : PoolLine) :
    Canon s → Canon (State.writeBack s l) := by
  intro h
  unfold State.writeBack
  refine foldl_canon _ (fun s p h => ?_) _ _ h
  obtain ⟨i, bs⟩ := p
  dsimp only
  split
  · exact State.putBytes_canon _ _ (h.of_mem (State.sealPkt_mem ..))
  · exact h

theorem State.poolRoom_canon (s : State) (line : Nat) :
    Canon s → ∀ s', State.poolRoom s line = some s' → Canon s' := by
  intro h s' e
  simp only [State.poolRoom] at e
  split at e
  · cases e; exact h.of_mem rfl
  · obtain ⟨v, -, rfl⟩ := Option.map_eq_some_iff.1 e
    refine (State.writeBack_canon _ v ?_).of_mem rfl
    exact h.of_mem (foldl_mem _ (fun _ _ => State.reportLine_mem ..) _ _)

theorem State.poolEntry_canon (s : State) (line : Nat) :
    Canon s → ∀ s' o, State.poolEntry s line = some (s', o) → Canon s' := by
  intro h s' o e
  unfold State.poolEntry at e
  split at e
  · cases e; exact h
  · obtain ⟨t, ht, he⟩ := Option.map_eq_some_iff.1 e
    cases he
    exact State.poolRoom_canon _ _ h _ ht

theorem State.poolEnsure_canon (s : State) (pa : Nat) (pol : BitVec 32) (whole : Bool) :
    Canon s → Canon (State.poolEnsure s pa pol whole) := by
  intro h
  simp only [State.poolEnsure]
  split
  · exact h
  · split
    · exact h
    · rename_i hp
      have h1 := State.poolEntry_canon _ _ h _ _ hp
      split
      · exact h1.of_mem (by simp)
      · exact h1.of_mem (by simp)

@[simp] theorem State.countAt_mem (s : State) (pa n : Nat) : (s.countAt pa n).mem = s.mem := by
  unfold State.countAt; split <;> simp

@[simp] theorem State.fixWords_mem (s : State) (pa : Nat) (ws : List Nat) : (s.fixWords pa ws).mem = s.mem := by
  simp only [State.fixWords]; split <;> simp

@[simp] theorem State.fixIn_mem (s : State) (pa n : Nat) : (s.fixIn pa n).mem = s.mem := State.fixWords_mem ..

theorem State.fixIn_canon (s : State) (pa n : Nat) (h : Canon s) : Canon (s.fixIn pa n) := h.of_mem (State.fixIn_mem ..)

theorem State.putHome_canon (s : State) (pa : Nat) (bs : List (Option Byte)) : Canon s → Canon (s.putHome pa bs) := by
  intro h
  have h1 : ∀ (b : Bool) (lo hi : Nat), Canon (if b = true then { s with mem := memZero s.mem lo hi } else s) :=
    fun b lo hi => Canon.ite (memZero_wf _ _ h) h
  have h2 : ∀ (b d : Bool) (lo hi k : Nat) (x : Sector), Canon (if d = true then
      (if b = true then { s with mem := memZero s.mem lo hi } else s).setSector k x
      else (if b = true then { s with mem := memZero s.mem lo hi } else s)) :=
    fun b d lo hi k x => Canon.ite ((h1 b lo hi).of_mem rfl) (h1 b lo hi)
  unfold State.putHome
  cases hc : s.poolData pa with
  | none => exact State.putBytes_canon _ _ (h2 _ _ _ _ _ _)
  | some old =>
    dsimp only
    split
    · exact Canon.of_mem (h2 _ _ _ _ _ _) (State.putPoolLine_mem _ _)
    · exact h2 _ _ _ _ _ _

theorem State.putSealed_canon (s : State) (kid a : Nat) (bs : List Byte) :
    Canon s → Canon (State.putSealed s kid a bs) := by
  intros; unfold State.putSealed; grind [Canon.of_mem, State.modSector_mem, State.putHome_canon]

@[simp] theorem State.unhold_mem (s : State) (sec : Nat) :
    (State.unhold s sec).mem = s.mem := by
  unfold State.unhold; grind [State.modGw_mem, State.modSector_mem]

theorem State.orWord_canon (s : State) (ctx pa : Nat) (m : Word) :
    Canon s → ∀ s', State.orWord s ctx pa m = .ok s' → Canon s' := by
  intro h; unfold State.orWord; (repeat' (first | exact h | split | intro _ | (refine foldl_canon _ ?_ _ _ ?_ <;> intros))) <;> grind [Canon.of_mem, State.fixIn_mem, State.fixIn_canon, State.modSector_mem, State.putHome_canon, State.unhold_mem]

theorem State.markDirty_canon (s : State) (ctx va pa : Nat) :
    Canon s → ∀ s', State.markDirty s ctx va pa = .ok s' → Canon s' := by
  intro h s' e
  unfold State.markDirty at e
  split at e
  · split at e
    · cases e
    · refine State.orWord_canon _ _ _ _ ?_ _ e
      exact foldl_canon _ (fun s a h => State.fixIn_canon _ _ _ h) _ _ h
  · cases e; exact h

@[simp] theorem State.record_mem (s : State) (pa n : Nat) (who : Agent) (plain : Bool) :
    (State.record s pa n who plain).mem = s.mem := by
  unfold State.record; intros; (repeat' (first | split | (simp []; done) | (rw [foldl_mem] <;> intros) | (simp only []))) <;> grind []

@[simp] theorem State.engineAt_mem (s : State) (who : Agent) :
    (State.engineAt s who).mem = s.mem := by
  unfold State.engineAt; grind []

@[simp] theorem State.mixWrite_mem (s : State) (pa : Nat) (bs : List (Option Byte)) (who : Agent) (sent : Option Nat) :
    (State.mixWrite s pa bs who sent).2.mem = s.mem := by
  unfold State.mixWrite; grind []

@[simp] theorem State.mixRead_mem (s : State) (pa : Nat) (bs : List Byte) (who : Agent) (sent : Nat) :
    (State.mixRead s pa bs who sent).2.mem = s.mem := by
  unfold State.mixRead
  split
  · rfl
  · rw [foldl_mem2]; intro p x; rfl

@[simp] theorem State.wakeWatchers_mem (s : State) (core pa : Nat) (bs : List (Option Byte)) (who : Agent) :
    (State.wakeWatchers s core pa bs who).mem = s.mem := by
  unfold State.wakeWatchers; refine foldl_mem _ (fun _ _ => ?_) _ _; (try dsimp only); (repeat' split) <;> simp

theorem State.homeWrite_canon (s : State) (ctx kid va pa : Nat) (bs : List (Option Byte)) (who : Agent) (way : WriteWay)
    (h : Canon s) : Canon (s.homeWrite ctx kid va pa bs who way).1 := by
  have hr : Canon (((s.unhold (pa / 128)).poolEnsure pa way.pol (wholeSector pa bs)).mixWrite pa bs who way.sent).2 :=
    (State.poolEnsure_canon _ _ _ _ (h.of_mem (by simp))).of_mem (State.mixWrite_mem ..)
  unfold State.homeWrite
  dsimp only
  generalize (((s.unhold (pa / 128)).poolEnsure pa way.pol (wholeSector pa bs)).mixWrite pa bs who way.sent) = m at hr
  obtain ⟨mixed, u⟩ := m
  dsimp only at hr ⊢
  have h3 : Canon (((u.record pa bs.length who way.sent.isSome).fixWords pa (partWords pa bs)).putHome pa mixed) :=
    State.putHome_canon _ _ _ (hr.of_mem (by simp))
  generalize (((u.record pa bs.length who way.sent.isSome).fixWords pa (partWords pa bs)).putHome pa mixed) = v at h3
  have h4 : Canon (if sealedTier pa = true then v.modSector (pa / 128) fun x => { x with kid := some kid } else v) :=
    Canon.ite (h3.of_mem (by simp)) h3
  generalize (if sealedTier pa = true then v.modSector (pa / 128) fun x => { x with kid := some kid } else v) = w at h4
  split
  · rename_i hm
    refine State.markDirty_canon _ _ _ _ ?_ _ hm
    split
    · exact h4.of_mem (by simp)
    · exact h4
  · dsimp only
    split
    · exact h4.of_mem (by simp)
    · exact h4

@[simp] theorem State.markRick_mem (s : State) (copse handle : Nat) :
    (State.markRick s copse handle).mem = s.mem := by
  rfl

@[simp] theorem State.applyMarks_mem (s : State) (hits : List (Nat × Nat)) :
    (State.applyMarks s hits).mem = s.mem := by
  unfold State.applyMarks; intros; (repeat' (first | split | (simp [State.markRick_mem]; done) | (rw [foldl_mem] <;> intros) | (simp only [State.markRick_mem]))) <;> grind [State.markRick_mem]

@[simp] theorem State.dueMarks_mem (s : State) (hits : List (Nat × Nat)) (ack : Option Tag) :
    (State.dueMarks s hits ack).mem = s.mem := by
  fun_induction State.dueMarks <;> grind [State.due_mem]

@[simp] theorem State.setResv_mem (s : State) (g : Nat) (q : List Waiter) :
    (State.setResv s g q).mem = s.mem := by
  rfl

end Sys2Proof.Machine
end

