-- ==== Sys2Proof/Laws/KeepXlate.lean ====
section
/-!
SUPPORT. The operations of Xlate.lean keep the canonical form of memory; those that write none leave it alone.
-/

-- The proofs run one after another, so that the whole package compiles within the memory a check allows.
set_option Elab.async false

namespace Sys2Proof.Machine
open Sys2Proof

@[simp] theorem State.zpRange_mem (s : State) (lo n kid : Nat) :
    (State.zpRange s lo n kid).mem = s.mem := by
  unfold State.zpRange; refine foldl_mem _ (fun _ _ => ?_) _ _; (try dsimp only); (repeat' split) <;> simp

@[simp] theorem State.zpPage_mem (s : State) (ctx : Nat) (l : Leaf) :
    (State.zpPage s ctx l).mem = s.mem := by
  unfold State.zpPage; intros; (repeat' (first | split | (simp [State.zpRange_mem]; done) | (rw [foldl_mem] <;> intros) | (simp only [State.zpRange_mem]))) <;> grind [State.zpRange_mem]

theorem State.dirtyPages_canon (s : State) (ctx base pa : Nat) (x0 : Nat) :
    Canon s → ∀ s', State.dirtyPages s ctx base pa x0 = .ok s' → Canon s' := by
  fun_induction State.dirtyPages <;> grind [Canon.of_mem, → State.markDirty_canon]

theorem State.clearZp_canon (s : State) (ctx va : Nat) (pa : Nat) (x0 : Nat) :
    Canon s → ∀ s', State.clearZp s ctx va pa x0 = .ok s' → Canon s' := by
  fun_induction State.clearZp <;> grind [Canon.of_mem, State.dueMarks_mem, State.homeWrite_canon]

theorem State.claimZp_canon (s : State) (ctx va node level : Nat) (l : Leaf) :
    Canon s → ∀ s', State.claimZp s ctx va node level l = .ok s' → Canon s' := by
  intro h s' e
  simp only [State.claimZp] at e
  have h1 : Canon (s.zpPage ctx l) := h.of_mem (by simp)
  split at e
  · rename_i hu
    refine State.clearZp_canon _ _ _ _ _ ?_ _ e
    split at hu
    · exact State.dirtyPages_canon _ _ _ _ _ h1 _ hu
    · cases hu; exact h1
  · cases e

@[simp] theorem State.pickCopy_mem (s : State) (ctx va node level : Nat) (e : Word) :
    (State.pickCopy s ctx va node level e).2.mem = s.mem := by
  unfold State.pickCopy; grind []

theorem State.walkFrom_canon1 (s : State) (copse ctx va : Nat) (x0 : Nat) (x1 : Nat) (h : Canon s) :
    Canon (State.walkFrom s copse ctx va x0 x1).1 := by
  induction x0 generalizing s x1 with
  | zero => exact h
  | succ left ih =>
    simp only [State.walkFrom]
    split
    · exact ih _ _ h
    · split
      · exact h
      · have hf : Canon (s.fixIn (x1 + 8 * nodeIndex (6 - left) va) 8) := State.fixIn_canon _ _ _ h
        generalize s.fixIn (x1 + 8 * nodeIndex (6 - left) va) 8 = u at hf ⊢
        generalize s.homeWord (x1 + 8 * nodeIndex (6 - left) va) = e0
        split
        · exact hf
        · split
          · have hp : Canon (if u.leafGood ctx (6 - left) e0 = true then u.pickCopy ctx va x1 (6 - left) e0 else (e0, u)).2 := by
              split
              · exact hf.of_mem (State.pickCopy_mem ..)
              · exact hf
            generalize (if u.leafGood ctx (6 - left) e0 = true then u.pickCopy ctx va x1 (6 - left) e0 else (e0, u)) = p at hp ⊢
            obtain ⟨e, v⟩ := p
            dsimp only at hp ⊢
            split
            · exact hp
            · split
              · exact hp
              · split
                · exact hp
                · have hv : Canon (if leafKind e == 2 then v.fixIn (leafPad e) 16 else v) := by
                    split
                    · exact State.fixIn_canon _ _ _ hp
                    · exact hp
                  split
                  · split
                    · rename_i hc
                      exact State.claimZp_canon _ _ _ _ _ _ hv _ hc
                    · exact hv
                  · exact hv
          · split
            · exact hf
            · split
              · exact hf
              · exact ih _ _ (hf.of_mem (by simp))

theorem State.walkFrom_canon (s : State) (copse ctx va : Nat) (x0 : Nat) (x1 : Nat) :
    Canon s → ∀ s' o, State.walkFrom s copse ctx va x0 x1 = (s', o) → Canon s' := by
  intro h s' o e
  have := State.walkFrom_canon1 s copse ctx va x0 x1 h
  rwa [e] at this

theorem State.walk_canon (s : State) (copse ctx va : Nat) :
    Canon s → ∀ s' o, State.walk s copse ctx va = (s', o) → Canon s' := by
  intro h s' o e
  simp only [State.walk] at e
  split at e
  · cases e; exact h
  · split at e
    · cases e; exact h
    · exact State.walkFrom_canon _ _ _ _ _ _ h _ _ e

theorem State.walk_canon1 (s : State) (copse ctx va : Nat) (h : Canon s) :
    Canon (State.walk s copse ctx va).1 := State.walk_canon s copse ctx va h _ _ rfl

theorem State.xlateCopse_canon (s : State) (copse ctx va : Nat) :
    Canon s → ∀ s' o, State.xlateCopse s copse ctx va = (s', o) → Canon s' := by
  intro h; unfold State.xlateCopse; (repeat' (first | exact h | split | intro _ | (refine foldl_canon _ ?_ _ _ ?_ <;> intros))) <;> grind [Canon.of_mem, State.modCopse_mem, → State.walk_canon, State.walk_canon1]

theorem State.xlateCopse_canon1 (s : State) (copse ctx va : Nat) (h : Canon s) :
    Canon (State.xlateCopse s copse ctx va).1 := State.xlateCopse_canon s copse ctx va h _ _ rfl

theorem State.rewalk_canon (s : State) (copse ctx va : Nat) :
    Canon s → Canon (State.rewalk s copse ctx va) := by
  intro h
  have h1 := State.walk_canon1 s copse ctx va h
  unfold State.rewalk
  split
  · rename_i hw
    rw [hw] at h1
    exact h1.of_mem (by rw [foldl_mem _ (fun _ _ => State.modCore_mem ..)]; simp)
  · rename_i hw
    rw [hw] at h1
    exact h1

theorem State.xlateCore_canon (s : State) (core ctx va : Nat) :
    Canon s → ∀ s' o, State.xlateCore s core ctx va = (s', o) → Canon s' := by
  intro h; unfold State.xlateCore; (repeat' (first | exact h | split | intro _ | (refine foldl_canon _ ?_ _ _ ?_ <;> intros))) <;> grind [Canon.of_mem, State.modCore_mem, → State.xlateCopse_canon, State.xlateCopse_canon1]

theorem State.xlateCore_canon1 (s : State) (core ctx va : Nat) (h : Canon s) :
    Canon (State.xlateCore s core ctx va).1 := State.xlateCore_canon s core ctx va h _ _ rfl

@[simp] theorem State.guardFor_mem (s : State) (core pa : Nat) (wr : Bool) :
    (State.guardFor s core pa wr).1.mem = s.mem := by
  unfold State.guardFor; grind [State.modCore_mem]

theorem State.xlate_canon (s : State) (x : Xer) (ctx va : Nat) :
    Canon s → ∀ s' o, State.xlate s x ctx va = (s', o) → Canon s' := by
  intro h; unfold State.xlate; (repeat' (first | exact h | split | intro _ | (refine foldl_canon _ ?_ _ _ ?_ <;> intros))) <;> grind [Canon.of_mem, → State.xlateCopse_canon, → State.xlateCore_canon, State.xlateCopse_canon1, State.xlateCore_canon1]

theorem State.xlate_canon1 (s : State) (x : Xer) (ctx va : Nat) (h : Canon s) :
    Canon (State.xlate s x ctx va).1 := State.xlate_canon s x ctx va h _ _ rfl

@[simp] theorem State.guardOf_mem (s : State) (x : Xer) (pa : Nat) (wr : Bool) :
    (State.guardOf s x pa wr).1.mem = s.mem := by
  unfold State.guardOf; grind [State.guardFor_mem]

theorem State.checkPage_canon (s : State) (x : Xer) (ctx : Nat) (priv : Bool) (va : Nat) (rd wr : Bool) :
    Canon s → ∀ s' o, State.checkPage s x ctx priv va rd wr = (s', o) → Canon s' := by
  intro h; unfold State.checkPage; (repeat' (first | exact h | split | intro _ | (refine foldl_canon _ ?_ _ _ ?_ <;> intros))) <;> grind [Canon.of_mem, → State.xlate_canon, State.xlate_canon1]

theorem State.checkPage_canon1 (s : State) (x : Xer) (ctx : Nat) (priv : Bool) (va : Nat) (rd wr : Bool) (h : Canon s) :
    Canon (State.checkPage s x ctx priv va rd wr).1 := State.checkPage_canon s x ctx priv va rd wr h _ _ rfl

theorem State.checkGranule_canon (s : State) (x : Xer) (ctx : Nat) (priv : Bool) (va n : Nat) (rd wr : Bool) :
    Canon s → ∀ s' o, State.checkGranule s x ctx priv va n rd wr = (s', o) → Canon s' := by
  intro h; unfold State.checkGranule; (repeat' (first | exact h | split | intro _ | (refine foldl_canon _ ?_ _ _ ?_ <;> intros))) <;> grind [Canon.of_mem, → State.checkPage_canon, State.guardOf_mem, State.checkPage_canon1]

theorem State.checkGranule_canon1 (s : State) (x : Xer) (ctx : Nat) (priv : Bool) (va n : Nat) (rd wr : Bool) (h : Canon s) :
    Canon (State.checkGranule s x ctx priv va n rd wr).1 := State.checkGranule_canon s x ctx priv va n rd wr h _ _ rfl

theorem State.checkParts_canon (s : State) (x : Xer) (ctx : Nat) (priv : Bool) (va : Nat) (want : List Bool) (rd wr : Bool) (x0 : List (Nat × Nat)) :
    Canon s → ∀ s' o, State.checkParts s x ctx priv va want rd wr x0 = (s', o) → Canon s' := by
  fun_induction State.checkParts <;> grind [Canon.of_mem, → State.checkGranule_canon, State.checkGranule_canon1]

theorem State.checkParts_canon1 (s : State) (x : Xer) (ctx : Nat) (priv : Bool) (va : Nat) (want : List Bool) (rd wr : Bool) (x0 : List (Nat × Nat)) (h : Canon s) :
    Canon (State.checkParts s x ctx priv va want rd wr x0).1 := State.checkParts_canon s x ctx priv va want rd wr x0 h _ _ rfl

theorem State.checkBytes_canon (s : State) (x : Xer) (ctx : Nat) (priv : Bool) (va n : Nat) (rd wr : Bool) :
    Canon s → ∀ s' o, State.checkBytes s x ctx priv va n rd wr = (s', o) → Canon s' := by
  intro h; unfold State.checkBytes; (repeat' (first | exact h | split | intro _ | (refine foldl_canon _ ?_ _ _ ?_ <;> intros))) <;> grind [Canon.of_mem, → State.checkParts_canon, State.checkParts_canon1]

theorem State.checkBytes_canon1 (s : State) (x : Xer) (ctx : Nat) (priv : Bool) (va n : Nat) (rd wr : Bool) (h : Canon s) :
    Canon (State.checkBytes s x ctx priv va n rd wr).1 := State.checkBytes_canon s x ctx priv va n rd wr h _ _ rfl

end Sys2Proof.Machine
end

