-- ==== Sys2Proof/Laws/KeepAccess.lean ====
section
/-!
SUPPORT. The operations of Access.lean keep the canonical form of memory; those that write none leave it alone.
-/

-- The proofs run one after another, so that the whole package compiles within the memory a check allows.
set_option Elab.async false

namespace Sys2Proof.Machine
open Sys2Proof

@[simp] theorem State.ack_mem (s : State) (from_ : Nat × Nat) (ctx : Nat) (who : Agent) (kind : AckKind) (refused : Option TrapRec) (tag : Option Tag) :
    (State.ack s from_ ctx who kind refused tag).mem = s.mem := by
  unfold State.ack; grind [State.post_mem]

@[simp] theorem State.reply_mem (s : State) (r : Req) (data : List Byte) (err : Option TrapRec) :
    (State.reply s r data err).mem = s.mem := by
  unfold State.reply; grind [State.post_mem]

@[simp] theorem State.impTrap_mem (s : State) (who : Agent) (r : TrapRec) :
    (State.impTrap s who r).mem = s.mem := by
  unfold State.impTrap; grind [State.modThread_mem]

@[simp] theorem State.ackWhole_mem (s : State) (r : Req) (refused : Option TrapRec) :
    (State.ackWhole s r refused).mem = s.mem := by
  unfold State.ackWhole; grind [State.ack_mem, State.impTrap_mem]

@[simp] theorem State.ackWrite_mem (s : State) (r : Req) (refused : Option TrapRec) :
    (State.ackWrite s r refused).mem = s.mem := by
  unfold State.ackWrite; grind [State.ackWhole_mem]

theorem State.serveWrite_canon (s : State) (r : Req) (bs : List (Option Byte)) :
    Canon s → Canon (State.serveWrite s r bs) := by
  intros; unfold State.serveWrite; grind [Canon.of_mem, State.ackWrite_mem, State.applyMarks_mem, State.dueMarks_mem, State.homeWrite_canon, State.reportAt_mem]

theorem State.serveRed_canon (s : State) (r : Req) (op : RmwOp) (n : Nat) (b : Word) :
    Canon s → Canon (State.serveRed s r op n b) := by
  intros; unfold State.serveRed; grind [Canon.of_mem, State.ackWrite_mem, State.fixIn_mem, State.fixIn_canon, State.poolEnsure_canon, State.reportAt_mem, State.serveWrite_canon]

theorem State.serveReadFor_canon (s : State) (r : Req) (n : Nat) (offs : List Nat) :
    Canon s → Canon (State.serveReadFor s r n offs) := by
  intro h
  simp only [State.serveReadFor]
  split
  · exact h.of_mem (by simp)
  · have h1 : Canon (s.poolEnsure r.pa r.pol) := State.poolEnsure_canon _ _ _ _ h
    generalize s.poolEnsure r.pa r.pol = u at h1
    have h2 : Canon (if r.install = true then u.fixIn (r.pa / 128 * 128) 128 else u.fixIn r.pa n) :=
      Canon.ite (h1.of_mem (by simp)) (h1.of_mem (by simp))
    generalize (if r.install = true then u.fixIn (r.pa / 128 * 128) 128 else u.fixIn r.pa n) = v at h2
    exact foldl_canon _ (fun _ _ h => h.of_mem (State.reply_mem ..)) _ _ (h2.of_mem (by simp))

theorem State.serveRead_canon (s : State) (r : Req) (n : Nat) : Canon s → Canon (State.serveRead s r n) :=
  State.serveReadFor_canon _ _ _ _

theorem State.serveWake_canon (s : State) (r : Req) (v : Word) :
    Canon s → Canon (State.serveWake s r v) := by
  intros; unfold State.serveWake; grind [Canon.of_mem, State.post_mem, State.serveWrite_canon]

theorem State.serveGath_canon (s : State) (r : Req) (els : List (Nat × Nat × Nat × Nat)) :
    Canon s → Canon (State.serveGath s r els) :=
  fun h => foldl_canon _ (fun _ _ h => State.serveReadFor_canon _ _ _ _ h) _ _ h

@[simp] theorem State.grantReply_mem (s : State) (w : Waiter) (c : Nat) (data : List Byte) (err : Option TrapRec) :
    (State.grantReply s w c data err).mem = s.mem := by
  rfl

theorem State.grantHead_canon (s : State) (g : Nat) (w : Waiter) (rest : List Waiter) :
    Canon s → ∀ s' o, State.grantHead s g w rest = (s', o) → Canon s' := by
  intro h; unfold State.grantHead; (repeat' (first | exact h | split | intro _ | (refine foldl_canon _ ?_ _ _ ?_ <;> intros))) <;> grind [Canon.of_mem, State.fixIn_mem, State.fixIn_canon, State.grantReply_mem, State.poolEnsure_canon, State.reportAt_mem, State.setResv_mem]

theorem State.grantHead_canon1 (s : State) (g : Nat) (w : Waiter) (rest : List Waiter) (h : Canon s) :
    Canon (State.grantHead s g w rest).1 := State.grantHead_canon s g w rest h _ _ rfl

@[simp] theorem State.dropWaiter_mem (s : State) (g : Nat) (t : Tag) :
    (State.dropWaiter s g t).mem = s.mem := by
  rfl

theorem State.serveNow_canon (s : State) (r : Req) :
    Canon s → Canon (State.serveNow s r) := by
  intros; unfold State.serveNow; grind [Canon.of_mem, State.dropWaiter_mem, State.serveGath_canon, State.serveRead_canon, State.serveRed_canon, State.serveWake_canon, State.serveWrite_canon]

@[simp] theorem State.popResv_mem (s : State) (g : Nat) :
    (State.popResv s g).mem = s.mem := by
  rfl

@[simp] theorem State.queueAt_mem (s : State) (r : Req) (g : Nat) :
    (State.queueAt s r g).mem = s.mem := by
  rfl

theorem State.servePart_canon (s : State) (r : Req) (past : Option Nat) :
    Canon s → Canon (State.servePart s r past) := by
  intros; unfold State.servePart; grind [Canon.of_mem, State.queueAt_mem, State.serveNow_canon]

theorem State.advance_canon (s : State) (n : Nat) (gs : List Nat) : Canon s → Canon (State.advance s n gs) := by
  fun_induction State.advance <;> intro h
  case case1 => exact h
  case case2 => exact h
  all_goals first
    | (rename_i ih; exact ih h)
    | (rename_i hg ih; exact ih (by have := State.grantHead_canon _ _ _ _ h _ _ hg; exact this))
    | (rename_i ih; exact ih (State.servePart_canon _ _ _ (h.of_mem (State.popResv_mem ..))))

theorem State.resumeAt_canon (s : State) (g : Nat) :
    Canon s → Canon (State.resumeAt s g) := by
  intros; unfold State.resumeAt; grind [Canon.of_mem, State.advance_canon]

theorem State.serve_canon (s : State) (r : Req) : Canon s → Canon (State.serve s r) := by
  intro h
  simp only [State.serve]
  split
  · exact State.serveNow_canon _ _ h
  · split
    · exact State.servePart_canon _ _ _ h
    · refine foldl_canon _ (fun _ _ h => State.servePart_canon _ _ _ h) _ _ ?_
      split
      · exact h
      · exact h

@[simp] theorem State.queueReserve_mem (s : State) (r : Req) :
    (State.queueReserve s r).mem = s.mem := by
  unfold State.queueReserve; grind [State.setResv_mem]

theorem State.serveRelease_canon (s : State) (r : Req) :
    Canon s → Canon (State.serveRelease s r) := by
  intros; unfold State.serveRelease; grind [Canon.of_mem, State.queueAt_mem, State.resumeAt_canon, State.serveNow_canon]

theorem State.serveCancel_canon (s : State) (r : Req) :
    Canon s → Canon (State.serveCancel s r) := by
  intros; unfold State.serveCancel; grind [Canon.of_mem, State.ack_mem, State.dropWaiter_mem, State.resumeAt_canon]

theorem State.poolStart_canon (s : State) (pa : Nat) :
    Canon s → ∀ s', State.poolStart s pa = some s' → Canon s' := by
  intro h s' e
  obtain ⟨p, hp, rfl⟩ := Option.map_eq_some_iff.1 e
  exact (State.poolEntry_canon _ _ h _ _ hp).of_mem (State.putPoolLine_mem ..)

@[simp] theorem State.poolEnd_mem (s : State) (pa : Nat) :
    (State.poolEnd s pa).mem = s.mem := by
  unfold State.poolEnd; grind [State.putPoolLine_mem]

@[simp] theorem State.poolWait_mem (s : State) (pa : Nat) (e : Event) :
    (State.poolWait s pa e).mem = s.mem := by
  unfold State.poolWait; grind [State.setPoolLine_mem]

theorem withReq_mem (s : State) (get : Event → Option Req) (body : State → Req → State) (t : State)
    (hb : ∀ r, (body s.taken r).mem = s.mem) : withReq s get body = .next t → t.mem = s.mem := by
  unfold withReq; split <;> grind

theorem withReq_canon (s : State) (get : Event → Option Req) (body : State → Req → State) (t : State) (h : Canon s)
    (hb : ∀ s r, Canon s → Canon (body s r)) : withReq s get body = .next t → Canon t := by
  unfold withReq; split <;> grind [Canon.of_mem, State.taken_mem]

theorem State.perform_canon (s : State) (r : Req) :
    Canon s → Canon (State.perform s r) := by
  intros; unfold State.perform; grind [Canon.of_mem, State.queueReserve_mem, State.resumeAt_canon, State.serve_canon, State.serveCancel_canon, State.serveRelease_canon]

theorem State.atHome_canon (s : State) (e : Req → Event) (r : Req) :
    Canon s → Canon (State.atHome s e r) := by
  intros; unfold State.atHome; grind [Canon.of_mem, State.due_mem, State.perform_canon, → State.poolStart_canon, State.poolWait_mem]

@[simp] theorem State.timedOut_mem (s : State) (e : Event) :
    (State.timedOut s e).mem = s.mem := by
  unfold State.timedOut; grind [State.ackWrite_mem, State.poolEnd_mem, State.reply_mem]

@[simp] theorem State.forget_mem (s : State) (e : Event) :
    (State.forget s e).mem = s.mem := by
  rfl

theorem State.overLink_canon (s : State) (l : Option (Nat × Nat)) (e : Event) (go : State → State)
    (hg : ∀ s, Canon s → Canon (go s)) : Canon s → Canon (State.overLink s l e go) := by
  intro h
  simp only [State.overLink]
  split
  · exact hg _ h
  · split
    · split
      · exact h.of_mem (by simp)
      · exact h.of_mem (by simp)
    · split
      · exact hg _ (h.of_mem (by simp))
      · exact h.of_mem (by simp)

theorem homeStep_canon (s : State) (put : Req → Event) (get : Event → Option Req) :
    Canon s → ∀ s', homeStep s put get = .next s' → Canon s' := by
  intro h s'
  unfold homeStep
  exact withReq_canon _ _ _ _ h fun s r h => State.overLink_canon _ _ _ _ (fun s h => State.atHome_canon _ _ _ h) h

theorem execSliceAccess_canon (s : State) :
    Canon s → ∀ s', execSliceAccess s = .next s' → Canon s' := by
  intro h; unfold execSliceAccess; (repeat' (first | exact h | split | intro _ | (refine foldl_canon _ ?_ _ _ ?_ <;> intros))) <;> grind [Canon.of_mem, → homeStep_canon]

theorem execPoolCacheMiss_canon (s : State) :
    Canon s → ∀ s', execPoolCacheMiss s = .next s' → Canon s' := by
  intro h s'
  unfold execPoolCacheMiss
  exact withReq_canon _ _ _ _ h fun s r h => State.overLink_canon _ _ _ _
    (fun s h => State.perform_canon _ _ (State.poolEnsure_canon _ _ _ _ (h.of_mem (by simp)))) h

theorem execPoolAccess_canon (s : State) :
    Canon s → ∀ s', execPoolAccess s = .next s' → Canon s' := by
  intro h; unfold execPoolAccess; (repeat' (first | exact h | split | intro _ | (refine foldl_canon _ ?_ _ _ ?_ <;> intros))) <;> grind [Canon.of_mem, → homeStep_canon]

theorem execScratchpadAccess_canon (s : State) :
    Canon s → ∀ s', execScratchpadAccess s = .next s' → Canon s' := by
  intro h; unfold execScratchpadAccess; (repeat' (first | exact h | split | intro _ | (refine foldl_canon _ ?_ _ _ ?_ <;> intros))) <;> grind [Canon.of_mem, → homeStep_canon]

@[simp] theorem State.hostStore_mem (s : State) (g : Nat) (r : Req) :
    (State.hostStore s g r).mem = s.mem := by
  rfl

theorem execCodeLoadStore_canon (s : State) :
    Canon s → ∀ s', execCodeLoadStore s = .next s' → Canon s' := by
  intro h; unfold execCodeLoadStore; (repeat' (first | exact h | split | intro _ | (refine foldl_canon _ ?_ _ _ ?_ <;> intros))) <;> grind [Canon.of_mem, State.ackWrite_mem, State.hostStore_mem, State.perform_canon, withReq_mem, withReq_canon]

theorem execReductionApply_canon (s : State) :
    Canon s → ∀ s', execReductionApply s = .next s' → Canon s' := by
  intro h; unfold execReductionApply; (repeat' (first | exact h | split | intro _ | (refine foldl_canon _ ?_ _ _ ?_ <;> intros))) <;> grind [Canon.of_mem, → homeStep_canon]

theorem execGatherHomeRead_canon (s : State) :
    Canon s → ∀ s', execGatherHomeRead s = .next s' → Canon s' := by
  intro h; unfold execGatherHomeRead; (repeat' (first | exact h | split | intro _ | (refine foldl_canon _ ?_ _ _ ?_ <;> intros))) <;> grind [Canon.of_mem, → homeStep_canon]

theorem execStwApply_canon (s : State) :
    Canon s → ∀ s', execStwApply s = .next s' → Canon s' := by
  intro h; unfold execStwApply; (repeat' (first | exact h | split | intro _ | (refine foldl_canon _ ?_ _ _ ?_ <;> intros))) <;> grind [Canon.of_mem, → homeStep_canon]

theorem execReserveRequest_canon (s : State) :
    Canon s → ∀ s', execReserveRequest s = .next s' → Canon s' := by
  intro h; unfold execReserveRequest; (repeat' (first | exact h | split | intro _ | (refine foldl_canon _ ?_ _ _ ?_ <;> intros))) <;> grind [Canon.of_mem, → homeStep_canon]

theorem execRelease_canon (s : State) :
    Canon s → ∀ s', execRelease s = .next s' → Canon s' := by
  intro h; unfold execRelease; (repeat' (first | exact h | split | intro _ | (refine foldl_canon _ ?_ _ _ ?_ <;> intros))) <;> grind [Canon.of_mem, → homeStep_canon]

theorem execCancel_canon (s : State) :
    Canon s → ∀ s', execCancel s = .next s' → Canon s' := by
  intro h; unfold execCancel; (repeat' (first | exact h | split | intro _ | (refine foldl_canon _ ?_ _ _ ?_ <;> intros))) <;> grind [Canon.of_mem, State.perform_canon, State.poolWait_mem, withReq_mem, withReq_canon]

theorem execReservationRevoke_mem (s : State) :
    ∀ s', execReservationRevoke s = .next s' → s'.mem = s.mem := by
  unfold execReservationRevoke; grind [State.fault_mem, State.postCached_mem, State.setResv_mem, State.taken_mem]

theorem execRevokeReceive_mem (s : State) :
    ∀ s', execRevokeReceive s = .next s' → s'.mem = s.mem := by
  unfold execRevokeReceive; grind [State.discard_mem, State.fault_mem, State.modSlot_mem, State.taken_mem]

@[simp] theorem State.moveTails_mem (s : State) (c k : Nat) :
    (State.moveTails s c k).mem = s.mem := by
  unfold State.moveTails; refine foldl_mem _ (fun _ _ => ?_) _ _; (try dsimp only); (repeat' split) <;> simp

theorem execWriteAck_mem (s : State) :
    ∀ s', execWriteAck s = .next s' → s'.mem = s.mem := by
  unfold execWriteAck; grind [State.fault_mem, State.impTrap_mem, State.modSlot_mem, State.moveTails_mem, State.taken_mem]

theorem execWakeAcknowledgement_mem (s : State) :
    ∀ s', execWakeAcknowledgement s = .next s' → s'.mem = s.mem := by
  unfold execWakeAcknowledgement; grind [State.fault_mem, State.modSlot_mem, State.taken_mem]

theorem execTranslationWalk_canon (s : State) :
    Canon s → ∀ s', execTranslationWalk s = .next s' → Canon s' := by
  intro h; unfold execTranslationWalk; (repeat' (first | exact h | split | intro _ | (refine foldl_canon _ ?_ _ _ ?_ <;> intros))) <;> grind [Canon.of_mem, State.fault_mem, State.rewalk_canon, State.taken_mem]

theorem execZeroSweep_canon (s : State) :
    Canon s → ∀ s', execZeroSweep s = .next s' → Canon s' := by
  intro h; unfold execZeroSweep; (repeat' (first | exact h | split | intro _ | (refine foldl_canon _ ?_ _ _ ?_ <;> intros))) <;> grind [Canon.of_mem, State.dueMarks_mem, State.fault_mem, State.poolEnsure_canon, State.putHome_canon, State.taken_mem, State.unhold_mem]

@[simp] theorem State.dropLine_mem (s : State) (l : PoolLine) :
    (State.dropLine s l).mem = s.mem := by
  unfold State.dropLine; grind [State.setPoolLine_mem]

theorem execBackInvalidate_canon (s : State) :
    Canon s → ∀ s', execBackInvalidate s = .next s' → Canon s' := by
  intro h s' e
  unfold execBackInvalidate at e
  split at e
  · cases e
    refine State.putBytes_canon _ _ ?_
    dsimp only
    split
    · rename_i l _
      exact Canon.of_mem (State.writeBack_canon (s.taken.reportLine l) l (h.of_mem (by simp))) (by simp)
    · exact h.of_mem (by simp)
  · cases e

@[simp] theorem State.fillL1_mem (s : State) (r : Reply) (x0 : Option (Nat × List Byte × BitVec 32)) :
    (State.fillL1 s r x0).mem = s.mem := by
  unfold State.fillL1; grind [State.modCore_mem]

@[simp] theorem State.acquired_mem (s : State) (t : Tag) :
    (State.acquired s t).mem = s.mem := by
  unfold State.acquired; grind [State.modCore_mem]

theorem execLoadReply_mem (s : State) :
    ∀ s', execLoadReply s = .next s' → s'.mem = s.mem := by
  unfold execLoadReply; (try dsimp only); (repeat' split) <;> simp

theorem execAtomicGrant_mem (s : State) :
    ∀ s', execAtomicGrant s = .next s' → s'.mem = s.mem := by
  unfold execAtomicGrant; (try dsimp only); (repeat' split) <;> simp

@[simp] theorem State.readParts_mem (s : State) (who : Agent) (ctx va : Nat) (blockp : Word) (x0 : List Part) :
    (State.readParts s who ctx va blockp x0).1.mem = s.mem := by
  fun_induction State.readParts <;> grind [State.mixRead_mem, State.reportAt_mem]

theorem State.fixParts_canon (s : State) (pol : BitVec 32) (x0 : List Part) :
    Canon s → Canon (State.fixParts s pol x0) := by
  fun_induction State.fixParts <;> grind [Canon.of_mem, State.fixIn_mem, State.fixIn_canon, State.poolEnsure_canon]

theorem State.readVa_canon (s : State) (x : Xer) (who : Agent) (ctx : Nat) (priv : Bool) (va n : Nat) (blockp : Word) (pol : BitVec 32) :
    Canon s → ∀ s' o, State.readVa s x who ctx priv va n blockp pol = (s', o) → Canon s' := by
  intro h; unfold State.readVa; (repeat' (first | exact h | split | intro _ | (refine foldl_canon _ ?_ _ _ ?_ <;> intros))) <;> grind [Canon.of_mem, State.checkBytes_canon, State.engineAt_mem, State.fixParts_canon, State.readParts_mem]

theorem State.readVa_canon1 (s : State) (x : Xer) (who : Agent) (ctx : Nat) (priv : Bool) (va n : Nat) (blockp : Word) (pol : BitVec 32) (h : Canon s) :
    Canon (State.readVa s x who ctx priv va n blockp pol).1 := State.readVa_canon s x who ctx priv va n blockp pol h _ _ rfl

theorem State.engineWrite_canon (s : State) (who : Agent) (ctx kid va pa : Nat) (bs : List (Option Byte)) (blockp : Word) (pol : BitVec 32) :
    Canon s → (∀ s', State.engineWrite s who ctx kid va pa bs blockp pol = .done s' → Canon s') ∧ (∀ s' o, State.engineWrite s who ctx kid va pa bs blockp pol = .fault s' o → Canon s') := by
  intros; unfold State.engineWrite; grind [Canon.of_mem, State.applyMarks_mem, State.engineAt_mem, State.fault_mem, State.homeWrite_canon, State.reportAt_mem]

theorem State.engineWrite_done (s : State) (who : Agent) (ctx kid va pa : Nat) (bs : List (Option Byte)) (blockp : Word) (pol : BitVec 32) (h : Canon s) :
    ∀ s', State.engineWrite s who ctx kid va pa bs blockp pol = .done s' → Canon s' := (State.engineWrite_canon s who ctx kid va pa bs blockp pol h).1

theorem State.engineWrite_fault (s : State) (who : Agent) (ctx kid va pa : Nat) (bs : List (Option Byte)) (blockp : Word) (pol : BitVec 32) (h : Canon s) :
    ∀ s' o, State.engineWrite s who ctx kid va pa bs blockp pol = .fault s' o → Canon s' := (State.engineWrite_canon s who ctx kid va pa bs blockp pol h).2

end Sys2Proof.Machine
end

