-- ==== Sys2Proof/Laws/KeepMem.lean ====
section
/-!
SUPPORT. The operations of Mem.lean keep the canonical form of memory; those that write none leave it alone.
-/

-- The proofs run one after another, so that the whole package compiles within the memory a check allows.
set_option Elab.async false

namespace Sys2Proof.Machine
open Sys2Proof

@[simp] theorem State.accessTrap_mem (s : State) (is : Iss) (e : XFail × Nat) (blockp : Word) :
    (State.accessTrap s is e blockp).mem = s.mem := by
  unfold State.accessTrap; simp

@[simp] theorem State.blockFault_mem (s : State) (is : Iss) (c : Cause) (blockp : Word) :
    (State.blockFault s is c blockp).mem = s.mem := by
  unfold State.blockFault; simp

@[simp] theorem State.recTrap_mem (s : State) (is : Iss) (r : TrapRec) :
    (State.recTrap s is r).mem = s.mem := by
  unfold State.recTrap; simp

@[simp] theorem State.acquire_mem (s : State) (is : Iss) (p : BitVec 32) :
    (State.acquire s is p).mem = s.mem := by
  unfold State.acquire; grind [State.modCore_mem]

@[simp] theorem State.addLoad_mem (s : State) (c : Nat) (r : Req) :
    (State.addLoad s c r).mem = s.mem := by
  rfl

@[simp] theorem State.fetchPart_mem (s : State) (is : Iss) (va : Nat) (blockp : Word) (p : Part) :
    (State.fetchPart s is va blockp p).1.mem = s.mem := by
  unfold State.fetchPart; grind [State.fixIn_mem, State.addLoad_mem, State.modCore_mem]

@[simp] theorem State.fetchParts_mem (s : State) (is : Iss) (va : Nat) (blockp : Word) (got : List (Option Byte)) (x0 : List Part) :
    (State.fetchParts s is va blockp got x0).1.mem = s.mem := by
  fun_induction State.fetchParts <;> grind [State.fetchPart_mem]

theorem State.loadFire_canon (s : State) (is : Iss) (va : Nat) (init : List (Option Byte)) (sh : Shape) (elem wide : Bool) (blockp : Word) :
    Canon s → Canon (State.loadFire s is va init sh elem wide blockp) := by
  intros; unfold State.loadFire; grind [Canon.of_mem, State.accessTrap_mem, State.acquire_mem, → State.checkParts_canon, State.fetchParts_mem, State.recTrap_mem, State.settle_mem, State.trapAt_mem, State.checkParts_canon1]

theorem loadAt_canon (i : Instr) (s : State) (n : Nat) (sh : Shape) (align : Bool) :
    Canon s → ∀ s', loadAt i s n sh align = .next s' → Canon s' := by
  intro h; unfold loadAt; (repeat' (first | exact h | split | intro _ | (refine foldl_canon _ ?_ _ _ ?_ <;> intros))) <;> grind [Canon.of_mem, State.blockFault_mem, State.loadFire_canon, State.trapAt_mem, issue_mem, issue_canon]

theorem State.storeFire_canon (s : State) (is : Iss) (va : Nat) (want : List Bool) (bytes : List (Option Byte)) (elem wide : Bool) (blockp : Word) :
    Canon s → Canon (State.storeFire s is va want bytes elem wide blockp) := by
  intros; unfold State.storeFire; grind [Canon.of_mem, State.accessTrap_mem, → State.checkParts_canon, State.due_mem, State.recTrap_mem, State.settle_mem, State.trapAt_mem, State.checkParts_canon1]

theorem storeAt_canon (i : Instr) (s : State) (n : Nat) (data : Iss → List (Option Byte)) (align : Bool) :
    Canon s → ∀ s', storeAt i s n data align = .next s' → Canon s' := by
  intro h; unfold storeAt; (repeat' (first | exact h | split | intro _ | (refine foldl_canon _ ?_ _ _ ?_ <;> intros))) <;> grind [Canon.of_mem, State.blockFault_mem, State.storeFire_canon, State.trapAt_mem, issue_mem, issue_canon]

theorem State.readTensor_canon (s : State) (is : Iss) (va : Nat) :
    Canon s → ∀ s' o, State.readTensor s is va = (s', o) → Canon s' := by
  intro h; unfold State.readTensor; (repeat' (first | exact h | split | intro _ | (refine foldl_canon _ ?_ _ _ ?_ <;> intros))) <;> grind [Canon.of_mem, → State.readVa_canon, State.readVa_canon1]

theorem State.readTensor_canon1 (s : State) (is : Iss) (va : Nat) (h : Canon s) :
    Canon (State.readTensor s is va).1 := State.readTensor_canon s is va h _ _ rfl

theorem State.qblock_canon (s : State) (is : Iss) (d : Nat) (elem : Bool) :
    Canon s → ∀ s' o, State.qblock s is d elem = (s', o) → Canon s' := by
  intro h; unfold State.qblock; (repeat' (first | exact h | split | intro _ | (refine foldl_canon _ ?_ _ _ ?_ <;> intros))) <;> grind [Canon.of_mem, → State.readTensor_canon, State.readTensor_canon1]

theorem State.qblock_canon1 (s : State) (is : Iss) (d : Nat) (elem : Bool) (h : Canon s) :
    Canon (State.qblock s is d elem).1 := State.qblock_canon s is d elem h _ _ rfl

theorem State.qldFire_canon (s : State) (is : Iss) (q : QBlock) (d : Nat) (elem : Bool) :
    Canon s → Canon (State.qldFire s is q d elem) := by
  intros; unfold State.qldFire; grind [Canon.of_mem, State.loadFire_canon]

theorem State.qstFire_canon (s : State) (is : Iss) (q : QBlock) (d : Nat) (elem : Bool) :
    Canon s → Canon (State.qstFire s is q d elem) := by
  intros; unfold State.qstFire; grind [Canon.of_mem, State.storeFire_canon]

theorem rmwAt_canon (i : Instr) (s : State) (n : Nat) (acq : Bool) (kind : TouchKind)
    (body : Iss → State → Flight → Nat → Nat → State) (t : State) (h : Canon s)
    (hb : ∀ is s fl pa kid, Canon s → Canon (body is s fl pa kid)) : rmwAt i s n acq kind body = .next t → Canon t := by
  unfold rmwAt
  exact issue_canon _ _ _ _ h (by
    intro is; grind [Canon.of_mem, State.trapAt_mem, State.blockFault_mem, State.accessTrap_mem, → State.checkBytes_canon])

theorem atomicAt_canon (i : Instr) (s : State) (op : RmwOp) (n : Nat) :
    Canon s → ∀ s', atomicAt i s op n = .next s' → Canon s' := by
  intro h s'
  unfold atomicAt
  refine rmwAt_canon _ _ _ _ _ _ _ h ?_
  intro is s fl pa kid h
  exact h.of_mem (by simp)

theorem reduceAt_canon (i : Instr) (s : State) (op : RmwOp) (n : Nat) :
    Canon s → ∀ s', reduceAt i s op n = .next s' → Canon s' := by
  intro h s'
  unfold reduceAt
  refine rmwAt_canon _ _ _ _ _ _ _ h ?_
  intro is s fl pa kid h
  dsimp only
  split <;> exact h.of_mem (by simp)

theorem State.gathPlan_canon (s : State) (is : Iss) (t : Tensor) (col : Nat) (plan : GathPlan) (x0 : List (Nat × Option Int)) :
    Canon s → ∀ s' o, State.gathPlan s is t col plan x0 = (s', o) → Canon s' := by
  fun_induction State.gathPlan <;> grind [Canon.of_mem, → State.checkBytes_canon, State.checkBytes_canon1]

theorem State.gathPlan_canon1 (s : State) (is : Iss) (t : Tensor) (col : Nat) (plan : GathPlan) (x0 : List (Nat × Option Int)) (h : Canon s) :
    Canon (State.gathPlan s is t col plan x0).1 := State.gathPlan_canon s is t col plan x0 h _ _ rfl

@[simp] theorem State.gathSend_mem (s : State) (is : Iss) (els : List (Nat × Nat × Nat × Nat × Nat)) :
    (State.gathSend s is els).mem = s.mem := by
  unfold State.gathSend; intros; (repeat' (first | split | (simp [State.addLoad_mem]; done) | (rw [foldl_mem] <;> intros) | (simp only [State.addLoad_mem]))) <;> grind [State.addLoad_mem]

theorem State.gathFire_canon (s : State) (is : Iss) (t : Tensor) :
    Canon s → Canon (State.gathFire s is t) := by
  intros; unfold State.gathFire; grind [Canon.of_mem, State.acquire_mem, State.emit_mem, → State.gathPlan_canon, State.gathSend_mem, State.recTrap_mem, State.settle_mem, State.trapAt_mem, State.gathPlan_canon1]

theorem State.protbPages_canon (s : State) (is : Iss) (lo hi : Nat) (x0 : Nat) :
    Canon s → ∀ s' o, State.protbPages s is lo hi x0 = (s', o) → Canon s' := by
  fun_induction State.protbPages <;> grind [Canon.of_mem, → State.checkPage_canon, State.checkPage_canon1]

theorem State.protbPages_canon1 (s : State) (is : Iss) (lo hi : Nat) (x0 : Nat) (h : Canon s) :
    Canon (State.protbPages s is lo hi x0).1 := State.protbPages_canon s is lo hi x0 h _ _ rfl

theorem execLdB_canon (f : Form) (s : State) :
    Canon s → ∀ s', execLdB f s = .next s' → Canon s' := by
  intro h; unfold execLdB; (repeat' (first | exact h | split | intro _ | (refine foldl_canon _ ?_ _ _ ?_ <;> intros))) <;> grind [Canon.of_mem, → loadAt_canon]

theorem execLdBu_canon (f : Form) (s : State) :
    Canon s → ∀ s', execLdBu f s = .next s' → Canon s' := by
  intro h; unfold execLdBu; (repeat' (first | exact h | split | intro _ | (refine foldl_canon _ ?_ _ _ ?_ <;> intros))) <;> grind [Canon.of_mem, → loadAt_canon]

theorem execLdH_canon (f : Form) (s : State) :
    Canon s → ∀ s', execLdH f s = .next s' → Canon s' := by
  intro h; unfold execLdH; (repeat' (first | exact h | split | intro _ | (refine foldl_canon _ ?_ _ _ ?_ <;> intros))) <;> grind [Canon.of_mem, → loadAt_canon]

theorem execLdHu_canon (f : Form) (s : State) :
    Canon s → ∀ s', execLdHu f s = .next s' → Canon s' := by
  intro h; unfold execLdHu; (repeat' (first | exact h | split | intro _ | (refine foldl_canon _ ?_ _ _ ?_ <;> intros))) <;> grind [Canon.of_mem, → loadAt_canon]

theorem execLdW_canon (f : Form) (s : State) :
    Canon s → ∀ s', execLdW f s = .next s' → Canon s' := by
  intro h; unfold execLdW; (repeat' (first | exact h | split | intro _ | (refine foldl_canon _ ?_ _ _ ?_ <;> intros))) <;> grind [Canon.of_mem, → loadAt_canon]

theorem execLdWu_canon (f : Form) (s : State) :
    Canon s → ∀ s', execLdWu f s = .next s' → Canon s' := by
  intro h; unfold execLdWu; (repeat' (first | exact h | split | intro _ | (refine foldl_canon _ ?_ _ _ ?_ <;> intros))) <;> grind [Canon.of_mem, → loadAt_canon]

theorem execLdD_canon (f : Form) (s : State) :
    Canon s → ∀ s', execLdD f s = .next s' → Canon s' := by
  intro h; unfold execLdD; (repeat' (first | exact h | split | intro _ | (refine foldl_canon _ ?_ _ _ ?_ <;> intros))) <;> grind [Canon.of_mem, → loadAt_canon]

theorem execLdQ_canon (f : Form) (s : State) :
    Canon s → ∀ s', execLdQ f s = .next s' → Canon s' := by
  intro h; unfold execLdQ; (repeat' (first | exact h | split | intro _ | (refine foldl_canon _ ?_ _ _ ?_ <;> intros))) <;> grind [Canon.of_mem, → loadAt_canon]

theorem execLdv_canon (f : Form) (s : State) :
    Canon s → ∀ s', execLdv f s = .next s' → Canon s' := by
  intro h; unfold execLdv; (repeat' (first | exact h | split | intro _ | (refine foldl_canon _ ?_ _ _ ?_ <;> intros))) <;> grind [Canon.of_mem, → loadAt_canon]

theorem execLdf_canon (k : LdForm) (f : Form) (s : State) :
    Canon s → ∀ s', execLdf k f s = .next s' → Canon s' := by
  intro h; unfold execLdf; (repeat' (first | exact h | split | intro _ | (refine foldl_canon _ ?_ _ _ ?_ <;> intros))) <;> grind [Canon.of_mem, State.loadFire_canon, State.modFlight_mem, State.trapAt_mem, issue_mem, issue_canon]

theorem execStB_canon (f : Form) (s : State) :
    Canon s → ∀ s', execStB f s = .next s' → Canon s' := by
  intro h; unfold execStB; (repeat' (first | exact h | split | intro _ | (refine foldl_canon _ ?_ _ _ ?_ <;> intros))) <;> grind [Canon.of_mem, → storeAt_canon]

theorem execStH_canon (f : Form) (s : State) :
    Canon s → ∀ s', execStH f s = .next s' → Canon s' := by
  intro h; unfold execStH; (repeat' (first | exact h | split | intro _ | (refine foldl_canon _ ?_ _ _ ?_ <;> intros))) <;> grind [Canon.of_mem, → storeAt_canon]

theorem execStW_canon (f : Form) (s : State) :
    Canon s → ∀ s', execStW f s = .next s' → Canon s' := by
  intro h; unfold execStW; (repeat' (first | exact h | split | intro _ | (refine foldl_canon _ ?_ _ _ ?_ <;> intros))) <;> grind [Canon.of_mem, → storeAt_canon]

theorem execStD_canon (f : Form) (s : State) :
    Canon s → ∀ s', execStD f s = .next s' → Canon s' := by
  intro h; unfold execStD; (repeat' (first | exact h | split | intro _ | (refine foldl_canon _ ?_ _ _ ?_ <;> intros))) <;> grind [Canon.of_mem, → storeAt_canon]

theorem execStQ_canon (f : Form) (s : State) :
    Canon s → ∀ s', execStQ f s = .next s' → Canon s' := by
  intro h; unfold execStQ; (repeat' (first | exact h | split | intro _ | (refine foldl_canon _ ?_ _ _ ?_ <;> intros))) <;> grind [Canon.of_mem, → storeAt_canon]

theorem execStv_canon (f : Form) (s : State) :
    Canon s → ∀ s', execStv f s = .next s' → Canon s' := by
  intro h; unfold execStv; (repeat' (first | exact h | split | intro _ | (refine foldl_canon _ ?_ _ _ ?_ <;> intros))) <;> grind [Canon.of_mem, → storeAt_canon]

theorem execQld_canon (f : Form) (s : State) :
    Canon s → ∀ s', execQld f s = .next s' → Canon s' := by
  intro h; unfold execQld; (repeat' (first | exact h | split | intro _ | (refine foldl_canon _ ?_ _ _ ?_ <;> intros))) <;> grind [Canon.of_mem, → State.qblock_canon, State.qldFire_canon, State.recTrap_mem, State.trapAt_mem, issueWhen_mem, issueWhen_canon, State.qblock_canon1]

theorem execQst_canon (f : Form) (s : State) :
    Canon s → ∀ s', execQst f s = .next s' → Canon s' := by
  intro h; unfold execQst; (repeat' (first | exact h | split | intro _ | (refine foldl_canon _ ?_ _ _ ?_ <;> intros))) <;> grind [Canon.of_mem, → State.qblock_canon, State.qstFire_canon, State.recTrap_mem, State.trapAt_mem, issueWhen_mem, issueWhen_canon, State.qblock_canon1]

theorem execAmadd_canon (f : Form) (s : State) :
    Canon s → ∀ s', execAmadd f s = .next s' → Canon s' := by
  intro h; unfold execAmadd; (repeat' (first | exact h | split | intro _ | (refine foldl_canon _ ?_ _ _ ?_ <;> intros))) <;> grind [Canon.of_mem, → atomicAt_canon]

theorem execAmand_canon (f : Form) (s : State) :
    Canon s → ∀ s', execAmand f s = .next s' → Canon s' := by
  intro h; unfold execAmand; (repeat' (first | exact h | split | intro _ | (refine foldl_canon _ ?_ _ _ ?_ <;> intros))) <;> grind [Canon.of_mem, → atomicAt_canon]

theorem execAmor_canon (f : Form) (s : State) :
    Canon s → ∀ s', execAmor f s = .next s' → Canon s' := by
  intro h; unfold execAmor; (repeat' (first | exact h | split | intro _ | (refine foldl_canon _ ?_ _ _ ?_ <;> intros))) <;> grind [Canon.of_mem, → atomicAt_canon]

theorem execAmxor_canon (f : Form) (s : State) :
    Canon s → ∀ s', execAmxor f s = .next s' → Canon s' := by
  intro h; unfold execAmxor; (repeat' (first | exact h | split | intro _ | (refine foldl_canon _ ?_ _ _ ?_ <;> intros))) <;> grind [Canon.of_mem, → atomicAt_canon]

theorem execAmmin_canon (f : Form) (s : State) :
    Canon s → ∀ s', execAmmin f s = .next s' → Canon s' := by
  intro h; unfold execAmmin; (repeat' (first | exact h | split | intro _ | (refine foldl_canon _ ?_ _ _ ?_ <;> intros))) <;> grind [Canon.of_mem, → atomicAt_canon]

theorem execAmmax_canon (f : Form) (s : State) :
    Canon s → ∀ s', execAmmax f s = .next s' → Canon s' := by
  intro h; unfold execAmmax; (repeat' (first | exact h | split | intro _ | (refine foldl_canon _ ?_ _ _ ?_ <;> intros))) <;> grind [Canon.of_mem, → atomicAt_canon]

theorem execAmminu_canon (f : Form) (s : State) :
    Canon s → ∀ s', execAmminu f s = .next s' → Canon s' := by
  intro h; unfold execAmminu; (repeat' (first | exact h | split | intro _ | (refine foldl_canon _ ?_ _ _ ?_ <;> intros))) <;> grind [Canon.of_mem, → atomicAt_canon]

theorem execAmmaxu_canon (f : Form) (s : State) :
    Canon s → ∀ s', execAmmaxu f s = .next s' → Canon s' := by
  intro h; unfold execAmmaxu; (repeat' (first | exact h | split | intro _ | (refine foldl_canon _ ?_ _ _ ?_ <;> intros))) <;> grind [Canon.of_mem, → atomicAt_canon]

theorem execAmswap_canon (f : Form) (s : State) :
    Canon s → ∀ s', execAmswap f s = .next s' → Canon s' := by
  intro h; unfold execAmswap; (repeat' (first | exact h | split | intro _ | (refine foldl_canon _ ?_ _ _ ?_ <;> intros))) <;> grind [Canon.of_mem, → atomicAt_canon]

theorem execAmcas_canon (f : Form) (s : State) :
    Canon s → ∀ s', execAmcas f s = .next s' → Canon s' := by
  intro h; unfold execAmcas; (repeat' (first | exact h | split | intro _ | (refine foldl_canon _ ?_ _ _ ?_ <;> intros))) <;> grind [Canon.of_mem, → atomicAt_canon]

theorem execAmaddf_canon (f : Form) (s : State) :
    Canon s → ∀ s', execAmaddf f s = .next s' → Canon s' := by
  intro h; unfold execAmaddf; (repeat' (first | exact h | split | intro _ | (refine foldl_canon _ ?_ _ _ ?_ <;> intros))) <;> grind [Canon.of_mem, → atomicAt_canon]

theorem execRedadd_canon (f : Form) (s : State) :
    Canon s → ∀ s', execRedadd f s = .next s' → Canon s' := by
  intro h; unfold execRedadd; (repeat' (first | exact h | split | intro _ | (refine foldl_canon _ ?_ _ _ ?_ <;> intros))) <;> grind [Canon.of_mem, → reduceAt_canon]

theorem execRedmin_canon (f : Form) (s : State) :
    Canon s → ∀ s', execRedmin f s = .next s' → Canon s' := by
  intro h; unfold execRedmin; (repeat' (first | exact h | split | intro _ | (refine foldl_canon _ ?_ _ _ ?_ <;> intros))) <;> grind [Canon.of_mem, → reduceAt_canon]

theorem execRedmax_canon (f : Form) (s : State) :
    Canon s → ∀ s', execRedmax f s = .next s' → Canon s' := by
  intro h; unfold execRedmax; (repeat' (first | exact h | split | intro _ | (refine foldl_canon _ ?_ _ _ ?_ <;> intros))) <;> grind [Canon.of_mem, → reduceAt_canon]

theorem execRedand_canon (f : Form) (s : State) :
    Canon s → ∀ s', execRedand f s = .next s' → Canon s' := by
  intro h; unfold execRedand; (repeat' (first | exact h | split | intro _ | (refine foldl_canon _ ?_ _ _ ?_ <;> intros))) <;> grind [Canon.of_mem, → reduceAt_canon]

theorem execRedor_canon (f : Form) (s : State) :
    Canon s → ∀ s', execRedor f s = .next s' → Canon s' := by
  intro h; unfold execRedor; (repeat' (first | exact h | split | intro _ | (refine foldl_canon _ ?_ _ _ ?_ <;> intros))) <;> grind [Canon.of_mem, → reduceAt_canon]

theorem execRedxor_canon (f : Form) (s : State) :
    Canon s → ∀ s', execRedxor f s = .next s' → Canon s' := by
  intro h; unfold execRedxor; (repeat' (first | exact h | split | intro _ | (refine foldl_canon _ ?_ _ _ ?_ <;> intros))) <;> grind [Canon.of_mem, → reduceAt_canon]

theorem execRedaddf_canon (f : Form) (s : State) :
    Canon s → ∀ s', execRedaddf f s = .next s' → Canon s' := by
  intro h; unfold execRedaddf; (repeat' (first | exact h | split | intro _ | (refine foldl_canon _ ?_ _ _ ?_ <;> intros))) <;> grind [Canon.of_mem, → reduceAt_canon]

theorem execGath_canon (f : Form) (s : State) :
    Canon s → ∀ s', execGath f s = .next s' → Canon s' := by
  intro h; unfold execGath; (repeat' (first | exact h | split | intro _ | (refine foldl_canon _ ?_ _ _ ?_ <;> intros))) <;> grind [Canon.of_mem, State.gathFire_canon, → State.readTensor_canon, State.recTrap_mem, State.trapAt_mem, issueWhen_mem, issueWhen_canon, State.readTensor_canon1]

theorem execFence_mem (f : Form) (s : State) :
    ∀ s', execFence f s = .next s' → s'.mem = s.mem := by
  unfold execFence; grind [State.fireDue_mem, State.modCore_mem, State.modSlot_mem, issueWhen_mem]

theorem execXfence_mem (f : Form) (s : State) :
    ∀ s', execXfence f s = .next s' → s'.mem = s.mem := by
  unfold execXfence; grind [State.fireDue_mem, State.modCore_mem, State.modThread_mem, issueWhen_mem]

theorem watchAt_canon (i : Instr) (s : State) (act : Nat → Act) :
    Canon s → ∀ s', watchAt i s act = .next s' → Canon s' := by
  intro h; unfold watchAt; (repeat' (first | exact h | split | intro _ | (refine foldl_canon _ ?_ _ _ ?_ <;> intros))) <;> grind [Canon.of_mem, State.accessTrap_mem, State.blockFault_mem, → State.checkBytes_canon, State.fireDue_mem, issue_mem, issue_canon, State.checkBytes_canon1]

theorem execWatch_canon (f : Form) (s : State) :
    Canon s → ∀ s', execWatch f s = .next s' → Canon s' := by
  intro h; unfold execWatch; (repeat' (first | exact h | split | intro _ | (refine foldl_canon _ ?_ _ _ ?_ <;> intros))) <;> grind [Canon.of_mem, → watchAt_canon]

theorem execUnwatch_canon (f : Form) (s : State) :
    Canon s → ∀ s', execUnwatch f s = .next s' → Canon s' := by
  intro h; unfold execUnwatch; (repeat' (first | exact h | split | intro _ | (refine foldl_canon _ ?_ _ _ ?_ <;> intros))) <;> grind [Canon.of_mem, → watchAt_canon]

theorem execStw_canon (f : Form) (s : State) :
    Canon s → ∀ s', execStw f s = .next s' → Canon s' := by
  intro h s'; unfold execStw; exact issue_canon _ _ _ _ h (by intro is; (try dsimp only); (repeat' split) <;> grind [Canon.of_mem, State.accessTrap_mem, State.blockFault_mem, → State.checkBytes_canon, State.due_mem, State.settle_mem, State.trapAt_mem, issue_mem, issue_canon, State.checkBytes_canon1])

theorem execProtb_canon (f : Form) (s : State) :
    Canon s → ∀ s', execProtb f s = .next s' → Canon s' := by
  intro h; unfold execProtb; (repeat' (first | exact h | split | intro _ | (refine foldl_canon _ ?_ _ _ ?_ <;> intros))) <;> grind [Canon.of_mem, State.accessTrap_mem, State.fireDue_mem, → State.protbPages_canon, State.recTrap_mem, State.trapAt_mem, issue_mem, State.protbPages_canon1, issue_canon]

end Sys2Proof.Machine
end

