-- ==== Sys2Proof/Laws/KeepCopyEng.lean ====
section
/-!
SUPPORT. The operations of CopyEng.lean keep the canonical form of memory; those that write none leave it alone.
-/

-- The proofs run one after another, so that the whole package compiles within the memory a check allows.
set_option Elab.async false

namespace Sys2Proof.Machine
open Sys2Proof

theorem State.readWords_canon (s : State) (x : Xer) (who : Agent) (ctx : Nat) (priv : Bool) (va : Nat) (x0 : Nat) :
    Canon s → ∀ s' o, State.readWords s x who ctx priv va x0 = (s', o) → Canon s' := by
  fun_induction State.readWords <;> grind [Canon.of_mem, → State.readVa_canon, State.readVa_canon1]

theorem State.readWords_canon1 (s : State) (x : Xer) (who : Agent) (ctx : Nat) (priv : Bool) (va : Nat) (x0 : Nat) (h : Canon s) :
    Canon (State.readWords s x who ctx priv va x0).1 := State.readWords_canon s x who ctx priv va x0 h _ _ rfl

theorem State.sideTensor_canon (s : State) (x : Xer) (who : Agent) (ctx : Nat) (priv : Bool) (on : Bool) (va size : Nat) :
    Canon s → ∀ s' o, State.sideTensor s x who ctx priv on va size = (s', o) → Canon s' := by
  intro h; unfold State.sideTensor; (repeat' (first | exact h | split | intro _ | (refine foldl_canon _ ?_ _ _ ?_ <;> intros))) <;> grind [Canon.of_mem, → State.readVa_canon, State.readVa_canon1]

theorem State.sideTensor_canon1 (s : State) (x : Xer) (who : Agent) (ctx : Nat) (priv : Bool) (on : Bool) (va size : Nat) (h : Canon s) :
    Canon (State.sideTensor s x who ctx priv on va size).1 := State.sideTensor_canon s x who ctx priv on va size h _ _ rfl

theorem State.copyCheck_canon (s : State) (c ctx : Nat) (priv : Bool) (addr ctl : Word) :
    Canon s → ∀ s' o, State.copyCheck s c ctx priv addr ctl = (s', o) → Canon s' := by
  intro h; unfold State.copyCheck; (repeat' (first | exact h | split | intro _ | (refine foldl_canon _ ?_ _ _ ?_ <;> intros))) <;> grind [Canon.of_mem, → State.readWords_canon, → State.sideTensor_canon, State.readWords_canon1, State.sideTensor_canon1]

theorem State.copyCheck_canon1 (s : State) (c ctx : Nat) (priv : Bool) (addr ctl : Word) (h : Canon s) :
    Canon (State.copyCheck s c ctx priv addr ctl).1 := State.copyCheck_canon s c ctx priv addr ctl h _ _ rfl

@[simp] theorem State.copyStart_mem (s : State) (c tag : Nat) (d : CopyDesc) :
    (State.copyStart s c tag d).mem = s.mem := by
  unfold State.copyStart; grind [State.engineAt_mem, State.modCore_mem]

theorem execCopy_canon (f : Form) (s : State) :
    Canon s → ∀ s', execCopy f s = .next s' → Canon s' := by
  intro h; unfold execCopy; (repeat' (first | exact h | split | intro _ | (refine foldl_canon _ ?_ _ _ ?_ <;> intros))) <;> grind [Canon.of_mem, → State.copyCheck_canon, State.fireDue_mem, State.recTrap_mem, State.trapAt_mem, issueWhen_mem, issueWhen_canon, State.copyCheck_canon1]

theorem State.elemAt_canon (s : State) (copse : Nat) (d : CopyDesc) (l : Nat) :
    Canon s → ∀ s' o, State.elemAt s copse d l = (s', o) → Canon s' := by
  intro h; unfold State.elemAt; (repeat' (first | exact h | split | intro _ | (refine foldl_canon _ ?_ _ _ ?_ <;> intros))) <;> grind [Canon.of_mem, → State.readVa_canon, State.readVa_canon1]

theorem State.elemAt_canon1 (s : State) (copse : Nat) (d : CopyDesc) (l : Nat) (h : Canon s) :
    Canon (State.elemAt s copse d l).1 := State.elemAt_canon s copse d l h _ _ rfl

theorem State.runFrom_canon (s : State) (copse : Nat) (d : CopyDesc) (first : Nat) (sec : Option (Nat × Nat)) (room : Nat) (acc : List Elem) (l : Nat) (x0 : Nat) :
    Canon s → ∀ s' o, State.runFrom s copse d first sec room acc l x0 = (s', o) → Canon s' := by
  fun_induction State.runFrom <;> grind [Canon.of_mem, → State.elemAt_canon, State.elemAt_canon1]

theorem State.runFrom_canon1 (s : State) (copse : Nat) (d : CopyDesc) (first : Nat) (sec : Option (Nat × Nat)) (room : Nat) (acc : List Elem) (l : Nat) (x0 : Nat) (h : Canon s) :
    Canon (State.runFrom s copse d first sec room acc l x0).1 := State.runFrom_canon s copse d first sec room acc l x0 h _ _ rfl

theorem State.checkSide_canon (s : State) (copse : Nat) (d : CopyDesc) (rd wr : Bool) (blk : Word) (x0 : List (Option Nat)) :
    Canon s → ∀ s' o, State.checkSide s copse d rd wr blk x0 = (s', o) → Canon s' := by
  fun_induction State.checkSide <;> grind [Canon.of_mem, → State.checkBytes_canon, State.checkBytes_canon1]

theorem State.checkSide_canon1 (s : State) (copse : Nat) (d : CopyDesc) (rd wr : Bool) (blk : Word) (x0 : List (Option Nat)) (h : Canon s) :
    Canon (State.checkSide s copse d rd wr blk x0).1 := State.checkSide_canon s copse d rd wr blk x0 h _ _ rfl

theorem State.checkSources_canon (s : State) (copse : Nat) (d : CopyDesc) (es : List Elem) :
    Canon s → ∀ s' o, State.checkSources s copse d es = (s', o) → Canon s' := by
  intro h; unfold State.checkSources; (repeat' (first | exact h | split | intro _ | (refine foldl_canon _ ?_ _ _ ?_ <;> intros))) <;> grind [Canon.of_mem, → State.checkSide_canon, State.checkSide_canon1]

theorem State.checkSources_canon1 (s : State) (copse : Nat) (d : CopyDesc) (es : List Elem) (h : Canon s) :
    Canon (State.checkSources s copse d es).1 := State.checkSources_canon s copse d es h _ _ rfl

theorem State.checkDests_canon (s : State) (copse : Nat) (d : CopyDesc) (ds : List (Option Nat)) :
    Canon s → ∀ s' o, State.checkDests s copse d ds = (s', o) → Canon s' := by
  intro h; unfold State.checkDests; (repeat' (first | exact h | split | intro _ | (refine foldl_canon _ ?_ _ _ ?_ <;> intros))) <;> grind [Canon.of_mem, → State.checkSide_canon, State.checkSide_canon1]

theorem State.checkDests_canon1 (s : State) (copse : Nat) (d : CopyDesc) (ds : List (Option Nat)) (h : Canon s) :
    Canon (State.checkDests s copse d ds).1 := State.checkDests_canon s copse d ds h _ _ rfl

theorem State.readElems_canon (s : State) (copse : Nat) (d : CopyDesc) (x0 : List (Elem × List Part)) :
    Canon s → ∀ s' o, State.readElems s copse d x0 = (s', o) → Canon s' := by
  fun_induction State.readElems <;> grind [Canon.of_mem, State.fixParts_canon, State.readParts_mem]

theorem State.readElems_canon1 (s : State) (copse : Nat) (d : CopyDesc) (x0 : List (Elem × List Part)) (h : Canon s) :
    Canon (State.readElems s copse d x0).1 := State.readElems_canon s copse d x0 h _ _ rfl

theorem State.writeParts_canon (s : State) (who : Agent) (ctx va : Nat) (bs : List Byte) (blockp : Word) (pol : BitVec 32) (x0 : List Part) :
    Canon s → (∀ s', State.writeParts s who ctx va bs blockp pol x0 = .done s' → Canon s') ∧ (∀ s' o, State.writeParts s who ctx va bs blockp pol x0 = .fault s' o → Canon s') := by
  fun_induction State.writeParts <;> grind [Canon.of_mem, → State.engineWrite_done, → State.engineWrite_fault]

theorem State.writeParts_done (s : State) (who : Agent) (ctx va : Nat) (bs : List Byte) (blockp : Word) (pol : BitVec 32) (x0 : List Part) (h : Canon s) :
    ∀ s', State.writeParts s who ctx va bs blockp pol x0 = .done s' → Canon s' := (State.writeParts_canon s who ctx va bs blockp pol x0 h).1

theorem State.writeParts_fault (s : State) (who : Agent) (ctx va : Nat) (bs : List Byte) (blockp : Word) (pol : BitVec 32) (x0 : List Part) (h : Canon s) :
    ∀ s' o, State.writeParts s who ctx va bs blockp pol x0 = .fault s' o → Canon s' := (State.writeParts_canon s who ctx va bs blockp pol x0 h).2

theorem State.writeElems_canon (s : State) (copse : Nat) (d : CopyDesc) (x0 : List ((Option Nat × List Byte) × List Part)) :
    Canon s → (∀ s', State.writeElems s copse d x0 = .done s' → Canon s') ∧ (∀ s' o, State.writeElems s copse d x0 = .fault s' o → Canon s') := by
  fun_induction State.writeElems <;> grind [Canon.of_mem, State.fault_mem, → State.writeParts_done, → State.writeParts_fault]

theorem State.writeElems_done (s : State) (copse : Nat) (d : CopyDesc) (x0 : List ((Option Nat × List Byte) × List Part)) (h : Canon s) :
    ∀ s', State.writeElems s copse d x0 = .done s' → Canon s' := (State.writeElems_canon s copse d x0 h).1

theorem State.writeElems_fault (s : State) (copse : Nat) (d : CopyDesc) (x0 : List ((Option Nat × List Byte) × List Part)) (h : Canon s) :
    ∀ s' o, State.writeElems s copse d x0 = .fault s' o → Canon s' := (State.writeElems_canon s copse d x0 h).2

@[simp] theorem State.modCopy_mem (s : State) (c tag : Nat) (g : Copy → Copy) :
    (State.modCopy s c tag g).mem = s.mem := by
  rfl

@[simp] theorem State.sendRecord_mem (s : State) (src : Nat × Nat) (ctx : Nat) (cause : Cause) (desc : Nat) (w1 : Nat) (addr blk : Word) :
    (State.sendRecord s src ctx cause desc w1 addr blk).mem = s.mem := by
  rfl

@[simp] theorem State.copySuspend_mem (s : State) (c : Nat) (x : Copy) (r : TrapRec) :
    (State.copySuspend s c x r).mem = s.mem := by
  rfl

@[simp] theorem State.copyAdvance_mem (s : State) (c : Nat) (x : Copy) (n : Nat) :
    (State.copyAdvance s c x n).mem = s.mem := by
  unfold State.copyAdvance; grind [State.modCopy_mem, State.modCore_mem]

@[simp] theorem State.copySource_mem (s : State) (c : Nat) (x : Copy) (n : Nat) :
    (State.copySource s c x n).mem = s.mem := by
  unfold State.copySource; (try dsimp only); (repeat' split) <;> simp

@[simp] theorem State.contribute_mem (s : State) (c : Nat) (x : Copy) (bytes : List Byte) :
    (State.contribute s c x bytes).mem = s.mem := by
  rfl

theorem State.copyRead_canon (s : State) (c : Nat) (x : Copy) : Canon s → Canon (State.copyRead s c x) := by
  intro h
  have hs : ∀ (t : State) y r, Canon t → Canon (t.copySuspend c y r) := fun _ _ _ h => h.of_mem (by simp)
  unfold State.copyRead
  dsimp only
  split
  · exact h
  split <;> rename_i h1
  · exact hs _ _ _ (State.runFrom_canon _ _ _ _ _ _ _ _ _ h _ _ h1)
  have h1 := State.runFrom_canon _ _ _ _ _ _ _ _ _ h _ _ h1
  split <;> rename_i h2
  · exact hs _ _ _ (State.checkSources_canon _ _ _ _ h1 _ _ h2)
  have h2 := State.checkSources_canon _ _ _ _ h1 _ _ h2
  split <;> rename_i h3
  · exact hs _ _ _ (State.checkDests_canon _ _ _ _ h2 _ _ h3)
  have h3 := State.checkDests_canon _ _ _ _ h2 _ _ h3
  split
  · exact h3
  split <;> rename_i h4
  · exact hs _ _ _ (State.readElems_canon _ _ _ _ h3 _ _ h4)
  have h4 := State.readElems_canon _ _ _ _ h3 _ _ h4
  split
  · exact h4.of_mem (by simp)
  · exact h4.of_mem (by simp)

theorem State.copyWrite_canon (s : State) (c : Nat) (x : Copy) (run : List RunElem) :
    Canon s → Canon (State.copyWrite s c x run) := by
  intro h
  unfold State.copyWrite
  dsimp only
  have ht : Canon (if x.translated then (s, Except.ok (run.map fun e => partsAt (e.at_.getD [])))
      else s.checkDests (c / 8) x.desc (run.map (·.dst))).1 := by
    split
    · exact h
    · exact State.checkDests_canon1 _ _ _ _ h
  split <;> rename_i h1 <;> rw [h1] at ht
  · exact ht.of_mem (by simp)
  · split <;> rename_i h2
    · exact (State.writeElems_done _ _ _ _ ht _ h2).of_mem (by simp)
    · exact ht.of_mem (by simp)
    · exact ht

theorem State.copyRun_canon (s : State) (c : Nat) (x : Copy) :
    Canon s → Canon (State.copyRun s c x) := by
  intros; unfold State.copyRun; grind [Canon.of_mem, State.copyRead_canon, State.copyWrite_canon]

theorem withCopy_mem (s : State) (get : Event → Option (Nat × Nat)) (body : State → Nat → Copy → State) (t : State)
    (hb : ∀ c x, (body s.taken c x).mem = s.mem) : withCopy s get body = .next t → t.mem = s.mem := by
  unfold withCopy; grind [State.taken_mem]

theorem withCopy_canon (s : State) (get : Event → Option (Nat × Nat)) (body : State → Nat → Copy → State) (t : State)
    (h : Canon s) (hb : ∀ s c x, Canon s → Canon (body s c x)) : withCopy s get body = .next t → Canon t := by
  unfold withCopy; grind [Canon.of_mem, State.taken_mem]

theorem execCopyRun_canon (s : State) :
    Canon s → ∀ s', execCopyRun s = .next s' → Canon s' := by
  intro h; unfold execCopyRun; (repeat' (first | exact h | split | intro _ | (refine foldl_canon _ ?_ _ _ ?_ <;> intros))) <;> grind [Canon.of_mem, State.copyRun_canon, State.modCopse_mem, withCopy_mem, withCopy_canon]

@[simp] theorem State.copyEnd_mem (s : State) (c tag : Nat) (l e : Bool) :
    (State.copyEnd s c tag l e).mem = s.mem := by
  rfl

theorem execCopyLanded_mem (s : State) :
    ∀ s', execCopyLanded s = .next s' → s'.mem = s.mem := by
  unfold execCopyLanded; intro s'; apply withCopy_mem; intros; (try dsimp only); (repeat' split) <;> simp

theorem State.setBitmap_canon (s : State) (copse : Nat) (d : CopyDesc) (chunk : Nat) :
    Canon s → (∀ s', State.setBitmap s copse d chunk = .done s' → Canon s') ∧ (∀ s' o, State.setBitmap s copse d chunk = .fault s' o → Canon s') := by
  intros; unfold State.setBitmap; grind [Canon.of_mem, → State.checkBytes_canon, State.fault_mem, → State.readVa_canon, → State.writeParts_done, → State.writeParts_fault, State.checkBytes_canon1, State.readVa_canon1]

theorem State.setBitmap_done (s : State) (copse : Nat) (d : CopyDesc) (chunk : Nat) (h : Canon s) :
    ∀ s', State.setBitmap s copse d chunk = .done s' → Canon s' := (State.setBitmap_canon s copse d chunk h).1

theorem State.setBitmap_fault (s : State) (copse : Nat) (d : CopyDesc) (chunk : Nat) (h : Canon s) :
    ∀ s' o, State.setBitmap s copse d chunk = .fault s' o → Canon s' := (State.setBitmap_canon s copse d chunk h).2

@[simp] theorem State.chunkStop_mem (s : State) (c : Nat) (x : Copy) (chunk : Nat) (r : TrapRec) :
    (State.chunkStop s c x chunk r).mem = s.mem := by
  rfl

theorem execFabricChunkResult_canon (s : State) :
    Canon s → ∀ s', execFabricChunkResult s = .next s' → Canon s' := by
  intro h t
  have ht : Canon s.taken := h.of_mem (by simp)
  unfold execFabricChunkResult
  split
  case h_2 => intro e; cases e
  dsimp only
  split
  · intro e; cases e; split
    · exact ht.of_mem (by simp)
    · exact ht
  split
  · intro e; cases e; exact ht
  split
  · intro e; cases e; exact ht.of_mem (by simp)
  split <;> rename_i h1
  · have h1 := State.checkDests_canon _ _ _ _ ht _ _ h1
    intro e; cases e; exact h1.of_mem (by simp)
  have h1 := State.checkDests_canon _ _ _ _ ht _ _ h1
  split <;> rename_i h2
  · intro e; cases e; exact h1.of_mem (by simp)
  · intro e; cases e; exact h1.of_mem (by simp)
  have h2 := State.writeElems_done _ _ _ _ h1 _ h2
  split <;> rename_i h3 <;> intro e <;> cases e
  · exact (State.setBitmap_done _ _ _ _ h2 _ h3).of_mem (by simp)
  · exact h1.of_mem (by simp)
  · exact h1.of_mem (by simp)

theorem execFabricAborted_mem (s : State) :
    ∀ s', execFabricAborted s = .next s' → s'.mem = s.mem := by
  unfold execFabricAborted; grind [State.copyEnd_mem, State.due_mem, State.fault_mem, State.taken_mem]

theorem execCollectiveTimeout_mem (s : State) :
    ∀ s', execCollectiveTimeout s = .next s' → s'.mem = s.mem := by
  unfold execCollectiveTimeout; intro s'; (repeat' (first | split | dsimp only)) <;> intro e <;> cases e <;> (repeat' (first | split | (simp; done) | (rw [foldl_mem] <;> intros) | (simp only [State.due_mem, State.fault_mem, State.taken_mem])))

@[simp] theorem State.modPort_mem (s : State) (c k p : Nat) (g : Port → Port) :
    (State.modPort s c k p g).mem = s.mem := by
  rfl

@[simp] theorem State.modStopped_mem (s : State) (c k p : Nat) (g : Port → Option Port) :
    (State.modStopped s c k p g).mem = s.mem := by
  rfl

theorem execCpresResume_mem (s : State) :
    ∀ s', execCpresResume s = .next s' → s'.mem = s.mem := by
  unfold execCpresResume; grind [State.engineAt_mem, State.fault_mem, State.modCopy_mem, State.modCore_mem, State.modStopped_mem, State.strayMgmt_mem, State.taken_mem]

theorem execCpresAbort_mem (s : State) :
    ∀ s', execCpresAbort s = .next s' → s'.mem = s.mem := by
  unfold execCpresAbort; grind [State.copyEnd_mem, State.fault_mem, State.modCore_mem, State.modStopped_mem, State.strayMgmt_mem, State.taken_mem]

end Sys2Proof.Machine
end

