-- ==== Sys2Proof/Laws/KeepDrover.lean ====
section
/-!
SUPPORT. The operations of Drover.lean keep the canonical form of memory; those that write none leave it alone.
-/

-- The proofs run one after another, so that the whole package compiles within the memory a check allows.
set_option Elab.async false

namespace Sys2Proof.Machine
open Sys2Proof

@[simp] theorem State.modBox_mem (s : State) (c k b : Nat) (g : Mbox → Mbox) :
    (State.modBox s c k b g).mem = s.mem := by
  rfl

theorem execMbxw_mem (f : Form) (s : State) :
    ∀ s', execMbxw f s = .next s' → s'.mem = s.mem := by
  unfold execMbxw; intro s'; apply issueWhen_mem; intros; (try dsimp only); (repeat' split) <;> grind [State.fireDue_mem, State.modBox_mem, State.trapAt_mem, issueWhen_mem]

theorem execMbxr_mem (f : Form) (s : State) :
    ∀ s', execMbxr f s = .next s' → s'.mem = s.mem := by
  unfold execMbxr; intro s'; apply issueWhen_mem; intros; (try dsimp only); (repeat' split) <;> grind [State.due_mem, State.emit2_mem, State.modBox_mem, State.modFlight_mem, State.trapAt_mem, issueWhen_mem]

theorem execMailboxDeposit_mem (s : State) :
    ∀ s', execMailboxDeposit s = .next s' → s'.mem = s.mem := by
  unfold execMailboxDeposit; intro s'; (repeat' (first | split | dsimp only)) <;> intro e <;> cases e <;> (repeat' (first | split | (simp; done) | (rw [foldl_mem] <;> intros) | (simp only [State.fault_mem, State.modBox_mem, State.modSlot_mem, State.taken_mem])))

@[simp] theorem waitFire_mem (is : Iss) (s : State) (seen : Word) (res : Word) :
    (waitFire is s seen res).mem = s.mem := by
  unfold waitFire; grind [State.emit_mem, State.modCore_mem]

theorem execWaitany_mem (f : Form) (s : State) :
    ∀ s', execWaitany f s = .next s' → s'.mem = s.mem := by
  unfold execWaitany; intro s'; apply issueWhen_mem; intros; (try dsimp only); (repeat' split) <;> grind [State.trapAt_mem, issueWhen_mem, waitFire_mem]

theorem execWaitall_mem (f : Form) (s : State) :
    ∀ s', execWaitall f s = .next s' → s'.mem = s.mem := by
  unfold execWaitall; intro s'; apply issueWhen_mem; intros; (try dsimp only); (repeat' split) <;> grind [issueWhen_mem, waitFire_mem]

theorem execFfr_mem (f : Form) (s : State) :
    ∀ s', execFfr f s = .next s' → s'.mem = s.mem := by
  unfold execFfr; intro s'; apply issueWhen_mem; intros; (try dsimp only); (repeat' split) <;> grind [State.trapAt_mem, issueWhen_mem, waitFire_mem]

theorem execTagclr_mem (f : Form) (s : State) :
    ∀ s', execTagclr f s = .next s' → s'.mem = s.mem := by
  unfold execTagclr; intro s'; apply issue_mem; intros; (try dsimp only); (repeat' split) <;> grind [State.emitDue_mem, issue_mem]

theorem State.drvServe_canon (s : State) (c : Nat) (d : Vec) :
    Canon s → ∀ s' o, State.drvServe s c d = (s', o) → Canon s' := by
  intro h; unfold State.drvServe; (repeat' (first | exact h | split | intro _ | (refine foldl_canon _ ?_ _ _ ?_ <;> intros))) <;> grind [Canon.of_mem, → State.copyCheck_canon, State.copyStart_mem, State.modCore_mem, State.copyCheck_canon1]

theorem State.drvServe_canon1 (s : State) (c : Nat) (d : Vec) (h : Canon s) :
    Canon (State.drvServe s c d).1 := State.drvServe_canon s c d h _ _ rfl

theorem State.drvStep_canon (s : State) (c : Nat) :
    Canon s → Canon (State.drvStep s c) := by
  intros; unfold State.drvStep; grind [Canon.of_mem, → State.drvServe_canon, State.modBox_mem, State.modCore_mem, State.modThread_mem, State.drvServe_canon1]

theorem execRnbind_canon (f : Form) (s : State) :
    Canon s → ∀ s', execRnbind f s = .next s' → Canon s' := by
  intro h; unfold execRnbind; (repeat' (first | exact h | split | intro _ | (refine foldl_canon _ ?_ _ _ ?_ <;> intros))) <;> grind [Canon.of_mem, State.fireDue_mem, → State.readWords_canon, State.recTrap_mem, State.trapAt_mem, issueWhen_mem, issueWhen_canon, State.readWords_canon1]

@[simp] theorem State.bindPort_mem (s : State) (c k p mode : Nat) (operand x : Word) (pat : List Word) (priv : Bool) :
    (State.bindPort s c k p mode operand x pat priv).mem = s.mem := by
  unfold State.bindPort; grind [State.engineAt_mem, State.modCore_mem, State.modThread_mem]

theorem execRnunbind_mem (f : Form) (s : State) :
    ∀ s', execRnunbind f s = .next s' → s'.mem = s.mem := by
  unfold execRnunbind; intro s'; apply issueWhen_mem; intros; (try dsimp only); (repeat' split) <;> grind [State.fireDue_mem, State.trapAt_mem, issueWhen_mem]

@[simp] theorem State.unbindPort_mem (s : State) (c k p : Nat) :
    (State.unbindPort s c k p).mem = s.mem := by
  rfl

@[simp] theorem rnread_mem (is : Iss) (s : State) :
    (rnread is s).mem = s.mem := by
  unfold rnread; grind [State.emit_mem, State.emitDue_mem, State.modFlight_mem, State.modPort_mem, State.recTrap_mem, State.trapAt_mem]

theorem execRead_mem (f : Form) (s : State) :
    ∀ s', execRead f s = .next s' → s'.mem = s.mem := by
  unfold execRead; grind [State.emit_mem, issue_mem, issueWhen_mem, rnread_mem]

@[simp] theorem rnwrite_mem (is : Iss) (s : State) :
    (rnwrite is s).mem = s.mem := by
  unfold rnwrite; grind [State.fireDue_mem, State.trapAt_mem]

theorem withPort_mem (s : State) (get : Event → Option (Nat × Nat × Nat)) (body : State → Nat → Nat → Nat → Port → State)
    (t : State) (hb : ∀ c k p x, (body s.taken c k p x).mem = s.mem) : withPort s get body = .next t → t.mem = s.mem := by
  unfold withPort; grind [State.taken_mem]

theorem withPort_canon (s : State) (get : Event → Option (Nat × Nat × Nat))
    (body : State → Nat → Nat → Nat → Port → State) (t : State) (h : Canon s)
    (hb : ∀ s c k p x, Canon s → Canon (body s c k p x)) : withPort s get body = .next t → Canon t := by
  unfold withPort; grind [Canon.of_mem, State.taken_mem]

theorem execRunnelFillFetch_canon (s : State) :
    Canon s → ∀ s', execRunnelFillFetch s = .next s' → Canon s' := by
  intro h s'; unfold execRunnelFillFetch; apply withPort_canon _ _ _ _ h <;> intros <;> (try dsimp only) <;> (repeat' split) <;> grind [Canon.of_mem, State.modPort_mem, → State.readVa_canon, withPort_mem, State.readVa_canon1, withPort_canon]

@[simp] theorem State.portStop_mem (s : State) (c k p : Nat) (x : Port) (r : TrapRec) :
    (State.portStop s c k p x r).mem = s.mem := by
  rfl

@[simp] theorem State.portWrote_mem (s : State) (c k p : Nat) :
    (State.portWrote s c k p).mem = s.mem := by
  rfl

theorem execRunnelDrainWrite_canon (s : State) :
    Canon s → ∀ s', execRunnelDrainWrite s = .next s' → Canon s' := by
  intro h s'; unfold execRunnelDrainWrite; apply withPort_canon _ _ _ _ h <;> intros <;> (try dsimp only) <;> (repeat' split) <;> grind [Canon.of_mem, → State.checkBytes_canon, State.fault_mem, State.portStop_mem, State.portWrote_mem, → State.writeParts_done, → State.writeParts_fault, withPort_mem, State.checkBytes_canon1, withPort_canon]

@[simp] theorem State.peerPort_mem (s : State) (c link peer id : Nat) (g : Port → Port) :
    (State.peerPort s c link peer id g).mem = s.mem := by
  rfl

@[simp] theorem State.notHosted_mem (s : State) (c ctx : Nat) :
    (State.notHosted s c ctx).mem = s.mem := by
  rfl

theorem execNeighbourWord_mem (s : State) :
    ∀ s', execNeighbourWord s = .next s' → s'.mem = s.mem := by
  unfold execNeighbourWord; grind [State.fault_mem, State.modCore_mem, State.notHosted_mem, State.peerPort_mem, State.taken_mem]

theorem execNeighbourCredit_mem (s : State) :
    ∀ s', execNeighbourCredit s = .next s' → s'.mem = s.mem := by
  unfold execNeighbourCredit; grind [State.fault_mem, State.notHosted_mem, State.peerPort_mem, State.taken_mem]

@[simp] theorem State.readAdvance_mem (s : State) (c k p : Nat) :
    (State.readAdvance s c k p).mem = s.mem := by
  unfold State.readAdvance; grind [State.inject_mem, State.modCore_mem, State.modPort_mem]

theorem State.ringStore_canon (s : State) (c k ctx pa : Nat) (w : Word) :
    Canon s → Canon (State.ringStore s c k ctx pa w) := by
  intro h
  have h1 := State.homeWrite_canon s ctx ctx 0 pa ((toBytes 8 w.toNat).map some) (.slot c k) {} h
  unfold State.ringStore
  split
  rename_i hp
  rw [hp] at h1
  exact Canon.of_mem h1 (State.applyMarks_mem _ _)

theorem State.ringWrite_canon (s : State) (c k ctx ring : Nat) (w : Word) :
    Canon s → Canon (State.ringWrite s c k ctx ring w) := by
  intro h
  unfold State.ringWrite
  exact Canon.ite h ((State.ringStore_canon _ _ _ _ _ _ h).of_mem (State.modCore_mem _ _ _))

theorem sendAt_mem (i : Instr) (s : State) (ord : Bool) :
    ∀ s', sendAt i s ord = .next s' → s'.mem = s.mem := by
  unfold sendAt; intro s'; apply issue_mem; intros; (try dsimp only); (repeat' split) <;> grind [State.fireDue_mem, State.trapAt_mem, issue_mem]

theorem execSend_mem (f : Form) (s : State) :
    ∀ s', execSend f s = .next s' → s'.mem = s.mem := by
  unfold execSend; grind [sendAt_mem]

theorem execSendOrd_mem (f : Form) (s : State) :
    ∀ s', execSendOrd f s = .next s' → s'.mem = s.mem := by
  unfold execSendOrd; grind [sendAt_mem]

theorem execWaitmsg_mem (f : Form) (s : State) :
    ∀ s', execWaitmsg f s = .next s' → s'.mem = s.mem := by
  unfold execWaitmsg; intro s'; apply issueWhen_mem; intros; (try dsimp only); (repeat' split) <;> grind [State.emit_mem, State.trapAt_mem, issueWhen_mem]

theorem execMsgpop_mem (f : Form) (s : State) :
    ∀ s', execMsgpop f s = .next s' → s'.mem = s.mem := by
  unfold execMsgpop; intro s'; apply issueWhen_mem; intros; (try dsimp only); (repeat' split) <;> grind [State.emitDue_mem, State.setCore_mem, State.trapAt_mem, issueWhen_mem]

end Sys2Proof.Machine
end

