-- ==== Sys2Proof/Laws/KeepCrofts.lean ====
section
/-!
SUPPORT. The operations of Crofts.lean keep the canonical form of memory; those that write none leave it alone.
-/

-- The proofs run one after another, so that the whole package compiles within the memory a check allows.
set_option Elab.async false

namespace Sys2Proof.Machine
open Sys2Proof

@[simp] theorem State.noteJam_mem (s : State) (c : Nat) :
    (State.noteJam s c).mem = s.mem := by
  unfold State.noteJam; grind [State.modCore_mem, State.supvMsg_mem]

theorem State.writeSpilled_canon (s : State) (aspill : Word) (n : Nat) (e : Entry) :
    Canon s → Canon (State.writeSpilled s aspill n e) := by
  intros; unfold State.writeSpilled; grind [Canon.of_mem, State.putSealed_canon]

theorem State.enqueue_canon (s : State) (c : Nat) (e : Entry) :
    Canon s → Canon (State.enqueue s c e) := by
  intros; unfold State.enqueue; grind [Canon.of_mem, State.noteJam_mem, State.setCore_mem, State.writeSpilled_canon]

theorem State.mapWord_canon (s : State) (c ctx va : Nat) :
    Canon s → ∀ s' o, State.mapWord s c ctx va = (s', o) → Canon s' := by
  intro h; unfold State.mapWord; (repeat' (first | exact h | split | intro _ | (refine foldl_canon _ ?_ _ _ ?_ <;> intros))) <;> grind [Canon.of_mem, → State.readVa_canon, State.readVa_canon1]

theorem State.mapWord_canon1 (s : State) (c ctx va : Nat) (hs : Canon s) :
    Canon (State.mapWord s c ctx va).1 := State.mapWord_canon s c ctx va hs _ _ rfl

theorem State.descend_canon (s : State) (c ctx p : Nat) (depth node : Nat) (up : Option Nat) (x0 : Nat) :
    Canon s → ∀ s' o, State.descend s c ctx p depth node up x0 = (s', o) → Canon s' := by
  fun_induction State.descend <;> grind [Canon.of_mem, → State.mapWord_canon, State.mapWord_canon1]

theorem State.descend_canon1 (s : State) (c ctx p : Nat) (depth node : Nat) (up : Option Nat) (x0 : Nat) (hs : Canon s) :
    Canon (State.descend s c ctx p depth node up x0).1 := State.descend_canon s c ctx p depth node up x0 hs _ _ rfl

theorem State.rootRecord_canon (s : State) (c ctx : Nat) :
    Canon s → ∀ s' o, State.rootRecord s c ctx = (s', o) → Canon s' := by
  intro h; unfold State.rootRecord; (repeat' (first | exact h | split | intro _ | (refine foldl_canon _ ?_ _ _ ?_ <;> intros))) <;> grind [Canon.of_mem, → State.mapWord_canon, State.mapWord_canon1]

theorem State.rootRecord_canon1 (s : State) (c ctx : Nat) (hs : Canon s) :
    Canon (State.rootRecord s c ctx).1 := State.rootRecord_canon s c ctx hs _ _ rfl

theorem State.findCroft_canon (s : State) (c ctx : Nat) (k : Word) :
    Canon s → ∀ s' o, State.findCroft s c ctx k = (s', o) → Canon s' := by
  intro h; unfold State.findCroft; (repeat' (first | exact h | split | intro _ | (refine foldl_canon _ ?_ _ _ ?_ <;> intros))) <;> grind [Canon.of_mem, → State.descend_canon, → State.rootRecord_canon, State.descend_canon1, State.rootRecord_canon1]

theorem State.findCroft_canon1 (s : State) (c ctx : Nat) (k : Word) (hs : Canon s) :
    Canon (State.findCroft s c ctx k).1 := State.findCroft_canon s c ctx k hs _ _ rfl

theorem State.lookup_canon (s : State) (c ctx : Nat) (k : Word) (walk : Bool) :
    Canon s → ∀ s' o, State.lookup s c ctx k walk = (s', o) → Canon s' := by
  intro h; unfold State.lookup; (repeat' (first | exact h | split | intro _ | (refine foldl_canon _ ?_ _ _ ?_ <;> intros))) <;> grind [Canon.of_mem, → State.findCroft_canon, State.modCore_mem, → State.walk_canon, State.findCroft_canon1, State.walk_canon1]

theorem State.lookup_canon1 (s : State) (c ctx : Nat) (k : Word) (walk : Bool) (hs : Canon s) :
    Canon (State.lookup s c ctx k walk).1 := State.lookup_canon s c ctx k walk hs _ _ rfl

theorem State.crowd_canon (s : State) (c : Nat) (root : Root) (x : Croft) : Canon s → Canon (State.crowd s c root x) := by
  intro h
  unfold State.crowd
  dsimp only
  split
  · exact h
  split
  · split
    · exact h
    · exact State.enqueue_canon _ _ _ (h.of_mem (by simp))
  · split
    · exact h.of_mem (by simp)
    · exact h

theorem State.crowdAll_canon (s : State) (c : Nat) (root : Root) (cs : List Croft) : Canon s → Canon (State.crowdAll s c root cs) := by
  intro h
  unfold State.crowdAll
  exact foldl_canon _ (fun s x h => State.crowd_canon _ _ _ _ h) _ _ h

@[simp] theorem State.sendNotices_mem (s : State) (c k ctx : Nat) (bid : BitVec 32) (k1 prev : Word) (remove : Bool) :
    (State.sendNotices s c k ctx bid k1 prev remove).mem = s.mem := by
  unfold State.sendNotices; intros; (repeat' (first | split | (simp [State.modSlot_mem, State.postMgmt_mem]; done) | (rw [foldl_mem] <;> intros) | (simp only [State.modSlot_mem, State.postMgmt_mem]))) <;> grind [State.modSlot_mem, State.postMgmt_mem]

@[simp] theorem State.rebuilt_mem (s : State) (c : Nat) :
    (State.rebuilt s c).mem = s.mem := by
  rfl

@[simp] theorem State.endRebuild_mem (s : State) (c : Nat) :
    (State.endRebuild s c).mem = s.mem := by
  rfl

@[simp] theorem State.noticeDone_mem (s : State) (at_ : Nat) (n : Notice) :
    (State.noticeDone s at_ n).mem = s.mem := by
  unfold State.noticeDone; grind [State.endRebuild_mem, State.post_mem]

@[simp] theorem State.sendOn_mem (s : State) (n : Notice) (gs : List Nat) :
    (State.sendOn s n gs).mem = s.mem := by
  unfold State.sendOn; refine foldl_mem _ (fun _ _ => ?_) _ _; (try dsimp only); (repeat' split) <;> simp

@[simp] theorem State.spreadNotice_mem (s : State) (n : Notice) (gs : List Nat) :
    (State.spreadNotice s n gs).mem = s.mem := by
  unfold State.spreadNotice; grind [State.noticeDone_mem, State.sendOn_mem]

theorem execKNotice_canon (s : State) : Canon s → ∀ s', execKNotice s = .next s' → Canon s' := by
  intro h s'
  have ht : Canon s.taken := h.of_mem (by simp)
  unfold execKNotice
  split
  case h_2 => rintro ⟨⟩
  dsimp only
  split
  · rintro ⟨⟩; exact ht.of_mem (by simp)
  split
  · rintro ⟨⟩; exact ht.of_mem (by simp)
  split <;> rintro ⟨⟩ <;> refine Canon.of_mem ?_ (State.spreadNotice_mem _ _ _) <;>
    exact State.crowdAll_canon _ _ _ _ (ht.of_mem (by simp))

theorem State.ownerAnswer_canon (s : State) (t : Tag) (k : Word) : Canon s → Canon (State.ownerAnswer s t k) := by
  intro h
  unfold State.ownerAnswer
  split
  · exact h
  split
  · exact h
  split
  · exact h
  dsimp only
  have h1 := State.lookup_canon1 s t.core (s.slot t.core t.slot).th.ctx k false h
  split
  · exact h1.of_mem (by simp)
  split
  · split <;> exact h1.of_mem (by simp)
  · exact h1.of_mem (by simp)

theorem execOwnerLookup_canon (s : State) : Canon s → ∀ s', execOwnerLookup s = .next s' → Canon s' := by
  intro h s'
  unfold execOwnerLookup
  split <;> rintro ⟨⟩
  exact State.ownerAnswer_canon _ _ _ (h.of_mem (by simp))

theorem State.askOwner_canon (s : State) (t : Tag) (ctx : Nat) (k : Word) : Canon s → Canon (State.askOwner s t ctx k) := by
  intro h
  unfold State.askOwner
  split
  · exact State.ownerAnswer_canon _ _ _ h
  · exact h.of_mem (by simp)

theorem State.resolveReg_canon (s : State) (is : Iss) (reg : Reg) (t : Tok) : Canon s → Canon (State.resolveReg s is reg t) := by
  intro h
  unfold State.resolveReg
  split
  · exact h.of_mem (by simp)
  split
  · exact h.of_mem (by simp)
  · dsimp only
    split
    · exact State.askOwner_canon _ _ _ _ (h.of_mem (by simp))
    · exact h.of_mem (by simp)

theorem execWrite_canon (f : Form) (s : State) : Canon s → ∀ s', execWrite f s = .next s' → Canon s' := by
  intro h s'
  unfold execWrite
  split
  · exact fun e => h.of_mem (issue_mem _ _ _ _ (by grind [rnwrite_mem]) e)
  · refine issueRaw_canon _ _ _ _ ?_
    intro is
    split
    · split <;> rintro ⟨⟩
      · exact State.resolveReg_canon _ _ _ _ h
      · exact h.of_mem (by simp)
    · rintro ⟨⟩; exact h.of_mem (by simp)

theorem State.siblings_canon (s : State) (c ctx node core : Nat) :
    Canon s → ∀ s' o, State.siblings s c ctx node core = (s', o) → Canon s' := by
  intro h; unfold State.siblings; (repeat' (first | exact h | split | intro _ | (refine foldl_canon _ ?_ _ _ ?_ <;> intros))) <;> grind [Canon.of_mem, → State.readWords_canon, State.readWords_canon1]

theorem State.siblings_canon1 (s : State) (c ctx node core : Nat) (hs : Canon s) :
    Canon (State.siblings s c ctx node core).1 := State.siblings_canon s c ctx node core hs _ _ rfl

theorem State.mapChange_canon (s : State) (c ctx kind : Nat) (point other : Word) (root : Root) :
    Canon s → ∀ s' o, State.mapChange s c ctx kind point other root = (s', o) → Canon s' := by
  intro h; unfold State.mapChange; (repeat' (first | exact h | split | intro _ | (refine foldl_canon _ ?_ _ _ ?_ <;> intros))) <;> grind [Canon.of_mem, → State.descend_canon, State.free_mem, → State.mapWord_canon, → State.siblings_canon, State.descend_canon1, State.mapWord_canon1, State.siblings_canon1]

theorem State.mapChange_canon1 (s : State) (c ctx kind : Nat) (point other : Word) (root : Root) (hs : Canon s) :
    Canon (State.mapChange s c ctx kind point other root).1 := State.mapChange_canon s c ctx kind point other root hs _ _ rfl

theorem State.mapPieces_canon (s : State) (c ctx : Nat) (x0 : List (Nat × Word)) :
    Canon s → ∀ s' o, State.mapPieces s c ctx x0 = (s', o) → Canon s' := by
  fun_induction State.mapPieces <;> grind [Canon.of_mem, → State.checkBytes_canon, State.checkBytes_canon1]

theorem State.mapPieces_canon1 (s : State) (c ctx : Nat) (x0 : List (Nat × Word)) (hs : Canon s) :
    Canon (State.mapPieces s c ctx x0).1 := State.mapPieces_canon s c ctx x0 hs _ _ rfl

theorem State.mapPlan_canon (s : State) (c ctx kind : Nat) (m : MapChange) (tag : Tag) :
    Canon s → ∀ s' o, State.mapPlan s c ctx kind m tag = (s', o) → Canon s' := by
  intro h; unfold State.mapPlan; (repeat' (first | exact h | split | intro _ | (refine foldl_canon _ ?_ _ _ ?_ <;> intros))) <;> grind [Canon.of_mem, → State.checkBytes_canon, → State.mapPieces_canon, State.checkBytes_canon1, State.mapPieces_canon1]

theorem State.mapPlan_canon1 (s : State) (c ctx kind : Nat) (m : MapChange) (tag : Tag) (hs : Canon s) :
    Canon (State.mapPlan s c ctx kind m tag).1 := State.mapPlan_canon s c ctx kind m tag hs _ _ rfl

theorem State.grantedPlan_canon (s : State) (c k : Nat) (h : Held) (kind : Nat) (point other : Word) :
    Canon s → ∀ s' o, State.grantedPlan s c k h kind point other = (s', o) → Canon s' := by
  intro h; unfold State.grantedPlan; (repeat' (first | exact h | split | intro _ | (refine foldl_canon _ ?_ _ _ ?_ <;> intros))) <;> grind [Canon.of_mem, → State.mapChange_canon, → State.mapPlan_canon, → State.rootRecord_canon, State.mapChange_canon1, State.mapPlan_canon1, State.rootRecord_canon1]

theorem State.grantedPlan_canon1 (s : State) (c k : Nat) (h : Held) (kind : Nat) (point other : Word) (hs : Canon s) :
    Canon (State.grantedPlan s c k h kind point other).1 := State.grantedPlan_canon s c k h kind point other hs _ _ rfl

theorem mapUpdateAt_canon (i : Instr) (s : State) (kind : Nat) (bad : Iss → State → Bool) :
    Canon s → ∀ s', mapUpdateAt i s kind bad = .next s' → Canon s' := by
  intro h s'
  unfold mapUpdateAt
  refine issue_canon _ _ _ _ h ?_
  intro is
  dsimp only
  split
  · rintro ⟨⟩; exact h.of_mem (by simp)
  split
  · rintro ⟨⟩; exact h.of_mem (by simp)
  split
  · rename_i t e ht
    rintro ⟨⟩; exact (State.checkBytes_canon _ _ _ _ _ _ _ _ h _ _ ht).of_mem (by simp)
  rename_i t ps ht
  have h1 := State.checkBytes_canon _ _ _ _ _ _ _ _ h _ _ ht
  have h2 : Canon (match t.rootRecord is.c is.ctx with
    | (s, .error r) => ((s, some r) : State × Option TrapRec)
    | (s, .ok root) => match s.mapChange is.c is.ctx kind is.lw is.rw_ root with
      | (s, .error _) => (s, none)
      | (s, .ok m) => match s.mapPieces is.c is.ctx m.writes with
        | (s, .error r) => (s, some r)
        | (s, .ok _) => (s, none)).1 := by
    (repeat' split) <;> grind [→ State.rootRecord_canon, → State.mapChange_canon, → State.mapPieces_canon]
  split
  · rintro ⟨⟩; exact Canon.of_mem h2 (State.recTrap_mem _ _ _)
  · split
    · rintro ⟨⟩; exact Canon.of_mem h2 (State.trapAt_mem _ _ _)
    · rintro ⟨⟩
      exact Canon.of_mem h2 ((State.settle_mem _ _ _ _).trans ((State.addLoad_mem _ _ _).trans (State.modCore_mem _ _ _)))

@[simp] theorem State.handOver_mem (s : State) (a c path depth : Nat) :
    (State.handOver s a c path depth).mem = s.mem := by
  unfold State.handOver; intros; (repeat' (first | split | (simp [State.postBurr_mem, State.setCore_mem]; done) | (rw [foldl_mem] <;> intros) | (simp only [State.postBurr_mem, State.setCore_mem]))) <;> grind [State.postBurr_mem, State.setCore_mem]

theorem State.mapRelease_canon (s : State) (o : Op) (ctx : Nat) (p : MapPlan) : Canon s → Canon (State.mapRelease s o ctx p) := by
  intro h
  unfold State.mapRelease
  dsimp only
  refine Canon.of_mem (foldl_canon _ (fun s g h => h.of_mem (by simp)) _ _ ?_) rfl
  have h1 := State.serveRelease_canon s
    { agent := .slot o.core o.slot, tag := p.tag, ctx := ctx, kid := p.root.kid, pa := p.root.pa,
      va := p.root.va, acc := .release (p.root.bytes.map (·.getD 0)) } h
  split <;> split <;> exact h1.of_mem (by simp)

theorem execMapUpdateComplete_canon (s : State) : Canon s → ∀ s', execMapUpdateComplete s = .next s' → Canon s' := by
  intro h s'
  have ht : Canon s.taken := h.of_mem (by simp)
  unfold execMapUpdateComplete
  split
  case h_2 => rintro ⟨⟩
  dsimp only
  split
  · rintro ⟨⟩; exact ht
  split
  · rintro ⟨⟩; exact ht
  split
  case h_2 => rintro ⟨⟩; exact ht
  split
  · rintro ⟨⟩; exact State.mapRelease_canon _ _ _ _ ht
  split <;> rename_i hw <;> rintro ⟨⟩
  · exact ht
  · exact Canon.of_mem (State.serveCancel_canon _ _ (Canon.of_mem (State.engineWrite_fault _ _ _ _ _ _ _ _ _ ht _ _ hw) (by simp))) rfl
  · exact Canon.of_mem (State.engineWrite_done _ _ _ _ _ _ _ _ _ ht _ hw) (by simp)

theorem execTableRebuild_canon (s : State) : Canon s → ∀ s', execTableRebuild s = .next s' → Canon s' := by
  intro h s'
  have ht : Canon s.taken := h.of_mem (by simp)
  unfold execTableRebuild
  split
  case h_2 => rintro ⟨⟩
  dsimp only
  split
  · rintro ⟨⟩; exact ht.of_mem (by simp)
  split <;> rintro ⟨⟩
  · refine Canon.of_mem ?_ (State.endRebuild_mem _ _)
    exact State.crowdAll_canon _ _ _ _ (ht.of_mem (by simp))
  · refine foldl_canon _ (fun s n h => h.of_mem (by simp)) _ _ (Canon.of_mem (State.crowdAll_canon _ _ _ _ ?_) rfl)
    exact ht.of_mem (by simp)

theorem execRetireNotice_mem (s : State) :
    ∀ s', execRetireNotice s = .next s' → s'.mem = s.mem := by
  unfold execRetireNotice; grind [State.fault_mem, State.modCore_mem, State.strayMgmt_mem, State.taken_mem]

end Sys2Proof.Machine
end

