-- ==== Sys2Proof/Laws/KeepThreads.lean ====
section
/-!
SUPPORT. The operations of Threads.lean keep the canonical form of memory; those that write none leave it alone.
-/

-- The proofs run one after another, so that the whole package compiles within the memory a check allows.
set_option Elab.async false

namespace Sys2Proof.Machine
open Sys2Proof

theorem execSpawn_mem (f : Form) (s : State) :
    ∀ s', execSpawn f s = .next s' → s'.mem = s.mem := by
  unfold execSpawn; intro s'; apply issue_mem; intros; (try dsimp only); (repeat' split) <;> grind [State.fireDue_mem, State.trapAt_mem, issue_mem]

theorem execSpawnb_canon (f : Form) (s : State) :
    Canon s → ∀ s', execSpawnb f s = .next s' → Canon s' := by
  intro h; unfold execSpawnb; (repeat' (first | exact h | split | intro _ | (refine foldl_canon _ ?_ _ _ ?_ <;> intros))) <;> grind [Canon.of_mem, State.askOwner_canon, State.emitDue_mem, State.modFlight_mem, State.setCore_mem, State.trapAt_mem, issueWhen_mem, issueWhen_canon]

theorem execKset_mem (f : Form) (s : State) :
    ∀ s', execKset f s = .next s' → s'.mem = s.mem := by
  unfold execKset; grind [scalar2_mem]

theorem execKget_mem (f : Form) (s : State) :
    ∀ s', execKget f s = .next s' → s'.mem = s.mem := by
  unfold execKget; grind [scalar1_mem]

theorem execCmap_canon (f : Form) (s : State) :
    Canon s → ∀ s', execCmap f s = .next s' → Canon s' := by
  intro h; unfold execCmap; (repeat' (first | exact h | split | intro _ | (refine foldl_canon _ ?_ _ _ ?_ <;> intros))) <;> grind [Canon.of_mem, State.emit_mem, State.free_mem, → State.lookup_canon, issue_mem, State.lookup_canon1, issue_canon]

@[simp] theorem State.dispose_mem (s : State) (is : Iss) (d : Dispo) :
    (State.dispose s is d).mem = s.mem := by
  unfold State.dispose; grind [State.fault_mem, State.fire_mem, State.modFlight_mem]

theorem execMigrate_canon (f : Form) (s : State) :
    Canon s → ∀ s', execMigrate f s = .next s' → Canon s' := by
  intro h; unfold execMigrate; (repeat' (first | exact h | split | intro _ | (refine foldl_canon _ ?_ _ _ ?_ <;> intros))) <;> grind [Canon.of_mem, State.accessTrap_mem, State.dispose_mem, State.trapAt_mem, → State.xlate_canon, issue_mem, State.xlate_canon1, issue_canon]

theorem execYield_mem (f : Form) (s : State) :
    ∀ s', execYield f s = .next s' → s'.mem = s.mem := by
  unfold execYield; intro s'; apply issue_mem; intros; (try dsimp only); (repeat' split) <;> grind [State.dispose_mem, issue_mem]

theorem execPark_mem (f : Form) (s : State) :
    ∀ s', execPark f s = .next s' → s'.mem = s.mem := by
  unfold execPark; intro s'; apply issue_mem; intros; (try dsimp only); (repeat' split) <;> grind [State.dispose_mem, issue_mem]

theorem execDone_mem (f : Form) (s : State) :
    ∀ s', execDone f s = .next s' → s'.mem = s.mem := by
  unfold execDone; intro s'; apply issue_mem; intros; (try dsimp only); (repeat' split) <;> grind [State.dispose_mem, issue_mem]

@[simp] theorem State.fixTable_mem (s : State) (is : Iss) :
    (State.fixTable s is).mem = s.mem := by
  rfl

theorem execNbr_mem (f : Form) (s : State) :
    ∀ s', execNbr f s = .next s' → s'.mem = s.mem := by
  unfold execNbr; intro s'; apply issue_mem; intros; (try dsimp only); (repeat' split) <;> grind [State.emit_mem, State.fixTable_mem, State.trapAt_mem, issue_mem]

theorem execNbrn_mem (f : Form) (s : State) :
    ∀ s', execNbrn f s = .next s' → s'.mem = s.mem := by
  unfold execNbrn; intro s'; apply issue_mem; intros; (try dsimp only); (repeat' split) <;> grind [State.emit_mem, State.fixTable_mem, State.trapAt_mem, issue_mem]

theorem execCsplit_canon (f : Form) (s : State) : Canon s → ∀ s', execCsplit f s = .next s' → Canon s' :=
  mapUpdateAt_canon _ _ _ _

theorem execCmerge_canon (f : Form) (s : State) : Canon s → ∀ s', execCmerge f s = .next s' → Canon s' :=
  mapUpdateAt_canon _ _ _ _

theorem execChand_canon (f : Form) (s : State) : Canon s → ∀ s', execChand f s = .next s' → Canon s' :=
  mapUpdateAt_canon _ _ _ _

theorem execHedge_canon (f : Form) (s : State) : Canon s → ∀ s', execHedge f s = .next s' → Canon s' :=
  mapUpdateAt_canon _ _ _ _

theorem flockAt_mem (i : Instr) (s : State) (act : Nat → Act) :
    ∀ s', flockAt i s act = .next s' → s'.mem = s.mem := by
  unfold flockAt; intro s'; apply issue_mem; intros; (try dsimp only); (repeat' split) <;> grind [State.fireDue_mem, State.trapAt_mem, issue_mem]

theorem execFjoin_mem (f : Form) (s : State) :
    ∀ s', execFjoin f s = .next s' → s'.mem = s.mem := by
  unfold execFjoin; grind [flockAt_mem]

theorem execFleave_mem (f : Form) (s : State) :
    ∀ s', execFleave f s = .next s' → s'.mem = s.mem := by
  unfold execFleave; grind [flockAt_mem]

theorem execFbar_mem (f : Form) (s : State) :
    ∀ s', execFbar f s = .next s' → s'.mem = s.mem := by
  unfold execFbar; intro s'; apply issue_mem; intros; (try dsimp only); (repeat' split) <;> grind [State.fireDue_mem, State.trapAt_mem, issue_mem]

theorem blockAt_mem (i : Instr) (s : State) (blk : Bool) :
    ∀ s', blockAt i s blk = .next s' → s'.mem = s.mem := by
  unfold blockAt; intro s'; apply issue_mem; intros; (try dsimp only); (repeat' split) <;> grind [State.fireDue_mem, State.trapAt_mem, issue_mem]

theorem execTblk_mem (f : Form) (s : State) :
    ∀ s', execTblk f s = .next s' → s'.mem = s.mem := by
  unfold execTblk; grind [blockAt_mem]

theorem execTubl_mem (f : Form) (s : State) :
    ∀ s', execTubl f s = .next s' → s'.mem = s.mem := by
  unfold execTubl; grind [blockAt_mem]

theorem execTset_mem (f : Form) (s : State) :
    ∀ s', execTset f s = .next s' → s'.mem = s.mem := by
  unfold execTset; intro s'; apply issue_mem; intros; (try dsimp only); (repeat' split) <;> grind [State.fireDue_mem, State.trapAt_mem, issue_mem]

theorem execRemoteChannelChange_mem (s : State) :
    ∀ s', execRemoteChannelChange s = .next s' → s'.mem = s.mem := by
  unfold execRemoteChannelChange; grind [State.fault_mem, State.modCore_mem, State.noteJam_mem, State.strayMgmt_mem, State.taken_mem]

theorem execSetrnd_mem (f : Form) (s : State) :
    ∀ s', execSetrnd f s = .next s' → s'.mem = s.mem := by
  unfold execSetrnd; intro s'; apply issue_mem; intros; (try dsimp only); (repeat' split) <;> grind [State.fault_mem, State.fire_mem, State.modFlight_mem, State.trapAt_mem, issue_mem]

end Sys2Proof.Machine
end

