-- ==== Sys2Proof/Laws/KeepSlots.lean ====
section
/-!
SUPPORT. The operations of Slots.lean keep the canonical form of memory; those that write none leave it alone.
-/

-- The proofs run one after another, so that the whole package compiles within the memory a check allows.
set_option Elab.async false

namespace Sys2Proof.Machine
open Sys2Proof

@[simp] theorem State.misroute_mem (s : State) (c : Nat) (e : Entry) :
    (State.misroute s c e).mem = s.mem := by
  unfold State.misroute; simp

@[simp] theorem State.stray_mem (s : State) (c : Nat) (e : Entry) :
    (State.stray s c e).mem = s.mem := by
  unfold State.stray; grind [State.misroute_mem, State.postBurr_mem, State.strayMgmt_mem]

theorem State.forwardTo_canon (s : State) (c : Nat) (e : Entry) :
    Canon s → ∀ s' o, State.forwardTo s c e = (s', o) → Canon s' := by
  intro h; unfold State.forwardTo; (repeat' (first | exact h | split | intro _ | (refine foldl_canon _ ?_ _ _ ?_ <;> intros))) <;> grind [Canon.of_mem, → State.lookup_canon, State.lookup_canon1]

theorem State.forwardTo_canon1 (s : State) (c : Nat) (e : Entry) (hs : Canon s) :
    Canon (State.forwardTo s c e).1 := State.forwardTo_canon s c e hs _ _ rfl

theorem execArrival_canon (s : State) : Canon s → ∀ s', execArrival s = .next s' → Canon s' := by
  intro h s'
  have ht : Canon s.taken := h.of_mem (by simp)
  unfold execArrival
  split
  case h_2 => rintro ⟨⟩
  dsimp only
  split
  · rintro ⟨⟩; exact ht.of_mem (by simp)
  split <;> rename_i hf <;> rintro ⟨⟩
  · exact (State.forwardTo_canon _ _ _ ht _ _ hf).of_mem (by simp)
  · exact State.enqueue_canon _ _ _ (State.forwardTo_canon _ _ _ ht _ _ hf)

theorem State.writeBacking_canon (s : State) (c e ctx : Nat) : Canon s → Canon (State.writeBacking s c e ctx) := by
  intro h
  unfold State.writeBacking
  refine foldl_canon _ ?_ _ _ h
  intro s i h
  exact (State.putSealed_canon s ctx _ ((List.range 128).map fun j => freeByte (s.fresh + j)) h).of_mem (by dsimp only)

theorem State.spillLru_canon (s : State) (c : Nat) : Canon s → Canon (State.spillLru s c) := by
  intro h
  unfold State.spillLru
  dsimp only
  split
  · exact State.writeBacking_canon _ _ _ _ h
  · exact h

@[simp] theorem State.loadContext_mem (s : State) (c i : Nat) (x : CacheEnt) (cached : Bool) (key : Nat) :
    (State.loadContext s c i x cached key).mem = s.mem := by
  rfl

@[simp] theorem State.oneOf_mem (s : State) (xs : List Nat) :
    (State.oneOf s xs).2.mem = s.mem := by
  unfold State.oneOf; grind []

@[simp] theorem State.startEntry_mem (s : State) (c i : Nat) (e : Entry) :
    (State.startEntry s c i e).mem = s.mem := by
  unfold State.startEntry; grind [State.modCore_mem, State.modSlot_mem]

theorem execDispatch_mem (s : State) :
    ∀ s', execDispatch s = .next s' → s'.mem = s.mem := by
  unfold execDispatch; (repeat' split) <;> grind [State.fault_mem, State.loadContext_mem, State.noteJam_mem, State.oneOf_mem, State.setCore_mem, State.startEntry_mem, State.stray_mem, State.taken_mem]

theorem withDisp_mem (s : State) (get : Event → Option (Nat × Nat)) (body : State → Nat → Nat → Slot → Dispo → State)
    (t : State) (hb : ∀ c k x d, (body s.taken c k x d).mem = s.mem) : withDisp s get body = .next t → t.mem = s.mem := by
  unfold withDisp; grind [State.taken_mem]

theorem withDisp_canon (s : State) (get : Event → Option (Nat × Nat))
    (body : State → Nat → Nat → Slot → Dispo → State) (t : State) (h : Canon s)
    (hb : ∀ s c k x d, Canon s → Canon (body s c k x d)) : withDisp s get body = .next t → Canon t := by
  unfold withDisp; grind [Canon.of_mem, State.taken_mem]

@[simp] theorem State.freeSlot_mem (s : State) (c k : Nat) :
    (State.freeSlot s c k).mem = s.mem := by
  rfl

theorem execBurrMigration_mem (s : State) :
    ∀ s', execBurrMigration s = .next s' → s'.mem = s.mem := by
  unfold execBurrMigration; intro s'; apply withDisp_mem; intros; (try dsimp only); (repeat' split) <;> simp

@[simp] theorem State.postCount_mem (s : State) (src : Nat × Nat) (ctx f : Nat) (up : Bool) (ack : Option (Nat × Nat)) :
    (State.postCount s src ctx f up ack).mem = s.mem := by
  rfl

@[simp] theorem State.sendCount_mem (s : State) (c k ctx f : Nat) (up : Bool) :
    (State.sendCount s c k ctx f up).mem = s.mem := by
  rfl

@[simp] theorem State.sendCounts_mem (s : State) (c k ctx : Nat) (memb : BitVec 32) (up : Bool) :
    (State.sendCounts s c k ctx memb up).mem = s.mem := by
  unfold State.sendCounts; refine foldl_mem _ (fun _ _ => ?_) _ _; (try dsimp only); (repeat' split) <;> simp

@[simp] theorem State.postCounts_mem (s : State) (src : Nat × Nat) (ctx : Nat) (memb : BitVec 32) (up : Bool) :
    (State.postCounts s src ctx memb up).mem = s.mem := by
  unfold State.postCounts; intros; (repeat' (first | split | (simp [State.postCount_mem]; done) | (rw [foldl_mem] <;> intros) | (simp only [State.postCount_mem]))) <;> grind [State.postCount_mem]

theorem execThreadRetire_mem (s : State) :
    ∀ s', execThreadRetire s = .next s' → s'.mem = s.mem := by
  unfold execThreadRetire; intro s'; apply withDisp_mem; intros; (try dsimp only); (repeat' split) <;> simp

theorem State.requeue_canon (s : State) (c k : Nat) (t : Thread) :
    Canon s → Canon (State.requeue s c k t) := by
  intros; unfold State.requeue; grind [Canon.of_mem, State.enqueue_canon, State.freeSlot_mem, State.inject_mem]

theorem execYieldRetire_canon (s : State) : Canon s → ∀ s', execYieldRetire s = .next s' → Canon s' := by
  intro h s'
  unfold execYieldRetire
  refine withDisp_canon _ _ _ _ h ?_
  intro s c k x d h
  split
  · split
    · split
      · exact h
      · exact Canon.of_mem (State.spillLru_canon s c h) (by simp)
    · split
      · exact State.requeue_canon _ _ _ _ h
      · exact h
  · exact h

theorem execHalted_mem (s : State) :
    ∀ s', execHalted s = .next s' → s'.mem = s.mem := by
  unfold execHalted; intro s'; apply withDisp_mem; intros; (try dsimp only); (repeat' split) <;> simp

theorem execUnpark_mem (s : State) :
    ∀ s', execUnpark s = .next s' → s'.mem = s.mem := by
  unfold execUnpark; grind [State.fault_mem, State.modThread_mem, State.taken_mem]

theorem State.giveRelease_mem (s : State) (c ctx f tid : Nat) (own : Bool) :
    ∀ s', State.giveRelease s c ctx f tid own = some s' → s'.mem = s.mem := by
  unfold State.giveRelease; grind [State.modCore_mem, State.modSlot_mem, State.setCore_mem]

theorem execBarrierRelease_mem (s : State) : ∀ s', execBarrierRelease s = .next s' → s'.mem = s.mem := by
  intro s'
  unfold execBarrierRelease
  split
  case h_2 => rintro ⟨⟩
  dsimp only
  split
  · rintro ⟨⟩; simp
  · rintro ⟨⟩
    cases h1 : s.taken.giveRelease _ _ _ _ true with
    | some t => simpa using State.giveRelease_mem _ _ _ _ _ _ _ h1
    | none =>
      cases h2 : s.taken.giveRelease _ _ _ _ false with
      | some t => simpa using State.giveRelease_mem _ _ _ _ _ _ _ h2
      | none => simp

@[simp] theorem State.setFlock_mem (s : State) (ctx f : Nat) (x : Flock) :
    (State.setFlock s ctx f x).mem = s.mem := by
  rfl

@[simp] theorem State.flockCheck_mem (s : State) (ctx f : Nat) :
    (State.flockCheck s ctx f).mem = s.mem := by
  unfold State.flockCheck; intros; (repeat' (first | split | (simp [State.post_mem, State.setFlock_mem]; done) | (rw [foldl_mem] <;> intros) | (simp only [State.post_mem, State.setFlock_mem]))) <;> grind [State.post_mem, State.setFlock_mem]

@[simp] theorem State.ackCount_mem (s : State) (ctx f : Nat) (ack : Option (Nat × Nat)) :
    (State.ackCount s ctx f ack).mem = s.mem := by
  unfold State.ackCount; grind [State.post_mem]

theorem execFlockCountChange_mem (s : State) :
    ∀ s', execFlockCountChange s = .next s' → s'.mem = s.mem := by
  unfold execFlockCountChange; grind [State.ackCount_mem, State.fault_mem, State.flockCheck_mem, State.setFlock_mem, State.taken_mem]

theorem execFlockArrival_mem (s : State) :
    ∀ s', execFlockArrival s = .next s' → s'.mem = s.mem := by
  unfold execFlockArrival; grind [State.fault_mem, State.flockCheck_mem, State.setFlock_mem, State.taken_mem]

@[simp] theorem State.preemptDone_mem (s : State) (c k : Nat) (ent : Option Nat) (outcome : Nat) :
    (State.preemptDone s c k ent outcome).mem = s.mem := by
  unfold State.preemptDone; grind [State.modThread_mem, State.orFree_mem]

@[simp] theorem State.resumeEnt_mem (s : State) (c k : Nat) (w : Word) :
    (State.resumeEnt s c k w).mem = s.mem := by
  unfold State.resumeEnt; grind [State.loadContext_mem, State.preemptDone_mem]

@[simp] theorem State.dropContext_mem (s : State) (c k : Nat) (w : Word) :
    (State.dropContext s c k w).mem = s.mem := by
  unfold State.dropContext; grind [State.modCore_mem, State.postCounts_mem, State.preemptDone_mem]

@[simp] theorem State.preempt_mem (s : State) (c k : Nat) (w : Word) :
    (State.preempt s c k w).mem = s.mem := by
  unfold State.preempt; grind [State.discard_mem, State.dropContext_mem, State.preemptDone_mem, State.resumeEnt_mem]

theorem State.evict_canon (s : State) (c k : Nat) (o : Op) : Canon s → Canon (State.evict s c k o) := by
  intro h
  unfold State.evict
  dsimp only
  have h1 : Canon { s with ops := s.ops.filter fun y => y.id != o.id } := h.of_mem rfl
  split
  · exact h1.of_mem (by simp)
  split
  · exact Canon.of_mem (State.requeue_canon _ c k (s.slot c k).th h1) (by simp)
  · exact Canon.of_mem (State.spillLru_canon _ c h1) (by simp)

theorem execEviction_canon (s : State) : Canon s → ∀ s', execEviction s = .next s' → Canon s' := by
  intro h s'
  have ht : Canon s.taken := h.of_mem (by simp)
  unfold execEviction
  split
  case h_2 => rintro ⟨⟩
  dsimp only
  split
  · split <;> rintro ⟨⟩
    · exact State.evict_canon _ _ _ _ ht
    · exact ht
  · rintro ⟨⟩; exact ht

end Sys2Proof.Machine
end

