-- ==== Sys2Proof/Laws/KeepVec.lean ====
section
/-!
SUPPORT. The operations of Vec.lean keep the canonical form of memory; those that write none leave it alone.
-/

-- The proofs run one after another, so that the whole package compiles within the memory a check allows.
set_option Elab.async false

namespace Sys2Proof.Machine
open Sys2Proof

@[simp] theorem State.emitRounded_mem (s : State) (is : Iss) (rounds : Bool) (t : Tok) :
    (State.emitRounded s is rounds t).mem = s.mem := by
  unfold State.emitRounded; grind [State.emit_mem, State.modFlight_mem, State.trapAt_mem]

theorem withFormat_mem (i : Instr) (s : State) (body : Iss → State → Nat → Out) (t : State)
    (hb : ∀ is c, body is s c = .next t → t.mem = s.mem) : withFormat i s body = .next t → t.mem = s.mem := by
  unfold withFormat
  exact issue_mem _ _ _ _ (by intro is; (repeat' split) <;> grind [State.trapAt_mem])

theorem withFormats_mem (i : Instr) (s : State) (body : Iss → State → Nat → Nat → Out) (t : State)
    (hb : ∀ is c d, body is s c d = .next t → t.mem = s.mem) : withFormats i s body = .next t → t.mem = s.mem := by
  unfold withFormats
  exact issue_mem _ _ _ _ (by intro is; (repeat' split) <;> grind [State.trapAt_mem])

theorem vec1_mem (i : Instr) (s : State) (rounds : Nat → Bool) (g : Nat → RMode → Bool → Nat → Nat) :
    ∀ s', vec1 i s rounds g = .next s' → s'.mem = s.mem := by
  unfold vec1; intro s'; apply withFormat_mem; intros; (try dsimp only); (repeat' split) <;> grind [State.emitRounded_mem, withFormat_mem]

theorem vec2_mem (i : Instr) (s : State) (rounds : Nat → Bool) (g : Nat → RMode → Bool → Nat → Nat → Nat) :
    ∀ s', vec2 i s rounds g = .next s' → s'.mem = s.mem := by
  unfold vec2; intro s'; apply withFormat_mem; intros; (try dsimp only); (repeat' split) <;> grind [State.emitRounded_mem, withFormat_mem]

theorem vec3_mem (i : Instr) (s : State) (g : Nat → RMode → Bool → Nat → Nat → Nat → Nat) :
    ∀ s', vec3 i s g = .next s' → s'.mem = s.mem := by
  unfold vec3; intro s'; apply withFormat_mem; intros; (try dsimp only); (repeat' split) <;> grind [State.emitRounded_mem, withFormat_mem]

theorem reduceVec_mem (i : Instr) (s : State) (rounds : Bool) (g : Nat → RMode → Bool → Nat → Nat → Nat) (fin : Nat → Nat → Nat) :
    ∀ s', reduceVec i s rounds g fin = .next s' → s'.mem = s.mem := by
  unfold reduceVec; intro s'; apply withFormat_mem; intros; (try dsimp only); (repeat' split) <;> grind [State.emit_mem, State.emitRounded_mem, withFormat_mem]

theorem execVadd_mem (f : Form) (s : State) :
    ∀ s', execVadd f s = .next s' → s'.mem = s.mem := by
  unfold execVadd; grind [vec2_mem]

theorem execVsub_mem (f : Form) (s : State) :
    ∀ s', execVsub f s = .next s' → s'.mem = s.mem := by
  unfold execVsub; grind [vec2_mem]

theorem execVmul_mem (f : Form) (s : State) :
    ∀ s', execVmul f s = .next s' → s'.mem = s.mem := by
  unfold execVmul; grind [vec2_mem]

theorem execVfma_mem (f : Form) (s : State) :
    ∀ s', execVfma f s = .next s' → s'.mem = s.mem := by
  unfold execVfma; grind [vec3_mem]

theorem execVfms_mem (f : Form) (s : State) :
    ∀ s', execVfms f s = .next s' → s'.mem = s.mem := by
  unfold execVfms; grind [vec3_mem]

theorem execVmin_mem (f : Form) (s : State) :
    ∀ s', execVmin f s = .next s' → s'.mem = s.mem := by
  unfold execVmin; grind [vec2_mem]

theorem execVmax_mem (f : Form) (s : State) :
    ∀ s', execVmax f s = .next s' → s'.mem = s.mem := by
  unfold execVmax; grind [vec2_mem]

theorem execVabs_mem (f : Form) (s : State) :
    ∀ s', execVabs f s = .next s' → s'.mem = s.mem := by
  unfold execVabs; grind [vec1_mem]

theorem execVneg_mem (f : Form) (s : State) :
    ∀ s', execVneg f s = .next s' → s'.mem = s.mem := by
  unfold execVneg; grind [vec1_mem]

theorem execVrcp_mem (f : Form) (s : State) :
    ∀ s', execVrcp f s = .next s' → s'.mem = s.mem := by
  unfold execVrcp; grind [vec1_mem]

theorem execVrsq_mem (f : Form) (s : State) :
    ∀ s', execVrsq f s = .next s' → s'.mem = s.mem := by
  unfold execVrsq; grind [vec1_mem]

theorem execVexp2_mem (f : Form) (s : State) :
    ∀ s', execVexp2 f s = .next s' → s'.mem = s.mem := by
  unfold execVexp2; grind [vec1_mem]

theorem execVlog2_mem (f : Form) (s : State) :
    ∀ s', execVlog2 f s = .next s' → s'.mem = s.mem := by
  unfold execVlog2; grind [vec1_mem]

theorem execVand_mem (f : Form) (s : State) :
    ∀ s', execVand f s = .next s' → s'.mem = s.mem := by
  unfold execVand; grind [vec2_mem]

theorem execVor_mem (f : Form) (s : State) :
    ∀ s', execVor f s = .next s' → s'.mem = s.mem := by
  unfold execVor; grind [vec2_mem]

theorem execVxor_mem (f : Form) (s : State) :
    ∀ s', execVxor f s = .next s' → s'.mem = s.mem := by
  unfold execVxor; grind [vec2_mem]

theorem execVshl_mem (f : Form) (s : State) :
    ∀ s', execVshl f s = .next s' → s'.mem = s.mem := by
  unfold execVshl; grind [vec2_mem]

theorem execVshr_mem (f : Form) (s : State) :
    ∀ s', execVshr f s = .next s' → s'.mem = s.mem := by
  unfold execVshr; grind [vec2_mem]

theorem execVsar_mem (f : Form) (s : State) :
    ∀ s', execVsar f s = .next s' → s'.mem = s.mem := by
  unfold execVsar; grind [vec2_mem]

theorem execVcmp_mem (f : Form) (s : State) :
    ∀ s', execVcmp f s = .next s' → s'.mem = s.mem := by
  unfold execVcmp; intro s'; apply withFormat_mem; intros; (try dsimp only); (repeat' split) <;> grind [State.emit_mem, withFormat_mem]

theorem execVsel_mem (f : Form) (s : State) :
    ∀ s', execVsel f s = .next s' → s'.mem = s.mem := by
  unfold execVsel; intro s'; apply withFormat_mem; intros; (try dsimp only); (repeat' split) <;> grind [State.emit_mem, withFormat_mem]

theorem execVredsum_mem (f : Form) (s : State) :
    ∀ s', execVredsum f s = .next s' → s'.mem = s.mem := by
  unfold execVredsum; grind [reduceVec_mem]

theorem execVredmax_mem (f : Form) (s : State) :
    ∀ s', execVredmax f s = .next s' → s'.mem = s.mem := by
  unfold execVredmax; grind [reduceVec_mem]

theorem execVdot_mem (f : Form) (s : State) :
    ∀ s', execVdot f s = .next s' → s'.mem = s.mem := by
  unfold execVdot; intro s'; apply withFormat_mem; intros; (try dsimp only); (repeat' split) <;> grind [State.emitRounded_mem, withFormat_mem]

theorem execVcvt_mem (f : Form) (s : State) :
    ∀ s', execVcvt f s = .next s' → s'.mem = s.mem := by
  unfold execVcvt; intro s'; apply withFormats_mem; intros; (try dsimp only); (repeat' split) <;> grind [State.emitRounded_mem, withFormats_mem]

theorem execVscale_mem (f : Form) (s : State) :
    ∀ s', execVscale f s = .next s' → s'.mem = s.mem := by
  unfold execVscale; intro s'; apply withFormats_mem; intros; (try dsimp only); (repeat' split) <;> grind [State.emitRounded_mem, withFormats_mem]

theorem execVpack_mem (f : Form) (s : State) :
    ∀ s', execVpack f s = .next s' → s'.mem = s.mem := by
  unfold execVpack; intro s'; apply withFormats_mem; intros; (try dsimp only); (repeat' split) <;> grind [State.emitRounded_mem, withFormats_mem]

theorem execVunpack_mem (f : Form) (s : State) :
    ∀ s', execVunpack f s = .next s' → s'.mem = s.mem := by
  unfold execVunpack; intro s'; apply withFormats_mem; intros; (try dsimp only); (repeat' split) <;> grind [State.emitRounded_mem, withFormats_mem]

theorem execVperm_mem (f : Form) (s : State) :
    ∀ s', execVperm f s = .next s' → s'.mem = s.mem := by
  unfold execVperm; intro s'; apply withFormat_mem; intros; (try dsimp only); (repeat' split) <;> grind [State.emit_mem, withFormat_mem]

theorem execVbcast_mem (f : Form) (s : State) :
    ∀ s', execVbcast f s = .next s' → s'.mem = s.mem := by
  unfold execVbcast; intro s'; apply withFormat_mem; intros; (try dsimp only); (repeat' split) <;> grind [State.emit_mem, withFormat_mem]

theorem execVins_mem (f : Form) (s : State) :
    ∀ s', execVins f s = .next s' → s'.mem = s.mem := by
  unfold execVins; intro s'; apply withFormat_mem; intros; (try dsimp only); (repeat' split) <;> grind [State.emit_mem, withFormat_mem]

theorem execVext_mem (f : Form) (s : State) :
    ∀ s', execVext f s = .next s' → s'.mem = s.mem := by
  unfold execVext; intro s'; apply withFormat_mem; intros; (try dsimp only); (repeat' split) <;> grind [State.emit_mem, withFormat_mem]

theorem execVqshuf_mem (f : Form) (s : State) :
    ∀ s', execVqshuf f s = .next s' → s'.mem = s.mem := by
  unfold execVqshuf; intro s'; apply withFormat_mem; intros; (try dsimp only); (repeat' split) <;> grind [State.emit_mem, State.trapAt_mem, withFormat_mem]

theorem execVtrn_mem (f : Form) (s : State) :
    ∀ s', execVtrn f s = .next s' → s'.mem = s.mem := by
  unfold execVtrn; intro s'; apply withFormat_mem; intros; (try dsimp only); (repeat' split) <;> grind [State.emit_mem, withFormat_mem]

theorem execViota_mem (f : Form) (s : State) :
    ∀ s', execViota f s = .next s' → s'.mem = s.mem := by
  unfold execViota; intro s'; apply withFormat_mem; intros; (try dsimp only); (repeat' split) <;> grind [State.emit_mem, withFormat_mem]

end Sys2Proof.Machine
end

