-- ==== Sys2Proof/Laws/KeepMatrix.lean ====
section
/-!
SUPPORT. The operations of Matrix.lean keep the canonical form of memory; those that write none leave it alone.
-/

-- The proofs run one after another, so that the whole package compiles within the memory a check allows.
set_option Elab.async false

namespace Sys2Proof.Machine
open Sys2Proof

@[simp] theorem State.dropEntries_mem (s : State) (copse handle : Nat) :
    (State.dropEntries s copse handle).mem = s.mem := by
  rfl

@[simp] theorem State.tidySources_mem (s : State) :
    (State.tidySources s).mem = s.mem := by
  rfl

@[simp] theorem State.dropSources_mem (s : State) (copse handle : Nat) :
    (State.dropSources s copse handle).mem = s.mem := by
  rfl

@[simp] theorem State.evictRick_mem (s : State) (copse e : Nat) :
    (State.evictRick s copse e).mem = s.mem := by
  rfl

@[simp] theorem State.sweepRicks_mem (s : State) (copse : Nat) :
    (State.sweepRicks s copse).mem = s.mem := by
  unfold State.sweepRicks; refine foldl_mem _ (fun _ _ => ?_) _ _; (try dsimp only); (repeat' split) <;> simp

@[simp] theorem State.refillEnd_mem (s : State) (copse h : Nat) (out : Option TrapRec) :
    (State.refillEnd s copse h out).mem = s.mem := by
  unfold State.refillEnd; refine foldl_mem _ (fun _ _ => ?_) _ _; (try dsimp only); (repeat' split) <;> simp

@[simp] theorem State.revokeRick_mem (s : State) (copse handle : Nat) :
    (State.revokeRick s copse handle).mem = s.mem := by
  unfold State.revokeRick; grind [State.dropSources_mem, State.modCopse_mem, State.refillEnd_mem, State.sweepRicks_mem]

@[simp] theorem State.makeRoom_mem (s : State) (copse n : Nat) (x0 : Nat) :
    (State.makeRoom s copse n x0).mem = s.mem := by
  fun_induction State.makeRoom <;> grind [State.evictRick_mem]

theorem execRkalloc_mem (f : Form) (s : State) :
    ∀ s', execRkalloc f s = .next s' → s'.mem = s.mem := by
  unfold execRkalloc; intro s'; apply issue_mem; intros; (try dsimp only); (repeat' split) <;> grind [State.emit_mem, State.emitDue_mem, State.makeRoom_mem, State.setCopse_mem, State.sweepRicks_mem, State.trapAt_mem, issue_mem]

theorem execRkfill_canon (f : Form) (s : State) :
    Canon s → ∀ s', execRkfill f s = .next s' → Canon s' := by
  intro h s'; unfold execRkfill; exact issue_canon _ _ _ _ h (by intro is; (try dsimp only); (repeat' split) <;> grind [Canon.of_mem, State.fireDue_mem, State.modFlight_mem, → State.readVa_canon, State.recTrap_mem, State.trapAt_mem, issue_mem, State.readVa_canon1, issue_canon])

theorem rickAt_mem (i : Instr) (s : State) (act : Nat → Act) :
    ∀ s', rickAt i s act = .next s' → s'.mem = s.mem := by
  unfold rickAt; intro s'; apply issue_mem; intros; (try dsimp only); (repeat' split) <;> grind [State.fireDue_mem, State.trapAt_mem, issue_mem]

theorem execRkpin_mem (f : Form) (s : State) :
    ∀ s', execRkpin f s = .next s' → s'.mem = s.mem := by
  unfold execRkpin; grind [rickAt_mem]

theorem execRkunpin_mem (f : Form) (s : State) :
    ∀ s', execRkunpin f s = .next s' → s'.mem = s.mem := by
  unfold execRkunpin; grind [rickAt_mem]

theorem execRkrev_mem (f : Form) (s : State) :
    ∀ s', execRkrev f s = .next s' → s'.mem = s.mem := by
  unfold execRkrev; grind [rickAt_mem]

theorem execRkqry_mem (f : Form) (s : State) :
    ∀ s', execRkqry f s = .next s' → s'.mem = s.mem := by
  unfold execRkqry; intro s'; apply issue_mem; intros; (try dsimp only); (repeat' split) <;> grind [State.emit_mem, State.sweepRicks_mem, issue_mem]

theorem execMring_mem (f : Form) (s : State) :
    ∀ s', execMring f s = .next s' → s'.mem = s.mem := by
  unfold execMring; intro s'; apply issue_mem; intros; (try dsimp only); (repeat' split) <;> grind [State.fireDue_mem, State.trapAt_mem, issue_mem]

theorem execMtail_mem (f : Form) (s : State) :
    ∀ s', execMtail f s = .next s' → s'.mem = s.mem := by
  unfold execMtail; intro s'; apply issue_mem; intros; (try dsimp only); (repeat' split) <;> grind [State.emitDue_mem, State.trapAt_mem, issue_mem]

theorem execMcnt_mem (f : Form) (s : State) :
    ∀ s', execMcnt f s = .next s' → s'.mem = s.mem := by
  unfold execMcnt; intro s'; apply issue_mem; intros; (try dsimp only); (repeat' split) <;> grind [State.emitDue_mem, State.trapAt_mem, issue_mem]

theorem execMthr_mem (f : Form) (s : State) :
    ∀ s', execMthr f s = .next s' → s'.mem = s.mem := by
  unfold execMthr; intro s'; apply issue_mem; intros; (try dsimp only); (repeat' split) <;> grind [State.fireDue_mem, State.trapAt_mem, issue_mem]

theorem execMwgt_mem (f : Form) (s : State) :
    ∀ s', execMwgt f s = .next s' → s'.mem = s.mem := by
  unfold execMwgt; intro s'; apply issue_mem; intros; (try dsimp only); (repeat' split) <;> grind [State.fireDue_mem, State.trapAt_mem, issue_mem]

theorem mmaAt_mem (i : Instr) (s : State) (zero : Bool) :
    ∀ s', mmaAt i s zero = .next s' → s'.mem = s.mem := by
  unfold mmaAt; intro s'; apply issue_mem; intros; (try dsimp only); (repeat' split) <;> grind [State.fireDue_mem, State.modCopse_mem, State.modFlight_mem, State.trapAt_mem, issue_mem]

theorem execMma_mem (f : Form) (s : State) :
    ∀ s', execMma f s = .next s' → s'.mem = s.mem := by
  unfold execMma; grind [mmaAt_mem]

theorem execMmaz_mem (f : Form) (s : State) :
    ∀ s', execMmaz f s = .next s' → s'.mem = s.mem := by
  unfold execMmaz; grind [mmaAt_mem]

theorem execMdrain_mem (f : Form) (s : State) :
    ∀ s', execMdrain f s = .next s' → s'.mem = s.mem := by
  unfold execMdrain; intro s'; apply issue_mem; intros; (try dsimp only); (repeat' split) <;> grind [State.accessTrap_mem, State.fireDue_mem, State.trapAt_mem, issue_mem]

@[simp] theorem State.queueCmd_mem (s : State) (c k : Nat) (cmd : MCmd) :
    (State.queueCmd s c k cmd).mem = s.mem := by
  unfold State.queueCmd; grind [State.modCopse_mem, State.setCore_mem]

@[simp] theorem State.pathFree_mem (s : State) (copse : Nat) (fill : Bool) :
    (State.pathFree s copse fill).mem = s.mem := by
  unfold State.pathFree; grind [State.setCopse_mem]

theorem State.sourceSectors_canon (s : State) (copse ctx : Nat) (priv : Bool) (sz : Nat) (blk : Word) (acc : List Nat) (x0 : List Nat) :
    Canon s → ∀ s' o, State.sourceSectors s copse ctx priv sz blk acc x0 = (s', o) → Canon s' := by
  fun_induction State.sourceSectors <;> grind [Canon.of_mem, → State.checkBytes_canon, State.checkBytes_canon1]

theorem State.sourceSectors_canon1 (s : State) (copse ctx : Nat) (priv : Bool) (sz : Nat) (blk : Word) (acc : List Nat) (x0 : List Nat) (hs : Canon s) :
    Canon (State.sourceSectors s copse ctx priv sz blk acc x0).1 := State.sourceSectors_canon s copse ctx priv sz blk acc x0 hs _ _ rfl

@[simp] theorem State.registerSector_mem (s : State) (copse handle sec : Nat) :
    (State.registerSector s copse handle sec).mem = s.mem := by
  rfl

@[simp] theorem State.registerSource_mem (s : State) (copse handle : Nat) (secs : List Nat) :
    (State.registerSource s copse handle secs).mem = s.mem := by
  unfold State.registerSource; intros; (repeat' (first | split | (simp [State.dropEntries_mem, State.registerSector_mem, State.tidySources_mem]; done) | (rw [foldl_mem] <;> intros) | (simp only [State.dropEntries_mem, State.registerSector_mem, State.tidySources_mem]))) <;> grind [State.dropEntries_mem, State.registerSector_mem, State.tidySources_mem]

theorem State.tileBytes_canon (s : State) (copse core ctx : Nat) (priv : Bool) (b : FillBlock) (blk : Word) (j : Nat) (x0 : List Nat) :
    Canon s → ∀ s' o, State.tileBytes s copse core ctx priv b blk j x0 = (s', o) → Canon s' := by
  fun_induction State.tileBytes <;> grind [Canon.of_mem, → State.readVa_canon, State.readVa_canon1]

theorem State.tileBytes_canon1 (s : State) (copse core ctx : Nat) (priv : Bool) (b : FillBlock) (blk : Word) (j : Nat) (x0 : List Nat) (hs : Canon s) :
    Canon (State.tileBytes s copse core ctx priv b blk j x0).1 := State.tileBytes_canon s copse core ctx priv b blk j x0 hs _ _ rfl

theorem State.fillBanks_canon (s : State) (copse core ctx : Nat) (priv : Bool) (b : FillBlock) (blk : Word) (x0 : List (Nat × Nat)) :
    Canon s → ∀ s' o, State.fillBanks s copse core ctx priv b blk x0 = (s', o) → Canon s' := by
  fun_induction State.fillBanks <;> grind [Canon.of_mem, State.modCopse_mem, → State.tileBytes_canon, State.tileBytes_canon1]

theorem State.fillBanks_canon1 (s : State) (copse core ctx : Nat) (priv : Bool) (b : FillBlock) (blk : Word) (x0 : List (Nat × Nat)) (hs : Canon s) :
    Canon (State.fillBanks s copse core ctx priv b blk x0).1 := State.fillBanks_canon s copse core ctx priv b blk x0 hs _ _ rfl

theorem State.regainBanks_mem (s : State) (copse : Nat) (r : Rick) :
    ∀ s', State.regainBanks s copse r = some s' → s'.mem = s.mem := by
  unfold State.regainBanks; grind [State.makeRoom_mem, State.setCopse_mem, State.sweepRicks_mem]

theorem State.fillOpen_canon (s : State) (copse ctx handle : Nat) (ws : List Word) (p k : Nat) (priv : Bool) :
    Canon s → ∀ s' o, State.fillOpen s copse ctx handle ws p k priv = (s', o) → Canon s' := by
  intro h; unfold State.fillOpen; (repeat' (first | exact h | split | intro _ | (refine foldl_canon _ ?_ _ _ ?_ <;> intros))) <;> grind [Canon.of_mem, State.registerSource_mem, → State.sourceSectors_canon, State.sourceSectors_canon1]

theorem State.fillOpen_canon1 (s : State) (copse ctx handle : Nat) (ws : List Word) (p k : Nat) (priv : Bool) (hs : Canon s) :
    Canon (State.fillOpen s copse ctx handle ws p k priv).1 := State.fillOpen_canon s copse ctx handle ws p k priv hs _ _ rfl

@[simp] theorem State.fillFault_mem (s : State) (c : Nat) (q : QCmd) (handle : Nat) (r : TrapRec) :
    (State.fillFault s c q handle r).mem = s.mem := by
  unfold State.fillFault; simp

theorem State.startCmd_canon (s : State) (copse c : Nat) (fill : Bool) :
    Canon s → Canon (State.startCmd s copse c fill) := by
  intro h
  have hf : ∀ (t : State) q n r, Canon t → Canon (t.fillFault c q n r) := fun _ _ _ _ h => h.of_mem (by simp)
  unfold State.startCmd
  extract_lets run s1 s2
  have h2 : Canon s2 := h.of_mem (by simp [s2, s1])
  clear_value s2
  split
  · split
    · extract_lets s3
      have h3 : Canon s3 := h2.of_mem (by simp [s3])
      clear_value s3
      split
      · exact h3
      · split
        · exact hf _ _ _ _ h3
        · rename_i hr
          have h4 := h3.of_mem (State.regainBanks_mem _ _ _ _ hr)
          split <;> rename_i ho
          · exact hf _ _ _ _ (State.fillOpen_canon _ _ _ _ _ _ _ _ h4 _ _ ho)
          · exact State.fillOpen_canon _ _ _ _ _ _ _ _ h4 _ _ ho
    · exact h2
  · exact h2

theorem execMatrixCommandStart_canon (s : State) :
    Canon s → ∀ s', execMatrixCommandStart s = .next s' → Canon s' := by
  intro h; unfold execMatrixCommandStart; (repeat' (first | exact h | split | intro _ | (refine foldl_canon _ ?_ _ _ ?_ <;> intros))) <;> grind [Canon.of_mem, State.fault_mem, State.modCopse_mem, State.setCopse_mem, State.startCmd_canon, State.taken_mem]

theorem execRkfillFinish_canon (s : State) :
    Canon s → ∀ s', execRkfillFinish s = .next s' → Canon s' := by
  intro h s' e
  have hf : ∀ (t : State) c q n r, Canon t → Canon (t.fillFault c q n r) := fun _ _ _ _ _ h => h.of_mem (by simp)
  have h1 : Canon s.taken := h.of_mem (by simp)
  unfold execRkfillFinish at e
  dsimp only at e
  generalize s.taken = u at h1 e
  split at e
  · split at e
    · split at e
      · split at e
        · split at e <;> rename_i ho
          · cases e; exact hf _ _ _ _ _ (State.fillOpen_canon _ _ _ _ _ _ _ _ h1 _ _ ho)
          · have h2 := State.fillOpen_canon _ _ _ _ _ _ _ _ h1 _ _ ho
            split at e <;> rename_i hb
            · cases e; exact hf _ _ _ _ _ (State.fillBanks_canon _ _ _ _ _ _ _ _ h2 _ _ hb)
            · cases e; exact (State.fillBanks_canon _ _ _ _ _ _ _ _ h2 _ _ hb).of_mem (by simp)
        · cases e; exact h1.of_mem (by simp)
      · cases e; exact h1
    · cases e; exact h1
  · cases e

end Sys2Proof.Machine
end

