-- ==== Sys2Proof/Laws/KeepMatrixRun.lean ====
section
/-!
SUPPORT. The operations of MatrixRun.lean keep the canonical form of memory; those that write none leave it alone.
-/

-- The proofs run one after another, so that the whole package compiles within the memory a check allows.
set_option Elab.async false

namespace Sys2Proof.Machine
open Sys2Proof

@[simp] theorem State.matrixTrap_mem (s : State) (c : Nat) (q : QCmd) (cause : Cause) (addr : Word) :
    (State.matrixTrap s c q cause addr).mem = s.mem := by
  unfold State.matrixTrap; grind [State.modCore_mem, State.modThread_mem, State.orphans_mem]

@[simp] theorem State.addCount_mem (s : State) (c : Nat) (q : QCmd) (i n : Nat) :
    (State.addCount s c q i n).mem = s.mem := by
  unfold State.addCount; grind [State.matrixTrap_mem, State.setCore_mem]

@[simp] theorem State.addCounts_mem (s : State) (c : Nat) (q : QCmd) (sat nan bso : Nat) :
    (State.addCounts s c q sat nan bso).mem = s.mem := by
  unfold State.addCounts; simp

@[simp] theorem State.mmaReads_mem (s : State) (c : Nat) (zero : Bool) (tile : Nat) (r : Ring) (bank : Nat) :
    (s.mmaReads c zero tile r bank).mem = s.mem := by
  unfold State.mmaReads; rw [foldl_mem] <;> intros <;> simp

@[simp] theorem State.mmaRun_mem (s : State) (c : Nat) (q : QCmd) (zero : Bool) (tile : Nat) (r : Ring) (bank fmt wfmt : Nat) :
    (State.mmaRun s c q zero tile r bank fmt wfmt).mem = s.mem := by
  unfold State.mmaRun; simp

@[simp] theorem State.mmaPop_mem (s : State) (copse c ring : Nat) :
    (State.mmaPop s copse c ring).mem = s.mem := by
  unfold State.mmaPop; simp

theorem execMmaFinish_mem (s : State) :
    ∀ s', execMmaFinish s = .next s' → s'.mem = s.mem := by
  unfold execMmaFinish; (repeat' split) <;> grind [State.fault_mem, State.matrixTrap_mem, State.mmaPop_mem, State.mmaRun_mem, State.modCopse_mem, State.taken_mem]

@[simp] theorem State.refillFail_mem (s : State) (copse e : Nat) (g : Rick → Rick) (r : TrapRec) :
    (State.refillFail s copse e g r).mem = s.mem := by
  unfold State.refillFail; simp

theorem execRickRefill_canon (s : State) :
    Canon s → ∀ s', execRickRefill s = .next s' → Canon s' := by
  intro h; unfold execRickRefill; (repeat' (first | exact h | split | intro _ | (refine foldl_canon _ ?_ _ _ ?_ <;> intros))) <;> grind [Canon.of_mem, State.fault_mem, → State.fillBanks_canon, → State.fillOpen_canon, State.modCopse_mem, State.refillEnd_mem, State.refillFail_mem, State.regainBanks_mem, State.taken_mem, State.fillBanks_canon1, State.fillOpen_canon1]

theorem execTileReadOut_mem (s : State) :
    ∀ s', execTileReadOut s = .next s' → s'.mem = s.mem := by
  unfold execTileReadOut; grind [State.fault_mem, State.modCore_mem, State.taken_mem]

theorem State.modCore_canon (s : State) (c : Nat) (f : Core → Core) (h : Canon s) : Canon (s.modCore c f) :=
  h.of_mem (State.modCore_mem ..)

theorem State.drainFrom_canon (s : State) (copse : Nat) (d : Drain) (x0 : Nat) (x1 : Nat) :
    Canon s → ∀ s' o, State.drainFrom s copse d x0 x1 = (s', o) → Canon s' := by
  fun_induction State.drainFrom <;> grind [Canon.of_mem, State.modCore_canon, → State.checkBytes_canon, State.fault_mem, → State.writeParts_done, → State.writeParts_fault, State.checkBytes_canon1]

theorem State.drainFrom_canon1 (s : State) (copse : Nat) (d : Drain) (x0 : Nat) (x1 : Nat) (hs : Canon s) :
    Canon (State.drainFrom s copse d x0 x1).1 := State.drainFrom_canon s copse d x0 x1 hs _ _ rfl

@[simp] theorem State.holdDrain_mem (s : State) (copse : Nat) (d : Drain) (e : Nat) (r : TrapRec) :
    (State.holdDrain s copse d e r).mem = s.mem := by
  unfold State.holdDrain; simp

theorem execMdrainFinish_canon (s : State) :
    Canon s → ∀ s', execMdrainFinish s = .next s' → Canon s' := by
  intro h s' e
  have h1 : Canon s.taken := h.of_mem (by simp)
  unfold execMdrainFinish at e
  dsimp only at e
  generalize s.taken = u at h1 e
  split at e
  · split at e
    · cases e; exact h1
    · rename_i d _
      split at e
      · cases e; exact h1
      · split at e <;> rename_i hp <;> (have hd := State.drainFrom_canon _ _ _ _ _ h1 _ _ hp)
        · cases e; exact hd.of_mem (by simp)
        · cases e; exact hd.of_mem (by simp)
        · cases e; exact hd.of_mem (by simp)
  · cases e

theorem execRickStaleMark_mem (s : State) :
    ∀ s', execRickStaleMark s = .next s' → s'.mem = s.mem := by
  unfold execRickStaleMark; grind [State.ack_mem, State.fault_mem, State.markRick_mem, State.taken_mem]

theorem execBankZeroed_mem (s : State) :
    ∀ s', execBankZeroed s = .next s' → s'.mem = s.mem := by
  unfold execBankZeroed; grind [State.fault_mem, State.free_mem, State.setCopse_mem, State.taken_mem]

theorem execForcedEviction_mem (s : State) :
    ∀ s', execForcedEviction s = .next s' → s'.mem = s.mem := by
  unfold execForcedEviction; grind [State.due_mem, State.evictRick_mem, State.fault_mem, State.taken_mem]

end Sys2Proof.Machine
end

