-- ==== Sys2Proof/Laws/KeepTraps.lean ====
section
/-!
SUPPORT. The operations of Traps.lean keep the canonical form of memory; those that write none leave it alone.
-/

-- The proofs run one after another, so that the whole package compiles within the memory a check allows.
set_option Elab.async false

namespace Sys2Proof.Machine
open Sys2Proof

theorem execTrap_mem (f : Form) (s : State) :
    ∀ s', execTrap f s = .next s' → s'.mem = s.mem := by
  unfold execTrap; intro s'; apply issue_mem; intros; (try dsimp only); (repeat' split) <;> grind [State.dispose_mem, State.trapAt_mem, issue_mem]

theorem execTret_mem (f : Form) (s : State) :
    ∀ s', execTret f s = .next s' → s'.mem = s.mem := by
  unfold execTret; intro s'; apply issue_mem; intros; (try dsimp only); (repeat' split) <;> grind [State.dispose_mem, issue_mem]

theorem execHalt_mem (f : Form) (s : State) :
    ∀ s', execHalt f s = .next s' → s'.mem = s.mem := by
  unfold execHalt; intro s'; apply issue_mem; intros; (try dsimp only); (repeat' split) <;> grind [State.dispose_mem, issue_mem]

theorem execPreempt_mem (f : Form) (s : State) :
    ∀ s', execPreempt f s = .next s' → s'.mem = s.mem := by
  unfold execPreempt; intro s'; apply issue_mem; intros; (try dsimp only); (repeat' split) <;> grind [State.fireDue_mem, State.preempt_mem, State.trapAt_mem, issue_mem]

theorem execCtlget_mem (f : Form) (s : State) :
    ∀ s', execCtlget f s = .next s' → s'.mem = s.mem := by
  unfold execCtlget; intro s'; apply issue_mem; intros; (try dsimp only); (repeat' split) <;> grind [State.emit_mem, State.modFlight_mem, State.trapAt_mem, issue_mem]

theorem execCtlset_mem (f : Form) (s : State) :
    ∀ s', execCtlset f s = .next s' → s'.mem = s.mem := by
  unfold execCtlset; intro s'; apply issue_mem; intros; (try dsimp only); (repeat' split) <;> grind [State.fireDue_mem, State.trapAt_mem, issue_mem]

@[simp] theorem State.addOp_mem (s : State) (c k : Nat) (kind : OpKind) (left : List Nat) :
    (State.addOp s c k kind left).mem = s.mem := by
  unfold State.addOp; simp

@[simp] theorem State.modOp_mem (s : State) (id : Nat) (g : Op → Op) :
    (State.modOp s id g).mem = s.mem := by
  unfold State.modOp; simp

@[simp] theorem State.endOp_mem (s : State) (id : Nat) :
    (State.endOp s id).mem = s.mem := by
  unfold State.endOp; simp

@[simp] theorem State.ctlCommit_mem (s : State) (c k reg i : Nat) (v : Word) :
    (State.ctlCommit s c k reg i v).mem = s.mem := by
  unfold State.ctlCommit; grind [State.addOp_mem, State.due_mem, State.inject_mem, State.modCore_mem, State.modCtx_mem, State.modThread_mem, State.postMgmt_mem]

theorem execClstartWrite_mem (s : State) :
    ∀ s', execClstartWrite s = .next s' → s'.mem = s.mem := by
  unfold execClstartWrite; grind [State.ctlCommit_mem, State.fault_mem, State.taken_mem]

@[simp] theorem State.tinv_mem (s : State) (ctx : Nat) (v : Word) :
    (State.tinv s ctx v).mem = s.mem := by
  unfold State.tinv; simp

theorem execTinvWrite_mem (s : State) :
    ∀ s', execTinvWrite s = .next s' → s'.mem = s.mem := by
  unfold execTinvWrite; intro s'; dsimp only; (repeat' split) <;> rintro ⟨⟩ <;> (repeat' split) <;> simp

theorem execTinvComplete_mem (s : State) :
    ∀ s', execTinvComplete s = .next s' → s'.mem = s.mem := by
  unfold execTinvComplete; grind [State.endOp_mem, State.fault_mem, State.modOp_mem, State.taken_mem, State.tinv_mem]

theorem State.spreadWrite_mem (s : State) (o : Op) (places : List Nat) (arrive : State → Nat → State) (again : Event)
    (ha : ∀ s n, (arrive s n).mem = s.mem) : (State.spreadWrite s o places arrive again).mem = s.mem := by
  unfold State.spreadWrite; grind [State.oneOf_mem, State.endOp_mem, State.modOp_mem, State.due_mem]

theorem State.spreadWrite_canon (s : State) (o : Op) (places : List Nat) (arrive : State → Nat → State) (again : Event)
    (ha : ∀ s n, (arrive s n).mem = s.mem) (h : Canon s) : Canon (State.spreadWrite s o places arrive again) :=
  h.of_mem (State.spreadWrite_mem s o places arrive again ha)

theorem execMixdbgWrite_mem (s : State) :
    ∀ s', execMixdbgWrite s = .next s' → s'.mem = s.mem := by
  intro s'
  unfold execMixdbgWrite
  (repeat' (first | split | dsimp only)) <;> intro e <;> cases e <;>
    first | simp | (rw [State.spreadWrite_mem _ _ _ _ _ (by intros; simp)]; simp)

theorem execCrootWrite_mem (s : State) :
    ∀ s', execCrootWrite s = .next s' → s'.mem = s.mem := by
  intro s'
  unfold execCrootWrite
  (repeat' (first | split | dsimp only)) <;> intro e <;> cases e <;>
    first | simp | (rw [State.spreadWrite_mem _ _ _ _ _ (by intros; simp)]; simp)

theorem execProtbDrain_mem (s : State) :
    ∀ s', execProtbDrain s = .next s' → s'.mem = s.mem := by
  unfold execProtbDrain; grind [State.fault_mem, State.modCore_mem, State.modOp_mem, State.taken_mem]

theorem State.protbInstall_canon (s : State) (who : Agent) (ctx : Nat) (gs : List (Nat × Nat × Nat)) (sys : Bool) (right : BitVec 2) :
    Canon s → Canon (State.protbInstall s who ctx gs sys right) := by
  intro h
  unfold State.protbInstall
  dsimp only
  refine Canon.of_mem (foldl_canon _ ?_ _ _ h) (foldl_mem _ (fun _ _ => by simp) _ _)
  rintro u ⟨n, mask, va⟩ hu
  dsimp only
  have h1 : Canon (if (u.sector n).zp = true then u.putHome (128 * n) (List.replicate 128 (some 0)) else u) :=
    Canon.ite (State.putHome_canon _ _ _ hu) hu
  generalize (if (u.sector n).zp = true then u.putHome (128 * n) (List.replicate 128 (some 0)) else u) = w at h1
  have h2 : Canon (w.modSector n fun x => { x with guard := setGuard x.guard mask sys right }) := h1.of_mem (by simp)
  split
  · rename_i t e
    exact State.markDirty_canon _ _ _ _ h2 _ e
  · exact h2.of_mem (by simp)

theorem execProtbInstall_canon (s : State) :
    Canon s → ∀ s', execProtbInstall s = .next s' → Canon s' := by
  intro h; unfold execProtbInstall; (repeat' (first | exact h | split | intro _ | (refine foldl_canon _ ?_ _ _ ?_ <;> intros))) <;> grind [Canon.of_mem, State.endOp_mem, State.fault_mem, State.protbInstall_canon, State.taken_mem]

@[simp] theorem State.protbStart_mem (s : State) (c k ctx : Nat) (gs : List (Nat × Nat × Nat)) (sys : Bool) (right : BitVec 2) :
    (State.protbStart s c k ctx gs sys right).mem = s.mem := by
  unfold State.protbStart; simp

theorem execStart_mem (s : State) :
    ∀ s', execStart s = .next s' → s'.mem = s.mem := by
  unfold execStart; grind [State.ack_mem, State.fault_mem, State.modGw_mem, State.taken_mem]

end Sys2Proof.Machine
end

