-- ==== Sys2Proof/Laws/KeepImages.lean ====
section
/-!
SUPPORT. The operations of Images.lean keep the canonical form of memory; those that write none leave it alone.
-/

-- The proofs run one after another, so that the whole package compiles within the memory a check allows.
set_option Elab.async false

namespace Sys2Proof.Machine
open Sys2Proof

@[simp] theorem State.fixWindow_mem (s : State) (c : Nat) (win : Option (Nat × Nat)) :
    (State.fixWindow s c win).mem = s.mem := by
  unfold State.fixWindow; intros; (repeat' (first | split | (simp [State.fixIn_mem]; done) | (rw [foldl_mem] <;> intros) | (simp only [State.fixIn_mem]))) <;> grind [State.fixIn_mem]

theorem execSavec_canon (f : Form) (s : State) : Canon s → ∀ s', execSavec f s = .next s' → Canon s' := by
  intro h s'
  unfold execSavec
  refine issue_canon _ _ _ _ h ?_
  intro is
  dsimp only
  split
  · rintro ⟨⟩; exact h.of_mem (by simp)
  split
  · rintro ⟨⟩; exact h.of_mem (by simp)
  split
  · rintro ⟨⟩; exact h.of_mem (by simp)
  split
  · rintro ⟨⟩; exact h.of_mem (by simp)
  have hw : ∀ c w, Canon (s.fixWindow c w) := fun c w => h.of_mem (by simp)
  split <;> rename_i hc <;> rintro ⟨⟩ <;>
    exact (State.checkBytes_canon _ _ _ _ _ _ _ _ (hw _ _) _ _ hc).of_mem (by simp)

@[simp] theorem State.savecCommit_mem (s : State) (c k addr : Nat) (ctl win : Word) (kind : Nat) (recs : List Byte) (ps : List Piece) :
    (State.savecCommit s c k addr ctl win kind recs ps).mem = s.mem := by
  unfold State.savecCommit; simp

@[simp] theorem State.imageWrite_mem (s : State) (c k ctx target : Nat) (p : Piece) :
    (State.imageWrite s c k ctx target p).mem = s.mem := by
  unfold State.imageWrite; simp

theorem execSavecComplete_mem (s : State) :
    ∀ s', execSavecComplete s = .next s' → s'.mem = s.mem := by
  unfold execSavecComplete; (repeat' split) <;> grind [State.endOp_mem, State.fault_mem, State.imageWrite_mem, State.modOp_mem, State.taken_mem]

theorem State.readImage_canon (s : State) (is : Iss) (a : Nat) :
    Canon s → ∀ s' o, State.readImage s is a = (s', o) → Canon s' := by
  intro h; unfold State.readImage; (repeat' (first | exact h | split | intro _ | (refine foldl_canon _ ?_ _ _ ?_ <;> intros))) <;> grind [Canon.of_mem, → State.readVa_canon, State.readVa_canon1]

theorem State.readImage_canon1 (s : State) (is : Iss) (a : Nat) (hs : Canon s) :
    Canon (State.readImage s is a).1 := State.readImage_canon s is a hs _ _ rfl

theorem execLoadc_canon (f : Form) (s : State) :
    Canon s → ∀ s', execLoadc f s = .next s' → Canon s' := by
  intro h; unfold execLoadc; (repeat' (first | exact h | split | intro _ | (refine foldl_canon _ ?_ _ _ ?_ <;> intros))) <;> grind [Canon.of_mem, State.emit_mem, State.emitDue_mem, State.modCtx_mem, → State.readImage_canon, State.recTrap_mem, State.trapAt_mem, issue_mem, State.readImage_canon1, issue_canon]

@[simp] theorem State.loadcCommit_mem (s : State) (c k : Nat) (ctl : Word) (index kind : Nat) (epoch : Word) (recs : List Byte) :
    (State.loadcCommit s c k ctl index kind epoch recs).mem = s.mem := by
  unfold State.loadcCommit; simp

theorem State.installWindow_canon (s : State) (c ent : Nat) (b : List Byte) :
    Canon s → ∀ s' o, s.installWindow c ent b = (s', o) → Canon s' := by
  intro h s' o e
  suffices H : ∀ (l : List Nat) (p : State × Bool), Canon p.1 → Canon (l.foldl (fun (x : State × Bool) i =>
      let w := (bodyWord b 0).toNat % 0x40000 / 8 + i
      if ((x.1.core c).watch.get? w).isSome then (x.1, true)
      else (x.1.modCore c fun k => { k with watch := k.watch.put w (entOwner ent) }, x.2)) p).1 by
    unfold State.installWindow at e
    have e1 : s' = (s', o).1 := rfl
    rw [e1, ← e]
    refine H _ (_, false) ?_
    refine foldl_canon _ ?_ _ _ h
    intro s i h
    exact Canon.of_mem (State.putHome_canon _ _ _ h) (State.applyMarks_mem _ _)
  intro l
  induction l with
  | nil => intro p hp; exact hp
  | cons i l ih =>
    intro p hp
    refine ih _ ?_
    dsimp only
    split
    · exact hp
    · exact Canon.of_mem hp rfl

theorem State.installWindow_canon1 (s : State) (c ent : Nat) (b : List Byte) (hs : Canon s) :
    Canon (State.installWindow s c ent b).1 := State.installWindow_canon s c ent b hs _ _ rfl

theorem State.installRick_canon (s : State) (copse : Nat) (r : Rick) (banks : List (List Byte)) :
    Canon s → Canon (State.installRick s copse r banks) := by
  intro h
  unfold State.installRick
  dsimp only
  have hc : ∀ x, Canon (s.setCopse copse x) := fun x => h.of_mem (by simp)
  split
  · split <;> rename_i e
    · exact State.fillOpen_canon _ _ _ _ _ _ _ _ (hc _) _ _ e
    · exact (State.fillOpen_canon _ _ _ _ _ _ _ _ (hc _) _ _ e).of_mem (by simp)
  · exact hc _

theorem State.install_canon (s : State) (ctx : Nat) (ctl : Word) (kind : Nat) (recs : List Byte) :
    Canon s → Canon (s.install ctx ctl kind recs) := by
  intro h
  have h0 : Canon { s with nextId := s.nextId + 1 } := h
  have h1 : ∀ (b : Bool) c ent l, Canon (if b = true then State.installWindow { s with nextId := s.nextId + 1 } c ent l
      else ({ s with nextId := s.nextId + 1 }, false)).1 := by
    intro b c ent l
    split
    · exact State.installWindow_canon1 _ _ _ _ h0
    · exact h0
  unfold State.install
  have h2 : ∀ (q : State × Bool) c f, Canon q.1 → Canon (q.1.modCore c f) :=
    fun q c f hq => Canon.of_mem hq (State.modCore_mem _ c f)
  refine Canon.ite ?_ ?_
  · refine foldl_canon _ ?_ _ _ ?_
    · intro t x ht
      exact State.installRick_canon _ _ _ _ ht
    · exact h2 _ _ _ (h1 _ _ _ _)
  · exact h2 _ _ _ (h1 _ _ _ _)

theorem execLoadcComplete_canon (s : State) :
    Canon s → ∀ s', execLoadcComplete s = .next s' → Canon s' := by
  intro h; unfold execLoadcComplete; (repeat' (first | exact h | split | intro _ | (refine foldl_canon _ ?_ _ _ ?_ <;> intros))) <;> grind [Canon.of_mem, State.endOp_mem, State.fault_mem, State.install_canon, State.taken_mem]

end Sys2Proof.Machine
end

