-- ==== Sys2Proof/Laws/KeepSched.lean ====
section
/-!
SUPPORT. The operations of Sched.lean keep the canonical form of memory; those that write none leave it alone.
-/

-- The proofs run one after another, so that the whole package compiles within the memory a check allows.
set_option Elab.async false

namespace Sys2Proof.Machine
open Sys2Proof

theorem State.joinDie_canon (s : State) (die : Nat) (e : DieEnt) :
    Canon s → Canon (State.joinDie s die e) := by
  intros; unfold State.joinDie; grind [Canon.of_mem, State.putSealed_canon, State.setDie_mem]

@[simp] theorem State.noteDie_mem (s : State) (die : Nat) :
    (State.noteDie s die).mem = s.mem := by
  unfold State.noteDie; intros; (repeat' (first | split | (simp [State.modDie_mem, State.supvMsg_mem]; done) | (rw [foldl_mem] <;> intros) | (simp only [State.modDie_mem, State.supvMsg_mem]))) <;> grind [State.modDie_mem, State.supvMsg_mem]

@[simp] theorem State.setCsched_mem (s : State) (ctx : Nat) (v : Word) :
    (State.setCsched s ctx v).mem = s.mem := by
  rfl

theorem execDieQueueEnter_canon (s : State) :
    Canon s → ∀ s', execDieQueueEnter s = .next s' → Canon s' := by
  intro h; unfold execDieQueueEnter; (repeat' (first | exact h | split | intro _ | (refine foldl_canon _ ?_ _ _ ?_ <;> intros))) <;> grind [Canon.of_mem, State.fault_mem, State.joinDie_canon, State.noteDie_mem, State.taken_mem]

theorem execDieSpillReload_mem (s : State) :
    ∀ s', execDieSpillReload s = .next s' → s'.mem = s.mem := by
  unfold execDieSpillReload; grind [State.fault_mem, State.noteDie_mem, State.setDie_mem, State.taken_mem]

theorem execClassAging_mem (s : State) :
    ∀ s', execClassAging s = .next s' → s'.mem = s.mem := by
  unfold execClassAging; grind [State.fault_mem, State.modDie_mem, State.taken_mem]

theorem execIdleSummaryUpdate_mem (s : State) :
    ∀ s', execIdleSummaryUpdate s = .next s' → s'.mem = s.mem := by
  unfold execIdleSummaryUpdate; grind [State.fault_mem, State.modDie_mem, State.taken_mem]

theorem execTaskRelease_mem (s : State) :
    ∀ s', execTaskRelease s = .next s' → s'.mem = s.mem := by
  unfold execTaskRelease; grind [State.fault_mem, State.noteDie_mem, State.setDie_mem, State.taken_mem]

@[simp] theorem State.endWalk_mem (s : State) (id : Nat) :
    (State.endWalk s id).mem = s.mem := by
  unfold State.endWalk; simp

@[simp] theorem State.walkOn_mem (s : State) (w : Walk) (n i ph : Nat) :
    (State.walkOn s w n i ph).mem = s.mem := by
  rfl

theorem execTaskOffer_canon (s : State) :
    Canon s → ∀ s', execTaskOffer s = .next s' → Canon s' := by
  intro h; unfold execTaskOffer; (repeat' (first | exact h | split | intro _ | (refine foldl_canon _ ?_ _ _ ?_ <;> intros))) <;> grind [Canon.of_mem, State.due_mem, State.endWalk_mem, State.enqueue_canon, State.fault_mem, State.taken_mem, State.walkOn_mem]

theorem State.returnTask_canon (s : State) (w : Walk) :
    Canon s → Canon (State.returnTask s w) := by
  intros; unfold State.returnTask; grind [Canon.of_mem, State.joinDie_canon, State.noteDie_mem]

theorem execTaskHintArrival_canon (s : State) :
    Canon s → ∀ s', execTaskHintArrival s = .next s' → Canon s' := by
  intro h; unfold execTaskHintArrival; (repeat' (first | exact h | split | intro _ | (refine foldl_canon _ ?_ _ _ ?_ <;> intros))) <;> grind [Canon.of_mem, State.endWalk_mem, State.enqueue_canon, State.fault_mem, State.misroute_mem, State.returnTask_canon, State.taken_mem]

theorem execReturnHoldoff_mem (s : State) :
    ∀ s', execReturnHoldoff s = .next s' → s'.mem = s.mem := by
  unfold execReturnHoldoff; grind [State.fault_mem, State.modDie_mem, State.taken_mem]

@[simp] theorem State.donate_mem (s : State) (thief donor : Nat) :
    (State.donate s thief donor).mem = s.mem := by
  unfold State.donate; intros; (repeat' (first | split | (simp [State.modDie_mem, State.noteDie_mem, State.post_mem]; done) | (rw [foldl_mem] <;> intros) | (simp only [State.modDie_mem, State.noteDie_mem, State.post_mem]))) <;> grind [State.modDie_mem, State.noteDie_mem, State.post_mem]

theorem execStealRequest_mem (s : State) :
    ∀ s', execStealRequest s = .next s' → s'.mem = s.mem := by
  unfold execStealRequest; grind [State.donate_mem, State.fault_mem, State.modDie_mem, State.post_mem, State.taken_mem]

theorem execStealDonation_canon (s : State) :
    Canon s → ∀ s', execStealDonation s = .next s' → Canon s' := by
  intro h; unfold execStealDonation; (repeat' (first | exact h | split | intro _ | (refine foldl_canon _ ?_ _ _ ?_ <;> intros))) <;> grind [Canon.of_mem, State.fault_mem, State.joinDie_canon, State.noteDie_mem, State.taken_mem]

end Sys2Proof.Machine
end

