-- ==== Sys2Proof/Laws/KeepCommit.lean ====
section
/-!
SUPPORT. The operations of Commit.lean keep the canonical form of memory; those that write none leave it alone.
-/

-- The proofs run one after another, so that the whole package compiles within the memory a check allows.
set_option Elab.async false

namespace Sys2Proof.Machine
open Sys2Proof

theorem State.storePiece_canon (s : State) (c k : Nat) (fl : Flight) (lsn : Nat) (pol : BitVec 32) (blockp : Word) (p : Piece) :
    Canon s → Canon (State.storePiece s c k fl lsn pol blockp p) := by
  intros; unfold State.storePiece; grind [Canon.of_mem, State.inject_mem, State.modCore_mem, State.serve_canon]

@[simp] theorem State.homeUpdate_mem (s : State) (c k : Nat) (fl : Flight) (lsn : Nat) (pol : BitVec 32) (blockp : Word) (p : Piece) (acc : Access) :
    (State.homeUpdate s c k fl lsn pol blockp p acc).mem = s.mem := by
  unfold State.homeUpdate; simp

@[simp] theorem State.releaseHeld_mem (s : State) (c k : Nat) (fl : Flight) (lsn : Nat) (pol : BitVec 32) :
    (State.releaseHeld s c k fl lsn pol).mem = s.mem := by
  unfold State.releaseHeld; grind [State.homeUpdate_mem]

theorem State.portWord_canon (s : State) (c k p : Nat) (w : Word) :
    Canon s → ∀ s', State.portWord s c k p w = .ok s' → Canon s' := by
  intro h; unfold State.portWord; (repeat' (first | exact h | split | intro _ | (refine foldl_canon _ ?_ _ _ ?_ <;> intros))) <;> grind [Canon.of_mem, State.inject_mem, State.modPort_mem, State.ringWrite_canon]

@[simp] theorem State.spawnTask_mem (s : State) (c k : Nat) (p : TaskPkt) :
    (State.spawnTask s c k p).mem = s.mem := by
  unfold State.spawnTask; grind [State.inject_mem, State.sendCounts_mem]

@[simp] theorem State.spawnBurr_mem (s : State) (c k : Nat) (b : Burr) (dest : Nat) :
    (State.spawnBurr s c k b dest).mem = s.mem := by
  unfold State.spawnBurr; simp

theorem State.joinFlock_mem (s : State) (c k id : Nat) :
    ∀ s', State.joinFlock s c k id = .ok s' → s'.mem = s.mem := by
  unfold State.joinFlock; grind [State.modThread_mem, State.sendCount_mem]

@[simp] theorem State.leaveFlock_mem (s : State) (c k id : Nat) :
    (State.leaveFlock s c k id).mem = s.mem := by
  unfold State.leaveFlock; grind [State.modThread_mem, State.sendCount_mem]

@[simp] theorem State.arrive_mem (s : State) (c k id : Nat) :
    (State.arrive s c k id).mem = s.mem := by
  unfold State.arrive; simp

theorem State.commitMap_canon (s : State) (c k : Nat) (fl : Flight) (pos kind : Nat) (point other : Word) :
    Canon s → ∀ s', State.commitMap s c k fl pos kind point other = .ok s' → Canon s' := by
  intro h; unfold State.commitMap; (repeat' (first | exact h | split | intro _ | (refine foldl_canon _ ?_ _ _ ?_ <;> intros))) <;> grind [Canon.of_mem, State.addOp_mem, → State.grantedPlan_canon, State.grantedPlan_canon1]

@[simp] theorem State.changeChan_mem (s : State) (c k co ch : Nat) (own blk : Bool) :
    (State.changeChan s c k co ch own blk).mem = s.mem := by
  unfold State.changeChan; grind [State.inject_mem, State.modCore_mem, State.noteJam_mem]

theorem State.commitAct_canon (s : State) (c k : Nat) (fl : Flight) (d : Due) :
    Canon s → ∀ s', State.commitAct s c k fl d = .ok s' → Canon s' := by
  intro h s'
  unfold State.commitAct
  dsimp only
  split
  case h_1 =>
    rintro ⟨⟩
    exact foldl_canon _ (fun t x ht => State.storePiece_canon _ _ _ _ _ _ _ _ ht) _ _ h
  all_goals first
    | (rintro ⟨⟩; refine Canon.of_mem h ?_; simp only [State.ctlCommit_mem]; split <;> simp only [State.discard_mem])
    | (rintro ⟨⟩; exact h.of_mem (by simp))
    | (rintro ⟨⟩; exact Canon.ite (h.of_mem (by simp)) (h.of_mem (by simp)))
    | (split <;> rintro ⟨⟩ <;> exact h.of_mem (by simp))
    | ((repeat' split) <;> rintro ⟨⟩ <;> exact h.of_mem (by simp))
    | (intro e; exact h.of_mem (State.joinFlock_mem _ _ _ _ _ e))
    | exact State.portWord_canon _ _ _ _ _ h _
    | exact State.commitMap_canon _ _ _ _ _ _ _ _ h _

theorem State.commitActs_canon (s : State) (c k : Nat) (fl : Flight) (x0 : List Due) :
    Canon s → ∀ s', State.commitActs s c k fl x0 = .ok s' → Canon s' := by
  fun_induction State.commitActs <;> grind [Canon.of_mem, State.commitAct_canon]

@[simp] theorem State.commitK_mem (s : State) (c k : Nat) (fl : Flight) (old : Word) :
    (State.commitK s c k fl old).mem = s.mem := by
  unfold State.commitK; grind [State.sendNotices_mem]

@[simp] theorem State.burrDone_mem (s : State) (c k : Nat) :
    (State.burrDone s c k).mem = s.mem := by
  unfold State.burrDone; grind [State.inject_mem, State.sendNotices_mem]

@[simp] theorem State.disposed_mem (s : State) (c k : Nat) (d : Dispo) :
    (State.disposed s c k d).mem = s.mem := by
  unfold State.disposed; simp

@[simp] theorem State.dispoCommit_mem (s : State) (c k : Nat) (fl : Flight) :
    (State.dispoCommit s c k fl).mem = s.mem := by
  unfold State.dispoCommit; grind [State.burrDone_mem, State.disposed_mem, State.modThread_mem]

@[simp] theorem State.commitPreempts_mem (s : State) (c k : Nat) (fl : Flight) :
    (State.commitPreempts s c k fl).mem = s.mem := by
  unfold State.commitPreempts; refine foldl_mem _ (fun _ _ => ?_) _ _; (try dsimp only); (repeat' split) <;> simp

theorem State.commit_canon (s : State) (c k : Nat) (fl : Flight) :
    Canon s → ∀ s', State.commit s c k fl = .ok s' → Canon s' := by
  intro h s'
  unfold State.commit
  dsimp only
  split
  · simp
  split
  · simp
  · rename_i t ht
    rintro ⟨⟩
    exact (State.commitActs_canon _ _ _ _ _ (h.of_mem (by simp)) _ ht).of_mem (by simp)

theorem execSheafCommit_canon (s : State) : Canon s → ∀ s', execSheafCommit s = .next s' → Canon s' := by
  intro h s'
  have h0 : Canon s.taken := h.of_mem (by simp)
  unfold execSheafCommit
  split
  · dsimp only
    split
    · rintro ⟨⟩; exact h0
    · split
      · split
        · rintro ⟨⟩; exact h0.of_mem (by simp)
        · split
          · rintro ⟨⟩; exact h0
          · split
            · rintro ⟨⟩; exact h0.of_mem (by simp)
            · rename_i t ht
              rintro ⟨⟩; exact State.commit_canon _ _ _ _ h0 _ ht
      · split
        · rintro ⟨⟩; exact h0.of_mem (by simp)
        · rintro ⟨⟩; exact h0
  · simp

end Sys2Proof.Machine
end

