-- ==== Sys2Proof/Laws/KeepLife.lean ====
section
/-!
SUPPORT. The operations of Life.lean keep the canonical form of memory; those that write none leave it alone.
-/

-- The proofs run one after another, so that the whole package compiles within the memory a check allows.
set_option Elab.async false

namespace Sys2Proof.Machine
open Sys2Proof

@[simp] theorem State.fixCode_mem (s : State) (c n size : Nat) :
    (State.fixCode s c n size).mem = s.mem := by
  unfold State.fixCode; refine foldl_mem _ (fun _ _ => ?_) _ _; (try dsimp only); (repeat' split) <;> simp

@[simp] theorem State.sheafReads_mem (s : State) (c k : Nat) (sh : Sheaf) :
    (State.sheafReads s c k sh).mem = s.mem := by
  unfold State.sheafReads; grind [State.modCore_mem, State.modThread_mem]

@[simp] theorem State.fetch_mem (s : State) (c k : Nat) :
    (State.fetch s c k).mem = s.mem := by
  unfold State.fetch; grind [State.fault_mem, State.fixCode_mem, State.modSlot_mem, State.sheafReads_mem, State.takeTrap_mem]

theorem execSheafFetch_canon (s : State) :
    Canon s → ∀ s', execSheafFetch s = .next s' → Canon s' := by
  intro h; unfold execSheafFetch; (repeat' (first | exact h | split | intro _ | (refine foldl_canon _ ?_ _ _ ?_ <;> intros))) <;> grind [Canon.of_mem, State.disposed_mem, State.drvStep_canon, State.fault_mem, State.fetch_mem, State.modThread_mem, State.taken_mem]

theorem execTrapEntry_mem (s : State) :
    ∀ s', execTrapEntry s = .next s' → s'.mem = s.mem := by
  unfold execTrapEntry; grind [State.fault_mem, State.modSlot_mem, State.takeTrap_mem, State.taken_mem]

theorem execImpreciseTrap_mem (s : State) :
    ∀ s', execImpreciseTrap s = .next s' → s'.mem = s.mem := by
  unfold execImpreciseTrap; grind [State.fault_mem, State.modSlot_mem, State.takeTrap_mem, State.taken_mem]

@[simp] theorem State.dueBefore_mem (s : State) (same : Event → Bool) (e : Event) :
    (State.dueBefore s same e).mem = s.mem := by
  rfl

theorem execDrvcfgWrite_mem (s : State) :
    ∀ s', execDrvcfgWrite s = .next s' → s'.mem = s.mem := by
  unfold execDrvcfgWrite; grind [State.dueBefore_mem, State.fault_mem, State.modCore_mem, State.modThread_mem, State.taken_mem]

end Sys2Proof.Machine
end

