-- ==== Sys2Proof/Laws/KeepNet.lean ====
section
/-!
SUPPORT. The operations of Net.lean keep the canonical form of memory; those that write none leave it alone.
-/

-- The proofs run one after another, so that the whole package compiles within the memory a check allows.
set_option Elab.async false

namespace Sys2Proof.Machine
open Sys2Proof

@[simp] theorem State.place__mem (s : State) (p : Pkt) (node input phase : Nat) :
    (State.place_ s p node input phase).mem = s.mem := by
  unfold State.place_; simp

theorem execInjectionLeave_mem (s : State) :
    ∀ s', execInjectionLeave s = .next s' → s'.mem = s.mem := by
  unfold execInjectionLeave; grind [State.fault_mem, State.modCore_mem, State.place__mem, State.setSlot_mem, State.taken_mem]

@[simp] theorem State.orderedLeft_mem (s : State) (c k : Nat) : (State.orderedLeft s c k).mem = s.mem := rfl

theorem execOrderedPacketLeave_mem (s : State) :
    ∀ s', execOrderedPacketLeave s = .next s' → s'.mem = s.mem := by
  unfold execOrderedPacketLeave; grind [State.orderedLeft_mem, State.fault_mem, State.modCore_mem, State.place__mem, State.setSlot_mem, State.taken_mem]

theorem execPacketHop_mem (s : State) :
    ∀ s', execPacketHop s = .next s' → s'.mem = s.mem := by
  unfold execPacketHop; grind [State.arrive_mem, State.due_mem, State.fault_mem, State.place__mem, State.taken_mem]

@[simp] theorem State.alarm_mem (s : State) (bit : Nat) :
    (State.alarm s bit).mem = s.mem := by
  unfold State.alarm; simp

@[simp] theorem State.halt_mem (s : State) :
    (State.halt s).mem = s.mem := by
  unfold State.halt; simp

theorem execFlitReceive_mem (s : State) :
    ∀ s', execFlitReceive s = .next s' → s'.mem = s.mem := by
  unfold execFlitReceive; grind [State.due_mem, State.fault_mem, State.taken_mem]

theorem execLinkDown_mem (s : State) :
    ∀ s', execLinkDown s = .next s' → s'.mem = s.mem := by
  unfold execLinkDown; grind [State.fault_mem, State.halt_mem, State.taken_mem]

theorem execScrub_mem (s : State) :
    ∀ s', execScrub s = .next s' → s'.mem = s.mem := by
  unfold execScrub; grind [State.alarm_mem, State.fault_mem, State.fixIn_mem, State.pageAdd_mem, State.reportAt_mem, State.taken_mem]

end Sys2Proof.Machine
end

