-- ==== Sys2Proof/Laws/KeepGateway.lean ====
section
/-!
SUPPORT. The operations of Gateway.lean keep the canonical form of memory; those that write none leave it alone.
-/

-- The proofs run one after another, so that the whole package compiles within the memory a check allows.
set_option Elab.async false

namespace Sys2Proof.Machine
open Sys2Proof

@[simp] theorem State.modLq_mem (s : State) (gw ctx q : Nat) (f : LQ → LQ) :
    (State.modLq s gw ctx q f).mem = s.mem := by
  unfold State.modLq; simp

@[simp] theorem State.launchCounts_mem (s : State) (gw ctx q : Nat) (r : TaskPkt) :
    (State.launchCounts s gw ctx q r).mem = s.mem := by
  unfold State.launchCounts; refine foldl_mem _ (fun _ _ => ?_) _ _; (try dsimp only); (repeat' split) <;> simp

@[simp] theorem State.launchOn_mem (s : State) (gw ctx q : Nat) :
    (State.launchOn s gw ctx q).mem = s.mem := by
  unfold State.launchOn; grind [State.launchCounts_mem, State.modLq_mem, State.post_mem]

theorem execLaunchRecord_mem (s : State) :
    ∀ s', execLaunchRecord s = .next s' → s'.mem = s.mem := by
  unfold execLaunchRecord; grind [State.fault_mem, State.launchOn_mem, State.modLq_mem, State.record_mem, State.taken_mem]

@[simp] theorem State.gwstart_mem (s : State) (gw : Nat) (v : Word) :
    (State.gwstart s gw v).mem = s.mem := by
  unfold State.gwstart; grind [State.modGw_mem, State.post_mem]

theorem execGwstartWrite_mem (s : State) :
    ∀ s', execGwstartWrite s = .next s' → s'.mem = s.mem := by
  unfold execGwstartWrite; grind [State.fault_mem, State.gwstart_mem, State.taken_mem]

theorem execGatewayDrain_mem (s : State) :
    ∀ s', execGatewayDrain s = .next s' → s'.mem = s.mem := by
  unfold execGatewayDrain; grind [State.fault_mem, State.modGw_mem, State.taken_mem]

@[simp] theorem State.hostReply_mem (s : State) (gw : Nat) (phase : Bool) (data : Option (List Byte)) :
    (State.hostReply s gw phase data).mem = s.mem := by
  rfl

@[simp] theorem State.hostRefuse_mem (s : State) (gw : Nat) (phase : Bool) (acc : Access) :
    (State.hostRefuse s gw phase acc).mem = s.mem := by
  unfold State.hostRefuse; simp

@[simp] theorem State.holdParts_mem (s : State) (gw : Nat) (ps : List Part) :
    (State.holdParts s gw ps).mem = s.mem := by
  unfold State.holdParts; refine foldl_mem _ (fun _ _ => ?_) _ _; (try dsimp only); (repeat' split) <;> simp

@[simp] theorem State.again_mem (s : State) (e : Event) :
    (State.again s e).mem = s.mem := by
  rfl

theorem State.hostRead_canon (s : State) (h : HostReq) (w : Window) (va n : Nat) :
    Canon s → Canon (State.hostRead s h w va n) := by
  intro hc
  unfold State.hostRead
  split <;> rename_i ps e <;> have h1 := State.checkBytes_canon _ _ _ _ _ _ _ _ hc _ _ e
  · exact h1.of_mem (by simp)
  · have h2 := State.fixParts_canon _ 0 ps h1
    dsimp only
    split
    · exact h1.of_mem (by simp)
    · split <;> rename_i er
      · exact Canon.of_mem h2 (by rw [State.hostReply_mem, State.holdParts_mem]; grind [State.readParts_mem])
      · split <;> exact Canon.of_mem h2 (by grind [State.hostReply_mem, State.hostRefuse_mem, State.readParts_mem])

theorem State.hostPart_canon (s : State) (gw ctx va : Nat) (bs : List (Option Byte)) (p : Part) :
    Canon s → (∀ s', State.hostPart s gw ctx va bs p = .done s' → Canon s') ∧
      (∀ s' o, State.hostPart s gw ctx va bs p = .fault s' o → Canon s') := by
  intro h
  unfold State.hostPart
  dsimp only
  have hm : ∀ n f, Canon (s.modSector n f) := fun n f => h.of_mem (by simp)
  split
  · exact ⟨by rintro _ ⟨⟩; exact h, by rintro _ _ ⟨⟩⟩
  · split <;> rename_i e
    · exact ⟨by rintro _ ⟨⟩; exact (State.engineWrite_done _ _ _ _ _ _ _ _ _ (hm _ _) _ e).of_mem (by simp), by rintro _ _ ⟨⟩⟩
    · exact ⟨by rintro _ ⟨⟩, by rintro _ _ ⟨⟩; exact (State.engineWrite_fault _ _ _ _ _ _ _ _ _ (hm _ _) _ _ e).of_mem (by simp)⟩
    · exact ⟨by rintro _ ⟨⟩, by rintro _ _ ⟨⟩⟩

theorem State.hostPart_done (s : State) (gw ctx va : Nat) (bs : List (Option Byte)) (p : Part) (hs : Canon s) :
    ∀ s', State.hostPart s gw ctx va bs p = .done s' → Canon s' := (State.hostPart_canon s gw ctx va bs p hs).1

theorem State.hostPart_fault (s : State) (gw ctx va : Nat) (bs : List (Option Byte)) (p : Part) (hs : Canon s) :
    ∀ s' o, State.hostPart s gw ctx va bs p = .fault s' o → Canon s' := (State.hostPart_canon s gw ctx va bs p hs).2

theorem State.hostParts_canon (s : State) (gw ctx va : Nat) (bs : List (Option Byte)) (x0 : List Part) :
    Canon s → (∀ s', State.hostParts s gw ctx va bs x0 = .done s' → Canon s') ∧ (∀ s' o, State.hostParts s gw ctx va bs x0 = .fault s' o → Canon s') := by
  fun_induction State.hostParts with
  | case1 s => exact fun h => ⟨by rintro _ ⟨⟩; exact h, by rintro _ _ ⟨⟩⟩
  | case2 s p rest t e ih => exact fun h => ih (State.hostPart_done _ _ _ _ _ _ h _ e)
  | case3 s p rest _ =>
    exact fun h => ⟨fun t e => State.hostPart_done _ _ _ _ _ _ h _ e, fun t o e => State.hostPart_fault _ _ _ _ _ _ h _ _ e⟩

theorem State.hostParts_done (s : State) (gw ctx va : Nat) (bs : List (Option Byte)) (x0 : List Part) (hs : Canon s) :
    ∀ s', State.hostParts s gw ctx va bs x0 = .done s' → Canon s' := (State.hostParts_canon s gw ctx va bs x0 hs).1

theorem State.hostParts_fault (s : State) (gw ctx va : Nat) (bs : List (Option Byte)) (x0 : List Part) (hs : Canon s) :
    ∀ s' o, State.hostParts s gw ctx va bs x0 = .fault s' o → Canon s' := (State.hostParts_canon s gw ctx va bs x0 hs).2

theorem State.hostWrite_canon (s : State) (h : HostReq) (w : Window) (va : Nat) (bs : List (Option Byte)) :
    Canon s → Canon (State.hostWrite s h w va bs) := by
  intro hc
  unfold State.hostWrite
  split
  · exact hc.of_mem (by simp)
  · split <;> rename_i e <;> have h1 := State.checkParts_canon _ _ _ _ _ _ _ _ _ hc _ _ e
    · exact h1.of_mem (by simp)
    · split <;> rename_i e2
      · exact Canon.of_mem (State.hostParts_done _ _ _ _ _ _ h1 _ e2) (by simp)
      · have h2 := State.hostParts_fault _ _ _ _ _ _ h1 _ _ e2
        split <;> exact h2.of_mem (by simp)
      · exact h1.of_mem (by simp)

theorem State.hostAccess_canon (s : State) (h : HostReq) :
    Canon s → Canon (State.hostAccess s h) := by
  intros; unfold State.hostAccess; grind [Canon.of_mem, State.hostRead_canon, State.hostRefuse_mem, State.hostWrite_canon]

theorem execHostMemAccess_canon (s : State) :
    Canon s → ∀ s', execHostMemAccess s = .next s' → Canon s' := by
  intro h; unfold execHostMemAccess; (repeat' (first | exact h | split | intro _ | (refine foldl_canon _ ?_ _ _ ?_ <;> intros))) <;> grind [Canon.of_mem, State.fault_mem, State.hostAccess_canon, State.modStream_mem, State.sealPkt_mem, State.taken_mem]

theorem State.putMark_canon (s : State) (pa : Nat) (w : Word) :
    Canon s → Canon (State.putMark s pa w) := by
  intros; unfold State.putMark; grind [Canon.of_mem, State.fixIn_mem, State.fixIn_canon, State.putHome_canon, State.unhold_mem]

theorem State.takeMark_canon (s : State) (ctx : Nat) (m : Nat × Bool × Nat × Nat) :
    Canon s → Canon (State.takeMark s ctx m) := by
  intros; unfold State.takeMark; grind [Canon.of_mem, State.putMark_canon]

theorem State.readPage_canon (s : State) (ctx vpn : Nat) :
    Canon s → ∀ s' o, State.readPage s ctx vpn = (s', o) → Canon s' := by
  intro h; unfold State.readPage; (repeat' (first | exact h | split | intro _ | (refine foldl_canon _ ?_ _ _ ?_ <;> intros))) <;> grind [Canon.of_mem, State.record_mem, State.xlate_canon]

theorem State.readPage_canon1 (s : State) (ctx vpn : Nat) (h : Canon s) :
    Canon (State.readPage s ctx vpn).1 := State.readPage_canon s ctx vpn h _ _ rfl

theorem State.sendPage_canon (s : State) (ctx : Nat) : Canon s → Canon (State.sendPage s ctx) := by
  intro h
  unfold State.sendPage
  split
  · exact h
  · split <;> rename_i e <;> have h1 := State.readPage_canon _ _ _ h _ _ e
    · exact h1.of_mem (by simp)
    · exact h1.of_mem rfl
    · split
      · rename_i em; refine State.markDirty_canon _ _ _ _ ?_ _ em; exact h1.of_mem rfl
      · exact h1.of_mem rfl
    · exact h1.of_mem (by simp)

theorem execPrecopyPage_canon (s : State) : Canon s → ∀ s', execPrecopyPage s = .next s' → Canon s' := by
  intro h s'
  have h0 : Canon s.taken := h.of_mem (by simp)
  unfold execPrecopyPage
  split
  case h_2 => rintro ⟨⟩
  dsimp only
  split
  · rintro ⟨⟩; exact h0.of_mem (by simp)
  split
  · rintro ⟨⟩; exact State.sendPage_canon _ _ h0
  split
  · rintro ⟨⟩; exact h0
  split <;> rintro ⟨⟩
  · split
    · exact h0.of_mem (by simp)
    · exact State.sendPage_canon _ _ (State.takeMark_canon _ _ _ h0)
  · exact h0.of_mem rfl

theorem State.pageWrite_canon (s : State) (ctx kid : Nat) (x0 : List (Nat × Nat × List Byte × BitVec 32)) :
    Canon s → (∀ s', State.pageWrite s ctx kid x0 = .done s' → Canon s') ∧ (∀ s' o, State.pageWrite s ctx kid x0 = .fault s' o → Canon s') := by
  fun_induction State.pageWrite <;> grind [Canon.of_mem, → State.engineWrite_done, → State.engineWrite_fault, State.fault_mem, State.modSector_mem]

theorem State.pageWrite_done (s : State) (ctx kid : Nat) (x0 : List (Nat × Nat × List Byte × BitVec 32)) (hs : Canon s) :
    ∀ s', State.pageWrite s ctx kid x0 = .done s' → Canon s' := (State.pageWrite_canon s ctx kid x0 hs).1

theorem State.pageWrite_fault (s : State) (ctx kid : Nat) (x0 : List (Nat × Nat × List Byte × BitVec 32)) (hs : Canon s) :
    ∀ s' o, State.pageWrite s ctx kid x0 = .fault s' o → Canon s' := (State.pageWrite_canon s ctx kid x0 hs).2

theorem execPageRecordReceive_canon (s : State) :
    Canon s → ∀ s', execPageRecordReceive s = .next s' → Canon s' := by
  intro h s'
  have h0 : Canon s.taken := h.of_mem (by simp)
  unfold execPageRecordReceive
  split
  · dsimp only
    split <;> rename_i e <;> have h1 := State.xlate_canon _ _ _ _ h0 _ _ e
    · rintro ⟨⟩; exact h1
    · split
      · rintro ⟨⟩; exact h1
      · split <;> rename_i e2
        · rintro ⟨⟩; exact State.pageWrite_done _ _ _ _ h1 _ e2
        · rintro ⟨⟩; exact State.pageWrite_fault _ _ _ _ h1 _ _ e2
        · rintro ⟨⟩; exact h1.of_mem (by simp)
  · rintro ⟨⟩

theorem execStreamSend_mem (s : State) :
    ∀ s', execStreamSend s = .next s' → s'.mem = s.mem := by
  unfold execStreamSend; grind [State.fault_mem, State.sealPkt_mem, State.taken_mem]

theorem execStreamReceive_mem (s : State) :
    ∀ s', execStreamReceive s = .next s' → s'.mem = s.mem := by
  unfold execStreamReceive; grind [State.fault_mem, State.modStream_mem, State.taken_mem]

theorem execOldKeyTimeout_mem (s : State) :
    ∀ s', execOldKeyTimeout s = .next s' → s'.mem = s.mem := by
  unfold execOldKeyTimeout; grind [State.fault_mem, State.modStream_mem, State.taken_mem]

theorem execCompletionTimeout_mem (s : State) :
    ∀ s', execCompletionTimeout s = .next s' → s'.mem = s.mem := by
  unfold execCompletionTimeout; (try dsimp only); (repeat' split) <;> simp

end Sys2Proof.Machine
end

