-- ==== Sys2Proof/Laws/KeepTrust.lean ====
section
/-!
SUPPORT. The operations of Trust.lean keep the canonical form of memory; those that write none leave it alone.
-/

-- The proofs run one after another, so that the whole package compiles within the memory a check allows.
set_option Elab.async false

namespace Sys2Proof.Machine
open Sys2Proof

@[simp] theorem State.cmdDone_mem (s : State) (i status result : Nat) :
    (State.cmdDone s i status result).mem = s.mem := by
  unfold State.cmdDone; simp

@[simp] theorem State.doorbell_mem (s : State) (i : Nat) :
    (State.doorbell s i).mem = s.mem := by
  unfold State.doorbell; grind []

@[simp] theorem State.clearAlarms_mem (s : State) (v : Word) :
    (State.clearAlarms s v).mem = s.mem := by
  rfl

@[simp] theorem State.ioWrite_mem (s : State) (gw off : Nat) (v : Word) :
    (State.ioWrite s gw off v).mem = s.mem := by
  unfold State.ioWrite; grind [State.clearAlarms_mem, State.doorbell_mem, State.gwstart_mem, State.modLq_mem]

@[simp] theorem State.regWrite_mem (s : State) (r : DevReg) (v : Word) :
    (State.regWrite s r v).mem = s.mem := by
  unfold State.regWrite; grind [State.ioWrite_mem, State.modCore_mem, State.modCtx_mem, State.modDie_mem, State.modLq_mem, State.setCsched_mem]

theorem execRegisterWrite_mem (s : State) :
    ∀ s', execRegisterWrite s = .next s' → s'.mem = s.mem := by
  unfold execRegisterWrite; grind [State.fault_mem, State.regWrite_mem, State.taken_mem]

theorem withCmd_mem (s : State) (get : Event → Option Nat) (who : Issuer) (n : Nat)
    (body : State → Nat → Option Nat → (Nat → Word) → State) (t : State)
    (hb : ∀ i o g, (body s.taken i o g).mem = s.mem) : withCmd s get who n body = .next t → t.mem = s.mem := by
  unfold withCmd; grind [State.taken_mem, State.cmdDone_mem]

theorem withCmd_canon (s : State) (get : Event → Option Nat) (who : Issuer) (n : Nat)
    (body : State → Nat → Option Nat → (Nat → Word) → State) (t : State) (h : Canon s)
    (hb : ∀ s i o g, Canon s → Canon (body s i o g)) : withCmd s get who n body = .next t → Canon t := by
  unfold withCmd; grind [Canon.of_mem, State.taken_mem, State.cmdDone_mem]

@[simp] theorem State.draw_mem (s : State) (x0 : Nat) :
    (State.draw s x0).2.mem = s.mem := by
  fun_induction State.draw <;> grind [State.free_mem]

@[simp] theorem State.scrubKeys_mem (s : State) (ids : List Nat) :
    (State.scrubKeys s ids).mem = s.mem := by
  unfold State.scrubKeys; refine foldl_mem _ (fun _ _ => ?_) _ _; (try dsimp only); (repeat' split) <;> simp

@[simp] theorem State.loadKey_mem (s : State) (kid : Nat) :
    (State.loadKey s kid).mem = s.mem := by
  unfold State.loadKey; simp

theorem execKeyLoad_mem (s : State) :
    ∀ s', execKeyLoad s = .next s' → s'.mem = s.mem := by
  unfold execKeyLoad; grind [State.fault_mem, State.taken_mem]

@[simp] theorem State.createGo_mem (s : State) (i : Nat) (troot dtroot supv flags : Word) :
    (State.createGo s i troot dtroot supv flags).mem = s.mem := by
  unfold State.createGo; grind [State.cmdDone_mem, State.draw_mem, State.loadKey_mem, State.scrubKeys_mem, State.setCtx_mem]

theorem execCreate_mem (s : State) :
    ∀ s', execCreate s = .next s' → s'.mem = s.mem := by
  unfold execCreate; grind [State.cmdDone_mem, State.createGo_mem, State.taken_mem, withCmd_mem]

theorem State.zeroCore_canon (s : State) (c : Nat) : Canon s → Canon (s.zeroCore c) := by
  intro h
  exact memZero_wf _ _ (memZero_wf _ _ h)

theorem State.joinCore_canon (s : State) (c ctx : Nat) :
    Canon s → Canon (State.joinCore s c ctx) := by
  intros; unfold State.joinCore; grind [Canon.of_mem, State.modCore_mem, State.modCtx_mem, State.setSlot_mem, State.zeroCore_canon]

theorem execAddcore_canon (s : State) :
    Canon s → ∀ s', execAddcore s = .next s' → Canon s' := by
  intro h; unfold execAddcore; (repeat' (first | exact h | split | intro _ | (refine foldl_canon _ ?_ _ _ ?_ <;> intros))) <;> grind [Canon.of_mem, State.cmdDone_mem, State.joinCore_canon, withCmd_mem, withCmd_canon]

theorem execRemcore_mem (s : State) :
    ∀ s', execRemcore s = .next s' → s'.mem = s.mem := by
  unfold execRemcore; intro s'; apply withCmd_mem; intros; (try dsimp only); (repeat' split) <;> simp

theorem execSetquota_mem (s : State) :
    ∀ s', execSetquota s = .next s' → s'.mem = s.mem := by
  unfold execSetquota; intro s'; apply withCmd_mem; intros; (try dsimp only); (repeat' split) <;> simp

theorem execGrant_mem (s : State) :
    ∀ s', execGrant s = .next s' → s'.mem = s.mem := by
  unfold execGrant; intro s'; apply withCmd_mem; intros; (try dsimp only); (repeat' split) <;> simp

@[simp] theorem State.stileWrite_mem (s : State) (c i : Nat) (v : Word) :
    (State.stileWrite s c i v).mem = s.mem := by
  unfold State.stileWrite; simp

theorem execInstall_canon (s : State) :
    Canon s → ∀ s', execInstall s = .next s' → Canon s' := by
  intro h; unfold execInstall; (repeat' (first | exact h | split | intro _ | (refine foldl_canon _ ?_ _ _ ?_ <;> intros))) <;> grind [Canon.of_mem, State.cmdDone_mem, State.install_canon, State.stileWrite_mem, withCmd_mem, withCmd_canon]

@[simp] theorem State.endStile_mem (s : State) (n : Nat) :
    (State.endStile s n).mem = s.mem := by
  unfold State.endStile; refine foldl_mem _ (fun _ _ => ?_) _ _; (try dsimp only); (repeat' split) <;> simp

theorem execRevoke_mem (s : State) :
    ∀ s', execRevoke s = .next s' → s'.mem = s.mem := by
  unfold execRevoke; grind [State.cmdDone_mem, State.endStile_mem, State.taken_mem, withCmd_mem]

theorem execSharekey_mem (s : State) :
    ∀ s', execSharekey s = .next s' → s'.mem = s.mem := by
  unfold execSharekey; grind [State.cmdDone_mem, State.draw_mem, State.loadKey_mem, State.modCtx_mem, State.scrubKeys_mem, State.taken_mem, withCmd_mem]

@[simp] theorem State.stopCtx_mem (s : State) (ctx : Nat) :
    (State.stopCtx s ctx).mem = s.mem := by
  unfold State.stopCtx; refine foldl_mem _ (fun _ _ => ?_) _ _; (try dsimp only); (repeat' split) <;> simp

theorem execStop_mem (s : State) :
    ∀ s', execStop s = .next s' → s'.mem = s.mem := by
  unfold execStop; grind [State.cmdDone_mem, State.stopCtx_mem, State.taken_mem, withCmd_mem]

@[simp] theorem State.destroyStiles_mem (s : State) (ctx : Nat) :
    (State.destroyStiles s ctx).mem = s.mem := by
  unfold State.destroyStiles; refine foldl_mem _ (fun _ _ => ?_) _ _; (try dsimp only); (repeat' split) <;> simp

@[simp] theorem State.destroyRicks_mem (s : State) (ctx : Nat) :
    (State.destroyRicks s ctx).mem = s.mem := by
  unfold State.destroyRicks; intros; (repeat' (first | split | (simp [State.revokeRick_mem]; done) | (rw [foldl_mem] <;> intros) | (simp only [State.revokeRick_mem]))) <;> grind [State.revokeRick_mem]

theorem State.destroyRest_canon (s : State) (ctx : Nat) : Canon s → Canon (s.destroyRest ctx) := by
  intro h
  have h1 := foldl_canon State.zeroCore State.zeroCore_canon (s.coresOf ctx) s h
  have h2 : Canon ((((s.coresOf ctx).foldl State.zeroCore s).destroyRicks ctx).scrubKeys (s.dyingIds ctx)) :=
    h1.of_mem (by simp)
  exact h2

theorem execDestroy_canon (s : State) :
    Canon s → ∀ s', execDestroy s = .next s' → Canon s' := by
  intro h; unfold execDestroy; (repeat' (first | exact h | split | intro _ | (refine foldl_canon _ ?_ _ _ ?_ <;> intros))) <;> grind [Canon.of_mem, State.cmdDone_mem, State.destroyRest_canon, State.destroyStiles_mem, State.modCtx_mem, State.stopCtx_mem, State.taken_mem, withCmd_mem, withCmd_canon]

theorem execExportKeys_canon (s : State) :
    Canon s → ∀ s', execExportKeys s = .next s' → Canon s' := by
  intro h; unfold execExportKeys; (repeat' (first | exact h | split | intro _ | (refine foldl_canon _ ?_ _ _ ?_ <;> intros))) <;> grind [Canon.of_mem, State.cmdDone_mem, State.draw_mem, State.modCtx_mem, State.putBytes_canon, withCmd_mem, withCmd_canon]

theorem execImportKeys_mem (s : State) :
    ∀ s', execImportKeys s = .next s' → s'.mem = s.mem := by
  unfold execImportKeys; grind [State.cmdDone_mem, State.draw_mem, State.loadKey_mem, State.modCtx_mem, State.taken_mem, withCmd_mem]

@[simp] theorem State.setRpl_mem (s : State) :
    (State.setRpl s).mem = s.mem := by
  unfold State.setRpl; grind []

@[simp] theorem State.newAttKey_mem (s : State) :
    (State.newAttKey s).mem = s.mem := by
  unfold State.newAttKey; grind [State.draw_mem, State.modDie_mem, State.setRpl_mem]

theorem execAttest_canon (s : State) :
    Canon s → ∀ s', execAttest s = .next s' → Canon s' := by
  intro h; unfold execAttest; (repeat' (first | exact h | split | intro _ | (refine foldl_canon _ ?_ _ _ ?_ <;> intros))) <;> grind [Canon.of_mem, State.cmdDone_mem, State.draw_mem, State.newAttKey_mem, State.putBytes_canon, withCmd_mem, withCmd_canon]

@[simp] theorem State.streamKeys_mem (s : State) (gw n tx rx : Nat) (early : Bool) :
    (State.streamKeys s gw n tx rx early).mem = s.mem := by
  unfold State.streamKeys; refine foldl_mem _ (fun _ _ => ?_) _ _; (try dsimp only); (repeat' split) <;> simp

theorem execStreamkey_mem (s : State) :
    ∀ s', execStreamkey s = .next s' → s'.mem = s.mem := by
  unfold execStreamkey; intro s'; apply withCmd_mem; intros; (try dsimp only); (repeat' split) <;> simp

theorem execHostmap_mem (s : State) :
    ∀ s', execHostmap s = .next s' → s'.mem = s.mem := by
  unfold execHostmap; intro s'; apply withCmd_mem; intros; (try dsimp only); (repeat' split) <;> simp

end Sys2Proof.Machine
end

