-- ==== Sys2Proof/Laws/KeepDevice.lean ====
section
/-!
SUPPORT. The operations of Device.lean keep the canonical form of memory; those that write none leave it alone.
-/

-- The proofs run one after another, so that the whole package compiles within the memory a check allows.
set_option Elab.async false

namespace Sys2Proof.Machine
open Sys2Proof

theorem execHealthClear_mem (s : State) :
    ∀ s', execHealthClear s = .next s' → s'.mem = s.mem := by
  unfold execHealthClear; grind [State.clearAlarms_mem, State.fault_mem, State.taken_mem]

theorem execMoncfgWrite_mem (s : State) :
    ∀ s', execMoncfgWrite s = .next s' → s'.mem = s.mem := by
  unfold execMoncfgWrite; grind [State.fault_mem, State.modDie_mem, State.taken_mem]

@[simp] theorem State.thrBit_mem (s : State) :
    (State.thrBit s).mem = s.mem := by
  unfold State.thrBit; simp

@[simp] theorem State.throttle_mem (s : State) (die temp : Nat) :
    (State.throttle s die temp).mem = s.mem := by
  unfold State.throttle; grind [State.alarm_mem, State.modDie_mem, State.thrBit_mem]

theorem execThermalAlarm_mem (s : State) :
    ∀ s', execThermalAlarm s = .next s' → s'.mem = s.mem := by
  unfold execThermalAlarm; grind [State.fault_mem, State.modDie_mem, State.taken_mem, State.throttle_mem]

theorem execThermalTrip_mem (s : State) :
    ∀ s', execThermalTrip s = .next s' → s'.mem = s.mem := by
  unfold execThermalTrip; grind [State.fault_mem, State.halt_mem, State.modDie_mem, State.taken_mem, State.throttle_mem]

theorem execThrottleEnd_mem (s : State) :
    ∀ s', execThrottleEnd s = .next s' → s'.mem = s.mem := by
  unfold execThrottleEnd; grind [State.fault_mem, State.modDie_mem, State.taken_mem, State.thrBit_mem]

theorem execDroop_mem (s : State) :
    ∀ s', execDroop s = .next s' → s'.mem = s.mem := by
  unfold execDroop; grind [State.alarm_mem, State.fault_mem, State.modCopse_mem, State.pageAdd_mem, State.taken_mem]

@[simp] theorem State.train_mem (s : State) (live : BitVec 16) (gws : List Nat) :
    (State.train s live gws).mem = s.mem := by
  unfold State.train; intros; (repeat' (first | split | (simp [State.modDie_mem]; done) | (rw [foldl_mem] <;> intros) | (simp only [State.modDie_mem]))) <;> grind [State.modDie_mem]

@[simp] theorem State.tables_mem (s : State) (live spare : BitVec 16) :
    (State.tables s live spare).mem = s.mem := by
  unfold State.tables; refine foldl_mem _ (fun _ _ => ?_) _ _; (try dsimp only); (repeat' split) <;> simp

theorem State.zeroAll_canon (s : State) : Canon s → Canon s.zeroAll := fun h => memZero_wf _ _ h

@[simp] theorem State.ready_mem (s : State) (live spare : BitVec 16) :
    (State.ready s live spare).mem = s.mem := by
  unfold State.ready; simp

theorem execBringUp_canon (s : State) :
    Canon s → ∀ s', execBringUp s = .next s' → Canon s' := by
  intro h; unfold execBringUp; (repeat' (first | exact h | split | intro _ | (refine foldl_canon _ ?_ _ _ ?_ <;> intros))) <;> grind [Canon.of_mem, State.fault_mem, State.ready_mem, State.tables_mem, State.taken_mem, State.train_mem, State.zeroAll_canon]

theorem State.afterReset_canon (s : State) : Canon s → Canon s.afterReset := fun h => memFilter_wf _ h

theorem execFirmwareReload_canon (s : State) :
    Canon s → ∀ s', execFirmwareReload s = .next s' → Canon s' := by
  intro h; unfold execFirmwareReload; (repeat' (first | exact h | split | intro _ | (refine foldl_canon _ ?_ _ _ ?_ <;> intros))) <;> grind [Canon.of_mem, State.afterReset_canon, State.fault_mem]

theorem execPowerCut_canon (s : State) :
    Canon s → ∀ s', execPowerCut s = .next s' → Canon s' := by
  intro h; unfold execPowerCut; (repeat' (first | exact h | split | intro _ | (refine foldl_canon _ ?_ _ _ ?_ <;> intros))) <;> grind [Canon.of_mem, State.afterReset_canon, State.fault_mem]

end Sys2Proof.Machine
end

