-- ==== Sys2Proof/Laws/KeepInt.lean ====
section
/-!
SUPPORT. The operations of Int.lean keep the canonical form of memory; those that write none leave it alone.
-/

-- The proofs run one after another, so that the whole package compiles within the memory a check allows.
set_option Elab.async false

namespace Sys2Proof.Machine
open Sys2Proof

theorem execMov_mem (f : Form) (s : State) :
    ∀ s', execMov f s = .next s' → s'.mem = s.mem := by
  unfold execMov; intro s'; apply issueRaw_mem; intros; (try dsimp only); (repeat' split) <;> grind [State.emit_mem, issueRaw_mem]

theorem execConst_mem (f : Form) (s : State) :
    ∀ s', execConst f s = .next s' → s'.mem = s.mem := by
  unfold execConst; intro s'; apply issue_mem; intros; (try dsimp only); (repeat' split) <;> grind [State.emit_mem, issue_mem]

theorem execNull_mem (f : Form) (s : State) :
    ∀ s', execNull f s = .next s' → s'.mem = s.mem := by
  unfold execNull; intro s'; apply issueRaw_mem; intros; (try dsimp only); (repeat' split) <;> grind [State.emit_mem, issueRaw_mem]

theorem execAdd_mem (f : Form) (s : State) :
    ∀ s', execAdd f s = .next s' → s'.mem = s.mem := by
  unfold execAdd; grind [scalar2_mem]

theorem execSub_mem (f : Form) (s : State) :
    ∀ s', execSub f s = .next s' → s'.mem = s.mem := by
  unfold execSub; grind [scalar2_mem]

theorem execMul_mem (f : Form) (s : State) :
    ∀ s', execMul f s = .next s' → s'.mem = s.mem := by
  unfold execMul; grind [scalar2_mem]

theorem execAnd_mem (f : Form) (s : State) :
    ∀ s', execAnd f s = .next s' → s'.mem = s.mem := by
  unfold execAnd; grind [scalar2_mem]

theorem execOr_mem (f : Form) (s : State) :
    ∀ s', execOr f s = .next s' → s'.mem = s.mem := by
  unfold execOr; grind [scalar2_mem]

theorem execXor_mem (f : Form) (s : State) :
    ∀ s', execXor f s = .next s' → s'.mem = s.mem := by
  unfold execXor; grind [scalar2_mem]

theorem execAndn_mem (f : Form) (s : State) :
    ∀ s', execAndn f s = .next s' → s'.mem = s.mem := by
  unfold execAndn; grind [scalar2_mem]

theorem execNot_mem (f : Form) (s : State) :
    ∀ s', execNot f s = .next s' → s'.mem = s.mem := by
  unfold execNot; grind [scalar1_mem]

theorem execShl_mem (f : Form) (s : State) :
    ∀ s', execShl f s = .next s' → s'.mem = s.mem := by
  unfold execShl; grind [scalar2_mem]

theorem execShr_mem (f : Form) (s : State) :
    ∀ s', execShr f s = .next s' → s'.mem = s.mem := by
  unfold execShr; grind [scalar2_mem]

theorem execSar_mem (f : Form) (s : State) :
    ∀ s', execSar f s = .next s' → s'.mem = s.mem := by
  unfold execSar; grind [scalar2_mem]

theorem execSel_mem (f : Form) (s : State) :
    ∀ s', execSel f s = .next s' → s'.mem = s.mem := by
  unfold execSel; grind [scalar3_mem]

theorem execTeq_mem (f : Form) (s : State) :
    ∀ s', execTeq f s = .next s' → s'.mem = s.mem := by
  unfold execTeq; grind [scalar2_mem]

theorem execTne_mem (f : Form) (s : State) :
    ∀ s', execTne f s = .next s' → s'.mem = s.mem := by
  unfold execTne; grind [scalar2_mem]

theorem execTlt_mem (f : Form) (s : State) :
    ∀ s', execTlt f s = .next s' → s'.mem = s.mem := by
  unfold execTlt; grind [scalar2_mem]

theorem execTle_mem (f : Form) (s : State) :
    ∀ s', execTle f s = .next s' → s'.mem = s.mem := by
  unfold execTle; grind [scalar2_mem]

theorem execTltu_mem (f : Form) (s : State) :
    ∀ s', execTltu f s = .next s' → s'.mem = s.mem := by
  unfold execTltu; grind [scalar2_mem]

theorem execTleu_mem (f : Form) (s : State) :
    ∀ s', execTleu f s = .next s' → s'.mem = s.mem := by
  unfold execTleu; grind [scalar2_mem]

theorem execPand_mem (f : Form) (s : State) :
    ∀ s', execPand f s = .next s' → s'.mem = s.mem := by
  unfold execPand; grind [scalar2_mem]

theorem execPor_mem (f : Form) (s : State) :
    ∀ s', execPor f s = .next s' → s'.mem = s.mem := by
  unfold execPor; grind [scalar2_mem]

theorem execPnot_mem (f : Form) (s : State) :
    ∀ s', execPnot f s = .next s' → s'.mem = s.mem := by
  unfold execPnot; grind [scalar1_mem]

theorem execBr_mem (f : Form) (s : State) :
    ∀ s', execBr f s = .next s' → s'.mem = s.mem := by
  unfold execBr; intro s'; apply issue_mem; intros; (try dsimp only); (repeat' split) <;> grind [State.exitTo_mem, issue_mem]

theorem execBri_mem (f : Form) (s : State) :
    ∀ s', execBri f s = .next s' → s'.mem = s.mem := by
  unfold execBri; intro s'; apply issue_mem; intros; (try dsimp only); (repeat' split) <;> grind [State.exitTo_mem, issue_mem]

theorem execCall_mem (f : Form) (s : State) :
    ∀ s', execCall f s = .next s' → s'.mem = s.mem := by
  unfold execCall; intro s'; apply issue_mem; intros; (try dsimp only); (repeat' split) <;> grind [State.exitTo_mem, issue_mem]

theorem execRet_mem (f : Form) (s : State) :
    ∀ s', execRet f s = .next s' → s'.mem = s.mem := by
  unfold execRet; intro s'; apply issue_mem; intros; (try dsimp only); (repeat' split) <;> grind [State.exitTo_mem, issue_mem]

theorem execExit_mem (f : Form) (s : State) :
    ∀ s', execExit f s = .next s' → s'.mem = s.mem := by
  unfold execExit; intro s'; apply issue_mem; intros; (try dsimp only); (repeat' split) <;> grind [State.exitTo_mem, issue_mem]

theorem execMulh_mem (f : Form) (s : State) :
    ∀ s', execMulh f s = .next s' → s'.mem = s.mem := by
  unfold execMulh; grind [scalar2_mem]

theorem execMulhu_mem (f : Form) (s : State) :
    ∀ s', execMulhu f s = .next s' → s'.mem = s.mem := by
  unfold execMulhu; grind [scalar2_mem]

theorem execDiv_mem (f : Form) (s : State) :
    ∀ s', execDiv f s = .next s' → s'.mem = s.mem := by
  unfold execDiv; grind [scalar2_mem]

theorem execDivu_mem (f : Form) (s : State) :
    ∀ s', execDivu f s = .next s' → s'.mem = s.mem := by
  unfold execDivu; grind [scalar2_mem]

theorem execRem_mem (f : Form) (s : State) :
    ∀ s', execRem f s = .next s' → s'.mem = s.mem := by
  unfold execRem; grind [scalar2_mem]

theorem execRemu_mem (f : Form) (s : State) :
    ∀ s', execRemu f s = .next s' → s'.mem = s.mem := by
  unfold execRemu; grind [scalar2_mem]

theorem execRot_mem (f : Form) (s : State) :
    ∀ s', execRot f s = .next s' → s'.mem = s.mem := by
  unfold execRot; grind [scalar2_mem]

theorem execMin_mem (f : Form) (s : State) :
    ∀ s', execMin f s = .next s' → s'.mem = s.mem := by
  unfold execMin; grind [scalar2_mem]

theorem execMax_mem (f : Form) (s : State) :
    ∀ s', execMax f s = .next s' → s'.mem = s.mem := by
  unfold execMax; grind [scalar2_mem]

theorem execMinu_mem (f : Form) (s : State) :
    ∀ s', execMinu f s = .next s' → s'.mem = s.mem := by
  unfold execMinu; grind [scalar2_mem]

theorem execMaxu_mem (f : Form) (s : State) :
    ∀ s', execMaxu f s = .next s' → s'.mem = s.mem := by
  unfold execMaxu; grind [scalar2_mem]

theorem execAbs_mem (f : Form) (s : State) :
    ∀ s', execAbs f s = .next s' → s'.mem = s.mem := by
  unfold execAbs; grind [scalar1_mem]

theorem execNeg_mem (f : Form) (s : State) :
    ∀ s', execNeg f s = .next s' → s'.mem = s.mem := by
  unfold execNeg; grind [scalar1_mem]

theorem execClz_mem (f : Form) (s : State) :
    ∀ s', execClz f s = .next s' → s'.mem = s.mem := by
  unfold execClz; grind [scalar1_mem]

theorem execCtz_mem (f : Form) (s : State) :
    ∀ s', execCtz f s = .next s' → s'.mem = s.mem := by
  unfold execCtz; grind [scalar1_mem]

theorem execPopc_mem (f : Form) (s : State) :
    ∀ s', execPopc f s = .next s' → s'.mem = s.mem := by
  unfold execPopc; grind [scalar1_mem]

theorem execBrev_mem (f : Form) (s : State) :
    ∀ s', execBrev f s = .next s' → s'.mem = s.mem := by
  unfold execBrev; grind [scalar1_mem]

theorem execSext_mem (f : Form) (s : State) :
    ∀ s', execSext f s = .next s' → s'.mem = s.mem := by
  unfold execSext; grind [scalar1_mem]

theorem execZext_mem (f : Form) (s : State) :
    ∀ s', execZext f s = .next s' → s'.mem = s.mem := by
  unfold execZext; grind [scalar1_mem]

theorem execQdig_mem (f : Form) (s : State) :
    ∀ s', execQdig f s = .next s' → s'.mem = s.mem := by
  unfold execQdig; grind [scalar2_mem]

theorem execQset_mem (f : Form) (s : State) :
    ∀ s', execQset f s = .next s' → s'.mem = s.mem := by
  unfold execQset; grind [scalar3_mem]

theorem execQtrunc_mem (f : Form) (s : State) :
    ∀ s', execQtrunc f s = .next s' → s'.mem = s.mem := by
  unfold execQtrunc; grind [scalar2_mem]

theorem execQparent_mem (f : Form) (s : State) :
    ∀ s', execQparent f s = .next s' → s'.mem = s.mem := by
  unfold execQparent; grind [scalar1_mem]

theorem execQchild_mem (f : Form) (s : State) :
    ∀ s', execQchild f s = .next s' → s'.mem = s.mem := by
  unfold execQchild; grind [scalar2_mem]

theorem execQinter_mem (f : Form) (s : State) :
    ∀ s', execQinter f s = .next s' → s'.mem = s.mem := by
  unfold execQinter; grind [scalar2_mem]

theorem execQsplit_mem (f : Form) (s : State) :
    ∀ s', execQsplit f s = .next s' → s'.mem = s.mem := by
  unfold execQsplit; intro s'; apply issue_mem; intros; (try dsimp only); (repeat' split) <;> grind [State.emit2_mem, issue_mem]

theorem execQdepth_mem (f : Form) (s : State) :
    ∀ s', execQdepth f s = .next s' → s'.mem = s.mem := by
  unfold execQdepth; grind [scalar2_mem]

theorem execQnext_mem (f : Form) (s : State) :
    ∀ s', execQnext f s = .next s' → s'.mem = s.mem := by
  unfold execQnext; grind [scalar2_mem]

end Sys2Proof.Machine
end

