-- ==== Sys2Proof/Laws/PerInstr.lean ====
section
/-!
SUPPORT. Per instruction: its row of the tables and the opcode lookup agree, and a step of the device has no encoding.
-/

-- The proofs run one after another, so that the whole package compiles within the memory a check allows.
set_option Elab.async false

namespace Sys2Proof.Laws.Row
open Sys2Proof

/-- The row of a well-formed sheaf instruction names a page and an OP whose lookup gives that instruction; a step of the
device is written by no syllable (R213, R214, R216). -/
def Statement (i : Instr) : Prop :=
  match i.info, i.form with
  | some n, some f => n.page < 9 ∧ n.op < 63 ∧ (i.wellFormed = true → opcode n.page n.op f = some i)
  | none, none => encode i = []
  | _, _ => False

/-- A well-formed instruction has the follow mode that its name says (R203, R213). -/
theorem followOk_of_wellFormed {i : Instr} {n : Info} {f : Form} (hn : i.info = some n) (hf : i.form = some f)
    (h : i.wellFormed = true) : i.followOk = true := by
  simp only [Instr.wellFormed, hn, hf, Bool.and_eq_true] at h
  exact h.1.1.1.1.2

/-- Without follow mode page 0 is looked up by OP alone (R213). -/
theorem page0 {f : Form} (op : Nat) (h : (!(f.lsq.any (·.2))) = true) : opcode 0 op f = opcode.pick f opPage0 op := by
  unfold opcode
  match hl : f.lsq with
  | none => rfl
  | some (n, false) => rfl
  | some (n, true) => simp [hl] at h

/-- In follow mode the eight LDs are LDFs (R213). -/
theorem page0_follow {f : Form} (k : LdForm) (h : (f.lsq.any (·.2)) = true) :
    opcode 0 (0x20 + k.index) f = some (.ldf k f) := by
  unfold opcode
  match hl : f.lsq with
  | none => simp [hl] at h
  | some (n, false) => simp [hl] at h
  | some (n, true) => cases k <;> rfl

/-- SUB names SEND or SEND.ord (R216). -/
theorem sub_of_wellFormed {i : Instr} {n : Info} {f : Form} (hn : i.info = some n) (hf : i.form = some f)
    (h : i.wellFormed = true) : n.sub.ok f.sub = true := by
  simp only [Instr.wellFormed, hn, hf, Bool.and_eq_true] at h
  exact h.1.1.1.1.1.1.1.1.1.1.1.2

theorem read (f : Form) : Statement (.read f) :=
  ⟨show 0 < 9 by decide, show 0 < 63 by decide, fun h => (page0 _ (followOk_of_wellFormed (i := .read f) rfl rfl h)).trans rfl⟩

theorem write (f : Form) : Statement (.write f) :=
  ⟨show 0 < 9 by decide, show 1 < 63 by decide, fun h => (page0 _ (followOk_of_wellFormed (i := .write f) rfl rfl h)).trans rfl⟩

theorem mov (f : Form) : Statement (.mov f) :=
  ⟨by decide, by decide, fun h => (page0 _ (followOk_of_wellFormed (i := .mov f) rfl rfl h)).trans rfl⟩

theorem const (f : Form) : Statement (.const f) :=
  ⟨by decide, by decide, fun h => (page0 _ (followOk_of_wellFormed (i := .const f) rfl rfl h)).trans rfl⟩

theorem null (f : Form) : Statement (.null f) :=
  ⟨by decide, by decide, fun h => (page0 _ (followOk_of_wellFormed (i := .null f) rfl rfl h)).trans rfl⟩

theorem add (f : Form) : Statement (.add f) :=
  ⟨by decide, by decide, fun h => (page0 _ (followOk_of_wellFormed (i := .add f) rfl rfl h)).trans rfl⟩

theorem sub (f : Form) : Statement (.sub f) :=
  ⟨by decide, by decide, fun h => (page0 _ (followOk_of_wellFormed (i := .sub f) rfl rfl h)).trans rfl⟩

theorem mul (f : Form) : Statement (.mul f) :=
  ⟨by decide, by decide, fun h => (page0 _ (followOk_of_wellFormed (i := .mul f) rfl rfl h)).trans rfl⟩

theorem and (f : Form) : Statement (.and f) :=
  ⟨by decide, by decide, fun h => (page0 _ (followOk_of_wellFormed (i := .and f) rfl rfl h)).trans rfl⟩

theorem or (f : Form) : Statement (.or f) :=
  ⟨by decide, by decide, fun h => (page0 _ (followOk_of_wellFormed (i := .or f) rfl rfl h)).trans rfl⟩

theorem xor (f : Form) : Statement (.xor f) :=
  ⟨by decide, by decide, fun h => (page0 _ (followOk_of_wellFormed (i := .xor f) rfl rfl h)).trans rfl⟩

theorem andn (f : Form) : Statement (.andn f) :=
  ⟨by decide, by decide, fun h => (page0 _ (followOk_of_wellFormed (i := .andn f) rfl rfl h)).trans rfl⟩

theorem not (f : Form) : Statement (.not f) :=
  ⟨by decide, by decide, fun h => (page0 _ (followOk_of_wellFormed (i := .not f) rfl rfl h)).trans rfl⟩

theorem shl (f : Form) : Statement (.shl f) :=
  ⟨by decide, by decide, fun h => (page0 _ (followOk_of_wellFormed (i := .shl f) rfl rfl h)).trans rfl⟩

theorem shr (f : Form) : Statement (.shr f) :=
  ⟨by decide, by decide, fun h => (page0 _ (followOk_of_wellFormed (i := .shr f) rfl rfl h)).trans rfl⟩

theorem sar (f : Form) : Statement (.sar f) :=
  ⟨by decide, by decide, fun h => (page0 _ (followOk_of_wellFormed (i := .sar f) rfl rfl h)).trans rfl⟩

theorem sel (f : Form) : Statement (.sel f) :=
  ⟨by decide, by decide, fun h => (page0 _ (followOk_of_wellFormed (i := .sel f) rfl rfl h)).trans rfl⟩

theorem teq (f : Form) : Statement (.teq f) :=
  ⟨by decide, by decide, fun h => (page0 _ (followOk_of_wellFormed (i := .teq f) rfl rfl h)).trans rfl⟩

theorem tne (f : Form) : Statement (.tne f) :=
  ⟨by decide, by decide, fun h => (page0 _ (followOk_of_wellFormed (i := .tne f) rfl rfl h)).trans rfl⟩

theorem tlt (f : Form) : Statement (.tlt f) :=
  ⟨by decide, by decide, fun h => (page0 _ (followOk_of_wellFormed (i := .tlt f) rfl rfl h)).trans rfl⟩

theorem tle (f : Form) : Statement (.tle f) :=
  ⟨by decide, by decide, fun h => (page0 _ (followOk_of_wellFormed (i := .tle f) rfl rfl h)).trans rfl⟩

theorem tltu (f : Form) : Statement (.tltu f) :=
  ⟨by decide, by decide, fun h => (page0 _ (followOk_of_wellFormed (i := .tltu f) rfl rfl h)).trans rfl⟩

theorem tleu (f : Form) : Statement (.tleu f) :=
  ⟨by decide, by decide, fun h => (page0 _ (followOk_of_wellFormed (i := .tleu f) rfl rfl h)).trans rfl⟩

theorem pand (f : Form) : Statement (.pand f) :=
  ⟨by decide, by decide, fun h => (page0 _ (followOk_of_wellFormed (i := .pand f) rfl rfl h)).trans rfl⟩

theorem por (f : Form) : Statement (.por f) :=
  ⟨by decide, by decide, fun h => (page0 _ (followOk_of_wellFormed (i := .por f) rfl rfl h)).trans rfl⟩

theorem pnot (f : Form) : Statement (.pnot f) :=
  ⟨by decide, by decide, fun h => (page0 _ (followOk_of_wellFormed (i := .pnot f) rfl rfl h)).trans rfl⟩

theorem br (f : Form) : Statement (.br f) :=
  ⟨by decide, by decide, fun h => (page0 _ (followOk_of_wellFormed (i := .br f) rfl rfl h)).trans rfl⟩

theorem bri (f : Form) : Statement (.bri f) :=
  ⟨by decide, by decide, fun h => (page0 _ (followOk_of_wellFormed (i := .bri f) rfl rfl h)).trans rfl⟩

theorem call (f : Form) : Statement (.call f) :=
  ⟨by decide, by decide, fun h => (page0 _ (followOk_of_wellFormed (i := .call f) rfl rfl h)).trans rfl⟩

theorem ret (f : Form) : Statement (.ret f) :=
  ⟨by decide, by decide, fun h => (page0 _ (followOk_of_wellFormed (i := .ret f) rfl rfl h)).trans rfl⟩

theorem exit (f : Form) : Statement (.exit f) :=
  ⟨by decide, by decide, fun h => (page0 _ (followOk_of_wellFormed (i := .exit f) rfl rfl h)).trans rfl⟩

theorem ldB (f : Form) : Statement (.ldB f) :=
  ⟨by decide, by decide, fun h => (page0 _ (followOk_of_wellFormed (i := .ldB f) rfl rfl h)).trans rfl⟩

theorem ldBu (f : Form) : Statement (.ldBu f) :=
  ⟨by decide, by decide, fun h => (page0 _ (followOk_of_wellFormed (i := .ldBu f) rfl rfl h)).trans rfl⟩

theorem ldH (f : Form) : Statement (.ldH f) :=
  ⟨by decide, by decide, fun h => (page0 _ (followOk_of_wellFormed (i := .ldH f) rfl rfl h)).trans rfl⟩

theorem ldHu (f : Form) : Statement (.ldHu f) :=
  ⟨by decide, by decide, fun h => (page0 _ (followOk_of_wellFormed (i := .ldHu f) rfl rfl h)).trans rfl⟩

theorem ldW (f : Form) : Statement (.ldW f) :=
  ⟨by decide, by decide, fun h => (page0 _ (followOk_of_wellFormed (i := .ldW f) rfl rfl h)).trans rfl⟩

theorem ldWu (f : Form) : Statement (.ldWu f) :=
  ⟨by decide, by decide, fun h => (page0 _ (followOk_of_wellFormed (i := .ldWu f) rfl rfl h)).trans rfl⟩

theorem ldD (f : Form) : Statement (.ldD f) :=
  ⟨by decide, by decide, fun h => (page0 _ (followOk_of_wellFormed (i := .ldD f) rfl rfl h)).trans rfl⟩

theorem ldQ (f : Form) : Statement (.ldQ f) :=
  ⟨by decide, by decide, fun h => (page0 _ (followOk_of_wellFormed (i := .ldQ f) rfl rfl h)).trans rfl⟩

theorem ldf (k : LdForm) (f : Form) : Statement (.ldf k f) :=
  ⟨show 0 < 9 by decide, by cases k <;> decide, fun h => page0_follow k (followOk_of_wellFormed (i := .ldf k f) rfl rfl h)⟩

theorem stB (f : Form) : Statement (.stB f) :=
  ⟨by decide, by decide, fun h => (page0 _ (followOk_of_wellFormed (i := .stB f) rfl rfl h)).trans rfl⟩

theorem stH (f : Form) : Statement (.stH f) :=
  ⟨by decide, by decide, fun h => (page0 _ (followOk_of_wellFormed (i := .stH f) rfl rfl h)).trans rfl⟩

theorem stW (f : Form) : Statement (.stW f) :=
  ⟨by decide, by decide, fun h => (page0 _ (followOk_of_wellFormed (i := .stW f) rfl rfl h)).trans rfl⟩

theorem stD (f : Form) : Statement (.stD f) :=
  ⟨by decide, by decide, fun h => (page0 _ (followOk_of_wellFormed (i := .stD f) rfl rfl h)).trans rfl⟩

theorem stQ (f : Form) : Statement (.stQ f) :=
  ⟨by decide, by decide, fun h => (page0 _ (followOk_of_wellFormed (i := .stQ f) rfl rfl h)).trans rfl⟩

theorem ldv (f : Form) : Statement (.ldv f) :=
  ⟨by decide, by decide, fun h => (page0 _ (followOk_of_wellFormed (i := .ldv f) rfl rfl h)).trans rfl⟩

theorem stv (f : Form) : Statement (.stv f) :=
  ⟨by decide, by decide, fun h => (page0 _ (followOk_of_wellFormed (i := .stv f) rfl rfl h)).trans rfl⟩

theorem qld (f : Form) : Statement (.qld f) :=
  ⟨show 0 < 9 by decide, show 47 < 63 by decide, fun h => (page0 _ (followOk_of_wellFormed (i := .qld f) rfl rfl h)).trans rfl⟩

theorem qst (f : Form) : Statement (.qst f) :=
  ⟨show 0 < 9 by decide, show 48 < 63 by decide, fun h => (page0 _ (followOk_of_wellFormed (i := .qst f) rfl rfl h)).trans rfl⟩

theorem mulh (f : Form) : Statement (.mulh f) := ⟨by decide, by decide, fun _ => rfl⟩

theorem mulhu (f : Form) : Statement (.mulhu f) := ⟨by decide, by decide, fun _ => rfl⟩

theorem div (f : Form) : Statement (.div f) := ⟨by decide, by decide, fun _ => rfl⟩

theorem divu (f : Form) : Statement (.divu f) := ⟨by decide, by decide, fun _ => rfl⟩

theorem rem (f : Form) : Statement (.rem f) := ⟨by decide, by decide, fun _ => rfl⟩

theorem remu (f : Form) : Statement (.remu f) := ⟨by decide, by decide, fun _ => rfl⟩

theorem rot (f : Form) : Statement (.rot f) := ⟨by decide, by decide, fun _ => rfl⟩

theorem min (f : Form) : Statement (.min f) := ⟨by decide, by decide, fun _ => rfl⟩

theorem max (f : Form) : Statement (.max f) := ⟨by decide, by decide, fun _ => rfl⟩

theorem minu (f : Form) : Statement (.minu f) := ⟨by decide, by decide, fun _ => rfl⟩

theorem maxu (f : Form) : Statement (.maxu f) := ⟨by decide, by decide, fun _ => rfl⟩

theorem abs (f : Form) : Statement (.abs f) := ⟨by decide, by decide, fun _ => rfl⟩

theorem neg (f : Form) : Statement (.neg f) := ⟨by decide, by decide, fun _ => rfl⟩

theorem clz (f : Form) : Statement (.clz f) := ⟨by decide, by decide, fun _ => rfl⟩

theorem ctz (f : Form) : Statement (.ctz f) := ⟨by decide, by decide, fun _ => rfl⟩

theorem popc (f : Form) : Statement (.popc f) := ⟨by decide, by decide, fun _ => rfl⟩

theorem brev (f : Form) : Statement (.brev f) := ⟨by decide, by decide, fun _ => rfl⟩

theorem sext (f : Form) : Statement (.sext f) := ⟨by decide, by decide, fun _ => rfl⟩

theorem zext (f : Form) : Statement (.zext f) := ⟨by decide, by decide, fun _ => rfl⟩

theorem qdig (f : Form) : Statement (.qdig f) := ⟨by decide, by decide, fun _ => rfl⟩

theorem qset (f : Form) : Statement (.qset f) := ⟨by decide, by decide, fun _ => rfl⟩

theorem qtrunc (f : Form) : Statement (.qtrunc f) := ⟨by decide, by decide, fun _ => rfl⟩

theorem qparent (f : Form) : Statement (.qparent f) := ⟨by decide, by decide, fun _ => rfl⟩

theorem qchild (f : Form) : Statement (.qchild f) := ⟨by decide, by decide, fun _ => rfl⟩

theorem qinter (f : Form) : Statement (.qinter f) := ⟨by decide, by decide, fun _ => rfl⟩

theorem qsplit (f : Form) : Statement (.qsplit f) := ⟨by decide, by decide, fun _ => rfl⟩

theorem qdepth (f : Form) : Statement (.qdepth f) := ⟨by decide, by decide, fun _ => rfl⟩

theorem qnext (f : Form) : Statement (.qnext f) := ⟨by decide, by decide, fun _ => rfl⟩

theorem amadd (f : Form) : Statement (.amadd f) := ⟨by decide, by decide, fun _ => rfl⟩

theorem amand (f : Form) : Statement (.amand f) := ⟨by decide, by decide, fun _ => rfl⟩

theorem amor (f : Form) : Statement (.amor f) := ⟨by decide, by decide, fun _ => rfl⟩

theorem amxor (f : Form) : Statement (.amxor f) := ⟨by decide, by decide, fun _ => rfl⟩

theorem ammin (f : Form) : Statement (.ammin f) := ⟨by decide, by decide, fun _ => rfl⟩

theorem ammax (f : Form) : Statement (.ammax f) := ⟨by decide, by decide, fun _ => rfl⟩

theorem amminu (f : Form) : Statement (.amminu f) := ⟨by decide, by decide, fun _ => rfl⟩

theorem ammaxu (f : Form) : Statement (.ammaxu f) := ⟨by decide, by decide, fun _ => rfl⟩

theorem amswap (f : Form) : Statement (.amswap f) := ⟨by decide, by decide, fun _ => rfl⟩

theorem amcas (f : Form) : Statement (.amcas f) := ⟨by decide, by decide, fun _ => rfl⟩

theorem amaddf (f : Form) : Statement (.amaddf f) := ⟨by decide, by decide, fun _ => rfl⟩

theorem redadd (f : Form) : Statement (.redadd f) := ⟨by decide, by decide, fun _ => rfl⟩

theorem redmin (f : Form) : Statement (.redmin f) := ⟨by decide, by decide, fun _ => rfl⟩

theorem redmax (f : Form) : Statement (.redmax f) := ⟨by decide, by decide, fun _ => rfl⟩

theorem redand (f : Form) : Statement (.redand f) := ⟨by decide, by decide, fun _ => rfl⟩

theorem redor (f : Form) : Statement (.redor f) := ⟨by decide, by decide, fun _ => rfl⟩

theorem redxor (f : Form) : Statement (.redxor f) := ⟨by decide, by decide, fun _ => rfl⟩

theorem redaddf (f : Form) : Statement (.redaddf f) := ⟨by decide, by decide, fun _ => rfl⟩

theorem gath (f : Form) : Statement (.gath f) := ⟨by decide, by decide, fun _ => rfl⟩

theorem fence (f : Form) : Statement (.fence f) := ⟨by decide, by decide, fun _ => rfl⟩

theorem xfence (f : Form) : Statement (.xfence f) := ⟨by decide, by decide, fun _ => rfl⟩

theorem watch (f : Form) : Statement (.watch f) := ⟨by decide, by decide, fun _ => rfl⟩

theorem unwatch (f : Form) : Statement (.unwatch f) := ⟨by decide, by decide, fun _ => rfl⟩

theorem stw (f : Form) : Statement (.stw f) := ⟨by decide, by decide, fun _ => rfl⟩

theorem protb (f : Form) : Statement (.protb f) := ⟨by decide, by decide, fun _ => rfl⟩

theorem vadd (f : Form) : Statement (.vadd f) := ⟨by decide, by decide, fun _ => rfl⟩

theorem vsub (f : Form) : Statement (.vsub f) := ⟨by decide, by decide, fun _ => rfl⟩

theorem vmul (f : Form) : Statement (.vmul f) := ⟨by decide, by decide, fun _ => rfl⟩

theorem vfma (f : Form) : Statement (.vfma f) := ⟨by decide, by decide, fun _ => rfl⟩

theorem vfms (f : Form) : Statement (.vfms f) := ⟨by decide, by decide, fun _ => rfl⟩

theorem vmin (f : Form) : Statement (.vmin f) := ⟨by decide, by decide, fun _ => rfl⟩

theorem vmax (f : Form) : Statement (.vmax f) := ⟨by decide, by decide, fun _ => rfl⟩

theorem vabs (f : Form) : Statement (.vabs f) := ⟨by decide, by decide, fun _ => rfl⟩

theorem vneg (f : Form) : Statement (.vneg f) := ⟨by decide, by decide, fun _ => rfl⟩

theorem vrcp (f : Form) : Statement (.vrcp f) := ⟨by decide, by decide, fun _ => rfl⟩

theorem vrsq (f : Form) : Statement (.vrsq f) := ⟨by decide, by decide, fun _ => rfl⟩

theorem vexp2 (f : Form) : Statement (.vexp2 f) := ⟨by decide, by decide, fun _ => rfl⟩

theorem vlog2 (f : Form) : Statement (.vlog2 f) := ⟨by decide, by decide, fun _ => rfl⟩

theorem vand (f : Form) : Statement (.vand f) := ⟨by decide, by decide, fun _ => rfl⟩

theorem vor (f : Form) : Statement (.vor f) := ⟨by decide, by decide, fun _ => rfl⟩

theorem vxor (f : Form) : Statement (.vxor f) := ⟨by decide, by decide, fun _ => rfl⟩

theorem vshl (f : Form) : Statement (.vshl f) := ⟨by decide, by decide, fun _ => rfl⟩

theorem vshr (f : Form) : Statement (.vshr f) := ⟨by decide, by decide, fun _ => rfl⟩

theorem vsar (f : Form) : Statement (.vsar f) := ⟨by decide, by decide, fun _ => rfl⟩

theorem vcmp (f : Form) : Statement (.vcmp f) := ⟨by decide, by decide, fun _ => rfl⟩

theorem vsel (f : Form) : Statement (.vsel f) := ⟨by decide, by decide, fun _ => rfl⟩

theorem vredsum (f : Form) : Statement (.vredsum f) := ⟨by decide, by decide, fun _ => rfl⟩

theorem vredmax (f : Form) : Statement (.vredmax f) := ⟨by decide, by decide, fun _ => rfl⟩

theorem vdot (f : Form) : Statement (.vdot f) := ⟨by decide, by decide, fun _ => rfl⟩

theorem vcvt (f : Form) : Statement (.vcvt f) := ⟨by decide, by decide, fun _ => rfl⟩

theorem vscale (f : Form) : Statement (.vscale f) := ⟨by decide, by decide, fun _ => rfl⟩

theorem vpack (f : Form) : Statement (.vpack f) := ⟨by decide, by decide, fun _ => rfl⟩

theorem vunpack (f : Form) : Statement (.vunpack f) := ⟨by decide, by decide, fun _ => rfl⟩

theorem vperm (f : Form) : Statement (.vperm f) := ⟨by decide, by decide, fun _ => rfl⟩

theorem vbcast (f : Form) : Statement (.vbcast f) := ⟨by decide, by decide, fun _ => rfl⟩

theorem vins (f : Form) : Statement (.vins f) := ⟨by decide, by decide, fun _ => rfl⟩

theorem vext (f : Form) : Statement (.vext f) := ⟨by decide, by decide, fun _ => rfl⟩

theorem vqshuf (f : Form) : Statement (.vqshuf f) := ⟨by decide, by decide, fun _ => rfl⟩

theorem vtrn (f : Form) : Statement (.vtrn f) := ⟨by decide, by decide, fun _ => rfl⟩

theorem viota (f : Form) : Statement (.viota f) := ⟨by decide, by decide, fun _ => rfl⟩

theorem rkalloc (f : Form) : Statement (.rkalloc f) := ⟨by decide, by decide, fun _ => rfl⟩

theorem rkfill (f : Form) : Statement (.rkfill f) := ⟨by decide, by decide, fun _ => rfl⟩

theorem rkpin (f : Form) : Statement (.rkpin f) := ⟨by decide, by decide, fun _ => rfl⟩

theorem rkunpin (f : Form) : Statement (.rkunpin f) := ⟨by decide, by decide, fun _ => rfl⟩

theorem rkrev (f : Form) : Statement (.rkrev f) := ⟨by decide, by decide, fun _ => rfl⟩

theorem rkqry (f : Form) : Statement (.rkqry f) := ⟨by decide, by decide, fun _ => rfl⟩

theorem mma (f : Form) : Statement (.mma f) := ⟨by decide, by decide, fun _ => rfl⟩

theorem mmaz (f : Form) : Statement (.mmaz f) := ⟨by decide, by decide, fun _ => rfl⟩

theorem mdrain (f : Form) : Statement (.mdrain f) := ⟨by decide, by decide, fun _ => rfl⟩

theorem mring (f : Form) : Statement (.mring f) := ⟨by decide, by decide, fun _ => rfl⟩

theorem mtail (f : Form) : Statement (.mtail f) := ⟨by decide, by decide, fun _ => rfl⟩

theorem mcnt (f : Form) : Statement (.mcnt f) := ⟨by decide, by decide, fun _ => rfl⟩

theorem mthr (f : Form) : Statement (.mthr f) := ⟨by decide, by decide, fun _ => rfl⟩

theorem mwgt (f : Form) : Statement (.mwgt f) := ⟨by decide, by decide, fun _ => rfl⟩

theorem mbxw (f : Form) : Statement (.mbxw f) := ⟨by decide, by decide, fun _ => rfl⟩

theorem mbxr (f : Form) : Statement (.mbxr f) := ⟨by decide, by decide, fun _ => rfl⟩

theorem copy (f : Form) : Statement (.copy f) := ⟨by decide, by decide, fun _ => rfl⟩

theorem waitany (f : Form) : Statement (.waitany f) := ⟨by decide, by decide, fun _ => rfl⟩

theorem waitall (f : Form) : Statement (.waitall f) := ⟨by decide, by decide, fun _ => rfl⟩

theorem ffr (f : Form) : Statement (.ffr f) := ⟨by decide, by decide, fun _ => rfl⟩

theorem tagclr (f : Form) : Statement (.tagclr f) := ⟨by decide, by decide, fun _ => rfl⟩

theorem rnbind (f : Form) : Statement (.rnbind f) := ⟨by decide, by decide, fun _ => rfl⟩

theorem rnunbind (f : Form) : Statement (.rnunbind f) := ⟨by decide, by decide, fun _ => rfl⟩

theorem send (f : Form) : Statement (.send f) := ⟨by decide, by decide, fun h => by
  have hs := sub_of_wellFormed (i := .send f) rfl rfl h
  have : f.sub = 0 := by simp [SubUse.ok] at hs; bv_omega
  show (if ((9 : Nat) == 9 && f.sub == 1) = true then _ else some (Instr.send f)) = _
  simp [this]⟩

theorem sendOrd (f : Form) : Statement (.sendOrd f) := ⟨by decide, by decide, fun h => by
  have hs := sub_of_wellFormed (i := .sendOrd f) rfl rfl h
  show (if ((9 : Nat) == 9 && f.sub == 1) = true then some (Instr.sendOrd f) else _) = _
  simp_all [SubUse.ok]⟩

theorem waitmsg (f : Form) : Statement (.waitmsg f) := ⟨by decide, by decide, fun _ => rfl⟩

theorem msgpop (f : Form) : Statement (.msgpop f) := ⟨by decide, by decide, fun _ => rfl⟩

theorem spawn (f : Form) : Statement (.spawn f) := ⟨by decide, by decide, fun _ => rfl⟩

theorem spawnb (f : Form) : Statement (.spawnb f) := ⟨by decide, by decide, fun _ => rfl⟩

theorem kset (f : Form) : Statement (.kset f) := ⟨by decide, by decide, fun _ => rfl⟩

theorem kget (f : Form) : Statement (.kget f) := ⟨by decide, by decide, fun _ => rfl⟩

theorem migrate (f : Form) : Statement (.migrate f) := ⟨by decide, by decide, fun _ => rfl⟩

theorem nbr (f : Form) : Statement (.nbr f) := ⟨by decide, by decide, fun _ => rfl⟩

theorem nbrn (f : Form) : Statement (.nbrn f) := ⟨by decide, by decide, fun _ => rfl⟩

theorem csplit (f : Form) : Statement (.csplit f) := ⟨by decide, by decide, fun _ => rfl⟩

theorem cmerge (f : Form) : Statement (.cmerge f) := ⟨by decide, by decide, fun _ => rfl⟩

theorem chand (f : Form) : Statement (.chand f) := ⟨by decide, by decide, fun _ => rfl⟩

theorem cmap (f : Form) : Statement (.cmap f) := ⟨by decide, by decide, fun _ => rfl⟩

theorem hedge (f : Form) : Statement (.hedge f) := ⟨by decide, by decide, fun _ => rfl⟩

theorem fjoin (f : Form) : Statement (.fjoin f) := ⟨by decide, by decide, fun _ => rfl⟩

theorem fleave (f : Form) : Statement (.fleave f) := ⟨by decide, by decide, fun _ => rfl⟩

theorem fbar (f : Form) : Statement (.fbar f) := ⟨by decide, by decide, fun _ => rfl⟩

theorem tblk (f : Form) : Statement (.tblk f) := ⟨by decide, by decide, fun _ => rfl⟩

theorem tubl (f : Form) : Statement (.tubl f) := ⟨by decide, by decide, fun _ => rfl⟩

theorem tset (f : Form) : Statement (.tset f) := ⟨by decide, by decide, fun _ => rfl⟩

theorem yield (f : Form) : Statement (.yield f) := ⟨by decide, by decide, fun _ => rfl⟩

theorem park (f : Form) : Statement (.park f) := ⟨by decide, by decide, fun _ => rfl⟩

theorem done (f : Form) : Statement (.done f) := ⟨by decide, by decide, fun _ => rfl⟩

theorem setrnd (f : Form) : Statement (.setrnd f) := ⟨by decide, by decide, fun _ => rfl⟩

theorem trap (f : Form) : Statement (.trap f) := ⟨by decide, by decide, fun _ => rfl⟩

theorem tret (f : Form) : Statement (.tret f) := ⟨by decide, by decide, fun _ => rfl⟩

theorem ctlget (f : Form) : Statement (.ctlget f) := ⟨by decide, by decide, fun _ => rfl⟩

theorem ctlset (f : Form) : Statement (.ctlset f) := ⟨by decide, by decide, fun _ => rfl⟩

theorem savec (f : Form) : Statement (.savec f) := ⟨by decide, by decide, fun _ => rfl⟩

theorem loadc (f : Form) : Statement (.loadc f) := ⟨by decide, by decide, fun _ => rfl⟩

theorem halt (f : Form) : Statement (.halt f) := ⟨by decide, by decide, fun _ => rfl⟩

theorem preempt (f : Form) : Statement (.preempt f) := ⟨by decide, by decide, fun _ => rfl⟩

theorem tinvWrite : Statement .tinvWrite := rfl

theorem clstartWrite : Statement .clstartWrite := rfl

theorem mixdbgWrite : Statement .mixdbgWrite := rfl

theorem crootWrite : Statement .crootWrite := rfl

theorem drvcfgWrite : Statement .drvcfgWrite := rfl

theorem cpresResume : Statement .cpresResume := rfl

theorem cpresAbort : Statement .cpresAbort := rfl

theorem registerWrite : Statement .registerWrite := rfl

theorem sheafFetch : Statement .sheafFetch := rfl

theorem sheafCommit : Statement .sheafCommit := rfl

theorem trapEntry : Statement .trapEntry := rfl

theorem impreciseTrap : Statement .impreciseTrap := rfl

theorem loadReply : Statement .loadReply := rfl

theorem writeAck : Statement .writeAck := rfl

theorem injectionLeave : Statement .injectionLeave := rfl

theorem orderedPacketLeave : Statement .orderedPacketLeave := rfl

theorem packetHop : Statement .packetHop := rfl

theorem flitReceive : Statement .flitReceive := rfl

theorem linkDown : Statement .linkDown := rfl

theorem translationWalk : Statement .translationWalk := rfl

theorem zeroSweep : Statement .zeroSweep := rfl

theorem sliceAccess : Statement .sliceAccess := rfl

theorem reserveRequest : Statement .reserveRequest := rfl

theorem release : Statement .release := rfl

theorem cancel : Statement .cancel := rfl

theorem reservationRevoke : Statement .reservationRevoke := rfl

theorem revokeReceive : Statement .revokeReceive := rfl

theorem reductionApply : Statement .reductionApply := rfl

theorem gatherHomeRead : Statement .gatherHomeRead := rfl

theorem scratchpadAccess : Statement .scratchpadAccess := rfl

theorem stwApply : Statement .stwApply := rfl

theorem unpark : Statement .unpark := rfl

theorem scrub : Statement .scrub := rfl

theorem protbDrain : Statement .protbDrain := rfl

theorem protbInstall : Statement .protbInstall := rfl

theorem tinvComplete : Statement .tinvComplete := rfl

theorem start : Statement .start := rfl

theorem codeLoadStore : Statement .codeLoadStore := rfl

theorem poolAccess : Statement .poolAccess := rfl

theorem poolCacheMiss : Statement .poolCacheMiss := rfl

theorem backInvalidate : Statement .backInvalidate := rfl

theorem gatewayDrain : Statement .gatewayDrain := rfl

theorem hostMemAccess : Statement .hostMemAccess := rfl

theorem arrival : Statement .arrival := rfl

theorem dispatch : Statement .dispatch := rfl

theorem burrMigration : Statement .burrMigration := rfl

theorem threadRetire : Statement .threadRetire := rfl

theorem yieldRetire : Statement .yieldRetire := rfl

theorem halted : Statement .halted := rfl

theorem eviction : Statement .eviction := rfl

theorem savecComplete : Statement .savecComplete := rfl

theorem loadcComplete : Statement .loadcComplete := rfl

theorem mailboxDeposit : Statement .mailboxDeposit := rfl

theorem launchRecord : Statement .launchRecord := rfl

theorem dieQueueEnter : Statement .dieQueueEnter := rfl

theorem taskRelease : Statement .taskRelease := rfl

theorem classAging : Statement .classAging := rfl

theorem taskOffer : Statement .taskOffer := rfl

theorem taskHintArrival : Statement .taskHintArrival := rfl

theorem returnHoldoff : Statement .returnHoldoff := rfl

theorem dieSpillReload : Statement .dieSpillReload := rfl

theorem idleSummaryUpdate : Statement .idleSummaryUpdate := rfl

theorem stealRequest : Statement .stealRequest := rfl

theorem stealDonation : Statement .stealDonation := rfl

theorem flockCountChange : Statement .flockCountChange := rfl

theorem flockArrival : Statement .flockArrival := rfl

theorem barrierRelease : Statement .barrierRelease := rfl

theorem ownerLookup : Statement .ownerLookup := rfl

theorem kNotice : Statement .kNotice := rfl

theorem tableRebuild : Statement .tableRebuild := rfl

theorem mapUpdateComplete : Statement .mapUpdateComplete := rfl

theorem retireNotice : Statement .retireNotice := rfl

theorem matrixCommandStart : Statement .matrixCommandStart := rfl

theorem mmaFinish : Statement .mmaFinish := rfl

theorem rkfillFinish : Statement .rkfillFinish := rfl

theorem rickRefill : Statement .rickRefill := rfl

theorem mdrainFinish : Statement .mdrainFinish := rfl

theorem rickStaleMark : Statement .rickStaleMark := rfl

theorem bankZeroed : Statement .bankZeroed := rfl

theorem copyRun : Statement .copyRun := rfl

theorem copyLanded : Statement .copyLanded := rfl

theorem runnelFillFetch : Statement .runnelFillFetch := rfl

theorem runnelDrainWrite : Statement .runnelDrainWrite := rfl

theorem neighbourWord : Statement .neighbourWord := rfl

theorem neighbourCredit : Statement .neighbourCredit := rfl

theorem fabricChunkResult : Statement .fabricChunkResult := rfl

theorem fabricAborted : Statement .fabricAborted := rfl

theorem collectiveTimeout : Statement .collectiveTimeout := rfl

theorem precopyPage : Statement .precopyPage := rfl

theorem pageRecordReceive : Statement .pageRecordReceive := rfl

theorem streamSend : Statement .streamSend := rfl

theorem streamReceive : Statement .streamReceive := rfl

theorem oldKeyTimeout : Statement .oldKeyTimeout := rfl

theorem keyLoad : Statement .keyLoad := rfl

theorem create : Statement .create := rfl

theorem addcore : Statement .addcore := rfl

theorem remcore : Statement .remcore := rfl

theorem setquota : Statement .setquota := rfl

theorem grant : Statement .grant := rfl

theorem install : Statement .install := rfl

theorem revoke : Statement .revoke := rfl

theorem sharekey : Statement .sharekey := rfl

theorem stop : Statement .stop := rfl

theorem destroy : Statement .destroy := rfl

theorem exportKeys : Statement .exportKeys := rfl

theorem importKeys : Statement .importKeys := rfl

theorem attest : Statement .attest := rfl

theorem streamkey : Statement .streamkey := rfl

theorem hostmap : Statement .hostmap := rfl

theorem gwstartWrite : Statement .gwstartWrite := rfl

theorem healthClear : Statement .healthClear := rfl

theorem moncfgWrite : Statement .moncfgWrite := rfl

theorem thermalAlarm : Statement .thermalAlarm := rfl

theorem thermalTrip : Statement .thermalTrip := rfl

theorem throttleEnd : Statement .throttleEnd := rfl

theorem droop : Statement .droop := rfl

theorem bringUp : Statement .bringUp := rfl

theorem firmwareReload : Statement .firmwareReload := rfl

theorem completionTimeout : Statement .completionTimeout := rfl

theorem powerCut : Statement .powerCut := rfl

theorem remoteChannelChange : Statement .remoteChannelChange := rfl

theorem wakeAcknowledgement : Statement .wakeAcknowledgement := rfl

theorem atomicGrant : Statement .atomicGrant := rfl

theorem tileReadOut : Statement .tileReadOut := rfl

theorem forcedEviction : Statement .forcedEviction := rfl

end Sys2Proof.Laws.Row
end

