-- ==== Sys2Proof/Laws/Sealed.lean ====
section
/-!
SUPPORT. Words and bytes turn into each other without loss, and a sealed block opens under its key: what the trust core's
command slots (R383) rest on.
-/

-- The proofs run one after another, so that the whole package compiles within the memory a check allows.
set_option Elab.async false

namespace Sys2Proof.Machine
open Sys2Proof

@[simp] theorem length_toBytes (n v : Nat) : (toBytes n v).length = n := by
  induction n generalizing v with
  | zero => rfl
  | succ n ih => simp [toBytes, ih]

theorem ofBytes_toBytes (n v : Nat) (h : v < 256 ^ n) : ofBytes (toBytes n v) = v := by
  induction n generalizing v with
  | zero => simp [toBytes, ofBytes] at *; omega
  | succ n ih =>
    have h' : v / 256 < 256 ^ n := by rw [Nat.pow_succ] at h; omega
    simp [toBytes, ofBytes, ih _ h']
    omega

theorem ofBytes_lt (bs : List Byte) : ofBytes bs < 256 ^ bs.length := by
  induction bs with
  | nil => simp [ofBytes]
  | cons b rest ih =>
    have := b.isLt
    simp only [ofBytes, List.length_cons, Nat.pow_succ]
    omega

theorem toBytes_ofBytes (bs : List Byte) : toBytes bs.length (ofBytes bs) = bs := by
  induction bs with
  | nil => rfl
  | cons b rest ih =>
    have := b.isLt
    have h1 : BitVec.ofNat 8 (b.toNat + 256 * ofBytes rest) = b := by
      apply BitVec.eq_of_toNat_eq
      simp only [BitVec.toNat_ofNat]
      omega
    have h2 : (b.toNat + 256 * ofBytes rest) / 256 = ofBytes rest := by omega
    simp only [List.length_cons, toBytes, ofBytes, h1, h2, ih]

theorem length_bytes (ws : List Word) : (ws.flatMap fun w => toBytes 8 w.toNat).length = 8 * ws.length := by
  induction ws with
  | nil => rfl
  | cons w rest ih => simp [ih]; omega

/-- The bytes of words, lowest first. -/
theorem wordsFrom_bytes (ws : List Word) (more : List Byte) :
    wordsFrom ws.length (ws.flatMap (fun w => toBytes 8 w.toNat) ++ more) = ws := by
  induction ws with
  | nil => rfl
  | cons w rest ih =>
    have h : ofBytes (toBytes 8 w.toNat) = w.toNat := ofBytes_toBytes 8 _ w.isLt
    simp [wordsFrom, ih, List.take_append, List.drop_append, List.take_of_length_le, h, wd]

theorem bytes_wordsFrom (n : Nat) (bs : List Byte) (h : bs.length = 8 * n) :
    (wordsFrom n bs).flatMap (fun w => toBytes 8 w.toNat) = bs := by
  induction n generalizing bs with
  | zero => simp [wordsFrom]; exact List.length_eq_zero_iff.mp h
  | succ n ih =>
    have hl : (bs.take 8).length = 8 := by simp; omega
    have hlt := ofBytes_lt (bs.take 8)
    rw [hl] at hlt
    have h1 : toBytes 8 (wd (ofBytes (bs.take 8))).toNat = bs.take 8 := by
      have := toBytes_ofBytes (bs.take 8)
      rw [hl] at this
      simp only [wd, BitVec.toNat_ofNat, Nat.mod_eq_of_lt (show ofBytes (bs.take 8) < 2 ^ 64 by omega), this]
    simp only [wordsFrom, List.flatMap_cons, h1, ih (bs.drop 8) (by simp; omega), List.take_append_drop]

theorem length_wordsFrom (n : Nat) (bs : List Byte) : (wordsFrom n bs).length = n := by
  induction n generalizing bs with
  | zero => rfl
  | succ n ih => simp [wordsFrom, ih]

/-- The cipher's stream twice gives the text back. -/
theorem gcmXor_gcmXor (key iv count : Nat) (bs : List Byte) : gcmXor key iv count (gcmXor key iv count bs) = bs := by
  apply List.ext_getElem
  · simp [gcmXor]
  · intro j _ _
    simp [gcmXor, BitVec.xor_assoc]

@[simp] theorem length_gcmXor (key iv count : Nat) (bs : List Byte) : (gcmXor key iv count bs).length = bs.length := by simp [gcmXor]

theorem length_sealBlock (key iv count : Nat) (bs : List Byte) : (sealBlock key iv count bs).length = bs.length + 28 := by
  simp [sealBlock]; omega

/-- A sealed block opens under its key. -/
theorem openSealed_sealBlock (key iv count : Nat) (hi : iv < 2 ^ 32) (hc : count < 2 ^ 64) (bs : List Byte) :
    openSealed key (sealBlock key iv count bs) = some bs := by
  generalize hx : gcmXor key iv count bs = body
  have hl : body.length = bs.length := by rw [← hx]; simp
  have hb : gcmXor key iv count body = bs := by rw [← hx, gcmXor_gcmXor]
  generalize ht : (List.range 16).map (fun j => ((Config.gcmTag key iv count [] body)[j]?).getD 0) = tag
  have htl : tag.length = 16 := by rw [← ht]; simp
  have hs : sealBlock key iv count bs = toBytes 4 iv ++ toBytes 8 count ++ body ++ tag := by simp only [sealBlock, hx, ht]
  have h1 : ofBytes (toBytes 4 iv) = iv := ofBytes_toBytes 4 _ hi
  have h2 : ofBytes (toBytes 8 count) = count := ofBytes_toBytes 8 _ hc
  have e1 : (sealBlock key iv count bs).take 4 = toBytes 4 iv := by simp [hs]
  have e2 : ((sealBlock key iv count bs).take 12).drop 4 = toBytes 8 count := by simp [hs, List.take_append, List.take_of_length_le]
  have e3 : ((sealBlock key iv count bs).drop 12).take ((sealBlock key iv count bs).length - 28) = body := by
    have h3 : (toBytes 4 iv ++ toBytes 8 count).length = 12 := by simp
    rw [length_sealBlock, Nat.add_sub_cancel, ← hl, hs, List.append_assoc, ← h3, List.drop_left, List.take_left]
  have e4 : (sealBlock key iv count bs).drop ((sealBlock key iv count bs).length - 16) = tag := by
    rw [length_sealBlock]
    have h3 : (toBytes 4 iv ++ toBytes 8 count ++ body).length = bs.length + 28 - 16 := by simp; omega
    rw [hs, ← h3, List.drop_left]
  simp only [openSealed, e1, e2, e3, e4, h1, h2, ht, hb]
  simp

end Sys2Proof.Machine
end

