-- ==== Sys2Proof/Safety.lean ====
section
/-!
DEFINITION. What a safe run is: a step that answers a next state with a canonical memory.
-/
namespace Sys2Proof.Machine
open Sys2Proof

/-- The step answers a next state, and its memory is canonical. -/
def SafeStep (s : State) : Prop := ∃ t, step s = .next t ∧ Memory.wf t.mem = true

end Sys2Proof.Machine
end

