-- ==== Sys2Proof/Tests/Slice0.lean ====
section
/-!
SUPPORT. Tests of the model: words written out from the spec's encodings, ill-formed instructions, and for each statement
with hypotheses a state that meets them.
-/
namespace Sys2Proof.Tests

-- The tests run one after another, so that the whole package compiles within the memory a check allows.
set_option Elab.async false
open Sys2Proof Sys2Proof.Machine Sys2Proof.Claims

/-! ### Decoding: words written from the tables R201 to R206, R213, R214 and R216 -/

/-- Every word decodes to the instruction beside it, and the encoder writes that word. -/
def decodes (l : List (List Syl × Instr)) : Bool :=
  l.all fun p => decodeInstr p.1 == some (p.2, []) && encode p.2 == p.1

/-- R201 to R206, R213, R214, R216: words of page 0: registers, integers, predicates, exits, loads, stores. -/
theorem test_decode_page0a : decodes [
  ([0xED3F, 0x0047], .read { t := ⟨1, 7⟩, reg := some (1, 63) }),
  ([0xEE0F, 0x068E], .write { t := ⟨2, 14⟩, reg := some (2, 15), pm := 2 }),
  ([0x0815], .mov { t := ⟨0, 21⟩ }),
  ([0xE3FF, 0xE001, 0x0C5C], .const { t := ⟨1, 28⟩, imm := [0x3ff, 0x1] }),
  ([0x10A3], .null { t := ⟨2, 35⟩ }),
  ([0xE3FD, 0x142A], .add { t := ⟨0, 42⟩, imm := [0x3fd] }),
  ([0x1971], .sub { t := ⟨1, 49⟩, pm := 1 }),
  ([0xE48F, 0x1EB8], .mul { t := ⟨2, 56⟩, t2 := some ⟨2, 15⟩, pm := 2 }),
  ([0x203F], .and { t := ⟨0, 63⟩ }),
  ([0x2546], .or { t := ⟨1, 6⟩, pm := 1 }),
  ([0x2A8D], .xor { t := ⟨2, 13⟩, pm := 2 }),
  ([0x2C14], .andn { t := ⟨0, 20⟩ }),
  ([0x315B], .not { t := ⟨1, 27⟩, pm := 1 }),
  ([0x36A2], .shl { t := ⟨2, 34⟩, pm := 2 })] = true := by decide +kernel

/-- R201 to R206, R213, R214, R216: words of page 0: registers, integers, predicates, exits, loads, stores, continued. -/
theorem test_decode_page0b : decodes [
  ([0xE03F, 0x3829], .shr { t := ⟨0, 41⟩, imm := [0x3f] }),
  ([0x3D70], .sar { t := ⟨1, 48⟩, pm := 1 }),
  ([0x42B7], .sel { t := ⟨2, 55⟩, pm := 2 }),
  ([0x443E], .teq { t := ⟨0, 62⟩ }),
  ([0x4945], .tne { t := ⟨1, 5⟩, pm := 1 }),
  ([0x4E8C], .tlt { t := ⟨2, 12⟩, pm := 2 }),
  ([0x5013], .tle { t := ⟨0, 19⟩ }),
  ([0x555A], .tltu { t := ⟨1, 26⟩, pm := 1 }),
  ([0x5AA1], .tleu { t := ⟨2, 33⟩, pm := 2 }),
  ([0x5C28], .pand { t := ⟨0, 40⟩ }),
  ([0x616F], .por { t := ⟨1, 47⟩, pm := 1 }),
  ([0x66B6], .pnot { t := ⟨2, 54⟩, pm := 2 }),
  ([0x683D], .br { t := ⟨0, 61⟩ }),
  ([0xE020, 0x6D44], .bri { t := ⟨1, 4⟩, imm := [0x20], pm := 1 })] = true := by decide +kernel

/-- R201 to R206, R213, R214, R216: words of page 0: registers, integers, predicates, exits, loads, stores, continued. -/
theorem test_decode_page0c : decodes [
  ([0xE001, 0xE000, 0x728B], .call { t := ⟨2, 11⟩, imm := [0x1, 0x0], pm := 2 }),
  ([0x7412], .ret { t := ⟨0, 18⟩ }),
  ([0x7959], .exit { t := ⟨1, 25⟩, pm := 1 }),
  ([0xF000, 0xE010, 0x82A0], .ldB { t := ⟨2, 32⟩, lsq := some (0, false), imm := [0x10], pm := 2 }),
  ([0xF0B0, 0xE010, 0x8027], .ldf .b { t := ⟨0, 39⟩, lsq := some (5, true), imm := [0x10] }),
  ([0xF0A0, 0x8427], .ldBu { t := ⟨0, 39⟩, lsq := some (5, false) }),
  ([0xF150, 0x856E], .ldf .bu { t := ⟨1, 46⟩, lsq := some (10, true), pm := 1 }),
  ([0xF140, 0x896E], .ldH { t := ⟨1, 46⟩, lsq := some (10, false), pm := 1 }),
  ([0xF1F0, 0x8AB5], .ldf .h { t := ⟨2, 53⟩, lsq := some (15, true), pm := 2 }),
  ([0xF1E0, 0x8EB5], .ldHu { t := ⟨2, 53⟩, lsq := some (15, false), pm := 2 }),
  ([0xF290, 0x8C3C], .ldf .hu { t := ⟨0, 60⟩, lsq := some (20, true) }),
  ([0xF280, 0x903C], .ldW { t := ⟨0, 60⟩, lsq := some (20, false) }),
  ([0xF330, 0x9143], .ldf .w { t := ⟨1, 3⟩, lsq := some (25, true), pm := 1 }),
  ([0xF320, 0x9543], .ldWu { t := ⟨1, 3⟩, lsq := some (25, false), pm := 1 })] = true := by decide +kernel

/-- R201 to R206, R213, R214, R216: words of page 0: registers, integers, predicates, exits, loads, stores, continued. -/
theorem test_decode_page0d : decodes [
  ([0xF3D0, 0x968A], .ldf .wu { t := ⟨2, 10⟩, lsq := some (30, true), pm := 2 }),
  ([0xEC1F, 0xF3C0, 0x9A8A], .ldD { t := ⟨2, 10⟩, reg := some (0, 31), lsq := some (30, false), pm := 2 }),
  ([0xEC1F, 0xF070, 0x9811], .ldf .d { t := ⟨0, 17⟩, reg := some (0, 31), lsq := some (3, true) }),
  ([0xF060, 0x9C11], .ldQ { t := ⟨0, 17⟩, lsq := some (3, false) }),
  ([0xF110, 0x9D58], .ldf .q { t := ⟨1, 24⟩, lsq := some (8, true), pm := 1 }),
  ([0xF100, 0xA158], .stB { t := ⟨1, 24⟩, lsq := some (8, false), pm := 1 }),
  ([0xF1A0, 0xA69F], .stH { t := ⟨2, 31⟩, lsq := some (13, false), pm := 2 }),
  ([0xF240, 0xA826], .stW { t := ⟨0, 38⟩, lsq := some (18, false) }),
  ([0xF2E0, 0xAD6D], .stD { t := ⟨1, 45⟩, lsq := some (23, false), pm := 1 }),
  ([0xEC1E, 0xF380, 0xB2B4], .stQ { t := ⟨2, 52⟩, reg := some (0, 30), lsq := some (28, false), pm := 2 }),
  ([0xF020, 0xB43B], .ldv { t := ⟨0, 59⟩, lsq := some (1, false) }),
  ([0xF0C0, 0xB942], .stv { t := ⟨1, 2⟩, lsq := some (6, false), pm := 1 }),
  ([0xF9F0, 0xF160, 0xE48F, 0xBE89], .qld { t := ⟨2, 9⟩, dep := some (31, 0), lsq := some (11, false), t2 := some ⟨2, 15⟩, pm := 2 }),
  ([0xF9D1, 0xF200, 0xC010], .qst { t := ⟨0, 16⟩, dep := some (29, 1), lsq := some (16, false) })] = true := by decide +kernel

/-- R201 to R206, R213, R214, R216: words of page 1: integers and quadrants. -/
theorem test_decode_page1a : decodes [
  ([0xE840, 0x0157], .mulh { t := ⟨1, 23⟩, pm := 1 }),
  ([0xE840, 0x069E], .mulhu { t := ⟨2, 30⟩, pm := 2 }),
  ([0xE840, 0x0825], .div { t := ⟨0, 37⟩ }),
  ([0xE840, 0x0D6C], .divu { t := ⟨1, 44⟩, pm := 1 }),
  ([0xE840, 0x12B3], .rem { t := ⟨2, 51⟩, pm := 2 }),
  ([0xE840, 0x143A], .remu { t := ⟨0, 58⟩ }),
  ([0xE840, 0x1941], .rot { t := ⟨1, 1⟩, pm := 1 }),
  ([0xE840, 0x1E88], .min { t := ⟨2, 8⟩, pm := 2 }),
  ([0xE840, 0x200F], .max { t := ⟨0, 15⟩ }),
  ([0xE840, 0x2556], .minu { t := ⟨1, 22⟩, pm := 1 }),
  ([0xE840, 0x2A9D], .maxu { t := ⟨2, 29⟩, pm := 2 }),
  ([0xE840, 0x2C24], .abs { t := ⟨0, 36⟩ }),
  ([0xE840, 0x316B], .neg { t := ⟨1, 43⟩, pm := 1 }),
  ([0xE840, 0x36B2], .clz { t := ⟨2, 50⟩, pm := 2 })] = true := by decide +kernel

/-- R201 to R206, R213, R214, R216: words of page 1: integers and quadrants, continued. -/
theorem test_decode_page1b : decodes [
  ([0xE840, 0x3839], .ctz { t := ⟨0, 57⟩ }),
  ([0xE840, 0x3D40], .popc { t := ⟨1, 0⟩, pm := 1 }),
  ([0xE840, 0x4287], .brev { t := ⟨2, 7⟩, pm := 2 }),
  ([0xE842, 0x440E], .sext { t := ⟨0, 14⟩, sub := 2 }),
  ([0xE841, 0x4955], .zext { t := ⟨1, 21⟩, sub := 1, pm := 1 }),
  ([0xE840, 0x4E9C], .qdig { t := ⟨2, 28⟩, pm := 2 }),
  ([0xE840, 0x5023], .qset { t := ⟨0, 35⟩ }),
  ([0xE840, 0x556A], .qtrunc { t := ⟨1, 42⟩, pm := 1 }),
  ([0xE840, 0x5AB1], .qparent { t := ⟨2, 49⟩, pm := 2 }),
  ([0xE840, 0x5C38], .qchild { t := ⟨0, 56⟩ }),
  ([0xE840, 0x617F], .qinter { t := ⟨1, 63⟩, pm := 1 }),
  ([0xE840, 0x6686], .qsplit { t := ⟨2, 6⟩, pm := 2 }),
  ([0xE840, 0x680D], .qdepth { t := ⟨0, 13⟩ }),
  ([0xE840, 0x6D54], .qnext { t := ⟨1, 20⟩, pm := 1 })] = true := by decide +kernel

/-- R201 to R206, R213, R214, R216: words of page 2: atomics, reductions, fences, watches. -/
theorem test_decode_page2a : decodes [
  ([0xE880, 0xEC1D, 0xF020, 0x029B], .amadd { t := ⟨2, 27⟩, reg := some (0, 29), lsq := some (1, false), pm := 2 }),
  ([0xE880, 0xF0C0, 0x0422], .amand { t := ⟨0, 34⟩, lsq := some (6, false) }),
  ([0xE880, 0xF160, 0x0969], .amor { t := ⟨1, 41⟩, lsq := some (11, false), pm := 1 }),
  ([0xE880, 0xF200, 0x0EB0], .amxor { t := ⟨2, 48⟩, lsq := some (16, false), pm := 2 }),
  ([0xE880, 0xF2A0, 0x1037], .ammin { t := ⟨0, 55⟩, lsq := some (21, false) }),
  ([0xE880, 0xF340, 0x157E], .ammax { t := ⟨1, 62⟩, lsq := some (26, false), pm := 1 }),
  ([0xE880, 0xF3E0, 0x1A85], .amminu { t := ⟨2, 5⟩, lsq := some (31, false), pm := 2 }),
  ([0xE880, 0xF080, 0x1C0C], .ammaxu { t := ⟨0, 12⟩, lsq := some (4, false) }),
  ([0xE880, 0xF120, 0x2153], .amswap { t := ⟨1, 19⟩, lsq := some (9, false), pm := 1 }),
  ([0xE881, 0xF1C0, 0x269A], .amcas { t := ⟨2, 26⟩, sub := 1, lsq := some (14, false), pm := 2 }),
  ([0xE880, 0xF260, 0x2821], .amaddf { t := ⟨0, 33⟩, lsq := some (19, false) }),
  ([0xE881, 0xF300, 0x4168], .redadd { t := ⟨1, 40⟩, sub := 1, lsq := some (24, false), pm := 1 }),
  ([0xE880, 0xF3A0, 0x46AF], .redmin { t := ⟨2, 47⟩, lsq := some (29, false), pm := 2 }),
  ([0xE880, 0xF040, 0x4836], .redmax { t := ⟨0, 54⟩, lsq := some (2, false) })] = true := by decide +kernel

/-- R201 to R206, R213, R214, R216: words of page 2: atomics, reductions, fences, watches, continued. -/
theorem test_decode_page2b : decodes [
  ([0xE880, 0xF0E0, 0x4D7D], .redand { t := ⟨1, 61⟩, lsq := some (7, false), pm := 1 }),
  ([0xE880, 0xF180, 0x5284], .redor { t := ⟨2, 4⟩, lsq := some (12, false), pm := 2 }),
  ([0xE880, 0xF220, 0x540B], .redxor { t := ⟨0, 11⟩, lsq := some (17, false) }),
  ([0xE880, 0xF2C0, 0x5952], .redaddf { t := ⟨1, 18⟩, lsq := some (22, false), pm := 1 }),
  ([0xE880, 0xF360, 0x6299], .gath { t := ⟨2, 25⟩, lsq := some (27, false), pm := 2 }),
  ([0xE885, 0xF000, 0x6420], .fence { t := ⟨0, 32⟩, sub := 5, lsq := some (0, false) }),
  ([0xE8AB, 0xF0A0, 0x6967], .xfence { t := ⟨1, 39⟩, sub := 43, lsq := some (5, false), pm := 1 }),
  ([0xE880, 0xF140, 0x6EAE], .watch { t := ⟨2, 46⟩, lsq := some (10, false), pm := 2 }),
  ([0xE880, 0xF1E0, 0x7035], .unwatch { t := ⟨0, 53⟩, lsq := some (15, false) }),
  ([0xE880, 0xF280, 0x757C], .stw { t := ⟨1, 60⟩, lsq := some (20, false), pm := 1 }),
  ([0xE880, 0xF9E0, 0xF320, 0x7A83], .protb { t := ⟨2, 3⟩, dep := some (30, 0), lsq := some (25, false), pm := 2 })] = true := by decide +kernel

/-- R201 to R206, R213, R214, R216: words of page 3: vectors. -/
theorem test_decode_page3a : decodes [
  ([0xE8E0, 0xF609, 0x000A], .vadd { t := ⟨0, 10⟩, sub := 32, fmts := [(0x20, 9)] }),
  ([0xE8C0, 0xF609, 0x0551], .vsub { t := ⟨1, 17⟩, fmts := [(0x20, 9)], pm := 1 }),
  ([0xE8C0, 0xF609, 0x0A98], .vmul { t := ⟨2, 24⟩, fmts := [(0x20, 9)], pm := 2 }),
  ([0xE8C0, 0xF609, 0x0C1F], .vfma { t := ⟨0, 31⟩, fmts := [(0x20, 9)] }),
  ([0xE8C0, 0xF609, 0x1166], .vfms { t := ⟨1, 38⟩, fmts := [(0x20, 9)], pm := 1 }),
  ([0xE8C0, 0xF609, 0x16AD], .vmin { t := ⟨2, 45⟩, fmts := [(0x20, 9)], pm := 2 }),
  ([0xE8C0, 0xF609, 0x1834], .vmax { t := ⟨0, 52⟩, fmts := [(0x20, 9)] }),
  ([0xE8C0, 0xF609, 0x1D7B], .vabs { t := ⟨1, 59⟩, fmts := [(0x20, 9)], pm := 1 }),
  ([0xE8C0, 0xF609, 0x2282], .vneg { t := ⟨2, 2⟩, fmts := [(0x20, 9)], pm := 2 }),
  ([0xE8C0, 0xF609, 0x2409], .vrcp { t := ⟨0, 9⟩, fmts := [(0x20, 9)] }),
  ([0xE8C0, 0xF609, 0x2950], .vrsq { t := ⟨1, 16⟩, fmts := [(0x20, 9)], pm := 1 }),
  ([0xE8C0, 0xF609, 0x2E97], .vexp2 { t := ⟨2, 23⟩, fmts := [(0x20, 9)], pm := 2 }),
  ([0xE8C0, 0xF609, 0x301E], .vlog2 { t := ⟨0, 30⟩, fmts := [(0x20, 9)] }),
  ([0xE8C0, 0xF689, 0x3565], .vand { t := ⟨1, 37⟩, fmts := [(0x28, 9)], pm := 1 })] = true := by decide +kernel

/-- R201 to R206, R213, R214, R216: words of page 3: vectors, continued. -/
theorem test_decode_page3b : decodes [
  ([0xE8C0, 0xF6F9, 0x3AAC], .vor { t := ⟨2, 44⟩, fmts := [(0x2f, 9)], pm := 2 }),
  ([0xE8C0, 0xF6B9, 0x3C33], .vxor { t := ⟨0, 51⟩, fmts := [(0x2b, 9)] }),
  ([0xE8C0, 0xF6A9, 0x417A], .vshl { t := ⟨1, 58⟩, fmts := [(0x2a, 9)], pm := 1 }),
  ([0xE8C0, 0xF6A9, 0x4681], .vshr { t := ⟨2, 1⟩, fmts := [(0x2a, 9)], pm := 2 }),
  ([0xE8C0, 0xF6A9, 0x4808], .vsar { t := ⟨0, 8⟩, fmts := [(0x2a, 9)] }),
  ([0xE8C5, 0xF609, 0x4D4F], .vcmp { t := ⟨1, 15⟩, sub := 5, fmts := [(0x20, 9)], pm := 1 }),
  ([0xE8C0, 0xF609, 0x5296], .vsel { t := ⟨2, 22⟩, fmts := [(0x20, 9)], pm := 2 }),
  ([0xE8C0, 0xF609, 0x541D], .vredsum { t := ⟨0, 29⟩, fmts := [(0x20, 9)] }),
  ([0xE8C0, 0xF609, 0x5964], .vredmax { t := ⟨1, 36⟩, fmts := [(0x20, 9)], pm := 1 }),
  ([0xE8E0, 0xF609, 0x5EAB], .vdot { t := ⟨2, 43⟩, sub := 32, fmts := [(0x20, 9)], pm := 2 })] = true := by decide +kernel

/-- R201 to R206, R213, R214, R216: words of page 4: conversions and moves. -/
theorem test_decode_page4 : decodes [
  ([0xE900, 0xF600, 0xF4C9, 0x0032], .vcvt { t := ⟨0, 50⟩, fmts := [(0x20, 0), (0xc, 9)] }),
  ([0xE920, 0xF4C0, 0xF60A, 0x0579], .vscale { t := ⟨1, 57⟩, sub := 32, fmts := [(0xc, 0), (0x20, 10)], pm := 1 }),
  ([0xE900, 0xF600, 0xF62B, 0x0A80], .vpack { t := ⟨2, 0⟩, fmts := [(0x20, 0), (0x22, 11)], pm := 2 }),
  ([0xE900, 0xF620, 0xF60F, 0x0C07], .vunpack { t := ⟨0, 7⟩, fmts := [(0x22, 0), (0x20, 15)] }),
  ([0xE900, 0xF609, 0x114E], .vperm { t := ⟨1, 14⟩, fmts := [(0x20, 9)], pm := 1 }),
  ([0xE900, 0xF609, 0x1695], .vbcast { t := ⟨2, 21⟩, fmts := [(0x20, 9)], pm := 2 }),
  ([0xE900, 0xF609, 0x181C], .vins { t := ⟨0, 28⟩, fmts := [(0x20, 9)] }),
  ([0xE900, 0xF609, 0x1D63], .vext { t := ⟨1, 35⟩, fmts := [(0x20, 9)], pm := 1 }),
  ([0xE900, 0xF609, 0xE11B, 0x22AA], .vqshuf { t := ⟨2, 42⟩, fmts := [(0x20, 9)], imm := [0x11b], pm := 2 }),
  ([0xE900, 0xF609, 0x2431], .vtrn { t := ⟨0, 49⟩, fmts := [(0x20, 9)] }),
  ([0xE900, 0xF699, 0x2978], .viota { t := ⟨1, 56⟩, fmts := [(0x29, 9)], pm := 1 })] = true := by decide +kernel

/-- R201 to R206, R213, R214, R216: words of page 5: matrix. -/
theorem test_decode_page5 : decodes [
  ([0xE940, 0x02BF], .rkalloc { t := ⟨2, 63⟩, pm := 2 }),
  ([0xE940, 0xF9B1, 0xF240, 0x0406], .rkfill { t := ⟨0, 6⟩, dep := some (27, 1), lsq := some (18, false) }),
  ([0xE940, 0x094D], .rkpin { t := ⟨1, 13⟩, pm := 1 }),
  ([0xE940, 0x0E94], .rkunpin { t := ⟨2, 20⟩, pm := 2 }),
  ([0xE940, 0x101B], .rkrev { t := ⟨0, 27⟩ }),
  ([0xE940, 0x1562], .rkqry { t := ⟨1, 34⟩, pm := 1 }),
  ([0xE941, 0xF4C0, 0xF160, 0x1AA9], .mma { t := ⟨2, 41⟩, sub := 1, fmts := [(0xc, 0)], lsq := some (11, false), pm := 2 }),
  ([0xE940, 0xF4C0, 0xF200, 0x1C30], .mmaz { t := ⟨0, 48⟩, fmts := [(0xc, 0)], lsq := some (16, false) }),
  ([0xE961, 0xF620, 0xF2A0, 0x2177], .mdrain { t := ⟨1, 55⟩, sub := 33, fmts := [(0x22, 0)], lsq := some (21, false), pm := 1 }),
  ([0xE940, 0x26BE], .mring { t := ⟨2, 62⟩, pm := 2 }),
  ([0xE940, 0x2805], .mtail { t := ⟨0, 5⟩ }),
  ([0xE940, 0x2D4C], .mcnt { t := ⟨1, 12⟩, pm := 1 }),
  ([0xE940, 0x3293], .mthr { t := ⟨2, 19⟩, pm := 2 }),
  ([0xE940, 0x341A], .mwgt { t := ⟨0, 26⟩ })] = true := by decide +kernel

/-- R201 to R206, R213, R214, R216: words of page 6: drover, copies, runnels, messages. -/
theorem test_decode_page6 : decodes [
  ([0xE980, 0xF260, 0x0161], .mbxw { t := ⟨1, 33⟩, lsq := some (19, false), pm := 1 }),
  ([0xE980, 0xF300, 0x06A8], .mbxr { t := ⟨2, 40⟩, lsq := some (24, false), pm := 2 }),
  ([0xE980, 0xF3A0, 0x082F], .copy { t := ⟨0, 47⟩, lsq := some (29, false) }),
  ([0xE981, 0x0D76], .waitany { t := ⟨1, 54⟩, sub := 1, pm := 1 }),
  ([0xE980, 0x12BD], .waitall { t := ⟨2, 61⟩, pm := 2 }),
  ([0xE981, 0x1404], .ffr { t := ⟨0, 4⟩, sub := 1 }),
  ([0xE980, 0x194B], .tagclr { t := ⟨1, 11⟩, pm := 1 }),
  ([0xE983, 0xEF0F, 0xF2C0, 0x1E92], .rnbind { t := ⟨2, 18⟩, sub := 3, reg := some (3, 15), lsq := some (22, false), pm := 2 }),
  ([0xE980, 0xEF07, 0xF360, 0x2019], .rnunbind { t := ⟨0, 25⟩, reg := some (3, 7), lsq := some (27, false) }),
  ([0xE980, 0xF000, 0x2560], .send { t := ⟨1, 32⟩, lsq := some (0, false), pm := 1 }),
  ([0xE981, 0xF0A0, 0x26A7], .sendOrd { t := ⟨2, 39⟩, sub := 1, lsq := some (5, false), pm := 2 }),
  ([0xE980, 0xF0A0, 0x2AA7], .waitmsg { t := ⟨2, 39⟩, lsq := some (5, false), pm := 2 }),
  ([0xE980, 0xF140, 0x2C2E], .msgpop { t := ⟨0, 46⟩, lsq := some (10, false) })] = true := by decide +kernel

/-- R201 to R206, R213, R214, R216: words of page 7: threads, crofts, flocks. -/
theorem test_decode_page7a : decodes [
  ([0xE9C0, 0xF1E0, 0x0175], .spawn { t := ⟨1, 53⟩, lsq := some (15, false), pm := 1 }),
  ([0xE9C0, 0xF280, 0x06BC], .spawnb { t := ⟨2, 60⟩, lsq := some (20, false), pm := 2 }),
  ([0xE9C0, 0xE48F, 0x0803], .kset { t := ⟨0, 3⟩, t2 := some ⟨2, 15⟩ }),
  ([0xE9C0, 0x0D4A], .kget { t := ⟨1, 10⟩, pm := 1 }),
  ([0xE9C0, 0x1291], .migrate { t := ⟨2, 17⟩, pm := 2 }),
  ([0xE9C0, 0x1418], .nbr { t := ⟨0, 24⟩ }),
  ([0xE9C0, 0x195F], .nbrn { t := ⟨1, 31⟩, pm := 1 }),
  ([0xE9C0, 0x1EA6], .csplit { t := ⟨2, 38⟩, pm := 2 }),
  ([0xE9C0, 0x202D], .cmerge { t := ⟨0, 45⟩ }),
  ([0xE9C0, 0x2574], .chand { t := ⟨1, 52⟩, pm := 1 }),
  ([0xE9C0, 0x2ABB], .cmap { t := ⟨2, 59⟩, pm := 2 }),
  ([0xE9C0, 0x2C02], .hedge { t := ⟨0, 2⟩ }),
  ([0xE9C0, 0x3149], .fjoin { t := ⟨1, 9⟩, pm := 1 }),
  ([0xE9C0, 0x3690], .fleave { t := ⟨2, 16⟩, pm := 2 })] = true := by decide +kernel

/-- R201 to R206, R213, R214, R216: words of page 7: threads, crofts, flocks, continued. -/
theorem test_decode_page7b : decodes [
  ([0xE9C0, 0xF2A0, 0x3817], .fbar { t := ⟨0, 23⟩, lsq := some (21, false) }),
  ([0xE9C0, 0x3D5E], .tblk { t := ⟨1, 30⟩, pm := 1 }),
  ([0xE9C0, 0x42A5], .tubl { t := ⟨2, 37⟩, pm := 2 }),
  ([0xE9C0, 0x442C], .tset { t := ⟨0, 44⟩ }),
  ([0xE9C0, 0x4973], .yield { t := ⟨1, 51⟩, pm := 1 }),
  ([0xE9C0, 0x4EBA], .park { t := ⟨2, 58⟩, pm := 2 }),
  ([0xE9C0, 0x5001], .done { t := ⟨0, 1⟩ }),
  ([0xE9C0, 0x5548], .setrnd { t := ⟨1, 8⟩, pm := 1 })] = true := by decide +kernel

/-- R201 to R206, R213, R214, R216: words of page 8: system. -/
theorem test_decode_page8 : decodes [
  ([0xEA00, 0xE0FF, 0x028F], .trap { t := ⟨2, 15⟩, imm := [0xff], pm := 2 }),
  ([0xEA00, 0x0416], .tret { t := ⟨0, 22⟩ }),
  ([0xEA00, 0x095D], .ctlget { t := ⟨1, 29⟩, pm := 1 }),
  ([0xEA00, 0xF180, 0x0EA4], .ctlset { t := ⟨2, 36⟩, lsq := some (12, false), pm := 2 }),
  ([0xEA00, 0xF220, 0x102B], .savec { t := ⟨0, 43⟩, lsq := some (17, false) }),
  ([0xEA00, 0xF2C0, 0x1572], .loadc { t := ⟨1, 50⟩, lsq := some (22, false), pm := 1 }),
  ([0xEA00, 0x1AB9], .halt { t := ⟨2, 57⟩, pm := 2 }),
  ([0xEA00, 0x1C00], .preempt { t := ⟨0, 0⟩ })] = true := by decide +kernel

/-! ### Whole sheafs of the spec's listings -/

/-- The length of a decoded sheaf and what it holds. -/
def sheafIs (burr privOk : Bool) (w1 w0 : BitVec 64) (body : List Syl) (size count : Nat) : Bool :=
  match decodeSheaf burr privOk (w1 ++ w0) body with
  | .ok sh => sh.size == size && sh.insts.length == count
  | .error _ => false

/-- The syllables of `qp_read` (the seasoned version of the quadtree page): 64 syllables, 22 instructions, 144 bytes. -/
def qpRead : List Syl :=
  [0xEC00, 0xE40A, 0x0009, 0xEC00, 0xE40C, 0x000B, 0xEC00, 0x000E, 0xEC01, 0x000D, 0xE489, 0xE027, 0x0C06, 0xE001,
   0x0C4E, 0xE840, 0xE48A, 0x5807, 0xE840, 0xE48B, 0x5808, 0xE840, 0x588C] ++
  [0xFA00, 0xF000, 0xBC10, 0xF9F0, 0xF020, 0xE44D, 0xBC11, 0xF9E0, 0xF040, 0xBC12, 0xF9D0, 0xF060, 0xBC13, 0xF9F0,
   0xF080, 0xE009, 0xC00D, 0xE880, 0xF9E0, 0xF0A0, 0xE002, 0x780E] ++
  [0xE000, 0xE000, 0xE000, 0xE0E1, 0x0C54, 0xEC04, 0x0410, 0xEC05, 0x0411, 0xED04, 0x0412, 0xED05, 0x0413, 0xEA00,
   0xF0C0, 0xE001, 0xE200, 0x0C14, 0x7815]

/-- The table "The headers follow R210": qp_read, qp_poke and qp_end, their headers and their lengths. -/
theorem test_sheaf_listings :
    (sheafIs false true 0x00C0000000000000 0x00030000000301D5 qpRead 144 22 &&
     sheafIs false false 0 0x84 [0xE884, 0xF000, 0x6400, 0xEC00, 0x0003, 0xE055, 0x0C43, 0xFA00, 0xF020, 0xE027, 0xC003, 0x7804]
       40 5 &&
     sheafIs false false 0 1 [0xE9C0, 0x5000, 0x7801] 22 2) = true := by decide +kernel

/-- R210: the worked header of a burr-eligible sheaf. -/
theorem test_header_fields :
    headerOf ((0x0010100000000000 : BitVec 64) ++ (0x220C8 : BitVec 64)) =
      { priv := false, vec := false, wk := false, burr := true, qmask := 1, vmask := 0, gmask := 0x22, nout := 3, count := 9 } := by
  decide +kernel

/-- The failure of a sheaf: its DCODE and the byte offset of the syllable. -/
def refuses (burr privOk : Bool) (w1 w0 : BitVec 64) (body : List Syl) (dcode : Option Nat) (off : Nat) : Bool :=
  match decodeSheaf burr privOk (w1 ++ w0) body with
  | .ok _ => false
  | .error e => e == ⟨dcode, off⟩

/-- R217, first and second pass: each DCODE where the table names it.  The body is one instruction and its exit. -/
theorem test_dcodes_of_headers_and_bodies :
    (refuses false true 0x0100000000000000 0x0 [0x7800] (some 0x01) 0 &&
     refuses false true 0 0x840 [0x7800] (some 0x02) 0 &&
     refuses true true 0 0x0 [0x7800] (some 0x04) 0 &&
     refuses false false 0x0080000000000000 0x0 [0x7800] none 0 &&
     refuses false false 0 0x1 [0x7800] (some 0x05) 18 &&
     refuses false false 0 0x0 [0xE000, 0xE000, 0xE000, 0xE000, 0xE000, 0x0C00] (some 0x06) 24 &&
     refuses false false 0 0x0 [0xFC00, 0x7800] (some 0x07) 16 &&
     refuses false false 0 0x0 [0x7C00] (some 0x08) 16 &&
     refuses false false 0 0x0 [0xEA40, 0x0000] (some 0x08) 16 &&
     refuses false false 0 0x0 [0x7B00] (some 0x09) 16 &&
     refuses false false 0 0x0 [0xE841, 0x0000] (some 0x0A) 16 &&
     refuses false false 0 0x0 [0xEC00, 0x7800] (some 0x0B) 16 &&
     refuses false false 0 0x0 [0xF001, 0x8000] (some 0x0C) 16 &&
     refuses false false 0 0x0 [0xEC20, 0x0000] (some 0x10) 16 &&
     refuses false false 0 0x0 [0xE8C0, 0xF700, 0x0000] (some 0x12) 18 &&
     refuses false false 0 0x0 [0xFA10, 0xF000, 0xBC00] (some 0x13) 16 &&
     refuses false false 0 0x0 [0xEC00, 0x0001] (some 0x0D) 18 &&
     refuses false false 0 0x1 [0x7800, 0xEC00, 0x0000] (some 0x0E) 20 &&
     refuses false false 0 0x40 [0xEA00, 0xF000, 0xE001, 0x1000] none 22) = true := by decide +kernel

/-- R217, third pass. -/
theorem test_dcodes_of_whole_sheafs :
    (refuses false false 0 0x1 [0xEC00, 0x0041, 0x7801] (some 0x0F) 18 &&
     refuses false false 0 0x1 [0x0800, 0x7801] (some 0x14) 16 &&
     refuses false false 0 0x1 [0x8000, 0x7801] (some 0x14) 16 &&
     refuses false false 0 0x42 [0xEC00, 0x0001, 0x8001, 0x7802] (some 0x11) 20 &&
     refuses false false 0 0x42 [0xEC00, 0x0001, 0xF020, 0x8001, 0x7802] (some 0x11) 22 &&
     refuses false false 0 0x2042 [0xEC00, 0x0001, 0xF000, 0x8001, 0x7802] (some 0x03) 0 &&
     refuses false false 0 0x0 [0x1000] (some 0x15) 0) = true := by decide +kernel

/-! ### Well-formedness: each check refuses an ill-formed term -/

/-- The terms fail this check and are not well formed; the term before them passes. -/
def onlyCheck (good bad : Instr) (check : Info → Form → Instr → Bool) : Bool :=
  match good.info, good.form, bad.info, bad.form with
  | some n, some f, some m, some g => good.wellFormed && check n f good && !(check m g bad) && !bad.wellFormed
  | _, _, _, _ => false

theorem test_wellFormed_checks :
    (onlyCheck (.const { t := ⟨0, 0⟩, imm := [1, 2, 3, 4] }) (.const { t := ⟨0, 0⟩, t2 := some ⟨0, 0⟩, imm := [1, 2, 3, 4] })
       (fun n f _ => n.prefixes f ≤ 4) &&
     onlyCheck (.add { t := ⟨0, 0⟩, pm := 2 }) (.add { t := ⟨0, 0⟩, pm := 3 }) (fun _ f i => f.pmOk i.pmAlways) &&
     onlyCheck (.read { t := ⟨0, 0⟩, reg := some (0, 1) }) (.read { t := ⟨0, 0⟩, reg := some (0, 1), pm := 1 })
       (fun _ f i => f.pmOk i.pmAlways) &&
     onlyCheck (.sext { t := ⟨0, 0⟩, sub := 2 }) (.sext { t := ⟨0, 0⟩, sub := 3 }) (fun n f _ => n.sub.ok f.sub) &&
     onlyCheck (.add { t := ⟨0, 0⟩, t2 := some ⟨0, 0⟩ }) (.br { t := ⟨0, 0⟩, t2 := some ⟨0, 0⟩ }) (fun n f _ => n.tg2Ok f) &&
     onlyCheck (.add { t := ⟨0, 0⟩, imm := [1] }) (.not { t := ⟨0, 0⟩, imm := [1] }) (fun n f _ => n.immOk f) &&
     onlyCheck (.const { t := ⟨0, 0⟩, imm := [1] }) (.const { t := ⟨0, 0⟩ }) (fun n f _ => n.immOk f) &&
     onlyCheck (.ldD { t := ⟨0, 0⟩, reg := some (0, 1) }) (.ldD { t := ⟨0, 0⟩, reg := some (1, 1) }) (fun n f _ => n.regOk f) &&
     onlyCheck (.rnbind { t := ⟨0, 0⟩, reg := some (3, 15) }) (.rnbind { t := ⟨0, 0⟩ }) (fun n f _ => n.regOk f) &&
     onlyCheck (.ldD { t := ⟨0, 0⟩, lsq := some (31, false) }) (.add { t := ⟨0, 0⟩, lsq := some (0, false) })
       (fun n f _ => n.lsqOk f) &&
     onlyCheck (.vadd { t := ⟨0, 0⟩, fmts := [(0x20, 0)] }) (.vadd { t := ⟨0, 0⟩ }) (fun n f _ => n.fmtCountOk f) &&
     onlyCheck (.qld { t := ⟨0, 0⟩, dep := some (32, 0) }) (.qld { t := ⟨0, 0⟩ }) (fun n f _ => n.depCountOk f) &&
     onlyCheck (.ldD { t := ⟨0, 0⟩, lsq := some (0, false) }) (.stD { t := ⟨0, 0⟩, lsq := some (0, true) })
       (fun _ _ i => i.followOk) &&
     onlyCheck (.vadd { t := ⟨0, 0⟩, fmts := [(0x20, 8)] }) (.vadd { t := ⟨0, 0⟩, fmts := [(0x20, 7)] })
       (fun n f _ => n.qselsOk f) &&
     onlyCheck (.read { t := ⟨0, 0⟩, reg := some (2, 6) }) (.read { t := ⟨0, 0⟩, reg := some (2, 7) }) (fun _ f i => i.regsOk f) &&
     onlyCheck (.write { t := ⟨0, 0⟩, reg := some (2, 6) }) (.write { t := ⟨0, 0⟩, reg := some (2, 5) })
       (fun _ f i => i.regsOk f) &&
     onlyCheck (.vand { t := ⟨0, 0⟩, fmts := [(0x28, 0)] }) (.vand { t := ⟨0, 0⟩, fmts := [(0x20, 0)] })
       (fun n f _ => n.fmtCodesOk f) &&
     onlyCheck (.qld { t := ⟨0, 0⟩, dep := some (29, 1) }) (.qld { t := ⟨0, 0⟩, dep := some (28, 1) })
       (fun n f _ => n.depOk f)) = true := by decide +kernel

/-! ### A small machine -/

/-- A leaf of 256 KiB at a virtual base, onto a frame. -/
def leafAt (base frame : Nat) : TlbEnt :=
  { ctx := 0, leaf := { depth := 23, base := base, kind := 0, frame := frame, kid := none, priv := false, w := true, rd := true } }

/-- The pages of the small machine: core 0's scratchpad at 0, near store at 0x40000, core 1's scratchpad at 0x80000. -/
def pages : List TlbEnt := [leafAt 0 (scratchBase 0), leafAt 0x40000 0, leafAt 0x80000 (scratchBase 1)]

/-- One die with context 0 on cores 0 and 1 of its first copse; its handler stands at 0x100. -/
def bench : State :=
  { State.reset with
    pending := [], up := true, dhome := 1,
    cores := [(0, { ctx := some 0, tlb := pages }), (1, { ctx := some 0, tlb := pages })],
    copses := [(0, { tlb := pages })], dies := [(0, { summary := [(0, 0, 0, []), (0, 1, 0, [])] })],
    ctxs := [(0, { live := true, tvec := 0x101, rkquota := 8 })] }

/-- The small machine with an instruction at the turn's slot, its node's tokens as given, and a MOV after it. -/
def on (i : Instr) (nd : Node) (s : State := bench) : State :=
  s.modSlot 0 0 fun x =>
    let fl := loneFlight i
    { x with occ := true, fl := some { fl with sheaf := { fl.sheaf with insts := [i, .mov { t := ⟨0, 1⟩ }] }, nodes := [nd, {}] } }

/-- Scalar tokens on the left, right and third port. -/
def sc3 (a : Word) (b : Word := 0) (c : Word := 0) : Node := { l := some (.sc a), r := some (.sc b), x := some (.sc c) }

/-- The instruction fires in a state, and this holds of it. -/
def met (i : Instr) (s : State) (p : Iss → Bool := fun _ => true) : Bool :=
  match s.issuer i with
  | some is => !(is.fl.heldBack is.th is.pos) && !is.anyNull && !is.regBad i && p is
  | none => false

theorem met_spec {i : Instr} {s : State} {p : Iss → Bool} (h : met i s p = true) : ∃ is, Fires i s is ∧ p is = true := by
  unfold met at h
  split at h
  · rename_i is hi
    simp only [Bool.and_eq_true, Bool.not_eq_true'] at h
    exact ⟨is, ⟨hi, h.1.1.1, h.1.1.2, h.1.2⟩, h.2⟩
  · cases h

/-- The state after it, where it answers one. -/
def after (i : Instr) (s : State) (q : State → Bool) : Bool :=
  match exec i s with
  | .next t => q t
  | _ => false

/-- What the MOV after it has received. -/
def received (s : State) : Option Tok := ((s.flight 0 0).bind (·.nodes[1]?)).bind (·.l)

/-- The last action due at commit. -/
def lastDue (s : State) : Option Act := ((s.flight 0 0).bind (·.due.getLast?)).map (·.act)

/-- It fires and delivers this token to the MOV. -/
def sends (i : Instr) (s : State) (t : Tok) (p : Iss → Bool := fun _ => true) : Bool :=
  met i s p && after i s fun u => received u == some t

/-- It fires and leaves this action for commit. -/
def owes (i : Instr) (s : State) (a : Act) (p : Iss → Bool := fun _ => true) : Bool :=
  met i s p && after i s fun u => lastDue u == some a

/-- It fires and its thread takes a trap of this cause. -/
def traps (i : Instr) (s : State) (c : Cause) (p : Iss → Bool := fun _ => true) : Bool :=
  met i s p && after i s fun u => (u.slot 0 0).th.act && field (u.slot 0 0).th.bank0.tcause 0 8 == causeCode c &&
    (u.flight 0 0).isNone

/-- It is ready and waits: nothing changes but what it looks at. -/
def waits (i : Instr) (s : State) (p : Iss → Bool := fun _ => true) : Bool :=
  met i s p && after i s fun u => u.flight 0 0 == s.flight 0 0

/-- A form that delivers to the MOV. -/
def fm (sub : BitVec 6 := 0) : Form := { t := ⟨0, 1⟩, sub := sub }

/-- It delivers a scalar of its scalar operands. -/
def gives (i : Form → Instr) (a b w : Word) (x : Word := 0) (sub : BitVec 6 := 0) : Bool :=
  sends (i (fm sub)) (on (i (fm sub)) (sc3 a b x)) (.sc w)

/-! ### Encoding, the step, memory -/

theorem witness_EncodeThenDecode :
    (Instr.ldf .q { t := ⟨3, 63⟩, lsq := some (31, true), imm := [0x200, 0x3FF, 0] }).form.isSome = true ∧
    (Instr.ldf .q { t := ⟨3, 63⟩, lsq := some (31, true), imm := [0x200, 0x3FF, 0] }).wellFormed = true := by decide

/-- The small machine with no translation held, behind which a walk might go again (R29). -/
def quiet : State := { bench with copses := [] }

/-- Nothing may happen on the idle machine; placed, one instruction may issue; with an input waiting, two steps may happen. -/
theorem witness_StepTakesACandidate :
    quiet.cands = [.clock] ∧ (1 : Nat) ∈ ({ quiet with issued := [1] } : State).issued ∧ (quiet.place (.bri { t := ⟨0, 0⟩, imm := [0] })).cands = [.issue 0 0 0] ∧
    2 ≤ ({ quiet.place (.bri { t := ⟨0, 0⟩, imm := [0] }) with inputs := [.moncfgWrite 0 0] }).cands.length := by decide +kernel

theorem witness_StepRunsTheDecodedInstruction :
    (quiet.place (.exit { t := ⟨0, 0⟩ })).cands = [.issue 0 0 0] ∧
    ((quiet.place (.exit { t := ⟨0, 0⟩ })).flight 0 0).map (·.sheaf.insts) = some [.exit { t := ⟨0, 0⟩ }] ∧
    ({ quiet with pending := [.bringUp] }).cands = [.due .bringUp, .clock] := by decide +kernel

/-- The first step after reset brings the machine up, or a clock passes before it. -/
theorem test_reset_step : State.reset.cands = [.due .bringUp, .clock] := by decide +kernel

theorem witness_StepKeepsMemoryCanonical :
    Memory.wf quiet.mem = true ∧ (match step quiet with | .next t => t.clock == 1 | _ => false) = true := by decide +kernel

/-- The last byte of a sector, a byte that is kept, and one that reads as an unlisted byte does. -/
theorem witness_StoredBytesReadBack :
    Memory.wf ({ bench with mem := [(0x7F, 5)] } : State).mem = true ∧
    ([some 1, none, some 2] : List (Option Byte))[1]? = some none ∧
    ([some 1, none, some 2] : List (Option Byte))[2]? = some (some 2) ∧
    memRead (({ bench with mem := [(0x7F, 5)] } : State).putBytes 0x7E [some 1, none, some 2]).mem 0x7F = 5 ∧
    memRead (({ bench with mem := [(0x7F, 5)] } : State).putBytes 0x7E [some 1, none, some 2]).mem 0x80 = 2 ∧
    (({ bench with mem := [(0x7F, 5)] } : State).putBytes 0x7E [some 0, some 0]).mem = [] ∧
    bench.poolData 0x7D = none ∧ 0x7D % 128 + ([some 1, none, some 2] : List (Option Byte)).length ≤ 128 ∧
    (({ bench with secs := [(0, { zp := true })] } : State).putHome 0x7D [some 1, none, some 2]).homeBytes 0x7C 4 = [0, 1, 0, 2] := by
  decide +kernel

/-! ### Tokens -/

/-- A flight of an ADD at 0 and a MOV at 1, with the MOV's left port as given. -/
def twoFlight (l : Option Tok) (pm : BitVec 2) : Flight :=
  { loneFlight (.add { t := ⟨0, 1⟩ }) with
    sheaf := { (loneFlight (.add { t := ⟨0, 1⟩ })).sheaf with insts := [.add { t := ⟨0, 1⟩ }, .mov { t := ⟨0, 1⟩, pm := pm }] }
    nodes := [sc3 1 2, { l := l }] }

/-- The null target; an empty port; a predicate that matches and one that does not; a port that holds a token. -/
theorem witness_TokenDelivery :
    ((twoFlight none 0).deliver 1 ⟨0, 1⟩ (.sc 3) == some (twoFlight none 0)) = true ∧
    (((twoFlight none 0).deliver 0 ⟨0, 1⟩ (.sc 3)).map (·.nodes)) = some [sc3 1 2, { l := some (.sc 3) }] ∧
    (((twoFlight none 1).deliver 0 ⟨3, 1⟩ (.sc 1)).map (·.nodes)) = some [sc3 1 2, { p := some (.sc 1) }] ∧
    (((twoFlight none 1).deliver 0 ⟨3, 1⟩ (.sc 2)).map (·.nodes)) =
      some [sc3 1 2, { p := some (.sc 2), st := .absorbed }] ∧
    (twoFlight (some (.sc 0)) 0).deliver 0 ⟨0, 1⟩ .null = none ∧
    (let s := (on (.add (fm)) (sc3 1 2)).modFlight 0 0 fun fl => { fl with nodes := [sc3 1 2, { l := some .null }] }
     traps (.add (fm)) s .multipleToken) = true := by decide +kernel

/-- A null token on the left, on the right and on the predicate port. -/
theorem witness_NullTokenFiresWithoutEffect :
    ([(.add (fm), { l := some .null, r := some (.sc 1) }), (.stD (fm), { l := some (.sc 0), r := some .null }),
      (.add { t := ⟨0, 1⟩, pm := 1 }, { l := some (.sc 1), r := some (.sc 1), p := some .null }),
      (.ctlset (fm), { l := some .null, r := some (.sc 1) })] : List (Instr × Node)).all (fun p =>
        match (on p.1 p.2).issuer p.1 with
        | some is => is.anyNull && !(is.fl.heldBack is.th is.pos)
        | none => false) = true ∧
    (after (.add (fm)) (on (.add (fm)) { l := some .null, r := some (.sc 1) }) fun u => received u == some .null) = true := by
  decide +kernel

/-- A dataflow instruction and one that stores answer next states. -/
theorem witness_frames : gives .add 1 2 3 = true ∧ (after (.trap (fm)) (on (.trap (fm)) (sc3 7)) fun _ => true) = true := by
  decide +kernel

/-! ### Pages 0 and 1 (R241 to R249, R253, R256, R257): values worked out from the rules -/

theorem test_sums_and_products :
    (gives .add 0xFFFFFFFFFFFFFFFF 2 1 && gives .sub 0 1 0xFFFFFFFFFFFFFFFF && gives .mul 0xFFFFFFFFFFFFFFFF 3 0xFFFFFFFFFFFFFFFD &&
     gives .mulh 0xFFFFFFFFFFFFFFFF 1 0xFFFFFFFFFFFFFFFF && gives .mulh 0x8000000000000000 0x8000000000000000 0x4000000000000000 &&
     gives .mulhu 0xFFFFFFFFFFFFFFFF 0xFFFFFFFFFFFFFFFF 0xFFFFFFFFFFFFFFFE &&
     gives .and 0xF0 0x3C 0x30 && gives .or 0xF0 0x3C 0xFC && gives .xor 0xF0 0x3C 0xCC && gives .andn 0xF0 0x3C 0xC0 &&
     gives .not 0xF0 0 0xFFFFFFFFFFFFFF0F) = true := by decide +kernel

theorem test_shifts :
    (gives .shl 1 63 0x8000000000000000 && gives .shl 3 65 6 && gives .shr 0x8000000000000000 0x41 0x4000000000000000 &&
     gives .sar 0x8000000000000000 63 0xFFFFFFFFFFFFFFFF && gives .sar 0xFFFFFFFFFFFFFFFD 1 0xFFFFFFFFFFFFFFFE &&
     gives .rot 0x8000000000000001 1 3 && gives .rot 0x8000000000000001 64 0x8000000000000001) = true := by decide +kernel

theorem test_minima_and_widths :
    (gives .min 0xFFFFFFFFFFFFFFFF 1 0xFFFFFFFFFFFFFFFF && gives .max 0xFFFFFFFFFFFFFFFF 1 1 &&
     gives .minu 0xFFFFFFFFFFFFFFFF 1 1 && gives .maxu 0xFFFFFFFFFFFFFFFF 1 0xFFFFFFFFFFFFFFFF &&
     gives .abs 0x8000000000000000 0 0x8000000000000000 && gives .abs 0xFFFFFFFFFFFFFFFE 0 2 &&
     gives .neg 1 0 0xFFFFFFFFFFFFFFFF && gives .sext 0x1280 0 0xFFFFFFFFFFFFFF80 (sub := 0) &&
     gives .sext 0x8000 0 0xFFFFFFFFFFFF8000 (sub := 1) && gives .sext 0x17FFFFFFF 0 0x7FFFFFFF (sub := 2) &&
     gives .zext 0x1280 0 0x80 (sub := 0) && gives .zext 0x18000 0 0x8000 (sub := 1) &&
     gives .zext 0x1FFFFFFFF 0 0xFFFFFFFF (sub := 2)) = true := by decide +kernel

theorem test_tests_and_selection :
    (gives .sel 7 9 7 (x := 1) && gives .sel 7 9 9 (x := 2) && gives .teq 4 4 1 && gives .teq 4 5 0 && gives .tne 4 5 1 &&
     gives .tlt 0xFFFFFFFFFFFFFFFF 0 1 && gives .tlt 0 0 0 && gives .tle 0 0 1 && gives .tltu 0xFFFFFFFFFFFFFFFF 0 0 &&
     gives .tltu 0 1 1 && gives .tleu 1 1 1 && gives .tleu 2 1 0 && gives .pand 3 2 0 && gives .pand 3 1 1 &&
     gives .por 2 4 0 && gives .por 2 5 1 && gives .pnot 2 0 1 && gives .pnot 3 0 0) = true := by decide +kernel

/-- CONST of one and of two IMX syllables, MOV of a vector, NULL. -/
theorem test_moves_and_constants :
    (sends (.const { t := ⟨0, 1⟩, imm := [0x3FD] }) (on (.const { t := ⟨0, 1⟩, imm := [0x3FD] }) {}) (.sc 0xFFFFFFFFFFFFFFFD) &&
     sends (.const { t := ⟨0, 1⟩, imm := [0x1FF, 0x3FF] }) (on (.const { t := ⟨0, 1⟩, imm := [0x1FF, 0x3FF] }) {}) (.sc 0x7FFFF) &&
     sends (.add { t := ⟨0, 1⟩, imm := [0x200] }) (on (.add { t := ⟨0, 1⟩, imm := [0x200] }) { l := some (.sc 1) })
       (.sc 0xFFFFFFFFFFFFFE01) &&
     sends (.mov (fm)) (on (.mov (fm)) { l := some (.ve 5 3) }) (.ve 5 3) &&
     sends (.null (fm)) (on (.null (fm)) {}) .null) = true := by decide +kernel

/-- R245: each corner, and a division by each of a positive and a negative number. -/
theorem test_division :
    (gives .div 7 0 0xFFFFFFFFFFFFFFFF && gives .rem 7 0 7 && gives .divu 7 0 0xFFFFFFFFFFFFFFFF && gives .remu 7 0 7 &&
     gives .div 0x8000000000000000 0xFFFFFFFFFFFFFFFF 0x8000000000000000 &&
     gives .rem 0x8000000000000000 0xFFFFFFFFFFFFFFFF 0 && gives .div 0xFFFFFFFFFFFFFFF9 2 0xFFFFFFFFFFFFFFFD &&
     gives .rem 0xFFFFFFFFFFFFFFF9 2 0xFFFFFFFFFFFFFFFF && gives .rem 7 0xFFFFFFFFFFFFFFFE 1 &&
     gives .divu 0xFFFFFFFFFFFFFFF9 2 0x7FFFFFFFFFFFFFFC && gives .remu 0xFFFFFFFFFFFFFFF9 2 1) = true := by decide +kernel

theorem test_bits :
    (gives .clz 0 0 64 && gives .clz 1 0 63 && gives .clz 0x8000000000000000 0 0 && gives .ctz 0 0 64 &&
     gives .ctz 0x8000000000000000 0 63 && gives .popc 0xFFFFFFFFFFFFFFFF 0 64 && gives .popc 0 0 0 &&
     gives .brev 1 0 0x8000000000000000 && gives .brev 0x8000000000000002 0 0x4000000000000001) = true := by decide +kernel

/-- R256, R257: digit n stands at bits 65 − 2n and 64 − 2n; depths and digits at both ends of their ranges. -/
theorem test_quadrants :
    (gives .qdig 0xC000000000000000 1 3 && gives .qdig 0xC000000000000002 32 2 && gives .qdig 3 33 0 && gives .qdig 3 0 0 &&
     gives .qset 0 1 0xC000000000000000 (x := 7) && gives .qset 3 32 2 (x := 2) && gives .qset 3 33 3 (x := 2) &&
     gives .qset 3 0 3 (x := 2) && gives .qtrunc 0xFFFFFFFFFFFFFFFF 0 0 && gives .qtrunc 0xFFFFFFFFFFFFFFFF 31 0xFFFFFFFFFFFFFFFC &&
     gives .qtrunc 7 40 7 && gives .qparent 7 0 1 && gives .qchild 7 6 30 && gives .qnext 7 31 8 && gives .qnext 7 32 8 &&
     gives .qinter 3 1 11 && gives .qinter 0x80000000 0 0x8000000000000000 &&
     gives .qdepth 5 5 32 && gives .qdepth 4 5 31 && gives .qdepth 0 0x8000000000000000 0 &&
     sends (.qsplit (fm)) (on (.qsplit (fm)) (sc3 11)) (.sc 3)) = true := by decide +kernel

/-! ### Exits, registers -/

/-- The exit of the sheaf. -/
def exits (i : Instr) (nd : Node) (w : Word) : Bool :=
  met i (on i nd) && after i (on i nd) fun u => ((u.flight 0 0).bind (·.exit_)) == some w

/-- Each exit from offset 0 of a sheaf of 32 bytes; a second exit; each disposal; TRAP's codes 255 and 256; MIGRATE in a
rooted thread and in a burr. -/
theorem witness_ExitsAndDisposals :
    (exits (.br (fm)) (sc3 0x40) 0x40 && exits (.ret (fm)) (sc3 0x40) 0x40 && exits (.bri { t := ⟨0, 1⟩, imm := [0x30] }) {} 0x30 &&
     exits (.exit (fm)) {} 0x20 && exits (.call { t := ⟨0, 1⟩, imm := [0x30] }) {} 0x30 &&
     sends (.call { t := ⟨0, 1⟩, imm := [0x30] }) (on (.call { t := ⟨0, 1⟩, imm := [0x30] }) {}) (.sc 0x20)) = true ∧
    ([.br (fm), .ret (fm), .exit (fm), .bri { t := ⟨0, 1⟩, imm := [0] }, .call { t := ⟨0, 1⟩, imm := [0] }] : List Instr).all (fun i =>
      traps i ((on i { l := if i.info.any (·.l == .req .sc) then some (.sc 0) else none }).modFlight 0 0 fun fl => { fl with exit_ := some 0 })
        .multipleExit) = true ∧
    ([(.yield (fm), .yield_), (.park (fm), .park), (.done (fm), .done), (.tret (fm), .tret), (.halt (fm), .halt)] :
        List (Instr × Dispo)).all (fun p =>
      (met p.1 (on p.1 {}) && after p.1 (on p.1 {}) fun u => ((u.flight 0 0).bind (·.dispo)) == some p.2) &&
      traps p.1 ((on p.1 {}).modFlight 0 0 fun fl => { fl with dispo := some .park }) .multipleExit) = true ∧
    ((met (.trap (fm)) (on (.trap (fm)) (sc3 255)) && after (.trap (fm)) (on (.trap (fm)) (sc3 255)) fun u =>
        ((u.flight 0 0).bind (·.dispo)) == some (.softTrap 255)) &&
     traps (.trap (fm)) (on (.trap (fm)) (sc3 256)) .badControlValue &&
     traps (.migrate (fm)) (on (.migrate (fm)) (sc3 0)) .burrOnly &&
     met (.migrate (fm)) ((on (.migrate (fm)) (sc3 0x80000)).modThread 0 0 fun t => { t with kind := .burr }) (fun is =>
       is.burr && is.fl.dispo.isNone && is.lw.toNat < 2 ^ 56 &&
         (match (on (.migrate (fm)) (sc3 0x80000)).xlate is.xer is.ctx is.lw.toNat with | (_, .ok _) => true | _ => false)) &&
     after (.migrate (fm)) ((on (.migrate (fm)) (sc3 0x80000)).modThread 0 0 fun t => { t with kind := .burr }) fun u =>
       ((u.flight 0 0).bind (·.dispo)) == some (.migrate 1 true)) = true := by decide +kernel

/-- A thread whose registers can be told apart. -/
def marked (s : State) : State :=
  s.modThread 0 0 fun t => { t with
    regs := { t.regs with
      g := t.regs.g.set 0 10 |>.set 31 11, v := t.regs.v.set 0 20 |>.set 63 21, q := t.regs.q.set 0 30 |>.set 7 31,
      f := t.regs.f.set 0 40 |>.set 3 41, k := 50, n := 60 }
    ports := [(0, { mode := .fill, buf := [some 70] }), (1, { mode := .drain })] }

/-- The READ of a register. -/
def rd (c : BitVec 2) (n : BitVec 8) : Instr := .read { t := ⟨0, 1⟩, reg := some (c, n), lsq := if c == 3 then some (0, false) else none }
def wr (c : BitVec 2) (n : BitVec 8) : Instr := .write { t := ⟨0, 0⟩, reg := some (c, n), lsq := if c == 3 then some (0, false) else none }

/-- The first and last register of each class. -/
theorem witness_RegisterReadsAndWrites_reads :
    ([(0, 0, .sc 10), (0, 31, .sc 11), (1, 0, .ve 20 0xFFFFFFFFFFFFFFFF), (1, 63, .ve 21 0xFFFFFFFFFFFFFFFF), (2, 0, .sc 50),
      (2, 1, .sc 60), (2, 2, .sc 40), (2, 5, .sc 41), (2, 6, .sc 0x100000000), (2, 8, .sc 30), (2, 15, .sc 31), (3, 0, .sc 70)] :
        List (BitVec 2 × BitVec 8 × Tok)).all (fun p => sends (rd p.1 p.2.1) (marked (on (rd p.1 p.2.1) {})) p.2.2) = true := by
  decide +kernel

/-- The writes of a register that the sheaf has and has not resolved, of K, of RND with each kind of value, and of a port
that is unbound, a fill, and a drain. -/
theorem witness_RegisterReadsAndWrites_writes :
    (let last := fun (u : State) => (u.flight 0 0).bind (·.regw.getLast?)
     let w := fun (c : BitVec 2) (n : BitVec 8) (t : Tok) => on (wr c n) { l := some t }
     let res := fun (c : BitVec 2) (n : BitVec 8) (t : Tok) (r : Reg) =>
       after (wr c n) (w c n t) fun u => last u == some (r, t)
     res 0 31 (.sc 5) (.g 31) && res 1 63 (.ve 5 1) (.v 63) && res 2 8 .null (.q 0) && res 2 0 (.sc 9) .k &&
     res 2 6 (.sc 0x100000006) .rnd && res 2 6 .null .rnd &&
     ([7, 8] : List Word).all (fun x => res 2 6 (.sc x) .rnd && ((match bench.commit 0 0 { loneFlight (wr 2 6) with regw := [(.rnd, .sc x)] } with
        | .error r => r.cause == .badControlValue | .ok _ => false))) &&
     traps (wr 0 31) ((w 0 31 (.sc 5)).modFlight 0 0 fun fl => { fl with regw := [(.g 31, .null)] }) .multipleWrite &&
     (after (wr 2 0) (w 2 0 (.sc 9)) fun u => ((u.flight 0 0).any fun fl => fl.looks == [(0, 0, 9)]) && u.pending.length == 1) &&
     traps (wr 3 2) (marked (w 3 2 (.sc 5))) .runnelUnbound && traps (wr 3 0) (marked (w 3 0 (.sc 5))) .runnelMode &&
     owes (wr 3 1) (marked (w 3 1 (.sc 5))) (.rnwrite 1 5)) = true := by decide +kernel

/-- Registers with an uncorrectable error: a READ of the first and of the last, of another, a policy register, a mask, a
WRITE of part of a word and of all of it; what a commit gives fresh check bits. -/
theorem witness_RegisterReadsAndWrites_errors :
    (let bad := fun (ws : List RegWord) (s : State) => s.modThread 0 0 fun t => { t with bad := ws }
     let errs := fun (i : Instr) (s : State) => after i s fun u =>
       field (u.slot 0 0).th.bank0.tcause 0 8 == causeCode .uncorrectableData && (u.flight 0 0).isNone
     let ld := Instr.ldD { t := ⟨0, 1⟩, reg := some (0, 31), lsq := some (0, false) }
     let va := Instr.vadd { t := ⟨0, 1⟩, fmts := [(0, 0b1010)] }
     let ve : Node := { l := some (.ve 0 0), r := some (.ve 0 0) }
     let put := fun (m : Mask) => bad [(1, 63, 0)] (on (wr 1 63) { l := some (.ve 5 m) })
     errs (rd 0 0) (bad [(0, 0, 0)] (on (rd 0 0) {})) &&
     errs (rd 1 63) (bad [(1, 63, 7)] (on (rd 1 63) {})) &&
     errs (rd 2 15) (bad [(2, 15, 0)] (on (rd 2 15) {})) &&
     sends (rd 0 1) (bad [(0, 0, 0)] (on (rd 0 1) {})) (.sc 0) &&
     errs ld (bad [(0, 31, 0)] (on ld (sc3 0))) && met ld (bad [(0, 30, 0)] (on ld (sc3 0))) &&
     errs va (bad [(2, 10, 0)] (on va ve)) && met va (bad [(2, 9, 0)] (on va ve)) &&
     errs (wr 1 63) (put 1) &&
     (after (wr 1 63) (put 0xFF) fun u => (u.flight 0 0).any fun fl => fl.regw == [(.v 63, .ve 5 0xFF)]) &&
     (({ loneFlight (rd 0 0) with regw := [(.g 0, .sc 1), (.g 1, .null), (.v 2, .ve 0 0xFF)] } : Flight).newThread
         { bad := [(0, 0, 0), (0, 1, 0), (1, 2, 0), (1, 2, 1), (2, 1, 0)] }).bad == [(0, 1, 0), (1, 2, 1)]) = true := by
  decide +kernel

/-- An instruction that answers a next state, and a word that decodes with more behind it. -/
theorem witness_DataflowFrame : after (.add { t := ⟨0, 1⟩ }) (on (.add { t := ⟨0, 1⟩ }) (sc3 1 2)) (fun u => received u == some (.sc 3)) = true := by
  decide +kernel
theorem witness_MemoryFrame : after (rd 0 0) (marked (on (rd 0 0) {})) (fun u => u.mem == bench.mem) = true := by
  decide +kernel
theorem witness_DecodeIsWellFormed : (decodeInstr [0x7800, 0x1234]).any (fun p => p.2 == [0x1234]) = true := by decide +kernel

/-! ### Memory -/

/-- The small machine with bytes in core 0's scratchpad, from its first byte. -/
def padded (bs : List Byte) (s : State := bench) : State := s.putBytes (scratchBase 0) (bs.map some)

/-- The words of a descriptor in core 0's scratchpad at 0x100, virtual and from its first byte. -/
def words (ws : List Word) (s : State := bench) : State :=
  s.putBytes (scratchBase 0 + 0x100) ((ws.flatMap fun w => toBytes 8 w.toNat).map some)

/-- The conditions of `LoadReady` and `StoreReady`, computed. -/
def loadReady (s : State) (is : Iss) (va : Nat) (init : List (Option Byte)) (elem wide : Bool) (blk : Word) : Bool :=
  match s.checkParts is.xer is.ctx is.priv va (init.map Option.isNone) true false (splitAt16 va init.length) with
  | (s1, .ok ps) =>
    (is.fl.touchAll [{ lsn := is.lsnN, kind := .load, va := va, elem := elem,
                       bytes := (init.map Option.isNone).map fun w => if w then some 0 else none }]).isSome &&
    match (s1.acquire is is.pol).fetchParts is va blk init (if wide then joinParts ps else ps) with
    | (_, .ok _) => true
    | _ => false
  | _ => false

theorem loadReady_spec {s : State} {is : Iss} {va : Nat} {init : List (Option Byte)} {elem wide : Bool} {blk : Word}
    (h : loadReady s is va init elem wide blk = true) : ∃ fl t got, LoadReady s is va init elem wide blk fl t got := by
  unfold loadReady at h
  split at h
  · rename_i s1 ps h1
    simp only [Bool.and_eq_true, Option.isSome_iff_exists] at h
    obtain ⟨⟨fl, h2⟩, h3⟩ := h
    split at h3
    · rename_i t got h4
      exact ⟨fl, t, got, s1, ps, h1, h2, h4⟩
    · cases h3
  · cases h

def storeReady (s : State) (is : Iss) (va : Nat) (want : List Bool) (bytes : List (Option Byte)) (elem : Bool) : Bool :=
  match s.checkParts is.xer is.ctx is.priv va want false true (splitAt16 va want.length) with
  | (_, .ok _) =>
    (is.fl.touchAll [{ lsn := is.lsnN, kind := .store, va := va, bytes := bytes, elem := elem, wr := true }]).isSome
  | _ => false

theorem storeReady_spec {s : State} {is : Iss} {va : Nat} {want : List Bool} {bytes : List (Option Byte)} {elem : Bool}
    (h : storeReady s is va want bytes elem = true) : ∃ fl t ps, StoreReady s is va want bytes elem fl t ps := by
  unfold storeReady at h
  split at h
  · rename_i t ps h1
    obtain ⟨fl, h2⟩ := Option.isSome_iff_exists.mp h
    exact ⟨fl, t, ps, h1, h2⟩
  · cases h

/-- A memory form: LSN 0, the policy register G0. -/
def mf (sub : BitVec 6 := 0) : Form := { t := ⟨0, 1⟩, sub := sub, reg := some (0, 0), lsq := some (0, false) }

/-- The thread's policy register. -/
def policy (p : Word) (s : State) : State := s.modThread 0 0 fun t => { t with regs := { t.regs with g := t.regs.g.set 0 p } }

/-- A load at an address of memory 80 81 .. from 0. -/
def loads (i : Instr) (a : Word) (t : Tok) : Bool :=
  sends i (padded ((List.range 80).map fun k => BitVec.ofNat 8 (0x80 + k)) (on i { l := some (.sc a) })) t

/-- R265, R267: each load at 0, at a last byte of a granule, and LDV misaligned; a policy word with REL. -/
theorem witness_LoadsFire :
    (loads (.ldB (mf)) 1 (.sc 0xFFFFFFFFFFFFFF81) && loads (.ldBu (mf)) 1 (.sc 0x81) && loads (.ldH (mf)) 1 (.sc 0xFFFFFFFFFFFF8281) &&
     loads (.ldHu (mf)) 15 (.sc 0x908F) && loads (.ldW (mf)) 0 (.sc 0xFFFFFFFF83828180) && loads (.ldWu (mf)) 0 (.sc 0x83828180) &&
     loads (.ldD (mf)) 0 (.sc 0x8786858483828180) &&
     loads (.ldQ (mf)) 0 (.ve 0x8F8E8D8C8B8A89888786858483828180 0xFFFF) &&
     met (.ldD (mf)) (on (.ldD (mf)) (sc3 15)) (fun is => polOk is.policy true false false &&
       loadReady (on (.ldD (mf)) (sc3 15)) is is.addr (List.replicate 8 none) false false (coverWord is.addr 8)) &&
     met (.ldv (mf)) (on (.ldv (mf)) (sc3 16)) (fun is => polOk is.policy true false false && is.addr % 16 == 0 &&
       loadReady (on (.ldv (mf)) (sc3 16)) is is.addr (List.replicate 64 none) false true (coverWord is.addr 64)) &&
     traps (.ldv (mf)) (on (.ldv (mf)) (sc3 8)) .misalignedAccess &&
     traps (.ldD (mf)) (policy 0x800 (on (.ldD (mf)) (sc3 0))) .badPolicy) = true := by decide +kernel

/-- R268: an LDF in a rooted thread, and in a burr whose byte's follow owner is another core and its own. -/
theorem witness_LoadsFire_follow :
    (let f : Form := { mf with lsq := some (0, true) }
     let burr := fun (a : Word) => (on (.ldf .bu f) (sc3 a)).modThread 0 0 fun t => { t with kind := .burr }
     met (.ldf .bu f) (on (.ldf .bu f) (sc3 0x80000)) (fun is => ((on (.ldf .bu f) (sc3 0x80000)).followsTo is).isNone) &&
     met (.ldf .bu f) (burr 0) (fun is => ((burr 0).followsTo is).isNone && polOk is.policy true false false &&
       loadReady (burr 0) is is.addr [none] false false (coverWord is.addr 1)) &&
     met (.ldf .bu f) (burr 0x80000) (fun is => (burr 0x80000).followsTo is == some 1 &&
       loadReady (burr 0x80000) is is.addr [none] false false (coverWord is.addr 1)) &&
     after (.ldf .bu f) (burr 0x80000) fun u => ((u.flight 0 0).map (·.follow)) == some [(0, 1)]) = true := by decide +kernel

/-- R161, R263: a load after a lower store of the same byte, and one after none. -/
theorem witness_LoadedBytesBecomeTheToken :
    (let fl : Flight := { loneFlight (.ldBu (mf)) with touch := [{ lsn := 0, kind := .store, va := 8, bytes := [some 7] }] }
     let h : Held := { lsn := 1, pos := 0, kind := .load (.zext 1), va := 8, got := [some 1] }
     fl.replay h == [7] && fl.replay { h with va := 9 } == [1] && fl.replay { h with lsn := 0 } == [1]) = true ∧
    (Shape.vec 0xFFFF).token (List.replicate 16 0xFF) = .ve 0xFFFFFFFFFFFFFFFFFFFFFFFFFFFFFFFF 0xFFFF ∧
    (Shape.sext 2).token [0x00, 0x80] = .sc 0xFFFFFFFFFFFF8000 := by decide +kernel

/-- R266, R267: each store's due bytes; ST.q of the valid bytes only; STV misaligned; a policy word with ACQ. -/
theorem witness_StoresFire :
    (let st := fun (i : Instr) (a : Word) (d : Tok) (bs : List (List (Option Byte))) =>
       let s := on i { l := some (.sc a), r := some d }
       met i s (fun is => polOk is.policy false true false) && after i s fun u => match lastDue u with
         | some (.store ps _ _) => ps.map (·.bytes) == bs && (ps.head?.map (·.pa)) == some (scratchBase 0 + a.toNat)
         | _ => false
     let d := Tok.sc 0x8877665544332211
     st (.stB (mf)) 1 d [[some 0x11]] && st (.stH (mf)) 2 d [[some 0x11, some 0x22]] &&
     st (.stW (mf)) 4 d [[some 0x11, some 0x22, some 0x33, some 0x44]] &&
     st (.stD (mf)) 12 d [[some 0x11, some 0x22, some 0x33, some 0x44], [some 0x55, some 0x66, some 0x77, some 0x88]] &&
     st (.stQ (mf)) 0 (.ve 0x0201 2) [[none, some 2] ++ List.replicate 14 none] &&
     st (.stv (mf)) 16 (.ve 0x0201 1) [[some 1] ++ List.replicate 63 none] &&
     met (.stB (mf)) (on (.stB (mf)) (sc3 1)) (fun is => storeReady (on (.stB (mf)) (sc3 1)) is is.addr [true] [some 0] false) &&
     traps (.stv (mf)) (on (.stv (mf)) { l := some (.sc 8), r := some (.ve 0 0) }) .misalignedAccess &&
     traps (.stB (mf)) (policy 0x1000 (on (.stB (mf)) (sc3 1))) .badPolicy) = true := by decide +kernel

/-- R10, R269: byte form at depths 29 to 32 and through a descriptor of a 3 × 3 tensor of bytes; the two faults of R10. -/
theorem witness_QuadrantAccesses :
    (let f := fun (d : BitVec 6) (m : BitVec 4) => ({ mf with dep := some (d, m) } : Form)
     let mem := fun s => padded [1, 2, 3, 4, 5, 6, 7, 8, 9, 10, 11, 12, 13, 14, 15, 16, 17, 18, 19, 20] s
     let desc := fun s => words [0x0, 0x0000000200000002, 0x7, 0x0] s
     let ld := fun (i : Form → Instr) (d : BitVec 6) (m : BitVec 4) (b p : Word) => mem (desc (on (i (f d m)) (sc3 b 0 p)))
     sends (.qld (f 32 0)) (ld .qld 32 0 0 3) (.sc 4) && sends (.qld (f 31 0)) (ld .qld 31 0 4 1) (.sc 0x0C0B0A09) &&
     sends (.qld (f 30 0)) (ld .qld 30 0 0 0) (.ve 0x100F0E0D0C0B0A090807060504030201 0xFFFF) &&
     sends (.qld (f 31 1)) (ld .qld 31 1 0x100 3) (.sc 0x0707070D) &&
     met (.qld (f 31 1)) (ld .qld 31 1 0x100 3) (fun is => match (ld .qld 31 1 0x100 3).qblock is 31 true with
       | (u, .ok q) => polOk is.policy true false false && loadReady u is q.va ((q.want.zip q.pads).map fun (w, p) => if w then none else some p)
           true true (blockWord 31 q.va)
       | _ => false) &&
     met (.qst (f 31 0)) (ld .qst 31 0 4 1) (fun is => match (ld .qst 31 0 4 1).qblock is 31 false with
       | (u, .ok q) => polOk is.policy false true false && storeReady u is q.va q.want ((q.want.zip (scalarBytes 4 is.rw_)).map fun (w, b) =>
           if w then b else none) false
       | _ => false) &&
     traps (.qld (f 31 0)) (ld .qld 31 0 2 0) .blockAlignment && traps (.qst (f 31 1)) (ld .qst 31 1 0x110 0) .badDescriptor) = true ∧
    ((2 : Word).toNat % 4 ^ (32 - 31) ≠ 0 ∧ (0 : Word).toNat % 4 ^ (32 - 4) = 0 ∧
      2 ^ 56 < (0 : Word).toNat + (1 : Word).toNat * 4 ^ (32 - 4) + 4 ^ (32 - 4) ∧
      (0 : Word).toNat + (0 : Word).toNat * 4 ^ (32 - 4) + 4 ^ (32 - 4) ≤ 2 ^ 56) := by decide +kernel

/-- R270, R271: an atomic and a reduction of 4 and of 8 bytes whose checks pass, and misaligned ones. -/
theorem witness_AtomicsAndReductionsFire :
    (let ready := fun (i : Instr) (n : Nat) (kind : TouchKind) (acq : Bool) =>
       met i (on i (sc3 8)) fun is => polOk is.policy acq true acq && is.lw.toNat % n == 0 &&
         match (on i (sc3 8)).checkBytes is.xer is.ctx is.priv is.lw.toNat n true true with
         | (t, .ok [⟨_, m, .mem pa _⟩]) => m == n && t.atomicHome pa &&
             (is.fl.touchAll [{ lsn := is.lsnN, kind := kind, va := is.lw.toNat, bytes := List.replicate n (some 0), wr := true }]).isSome
         | _ => false
     ([(.amadd (mf 1), 8), (.amand (mf), 4), (.amor (mf 1), 8), (.amxor (mf), 4), (.ammin (mf), 4), (.ammax (mf), 4), (.amminu (mf), 4),
       (.ammaxu (mf), 4), (.amswap (mf), 4), (.amcas (mf 1), 8), (.amaddf (mf), 4)] : List (Instr × Nat)).all
         (fun p => ready p.1 p.2 .atomic true && traps p.1 (on p.1 (sc3 6)) .misalignedAtomic) &&
     ([(.redadd (mf 1), 8), (.redmin (mf), 4), (.redmax (mf), 4), (.redand (mf), 4), (.redor (mf), 4), (.redxor (mf 1), 8), (.redaddf (mf), 4)] :
         List (Instr × Nat)).all (fun p => ready p.1 p.2 .red false && traps p.1 (on p.1 (sc3 6)) .misalignedAtomic) &&
     owes (.redadd (mf 1)) (on (.redadd (mf 1)) (sc3 8 5))
       (.red .add 8 5 ⟨8, scratchBase 0 + 8, 0, List.replicate 8 (some 0)⟩ 0 (coverWord 8 8))) = true := by decide +kernel

/-- R272: no valid index; one in range; a column outside the extents.  The tensor has 3 × 3 words of four bytes. -/
theorem witness_GatherFires :
    (let s := fun (m : Mask) (x : Word) => words [0x0, 0x0000000200000002, 0x7, 0x2] (on (.gath (mf)) { l := some (.sc 0x100), r := some (.ve 2 m), x := some (.sc x) })
     met (.gath (mf)) (s 0 0) (fun is => polOk is.policy true false false &&
       match (s 0 0).readTensor is is.lw.toNat with | (_, .ok t) => t.rows == 3 && t.s == 4 | _ => false) &&
     sends (.gath (mf)) (s 0 0) .null && traps (.gath (mf)) (s 15 3) .indexRange &&
     met (.gath (mf)) (s 15 2) (fun is => match (s 15 2).readTensor is is.lw.toNat with
       | (u, .ok t) => (match u.gathPlan is t is.xw.toNat { got := List.replicate 64 (some 0) }
           ((List.range (min 16 (64 / t.s))).map fun j => (j, gathIndex is.r j)) with
         | (_, .ok plan) => (is.fl.touchAll plan.touch).isSome
         | _ => false)
       | _ => false) &&
     after (.gath (mf)) (s 15 2) fun u => ((u.flight 0 0).map (·.held.length)) == some 1) = true := by decide +kernel

/-- R273, R274: each scope of FENCE and each kind of XFENCE, quiet and not. -/
theorem witness_FencesFire :
    (let busy := fun (s : State) => s.modSlot 0 0 fun x => { x with ucnt := 1 }
     ([0, 1, 2, 3, 4] : List (BitVec 6)).all (fun u => owes (.fence (mf u)) (on (.fence (mf u)) {}) (.fence false (2 ≤ u.toNat))) &&
     owes (.fence (mf 5)) (on (.fence (mf 5)) {}) (.fence true true) && waits (.fence (mf 5)) (busy (on (.fence (mf 5)) {})) &&
     ([8, 16, 3, 0, 9, 27] : List (BitVec 6)).all (fun u => owes (.xfence (mf u)) (on (.xfence (mf u)) {}) (.fence false (u.toNat % 8 == 0 || u.toNat / 8 == u.toNat % 8)) &&
       waits (.xfence (mf u)) (busy (on (.xfence (mf u)) {})))) = true := by decide +kernel

/-- R43, R276, R278, R279: a watched word of this core's scratchpad, of another's, and a misaligned one; STW the same and at
near store; PROTB at depths 30 and 31, of the user layer and the supervisor layer, and with a reserved right. -/
theorem witness_WatchesWakesAndGuards :
    (let at_ := fun (i : Instr) (a : Word) => on i (sc3 a 3)
     owes (.watch (mf)) (at_ (.watch (mf)) 0x3FFF8) (.watch 0x7FFF) && owes (.unwatch (mf)) (at_ (.unwatch (mf)) 8) (.unwatch 1) &&
     traps (.watch (mf)) (at_ (.watch (mf)) 4) .watchTarget && traps (.unwatch (mf)) (at_ (.unwatch (mf)) 0x80000) .watchTarget &&
     owes (.stw (mf)) (at_ (.stw (mf)) 0x80008) (.stw ⟨0x80008, scratchBase 1 + 8, 0, [some 3, some 0, some 0, some 0, some 0, some 0, some 0, some 0]⟩ 0
       (coverWord 0x80008 8)) &&
     traps (.stw (mf)) (at_ (.stw (mf)) 0x80004) .stwTarget && traps (.stw (mf)) (at_ (.stw (mf)) 0x40000) .stwTarget) = true ∧
    (let f := fun (d : BitVec 6) => ({ mf with dep := some (d, 0) } : Form)
     let pr := fun (d : BitVec 6) (a c : Word) => on (.protb (f d)) (sc3 a c)
     owes (.protb (f 30)) (pr 30 0x40010 1) (.protb [(0, 2, 0x40010)] false 1) && traps (.protb (f 31)) (pr 31 0x40010 1) .badDepth &&
     traps (.protb (f 30)) (pr 30 0x40010 3) .badControlValue && traps (.protb (f 30)) (pr 30 0x40010 8) .badControlValue &&
     owes (.protb (f 30)) (pr 30 0x40010 4) (.protb [(0, 2, 0x40010)] true 0) &&
     traps (.protb (f 30)) ((pr 30 0x40010 4).modFlight 0 0 fun fl => { fl with sheaf := { fl.sheaf with hdr := { fl.sheaf.hdr with priv := false } } })
       .privilege) = true := by decide +kernel

/-! ### Vectors (R281 to R295): values worked out from the rules -/

/-- A vector whose elements of `sz` bytes repeat a list, all lanes valid. -/
def ve (sz : Nat) (es : List Nat) : Tok :=
  .ve (BitVec.ofNat 512 ((List.range (64 / sz)).foldr (fun j a => (es[j % es.length]?).getD 0 + 2 ^ (8 * sz) * a) 0)) 0xFFFFFFFFFFFFFFFF

/-- A vector form of one format. -/
def vf (code : BitVec 6) (sub : BitVec 6 := 0) : Form := { t := ⟨0, 1⟩, sub := sub, fmts := [(code, 0)] }

/-- Element by element of words that repeat. -/
def maps (i : Form → Instr) (code : BitVec 6) (a b : List Nat) (w : List Nat) (x : List Nat := [0]) (sub : BitVec 6 := 0) : Bool :=
  let sz := fmtSize code.toNat
  sends (i (vf code sub)) (on (i (vf code sub)) { l := some (ve sz a), r := some (ve sz b), x := some (ve sz x) }) (ve sz w)
    fun is => formatOf is == some code.toNat

/-- FP32: 3F800000 is 1, 40000000 is 2, 3F000000 is 1/2, 40400000 is 3, 40800000 is 4, BF800000 is −1. -/
theorem test_float_elements :
    (maps .vadd 0x20 [0x3F800000, 0x40000000] [0x40000000, 0x3F000000] [0x40400000, 0x40200000] &&
     maps .vsub 0x20 [0x3F800000] [0x40000000] [0xBF800000] && maps .vmul 0x20 [0x40000000] [0x3F000000] [0x3F800000] &&
     maps .vfma 0x20 [0x40000000] [0x3F000000] [0x40400000] [0x40000000] &&
     maps .vfms 0x20 [0x40000000] [0x3F000000] [0xBF800000] [0x40000000] &&
     maps .vmin 0x20 [0x00000000] [0x80000000] [0x80000000] && maps .vmax 0x20 [0x80000000] [0x00000000] [0x00000000] &&
     maps .vabs 0x20 [0xBF800000] [0] [0x3F800000] && maps .vneg 0x20 [0x3F800000] [0] [0xBF800000] &&
     maps .vrcp 0x20 [0x40000000] [0] [0x3F000000] && maps .vrsq 0x20 [0x40800000] [0] [0x3F000000] &&
     maps .vexp2 0x20 [0x3F800000] [0] [0x40000000] && maps .vlog2 0x20 [0x40800000] [0] [0x40000000]) = true := by decide +kernel

/-- R286's example: VRCP of 0 in `.b8p4sf` gives 0x7F with SAT and 0x80 without. -/
theorem test_saturation :
    (maps .vrcp 0x0D [0x00] [0] [0x80] && maps .vrcp 0x0D [0x00] [0] [0x7F] (sub := 0x20) &&
     maps .vadd 0x28 [0x7F] [0x01] [0x80] && maps .vadd 0x28 [0x7F] [0x01] [0x7F] (sub := 0x20) &&
     maps .vsub 0x2C [0x01] [0x02] [0xFF] && maps .vsub 0x2C [0x01] [0x02] [0x00] (sub := 0x20) &&
     maps .vabs 0x28 [0x80] [0] [0x80]) = true := by decide +kernel

theorem test_integer_elements :
    (maps .vand 0x2A [0xF0] [0x3C] [0x30] && maps .vor 0x2A [0xF0] [0x3C] [0xFC] && maps .vxor 0x2A [0xF0] [0x3C] [0xCC] &&
     maps .vshl 0x28 [0x81] [9] [0x02] && maps .vshr 0x28 [0x81] [1] [0x40] && maps .vsar 0x2C [0x81] [1] [0xC0] &&
     maps .vmin 0x28 [0xFF] [1] [0xFF] && maps .vmin 0x2C [0xFF] [1] [1] && maps .vmax 0x28 [0xFF] [1] [1] &&
     maps .vneg 0x29 [1] [0] [0xFFFF] && maps .vmul 0x28 [0x10] [0x11] [0x10] && maps .vfma 0x28 [0x10] [0x11] [0x12] [2] &&
     maps .vfms 0x28 [0x10] [0x11] [0x0E] [2]) = true := by decide +kernel

/-- A format that is not one: an inherited code whose shadow holds a reserved code. -/
theorem witness_bad_format :
    (traps (.vadd (vf 0x3C)) ((on (.vadd (vf 0x3C)) { l := some (ve 4 [0]), r := some (ve 4 [0]) }).modThread 0 0 fun t =>
        { t with regs := { t.regs with f := t.regs.f.set 0 0x3000000000000000 } }) .badFormat (fun is => (formatOf is).isNone) &&
     traps (.vcvt { t := ⟨0, 1⟩, fmts := [(0x3C, 0), (0x20, 0)] }) ((on (.vcvt { t := ⟨0, 1⟩, fmts := [(0x3C, 0), (0x20, 0)] })
        { l := some (ve 4 [0]) }).modThread 0 0 fun t => { t with regs := { t.regs with f := t.regs.f.set 0 0x3000000000000000 } })
       .badFormat (fun is => (formatsOf is).isNone)) = true := by decide +kernel

/-- R288 to R290: a compare that is true of every second element, a selection, reductions with and without a valid element, dot
products of integers and of floats. -/
theorem witness_VectorCompareAndReduce :
    (let one := fun (i : Form → Instr) (c sub : BitVec 6) (l r x : Tok) (t : Tok) =>
       sends (i (vf c sub)) (on (i (vf c sub)) { l := some l, r := some r, x := some x }) t fun is => formatOf is == some c.toNat
     one .vcmp 0x2A 2 (ve 4 [0xFFFFFFFF, 1]) (ve 4 [0]) (.sc 0) (.sc 0x0F0F0F0F0F0F0F0F) &&
     one .vcmp 0x20 1 (ve 4 [0x7FC00000]) (ve 4 [0x7FC00000]) (.sc 0) (.sc 0xFFFFFFFFFFFFFFFF) &&
     one .vcmp 0x20 0 (ve 4 [0x80000000]) (ve 4 [0]) (.sc 0) (.sc 0xFFFFFFFFFFFFFFFF) &&
     one .vsel 0x2A 0 (ve 4 [1]) (ve 4 [2]) (.sc 0x0F0F0F0F0F0F0F0F) (ve 4 [1, 2]) &&
     one .vredsum 0x2A 0 (ve 4 [1, 2]) (.sc 0) (.sc 0) (.sc 24) && one .vredsum 0x2A 0 (.ve 7 0) (.sc 0) (.sc 0) .null &&
     one .vredsum 0x20 0 (ve 4 [0x3F800000]) (.sc 0) (.sc 0) (.sc 0x41800000) &&
     one .vredsum 0x20 0 (.ve 0xFFC00001 0xF) (.sc 0) (.sc 0) (.sc 0x7FC00000) &&
     one .vredmax 0x28 0 (ve 1 [0xFF, 0xFE]) (.sc 0) (.sc 0) (.sc 0xFFFFFFFFFFFFFFFF) &&
     one .vredmax 0x2C 0 (ve 1 [0xFF, 0xFE]) (.sc 0) (.sc 0) (.sc 0xFF) && one .vredmax 0x28 0 (.ve 7 0) (.sc 0) (.sc 0) .null &&
     one .vdot 0x28 0 (ve 1 [1]) (ve 1 [0xFF]) (.sc 64) (.sc 0) && one .vdot 0x28 0 (ve 1 [1]) (ve 1 [0xFF]) (.sc 0) (.sc 0xFFFFFFFFFFFFFFC0) &&
     one .vdot 0x20 0 (ve 4 [0x3F800000]) (ve 4 [0x40000000]) (.sc 0) (.sc 0x42000000)) = true := by decide +kernel

/-- R293, R294: each move; VQSHUF at the last level of its format and beyond it; VEXT of an invalid element. -/
theorem witness_VectorMoves :
    (maps .vperm 0x2A [10, 11, 12, 13, 14, 15, 16, 17, 18, 19, 20, 21, 22, 23, 24, 25] [15, 16] [25, 10] &&
     maps .vtrn 0x2A [0, 1, 2, 3, 4, 5, 6, 7, 8, 9, 10, 11, 12, 13, 14, 15] [0] [0, 2, 1, 3, 8, 10, 9, 11, 4, 6, 5, 7, 12, 14, 13, 15] &&
     (let q := fun (v : List (BitVec 10)) (w : Tok) => sends (.vqshuf { vf 0x2A with imm := v }) (on (.vqshuf { vf 0x2A with imm := v })
        { l := some (ve 4 [0, 1, 2, 3, 4, 5, 6, 7, 8, 9, 10, 11, 12, 13, 14, 15]) }) w
      q [0x01B] (ve 4 [3, 2, 1, 0, 7, 6, 5, 4, 11, 10, 9, 8, 15, 14, 13, 12]) &&
      q [0x11B] (ve 4 [12, 13, 14, 15, 8, 9, 10, 11, 4, 5, 6, 7, 0, 1, 2, 3]) &&
      traps (.vqshuf { vf 0x2A with imm := [0x21B] }) (on (.vqshuf { vf 0x2A with imm := [0x21B] }) { l := some (ve 4 [0]) }) .badControlValue) &&
     (let one := fun (i : Form → Instr) (c : BitVec 6) (l r x : Tok) (t : Tok) =>
        sends (i (vf c)) (on (i (vf c)) { l := some l, r := some r, x := some x }) t
      one .vbcast 0x29 (.sc 0x12345) (.sc 0) (.sc 0) (ve 2 [0x2345]) &&
      one .vins 0x2B (ve 8 [1]) (.sc 9) (.sc 15) (ve 8 [1, 1, 1, 1, 1, 1, 1, 9]) &&
      one .viota 0x2B (.sc 0xFFFFFFFFFFFFFFFF) (.sc 0) (.sc 0) (ve 8 [0xFFFFFFFFFFFFFFFF, 0, 1, 2, 3, 4, 5, 6]) &&
      one .vext 0x28 (ve 1 [1, 0x80]) (.sc 0) (.sc 65) (.sc 0xFFFFFFFFFFFFFF80) && one .vext 0x2C (ve 1 [1, 0x80]) (.sc 0) (.sc 65) (.sc 0x80) &&
      one .vext 0x28 (.ve 1 2) (.sc 0) (.sc 0) .null)) = true := by decide +kernel

/-- R291, R292: FP32 to FP16 and back, an overflow with and without SAT, a pack into the second quarter, an unpack of it, and the
spec's scaling example. -/
theorem witness_VectorConversions :
    (let cv := fun (i : Form → Instr) (a b sub : BitVec 6) (l r x : Tok) (t : Tok) =>
       let f : Form := { t := ⟨0, 1⟩, sub := sub, fmts := [(a, 0), (b, 0)] }
       sends (i f) (on (i f) { l := some l, r := some r, x := some x }) t fun is => formatsOf is == some (a.toNat, b.toNat)
     let half := fun (t : Tok) => match t with | .ve d _ => Tok.ve (d.extractLsb' 0 256 |>.zeroExtend 512) 0xFFFFFFFF | t => t
     cv .vcvt 0x20 0x21 0 (ve 4 [0x3F800000]) (.sc 0) (.sc 0) (half (ve 2 [0x3C00])) &&
     cv .vcvt 0x20 0x28 32 (ve 4 [0x43800000]) (.sc 0) (.sc 0) (.ve 0x7F7F7F7F7F7F7F7F7F7F7F7F7F7F7F7F 0xFFFF) &&
     cv .vpack 0x20 0x28 0 (ve 4 [0x40400000]) (ve 1 [9]) (.sc 5)
       (ve 1 (List.replicate 16 9 ++ List.replicate 16 3 ++ List.replicate 32 9)) &&
     cv .vunpack 0x28 0x20 0 (ve 1 (List.replicate 16 9 ++ List.replicate 16 3 ++ List.replicate 32 9)) (.sc 0) (.sc 1) (ve 4 [0x40400000]) &&
     cv .vscale 0x0C 0x20 0 (ve 1 [0x44]) (.sc 0x8585) (.sc 0) (ve 4 [0x42C00000]) &&
     cv .vscale 0x0C 0x20 0 (ve 1 [0x44]) (.sc 0xFF) (.sc 0) (ve 4 [0x7FC00000])) = true := by decide +kernel

/-- The elements of a vector read back, a number of each width at both ends of its range. -/
theorem witness_VectorElementsAndIntegers :
    (elemsOf 1 (vecTok 1 ([some 255, none] ++ List.replicate 62 (some 0))) == [some 255, none] ++ List.replicate 62 (some 0) &&
     addElem 0x28 .rne false 255 255 == 254 && addElem 0x2F .rne true (2 ^ 64 - 1) 1 == 2 ^ 64 - 1 &&
     addElem 0x2B .rne true (2 ^ 63) (2 ^ 63) == 2 ^ 63 && shiftElem shlBits 0x28 .rne false 1 8 == 1) = true := by decide +kernel

/-! ### Matrix -/

/-- A rick in entry 0 of the copse: handle 8 (serial 1), of context 0, with its banks. -/
def rick (st : RkState) (banks : List Nat := [0]) (re : Bool := false) (s : State := bench) : State :=
  s.modCopse 0 fun x => { x with
    ricks := x.ricks.set 0 { handle := 8, ctx := 0, state := st, nbanks := 1, banks := banks, bound := true, refilling := re }
    banks := banks.foldl (fun v b => v.setIfInBounds b (.held 8 none)) x.banks, usedEntry := [0], serial := 2 }

/-- R305, R307, R308: every status of RKALLOC, its counts 1, 8 and 9, and a handle. -/
theorem witness_Ricks_alloc :
    (let at_ := fun (s : State) (n : Word) => on (.rkalloc (fm)) (sc3 n) s
     let al := fun (s : State) (n r : Word) => sends (.rkalloc (fm)) (at_ s n) (.sc r)
     traps (.rkalloc (fm)) (at_ bench 0) .badControlValue && traps (.rkalloc (fm)) (at_ bench 9) .badControlValue &&
     al bench 8 8 && al (rick .ready) 8 0x8000000000000001 &&
     al ((rick .ready [0]).modCopse 0 fun x => { x with ricks := x.ricks.set 0 { x.rick 0 with ctx := 1, pin := true } }) 8 0x8000000000000002 &&
     al (bench.modCopse 0 fun x => { x with usedEntry := [0, 1, 2, 3, 4, 5, 6, 7], ricks := Vector.replicate 8 { state := .evicted } }) 1
       0x8000000000000003 &&
     al (bench.modCopse 0 fun x => { x with serial := 8191 }) 1 65528 &&
     (let x : Copse := { (rick .revoked [0]).copse 0 with rsv := [(0, { handle := 16, ctx := 0, state := .empty })] }
      (x.rsv.get? 0).isSome && (x.rick 0).bound && (x.rick 0).banks != [] && decide ((x.rsv.map Prod.fst).Pairwise (· < ·)))) = true := by
  decide +kernel

/-- R306, R309: an unknown handle, a revoked rick, a ready one; RKFILL of a block of 2 × 2 bytes, of a depth below the tensor's and of a
path beyond it. -/
theorem witness_Ricks_handles :
    (let at_ := fun (i : Instr) (s : State) (h : Word) => on i { l := some (.sc h) } s
     ([(.rkpin (fm), .rkpin 8 true), (.rkunpin (fm), .rkpin 8 false), (.rkrev (fm), .rkrev 8)] : List (Instr × Act)).all (fun p =>
       traps p.1 (at_ p.1 bench 8) .badRick && traps p.1 (at_ p.1 (rick .revoked) 8) .rickRevoked && owes p.1 (at_ p.1 (rick .ready) 8) p.2) &&
     sends (.rkqry (fm)) (at_ (.rkqry (fm)) bench 8) (.sc 7) && sends (.rkqry (fm)) (at_ (.rkqry (fm)) (rick .ready) 8) (.sc 0x12) &&
     (let fl := fun (d : BitVec 6) (p : Word) => on (.rkfill { mf with reg := none, dep := some (d, 1) }) (sc3 8 0x100 p)
        (words [0x40000, 0x0000000100000001, 0, 0] (rick .empty))
      let i := fun (d : BitVec 6) => Instr.rkfill { mf with reg := none, dep := some (d, 1) }
      owes (i 0) (fl 0 0) (.command (.fill 8 [0x40000, 0x0000000100000001, 0, 0] 0 0 true)) &&
      owes (i 1) (fl 1 3) (.command (.fill 8 [0x40000, 0x0000000100000001, 0, 0] 3 1 true)) &&
      traps (i 2) (fl 2 0) .badDepth && traps (i 1) (fl 1 4) .badPath)) = true := by decide +kernel

/-- A core whose ring 1 holds words of FP32-coded tiles: `.b8p4se`, 32 entries. -/
def ringed (s : State) : State := s.modCore 0 fun k => k.setRing 1 { base := 0, en := true, fmt := 0x0C, ent := 32, head := 1 }

/-- R310: a command on each state of its rick, with RFX 0 and 1; a bank the rick does not have. -/
theorem witness_MultiplyCommands :
    (let f : Form := { mf 1 with reg := none, fmts := [(0x0C, 0)] }
     let st := fun (i : Instr) (s : State) (m : Word) => on i (sc3 8 m) (ringed s)
     let rfx := fun (s : State) => s.modCore 0 fun k => { k with mxcfg := 0x1F1 }
     ([(.mma f, false), (.mmaz f, true)] : List (Instr × Bool)).all (fun p =>
       let due := Act.command (.mma p.2 1 1 0 8 0x0C)
       owes p.1 (st p.1 (rick .ready) 8) due && owes p.1 (st p.1 (rick .filling [0] true) 8) due && owes p.1 (st p.1 (rick .stale) 8) due &&
       owes p.1 (st p.1 (rick .evicted []) 8) due && traps p.1 (rfx (st p.1 (rick .stale) 8)) .staleRick &&
       traps p.1 (rfx (st p.1 (rick .evicted []) 8)) .evictedRick && traps p.1 (st p.1 (rick .ready) 9) .badControlValue &&
       traps p.1 (st p.1 (rick .empty) 8) .rickEmpty && traps p.1 (st p.1 bench 8) .badRick)) = true := by decide +kernel

/-- R301, R303, R312 to R314: each at the end of its range and beyond. -/
theorem witness_DrainsRingsAndCounters :
    (let two := fun (i : Instr) (a b : Word) => on i (sc3 a b)
     let dr : Instr := .mdrain { mf 33 with reg := none, fmts := [(0x22, 0)] }
     met dr (two dr 0x1000 63) (fun is => (is.f.fmts.head?.bind fun c => is.th.resolve .drain c.1.toNat) == some 0x22) &&
     (after dr (two dr 0x1000 63) fun u => match lastDue u with
       | some (.command (.drain 1 true 0x22 0x1000 63 _ _ true)) => true
       | _ => false) &&
     traps dr (two dr 0x1000 64) .badControlValue && traps dr (two dr 0x800 63) .misalignedAccess &&
     owes (.mring (fm)) (two (.mring (fm)) 0x80 0x8C81) (.mring 0x80 0x8C81) &&
     traps (.mring (fm)) (two (.mring (fm)) 0x40 0x8C81) .badControlValue &&
     owes (.mtail (fm)) (two (.mtail (fm)) 3 32) (.mtail 3 32) && traps (.mtail (fm)) (two (.mtail (fm)) 4 32) .badControlValue &&
     sends (.mtail (fm)) (ringed (two (.mtail (fm)) 1 0)) (.sc 0x100000001) &&
     owes (.mcnt (fm)) (two (.mcnt (fm)) 7 0) (.mcnt 7) && traps (.mcnt (fm)) (two (.mcnt (fm)) 8 0) .badControlValue &&
     owes (.mthr (fm)) (two (.mthr (fm)) 0xFFFFFFFFFFFF 0) (.mthr 0xFFFFFFFFFFFF) &&
     traps (.mthr (fm)) (two (.mthr (fm)) 0x1000000000000 0) .badControlValue &&
     owes (.mwgt (fm)) (two (.mwgt (fm)) 15 0) (.mwgt 15) && owes (.mwgt (fm)) (two (.mwgt (fm)) 1 0) (.mwgt 1) &&
     traps (.mwgt (fm)) (two (.mwgt (fm)) 16 0) .badControlValue) = true := by decide +kernel

/-! ### Drover, copies, runnels, tags and messages -/

/-- The small machine with an instruction at slot 7. -/
def seven (i : Instr) (nd : Node) (s : State := bench) : State :=
  let t := s.modSlot 0 7 fun x =>
    let fl := loneFlight i
    { x with occ := true, fl := some { fl with sheaf := { fl.sheaf with insts := [i, .mov { t := ⟨0, 1⟩ }] }, nodes := [nd, {}] } }
  { t with turn := { core := 0, slot := 7, pos := 0 } }

/-- What slot 7 owes, or the trap it takes. -/
def owes7 (i : Instr) (s : State) (a : Act) (p : Iss → Bool := fun _ => true) : Bool :=
  met i s p && after i s fun u => ((u.flight 0 7).bind (·.due.getLast?)).map (·.act) == some a
def traps7 (i : Instr) (s : State) (c : Cause) (p : Iss → Bool := fun _ => true) : Bool :=
  met i s p && after i s fun u => field (u.slot 0 7).th.bank0.tcause 0 8 == causeCode c && (u.flight 0 7).isNone

/-- R319: slot 0's own boxes, the drover's boxes of slots 0 and 6, and selectors of other boxes. -/
theorem witness_MailboxesAndMessages_boxes :
    (let w := Instr.mbxw { mf with reg := none }
     let r := Instr.mbxr { mf with reg := none }
     let v := Tok.ve 0x55 1
     let full := fun (k : Nat) (b : Nat) (s : State) => s.modBox 0 k b fun _ => { data := 9, full := true }
     owes w (on w { l := some (.sc 0), r := some v }) (.mbxw 0 0 0x55) (fun is => mbxwOk is) &&
     traps w (on w { l := some (.sc 8), r := some v }) .badControlValue (fun is => !(mbxwOk is)) &&
     traps w (on w { l := some (.sc 1), r := some v }) .badControlValue &&
     waits w (full 0 0 (on w { l := some (.sc 0), r := some v })) &&
     owes7 w (seven w { l := some (.sc 14), r := some v }) (.mbxw 6 1 0x55) (fun is => mbxwOk is) &&
     traps7 w (seven w { l := some (.sc 15), r := some v }) .badControlValue &&
     owes r (full 0 1 (on r (sc3 8))) (.mbxr 0 1 false) (fun is => mbxrOk is && mbxrSource is (full 0 1 (on r (sc3 8))) == some 0) &&
     waits r (on r (sc3 8)) && traps r (on r (sc3 0)) .badControlValue && traps r (on r (sc3 16)) .badControlValue &&
     owes7 r (full 6 0 (seven r (sc3 16))) (.mbxr 6 0 true) (fun is => mbxrSource is (full 6 0 (seven r (sc3 16))) == some 6) &&
     owes7 r (full 0 0 (seven r (sc3 0))) (.mbxr 0 0 false)) = true := by decide +kernel

/-- A stile of core 0 at index 63. -/
def withStile (e : Word) (s : State) : State := s.modCore 0 fun k => { k with stile := [(63, e)] }

/-- A message of channel 5 waits. -/
def mail (s : State) : State := s.modCore 0 fun k =>
  { k with aq := [{ ctx := 0, chan := 4, body := .msg 1 }, { ctx := 0, chan := 5, body := .msg 7 }, { ctx := 0, chan := 5, body := .msg 8 }] }

/-- R337, R338: SEND through a channel stile and a core stile, without one and past the table; WAITMSG and MSGPOP of a channel with
entries, an empty one, an open one and 64. -/
theorem witness_MailboxesAndMessages_messages :
    (let snd := Instr.send { mf with reg := none }
     let ord := Instr.sendOrd { mf with reg := none }
     let at_ := fun (i : Instr) (a : Word) (x : Word) => on i { l := some (.sc a), r := some (.ve 0x99 1), x := some (.sc x) }
     let chan : Word := 0xB000001400000000
     let core : Word := 0x9000000000000000
     let wm := Instr.waitmsg { mf with reg := none }
     let mp := Instr.msgpop { mf with reg := none }
     owes snd (withStile chan (at_ snd 63 0)) (.send chan 5 0x99 false) && owes ord (withStile core (at_ ord 63 63)) (.send core 63 0x99 true) &&
     traps snd (at_ snd 63 0) .stileFault && traps snd (withStile core (at_ snd 63 64)) .badControlValue &&
     traps snd (withStile chan (at_ snd 64 0)) .badControlValue &&
     sends wm (mail (on wm (sc3 5))) (.sc 2) && waits wm (mail (on wm (sc3 63))) && traps wm (mail (on wm (sc3 64))) .badControlValue &&
     owes mp (mail (on mp (sc3 5))) .msgpop (fun is => !(((mail (on mp (sc3 5))).core is.c).chanOpen 5)) &&
     sends mp (mail (on mp (sc3 5))) (.ve 7 0xFFFFFFFFFFFFFFFF) && traps mp (mail (on mp (sc3 64))) .badControlValue &&
     traps mp ((mail (on mp (sc3 5))).modCore 0 fun k => { k with tchan := [(5, 0x8000000000000000)] }) .badControlValue) = true := by
  decide +kernel

/-- A copy of 8 bytes from 0x0 to 0x2000: header and one dimension. -/
def copyWords : List Word := [0x0, 0x2000, 0, 0, 0x1180000000000000, 0, 0, 0, 1, 8, 8]

/-- R323: COPY in slot 0, in slot 7 with its descriptor, and with a bad one. -/
theorem witness_CopiesTagsAndRunnels_copy :
    (let i := Instr.copy { mf with reg := none }
     let s := words copyWords (seven i (sc3 0x100 63))
     traps i (on i (sc3 0x100 63)) .droverOnly &&
     met i s (fun is => match s.copyCheck is.c is.ctx is.priv is.lw is.rw_ with | (_, .ok d) => d.size == 8 && d.total == 1 | _ => false) &&
     (after i s fun u => match ((u.flight 0 7).bind (·.due.getLast?)).map (fun (d : Due) => d.act) with
       | some (Act.copy t d) => t == 63 && d.hdr == copyWords.take 8
       | _ => false) &&
     traps7 i (words [0] (seven i (sc3 0x100 63))) .badDescriptor &&
     traps7 i (words copyWords (seven i (sc3 0x100 64))) .badControlValue) = true := by decide +kernel

/-- R328, R332, R333: tag 0 landed, 63 in error, 5 of an ACQ copy; each wait with none, some and all of its tags. -/
theorem witness_CopiesTagsAndRunnels_tags :
    (let tags := fun (s : State) => s.modCore 0 fun k =>
       { k with ctagf := 1, ctagl := 0x21, ctage := 0x8000000000000000, acqTags := 0x20, busy := 0x24 }
     let at_ := fun (i : Instr) (m : Word) => tags (on i (sc3 m))
     let q := fun (i : Instr) (m : Word) (n : Nat) => (at_ i m).modSlot 0 0 fun x => { x with ucnt := n }
     let wa := fun (l : BitVec 6) => Instr.waitany (fm l)
     let wl := fun (l : BitVec 6) => Instr.waitall (fm l)
     let ff := fun (l : BitVec 6) => Instr.ffr (fm l)
     sends (wa 0) (at_ (wa 0) 3) (.sc 1) && sends (wa 1) (q (wa 1) 0x22 0) (.sc 0x20) && waits (wa 1) (q (wa 1) 0x22 1) &&
     traps (wa 0) (at_ (wa 0) 0) .badControlValue && waits (wa 0) (at_ (wa 0) 0x22) &&
     sends (wl 0) (at_ (wl 0) 0x8000000000000001) (.sc 0x8000000000000001) && sends (wl 1) (q (wl 1) 0x21 0) (.sc 0x21) &&
     waits (wl 0) (at_ (wl 0) 3) && sends (wl 0) (at_ (wl 0) 0) (.sc 0) &&
     sends (ff 0) (at_ (ff 0) 0x8000000000000000) (.sc 63) && sends (ff 0) (at_ (ff 0) 0x8000000000000001) (.sc 0) &&
     sends (.tagclr (fm)) (at_ (.tagclr (fm)) 0x27) (.sc 0x24) && owes (.tagclr (fm)) (at_ (.tagclr (fm)) 0x27) (.tagclr 0x27)) = true := by
  decide +kernel

/-- R334: RNBIND of port 7 in each mode, at its limits; a bound port; RNUNBIND of an unbound, a bound and a busy one. -/
theorem witness_CopiesTagsAndRunnels_runnels :
    (let f := fun (m : BitVec 6) => ({ mf m with reg := some (3, 7) } : Form)
     let i := fun (m : BitVec 6) => Instr.rnbind (f m)
     let at_ := fun (m : BitVec 6) (a x : Word) => on (i m) (sc3 a 0 x)
     let pat : List Word := [0x40, 0x0000000800000004, 1, 1, 1, 0, 0, 0]
     let nbr : Word := 0x8800000000000000
     let port := fun (x : Port) (s : State) => s.modThread 0 0 fun t => { t with ports := [(7, x)] }
     let un := Instr.rnunbind (f 0)
     traps (i 0) (port {} (at_ 0 0x100 0)) .runnelBusy &&
     owes (i 0) (words pat (at_ 0 0x100 0)) (.rnbind 7 0 0x100 0 pat true) && owes (i 1) (words pat (at_ 1 0x100 0)) (.rnbind 7 1 0x100 0 pat true) &&
     traps (i 0) (words pat (at_ 0 0x108 0)) .badDescriptor && traps (i 0) (words (pat.take 4) (at_ 0 0x100 0)) .badDescriptor &&
     owes (i 2) (withStile nbr (at_ 2 63 63)) (.rnbind 7 2 nbr 63 [63] true) && traps (i 2) (withStile nbr (at_ 2 64 0)) .stileFault &&
     traps (i 2) (at_ 2 63 0) .stileFault &&
     owes (i 3) ((at_ 3 3 0).modCore 0 fun k => k.setRing 3 { en := true }) (.rnbind 7 3 3 0 [] true) &&
     traps un (on un {}) .runnelUnbound && owes un (port {} (on un {})) (.rnunbind 7) &&
     owes un (port { mode := .drain } (on un {})) (.rnunbind 7) && owes un (port { mode := .nbr } (on un {})) (.rnunbind 7) &&
     waits un (port { mode := .drain, buf := [some 1] } (on un {})) && waits un (port { mode := .nbr, unack := 1 } (on un {}))) = true := by
  decide +kernel

/-! ### Spawning, crofts, neighbours and flocks -/

/-- R353 to R356: SPAWN with a reserved bit, with no live die allowed, and sent; SPAWNB at a first serial of a half with live burrs,
into a channel that takes no burrs, and sent. -/
theorem witness_Spawning :
    (let sp := Instr.spawn { mf with reg := none }
     let sb := Instr.spawnb { mf with reg := none }
     let at_ := fun (i : Instr) (w k : Word) => on i { l := some (.sc w), r := some (.ve 0x11 0xFF), x := some (.sc k) }
     let core := fun (g : Core → Core) (s : State) => s.modCore 0 g
     let bur := core fun k => { k with tchan := [(63, 0xC000000000000000)] }
     traps sp (at_ sp 0x100 0) .badControlValue && traps sp (at_ sp 0x40 0) .badControlValue &&
     traps sp (at_ sp 0x000200000000 0) .noDie &&
     (met sp (at_ sp 0x1000000BF 0) (fun is => spawnCtlOk is.lw false) && after sp (at_ sp 0x1000000BF 0) fun u => match lastDue u with
       | some (.spawn p mi) => p.chan == 63 && p.daff == 1 && p.a0 == 0x11 && mi
       | _ => false) &&
     waits sb (core (fun k => { k with serial := 0x100000, live1 := 1 }) (at_ sb 63 0)) &&
     traps sb (at_ sb 63 0) .badControlValue && traps sb (bur (at_ sb 0x10000003F 0)) .badControlValue &&
     (met sb (bur (at_ sb 63 5)) && after sb (bur (at_ sb 63 5)) fun u => received u == some (.sc 0) && (u.core 0).serial == 1 &&
       u.pending == [.ownerLookup { core := 0, slot := 0, run := ((on sb {}).flight 0 0).elim 0 (·.run), lsn := 0 } 5]) &&
     (after sb (core (fun k => { k with tchan := [(63, 0xC000000000000000)], serial := 0x1FFFFF }) (at_ sb 63 5)) fun u =>
       received u == some (.sc 0x1FFFFF) && (u.core 0).serial == 0)) = true := by decide +kernel

/-- A croft map in core 0's scratchpad: root record at 0x200 (version 7, halo 2, one free node at 0x280), first node at 0x240 with
quadrant 0 to 2 of core 0 and quadrant 3 of core 1. -/
def mapped (s : State) : State :=
  (s.putBytes (scratchBase 0 + 0x200)
    (((([0x0000000700000002, 0x280, 0x240, 0, 0, 0, 0, 0, 0xC000000000000000, 0xC000000000000000, 0xC000000000000000, 0xC000000000000001,
      0, 0, 0, 0, 0, 0, 0, 0] : List Word).flatMap fun w => toBytes 8 w.toNat)).map some)).modCore 0 fun k => { k with croot := 0x201 }

/-- R341, R344, R346, R352: KSET, KGET, CMAP of an owned point and without a map; NBR and NBRN inside the halo and beyond it; the
map updates ready, with no map and with bad operands. -/
theorem witness_CoordinatesAndMapUpdates :
    (let cm := Instr.cmap (fm)
     let nb := Instr.nbr (fm)
     let nn := Instr.nbrn (fm)
     let tab := fun (s : State) => s.modCore 0 fun k => { k with table := [(9, 0x0000000000000001), (3, 0x0000000100000000), (4, 0x500000000)] }
     let ready := fun (i : Instr) (kind : Nat) (a b : Word) =>
       let s := mapped (on i (sc3 a b))
       met i s (fun is => match s.checkBytes is.xer is.ctx true (s.core is.c).crootAddr 16 true true with
         | (s1, .ok [⟨_, _, .mem _ _⟩]) => match s1.rootRecord is.c is.ctx with
           | (s2, .ok root) => match s2.mapChange is.c is.ctx kind is.lw is.rw_ root with
             | (s3, .ok m) => (match (s3.mapPieces is.c is.ctx m.writes).2 with | .ok _ => true | _ => false) &&
               (is.fl.touchAll [{ lsn := 32 + is.pos, kind := .atomic, va := (s.core is.c).crootAddr, bytes := List.replicate 16 (some 0), wr := true }]).isSome
             | _ => false
           | _ => false
         | _ => false) && after i s fun u => lastDue u == some (.mapUpdate kind a b)
     gives .kset 0x1FFFFFFFF 2 0xFFFFFFFF00000002 && gives .kget 0x0000000100000001 0 3 &&
     sends cm (mapped (on cm (sc3 0x8000000080000000))) (.sc 0x0000000700018001) && sends cm (mapped (on cm (sc3 0))) (.sc 0x0000000700018000) &&
     met cm (on cm (sc3 0)) (fun is => ((on cm (sc3 0)).lookup is.c is.ctx is.lw false).2.2.isNone) &&
     sends nb (mapped (tab (on nb (sc3 2 0)))) (.ve 0x100000000000000000000000300000000000000010000000000000009 0xFFFFFFFF) &&
     met nb (mapped (tab (on nb (sc3 2 65535)))) (fun is => (neighbours is (mapped (tab (on nb (sc3 2 65535)))) 65535).toOption.isSome) &&
     sends nn (mapped (tab (on nn (sc3 2)))) (.sc 2) && traps nb (mapped (tab (on nb (sc3 3 0)))) .badControlValue &&
     traps nb (mapped (tab (on nb (sc3 2 65536)))) .badControlValue &&
     ready (.csplit (fm)) 0 0 0 && traps (.csplit (fm)) (on (.csplit (fm)) (sc3 0 0)) .croftUnmapped &&
     ready (.chand (fm)) 2 0 1 && traps (.chand (fm)) (mapped (on (.chand (fm)) (sc3 0 2048))) .badControlValue &&
     traps (.chand (fm)) (mapped (on (.chand (fm)) (sc3 0 2))) .badControlValue && traps (.chand (fm)) (on (.chand (fm)) (sc3 0 1)) .croftUnmapped &&
     ready (.hedge (fm)) 3 65536 0 && traps (.hedge (fm)) (mapped (on (.hedge (fm)) (sc3 65537 0))) .badControlValue &&
     traps (.hedge (fm)) (on (.hedge (fm)) (sc3 0 0)) .croftUnmapped &&
     traps (.cmerge (fm)) (on (.cmerge (fm)) (sc3 0 0)) .croftUnmapped &&
     (let split := fun (s : State) => s.putBytes (scratchBase 0 + 0x240)
        ((([0x8000000000000280, 0, 0, 0, 0, 0, 0, 0, 0xC000000000000000, 0xC000000000000000, 0xC000000000000000, 0xC000000000000000] : List Word).flatMap
          fun w => toBytes 8 w.toNat).map some)
      let s := split (mapped (on (.cmerge (fm)) (sc3 0 0)))
      after (.cmerge (fm)) s fun u => lastDue u == some (.mapUpdate 1 0 0))) = true := by decide +kernel

/-- R360 to R365: flock ids 0, 1, 255 and 256; FBAR of a joined and another flock; TBLK of an own channel, TUBL through a stile and
without one; TSET with a reserved bit and of channel 64; SETRND of modes 6 and 7. -/
theorem witness_FlocksChannelsRounding :
    (let fj := Instr.fjoin { mf with reg := none }
     let fl := Instr.fleave { mf with reg := none }
     let fb := Instr.fbar { mf with reg := none }
     let tb := Instr.tblk { mf with reg := none }
     let tu := Instr.tubl { mf with reg := none }
     let ts := Instr.tset { mf with reg := none }
     let sr := Instr.setrnd { mf with reg := none }
     let joined := fun (s : State) => s.modThread 0 0 fun t => { t with memb := 0xFF000000 }
     owes fj (on fj (sc3 1)) (.fjoin 1) && owes fj (on fj (sc3 255)) (.fjoin 255) && owes fl (on fl (sc3 1)) (.fleave 1) &&
     traps fj (on fj (sc3 0)) .badControlValue && traps fl (on fl (sc3 256)) .badControlValue &&
     owes fb (joined (on fb (sc3 255))) (.fbar 255) && traps fb (joined (on fb (sc3 254))) .flockMember &&
     owes tb (on tb (sc3 63)) (.chan 0 63 true true) && owes tu (withStile 0x8000010000000000 (on tu (sc3 0x3FBF))) (.chan 1 63 false false) &&
     traps tu (on tu (sc3 0x3FBF)) .stileFault && traps tb (on tb (sc3 0x40)) .badControlValue &&
     owes ts (on ts (sc3 63 0x8000000000000000)) (.tset 63 0x8000000000000000) && traps ts (on ts (sc3 64 0)) .badControlValue &&
     traps sr (on sr (sc3 7 0)) .badControlValue &&
     met sr (on sr (sc3 6 0)) (fun is => is.fl.regw.all fun e => e.1 != .rnd) &&
     after sr (on sr (sc3 6 0)) fun u => ((u.flight 0 0).map (·.rndMode)) == some (some (6, none))) = true := by decide +kernel

/-! ### System instructions -/

/-- The same in a sheaf that is not privileged. -/
def user (s : State) : State := s.modSlot 0 0 fun x => { x with fl := x.fl.map fun fl =>
  { fl with sheaf := { fl.sheaf with hdr := { fl.sheaf.hdr with priv := false } } } }

/-- R374: registers at their last index and beyond, unknown ones, privileged ones in both modes, TCAUSE of bank 0, and values that a
register refuses. -/
theorem witness_ControlRegisters :
    (let g := Instr.ctlget (fm)
     let w := Instr.ctlset { mf with reg := none }
     let pg := fun (a : Word) => on g (sc3 a)
     let gt := fun (a : Word) => user (pg a)
     let pst := fun (a v : Word) => on w (sc3 a v)
     let st := fun (a v : Word) => user (pst a v)
     traps g (gt 0) .badControlValue && traps g (gt 0x0102) .badControlValue && traps g (gt 0x10501) .badControlValue &&
     traps g (gt 0x1300) .badControlValue && sends g (gt 0x0600) (.sc 0x101) && sends g (gt 0x283F) (.sc 0) && sends g (gt 0x27FF) (.sc 0) &&
     traps g (gt 0x1000) .privilege && sends g (pg 0x1000) (.sc 0) (fun is => is.priv) &&
     traps g (gt 0x180F) .privilege && sends g (pg 0x180F) (.sc 0) && sends g (gt 0x0101) (.sc 0) &&
     (sends g (gt 0x0100) (.sc 0) && after g (gt 0x0100) fun u => ((u.flight 0 0).map (·.tcause)) == some true) &&
     traps w (st 0x3A00 0) .badControlValue && traps w (st 0x3001 0) .badControlValue && traps w (st 0x13000 0) .badControlValue &&
     traps w (st 0x2000 0) .privilege && traps w (pst 0x2000 0) .privilege && traps w (st 0x0600 0) .privilege &&
     owes w (pst 0x0600 1) (.ctlset 6 0 1) && traps w (pst 0x0600 2) .badControlValue &&
     owes w (st 0x3000 0x1FF) (.ctlset 0x30 0 0x1FF) && traps w (st 0x3000 0x200) .badControlValue &&
     owes w (pst 0x27FF 255) (.ctlset 0x27 255 255) && traps w (pst 0x27FF 256) .badControlValue) = true := by
  decide +kernel

/-- R376, R379, R380: PREEMPT at its widest target and action 3; SAVEC of a cached entry, misaligned and without one; LOADC of
bytes that are no image, misaligned and into a core of another context. -/
theorem witness_PreemptionAndImages :
    (let p := Instr.preempt { mf with reg := none }
     let sv := Instr.savec { mf with reg := none }
     let ld := Instr.loadc { mf with reg := none }
     let cached := fun (s : State) => s.modCore 1 fun k => { k with cache := [(15, { th := {} })] }
     let at_ := fun (a c x : Word) => cached (on sv (sc3 a c x))
     owes p (on p (sc3 0x7FFF)) (.preempt 0x7FFF) (fun is => preAct is.lw != 3) &&
     met p (on p (sc3 0xFFFFF)) && traps p (on p (sc3 0x100000)) .badControlValue &&
     met sv (at_ 0x1000 0x7801 0) (fun is => is.lw.toNat % 64 == 0 && is.rw_.toNat < 2 ^ 18 && windowOk is.rw_ is.xw &&
       ((at_ 0x1000 0x7801 0).savEntry is.ctx is.rw_).isSome && !(((at_ 0x1000 0x7801 0).ctx is.ctx).saveStops (savNew is.rw_))) &&
     traps sv (at_ 0x1001 0x7801 0) .badControlValue && traps sv (at_ 0x1000 0x40000 0) .badControlValue &&
     traps sv (at_ 0x1000 0x7800 0) .badControlValue &&
     traps sv ((at_ 0x1000 0x7801 0).modCore 1 fun k => { k with cache := [(15, { th := { bad := [(0, 0, 0)] } })] }) .uncorrectableData &&
     (let win := on sv { l := some (.sc 0x1000), r := some (.sc 0x17801), x := some (.sc 0x100000000) }
      let lost : State := { cached win with secs := [(scratchBase 1 / 128, { bad := 1 })] }
      met sv (cached win) (fun is => windowOk is.rw_ is.xw && !((cached win).windowLost (savCore is.rw_) (savWindow is.rw_ is.xw))) &&
      traps sv lost .uncorrectableData (fun is => windowOk is.rw_ is.xw && lost.windowLost (savCore is.rw_) (savWindow is.rw_ is.xw))) &&
     sends ld (on ld (sc3 0x1000 1)) (.sc 4) && traps ld (on ld (sc3 0x1001 1)) .badControlValue &&
     traps ld (on ld (sc3 0x1000 0x20000)) .badControlValue && traps ld (on ld (sc3 0x1000 2)) .badControlValue) = true := by
  decide +kernel

/-! ### Steps of the device -/

/-- An event is in hand, the condition holds of the state that has taken it up, its row answers a next state, and this holds of
that. -/
def doing (e : Event) (s : State) (w : State → Bool := fun _ => true) (q : State → Bool := fun _ => true) : Bool :=
  let u := { s with event := some e }
  w u.taken && after e.instr u q

/-- A thread at a boundary of slot 0, its N as given. -/
def atSheaf (n : Word) (s : State := bench) : State :=
  s.modSlot 0 0 fun x => { x with occ := true, th := { x.th with regs := { x.th.regs with n := n } } }

/-- Bytes in core 0's instruction store at an offset. -/
def coded (n : Nat) (bs : List Byte) (s : State) : State := s.putBytes (istoreBase 0 + n) (bs.map some)

/-- R158, R211, R217: a sheaf of one EXIT at the last 16-byte boundary that holds it, a misaligned N, N beyond the store, and a header
with a reserved bit. -/
theorem witness_FetchDecodesTheSheaf :
    (let sheaf : List Byte := List.replicate 16 0 ++ [0x00, 0x78]
     let s := coded 0x1FFE0 sheaf (atSheaf 0x1FFE0)
     let ok := fun (u : State) => u.mayFetch 0 0 && (u.slot 0 0).th.moveTo.isNone
     let trap := fun (c : Cause) (u : State) => field (u.slot 0 0).th.bank0.tcause 0 8 == causeCode c
     doing (.sheafFetch 0 0) s ok (fun u => ((u.flight 0 0).map fun fl => fl.sheaf.insts) == some [.exit { t := ⟨0, 0⟩ }]) &&
     (let read : List Byte := [1] ++ List.replicate 15 0 ++ [0, 0xEC, 1, 0, 1, 0x74]
      doing (.sheafFetch 0 0) ((coded 0 read (atSheaf 0)).modThread 0 0 fun t => { t with soft := [(0, 0, 0), (0, 1, 0)] }) ok
        (fun u => (u.slot 0 0).th.soft == [(0, 1, 0)] && u.fixedSum 0 == 1)) &&
     doing (.sheafFetch 0 0) { s with secs := [((istoreBase 0 + 0x1FFE0) / 128, { bad := 0x1000 })] } (fun u => ok u && u.codeBad 0 0x1FFE0 18)
       (trap .uncorrectableData) &&
     doing (.sheafFetch 0 0) (atSheaf 8) ok (trap .sheafAddress) && doing (.sheafFetch 0 0) (atSheaf 0x20000) ok (trap .sheafAddress) &&
     doing (.sheafFetch 0 0) (coded 0 (List.replicate 15 0 ++ [1]) (atSheaf 0)) ok
       (fun u => (u.slot 0 0).th.bank0.tcause == 0x101 &&
         (u.slot 0 0).th.bank0.taddr == blockWord 32 (istoreBase 0))) = true := by decide +kernel

/-- A complete sheaf: G0 receives 7, G1 null, V1 null, K 9 and Q0 5; it exits to 0x40. -/
def finished (d : Option Dispo) : Flight :=
  let fl := loneFlight (.exit { t := ⟨0, 0⟩ })
  { fl with sheaf := { fl.sheaf with hdr := { fl.sheaf.hdr with gmask := 3, vmask := 2, qmask := 1 } }
            nodes := [{ st := .fired }], exit_ := some 0x40, dispo := d
            regw := [(.g 0, .sc 7), (.g 1, .null), (.v 1, .null), (.k, .sc 9), (.q 0, .sc 5)] }

/-- R160, R161, R375: a commit, one that faults, a withdrawn sheaf, a stuck one; the sheaf's commit without and with TRET. -/
theorem witness_SheafCommit :
    (let put := fun (fl : Flight) (s : State) => s.modSlot 0 0 fun x => { x with occ := true, fl := some fl }
     let cm := Event.sheafCommit 0 0
     let burr := fun (s : State) => s.modThread 0 0 fun t => { t with kind := .burr }
     let ok := fun (fl : Flight) (u : State) => fl.complete && fl.withdrawTo.isNone && !(u.commitWaits 0 0 fl)
     let fin := finished none
     doing cm (put fin bench) (ok fin) (fun u => (u.slot 0 0).th.regs.n == 0x40 && (u.slot 0 0).th.regs.g[0] == 7 &&
       (u.slot 0 0).th.regs.k == 9 && (u.slot 0 0).th.regs.q[0] == 5) &&
     (let bad := { fin with due := [⟨none, 0, .fjoin 5⟩] }
      doing cm ((put bad bench).modThread 0 0 fun t => { t with memb := 0x04030201 }) (ok bad)
        (fun u => field (u.slot 0 0).th.bank0.tcause 0 8 == causeCode .flockFull)) &&
     (let odd := { fin with regw := fin.regw ++ [(.rnd, .sc 7)] }
      let st := { fin with due := [⟨some 3, 0, .store [{ va := 0, pa := scratchBase 0, kid := 0, bytes := [some 1] }] 0 0⟩] }
      let lost : State := { put st bench with secs := [(scratchBase 0 / 128, { bad := 1 })] }
      doing cm (put odd bench) (fun u => ok odd u && odd.badRnd) (fun u => field (u.slot 0 0).th.bank0.tcause 0 8 == causeCode .badControlValue) &&
      doing cm lost (fun u => ok st u && !(st.badRnd) && st.acts.length == 1) (fun u => (u.slot 0 0).th.bank0.tcause == 0x8C000 + wd (causeCode .uncorrectableData))) &&
     (let away := { fin with follow := [(3, 1), (2, 0)] }
      doing cm (burr (put away bench)) (fun _ => away.complete && away.withdrawTo == some 0)) &&
     (let plain := fun (fl : Flight) (w : State → Bool) (s : State) => doing cm (put fl s) (fun u => ok fl u && !fl.badRnd && fl.due.isEmpty && fl.follow.isEmpty) w
      let rnd := fun (u : State) => (u.slot 0 0).th.regs.rnd
      let six := bench.modThread 0 0 fun t => { t with regs := { t.regs with rnd := 0x100000006 } }
      plain { fin with regw := fin.regw ++ [(.v 0, .ve 0x0203 1), (.rnd, .sc 5)] } (fun u => (u.slot 0 0).th.regs.v[0] == 3 && rnd u == 0x100000005) bench &&
      plain { fin with rndMode := some (2, none) } (fun u => rnd u == 0x100000002) six &&
      plain { fin with rndMode := some (2, some 0) } (fun u => rnd u == 0x100000002) six &&
      ok { fin with rounded := true } (put { fin with rounded := true } six) && (rnd six).toNat % 8 == 6 && plain fin (fun u => rnd u == 0x100000006) six) &&
     doing cm (put { fin with exit_ := none } bench) (fun u => u.stuck 0 0)
       (fun u => field (u.slot 0 0).th.bank0.tcause 0 8 == causeCode .sheafStuck) &&
     ((put (finished (some .tret)) bench).slot 0 0).th.kind == .rooted) = true ∧
    ((finished (some .tret)).regw.map Prod.fst).Nodup ∧ (finished (some .tret)).due = [] ∧
    (∀ e ∈ (finished none).regw, e.1 = .g 1 → e.2 = .null) ∧ (∀ e ∈ (finished none).regw, e.1 = .v 1 → e.2 = .null) ∧
    (∀ e ∈ (finished none).regw, e.1 = .g 31 → e.2 = .null) ∧ (∀ e ∈ (finished none).regw, e.1 = .q 7 → e.2 = .null) := by
  decide +kernel

/-- R368 to R371: a rooted thread with a handler, with ACT set and without a handler, and a burr; the widest record; trap entry after
TRAP and an imprecise trap. -/
theorem witness_TrapEntry :
    (let th := fun (g : Thread → Thread) => (atSheaf 0x80).modThread 0 0 g
     let none_ := (atSheaf 0x80).modCtx 0 fun x => { x with tvec := 0x100 }
     (bench.flight 0 0).isNone && ((atSheaf 0x80).ctx 0).tvec.getLsbD 0 && !((th id).slot 0 0).th.act &&
     ((th fun t => { t with act := true }).slot 0 0).th.act && !((none_.ctx 0).tvec.getLsbD 0) &&
     ((th fun t => { t with kind := .burr }).slot 0 0).th.kind == .burr &&
     (tcauseWord { cause := .flockFull, dcode := 63, lsn := some 31, imp := true }) == 0x1FFF67 &&
     doing (.trapEntry 0 0 { cause := .softTrap }) ((atSheaf 0x80).modSlot 0 0 fun x => { x with disp := some (.softTrap 255) })
       (fun u => (u.slot 0 0).disp == some (.softTrap 255)) (fun u => (u.slot 0 0).th.bank0.taddr == 255 && (u.slot 0 0).th.regs.n == 0x100) &&
     doing (.impreciseTrap 0 0) (th fun t => { t with imps := [{ cause := .keyMismatch, imp := true, addr := some 0, blockp := some 0 }] })
       (fun u => (u.slot 0 0).mayTrap) (fun u => (u.slot 0 0).th.hnd && (u.slot 0 0).th.imps.isEmpty)) = true := by decide +kernel

/-! #### Homes -/

/-- A request of slot 0 of core 0. -/
def req (pa : Nat) (acc : Access) : Req :=
  { agent := .slot 0 0, tag := { core := 0, slot := 0, run := 0, lsn := 0 }, ctx := 0, kid := 0, pa := pa, va := pa, acc := acc }

/-- A granule whose reservation another request holds. -/
def heldGranule (g : Nat) (s : State := bench) : State :=
  { s with resvs := [(g, [{ req := { req (16 * g) (.reserve 8) with tag := { core := 1, slot := 0, run := 0, lsn := 0 } }, granted := true }])] }

/-- Served at once, and behind a reservation of its granule. -/
def servesAt (e : Req → Event) (r : Req) (s : State := bench) (w : State → Bool := fun _ => true) : Bool :=
  doing (e r) s (fun u => w u && (touched r).all fun x => (u.resv x).isEmpty) &&
  (match touched r with
   | x :: _ => doing (e r) (heldGranule x s) (fun u => w u && !(u.resv x).isEmpty) (fun u => (u.resv x).length == 2)
   | [] => false)

/-- The four cases of a step whose request goes over a stream: it leaves, is held, completes, and completes under a dropped key. -/
def overStream (e : Event) (s : State) (link : State → Option (Nat × Nat)) : Bool :=
  match link s with
  | none => false
  | some (g, j) =>
    let sent := s.sealPkt g j e (some (some e))
    doing e s (fun u => link u == some (g, j) && (u.sentOn g j e).isNone && !((u.stream g j).stuck)) (fun u => u.pending == [e]) &&
    doing e (s.modStream g j fun x => { x with cnt := cntEnd }) (fun u => link u == some (g, j) && (u.sentOn g j e).isNone && (u.stream g j).stuck)
      (fun u => u.pending.isEmpty && (u.stream g j).held == [e]) &&
    doing e sent (fun u => link u == some (g, j) && (u.sentOn g j e).any fun x => x.phase == (u.stream g j).ph)
      (fun u => (u.sentOn g j e).isNone) &&
    doing e (sent.modStream g j fun x => { x with ph := true })
      (fun u => link u == some (g, j) && (u.sentOn g j e).any fun x => x.phase != (u.stream g j).ph && !((u.stream g j).oldrx))
      (fun u => (u.sentOn g j e).isNone)

/-- R52, R60, R62, R63, R95, R139, R142, R143, R278, R394, R395, R433: each kind of home, free and reserved, over a stream and
not; a pool line that is pending, that misses, and one that starts; a host's code store; the answers to a read, to a read of a
bad word and to a reduction. -/
theorem witness_HomeAccesses :
    (let sp := scratchBase 0
     let far := fun (pa : Nat) (a : Access) => req pa a
     let cached : State := { bench with pccfg := 1 }
     servesAt .scratchpadAccess (far (sp + 0x3FFF8) (.read 8)) &&
     servesAt .reductionApply (far sp (.red .add 4 1)) &&
     servesAt .gatherHomeRead (far sp (.gath [(0, sp, 4, 0x40)])) &&
     servesAt .stwApply (far sp (.wake 1)) &&
     servesAt .sliceAccess (far 0 (.read 8)) bench (fun u => (u.linkOf (far 0 (.read 8))).isNone && !(u.poolPending 0) && !(u.poolMiss 0)) &&
     overStream (.poolAccess (far poolBase (.read 8))) bench (fun u => u.linkOf (far poolBase (.read 8))) &&
     (let r := far 8 (.read 16)
      let u : State := { bench with resvs := [(1, [{ req := { req 16 (.reserve 8) with tag := { core := 1, slot := 0, run := 0, lsn := 0 } }, granted := true }])] }
      (reqParts (u.stamp r)).length == 2 && (u.waitsAt (u.stamp r) none) == some 1 && ((u.atHome .sliceAccess r).resv 1).length == 2) &&
     (let r := far poolBase (.read 8)
      let pend := (cached.poolStart poolBase).getD cached
      (reqPlaces r).head? == some poolBase && pend.poolPending poolBase &&
        (((pend.atHome .sliceAccess r).poolLine? 0).map fun l => l.waits.length) == some 1 &&
        !(cached.poolPending poolBase) && cached.poolMiss poolBase && (cached.poolStart poolBase).isSome &&
        ((cached.atHome .sliceAccess r).pending.length == 1)) &&
     overStream (.poolCacheMiss (far poolBase (.read 8))) cached (fun _ => some (poolGw (poolLineOf poolBase), poolStream poolBase)) &&
     (let code := far (istoreBase 0) (.write (List.replicate 8 (some 1)))
      let host : Req := { code with agent := .gateway 0 }
      doing (.codeLoadStore code) bench (fun u => u.populated code.pa && (u.waitsAt (u.stamp code) none).isNone)
        (fun u => memRead u.mem (istoreBase 0) == 1) &&
      doing (.codeLoadStore { host with entered := true }) bench (fun u => u.populated code.pa && (u.waitsAt (u.stamp code) none).isNone)
        (fun u => memRead u.mem (istoreBase 0) == 1) &&
      doing (.codeLoadStore host) bench (fun u => u.populated host.pa && u.homeOf host.pa == .istore 0 && !host.entered)
        (fun u => u.flits.length == 1 && u.mem.isEmpty) &&
      doing (.codeLoadStore { far (istoreBase 512) (.write [some 1]) with counted := true }) bench (fun u => !(u.populated (istoreBase 512)))
        (fun u => u.flits.length == 1 && u.mem.isEmpty)) &&
     (let r := far sp (.read 8)
      let lost : State := { bench with secs := [(sp / 128, { bad := 1 })] }
      let seen : State := { (bench.modCtx 0 fun x => { x with mixAt := [(homeKey (bench.homeOf sp), 0x10000)] }).record sp 4 (.slot 1 0) true with now := 5 }
      (bench.readFault r 8).isNone && (lost.readFault r 8).isSome && bench.conflicts sp 8 r.agent r.sent == [] && !(isPool sp) &&
      !(bench.lost sp 4) && lost.lost sp 4 && seen.mixed 0 sp 8 r.agent (seen.cameAt r)))
      = true := by decide +kernel

/-- Core 0's slot 0 with an AM* that awaits its grant. -/
def awaiting : State := (on (.amadd (mf 1)) (sc3 0 5)).modFlight 0 0 fun fl =>
  let h : Held := { lsn := 0, pos := 0, kind := .atomic .add 8 8 5 0, va := 8, got := List.replicate 8 none, home := some 0 }
  { fl with held := [h] }

/-- R138 to R141: a request of a free granule, its release and its cancel, a revoke at the 1,024th clock with another waiting, the
revoked sheaf, and a grant. -/
theorem witness_Reservations :
    (let r := req 8 (.reserve 8)
     let w : Waiter := { req := r, granted := true, since := 0 }
     let other : Waiter := { req := { r with agent := .slot 1 0, tag := { core := 1, slot := 0, run := 0, lsn := 0 } } }
     doing (.reserveRequest r) bench (fun u => !(u.poolPending r.pa) && !(u.poolMiss r.pa) && (u.resv 0).isEmpty &&
       ((u.setResv 0 [{ req := r, since := u.now }]).readFault r 8).isNone) (fun u => u.flits.length == 1) &&
     doing (.reserveRequest other.req) ({ bench with resvs := [(0, [w])] } : State)
       (fun u => !(u.poolPending r.pa) && !(u.poolMiss r.pa) && (u.resv 0) == [w] && isReserve w.req.acc) (fun u => (u.resv 0).length == 2) &&
     (let u : State := { bench with resvs := [(0, [{ other with since := 4 }, { other with granted := false, since := 9 }])], revokes := [(r.agent, 5)], now := 20 }
      (((u.queueReserve { r with retry := true }).resv 0).map fun x => x.since) == [4, 20, 9]) &&
     doing (.release (req 8 (.release [1, 2]))) ({ bench with resvs := [(0, [w])] } : State) (fun u => (u.linkOf (req 8 (.release [1, 2]))).isNone && (u.markWaits (req 8 (.release [1, 2]))).isNone) (fun u => (u.resv 0).isEmpty) &&
     doing (.cancel (req 8 .cancel)) ({ bench with resvs := [(0, [w])] } : State) (fun _ => true) (fun u => (u.resv 0).isEmpty) &&
     doing (.cancel (req poolBase .cancel)) ((({ bench with pccfg := 1 } : State).poolStart poolBase).getD bench) (fun u => u.poolPending poolBase)
       (fun u => ((u.poolLine? 0).map fun l => l.waits.length) == some 1) &&
     doing (.reservationRevoke 0) ({ bench with resvs := [(0, [w, other])], clock := 1024 } : State)
       (fun u => w.since + 1024 ≤ u.clock && isReserve other.req.acc) (fun u => u.revokes.length == 1) &&
     doing (.revokeReceive r.tag) awaiting (fun u => ((u.flight 0 0).map fun fl => fl.run) == some 0)
       (fun u => (u.flight 0 0).isNone && (u.slot 0 0).retryNext) &&
     doing (.atomicGrant { tag := r.tag, data := List.replicate 8 0 ++ [3] ++ List.replicate 7 0 }) awaiting
       (fun u => ((u.flight 0 0).bind fun fl => fl.heldAt 0).isSome)
       (fun u => received u == some (.sc 3) && ((u.flight 0 0).bind fun fl => fl.held.head?.map fun h => h.got[0]?) == some (some (some 8))))
      = true := by decide +kernel

/-- Core 0's slot 0 with a load of 8 bytes that awaits its reply. -/
def loading : State := (on (.ldD (mf)) (sc3 0)).modFlight 0 0 fun fl =>
  let h : Held := { lsn := 0, pos := 0, kind := .load (.zext 8), va := 0, got := List.replicate 8 none }
  { fl with held := [h] }

/-- R34, R46, R64, R75, R90, R262, R278: a reply to the upper half of a load, one with an error; acknowledgements; a zero-pending sector,
a cached line, a walk, and the scrubber at a good and a bad word. -/
theorem witness_RepliesAndHomeSteps :
    (let rep : Reply := { tag := { core := 0, slot := 0, run := 0, lsn := 0, off := 4 }, data := [1, 2, 3, 4] }
     let slot := fun (g : Slot → Slot) => (atSheaf 0).modSlot 0 0 g
     let wrote := fun (w : Option (List (Option Byte))) => loading.modCore 0 fun k => { k with stored := [(5, [{ step := 7, off := 1, bytes := w }])] }
     let full : Reply := { rep with fill := some (5, List.replicate 128 3, 9), sent := 8 }
     let moved := (atSheaf 0).modSlot 0 0 fun x => { x with ocnt := 1, tails := [(1, 2)] }
     doing (.loadReply rep) loading (fun u => (u.flight 0 0).isSome && (u.fillBytes rep).isNone)
       (fun u => ((u.flight 0 0).bind fun fl => (fl.heldAt 0).map fun h => h.got) == some ([none, none, none, none, some 1, some 2, some 3, some 4])) &&
     doing (.loadReply full) (wrote (some [some 4])) (fun u => (u.fillBytes full).isSome)
       (fun u => ((u.core 0).l1Sector 640).map (fun x => x.guard) == some 9) &&
     ((wrote (some [some 4])).fillBytes { full with sent := 7 }).map (fun x => x.2.1.take 3) == some [3, 4, 3] &&
     ((wrote none).fillBytes { full with sent := 7 }).isNone && (loading.fillBytes { full with epoch := 1 }).isNone &&
     (loading.fillBytes full).isSome &&
     doing (.loadReply { rep with err := some { cause := .uncorrectableData, addr := some 0, blockp := some 0 } }) loading (fun _ => true)
       (fun u => (u.slot 0 0).th.bank0.tcause == 0x80000 + wd (causeCode .uncorrectableData)) &&
     doing (.writeAck 0 0 .write none) (slot fun x => { x with ucnt := 256 }) (fun u => (u.slot 0 0).tails.isEmpty) (fun u => (u.slot 0 0).ucnt == 255) &&
     doing (.writeAck 0 0 .notice none) (slot fun x => { x with ucnt := 1 }) (fun _ => true) (fun u => (u.slot 0 0).ucnt == 0) &&
     doing (.writeAck 0 0 .own none) (slot fun x => { x with ocnt := 1 }) (fun _ => true) (fun u => (u.slot 0 0).ocnt == 0) &&
     doing (.writeAck 0 0 .cancel none) (slot fun x => { x with cancels := 1 }) (fun _ => true) (fun u => (u.slot 0 0).cancels == 0) &&
     doing (.writeAck 0 0 .write (some { cause := .keyMismatch, imp := true })) (slot fun x => { x with ucnt := 1 }) (fun _ => true)
       (fun u => (u.slot 0 0).th.imps.length == 1) &&
     doing (.writeAck 0 0 .own none) moved (fun u => (u.slot 0 0).ocnt == 1 && (u.slot 0 0).tails == [(1, 2)]) (fun u => (u.slot 0 0).tails.isEmpty && ((u.core 0).ring 1).tail == 2) &&
     doing (.wakeAcknowledgement 0 0 5) (slot fun x => { x with wakes := [4, 5, 5] }) (fun _ => true) (fun u => (u.slot 0 0).wakes == [4, 5]) &&
     doing (.zeroSweep 1) ({ bench with secs := [(1, { zp := true })], mem := [(128, 7)] } : State) (fun u => (u.sector 1).zp)
       (fun u => !(u.sector 1).zp && u.mem.isEmpty) &&
     (let s := ({ bench with pccfg := 1 } : State).poolEnsure poolBase 0
      doing (.backInvalidate (poolLineOf poolBase) [some 4]) s (fun u => (u.poolLine? (poolLineOf poolBase)).isSome)
        (fun u => (u.poolLine? (poolLineOf poolBase)).isNone && memRead u.mem poolBase == 4) &&
      ((s.poolLine? (poolLineOf poolBase)).any fun l => s.stuckMask l == 0 && l.st != 3) &&
      (((({ bench with pccfg := 1 } : State).poolStart poolBase).bind fun u => u.poolLine? 0).any fun l => s.stuckMask l == 0 && l.st == 3) &&
      doing (.backInvalidate 0 [none, some 4]) bench (fun u => (u.poolLine? 0).isNone) (fun u => memRead u.mem (poolBase + 1) == 4)) &&
     doing (.translationWalk 0 0 0x40000) bench &&
     doing (.scrub 0) bench (fun u => u.sectorCopse 0 == some 0 && (u.sector 0).bad == 0) (fun u => u.scrubs.get (u.structOf 0) 0 == 1) &&
     doing (.scrub 0) ({ bench with secs := [(0, { bad := 0x8000 })] } : State) (fun u => (u.sector 0).bad != 0) (fun u => u.health.getLsbD 6 && u.errlogs.get (u.structOf 0) [] == [0]) &&
     doing (.scrub 0) ({ bench with secs := [(0, { soft := 0x8001 })] } : State) (fun u => (u.sector 0).bad == 0)
       (fun u => (u.sector 0).soft == 0 && u.fixedSum 0 == 2))
      = true := by decide +kernel

/-! #### Packets -/

/-- A packet from core 0's node to core 1's: the acknowledgement of a write. -/
def pkt : Pkt := { cls := 1, src := (0, 0), dst := (0, 1), deliver := .writeAck 1 0 .write none }

/-- R86, R89, R93, R101, R103: a packet and a mark at a queue's head, a load request, an ordered packet, each move of a flit, and a link at
its eighth and ninth bad flit. -/
theorem witness_PacketSteps :
    (let queue := fun (q : List InjEnt) => (atSheaf 0).modSlot 0 0 fun x => { x with injq := q }
     let flit := fun (p : Pkt) (n i ph : Nat) => ({ bench with flits := [⟨p, n, i, ph, true⟩] } : State)
     let stw : Pkt := { pkt with ord := true, deliver := .stwApply (req (scratchBase 0 + 8) (.wake 1)) }
     doing (.injectionLeave 0 (.queue 0)) (queue [.pkt pkt]) (fun u => u.leaveIndex 0 0 == some 0) (fun u => u.flits.length == 1) &&
     doing (.injectionLeave 0 (.queue 0)) ((queue [.mark true true]).modSlot 0 0 fun x => { x with qdrain := some [] }) (fun u => u.leaveIndex 0 0 == some 0) (fun u => (u.slot 0 0).injq.isEmpty) &&
     doing (.injectionLeave 0 (.load 0)) (bench.modCore 0 fun k => { k with loads := [pkt] }) (fun u => u.loadMayLeave 0 0)
       (fun u => u.flits.length == 1) &&
     doing (.injectionLeave 0 (.queue 0)) (({ queue [.pkt { pkt with rel := true, drain := true }] with
         gws := [(3, { biDone := 4, biq := [] })] } : State)) (fun u => u.leaveIndex 0 0 == none && u.drainDue 0 0)
       (fun u => (u.slot 0 0).qdrain == some [(3, 4)]) &&
     doing (.orderedPacketLeave 0 0) (queue [.pkt stw]) (fun u => u.orderedMayLeave 0 0)
       (fun u => (u.slot 0 0).wakes == [(scratchBase 0 + 8) / 8]) &&
     doing (.packetHop 0) (flit { pkt with dst := (1, 0) } 0 4 0) (fun u => match u.hopMove 0 with | some (.go _ _ _) => true | _ => false) &&
     doing (.packetHop 0) (flit pkt 0 4 0) (fun u => u.hopMove 0 == some .arrive) (fun u => u.pending.length == 1) &&
     doing (.packetHop 0) (flit pkt 0 6 0) (fun u => u.hopMove 0 == some .enter) (fun u => (u.flits.map fun f => f.input) == [4]) &&
     doing (.packetHop 0) ({ flit { pkt with dst := (2, 0) } 1 0 0 with nroute := [(0, 0x101)] } : State) (fun u => match u.hopMove 0 with | some (.go _ _ ph) => ph == 1 | _ => false)
       (fun u => (u.flits.map fun f => f.phase) == [1]) &&
     ({ flit { pkt with dst := (1, 0) } 0 4 0 with linkDead := (List.range 2048) } : State).hopMove 0 == none &&
     doing (.flitReceive 7 true) ({ bench with linkBad := [(7, 8)] } : State) (fun _ => true) (fun u => u.linkSeq.get 7 0 == 1) &&
     doing (.flitReceive 7 false) ({ bench with linkBad := [(7, 7)] } : State) (fun u => u.linkBad.get 7 0 != 8) (fun u => u.pending.isEmpty) &&
     doing (.flitReceive 7 false) ({ bench with linkBad := [(7, 8)] } : State) (fun u => u.linkBad.get 7 0 == 8)
       (fun u => u.pending == [.linkDown 7]) &&
     doing (.linkDown 7) bench (fun _ => true) (fun u => u.stopped && u.health.getLsbD 7 && u.linkDead == [7])) = true := by decide +kernel

/-! #### Threads -/

/-- A burr's packet. -/
def aBurr : Burr := { chan := 1, bid := 9 }

/-- R100, R165, R167, R177, R275, R319, R347, R359, R375, R376, R422: arrivals of a message, a held burr and a strayed entry; dispatch of an
entry and of a waiting context; each way to leave a slot; waking, deposits, images. -/
theorem witness_ThreadSteps_slots :
    (let ent : Entry := { ctx := 0, chan := 1, body := .msg 7 }
     let be : Entry := { ctx := 0, chan := 1, body := .burr aBurr, held := true }
     let full := fun (n : Nat) (s : State) => (List.range n).foldl (fun s k => s.modSlot 0 k fun x => { x with occ := true }) s
     let leaving := fun (d : Dispo) (g : Thread → Thread) =>
       (atSheaf 0x40).modSlot 0 0 fun x => { x with disp := some d, th := g x.th }
     let may := fun (d : Dispo) (u : State) => (u.slot 0 0).occ && (u.slot 0 0).mayLeave && (u.slot 0 0).disp == some d
     let burr := fun (t : Thread) => { t with kind := .burr }
     let op := fun (k : OpKind) (s : State) => { s with ops := [{ id := 5, core := 0, slot := 0, kind := k }], nextId := 6 }
     let pre := OpKind.preempt 0
     let u7 := fun (s : State) => s.core 0
     let pc : Piece := { va := 0x1000, pa := 0x1000, kid := 0, bytes := [some 1] }
     doing (.arrival 0 ent) bench (fun u => u.hosts 0 0) (fun u => (u.core 0).aq.length == 1) &&
     doing (.arrival 0 be) bench (fun u => u.hosts 0 0) (fun u => (u.core 0).aq.length == 1) &&
     doing (.arrival 0 { ent with ctx := 1 }) bench (fun u => !(u.hosts 0 1)) (fun u => (u.core 0).aq.isEmpty) &&
     doing (.dispatch 0) ((full 6 bench).modCore 0 fun k => { k with aq := [ent], tchan := [(1, 0x8000000000000100)] })
       (fun u => u.canDispatch 0 && (u.core 0).slotsFor true == [6] && (u.core 0).oldestWaiting.isNone)
       (fun u => (u.slot 0 6).occ && (u.slot 0 6).th.regs.n == 0x100 && (u.slot 0 6).th.regs.g[0] == 7) &&
     doing (.dispatch 0) ((full 6 bench).modCore 0 fun k => { k with aq := [ent] })
       (fun u => u.canDispatch 0 && (u.core 0).slotsFor true == [6] && (match (u.core 0).takeEntry with
         | (y, some e) => !(y.chanOpen e.chan) | _ => false)) (fun u => !(u.slot 0 6).occ) &&
     doing (.dispatch 0) ((full 6 bench).modCore 0 fun k => { k with cache := [(3, { th := { chan := 9 }, waiting := some 4 })] })
       (fun u => u.canDispatch 0 && (u.core 0).slotsFor true == [6] && (u.core 0).oldestWaiting.isSome &&
         ((u.core 0).aq.find? (u.core 0).reaches).isNone) (fun u => (u.slot 0 6).th.chan == 9 && (u.core 0).cache.isEmpty) &&
     doing (.burrMigration 0 0) (leaving (.migrate 1 true) burr) (may (.migrate 1 true)) (fun u => !(u.slot 0 0).occ) &&
     doing (.threadRetire 0 0) (leaving .done id) (may .done) (fun u => !(u.slot 0 0).occ) &&
     doing (.threadRetire 0 0) (leaving .done burr) (may .done) &&
     doing (.threadRetire 0 0) (leaving .done fun t => { t with ports := [(0, { mode := .drain }), (1, { mode := .fill, buf := [some 1] })] }) (may .done)
       (fun u => (u.slot 0 0).th.ports.isEmpty) &&
     doing (.yieldRetire 0 0) (leaving .yield_ burr) (fun u => may .yield_ u && u.coreRoom 0 false) &&
     (u7 (leaving .yield_ id)).copiesRest &&
     doing (.yieldRetire 0 0) (leaving .yield_ id) (may .yield_) (fun u => (u.core 0).cache.length == 1) &&
     doing (.yieldRetire 0 0) (leaving .yield_ fun t => { burr t with moveTo := some 1 }) (fun u => may .yield_ u && (u.slot 0 0).th.goesTo == some 1)
       (fun u => (u.core 0).aq.isEmpty && (u.slot 0 0).injq.length == 1 && !(u.slot 0 0).occ) &&
     doing (.halted 0 0) (leaving .halt id) (may .halt) (fun u => (u.slot 0 0).th.rest == .halted) &&
     doing (.eviction 0 0) (op pre (atSheaf 0)) (fun u => (u.evictOp 0 0).isSome && u.canEvict 0 0) (fun u => u.ops.isEmpty && !(u.slot 0 0).occ) &&
     doing (.unpark 0 0) ((atSheaf 0).modThread 0 0 fun t => { t with rest := .parked, wake := true })
       (fun u => (u.slot 0 0).th.rest == .parked && (u.slot 0 0).th.wake) (fun u => (u.slot 0 0).th.rest == .none) &&
     doing (.mailboxDeposit 0 0) ((atSheaf 0).modSlot 0 0 fun x => { x with deps := [(0, 0, 5)] })
       (fun u => (u.slot 0 0).ucnt == 0 && (u.slot 0 0).ocnt == 0) (fun u => (u.box 0 0 0).full && (u.box 0 0 0).data == 5) &&
     doing (.savecComplete 5) (op (.savec 0 0 []) (atSheaf 0)) (fun u => u.savecDue 5) (fun u => u.ops.isEmpty) &&
     doing (.savecComplete 5) (op (.savec 0 0 [pc]) ((atSheaf 0).modSlot 0 0 fun x => { x with ucnt := 255 })) (fun u => u.savecDue 5)
       (fun u => (u.slot 0 0).ucnt == 256 && u.flits.length == 1) &&
     doing (.loadcComplete 5) (op (.loadc 0 0 0 []) (atSheaf 0)) (fun u => (u.op? 5).isSome) (fun u => u.ops.isEmpty && (u.core 0).cache.length == 1))
      = true := by decide +kernel

/-- R360, R362, R364: counts and arrivals of flock 255, a release, a remote channel change. -/
theorem witness_ThreadSteps_flocks :
    (let fl := fun (x : Flock) => bench.setFlock 0 255 x
     let lost := fun (d : Option Dispo) => (atSheaf 0).modSlot 0 0 fun x => { x with disp := d, th := { x.th with rest := .barrier 255, tid := 6 } }
     doing (.flockCountChange 0 255 true none) bench (fun _ => true) (fun u => (u.flock 0 255).count == 1) &&
     doing (.flockCountChange 0 255 false none) bench (fun _ => true) (fun u => (u.flock 0 255).count == -1) &&
     doing (.flockCountChange 0 255 true (some (3, 1))) bench (fun _ => true) (fun u => u.flits.length == 1) &&
     doing (.flockArrival 0 255 0 0 6) (fl { count := 2 }) (fun u => (u.flock 0 255).count != (u.flock 0 255).arrived.length + 1)
       (fun u => (u.flock 0 255).arrived == [(0, 0, 6)]) &&
     doing (.flockArrival 0 255 0 0 6) (fl { count := 1 }) (fun _ => true) (fun u => (u.flock 0 255).gen == 1 && u.flits.length == 1) &&
     ((fl { count := 1, arrived := [(0, 0, 6)] }).flockCheck 0 255).flits.length == 1 &&
     doing (.barrierRelease 0 255 0 3 6) (lost none)
       (fun u => u.hosts 0 0 && ((List.range 8).find? fun i => (u.slot 0 i).occ && (u.slot 0 i).th.takes 0 255 6 true) == some 0)
       (fun u => (u.slot 0 0).th.rest == .none) &&
     (((lost none).slot 0 0).disp != some .park) &&
     doing (.barrierRelease 1 255 0 0 6) bench (fun u => !(u.hosts 0 1)) (fun u => u.flits.length == 1) &&
     doing (.remoteChannelChange 0 0 63 true) bench (fun u => u.hosts 0 0) (fun u => ((u.core 0).tchan.get 63 0).getLsbD 61) &&
     doing (.remoteChannelChange 0 1 63 true) bench (fun u => !(u.hosts 0 1)) (fun u => !(((u.core 0).tchan.get 63 0).getLsbD 61) && (u.die 0).page[5] == 1)) = true := by
  decide +kernel

/-! #### Control registers -/

/-- R32, R44, R96, R97, R135, R321, R330, R343, R374: each step with its operation under way. -/
theorem witness_ControlRegisterSteps :
    (let op := fun (k : OpKind) (l : List Nat) => ({ atSheaf 0 with ops := [{ id := 5, core := 0, slot := 0, kind := k, left := l }] } : State)
     let all : Word := 0x200000000000000
     let gs : List (Nat × Nat × Nat) := [(0, 0xFF, 0x40000)]
     let sus : Copy := { tag := 63, desc := {}, state := .suspended }
     let cp : Word := wd (63 * 2 ^ 11)
     doing (.tinvWrite 0 0 all) (op (.tinv 0 all) []) (fun u => !(u.coresOf 0).isEmpty)
       (fun u => (u.core 0).tlb.isEmpty && ((u.op? 5).map fun o => o.left.length) == some 16) &&
     (let late := fun (s : State) => { s with ops := s.ops.map fun o => { o with behind := 1 } }
      doing (.tinvWrite 0 0 all) (late (op (.tinv 0 all) [])) (fun u => u.ops.all fun o => o.behind == 1) (fun u => u.pending == [.tinvWrite 0 0 all]) &&
      doing (.orderedPacketLeave 0 0) ((late (op (.tinv 0 all) [])).modSlot 0 0 fun x => { x with injq := [.pkt { pkt with ord := true }] })
        (fun u => u.orderedMayLeave 0 0) (fun u => u.ops.all fun o => o.behind == 0)) &&
     doing (.tinvComplete 5) (op (.tinv 0 all) [0, 15]) (fun u => u.slotDrained 0 0 && u.slotDrained 0 15) (fun u => u.ops.isEmpty) &&
     doing (.clstartWrite 0 0 1) (atSheaf 0) (fun _ => true) (fun u => (u.slot 0 0).injq.length == 1 && (u.slot 0 0).ucnt == 1) &&
     doing (.start 0 (.gateway 3)) (bench.modGw 3 fun g => { g with start := [0, 1] }) (fun _ => true) (fun u => (u.gw 3).start == [1]) && doing (.start 0 (.slot 0 0)) bench (fun _ => true) (fun u => u.flits.length == 1) &&
     doing (.mixdbgWrite 0 0 0x10000) (op (.mixdbg 0 0x10000) []) && doing (.crootWrite 0 0 1) (op (.croot 0 1) []) &&
     doing (.mixdbgWrite 0 0 0x10000) (op (.mixdbg 0 0x10000) [2]) (fun _ => true) (fun u => (u.ctx 0).mixAt == [(2, 0x10000)] && u.ops.isEmpty) &&
     doing (.crootWrite 0 0 1) (op (.croot 0 1) [1]) (fun _ => true) (fun u => (u.core 1).croot == 1 && u.ops.isEmpty) &&
     (let o : Op := { id := 5, core := 0, slot := 0, kind := .croot 0 1, left := [1] }
      ({ bench with ops := [o, { o with id := 6, kind := .croot 0 2 }] } : State).behindWrite { o with id := 6, kind := .croot 0 2 } 1) &&
     doing (.drvcfgWrite 0 0x3FFF0) ((bench.modSlot 0 7 fun x => { x with fl := some (loneFlight (.exit { t := ⟨0, 0⟩ })) }).due (.drvcfgWrite 0 0x10)) (fun u => (u.slot 0 7).fl.isSome)
       (fun u => u.pending == [.drvcfgWrite 0 0x3FFF0, .drvcfgWrite 0 0x10]) &&
     doing (.registerWrite .pccfg 9) bench (fun u => !(({ u with pccfg := 9 } : State).pcFits)) (fun u => u.pccfg == 0) &&
     doing (.drvcfgWrite 0 0x3FFF0) bench (fun u => (u.slot 0 7).fl.isNone) (fun u => (u.slot 0 7).th.regs.n == 0x1FFF0) &&
     doing (.drvcfgWrite 0 0x1FFF0) bench (fun u => (u.slot 0 7).fl.isNone) (fun u => (u.slot 0 7).th.regs.n == 0) &&
     doing (.cpresResume 0 cp) (bench.modCore 0 fun k => { k with copies := [sus] })
       (fun u => (u.core (cpresCore cp)).ctx == some 0 && !(cpresPort cp) && !((u.core 0).heldDrain (cpresTag cp)))
       (fun u => ((u.core 0).copies.map fun x => x.state) == [.running]) &&
     doing (.cpresAbort 0 cp) (bench.modCore 0 fun k => { k with copies := [sus] })
       (fun u => ((u.core 0).copy? 63).isSome && !((u.core 0).heldDrain 63)) (fun u => (u.core 0).ctage == 0x8000000000000000) &&
     doing (.registerWrite (.tskm 63) 5) bench (fun _ => true) (fun u => (u.ctx 63).tskm == 5) &&
     doing (.registerWrite (.tccb 0) 5) bench (fun _ => true) (fun u => (u.core 0).tccb == 0) &&
     doing (.protbDrain 5 0) (op (.protb 0 gs false 1) [1, 2]) (fun u => u.protbDrainDue 5 0) (fun u => ((u.op? 5).map fun o => o.left) == some [2]) &&
     doing (.protbInstall 5) (op (.protb 0 gs false 1) []) (fun u => (u.op? 5).isSome)
       (fun u => (u.sector 0).guard == 0x11111111 && u.ops.isEmpty)) = true := by decide +kernel

/-! #### Tasks -/

/-- A task packet with a hint at a core of node 0. -/
def task (c : Nat) : TaskPkt := { chan := 5, hv := true, hcore := c }

/-- A walking packet with this hint at a node. -/
def walking (p : TaskPkt) (n : Nat) (s : State := bench) : State := { s with walks := [{ ent := { pkt := p, since := 1 }, home := 0, node := n, id := 3 }], nextId := 4 }

/-- R179 to R186, R432: a record taken, refused by the 256th place and sent on; entry, release, aging; a walk that is taken, goes on and ends;
the hint core; hold-off, spill, summary, steals. -/
theorem witness_TaskScheduling :
    (let lq := fun (n : Nat) => bench.modGw 3 fun g => { g with lqs := [(lqKey 0 7, { cfg := 8, recs := List.replicate n (task 0) })] }
     let chan := fun (s : State) => s.modCore 0 fun k => { k with tchan := [(5, 0x8000000000000000)] }
     let queue := fun (q : List DieEnt) (s : State) => s.modDie 0 fun d => { d with queue := q }
     let e : DieEnt := { pkt := { task 0 with since := some 1 }, since := 1 }
     let ws : List Word := [0x500000, 0, 0, 0x10000000000000, 0, 0, 0, 0]
     let more : TaskPkt := { task 0 with memb := 0x0200 }
     let sent := fun (o : Nat) => bench.modGw 3 fun g => { g with lqs := [(lqKey 0 7, { cfg := 8, recs := [more], counted := true, owed := o })] }
     doing (.launchRecord 3 0 7 (.record ws)) (lq 255) (fun u => !(u.launchRefused 3 0 7 (taskFrom ws)))
       (fun u => (u.lq 3 0 7).recs.getLast? == some (task 0)) &&
     doing (.launchRecord 3 0 7 (.record ws)) (lq 256) (fun u => u.launchRefused 3 0 7 (taskFrom ws)) (fun u => (u.lq 3 0 7).refused == 1) &&
     doing (.launchRecord 3 0 7 .send) (bench.modGw 3 fun g => { g with lqs := [(lqKey 0 7, { cfg := 8, recs := [more] })] })
       (fun u => !((u.lq 3 0 7).counted) && (u.lq 3 0 7).recs == [more]) (fun u => (u.lq 3 0 7).owed == 1 && u.flits.length == 1) &&
     doing (.launchRecord 3 0 7 .send) (sent 1) (fun u => (u.lq 3 0 7).counted && (u.lq 3 0 7).owed == 1) (fun u => u.flits.isEmpty) &&
     doing (.launchRecord 3 0 7 .counted) (sent 1) (fun _ => true) (fun u => (u.lq 3 0 7).owed == 0) &&
     doing (.launchRecord 3 0 7 .send) (sent 0) (fun u => (u.lq 3 0 7).counted && (u.lq 3 0 7).owed == 0 &&
       match u.launchPkt 3 0 7 with | some (_, k) => u.endClear k | none => false) (fun u => (u.lq 3 0 7).recs.isEmpty && u.flits.length == 1) &&
     doing (.dieQueueEnter 0 (task 0)) ({ bench with clock := 9 } : State) (fun _ => true) (fun u => ((u.die 0).queue.map fun x => x.since) == [9]) &&
     doing (.taskRelease 0) (queue [e] bench) (fun u => u.mayRelease 0 && (u.releasePick 0).isSome) (fun u => u.walks.length == 1) &&
     doing (.classAging 0 0) (queue [e] ({ bench with clock := 65537 } : State)) (fun u => u.ageDue e) (fun u => ((u.die 0).queue.map fun x => x.aged) == [1]) &&
     doing (.taskOffer 3) (chan (walking (task 1) 0)) (fun u => u.offers (task 1) 0 && (nodeCores 0).find? (fun c => u.takesTask c (task 1)) == some 0)
       (fun u => (u.core 0).aq.length == 1 && u.walks.isEmpty) &&
     doing (.taskOffer 3) (walking { task 0 with hcol := 1 } 0) (fun u => (u.walk? 3).any fun w => !(u.walksBehind w) && (u.taker w).isNone && (u.walkHop w).isSome)
       (fun u => (u.walks.map fun w => w.node) != [0]) &&
     doing (.taskOffer 3) ({ walking { task 0 with hcol := 1 } 0 with linkDead := List.range 2048 } : State) (fun u => (u.walk? 3).any fun w => (u.taker w).isNone && (u.walkHop w).isNone)
       (fun u => (u.walks.map fun w => w.node) == [0]) &&
     (let way := fun (e : Nat) => ({ bench with nroute := [(0, e)] } : State).waypoint 0 (TaskHint { task 0 with hcol := 1 })
      way 0 == none && hopTo 0 1 == some (1, 1) && way 0x110 == some 16 && hopTo 0 16 == some (16, 3) && way 0x100 == some 0 && hopTo 0 0 == none) &&
     doing (.taskHintArrival 3) (chan (walking (task 0) 0)) (fun u => u.hosts 0 0 && ((u.core 0).tchan.get 5 0).getLsbD 63 && u.underLimit 0 (task 0) &&
       u.coreRoom 0 false) (fun u => (u.core 0).aq.length == 1) &&
     doing (.taskHintArrival 3) (walking (task 0) 0) (fun u => u.hosts 0 0 && !(((u.core 0).tchan.get 5 0).getLsbD 63))
       (fun u => ((u.die 0).queue.map fun x => x.hold) == [some 1024]) &&
     doing (.taskHintArrival 3) (((chan (walking { task 0 with memb := 255 } 0)).modCtx 0 fun x => { x with fspl := [(255, 1)] }).modCore 0 fun k =>
       { k with aq := [taskEntry { task 0 with memb := 255 }] }) (fun u => !(u.underLimit 0 { task 0 with memb := 255 })) (fun u => u.walks.isEmpty) &&
     doing (.taskHintArrival 3) (walking (task 7) 0) (fun u => !(u.hosts 7 0)) (fun u => u.walks.isEmpty) &&
     doing (.returnHoldoff 0 0) (queue [{ e with hold := some 0 }] bench) (fun u => u.holdOver { e with hold := some 0 })
       (fun u => ((u.die 0).queue.map fun x => x.hold) == [none]) &&
     doing (.dieSpillReload 0) (bench.modDie 0 fun d => { d with spill := [e] }) (fun u => (u.die 0).queue.length < 4096)
       (fun u => (u.die 0).spill.isEmpty && (u.die 0).queue.length == 1) &&
     doing (.idleSummaryUpdate 0) (chan bench) (fun u => u.summaryOf 0 != (u.die 0).summary) (fun u => (u.die 0).summary == [(0, 0, 0, [5]), (0, 1, 0, [])]) &&
     doing (.stealRequest 1 0 false) bench (fun u => !(u.maySteal 1 0)) &&
     doing (.stealRequest 1 0 false) ({ bench with dhome := 3, cores := bench.cores ++ [(128, { ctx := some 0 }), (129, { ctx := some 0 }), (130, { ctx := some 0 })] } : State)
       (fun u => u.maySteal 1 0)
       (fun u => (u.die 1).steals == [(0, 0)] && u.flits.length == 1) &&
     doing (.stealRequest 1 0 true) (queue [e, { e with pkt := { e.pkt with daff := 1 } }] ({ bench with clock := 3 } : State)) (fun u => (u.donation 1 0).map (·.1) == [0])
       (fun u => (u.die 0).queue.length == 1 && u.flits.length == 1) &&
     doing (.stealDonation 1 { task 0 with cls := 7, since := some 1 }) ({ bench with clock := 70000 } : State) (fun _ => true) (fun u => ((u.die 1).queue.map fun x => (x.since, x.aged)) == [(1, 0)])) = true := by decide +kernel

/-- R184: the last node of a walk without an offer taken. -/
theorem witness_TaskScheduling_hint :
    (bench.offers { task 0 with hrow := 0 } (TaskHint (task 0)) == true &&
     doing (.taskOffer 3) (walking (task 0) 0) (fun u => ((nodeCores 0).find? fun c => u.takesTask c (task 0)).isNone)
       (fun u => u.pending == [.taskHintArrival 3])) = true := by decide +kernel

/-! #### Crofts -/

/-- R344 to R347, R349, R350, R356: lookups that find the own core, another and nothing, of a WRITE of K and of a SPAWNB; notices with and
without a map; a rebuild; an update applied and one whose node cannot be written; a retire notice. -/
theorem witness_CroftSteps :
    (let look := fun (usage : Nat) (k : Word) (g : Thread → Thread) (s : State) =>
       ((on (.mov (fm)) {} s).modFlight 0 0 fun fl => { fl with looks := [(0, usage, k)] }).modThread 0 0 g
     let ev := fun (k : Word) => Event.ownerLookup { core := 0, slot := 0, run := 0, lsn := 0 } k
     let burr := fun (t : Thread) => { t with kind := .burr }
     let far : Word := 0x8000000080000000
     let cause := fun (c : Cause) (u : State) => field (u.slot 0 0).th.bank0.tcause 0 8 == causeCode c
     let plan := fun (s : State) =>
       let p : MapPlan := { writes := [{ va := 0x80000, pa := scratchBase 1, kid := 0, bytes := List.replicate 8 (some 1) }],
                            root := { va := 0x200, pa := scratchBase 0 + 0x200, kid := 0, bytes := List.replicate 16 (some 2) }, kind := 0, version := 8 }
       { s with ops := [{ id := 5, core := 0, slot := 0, kind := .mapUpdate 0 p }] }
     let n : Notice := { core := 0, ctx := 0, bid := 9, k := 0, remove := false, version := 7, sender := none }
     let edge : Word := 0x7FFFFFFF80000000
     doing (ev 0) (mapped (look 0 0 id bench)) (fun u => (u.flight 0 0).isSome) (fun u => ((u.flight 0 0).map fun fl => fl.kOwner) == some (some (some 0))) &&
     doing (ev far) (mapped (look 0 far id bench)) (fun _ => true) (cause .croftRange) &&
     doing (ev far) (mapped (look 0 far burr bench)) (fun _ => true) (fun u => ((u.flight 0 0).map fun fl => fl.kOwner) == some (some (some 1))) &&
     doing (ev 0) (look 0 0 id bench) (fun _ => true) (cause .croftUnmapped) &&
     doing (ev far) ((mapped (look 1 far id bench)).modFlight 0 0 fun fl => { fl with due := [⟨none, 0, .spawnb aBurr noOwner false⟩] }) (fun _ => true)
       (fun u => lastDue u == some (.spawnb aBurr 1 false)) &&
     doing (.kNotice { n with ctx := 1 }) bench (fun u => !(u.hosts 0 1)) (fun u => (u.die 0).page[5] == 1) &&
     doing (.kNotice n) (bench.modCore 0 fun k => { k with table := [(9, 0)] }) (fun u => u.hosts 0 0 && (u.croftMap 0 0).isNone) (fun u => (u.core 0).table.isEmpty) &&
     doing (.kNotice { n with sender := some (1, 0) }) (mapped bench) (fun u => match u.croftMap 0 0 with | some (root, _) => root.version ≤ 7 | none => false)
       (fun u => (u.core 0).table == [(9, 0)] && u.flits.length == 1) &&
     doing (.kNotice { n with sender := some (1, 0), version := 6, k := edge }) (mapped bench)
       (fun u => match u.croftMap 0 0 with | some (root, cs) => 6 < root.version && (u.missed { n with k := edge } root cs) == [1] | none => false)
       (fun u => u.joins.length == 1 && u.flits.length == 1) &&
     doing (.tableRebuild 0) (bench.modCore 0 fun k => { k with table := [(9, 0)], lost := true, dropped := true })
       (fun u => (u.core 0).ctx == some 0 && (u.croftMap 0 0).isNone && u.ops.isEmpty) (fun u => (u.core 0).table.isEmpty && !(u.core 0).lost) &&
     ((bench.modCore 0 fun k => { k with lost := true, dropped := true }).endRebuild 0).ops.isEmpty &&
     doing (.tableRebuild 0) ((mapped bench).modCore 0 fun k => { k with table := [(9, 0)], lost := true })
       (fun u => match u.croftMap 0 0 with | some (root, cs) => (u.rebuildNotices 0 0 root cs).isEmpty | none => false)
       (fun u => (u.core 0).table.length == 1 && !(u.core 0).lost && u.joins.isEmpty) &&
     doing (.tableRebuild 0) ((mapped bench).modCore 0 fun k => { k with table := [(9, edge)], lost := true })
       (fun u => match u.croftMap 0 0 with | some (root, cs) => (u.rebuildNotices 0 0 root cs).length == 1 | none => false)
       (fun u => (u.core 0).lost && u.joins.length == 1 && u.flits.length == 1) &&
     doing (.mapUpdateComplete 5) (plan bench) (fun u => match u.op? 5 with
       | some o => (match o.kind with
         | .mapUpdate ctx p => (match p.writes with
           | w :: _ => (match u.engineWrite (.slot 0 0) ctx w.kid w.va w.pa w.bytes 0 with | .done _ => true | _ => false)
           | [] => false)
         | _ => false)
       | none => false) (fun u => u.ops.length == 1 && memRead u.mem (scratchBase 1) == 1) &&
     doing (.mapUpdateComplete 5) ({ plan bench with ops := ((plan bench).ops.map fun o => match o.kind with
         | .mapUpdate ctx p => { o with kind := .mapUpdate ctx { p with writes := [] } }
         | _ => o) } : State) (fun u => (u.op? 5).isSome) (fun u => u.ops.isEmpty && memRead u.mem (scratchBase 0 + 0x200) == 2) &&
     doing (.retireNotice 0 0 0x100000) (bench.modCore 0 fun k => { k with live0 := 1, live1 := 1 }) (fun u => u.hosts 0 0)
       (fun u => (u.core 0).live1 == 0 && (u.core 0).live0 == 1) &&
     doing (.retireNotice 0 0 0xFFFFF) (bench.modCore 0 fun k => { k with live0 := 1, live1 := 1 }) (fun u => u.hosts 0 0)
       (fun u => (u.core 0).live1 == 1 && (u.core 0).live0 == 0) &&
     doing (.retireNotice 0 1 0) bench (fun u => !(u.hosts 0 1)) (fun u => (u.die 0).page[5] == 1)) = true := by decide +kernel

/-- R346: a node's write that meets a word with an uncorrectable error, of which it writes a part. -/
theorem witness_CroftSteps_fault :
    (let p : MapPlan := { writes := [{ va := 0x80000, pa := scratchBase 1, kid := 0, bytes := List.replicate 7 (some 1) }],
                          root := { va := 0x200, pa := scratchBase 0 + 0x200, kid := 0, bytes := List.replicate 16 (some 2) }, kind := 0, version := 8 }
     let s : State := { bench with ops := [{ id := 5, core := 0, slot := 0, kind := .mapUpdate 0 p }], secs := [(scratchBase 1 / 128, { bad := 1 })] }
     doing (.mapUpdateComplete 5) s (fun u => match p.writes with
       | w :: _ => (match u.engineWrite (.slot 0 0) 0 w.kid w.va w.pa w.bytes 0 with | .fault _ _ => true | _ => false)
       | [] => false)
       (fun u => u.ops.isEmpty)) = true := by decide +kernel

/-! #### Arrays -/

/-- An event is in hand and the condition holds of the state that has taken it up. -/
def meets (e : Event) (s : State) (w : State → Bool) : Bool := w ({ s with event := some e } : State).taken

/-- A command at the head of core 0's queue, which the multipliers or the fill path run since clock 0. -/
def commanded (q : QCmd) (fill : Bool) (s : State) : State :=
  (s.modCore 0 fun k => { k with mq := [q] }).modCopse 0 fun x =>
    if fill then { x with fill := some { core := 0, since := 0 } } else { x with mul := some { core := 0, since := 0 } }

/-- A multiply on ring 1, bank 0, tile 1. -/
def product : QCmd := { cmd := .mma false 1 1 0 8 0x0C, tsn := 3, slot := 0, ctx := 0 }

/-- A fill of the rick from a tensor of 2 × 2 bytes in near store. -/
def filling : QCmd := { cmd := .fill 8 [0x40000, 0x0000000100000001, 0, 0] 0 0 false, tsn := 3, slot := 0, ctx := 0, started := true }

/-- A drain of tile 1 to near store that has come to its last element; its tile is read out. -/
def draining (next : Nat) (freed : Bool) : QCmd :=
  { cmd := .drain 1 false 0x20 0x40000 63 0 1 false, tsn := 3, slot := 0, ctx := 0, next := next, freed := freed }

/-- R304, R306 to R308, R310 to R312: a command starts; a product finishes, its bank bad and good; a fill that fails; a refill that finds its
banks and one that does not; a drain read out, ended and held; marks, banks, evictions. -/
theorem witness_MatrixSteps :
    (let rung := fun (s : State) => ringed (rick .ready [0] false s)
     let late := fun (n : Nat) (s : State) => { s with clock := n }
     let mf := Event.mmaFinish 0
     let due := fun (u : State) => u.mmaDue 0 && ((u.copse 0).find 8).isSome &&
       ((u.running (u.copse 0).mul).map fun r => r.2.1) == some product
     let v := fun (u : State) => u.modCopse 0 fun x => x.modHandle 8 fun k => { k with used := u.now }
     let fill := fun (u : State) => u.canFinishFill 0 && ((u.copse 0).find 8).isSome
     let evicted := rick .evicted [] true (bench.modCtx 0 fun x => { x with rkquota := 1 })
     let drain := fun (q : QCmd) => commanded q true (bench.modCopse 0 fun x => { x with parity := true })
     doing (.matrixCommandStart 0 false) ((rung bench).modCore 0 fun k => (k.setRing 1 { base := 0, en := true, fmt := 0x0C, ent := 32, tail := 1 } : Core) |> fun k =>
         { k with mq := [product] })
       (fun u => u.canStart 0 false && !(u.skips 0) && (u.arbitrate 0 0 0 false).isSome) (fun u => (u.copse 0).mul.isSome) &&
     meets mf (late 16 (commanded product false (rung bench))) (fun u => due u && !((v u).bankError 0 0) && !((v u).tileError 0 1 false) &&
       !((v u).entryError 0 ((u.core 0).ring 1))) &&
     doing mf ((late 16 (commanded product false (rung bench))).modCopse 0 fun x => { x with bankBad := [4095] }) (fun u => due u && (v u).bankError 0 0)
       (fun u => ((u.copse 0).rick 0).state == .stale && (u.core 0).mq.isEmpty) &&
     doing mf ((late 16 (commanded product false (rung bench))).modCore 0 fun k => { k with tileBad := [2048] })
       (fun u => due u && !((v u).bankError 0 0) && (v u).tileError 0 1 false) (fun u => (u.core 0).mq.isEmpty) &&
     doing (.rkfillFinish 0) (commanded { filling with cmd := .fill 8 [0x4000000, 0, 0, 0] 0 0 false } true (rick .filling))
       (fun u => fill u && (match u.fillOpen 0 0 8 [0x4000000, 0, 0, 0] 0 0 false with | (_, .error _) => true | _ => false))
       (fun u => ((u.copse 0).rick 0).err == causeCode .pageNotMapped && (u.copse 0).fill.isNone) &&
     doing (.rkfillFinish 0) ({ commanded filling true (rick .filling) with secs := [(0, { bad := 1 })] } : State) fill
       (fun u => ((u.copse 0).rick 0).state == .empty && (u.copse 0).fill.isNone) &&
     doing (.rickRefill 0 0) evicted (fun u => u.refillDue 0 0 && (((u.copse 0).rick 0).banks == []) &&
         1 ≤ ((u.sweepRicks 0).copse 0).openBanks.length && ((u.sweepRicks 0).copse 0).heldBy 0 == 0) (fun u => ((u.copse 0).rick 0).banks == [0]) &&
     doing (.rickRefill 0 0) (evicted.modCtx 0 fun x => { x with rkquota := 0 }) (fun u => u.refillDue 0 0 && ((u.sweepRicks 0).copse 0).heldBy 0 == 0)
       (fun u => ((u.copse 0).rick 0).state == .evicted && !((u.copse 0).rick 0).refilling) &&
     doing (.tileReadOut 0) (late 32 (drain (draining 0 false))) (fun u => u.readOutDue 0 && (u.drainOf 0).isSome)
       (fun u => (u.core 0).ctagf == 0x8000000000000000) &&
     meets (.mdrainFinish 0) (drain (draining 2047 true)) (fun u => match u.drainOf 0 with
       | some d => d.q.freed && (u.drainFrom 0 d 2047 1).2.2.isNone
       | none => false) &&
     meets (.mdrainFinish 0) ((drain (draining 2047 true)).modCore 0 fun k => { k with tileBad := [4095] }) (fun u => match u.drainOf 0 with
       | some d => (match (u.drainFrom 0 d 2047 1).2.2 with | some (some _) => true | _ => false)
       | none => false) &&
     doing (.rickStaleMark 0 8 none) (rick .ready) (fun _ => true) (fun u => ((u.copse 0).rick 0).state == .stale) &&
     doing (.rickStaleMark 0 8 (some { core := 0, slot := 0, run := 0, lsn := 0 })) (rick .ready) (fun _ => true)
       (fun u => u.flits.length == 1) &&
     Rick.state { state := .ready } != .revoked &&
     doing (.bankZeroed 0 7) (late 128 (bench.modCopse 0 fun x => { x with banks := x.banks.set 7 (.zeroing 0), bank := [(0x8000 * 7, 5)] }))
       (fun u => (((u.copse 0).banks[7]?).getD BankState.free).zeroedAt u.clock) (fun u => (u.copse 0).banks[7]? == some .free && (u.copse 0).bank.isEmpty) &&
     doing (.forcedEviction 0 0) (rick .ready) (fun u => ((u.copse 0).rick 0).bound && !(u.rickUsed 0 8))
       (fun u => ((u.copse 0).rick 0).state == .evicted)) = true := by decide +kernel

/-! #### Copies and runnels -/

/-- A copy of core 0 on tag 63: 8 bytes from near store 0 to near store 0x2000, elements of one dimension. -/
def aCopy (opc : Nat) (n : Nat) : Copy :=
  { tag := 63, desc := { hdr := [0x40000, 0x42000, 0x44000, 0, wd (0x1180000000000000 + opc * 2 ^ 57 + (if opc = 6 then 0x2F * 2 ^ 49 else 0)), 0, 0, 0],
                         dims := [(wd n, 8, 8)] } }

/-- R328, R330, R435: a run, a landing, an abort, a late collective; a chunk's result written, and one whose page is missing. -/
theorem witness_CopyAndRunnelSteps_copies :
    (let with_ := fun (x : Copy) => bench.modCore 0 fun k => { k with copies := [x], busy := 0x8000000000000000 }
     let got := fun (w : Copy → Bool) (u : State) => match (u.core 0).copy? 63 with | some x => w x | none => false
     let data : List Byte := [9] ++ List.replicate 7 0
     let chunk := Event.fabricChunkResult 0 63 0 0 data
     let ready : RunElem := { dst := some 0x42000, val := List.replicate 8 7, at_ := some [(0, 8, 0x2000, 0)] }
     let dests := fun (b : Bool) (x : Copy) (es : List (Option Nat × List Byte)) (u : State) => match u.checkDests 0 x.desc (es.map Prod.fst) with
       | (v, .ok ps) => b && (match v.writeElems 0 x.desc (es.zip ps) with
         | .done w => (match w.setBitmap 0 x.desc 0 with | .done _ => true | _ => x.desc.opc != 6)
         | _ => false)
       | (_, .error _) => !b
     doing (.copyRun 0 63) (with_ (aCopy 0 1)) (fun u => got (fun x => u.copyCanRun 0 x && u.copyTurn 0 == some (0, 63) && x.desc.total ≤ x.resume + 1) u)
       (fun u => (u.core 0).ctagf == 0x8000000000000000 && got (fun x => x.buf.isSome) u) &&
     doing (.copyRun 0 63) (with_ { aCopy 0 1 with buf := some [ready] })
       (fun u => got (fun x => u.copyCanRun 0 x && x.translated &&
         match u.writeElems 0 x.desc [((ready.dst, ready.val), partsAt (ready.at_.getD []))] with | .done _ => true | _ => false) u)
       (fun u => got (fun x => x.landing) u && memRead u.mem 0x2000 == 7) &&
     doing (.copyRun 0 63) (with_ { aCopy 0 1 with buf := some [{ ready with at_ := none }] })
       (fun u => got (fun x => u.copyCanRun 0 x && !x.translated && dests true x [(ready.dst, ready.val)] u) u)
       (fun u => got (fun x => x.landing) u && memRead u.mem 0x2000 == 7) &&
     doing (.copyLanded 0 63) (with_ { aCopy 0 1 with landing := true, resume := 1 }) (fun u => got u.copyCanLand u)
       (fun u => (u.core 0).ctagl == 0x8000000000000000 && (u.core 0).copies.isEmpty) &&
     doing (.fabricAborted 0 63 0) (with_ (aCopy 6 1)) (fun u => got (fun x => x.desc.opc == 6 && x.inst == 0) u) (fun u => (u.core 0).ctage == 0x8000000000000000) &&
     doing (.fabricAborted 0 63 1) (with_ (aCopy 6 1)) (fun u => got (fun x => x.inst != 1) u) (fun u => (u.core 0).copies.length == 1) &&
     doing (.collectiveTimeout 0 63) ({ with_ (aCopy 6 1) with colls := [{ core := 0, tag := 63, group := 1, since := 0, chunks := 1 }], clock := 0x4000000 } : State)
       (fun u => u.collectiveLate 0 63 && u.colls.length == 1) (fun u => u.pending == [.fabricAborted 0 63 0]) &&
     doing chunk (with_ { aCopy 6 1 with chunks := [0] }) (fun u => got (fun x => x.desc.opc == 6 && x.chunks.length == 1 && x.state == .running && data.length == x.desc.chunkBytes 0 &&
         dests true x (x.desc.chunkElems data (natAt x.chunks 0) x.desc.total) u) u)
       (fun u => memRead u.mem 0x2000 == 9 && memRead u.mem 0x4000 == 1 && got (fun x => x.wrote == [0]) u) &&
     doing chunk ({ with_ { aCopy 6 1 with chunks := [0] } with copses := [] } : State) (fun u => got (fun x =>
         dests false x (x.desc.chunkElems data (natAt x.chunks 0) x.desc.total) u) u)
       (fun u => got (fun x => x.state == .suspended) u) &&
     doing chunk ({ bench with colls := [{ core := 0, tag := 63, group := 1, since := 0 }] } : State) (fun u => !(got (fun _ => true) u) && u.inCollective 0 63 0)
       (fun u => u.pending.length == 1) &&
     doing (.fabricChunkResult 0 63 0 0 (9 :: data)) (with_ { aCopy 6 1 with chunks := [0] }) (got fun x => (9 :: data).length != x.desc.chunkBytes 0)
       (fun u => u.mem.isEmpty)) = true := by decide +kernel

/-- R335, R336: a word fetched, one whose page is missing, a word written, and a neighbour's word and credit. -/
theorem witness_CopyAndRunnelSteps_runnels :
    (let pat : List Word := [0x40000, 0x0000000800000004, 1, 1, 1, 0, 0, 0]
     let port := fun (x : Port) => (atSheaf 0).modThread 0 0 fun t => { t with ports := [(15, { x with pat := pat })] }
     let at_ := fun (u : State) => (u.slot 0 0).th.ports.get 15 {}
     let nbr : Port := { mode := .nbr, link := 63, stile := 0x8800010000000000, unack := 1, credits := 15 }
     doing (.runnelFillFetch 0 0 15) (port {}) (fun u => (at_ u).canFetch && !(u.readHeld (.copse 0) 0 false 0x40000 8)) (fun u => (at_ u).buf == [some 0] && (at_ u).pos == 1) &&
     doing (.runnelFillFetch 0 0 15) ({ port {} with copses := [] } : State) (fun u => (at_ u).canFetch) (fun u => (at_ u).buf == [none]) &&
     doing (.runnelDrainWrite 0 0 15) (port { mode := .drain, buf := [some 5] }) (fun u => (at_ u).canDrain)
       (fun u => memRead u.mem 0 == 5 && (at_ u).buf.isEmpty && (at_ u).pos == 1) &&
     doing (.neighbourWord 1 0 63 0 5 7) (port { nbr with id := 5 }) (fun u => u.hosts 1 0) (fun u => (u.core 1).links == [(63, 0, 5, 7)] && (at_ u).unack == 0) &&
     doing (.neighbourWord 1 1 63 0 5 7) (port { nbr with id := 5 }) (fun u => !(u.hosts 1 1)) (fun u => (u.core 1).links.isEmpty && (at_ u).unack == 0 && u.flits.length == 1) &&
     doing (.neighbourCredit 0 0 63 1 5) (port { nbr with id := 5 }) (fun u => u.hosts 0 0) (fun u => (at_ u).credits == 16)) = true := by decide +kernel

/-- Positions outside a block of one element are zeros: a tile of them reads nothing. -/
theorem tile_outside (s : State) (p c x : Nat) (priv : Bool) (b : FillBlock) (blk : Word) (hb : b.side = 1) (l : List Nat)
    (h : ∀ e ∈ l, e ≠ 0) : ∃ bs, s.tileBytes p c x priv b blk 0 l = (s, .ok bs) := by
  induction l with
  | nil => exact ⟨[], rfl⟩
  | cons e rest ih =>
    obtain ⟨bs, hbs⟩ := ih fun e he => h e (List.mem_cons_of_mem _ he)
    have he : e ≠ 0 := h e (List.mem_cons_self ..)
    have hk : b.side ≤ e / 128 ∨ b.side ≤ e % 128 := by omega
    refine ⟨List.replicate b.t.s 0 ++ bs, ?_⟩
    rw [State.tileBytes]
    simp [hb] at hk
    simp [hb, hk]
    rw [hbs]

/-- A tile whose first element is read and whose other positions lie outside its block is read. -/
theorem tile_first (s t : State) (p c x a : Nat) (priv : Bool) (b : FillBlock) (blk : Word) (hb : b.side = 1) (v : List Byte)
    (ha : b.addr 0 0 = some a) (h0 : s.readVa (.copse p) (.array c) x priv a b.t.s blk = (t, .ok v)) (l : List Nat)
    (h : ∀ e ∈ l, e ≠ 0) : ∃ bs, s.tileBytes p c x priv b blk 0 (0 :: l) = (t, .ok bs) := by
  obtain ⟨bs, hbs⟩ := tile_outside t p c x priv b blk hb l h
  refine ⟨v ++ bs, ?_⟩
  rw [State.tileBytes]
  have h1 : s.readVa (.copse p) (.array c) x priv a b.t.s blk 0#32 = (t, .ok v) := h0
  simp [hb, ha, h1]
  rw [hbs]

/-- A block of one byte in near store, and states in which it is filled from and refilled from. -/
def oneByte : FillBlock := { t := ⟨0x40000, 1, 1, 0, false, 1, 0⟩, row0 := 0, col0 := 0, side := 1 }
def fillState : State :=
  commanded { filling with cmd := .fill 8 [0x40000, 0, 0, 0] 0 0 false } true (rick .filling)
def refillState : State := (rick .evicted [0] true).modCopse 0 fun x => x.modRick 0 fun k => { k with src := some ([0x40000, 0, 0, 0], 0, 0, false) }

/-- A bank is filled from the one byte where that can be read. -/
theorem bank_filled (s : State) (h : (match (s.readVa (.copse 0) (.array 0) 0 false 0x40000 1 (oneByte.word 0)).2 with
    | .ok _ => true
    | .error _ => false) = true) : ∃ v, s.fillBanks 0 0 0 false oneByte (oneByte.word 0) [(0, 0)] = (v, .ok ()) := by
  have h0 : ∃ t v, s.readVa (.copse 0) (.array 0) 0 false 0x40000 1 (oneByte.word 0) = (t, .ok v) := by
    split at h
    · rename_i v hv
      exact ⟨_, v, Prod.ext rfl hv⟩
    · cases h
  obtain ⟨t, v, h0⟩ := h0
  obtain ⟨bs, hbs⟩ := tile_first s t 0 0 0 0x40000 false oneByte (oneByte.word 0) rfl v (by decide +kernel) h0
    ((List.range 32767).map (· + 1)) (by simp)
  have hr : List.range (tileK oneByte.t.s * 128) = 0 :: (List.range 32767).map (· + 1) := by
    rw [show tileK oneByte.t.s * 128 = 32767 + 1 from rfl, List.range_succ_eq_map]
  refine ⟨t.modCopse 0 fun x => x.writeBank 0 bs, ?_⟩
  rw [State.fillBanks, hr, hbs]
  rfl

/-- The source is that byte, and it can be read. -/
def opens (r : State × Except TrapRec FillBlock) : Bool :=
  match r with
  | (v, .ok b) => b == oneByte && (match (v.readVa (.copse 0) (.array 0) 0 false 0x40000 1 (oneByte.word 0)).2 with
    | .ok _ => true
    | .error _ => false)
  | (_, .error _) => false

theorem opens_spec {r : State × Except TrapRec FillBlock} (h : opens r = true) :
    ∃ v w, r = (v, .ok oneByte) ∧ v.fillBanks 0 0 0 false oneByte (oneByte.word 0) [(0, 0)] = (w, .ok ()) := by
  unfold opens at h
  split at h
  · rename_i v b
    rw [Bool.and_eq_true] at h
    obtain ⟨w, hw⟩ := bank_filled v h.2
    exact ⟨v, w, by rw [eq_of_beq h.1], hw⟩
  · cases h

/-- R308, R310: the fill and the refill of a bank from one byte of near store succeed. -/
theorem witness_MatrixSteps_fill :
    (meets (.rkfillFinish 0) fillState (fun u => u.canFinishFill 0 && ((u.copse 0).find 8).any fun r => r.banks == [0]) &&
     meets (.rickRefill 0 0) refillState (fun u => u.refillDue 0 0 && (((u.copse 0).rick 0).banks == [0]) && u.refillCore 0 8 == 0)) = true ∧
    (∃ v w, fillState.fillOpen 0 0 8 [0x40000, 0, 0, 0] 0 0 false = (v, .ok oneByte) ∧
      v.fillBanks 0 0 0 false oneByte (oneByte.word 0) [(0, 0)] = (w, .ok ())) ∧
    (∃ v w, refillState.fillOpen 0 0 8 [0x40000, 0, 0, 0] 0 0 false = (v, .ok oneByte) ∧
      v.fillBanks 0 0 0 false oneByte (oneByte.word 0) [(0, 0)] = (w, .ok ())) :=
  ⟨by decide +kernel, opens_spec (by decide +kernel), opens_spec (by decide +kernel)⟩

/-! #### Gateways -/

/-- Gateway 0's copse reaches near store; a host map window stands over its first page, and pre-copy is on for context 0. -/
def hosted : State :=
  let s := bench.modCopse (copseAt (bench.attachment 0 ((attachments 0).headD 0))) fun x => { x with tlb := pages }
  { s with windows := [(0, { ctx := 0, hb := 0x1000, len := 0x1000, vb := 0x40000, rw := true })],
           ctxs := [(0, { (s.ctx 0) with tctl := 1, dtroot := 0x100000 })] }

/-- R64, R117, R394, R395, R434, R441: host accesses under a key that is not held, held for want of a key, outside and through a
window; pages sent from a run, from a mark, and at the end of a round; a page received. -/
theorem witness_GatewaySteps :
    (let dirty := hosted.putBytes 0x100000 [some 4]
     let read := Event.hostMemAccess 0 0x1FF8 (.read 8)
     let may := fun (u : State) => (u.stream 0 0).holds false && !((u.stream 0 0).stuck)
     doing (.gatewayDrain 0) (bench.modGw 0 fun g => { g with biq := [3] }) (fun _ => true) (fun u => (u.gw 0).biq.isEmpty) &&
     doing (read true) hosted (fun u => !((u.stream 0 0).holds true)) (fun u => (u.stream 0 0).integ == 1 && (u.gw 0).replies.isEmpty) &&
     doing (read false) (hosted.modStream 0 0 fun x => { x with cnt := cntEnd }) (fun u => (u.stream 0 0).holds false && (u.stream 0 0).stuck)
       (fun u => (u.stream 0 0).held == [read false]) &&
     doing (.hostMemAccess 0 0x2000 (.read 8) false) hosted (fun u => may u && u.windowAt 0x2000 == none)
       (fun u => (u.gw 0).replies == [(false, none)]) &&
     doing (read false) hosted
       (fun u => may u && match u.windowAt 0x1FF8 with | some w => 8 ≤ w.hb + w.len - 0x1FF8 | none => false)
       (fun u => (u.sector (0xFF8 / 128)).host == some 0 && (u.gw 0).replies == [(false, some (List.replicate 8 0))]) &&
     doing (.hostMemAccess 0 0x1FF8 (.write (List.replicate 8 (some 5))) false) hosted
       (fun u => may u && match u.windowAt 0x1FF8 with | some w => 8 ≤ w.hb + w.len - 0x1FF8 | none => false)
       (fun u => u.homeWord 0xFF8 == 0x0505050505050505) &&
     doing (.precopyPage 0) ({ hosted with precopy := [(0, 0x40, 2)] } : State)
       (fun u => !((u.stream u.primaryGw migrationStream).stuck) && takePage 0 u.precopy == some (0x40, [(0, 0x41, 1)]) &&
         match (u.readPage 0 0x40).2 with | .record _ => true | _ => false)
       (fun u => u.precopy == [(0, 0x41, 1)] && u.sent.length == 1) &&
     doing (.precopyPage 0) dirty (fun u => !((u.stream u.primaryGw migrationStream).stuck) && takePage 0 u.precopy == none && (u.ctx 0).tctl.getLsbD 0 &&
         (u.nextMark 0 0 3 0x100000 0).isSome)
       (fun u => u.homeWord 0x100000 == 0 && u.precopy.length == 1) &&
     doing (.precopyPage 0) ({ hosted with preAt := [(0, 5)] } : State) (fun u => takePage 0 u.precopy == none && (u.ctx 0).tctl.getLsbD 0 &&
         (u.nextMark 0 (u.preAt.get 0 0) 3 0x100000 0).isNone) (fun u => u.preAt.get 0 1 == 0)) = true := by decide +kernel

/-- The sectors of page 0x40, the first apart, carry another context's key. -/
def keyed : State := { hosted with secs := (List.range 31).map fun i => (i + 1, { kid := some 9 }) }

/-- R434: the record of page 0x40 is written where its sectors take it. -/
theorem witness_GatewaySteps_page :
    ∃ v l t, ({ keyed with event := some (.pageRecordReceive 0 0x40 [7] [9]) } : State).taken.xlate
        (({ keyed with event := some (.pageRecordReceive 0 0x40 [7] [9]) } : State).taken.gwXer 0) 0 (0x40 * 4096) = (v, .ok l) ∧
      l.kind ≠ 2 ∧ (v.pageSectors l 0x40).all sealedTier = true ∧
      v.pageWrite 0 (l.kid.getD 0) ((v.pageSectors l 0x40).zipIdx.map fun x =>
        (0x40 * 4096 + 128 * x.2, x.1, (List.range 128).map (fun j => (([9] : List Byte)[128 * x.2 + j]?).getD 0),
         (([7] : List (BitVec 32))[x.2]?).getD 0)) = .done t := by
  generalize hu : ({ keyed with event := some (.pageRecordReceive 0 0x40 [7] [9]) } : State).taken = u
  have hx : u.gwXer 0 = .copse 1 := by rw [← hu]; decide +kernel
  have hl : tlbFind (u.copse 1).tlb 0 (0x40 * 4096) = some (leafAt 0x40000 0).leaf := by rw [← hu]; decide +kernel
  have hw : ∀ w, w = ((u.pageSectors (leafAt 0x40000 0).leaf 0x40).zipIdx.map fun x =>
        (0x40 * 4096 + 128 * x.2, x.1, (List.range 128).map (fun j => (([9] : List Byte)[128 * x.2 + j]?).getD 0),
         (([7] : List (BitVec 32))[x.2]?).getD 0)) →
      (match u.pageWrite 0 0 w with | .done _ => true | _ => false) = true := by
    intro w hw; rw [hw, ← hu]; decide +kernel
  refine ⟨u, (leafAt 0x40000 0).leaf, ?_⟩
  have := hw _ rfl
  split at this
  · rename_i t ht
    exact ⟨t, by simp [hx, State.xlate, State.xlateCopse, hl], by decide, by rw [← hu]; decide +kernel, ht⟩
  · cases this

/-- R393 to R395, R433: packets of a stream in each of its states, its old key, a timeout and a START. -/
theorem witness_GatewaySteps_streams :
    (let r := req (poolBase + 0x3000) (.read 8)
     let e := Event.poolAccess r
     let st := fun (x : Machine.Stream) => bench.modStream 0 5 fun _ => x
     let full : Machine.Stream := { cnt := 2 ^ 48 }
     let next : Machine.Stream := { cnt := 2 ^ 48, nkr := true }
     let out : Machine.Stream := { out := [{ step := some e, phase := false, since := 0 }] }
     doing (.streamSend 0 5 true) (st { cnt := 2 ^ 48 - 1 }) (fun _ => true) (fun u => (u.stream 0 5).cnt == 2 ^ 48 && (u.stream 0 5).out.length == 1) &&
     doing (.streamSend 0 5 false) (st full) (fun _ => true) (fun u => u.tcmsgs == [(0, 5, false)] && (u.stream 0 5).held.length == 1) &&
     full.held.isEmpty && !full.nkr && !({ full with held := [e] } : Machine.Stream).held.isEmpty &&
     (let y := next.offer 9 e (some none)
      y.ph && y.cnt == 1 && y.oldrx && !next.ph && next.held.isEmpty) &&
     doing (.streamReceive 0 5 true false) (st {}) (fun u => !((u.stream 0 5).holds true)) (fun u => (u.stream 0 5).integ == 1) &&
     doing (.oldKeyTimeout 0 5) ({ st { out with ph := true, oldrx := true } with clock := Config.completionTimeout } : State)
       (fun u => (u.stream 0 5).oldDue u.clock) (fun u => !(u.stream 0 5).oldrx) &&
     doing (.completionTimeout 0 5 r.tag) ({ st out with pending := [e], clock := Config.completionTimeout } : State)
       (fun u => (u.stream 0 5).out.any fun x => (u.stream 0 5).late u.clock x) (fun u => (u.stream 0 5).out.isEmpty && !(u.pending.contains e)) &&
     doing (.gwstartWrite 0 0xFFFFF87F) bench (fun u => u.dieLive (0xFFFFF87F % 2 ^ 11 / 128)) (fun u => (u.gw 0).start == [0x7F])) = true := by
  decide +kernel

/-! #### The trust core -/

/-- An event in hand, and a command slot 0 of these words, in session 0 of context 0. -/
def slot0 (e : Event) (ws : List Word) (s : State) : State :=
  { s with event := some e, tcstage := 0, sessions := [(0, { ctx := 0, key := 5, mig := 6 })], cmds := [(0, ws)] }

/-- The step of a command code in slot 0. -/
def step0 (code : Nat) : Event := (commandOf code 0).getD (.create 0)

/-- The small machine with a host's command in slot 0. -/
def told (code : Nat) (ops : List Word) (s : State := bench) : State :=
  slot0 (step0 code) (wd (8 * ops.length * 2 ^ 32 + code) :: ops ++ List.replicate (31 - ops.length) 0) s

/-- The small machine with a command of context 0's tenant in slot 0, sealed under its session's key. -/
def asked (code : Nat) (ops : List Word) (s : State := bench) : State :=
  slot0 (step0 code) (wd ((8 * ops.length + 28) * 2 ^ 32 + 256 + code) ::
    wordsFrom 31 (sealBlock 5 0 0 (ops.flatMap fun w => toBytes 8 w.toNat) ++ List.replicate (8 * (31 - ops.length) - 28) 0)) s

/-- The first word of a command of `k` operand words, as a host and as a tenant writes it. -/
theorem host_heads : ∀ k < 26, ∀ c < 16, 1 ≤ c →
    cmdLen (wd (8 * k * 2 ^ 32 + c)) = 8 * k ∧ cmdBad (wd (8 * k * 2 ^ 32 + c)) = false ∧
      cmdTenant (wd (8 * k * 2 ^ 32 + c)) = false ∧ commandOf (cmdCode (wd (8 * k * 2 ^ 32 + c))) 0 = some (step0 c) := by
  decide +kernel

theorem tenant_heads : ∀ k < 26, ∀ c < 16, 1 ≤ c →
    cmdLen (wd ((8 * k + 28) * 2 ^ 32 + 256 + c)) = 8 * k + 28 ∧ cmdBad (wd ((8 * k + 28) * 2 ^ 32 + 256 + c)) = false ∧
      cmdTenant (wd ((8 * k + 28) * 2 ^ 32 + 256 + c)) = true ∧ cmdSess (wd ((8 * k + 28) * 2 ^ 32 + 256 + c)) = 0 ∧
      commandOf (cmdCode (wd ((8 * k + 28) * 2 ^ 32 + 256 + c))) 0 = some (step0 c) := by decide +kernel

/-- R383: a host's command gives its words. -/
theorem told_commanded (c : Nat) (ops : List Word) (s : State) (n : Nat) (hc : 1 ≤ c ∧ c ≤ 15) (hn : n ≤ ops.length)
    (hl : ops.length ≤ 25) : Commanded (told c ops s) (step0 c) 0 n none fun j => (ops[j]?).getD 0 := by
  obtain ⟨h1, h2, h3, h4⟩ := host_heads _ (Nat.lt_succ_of_le hl) c (Nat.lt_succ_of_le hc.2) hc.1
  have hm : (told c ops s).cmdWords 0 = wd (8 * ops.length * 2 ^ 32 + c) :: ops ++ List.replicate (31 - ops.length) 0 := rfl
  refine ⟨rfl, rfl, h2, h4, h3, ?_, fun j hj => ?_⟩
  · show 8 * n ≤ cmdLen (wd (8 * ops.length * 2 ^ 32 + c))
    omega
  · have hj' : j < ops.length := by omega
    simp [hm, List.getElem?_append_left hj']

theorem word_of_bytes (j n : Nat) (bs : List Byte) (hj : j < n) :
    (wordsFrom n bs)[j]? = some (wd (ofBytes ((bs.drop (8 * j)).take 8))) := by
  induction n generalizing j bs with
  | zero => omega
  | succ n ih =>
    cases j with
    | zero => simp [wordsFrom]
    | succ j => simp [wordsFrom, ih j _ (by omega), Nat.mul_add, Nat.add_comm]

/-- R383: a tenant's command opens to its words. -/
theorem asked_commanded (c : Nat) (ops : List Word) (s : State) (n : Nat) (hc : 1 ≤ c ∧ c ≤ 15) (hn : n ≤ ops.length)
    (hl : ops.length ≤ 25) : Commanded (asked c ops s) (step0 c) 0 n (some 0) fun j => (ops[j]?).getD 0 := by
  obtain ⟨h1, h2, h3, h4, h5⟩ := tenant_heads _ (Nat.lt_succ_of_le hl) c (Nat.lt_succ_of_le hc.2) hc.1
  generalize hbs : (ops.flatMap fun w => toBytes 8 w.toNat) = bs
  have hlen : bs.length = 8 * ops.length := by rw [← hbs, length_bytes]
  generalize hsb : sealBlock 5 0 0 bs = sb
  have hsl : sb.length = 8 * ops.length + 28 := by rw [← hsb, length_sealBlock, hlen]
  have hm : (asked c ops s).cmdWords 0 = wd ((8 * ops.length + 28) * 2 ^ 32 + 256 + c) ::
      wordsFrom 31 (sb ++ List.replicate (8 * (31 - ops.length) - 28) 0) := by
    rw [← hsb, ← hbs, asked]; rfl
  have hb : (asked c ops s).cmdBytes 0 (8 * ops.length + 28) = sb := by
    rw [State.cmdBytes, hm, List.drop_one, List.tail_cons, bytes_wordsFrom 31 _ (by simp [hsl]; omega), ← hsl, List.take_left]
  have ho : openSealed 5 sb = some bs := by rw [← hsb]; exact openSealed_sealBlock 5 0 0 (by omega) (by omega) bs
  have hf : wordsFrom ops.length bs = ops := by
    have := wordsFrom_bytes ops []
    rwa [List.append_nil, hbs] at this
  have hw : (((asked c ops s).cmdWords 0)[0]?).getD 0 = wd ((8 * ops.length + 28) * 2 ^ 32 + 256 + c) := by rw [hm]; rfl
  refine ⟨by rw [asked, slot0], by rw [asked, slot0], by rw [hw]; exact h2, by rw [hw]; exact h5, by rw [hw]; exact h3, by rw [hw, h1]; omega,
    { ctx := 0, key := 5, mig := 6 }, bs, ?_, rfl, ?_, by omega, fun j hj => ?_⟩
  · rw [hw, h4, asked]; rfl
  · rw [hw, h1, hb]; exact ho
  · have := word_of_bytes j ops.length bs (by omega)
    rw [hf] at this
    simp [this, wd]

/-- R383 to R385, R390: commands of the host on keys, contexts and cores. -/
theorem witness_TrustContextCommands_host :
    (doing (.keyLoad 3) bench (fun u => !(u.keyIds.contains 3)) (fun u => u.keyIds == [3]) &&
      doing (.keyLoad 3) ({ bench with keyIds := [3] } : State) (fun u => u.keyIds.contains 3) (fun u => u.keyIds == [3])) = true ∧
    (∃ s op id, Commanded s (.create 0) 0 4 none op ∧ recordBad (op 0) (op 1) (op 2) (op 3) = false ∧ s.taken.freeId = some id) ∧
    doing (.create 0) ({ bench with tcstage := 2, keyIds := [1] } : State) (fun u => u.keyIds.contains 1) (fun u => u.tcstage == 0) = true ∧
    (∃ s op, Commanded s (.addcore 0) 0 2 none op ∧ (op 0).toNat < 2048 ∧ s.taken.dieLive ((op 0).toNat / 128) = true ∧
      (s.taken.core (op 0).toNat).ctx = none ∧ s.taken.liveCtx (op 1) = true) ∧
    (∃ s op, Commanded s (.remcore 0) 0 1 none op ∧ (s.taken.core (op 0).toNat).ctx = some 0 ∧ (s.taken.supvCore 0 ≠ (op 0).toNat ∨ (s.taken.coresOf 0).length ≤ 1) ∧
      (s.taken.core (op 0).toNat).idle = true) ∧
    (∃ s op, Commanded s (.setquota 0) 0 2 none op ∧ flagsBad (op 1) = false ∧ s.taken.liveCtx (op 0) = true) ∧
    (∃ s op, Commanded s (.stop 0) 0 1 none op ∧ s.taken.liveCtx (op 0) = true) ∧
    (∃ s op, Commanded s (.destroy 0) 0 1 none op ∧ s.taken.liveCtx (op 0) = true) :=
  ⟨by decide +kernel, ⟨_, _, 1, told_commanded 1 [0x801, 0x800, 0x7FFFFF, 0x8000000000000000] bench _ (by decide) (by decide) (by decide),
      by decide +kernel, by decide +kernel⟩, by decide +kernel,
    ⟨_, _, told_commanded 2 [2, 0] bench _ (by decide) (by decide) (by decide), by decide +kernel, by decide +kernel, by decide +kernel,
      by decide +kernel⟩,
    ⟨_, _, told_commanded 3 [1] bench _ (by decide) (by decide) (by decide), by decide +kernel, by decide +kernel, by decide +kernel⟩,
    ⟨_, _, told_commanded 4 [0, 0] bench _ (by decide) (by decide) (by decide), by decide +kernel, by decide +kernel⟩,
    ⟨_, _, told_commanded 9 [0] bench _ (by decide) (by decide) (by decide), by decide +kernel⟩,
    ⟨_, _, told_commanded 10 [0] bench _ (by decide) (by decide) (by decide), by decide +kernel⟩⟩

/-- R393, R394: a host's report and stream key; a command with a reserved bit, and one of a session that is not open. -/
theorem witness_TrustRegistryCommands_host :
    (∃ s op, Commanded s (.attest 0) 0 6 none op ∧ (s.attLeaf ≠ 1024 ∨ (s.die (16 + s.primaryGw)).spent = false) ∧ s.taken.liveCtx (op 4) = true ∧
      hostRange (op 5).toNat (152 + Config.signatureLength.val) = true) ∧
    (∃ s op, Commanded s (.streamkey 0) 0 11 none op ∧ (op 0).toNat ≤ 3 ∧ (op 1).toNat ≤ 31 ∧ (op 10).toNat ≤ 1 ∧
      (s.stream (op 0).toNat (op 1).toNat).oldrx = false) ∧
    (let bad := slot0 (.stop 0) [0x8000000000000000] bench
     let gone : State := { slot0 (.stop 0) [wd (36 * 2 ^ 32 + 256 + 9)] bench with sessions := [] }
     let w := fun (s : State) => ((s.cmdWords 0)[0]?).getD 0
     let other := slot0 (.stop 0) [wd (8 * 2 ^ 32 + 10)] bench
     bad.tcstage == 0 && cmdBad (w bad) && !(cmdBad (w gone)) && commandOf (cmdCode (w gone)) 0 == some (.stop 0) &&
     commandOf (cmdCode (w other)) 0 != some (.stop 0) && cmdTenant (w gone) && (gone.sessions.get? (cmdSess (w gone))).isNone) = true := by
  refine ⟨⟨_, _, told_commanded 13 [1, 2, 3, 4, 0, wd hostBase] bench _ (by decide) (by decide) (by decide), by decide +kernel,
      by decide +kernel, ?_⟩,
    ⟨_, _, told_commanded 14 (List.replicate 11 0) bench _ (by decide) (by decide) (by decide), by decide +kernel, by decide +kernel,
      by decide +kernel, by decide +kernel⟩, by decide +kernel⟩
  have h : (([1, 2, 3, 4, 0, wd hostBase] : List Word)[5]?.getD 0).toNat = hostBase := by decide +kernel
  have := Config.signatureLength.isLt
  show hostRange (([1, 2, 3, 4, 0, wd hostBase] : List Word)[5]?.getD 0).toNat _ = true
  rw [h]
  simp only [hostRange, hostBase, reservedBase, Bool.and_eq_true]
  exact ⟨decide_eq_true (by omega), decide_eq_true (by omega)⟩

/-- A handle names its entry while its generation stands. -/
theorem stile_of_handle (s : State) (e : StileEnt) (hl : e.live = true) (hg : e.gen = 0) (hs : s.stiles = [(0, e)])
    (hk : s.stileKey = 0) : s.stile? (wd (e.handle 0 0)) = some e := by
  have hc := (e.chk 0 0).isLt
  have hh : (wd (e.handle 0 0)).toNat = (e.chk 0 0).toNat := by
    simp only [StileEnt.handle, hg, wd, BitVec.toNat_ofNat]
    omega
  have h1 : handleIdx (wd (e.handle 0 0)) = 0 := by simp only [handleIdx, field, nbits, hh]; omega
  have h2 : handleGen (wd (e.handle 0 0)) = 0 := by simp only [handleGen, field, nbits, hh]; omega
  have h3 : handleChk (wd (e.handle 0 0)) = e.chk 0 0 := by
    apply BitVec.eq_of_toNat_eq
    rw [handleChk, BitVec.extractLsb'_toNat, hh, Nat.shiftRight_zero, Nat.mod_eq_of_lt hc]
  simp [State.stile?, h1, h2, h3, hl, hg, hs, hk, SMap.get?]

/-- A stile of context 0 to itself: core 0's mailbox window. -/
def stile : StileEnt := { live := true, content := 0x8000000000000000 }

/-- R383, R386 to R388, R398, R441: a tenant's commands on stiles and windows. -/
theorem witness_TrustRegistryCommands_tenant :
    (∃ s op, Commanded s (.grant 0) 0 2 (some 0) op ∧ (op 0).getLsbD 43 = false ∧ (op 0).toNat % 2 ^ 16 = 0 ∧
      0 = entCtx (op 0) ∧ s.taken.liveCtx (op 1) = true ∧
      s.taken.grantOk 0 (op 1).toNat (op 0) = true ∧ (s.stiles.get 0 {}).live = false) ∧
    (∃ s op e, Commanded s (.install 0) 0 3 (some 0) op ∧ (op 2).toNat ≤ 63 ∧ s.taken.stile? (op 0) = some e ∧
      0 = e.grantee ∧ s.taken.hosts (op 1).toNat e.grantee = true) ∧
    (∃ s op e, Commanded s (.revoke 0) 0 1 (some 0) op ∧ s.taken.stile? (op 0) = some e ∧ 0 = entCtx e.content) ∧
    (∃ s op, Commanded s (.hostmap 0) 0 5 (some 0) op ∧ (op 0).toNat ≤ 15 ∧ (op 1).toNat % 4096 = 0 ∧
      (op 2).toNat % 4096 = 0 ∧ (op 3).toNat % 4096 = 0 ∧ (op 4).toNat ≤ 1 ∧ s.windows = [] ∧ op 2 ≠ 0) ∧
    (∃ s op, Commanded s (.hostmap 0) 0 5 (some 0) op ∧ (op 0).toNat = 15 ∧ (op 2).toNat % 4096 = 0 ∧ op 2 = 0 ∧
      (s.windows.get? (op 0).toNat).map (·.ctx) = some 0) :=
  ⟨⟨_, _, asked_commanded 5 [0, 0] bench _ (by decide) (by decide) (by decide), by decide +kernel, by decide +kernel, by decide +kernel,
      by decide +kernel, by decide +kernel, rfl⟩,
    ⟨_, _, stile, asked_commanded 6 [wd (stile.handle 0 0), 1, 63] ({ bench with stiles := [(0, stile)] } : State) _ (by decide) (by decide)
      (by decide), by decide +kernel, stile_of_handle _ _ rfl rfl rfl rfl, rfl, by decide +kernel⟩,
    ⟨_, _, stile, asked_commanded 7 [wd (stile.handle 0 0)] ({ bench with stiles := [(0, stile)] } : State) _ (by decide) (by decide)
      (by decide), stile_of_handle _ _ rfl rfl rfl rfl, by decide +kernel⟩,
    ⟨_, _, asked_commanded 15 [0, 0x1000, 0x1000, 0x40000, 1] bench _ (by decide) (by decide) (by decide), by decide +kernel, by decide +kernel,
      by decide +kernel, by decide +kernel, by decide +kernel, rfl, by decide⟩,
    ⟨_, _, asked_commanded 15 [15, 0, 0, 0, 0] ({ bench with windows := [(15, { ctx := 0, hb := 0, len := 0, vb := 0, rw := true })] } : State) _
      (by decide) (by decide) (by decide), by decide +kernel, by decide +kernel, by decide +kernel, rfl⟩⟩

/-- Two contexts that may share one key. -/
def pair : State := { bench with ctxs := [(0, { live := true, shmax := 1 }), (1, { live := true, shmax := 1 })] }

/-- R383, R388, R391: a tenant's commands on keys: the first session to ask for a shared key, the second, and an export. -/
theorem witness_TrustContextCommands_tenant :
    (∃ s op, Commanded s (.sharekey 0) 0 2 (some 0) op ∧ s.taken.liveCtx (op 0) = true ∧ s.taken.liveCtx (op 1) = true ∧
      op 0 ≠ op 1 ∧ 0 = (op 0).toNat ∧ (s.ctx (op 0).toNat).sharedIds.length < (s.ctx (op 0).toNat).shmax ∧
      (s.ctx (op 1).toNat).sharedIds.length < (s.ctx (op 1).toNat).shmax ∧ s.shareAsk.contains ((op 1).toNat, 0) = false) ∧
    (∃ s op id, Commanded s (.sharekey 0) 0 2 (some 0) op ∧ s.taken.liveCtx (op 0) = true ∧ s.taken.liveCtx (op 1) = true ∧
      op 0 ≠ op 1 ∧ 0 = (op 1).toNat ∧ (s.ctx (op 0).toNat).sharedIds.length < (s.ctx (op 0).toNat).shmax ∧
      (s.ctx (op 1).toNat).sharedIds.length < (s.ctx (op 1).toNat).shmax ∧ s.shareAsk.contains ((op 0).toNat, 0) = true ∧
      s.taken.freeId = some id) ∧
    (∃ s op, Commanded s (.exportKeys 0) 0 2 (some 0) op ∧ s.taken.liveCtx (op 0) = true ∧ 0 = (op 0).toNat ∧
      hostRange (op 1).toNat bundleLen = true) :=
  ⟨⟨_, _, asked_commanded 8 [0, 1] pair _ (by decide) (by decide) (by decide), by decide +kernel, by decide +kernel, by decide, by decide +kernel, by decide +kernel,
      by decide +kernel, by decide +kernel⟩,
    ⟨_, _, 2, asked_commanded 8 [1, 0] ({ pair with shareAsk := [(1, 0)] } : State) _ (by decide) (by decide) (by decide), by decide +kernel, by decide +kernel, by decide,
      by decide +kernel, by decide +kernel, by decide +kernel, by decide +kernel, by decide +kernel⟩,
    ⟨_, _, asked_commanded 11 [0, wd hostBase] bench _ (by decide) (by decide) (by decide), by decide +kernel, by decide +kernel,
      by decide +kernel⟩⟩

theorem asked_live (c : Nat) (ops : List Word) (s : State) (w : Word) : (asked c ops s).taken.liveCtx w = s.liveCtx w := rfl
theorem asked_ctx (c : Nat) (ops : List Word) (s : State) (x : Nat) : (asked c ops s).ctx x = s.ctx x := rfl

theorem asked_session (c : Nat) (hk : c < 16) (ops : List Word) (s : State) (h : ops.length = 12) :
    (asked c ops s).sessionOf 0 = { ctx := 0, key := 5, mig := 6 } := by
  have hc : cmdSess (wd ((8 * 12 + 28) * 2 ^ 32 + 256 + c)) = 0 := by revert c; decide +kernel
  rw [State.sessionOf, asked, show ∀ e ws, (slot0 e ws s).cmdWords 0 = ws from fun _ _ => rfl, List.getElem?_cons_zero,
    Option.getD_some, h, hc]
  rfl

/-- Eleven words back in bytes. -/
theorem eleven (ws more : List Word) (h : ws.length = 11) :
    (List.range 11).flatMap (fun j => toBytes 8 (((ws ++ more)[j]?).getD 0).toNat) = ws.flatMap fun w => toBytes 8 w.toNat := by
  have hm : (List.range 11).map (fun j => ((ws ++ more)[j]?).getD 0) = ws := by
    apply List.ext_getElem
    · simp [h]
    · intro j h1 h2
      simp [List.getElem?_append_left h2, List.getElem?_eq_getElem h2]
  calc (List.range 11).flatMap (fun j => toBytes 8 (((ws ++ more)[j]?).getD 0).toNat)
      = ((List.range 11).map (fun j => ((ws ++ more)[j]?).getD 0)).flatMap fun w => toBytes 8 w.toNat := by rw [List.flatMap_map]
    _ = ws.flatMap fun w => toBytes 8 w.toNat := by rw [hm]

/-- R392: a bundle that another device sealed for this session. -/
theorem witness_TrustContextCommands_import :
    ∃ s op b, Commanded s (.importKeys 0) 0 12 (some 0) op ∧ s.taken.liveCtx (op 11) = true ∧ 0 = (op 11).toNat ∧
      (s.ctx 0).made = true ∧
      openSealed (s.sessionOf 0).mig (((List.range 11).flatMap fun j => toBytes 8 (op j).toNat).take bundleLen) = some b := by
  have ho := openSealed_sealBlock 6 0 0 (by omega) (by omega) (List.replicate 56 1)
  have hl : (sealBlock 6 0 0 (List.replicate 56 1)).length = 84 := length_sealBlock ..
  generalize sealBlock 6 0 0 (List.replicate 56 1) = sb at hl ho
  have hf := bytes_wordsFrom 11 (sb ++ List.replicate 4 0) (by simp [hl])
  have hn := length_wordsFrom 11 (sb ++ List.replicate 4 0)
  generalize wordsFrom 11 (sb ++ List.replicate 4 0) = ws at hf hn
  have h11 : ((ws ++ [0])[11]?).getD 0 = 0 := by simp [hn]
  refine ⟨_, _, List.replicate 56 1, asked_commanded 12 (ws ++ [0]) ({ bench with ctxs := [(0, { live := true, made := true })] } : State) _ (by decide) (by simp [hn]) (by simp [hn]),
    ?_, ?_, ?_, ?_⟩
  · rw [asked_live]; simp only [h11]; decide +kernel
  · simp only [h11]; decide +kernel
  · rw [asked_ctx]; decide +kernel
  · rw [asked_session _ (by decide) _ _ (by simp [hn]), eleven ws [0] hn, hf, show bundleLen = sb.length from hl.symm, List.take_left]
    exact ho

/-- R385, R388, R390: commands that complete when their last acknowledgement has come. -/
theorem witness_TrustRegistryCommands_stage :
    doing (.revoke 0) ({ bench with tcstage := 1 } : State) (fun u => u.stilesCleared) (fun u => u.tcstage == 0) = true := by decide +kernel

theorem witness_TrustContextCommands_stages :
    (let at_ := fun (n : Nat) => ({ bench with tcstage := n, keyIds := [1] } : State)
     doing (.sharekey 0) (at_ (1 + 1 + 64 * 0 + 4096 * 2)) (fun u => u.keyIds.contains 1) (fun u => (u.ctx 2).tskm == 2 && (u.ctx 0).tskm == 2) &&
     doing (.importKeys 0) (at_ 2) (fun u => u.keyIds.contains 1) (fun u => u.tcstage == 0) &&
     doing (.stop 0) (at_ 1) (fun u => u.stopDone 0) (fun u => u.tcstage == 0) &&
     doing (.destroy 0) (at_ 1) (fun u => u.stopDone 0) (fun u => u.tcstage == 65) &&
     doing (.destroy 0) (at_ 65) (fun u => u.stilesCleared) (fun u => u.tcstage == 0 && u.ctxs.isEmpty)) = true := by decide +kernel

/-! #### The device -/

/-- R396, R436 to R440: alarms, the monitors' limits, bring-up and reset. -/
theorem witness_DeviceSteps :
    (let v := fun (u : State) => (u.die 2).moncfg
     let set := fun (w : Word) => bench.modDie 2 fun x => { x with moncfg := w }
     doing (.healthClear 0x48) ({ bench with health := 0x5C, clock := 1 } : State) (fun u => u.alarms.1 != u.clock) (fun u => u.health == 0x14) &&
     doing (.healthClear 0x48) ({ bench with health := 0x5C, clock := 1, alarms := (1, 8) } : State) (fun u => u.alarms.1 == u.clock)
       (fun u => u.health == 0x1C) &&
     [0x6E6D10, 0x6E6D80].all (fun w => doing (.moncfgWrite 2 w) bench (fun _ => true) (fun u => v u == w)) &&
     [0x6E6E10, 0x6F6D10, 0x6E6D00, 0x6E6D90, 0x6E6D11, 0x16E6D10].all
       (fun w => doing (.moncfgWrite 2 w) bench (fun u => v u != w) (fun u => v u != w)) &&
     doing (.thermalAlarm 2 { temp := 95, n := 3 }) (set 0x695F40) (fun u => 95 ≤ (v u).toNat / 2 ^ 8 % 2 ^ 8) (fun u => u.health == 0x30 && (u.die 2).thr) &&
     doing (.thermalTrip 2 { temp := 105, n := 3 }) (set 0x695F40) (fun u => (v u).toNat / 2 ^ 16 % 2 ^ 8 ≤ 105 && (v u).toNat / 2 ^ 8 % 2 ^ 8 ≤ 105) (fun u => u.stopped) &&
     doing (.throttleEnd 2 { temp := 89, n := 0 }) ({ bench.modDie 2 fun x => { x with thr := true } with health := 0x20 } : State) (fun _ => true)
       (fun u => u.health == 0) &&
     doing (.droop 0 3) bench (fun _ => true) (fun u => (u.copse 3).droopUntil == u.clock + 64 && u.health.getLsbD 3) &&
     doing (.firmwareReload 7) (bench.modDie 2 fun x => { x with leaf := 3, leafEnd := 64 }) (fun _ => true)
       (fun u => u.pending == [.bringUp] && (u.die 2).leaf == 3) &&
     doing .powerCut (bench.modDie 2 fun x => { x with leaf := 3, leafEnd := 64 }) (fun _ => true)
       (fun u => u.pending == [.bringUp] && (u.die 2).leaf == 64)) = true ∧
    ∃ s : State, s.event = some .bringUp := ⟨by decide +kernel, { bench with event := some .bringUp }, rfl⟩

end Sys2Proof.Tests
end

section
/-!
Bytes stored at an address and at a home read back, and all others stay (R13, R46, R60, R63).
-/

namespace Sys2Proof.Machine
open Sys2Proof

/-! ### Reading a canonical memory -/

theorem memRead_cons_self (k : Nat) (v : Byte) (rest : List Host.Cell) : memRead ((k, v) :: rest) k = v :=
  if_pos BEq.rfl

/-- An address above the first entry is read in the rest. -/
theorem memRead_cons_of_lt {k x : Nat} (v : Byte) (rest : List Host.Cell) (h : k < x) :
    memRead ((k, v) :: rest) x = memRead rest x := by
  have hne : ¬ (k == x) = true := mt eq_of_beq (Nat.ne_of_lt h)
  rw [memRead, if_neg hne, if_neg (Nat.lt_asymm h)]

/-- An address that no entry has reads as an unlisted byte. -/
theorem memRead_of_unlisted {m : List Host.Cell} {x : Nat} (h : ∀ c ∈ m, c.1 ≠ x) : memRead m x = unlisted := by
  induction m with
  | nil => rfl
  | cons c rest ih =>
    obtain ⟨k, v⟩ := c
    have hk : ¬ (k == x) = true := mt eq_of_beq (h _ List.mem_cons_self)
    rw [memRead, if_neg hk, ih fun c hc => h c (List.mem_cons_of_mem _ hc), ite_self]

/-- Above a bound, the entry of an address gives its byte. -/
theorem memRead_of_mem_above {m : List Host.Cell} {x : Nat} {v : Byte} :
    ∀ {o : Nat}, memWfAbove (some o) m = true → (x, v) ∈ m → memRead m x = v := by
  induction m with
  | nil => intro o _ hx; cases hx
  | cons c rest ih =>
    obtain ⟨k, w⟩ := c
    intro o h hx
    simp only [memWfAbove, Bool.and_eq_true] at h
    obtain ⟨-, hrest⟩ := h
    rcases List.mem_cons.1 hx with he | hx
    · cases he; exact memRead_cons_self ..
    · rw [memRead_cons_of_lt _ _ (memWfAbove_some_lt hrest _ hx), ih hrest hx]

/-- In a canonical memory the entry of an address gives its byte. -/
theorem memRead_of_mem {m : List Host.Cell} {x : Nat} {v : Byte} (h : Memory.wf m = true) (hx : (x, v) ∈ m) :
    memRead m x = v := by
  cases m with
  | nil => cases hx
  | cons c rest =>
    obtain ⟨k, w⟩ := c
    simp only [Memory.wf, memWfAbove, Bool.and_eq_true] at h
    obtain ⟨-, hrest⟩ := h
    rcases List.mem_cons.1 hx with he | hx
    · cases he; exact memRead_cons_self ..
    · rw [memRead_cons_of_lt _ _ (memWfAbove_some_lt hrest _ hx), memRead_of_mem_above hrest hx]

/-- A read after a range is zeroed: the range reads as unlisted bytes, and every other byte as before. -/
theorem memRead_memZero {m : List Host.Cell} (lo hi x : Nat) (h : Memory.wf m = true) :
    memRead (memZero m lo hi) x = if lo ≤ x ∧ x < hi then unlisted else memRead m x := by
  split
  next hin =>
    refine memRead_of_unlisted fun c hc hx => ?_
    simp only [memZero, List.mem_filter, Bool.or_eq_true, decide_eq_true_eq] at hc
    omega
  next hout =>
    by_cases hx : ∃ v, (x, v) ∈ m
    · obtain ⟨v, hv⟩ := hx
      have hz : (x, v) ∈ memZero m lo hi := by
        simp only [memZero, List.mem_filter, Bool.or_eq_true, decide_eq_true_eq]
        exact ⟨hv, by omega⟩
      rw [memRead_of_mem (memZero_wf lo hi h) hz, memRead_of_mem h hv]
    · have hm : ∀ c ∈ m, c.1 ≠ x := fun c hc he => hx ⟨c.2, by rw [← he]; exact hc⟩
      have hz : ∀ c ∈ memZero m lo hi, c.1 ≠ x := fun c hc => hm c (List.mem_filter.1 hc).1
      rw [memRead_of_unlisted hm, memRead_of_unlisted hz]

/-! ### Bytes written from an address upward -/

theorem memRead_memPut_some {m : List Host.Cell} {bs : List (Option Byte)} {j : Nat} {b : Byte} (a : Nat)
    (h : Memory.wf m = true) (hj : bs[j]? = some (some b)) : memRead (memPut m a bs) (a + j) = b := by
  obtain ⟨hlt, -⟩ := List.getElem?_eq_some_iff.1 hj
  rw [memRead_memPut bs a _ h, if_pos (by omega), Nat.add_sub_cancel_left, hj]
  rfl

/-- A byte outside the range, or one that is absent in the list, keeps its value. -/
theorem memRead_memPut_kept {m : List Host.Cell} {bs : List (Option Byte)} {a x : Nat} (h : Memory.wf m = true)
    (hx : x < a ∨ a + bs.length ≤ x ∨ bs[x - a]? = some none) : memRead (memPut m a bs) x = memRead m x := by
  rw [memRead_memPut bs a x h]
  split
  next hin =>
    rw [hx.resolve_left (by omega) |>.resolve_left (by omega)]
    rfl
  next => rfl

/-! ### The bytes at a home -/

/-- A byte that no pool line holds: zero in a zero-pending sector (R46), else the stored byte. -/
theorem State.homeBytes_one {s : State} {a : Nat} (h : s.poolData a = none) :
    s.homeBytes a 1 = [if (s.sector (a / 128)).zp then 0 else memRead s.mem a] := by
  unfold State.homeBytes
  split
  · rfl
  · rw [h]; rfl

/-- The bytes of one sector are cached together. -/
theorem State.poolData_congr {s : State} {a b : Nat} (h : a / 128 = b / 128) : s.poolData a = s.poolData b := by
  have hp : isPool a = isPool b := decide_eq_decide.2 (by unfold poolBase; omega)
  have hl : poolLineOf a = poolLineOf b := by simp only [poolLineOf, poolBase]; omega
  have hs : secInLine a = secInLine b := by simp only [secInLine, h]
  simp only [State.poolData, hp, hl, hs]

/-- The memory that a store at a home writes over: a zero-pending sector that no pool line holds is first all zeros (R46). -/
def State.memUnder (s : State) (pa : Nat) : List Host.Cell :=
  if (s.sector (pa / 128)).zp then memZero s.mem (pa / 128 * 128) (pa / 128 * 128 + 128) else s.mem

theorem State.memUnder_wf {s : State} (pa : Nat) (h : Memory.wf s.mem = true) : Memory.wf (s.memUnder pa) = true := by
  unfold State.memUnder
  split
  · exact memZero_wf _ _ h
  · exact h

/-- Within the sector it reads as the home does (R46). -/
theorem State.memRead_memUnder_in {s : State} {pa a : Nat} (h : Memory.wf s.mem = true) (ha : a / 128 = pa / 128) :
    memRead (s.memUnder pa) a = if (s.sector (pa / 128)).zp then 0 else memRead s.mem a := by
  unfold State.memUnder
  split
  · rw [memRead_memZero _ _ _ h, if_pos (by omega)]
    rfl
  · rfl

/-- Outside the sector it is the memory before. -/
theorem State.memRead_memUnder_out {s : State} {pa a : Nat} (h : Memory.wf s.mem = true) (ha : a / 128 ≠ pa / 128) :
    memRead (s.memUnder pa) a = memRead s.mem a := by
  unfold State.memUnder
  split
  · rw [memRead_memZero _ _ _ h, if_neg (by omega)]
  · rfl

/-- A store at a home that no pool line holds writes its bytes over that memory; its sector is not zero-pending after it. -/
theorem State.putHome_of_uncached {s : State} {pa : Nat} (bs : List (Option Byte)) (h : s.poolData pa = none) :
    (∃ x : Sector, x.zp = false ∧
      s.putHome pa bs = (({ s with mem := s.memUnder pa } : State).setSector (pa / 128) x).putBytes pa bs) ∨
    ((s.sector (pa / 128)).zp = false ∧ s.putHome pa bs = ({ s with mem := s.memUnder pa } : State).putBytes pa bs) := by
  unfold State.putHome State.memUnder
  cases hz : (s.sector (pa / 128)).zp with
  | true =>
    simp only [h, hz, Bool.true_or, Option.isNone_none, Bool.and_true, if_true]
    exact .inl ⟨_, rfl, rfl⟩
  | false =>
    simp only [h, hz, Bool.false_and, Bool.false_eq_true, if_false]
    split
    · exact .inl ⟨_, rfl, rfl⟩
    · exact .inr ⟨trivial, rfl⟩

/-- What such a store leaves: the memory, the sectors and the pool cache. -/
theorem State.putHome_frame {s : State} {pa : Nat} (bs : List (Option Byte)) (h : s.poolData pa = none) :
    (s.putHome pa bs).mem = memPut (s.memUnder pa) pa bs ∧
      ((s.putHome pa bs).sector (pa / 128)).zp = false ∧
      (∀ i, i ≠ pa / 128 → (s.putHome pa bs).sector i = s.sector i) ∧
      ∀ a, (s.putHome pa bs).poolData a = s.poolData a := by
  obtain ⟨x, hx, he⟩ | ⟨hz, he⟩ := State.putHome_of_uncached bs h
  · refine ⟨by rw [he]; rfl, ?_, fun i hi => ?_, fun a => by rw [he]; rfl⟩
    · rw [he]
      exact (congrArg Sector.zp (State.sector_setSector_self ..)).trans hx
    · rw [he]
      exact State.sector_setSector_ne _ x hi
  · exact ⟨by rw [he]; rfl, by rw [he]; exact hz, fun _ _ => by rw [he]; rfl, fun _ => by rw [he]; rfl⟩

/-- A byte stored at a home that no pool line holds reads back from it. -/
theorem State.putHome_stored {s : State} {pa j : Nat} {bs : List (Option Byte)} {b : Byte} (h : Memory.wf s.mem = true)
    (hc : s.poolData pa = none) (hlen : pa % 128 + bs.length ≤ 128) (hj : bs[j]? = some (some b)) :
    (s.putHome pa bs).homeBytes (pa + j) 1 = [b] := by
  obtain ⟨hlt, -⟩ := List.getElem?_eq_some_iff.1 hj
  obtain ⟨hmem, hzp, -, hpool⟩ := State.putHome_frame bs hc
  have hsec : (pa + j) / 128 = pa / 128 := by omega
  have hp : (s.putHome pa bs).poolData (pa + j) = none := by rw [hpool, State.poolData_congr hsec, hc]
  rw [State.homeBytes_one hp, hsec, hzp, hmem, memRead_memPut_some pa (State.memUnder_wf pa h) hj]
  rfl

/-- Every byte that a store at a home does not write reads from its home as before. -/
theorem State.putHome_kept {s : State} {pa a : Nat} {bs : List (Option Byte)} (h : Memory.wf s.mem = true)
    (hc : s.poolData pa = none)
    (ha : a < pa ∨ pa + bs.length ≤ a ∨ bs[a - pa]? = some none) :
    (s.putHome pa bs).homeBytes a 1 = s.homeBytes a 1 := by
  obtain ⟨hmem, hzp, hsecs, hpool⟩ := State.putHome_frame bs hc
  have hput : memRead (s.putHome pa bs).mem a = memRead (s.memUnder pa) a := by
    rw [hmem, memRead_memPut_kept (State.memUnder_wf pa h) ha]
  by_cases hsec : a / 128 = pa / 128
  · have hp : s.poolData a = none := (State.poolData_congr hsec).trans hc
    rw [State.homeBytes_one (by rw [hpool, hp]), State.homeBytes_one hp, hsec, hzp, hput, s.memRead_memUnder_in h hsec]
    rfl
  · have hm : memRead (s.putHome pa bs).mem a = memRead s.mem a := by rw [hput, s.memRead_memUnder_out h hsec]
    simp only [State.homeBytes, hsecs _ hsec, hpool, State.bytes, memBytes, hm]

/-- Settles O11: bytes stored at an address, and bytes stored at a home, read back, and every other byte stays. -/
theorem storedBytesReadBack : Obligations.StoredBytesReadBack := by
  refine ⟨fun s a bs h => ⟨memPut_wf bs a h, fun j b => memRead_memPut_some a h, fun j hj => ?_, fun x hx => ?_⟩,
    fun s pa bs h hc hlen => ⟨fun j b hj => ?_, fun a ha => ?_⟩⟩
  · exact memRead_memPut_kept h (.inr (.inr (by rwa [Nat.add_sub_cancel_left])))
  · exact memRead_memPut_kept h (hx.imp_right .inl)
  · exact State.putHome_stored h hc hlen hj
  · exact State.putHome_kept h hc ha

end Sys2Proof.Machine
end

section
/-!
Every step of the machine keeps the canonical form of memory (R13): what each row of the dispatch does to memory, and
from it what a step does.
-/

namespace Sys2Proof.Machine
open Sys2Proof

/-! ### Memory kept by a step -/

/-- What leaves memory alone keeps its canonical form. -/
theorem Canon.of_frame {s : State} {o : Out} (h : Canon s) (hm : ∀ t, o = .next t → t.mem = s.mem) :
    ∀ t, o = .next t → Canon t := fun t e => h.of_mem (hm t e)

/-- Every row of the dispatch keeps the canonical form: it leaves memory alone, or it writes through the operations
that keep the form. -/
theorem exec_canon {s : State} (h : Canon s) (i : Instr) : ∀ t, exec i s = .next t → Canon t :=
  match i with
  | .read f => h.of_frame (execRead_mem f s)
  | .write f => execWrite_canon f s h
  | .mov f => h.of_frame (execMov_mem f s)
  | .const f => h.of_frame (execConst_mem f s)
  | .null f => h.of_frame (execNull_mem f s)
  | .add f => h.of_frame (execAdd_mem f s)
  | .sub f => h.of_frame (execSub_mem f s)
  | .mul f => h.of_frame (execMul_mem f s)
  | .and f => h.of_frame (execAnd_mem f s)
  | .or f => h.of_frame (execOr_mem f s)
  | .xor f => h.of_frame (execXor_mem f s)
  | .andn f => h.of_frame (execAndn_mem f s)
  | .not f => h.of_frame (execNot_mem f s)
  | .shl f => h.of_frame (execShl_mem f s)
  | .shr f => h.of_frame (execShr_mem f s)
  | .sar f => h.of_frame (execSar_mem f s)
  | .sel f => h.of_frame (execSel_mem f s)
  | .teq f => h.of_frame (execTeq_mem f s)
  | .tne f => h.of_frame (execTne_mem f s)
  | .tlt f => h.of_frame (execTlt_mem f s)
  | .tle f => h.of_frame (execTle_mem f s)
  | .tltu f => h.of_frame (execTltu_mem f s)
  | .tleu f => h.of_frame (execTleu_mem f s)
  | .pand f => h.of_frame (execPand_mem f s)
  | .por f => h.of_frame (execPor_mem f s)
  | .pnot f => h.of_frame (execPnot_mem f s)
  | .br f => h.of_frame (execBr_mem f s)
  | .bri f => h.of_frame (execBri_mem f s)
  | .call f => h.of_frame (execCall_mem f s)
  | .ret f => h.of_frame (execRet_mem f s)
  | .exit f => h.of_frame (execExit_mem f s)
  | .ldB f => execLdB_canon f s h
  | .ldBu f => execLdBu_canon f s h
  | .ldH f => execLdH_canon f s h
  | .ldHu f => execLdHu_canon f s h
  | .ldW f => execLdW_canon f s h
  | .ldWu f => execLdWu_canon f s h
  | .ldD f => execLdD_canon f s h
  | .ldQ f => execLdQ_canon f s h
  | .ldf k f => execLdf_canon k f s h
  | .stB f => execStB_canon f s h
  | .stH f => execStH_canon f s h
  | .stW f => execStW_canon f s h
  | .stD f => execStD_canon f s h
  | .stQ f => execStQ_canon f s h
  | .ldv f => execLdv_canon f s h
  | .stv f => execStv_canon f s h
  | .qld f => execQld_canon f s h
  | .qst f => execQst_canon f s h
  | .mulh f => h.of_frame (execMulh_mem f s)
  | .mulhu f => h.of_frame (execMulhu_mem f s)
  | .div f => h.of_frame (execDiv_mem f s)
  | .divu f => h.of_frame (execDivu_mem f s)
  | .rem f => h.of_frame (execRem_mem f s)
  | .remu f => h.of_frame (execRemu_mem f s)
  | .rot f => h.of_frame (execRot_mem f s)
  | .min f => h.of_frame (execMin_mem f s)
  | .max f => h.of_frame (execMax_mem f s)
  | .minu f => h.of_frame (execMinu_mem f s)
  | .maxu f => h.of_frame (execMaxu_mem f s)
  | .abs f => h.of_frame (execAbs_mem f s)
  | .neg f => h.of_frame (execNeg_mem f s)
  | .clz f => h.of_frame (execClz_mem f s)
  | .ctz f => h.of_frame (execCtz_mem f s)
  | .popc f => h.of_frame (execPopc_mem f s)
  | .brev f => h.of_frame (execBrev_mem f s)
  | .sext f => h.of_frame (execSext_mem f s)
  | .zext f => h.of_frame (execZext_mem f s)
  | .qdig f => h.of_frame (execQdig_mem f s)
  | .qset f => h.of_frame (execQset_mem f s)
  | .qtrunc f => h.of_frame (execQtrunc_mem f s)
  | .qparent f => h.of_frame (execQparent_mem f s)
  | .qchild f => h.of_frame (execQchild_mem f s)
  | .qinter f => h.of_frame (execQinter_mem f s)
  | .qsplit f => h.of_frame (execQsplit_mem f s)
  | .qdepth f => h.of_frame (execQdepth_mem f s)
  | .qnext f => h.of_frame (execQnext_mem f s)
  | .amadd f => execAmadd_canon f s h
  | .amand f => execAmand_canon f s h
  | .amor f => execAmor_canon f s h
  | .amxor f => execAmxor_canon f s h
  | .ammin f => execAmmin_canon f s h
  | .ammax f => execAmmax_canon f s h
  | .amminu f => execAmminu_canon f s h
  | .ammaxu f => execAmmaxu_canon f s h
  | .amswap f => execAmswap_canon f s h
  | .amcas f => execAmcas_canon f s h
  | .amaddf f => execAmaddf_canon f s h
  | .redadd f => execRedadd_canon f s h
  | .redmin f => execRedmin_canon f s h
  | .redmax f => execRedmax_canon f s h
  | .redand f => execRedand_canon f s h
  | .redor f => execRedor_canon f s h
  | .redxor f => execRedxor_canon f s h
  | .redaddf f => execRedaddf_canon f s h
  | .gath f => execGath_canon f s h
  | .fence f => h.of_frame (execFence_mem f s)
  | .xfence f => h.of_frame (execXfence_mem f s)
  | .watch f => execWatch_canon f s h
  | .unwatch f => execUnwatch_canon f s h
  | .stw f => execStw_canon f s h
  | .protb f => execProtb_canon f s h
  | .vadd f => h.of_frame (execVadd_mem f s)
  | .vsub f => h.of_frame (execVsub_mem f s)
  | .vmul f => h.of_frame (execVmul_mem f s)
  | .vfma f => h.of_frame (execVfma_mem f s)
  | .vfms f => h.of_frame (execVfms_mem f s)
  | .vmin f => h.of_frame (execVmin_mem f s)
  | .vmax f => h.of_frame (execVmax_mem f s)
  | .vabs f => h.of_frame (execVabs_mem f s)
  | .vneg f => h.of_frame (execVneg_mem f s)
  | .vrcp f => h.of_frame (execVrcp_mem f s)
  | .vrsq f => h.of_frame (execVrsq_mem f s)
  | .vexp2 f => h.of_frame (execVexp2_mem f s)
  | .vlog2 f => h.of_frame (execVlog2_mem f s)
  | .vand f => h.of_frame (execVand_mem f s)
  | .vor f => h.of_frame (execVor_mem f s)
  | .vxor f => h.of_frame (execVxor_mem f s)
  | .vshl f => h.of_frame (execVshl_mem f s)
  | .vshr f => h.of_frame (execVshr_mem f s)
  | .vsar f => h.of_frame (execVsar_mem f s)
  | .vcmp f => h.of_frame (execVcmp_mem f s)
  | .vsel f => h.of_frame (execVsel_mem f s)
  | .vredsum f => h.of_frame (execVredsum_mem f s)
  | .vredmax f => h.of_frame (execVredmax_mem f s)
  | .vdot f => h.of_frame (execVdot_mem f s)
  | .vcvt f => h.of_frame (execVcvt_mem f s)
  | .vscale f => h.of_frame (execVscale_mem f s)
  | .vpack f => h.of_frame (execVpack_mem f s)
  | .vunpack f => h.of_frame (execVunpack_mem f s)
  | .vperm f => h.of_frame (execVperm_mem f s)
  | .vbcast f => h.of_frame (execVbcast_mem f s)
  | .vins f => h.of_frame (execVins_mem f s)
  | .vext f => h.of_frame (execVext_mem f s)
  | .vqshuf f => h.of_frame (execVqshuf_mem f s)
  | .vtrn f => h.of_frame (execVtrn_mem f s)
  | .viota f => h.of_frame (execViota_mem f s)
  | .rkalloc f => h.of_frame (execRkalloc_mem f s)
  | .rkfill f => execRkfill_canon f s h
  | .rkpin f => h.of_frame (execRkpin_mem f s)
  | .rkunpin f => h.of_frame (execRkunpin_mem f s)
  | .rkrev f => h.of_frame (execRkrev_mem f s)
  | .rkqry f => h.of_frame (execRkqry_mem f s)
  | .mma f => h.of_frame (execMma_mem f s)
  | .mmaz f => h.of_frame (execMmaz_mem f s)
  | .mdrain f => h.of_frame (execMdrain_mem f s)
  | .mring f => h.of_frame (execMring_mem f s)
  | .mtail f => h.of_frame (execMtail_mem f s)
  | .mcnt f => h.of_frame (execMcnt_mem f s)
  | .mthr f => h.of_frame (execMthr_mem f s)
  | .mwgt f => h.of_frame (execMwgt_mem f s)
  | .mbxw f => h.of_frame (execMbxw_mem f s)
  | .mbxr f => h.of_frame (execMbxr_mem f s)
  | .copy f => execCopy_canon f s h
  | .waitany f => h.of_frame (execWaitany_mem f s)
  | .waitall f => h.of_frame (execWaitall_mem f s)
  | .ffr f => h.of_frame (execFfr_mem f s)
  | .tagclr f => h.of_frame (execTagclr_mem f s)
  | .rnbind f => execRnbind_canon f s h
  | .rnunbind f => h.of_frame (execRnunbind_mem f s)
  | .send f => h.of_frame (execSend_mem f s)
  | .sendOrd f => h.of_frame (execSendOrd_mem f s)
  | .waitmsg f => h.of_frame (execWaitmsg_mem f s)
  | .msgpop f => h.of_frame (execMsgpop_mem f s)
  | .spawn f => h.of_frame (execSpawn_mem f s)
  | .spawnb f => execSpawnb_canon f s h
  | .kset f => h.of_frame (execKset_mem f s)
  | .kget f => h.of_frame (execKget_mem f s)
  | .migrate f => execMigrate_canon f s h
  | .nbr f => h.of_frame (execNbr_mem f s)
  | .nbrn f => h.of_frame (execNbrn_mem f s)
  | .csplit f => execCsplit_canon f s h
  | .cmerge f => execCmerge_canon f s h
  | .chand f => execChand_canon f s h
  | .cmap f => execCmap_canon f s h
  | .hedge f => execHedge_canon f s h
  | .fjoin f => h.of_frame (execFjoin_mem f s)
  | .fleave f => h.of_frame (execFleave_mem f s)
  | .fbar f => h.of_frame (execFbar_mem f s)
  | .tblk f => h.of_frame (execTblk_mem f s)
  | .tubl f => h.of_frame (execTubl_mem f s)
  | .tset f => h.of_frame (execTset_mem f s)
  | .yield f => h.of_frame (execYield_mem f s)
  | .park f => h.of_frame (execPark_mem f s)
  | .done f => h.of_frame (execDone_mem f s)
  | .setrnd f => h.of_frame (execSetrnd_mem f s)
  | .trap f => h.of_frame (execTrap_mem f s)
  | .tret f => h.of_frame (execTret_mem f s)
  | .ctlget f => h.of_frame (execCtlget_mem f s)
  | .ctlset f => h.of_frame (execCtlset_mem f s)
  | .savec f => execSavec_canon f s h
  | .loadc f => execLoadc_canon f s h
  | .halt f => h.of_frame (execHalt_mem f s)
  | .preempt f => h.of_frame (execPreempt_mem f s)
  | .tinvWrite => h.of_frame (execTinvWrite_mem s)
  | .clstartWrite => h.of_frame (execClstartWrite_mem s)
  | .mixdbgWrite => h.of_frame (execMixdbgWrite_mem s)
  | .crootWrite => h.of_frame (execCrootWrite_mem s)
  | .drvcfgWrite => h.of_frame (execDrvcfgWrite_mem s)
  | .cpresResume => h.of_frame (execCpresResume_mem s)
  | .cpresAbort => h.of_frame (execCpresAbort_mem s)
  | .registerWrite => h.of_frame (execRegisterWrite_mem s)
  | .sheafFetch => execSheafFetch_canon s h
  | .sheafCommit => execSheafCommit_canon s h
  | .trapEntry => h.of_frame (execTrapEntry_mem s)
  | .impreciseTrap => h.of_frame (execImpreciseTrap_mem s)
  | .loadReply => h.of_frame (execLoadReply_mem s)
  | .writeAck => h.of_frame (execWriteAck_mem s)
  | .injectionLeave => h.of_frame (execInjectionLeave_mem s)
  | .orderedPacketLeave => h.of_frame (execOrderedPacketLeave_mem s)
  | .packetHop => h.of_frame (execPacketHop_mem s)
  | .flitReceive => h.of_frame (execFlitReceive_mem s)
  | .linkDown => h.of_frame (execLinkDown_mem s)
  | .translationWalk => execTranslationWalk_canon s h
  | .zeroSweep => execZeroSweep_canon s h
  | .sliceAccess => execSliceAccess_canon s h
  | .reserveRequest => execReserveRequest_canon s h
  | .release => execRelease_canon s h
  | .cancel => execCancel_canon s h
  | .reservationRevoke => h.of_frame (execReservationRevoke_mem s)
  | .revokeReceive => h.of_frame (execRevokeReceive_mem s)
  | .reductionApply => execReductionApply_canon s h
  | .gatherHomeRead => execGatherHomeRead_canon s h
  | .scratchpadAccess => execScratchpadAccess_canon s h
  | .stwApply => execStwApply_canon s h
  | .unpark => h.of_frame (execUnpark_mem s)
  | .scrub => h.of_frame (execScrub_mem s)
  | .protbDrain => h.of_frame (execProtbDrain_mem s)
  | .protbInstall => execProtbInstall_canon s h
  | .tinvComplete => h.of_frame (execTinvComplete_mem s)
  | .start => h.of_frame (execStart_mem s)
  | .codeLoadStore => execCodeLoadStore_canon s h
  | .poolAccess => execPoolAccess_canon s h
  | .poolCacheMiss => execPoolCacheMiss_canon s h
  | .backInvalidate => execBackInvalidate_canon s h
  | .gatewayDrain => h.of_frame (execGatewayDrain_mem s)
  | .hostMemAccess => execHostMemAccess_canon s h
  | .arrival => execArrival_canon s h
  | .dispatch => h.of_frame (execDispatch_mem s)
  | .burrMigration => h.of_frame (execBurrMigration_mem s)
  | .threadRetire => h.of_frame (execThreadRetire_mem s)
  | .yieldRetire => execYieldRetire_canon s h
  | .halted => h.of_frame (execHalted_mem s)
  | .eviction => execEviction_canon s h
  | .savecComplete => h.of_frame (execSavecComplete_mem s)
  | .loadcComplete => execLoadcComplete_canon s h
  | .mailboxDeposit => h.of_frame (execMailboxDeposit_mem s)
  | .launchRecord => h.of_frame (execLaunchRecord_mem s)
  | .dieQueueEnter => execDieQueueEnter_canon s h
  | .taskRelease => h.of_frame (execTaskRelease_mem s)
  | .classAging => h.of_frame (execClassAging_mem s)
  | .taskOffer => execTaskOffer_canon s h
  | .taskHintArrival => execTaskHintArrival_canon s h
  | .returnHoldoff => h.of_frame (execReturnHoldoff_mem s)
  | .dieSpillReload => h.of_frame (execDieSpillReload_mem s)
  | .idleSummaryUpdate => h.of_frame (execIdleSummaryUpdate_mem s)
  | .stealRequest => h.of_frame (execStealRequest_mem s)
  | .stealDonation => execStealDonation_canon s h
  | .flockCountChange => h.of_frame (execFlockCountChange_mem s)
  | .flockArrival => h.of_frame (execFlockArrival_mem s)
  | .barrierRelease => h.of_frame (execBarrierRelease_mem s)
  | .ownerLookup => execOwnerLookup_canon s h
  | .kNotice => execKNotice_canon s h
  | .tableRebuild => execTableRebuild_canon s h
  | .mapUpdateComplete => execMapUpdateComplete_canon s h
  | .retireNotice => h.of_frame (execRetireNotice_mem s)
  | .matrixCommandStart => execMatrixCommandStart_canon s h
  | .mmaFinish => h.of_frame (execMmaFinish_mem s)
  | .rkfillFinish => execRkfillFinish_canon s h
  | .rickRefill => execRickRefill_canon s h
  | .mdrainFinish => execMdrainFinish_canon s h
  | .rickStaleMark => h.of_frame (execRickStaleMark_mem s)
  | .bankZeroed => h.of_frame (execBankZeroed_mem s)
  | .copyRun => execCopyRun_canon s h
  | .copyLanded => h.of_frame (execCopyLanded_mem s)
  | .runnelFillFetch => execRunnelFillFetch_canon s h
  | .runnelDrainWrite => execRunnelDrainWrite_canon s h
  | .neighbourWord => h.of_frame (execNeighbourWord_mem s)
  | .neighbourCredit => h.of_frame (execNeighbourCredit_mem s)
  | .fabricChunkResult => execFabricChunkResult_canon s h
  | .fabricAborted => h.of_frame (execFabricAborted_mem s)
  | .collectiveTimeout => h.of_frame (execCollectiveTimeout_mem s)
  | .precopyPage => execPrecopyPage_canon s h
  | .pageRecordReceive => execPageRecordReceive_canon s h
  | .streamSend => h.of_frame (execStreamSend_mem s)
  | .streamReceive => h.of_frame (execStreamReceive_mem s)
  | .oldKeyTimeout => h.of_frame (execOldKeyTimeout_mem s)
  | .keyLoad => h.of_frame (execKeyLoad_mem s)
  | .create => h.of_frame (execCreate_mem s)
  | .addcore => execAddcore_canon s h
  | .remcore => h.of_frame (execRemcore_mem s)
  | .setquota => h.of_frame (execSetquota_mem s)
  | .grant => h.of_frame (execGrant_mem s)
  | .install => execInstall_canon s h
  | .revoke => h.of_frame (execRevoke_mem s)
  | .sharekey => h.of_frame (execSharekey_mem s)
  | .stop => h.of_frame (execStop_mem s)
  | .destroy => execDestroy_canon s h
  | .exportKeys => execExportKeys_canon s h
  | .importKeys => h.of_frame (execImportKeys_mem s)
  | .attest => execAttest_canon s h
  | .streamkey => h.of_frame (execStreamkey_mem s)
  | .hostmap => h.of_frame (execHostmap_mem s)
  | .gwstartWrite => h.of_frame (execGwstartWrite_mem s)
  | .healthClear => h.of_frame (execHealthClear_mem s)
  | .moncfgWrite => h.of_frame (execMoncfgWrite_mem s)
  | .thermalAlarm => h.of_frame (execThermalAlarm_mem s)
  | .thermalTrip => h.of_frame (execThermalTrip_mem s)
  | .throttleEnd => h.of_frame (execThrottleEnd_mem s)
  | .droop => h.of_frame (execDroop_mem s)
  | .bringUp => execBringUp_canon s h
  | .firmwareReload => execFirmwareReload_canon s h
  | .completionTimeout => h.of_frame (execCompletionTimeout_mem s)
  | .powerCut => execPowerCut_canon s h
  | .remoteChannelChange => h.of_frame (execRemoteChannelChange_mem s)
  | .wakeAcknowledgement => h.of_frame (execWakeAcknowledgement_mem s)
  | .atomicGrant => h.of_frame (execAtomicGrant_mem s)
  | .tileReadOut => h.of_frame (execTileReadOut_mem s)
  | .forcedEviction => h.of_frame (execForcedEviction_mem s)

/-- Choosing a step may raise the counter of free choices, and changes nothing in memory. -/
theorem State.pick_mem (s : State) : s.pick.2.mem = s.mem := by
  unfold State.pick
  split <;> rfl

/-- Taking a step in hand changes nothing in memory. -/
theorem State.prepare_mem (s : State) (c : Cand) : (s.prepare c).1.mem = s.mem := by
  cases c <;> rfl

/-- What a step can do: the clock passes, or the row of a candidate runs on the state that has it in hand. -/
theorem step_next {s t : State} (h : step s = .next t) :
    t = s.pick.2.nextClock.tick ∨
      ∃ c u, exec (s.pick.2.prepare c).2 (s.pick.2.prepare c).1 = .next u ∧ t = u.tick := by
  unfold step at h
  split at h
  next u hp => cases h; exact .inl (by rw [hp])
  next u hp => cases h; exact .inl (by rw [hp])
  next c u _ hp =>
    split at h
    next v i hv =>
      split at h
      next w hw => cases h; exact .inr ⟨c, w, by rw [hp, hv, hw], rfl⟩
      next => cases h
      next => cases h

/-- A step keeps the canonical form of memory. -/
theorem step_canon {s t : State} (hs : Canon s) (h : step s = .next t) : Canon t := by
  have hp : Canon s.pick.2 := hs.of_mem s.pick_mem
  obtain rfl | ⟨c, u, hu, rfl⟩ := step_next h
  · exact hp.of_mem rfl
  · have hc : Canon (s.pick.2.prepare c).1 := hp.of_mem (State.prepare_mem ..)
    exact (exec_canon hc _ u hu).of_mem rfl

/-- Settles O9: memory at reset lists no byte. -/
theorem resetMemoryIsCanonical : Obligations.ResetMemoryIsCanonical :=
  ⟨reset_mem_wf, fun _ => rfl⟩

/-- Settles O10: every row of the dispatch keeps the canonical form, and choosing the step leaves memory alone. -/
theorem stepKeepsMemoryCanonical : Obligations.StepKeepsMemoryCanonical :=
  fun _ _ hs h => step_canon hs h

end Sys2Proof.Machine
end

section
/-!
QLD and QST move one block of their depth (R10, R25, R269).
-/

namespace Sys2Proof.Machine
open Sys2Proof Sys2Proof.Claims

/-! ### A load and a store whose checks pass -/

/-- A load whose checks pass awaits its bytes. -/
theorem State.loadFire_of_ready {s t : State} {is : Iss} {va : Nat} {init got : List (Option Byte)} (sh : Shape)
    {elem wide : Bool} {blk : Word} {fl : Flight} (h : LoadReady s is va init elem wide blk fl t got) :
    s.loadFire is va init sh elem wide blk = loadHeld is va sh fl t got := by
  obtain ⟨u, ps, hc, ht, hf⟩ := h
  exact State.loadFire_ok hc ht hf

/-- A store whose checks pass buffers its bytes until commit. -/
theorem State.storeFire_of_ready {s t : State} {is : Iss} {va : Nat} {want : List Bool} {bytes : List (Option Byte)}
    {elem : Bool} (wide : Bool) (blk : Word) {ps : List Part} {fl : Flight}
    (h : StoreReady s is va want bytes elem fl t ps) :
    s.storeFire is va want bytes elem wide blk = storeHeld is va bytes wide blk fl t ps := by
  obtain ⟨hc, ht⟩ := h
  exact State.storeFire_ok hc ht

/-! ### QLD and QST -/

section
variable {f : Form} {s : State} {is : Iss}

/-- The wait of a QLD or QST: in element form, for its descriptor (R25). -/
def descriptorWaits (f : Form) (is : Iss) (s : State) : Bool := elemModeOf f && tensorWaits is s

theorem descriptorWaits_eq_false : descriptorWaits f is s = false ↔ (elemModeOf f = true → tensorWaits is s = false) := by
  rw [descriptorWaits, Bool.and_eq_false_imp]

/-- A QLD or QST whose descriptor read must wait changes nothing (R25, log 122). -/
theorem exec_quadrant_of_waits {i : Instr} (hi : i = .qld f ∨ i = .qst f) (h : Fires i s is)
    (he : elemModeOf f = true) (hw : tensorWaits is s = true) : exec i s = .next s := by
  obtain ⟨his, hb, hn, hr⟩ := h
  have hwait : descriptorWaits f is s = true := by rw [descriptorWaits, he, hw]; rfl
  rcases hi with rfl | rfl
  · show execQld f s = _
    exact issueWhen_of_waits (w := descriptorWaits f) his hb hn hr hwait
  · show execQst f s = _
    exact issueWhen_of_waits (w := descriptorWaits f) his hb hn hr hwait

/-- A QLD that does not wait fires on its block, or traps with the record of the block's fault. -/
theorem exec_qld (h : Fires (.qld f) s is) (hw : elemModeOf f = true → tensorWaits is s = false)
    (hp : polOk is.policy true false false = true) :
    exec (.qld f) s = match s.qblock is (depthOf f) (elemModeOf f) with
      | (u, .error r) => .next (u.recTrap is r)
      | (u, .ok q) => .next (u.qldFire is q (depthOf f) (elemModeOf f)) := by
  obtain ⟨his, hb, hn, hr⟩ := h
  show execQld f s = _
  refine (issueWhen_of_fires (w := descriptorWaits f) his hb hn hr (descriptorWaits_eq_false.2 hw)).trans ?_
  rw [hp]
  rfl

/-- A QST that does not wait fires on its block, or traps with the record of the block's fault. -/
theorem exec_qst (h : Fires (.qst f) s is) (hw : elemModeOf f = true → tensorWaits is s = false)
    (hp : polOk is.policy false true false = true) :
    exec (.qst f) s = match s.qblock is (depthOf f) (elemModeOf f) with
      | (u, .error r) => .next (u.recTrap is r)
      | (u, .ok q) => .next (u.qstFire is q (depthOf f) (elemModeOf f)) := by
  obtain ⟨his, hb, hn, hr⟩ := h
  show execQst f s = _
  refine (issueWhen_of_fires (w := descriptorWaits f) his hb hn hr (descriptorWaits_eq_false.2 hw)).trans ?_
  rw [hp]
  rfl

end

/-! ### The block of the byte form (R10) -/

theorem byteBlock_of_unaligned {b : Word} (p : Word) {d : Nat} (h : b.toNat % blockSize d ≠ 0) :
    byteBlock b p d = .error .blockAlignment :=
  if_pos (bne_iff_ne.2 h)

theorem byteBlock_of_aligned {b : Word} (p : Word) {d : Nat} (h : b.toNat % blockSize d = 0) :
    byteBlock b p d = if b.toNat + p.toNat * blockSize d + blockSize d ≤ 2 ^ 56
      then .ok (b.toNat + p.toNat * blockSize d) else .error .nonCanonicalAddress :=
  if_neg (by rw [h]; decide)

/-- Settles O24: a QLD or QST that fires runs on its operand block, and the checks of R10 give the block of the byte
form. -/
theorem quadrantAccesses : Obligations.QuadrantAccesses := by
  refine ⟨fun f s is => ⟨fun h hw hp => ⟨fun u q fl t got hq hl => ?_, fun u r hq => ?_⟩,
    fun i hi h he hw => exec_quadrant_of_waits hi h he hw,
    fun h hw hp => ⟨fun u q fl t ps bytes hq hby hs => ?_, fun u r hq => ?_⟩⟩,
    fun b p d _ => ⟨fun ha => byteBlock_of_unaligned p ha, fun ha hb => ?_, fun ha hb => ?_⟩⟩
  · rw [exec_qld h hw hp, hq]
    exact congrArg _ (State.loadFire_of_ready _ hl)
  · rw [exec_qld h hw hp, hq]
  · rw [exec_qst h hw hp, hq]
    subst hby
    exact congrArg _ (State.storeFire_of_ready true _ hs)
  · rw [exec_qst h hw hp, hq]
  · rw [byteBlock_of_aligned p ha]
    exact if_neg (Nat.not_le.2 hb)
  · rw [byteBlock_of_aligned p ha]
    exact if_pos hb

end Sys2Proof.Machine
end

section
/-!
WATCH, UNWATCH, STW and PROTB (R43, R276, R278, R279).
-/

namespace Sys2Proof.Machine
open Sys2Proof Sys2Proof.Claims

section
variable {i : Instr} {f : Form} {s t : State} {is : Iss} {act : Nat → Act} {o n pa kid : Nat}

/-! ### WATCH and UNWATCH -/

theorem watchAt_of_misaligned (h : Fires i s is) (ha : is.lw.toNat % 8 ≠ 0) :
    watchAt i s act = .next (s.blockFault is .watchTarget (coverWord is.lw.toNat 8)) := by
  obtain ⟨his, hb, hn, hr⟩ := h
  exact (issue_of_fires his hb hn hr).trans (if_pos (bne_iff_ne.2 ha))

/-- An 8-byte word whose checks pass is watched when its home is the own scratchpad, and refused elsewhere (R276). -/
theorem watchAt_of_checked (h : Fires i s is) (ha : is.lw.toNat % 8 = 0)
    (hc : s.checkBytes is.xer is.ctx is.priv is.lw.toNat 8 true false = (t, .ok [⟨o, n, .mem pa kid⟩])) :
    watchAt i s act =
      if t.homeOf pa = .scratch is.c then .next (t.fireDue is (act ((pa - scratchBase is.c) / 8)))
      else .next (t.blockFault is .watchTarget (coverWord is.lw.toNat 8)) := by
  obtain ⟨his, hb, hn, hr⟩ := h
  rw [watchAt, issue_of_fires his hb hn hr]
  simp [ha, hc]

/-- WATCH and UNWATCH are the same instruction but for the action they leave. -/
theorem exec_watch_or_unwatch (hi : (i = .watch f ∧ act = Act.watch) ∨ (i = .unwatch f ∧ act = Act.unwatch)) :
    exec i s = watchAt i s act := by
  obtain ⟨rfl, rfl⟩ | ⟨rfl, rfl⟩ := hi
  · rfl
  · rfl

/-! ### STW -/

theorem exec_stw_of_misaligned (h : Fires (.stw f) s is) (hp : polOk is.policy false true false = true)
    (ha : is.lw.toNat % 8 ≠ 0) :
    exec (.stw f) s = .next (s.blockFault is .stwTarget (coverWord is.lw.toNat 8)) := by
  obtain ⟨his, hb, hn, hr⟩ := h
  show execStw f s = _
  rw [execStw, issue_of_fires his hb hn hr]
  simp [hp, ha]

/-- The home of the word decides: a scratchpad takes the wake write at commit (R278), any other home is refused. -/
theorem exec_stw_of_checked (h : Fires (.stw f) s is) (hp : polOk is.policy false true false = true)
    (ha : is.lw.toNat % 8 = 0)
    (hc : s.checkBytes is.xer is.ctx is.priv is.lw.toNat 8 false true = (t, .ok [⟨o, n, .mem pa kid⟩])) :
    (∀ c fl, t.homeOf pa = .scratch c →
      is.fl.touchAll [{ lsn := is.lsnN, kind := .store, va := is.lw.toNat, bytes := scalarBytes 8 is.rw_, wr := true }] = some fl →
      exec (.stw f) s = .next (t.settle is.c is.k (some { fl.fired is.pos with
        due := fl.due ++ [⟨is.lsn, is.pos, .stw ⟨is.lw.toNat, pa, kid, scalarBytes 8 is.rw_⟩ is.pol (coverWord is.lw.toNat 8)⟩] }))) ∧
    ((∀ c, t.homeOf pa ≠ .scratch c) →
      exec (.stw f) s = .next (t.blockFault is .stwTarget (coverWord is.lw.toNat 8))) := by
  obtain ⟨his, hb, hn, hr⟩ := h
  show (∀ c fl, _ → _ → execStw f s = _) ∧ (_ → execStw f s = _)
  rw [execStw, issue_of_fires his hb hn hr]
  refine ⟨fun c fl hs ht => ?_, fun hs => ?_⟩
  · simp [hp, ha, hc, hs, ht]
  · cases hh : t.homeOf pa with
    | scratch c => exact absurd hh (hs c)
    | _ => simp [hp, ha, hc, hh]

/-! ### PROTB -/

/-- PROTB's bad control words (R43): a reserved bit, or right 3. -/
abbrev protbCtlBad (ctl : Word) : Prop := ctl.extractLsb' 3 61 ≠ 0 ∨ ctl.extractLsb' 0 2 = 3

theorem protbCtlBad_iff (ctl : Word) : (field ctl 3 61 != 0 || field ctl 0 2 == 3) = true ↔ protbCtlBad ctl := by
  have h : ∀ lo len, field ctl lo len = (ctl.extractLsb' lo len).toNat := fun lo len => by
    simp [field, nbits, BitVec.extractLsb'_toNat, Nat.shiftRight_eq_div_pow]
  rw [protbCtlBad, Bool.or_eq_true, bne_iff_ne, beq_iff_eq, h, h]
  refine or_congr (not_congr ?_) ?_
  · exact (BitVec.toNat_inj (y := 0#61))
  · exact (BitVec.toNat_inj (y := 3#2))

theorem exec_protb_of_shallow (h : Fires (.protb f) s is) (hd : depthOf f < 4) :
    exec (.protb f) s = .next (s.recTrap is (blockTrap .nonCanonicalAddress is.lw is.xw (depthOf f))) := by
  obtain ⟨his, hb, hn, hr⟩ := h
  show execProtb f s = _
  rw [execProtb, issue_of_fires his hb hn hr]
  exact if_pos hd

theorem exec_protb_of_deep (h : Fires (.protb f) s is) (hd : 30 < depthOf f) :
    exec (.protb f) s = .next (s.recTrap is (blockTrap .badDepth is.lw is.xw (depthOf f))) := by
  obtain ⟨his, hb, hn, hr⟩ := h
  have hd4 : ¬ depthOf f < 4 := by omega
  show execProtb f s = _
  rw [execProtb, issue_of_fires his hb hn hr]
  exact (if_neg hd4).trans (if_pos hd)

section
variable (h : Fires (.protb f) s is) (hlo : 4 ≤ depthOf f) (hhi : depthOf f ≤ 30)
include h hlo hhi

theorem exec_protb_of_badBlock {c : Cause} (hblk : byteBlock is.lw is.xw (depthOf f) = .error c) :
    exec (.protb f) s = .next (s.recTrap is (blockTrap c is.lw is.xw (depthOf f))) := by
  obtain ⟨his, hb, hn, hr⟩ := h
  show execProtb f s = _
  rw [execProtb, issue_of_fires his hb hn hr]
  simp [Nat.not_lt.2 hlo, show ¬ 31 ≤ depthOf f by omega, hblk]

/-- With a block, the control word is looked at before the pages (R43): its shape, then the supervisor layer's privilege. -/
theorem exec_protb_of_block {a : Nat} (hblk : byteBlock is.lw is.xw (depthOf f) = .ok a) :
    (protbCtlBad is.rw_ →
      exec (.protb f) s = .next (s.recTrap is (blockTrap .badControlValue is.lw is.xw (depthOf f)))) ∧
    (¬ protbCtlBad is.rw_ → is.rw_.getLsbD 2 = true → is.priv = false →
      exec (.protb f) s = .next (s.recTrap is (blockTrap .privilege is.lw is.xw (depthOf f)))) ∧
    (¬ protbCtlBad is.rw_ → is.rw_.getLsbD 2 = false ∨ is.priv = true → ∀ t grans,
      s.protbPages is a (a + blockSize (depthOf f)) (blockSize (depthOf f) / 16) = (t, .ok grans) →
      exec (.protb f) s = .next (t.fireDue is (.protb grans (is.rw_.getLsbD 2) (is.rw_.extractLsb' 0 2)))) := by
  obtain ⟨his, hb, hn, hr⟩ := h
  have hd4 : ¬ depthOf f < 4 := Nat.not_lt.2 hlo
  have hd31 : ¬ 31 ≤ depthOf f := by omega
  show (_ → execProtb f s = _) ∧ (_ → _ → _ → execProtb f s = _) ∧ (_ → _ → ∀ t grans, _ → execProtb f s = _)
  rw [execProtb, issue_of_fires his hb hn hr]
  refine ⟨fun hbad => ?_, fun hok hsys hpriv => ?_, fun hok hlayer t grans hg => ?_⟩
  · simp only [hd4, hd31, hblk, protbCtlBad_iff, hbad, if_true, if_false]
  · simp only [hd4, hd31, hblk, protbCtlBad_iff, hok, hsys, hpriv, Bool.not_false, Bool.and_true, if_true, if_false]
  · have hfree : (is.rw_.getLsbD 2 && !is.priv) = false := by
      obtain hl | hl := hlayer
      · rw [hl, Bool.false_and]
      · rw [hl, Bool.not_true, Bool.and_false]
    simp only [hd4, hd31, hblk, protbCtlBad_iff, hok, hfree, hg, Bool.false_eq_true, if_false]

end

end

/-- Settles O28: WATCH, UNWATCH and STW by the home of the word they name, PROTB by its chain of checks. -/
theorem watchesWakesAndGuards : Obligations.WatchesWakesAndGuards := by
  refine ⟨fun f s is => ⟨fun i act hi h => ⟨fun ha => ?_, fun ha t o n pa kid hc => ⟨fun hh => ?_, fun hh => ?_⟩⟩,
    fun h hp => ⟨fun ha => exec_stw_of_misaligned h hp ha, fun ha t o n pa kid hc => exec_stw_of_checked h hp ha hc⟩⟩,
    fun f s is h => ⟨fun hd => exec_protb_of_shallow h hd, fun hd => exec_protb_of_deep h hd,
      fun hlo hhi c hblk => exec_protb_of_badBlock h hlo hhi hblk, fun hlo hhi a hblk => exec_protb_of_block h hlo hhi hblk⟩⟩
  · rw [exec_watch_or_unwatch hi, watchAt_of_misaligned h ha]
  · rw [exec_watch_or_unwatch hi, watchAt_of_checked h ha hc, if_pos hh]
  · rw [exec_watch_or_unwatch hi, watchAt_of_checked h ha hc, if_neg hh]

end Sys2Proof.Machine
end

section
/-!
Replies and acknowledgements at a core, and the steps that homes make by themselves (R34, R46, R57, R58, R64, R75, R90,
R262, R303).
-/

namespace Sys2Proof.Machine
open Sys2Proof Sys2Proof.Claims

/-! ### What an update of a core or a slot keeps -/

/-- A change of a core that keeps its slots. -/
theorem State.slot_modCore (s : State) {c : Nat} {g : Core → Core} (h : (g (s.core c)).slots = (s.core c).slots)
    (d k : Nat) : (s.modCore c g).slot d k = s.slot d k := by
  by_cases hd : d = c
  · subst hd
    rw [State.slot, State.slot, State.core_modCore_self, Core.slot, Core.slot, h]
  · rw [State.slot, State.slot, State.core_modCore_ne s g hd]

/-- A core has eight slots: a change of another one changes nothing that is read. -/
theorem State.slot_modSlot_of_le (s : State) (c : Nat) {k : Nat} (g : Slot → Slot) (h : 8 ≤ k) :
    (s.modSlot c k g).slot c k = s.slot c k := by
  simp [State.modSlot, State.setSlot, State.slot, Core.slot, Core.setSlot, Nat.not_lt.2 h]

theorem State.modSlot_congr {s : State} {c k : Nat} {g g' : Slot → Slot} (h : g (s.slot c k) = g' (s.slot c k)) :
    s.modSlot c k g = s.modSlot c k g' := congrArg (s.setSlot c k) h

/-! ### Replies (R57, R58, R262) -/

section
variable {s : State} {r : Reply} {fl : Flight} {h : Held}

/-- An invalidation on acquiring leaves the flights. -/
theorem State.acquired_flight (s : State) (t : Tag) (c k : Nat) : (s.acquired t).flight c k = s.flight c k := by
  unfold State.acquired
  split
  · split
    · exact congrArg Slot.fl (s.slot_modCore (g := fun y => y.l1Invalidate _) rfl c k)
    · rfl
  · rfl

/-- So does a fill of the L1. -/
theorem State.fillL1_flight (s : State) (r : Reply) (x : Option (Nat × List Byte × BitVec 32)) (c k : Nat) :
    (s.fillL1 r x).flight c k = s.flight c k := by
  match x with
  | none => rfl
  | some (sec, bytes, guard) => exact congrArg Slot.fl (s.slot_modCore (g := fun y => y.l1Fill _ _ _) rfl c k)

/-- A reply without an error fills the bytes of its access that it answers. -/
theorem exec_loadReply_of_data (he : s.event = some (.loadReply r))
    (hf : s.taken.flight r.tag.core r.tag.slot = some fl) (hr : fl.run = r.tag.run)
    (hh : fl.heldAt r.tag.lsn = some h) (hd : r.err = none) :
    exec .loadReply s = .next (((s.taken.acquired r.tag).fillL1 r (s.taken.fillBytes r)).settle r.tag.core r.tag.slot
      (some (fl.setHeld { h with
        got := h.got.take r.tag.off ++ r.data.map some ++ h.got.drop (r.tag.off + r.data.length) }))) := by
  show execLoadReply s = _
  simp [execLoadReply, he, State.fillL1_flight, State.acquired_flight, hf, hr, hh, hd]

/-- A reply with an error traps with the LSN of its access. -/
theorem exec_loadReply_of_err {e : TrapRec} (he : s.event = some (.loadReply r))
    (hf : s.taken.flight r.tag.core r.tag.slot = some fl) (hr : fl.run = r.tag.run)
    (hh : fl.heldAt r.tag.lsn = some h) (hd : r.err = some e) :
    exec .loadReply s = .next (((s.taken.acquired r.tag).fillL1 r (s.taken.fillBytes r)).takeTrap r.tag.core r.tag.slot
      { e with lsn := some r.tag.lsn }) := by
  show execLoadReply s = _
  simp [execLoadReply, he, State.fillL1_flight, State.acquired_flight, hf, hr, hh, hd]

end

/-! ### What a reply installs (R57, R113) -/

theorem Core.ownBytes_of_unwritten {k : Core} {sec : Nat} (since : Nat) (bs : List Byte) (h : k.stored.get sec [] = []) :
    k.ownBytes sec since bs = some bs := by
  rw [Core.ownBytes, h]
  rfl

/-- One write of the core in the sector, made since the request left, is laid over the bytes; a reduction leaves none. -/
theorem Core.ownBytes_of_later {k : Core} {sec since : Nat} {w : OwnWrite} (bs : List Byte) (h : k.stored.get sec [] = [w])
    (hw : since ≤ w.step) : k.ownBytes sec since bs = w.bytes.map (overlay bs w.off) := by
  rw [Core.ownBytes, h]
  cases hb : w.bytes <;> simp [hw, hb]

/-- One made before is in the bytes already. -/
theorem Core.ownBytes_of_earlier {k : Core} {sec since : Nat} {w : OwnWrite} (bs : List Byte)
    (h : k.stored.get sec [] = [w]) (hw : w.step < since) : k.ownBytes sec since bs = some bs := by
  rw [Core.ownBytes, h]
  simp [Nat.not_le.2 hw]

section
variable {s : State} {r : Reply} {sec : Nat} {bytes : List Byte} {guard : BitVec 32}

theorem State.fillBytes_of_invalidated (hf : r.fill = some (sec, bytes, guard))
    (he : (s.core r.tag.core).epoch r.ctx ≠ r.epoch) : s.fillBytes r = none := by
  simp [State.fillBytes, hf, he]

theorem State.fillBytes_of_epoch (hf : r.fill = some (sec, bytes, guard))
    (he : (s.core r.tag.core).epoch r.ctx = r.epoch) :
    s.fillBytes r = ((s.core r.tag.core).ownBytes sec r.sent bytes).map fun bs => (sec, bs, guard) := by
  simp [State.fillBytes, hf, he]

end

/-! ### Acknowledgements (R90, R303) -/

/-- What an acknowledgement takes from its slot's counters (R90, R141, log 116). -/
def Slot.acked (kind : AckKind) (x : Slot) : Slot :=
  match kind with
  | .write => { x with ucnt := x.ucnt - 1 }
  | .cancel => { x with cancels := x.cancels - 1 }
  | .notice => { x with ucnt := x.ucnt - 1 }
  | .own => { x with ocnt := x.ocnt - 1 }

theorem State.tails_acked (s : State) (c k : Nat) (kind : AckKind) :
    ((s.modSlot c k (Slot.acked kind)).slot c k).tails = (s.slot c k).tails := by
  by_cases hk : k < 8
  · rw [State.slot_modSlot_self s c _ hk]
    cases kind <;> rfl
  · rw [s.slot_modSlot_of_le c _ (Nat.not_lt.1 hk)]

section
variable {s : State} {c k : Nat} {kind : AckKind}

/-- An acknowledgement counts, and moves the tails once no store of the slot to its own scratchpad is left; a refusal
leaves an imprecise trap. -/
theorem exec_writeAck (refused : Option TrapRec) (he : s.event = some (.writeAck c k kind refused)) :
    exec .writeAck s =
      let u := s.taken.modSlot c k (Slot.acked kind)
      let v := if (u.slot c k).ocnt == 0 && !(u.slot c k).tails.isEmpty then u.moveTails c k else u
      .next (refused.elim v fun r => v.impTrap (.slot c k) r) := by
  show execWriteAck s = _
  simp only [execWriteAck, he]
  cases refused <;> rfl

theorem exec_writeAck_of_no_tails (refused : Option TrapRec) (he : s.event = some (.writeAck c k kind refused))
    (ht : (s.taken.slot c k).tails = []) :
    exec .writeAck s =
      let u := s.taken.modSlot c k (Slot.acked kind)
      .next (refused.elim u fun r => u.impTrap (.slot c k) r) := by
  have hu : ((s.taken.modSlot c k (Slot.acked kind)).slot c k).tails = [] := (State.tails_acked ..).trans ht
  rw [exec_writeAck refused he]
  simp [hu]

/-- The last store to the own scratchpad moves the tail that waits for it (R303). -/
theorem exec_writeAck_of_last_own {ring n : Nat} (hk : k < 8) (he : s.event = some (.writeAck c k .own none))
    (ht : (s.taken.slot c k).tails = [(ring, n)]) (ho : (s.taken.slot c k).ocnt = 1) :
    exec .writeAck s = .next (((s.taken.modSlot c k fun x => { x with ocnt := 0 }).modCore c
      (·.moveTail ring n)).modSlot c k fun x => { x with tails := [] }) := by
  have hu : s.taken.modSlot c k (Slot.acked .own) = s.taken.modSlot c k fun x => { x with ocnt := 0 } :=
    State.modSlot_congr (by simp [Slot.acked, ho])
  rw [exec_writeAck none he, hu]
  simp [State.moveTails, State.slot_modSlot_self _ c _ hk, ht]

end

/-! ### The homes' own steps (R34, R46, R64, R74) -/

section
variable {s : State}

theorem exec_zeroSweep_of_pending {n : Nat} (he : s.event = some (.zeroSweep n)) (hz : (s.taken.sector n).zp = true) :
    exec .zeroSweep s =
      let v := (s.taken.unhold n).poolEnsure (n * 128) 0 true
      .next ((v.putHome (n * 128) (List.replicate 128 (some 0))).dueMarks (v.rickHits n) none) := by
  show execZeroSweep s = _
  simp [execZeroSweep, he, hz]

/-- The line is reported, written back and dropped before the other agent writes the pool (R64, R104). -/
theorem exec_backInvalidate_of_cached {line : Nat} {after : List (Option Byte)} {l : PoolLine}
    (he : s.event = some (.backInvalidate line after)) (hl : s.taken.poolLine? line = some l) :
    exec .backInvalidate s =
      let v := (s.taken.reportLine l).writeBack l
      .next ((v.dropLine ((v.poolLine? line).getD l)).putBytes (poolBase + 1024 * line) (after.take 1024)) := by
  show execBackInvalidate s = _
  simp [execBackInvalidate, he, hl]

theorem exec_backInvalidate_of_uncached {line : Nat} {after : List (Option Byte)}
    (he : s.event = some (.backInvalidate line after)) (hl : s.taken.poolLine? line = none) :
    exec .backInvalidate s = .next (s.taken.putBytes (poolBase + 1024 * line) (after.take 1024)) := by
  show execBackInvalidate s = _
  simp [execBackInvalidate, he, hl]

theorem State.dropLine_of_filled {l : PoolLine} (hm : s.stuckMask l = 0) (hl : l.st ≠ 3) :
    let key := s.poolKey l.line
    s.dropLine l =
      { s with pcache := s.pcache.put key ((s.pcache.get key []).filter fun x => x.line != l.line) } := by
  simp [State.dropLine, hm, hl]

/-- A line whose fill is pending keeps its entry without its sectors (R64, log 117). -/
theorem State.dropLine_of_filling {l : PoolLine} (hm : s.stuckMask l = 0) (hl : l.st = 3) :
    s.dropLine l = s.setPoolLine { l with sv := 0, sd := 0, data := [] } := by
  have hkept : ¬ (s.stuckMask l == 0 && l.st != 3) = true := by
    rw [hl, bne_self_eq_false, Bool.and_false]
    exact Bool.false_ne_true
  have hst : (if l.st == 3 then 3 else 2) = l.st := by rw [if_pos (beq_iff_eq.2 hl), hl]
  have hdata : (l.data.filter fun p => (0 : BitVec 8).getLsbD p.1) = [] :=
    List.filter_eq_nil_iff.2 fun _ _ => Bool.eq_false_iff.1 BitVec.getLsbD_zero
  rw [State.dropLine]
  refine (if_neg hkept).trans ?_
  rw [hm, hdata, hst]

end

/-! ### The scrubber (R75) -/

/-- Counting corrected words changes no sector. -/
theorem State.countAt_secs (s : State) (pa n : Nat) : (s.countAt pa n).secs = s.secs := by
  unfold State.countAt
  split <;> rfl

/-- Reading words corrects their single-bit errors; the uncorrectable ones stay (R73). -/
theorem State.fixWords_bad (s : State) (pa : Nat) (ws : List Nat) (n : Nat) :
    ((s.fixWords pa ws).sector n).bad = (s.sector n).bad := by
  unfold State.fixWords
  dsimp only
  split
  · rfl
  · rw [State.sector, State.countAt_secs, ← State.sector]
    by_cases hn : n = pa / 128
    · rw [hn, State.sector_setSector_self]
    · rw [State.sector_setSector_ne s _ hn]

/-- Reporting a line changes the pool cache and the trust core's log alone. -/
theorem State.reportAt_errlogs (s : State) (pa : Nat) : (s.reportAt pa).errlogs = s.errlogs := by
  unfold State.reportAt
  split
  · split
    · unfold State.reportLine
      dsimp only
      split <;> rfl
    · rfl
  · rfl

section
variable {s : State} {n i : Nat}

/-- The scrubber reads a sector and moves its pointer on. -/
def State.scrubRead (s : State) (n : Nat) : State :=
  ({ s with scrubs := s.scrubs.put (s.structOf n) (n + 1) } : State).fixIn (128 * n) 128

theorem State.scrubRead_bad (s : State) (n m : Nat) : ((s.scrubRead n).sector m).bad = (s.sector m).bad :=
  State.fixWords_bad ..

theorem exec_scrub_of_sound (he : s.event = some (.scrub n)) (hc : s.taken.sectorCopse n = some i)
    (hb : (s.taken.sector n).bad = 0) : exec .scrub s = .next (s.taken.scrubRead n) := by
  have hr : ((s.taken.scrubRead n).sector n).bad = 0 := (State.scrubRead_bad ..).trans hb
  show execScrub s = _
  simp only [execScrub, he, hc]
  exact if_pos (beq_iff_eq.2 hr)

/-- An uncorrectable word is reported, logged at its structure and raises UEA (R75). -/
theorem exec_scrub_of_bad (he : s.event = some (.scrub n)) (hc : s.taken.sectorCopse n = some i)
    (hb : (s.taken.sector n).bad ≠ 0) :
    exec .scrub s =
      let v := (s.taken.scrubRead n).reportAt (128 * n)
      let x := v.errlogs.put (s.taken.structOf n) (v.errlogs.get (s.taken.structOf n) [] ++ [128 * n])
      .next ((({ v with errlogs := x } : State).pageAdd (dieOf i) 4 1).alarm 6) := by
  have hr : ((s.taken.scrubRead n).sector n).bad ≠ 0 := by rwa [State.scrubRead_bad]
  show execScrub s = _
  simp only [execScrub, he, hc, State.reportAt_errlogs]
  exact if_neg (mt beq_iff_eq.1 hr)

end

/-- Settles O49, clause by clause: the reply, what it installs, the acknowledgements, and the homes' own steps. -/
theorem repliesAndHomeSteps : Obligations.RepliesAndHomeSteps := by
  refine ⟨fun r fl h => ⟨fun s he ⟨⟨hf, hr, hh⟩, hd⟩ => exec_loadReply_of_data he hf hr hh hd,
      fun e s he ⟨⟨hf, hr, hh⟩, hd⟩ => exec_loadReply_of_err he hf hr hh hd⟩,
    fun s r sec bytes guard hf => ⟨fun he => State.fillBytes_of_invalidated hf he, fun he =>
      ⟨fun hw => ?_, fun w new hw hs hb => ?_, fun w hw hs hb => ?_, fun w hw hs => ?_⟩⟩,
    fun c k s he ht => exec_writeAck_of_no_tails none he ht,
    fun c k s he ht => exec_writeAck_of_no_tails none he ht,
    fun c k s he ht => exec_writeAck_of_no_tails none he ht,
    fun c k ring n hk s he ⟨ht, ho⟩ => exec_writeAck_of_last_own hk he ht ho,
    fun c k s he ht => exec_writeAck_of_no_tails none he ht,
    fun c k r s he ht => exec_writeAck_of_no_tails (some r) he ht,
    fun c k w s he _ => ?_,
    fun n s he hz => exec_zeroSweep_of_pending he hz,
    fun line after l s he hl => exec_backInvalidate_of_cached he hl,
    fun line after s he hl => exec_backInvalidate_of_uncached he hl,
    fun s l hm hl => State.dropLine_of_filled hm hl,
    fun s l hm hl => State.dropLine_of_filling hm hl,
    fun i ctx va s he _ => ?_,
    fun n i => ⟨fun s he ⟨hc, hb⟩ => exec_scrub_of_sound he hc hb, fun s he ⟨hc, hb⟩ => exec_scrub_of_bad he hc hb⟩⟩
  · rw [State.fillBytes_of_epoch hf he, Core.ownBytes_of_unwritten _ _ hw]
    rfl
  · rw [State.fillBytes_of_epoch hf he, Core.ownBytes_of_later _ hw hs, hb]
    rfl
  · rw [State.fillBytes_of_epoch hf he, Core.ownBytes_of_later _ hw hs, hb]
    rfl
  · rw [State.fillBytes_of_epoch hf he, Core.ownBytes_of_earlier _ hw hs]
    rfl
  · show execWakeAcknowledgement s = _
    rw [execWakeAcknowledgement, he]
  · show execTranslationWalk s = _
    rw [execTranslationWalk, he]

end Sys2Proof.Machine
end

section
/-!
The steps that follow a write of a control register (R32, R44, R93, R96, R97, R135, R321, R330, R343, R374).
-/

namespace Sys2Proof.Machine
open Sys2Proof Sys2Proof.Claims

/-! ### Operations under way -/

/-- Ending the only operation leaves none. -/
theorem State.endOp_of_only {s : State} {o : Op} (h : s.ops = [o]) : s.endOp o.id = { s with ops := [] } := by
  simp [State.endOp, h]

/-! ### TINV (R32) -/

section
variable {s : State} {o : Op} {c k ctx : Nat} {v : Word}

/-- Removing translations leaves each core in its context. -/
theorem State.coresOf_tinv (s : State) (ctx : Nat) (v : Word) (d : Nat) : (s.tinv ctx v).coresOf d = s.coresOf d := by
  have hctx : ∀ y : Core, (if y.ctx == some ctx then { y with tlb := y.tlb.filter fun e => !(tinvHits ctx v e) }
      else y).ctx = y.ctx := fun y => by split <;> rfl
  simp only [State.coresOf, State.tinv, List.filter_map, List.map_map]
  congr 1
  refine List.filter_congr fun p _ => ?_
  exact congrArg (· == some d) (hctx p.2)

/-- Once nothing of the slot stands before it, the entries go and every slot of the context's cores has to drain. -/
theorem exec_tinvWrite_of_leading (he : s.event = some (.tinvWrite c k v)) (ho : s.ops = [o]) (hc : o.core = c)
    (hk : o.slot = k) (hv : o.kind = .tinv ctx v) (hl : o.left = []) (hb : o.behind = 0) (hx : s.taken.coresOf ctx ≠ []) :
    exec .tinvWrite s = .next ((s.taken.tinv ctx v).modOp o.id fun o => { o with left := s.taken.drainSlots ctx }) := by
  have hd : ((s.taken.tinv ctx v).modOp o.id fun o => { o with left := s.taken.drainSlots ctx }).drainSlots ctx ≠ [] := by
    show ((s.taken.tinv ctx v).coresOf ctx).flatMap _ ≠ []
    rw [State.coresOf_tinv]
    obtain ⟨d, ds, hds⟩ := List.exists_cons_of_ne_nil hx
    simp [hds]
  show execTinvWrite s = _
  simp [execTinvWrite, he, ho, hc, hk, hv, hl, hb, hd]

/-- It waits behind the ordered packets of its slot (R93). -/
theorem exec_tinvWrite_of_behind (he : s.event = some (.tinvWrite c k v)) (ho : s.ops = [o]) (hc : o.core = c)
    (hk : o.slot = k) (hv : o.kind = .tinv ctx v) (hl : o.left = []) (hb : o.behind ≠ 0) :
    exec .tinvWrite s = .next (s.taken.due (.tinvWrite c k v)) := by
  show execTinvWrite s = _
  simp [execTinvWrite, he, ho, hc, hk, hv, hl, hb]

/-- When every slot it waits for has drained, the invalidation is complete. -/
theorem exec_tinvComplete_of_drained {id : Nat} (he : s.event = some (.tinvComplete id)) (ho : s.taken.op? id = some o)
    (hv : o.kind = .tinv ctx v) (hl : o.left ≠ []) (hd : ∀ n ∈ o.left, s.taken.slotDrained o.own n = true) :
    exec .tinvComplete s = .next (s.taken.endOp id) := by
  have hf : (o.left.filter fun n => !(s.taken.slotDrained o.own n)) = [] :=
    List.filter_eq_nil_iff.2 fun n hn => by simp [hd n hn]
  show execTinvComplete s = _
  simp [execTinvComplete, he, ho, hv, hf, hl]

/-- What a drained slot has done (log 39). -/
theorem State.slotDrained_spec {own n : Nat} (h : s.slotDrained own n = true) :
    let x := s.slot (n / 8) (n % 8)
    x.ucnt = 0 ∧ x.ocnt = 0 ∧ s.imaging (n / 8) (n % 8) = false ∧ s.updating (n / 8) (n % 8) = false ∧
      (n % 8 = 7 → ∀ y ∈ (s.core (n / 8)).copies, y.translated = false) ∧
      ∀ fl, x.fl = some fl → n ≠ own → ∀ d ∈ fl.due, d.act.isAccess = false := by
  simp only [State.slotDrained, Slot.allDone, Bool.and_eq_true, beq_iff_eq, Bool.not_eq_true', Bool.or_eq_true,
    bne_iff_ne, List.all_eq_true] at h
  obtain ⟨⟨⟨⟨⟨hu, ho⟩, hi⟩, hw⟩, hcopies⟩, hfl⟩ := h
  refine ⟨hu, ho, hi, hw, fun h7 => hcopies.resolve_left (not_not_intro h7), fun fl hf hn d hd => ?_⟩
  rw [hf] at hfl
  simp only [Bool.and_eq_true, Bool.or_eq_true, beq_iff_eq, List.all_eq_true, Bool.not_eq_true'] at hfl
  obtain ⟨hdue, -⟩ := hfl
  exact hdue.resolve_left hn d hd

end

/-! ### MIXDBG and CROOT: writes that spread (R135, R343) -/

/-- The only operation under way is behind no other write of its register. -/
theorem State.behindWrite_of_only {s : State} {o : Op} (h : s.ops = [o]) (n : Nat) : s.behindWrite o n = false := by
  simp [State.behindWrite, h]

/-- At the last place of the only operation under way, the write is done. -/
theorem State.spreadWrite_of_last {s : State} {o : Op} {n : Nat} (ho : s.ops = [o]) (hl : o.left = [n])
    (hb : o.behind = 0) (places : List Nat) (arrive : State → Nat → State) (again : Event) :
    s.spreadWrite o places arrive again = (arrive s n).endOp o.id := by
  simp [State.spreadWrite, hl, hb, State.behindWrite_of_only ho, State.oneOf]

/-- A write arrives at a place after the slot's earlier writes of the register that have still to arrive there (R88). -/
theorem State.behindWrite_of_earlier {s : State} {o x : Op} {n : Nat} (hx : x ∈ s.ops) (hi : x.id < o.id)
    (hc : x.core = o.core) (hk : x.slot = o.slot) (hr : x.kind.sameReg o.kind = true) (hn : n ∈ x.left) :
    s.behindWrite o n = true :=
  List.any_eq_true.2 ⟨x, hx, by simp [hi, hc, hk, hr, hn]⟩

section
variable {s : State} {o : Op} {c k ctx : Nat} {v : Word}

/-- MIXDBG at a home. -/
def State.mixdbgAt (ctx : Nat) (v : Word) (s : State) (n : Nat) : State :=
  s.modCtx ctx fun x => { x with mixAt := x.mixAt.put n v }

/-- CROOT at a core. -/
def State.crootAt (v : Word) (s : State) (n : Nat) : State := s.modCore n fun y => { y with croot := v, crofts := [] }

theorem exec_mixdbgWrite_of_only (he : s.event = some (.mixdbgWrite c k v)) (ho : s.ops = [o]) (hc : o.core = c)
    (hk : o.slot = k) (hv : o.kind = .mixdbg ctx v) :
    exec .mixdbgWrite s =
      .next (s.taken.spreadWrite o (s.taken.homesOf ctx) (State.mixdbgAt ctx v) (.mixdbgWrite c k v)) := by
  show execMixdbgWrite s = _
  simp [execMixdbgWrite, he, ho, hc, hk, hv]
  rfl

theorem exec_crootWrite_of_only (he : s.event = some (.crootWrite c k v)) (ho : s.ops = [o]) (hc : o.core = c)
    (hk : o.slot = k) (hv : o.kind = .croot ctx v) :
    exec .crootWrite s =
      .next (s.taken.spreadWrite o (s.taken.coresOf ctx) (State.crootAt v) (.crootWrite c k v)) := by
  show execCrootWrite s = _
  simp [execCrootWrite, he, ho, hc, hk, hv]
  rfl

theorem exec_mixdbgWrite_of_last {n : Nat} (he : s.event = some (.mixdbgWrite c k v)) (ho : s.ops = [o])
    (hc : o.core = c) (hk : o.slot = k) (hv : o.kind = .mixdbg ctx v) (hl : o.left = [n]) (hb : o.behind = 0) :
    exec .mixdbgWrite s = .next { s.taken.mixdbgAt ctx v n with ops := [] } := by
  have ha : (s.taken.mixdbgAt ctx v n).ops = [o] := ho
  rw [exec_mixdbgWrite_of_only he ho hc hk hv, State.spreadWrite_of_last (s := s.taken) ho hl hb, State.endOp_of_only ha]

theorem exec_crootWrite_of_last {n : Nat} (he : s.event = some (.crootWrite c k v)) (ho : s.ops = [o])
    (hc : o.core = c) (hk : o.slot = k) (hv : o.kind = .croot ctx v) (hl : o.left = [n]) (hb : o.behind = 0) :
    exec .crootWrite s = .next { s.taken.crootAt v n with ops := [] } := by
  have ha : (s.taken.crootAt v n).ops = [o] := ho
  rw [exec_crootWrite_of_only he ho hc hk hv, State.spreadWrite_of_last (s := s.taken) ho hl hb, State.endOp_of_only ha]

end

/-! ### DRVCFG (R321) -/

/-- N of the drover: the entry field times 16, or 0 without one (log 19). -/
theorem drvEntry_eq (v : Word) :
    drvEntry v = if v.getLsbD 17 then ofZ (v.toNat / 16 % 2 ^ 13 * 16) else 0 := by
  have hz : ofZ (v.toNat / 16 % 2 ^ 13 * 16) = wd (field v 4 13 * 16) := by
    rw [wd, ← BitVec.ofInt_natCast]
    simp [field, nbits]
  rw [drvEntry, hz]

section
variable {s : State} {c : Nat} {v : Word}

theorem exec_drvcfgWrite_of_idle (he : s.event = some (.drvcfgWrite c v)) (hf : (s.taken.slot c 7).fl = none) :
    exec .drvcfgWrite s = .next ((s.taken.modCore c fun k => { k with drvcfg := v }).modThread c 7 fun t =>
      { t with regs := { t.regs with n := drvEntry v } }) := by
  show execDrvcfgWrite s = _
  simp [execDrvcfgWrite, he, hf]

/-- It waits for the drover's sheaf, before the writes that are due behind it. -/
theorem exec_drvcfgWrite_of_flight (he : s.event = some (.drvcfgWrite c v)) (hf : (s.taken.slot c 7).fl ≠ none) :
    exec .drvcfgWrite s = .next (s.taken.dueBefore
      (fun e => match e with | .drvcfgWrite d _ => d == c | _ => false) (.drvcfgWrite c v)) := by
  show execDrvcfgWrite s = _
  simp only [execDrvcfgWrite, he]
  exact if_neg (mt Option.isNone_iff_eq_none.1 hf)

end

/-! ### CPRES (R330) -/

section
variable {s : State} {ctx : Nat} {v : Word}

theorem exec_cpresResume_of_copy (he : s.event = some (.cpresResume ctx v))
    (hc : (s.taken.core (cpresCore v)).ctx = some ctx) (hp : cpresPort v = false)
    (hd : (s.taken.core (cpresCore v)).heldDrain (cpresTag v) = false) :
    exec .cpresResume s = .next ((s.taken.engineAt (.copyEngine (cpresCore v / 8))).modCopy (cpresCore v) (cpresTag v)
      fun x => if x.state = .suspended then { x with state := .running, failed := none } else x) := by
  show execCpresResume s = _
  simp [execCpresResume, he, hc, hp, hd]

theorem exec_cpresAbort_of_suspended {x : Copy} (he : s.event = some (.cpresAbort ctx v))
    (hc : (s.taken.core (cpresCore v)).ctx = some ctx) (hp : cpresPort v = false)
    (hd : (s.taken.core (cpresCore v)).heldDrain (cpresTag v) = false)
    (hx : (s.taken.core (cpresCore v)).copy? (cpresTag v) = some x) (hs : x.state = .suspended) :
    exec .cpresAbort s = .next (s.taken.copyEnd (cpresCore v) (cpresTag v) false true) := by
  show execCpresAbort s = _
  simp [execCpresAbort, he, hc, hp, hd, hx, hs]

end

/-! ### PROTB after its commit (R44) -/

section
variable {s : State} {o : Op} {id ctx : Nat} {gs : List (Nat × Nat × Nat)} {sys : Bool} {right : BitVec 2}

theorem exec_protbDrain_of_due {c : Nat} (he : s.event = some (.protbDrain id c)) (ho : s.taken.op? id = some o)
    (hv : o.kind = .protb ctx gs sys right) (hd : s.taken.protbDrainDue id c = true) :
    exec .protbDrain s = .next ((s.taken.modCore c fun k => k.dropBlock ctx (granSectors gs)).modOp id fun o =>
      { o with left := o.left.filter (· != c + 1) }) := by
  show execProtbDrain s = _
  simp [execProtbDrain, he, ho, hv, hd]

theorem exec_protbInstall_of_drained (he : s.event = some (.protbInstall id)) (ho : s.taken.op? id = some o)
    (hv : o.kind = .protb ctx gs sys right) (hl : o.left = []) :
    exec .protbInstall s = .next ((s.taken.protbInstall (.slot o.core o.slot) ctx gs sys right).endOp id) := by
  show execProtbInstall s = _
  simp [execProtbInstall, he, ho, hv, hl]

end

/-! ### Registers written from outside (R374) -/

section
variable {s : State} {r : DevReg} {v : Word}

theorem exec_registerWrite (he : s.event = some (.registerWrite r v)) :
    exec .registerWrite s = .next (s.taken.regWrite r v) := by
  show execRegisterWrite s = _
  simp [execRegisterWrite, he]

theorem State.regWrite_tskm (s : State) (c : Nat) (v : Word) :
    s.regWrite (.tskm c) v = s.modCtx c fun x => { x with tskm := v } := by
  have hm : v &&& regMask (.tskm c) = v := BitVec.and_allOnes
  simp only [State.regWrite, hm]

/-- A pool cache that would not fit is not configured (R62, log 129). -/
theorem State.regWrite_pccfg_of_unfit (h : ({ s with pccfg := v &&& 15 } : State).pcFits = false) :
    s.regWrite .pccfg v = s :=
  if_neg (Bool.eq_false_iff.1 h)

end

/-! ### The other steps -/

section
variable {s : State} {c : Nat}

theorem exec_clstartWrite {k : Nat} {v : Word} (he : s.event = some (.clstartWrite c k v)) :
    exec .clstartWrite s = .next (s.taken.ctlCommit c k 0x29 0 v) := by
  show execClstartWrite s = _
  simp [execClstartWrite, he]

/-- START arrives (R97): its sender's gateway is done with it, or its sender's slot is sent the acknowledgement. -/
theorem exec_start_of_gateway {g : Nat} (he : s.event = some (.start c (.gateway g))) :
    exec .start s = .next (s.taken.modGw g fun x => { x with start := x.start.erase c }) := by
  show execStart s = _
  simp [execStart, he]

theorem exec_start_of_slot {d k : Nat} (he : s.event = some (.start c (.slot d k))) :
    exec .start s = .next (s.taken.ack (coreEnd c) (s.taken.slot d k).th.ctx (.slot d k) .write none) := by
  show execStart s = _
  simp [execStart, he]

end

/-- Settles O52, a clause for each register's step. -/
theorem controlRegisterSteps : Obligations.ControlRegisterSteps := by
  refine ⟨fun c k v id ctx s he ⟨o, ho, hid, hc, hk, hv, hl, hb, hx⟩ => ?_,
    fun c k v ctx s he ⟨o, ho, hc, hk, hv, hl, hb⟩ => exec_tinvWrite_of_behind he ho hc hk hv hl hb,
    fun id o ctx v s he ⟨ho, hv, hl, hd⟩ => exec_tinvComplete_of_drained he ho hv hl hd,
    fun s own n h => State.slotDrained_spec h,
    fun c k v s he _ => exec_clstartWrite he,
    fun c g s he _ => exec_start_of_gateway he,
    fun c d k s he _ => exec_start_of_slot he,
    fun c k v o ctx hc hk hv => ⟨fun s he ho => exec_mixdbgWrite_of_only he ho hc hk hv,
      fun n s he ⟨ho, hl, hb⟩ => exec_mixdbgWrite_of_last he ho hc hk hv hl hb⟩,
    fun c k v o ctx hc hk hv => ⟨fun s he ho => exec_crootWrite_of_only he ho hc hk hv,
      fun n s he ⟨ho, hl, hb⟩ => exec_crootWrite_of_last he ho hc hk hv hl hb⟩,
    fun s o x n hx hi hc hk hr hn => State.behindWrite_of_earlier hx hi hc hk hr hn,
    fun c v s he hf => ?_,
    fun c v s he hf => exec_drvcfgWrite_of_flight he hf,
    fun ctx v s he ⟨hc, hp, hd⟩ => exec_cpresResume_of_copy he hc hp hd,
    fun ctx v x s he ⟨hc, hp, hd, hx, hs⟩ => exec_cpresAbort_of_suspended he hc hp hd hx hs,
    fun r v s he _ => exec_registerWrite he,
    fun c v s he _ => (exec_registerWrite he).trans (congrArg _ (State.regWrite_tskm _ c v)),
    fun c v s he _ => exec_registerWrite he,
    fun v s he hp => (exec_registerWrite he).trans (congrArg _ (State.regWrite_pccfg_of_unfit hp)),
    fun id c o ctx gs sys right s he ⟨ho, hv, hd⟩ => exec_protbDrain_of_due he ho hv hd,
    fun id o ctx gs sys right s he ⟨ho, hv, hl⟩ => exec_protbInstall_of_drained he ho hv hl⟩
  · subst hid
    exact exec_tinvWrite_of_leading he ho hc hk hv hl hb hx
  · rw [exec_drvcfgWrite_of_idle he hf, drvEntry_eq]

end Sys2Proof.Machine
end

section
/-!
FENCE and XFENCE fire once their slot is quiet (R148, R273, R274).
-/

namespace Sys2Proof.Machine
open Sys2Proof Sys2Proof.Claims

/-! ### What a fence waits for -/

theorem State.quiet_iff (s : State) (c k : Nat) :
    s.quiet c k = true ↔ (s.slot c k).ucnt = 0 ∧ (s.slot c k).ocnt = 0 := by
  simp [State.quiet, Slot.allDone]

/-- The gateways' answers to a drain request (R117). -/
theorem State.drainAnswered_iff (s : State) (d : List (Nat × Nat)) :
    s.drainAnswered d = true ↔ ∀ p ∈ d, p.2 ≤ (s.gw p.1).biDone := by
  simp [State.drainAnswered]

theorem State.drainAnswered_eq_false {s : State} {d : List (Nat × Nat)} (h : ∃ p ∈ d, (s.gw p.1).biDone < p.2) :
    s.drainAnswered d = false := by
  obtain ⟨p, hp, hlt⟩ := h
  exact Bool.eq_false_iff.2 fun ha => Nat.not_le.2 hlt ((s.drainAnswered_iff d).1 ha p hp)

/-- The drain request of a SYSTEM fence: the one that it has made, or the one that it makes now. -/
def State.fenceDrain (s : State) (is : Iss) : List (Nat × Nat) := (s.slot is.c is.k).drain.getD s.drainRequest

/-- The paths of an XFENCE, as the two halves of its field (R274). -/
theorem xfFirst_eq (f : Form) : xfFirst f = f.sub.toNat / 8 := by
  have := f.sub.isLt
  simp only [xfFirst, nbits]
  omega

theorem xfSecond_eq (f : Form) : xfSecond f = f.sub.toNat % 8 := by simp [xfSecond, nbits]

/-! ### FENCE (R273) -/

section
variable {f : Form} {s : State} {is : Iss}

theorem form_of_fires_fence (h : Fires (.fence f) s is) : is.f = f := (Option.some.inj (State.issuer_form h.1)).symm

theorem form_of_fires_xfence (h : Fires (.xfence f) s is) : is.f = f := (Option.some.inj (State.issuer_form h.1)).symm

theorem exec_fence_of_waits (h : Fires (.fence f) s is) (hw : fenceWaits is s = true) : exec (.fence f) s = .next s := by
  obtain ⟨his, hb, hn, hr⟩ := h
  show execFence f s = _
  exact issueWhen_of_waits his hb hn hr hw

/-- What is under way holds a fence back. -/
theorem exec_fence_of_unquiet (h : Fires (.fence f) s is)
    (hw : ¬ s.quiet is.c is.k = true ∨ (4 ≤ f.sub.toNat ∧ ¬ s.opsDone is.c is.k = true)) :
    exec (.fence f) s = .next s := by
  refine exec_fence_of_waits h ?_
  rw [fenceWaits, form_of_fires_fence h]
  obtain hq | ⟨hs, ho⟩ := hw
  · simp [hq]
  · simp [hs, ho]

/-- A SYSTEM fence stays until its drain request is answered. -/
theorem exec_fence_of_undrained {d : List (Nat × Nat)} (h : Fires (.fence f) s is) (hs : f.sub.toNat = 5)
    (hd : (s.slot is.c is.k).drain = some d) (ha : s.drainAnswered d = false) : exec (.fence f) s = .next s := by
  refine exec_fence_of_waits h ?_
  rw [fenceWaits, form_of_fires_fence h, hd]
  simp [hs, ha]

section
variable (h : Fires (.fence f) s is) (hq : s.quiet is.c is.k = true)
  (ho : 4 ≤ f.sub.toNat → s.opsDone is.c is.k = true)
include h hq ho

/-- A fence that nothing holds back but the drain: it asks for the drain, or fires with the L1 rule of its scope. -/
theorem exec_fence_of_quiet (hd : f.sub.toNat = 5 → ∀ d, (s.slot is.c is.k).drain = some d → s.drainAnswered d = true) :
    exec (.fence f) s =
      if f.sub == 5 && !(s.drainAnswered (s.fenceDrain is)) then
        .next (s.modSlot is.c is.k fun x => { x with drain := some (s.fenceDrain is) })
      else
        let u := if 2 ≤ f.sub.toNat then s.modCore is.c (·.l1Invalidate is.ctx) else s
        .next ((u.modSlot is.c is.k fun x => { x with drain := none }).fireDue is
          (.fence (f.sub == 5) (2 ≤ f.sub.toNat))) := by
  have hw : fenceWaits is s = false := by
    rw [fenceWaits, form_of_fires_fence h, hq]
    cases hdr : (s.slot is.c is.k).drain with
    | none => simpa using ho
    | some d => simpa using ⟨ho, fun hs => hd hs d hdr⟩
  obtain ⟨his, hb, hn, hr⟩ := h
  show execFence f s = _
  exact issueWhen_of_fires his hb hn hr hw

/-- Below SYSTEM scope there is no drain. -/
theorem exec_fence_of_scope (hs : f.sub.toNat ≤ 4) :
    exec (.fence f) s =
      let u := if 2 ≤ f.sub.toNat then s.modCore is.c (·.l1Invalidate is.ctx) else s
      .next ((u.modSlot is.c is.k fun x => { x with drain := none }).fireDue is (.fence false (2 ≤ f.sub.toNat))) := by
  have h5 : (f.sub == 5) = false := by
    rw [beq_eq_false_iff_ne]
    intro e
    rw [e] at hs
    exact absurd hs (by decide)
  rw [exec_fence_of_quiet h hq ho fun e => absurd e (by omega), h5]
  rfl

end

section
variable {d : List (Nat × Nat)} (h : Fires (.fence f) s is) (hq : s.quiet is.c is.k = true)
  (ho : s.opsDone is.c is.k = true) (hs : f.sub = 5)
include h hq ho hs

/-- With its drain answered a SYSTEM fence fires. -/
theorem exec_fence_of_drained (hd : s.fenceDrain is = d) (ha : s.drainAnswered d = true) :
    exec (.fence f) s = .next (((s.modCore is.c (·.l1Invalidate is.ctx)).modSlot is.c is.k
      fun x => { x with drain := none }).fireDue is (.fence true true)) := by
  rw [exec_fence_of_quiet h hq (fun _ => ho) ?_, hd, ha, hs]
  · rfl
  · intro _ d' hd'
    have he : d' = d := by rw [← hd, State.fenceDrain, hd']; rfl
    rw [he, ha]

/-- One that has made no drain request makes it. -/
theorem exec_fence_of_unasked (hn : (s.slot is.c is.k).drain = none) (hd : s.fenceDrain is = d)
    (ha : s.drainAnswered d = false) :
    exec (.fence f) s = .next (s.modSlot is.c is.k fun x => { x with drain := some d }) := by
  rw [exec_fence_of_quiet h hq (fun _ => ho) ?_, hd, ha, hs]
  · rfl
  · intro _ d' hd'
    rw [hn] at hd'
    cases hd'

end

/-! ### XFENCE (R274) -/

theorem exec_xfence_of_unquiet (h : Fires (.xfence f) s is)
    (hw : ¬ s.quiet is.c is.k = true ∨ (f.sub.toNat / 8 = f.sub.toNat % 8 ∧ ¬ s.opsDone is.c is.k = true)) :
    exec (.xfence f) s = .next s := by
  have hwait : xfenceWaits is s = true := by
    rw [xfenceWaits, form_of_fires_xfence h, xfFirst_eq, xfSecond_eq]
    obtain hq | ⟨hs, ho⟩ := hw
    · simp [hq]
    · simp [hs, ho]
  obtain ⟨his, hb, hn, hr⟩ := h
  show execXfence f s = _
  exact issueWhen_of_waits his hb hn hr hwait

section
variable (h : Fires (.xfence f) s is) (hq : s.quiet is.c is.k = true)
  (ho : f.sub.toNat / 8 = f.sub.toNat % 8 → s.opsDone is.c is.k = true)
include h hq ho

/-- An XFENCE that nothing holds back runs; a second path 3 has the ports fetch again. -/
theorem exec_xfence_of_quiet {inval : Bool} (hi : (xfSecond f == 0 || xfFirst f == xfSecond f) = inval) :
    exec (.xfence f) s =
      let u := if inval then s.modCore is.c (·.l1Invalidate is.ctx) else s
      let v := if f.sub.toNat % 8 = 3 then u.modThread is.c is.k (refetchPorts is.fl) else u
      .next (v.fireDue is (.fence false inval)) := by
  have hw : xfenceWaits is s = false := by
    rw [xfenceWaits, form_of_fires_xfence h, xfFirst_eq, xfSecond_eq, hq]
    simpa using ho
  obtain ⟨his, hb, hn, hr⟩ := h
  show execXfence f s = _
  rw [execXfence, issueWhen_of_fires his hb hn hr hw]
  rw [hi]
  simp only [xfSecond_eq, beq_iff_eq]

/-- A second path 0, or one equal to the first, invalidates the L1. -/
theorem exec_xfence_of_inval (hi : f.sub.toNat % 8 = 0 ∨ f.sub.toNat / 8 = f.sub.toNat % 8) :
    exec (.xfence f) s =
      let u := s.modCore is.c (·.l1Invalidate is.ctx)
      let v := if f.sub.toNat % 8 = 3 then u.modThread is.c is.k (refetchPorts is.fl) else u
      .next (v.fireDue is (.fence false true)) := by
  refine exec_xfence_of_quiet h hq ho (inval := true) ?_
  rw [xfFirst_eq, xfSecond_eq]
  simpa using hi

/-- Any other leaves it. -/
theorem exec_xfence_of_kept (h0 : f.sub.toNat % 8 ≠ 0) (hne : f.sub.toNat / 8 ≠ f.sub.toNat % 8) :
    exec (.xfence f) s =
      let v := if f.sub.toNat % 8 = 3 then s.modThread is.c is.k (refetchPorts is.fl) else s
      .next (v.fireDue is (.fence false false)) := by
  refine exec_xfence_of_quiet h hq ho (inval := false) ?_
  rw [xfFirst_eq, xfSecond_eq]
  simpa using ⟨h0, hne⟩

end

end

/-- Settles O27: FENCE by its scope, XFENCE by its two paths. -/
theorem fencesFire : Obligations.FencesFire := by
  refine ⟨State.quiet_iff, fun f s is => ⟨fun h hq hs => ?_, fun h hq h2 h3 => ?_, fun h hq ho hs => ?_,
    fun h hq ho hs d hd => ?_, fun h hw => exec_fence_of_unquiet h hw, fun h hq hne h0 h3 => ?_, fun h hq hne h0 => ?_,
    fun h hq h1 h3 => ?_, fun h hq ho he h3 => ?_, fun h hq ho h1 h3 => ?_, fun h hw => exec_xfence_of_unquiet h hw⟩⟩
  · rw [exec_fence_of_scope h hq (by omega) (by omega)]
    simp [show ¬ 2 ≤ f.sub.toNat by omega]
  · rw [exec_fence_of_scope h hq (by omega) (by omega)]
    simp [h2]
  · rw [exec_fence_of_scope h hq (fun _ => ho) (by omega)]
    simp [hs]
  · have h5 : f.sub = 5 := BitVec.eq_of_toNat_eq hs
    have hdr : s.fenceDrain is = d := by
      obtain hd | ⟨hn, rfl⟩ := hd
      · rw [State.fenceDrain, hd]; rfl
      · rw [State.fenceDrain, hn]; rfl
    exact ⟨fun ha => exec_fence_of_drained h hq ho h5 hdr ((s.drainAnswered_iff d).2 ha),
      fun ha hn => exec_fence_of_unasked h hq ho h5 hn hdr (State.drainAnswered_eq_false ha),
      fun ha hsome => exec_fence_of_undrained h hs hsome (State.drainAnswered_eq_false ha)⟩
  · rw [exec_xfence_of_kept h hq (fun e => absurd e hne) h0 hne]
    simp [h3]
  · rw [exec_xfence_of_inval h hq (fun e => absurd e hne) (.inl h0)]
    simp [h0]
  · rw [exec_xfence_of_kept h hq (fun e => by omega) (by omega) (by omega)]
    simp [h3]
  · rw [exec_xfence_of_inval h hq (fun _ => ho) (.inr he)]
    simp [h3]
  · rw [exec_xfence_of_inval h hq (fun _ => ho) (.inr (by omega))]
    simp [h3]

end Sys2Proof.Machine
end

section
/-!
A fetch puts the sheaf at N in flight, or traps (R73, R158, R211, R217, R218).
-/

namespace Sys2Proof.Machine
open Sys2Proof Sys2Proof.Claims

/-! ### What correcting words leaves unchanged (R73) -/

/-- Correcting words changes only sectors and the counters of cores and copses, and no zero-pending mark. -/
theorem State.fixWords_frame (s : State) (pa : Nat) (ws : List Nat) : ∃ secs cores copses,
    s.fixWords pa ws = { s with secs := secs, cores := cores, copses := copses } ∧
      ∀ n, (secs.get n {}).zp = (s.sector n).zp := by
  unfold State.fixWords
  dsimp only
  split
  · exact ⟨s.secs, s.cores, s.copses, rfl, fun _ => rfl⟩
  · have hzp : ∀ (x : Sector), x.zp = (s.sector (pa / 128)).zp →
        ∀ n, ((s.secs.put (pa / 128) x).get n {}).zp = (s.sector n).zp := by
      intro x hx n
      by_cases hn : n = pa / 128
      · rw [hn, SMap.get_put_self, hx]
      · rw [SMap.get_put_ne _ _ _ hn]; rfl
    unfold State.countAt
    split
    all_goals exact ⟨_, _, _, rfl, hzp _ rfl⟩

/-- The bytes at every home stay. -/
theorem State.homeBytes_fixWords (s : State) (pa : Nat) (ws : List Nat) (a n : Nat) :
    (s.fixWords pa ws).homeBytes a n = s.homeBytes a n := by
  obtain ⟨secs, cores, copses, he, hz⟩ := s.fixWords_frame pa ws
  have hsec : ((s.fixWords pa ws).sector (a / 128)).zp = (s.sector (a / 128)).zp := by rw [he]; exact hz _
  have hpool : (s.fixWords pa ws).poolData a = s.poolData a := by rw [he]; rfl
  have hmem : (s.fixWords pa ws).bytes a n = s.bytes a n := by rw [he]; rfl
  rw [State.homeBytes, State.homeBytes, hsec, hpool, hmem]

theorem State.homeBytes_fixIn (s : State) (pa m a n : Nat) : (s.fixIn pa m).homeBytes a n = s.homeBytes a n :=
  State.homeBytes_fixWords ..

theorem State.ctx_fixIn (s : State) (pa m x : Nat) : (s.fixIn pa m).ctx x = s.ctx x := by
  obtain ⟨secs, cores, copses, he, -⟩ := s.fixWords_frame pa (wordsOf pa m)
  rw [State.fixIn, he]
  rfl

/-! ### The sheaf's words (R211, R217) -/

theorem State.codeBytes_fixIn (s : State) (pa m c off n : Nat) :
    (s.fixIn pa m).codeBytes c off n = s.codeBytes c off n := by
  induction n generalizing off with
  | zero => rfl
  | succ n ih => rw [State.codeBytes, State.codeBytes, State.homeBytes_fixIn, ih]

/-- The header and the syllables of the sheaf at an offset, decoded for a thread. -/
def State.sheafAt (s : State) (c : Nat) (t : Thread) (n : Nat) : Except SheafBad Sheaf :=
  decodeSheaf (t.kind == .burr) (s.ctx t.ctx).priv (headerAt (s.codeAt c n)) (bodyAt (s.codeAt c n))

theorem State.decodeAt_of_ok {s : State} {c n : Nat} {t : Thread} {sh : Sheaf} (h : s.sheafAt c t n = .ok sh) :
    s.decodeAt c t n = .ok sh := by
  rw [State.sheafAt] at h
  simp only [State.decodeAt, h]

theorem State.decodeAt_of_error {s : State} {c n : Nat} {t : Thread} {e : SheafBad} (h : s.sheafAt c t n = .error e) :
    s.decodeAt c t n = .error (decodeTrap c n e) := by
  rw [State.sheafAt] at h
  simp only [State.decodeAt, h]

/-- What a decode reads, the instruction store's bytes and the context, is as before when a word has been read. -/
theorem State.decodeAt_fixIn (s : State) (pa m c n : Nat) (t : Thread) :
    (s.fixIn pa m).decodeAt c t n = s.decodeAt c t n := by
  rw [State.decodeAt, State.decodeAt, State.codeAt, State.codeAt, State.codeBytes_fixIn, State.ctx_fixIn]

/-- So it is when the whole sheaf has been read. -/
theorem State.decodeAt_fixCode (s : State) (c n size : Nat) (t : Thread) :
    (s.fixCode c n size).decodeAt c t n = s.decodeAt c t n := by
  unfold State.fixCode
  induction List.range ((size + 7) / 8) generalizing s with
  | nil => rfl
  | cons i is ih => rw [List.foldl_cons, ih, State.decodeAt_fixIn]

/-! ### The branches of a fetch (R158, R211, R218) -/

/-- N outside the instruction store or off a 16-byte boundary (R211). -/
theorem nBad_iff (n : Word) : nBad n = true ↔ n.toNat % 16 ≠ 0 ∨ 2 ^ 17 ≤ n.toNat := by
  have := n.isLt
  simp only [nBad, field, nbits, Bool.or_eq_true, bne_iff_ne]
  omega

section
variable {s : State} {c k : Nat}

/-- The fetch of a slot that is not the standard drover and that no croft moves. -/
theorem exec_sheafFetch (he : s.event = some (.sheafFetch c k)) (hm : s.taken.mayFetch c k = true)
    (ht : (s.slot c k).th.moveTo = none) (hk : k ≠ 7 ∨ (s.core c).drvExp = true) :
    exec .sheafFetch s = .next (s.taken.fetch c k) := by
  have hd : (k == 7 && !(s.taken.core c).drvExp) = false := by
    obtain hk | hk := hk
    · rw [beq_eq_false_iff_ne.2 hk, Bool.false_and]
    · rw [show (s.taken.core c).drvExp = true from hk, Bool.not_true, Bool.and_false]
  have ht : (s.taken.slot c k).th.moveTo = none := ht
  show execSheafFetch s = _
  simp only [execSheafFetch, he, hm, ht, hd, Bool.not_true, Bool.false_eq_true, if_false]

theorem State.fetch_of_nBad (h : nBad (s.slot c k).th.regs.n = true) : s.fetch c k = s.fault c k .sheafAddress :=
  if_pos h

section
variable {n size : Nat} (hn : nBad (s.slot c k).th.regs.n = false) (ha : (s.slot c k).th.regs.n.toNat = n)
  (hz : sheafSize (s.codeAt c n) = size)
include hn ha hz

theorem State.fetch_of_codeBad (hb : s.codeBad c n size = true) :
    s.fetch c k = (s.fixCode c n size).takeTrap c k { cause := .uncorrectableData } := by
  subst ha hz
  simp only [State.fetch, hn, hb, Bool.false_eq_true, if_false, if_true]

/-- With its words sound the sheaf goes in flight as it decodes. -/
theorem State.fetch_of_decoded {sh : Sheaf} (hb : s.codeBad c n size = false)
    (hd : s.decodeAt c (s.slot c k).th n = .ok sh) :
    s.fetch c k = ((s.fixCode c n size).sheafReads c k sh).modSlot c k fun x =>
      { x with fl := some (newFlight x sh), runs := x.runs + 1, retryNext := false } := by
  subst ha hz
  simp only [State.fetch, hn, hb, Bool.false_eq_true, if_false, State.decodeAt_fixCode, hd]

/-- One that does not decode traps with its record (R218). -/
theorem State.fetch_of_undecodable {r : TrapRec} (hb : s.codeBad c n size = false)
    (hd : s.decodeAt c (s.slot c k).th n = .error r) : s.fetch c k = (s.fixCode c n size).takeTrap c k r := by
  subst ha hz
  simp only [State.fetch, hn, hb, Bool.false_eq_true, if_false, State.decodeAt_fixCode, hd]

end

end

/-- Settles O44, one clause for each outcome of the fetch. -/
theorem fetchDecodesTheSheaf : Obligations.FetchDecodesTheSheaf := by
  intro s c k he hm ht hk u x n bytes size v decoded
  have hx : exec .sheafFetch s = .next (u.fetch c k) := exec_sheafFetch he hm ht hk
  have hgood : n % 16 = 0 → n < 2 ^ 17 → nBad x.th.regs.n = false := fun h16 hlt =>
    Bool.eq_false_iff.2 fun hb => ((nBad_iff _).1 hb).elim (absurd h16) (Nat.not_le.2 hlt)
  refine ⟨fun hbad => ?_, fun h16 hlt hb => ?_, fun _ _ => State.fixCode_mem .., fun h16 hlt hb => ?_⟩
  · rw [hx, State.fetch_of_nBad ((nBad_iff _).2 hbad)]
  · rw [hx, State.fetch_of_codeBad (hgood h16 hlt) rfl rfl hb]
  · refine ⟨fun sh hsh => ?_, fun e hbad => ?_⟩
    · rw [hx, State.fetch_of_decoded (hgood h16 hlt) rfl rfl hb (State.decodeAt_of_ok hsh)]
      rfl
    · rw [hx, State.fetch_of_undecodable (hgood h16 hlt) rfl rfl hb (State.decodeAt_of_error hbad)]
      rfl

end Sys2Proof.Machine
end

section
/-!
Accesses at homes: over the gateways' streams, behind fills and reservations, and served (R52, R60, R62 to R64, R73, R95,
R136, R139, R142, R143, R278, R394, R395, R433).
-/

namespace Sys2Proof.Machine
open Sys2Proof Sys2Proof.Claims

/-! ### Over a stream (R394, R395) -/

@[simp] theorem State.stream_modStream_self (s : State) (g i : Nat) (f : Stream → Stream) :
    (s.modStream g i f).stream g i = f (s.stream g i) := by
  simp [State.stream, State.modStream, State.modGw]

section
variable {s : State} {g i : Nat} {e : Event} {x : Sent} {go : State → State}

theorem State.overLink_of_unsent (hx : s.sentOn g i e = none) :
    s.overLink (some (g, i)) e go =
      if (s.stream g i).stuck then s.sealPkt g i e (some (some e)) else (s.sealPkt g i e (some (some e))).due e := by
  simp only [State.overLink, hx]

/-- A completion counts under a key that is held, and is else as good as none. -/
theorem State.overLink_of_sent (hx : s.sentOn g i e = some x) :
    s.overLink (some (g, i)) e go =
      if x.phase = (s.stream g i).ph ∨ (s.stream g i).oldrx = true then go (s.unsend g i e)
      else (s.unsend g i e).timedOut e := by
  have hph : ((s.unsend g i e).stream g i).ph = (s.stream g i).ph := by
    rw [State.unsend, State.stream_modStream_self]
  have hold : ((s.unsend g i e).stream g i).oldrx = (s.stream g i).oldrx := by
    rw [State.unsend, State.stream_modStream_self]
  simp only [State.overLink, hx, hph, hold, Bool.or_eq_true, beq_iff_eq]

/-- A step that goes over a stream does so with every outcome of R394 and R395. -/
theorem overLink_of_exec {n : Instr} {link : State → Option (Nat × Nat)}
    (h : ∀ s, s.event = some e → exec n s = .next (s.taken.overLink (link s.taken) e go)) : OverLink n e link go := by
  refine ⟨fun s he hl => ?_, fun g j => ⟨fun s he ⟨hl, hx, hs⟩ => ?_, fun s he ⟨hl, hx, hs⟩ => ?_,
    fun x => ⟨fun s he ⟨hl, hx, hk⟩ => ?_, fun s he ⟨hl, hx, hk⟩ => ?_⟩⟩⟩
  · rw [h s he, hl]; rfl
  · rw [h s he, hl, State.overLink_of_unsent hx, hs]; rfl
  · rw [h s he, hl, State.overLink_of_unsent hx, hs]; rfl
  · rw [h s he, hl, State.overLink_of_sent hx, if_pos hk]
  · rw [h s he, hl, State.overLink_of_sent hx, if_neg hk]

end

/-! ### Behind fills and reservations (R63, R64, R139) -/

theorem reqPlaces_stamp (s : State) (r : Req) : reqPlaces (s.stamp r) = reqPlaces r := rfl
theorem touched_stamp (s : State) (r : Req) : touched (s.stamp r) = touched r := rfl
theorem State.markWaits_stamp (s u : State) (r : Req) : s.markWaits (u.stamp r) = s.markWaits r := rfl

section
variable {s : State} {r : Req}

/-- A plain access is served. -/
theorem State.perform_of_plain (s : State) (h : plainAcc r.acc) : s.perform r = s.serve r := by
  rw [State.perform]
  cases ha : r.acc with
  | reserve | release | cancel => rw [ha] at h; exact h.elim
  | _ => rfl

theorem State.serve_of_free (h : s.waitsAt r none = none) : s.serve r = s.serveNow r := by
  rw [State.serve, h]
  rfl

/-- Within one granule it joins that granule's queue. -/
theorem State.serve_of_one {g : Nat} (hp : reqParts r = [r]) (hw : s.waitsAt r none = some g) :
    s.serve r = s.queueAt r g := by
  rw [State.serve, hw, hp]
  show s.servePart r none = _
  rw [State.servePart, hw]

/-- Each part is a part of the same access. -/
theorem reqParts_join {p : Req} (h : p ∈ reqParts r) : p.join = r.join := by
  unfold reqParts at h
  split at h
  all_goals simp only [List.mem_map, List.mem_singleton] at h
  · obtain ⟨x, -, rfl⟩ := h; rfl
  · obtain ⟨x, -, rfl⟩ := h; rfl
  · obtain ⟨x, -, rfl⟩ := h; rfl
  · rw [h]

/-- Of several granules each part is served or queued at its own (R132, R139). -/
theorem State.serve_of_parts (hj : r.join = none) (hw : ∀ bs, r.acc ≠ .write bs) (hp : 2 ≤ (reqParts r).length)
    (h : s.waitsAt r none ≠ none) : s.serve r = (reqParts r).foldl (fun s p => s.servePart p none) s := by
  have hsome : ¬ (s.waitsAt r none).isNone = true := mt Option.isNone_iff_eq_none.1 h
  have hmap : (reqParts r).map (fun p => { p with join := none }) = reqParts r := by
    refine (List.map_congr_left fun p hm => ?_).trans (List.map_id _)
    have hn : p.join = none := (reqParts_join hm).trans hj
    cases p
    cases hn
    rfl
  have hfold : (reqParts r).foldl (fun s p => s.servePart { p with join := none } none) s =
      (reqParts r).foldl (fun s p => s.servePart p none) s := by
    refine Eq.trans (List.foldl_map (f := fun p : Req => { p with join := none })
      (g := fun (s : State) p => s.servePart p none)).symm ?_
    rw [hmap]
  rw [State.serve, if_neg hsome]
  match hps : reqParts r, hp with
  | p :: q :: rest, _ =>
    rw [← hps, ← hfold, hps]
    cases ha : r.acc with
    | write bs => exact absurd ha (hw bs)
    | _ => rfl

/-- With none of its granules reserved, nor that of its dirty mark, an access waits nowhere. -/
theorem State.waitsAt_eq_none (ht : ∀ x ∈ touched r, s.resv x = []) (hm : s.markWaits r = none) :
    s.waitsAt r none = none := by
  have hf : (touched r).find? (fun g => none != some g && !(s.resv g).isEmpty) = none :=
    List.find?_eq_none.2 fun x hx => by simp [ht x hx]
  rw [State.waitsAt, hf, hm]
  rfl

/-! ### At a home -/

variable {e : Req → Event}

/-- An access waits at the first of its lines whose fill is pending. -/
theorem State.atHome_of_pending {pa : Nat} {rest : List Nat} (hr : reqPlaces r = pa :: rest) (hp : s.poolPending pa = true) :
    s.atHome e r = s.poolWait pa (e (s.stamp r)) := by
  rw [State.atHome, reqPlaces_stamp, hr, List.find?_cons_of_pos hp]

section
variable (hp : ∀ pa ∈ reqPlaces r, s.poolPending pa = false)
include hp

theorem State.find_poolPending_eq_none : (reqPlaces (s.stamp r)).find? s.poolPending = none :=
  List.find?_eq_none.2 fun pa hpa => Bool.eq_false_iff.1 (hp pa hpa)

/-- One that misses the pool cache starts the fill of its line. -/
theorem State.atHome_of_started {v : State} (hm : s.poolMiss r.pa = true) (hs : s.poolStart r.pa = some v) :
    s.atHome e r = v.due (.poolCacheMiss (s.stamp r)) := by
  rw [State.atHome, State.find_poolPending_eq_none hp]
  simp only [State.stamp, hm, hs, if_true]

/-- One that hits, or whose set has no way left, is performed. -/
theorem State.atHome_of_ready (h : plainAcc r.acc) (hm : s.poolMiss r.pa = true → s.poolStart r.pa = none) :
    s.atHome e r = s.serve (s.stamp r) := by
  have hplain : plainAcc (s.stamp r).acc := h
  rw [State.atHome, State.find_poolPending_eq_none hp, ← State.perform_of_plain s hplain]
  cases hmiss : s.poolMiss r.pa with
  | false => simp only [State.stamp, hmiss, Bool.false_eq_true, if_false]
  | true => simp only [State.stamp, hmiss, hm hmiss, if_true]

end

end

/-- The step of a request takes it from its event. -/
theorem withReq_of_event {s : State} {ev : Event} {get : Event → Option Req} {body : State → Req → State} {r : Req}
    (he : s.event = some ev) (hg : get ev = some r) : withReq s get body = .next (body s.taken r) := by
  rw [withReq, he, Option.bind_some, hg]

/-- A step at a home serves its requests. -/
theorem servesAt_of_homeStep {n : Instr} {put : Req → Event} {get : Event → Option Req}
    (h : ∀ s, exec n s = homeStep s put get) (hg : ∀ r, get (put r) = some r) : ServesAt n put := by
  refine fun r hr => ⟨overLink_of_exec fun s he => (h s).trans (withReq_of_event he (hg r)),
    fun u => ⟨fun hp hm => ⟨fun ht hk => ?_, fun g hone hw => ?_, fun hj hwr hlen hw => ?_⟩,
      fun pa rest hpl hp => State.atHome_of_pending hpl hp, fun v hp hm hv => State.atHome_of_started hp hm hv⟩⟩
  · rw [State.atHome_of_ready hp hr hm]
    exact State.serve_of_free (State.waitsAt_eq_none (r := u.stamp r) ht hk)
  · rw [State.atHome_of_ready hp hr hm]
    exact State.serve_of_one hone hw
  · rw [State.atHome_of_ready hp hr hm]
    exact State.serve_of_parts (r := u.stamp r) hj hwr hlen hw

/-! ### Code-loading stores (R15, R95, R433) -/

section
variable {s : State} {r : Req}

theorem exec_codeLoadStore_of_absent (he : s.event = some (.codeLoadStore r)) (hp : s.taken.populated r.pa = false) :
    exec .codeLoadStore s = .next (s.taken.ackWrite r none) := by
  show execCodeLoadStore s = _
  rw [execCodeLoadStore, withReq_of_event he rfl]
  simp only [hp, Bool.false_eq_true, if_false]
  split <;> rfl

/-- At the owning core it is performed. -/
theorem exec_codeLoadStore_of_here (he : s.event = some (.codeLoadStore r))
    (hh : r.entered = true ∨ ∀ g, r.agent ≠ .gateway g) (hp : s.taken.populated r.pa = true) :
    exec .codeLoadStore s = .next (s.taken.perform (s.taken.stamp r)) := by
  show execCodeLoadStore s = _
  rw [execCodeLoadStore, withReq_of_event he rfl]
  simp only [hp, if_true]
  split
  next g hg hent =>
    obtain hh | hh := hh
    · rw [hent] at hh; cases hh
    · exact absurd hg (hh g)
  next => rfl

/-- A host's enters the network first. -/
theorem exec_codeLoadStore_of_host {g : Nat} (he : s.event = some (.codeLoadStore r)) (ha : r.agent = .gateway g)
    (hn : r.entered = false) (hp : s.taken.populated r.pa = true) :
    exec .codeLoadStore s = .next (s.taken.hostStore g r) := by
  show execCodeLoadStore s = _
  rw [execCodeLoadStore, withReq_of_event he rfl]
  simp only [ha, hn, hp, if_true]

end

/-! ### Serving (R60, R73, R136, R142) -/

section
variable {s : State} {r : Req}

theorem State.serveNow_of_read {n : Nat} (h : r.acc = .read n) : s.serveNow r = s.serveRead r n := by
  rw [State.serveNow, h]

theorem State.serveNow_of_red {op : RmwOp} {n : Nat} {v : Word} (h : r.acc = .red op n v) :
    s.serveNow r = s.serveRed r op n v := by
  rw [State.serveNow, h]

theorem State.serveRead_of_fault {n : Nat} {t : TrapRec} (h : s.readFault r n = some t) :
    s.serveRead r n = (s.reportAt r.pa).reply r [] (some t) := by
  rw [State.serveRead, State.serveReadFor, h]
  rfl

/-- No pool line holds a byte outside the pool. -/
theorem State.poolData_eq_none {pa : Nat} (h : isPool pa = false) : s.poolData pa = none := by
  rw [State.poolData, h]
  rfl

theorem State.poolEnsure_of_not_pool {pa : Nat} (pol : BitVec 32) (h : isPool pa = false) : s.poolEnsure pa pol = s := by
  rw [State.poolEnsure, h]
  rfl

theorem length_memBytes (m : List Host.Cell) (a n : Nat) : (memBytes m a n).length = n := by
  induction n generalizing a with
  | zero => rfl
  | succ n ih => rw [memBytes, List.length_cons, ih]

theorem State.length_homeBytes {pa : Nat} (n : Nat) (h : isPool pa = false) : (s.homeBytes pa n).length = n := by
  rw [State.homeBytes, State.poolData_eq_none h]
  split
  · exact List.length_replicate
  · exact length_memBytes ..

theorem State.conflicts_fixIn (s : State) (a m pa n : Nat) (who : Agent) (sent : Nat) :
    (s.fixIn a m).conflicts pa n who sent = s.conflicts pa n who sent := by
  obtain ⟨secs, cores, copses, he, -⟩ := s.fixWords_frame a (wordsOf a m)
  rw [State.fixIn, he]
  rfl

/-- With no write in conflict a read returns the bytes as they are. -/
theorem State.mixRead_of_no_conflict {pa sent : Nat} {bs : List Byte} {who : Agent}
    (h : s.conflicts pa bs.length who sent = []) : s.mixRead pa bs who sent = (bs, s) := by
  rw [State.mixRead, h]

/-- A read that its checks let through is answered with the bytes at the home; only words are corrected. -/
theorem State.serveRead_of_sound {n : Nat} (hf : s.readFault r n = none) (hc : s.conflicts r.pa n r.agent r.sent = [])
    (hp : isPool r.pa = false) : ∃ u : State, s.serveRead r n = u.reply r (s.homeBytes r.pa n) none ∧ u.mem = s.mem := by
  have hfixed : ∀ a m, (s.fixIn a m).mixRead r.pa ((s.fixIn a m).homeBytes r.pa n) r.agent r.sent =
      (s.homeBytes r.pa n, s.fixIn a m) := fun a m => by
    rw [State.homeBytes_fixIn]
    exact State.mixRead_of_no_conflict (by rw [State.length_homeBytes n hp, State.conflicts_fixIn, hc])
  have hread : ∃ a m, (if r.install then s.fixIn (r.pa / 128 * 128) 128 else s.fixIn r.pa n) = s.fixIn a m := by
    split
    · exact ⟨_, _, rfl⟩
    · exact ⟨_, _, rfl⟩
  obtain ⟨a, m, hread⟩ := hread
  refine ⟨s.fixIn a m, ?_, State.fixIn_mem ..⟩
  rw [State.serveRead, State.serveReadFor, hf]
  simp only [State.poolEnsure_of_not_pool r.pol hp, hread, hfixed]
  rfl

theorem State.serveRed_of_sound {op : RmwOp} {n : Nat} {v : Word} (h : s.lost r.pa n = false) :
    s.serveRed r op n v = ((s.poolEnsure r.pa r.pol).fixIn r.pa n).serveWrite r
      ((toBytes n (rmw op n (ofBytes (s.homeBytes r.pa n)) v.toNat 0)).map some) := by
  rw [State.serveRed, h]
  rfl

theorem State.serveRed_of_lost {op : RmwOp} {n : Nat} {v : Word} (h : s.lost r.pa n = true) :
    s.serveRed r op n v = (s.reportAt r.pa).ackWrite r
      (some (writeTrap .uncorrectableData (r.va + s.badOff r.pa n) r.blockp true)) := by
  rw [State.serveRed, h]
  rfl

theorem State.serveWrite_of_mixed {bs : List (Option Byte)} (h : s.mixed r.ctx r.pa bs.length r.agent (s.cameAt r) = true) :
    s.serveWrite r bs = s.ackWrite r (some (writeTrap .mixedShape (r.va + s.mixedOff r bs.length) r.blockp true)) := by
  rw [State.serveWrite, h]
  rfl

end

/-- Settles O47: each step of a home by its request, code-loading stores and pool misses, and what serving answers. -/
theorem homeAccesses : Obligations.HomeAccesses := by
  refine ⟨servesAt_of_homeStep (fun s => show execScratchpadAccess s = _ from rfl) fun _ => rfl,
    servesAt_of_homeStep (fun s => show execPoolAccess s = _ from rfl) fun _ => rfl,
    servesAt_of_homeStep (fun s => show execSliceAccess s = _ from rfl) fun _ => rfl,
    servesAt_of_homeStep (fun s => show execReductionApply s = _ from rfl) fun _ => rfl,
    servesAt_of_homeStep (fun s => show execGatherHomeRead s = _ from rfl) fun _ => rfl,
    servesAt_of_homeStep (fun s => show execStwApply s = _ from rfl) fun _ => rfl,
    fun r => ⟨fun hr s he ⟨hh, hp, hw⟩ => ?_, fun s he hp => exec_codeLoadStore_of_absent he hp,
      fun g c ha hn s he ⟨hp, hc⟩ => ?_, fun hr => overLink_of_exec fun s he => ?_⟩,
    fun s r hw => State.serve_of_free hw,
    fun s r n ha => ⟨fun t ht => ?_, fun hf hc hp => ?_⟩,
    fun s r op n v ha => ⟨fun hl => ?_, fun hl => ?_⟩,
    fun s r bs hm => State.serveWrite_of_mixed hm⟩
  · have hplain : plainAcc (s.taken.stamp r).acc := hr
    rw [exec_codeLoadStore_of_here he hh hp, State.perform_of_plain _ hplain, State.serve_of_free hw]
  · rw [exec_codeLoadStore_of_host he ha hn hp, State.hostStore, hc]
  · simp only [← State.perform_of_plain _ hr]
    show execPoolCacheMiss s = _
    rw [execPoolCacheMiss, withReq_of_event he rfl]
  · rw [State.serveNow_of_read ha, State.serveRead_of_fault ht]
  · rw [State.serveNow_of_read ha]
    exact State.serveRead_of_sound hf hc hp
  · rw [State.serveNow_of_red ha, State.serveRed_of_sound hl]
  · rw [State.serveNow_of_red ha, State.serveRed_of_lost hl]
    rfl

end Sys2Proof.Machine
end

section
/-!
Copies run in halves, land and abort; runnel words move (R65, R150, R328, R330 to R333, R335, R336, R435).
-/

namespace Sys2Proof.Machine
open Sys2Proof Sys2Proof.Claims

/-! ### Steps about a copy (R328, R330, R333) -/

/-- The step of a copy finds it by its core and tag. -/
theorem withCopy_of_event {s : State} {ev : Event} {get : Event → Option (Nat × Nat)} {body : State → Nat → Copy → State}
    {c t : Nat} {x : Copy} (he : s.event = some ev) (hg : get ev = some (c, t)) (hx : (s.core c).copy? t = some x) :
    withCopy s get body = .next (body s.taken c x) := by
  rw [withCopy, he, Option.bind_some, hg]
  simp only [hx]

section
variable {s : State} {c t : Nat} {x : Copy}

theorem exec_copyRun_of_turn (he : s.event = some (.copyRun c t)) (hx : (s.taken.core c).copy? t = some x)
    (hr : s.taken.copyCanRun c x = true) (ht : s.taken.copyTurn (c / 8) = some (c, x.tag)) :
    exec .copyRun s = .next ((s.taken.modCopse (c / 8) fun y => { y with rr := c % 8 * 64 + x.tag }).copyRun c x) := by
  show execCopyRun s = _
  rw [execCopyRun, withCopy_of_event he rfl hx]
  simp only [hr, ht, Bool.true_and, BEq.rfl, if_true]

theorem exec_copyLanded_of_landed (he : s.event = some (.copyLanded c t)) (hx : (s.taken.core c).copy? t = some x)
    (hl : s.taken.copyCanLand x = true) : exec .copyLanded s = .next (s.taken.copyEnd c x.tag true false) := by
  show execCopyLanded s = _
  rw [execCopyLanded, withCopy_of_event he rfl hx]
  simp only [hl, if_true]

/-- The switch's notice of an abort ends the copy that it names, and no later one of the tag. -/
theorem exec_fabricAborted_of_copy {i : Nat} (he : s.event = some (.fabricAborted c t i))
    (hx : (s.taken.core c).copy? t = some x) :
    exec .fabricAborted s =
      .next (if x.desc.opc = 6 ∧ x.inst = i then s.taken.copyEnd c t false true else s.taken) := by
  show execFabricAborted s = _
  simp only [execFabricAborted, he, hx, Bool.and_eq_true, beq_iff_eq]

/-- A late participant, the only one, aborts its collective (R435). -/
theorem exec_collectiveTimeout_of_only {g : Collective} (he : s.event = some (.collectiveTimeout c t)) (hc : g.core = c)
    (ht : g.tag = t) (hl : s.taken.collectiveLate c t = true) (hg : s.taken.colls = [g]) :
    exec .collectiveTimeout s = .next (s.taken.due (.fabricAborted c t g.inst)) := by
  have hg : s.colls = [g] := hg
  subst hc ht
  show execCollectiveTimeout s = _
  simp [execCollectiveTimeout, he, hl, hg]

/-! ### The two halves of a run (R150, R153, R328) -/

theorem State.copySource_of_last {n : Nat} (h : x.desc.total ≤ x.resume + n) :
    s.copySource c x n = s.modCore c fun k => { k with ctagf := setBit k.ctagf x.tag true } := if_pos h

theorem State.copyRun_of_read {run : List RunElem} (h : x.buf = some run) : s.copyRun c x = s.copyWrite c x run := by
  rw [State.copyRun, h]

/-- A run that holds its translations is written under them. -/
theorem State.copyWrite_of_translated {run : List RunElem} {u : State} (h : x.translated = true)
    (hw : s.writeElems (c / 8) x.desc ((run.map fun e => (e.dst, e.val)).zip
      (run.map fun e => partsAt (e.at_.getD []))) = .done u) :
    s.copyWrite c x run = u.copyAdvance c x run.length := by
  simp only [State.copyWrite, h, if_true, hw]

/-- One that has lost them is translated again. -/
theorem State.copyWrite_of_checked {run : List RunElem} {v u : State} {ps : List (List Part)} (h : x.translated = false)
    (hc : s.checkDests (c / 8) x.desc (run.map fun e => e.dst) = (v, .ok ps))
    (hw : v.writeElems (c / 8) x.desc ((run.map fun e => (e.dst, e.val)).zip ps) = .done u) :
    s.copyWrite c x run = u.copyAdvance c x run.length := by
  simp only [State.copyWrite, h, Bool.false_eq_true, if_false, hc, hw]

/-! ### The result of a chunk (R435) -/

variable {i n : Nat} {data : List Byte}

/-- It waits for a copy that has been saved with its drover. -/
theorem exec_fabricChunkResult_of_saved (he : s.event = some (.fabricChunkResult c t i n data))
    (hx : (s.taken.core c).copy? t = none) (hc : s.taken.inCollective c t i = true) :
    exec .fabricChunkResult s = .next (s.taken.due (.fabricChunkResult c t i n data)) := by
  show execFabricChunkResult s = _
  simp only [execFabricChunkResult, he, hx, hc, if_true]

/-- One for another copy of the tag, or one that is not whole, is dropped. -/
theorem exec_fabricChunkResult_of_foreign (he : s.event = some (.fabricChunkResult c t i n data))
    (hx : (s.taken.core c).copy? t = some x) (hd : x.inst ≠ i ∨ data.length ≠ x.desc.chunkBytes n) :
    exec .fabricChunkResult s = .next s.taken := by
  have hdrop : (x.desc.opc != 6 || x.inst != i || x.wrote.contains n || x.chunks.length ≤ n ||
      data.length != x.desc.chunkBytes n) = true := by
    obtain hd | hd := hd
    · simp [hd]
    · simp [hd]
  show execFabricChunkResult s = _
  simp only [execFabricChunkResult, he, hx, hdrop, if_true]

/-- The result of a chunk of a running copy is whole and new. -/
structure ChunkDue (x : Copy) (n : Nat) (data : List Byte) : Prop where
  opc : x.desc.opc = 6
  fresh : n ∉ x.wrote
  sent : n < x.chunks.length
  running : x.state = .running
  whole : data.length = x.desc.chunkBytes n

section
variable (he : s.event = some (.fabricChunkResult c t x.inst n data)) (hx : (s.taken.core c).copy? t = some x)
  (hd : ChunkDue x n data)
include he hx hd

/-- Where its elements cannot be placed the copy stops, and the result waits (R329). -/
theorem exec_fabricChunkResult_of_unplaced {u : State} {r : TrapRec}
    (hc : s.taken.checkDests (c / 8) x.desc
      ((x.desc.chunkElems data (natAt x.chunks n) x.desc.total).map Prod.fst) = (u, .error r)) :
    exec .fabricChunkResult s = .next ((u.chunkStop c x n r).due (.fabricChunkResult c t x.inst n data)) := by
  obtain ⟨h6, hw, hn, hr, hl⟩ := hd
  have hn : ¬ x.chunks.length ≤ n := Nat.not_le.2 hn
  show execFabricChunkResult s = _
  simp [execFabricChunkResult, he, hx, h6, hw, hn, hr, hl, hc]

/-- Placed, it is written and its bit set. -/
theorem exec_fabricChunkResult_of_written {u v w : State} {ps : List (List Part)}
    (hc : s.taken.checkDests (c / 8) x.desc
      ((x.desc.chunkElems data (natAt x.chunks n) x.desc.total).map Prod.fst) = (u, .ok ps))
    (hv : u.writeElems (c / 8) x.desc ((x.desc.chunkElems data (natAt x.chunks n) x.desc.total).zip ps) = .done v)
    (hb : v.setBitmap (c / 8) x.desc n = .done w) :
    exec .fabricChunkResult s = .next (w.modCopy c t fun y => { y with
      wrote := y.wrote ++ [n], drain := if polScope y.desc.pol == 5 then some w.drainRequest else none }) := by
  obtain ⟨h6, hw, hn, hr, hl⟩ := hd
  have hn : ¬ x.chunks.length ≤ n := Nat.not_le.2 hn
  show execFabricChunkResult s = _
  simp [execFabricChunkResult, he, hx, h6, hw, hn, hr, hl, hc, hv, hb]

end

end

/-! ### Runnels (R335, R336) -/

/-- The step of a port finds it by its core, slot and number. -/
theorem withPort_of_event {s : State} {ev : Event} {get : Event → Option (Nat × Nat × Nat)}
    {body : State → Nat → Nat → Nat → Port → State} {c k p : Nat} {x : Port} (he : s.event = some ev)
    (hg : get ev = some (c, k, p)) (hx : (s.slot c k).th.ports.get? p = some x) :
    withPort s get body = .next (body s.taken c k p x) := by
  rw [withPort, he, Option.bind_some, hg]
  simp only [hx]

section
variable {s : State} {c k p : Nat} {x : Port}

section
variable {v : State} (he : s.event = some (.runnelFillFetch c k p)) (hx : (s.slot c k).th.ports.get? p = some x)
  (hf : x.canFetch = true) (hh : s.taken.readHeld (.copse (c / 8)) x.ctx x.priv (patAddr x.pat x.pos) 8 = false)
include he hx hf hh

/-- A fill fetches the next word of its pattern. -/
theorem exec_runnelFillFetch_of_read {bs : List Byte}
    (hr : s.taken.readVa (.copse (c / 8)) (.feeder c k p) x.ctx x.priv (patAddr x.pat x.pos) 8
      (coverWord (patAddr x.pat x.pos) 8) x.pol = (v, .ok bs)) :
    exec .runnelFillFetch s = .next (v.modPort c k p fun y =>
      { y with buf := y.buf ++ [some (wd (ofBytes bs))], pos := y.pos + 1 }) := by
  show execRunnelFillFetch s = _
  rw [execRunnelFillFetch, withPort_of_event he rfl hx]
  simp only [hf, hh, hr, Bool.not_true, Bool.or_false, Bool.false_eq_true, if_false]

/-- It keeps the record of an access that fails. -/
theorem exec_runnelFillFetch_of_fault {r : TrapRec}
    (hr : s.taken.readVa (.copse (c / 8)) (.feeder c k p) x.ctx x.priv (patAddr x.pat x.pos) 8
      (coverWord (patAddr x.pat x.pos) 8) x.pol = (v, .error r)) :
    exec .runnelFillFetch s = .next (v.modPort c k p fun y => { y with buf := y.buf ++ [none], err := some r }) := by
  show execRunnelFillFetch s = _
  rw [execRunnelFillFetch, withPort_of_event he rfl hx]
  simp only [hf, hh, hr, Bool.not_true, Bool.or_false, Bool.false_eq_true, if_false]

end

/-- A drain whose checks pass writes its first word. -/
theorem exec_runnelDrainWrite_of_written {w : Word} {rest : List (Option Word)} {v t : State} {ps : List Part}
    (he : s.event = some (.runnelDrainWrite c k p)) (hx : (s.slot c k).th.ports.get? p = some x)
    (hd : x.canDrain = true) (hb : x.buf = some w :: rest)
    (hc : s.taken.checkBytes (.copse (c / 8)) x.ctx x.priv (patAddr x.pat x.pos) 8 false true = (v, .ok ps))
    (hw : v.writeParts (.feeder c k p) x.ctx (patAddr x.pat x.pos) (toBytes 8 w.toNat) 0 x.pol ps = .done t) :
    exec .runnelDrainWrite s = .next (t.portWrote c k p) := by
  show execRunnelDrainWrite s = _
  rw [execRunnelDrainWrite, withPort_of_event he rfl hx]
  simp only [hd, hb, hc, hw]

end

/-! ### Words and credits of a link (R335, R100) -/

section
variable {s : State} {c ctx l d id : Nat}

/-- A word reaches its peer, or returns as a misroute; either way its sender has one fewer unacknowledged. -/
theorem exec_neighbourWord {w : Word} (he : s.event = some (.neighbourWord c ctx l d id w)) :
    exec .neighbourWord s = .next (State.peerPort
      (if s.taken.hosts c ctx then s.taken.modCore c fun k => { k with links := k.links ++ [(l, d, id, w)] }
        else s.taken.notHosted c ctx) d l c id fun p => { p with unack := p.unack - 1 }) := by
  show execNeighbourWord s = _
  simp only [execNeighbourWord, he]

theorem exec_neighbourCredit_of_hosted (he : s.event = some (.neighbourCredit c ctx l d id))
    (hh : s.taken.hosts c ctx = true) : exec .neighbourCredit s =
      .next (s.taken.peerPort c l d id fun p => { p with credits := min 16 (p.credits + 1) }) := by
  show execNeighbourCredit s = _
  simp only [execNeighbourCredit, he, hh, if_true]

end

/-- Settles O56: the steps of copies, then those of runnels. -/
theorem copyAndRunnelSteps : Obligations.CopyAndRunnelSteps := by
  refine ⟨fun c t x s he ⟨hx, hr, ht⟩ => exec_copyRun_of_turn he hx hr ht,
    fun c t x s he ⟨hx, hl⟩ => exec_copyLanded_of_landed he hx hl,
    fun c t x s he ⟨hx, h6⟩ => ?_, fun c t x i hi s he hx => ?_,
    fun c t g hc ht s he ⟨hl, hg⟩ => exec_collectiveTimeout_of_only he hc ht hl hg,
    fun s c x n h => State.copySource_of_last h,
    fun s c x run t hb h hw => (State.copyRun_of_read hb).trans (State.copyWrite_of_translated h hw),
    fun s c x run v ps t hb h hc hw => (State.copyRun_of_read hb).trans (State.copyWrite_of_checked h hc hw),
    fun s c t n data x he hx h6 hw hn hr hl => ⟨fun u r hc => ?_, fun u ps v w hc hv hb => ?_⟩,
    fun c t i n data s he ⟨hx, hc⟩ => exec_fabricChunkResult_of_saved he hx hc,
    fun c t i n data x hd s he hx => exec_fabricChunkResult_of_foreign he hx hd,
    fun s c k p x he hx hf hh v => ⟨fun bs hr => exec_runnelFillFetch_of_read he hx hf hh hr,
      fun r hr => exec_runnelFillFetch_of_fault he hx hf hh hr⟩,
    fun s c k p x w rest v ps t he hx hd hb hc hw => exec_runnelDrainWrite_of_written he hx hd hb hc hw,
    fun c ctx l d id w s he hh => ?_, fun c ctx l d id w s he hh => ?_,
    fun c ctx l d id s he hh => exec_neighbourCredit_of_hosted he hh⟩
  · rw [exec_fabricAborted_of_copy he hx, if_pos ⟨h6, rfl⟩]
  · rw [exec_fabricAborted_of_copy he hx, if_neg fun ⟨_, h⟩ => hi h]
    rfl
  · exact exec_fabricChunkResult_of_unplaced he hx (.mk h6 (by simpa using hw) hn hr hl) hc
  · exact exec_fabricChunkResult_of_written he hx (.mk h6 (by simpa using hw) hn hr hl) hc hv hb
  · rw [exec_neighbourWord he, if_pos hh]
  · rw [exec_neighbourWord he, if_neg (Bool.eq_false_iff.1 hh)]
    rfl

end Sys2Proof.Machine
end

section
/-!
The gateways' steps: host accesses, pre-copy, streams, START and timeouts (R64, R117, R393 to R395, R433, R434, R441).
-/

namespace Sys2Proof.Machine
open Sys2Proof Sys2Proof.Claims

/-! ### Streams (R393 to R395) -/

/-- A change of a stream is what it makes of the stream as it stands. -/
theorem State.modStream_congr {s : State} {g i : Nat} {f f' : Stream → Stream} (h : f (s.stream g i) = f' (s.stream g i)) :
    s.modStream g i f = s.modStream g i f' :=
  congrArg (fun x => s.setGw g { s.gw g with streams := (s.gw g).streams.put i x }) h

section
variable {x : Stream} {now : Nat} {e : Event} {r : Option (Option Event)}

/-- Behind a held packet every other is held. -/
theorem Stream.offer_of_held (h : x.held ≠ []) : x.offer now e r = { x with held := x.held ++ [e] } := by
  rw [Stream.offer, if_pos]
  simpa using h

/-- With the next key not programmed there is no switch: a packet goes under the key in use while that has a value left. -/
theorem Stream.offer_of_current (h : x.held = []) (hn : x.nkr = false) (hc : x.cnt ≠ cntEnd) :
    x.offer now e r = x.send now r := by
  simp only [Stream.offer, h, hn, beq_eq_false_iff_ne.2 hc, List.isEmpty_nil, Bool.not_true, Bool.false_and,
    Bool.false_eq_true, if_false]

/-- At the key's end it is held. -/
theorem Stream.offer_of_exhausted (h : x.held = []) (hn : x.nkr = false) (hc : x.cnt = cntEnd) :
    x.offer now e r = { x with exh := true, held := [e] } := by
  simp only [Stream.offer, h, hn, hc, BEq.rfl, List.isEmpty_nil, Bool.not_true, Bool.false_and, Bool.false_eq_true,
    if_false, if_true]

/-- With it programmed, an early switch or the end of the key puts the packet first under the next phase. -/
theorem Stream.offer_of_switch (h : x.held = []) (hn : x.nkr = true) (hs : x.early = true ∨ x.cnt = cntEnd) :
    x.offer now e r = (x.switch now).send now r := by
  have hdue : (x.nkr && (x.early || x.cnt == cntEnd)) = true := by simpa [hn] using hs
  have hcnt : ((x.switch now).cnt == cntEnd) = false :=
    show (0 == cntEnd) = false by decide
  simp only [Stream.offer, h, hdue, hcnt, List.isEmpty_nil, Bool.not_true, Bool.false_eq_true, if_false, if_true]

theorem Stream.receive_of_unheld {ph c : Bool} (h : x.holds ph = false) :
    x.receive ph c = { x with integ := x.integ + 1 } := by
  rw [Stream.receive, h]
  rfl

end

section
variable {s : State} {g i : Nat}

theorem exec_streamSend {r : Bool} (he : s.event = some (.streamSend g i r)) :
    exec .streamSend s = .next (s.taken.sealPkt g i (.streamSend g i r) (if r then some none else none)) := by
  show execStreamSend s = _
  simp only [execStreamSend, he]

theorem exec_streamReceive {a b : Bool} (he : s.event = some (.streamReceive g i a b)) :
    exec .streamReceive s = .next (s.taken.modStream g i fun x => x.receive a b) := by
  show execStreamReceive s = _
  simp only [execStreamReceive, he]

theorem exec_oldKeyTimeout_of_due (he : s.event = some (.oldKeyTimeout g i))
    (hd : (s.taken.stream g i).oldDue s.taken.clock = true) :
    exec .oldKeyTimeout s = .next (s.taken.modStream g i Stream.dropOld) := by
  show execOldKeyTimeout s = _
  simp only [execOldKeyTimeout, he, hd, if_true]

/-- A late request times out, and its step is no longer due (R395). -/
theorem exec_completionTimeout_of_late {t : Tag} {r : Sent} {e : Event} (he : s.event = some (.completionTimeout g i t))
    (hr : ((s.taken.stream g i).out.find? fun r => (s.taken.stream g i).late s.taken.clock r &&
      ((r.step.bind reqOf).any fun q => q.tag == t)) = some r) (hs : r.step = some e) :
    exec .completionTimeout s = .next (((s.taken.unsend g i e).forget e).timedOut e) := by
  show execCompletionTimeout s = _
  simp only [execCompletionTimeout, he, hr, hs]

end

/-! ### Host accesses (R117, R394, R395, R441) -/

section
variable {s : State} {g off : Nat} {acc : Access} {ph : Bool}

theorem exec_gatewayDrain (he : s.event = some (.gatewayDrain g)) :
    exec .gatewayDrain s = .next (s.taken.modGw g fun x => { x with biDone := x.biDone + x.biq.length, biq := [] }) := by
  show execGatewayDrain s = _
  simp only [execGatewayDrain, he]

variable (he : s.event = some (.hostMemAccess g off acc ph))
include he

/-- Under a phase whose key is not held it is an integrity error. -/
theorem exec_hostMemAccess_of_unheld (hh : (s.taken.stream g 0).holds ph = false) :
    exec .hostMemAccess s = .next (s.taken.modStream g 0 fun x => { x with integ := x.integ + 1 }) := by
  show execHostMemAccess s = _
  simp only [execHostMemAccess, he, hh, Bool.not_false, if_true]
  exact congrArg _ (State.modStream_congr (Stream.receive_of_unheld hh))

/-- While the gateway cannot answer it is held. -/
theorem exec_hostMemAccess_of_stuck (hh : (s.taken.stream g 0).holds ph = true) (hs : (s.taken.stream g 0).stuck = true) :
    exec .hostMemAccess s = .next (s.taken.sealPkt g 0 (.hostMemAccess g off acc ph) none) := by
  show execHostMemAccess s = _
  simp only [execHostMemAccess, he, hh, hs, Bool.not_true, Bool.false_eq_true, if_false, if_true]
  rfl

theorem exec_hostMemAccess_of_open (hh : (s.taken.stream g 0).holds ph = true) (hs : (s.taken.stream g 0).stuck = false) :
    exec .hostMemAccess s = .next (s.taken.hostAccess ⟨g, off, acc, ph⟩) := by
  show execHostMemAccess s = _
  simp only [execHostMemAccess, he, hh, hs, Bool.not_true, Bool.false_eq_true, if_false]

end

section
variable {s : State} {h : HostReq} {w : Window}

theorem State.hostAccess_of_closed (hw : s.windowAt h.off = none) : s.hostAccess h = s.hostRefuse h.gw h.phase h.acc := by
  simp only [State.hostAccess, hw]

theorem State.hostAccess_of_read {n : Nat} (ha : h.acc = .read n) (hw : s.windowAt h.off = some w)
    (hn : n ≤ w.hb + w.len - h.off) : s.hostAccess h = s.hostRead h w (w.vb + (h.off - w.hb)) n := by
  simp only [State.hostAccess, hw, ha, if_pos hn]

theorem State.hostAccess_of_write {bs : List (Option Byte)} (ha : h.acc = .write bs) (hw : s.windowAt h.off = some w)
    (hn : bs.length ≤ w.hb + w.len - h.off) : s.hostAccess h = s.hostWrite h w (w.vb + (h.off - w.hb)) bs := by
  simp only [State.hostAccess, hw, ha, if_pos hn]

end

/-! ### Pre-copy (R49, R434) -/

section
variable {s : State} {c : Nat}

section
variable (he : s.event = some (.precopyPage c)) (hs : (s.taken.stream s.taken.primaryGw migrationStream).stuck = false)
include he hs

/-- The pages of a mark that is cleared go first. -/
theorem exec_precopyPage_of_page (hp : (takePage c s.taken.precopy).isSome = true) :
    exec .precopyPage s = .next (s.taken.sendPage c) := by
  show execPrecopyPage s = _
  simp only [execPrecopyPage, he, hs, hp, Bool.false_eq_true, if_false, if_true]

variable (hp : takePage c s.taken.precopy = none) (ht : (s.taken.ctx c).tctl.getLsbD 0 = true)
include hp ht

/-- Then the next mark is taken, once its word is not reserved. -/
theorem exec_precopyPage_of_mark {m : Nat × Bool × Nat × Nat}
    (hm : s.taken.nextMark c (s.taken.preAt.get c 0) 3 (field (s.taken.ctx c).dtroot 11 45 * 2048) 0 = some m) :
    exec .precopyPage s = .next (if s.taken.reserved m.1 8 then s.taken.again (.precopyPage c)
      else (s.taken.takeMark c m).sendPage c) := by
  show execPrecopyPage s = _
  simp only [execPrecopyPage, he, hs, hp, ht, hm, Option.isSome_none, Bool.not_true, Bool.false_eq_true, if_false]

/-- Behind the last mark the next round begins. -/
theorem exec_precopyPage_of_round
    (hm : s.taken.nextMark c (s.taken.preAt.get c 0) 3 (field (s.taken.ctx c).dtroot 11 45 * 2048) 0 = none) :
    exec .precopyPage s = .next { s.taken with preAt := s.taken.preAt.put c 0 } := by
  show execPrecopyPage s = _
  simp only [execPrecopyPage, he, hs, hp, ht, hm, Option.isSome_none, Bool.not_true, Bool.false_eq_true, if_false]

end

/-- A page that is read is sealed on the migration stream and sent. -/
theorem State.sendPage_of_record {p : Nat} {runs : List (Nat × Nat × Nat)} {u : State} {r : PageRec}
    (hp : takePage c s.precopy = some (p, runs)) (hr : s.readPage c p = (u, .record r)) :
    s.sendPage c = { ({ u with precopy := runs } : State).sealPkt u.primaryGw migrationStream
      (.streamSend u.primaryGw migrationStream false) none with sent := u.sent ++ [r] } := by
  simp only [State.sendPage, hp, hr]
  rfl

/-- The sectors of a received page: address, place, bytes and guard word. -/
def pageWork (p : Nat) (pas : List Nat) (gs : List (BitVec 32)) (data : List Byte) :
    List (Nat × Nat × List Byte × BitVec 32) :=
  pas.zipIdx.map fun x =>
    (p * 4096 + 128 * x.2, x.1, (List.range 128).map (fun j => (data[128 * x.2 + j]?).getD 0), (gs[x.2]?).getD 0)

theorem exec_pageRecordReceive_of_written {p : Nat} {gs : List (BitVec 32)} {data : List Byte} {v t : State} {l : Leaf}
    (he : s.event = some (.pageRecordReceive c p gs data))
    (hx : s.taken.xlate (s.taken.gwXer s.primaryGw) c (p * 4096) = (v, .ok l)) (hk : l.kind ≠ 2)
    (ht : (v.pageSectors l p).all sealedTier = true)
    (hw : v.pageWrite c (l.kid.getD c) (pageWork p (v.pageSectors l p) gs data) = .done t) :
    exec .pageRecordReceive s = .next t := by
  have hx : s.taken.xlate (s.taken.gwXer s.taken.primaryGw) c (p * 4096) = (v, .ok l) := hx
  have hin : (l.kind == 2 || !((v.pageSectors l p).all sealedTier)) = false := by
    rw [ht, beq_eq_false_iff_ne.2 hk]
    rfl
  rw [pageWork] at hw
  show execPageRecordReceive s = _
  simp only [execPageRecordReceive, he, hx, hin, Bool.false_eq_true, if_false, hw]

end

/-! ### GWSTART (R433) -/

theorem exec_gwstartWrite_of_live {s : State} {g : Nat} {v : Word} (he : s.event = some (.gwstartWrite g v))
    (hl : s.taken.dieLive (v.toNat % 2 ^ 11 / 128) = true) :
    exec .gwstartWrite s = .next ((s.taken.modGw g fun x => { x with start := x.start ++ [v.toNat % 2 ^ 11] }).post
      (s.taken.gwStart g (v.toNat % 2 ^ 11))) := by
  have hf : field v 0 11 = v.toNat % 2 ^ 11 := by simp [field, nbits]
  show execGwstartWrite s = _
  simp only [execGwstartWrite, he, State.gwstart, hf, hl, if_true]

/-- Settles O57: the host's accesses, pre-copy, then the streams and what hangs on them. -/
theorem gatewaySteps : Obligations.GatewaySteps := by
  refine ⟨fun g s he _ => exec_gatewayDrain he,
    fun g off acc ph s he hh => exec_hostMemAccess_of_unheld he hh,
    fun g off acc ph s he ⟨hh, hs⟩ => exec_hostMemAccess_of_stuck he hh hs,
    fun g off acc ph s he ⟨hh, hs, hw⟩ => ?_, fun g off n w ph s he ⟨hh, hs, hw, hn⟩ => ?_,
    fun g off bs w ph s he ⟨hh, hs, hw, hn⟩ => ?_, fun s g ph n => rfl,
    fun c s he ⟨hs, hp⟩ => exec_precopyPage_of_page he hs hp,
    fun c m s he ⟨hs, hp, ht, hm⟩ => exec_precopyPage_of_mark he hs hp ht hm,
    fun c s he ⟨hs, hp, ht, hm⟩ => exec_precopyPage_of_round he hs hp ht hm,
    fun s c p runs u r hp hr => ⟨_, State.sendPage_of_record hp hr, rfl, rfl⟩,
    fun s c p gs data v l t he hx hk ht hw => exec_pageRecordReceive_of_written he hx hk ht hw,
    fun g i r s he _ => exec_streamSend he, fun s g i e r => ?_,
    fun x now e r hh hn hc => ?_, fun x now e r hh hn hc => ?_, fun x now e r hh => Stream.offer_of_held hh,
    fun x now e r hh hn hs => ?_, fun g i a b s he _ => exec_streamReceive he,
    fun g i s he hd => exec_oldKeyTimeout_of_due he hd, fun x ph c h => Stream.receive_of_unheld h,
    fun g i t r e s he ⟨hr, hs⟩ => exec_completionTimeout_of_late he hr hs,
    fun g v s he hl => exec_gwstartWrite_of_live he hl⟩
  · rw [exec_hostMemAccess_of_open he hh hs, State.hostAccess_of_closed hw]
  · rw [exec_hostMemAccess_of_open he hh hs, State.hostAccess_of_read rfl hw hn]
  · rw [exec_hostMemAccess_of_open he hh hs, State.hostAccess_of_write rfl hw hn]
  · simp only [State.sealPkt, Bool.and_eq_true, Bool.not_eq_true']
    rfl
  · rw [Stream.offer_of_current hh hn (Nat.ne_of_lt hc)]
    exact ⟨rfl, hh, rfl⟩
  · rw [Stream.offer_of_exhausted hh hn hc]
    exact ⟨rfl, rfl, rfl⟩
  · rw [Stream.offer_of_switch hh hn hs]
    exact ⟨rfl, rfl, rfl⟩

end Sys2Proof.Machine
end

section
/-!
Mailboxes and messages: what MBXW, MBXR, SEND, WAITMSG and MSGPOP do when they fire (R98, R319, R336 to R338).
-/

namespace Sys2Proof.Machine
open Sys2Proof Sys2Proof.Claims

/-! ### The entries of a channel (R338) -/

/-- A claimed entry is not seen by a later WAITMSG or MSGPOP. -/
theorem poppable_claimed (e : Entry) (ch k : Nat) : poppable { e with claim := some k } ch = false := by
  simp [poppable]

/-- Claiming the first entry of a channel takes it from those seen. -/
theorem filter_claimFirst (ch k : Nat) (es : List Entry) :
    (claimFirst ch k es).filter (poppable · ch) = (es.filter (poppable · ch)).tail := by
  induction es with
  | nil => rfl
  | cons e es ih =>
    by_cases he : poppable e ch = true
    · simp [claimFirst, he, poppable_claimed]
    · simp [claimFirst, he, ih]

/-- A core whose first entry of a channel is claimed by slot `i`: in its queue, or else in its spill. -/
def Core.claimEntry (k : Core) (ch i : Nat) : Core :=
  if k.aq.any fun x => poppable x ch then { k with aq := claimFirst ch i k.aq }
  else { k with spill := claimFirst ch i k.spill }

theorem Core.entriesOf_claimEntry (k : Core) (ch i : Nat) :
    (k.claimEntry ch i).entriesOf ch = (k.entriesOf ch).tail := by
  unfold Core.claimEntry
  split
  · next hq =>
    have hne : k.aq.filter (poppable · ch) ≠ [] := by simpa [List.filter_eq_nil_iff] using hq
    simp only [Core.entriesOf, List.filter_append, filter_claimFirst, List.tail_append_of_ne_nil hne]
  · next hq =>
    have hnil : k.aq.filter (poppable · ch) = [] := by simpa [List.filter_eq_nil_iff] using hq
    simp only [Core.entriesOf, List.filter_append, filter_claimFirst, hnil, List.nil_append]

section
variable {f : Form} {s : State} {is : Iss}

/-! ### MBXW and MBXR (R319) -/

theorem exec_mbxw_of_empty (h : Fires (.mbxw f) s is) (hok : mbxwOk is = true)
    (he : (s.box is.c (selSlot is.lw) (selBox is.lw)).mayWrite = true) :
    exec (.mbxw f) s = .next ((s.modBox is.c (selSlot is.lw) (selBox is.lw) fun m => { m with claim := some is.k }).fireDue
      is (.mbxw (selSlot is.lw) (selBox is.lw) is.r.bytes)) := by
  obtain ⟨his, hb, hn, hr⟩ := h
  show execMbxw f s = _
  rw [execMbxw, issueWhen_of_fires his hb hn hr (by simp [mbxwWaits, he])]
  simp [hok]

theorem exec_mbxw_of_badSelector (h : Fires (.mbxw f) s is) (hok : mbxwOk is = false) :
    exec (.mbxw f) s = .next (s.trapAt is .badControlValue) := by
  obtain ⟨his, hb, hn, hr⟩ := h
  show execMbxw f s = _
  rw [execMbxw, issueWhen_of_fires his hb hn hr (by simp [mbxwWaits, hok])]
  simp [hok]

theorem exec_mbxr_of_full {k : Nat} (h : Fires (.mbxr f) s is) (hok : mbxrOk is = true) (hk : mbxrSource is s = some k) :
    exec (.mbxr f) s =
      let b := if selAny is.lw then 0 else selBox is.lw
      .next ((((s.modBox is.c k b fun m => { m with claim := some is.k }).modFlight is.c is.k fun fl =>
        { fl with due := fl.due ++ [⟨is.lsn, is.pos, .mbxr k b (selAny is.lw)⟩] })).emit2 is
          (fullVec (s.box is.c k b).data) (.sc (wd k))) := by
  obtain ⟨his, hb, hn, hr⟩ := h
  show execMbxr f s = _
  rw [execMbxr, issueWhen_of_fires his hb hn hr (by simp [mbxrWaits, hk])]
  simp [hok, hk]

theorem exec_mbxr_of_badSelector (h : Fires (.mbxr f) s is) (hok : mbxrOk is = false) :
    exec (.mbxr f) s = .next (s.trapAt is .badControlValue) := by
  obtain ⟨his, hb, hn, hr⟩ := h
  show execMbxr f s = _
  rw [execMbxr, issueWhen_of_fires his hb hn hr (by simp [mbxrWaits, hok])]
  simp [hok]

/-- A burr has no mailboxes. -/
theorem mbxOk_of_burr (h : is.burr = true) : mbxwOk is = false ∧ mbxrOk is = false := by
  simp [mbxwOk, mbxrOk, h]

/-! ### SEND and SEND.ord (R98, R337) -/

section
variable {i : Instr} {ord : Bool}

theorem sendAt_of_badStile (h : Fires i s is) (hl : 64 ≤ is.lw.toNat) :
    sendAt i s ord = .next (s.trapAt is .badControlValue) := by
  obtain ⟨his, hb, hn, hr⟩ := h
  exact (issue_of_fires his hb hn hr).trans (if_pos hl)

theorem sendAt_of_refused {c : Cause} (h : Fires i s is) (hl : is.lw.toNat < 64)
    (hc : sendChan is ((s.core is.c).stile.get is.lw.toNat 0) = .error c) : sendAt i s ord = .next (s.trapAt is c) := by
  obtain ⟨his, hb, hn, hr⟩ := h
  rw [sendAt, issue_of_fires his hb hn hr, if_neg (Nat.not_le.2 hl)]
  simp only [hc]

theorem sendAt_of_channel {ch : Nat} (h : Fires i s is) (hl : is.lw.toNat < 64)
    (hc : sendChan is ((s.core is.c).stile.get is.lw.toNat 0) = .ok ch) :
    sendAt i s ord = .next (s.fireDue is (.send ((s.core is.c).stile.get is.lw.toNat 0) ch is.r.bytes ord)) := by
  obtain ⟨his, hb, hn, hr⟩ := h
  rw [sendAt, issue_of_fires his hb hn hr, if_neg (Nat.not_le.2 hl)]
  simp only [hc]

/-- The two sends differ only in the mark of order. -/
theorem exec_send_or_sendOrd (hi : (i = .send f ∧ ord = false) ∨ (i = .sendOrd f ∧ ord = true)) :
    exec i s = sendAt i s ord := by
  obtain ⟨rfl, rfl⟩ | ⟨rfl, rfl⟩ := hi
  · rfl
  · rfl

end

/-! ### WAITMSG and MSGPOP (R338) -/

theorem exec_waitmsg_of_badChannel (h : Fires (.waitmsg f) s is) (hl : 64 ≤ is.lw.toNat) :
    exec (.waitmsg f) s = .next (s.trapAt is .badControlValue) := by
  obtain ⟨his, hb, hn, hr⟩ := h
  show execWaitmsg f s = _
  rw [execWaitmsg, issueWhen_of_fires his hb hn hr (by simp [waitmsgWaits, Nat.not_lt.2 hl]), if_pos hl]

theorem exec_waitmsg_of_empty (h : Fires (.waitmsg f) s is) (hl : is.lw.toNat < 64)
    (he : (s.core is.c).entriesOf is.lw.toNat = []) : exec (.waitmsg f) s = .next s := by
  obtain ⟨his, hb, hn, hr⟩ := h
  show execWaitmsg f s = _
  exact issueWhen_of_waits his hb hn hr (by simp [waitmsgWaits, hl, he])

theorem exec_waitmsg_of_entries (h : Fires (.waitmsg f) s is) (hl : is.lw.toNat < 64)
    (he : (s.core is.c).entriesOf is.lw.toNat ≠ []) :
    exec (.waitmsg f) s = .next (s.emit is (.sc (wd ((s.core is.c).entriesOf is.lw.toNat).length))) := by
  obtain ⟨his, hb, hn, hr⟩ := h
  show execWaitmsg f s = _
  rw [execWaitmsg, issueWhen_of_fires his hb hn hr (by simp [waitmsgWaits, he]), if_neg (Nat.not_le.2 hl)]

theorem exec_msgpop_of_refused (h : Fires (.msgpop f) s is)
    (hc : 64 ≤ is.lw.toNat ∨ (s.core is.c).chanOpen is.lw.toNat = true) :
    exec (.msgpop f) s = .next (s.trapAt is .badControlValue) := by
  have hw : msgpopWaits is s = false := by
    obtain hl | ho := hc
    · simp [msgpopWaits, Nat.not_lt.2 hl]
    · simp [msgpopWaits, ho]
  obtain ⟨his, hb, hn, hr⟩ := h
  show execMsgpop f s = _
  rw [execMsgpop, issueWhen_of_fires his hb hn hr hw]
  simp [hc]

theorem exec_msgpop_of_entries {e : Entry} {rest : List Entry} (h : Fires (.msgpop f) s is) (hl : is.lw.toNat < 64)
    (hc : (s.core is.c).chanOpen is.lw.toNat = false) (he : (s.core is.c).entriesOf is.lw.toNat = e :: rest) :
    exec (.msgpop f) s = .next ((s.setCore is.c ((s.core is.c).claimEntry is.lw.toNat is.k)).emitDue is
      (fullVec (popData e)) .msgpop) := by
  obtain ⟨his, hb, hn, hr⟩ := h
  show execMsgpop f s = _
  rw [execMsgpop, issueWhen_of_fires his hb hn hr (by simp [msgpopWaits, he])]
  simp [Nat.not_le.2 hl, hc, he, Core.claimEntry]

end

/-- Settles O37: mailboxes by their selector and state, then SEND by its stile, WAITMSG and MSGPOP by their channel. -/
theorem mailboxesAndMessages : Obligations.MailboxesAndMessages := by
  refine ⟨fun f s is => ⟨fun h hok he => exec_mbxw_of_empty h hok he, fun h hok => exec_mbxw_of_badSelector h hok,
      fun h hok k hk => exec_mbxr_of_full h hok hk, fun h hok => exec_mbxr_of_badSelector h hok, mbxOk_of_burr⟩,
    fun f s is => ⟨fun i ord hi h => ?_, fun h hl => exec_waitmsg_of_badChannel h hl,
      fun h hl he => exec_waitmsg_of_empty h hl he, fun h hl he => exec_waitmsg_of_entries h hl he,
      fun h hc => exec_msgpop_of_refused h hc, fun h hl hc e rest he => ?_⟩⟩
  · rw [exec_send_or_sendOrd hi]
    exact ⟨fun hl => sendAt_of_badStile h hl, fun hl c hc => sendAt_of_refused h hl hc,
      fun hl ch hc => sendAt_of_channel h hl hc⟩
  · refine ⟨_, exec_msgpop_of_entries h hl hc he, ?_⟩
    rw [Core.entriesOf_claimEntry, he]
    rfl

end Sys2Proof.Machine
end

section
/-!
Packets leave their queues, hop from node to node and arrive; links go bad and down (R86, R89, R93, R101, R103, R113, R117).
-/

namespace Sys2Proof.Machine
open Sys2Proof Sys2Proof.Claims

section
variable {s : State} {c k i : Nat} {p : Pkt}

/-! ### Leaving an injection queue (R89, R117, R273) -/

/-- The entry whose turn it is leaves the queue; a drain request that it waited for is used up (R117). -/
theorem exec_injectionLeave_of_entry {e : InjEnt} (he : s.event = some (.injectionLeave c (.queue k)))
    (hi : s.taken.leaveIndex c k = some i) (hx : (s.taken.slot c k).injq[i]? = some e) :
    exec .injectionLeave s =
      let v := s.taken.setSlot c k { s.taken.slot c k with
        injq := dropAt (s.taken.slot c k).injq i, qdrain := if e.drains then none else (s.taken.slot c k).qdrain }
      .next (match e with
        | .pkt p => (v.modCore c fun y => { y with injPtr := k }).place_ p p.src.1 4 0
        | .mark _ inv => if inv then v.modCore c (·.l1Invalidate (s.taken.slot c k).th.ctx) else v) := by
  show execInjectionLeave s = _
  simp only [execInjectionLeave, he, hi, hx, Option.any_some]
  match e with
  | .pkt p => rfl
  | .mark b true => rfl
  | .mark b false => rfl

/-- Where nothing may leave but for a drain, the drain is asked for. -/
theorem exec_injectionLeave_of_drainDue (he : s.event = some (.injectionLeave c (.queue k)))
    (hi : s.taken.leaveIndex c k = none) (hd : s.taken.drainDue c k = true) :
    exec .injectionLeave s = .next (s.taken.setSlot c k { s.taken.slot c k with qdrain := some s.taken.drainRequest }) := by
  show execInjectionLeave s = _
  simp only [execInjectionLeave, he, hi, hd, if_true]

/-- A load request that may leave is stamped as it does (R113). -/
theorem exec_injectionLeave_of_load (he : s.event = some (.injectionLeave c (.load i)))
    (hx : (s.taken.core c).loads[i]? = some p) (hm : s.taken.loadMayLeave c i = true) :
    exec .injectionLeave s = .next ((s.taken.modCore c fun y => { y with loads := dropAt y.loads i }).place_
      (s.taken.stampLoad c p) p.src.1 4 0) := by
  show execInjectionLeave s = _
  simp only [execInjectionLeave, he, hx, hm, if_true]

/-- An ordered packet leaves from the head of its queue (R93). -/
theorem exec_orderedPacketLeave_of_head {rest : List InjEnt} (he : s.event = some (.orderedPacketLeave c k))
    (hm : s.taken.orderedMayLeave c k = true) (hq : (s.taken.slot c k).injq = .pkt p :: rest) :
    exec .orderedPacketLeave s = .next ((((s.taken.orderedLeft c k).setSlot c k { s.taken.slot c k with
      injq := rest, wakes := (s.taken.slot c k).wakes ++ stwWord p,
      qdrain := if p.drain then none else (s.taken.slot c k).qdrain }).modCore c
        fun y => { y with injPtr := k }).place_ p p.src.1 4 0) := by
  show execOrderedPacketLeave s = _
  simp only [execOrderedPacketLeave, he, hm, hq, if_true]

end

/-! ### Hops (R86, R101) -/

/-- What a flit's packet does where the flit was: it takes a buffer, or happens (R86, R101). -/
def State.moved (s : State) (f : Flit) : Move → State
  | .enter => s.place_ f.pkt f.node (portInput f.pkt) 0
  | .arrive => s.due f.pkt.deliver
  | .go n j phase => s.place_ f.pkt n j phase

section
variable {s : State} {i : Nat} {f : Flit}

/-- A flit that may move leaves its buffer and makes its move. -/
theorem exec_packetHop_of_move {m : Move} (he : s.event = some (.packetHop i)) (hf : s.taken.flits[i]? = some f)
    (hm : s.taken.hopMove i = some m) :
    exec .packetHop s = .next ({ s.taken with flits := dropAt s.taken.flits i }.moved f m) := by
  show execPacketHop s = _
  simp only [execPacketHop, he, hf, hm]
  cases m <;> rfl

/-- A hop has the permits it needs, and its link is up (R86, R103). -/
theorem State.hopOf_eq_some {ph n j : Nat} {m : Move} (h : s.hopOf f ph n j = some m) :
    m = .go n j ph ∧ linkInto n j ∉ s.linkDead ∧ 1 ≤ s.available f.pkt n j ph ∧
      (j ≠ f.input ∨ ph ≠ f.phase → 2 ≤ s.available f.pkt n j ph) := by
  simp only [State.hopOf, Option.ite_none_right_eq_some, Option.some.injEq, Bool.and_eq_true, decide_eq_true_eq,
    Bool.not_eq_true', List.contains_eq_mem, decide_eq_false_iff_not, beq_iff_eq] at h
  obtain ⟨⟨hneed, hup⟩, rfl⟩ := h
  by_cases hon : j = f.input ∧ ph = f.phase
  · rw [if_pos hon] at hneed
    exact ⟨rfl, hup, hneed, fun hne => hne.elim (absurd hon.1) (absurd hon.2)⟩
  · rw [if_neg hon] at hneed
    exact ⟨rfl, hup, by omega, fun _ => hneed⟩

end

/-! ### Links (R103) -/

section
variable {s : State} {l : Nat}

theorem exec_flitReceive_of_good (he : s.event = some (.flitReceive l true)) :
    exec .flitReceive s = .next { s.taken with
      linkBad := s.taken.linkBad.del l, linkSeq := s.taken.linkSeq.put l (s.taken.linkSeq.get l 0 + 1) } := by
  show execFlitReceive s = _
  simp only [execFlitReceive, he, if_true]

/-- A bad flit is counted, and the ninth in a row is followed by the link's end. -/
theorem exec_flitReceive_of_bad {n : Nat} (he : s.event = some (.flitReceive l false)) (hn : s.taken.linkBad.get l 0 = n) :
    exec .flitReceive s =
      let v := { s.taken with linkBad := s.taken.linkBad.put l (n + 1) }
      .next (if n = 8 then v.due (.linkDown l) else v) := by
  subst hn
  show execFlitReceive s = _
  simp only [execFlitReceive, he, Bool.false_eq_true, if_false, beq_iff_eq, Nat.reduceEqDiff]

theorem exec_linkDown (he : s.event = some (.linkDown l)) :
    exec .linkDown s = .next { s.taken.halt with linkDead := l :: s.taken.linkDead } := by
  show execLinkDown s = _
  simp only [execLinkDown, he]
  rfl

end

/-- Settles O50: packets leave their queues, then hop, and what links do. -/
theorem packetSteps : Obligations.PacketSteps := by
  refine ⟨fun c k i p s he ⟨hi, hx⟩ => exec_injectionLeave_of_entry he hi hx,
    fun c k i b inv s he ⟨hi, hx⟩ => exec_injectionLeave_of_entry he hi hx,
    fun c k s he ⟨hi, hd⟩ => exec_injectionLeave_of_drainDue he hi hd,
    fun c i p s he ⟨hx, hm⟩ => exec_injectionLeave_of_load he hx hm,
    fun c k p rest s he ⟨hm, hq⟩ => exec_orderedPacketLeave_of_head he hm hq,
    fun i f n j ph s he ⟨hf, hm⟩ => exec_packetHop_of_move he hf hm,
    fun i f s he ⟨hf, hm⟩ => exec_packetHop_of_move he hf hm,
    fun i f s he ⟨hf, hm⟩ => exec_packetHop_of_move he hf hm,
    fun s f ph n j m h => State.hopOf_eq_some h,
    fun l s he _ => exec_flitReceive_of_good he,
    fun l s he hn => ?_, fun l s he hn => ?_,
    fun l s he _ => exec_linkDown he⟩
  · exact (exec_flitReceive_of_bad he rfl).trans (congrArg _ (if_neg hn))
  · exact (exec_flitReceive_of_bad he hn).trans (congrArg _ (if_pos rfl))

end Sys2Proof.Machine
end

section
/-!
Arrivals, dispatch, how threads leave their slots, and flock barriers (R100, R165, R167, R177, R275, R319, R347, R359, R360,
R362, R364, R375, R376, R422).
-/

namespace Sys2Proof.Machine
open Sys2Proof Sys2Proof.Claims

/-! ### Arrivals (R100, R167, R347) -/

section
variable {s : State} {c : Nat} {e : Entry}

/-- Only a burr may have to go on to another core (R347). -/
theorem State.forwardTo_of_not_burr (hb : ∀ b, e.body ≠ .burr b) : s.forwardTo c e = (s, none) := by
  cases h : e.body with
  | burr b => exact absurd h (hb b)
  | _ => simp [State.forwardTo, h]

/-- One that is held, or has been forwarded, stays. -/
theorem State.forwardTo_of_held {b : Burr} (hb : e.body = .burr b) (h : e.held = true ∨ b.fw = true) :
    s.forwardTo c e = (s, none) := by
  simp [State.forwardTo, hb, h]

theorem exec_arrival_of_kept (he : s.event = some (.arrival c e)) (hh : s.taken.hosts c e.ctx = true)
    (hf : s.taken.forwardTo c e = (s.taken, none)) : exec .arrival s = .next (s.taken.enqueue c e) := by
  show execArrival s = _
  simp [execArrival, he, hh, hf]

theorem exec_arrival_of_stray (he : s.event = some (.arrival c e)) (hh : s.taken.hosts c e.ctx = false) :
    exec .arrival s = .next (s.taken.stray c e) := by
  show execArrival s = _
  simp [execArrival, he, hh]

/-! ### Dispatch (R177, R376) -/

/-- With no context waiting, dispatch takes an entry: of an open channel it starts a thread, and else it is sent on. -/
theorem exec_dispatch_of_entry {y : Core} (he : s.event = some (.dispatch c)) (hd : s.taken.canDispatch c = true)
    (hw : (s.taken.core c).oldestWaiting = none) (ht : (s.taken.core c).takeEntry = (y, some e)) :
    exec .dispatch s = .next (if y.chanOpen e.chan
      then ((s.taken.setCore c y).noteJam c).startEntry c (((s.taken.core c).slotsFor ((s.taken.core c).makesRooted e)).headD 0) e
      else ((s.taken.setCore c y).noteJam c).stray c e) := by
  show execDispatch s = _
  simp only [execDispatch, he, hd, hw, ht, Bool.not_true, Bool.false_eq_true, if_false]

/-- With no entry that has reached dispatch, the context that has waited longest is loaded. -/
theorem exec_dispatch_of_waiting {i t key : Nat} {rest : List Nat} {b : Bool} {x : CacheEnt}
    (he : s.event = some (.dispatch c)) (hd : s.taken.canDispatch c = true)
    (hi : (s.taken.core c).slotsFor true = i :: rest) (hw : (s.taken.core c).oldestWaiting = some (t, b, key, x))
    (hq : (s.taken.core c).aq.find? (s.taken.core c).reaches = none) :
    exec .dispatch s = .next (s.taken.loadContext c i x b key) := by
  show execDispatch s = _
  simp [execDispatch, he, hd, hi, hw, hq]

end

/-! ### Leaving a slot (R165, R313, R359, R375) -/

/-- The thread of a slot is to leave it as `d` says, and nothing holds it there any more. -/
structure State.Leaves (s : State) (c k : Nat) (d : Dispo) : Prop where
  occ : (s.slot c k).occ = true
  may : (s.slot c k).mayLeave = true
  disp : (s.slot c k).disp = some d

theorem withDisp_of_leaves {s : State} {ev : Event} {get : Event → Option (Nat × Nat)}
    {body : State → Nat → Nat → Slot → Dispo → State} {c k : Nat} {d : Dispo} (he : s.event = some ev)
    (hg : get ev = some (c, k)) (h : s.taken.Leaves c k d) :
    withDisp s get body = .next (body s.taken c k (s.taken.slot c k) d) := by
  obtain ⟨ho, hm, hd⟩ := h
  rw [withDisp, he, Option.bind_some, hg]
  simp only [ho, hm, hd, Bool.and_self, if_true]

theorem Thread.emptied_iff (t : Thread) : t.emptied = true ↔ ∀ p ∈ t.ports, p.2.mode = .drain → p.2.buf = [] := by
  simp only [Thread.emptied, List.all_eq_true, Bool.or_eq_true, bne_iff_ne, List.isEmpty_iff, ne_eq,
    ← Decidable.imp_iff_not_or]

section
variable {s : State} {c k : Nat}

theorem exec_burrMigration_of_leaves {d : Nat} {fw : Bool} (he : s.event = some (.burrMigration c k))
    (h : s.taken.Leaves c k (.migrate d fw)) :
    exec .burrMigration s = .next
      ((s.taken.inject c k (burrPkt c d { (s.taken.slot c k).th.toBurr with fw := fw } false)).freeSlot c k) := by
  show execBurrMigration s = _
  rw [execBurrMigration, withDisp_of_leaves he rfl h]

theorem exec_threadRetire_of_leaves (he : s.event = some (.threadRetire c k)) (h : s.taken.Leaves c k .done)
    (hd : (s.taken.slot c k).th.kind = .rooted → (s.taken.slot c k).th.emptied = true) :
    exec .threadRetire s = .next (((s.taken.sendCounts c k (s.taken.slot c k).th.ctx (s.taken.slot c k).th.memb false).orphans
      c k (s.taken.slot c k).th.ctx (s.taken.slot c k).th.imps).freeSlot c k) := by
  show execThreadRetire s = _
  rw [execThreadRetire, withDisp_of_leaves he rfl h]
  exact congrArg _ (if_neg (by simpa using hd))

/-- A rooted thread that yields goes to the cache, where it waits (R359). -/
theorem exec_yieldRetire_of_rooted (he : s.event = some (.yieldRetire c k)) (h : s.taken.Leaves c k .yield_)
    (hk : (s.taken.slot c k).th.kind = .rooted) (hc : k = 7 → (s.taken.core c).copiesRest = true) :
    exec .yieldRetire s =
      let v := s.taken.spillLru c
      .next (v.setCore c ((v.core c).toCache k v.now (some v.now)).1) := by
  have hrest : ¬ (k == 7 && !(s.taken.core c).copiesRest) = true := by simpa using hc
  show execYieldRetire s = _
  rw [execYieldRetire, withDisp_of_leaves he rfl h]
  simp only [hk, hrest, BEq.rfl, if_true, if_false, Bool.false_eq_true]

/-- A burr goes on to its croft's new owner, or to the tail of its core's queue (R347, R359). -/
theorem exec_yieldRetire_of_burr (he : s.event = some (.yieldRetire c k)) (h : s.taken.Leaves c k .yield_)
    (hk : (s.taken.slot c k).th.kind = .burr) (hr : s.taken.mayRequeue c (s.taken.slot c k).th = true) :
    exec .yieldRetire s = .next (s.taken.requeue c k (s.taken.slot c k).th) := by
  show execYieldRetire s = _
  rw [execYieldRetire, withDisp_of_leaves he rfl h]
  simp [hk, hr]

theorem exec_halted_of_leaves (he : s.event = some (.halted c k)) (h : s.taken.Leaves c k .halt) :
    exec .halted s = .next ((s.taken.modSlot c k fun y => { y with disp := none, th := { y.th with rest := .halted } }).slotMsg
      c k (s.taken.slot c k).th.ctx 3 none (some (s.taken.slot c k).th.regs.n) none none) := by
  show execHalted s = _
  rw [execHalted, withDisp_of_leaves he rfl h]

theorem exec_eviction_of_due {o : Op} (he : s.event = some (.eviction c k)) (ho : s.taken.evictOp c k = some o)
    (hc : s.taken.canEvict c k = true) : exec .eviction s = .next (s.taken.evict c k o) := by
  show execEviction s = _
  simp only [execEviction, he, ho, hc, if_true]

/-! ### Waking and mailboxes (R275, R319) -/

theorem exec_unpark_of_wake (he : s.event = some (.unpark c k)) (hp : (s.taken.slot c k).th.rest = .parked)
    (hw : (s.taken.slot c k).th.wake = true) :
    exec .unpark s = .next (s.taken.modThread c k fun t => { t with rest := .none, wake := false }) := by
  show execUnpark s = _
  simp [execUnpark, he, hp, hw]

theorem exec_mailboxDeposit_of_quiet (he : s.event = some (.mailboxDeposit c k)) (hq : s.taken.quiet c k = true) :
    exec .mailboxDeposit s = .next (((s.taken.slot c k).deps.foldl (fun s d =>
      s.modBox c d.1 d.2.1 fun _ => { data := d.2.2, full := true, claim := none }) s.taken).modSlot c k
        fun x => { x with deps := [] }) := by
  show execMailboxDeposit s = _
  simp only [execMailboxDeposit, he, hq, if_true]

end

/-! ### Images (R379, R380, R422) -/

section
variable {s : State} {id ctx d : Nat} {o : Op}

theorem exec_savecComplete_of_written (he : s.event = some (.savecComplete id)) (hd : s.taken.savecDue id = true)
    (ho : s.taken.op? id = some o) (hk : o.kind = .savec ctx d []) : exec .savecComplete s = .next (s.taken.endOp id) := by
  show execSavecComplete s = _
  simp only [execSavecComplete, he, hd, ho, hk]

theorem exec_savecComplete_of_piece {p : Piece} {ps : List Piece} (he : s.event = some (.savecComplete id))
    (hd : s.taken.savecDue id = true) (ho : s.taken.op? id = some o) (hk : o.kind = .savec ctx d (p :: ps)) :
    exec .savecComplete s =
      .next ((s.taken.imageWrite o.core o.slot ctx d p).modOp id fun o => { o with kind := .savec ctx d ps }) := by
  show execSavecComplete s = _
  simp only [execSavecComplete, he, hd, ho, hk]

theorem exec_loadcComplete_of_op {w : Word} {kind : Nat} {recs : List Byte} (he : s.event = some (.loadcComplete id))
    (ho : s.taken.op? id = some o) (hk : o.kind = .loadc ctx w kind recs) :
    exec .loadcComplete s = .next ((s.taken.install ctx w kind recs).endOp id) := by
  show execLoadcComplete s = _
  simp only [execLoadcComplete, he, ho, hk]

end

/-! ### Flocks (R360, R362) -/

section
variable {s : State} {ctx f c k tid : Nat}

theorem exec_flockCountChange {up : Bool} {ack : Option (Nat × Nat)}
    (he : s.event = some (.flockCountChange ctx f up ack)) :
    exec .flockCountChange s = .next (((s.taken.setFlock ctx f { s.taken.flock ctx f with
      count := if up then (s.taken.flock ctx f).count + 1 else (s.taken.flock ctx f).count - 1 }).flockCheck ctx f).ackCount
        ctx f ack) := by
  show execFlockCountChange s = _
  simp only [execFlockCountChange, he]

theorem exec_flockArrival (he : s.event = some (.flockArrival ctx f c k tid)) :
    exec .flockArrival s = .next ((s.taken.setFlock ctx f { s.taken.flock ctx f with
      arrived := (s.taken.flock ctx f).arrived ++ [(c, k, tid)] }).flockCheck ctx f) := by
  show execFlockArrival s = _
  simp only [execFlockArrival, he]

/-- While a member has yet to arrive, nothing happens. -/
theorem State.flockCheck_of_missing (h : (s.flock ctx f).count ≠ (s.flock ctx f).arrived.length) :
    s.flockCheck ctx f = s := by
  simp [State.flockCheck, h.symm]

/-- The barrier of a flock of one completes with its arrival. -/
theorem State.flockCheck_of_only (hc : (s.flock ctx f).count = 1) (ha : (s.flock ctx f).arrived = [(c, k, tid)]) :
    s.flockCheck ctx f =
      (s.setFlock ctx f { s.flock ctx f with arrived := [], gen := (s.flock ctx f).gen + 1 }).post
        { msg := true, cls := 3, src := (s.flockHome f, epMgmt), dst := coreEnd c, ctx := ctx,
          deliver := .barrierRelease ctx f c k tid } := by
  simp only [State.flockCheck, hc, ha]
  rfl

/-- A release goes to the first slot whose thread waits for it. -/
theorem State.giveRelease_of_slot {j : Nat} {own : Bool}
    (h : ((List.range 8).find? fun i => (s.slot c i).occ && (s.slot c i).th.takes ctx f tid own) = some j) :
    s.giveRelease c ctx f tid own = some ((s.modCore c (·.l1Invalidate ctx)).modSlot c j Slot.released) := by
  have h : ((List.range 8).find? fun i => ((s.core c).slot i).occ && ((s.core c).slot i).th.takes ctx f tid own) = some j := h
  simp only [State.giveRelease, h]

theorem exec_barrierRelease_of_slot {j : Nat} (he : s.event = some (.barrierRelease ctx f c k tid))
    (hh : s.taken.hosts c ctx = true)
    (hj : ((List.range 8).find? fun i => (s.taken.slot c i).occ && (s.taken.slot c i).th.takes ctx f tid true) = some j) :
    exec .barrierRelease s = .next ((s.taken.modCore c (·.l1Invalidate ctx)).modSlot c j Slot.released) := by
  show execBarrierRelease s = _
  simp [execBarrierRelease, he, hh, State.giveRelease_of_slot hj]

theorem exec_barrierRelease_of_foreign (he : s.event = some (.barrierRelease ctx f c k tid))
    (hh : s.taken.hosts c ctx = false) : exec .barrierRelease s = .next (s.taken.notHosted c ctx) := by
  show execBarrierRelease s = _
  simp [execBarrierRelease, he, hh]

/-- Without a PARK in the sheaf of its barrier, a released thread runs on. -/
theorem Slot.released_of_not_park {x : Slot} (h : x.disp ≠ some .park) :
    x.released = { x with th := { x.th with rest := .none } } := by
  unfold Slot.released
  dsimp only
  split
  · next hp => exact absurd hp h
  · rfl

/-! ### Channels (R364) -/

theorem exec_remoteChannelChange {ch : Nat} {blk : Bool} (he : s.event = some (.remoteChannelChange c ctx ch blk)) :
    exec .remoteChannelChange s = .next (if s.taken.hosts c ctx then (s.taken.modCore c (·.block ch blk)).noteJam c
      else s.taken.strayMgmt c) := by
  show execRemoteChannelChange s = _
  simp only [execRemoteChannelChange, he]

end

/-- Settles O51: arrivals, dispatch and the ways out of a slot, then flocks and channels. -/
theorem threadSteps : Obligations.ThreadSteps := by
  refine ⟨⟨fun c e s he ⟨hh, hb⟩ => exec_arrival_of_kept he hh (State.forwardTo_of_not_burr hb),
      fun c e b hb h s he hh => exec_arrival_of_kept he hh (State.forwardTo_of_held hb h),
      fun c e s he hh => exec_arrival_of_stray he hh,
      fun c i rest e y s he ⟨hd, hi, hw, ht, ho⟩ => ?_,
      fun c e y s he ⟨hd, hw, ht, ho⟩ => ?_,
      fun c i rest t b key x s he ⟨hd, hi, hw, hq⟩ => exec_dispatch_of_waiting he hd hi hw hq,
      fun c k d fw s he ⟨ho, hm, hd⟩ => exec_burrMigration_of_leaves he ⟨ho, hm, hd⟩,
      fun c k s he ⟨ho, hm, hd, hp⟩ => exec_threadRetire_of_leaves he ⟨ho, hm, hd⟩ fun hk =>
        (Thread.emptied_iff _).2 (hp hk),
      fun c k s he ⟨ho, hm, hd, hr, hb⟩ => ?_,
      fun c k s he ⟨ho, hm, hd⟩ => exec_halted_of_leaves he ⟨ho, hm, hd⟩,
      fun c k o s he ⟨ho, hc⟩ => exec_eviction_of_due he ho hc,
      fun c k s he ⟨hp, hw⟩ => exec_unpark_of_wake he hp hw,
      fun c k s he hq => exec_mailboxDeposit_of_quiet he ((State.quiet_iff ..).2 hq),
      fun id o ctx d s he ⟨hd, ho, hk⟩ => exec_savecComplete_of_written he hd ho hk,
      fun id o ctx d p ps s he ⟨hd, ho, hk⟩ => exec_savecComplete_of_piece he hd ho hk,
      fun id o ctx w kind recs s he ⟨ho, hk⟩ => exec_loadcComplete_of_op he ho hk⟩,
    ⟨fun ctx f up ack s he _ => exec_flockCountChange he,
      fun s ctx f g q => ⟨rfl, rfl⟩,
      fun ctx f c k tid s he _ => exec_flockArrival he,
      fun s ctx f h => State.flockCheck_of_missing h,
      fun s ctx f c k tid hc ha => State.flockCheck_of_only hc ha,
      fun ctx f c k tid j s he ⟨hh, hj⟩ => exec_barrierRelease_of_slot he hh hj,
      fun x h => Slot.released_of_not_park h,
      fun ctx f c k tid s he hh => exec_barrierRelease_of_foreign he hh,
      fun c ctx ch blk s he hh => (exec_remoteChannelChange he).trans (congrArg _ (if_pos hh)),
      fun c ctx ch blk s he hh => (exec_remoteChannelChange he).trans (congrArg _ (if_neg (Bool.eq_false_iff.1 hh)))⟩⟩
  · rw [exec_dispatch_of_entry he hd hw ht, if_pos ho, hi]
    rfl
  · rw [exec_dispatch_of_entry he hd hw ht, if_neg (Bool.eq_false_iff.1 ho)]
  · cases hk : (s.taken.slot c k).th.kind with
    | rooted =>
      exact (exec_yieldRetire_of_rooted he ⟨ho, hm, hd⟩ hk (hr hk)).trans (congrArg _ (if_pos hk).symm)
    | burr =>
      have hq : s.taken.mayRequeue c (s.taken.slot c k).th = true := by simpa [State.mayRequeue] using hb hk
      exact (exec_yieldRetire_of_burr he ⟨ho, hm, hd⟩ hk hq).trans (congrArg _ (if_neg (by simp [hk])).symm)

end Sys2Proof.Machine
end

section
/-!
The steps that may happen next, and the one that a step takes (R131, R156; logs 2, 3, 5 and 111).
-/

namespace Sys2Proof.Machine
open Sys2Proof Sys2Proof.Claims

/-! ### The issues of a clock (R156) -/

section
variable {s : State} {c k pos : Nat} {x : Cand} {e : Event}

/-- The turn of a core is an issue of its own, and only a core that has not issued on this clock has one. -/
theorem State.turnOf_eq_some (h : s.turnOf c = some x) : c ∉ s.issued ∧ ∃ k pos, x = .issue c k pos := by
  unfold State.turnOf at h
  split at h
  · next hc =>
    obtain ⟨-, hi⟩ : s.issueClock c = true ∧ c ∉ s.issued := by simpa using hc
    obtain ⟨k, -, hk⟩ := List.exists_of_findSome?_eq_some h
    obtain ⟨pos, -, rfl⟩ := Option.map_eq_some_iff.1 hk
    exact ⟨hi, k, pos, rfl⟩
  · cases h

/-- Every turn is the issue of a core that has not issued on this clock. -/
theorem State.eq_issue_of_mem_turns (h : x ∈ s.turns) : ∃ c k pos, c ∉ s.issued ∧ x = .issue c k pos := by
  obtain ⟨p, -, hp⟩ := List.mem_filterMap.1 h
  obtain ⟨hi, k, pos, hx⟩ := State.turnOf_eq_some hp
  exact ⟨p.1, k, pos, hi, hx⟩

theorem State.notMem_turns (hx : ∀ c k pos, x ≠ .issue c k pos) : x ∉ s.turns := fun h => by
  obtain ⟨c, k, pos, -, h⟩ := State.eq_issue_of_mem_turns h
  exact hx c k pos h

theorem State.issue_notMem_turns (hc : c ∈ s.issued) : Cand.issue c k pos ∉ s.turns := fun h => by
  obtain ⟨_, _, _, hi, hx⟩ := State.eq_issue_of_mem_turns h
  cases hx
  exact hi hc

/-! ### What may happen next -/

/-- Which candidates there are, by their kinds: the clock passes only once no turn of it is left. -/
theorem State.mem_cands : x ∈ s.cands ↔
    (∃ e, s.inputs.head? = some e ∧ .input e = x) ∨ (∃ e, s.pending.head? = some e ∧ .due e = x) ∨
      (∃ e ∈ s.ownSteps, .own e = x) ∨ x ∈ s.turns ∨ s.turns = [] ∧ x = .clock := by
  simp only [State.cands, List.mem_append, Option.mem_toList, Option.map_eq_some_iff, List.mem_map,
    List.mem_ite_nil_right, List.isEmpty_iff, List.mem_singleton, or_assoc]

@[simp] theorem State.input_mem_cands : Cand.input e ∈ s.cands ↔ s.inputs.head? = some e := by
  simp [State.mem_cands, State.notMem_turns]

@[simp] theorem State.due_mem_cands : Cand.due e ∈ s.cands ↔ s.pending.head? = some e := by
  simp [State.mem_cands, State.notMem_turns]

@[simp] theorem State.clock_mem_cands : Cand.clock ∈ s.cands ↔ s.turns = [] := by
  simp [State.mem_cands, State.notMem_turns]

@[simp] theorem State.issue_mem_cands : Cand.issue c k pos ∈ s.cands ↔ Cand.issue c k pos ∈ s.turns := by
  simp [State.mem_cands]

end

/-! ### The step taken -/

section
variable {s u : State} {c : Cand}

theorem State.pick_of_singleton (h : s.cands = [c]) : s.pick = (some c, s) := by
  simp only [State.pick, h]

/-- Among several candidates the free choice falls on one of them, and the counter of choices moves on (log 2). -/
theorem State.exists_pick (h : 2 ≤ s.cands.length) :
    ∃ c ∈ s.cands, s.pick = (some c, { s with fresh := s.fresh + 1 }) := by
  have hn : Config.choice s.fresh % s.cands.length < s.cands.length := Nat.mod_lt _ (by omega)
  refine ⟨s.cands[Config.choice s.fresh % s.cands.length], List.getElem_mem hn, ?_⟩
  rw [← List.getElem?_eq_getElem hn]
  unfold State.pick
  split
  · next h0 => simp [h0] at h
  · next h1 => simp [h1] at h
  · rfl

theorem step_of_pick_clock (h : s.pick = (some .clock, u)) : step s = .next u.nextClock.tick := by
  simp only [step, h]

/-- The row of the candidate runs on the state that has it in hand, and the next step comes after it (log 3). -/
theorem step_of_pick (h : s.pick = (some c, u)) (hc : c ≠ .clock) :
    step s = ticked (exec (u.prepare c).2 (u.prepare c).1) := by
  cases c with
  | clock => exact absurd rfl hc
  | input | due | own | issue =>
    simp only [step, h]
    rfl

end

/-- Settles O6: the candidates by kind, then the one that `pick` answers. -/
theorem stepTakesACandidate : Obligations.StepTakesACandidate := fun _ =>
  ⟨State.clock_mem_cands,
    fun _ _ _ hc h => State.issue_notMem_turns hc (State.issue_mem_cands.1 h),
    fun _ _ h => State.input_mem_cands.2 (by simp [h]),
    fun _ _ h => State.due_mem_cands.2 (by simp [h]),
    fun h => step_of_pick_clock (State.pick_of_singleton h),
    fun _ hc h => step_of_pick (State.pick_of_singleton h) hc,
    fun h =>
      have ⟨c, hm, hp⟩ := State.exists_pick h
      ⟨c, hm, fun hc => step_of_pick_clock (hc ▸ hp), fun hc => step_of_pick hp hc⟩⟩

end Sys2Proof.Machine
end

section
/-!
Reservations at the home of a granule, and what becomes of them at the core that asked (R138 to R141).
-/

namespace Sys2Proof.Machine
open Sys2Proof Sys2Proof.Claims

/-! ### A granule's queue (R139) -/

theorem exists_of_isReserve {a : Access} (h : isReserve a = true) : ∃ n, a = .reserve n := by
  cases a with
  | reserve n => exact ⟨n, rfl⟩
  | _ => cases h

theorem State.resv_setResv_cons (s : State) (g : Nat) (w : Waiter) (q : List Waiter) :
    (s.setResv g (w :: q)).resv g = w :: q :=
  SMap.get_put_self ..

@[simp] theorem State.setResv_clock (s : State) (g : Nat) (q : List Waiter) : (s.setResv g q).clock = s.clock := rfl

theorem State.advance_nil (s : State) (n : Nat) : s.advance n [] = s := by
  cases n <;> rfl

/-- A request that reaches its home, as it joins its granule's queue. -/
def State.waiter (s : State) (r : Req) : Waiter := { req := s.stamp r, since := s.now }

/-- The home with the reservation at the head of a queue granted; what is behind it waits on. -/
def State.withGrant (s : State) (g : Nat) (w : Waiter) (rest : List Waiter) : State :=
  ((s.setResv g ({ w with granted := true, since := s.clock } :: rest)).poolEnsure (g * 16) w.req.pol).fixIn (g * 16) 16

section
variable {s : State} {g : Nat} {w : Waiter} {rest : List Waiter}

/-- A reservation that is held lets nothing behind it go. -/
theorem State.resumeAt_of_held (hq : s.resv g = w :: rest) (hw : w.granted = true) (hr : isReserve w.req.acc = true) :
    s.resumeAt g = s := by
  obtain ⟨n, hn⟩ := exists_of_isReserve hr
  rw [State.resumeAt, State.rounds, State.advance, hq]
  simp only [hn, hw, if_true, State.advance_nil]

/-- A request at the head of its queue is granted, and then lets nothing behind it go. -/
theorem State.resumeAt_of_request {t : State} (hq : s.resv g = w :: rest) (hw : w.granted = false)
    (hr : isReserve w.req.acc = true) (ht : s.grantHead g w rest = (t, true)) : s.resumeAt g = t := by
  obtain ⟨n, hn⟩ := exists_of_isReserve hr
  rw [State.resumeAt, State.rounds, State.advance, hq]
  simp only [hn, hw, ht, Bool.false_eq_true, if_false, if_true, State.advance_nil]

section
variable (hf : s.readFault w.req (reqSize w.req) = none)
include hf

/-- A grant to a slot brings the granule's bytes. -/
theorem State.grantHead_of_slot {c k : Nat} (ha : w.req.agent = .slot c k) :
    s.grantHead g w rest =
      let q := s.withGrant g w rest
      (q.grantReply w c (q.homeBytes (g * 16) 16) none, true) := by
  rw [State.grantHead, hf]
  simp only [ha]
  rfl

theorem State.grantHead_of_engine (ha : ∀ c k, w.req.agent ≠ .slot c k) :
    s.grantHead g w rest = (s.withGrant g w rest, true) := by
  rw [State.grantHead, hf]
  cases h : w.req.agent with
  | slot c k => exact absurd h (ha c k)
  | _ => rfl

end

end

section
variable {s : State} {r : Req}

/-- Only the request of a sheaf that runs again goes ahead of others. -/
theorem State.queueReserve_of_first (h : r.retry = false) :
    s.queueReserve r = s.setResv (r.pa / 16) (s.resv (r.pa / 16) ++ [{ req := r, since := s.now }]) := by
  rw [State.queueReserve, h]

/-- The request of a sheaf that was revoked goes ahead of the unmarked ones that came after the revoke (R140). -/
theorem State.queueReserve_of_revoked {t : Nat} {ahead behind : List Waiter} (hr : r.retry = true)
    (ht : (s.revokes.find? fun e => e.1 == r.agent) = some (r.agent, t)) (hq : s.resv (r.pa / 16) = ahead ++ behind)
    (ha : ∀ w ∈ ahead, w.granted = true ∨ w.req.retry = true ∨ w.since ≤ t)
    (hb : ∀ w rest, behind = w :: rest → w.granted = false ∧ w.req.retry = false ∧ t < w.since) :
    s.queueReserve r = s.setResv (r.pa / 16) (ahead ++ { req := r, since := s.now } :: behind) := by
  have hahead : ((ahead ++ behind).takeWhile fun x => x.granted || x.req.retry || x.since ≤ t) = ahead := by
    rw [List.takeWhile_append_of_pos fun w hw => by simpa [or_assoc] using ha w hw]
    cases behind with
    | nil => exact List.append_nil _
    | cons w rest =>
      obtain ⟨hg, hm, hs⟩ := hb w rest rfl
      rw [List.takeWhile_cons_of_neg (by simpa [hg, hm] using hs), List.append_nil]
  rw [State.queueReserve, hr, ht, hq]
  simp only [hahead, List.drop_left]

/-! ### Requests, releases and cancels at their home (R139, R141) -/

theorem State.perform_of_reserve {n : Nat} (h : r.acc = .reserve n) :
    s.perform r = (s.queueReserve r).resumeAt (r.pa / 16) := by
  rw [State.perform, h]

/-- A release whose dirty mark waits nowhere writes its bytes, and the next in the queue goes (R139). -/
theorem State.perform_of_release {bs : List Byte} (h : r.acc = .release bs) (hm : s.markWaits r = none) :
    s.perform r = ((s.dropWaiter (r.pa / 16) r.tag).serveWrite r (bs.map some)).resumeAt (r.pa / 16) := by
  rw [State.perform, h]
  show s.serveRelease r = _
  rw [State.serveRelease, hm]
  simp only [State.serveNow, h]

theorem State.perform_of_cancel (h : r.acc = .cancel) :
    s.perform r =
      let v := s.dropWaiter (r.pa / 16) r.tag
      (v.ack (v.servedAt r) r.ctx r.agent .cancel none r.tag).resumeAt (r.pa / 16) := by
  rw [State.perform, h]
  rfl

/-- A request over no stream, whose line is not being filled and is no miss, is performed at its home. -/
theorem homeStep_of_hit {put : Req → Event} {get : Event → Option Req} (he : s.event = some (put r))
    (hg : get (put r) = some r) (hl : s.taken.linkOf r = none) (hpl : reqPlaces r = [r.pa])
    (hp : s.taken.poolPending r.pa = false) (hm : s.taken.poolMiss r.pa = false) :
    homeStep s put get = .next (s.taken.perform (s.taken.stamp r)) := by
  have hfind : (reqPlaces (s.taken.stamp r)).find? s.taken.poolPending = none :=
    State.find_poolPending_eq_none (by simpa [hpl] using hp)
  have hmiss : ¬ s.taken.poolMiss (s.taken.stamp r).pa = true := Bool.eq_false_iff.1 hm
  rw [homeStep, withReq_of_event he hg, hl, State.overLink, State.atHome, hfind]
  exact congrArg _ (if_neg hmiss)

theorem exec_reserveRequest_of_hit {n : Nat} (he : s.event = some (.reserveRequest r)) (ha : r.acc = .reserve n)
    (hp : s.taken.poolPending r.pa = false) (hm : s.taken.poolMiss r.pa = false) (hr : r.retry = false) :
    exec .reserveRequest s = .next ((s.taken.setResv (r.pa / 16)
      (s.taken.resv (r.pa / 16) ++ [s.taken.waiter r])).resumeAt (r.pa / 16)) := by
  have hl : s.taken.linkOf r = none := by rw [State.linkOf, ha]
  have hpl : reqPlaces r = [r.pa] := by rw [reqPlaces, ha]
  have hacc : (s.taken.stamp r).acc = .reserve n := ha
  have hfirst : (s.taken.stamp r).retry = false := hr
  show execReserveRequest s = _
  rw [execReserveRequest, homeStep_of_hit he rfl hl hpl hp hm, State.perform_of_reserve hacc,
    State.queueReserve_of_first hfirst]
  rfl

/-- Behind a reservation that is held, a request waits. -/
theorem exec_reserveRequest_of_held {n : Nat} {w : Waiter} {rest : List Waiter} (he : s.event = some (.reserveRequest r))
    (ha : r.acc = .reserve n) (hp : s.taken.poolPending r.pa = false) (hm : s.taken.poolMiss r.pa = false)
    (hr : r.retry = false) (hq : s.taken.resv (r.pa / 16) = w :: rest) (hg : w.granted = true)
    (hw : isReserve w.req.acc = true) :
    exec .reserveRequest s =
      .next (s.taken.setResv (r.pa / 16) (s.taken.resv (r.pa / 16) ++ [s.taken.waiter r])) := by
  have hresv : (s.taken.setResv (r.pa / 16) (s.taken.resv (r.pa / 16) ++ [s.taken.waiter r])).resv (r.pa / 16) =
      w :: (rest ++ [s.taken.waiter r]) := by
    rw [hq, List.cons_append, State.resv_setResv_cons]
  rw [exec_reserveRequest_of_hit he ha hp hm hr, State.resumeAt_of_held hresv hg hw]

/-- With nothing before it, a request whose check passes is granted. -/
theorem exec_reserveRequest_of_grant {n : Nat} {t : State} (he : s.event = some (.reserveRequest r))
    (ha : r.acc = .reserve n) (hp : s.taken.poolPending r.pa = false) (hm : s.taken.poolMiss r.pa = false)
    (hr : r.retry = false) (hq : s.taken.resv (r.pa / 16) = [])
    (ht : (s.taken.setResv (r.pa / 16) [s.taken.waiter r]).grantHead (r.pa / 16) (s.taken.waiter r) [] = (t, true)) :
    exec .reserveRequest s = .next t := by
  have hres : isReserve (s.taken.waiter r).req.acc = true := by
    show isReserve r.acc = true
    rw [ha]
    rfl
  rw [exec_reserveRequest_of_hit he ha hp hm hr, hq, List.nil_append,
    State.resumeAt_of_request (State.resv_setResv_cons ..) rfl hres ht]

theorem exec_release_of_hit {bs : List Byte} (he : s.event = some (.release r)) (ha : r.acc = .release bs)
    (hl : s.taken.linkOf r = none) (hp : s.taken.poolPending r.pa = false) (hm : s.taken.poolMiss r.pa = false)
    (hw : s.taken.markWaits r = none) :
    exec .release s = .next (((s.taken.dropWaiter (r.pa / 16) r.tag).serveWrite (s.taken.stamp r)
      (bs.map some)).resumeAt (r.pa / 16)) := by
  have hpl : reqPlaces r = [r.pa] := by rw [reqPlaces, ha]
  have hacc : (s.taken.stamp r).acc = .release bs := ha
  show execRelease s = _
  rw [execRelease, homeStep_of_hit he rfl hl hpl hp hm, State.perform_of_release hacc hw]
  rfl

theorem exec_cancel_of_filled (he : s.event = some (.cancel r)) (ha : r.acc = .cancel)
    (hp : s.taken.poolPending r.pa = false) :
    exec .cancel s =
      let v := s.taken.dropWaiter (r.pa / 16) r.tag
      .next ((v.ack (v.servedAt r) r.ctx r.agent .cancel none r.tag).resumeAt (r.pa / 16)) := by
  show execCancel s = _
  rw [execCancel, withReq_of_event he rfl, hp, State.perform_of_cancel ha]
  rfl

theorem exec_cancel_of_pending (he : s.event = some (.cancel r)) (hp : s.taken.poolPending r.pa = true) :
    exec .cancel s = .next (s.taken.poolWait r.pa (.cancel r)) := by
  show execCancel s = _
  rw [execCancel, withReq_of_event he rfl, hp]
  rfl

end

/-! ### Revocation (R140) -/

section
variable {s : State}

theorem State.revokeDue_iff {g : Nat} {w : Waiter} {rest : List Waiter} (hq : s.resv g = w :: rest) :
    s.revokeDue g = true ↔
      w.granted = true ∧ w.revoked = false ∧ w.since + 1024 ≤ s.clock ∧ ∃ x ∈ rest, isReserve x.req.acc = true := by
  simp [State.revokeDue, hq, and_assoc]

theorem exec_reservationRevoke_of_due {g : Nat} {w : Waiter} {rest : List Waiter}
    (he : s.event = some (.reservationRevoke g)) (hq : s.taken.resv g = w :: rest) (hd : s.taken.revokeDue g = true) :
    exec .reservationRevoke s =
      let v : State := { s.taken.setResv g ({ w with revoked := true } :: rest) with
        revokes := if w.req.retry = true ∧ ∃ e ∈ s.taken.revokes, e.1 = w.req.agent then s.taken.revokes
                   else (w.req.agent, s.taken.now) :: s.taken.revokes.filter fun e => e.1 != w.req.agent }
      .next (v.postCached 1 (v.servedAt w.req) (agentEnd w.req.agent) w.req.ctx (.revokeReceive w.req.tag)) := by
  show execReservationRevoke s = _
  simp only [execReservationRevoke, he, hq, hd, if_true, Bool.and_eq_true, List.any_eq_true, beq_iff_eq]

/-- A revoked sheaf that has not committed starts again. -/
theorem exec_revokeReceive_of_run {t : Tag} {fl : Flight} (he : s.event = some (.revokeReceive t))
    (hf : s.taken.flight t.core t.slot = some fl) (hr : fl.run = t.run) :
    exec .revokeReceive s = .next ((s.taken.discard t.core t.slot).modSlot t.core t.slot fun x =>
      { x with retryNext := true }) := by
  show execRevokeReceive s = _
  simp only [execRevokeReceive, he, hf, hr, BEq.rfl, if_true]

end

/-! ### Grants at the core (R138) -/

/-- An AM* buffers its new value and answers the old one. -/
theorem exec_atomicGrant_of_atomic {s : State} {r : Reply} {fl : Flight} {h : Held} {f : Form} {op : RmwOp} {n off : Nat}
    {b x : Word} (he : s.event = some (.atomicGrant r)) (hf : s.taken.flight r.tag.core r.tag.slot = some fl)
    (hr : fl.run = r.tag.run) (hh : fl.heldAt r.tag.lsn = some h) (hd : r.err = none)
    (hk : h.kind = .atomic op n off b x) (hform : fl.sheaf.formAt h.pos = some f) :
    exec .atomicGrant s =
      let o := ofBytes ((r.data.drop off).take n)
      let fl := fl.setHeld { h with got := (toBytes n (rmw op n o b.toNat x.toNat)).map some, granted := true, done := true }
      .next ((s.taken.acquired r.tag).settle r.tag.core r.tag.slot (fl.emit h.pos f (.sc (wd o)) (.sc (wd o)))) := by
  show execAtomicGrant s = _
  simp [execAtomicGrant, he, State.acquired_flight, hf, hr, hh, hd, hk, hform]

/-- Settles O48: requests by what their queue holds, then releases, cancels, revocation and grants. -/
theorem reservations : Obligations.Reservations := by
  refine ⟨fun r n ha s he ⟨hp, hm, hq, hr, hf⟩ => ?_,
    fun r n ha s he ⟨hp, hm, hr, w, rest, hq, hg, hw⟩ => exec_reserveRequest_of_held he ha hp hm hr hq hg hw,
    fun s r t ahead behind hr ht hq ha hb => State.queueReserve_of_revoked hr ht hq ha hb,
    fun r bs ha s he ⟨hl, hp, hm, hw⟩ => exec_release_of_hit he ha hl hp hm hw,
    fun r ha s he hp => exec_cancel_of_filled he ha hp,
    fun r _ s he hp => exec_cancel_of_pending he hp,
    fun g w rest s he ⟨hq, hd⟩ => exec_reservationRevoke_of_due he hq ((State.revokeDue_iff hq).2 hd),
    fun t fl s he ⟨hf, hr⟩ => exec_revokeReceive_of_run he hf hr,
    fun r fl h f op n off b x s he ⟨hf, hr, hh, hd, hk, hform⟩ => exec_atomicGrant_of_atomic he hf hr hh hd hk hform⟩
  have hsound : (s.taken.setResv (r.pa / 16) [s.taken.waiter r]).readFault (s.taken.waiter r).req
      (reqSize (s.taken.waiter r).req) = none := by
    show State.readFault _ _ (reqSize r) = none
    rw [reqSize, ha]
    exact hf
  cases hag : r.agent with
  | slot c k =>
    rw [exec_reserveRequest_of_grant he ha hp hm hr hq (State.grantHead_of_slot hsound hag), State.grantReply,
      State.withGrant, State.setResv_clock]
    rfl
  | _ =>
    rw [exec_reserveRequest_of_grant he ha hp hm hr hq
      (State.grantHead_of_engine hsound fun c k h => by cases hag.symm.trans h), State.withGrant, State.setResv_clock]
    rfl

end Sys2Proof.Machine
end

section
/-!
What a fill leaves of a rick whose refill is under way (R306, R310; log 73).
-/

namespace Sys2Proof.Machine
open Sys2Proof Sys2Proof.Claims

/-- While its refill is under way, a rick goes on filling whatever fill of it ends. -/
theorem Rick.filled_state_of_refilling {r : Rick} (src : List Word × Nat × Nat × Bool) (sz now : Nat) (more : Bool)
    (hs : r.state ≠ .revoked) (h : r.refilling = true) : (r.filled src sz now more).state = .filling := by
  simp [Rick.filled, Rick.ends, hs, h]

/-- Refutes O55: an RKFILL ends on an unmarked rick whose refill is under way.  The statement has the rick come out of it
ready; in the model it goes on filling (log 73). -/
theorem not_matrixSteps : ¬ Obligations.MatrixSteps := by
  rintro ⟨-, -, -, -, hfilled, -⟩
  let r : Rick := { state := .filling, before := .stale, refilling := true }
  have hs : r.state ≠ .revoked := by decide
  obtain ⟨-, hready, -⟩ := hfilled r ([], 0, 0, false) 1 0 false hs
  rw [Rick.filled_state_of_refilling _ _ _ _ hs rfl] at hready
  exact absurd hready (by decide)

end Sys2Proof.Machine
end

section
/-!
Task packets from a launch queue to a core: launches, die queues, releases, walks, returns and steals (R179 to R186, R432).
-/

namespace Sys2Proof.Machine
open Sys2Proof Sys2Proof.Claims

/-! ### Launches (R178, R179, R432) -/

section
variable {s : State} {g ctx q : Nat}

theorem exec_launchRecord_of_record {ws : List Word} (he : s.event = some (.launchRecord g ctx q (.record ws))) :
    exec .launchRecord s = .next (if s.taken.launchRefused g ctx q (taskFrom ws) then s.taken.modLq g ctx q LQ.refuse
      else s.taken.modLq g ctx q fun l => { l with recs := l.recs ++ [taskFrom ws] }) := by
  show execLaunchRecord s = _
  simp only [execLaunchRecord, he, apply_ite Host.Outcome.next]

theorem exec_launchRecord_of_send (he : s.event = some (.launchRecord g ctx q .send)) :
    exec .launchRecord s = .next (if s.taken.mayLaunch g ctx q then s.taken.launchOn g ctx q else s.taken) := by
  show execLaunchRecord s = _
  simp only [execLaunchRecord, he]

theorem exec_launchRecord_of_counted (he : s.event = some (.launchRecord g ctx q .counted)) :
    exec .launchRecord s = .next (s.taken.modLq g ctx q fun l => { l with owed := l.owed - 1 }) := by
  show execLaunchRecord s = _
  simp only [execLaunchRecord, he]

/-- Before its increments are sent, the oldest record may go on, and sends them. -/
theorem State.mayLaunch_of_uncounted {r : TaskPkt} {rest : List TaskPkt} (hc : (s.lq g ctx q).counted = false)
    (hr : (s.lq g ctx q).recs = r :: rest) : s.mayLaunch g ctx q = true := by
  simp [State.mayLaunch, hc, hr]

theorem State.launchOn_of_uncounted {r : TaskPkt} {rest : List TaskPkt} (hc : (s.lq g ctx q).counted = false)
    (hr : (s.lq g ctx q).recs = r :: rest) : s.launchOn g ctx q = s.launchCounts g ctx q r := by
  simp [State.launchOn, hc, hr]

/-- Once they are all acknowledged, its packet goes as soon as the gateway can send it. -/
theorem State.mayLaunch_of_acknowledged {p : TaskPkt} {k : Pkt} (hc : (s.lq g ctx q).counted = true)
    (ho : (s.lq g ctx q).owed = 0) (hp : s.launchPkt g ctx q = some (p, k)) (hk : s.endClear k = true) :
    s.mayLaunch g ctx q = true := by
  simp [State.mayLaunch, hc, ho, hp, hk]

theorem State.launchOn_of_counted {p : TaskPkt} {k : Pkt} (hc : (s.lq g ctx q).counted = true)
    (hp : s.launchPkt g ctx q = some (p, k)) :
    s.launchOn g ctx q = (s.modLq g ctx q fun l => { l with recs := l.recs.tail, counted := false }).post k := by
  simp [State.launchOn, hc, hp]

/-- Until then it waits. -/
theorem State.mayLaunch_of_owed (hc : (s.lq g ctx q).counted = true) (ho : (s.lq g ctx q).owed ≠ 0) :
    s.mayLaunch g ctx q = false := by
  simp [State.mayLaunch, hc, ho]

end

/-! ### Die queues (R180 to R182) -/

/-- The machine's own writes leave the dies alone. -/
@[simp] theorem State.putHome_dies (s : State) (pa : Nat) (bs : List (Option Byte)) : (s.putHome pa bs).dies = s.dies := by
  have hzero : ∀ (b : Bool) (m : List Host.Cell), (if b then { s with mem := m } else s).dies = s.dies :=
    fun b _ => by cases b <;> rfl
  have hmark : ∀ (b : Bool) (t : State) (i : Nat) (x : Sector), (if b then t.setSector i x else t).dies = t.dies :=
    fun b _ _ _ => by cases b <;> rfl
  unfold State.putHome
  cases s.poolData pa with
  | none => exact (hmark ..).trans (hzero ..)
  | some old =>
    dsimp only
    split <;> exact (hmark ..).trans (hzero ..)

@[simp] theorem State.putSealed_dies (s : State) (kid a : Nat) (bs : List Byte) : (s.putSealed kid a bs).dies = s.dies := by
  unfold State.putSealed
  split
  · simp
  · rfl

@[simp] theorem State.die_putSealed (s : State) (kid a : Nat) (bs : List Byte) (d : Nat) :
    (s.putSealed kid a bs).die d = s.die d := by
  simp [State.die]

/-- Writing a spilled packet out changes nothing of the die that it joins. -/
theorem State.die_joinDie (s : State) (d : Nat) (e : DieEnt) : (s.joinDie d e).die d = (s.die d).join e := by
  unfold State.joinDie
  dsimp only
  split <;> simp

/-- Queue and spill together hold a die's packets in arrival order (R180). -/
theorem Die.queue_spill_join (d : Die) (e : DieEnt) : (d.join e).queue ++ (d.join e).spill = d.queue ++ d.spill ++ [e] := by
  unfold Die.join
  split
  · next h =>
    obtain ⟨hs, -⟩ : d.spill = [] ∧ d.queue.length < 4096 := by simpa using h
    simp [hs]
  · simp

/-- The wait clock starts with a packet's first entry, and runs on over the later ones (R182). -/
theorem State.entering_since_of_new {s : State} {p : TaskPkt} (h : p.since = none) : (s.entering p).since = s.clock := by
  simp [State.entering, h]

theorem State.entering_since_of_waited {s : State} {p : TaskPkt} {t : Nat} (h : p.since = some t) :
    (s.entering p).since = t := by
  simp [State.entering, h]

theorem State.entering_cls_le (s : State) (p : TaskPkt) : (s.entering p).pkt.cls ≤ maxCls (s.ctx p.ctx) := Nat.min_le_right ..

section
variable {s : State} {d i : Nat} {e : DieEnt}

theorem exec_dieQueueEnter {p : TaskPkt} (he : s.event = some (.dieQueueEnter d p)) :
    exec .dieQueueEnter s = .next ((s.taken.joinDie d (s.taken.entering p)).noteDie d) := by
  show execDieQueueEnter s = _
  simp only [execDieQueueEnter, he]

theorem exec_dieSpillReload_of_room {rest : List DieEnt} (he : s.event = some (.dieSpillReload d))
    (hs : (s.taken.die d).spill = e :: rest) (hl : (s.taken.die d).queue.length < 4096) :
    exec .dieSpillReload s = .next ((s.taken.setDie d { s.taken.die d with
      queue := (s.taken.die d).queue ++ [e], spill := rest }).noteDie d) := by
  show execDieSpillReload s = _
  simp only [execDieSpillReload, he, hs, hl, if_true]

theorem exec_classAging_of_due (he : s.event = some (.classAging d i)) (hq : (s.taken.die d).queue[i]? = some e)
    (hd : s.taken.ageDue e = true) :
    exec .classAging s = .next (s.taken.modDie d fun x => { x with queue := setAt x.queue i e.age }) := by
  show execClassAging s = _
  simp only [execClassAging, he, hq, hd, if_true]

theorem exec_returnHoldoff_of_over (he : s.event = some (.returnHoldoff d i)) (hq : (s.taken.die d).queue[i]? = some e)
    (ho : s.taken.holdOver e = true) :
    exec .returnHoldoff s = .next (s.taken.modDie d fun x => { x with queue := setAt x.queue i { e with hold := none } }) := by
  show execReturnHoldoff s = _
  simp only [execReturnHoldoff, he, hq, ho, if_true]

end

/-! ### Release (R182, R183) -/

section
variable {s : State} {d i : Nat} {e : DieEnt}

theorem exec_idleSummaryUpdate_of_changed (he : s.event = some (.idleSummaryUpdate d))
    (hc : s.taken.summaryOf d ≠ (s.taken.die d).summary) :
    exec .idleSummaryUpdate s = .next (s.taken.modDie d fun x => { x with
      summary := s.taken.summaryOf d, queue := x.queue.map DieEnt.free, spill := x.spill.map DieEnt.free }) := by
  show execIdleSummaryUpdate s = _
  simp only [execIdleSummaryUpdate, he, beq_iff_eq, hc, if_false]

/-- A released packet as it starts to walk: its hint is aimed, and it takes a buffer of the scheduler's local port. -/
def State.startWalk (s : State) (d : Nat) (e : DieEnt) : Walk :=
  { ent := { e with pkt := (s.die d).aim e.pkt }, home := d, node := nodeOf (16 * d), id := s.nextId,
    resv := s.reservedFree (taskPkt d e.pkt) (nodeOf (16 * d)) 4 0 != 0, since := s.now }

theorem exec_taskRelease_of_pick (he : s.event = some (.taskRelease d)) (hm : s.taken.mayRelease d = true)
    (hp : s.taken.releasePick d = some (i, e)) :
    exec .taskRelease s = .next { (s.taken.setDie d { s.taken.die d with
        queue := dropAt (s.taken.die d).queue i, lastRelease := some s.taken.clock,
        rr := (s.taken.die d).rr.put e.pkt.cls e.pkt.ctx }).noteDie d with
      walks := s.taken.walks ++ [s.taken.startWalk d e], nextId := s.taken.nextId + 1 } := by
  show execTaskRelease s = _
  simp only [execTaskRelease, he, hm, hp, State.startWalk]

end

/-! ### The way of a walk (R83, R86, R101, R103) -/

section
variable {s : State} {w : Walk} {n j : Nat}

/-- A walk hops where it is headed, over a link that is up, with the permits it needs: one to go straight on, else two. -/
theorem State.walkHop_spec {ph : Nat} (h : s.walkHop w = some (n, j, ph)) :
    s.walkNext w = some (n, j, ph) ∧ s.linkDead.contains (linkInto n j) = false ∧
      (if j = w.input ∧ ph = w.phase then 1 else 2) ≤ s.available (taskPkt w.home w.ent.pkt) n j ph := by
  obtain ⟨hn, hc⟩ := Option.filter_eq_some_iff.1 h
  simp only [Bool.and_eq_true, decide_eq_true_eq, beq_iff_eq, Bool.not_eq_true'] at hc
  obtain ⟨ha, hl⟩ := hc
  exact ⟨hn, hl, ha⟩

/-- Where its goal is the hint, a walk stays in its phase. -/
theorem State.walkNext_of_direct (h : hopTo w.node (TaskHint w.ent.pkt) = some (n, j))
    (hd : w.phase = 1 ∨ s.waypoint (nodeOf (16 * w.home)) (TaskHint w.ent.pkt) = none) :
    s.walkNext w = some (n, j, w.phase) := by
  rcases hd with hp | hw
  · simp [State.walkNext, hp, h]
  · simp [State.walkNext, hw, h]

/-- In phase 0 it heads for its waypoint. -/
theorem State.walkNext_to_waypoint {g : Nat} (hp : w.phase = 0)
    (hw : s.waypoint (nodeOf (16 * w.home)) (TaskHint w.ent.pkt) = some g) (h : hopTo w.node g = some (n, j)) :
    s.walkNext w = some (n, j, 0) := by
  simp [State.walkNext, hp, hw, h]

/-- At the waypoint it turns to the hint, in phase 1. -/
theorem State.walkNext_at_waypoint {g : Nat} (hp : w.phase = 0)
    (hw : s.waypoint (nodeOf (16 * w.home)) (TaskHint w.ent.pkt) = some g) (hg : hopTo w.node g = none)
    (h : hopTo w.node (TaskHint w.ent.pkt) = some (n, j)) : s.walkNext w = some (n, j, 1) := by
  simp [State.walkNext, hp, hw, hg, h]

end

/-! ### Offers (R184) -/

section
variable {s : State} {w : Walk} {id : Nat}

/-- A walk that is served next at its node: nothing that came there before it is taken first. -/
structure State.Leads (s : State) (id : Nat) (w : Walk) : Prop where
  walk : s.walk? id = some w
  first : s.walksBehind w = false

/-- The id under which a walk is found is its own. -/
theorem State.id_of_walk? (h : s.walk? id = some w) : w.id = id := by
  simpa using List.find?_some h

theorem State.taker_of_offer {c : Nat} (ho : s.offers w.ent.pkt w.node = true)
    (hc : (nodeCores w.node).find? (fun c => s.takesTask c w.ent.pkt) = some c) : s.taker w = some c :=
  (if_pos ho).trans hc

theorem exec_taskOffer_of_taker {c : Nat} (he : s.event = some (.taskOffer id)) (h : s.taken.Leads id w)
    (ht : s.taken.taker w = some c) :
    exec .taskOffer s = .next ((s.taken.enqueue c (taskEntry w.ent.pkt)).endWalk id) := by
  obtain ⟨hw, hb⟩ := h
  show execTaskOffer s = _
  simp only [execTaskOffer, he, hw, hb, ht, Bool.false_eq_true, if_false]

theorem exec_taskOffer_of_hint (he : s.event = some (.taskOffer id)) (h : s.taken.Leads id w)
    (ht : s.taken.taker w = none) (hn : w.node = TaskHint w.ent.pkt) :
    exec .taskOffer s = .next (s.taken.due (.taskHintArrival id)) := by
  obtain ⟨hw, hb⟩ := h
  show execTaskOffer s = _
  simp only [execTaskOffer, he, hw, hb, ht, hn, Bool.false_eq_true, if_false, BEq.rfl, if_true]

/-- Untaken and short of its hint, a walk goes on if it can, and else stands. -/
theorem exec_taskOffer_of_untaken (he : s.event = some (.taskOffer id)) (h : s.taken.Leads id w)
    (ht : s.taken.taker w = none) (hn : w.node ≠ TaskHint w.ent.pkt) :
    exec .taskOffer s = .next ((s.taken.walkHop w).elim s.taken fun p => s.taken.walkOn w p.1 p.2.1 p.2.2) := by
  obtain ⟨hw, hb⟩ := h
  show execTaskOffer s = _
  simp only [execTaskOffer, he, hw, hb, ht, beq_iff_eq, hn, Bool.false_eq_true, if_false]
  cases s.taken.walkHop w <;> rfl

end

/-! ### Arrival at the hint (R185) -/

section
variable {s : State} {w : Walk} {id : Nat}

/-- The core that a packet's hint names. -/
def hintCore (p : TaskPkt) : Nat := 8 * copseAt (TaskHint p) + p.hcore

theorem exec_taskHintArrival_of_foreign (he : s.event = some (.taskHintArrival id)) (hw : s.taken.walk? id = some w)
    (hh : s.taken.hosts (hintCore w.ent.pkt) w.ent.pkt.ctx = false) :
    exec .taskHintArrival s = .next ((s.taken.misroute (hintCore w.ent.pkt) (taskEntry w.ent.pkt)).endWalk id) := by
  unfold hintCore at hh ⊢
  show execTaskHintArrival s = _
  simp only [execTaskHintArrival, he, hw, hh, Bool.not_false, if_true]

theorem exec_taskHintArrival_of_refused (he : s.event = some (.taskHintArrival id)) (hw : s.taken.walk? id = some w)
    (hh : s.taken.hosts (hintCore w.ent.pkt) w.ent.pkt.ctx = true)
    (hr : ((s.taken.core (hintCore w.ent.pkt)).tchan.get w.ent.pkt.chan 0).getLsbD 63 = false ∨
      s.taken.underLimit (hintCore w.ent.pkt) w.ent.pkt = false) :
    exec .taskHintArrival s = .next ((s.taken.returnTask w).endWalk id) := by
  unfold hintCore at hh hr
  show execTaskHintArrival s = _
  simp only [execTaskHintArrival, he, hw, hh, Bool.not_true, Bool.false_eq_true, if_false]
  exact if_pos (by simpa using hr)

theorem exec_taskHintArrival_of_accepted (he : s.event = some (.taskHintArrival id)) (hw : s.taken.walk? id = some w)
    (hh : s.taken.hosts (hintCore w.ent.pkt) w.ent.pkt.ctx = true)
    (hv : ((s.taken.core (hintCore w.ent.pkt)).tchan.get w.ent.pkt.chan 0).getLsbD 63 = true)
    (hu : s.taken.underLimit (hintCore w.ent.pkt) w.ent.pkt = true)
    (hr : s.taken.coreRoom (hintCore w.ent.pkt) false = true) :
    exec .taskHintArrival s = .next ((s.taken.enqueue (hintCore w.ent.pkt) (taskEntry w.ent.pkt)).endWalk id) := by
  unfold hintCore at hh hv hu hr ⊢
  show execTaskHintArrival s = _
  simp only [execTaskHintArrival, he, hw, hh, hv, hu, hr, Bool.not_true, Bool.or_self, Bool.false_eq_true, if_false, if_true]

end

/-! ### Stealing (R186) -/

theorem mem_insertOld {e x : Nat × DieEnt} {l : List (Nat × DieEnt)} : x ∈ insertOld e l ↔ x = e ∨ x ∈ l := by
  induction l with
  | nil => simp [insertOld]
  | cons y rest ih =>
    unfold insertOld
    split
    · simp
    · simp only [List.mem_cons, ih]
      exact or_left_comm

/-- Sorting by age keeps the packets. -/
theorem mem_foldr_insertOld {x : Nat × DieEnt} {l : List (Nat × DieEnt)} : x ∈ l.foldr insertOld [] ↔ x ∈ l := by
  induction l with
  | nil => rfl
  | cons y rest ih => rw [List.foldr_cons, mem_insertOld, ih, List.mem_cons]

/-- A queue's lowest class, as a donor finds it, is below that of each of its packets. -/
theorem lowestCls_le {e x : DieEnt} {rest : List DieEnt} (h : x ∈ e :: rest) :
    rest.foldl (fun m y => min m y.pkt.cls) e.pkt.cls ≤ x.pkt.cls := by
  have hmin : ((e :: rest).map fun y => y.pkt.cls).min? = some (rest.foldl (fun m y => min m y.pkt.cls) e.pkt.cls) := by
    rw [List.map_cons, List.min?_cons', List.foldl_map]
  obtain ⟨-, hle⟩ := List.min?_eq_some_iff.1 hmin
  exact hle _ (List.mem_map_of_mem h)

/-- What a donor gives is eligible, open to the thief, and of the lowest class in its queue. -/
theorem State.donation_spec {s : State} {t d : Nat} {x : Nat × DieEnt} (h : x ∈ s.donation t d) :
    x ∈ s.eligible d ∧ daffAllows x.2.pkt.daff t = true ∧ ∀ e ∈ (s.die d).queue, x.2.pkt.cls ≤ e.pkt.cls := by
  unfold State.donation at h
  cases hq : (s.die d).queue with
  | nil => simp [hq] at h
  | cons e rest =>
    rw [hq] at h
    have hx := mem_foldr_insertOld.1 (List.mem_of_mem_take h)
    simp only [List.mem_filter, beq_iff_eq] at hx
    obtain ⟨⟨hel, hcls⟩, hdaff⟩ := hx
    exact ⟨hel, hdaff, fun y hy => hcls ▸ lowestCls_le hy⟩

section
variable {s : State} {t d : Nat}

theorem exec_stealRequest_of_thief (he : s.event = some (.stealRequest t d false)) :
    exec .stealRequest s = .next (if s.taken.maySteal t d
      then (s.taken.modDie t fun x => { x with steals := x.steals.put d s.taken.clock }).post
        { msg := true, cls := 2, src := schedEnd t, dst := schedEnd d, deliver := .stealRequest t d true }
      else s.taken) := by
  show execStealRequest s = _
  simp only [execStealRequest, he, apply_ite Host.Outcome.next]

theorem exec_stealRequest_of_donor (he : s.event = some (.stealRequest t d true)) :
    exec .stealRequest s = .next (s.taken.donate t d) := by
  show execStealRequest s = _
  simp only [execStealRequest, he]

theorem exec_stealDonation {p : TaskPkt} (he : s.event = some (.stealDonation t p)) :
    exec .stealDonation s = .next ((s.taken.joinDie t (s.taken.entering p)).noteDie t) := by
  show execStealDonation s = _
  simp only [execStealDonation, he]

end

/-- Settles O53, a clause for each step of a packet's way. -/
theorem taskScheduling : Obligations.TaskScheduling := by
  refine ⟨fun g ctx q ws s he hr => (exec_launchRecord_of_record he).trans (congrArg _ (if_neg (Bool.eq_false_iff.1 hr))),
    fun g ctx q ws s he hr => (exec_launchRecord_of_record he).trans (congrArg _ (if_pos hr)),
    fun g ctx q r rest s he ⟨hc, hr⟩ => ?_,
    fun g ctx q p k s he ⟨hc, ho, hp, hk⟩ => ?_,
    fun g ctx q s he ⟨hc, ho⟩ => ?_,
    fun g ctx q s he _ => exec_launchRecord_of_counted he,
    fun d p s he _ => exec_dieQueueEnter he,
    fun s d e => ?_,
    fun d i e s he ⟨hm, hp⟩ => exec_taskRelease_of_pick he hm hp,
    fun s p h => State.entering_since_of_new h,
    fun s p => ⟨State.entering_cls_le s p, rfl, fun t h => State.entering_since_of_waited h⟩,
    fun d i e s he ⟨hq, ha⟩ => exec_classAging_of_due he hq (decide_eq_true ha),
    fun id w c s he ⟨hw, hb, ho, hc⟩ => exec_taskOffer_of_taker he ⟨hw, hb⟩ (State.taker_of_offer ho hc),
    fun id w n j ph s he ⟨hw, hb, ht, hn, hh⟩ => ?_,
    fun id w s he ⟨hw, hb, ht, hn, hh⟩ => ?_,
    fun s w n j ph h => ?_,
    fun s w n j h hd => State.walkNext_of_direct h hd,
    fun s w g n j hp hw => ⟨State.walkNext_to_waypoint hp hw, State.walkNext_at_waypoint hp hw⟩,
    fun id w s he ⟨hw, hb, ht, hn⟩ => exec_taskOffer_of_hint he ⟨hw, hb⟩ ht hn,
    fun id w c hc => hc ▸ ⟨fun s he ⟨hw, hh, hv, hu, hr⟩ => exec_taskHintArrival_of_accepted he hw hh hv hu hr,
      fun s he ⟨hw, hh, hr⟩ => exec_taskHintArrival_of_refused he hw hh hr,
      fun s he ⟨hw, hh⟩ => exec_taskHintArrival_of_foreign he hw hh⟩,
    fun d i e s he ⟨hq, ho⟩ => exec_returnHoldoff_of_over he hq ho,
    fun d e rest s he ⟨hs, hl⟩ => exec_dieSpillReload_of_room he hs hl,
    fun d s he hc => exec_idleSummaryUpdate_of_changed he hc,
    fun t d s he hm => (exec_stealRequest_of_thief he).trans (congrArg _ (if_pos hm)),
    fun t d s he hm => (exec_stealRequest_of_thief he).trans (congrArg _ (if_neg (Bool.eq_false_iff.1 hm))),
    fun t d s he _ => exec_stealRequest_of_donor he,
    fun s t d x h => State.donation_spec h,
    fun t p s he _ => exec_stealDonation he⟩
  · rw [exec_launchRecord_of_send he, if_pos (State.mayLaunch_of_uncounted hc hr), State.launchOn_of_uncounted hc hr]
    rfl
  · rw [exec_launchRecord_of_send he, if_pos (State.mayLaunch_of_acknowledged hc ho hp hk), State.launchOn_of_counted hc hp]
  · rw [exec_launchRecord_of_send he, if_neg (Bool.eq_false_iff.1 (State.mayLaunch_of_owed hc ho))]
    rfl
  · rw [State.die_joinDie, Die.queue_spill_join]
  · rw [exec_taskOffer_of_untaken he ⟨hw, hb⟩ ht hn, hh, Option.elim_some]
    simp only [State.walkOn, State.id_of_walk? hw]
  · rw [exec_taskOffer_of_untaken he ⟨hw, hb⟩ ht hn, hh, Option.elim_none]
  · obtain ⟨hn, hl, ha⟩ := State.walkHop_spec h
    refine ⟨hn, hl, Nat.le_trans (by split <;> decide) ha, fun hturn => ?_⟩
    have hbent : ¬ (j = w.input ∧ ph = w.phase) := fun ⟨hj, hp⟩ => hturn.elim (· hj) (· hp)
    rwa [if_neg hbent] at ha

end Sys2Proof.Machine
end

section
/-!
What the registers hold at reset (R193, R299, R305, R431, R436, R438).
-/

namespace Sys2Proof.Machine
open Sys2Proof Sys2Proof.Claims

/-- At reset every slot of every core stands as a slot is made, within the eight and beyond them. -/
theorem State.reset_slot (c k : Nat) : State.reset.slot c k = {} := by
  show (Vector.replicate 8 ({} : Slot))[k]?.getD {} = {}
  rw [Vector.getElem?_replicate]
  split <;> rfl

/-- Settles O8: each part of the machine stands at reset as its record is made. -/
theorem resetValues : Obligations.ResetValues :=
  ⟨fun c k => congrArg (fun x : Slot => x.th.regs.rnd) (State.reset_slot c k), fun _ => rfl, fun _ => rfl, fun _ => rfl,
    fun _ => rfl, rfl, rfl⟩

end Sys2Proof.Machine
end

section
/-!
Vector compares, selection, reductions and the dot product (R200, R288 to R290), position by position.
-/

namespace Sys2Proof.Machine
open Sys2Proof Sys2Proof.Claims

/-! ### Instructions with one format (R188, R281) -/

section
variable {i : Instr} {s : State} {is : Iss} {body : Iss → State → Nat → Out}

theorem withFormat_of_formatOf {code : Nat} (h : Fires i s is) (hc : formatOf is = some code) :
    withFormat i s body = body is s code := by
  obtain ⟨hi, hb, hn, hr⟩ := h
  unfold formatOf at hc
  split at hc
  case h_1 hs hf => exact withFormat_of_fires hi hb hn hr hs hf hc
  case h_2 => cases hc

theorem withFormat_of_no_format (h : Fires i s is) (hc : formatOf is = none) :
    withFormat i s body = .next (s.trapAt is .badFormat) := by
  obtain ⟨hi, hb, hn, hr⟩ := h
  unfold formatOf at hc
  split at hc
  case h_1 hs hf => exact withFormat_of_bad hi hb hn hr hs hf hc
  case h_2 hno =>
    rw [withFormat, issue_of_fires hi hb hn hr]
    split
    case h_1 hs hf => exact (hno _ _ _ _ hs hf).elim
    case h_2 => rfl

/-- An instruction that runs a body under its format answers what the body does. -/
theorem vecAs_of_withFormat {g : Iss → State → Nat → State} (hx : ∀ s, exec i s = withFormat i s body)
    (hg : ∀ is s c, body is s c = .next (g is s c)) : VecAs i g := fun s is h =>
  ⟨fun c hc => (hx s).trans ((withFormat_of_formatOf h hc).trans (hg is s c)),
    fun hc => (hx s).trans (withFormat_of_no_format h hc)⟩

end

/-! ### Operands as lists over the element positions -/

/-- A vector operand lists its elements by position. -/
theorem elemsOf_eq_map_el (sz : Nat) (t : Tok) : elemsOf sz t = (List.range (64 / sz)).map (el sz t) := by
  refine List.ext_getElem (by simp [elemsOf_length]) fun j hj _ => ?_
  simp [el, List.getElem?_eq_getElem hj]

theorem zipIdx_map_range {α : Type} (n : Nat) (g : Nat → α) :
    ((List.range n).map g).zipIdx = (List.range n).map fun j => (g j, j) :=
  List.ext_getElem (by simp) fun j _ _ => by simp

theorem zip_elemsOf (sz : Nat) (l r : Tok) :
    (elemsOf sz l).zip (elemsOf sz r) = (List.range (64 / sz)).map fun j => (el sz l j, el sz r j) := by
  rw [elemsOf_eq_map_el, elemsOf_eq_map_el, List.zip_map']

/-- Under a lane mask, an element is kept where the mask has the bit of its lowest byte. -/
theorem maskElems_elemsOf (sz : Nat) (q : Mask) (t : Tok) :
    maskElems sz q (elemsOf sz t) = (List.range (64 / sz)).map fun j => if q.getLsbD (j * sz) then el sz t j else none := by
  rw [maskElems, elemsOf_eq_map_el, zipIdx_map_range, List.map_map]
  rfl

theorem zip_maskElems (sz : Nat) (q : Mask) (l r : Tok) :
    (maskElems sz q (elemsOf sz l)).zip (maskElems sz q (elemsOf sz r)) = (List.range (64 / sz)).map fun j =>
      (if q.getLsbD (j * sz) then el sz l j else none, if q.getLsbD (j * sz) then el sz r j else none) := by
  rw [maskElems_elemsOf, maskElems_elemsOf, List.zip_map']

/-! ### Reductions (R200, R289) -/

section
variable {i : Instr} {s : State} {is : Iss} {code : Nat} {rounds : Bool} {g : Nat → RMode → Bool → Nat → Nat → Nat}
  {fin : Nat → Nat → Nat}

/-- What the tree of R200 makes of the elements that a reduction is given. -/
def reduced (g : Nat → RMode → Bool → Nat → Nat → Nat) (is : Iss) (code : Nat) : Option Nat :=
  tree (fun k a b => g code (is.rmode k) is.sat a b) (Nat.log2 (64 / fmtSize code)) 0
    (maskElems (fmtSize code) is.qmask (elemsOf (fmtSize code) is.l))

/-- A reduction without a valid element delivers null (R200, R289). -/
theorem reduceVec_of_none (h : Fires i s is) (hc : formatOf is = some code) (hr : reduced g is code = none) :
    reduceVec i s rounds g fin = .next (s.emit is .null) := by
  unfold reduced at hr
  rw [reduceVec, withFormat_of_formatOf h hc]
  simp only [hr]

theorem reduceVec_of_some {v : Nat} (h : Fires i s is) (hc : formatOf is = some code) (hr : reduced g is code = some v) :
    reduceVec i s rounds g fin =
      .next (s.emitRounded is (rounds && fmtIsFloat code) (.sc (elemWord code (fin code v)))) := by
  unfold reduced at hr
  rw [reduceVec, withFormat_of_formatOf h hc]
  simp only [hr]

end

/-- Settles O30: VCMP and VSEL lane by lane, where a relation is false at a lane that the mask leaves out as at one without
both elements; the reductions by what their tree answers; VDOT by its pairs. -/
theorem vectorCompareAndReduce : Obligations.VectorCompareAndReduce := by
  refine fun f => ⟨vecAs_of_withFormat (fun _ => rfl) fun is s c => ?_, vecAs_of_withFormat (fun _ => rfl) fun is s c => ?_,
    fun _ _ _ h hc => ⟨reduceVec_of_none (g := addElem) h hc, fun _ => reduceVec_of_some (g := addElem) h hc⟩,
    fun _ _ _ h hc => ⟨reduceVec_of_none (g := fun code _ _ a b => maxElem code .rne false a b) h hc,
      fun _ => reduceVec_of_some (g := fun code _ _ a b => maxElem code .rne false a b) h hc⟩,
    vecAs_of_withFormat (fun _ => rfl) fun _ _ _ => rfl⟩
  · dsimp only
    rw [zip_maskElems, List.map_map]
    refine congrArg (fun bs => Host.Outcome.next (s.emit is (.sc (elemMask (fmtSize c) bs)))) (List.map_congr_left fun j _ => ?_)
    dsimp only [Function.comp_apply]
    cases is.qmask.getLsbD (j * fmtSize c) <;> rfl
  · dsimp only
    rw [zip_elemsOf, zipIdx_map_range, List.map_map]
    rfl

end Sys2Proof.Machine
end

section
/-!
The first pass of decoding (R217): the checks of the header in their order.
-/

namespace Sys2Proof

/-- A field of a field, as a field of the whole. -/
theorem extractLsb'_extractLsb' {w a n b m : Nat} (x : BitVec w) (h : b + m ≤ n) :
    (x.extractLsb' a n).extractLsb' b m = x.extractLsb' (a + b) m := by
  ext k hk
  simp only [BitVec.getElem_extractLsb', BitVec.getLsbD_extractLsb', Nat.add_assoc]
  rw [decide_eq_true (by omega), Bool.true_and]

/-- The checks of the header, each as a condition on the header's bits. -/
theorem checkHeader_eq (burr privOk : Bool) (h : BitVec 128) :
    checkHeader burr privOk h =
      if h.extractLsb' 120 8 ≠ 0 then some ⟨some 0x01, 0⟩
      else if 32 < (h.extractLsb' 6 6).toNat then some ⟨some 0x02, 0⟩
      else if burr = true ∧ (h.getLsbD 116 = false ∨ h.getLsbD 118 = true ∨ h.getLsbD 119 = true ∨
          h.extractLsb' 20 24 ≠ 0 ∨ h.extractLsb' 44 64 ≠ 0 ∨ h.extractLsb' 109 7 ≠ 0) then some ⟨some 0x04, 0⟩
      else if h.getLsbD 119 = true ∧ privOk = false then some ⟨none, 0⟩
      else none := by
  have hg : (h.extractLsb' 12 32).extractLsb' 8 24 = h.extractLsb' 20 24 := extractLsb'_extractLsb' h (by decide)
  have hq : (h.extractLsb' 108 8).extractLsb' 1 7 = h.extractLsb' 109 7 := extractLsb'_extractLsb' h (by decide)
  simp [checkHeader, headerOf, hg, hq, or_assoc]

/-- A header that a check refuses ends decoding there. -/
theorem decodeSheaf_of_badHeader {burr privOk : Bool} {h : BitVec 128} {e : SheafBad} (body : List Syl)
    (he : checkHeader burr privOk h = some e) : decodeSheaf burr privOk h body = .error e := by
  unfold decodeSheaf
  rw [he]

/-- Settles O4: the header's checks, each behind those before it. -/
theorem headerFailures : Obligations.HeaderFailures := by
  intro burr privOk h body reserved tooMany notBurr
  refine ⟨fun hr => ?_, fun hr ht => ?_, fun hr ht hb => ?_, fun hr ht hb hp hg => ?_⟩ <;>
    refine decodeSheaf_of_badHeader body ((checkHeader_eq ..).trans ?_)
  · exact if_pos hr
  · rw [if_neg hr, if_pos ht]
  · rw [if_neg hr, if_neg ht, if_pos hb]
  · rw [if_neg hr, if_neg ht, if_neg hb, if_pos ⟨hp, hg⟩]

end Sys2Proof
end

section
/-!
Delivering a token to a port (R207 to R209).
-/

namespace Sys2Proof.Machine
open Sys2Proof

theorem setAt_eq_set {α : Type} (l : List α) (n : Nat) (v : α) : setAt l n v = l.set n v := by
  induction l generalizing n with
  | nil => rfl
  | cons x rest ih =>
    cases n with
    | zero => rfl
    | succ n => exact congrArg (x :: ·) (ih n)

theorem Node.port_setPort_same (nd : Node) (p : Nat) (t : Tok) : (nd.setPort p t).port p = some t := by
  match p with
  | 0 | 1 | 2 | _ + 3 => rfl

theorem Node.port_setPort_ne {p q : Nat} (nd : Node) (t : Tok) (hp : p < 4) (hq : q < 4) (h : q ≠ p) :
    (nd.setPort p t).port q = nd.port q := by
  match p, q with
  | 0, 0 | 1, 1 | 2, 2 | 3, 3 => exact absurd rfl h
  | 0, 1 | 0, 2 | 0, 3 | 1, 0 | 1, 2 | 1, 3 | 2, 0 | 2, 1 | 2, 3 | 3, 0 | 3, 1 | 3, 2 => rfl
  | _ + 4, _ => omega
  | _, _ + 4 => omega

/-- A token on a port leaves the firing state. -/
@[simp] theorem Node.setPort_st (nd : Node) (p : Nat) (t : Tok) : (nd.setPort p t).st = nd.st := by
  match p with
  | 0 | 1 | 2 | _ + 3 => rfl

/-- A node that takes a token: a predicate token that does not match absorbs a waiting instruction (R159, R209). -/
def Node.take (nd : Node) (pm port : BitVec 2) (t : Tok) : Node :=
  let nd := nd.setPort port.toNat t
  if port == 3 && nd.st == .waiting && !predLets pm t then { nd with st := .absorbed } else nd

theorem Node.port_take (nd : Node) (pm port : BitVec 2) (t : Tok) (q : Nat) :
    (nd.take pm port t).port q = (nd.setPort port.toNat t).port q := by
  unfold Node.take
  dsimp only
  split <;> rfl

theorem Node.st_take (nd : Node) (pm port : BitVec 2) (t : Tok) :
    (nd.take pm port t).st = if port = 3 ∧ nd.st = .waiting ∧ predLets pm t = false then .absorbed else nd.st := by
  simp [Node.take, apply_ite Node.st, and_assoc]

/-- A target at the own position is the null target (R207). -/
theorem Flight.deliver_null {fl : Flight} {self : Nat} {tg : Tgt} (t : Tok) (h : tg.pos.toNat = self) :
    fl.deliver self tg t = some fl := if_pos (beq_iff_eq.2 h)

section
variable {fl : Flight} {self : Nat} {tg : Tgt} {nd : Node}

/-- An empty port takes the token. -/
theorem Flight.deliver_empty (t : Tok) (hs : tg.pos.toNat ≠ self) (hn : fl.nodes[tg.pos.toNat]? = some nd)
    (hp : nd.port tg.port.toNat = none) :
    fl.deliver self tg t = some { fl with
      nodes := fl.nodes.set tg.pos.toNat (nd.take ((fl.sheaf.formAt tg.pos.toNat).elim 0 (·.pm)) tg.port t) } := by
  have hp' : ¬ (nd.port tg.port.toNat).isSome = true := by simp [hp]
  unfold Flight.deliver Sheaf.formAt
  dsimp only
  rw [if_neg (mt beq_iff_eq.1 hs), hn]
  dsimp only
  rw [if_neg hp', setAt_eq_set]
  cases fl.sheaf.insts[tg.pos.toNat]? with
  | none => rfl
  | some i => cases hf : i.form <;> simp [Node.take, hf]

/-- A second token finds its port taken (R208). -/
theorem Flight.deliver_taken (t : Tok) (hs : tg.pos.toNat ≠ self) (hn : fl.nodes[tg.pos.toNat]? = some nd)
    (hp : nd.port tg.port.toNat ≠ none) : fl.deliver self tg t = none := by
  unfold Flight.deliver
  simp [hs, hn, Option.isSome_iff_ne_none, hp]

end

/-- A result that finds a port taken raises multiple-token (R208). -/
theorem State.emit_of_taken {s : State} {is : Iss} {t : Tok} {fl : Flight} (hf : s.flight is.c is.k = some fl)
    (h : (fl.fired is.pos).deliver is.pos is.f.t t = none) : s.emit is t = s.fault is.c is.k .multipleToken := by
  simp [State.emit, State.emit2, State.withFlight, hf, Flight.emit, h, State.settle]

/-- Settles O12: the three outcomes of a delivery, and the trap of the last. -/
theorem tokenDelivery : Obligations.TokenDelivery := by
  refine ⟨fun fl self tg t nd => ⟨Flight.deliver_null t, fun hs hn hp => ⟨_, _, Flight.deliver_empty t hs hn hp, rfl, ?_⟩⟩,
    fun fl self tg t nd hs hn hp => Flight.deliver_taken t hs hn hp, fun s is t fl => State.emit_of_taken⟩
  simp only [Node.port_take, Node.st_take]
  refine ⟨Node.port_setPort_same .., fun q hq hne => Node.port_setPort_ne nd t (by omega) hq hne, fun h3 => ?_,
    fun h3 hw hl => if_pos ⟨h3, hw, hl⟩, fun _ hl => ?_⟩
  · exact if_neg fun ⟨h, _, _⟩ => h3 h
  · exact if_neg fun ⟨_, _, h⟩ => Bool.false_ne_true (h.symm.trans hl)

end Sys2Proof.Machine
end

section
/-!
The second pass of decoding (R217): what its checks accept.
-/

namespace Sys2Proof

/-! ### Lists of checks (R217) -/

theorem firstBad_eq_none_iff {l : List (Option Bad)} : firstBad l = none ↔ ∀ x ∈ l, x = none := by
  induction l with
  | nil => simp [firstBad]
  | cons x rest ih => cases x <;> simp [firstBad, ih]

/-- A fold that answers nothing exactly when neither side does answers nothing exactly when no element does. -/
theorem foldl_eq_none_iff {α : Type} {g : Option α → Option α → Option α}
    (hg : ∀ a b, g a b = none ↔ a = none ∧ b = none) (l : List (Option α)) (a : Option α) :
    l.foldl g a = none ↔ a = none ∧ ∀ x ∈ l, x = none := by
  induction l generalizing a with
  | nil => simp
  | cons x rest ih => simp [ih, hg, and_assoc]

theorem earliest_eq_none_iff {l : List (Option Bad)} : earliest l = none ↔ ∀ x ∈ l, x = none := by
  unfold earliest
  refine (foldl_eq_none_iff (fun a b => ?_) l none).trans (and_iff_right rfl)
  match a, b with
  | none, _ => simp
  | some _, none => simp
  | some _, some _ =>
    dsimp only
    split <;> simp

@[simp] theorem chk_eq_none_iff {ok : Bool} {dcode at_ : Nat} : chk ok dcode at_ = none ↔ ok = true := by
  cases ok <;> simp [chk]

/-! ### The checks of one instruction -/

/-- The checks of the second pass that read an instruction's row and fields alone. -/
structure Fits (i : Instr) (n : Info) (f : Form) : Prop where
  pm : f.pmOk i.pmAlways = true
  sub : n.sub.ok f.sub = true
  tg2 : n.tg2Ok f = true
  imm : n.immOk f = true
  reg : n.regOk f = true
  lsq : n.lsqOk f = true
  fmtCount : n.fmtCountOk f = true
  depCount : n.depCountOk f = true
  follow : i.followOk = true
  qsels : n.qselsOk f = true
  regs : i.regsOk f = true
  fmtCodes : n.fmtCodesOk f = true
  dep : n.depOk f = true

theorem wellFormed_iff {i : Instr} {n : Info} {f : Form} (hn : i.info = some n) (hf : i.form = some f) :
    i.wellFormed = true ↔ n.prefixes f ≤ 4 ∧ Fits i n f := by
  simp only [Instr.wellFormed, hn, hf, Bool.and_eq_true, decide_eq_true_eq, and_assoc]
  exact ⟨fun ⟨h, h1, h2, h3, h4, h5, h6, h7, h8, h9, h10, h11, h12, h13⟩ =>
      ⟨h, h1, h2, h3, h4, h5, h6, h7, h8, h9, h10, h11, h12, h13⟩,
    fun ⟨h, h1, h2, h3, h4, h5, h6, h7, h8, h9, h10, h11, h12, h13⟩ =>
      ⟨h, h1, h2, h3, h4, h5, h6, h7, h8, h9, h10, h11, h12, h13⟩⟩

/-- What the second pass asks of the syllables before the base themselves (R203, R204, R206): a PG only on pages 1 to 8, one of
a kind, one IMX chain, and reserved bits zero. -/
structure Raw.Tidy (r : Raw) (n : Info) : Prop where
  page : r.first kPG = none ∨ n.page ≠ 0
  once : ∀ k ∈ [kPG, kTG2, kREG, kLSQ, kDEP], (r.all k).length ≤ 1
  chain : splitImx 0 0 r.pre = none
  tg2 : ∀ p, r.first kTG2 = some p → p.extractLsb' 8 2 = 0#2
  lsq : ∀ p, r.first kLSQ = some p → p.extractLsb' 0 4 = 0#4

theorem checkPrefixes_eq_none_iff {n : Info} {f : Form} {r : Raw} :
    checkPrefixes n f r = none ↔ (r.first kPG = none ∨ n.page ≠ 0) ∧ n.tg2Ok f = true ∧ n.immOk f = true ∧
      n.regOk f = true ∧ n.lsqOk f = true ∧ n.fmtCountOk f = true ∧ n.depCountOk f = true ∧
      (∀ k ∈ [kPG, kTG2, kREG, kLSQ, kDEP], (r.all k).length ≤ 1) ∧ splitImx 0 0 r.pre = none := by
  unfold checkPrefixes
  rw [earliest_eq_none_iff]
  cases splitImx 0 0 r.pre <;> simp

theorem checkReserved_eq_none_iff {i : Instr} {n : Info} {f : Form} {r : Raw} :
    checkReserved i n f r = none ↔ (∀ p, r.first kTG2 = some p → p.extractLsb' 8 2 = 0#2) ∧
      (∀ p, r.first kLSQ = some p → p.extractLsb' 0 4 = 0#4 ∧ i.followOk = true) ∧ n.qselsOk f = true := by
  unfold checkReserved
  rw [earliest_eq_none_iff]
  cases r.first kTG2 <;> cases r.first kLSQ <;> simp

theorem checkInstr_eq_none_iff {i : Instr} {n : Info} {f : Form} {r : Raw} {place : Option Place} :
    checkInstr place i n f r = none ↔ f.pmOk i.pmAlways = true ∧ n.sub.ok f.sub = true ∧ checkPrefixes n f r = none ∧
      checkReserved i n f r = none ∧ (∀ p, place = some p → checkTargets p f r = none) ∧
      checkRegs (place.any (·.burr)) i f r = none ∧ n.fmtCodesOk f = true ∧ n.depOk f = true ∧
      (∀ p, place = some p → n.priv = true → p.priv = true) := by
  unfold checkInstr
  rw [firstBad_eq_none_iff]
  cases place <;> simp

/-- A register number that a burr may name is one of R205. -/
theorem regNumOk_of_burr {c : BitVec 2} {n : BitVec 8} (h : regNumBurrOk c n = true) : regNumOk c n = true := by
  unfold regNumBurrOk at h
  unfold regNumOk
  by_cases hg : (c == 0) = true
  · rw [if_pos hg] at h ⊢
    exact decide_eq_true (Nat.lt_trans (of_decide_eq_true h) (by decide))
  rw [if_neg hg] at h ⊢
  by_cases hv : (c == 1) = true
  · rw [if_pos hv] at h
    cases h
  rw [if_neg hv] at h ⊢
  by_cases hs : (c == 2) = true
  · rw [if_pos hs] at h ⊢
    simp only [Bool.or_eq_true, beq_iff_eq] at h
    obtain (rfl | rfl) | rfl := h <;> rfl
  · rwa [if_neg hs] at h ⊢

theorem checkRegs_eq_none_iff {i : Instr} {f : Form} {r : Raw} : checkRegs false i f r = none ↔ i.regsOk f = true := by
  unfold checkRegs Instr.regsOk
  rw [earliest_eq_none_iff]
  cases f.reg <;> simp

/-- The registers of a burr's instruction are registers of R205 too. -/
theorem regsOk_of_checkRegs {burr : Bool} {i : Instr} {f : Form} {r : Raw} (h : checkRegs burr i f r = none) :
    i.regsOk f = true := by
  cases burr with
  | false => exact checkRegs_eq_none_iff.1 h
  | true =>
    unfold checkRegs at h
    unfold Instr.regsOk
    rw [earliest_eq_none_iff] at h
    cases hr : f.reg with
    | none =>
      simp only [hr, List.forall_mem_cons, chk_eq_none_iff] at h ⊢
      exact h.2.2.1
    | some cn =>
      simp only [hr, List.forall_mem_cons, chk_eq_none_iff, Bool.and_eq_true] at h ⊢
      exact ⟨regNumOk_of_burr h.1, h.2.2.1⟩

/-- What passes the checks of its prefixes and fields fits its row; follow mode is asked of an LSQ syllable only. -/
theorem fits_of_checkInstr {place : Option Place} {i : Instr} {n : Info} {r : Raw}
    (hfol : r.first kLSQ = none → i.followOk = true) (h : checkInstr place i n r.form r = none) : Fits i n r.form := by
  obtain ⟨hpm, hsub, hpre, hres, -, hregs, hcodes, hdep, -⟩ := checkInstr_eq_none_iff.1 h
  obtain ⟨-, htg2, himm, hreg, hlsq, hfc, hdc, -, -⟩ := checkPrefixes_eq_none_iff.1 hpre
  obtain ⟨-, hl, hq⟩ := checkReserved_eq_none_iff.1 hres
  refine ⟨hpm, hsub, htg2, himm, hreg, hlsq, hfc, hdc, ?_, hq, regsOk_of_checkRegs hregs, hcodes, hdep⟩
  cases hk : r.first kLSQ with
  | none => exact hfol hk
  | some p => exact (hl p hk).2

/-- Without a place no other check is made. -/
theorem checkInstr_of_fits {i : Instr} {n : Info} {f : Form} {r : Raw} (hfit : Fits i n f) (ht : r.Tidy n) :
    checkInstr none i n f r = none :=
  checkInstr_eq_none_iff.2 ⟨hfit.pm, hfit.sub,
    checkPrefixes_eq_none_iff.2 ⟨ht.page, hfit.tg2, hfit.imm, hfit.reg, hfit.lsq, hfit.fmtCount, hfit.depCount, ht.once, ht.chain⟩,
    checkReserved_eq_none_iff.2 ⟨ht.tg2, fun p hp => ⟨ht.lsq p hp, hfit.follow⟩, hfit.qsels⟩, nofun,
    checkRegs_eq_none_iff.2 hfit.regs, hfit.fmtCodes, hfit.dep, nofun⟩

/-! ### One instruction -/

theorem decodeAt_eq_ok_iff {place : Option Place} {syls rest : List Syl} {i : Instr} {r : Raw} :
    decodeAt place syls = .ok (i, r, rest) ↔ splitFrom 0 [] syls = .ok (r, rest) ∧ r.page ≤ 8 ∧
      opcode r.page r.op r.form = some i ∧ ∃ n, i.info = some n ∧ checkInstr place i n r.form r = none := by
  unfold decodeAt
  constructor
  · intro h
    split at h
    · cases h
    next r' rest' hs =>
      by_cases hp : 8 < r'.page
      · simp [hp] at h
      rw [if_neg hp] at h
      split at h
      · split at h
        · split at h <;> cases h
        · cases h
      next j hj =>
        split at h
        · cases h
        next n hn =>
          split at h
          · cases h
          next hc =>
            cases h
            exact ⟨hs, Nat.le_of_not_lt hp, hj, n, hn, hc⟩
  · rintro ⟨hs, hp, ho, n, hn, hc⟩
    rw [hs]
    dsimp only
    rw [if_neg (Nat.not_lt.2 hp), ho]
    dsimp only
    rw [hn]
    dsimp only
    rw [hc]

end Sys2Proof
end

section
/-!
The opcode tables (R213, R214): an instruction's row names the page and OP at which the lookup finds it, and the lookup answers
no other.
-/

namespace Sys2Proof
open Sys2Proof.Laws

/-- The entries of a page's list, the first of them at OP `k`, make instructions of that page and of their own OP, none an
LDF. -/
def RowsOf (page : Nat) : Nat → List (Option (Form → Instr)) → Prop
  | _, [] => True
  | k, none :: rest => RowsOf page (k + 1) rest
  | k, some c :: rest =>
    (∀ f, (c f).form = some f ∧ (c f).info.map (fun n => (n.page, n.op)) = some (page, k) ∧
      (c f).followOk = !(f.lsq.any (·.2))) ∧ RowsOf page (k + 1) rest

/-- An instruction with its fields, page and OP, and follow mode as its LSQ has it: what the lookup answers. -/
structure RowAt (page op : Nat) (f : Form) (i : Instr) : Prop where
  form : i.form = some f
  info : i.info.map (fun n => (n.page, n.op)) = some (page, op)
  follow : f.lsq = none → i.followOk = true

theorem RowsOf.rowAt {page k op : Nat} {l : List (Option (Form → Instr))} {f : Form} {i : Instr} (hl : RowsOf page k l)
    (h : opcode.pick f l op = some i) : RowAt page (k + op) f i := by
  induction l generalizing k op with
  | nil => simp [opcode.pick] at h
  | cons c rest ih =>
    cases op with
    | zero =>
      cases c with
      | none => simp [opcode.pick] at h
      | some c =>
        simp only [opcode.pick, List.getElem?_cons_zero, Option.some.injEq] at h
        subst h
        obtain ⟨hform, hinfo, hfol⟩ := hl.1 f
        exact ⟨hform, hinfo, fun hn => by simp [hfol, hn]⟩
    | succ op =>
      have hrest : RowsOf page (k + 1) rest := by cases c with
        | none => exact hl
        | some c => exact hl.2
      have hat := ih hrest (op := op) (by simpa [opcode.pick] using h)
      rwa [Nat.add_right_comm] at hat

/-- The list of a page. -/
def opPage : Nat → List (Option (Form → Instr))
  | 0 => opPage0
  | 1 => opPage1
  | 2 => opPage2
  | 3 => opPage3
  | 4 => opPage4
  | 5 => opPage5
  | 6 => opPage6
  | 7 => opPage7
  | 8 => opPage8
  | _ => []

/-- Every entry of the opcode tables stands on the page and at the OP of its row. -/
theorem rowsOf_opPage (page : Nat) : RowsOf page 0 (opPage page) := by
  match page with
  | 0 => simp [opPage, opPage0, RowsOf, Instr.form, Instr.info, Instr.followOk]
  | 1 => simp [opPage, opPage1, RowsOf, Instr.form, Instr.info, Instr.followOk]
  | 2 => simp [opPage, opPage2, RowsOf, Instr.form, Instr.info, Instr.followOk]
  | 3 => simp [opPage, opPage3, RowsOf, Instr.form, Instr.info, Instr.followOk]
  | 4 => simp [opPage, opPage4, RowsOf, Instr.form, Instr.info, Instr.followOk]
  | 5 => simp [opPage, opPage5, RowsOf, Instr.form, Instr.info, Instr.followOk]
  | 6 => simp [opPage, opPage6, RowsOf, Instr.form, Instr.info, Instr.followOk]
  | 7 => simp [opPage, opPage7, RowsOf, Instr.form, Instr.info, Instr.followOk]
  | 8 => simp [opPage, opPage8, RowsOf, Instr.form, Instr.info, Instr.followOk]
  | _ + 9 => trivial

/-- Without follow mode on page 0, and but for SEND.ord, the lookup takes the list of the page. -/
theorem opcode_eq_pick {page op : Nat} {f : Form} (hfol : page = 0 → (!(f.lsq.any (·.2))) = true)
    (hsub : (page == 6 && op == 9 && f.sub == 1) = false) : opcode page op f = opcode.pick f (opPage page) op := by
  match page with
  | 0 => exact Row.page0 op (hfol rfl)
  | 6 => exact if_neg (by simpa using hsub)
  | 1 | 2 | 3 | 4 | 5 | 7 | 8 | _ + 9 => rfl

/-- In follow mode page 0 gives an LDF at the LDs' OPs, and at the others what its list holds. -/
theorem opcode_follow_cases {op : Nat} {f : Form} {i : Instr} (hfol : f.lsq.any (·.2) = true)
    (h : opcode 0 op f = some i) :
    (∃ k : LdForm, op = 0x20 + k.index ∧ i = .ldf k f) ∨ opcode.pick f opPage0 op = some i := by
  match hl : f.lsq with
  | none => simp [hl] at hfol
  | some (lsn, false) => simp [hl] at hfol
  | some (lsn, true) =>
    simp only [opcode, hl] at h
    split at h
    case h_9 => exact .inr h
    all_goals
      cases h
      exact .inl ⟨_, rfl, rfl⟩

/-- The lookup: an LDF in follow mode, SEND.ord by its SUB, else what the list of the page holds. -/
theorem opcode_cases {page op : Nat} {f : Form} {i : Instr} (h : opcode page op f = some i) :
    (∃ k : LdForm, page = 0 ∧ op = 0x20 + k.index ∧ f.lsq ≠ none ∧ i = .ldf k f) ∨
      (page = 6 ∧ op = 9 ∧ i = .sendOrd f) ∨ opcode.pick f (opPage page) op = some i := by
  by_cases hfol : page = 0 ∧ f.lsq.any (·.2) = true
  · obtain ⟨rfl, hfol⟩ := hfol
    obtain ⟨k, ho, hi⟩ | hp := opcode_follow_cases hfol h
    · exact .inl ⟨k, rfl, ho, fun hn => by simp [hn] at hfol, hi⟩
    · exact .inr (.inr hp)
  by_cases hsub : (page == 6 && op == 9 && f.sub == 1) = true
  · simp only [Bool.and_eq_true, beq_iff_eq] at hsub
    obtain ⟨⟨rfl, rfl⟩, hs⟩ := hsub
    have hord : opcode 6 9 f = some (.sendOrd f) := if_pos (by simp [hs])
    exact .inr (.inl ⟨rfl, rfl, Option.some.inj (h.symm.trans hord)⟩)
  · rw [opcode_eq_pick (fun h0 => by simpa [h0] using hfol) (by simpa using hsub)] at h
    exact .inr (.inr h)

theorem opcode_rowAt {page op : Nat} {f : Form} {i : Instr} (h : opcode page op f = some i) : RowAt page op f i := by
  obtain ⟨k, rfl, rfl, hl, rfl⟩ | ⟨rfl, rfl, rfl⟩ | hp := opcode_cases h
  · exact ⟨rfl, rfl, fun hn => absurd hn hl⟩
  · exact ⟨rfl, rfl, fun hn => by simp [Instr.followOk, Instr.form, hn]⟩
  · simpa using (rowsOf_opPage page).rowAt hp

/-- The row of a well-formed sheaf instruction is found by its page and OP. -/
theorem opcode_of_wellFormed {i : Instr} {n : Info} {f : Form} (hn : i.info = some n) (hf : i.form = some f)
    (hw : i.wellFormed = true) : opcode n.page n.op f = some i := by
  have hfol := Row.followOk_of_wellFormed hn hf hw
  have hsub := Row.sub_of_wellFormed hn hf hw
  cases i with
  | ldf k f =>
    cases hf
    cases hn
    exact Row.page0_follow k hfol
  | send f =>
    cases hf
    cases hn
    have h0 : f.sub = 0 := BitVec.eq_of_toNat_eq (Nat.le_zero.1 (of_decide_eq_true hsub))
    exact (opcode_eq_pick (page := 6) (op := 9) nofun (by simp [h0])).trans rfl
  | sendOrd f =>
    cases hf
    cases hn
    exact if_pos (by simpa [SubUse.ok] using hsub)
  | _ =>
    -- The other instructions of a sheaf stand in the list of their page; the steps of the device have no form.
    cases hf <;> cases hn <;> exact (opcode_eq_pick (fun _ => hfol) rfl).trans rfl

/-- The pages are those of the tables, and no OP reads as the mark of a leading syllable. -/
theorem info_bounds {i : Instr} {n : Info} (hn : i.info = some n) : n.page ≤ 8 ∧ n.op < 0x38 := by
  cases i with
  | ldf k f =>
    cases hn
    cases k <;> decide
  | _ => cases hn <;> exact ⟨by simp, by simp⟩

/-- A sheaf instruction has a row. -/
theorem info_of_form {i : Instr} {f : Form} (hf : i.form = some f) : ∃ n, i.info = some n := by
  cases i <;> cases hf <;> exact ⟨_, rfl⟩

/-- Page 0 has no PG to carry a SUB (R203). -/
theorem sub_of_page0 {i : Instr} {n : Info} (hn : i.info = some n) (h0 : n.page = 0) : n.sub = .upTo 0 := by
  cases i <;> cases hn <;> simp at h0 ⊢

end Sys2Proof
end

section
/-!
The fields of syllables (R201 to R203), packed by `encode` and taken apart by the decoder.
-/

namespace Sys2Proof

theorem toNat_append_eq_add {v w : Nat} (a : BitVec v) (b : BitVec w) : (a ++ b).toNat = a.toNat * 2 ^ w + b.toNat := by
  rw [BitVec.toNat_append, ← Nat.shiftLeft_add_eq_or_of_lt b.isLt, Nat.shiftLeft_eq]

section
variable (a2 : BitVec 2) (a4 : BitVec 4) (a6 : BitVec 6) (b8 : BitVec 8)

@[simp] theorem codeField_append : (a6 ++ a4 : BitVec 10).extractLsb' 4 6 = a6 := BitVec.extractLsb'_append_eq_left
@[simp] theorem selField_append : (a6 ++ a4 : BitVec 10).extractLsb' 0 4 = a4 := BitVec.extractLsb'_append_eq_right
@[simp] theorem pageField_append : (a4 ++ a6 : BitVec 10).extractLsb' 6 4 = a4 := BitVec.extractLsb'_append_eq_left
@[simp] theorem subField_append : (a4 ++ a6 : BitVec 10).extractLsb' 0 6 = a6 := BitVec.extractLsb'_append_eq_right
@[simp] theorem classField_append : (a2 ++ b8 : BitVec 10).extractLsb' 8 2 = a2 := BitVec.extractLsb'_append_eq_left
@[simp] theorem byteField_append : (a2 ++ b8 : BitVec 10).extractLsb' 0 8 = b8 := BitVec.extractLsb'_append_eq_right
@[simp] theorem toNat_codeSel : (a6 ++ a4 : BitVec 10).toNat = a6.toNat * 16 + a4.toNat := toNat_append_eq_add a6 a4
@[simp] theorem toNat_pageSub : (a4 ++ a6 : BitVec 10).toNat = a4.toNat * 64 + a6.toNat := toNat_append_eq_add a4 a6
@[simp] theorem toNat_classNumber : (a2 ++ b8 : BitVec 10).toNat = a2.toNat * 256 + b8.toNat := toNat_append_eq_add a2 b8

end

/-- The payload of an LSQ syllable (R203): LSN, follow bit, four reserved bits. -/
def lsqPayload (lsn : BitVec 5) (fol : Bool) : BitVec 10 := lsn ++ (BitVec.ofBool fol ++ 0#4)

section
variable (lsn : BitVec 5) (fol : Bool)

@[simp] theorem lsqPayload_lsn : (lsqPayload lsn fol).extractLsb' 5 5 = lsn := BitVec.extractLsb'_append_eq_left

@[simp] theorem lsqPayload_reserved : (lsqPayload lsn fol).extractLsb' 0 4 = 0#4 :=
  (BitVec.extractLsb'_append_eq_of_add_le (by decide)).trans BitVec.extractLsb'_append_eq_right

@[simp] theorem lsqPayload_follow : (lsqPayload lsn fol)[4] = fol := by
  rw [← BitVec.getLsbD_eq_getElem, show (lsqPayload lsn fol).getLsbD 4 = _ from BitVec.getLsbD_append]
  cases fol <;> rfl

@[simp] theorem lsqPayload_toNat : (lsqPayload lsn fol).toNat = lsn.toNat * 32 + fol.toNat * 16 := by
  refine (toNat_append_eq_add lsn (BitVec.ofBool fol ++ 0#4)).trans ?_
  rw [toNat_append_eq_add, BitVec.toNat_ofBool, BitVec.toNat_zero]
  omega

end

/-- The payload of a TG2 syllable (R203): two reserved bits, PORT, POS. -/
def Tgt.payload (t : Tgt) : BitVec 10 := 0#2 ++ (t.port ++ t.pos)

section
variable (t : Tgt)

theorem tgtOf_append : tgtOf (t.port ++ t.pos) = t := by
  have hport : (t.port ++ t.pos : BitVec 8).extractLsb' 6 2 = t.port := BitVec.extractLsb'_append_eq_left
  have hpos : (t.port ++ t.pos : BitVec 8).extractLsb' 0 6 = t.pos := BitVec.extractLsb'_append_eq_right
  rw [tgtOf, hport, hpos]

@[simp] theorem Tgt.payload_reserved : t.payload.extractLsb' 8 2 = 0#2 := BitVec.extractLsb'_append_eq_left

@[simp] theorem Tgt.payload_target : tgtOf (t.payload.extractLsb' 0 8) = t := by
  rw [show t.payload.extractLsb' 0 8 = t.port ++ t.pos from BitVec.extractLsb'_append_eq_right, tgtOf_append]

@[simp] theorem Tgt.payload_toNat : t.payload.toNat = t.byte := by
  refine (toNat_append_eq_add 0#2 (t.port ++ t.pos)).trans ?_
  rw [toNat_append_eq_add, BitVec.toNat_zero, Nat.zero_mul, Nat.zero_add]
  rfl

end

/-- A leading syllable (R202): three ones, KIND, PAYLOAD. -/
theorem prefixSyl_eq_append {k : Nat} (hk : k < 8) (v : BitVec 10) :
    prefixSyl k v.toNat = 7#3 ++ (BitVec.ofNat 3 k ++ v) := by
  refine BitVec.eq_of_toNat_eq ?_
  have hv := v.isLt
  simp only [prefixSyl, toNat_append_eq_add, BitVec.toNat_ofNat]
  omega

section
variable {k : Nat} (hk : k < 8) (v : BitVec 10)
include hk

theorem prefixSyl_mark : (prefixSyl k v.toNat).extractLsb' 13 3 = 7#3 := by
  rw [prefixSyl_eq_append hk]
  exact BitVec.extractLsb'_append_eq_left

theorem prefixSyl_kind : ((prefixSyl k v.toNat).extractLsb' 10 3).toNat = k := by
  have h : ((7#3 ++ (BitVec.ofNat 3 k ++ v) : BitVec 16).extractLsb' 10 3) = BitVec.ofNat 3 k :=
    (BitVec.extractLsb'_append_eq_of_add_le (by decide)).trans BitVec.extractLsb'_append_eq_left
  rw [prefixSyl_eq_append hk, h, BitVec.toNat_ofNat, Nat.mod_eq_of_lt hk]

theorem prefixSyl_payload : (prefixSyl k v.toNat).extractLsb' 0 10 = v := by
  rw [prefixSyl_eq_append hk]
  exact (BitVec.extractLsb'_append_eq_of_add_le (by decide)).trans BitVec.extractLsb'_append_eq_right

end

/-- The base syllable of R201: OP, PM, PORT and POS of the first target. -/
def baseSyl (n : Info) (f : Form) : Syl := BitVec.ofNat 6 n.op ++ (f.pm ++ (f.t.port ++ f.t.pos))

section
variable (n : Info) (f : Form)

theorem baseSyl_op : (baseSyl n f).extractLsb' 10 6 = BitVec.ofNat 6 n.op := BitVec.extractLsb'_append_eq_left

theorem baseSyl_pm : (baseSyl n f).extractLsb' 8 2 = f.pm :=
  (BitVec.extractLsb'_append_eq_of_add_le (by decide)).trans BitVec.extractLsb'_append_eq_left

theorem baseSyl_target : tgtOf ((baseSyl n f).extractLsb' 0 8) = f.t := by
  have h : (baseSyl n f).extractLsb' 0 8 = f.t.port ++ f.t.pos :=
    (BitVec.extractLsb'_append_eq_of_add_le (by decide)).trans BitVec.extractLsb'_append_eq_right
  rw [h, tgtOf_append]

/-- An OP below 0x38 does not read as the mark of a leading syllable. -/
theorem baseSyl_mark (ho : n.op < 0x38) : (baseSyl n f).extractLsb' 13 3 ≠ 7#3 := by
  have h : (baseSyl n f).extractLsb' 13 3 = ((baseSyl n f).extractLsb' 10 6).extractLsb' 3 3 := by
    exact (extractLsb'_extractLsb' (a := 10) (n := 6) (b := 3) (m := 3) _ (by decide)).symm
  rw [h, baseSyl_op]
  intro h7
  have h7' := congrArg BitVec.toNat h7
  rw [BitVec.extractLsb'_toNat, BitVec.toNat_ofNat, Nat.shiftRight_eq_div_pow, BitVec.toNat_ofNat] at h7'
  omega

end

end Sys2Proof
end

section
/-!
What `encode` writes (R206), split and read back (R201 to R204).
-/

namespace Sys2Proof

/-! ### The syllables of an instruction -/

/-- The prefixes of an instruction as (KIND, PAYLOAD), in the order of R206. -/
def Info.prefixList (n : Info) (f : Form) : List (Nat × BitVec 10) :=
  (if n.page = 0 then [] else [f.sub]).map (fun s => (kPG, BitVec.ofNat 4 n.page ++ s)) ++
  f.fmts.map (fun p => (kFMT, p.1 ++ p.2)) ++
  f.dep.toList.map (fun p => (kDEP, p.1 ++ p.2)) ++
  f.reg.toList.map (fun p => (kREG, p.1 ++ p.2)) ++
  f.lsq.toList.map (fun p => (kLSQ, lsqPayload p.1 p.2)) ++
  f.t2.toList.map (fun t => (kTG2, t.payload)) ++
  f.imm.map (fun v => (kIMX, v))

theorem length_prefixList (n : Info) (f : Form) : (n.prefixList f).length = n.prefixes f := by
  simp only [Info.prefixList, Info.prefixes, List.length_append, List.length_map, Option.length_toList, beq_iff_eq]
  have hpg : (if n.page = 0 then [] else [f.sub]).length = if n.page = 0 then 0 else 1 := by split <;> rfl
  omega

theorem kind_prefixList (n : Info) (f : Form) : ∀ p ∈ n.prefixList f, p.1 < 7 := by
  simp only [Info.prefixList, List.forall_mem_append, List.forall_mem_map]
  simp [kPG, kFMT, kDEP, kREG, kLSQ, kTG2, kIMX]

theorem encode_eq {i : Instr} {n : Info} {f : Form} (hn : i.info = some n) (hf : i.form = some f) (hp : n.page ≤ 8) :
    encode i = (n.prefixList f).map (fun p => prefixSyl p.1 p.2.toNat) ++ [baseSyl n f] := by
  have hbase : BitVec.ofNat 16 (n.op * 1024 + f.pm.toNat * 256 + f.t.byte) = baseSyl n f := by
    refine BitVec.eq_of_toNat_eq ?_
    simp only [baseSyl, toNat_append_eq_add, BitVec.toNat_ofNat, Tgt.byte]
    omega
  have hpage : (if n.page == 0 then [] else [prefixSyl kPG (n.page * 64 + f.sub.toNat)]) =
      (if n.page = 0 then [] else [f.sub]).map (fun s => prefixSyl kPG (BitVec.ofNat 4 n.page ++ s).toNat) := by
    by_cases h0 : n.page = 0
    · simp [h0]
    · simp [h0, Nat.mod_eq_of_lt (show n.page < 16 by omega)]
  simp only [encode, hn, hf, hbase, hpage, Info.prefixList, List.map_append, List.map_map, Function.comp_def]
  -- The four fields that may be absent.
  cases f.dep <;> cases f.reg <;> cases f.lsq <;> cases f.t2 <;> simp

/-! ### Splitting syllables into prefixes and base (R201) -/

/-- Up to four leading syllables are read in order, then the base syllable. -/
theorem splitFrom_prefixes {n : Nat} {acc ps : List (Nat × BitVec 10)} {b : Syl} (rest : List Syl)
    (hk : ∀ p ∈ ps, p.1 < 7) (hn : n + ps.length ≤ 4) (hb : b.extractLsb' 13 3 ≠ 7#3) :
    splitFrom n acc (ps.map (fun p => prefixSyl p.1 p.2.toNat) ++ b :: rest) = .ok (⟨acc ++ ps, b⟩, rest) := by
  induction ps generalizing n acc with
  | nil => simp [splitFrom, hb]
  | cons p ps ih =>
    have hp : p.1 < 7 := hk p List.mem_cons_self
    have hlen : n + (ps.length + 1) ≤ 4 := hn
    have hkind : ((prefixSyl p.1 p.2.toNat).extractLsb' 10 3 == 7#3) = false := by
      refine beq_eq_false_iff_ne.2 fun h7 => ?_
      have h7' : p.1 = 7 := (prefixSyl_kind (Nat.lt_succ_of_lt hp) p.2).symm.trans (congrArg BitVec.toNat h7)
      omega
    rw [List.map_cons, List.cons_append, splitFrom, prefixSyl_mark (by omega), prefixSyl_kind (by omega),
      prefixSyl_payload (by omega), hkind, ih (fun q hq => hk q (List.mem_cons_of_mem _ hq)) (by omega)]
    simp [show n ≠ 4 by omega]

/-- What splitting reads: prefixes, one base syllable, and four prefixes at most. -/
theorem splitFrom_spec {n : Nat} {acc : List (Nat × BitVec 10)} {syls rest : List Syl} {r : Raw} (hn : n ≤ 4)
    (h : splitFrom n acc syls = .ok (r, rest)) :
    ∃ ps pre, r.pre = acc ++ ps ∧ syls = pre ++ rest ∧ pre.length = ps.length + 1 ∧ n + ps.length ≤ 4 := by
  induction syls generalizing n acc with
  | nil => cases h
  | cons s syls ih =>
    unfold splitFrom at h
    split at h
    · split at h
      · cases h
      next h4 =>
        split at h
        · cases h
        have hne : n ≠ 4 := mt beq_iff_eq.2 h4
        obtain ⟨ps, pre, hr, rfl, hl, hle⟩ := ih (by omega) h
        rw [List.append_assoc] at hr
        exact ⟨_ :: ps, s :: pre, hr, rfl, congrArg (· + 1) hl, by rw [List.length_cons]; omega⟩
    · cases h
      exact ⟨[], [s], (List.append_nil acc).symm, rfl, rfl, hn⟩

/-! ### The prefixes of one kind -/

@[simp] theorem Raw.all_append (xs ys : List (Nat × BitVec 10)) (b : Syl) (k : Nat) :
    Raw.all ⟨xs ++ ys, b⟩ k = Raw.all ⟨xs, b⟩ k ++ Raw.all ⟨ys, b⟩ k := by
  simp [Raw.all]

@[simp] theorem Raw.all_map {α : Type} (l : List α) (k' : Nat) (g : α → BitVec 10) (b : Syl) (k : Nat) :
    Raw.all ⟨l.map (fun x => (k', g x)), b⟩ k = if k' = k then l.map g else [] := by
  unfold Raw.all
  by_cases h : k' = k
  · rw [if_pos h, List.filter_eq_self.2 (by simp [h]), List.map_map]
    rfl
  · rw [if_neg h, List.filter_eq_nil_iff.2 (by simp [h]), List.map_nil]

@[simp] theorem Raw.all_mk (l : List (BitVec 10)) (k' : Nat) (b : Syl) (k : Nat) :
    Raw.all ⟨l.map (Prod.mk k'), b⟩ k = if k' = k then l else [] := by
  simpa using Raw.all_map l k' id b k

/-- The prefixes and base syllable of an instruction. -/
def Info.raw (n : Info) (f : Form) : Raw := ⟨n.prefixList f, baseSyl n f⟩

section
variable (n : Info) (f : Form)

theorem Info.raw_all (k : Nat) : (n.raw f).all k =
    (if kPG = k then (if n.page = 0 then [] else [f.sub]).map (BitVec.ofNat 4 n.page ++ ·) else []) ++
    (if kFMT = k then f.fmts.map (fun p => p.1 ++ p.2) else []) ++
    (if kDEP = k then f.dep.toList.map (fun p => p.1 ++ p.2) else []) ++
    (if kREG = k then f.reg.toList.map (fun p => p.1 ++ p.2) else []) ++
    (if kLSQ = k then f.lsq.toList.map (fun p => lsqPayload p.1 p.2) else []) ++
    (if kTG2 = k then f.t2.toList.map Tgt.payload else []) ++
    (if kIMX = k then f.imm else []) := by
  simp [Info.raw, Info.prefixList]

@[simp] theorem Info.raw_kinds :
    (n.raw f).all kPG = (if n.page = 0 then [] else [f.sub]).map (BitVec.ofNat 4 n.page ++ ·) ∧
    (n.raw f).all kFMT = f.fmts.map (fun p => p.1 ++ p.2) ∧
    (n.raw f).all kDEP = f.dep.toList.map (fun p => p.1 ++ p.2) ∧
    (n.raw f).all kREG = f.reg.toList.map (fun p => p.1 ++ p.2) ∧
    (n.raw f).all kLSQ = f.lsq.toList.map (fun p => lsqPayload p.1 p.2) ∧
    (n.raw f).all kTG2 = f.t2.toList.map Tgt.payload ∧
    (n.raw f).all kIMX = f.imm := by
  simp [Info.raw_all, kPG, kFMT, kDEP, kREG, kLSQ, kTG2, kIMX]

/-- SUB is read from a PG syllable, which page 0 has not. -/
theorem Info.raw_sub (hp : n.page ≤ 8) (hs : n.page = 0 → f.sub = 0) : (n.raw f).form.sub = f.sub := by
  by_cases h0 : n.page = 0
  · simp [Raw.form, Raw.first, h0, hs h0]
  · have hpage : BitVec.ofNat 4 n.page ≠ 0#4 := fun h => by
      have h' := congrArg BitVec.toNat h
      rw [BitVec.toNat_ofNat, BitVec.toNat_zero] at h'
      omega
    simp [Raw.form, Raw.first, h0, hpage]

/-- The fields are read back. -/
theorem Info.raw_form (hp : n.page ≤ 8) (hs : n.page = 0 → f.sub = 0) : (n.raw f).form = f := by
  have hsub := n.raw_sub f hp hs
  obtain ⟨pm, t, sub, t2, imm, reg, lsq, fmts, dep⟩ := f
  exact (Form.mk.injEq ..).mpr ⟨baseSyl_pm .., baseSyl_target .., hsub, by simp [Raw.first, Function.comp_def], by simp,
    by simp [Raw.first, Function.comp_def], by simp [Raw.first, Function.comp_def], by simp [Function.comp_def],
    by simp [Raw.first, Function.comp_def]⟩

theorem Info.raw_pageNumber (hp : n.page ≤ 8) : (n.raw f).page = n.page := by
  by_cases h0 : n.page = 0
  · simp [Raw.page, Raw.first, h0]
  · simp [Raw.page, Raw.first, h0, Nat.mod_eq_of_lt (show n.page < 16 by omega)]

theorem Info.raw_op (ho : n.op < 0x38) : (n.raw f).op = n.op := by
  rw [Raw.op, show (n.raw f).base.extractLsb' 10 6 = _ from baseSyl_op n f, BitVec.toNat_ofNat]
  omega

/-- An IMX chain does not split itself (R204). -/
theorem splitImx_chain {i st : Nat} (vs : List (BitVec 10)) (h : st ≠ 2) : splitImx i st (vs.map (Prod.mk kIMX)) = none := by
  induction vs generalizing i st with
  | nil => rfl
  | cons v vs ih => simpa [splitImx, h] using ih (by decide)

/-- A chain behind the other prefixes is not split. -/
theorem splitImx_append {i : Nat} {ps : List (Nat × BitVec 10)} (vs : List (BitVec 10)) (h : ∀ p ∈ ps, p.1 ≠ kIMX) :
    splitImx i 0 (ps ++ vs.map (Prod.mk kIMX)) = none := by
  induction ps generalizing i with
  | nil => exact splitImx_chain vs (by decide)
  | cons p ps ih =>
    simpa [splitImx, h p List.mem_cons_self] using ih fun q hq => h q (List.mem_cons_of_mem _ hq)

/-- The prefixes that `encode` writes are tidy. -/
theorem Info.raw_tidy : (n.raw f).Tidy n where
  page := by by_cases h0 : n.page = 0 <;> simp [Raw.first, h0]
  once := by
    have hpg : (if n.page = 0 then [] else [f.sub]).length ≤ 1 := by split <;> simp
    have hopt : ∀ {α : Type} (o : Option α), o.toList.length ≤ 1 := fun o => by cases o <;> simp
    simp [hpg, hopt]
  chain := splitImx_append f.imm (by
    simp only [List.forall_mem_append, List.forall_mem_map]
    simp [kPG, kFMT, kDEP, kREG, kLSQ, kTG2, kIMX])
  tg2 := by simp [Raw.first]
  lsq := by cases hl : f.lsq <;> simp [Raw.first, hl]

end

/-- Settles O1: the syllables split into the prefixes and base of the instruction, whose fields, page and OP are read back, and
the checks pass. -/
theorem encodeThenDecode : Obligations.EncodeThenDecode := by
  intro i rest hform hw
  obtain ⟨f, hf⟩ := Option.isSome_iff_exists.1 hform
  obtain ⟨n, hn⟩ := info_of_form hf
  obtain ⟨hlen, hfit⟩ := (wellFormed_iff hn hf).1 hw
  obtain ⟨hpage, hop⟩ := info_bounds hn
  have hsub : n.page = 0 → f.sub = 0 := fun h0 => by
    have hok := hfit.sub
    rw [sub_of_page0 hn h0] at hok
    exact BitVec.eq_of_toNat_eq (Nat.le_zero.1 (of_decide_eq_true hok))
  have hsplit : splitFrom 0 [] (encode i ++ rest) = .ok (n.raw f, rest) := by
    rw [encode_eq hn hf hpage, List.append_assoc]
    exact splitFrom_prefixes rest (kind_prefixList n f) (by rw [length_prefixList]; omega) (baseSyl_mark n f hop)
  have hdec : decodeAt none (encode i ++ rest) = .ok (i, n.raw f, rest) := by
    refine decodeAt_eq_ok_iff.2 ⟨hsplit, ?_, ?_, n, hn, ?_⟩
    · rw [n.raw_pageNumber f hpage]
      exact hpage
    · rw [n.raw_pageNumber f hpage, n.raw_op f hop, n.raw_form f hpage hsub]
      exact opcode_of_wellFormed hn hf hw
    · rw [n.raw_form f hpage hsub]
      exact checkInstr_of_fits hfit (n.raw_tidy f)
  rw [decodeInstr, hdec]

end Sys2Proof
end

section
/-!
What the decoder accepts: a well-formed instruction (R217), and a sheaf within its limits (R210, R212, R297).
-/

namespace Sys2Proof

/-- The prefixes of the seven kinds are prefixes. -/
theorem Raw.length_all_le (r : Raw) :
    (r.all kIMX).length + (r.all kTG2).length + (r.all kPG).length + (r.all kREG).length + (r.all kLSQ).length +
      (r.all kFMT).length + (r.all kDEP).length ≤ r.pre.length := by
  obtain ⟨pre, base⟩ := r
  simp only [Raw.all, List.length_map, ← List.countP_eq_length_filter, kIMX, kTG2, kPG, kREG, kLSQ, kFMT, kDEP]
  induction pre with
  | nil => simp
  | cons p pre ih =>
    obtain ⟨k, v⟩ := p
    simp only [List.countP_cons, List.length_cons]
    match k with
    | 0 | 1 | 2 | 3 | 4 | 5 | 6 | _ + 7 => simp; omega

/-- Pages 1 to 8 are named by a PG syllable. -/
theorem Raw.pg_of_page {r : Raw} (h : r.page ≠ 0) : 1 ≤ (r.all kPG).length := by
  cases hl : r.all kPG with
  | nil => exact absurd (by simp [Raw.page, Raw.first, hl]) h
  | cons p ps => simp

/-- The prefixes counted from the fields are among those read. -/
theorem prefixes_le {n : Info} {r : Raw} (hpage : n.page = r.page) : n.prefixes r.form ≤ r.pre.length := by
  have hopt : ∀ (l : List (BitVec 10)), (if l.head?.isSome then 1 else 0) ≤ l.length := fun l => by cases l <;> simp
  have hall := r.length_all_le
  have hdep := hopt (r.all kDEP)
  have hreg := hopt (r.all kREG)
  have hlsq := hopt (r.all kLSQ)
  have htg2 := hopt (r.all kTG2)
  have hpg : (if n.page == 0 then 0 else 1) ≤ (r.all kPG).length := by
    by_cases h0 : n.page = 0
    · simp [h0]
    · simpa [h0] using Raw.pg_of_page (hpage ▸ h0)
  simp only [Info.prefixes, Raw.form, Raw.first, Option.isSome_map, List.length_map]
  omega

/-- What the second pass accepts, wherever it stands: a well-formed sheaf instruction of one base syllable and at most four
prefixes. -/
theorem decodeAt_spec {place : Option Place} {syls rest : List Syl} {i : Instr} {r : Raw}
    (h : decodeAt place syls = .ok (i, r, rest)) :
    i.form.isSome = true ∧ i.wellFormed = true ∧
      ∃ pre, syls = pre ++ rest ∧ pre.length = r.pre.length + 1 ∧ r.pre.length ≤ 4 := by
  obtain ⟨hs, hp, ho, n, hn, hc⟩ := decodeAt_eq_ok_iff.1 h
  obtain ⟨ps, pre, hr, hsyls, hl, hle⟩ := splitFrom_spec (Nat.zero_le 4) hs
  obtain rfl : r.pre = ps := hr
  obtain ⟨hform, hinfo, hfol⟩ := opcode_rowAt ho
  have hpage : n.page = r.page := by
    rw [hn] at hinfo
    exact congrArg Prod.fst (Option.some.inj hinfo)
  have hfit : Fits i n r.form := fits_of_checkInstr (fun hk => hfol (by simp [Raw.form, hk])) hc
  have hlen := prefixes_le hpage
  exact ⟨by simp [hform], (wellFormed_iff hn hform).2 ⟨by omega, hfit⟩, pre, hsyls, hl, by omega⟩

/-- Settles O2: the second pass, made without a place in a sheaf. -/
theorem decodeIsWellFormed : Obligations.DecodeIsWellFormed := by
  intro syls rest i h
  unfold decodeInstr at h
  split at h
  next j r rest' hd =>
    cases h
    obtain ⟨hf, hw, pre, hs, hl, hle⟩ := decodeAt_spec hd
    exact ⟨hf, hw, pre, hs, by omega, by omega⟩
  next => cases h

/-! ### A whole sheaf -/

/-- What the body's pass accepts: COUNT well-formed instructions, of at most five syllables each. -/
theorem decodeBody_spec {burr priv : Bool} {count left pos off e : Nat} {syls : List Syl} {is : List (Instr × Nat)}
    (h : decodeBody burr priv count left pos off syls = .ok (is, e)) :
    is.length = left ∧ e ≤ off + 10 * left ∧ ∀ p ∈ is, p.1.form.isSome = true ∧ p.1.wellFormed = true := by
  induction left generalizing pos off syls is with
  | zero =>
    cases h
    simp
  | succ left ih =>
    unfold decodeBody at h
    split at h
    · cases h
    next i r rest hd =>
      split at h
      · cases h
      next is' e' hb =>
        cases h
        obtain ⟨hlen, he, hall⟩ := ih hb
        obtain ⟨hf, hw, -, -, -, hle⟩ := decodeAt_spec hd
        exact ⟨congrArg (· + 1) hlen, by omega, List.forall_mem_cons.2 ⟨⟨hf, hw⟩, hall⟩⟩

/-- What the LSN check accepts: every ordered event has an LSN below NOUT, none of them seen before or twice (R212). -/
theorem lsnBad_eq_none {nout : Nat} {seen : List Nat} {is : List (Instr × Nat)} (h : lsnBad nout seen is = none) :
    (∀ p ∈ is, ∀ o, p.1.lsn? = some o → ∃ n, o = some n ∧ n < nout ∧ n ∉ seen) ∧
      (is.filterMap (·.1.lsn?)).Nodup := by
  induction is generalizing seen with
  | nil => simp
  | cons p is ih =>
    obtain ⟨i, off⟩ := p
    unfold lsnBad at h
    split at h
    next hi =>
      obtain ⟨hall, hnd⟩ := ih h
      exact ⟨List.forall_mem_cons.2 ⟨by simp [hi], hall⟩, by simpa [hi] using hnd⟩
    · cases h
    next n hi =>
      split at h
      case isFalse => cases h
      next hn =>
        obtain ⟨hlt, hseen⟩ : n < nout ∧ n ∉ seen := by simpa using hn
        obtain ⟨hall, hnd⟩ := ih h
        refine ⟨List.forall_mem_cons.2 ⟨fun o ho => ⟨n, by simpa [hi] using ho.symm, hlt, hseen⟩, fun q hq o ho => ?_⟩, ?_⟩
        · obtain ⟨m, rfl, hm, hnot⟩ := hall q hq o ho
          exact ⟨m, rfl, hm, fun hs => hnot (List.mem_cons_of_mem _ hs)⟩
        · rw [List.filterMap_cons_some (f := fun p : Instr × Nat => p.1.lsn?) hi, List.nodup_cons]
          refine ⟨fun hmem => ?_, hnd⟩
          obtain ⟨q, hq, hqn⟩ := List.mem_filterMap.1 hmem
          obtain ⟨m, hm, -, hnot⟩ := hall q hq _ hqn
          exact hnot (Option.some.inj hm ▸ List.mem_cons_self)

theorem writeReg_eq_some_iff {i : Instr} {r : BitVec 2 × BitVec 8} :
    i.writeReg = some r ↔ ∃ f, i = .write f ∧ f.reg = some r := by
  constructor
  · intro h
    unfold Instr.writeReg at h
    split at h
    next f => exact ⟨f, rfl, h⟩
    next => cases h
  · rintro ⟨f, rfl, h⟩
    exact h

/-- The body holds a WRITE of a register. -/
theorem any_writeReg_iff {is : List (Instr × Nat)} {r : BitVec 2 × BitVec 8} :
    (is.any fun p => p.1.writeReg == some r) = true ↔ ∃ f, Instr.write f ∈ is.map (·.1) ∧ f.reg = some r := by
  simp only [List.any_eq_true, beq_iff_eq, writeReg_eq_some_iff, List.mem_map]
  constructor
  · rintro ⟨p, hp, f, hf, hr⟩
    exact ⟨f, ⟨p, hp, hf⟩, hr⟩
  · rintro ⟨f, ⟨p, hp, hf⟩, hr⟩
    exact ⟨p, hp, f, hf, hr⟩

theorem maskOf_succ (c : BitVec 2) (base n : Nat) (is : List (Instr × Nat)) :
    maskOf c base (n + 1) is =
      if (is.any fun p => p.1.writeReg == some (c, BitVec.ofNat 8 (base + n))) = true then maskOf c base n is + 2 ^ n
      else maskOf c base n is := by
  simp only [maskOf, List.range_succ, List.foldl_append]
  rfl

theorem maskOf_lt (c : BitVec 2) (base n : Nat) (is : List (Instr × Nat)) : maskOf c base n is < 2 ^ n := by
  induction n with
  | zero => exact Nat.one_pos
  | succ n ih =>
    rw [maskOf_succ, Nat.pow_succ]
    split <;> omega

/-- A bit of the written mask: the body holds a WRITE of the register (R210). -/
theorem testBit_maskOf {c : BitVec 2} {base n k : Nat} {is : List (Instr × Nat)} (hk : k < n) :
    (maskOf c base n is).testBit k = true ↔
      ∃ f, Instr.write f ∈ is.map (·.1) ∧ f.reg = some (c, BitVec.ofNat 8 (base + k)) := by
  rw [← any_writeReg_iff]
  induction n with
  | zero => omega
  | succ n ih =>
    rw [maskOf_succ]
    obtain rfl | hlt := Nat.eq_or_lt_of_le (Nat.le_of_lt_succ hk)
    · have h0 : (maskOf c base k is).testBit k = false := Nat.testBit_lt_two_pow (maskOf_lt ..)
      split
      next h => rw [Nat.add_comm, Nat.testBit_two_pow_add_eq, h0, h]; rfl
      next h => rw [h0, Bool.eq_false_iff.2 h]
    · split
      · rw [Nat.add_comm, Nat.testBit_two_pow_add_gt hlt, ih hlt]
      · exact ih hlt

theorem needsVec_iff {i : Instr} :
    i.needsVec = true ↔ (∃ f, (i = .read f ∨ i = .write f) ∧ regKind f = .ve) ∨
      ∃ x, i.info = some x ∧ (x.page = 3 ∨ x.page = 4) := by
  unfold Instr.needsVec
  rw [Bool.or_eq_true]
  refine or_congr ?_ ?_
  · split
    · simp
    · simp
    next hr hw => exact iff_of_false Bool.false_ne_true fun ⟨f, h, _⟩ => h.elim (hr f) (hw f)
  · cases i.info <;> simp

/-- What the mask check accepts (R210). -/
theorem masksAgree_iff {h : Header} {is : List (Instr × Nat)} :
    masksAgree h is = true ↔ h.gmask.toNat = maskOf 0 0 32 is ∧ h.vmask.toNat = maskOf 1 0 64 is ∧
      h.qmask.toNat = maskOf 2 8 8 is ∧ h.wk = (is.any fun p => p.1.writeReg == some (2, 0)) ∧
      h.vec = (is.any fun p => p.1.needsVec) := by
  simp only [masksAgree, Bool.and_eq_true, beq_iff_eq, and_assoc]

/-- What the third pass accepts. -/
theorem checkWhole_eq_none {h : Header} {is : List (Instr × Nat)} (hc : checkWhole h is = none) :
    lsnBad h.nout [] is = none ∧ (is.countP fun p => p.1.lsn?.isSome) = h.nout ∧ masksAgree h is = true ∧
      (is.any fun p => p.1.isExit) = true ∧ (is.countP fun p => p.1.isCommand) ≤ 8 := by
  unfold checkWhole at hc
  split at hc
  · cases hc
  split at hc
  · cases hc
  split at hc
  · cases hc
  next hl =>
    split at hc
    · cases hc
    next hcount =>
      split at hc
      · cases hc
      next hmask =>
        split at hc
        · cases hc
        next hexit =>
          split at hc
          · cases hc
          next hcmd =>
            exact ⟨hl, by simpa using hcount, by simpa using hmask, by simpa using hexit, Nat.le_of_not_lt hcmd⟩

/-- The three passes of a sheaf that decodes. -/
theorem decodeSheaf_eq_ok {burr privOk : Bool} {h : BitVec 128} {body : List Syl} {sh : Sheaf}
    (hd : decodeSheaf burr privOk h body = .ok sh) :
    sh.hdr = headerOf h ∧ ∃ is, sh.insts = is.map (·.1) ∧
      decodeBody burr sh.hdr.priv sh.hdr.count sh.hdr.count 0 16 body = .ok (is, sh.size) ∧
      checkWhole sh.hdr is = none := by
  unfold decodeSheaf at hd
  split at hd
  · cases hd
  dsimp only at hd
  split at hd
  · cases hd
  next is size hb =>
    split at hd
    · cases hd
    next hc =>
      cases hd
      exact ⟨rfl, is, rfl, hb, hc⟩

/-- Settles O5: what the three passes accept, clause by clause. -/
theorem decodedSheafKeepsTheLimits : Obligations.DecodedSheafKeepsTheLimits := by
  intro burr privOk h body sh hd
  obtain ⟨hhdr, is, hinsts, hbody, hwhole⟩ := decodeSheaf_eq_ok hd
  obtain ⟨hlen, hsize, hform⟩ := decodeBody_spec hbody
  obtain ⟨hlsn, hcount, hmasks, hexit, hcmd⟩ := checkWhole_eq_none hwhole
  obtain ⟨hlsns, hnodup⟩ := lsnBad_eq_none hlsn
  obtain ⟨hg, hv, hq, hk, hvec⟩ := masksAgree_iff.1 hmasks
  have hcnt : sh.hdr.count = (h.extractLsb' 0 6).toNat + 1 := by rw [hhdr]; rfl
  have h64 := (h.extractLsb' 0 6).isLt
  refine ⟨?_, by omega, ?_, ?_, ?_, ?_, fun n hn => ?_, fun n hn => ?_, fun n hn => ?_, ?_, ?_, ?_, ?_⟩
  · rw [hinsts, List.length_map, hlen, hcnt]
  · rw [hinsts, List.forall_mem_map]
    exact hform
  · rw [hinsts, List.forall_mem_map]
    exact fun p hp o ho => (hlsns p hp o ho).imp fun n ⟨hn, hlt, _⟩ => ⟨hn, hlt⟩
  · rw [hinsts, List.filterMap_map]
    exact hnodup
  · rw [hinsts, List.filterMap_map, List.length_filterMap_eq_countP]
    exact hcount
  · rw [hinsts, ← BitVec.testBit_toNat, hg, testBit_maskOf hn, Nat.zero_add]
  · rw [hinsts, ← BitVec.testBit_toNat, hv, testBit_maskOf hn, Nat.zero_add]
  · rw [hinsts, ← BitVec.testBit_toNat, hq, testBit_maskOf hn]
  · rw [hinsts, hk, any_writeReg_iff]
  · rw [hinsts, hvec, List.any_eq_true]
    simp only [needsVec_iff]
    constructor
    · rintro ⟨p, hp, h⟩
      exact ⟨p.1, List.mem_map.2 ⟨p, hp, rfl⟩, h⟩
    · rintro ⟨i, hi, h⟩
      obtain ⟨p, hp, rfl⟩ := List.mem_map.1 hi
      exact ⟨p, hp, h⟩
  · rw [hinsts]
    simpa using hexit
  · rw [hinsts, List.countP_map]
    exact hcmd

end Sys2Proof
end

section
/-!
Words as numbers: what the shared pieces of the scalar instructions' values are in the arithmetic of the integers and in
bits (R13, R204).
-/

namespace Sys2Proof.Machine
open Sys2Proof Sys2Proof.Claims

/-! ### Words and integers -/

theorem wd_eq_ofZ (n : Nat) : wd n = ofZ n := (BitVec.ofInt_natCast 64 n).symm

@[simp] theorem ofZ_toNat (a : Word) : ofZ a.toNat = a :=
  (wd_eq_ofZ a.toNat).symm.trans ((BitVec.ofNat_toNat 64 a).trans (BitVec.setWidth_eq a))

@[simp] theorem ofZ_toInt (a : Word) : ofZ a.toInt = a := BitVec.ofInt_toInt

/-- A number of `n` bits read as two's complement is its balanced remainder. -/
theorem signed_mod_eq_bmod {n : Nat} (v : Nat) (hn : 0 < n) : signed n (v % 2 ^ n) = Int.bmod v (2 ^ n) := by
  obtain ⟨m, rfl⟩ := Nat.exists_eq_add_one_of_ne_zero hn.ne'
  rw [signed, Int.bmod, ← Int.natCast_emod, Nat.add_sub_cancel, Nat.pow_succ']
  split <;> split <;> omega

/-- The low bits of a word, read as two's complement, are those of its signed value. -/
theorem bmod_toInt (a : Word) {w : Nat} (hw : w ≤ 64) : a.toInt.bmod (2 ^ w) = Int.bmod a.toNat (2 ^ w) := by
  rw [BitVec.toInt_eq_toNat_bmod]
  exact Int.bmod_bmod_of_dvd (Nat.pow_dvd_pow 2 hw)

/-! ### Words and bits -/

theorem getLsbD_wd (n : Nat) {i : Nat} (hi : i < 64) : (wd n).getLsbD i = n.testBit i := by
  rw [wd, BitVec.getLsbD_ofNat, decide_eq_true hi, Bool.true_and]

/-- The low bits of a word. -/
theorem field_zero (a : Word) (len : Nat) : field a 0 len = a.toNat % 2 ^ len := by
  rw [field, nbits, Nat.pow_zero, Nat.div_one]

theorem getLsbD_zero_eq_decide (a : Word) : a.getLsbD 0 = decide (a.toNat % 2 = 1) := Nat.testBit_zero _

/-- The parity of a word is its lowest bit. -/
theorem toNat_mod_two (a : Word) : (a.toNat : Int) % 2 = (a.getLsbD 0).toNat := by
  rw [BitVec.getLsbD, Nat.toNat_testBit, Nat.pow_zero, Nat.div_one, Int.natCast_emod]
  rfl

/-- Two words agree from bit `k` up when their quotients by 2^k do. -/
theorem toNat_div_two_pow_eq_iff (a b : Word) (k : Nat) :
    a.toNat / 2 ^ k = b.toNat / 2 ^ k ↔ ∀ i, k ≤ i → a.getLsbD i = b.getLsbD i := by
  constructor
  · intro h i hi
    have hbit := congrArg (Nat.testBit · (i - k)) h
    rwa [Nat.testBit_div_two_pow, Nat.testBit_div_two_pow, Nat.sub_add_cancel hi] at hbit
  · intro h
    refine Nat.eq_of_testBit_eq fun j => ?_
    rw [Nat.testBit_div_two_pow, Nat.testBit_div_two_pow]
    exact h (j + k) (Nat.le_add_left k j)

/-- The bits of three numbers written side by side. -/
theorem testBit_adjacent {lo len m low : Nat} (hi i : Nat) (hm : m < 2 ^ len) (hl : low < 2 ^ lo) :
    (2 ^ lo * (2 ^ len * hi + m) + low).testBit i =
      if i < lo then low.testBit i else if i < lo + len then m.testBit (i - lo) else hi.testBit (i - lo - len) := by
  rw [Nat.testBit_two_pow_mul_add _ hl, Nat.testBit_two_pow_mul_add _ hm]
  by_cases h : i < lo
  · rw [if_pos h, if_pos h]
  · have hlt : i - lo < len ↔ i < lo + len := by omega
    simp only [if_neg h, hlt]

/-- The weight of a quadrant digit (R6) as a power of two. -/
theorem four_pow_eq (k : Nat) : 4 ^ k = 2 ^ (2 * k) := (Nat.pow_mul 2 2 k).symm

/-- The bits of a word after a field of it is written. -/
theorem getLsbD_setField (w : Word) {lo len v i : Nat} (hv : v < 2 ^ len) (hi : i < 64) :
    (setField w lo len v).getLsbD i = if lo ≤ i ∧ i < lo + len then v.testBit (i - lo) else w.getLsbD i := by
  obtain ⟨high, hhigh⟩ : ∃ h, h = w.toNat / 2 ^ lo / 2 ^ len := ⟨_, rfl⟩
  obtain ⟨mid, hmid⟩ : ∃ m, m = w.toNat / 2 ^ lo % 2 ^ len := ⟨_, rfl⟩
  obtain ⟨low, hlow⟩ : ∃ l, l = w.toNat % 2 ^ lo := ⟨_, rfl⟩
  have hm : mid < 2 ^ len := hmid ▸ Nat.mod_lt _ (Nat.two_pow_pos len)
  have hl : low < 2 ^ lo := hlow ▸ Nat.mod_lt _ (Nat.two_pow_pos lo)
  have hold : w.toNat = 2 ^ lo * (2 ^ len * high + mid) + low := by
    rw [hhigh, hmid, hlow, Nat.div_add_mod, Nat.div_add_mod]
  have hnew : setField w lo len v = wd (2 ^ lo * (2 ^ len * high + v) + low) := by
    rw [setField, field, nbits, ← hmid, Nat.mod_eq_of_lt hv, hold, Nat.mul_comm mid, Nat.mul_comm v]
    congr 1
    simp only [Nat.mul_add]
    omega
  rw [hnew, getLsbD_wd _ hi, BitVec.getLsbD, hold, testBit_adjacent high i hv hl, testBit_adjacent high i hm hl]
  by_cases h1 : i < lo
  · rw [if_pos h1, if_pos h1, if_neg fun h => Nat.not_le.2 h1 h.1]
  · by_cases h2 : i < lo + len
    · rw [if_neg h1, if_pos h2, if_pos ⟨Nat.not_lt.1 h1, h2⟩]
    · rw [if_neg h1, if_neg h2, if_neg h1, if_neg h2, if_neg fun h => h2 h.2]

end Sys2Proof.Machine
end

section
/-!
What the scalar instructions of pages 0 and 1 deliver (R241 to R248, R250 to R253): each value of the model in the
arithmetic of the integers, then the instruction that delivers it.
-/

namespace Sys2Proof.Machine
open Sys2Proof Sys2Proof.Claims

/-! ### What a scalar instruction delivers (R237) -/

section
variable {i : Instr} {s : State} {is : Iss}

/-- An instruction that fires runs its body. -/
theorem issue_body_of_fires {body : Iss → State → Out} (h : Fires i s is) : issue i s body = body is s := by
  obtain ⟨hi, hb, hn, hr⟩ := h
  exact issue_of_fires hi hb hn hr

theorem scalar1_of_fires {g : Word → Word} (h : Fires i s is) : scalar1 i s g = .next (s.emit is (.sc (g is.lw))) :=
  issue_body_of_fires h

theorem scalar2_of_fires {g : Word → Word → Word} (h : Fires i s is) :
    scalar2 i s g = .next (s.emit is (.sc (g is.lw is.rw_))) :=
  issue_body_of_fires h

theorem scalar3_of_fires {g : Word → Word → Word → Word} (h : Fires i s is) :
    scalar3 i s g = .next (s.emit is (.sc (g is.lw is.rw_ is.xw))) :=
  issue_body_of_fires h

theorem delivers_of_scalar1 {g : Word → Word} {v : Iss → Word} (hx : ∀ s, exec i s = scalar1 i s g)
    (hv : ∀ is, g is.lw = v is) : Delivers i v := fun s is h =>
  hv is ▸ (hx s).trans (scalar1_of_fires h)

theorem delivers_of_scalar2 {g : Word → Word → Word} {v : Iss → Word} (hx : ∀ s, exec i s = scalar2 i s g)
    (hv : ∀ is, g is.lw is.rw_ = v is) : Delivers i v := fun s is h =>
  hv is ▸ (hx s).trans (scalar2_of_fires h)

theorem delivers_of_scalar3 {g : Word → Word → Word → Word} {v : Iss → Word} (hx : ∀ s, exec i s = scalar3 i s g)
    (hv : ∀ is, g is.lw is.rw_ is.xw = v is) : Delivers i v := fun s is h =>
  hv is ▸ (hx s).trans (scalar3_of_fires h)

end

/-! ### Sums, products and quotients (R244, R245) -/

section
variable (a b : Word)

theorem add_eq_ofZ : a + b = ofZ (a.toNat + b.toNat) := by
  rw [ofZ, BitVec.ofInt_add, ← ofZ, ← ofZ, ofZ_toNat, ofZ_toNat]

theorem sub_eq_ofZ : a - b = ofZ (a.toNat - b.toNat) := by
  rw [Int.sub_eq_add_neg, ofZ, BitVec.ofInt_add, BitVec.ofInt_neg, ← ofZ, ← ofZ, ofZ_toNat, ofZ_toNat,
    BitVec.sub_eq_add_neg]

theorem mul_eq_ofZ : a * b = ofZ (a.toInt * b.toInt) := by
  rw [ofZ, BitVec.ofInt_mul, BitVec.ofInt_toInt, BitVec.ofInt_toInt]

theorem mulHighU_eq_ofZ : mulHighU a b = ofZ (a.toNat * b.toNat / 2 ^ 64) := wd_eq_ofZ _

theorem divS_eq_ofZ : divS a b = if b = 0 then 0xFFFFFFFFFFFFFFFF else ofZ (a.toInt.tdiv b.toInt) := by
  simp only [divS, beq_iff_eq]; rfl

theorem remS_eq_ofZ : remS a b = if b = 0 then a else ofZ (a.toInt.tmod b.toInt) := by
  simp only [remS, beq_iff_eq]

theorem divU_eq_ofZ : divU a b = if b = 0 then 0xFFFFFFFFFFFFFFFF else ofZ (a.toNat / b.toNat) := by
  simp only [divU, beq_iff_eq, wd_eq_ofZ]; rfl

theorem remU_eq_ofZ : remU a b = if b = 0 then a else ofZ (a.toNat % b.toNat) := by
  simp only [remU, beq_iff_eq, wd_eq_ofZ]; rfl

/-! ### Shifts and rotations (R247) -/

theorem shiftCount_eq_count : shiftCount b = count b := field_zero b 6

theorem shl_eq_ofZ : shl a b = ofZ (a.toNat * 2 ^ count b) := by
  rw [shl, shiftCount_eq_count]
  have h := wd_eq_ofZ (a.toNat * 2 ^ count b)
  push_cast at h
  rw [← h]
  exact BitVec.eq_of_toNat_eq (by rw [BitVec.toNat_shiftLeft, Nat.shiftLeft_eq, wd, BitVec.toNat_ofNat])

theorem shr_eq_ofZ : shr a b = ofZ (a.toNat / 2 ^ count b) := by
  rw [shr, shiftCount_eq_count, ← ofZ_toNat (a >>> count b), BitVec.toNat_ushiftRight, Nat.shiftRight_eq_div_pow]
  push_cast
  rfl

theorem sar_eq_ofZ : sar a b = ofZ (a.toInt / 2 ^ count b) := by
  rw [sar, shiftCount_eq_count, ← BitVec.ofInt_toInt (x := BitVec.sshiftRight _ _), BitVec.toInt_sshiftRight,
    Int.shiftRight_eq_div_pow]
  rfl

theorem rotl_eq_or : rotl a b = if count b = 0 then a else (a <<< count b) ||| (a >>> (64 - count b)) := by
  rw [rotl, shiftCount_eq_count, BitVec.rotateLeft_def, Nat.mod_mod]
  split
  case isTrue h =>
    rw [show b.toNat % 64 = 0 from h, Nat.sub_zero, BitVec.ushiftRight_eq_zero le_rfl, BitVec.shiftLeft_zero]
    exact BitVec.or_zero
  case isFalse => rfl

/-! ### Minima, maxima, absolute value and extensions (R248, R250) -/

theorem minS_eq_ofZ : minS a b = ofZ (min a.toInt b.toInt) := by
  simp only [minS, BitVec.slt_iff_toInt_lt]
  split
  case isTrue h => rw [min_eq_right h.le, ofZ_toInt]
  case isFalse h => rw [min_eq_left (not_lt.1 h), ofZ_toInt]

theorem maxS_eq_ofZ : maxS a b = ofZ (max a.toInt b.toInt) := by
  simp only [maxS, BitVec.slt_iff_toInt_lt]
  split
  case isTrue h => rw [max_eq_right h.le, ofZ_toInt]
  case isFalse h => rw [max_eq_left (not_lt.1 h), ofZ_toInt]

theorem minU_eq_ofZ : minU a b = ofZ (min a.toNat b.toNat) := by
  simp only [minU, BitVec.ult_iff_lt, BitVec.lt_def]
  split
  case isTrue h => rw [min_eq_right (by exact_mod_cast h.le), ofZ_toNat]
  case isFalse h => rw [min_eq_left (by exact_mod_cast not_lt.1 h), ofZ_toNat]

theorem maxU_eq_ofZ : maxU a b = ofZ (max a.toNat b.toNat) := by
  simp only [maxU, BitVec.ult_iff_lt, BitVec.lt_def]
  split
  case isTrue h => rw [max_eq_right (by exact_mod_cast h.le), ofZ_toNat]
  case isFalse h => rw [max_eq_left (by exact_mod_cast not_lt.1 h), ofZ_toNat]

theorem neg_eq_ofZ : 0 - a = ofZ (-a.toInt) := by
  rw [ofZ, BitVec.ofInt_neg, BitVec.ofInt_toInt]
  exact BitVec.zero_sub a

theorem absW_eq_ofZ : absW a = ofZ a.toInt.natAbs := by
  simp only [absW, BitVec.slt_iff_toInt_lt]
  split
  case isTrue h => rw [neg_eq_ofZ, Int.ofNat_natAbs_of_nonpos h.le]
  case isFalse h => rw [Int.natAbs_of_nonneg (not_lt.1 h), ofZ_toInt]

variable {sub : BitVec 6}

theorem zextW_eq_ofZ : zextW sub a = ofZ (a.toNat % 2 ^ (8 * 2 ^ sub.toNat)) := by
  rw [zextW, field_zero, wd_eq_ofZ]
  rfl

/-- The width that SUB selects is at most 32 bits. -/
theorem extWidth_le (h : sub.toNat ≤ 2) : extWidth sub ≤ 32 :=
  Nat.mul_le_mul_left 8 (Nat.pow_le_pow_right Nat.two_pos h)

theorem sextW_eq_ofZ (h : sub.toNat ≤ 2) : sextW sub a = ofZ (a.toInt.bmod (2 ^ (8 * 2 ^ sub.toNat))) := by
  have hw := extWidth_le h
  have hpos : 0 < extWidth sub := Nat.mul_pos (by decide) (Nat.two_pow_pos _)
  rw [sextW, field_zero, signed_mod_eq_bmod _ hpos, ← bmod_toInt a (hw.trans (by decide))]
  rfl

/-! ### Selection, tests and predicate logic (R251 to R253) -/

theorem ite_getLsbD_zero (x : Word) : (if x.getLsbD 0 then a else b) = if x.toNat % 2 = 1 then a else b := by
  simp only [getLsbD_zero_eq_decide, decide_eq_true_eq]

/-- A condition decides its relation. -/
theorem condWord_eq_truth {c : Bool} {p : Prop} [Decidable p] (h : c = true ↔ p) : condWord c = truth p := by
  simp only [condWord, truth, h]

theorem testEq_eq_truth : testEq a b = truth (a = b) := condWord_eq_truth beq_iff_eq
theorem testNe_eq_truth : testNe a b = truth (a ≠ b) := condWord_eq_truth bne_iff_ne
theorem testLt_eq_truth : testLt a b = truth (a.toInt < b.toInt) := condWord_eq_truth BitVec.slt_iff_toInt_lt
theorem testLe_eq_truth : testLe a b = truth (a.toInt ≤ b.toInt) := condWord_eq_truth BitVec.sle_iff_toInt_le
theorem testLtu_eq_truth : testLtu a b = truth (a.toNat < b.toNat) := condWord_eq_truth BitVec.ult_iff_lt
theorem testLeu_eq_truth : testLeu a b = truth (a.toNat ≤ b.toNat) := condWord_eq_truth BitVec.ule_iff_le

theorem predAnd_eq_ofZ : predAnd a b = ofZ (a.toNat % 2 * (b.toNat % 2)) := by
  rw [toNat_mod_two, toNat_mod_two, predAnd]
  cases a.getLsbD 0 <;> cases b.getLsbD 0 <;> rfl

theorem predOr_eq_ofZ : predOr a b = ofZ (max (a.toNat % 2) (b.toNat % 2)) := by
  rw [toNat_mod_two, toNat_mod_two, predOr]
  cases a.getLsbD 0 <;> cases b.getLsbD 0 <;> rfl

theorem predNot_eq_ofZ : predNot a = ofZ (1 - a.toNat % 2) := by
  rw [toNat_mod_two, predNot]
  cases a.getLsbD 0 <;> rfl

end

/-! ### Moves and constants (R204, R241 to R243) -/

/-- A number of at most 64 bits, as an IMX chain spells it, sign-extended. -/
theorem signExtend_eq_ite {n : Nat} (x : BitVec n) (hn : 0 < n) :
    x.signExtend 64 = if x.toNat < 2 ^ (n - 1) then BitVec.ofNat 64 x.toNat else BitVec.ofInt 64 (x.toNat - (2 ^ n : Nat)) := by
  obtain ⟨m, rfl⟩ := Nat.exists_eq_add_one_of_ne_zero hn.ne'
  have hhalf : 2 * x.toNat < 2 ^ (m + 1) ↔ x.toNat < 2 ^ m := by omega
  rw [BitVec.signExtend, BitVec.toInt_eq_toNat_cond, Nat.add_sub_cancel, apply_ite (BitVec.ofInt 64), BitVec.ofInt_natCast]
  simp only [hhalf]

theorem immValue_one (v : BitVec 10) : immValue [v] = v.signExtend 64 := by
  rw [signExtend_eq_ite v (by decide)]
  simp [immValue]

theorem immValue_two (v w : BitVec 10) : immValue [v, w] = (v ++ w).signExtend 64 := by
  have hcat : (v ++ w).toNat = v.toNat * 1024 + w.toNat := by
    rw [BitVec.toNat_append, ← Nat.shiftLeft_add_eq_or_of_lt w.isLt, Nat.shiftLeft_eq]
  rw [signExtend_eq_ite _ (by decide), hcat]
  simp [immValue]


section
variable {f : Form} {s : State} {is : Iss}

theorem exec_mov_of_fires (h : Fires (.mov f) s is) : exec (.mov f) s = .next (s.emit is is.l) := by
  obtain ⟨hi, -, hn, -⟩ := h
  show execMov f s = _
  rw [execMov, issueRaw_of_issuer hi, hn]
  rfl

theorem exec_const_of_fires (h : Fires (.const f) s is) :
    exec (.const f) s = .next (s.emit is (.sc (immValue f.imm))) :=
  (show exec (.const f) s = execConst f s from rfl).trans (issue_body_of_fires h)

theorem exec_null_of_issuer (h : s.issuer (.null f) = some is) : exec (.null f) s = .next (s.emit is .null) :=
  (show exec (.null f) s = execNull f s from rfl).trans (issueRaw_of_issuer h)

end

/-- Settles O16: each instruction runs one function of its operand words, and that function has the value stated. -/
theorem scalarResults : Obligations.ScalarResults := by
  refine ⟨fun f => ⟨?add, ?sub, ?mul, ?mulh, ?mulhu, ?and, ?or, ?xor, ?andn, ?not⟩, fun f => ⟨?shl, ?shr, ?sar, ?rot⟩,
    fun f => ⟨?min, ?max, ?minu, ?maxu, ?abs, ?neg, fun _ => ?zext, fun hsub => ?sext⟩,
    fun f => ⟨?sel, ?teq, ?tne, ?tlt, ?tle, ?tltu, ?tleu, ?pand, ?por, ?pnot⟩,
    fun _ => ⟨fun _ _ => exec_mov_of_fires, fun _ _ => exec_const_of_fires, immValue_one, immValue_two,
      fun _ _ => exec_null_of_issuer⟩⟩
  case add => exact delivers_of_scalar2 (fun _ => rfl) fun is => add_eq_ofZ is.lw is.rw_
  case sub => exact delivers_of_scalar2 (fun _ => rfl) fun is => sub_eq_ofZ is.lw is.rw_
  case mul => exact delivers_of_scalar2 (fun _ => rfl) fun is => mul_eq_ofZ is.lw is.rw_
  case mulh => exact delivers_of_scalar2 (g := mulHigh) (fun _ => rfl) fun _ => rfl
  case mulhu => exact delivers_of_scalar2 (fun _ => rfl) fun is => mulHighU_eq_ofZ is.lw is.rw_
  case and => exact delivers_of_scalar2 (g := (· &&& ·)) (fun _ => rfl) fun _ => rfl
  case or => exact delivers_of_scalar2 (g := (· ||| ·)) (fun _ => rfl) fun _ => rfl
  case xor => exact delivers_of_scalar2 (g := (· ^^^ ·)) (fun _ => rfl) fun _ => rfl
  case andn => exact delivers_of_scalar2 (g := fun a b => a &&& ~~~b) (fun _ => rfl) fun _ => rfl
  case not => exact delivers_of_scalar1 (g := (~~~ ·)) (fun _ => rfl) fun _ => rfl
  case shl => exact delivers_of_scalar2 (fun _ => rfl) fun is => shl_eq_ofZ is.lw is.rw_
  case shr => exact delivers_of_scalar2 (fun _ => rfl) fun is => shr_eq_ofZ is.lw is.rw_
  case sar => exact delivers_of_scalar2 (fun _ => rfl) fun is => sar_eq_ofZ is.lw is.rw_
  case rot => exact delivers_of_scalar2 (fun _ => rfl) fun is => rotl_eq_or is.lw is.rw_
  case min => exact delivers_of_scalar2 (fun _ => rfl) fun is => minS_eq_ofZ is.lw is.rw_
  case max => exact delivers_of_scalar2 (fun _ => rfl) fun is => maxS_eq_ofZ is.lw is.rw_
  case minu => exact delivers_of_scalar2 (fun _ => rfl) fun is => minU_eq_ofZ is.lw is.rw_
  case maxu => exact delivers_of_scalar2 (fun _ => rfl) fun is => maxU_eq_ofZ is.lw is.rw_
  case abs => exact delivers_of_scalar1 (fun _ => rfl) fun is => absW_eq_ofZ is.lw
  case neg => exact delivers_of_scalar1 (fun _ => rfl) fun is => neg_eq_ofZ is.lw
  case zext => exact delivers_of_scalar1 (fun _ => rfl) fun is => zextW_eq_ofZ is.lw
  case sext => exact delivers_of_scalar1 (fun _ => rfl) fun is => sextW_eq_ofZ is.lw hsub
  case sel =>
    exact delivers_of_scalar3 (g := fun a b x => if x.getLsbD 0 then a else b) (fun _ => rfl)
      fun is => ite_getLsbD_zero is.lw is.rw_ is.xw
  case teq => exact delivers_of_scalar2 (fun _ => rfl) fun is => testEq_eq_truth is.lw is.rw_
  case tne => exact delivers_of_scalar2 (fun _ => rfl) fun is => testNe_eq_truth is.lw is.rw_
  case tlt => exact delivers_of_scalar2 (fun _ => rfl) fun is => testLt_eq_truth is.lw is.rw_
  case tle => exact delivers_of_scalar2 (fun _ => rfl) fun is => testLe_eq_truth is.lw is.rw_
  case tltu => exact delivers_of_scalar2 (fun _ => rfl) fun is => testLtu_eq_truth is.lw is.rw_
  case tleu => exact delivers_of_scalar2 (fun _ => rfl) fun is => testLeu_eq_truth is.lw is.rw_
  case pand => exact delivers_of_scalar2 (fun _ => rfl) fun is => predAnd_eq_ofZ is.lw is.rw_
  case por => exact delivers_of_scalar2 (fun _ => rfl) fun is => predOr_eq_ofZ is.lw is.rw_
  case pnot => exact delivers_of_scalar1 (fun _ => rfl) fun is => predNot_eq_ofZ is.lw

/-- Settles O17: the four values with a zero divisor apart; −2^63 by −1 is divided as any other pair, and its quotient 2^63
wraps to −2^63. -/
theorem division : Obligations.Division := by
  refine fun f => ⟨?div, ?rem, ?divu, ?remu, fun s is h ha hb => ?divMin, fun s is h ha hb => ?remMin⟩
  case div => exact delivers_of_scalar2 (fun _ => rfl) fun is => divS_eq_ofZ is.lw is.rw_
  case rem => exact delivers_of_scalar2 (fun _ => rfl) fun is => remS_eq_ofZ is.lw is.rw_
  case divu => exact delivers_of_scalar2 (fun _ => rfl) fun is => divU_eq_ofZ is.lw is.rw_
  case remu => exact delivers_of_scalar2 (fun _ => rfl) fun is => remU_eq_ofZ is.lw is.rw_
  case divMin =>
    refine (scalar2_of_fires (g := divS) h).trans ?_
    rw [ha, hb]
    rfl
  case remMin =>
    refine (scalar2_of_fires (g := remS) h).trans ?_
    rw [ha, hb]
    rfl

end Sys2Proof.Machine
end

section
/-!
The bit counts and the quadrant instructions (R249, R256, R257).
-/

namespace Sys2Proof.Machine
open Sys2Proof Sys2Proof.Claims

/-! ### Bit counts and reversal (R249) -/

/-- The zeros above the highest set bit of the low `n` bits. -/
theorem clzFrom_spec {a : Word} (n : Nat) (hn : n ≤ 64) (habove : ∀ i, n ≤ i → a.getLsbD i = false) :
    clzFrom n a ≤ 64 ∧ (∀ i, 64 - clzFrom n a ≤ i → a.getLsbD i = false) ∧
      (clzFrom n a < 64 → a.getLsbD (63 - clzFrom n a) = true) := by
  induction n with
  | zero => exact ⟨le_rfl, fun i _ => habove i (Nat.zero_le i), fun h => absurd h (lt_irrefl 64)⟩
  | succ n ih =>
    by_cases hbit : a.getLsbD n = true
    · rw [clzFrom, if_pos hbit]
      refine ⟨by omega, fun i hi => habove i (by omega), fun _ => ?_⟩
      rwa [show 63 - (63 - n) = n by omega]
    · rw [clzFrom, if_neg hbit]
      refine ih (by omega) fun i hi => ?_
      obtain rfl | hlt := Nat.eq_or_lt_of_le hi
      · exact Bool.eq_false_iff.2 hbit
      · exact habove i hlt

theorem clz_spec (a : Word) : clzFrom 64 a ≤ 64 ∧ (∀ i, 64 - clzFrom 64 a ≤ i → a.getLsbD i = false) ∧
    (clzFrom 64 a < 64 → a.getLsbD (63 - clzFrom 64 a) = true) :=
  clzFrom_spec 64 le_rfl fun _ hi => BitVec.getLsbD_of_ge a _ hi

/-- The place of the lowest set bit among the `n` bits from `i` up. -/
theorem lowestFrom_spec (a : Word) (n i : Nat) :
    i ≤ lowestFrom n i a ∧ lowestFrom n i a ≤ i + n ∧ (∀ j, i ≤ j → j < lowestFrom n i a → a.getLsbD j = false) ∧
      (lowestFrom n i a < i + n → a.getLsbD (lowestFrom n i a) = true) := by
  induction n generalizing i with
  | zero => exact ⟨le_rfl, le_rfl, fun j h1 h2 => absurd h2 (Nat.not_lt.2 h1), fun h => absurd h (lt_irrefl i)⟩
  | succ n ih =>
    by_cases hbit : a.getLsbD i = true
    · rw [lowestFrom, if_pos hbit]
      exact ⟨le_rfl, by omega, fun j h1 h2 => absurd h2 (Nat.not_lt.2 h1), fun _ => hbit⟩
    · rw [lowestFrom, if_neg hbit]
      obtain ⟨hlo, hhi, hbelow, hset⟩ := ih (i + 1)
      refine ⟨by omega, by omega, fun j h1 h2 => ?_, fun h => hset (by omega)⟩
      obtain rfl | hlt := Nat.eq_or_lt_of_le h1
      · exact Bool.eq_false_iff.2 hbit
      · exact hbelow j hlt h2

theorem popFrom_eq_countP (a : Word) (n : Nat) : popFrom n a = (List.range n).countP fun i => a.getLsbD i := by
  induction n with
  | zero => rfl
  | succ n ih => rw [popFrom, ih, List.range_succ, List.countP_append, List.countP_singleton, Nat.add_comm]

/-- The low `n` bits reversed stand at the top of the 64. -/
theorem revFrom_spec (a : Word) (n : Nat) (hn : n ≤ 64) :
    ∃ q, revFrom n a = 2 ^ (64 - n) * q ∧ ∀ j, j < n → q.testBit j = a.getLsbD (n - 1 - j) := by
  induction n with
  | zero => exact ⟨0, rfl, fun j hj => absurd hj (Nat.not_lt_zero j)⟩
  | succ n ih =>
    obtain ⟨q, hq, hbits⟩ := ih (by omega)
    refine ⟨Nat.bit (a.getLsbD n) q, ?_, fun j hj => ?_⟩
    · rw [revFrom, hq, show 64 - n = 64 - (n + 1) + 1 by omega, show 63 - n = 64 - (n + 1) by omega, Nat.pow_succ,
        Nat.bit_val, Nat.mul_add, Nat.mul_assoc, Nat.add_comm]
      cases a.getLsbD n <;> simp
    · cases j with
      | zero => exact Nat.testBit_bit_zero _ _
      | succ j =>
        rw [Nat.testBit_bit_succ, hbits j (by omega)]
        congr 1
        omega

theorem getLsbD_brev (a : Word) {i : Nat} (hi : i < 64) : (brev a).getLsbD i = a.getLsbD (63 - i) := by
  obtain ⟨q, hq, hbits⟩ := revFrom_spec a 64 le_rfl
  rw [brev, getLsbD_wd _ hi, hq, Nat.sub_self, Nat.pow_zero, Nat.one_mul, hbits i hi]

/-! ### Digits, blocks and paths (R256, R257) -/

section
variable (a b n d v : Word)

theorem qdig_eq_ofZ : qdig a n =
    if 1 ≤ n.toNat ∧ n.toNat ≤ 32 then ofZ (a.toNat / 4 ^ (32 - n.toNat) % 4) else 0 := by
  rw [qdig, digit, field, nbits, show 64 - 2 * n.toNat = 2 * (32 - n.toNat) by omega, ← four_pow_eq, wd_eq_ofZ]
  simp only [Bool.and_eq_true, decide_eq_true_eq]
  push_cast
  rfl

theorem qset_of_outside (h : n.toNat < 1 ∨ 32 < n.toNat) : qset a n v = a := by
  rw [qset, if_neg]
  simp only [Bool.and_eq_true, decide_eq_true_eq]
  omega

theorem getLsbD_qset (h1 : 1 ≤ n.toNat) (h32 : n.toNat ≤ 32) {i : Nat} (hi : i < 64) :
    (qset a n v).getLsbD i = if 64 - 2 * n.toNat ≤ i ∧ i < 66 - 2 * n.toNat
      then v.getLsbD (i - (64 - 2 * n.toNat)) else a.getLsbD i := by
  rw [qset, if_pos (by simp [h1, h32]), getLsbD_setField a (by rw [field_zero]; exact Nat.mod_lt _ (by decide)) hi,
    show 64 - 2 * n.toNat + 2 = 66 - 2 * n.toNat by omega]
  split
  case isTrue h =>
    rw [field_zero, Nat.testBit_mod_two_pow, decide_eq_true (by omega), Bool.true_and]
    rfl
  case isFalse => rfl

theorem qtrunc_eq_wd : qtrunc a d = wd (a.toNat / 4 ^ (32 - min d.toNat 32) * 4 ^ (32 - min d.toNat 32)) := by
  have hlt := a.isLt
  have hexp : 64 - 2 * min d.toNat 32 = 2 * (32 - min d.toNat 32) := by omega
  simp only [qtrunc, beq_iff_eq, hexp, ← four_pow_eq]
  split
  case isTrue h => rw [h, Nat.div_eq_of_lt (by omega), Nat.zero_mul]; rfl
  case isFalse => rfl

theorem qtrunc_eq_ofZ : qtrunc a d = ofZ (a.toNat / 4 ^ (32 - min d.toNat 32) * 4 ^ (32 - min d.toNat 32)) := by
  rw [qtrunc_eq_wd, wd_eq_ofZ]
  push_cast
  rfl

theorem qnext_eq_ofZ : qnext a d = ofZ ((a.toNat / 4 ^ (32 - min d.toNat 32) + 1) * 4 ^ (32 - min d.toNat 32)) := by
  have hexp : 64 - 2 * min d.toNat 32 = 2 * (32 - min d.toNat 32) := by omega
  rw [qnext, qtrunc_eq_wd, hexp, ← four_pow_eq, wd_eq_ofZ, wd_eq_ofZ, ofZ, ofZ, ofZ, ← BitVec.ofInt_add, add_mul, one_mul]
  push_cast
  rfl

theorem qparent_eq_ofZ : qparent a = ofZ (a.toNat / 4) := by
  rw [qparent, ← ofZ_toNat (a >>> 2), BitVec.toNat_ushiftRight, Nat.shiftRight_eq_div_pow]
  rfl

theorem qchild_eq_ofZ : qchild a b = ofZ (4 * a.toNat + b.toNat % 4) := by
  have hr : b.toNat % 4 < 2 ^ 2 := Nat.mod_lt _ (by decide)
  refine Eq.trans (BitVec.eq_of_getLsbD_eq fun i hi => ?_) (wd_eq_ofZ (4 * a.toNat + b.toNat % 4))
  rw [qchild, BitVec.getLsbD_or, BitVec.getLsbD_shiftLeft, field_zero, getLsbD_wd _ hi, getLsbD_wd _ hi,
    Nat.testBit_two_pow_mul_add (i := 2) _ hr]
  by_cases h2 : i < 2
  · simp [h2]
  · simp [h2, hi, Nat.testBit_lt_two_pow (Nat.lt_of_lt_of_le hr (Nat.pow_le_pow_right Nat.two_pos (Nat.not_lt.1 h2))),
      BitVec.getLsbD]

/-- Two addresses agree in their first `d` digits where their bits from 64 − 2d up agree. -/
theorem div_four_pow_eq_iff (k : Nat) :
    a.toNat / 4 ^ k = b.toNat / 4 ^ k ↔ ∀ i, 2 * k ≤ i → a.getLsbD i = b.getLsbD i := by
  rw [four_pow_eq, toNat_div_two_pow_eq_iff]

/-- The depth of the deepest common block: the digits above the highest bit in which the addresses differ. -/
theorem qdepth_spec : ∃ d ≤ 32, qdepth a b = BitVec.ofNat 64 d ∧
    a.toNat / 4 ^ (32 - d) = b.toNat / 4 ^ (32 - d) ∧
    (d < 32 → a.toNat / 4 ^ (31 - d) ≠ b.toNat / 4 ^ (31 - d)) := by
  by_cases hab : a = b
  · subst hab
    exact ⟨32, le_rfl, if_pos (beq_iff_eq.2 rfl), rfl, fun h => absurd h (lt_irrefl 32)⟩
  · obtain ⟨hle, habove, hset⟩ := clz_spec (a ^^^ b)
    have heq : ∀ i, 64 - clzFrom 64 (a ^^^ b) ≤ i → a.getLsbD i = b.getLsbD i := fun i hi => by
      simpa [BitVec.getLsbD_xor] using habove i hi
    have hlt : clzFrom 64 (a ^^^ b) < 64 := by
      refine Nat.lt_of_le_of_ne hle fun h => hab (BitVec.eq_of_getLsbD_eq fun i _ => heq i ?_)
      omega
    refine ⟨clzFrom 64 (a ^^^ b) / 2, by omega, if_neg (by simpa using hab), ?_, fun _ h => ?_⟩
    · exact (div_four_pow_eq_iff a b _).2 fun i hi => heq i (by omega)
    · have hsame := (div_four_pow_eq_iff a b _).1 h (63 - clzFrom 64 (a ^^^ b)) (by omega)
      have hdiff := hset hlt
      rw [BitVec.getLsbD_xor, hsame, Bool.xor_self] at hdiff
      cases hdiff

end

/-! ### The curve (R21, R257) -/

theorem curveIndex_succ (m i j : Nat) :
    curveIndex (m + 1) i j = Nat.bit (j.testBit 0) (Nat.bit (i.testBit 0) (curveIndex m (i / 2) (j / 2))) := by
  simp only [Nat.bit_val, Nat.toNat_testBit, curveIndex, spreadBits]
  omega

/-- Column bits stand at the even places of a curve index, row bits at the odd ones. -/
theorem testBit_curveIndex {m c : Nat} (hc : c < m) (i j : Nat) :
    (curveIndex m i j).testBit (2 * c + 1) = i.testBit c ∧ (curveIndex m i j).testBit (2 * c) = j.testBit c := by
  induction c generalizing m i j with
  | zero =>
    obtain ⟨m, rfl⟩ := Nat.exists_eq_add_one_of_ne_zero hc.ne'
    rw [curveIndex_succ]
    exact ⟨(Nat.testBit_bit_succ _ _ _).trans (Nat.testBit_bit_zero _ _), Nat.testBit_bit_zero _ _⟩
  | succ c ih =>
    obtain ⟨m, rfl⟩ := Nat.exists_eq_add_one_of_ne_zero (Nat.ne_zero_of_lt hc)
    obtain ⟨hrow, hcol⟩ := ih (Nat.lt_of_succ_lt_succ hc) (i / 2) (j / 2)
    rw [curveIndex_succ, Nat.testBit_succ i, Nat.testBit_succ j, ← hrow, ← hcol]
    exact ⟨(Nat.testBit_bit_succ _ _ _).trans (Nat.testBit_bit_succ _ _ _),
      (Nat.testBit_bit_succ _ _ _).trans (Nat.testBit_bit_succ _ _ _)⟩

theorem gatherBits_succ (m v : Nat) : gatherBits (m + 1) v = Nat.bit (v.testBit 0) (gatherBits m (v / 4)) := by
  rw [Nat.bit_val, Nat.toNat_testBit, gatherBits]
  omega

theorem testBit_gatherBits {m c : Nat} (hc : c < m) (v : Nat) : (gatherBits m v).testBit c = v.testBit (2 * c) := by
  induction c generalizing m v with
  | zero =>
    obtain ⟨m, rfl⟩ := Nat.exists_eq_add_one_of_ne_zero hc.ne'
    rw [gatherBits_succ]
    exact Nat.testBit_bit_zero _ _
  | succ c ih =>
    obtain ⟨m, rfl⟩ := Nat.exists_eq_add_one_of_ne_zero (Nat.ne_zero_of_lt hc)
    rw [gatherBits_succ, Nat.testBit_bit_succ, ih (Nat.lt_of_succ_lt_succ hc)]
    exact Nat.testBit_div_two_pow (n := 2) v (2 * c)

theorem gatherBits_lt (m v : Nat) : gatherBits m v < 2 ^ m := by
  induction m generalizing v with
  | zero => exact Nat.one_pos
  | succ m ih =>
    have := ih (v / 4)
    rw [gatherBits, Nat.pow_succ]
    omega

section
variable (a b e : Word)

/-- The curve index of two words holds the low 32 bits of each, row bits at the odd places. -/
theorem getLsbD_qinter {c : Nat} (hc : c < 32) :
    (qinter a b).getLsbD (2 * c + 1) = a.getLsbD c ∧ (qinter a b).getLsbD (2 * c) = b.getLsbD c := by
  obtain ⟨hrow, hcol⟩ := testBit_curveIndex hc (field a 0 32) (field b 0 32)
  have hlow : ∀ w : Word, (field w 0 32).testBit c = w.getLsbD c := fun w => by
    rw [field_zero, Nat.testBit_mod_two_pow, decide_eq_true hc, Bool.true_and]
    rfl
  rw [qinter, getLsbD_wd _ (by omega), getLsbD_wd _ (by omega), hrow, hcol, hlow, hlow]
  exact ⟨rfl, rfl⟩

theorem toNat_wd_gatherBits_lt (v : Nat) : (wd (gatherBits 32 v)).toNat < 2 ^ 32 :=
  Nat.lt_of_le_of_lt (Nat.mod_le _ _) (gatherBits_lt 32 v)

theorem getLsbD_qsplitRow {c : Nat} (hc : c < 32) : (qsplitRow e).getLsbD c = e.getLsbD (2 * c + 1) := by
  rw [qsplitRow, getLsbD_wd _ (by omega), curveRow, testBit_gatherBits hc]
  exact (Nat.testBit_succ _ _).symm

theorem getLsbD_qsplitCol {c : Nat} (hc : c < 32) : (qsplitCol e).getLsbD c = e.getLsbD (2 * c) := by
  rw [qsplitCol, getLsbD_wd _ (by omega), curveCol, testBit_gatherBits hc]
  rfl

end

theorem exec_qsplit_of_fires {f : Form} {s : State} {is : Iss} (h : Fires (.qsplit f) s is) :
    exec (.qsplit f) s = .next (s.emit2 is (.sc (qsplitRow is.lw)) (.sc (qsplitCol is.lw))) :=
  (show exec (.qsplit f) s = execQsplit f s from rfl).trans (issue_body_of_fires h)

/-- Settles O18: each instruction runs one function of its operand words; the counts by where the highest and the lowest set
bit stand, the rest bit by bit. -/
theorem bitAndQuadrantResults : Obligations.BitAndQuadrantResults := by
  refine ⟨fun f s is => ⟨fun h => ?clz, fun h => ?ctz, fun h => ?popc, fun h => ?brev⟩,
    fun f => ⟨?qdig, fun s is h => ?qset, ?qtrunc, ?qnext, ?qparent, ?qchild, fun s is h => ?qinter, fun s is h => ?qsplit,
      fun s is h => ?qdepth⟩⟩
  case clz =>
    obtain ⟨hle, habove, hset⟩ := clz_spec is.lw
    exact ⟨clzFrom 64 is.lw, hle, scalar1_of_fires h, habove, hset⟩
  case ctz =>
    obtain ⟨-, hle, hbelow, hset⟩ := lowestFrom_spec is.lw 64 0
    exact ⟨lowestBit is.lw, hle, scalar1_of_fires h, fun i hi => hbelow i (Nat.zero_le i) hi, hset⟩
  case popc => exact popFrom_eq_countP is.lw 64 ▸ scalar1_of_fires h
  case brev => exact ⟨brev is.lw, scalar1_of_fires h, fun i hi => getLsbD_brev is.lw hi⟩
  case qdig => exact delivers_of_scalar2 (fun _ => rfl) fun is => qdig_eq_ofZ is.lw is.rw_
  case qset =>
    exact ⟨qset is.lw is.rw_ is.xw, scalar3_of_fires h, qset_of_outside is.lw is.rw_ is.xw,
      fun h1 h32 i hi => getLsbD_qset is.lw is.rw_ is.xw h1 h32 hi⟩
  case qtrunc => exact delivers_of_scalar2 (fun _ => rfl) fun is => qtrunc_eq_ofZ is.lw is.rw_
  case qnext => exact delivers_of_scalar2 (fun _ => rfl) fun is => qnext_eq_ofZ is.lw is.rw_
  case qparent => exact delivers_of_scalar1 (fun _ => rfl) fun is => qparent_eq_ofZ is.lw
  case qchild => exact delivers_of_scalar2 (fun _ => rfl) fun is => qchild_eq_ofZ is.lw is.rw_
  case qinter => exact ⟨qinter is.lw is.rw_, scalar2_of_fires h, fun c hc => getLsbD_qinter is.lw is.rw_ hc⟩
  case qsplit =>
    exact ⟨qsplitRow is.lw, qsplitCol is.lw, exec_qsplit_of_fires h, toNat_wd_gatherBits_lt _, toNat_wd_gatherBits_lt _,
      fun c hc => ⟨getLsbD_qsplitRow is.lw hc, getLsbD_qsplitCol is.lw hc⟩⟩
  case qdepth =>
    obtain ⟨d, hd, hval, hsame, hdiff⟩ := qdepth_spec is.lw is.rw_
    exact ⟨d, hd, hval ▸ scalar2_of_fires h, hsame, hdiff⟩

end Sys2Proof.Machine
end

section
/-!
Words of the spec's listings (R207, R239, R250, R257, R273, R289, R293, R312, R324, R352, R362, R369, R374, R379).
-/

namespace Sys2Proof
open Sys2Proof.Machine

/-- Settles O3: the decoder reads each listing, word by word, as what it spells. -/
theorem specWordsDecode : Obligations.SpecWordsDecode :=
  ⟨rfl, rfl, rfl, rfl, rfl, rfl, rfl, rfl, rfl, rfl, rfl, rfl, rfl, rfl, rfl, rfl⟩

end Sys2Proof
end

section
/-!
Trap entry of a burr with pending traps of the array (R313, R370).
-/

namespace Sys2Proof.Machine
open Sys2Proof Sys2Proof.Claims

/-- Without a sheaf in flight there is nothing to discard. -/
theorem State.discard_of_no_flight {s : State} {c k : Nat} (h : s.flight c k = none) : s.discard c k = s := by
  rw [State.discard, h]

/-- A record that states TADDR and TBLOCKP draws no free value (log 10). -/
theorem State.bankOf_of_stated (s : State) (n : Word) {r : TrapRec} {a b : Word} (ha : r.addr = some a)
    (hb : r.blockp = some b) : s.bankOf n r = (bankAs r a b n, s) := by
  rw [State.bankOf, ha, hb]
  rfl

/-- A burr's trap: after its packet and the supervisor's message, one more message for each pending trap of the array. -/
theorem State.takeTrap_of_burr {s : State} {c k : Nat} {r : TrapRec} {a b : Word} (hf : s.flight c k = none)
    (ha : r.addr = some a) (hb : r.blockp = some b) (hk : (s.slot c k).th.kind = .burr) :
    let th := (s.slot c k).th
    s.takeTrap c k r = ((((s.postBurr c (s.supvCore th.ctx) th.toBurr true).slotMsg c k th.ctx 2 (some th.bid.toNat)
      (some (tcauseWord r)) (some a) (some th.regs.n)).orphans c k th.ctx th.imps).modCore c fun y =>
        (y.unwatch (slotOwner k)).setSlot k (y.slot k).freed) := by
  simp only [State.takeTrap, State.discard_of_no_flight hf, State.bankOf_of_stated s _ ha hb, hk]
  rfl

/-- A pending trap of the array is a message of its own (R313). -/
theorem State.length_flits_orphans_threshold (s : State) (c k ctx : Nat) :
    (s.orphans c k ctx [{ cause := .matrixThreshold }]).flits.length = s.flits.length + 1 := List.length_append

/-- Refutes O46: a burr that traps with a pending matrix-threshold trap.  The statement has it leave with its packet and the
message of its own trap; the model sends the supervisor the pending trap as well (R313, `State.orphans`). -/
theorem not_trapEntry : ¬ Obligations.TrapEntry := by
  rintro ⟨hentry, -⟩
  let s : State := ({} : State).setSlot 0 0 { occ := true, th := { kind := .burr, imps := [{ cause := .matrixThreshold }] } }
  let r : TrapRec := { cause := .privilege, addr := some 0, blockp := some 0 }
  have hburr : (s.slot 0 0).th.kind = .burr := rfl
  obtain ⟨-, -, hclaim⟩ := hentry s 0 0 r 0 0 rfl rfl rfl
  have hmodel := State.takeTrap_of_burr (s := s) (c := 0) (k := 0) (r := r) rfl rfl rfl hburr
  have hflits := congrArg (fun t : State => t.flits.length) ((hclaim hburr).symm.trans hmodel)
  exact Nat.succ_ne_self _ (hflits.trans (State.length_flits_orphans_threshold _ 0 0 0)).symm

end Sys2Proof.Machine
end

section
/-!
The loads and stores of pages 0 and 1 (R260 to R262, R265 to R268).
-/

namespace Sys2Proof.Machine
open Sys2Proof Sys2Proof.Claims

/-- An instruction that fires issues with its own form. -/
theorem form_of_fires {i : Instr} {f : Form} {s : State} {is : Iss} (h : Fires i s is) (hf : i.form = some f) : is.f = f :=
  Option.some.inj ((State.issuer_form h.1).symm.trans hf)

/-- The checks of an address-form access in their order: its policy word (R261), then its alignment (R267). -/
theorem accessChecks_cases {p align : Bool} {m : Nat} {badPolicy misaligned fires : Out} :
    let checked := if (!p) = true then badPolicy else if (align && m != 0) = true then misaligned else fires
    (p = true → (align = true → m = 0) → checked = fires) ∧ (p = false → checked = badPolicy) ∧
      (p = true → align = true → m ≠ 0 → checked = misaligned) := by
  refine ⟨?_, ?_, ?_⟩
  · rintro rfl ha
    have hm : ¬ (align && m != 0) = true := by simpa using ha
    exact if_neg hm
  · rintro rfl
    rfl
  · rintro rfl rfl hm
    exact if_pos (bne_iff_ne.2 hm)

/-! ### Loads -/

/-- A load runs through its checks: policy word, alignment, then the parts of its range (R261, R267). -/
theorem loadsAs_of_loadAt {i : Instr} {n : Nat} {sh : Shape} {align : Bool} (hx : ∀ s, exec i s = loadAt i s n sh align) :
    LoadsAs i n sh align := by
  intro s is h
  rw [hx s, loadAt, issue_body_of_fires h]
  obtain ⟨hfires, hpolicy, haligned⟩ := accessChecks_cases
  exact ⟨fun fl t got hp ha hl => (hfires hp ha).trans (congrArg _ (State.loadFire_of_ready sh hl)), hpolicy, haligned⟩

section
variable {k : LdForm} {f : Form} {s t : State} {is : Iss} {fl : Flight} {got : List (Option Byte)}

/-- Only a burr that has not followed follows (R166). -/
theorem State.followsTo_eq_none (h : is.burr = false ∨ is.th.fw = true) : s.followsTo is = none := by
  have hstays : ¬ (is.burr && !is.th.fw) = true := by
    obtain h | h := h <;> simp [h]
  exact if_neg hstays

/-- An LDF whose checks pass is held as its LD is; the follow owner that it found at fire joins the flight's (R268). -/
theorem exec_ldf_of_ready (h : Fires (.ldf k f) s is) (hp : polOk is.policy true false false = true)
    (hl : LoadReady s is is.addr (List.replicate (ldBytes k) none) false false (coverWord is.addr (ldBytes k)) fl t got) :
    exec (.ldf k f) s = .next (match s.followsTo is with
      | some o => (loadHeld is is.addr (ldShape k) fl t got).modFlight is.c is.k fun x =>
          { x with follow := x.follow ++ [(is.lsnN, o)] }
      | none => loadHeld is is.addr (ldShape k) fl t got) := by
  show execLdf k f s = _
  rw [execLdf, issue_body_of_fires h, hp, Bool.not_true, if_neg Bool.false_ne_true]
  simp only [State.loadFire_of_ready (ldShape k) hl] <;> rfl

end

/-- Settles O21: each load is `loadAt` of its size and shape, and LDF splits on the follow owner. -/
theorem loadsFire : Obligations.LoadsFire := by
  refine ⟨fun f => ⟨loadsAs_of_loadAt fun _ => rfl, loadsAs_of_loadAt fun _ => rfl, loadsAs_of_loadAt fun _ => rfl,
    loadsAs_of_loadAt fun _ => rfl, loadsAs_of_loadAt fun _ => rfl, loadsAs_of_loadAt fun _ => rfl,
    loadsAs_of_loadAt fun _ => rfl, loadsAs_of_loadAt fun _ => rfl, loadsAs_of_loadAt fun _ => rfl⟩,
    fun k f s is fl t got h hp hl => ⟨fun hn => ?_, fun o ho => ?_, State.followsTo_eq_none⟩⟩
  · rw [exec_ldf_of_ready h hp hl, hn]
  · rw [exec_ldf_of_ready h hp hl, ho]

/-! ### Stores -/

/-- The bytes of a number, by place. -/
theorem toBytes_eq_map (n v : Nat) : toBytes n v = (List.range n).map fun j => BitVec.ofNat 8 (v / 256 ^ j) := by
  induction n generalizing v with
  | zero => rfl
  | succ n ih =>
    rw [toBytes, ih, List.range_succ_eq_map, List.map_cons, Nat.pow_zero, Nat.div_one, List.map_map]
    refine congrArg _ (List.map_congr_left fun j _ => ?_)
    rw [Function.comp_apply, Nat.succ_eq_add_one, Nat.pow_succ', Nat.div_div_eq_div_mul]

/-- The bytes that a scalar store writes, lowest first (R266). -/
theorem scalarBytes_eq_map (n : Nat) (w : Word) :
    scalarBytes n w = (List.range n).map fun j => some (w.extractLsb' (8 * j) 8) := by
  rw [scalarBytes, toBytes_eq_map, List.map_map]
  refine List.map_congr_left fun j _ => congrArg some ?_
  show BitVec.ofNat 8 (w.toNat / (2 ^ 8) ^ j) = _
  rw [← Nat.pow_mul, ← Nat.shiftRight_eq_div_pow]
  rfl

/-- A store runs through its checks: policy word, alignment, then the parts of its range (R261, R267). -/
theorem storesAs_of_storeAt {i : Instr} {n : Nat} {data : Iss → List (Option Byte)} {align : Bool}
    (hx : ∀ s, exec i s = storeAt i s n data align) : StoresAs i n data align := by
  intro s is h
  rw [hx s, storeAt, issue_body_of_fires h]
  obtain ⟨hfires, hpolicy, haligned⟩ := accessChecks_cases
  exact ⟨fun fl t ps hp ha hs => (hfires hp ha).trans (congrArg _ (State.storeFire_of_ready align _ hs)), hpolicy, haligned⟩

/-- Settles O23: each store is `storeAt` of its size and bytes. -/
theorem storesFire : Obligations.StoresFire := by
  have hscalar : ∀ n, (fun is : Iss => (List.range n).map fun j => some (is.rw_.extractLsb' (8 * j) 8)) =
      fun is => scalarBytes n is.rw_ := fun n => funext fun is => (scalarBytes_eq_map n is.rw_).symm
  intro f
  dsimp only
  simp only [hscalar]
  exact ⟨storesAs_of_storeAt fun _ => rfl, storesAs_of_storeAt fun _ => rfl, storesAs_of_storeAt fun _ => rfl,
    storesAs_of_storeAt fun _ => rfl, storesAs_of_storeAt fun _ => rfl, storesAs_of_storeAt fun _ => rfl⟩

end Sys2Proof.Machine
end

section
/-!
Element-wise vector instructions, moves and conversions, position by position (R281 to R287, R291 to R295).
-/

namespace Sys2Proof.Machine
open Sys2Proof Sys2Proof.Claims

/-! ### Element by element (R281 to R287) -/

section
variable {is : Iss} {sz : Nat} {es : List (Option Nat)} {g : Nat → Option Nat}

/-- A masked list of elements is delivered by lanes when the list is one over the positions. -/
theorem emit_eq_lanes (s : State) (h : es = (List.range (64 / sz)).map g) :
    (.next (s.emit is (vecTok sz (maskElems sz is.qmask es))) : Out) = .next (s.emit is (lanes is sz g)) := h ▸ rfl

theorem emitRounded_eq_lanes (s : State) (rounds : Bool) (h : es = (List.range (64 / sz)).map g) :
    (.next (s.emitRounded is rounds (vecTok sz (maskElems sz is.qmask es))) : Out) =
      .next (s.emitRounded is rounds (lanes is sz g)) := h ▸ rfl

end

section
variable {i : Instr} {r : Nat → Bool}

theorem vecAs_of_vec1 {g : Nat → RMode → Bool → Nat → Nat} (hx : ∀ s, exec i s = vec1 i s r g) : VecAs i (map1 r g) := by
  refine vecAs_of_withFormat hx fun is s c => emitRounded_eq_lanes s (r c) ?_
  rw [elemsOf_eq_map_el, zipIdx_map_range, List.map_map]
  refine List.map_congr_left fun j _ => ?_
  dsimp only [Function.comp_apply]
  cases el (fmtSize c) is.l j <;> rfl

theorem vecAs_of_vec2 {g : Nat → RMode → Bool → Nat → Nat → Nat} (hx : ∀ s, exec i s = vec2 i s r g) :
    VecAs i (map2 r g) := by
  refine vecAs_of_withFormat hx fun is s c => emitRounded_eq_lanes s (r c) ?_
  rw [zip_elemsOf, zipIdx_map_range, List.map_map]
  refine List.map_congr_left fun j _ => ?_
  dsimp only [Function.comp_apply]
  cases el (fmtSize c) is.l j <;> cases el (fmtSize c) is.r j <;> rfl

theorem vecAs_of_vec3 {g : Nat → RMode → Bool → Nat → Nat → Nat → Nat} (hx : ∀ s, exec i s = vec3 i s g) :
    VecAs i (map3 g) := by
  refine vecAs_of_withFormat hx fun is s c => emitRounded_eq_lanes s (fmtIsFloat c) ?_
  rw [zip_elemsOf, elemsOf_eq_map_el, List.zip_map', zipIdx_map_range, List.map_map]
  refine List.map_congr_left fun j _ => ?_
  dsimp only [Function.comp_apply]
  cases el (fmtSize c) is.l j <;> cases el (fmtSize c) is.r j <;> cases el (fmtSize c) is.x j <;> rfl

end

/-- Settles O29: each instruction is its element function over one, two or three operands. -/
theorem vectorElementwise : Obligations.VectorElementwise := fun _ =>
  ⟨vecAs_of_vec2 fun _ => rfl, vecAs_of_vec2 fun _ => rfl, vecAs_of_vec2 fun _ => rfl, vecAs_of_vec3 fun _ => rfl,
    vecAs_of_vec3 fun _ => rfl, vecAs_of_vec2 fun _ => rfl, vecAs_of_vec2 fun _ => rfl, vecAs_of_vec1 fun _ => rfl,
    vecAs_of_vec1 fun _ => rfl, vecAs_of_vec1 fun _ => rfl, vecAs_of_vec1 fun _ => rfl, vecAs_of_vec1 fun _ => rfl,
    vecAs_of_vec1 fun _ => rfl, vecAs_of_vec2 fun _ => rfl, vecAs_of_vec2 fun _ => rfl, vecAs_of_vec2 fun _ => rfl,
    vecAs_of_vec2 fun _ => rfl, vecAs_of_vec2 fun _ => rfl, vecAs_of_vec2 fun _ => rfl⟩

/-! ### Moves by position (R293, R294) -/

/-- A word at a vector port stands at every position (R283). -/
theorem elemsOf_scalar (sz : Nat) (w : Word) :
    elemsOf sz (.sc w) = (List.range (64 / sz)).map fun _ => some (w.toNat % 2 ^ (8 * sz)) := by
  rw [List.map_const', List.length_range, elemsOf, nbits, Nat.pow_zero, Nat.div_one]

/-- One position of a list over the positions is replaced. -/
theorem setAt_map_range {α : Type} (n p : Nat) (g : Nat → α) (v : α) :
    setAt ((List.range n).map g) p v = (List.range n).map fun j => if j = p then v else g j := by
  rw [setAt_eq_set]
  refine List.ext_getElem (by simp) fun j _ _ => ?_
  simp [List.getElem_set, eq_comm]

/-- A position of a masked operand: its element where the lane mask has its bit (R281). -/
theorem getElem?_maskElems (sz : Nat) (q : Mask) (t : Tok) (j : Nat) :
    ((maskElems sz q (elemsOf sz t))[j]?).getD none = if q.getLsbD (j * sz) then el sz t j else none := by
  rw [maskElems_elemsOf]
  by_cases hj : j < 64 / sz
  · simp [hj]
  · have hnone : el sz t j = none := by
      rw [el, List.getElem?_eq_none (by rw [elemsOf_length]; omega)]
      rfl
    simp [hj, hnone]

/-- VEXT delivers the element that stands at its position, and null where there is none (R293). -/
theorem vext_match (s : State) (is : Iss) (c : Nat) (e : Option (Option Nat)) :
    (match e with
      | some (some v) => .next (s.emit is (.sc (elemWord c v)))
      | _ => .next (s.emit is .null) : Out) =
    .next (s.emit is (((e.getD none).map fun v => .sc (elemWord c v)).getD .null)) := by
  rcases e with - | - | v <;> rfl

/-- A field of a word, as bits. -/
theorem field_eq_extractLsb' (w : Word) (lo len : Nat) : field w lo len = (w.extractLsb' lo len).toNat := by
  rw [field, nbits, BitVec.extractLsb'_toNat, Nat.shiftRight_eq_div_pow]

/-- VPERM takes each element of L at the index that R gives, modulo their number. -/
theorem vperm_elems (sz : Nat) (l r : Tok) :
    ((elemsOf sz r).map fun k => match k with
      | some k => ((elemsOf sz l)[k % (elemsOf sz l).length]?).getD none
      | none => none) = (List.range (64 / sz)).map fun j => (el sz r j).bind fun k => el sz l (k % (64 / sz)) := by
  rw [elemsOf_length, elemsOf_eq_map_el sz r, List.map_map]
  refine List.map_congr_left fun j _ => ?_
  dsimp only [Function.comp_apply]
  cases el sz r j <;> rfl

/-- Settles O32: each move chooses the element of a position by another position of its operands. -/
theorem vectorMoves : Obligations.VectorMoves := by
  refine fun f => ⟨vecAs_of_withFormat (fun _ => rfl) fun is s c => ?perm, vecAs_of_withFormat (fun _ => rfl) fun is s c => ?bcast,
    vecAs_of_withFormat (fun _ => rfl) fun is s c => ?ins, vecAs_of_withFormat (fun _ => rfl) fun is s c => rfl,
    vecAs_of_withFormat (fun _ => rfl) fun is s c => rfl, vecAs_of_withFormat (fun _ => rfl) fun is s c => ?qshuf,
    vecAs_of_withFormat (fun _ => rfl) fun is s c => ?ext⟩
  case perm => exact emit_eq_lanes s (vperm_elems (fmtSize c) is.l is.r)
  case bcast => exact emit_eq_lanes s (elemsOf_scalar (fmtSize c) is.lw)
  case ins =>
    refine emit_eq_lanes s ?_
    rw [elemsOf_eq_map_el, setAt_map_range, nbits, Nat.pow_zero, Nat.div_one]
  case qshuf =>
    dsimp only
    rw [field_eq_extractLsb']
    split
    · rfl
    · refine emit_eq_lanes s (List.map_congr_left fun e _ => ?_)
      rw [field_eq_extractLsb', nbits, Nat.pow_mul]
      rfl
  case ext =>
    refine (vext_match s is c (maskElems (fmtSize c) is.qmask (elemsOf (fmtSize c) is.l))[is.xw.toNat % (64 / fmtSize c)]?).trans ?_
    rw [getElem?_maskElems]
    dsimp only
    cases is.qmask.getLsbD (is.xw.toNat % (64 / fmtSize c) * fmtSize c) <;>
      cases el (fmtSize c) is.l (is.xw.toNat % (64 / fmtSize c)) <;> rfl

/-! ### Instructions with two formats (R188, R281) -/

/-- An element has one, two, four or eight bytes (R188, R189, R191). -/
theorem fmtSize_cases (c : Nat) : fmtSize c = 1 ∨ fmtSize c = 2 ∨ fmtSize c = 4 ∨ fmtSize c = 8 := by
  unfold fmtSize
  have hc : c % 4 = 0 ∨ c % 4 = 1 ∨ c % 4 = 2 ∨ c % 4 = 3 := by omega
  split_ifs
  any_goals simp
  rcases hc with h | h | h | h <;> simp [h]

section
variable {i : Instr} {s : State} {is : Iss} {body : Iss → State → Nat → Nat → Out}

/-- What two formats come from: the two prefixes, resolved in the row's sets, under the row's size rule (R282). -/
theorem formatsOf_eq_some_iff {a b : Nat} : formatsOf is = some (a, b) ↔
    ∃ ss ds rule x y rest, is.n.fmts = .two ss ds rule ∧ is.f.fmts = x :: y :: rest ∧
      is.th.resolve ss x.1.toNat = some a ∧ is.th.resolve ds y.1.toNat = some b ∧ rule.holds a b = true := by
  constructor
  · intro hc
    unfold formatsOf at hc
    split at hc
    case h_1 ss ds rule x p y q rest hs hf =>
      split at hc
      case h_1 ca cb ha hb =>
        obtain ⟨hr, he⟩ := Option.ite_none_right_eq_some.1 hc
        cases he
        exact ⟨ss, ds, rule, (x, p), (y, q), rest, hs, hf, ha, hb, hr⟩
      case h_2 => cases hc
    case h_2 => cases hc
  · rintro ⟨ss, ds, rule, ⟨x, p⟩, ⟨y, q⟩, rest, hs, hf, ha, hb, hr⟩
    simp [formatsOf, hs, hf, ha, hb, hr]

theorem withFormats_of_formatsOf {a b : Nat} (h : Fires i s is) (hc : formatsOf is = some (a, b)) :
    withFormats i s body = body is s a b := by
  obtain ⟨ss, ds, rule, ⟨x, p⟩, ⟨y, q⟩, rest, hs, hf, ha, hb, hr⟩ := formatsOf_eq_some_iff.1 hc
  rw [withFormats, issue_body_of_fires h]
  simp [hs, hf, ha, hb, hr]

theorem withFormats_of_no_formats (h : Fires i s is) (hc : formatsOf is = none) :
    withFormats i s body = .next (s.trapAt is .badFormat) := by
  rw [withFormats, issue_body_of_fires h]
  split
  case h_1 ss ds rule x p y q rest hs hf =>
    split
    case h_1 ca cb ha hb =>
      refine if_neg fun hr => ?_
      rw [formatsOf_eq_some_iff.2 ⟨ss, ds, rule, (x, p), (y, q), rest, hs, hf, ha, hb, hr⟩] at hc
      cases hc
    case h_2 => rfl
  case h_2 => rfl

/-- The two formats of an instruction that fires keep its row's size rule (R282). -/
theorem sizeRule_of_formatsOf {ss ds : FmtSet} {rule : SizeRule} {a b : Nat} (hn : is.n.fmts = .two ss ds rule)
    (hc : formatsOf is = some (a, b)) : rule.holds a b = true := by
  obtain ⟨_, _, _, _, _, _, hs, _, _, _, hr⟩ := formatsOf_eq_some_iff.1 hc
  cases hn.symm.trans hs
  exact hr

/-- An instruction that runs a body under its two formats answers what the body does. -/
theorem convAs_of_withFormats {n : Info} {ss ds : FmtSet} {rule : SizeRule} {g : Iss → State → Nat → Nat → State}
    (hx : ∀ s, exec i s = withFormats i s body) (hi : i.info = some n) (hn : n.fmts = .two ss ds rule)
    (hg : ∀ is s a b, rule.holds a b = true → body is s a b = .next (g is s a b)) : ConvAs i g := by
  refine fun s is h => ⟨fun a b hc => ?_, fun hc => (hx s).trans (withFormats_of_no_formats h hc)⟩
  have hrow : is.n = n := Option.some.inj ((State.issuer_info h.1).symm.trans hi)
  exact (hx s).trans ((withFormats_of_formatsOf h hc).trans (hg is s a b (sizeRule_of_formatsOf (hrow ▸ hn) hc)))

end

/-! ### Conversions (R291, R292, R295) -/

/-- A run of an operand's elements, by position. -/
theorem take_drop_elemsOf {sz p n : Nat} (t : Tok) (h : p + n ≤ 64 / sz) :
    ((elemsOf sz t).drop p).take n = (List.range n).map fun j => el sz t (p + j) := by
  rw [elemsOf_eq_map_el]
  refine List.ext_getElem (by simp; omega) fun j hj _ => ?_
  simp

/-- A run of a list is replaced by another one. -/
theorem splice_map_range {α : Type} {p n m : Nat} (f g : Nat → α) (h : p + n ≤ m) :
    ((List.range m).map g).take p ++ (List.range n).map f ++ ((List.range m).map g).drop (p + n) =
      (List.range m).map fun j => if p ≤ j ∧ j < p + n then f (j - p) else g j := by
  refine List.ext_getElem (by simp; omega) fun j _ _ => ?_
  simp only [List.getElem_append, List.length_append, List.length_take, List.length_map, List.length_range, List.getElem_take, List.getElem_map, List.getElem_range, List.getElem_drop]
  have hp : min p m = p := by omega
  simp only [hp]
  by_cases h1 : j < p
  · rw [dif_pos (by omega), dif_pos h1, if_neg (by omega)]
  · by_cases h2 : j < p + n
    · rw [dif_pos h2, dif_neg h1, if_pos (by omega)]
    · rw [dif_neg h2, if_neg (by omega)]
      congr 1
      omega

theorem fmtSize_pos (c : Nat) : 0 < fmtSize c := by
  rcases fmtSize_cases c with h | h | h | h <;> rw [h] <;> decide

/-- Where the larger element is a multiple of the smaller, so are their numbers in a vector. -/
theorem fmtSize_ratio (a b : Nat) : fmtSize b / fmtSize a = 64 / fmtSize a / (64 / fmtSize b) := by
  rcases fmtSize_cases a with ha | ha | ha | ha <;> rcases fmtSize_cases b with hb | hb | hb | hb <;> rw [ha, hb]

/-- The elements of a vector in the larger of two formats are no more than in either. -/
theorem div_max_fmtSize (a b : Nat) :
    0 < 64 / max (fmtSize a) (fmtSize b) ∧ 64 / max (fmtSize a) (fmtSize b) ≤ 64 / fmtSize a := by
  refine ⟨?_, Nat.div_le_div_left (le_max_left _ _) (fmtSize_pos a)⟩
  rcases fmtSize_cases a with ha | ha | ha | ha <;> rcases fmtSize_cases b with hb | hb | hb | hb <;> rw [ha, hb] <;> decide

/-- A run of `n` among `m` that is picked modulo their number. -/
theorem picked_run_le {n m : Nat} (x : Nat) (hn : 0 < n) (h : n ≤ m) : x % (m / n) * n + n ≤ m := by
  have hlt : x % (m / n) < m / n := Nat.mod_lt _ (Nat.div_pos h hn)
  calc x % (m / n) * n + n = (x % (m / n) + 1) * n := (Nat.succ_mul _ _).symm
    _ ≤ m / n * n := Nat.mul_le_mul_right n hlt
    _ ≤ m := Nat.div_mul_le_self m n

/-- The run of the wider format's elements that a position of the other one names (R292). -/
theorem picked_narrow_le {a b : Nat} (x : Nat) (h : fmtSize a < fmtSize b) :
    x % (fmtSize b / fmtSize a) * (64 / fmtSize b) + 64 / fmtSize b ≤ 64 / fmtSize a := by
  rw [fmtSize_ratio]
  refine picked_run_le x ?_ (Nat.div_le_div_left h.le (fmtSize_pos a))
  rcases fmtSize_cases b with hb | hb | hb | hb <;> rw [hb] <;> decide

/-- Settles O33: each conversion runs over a run of its operand's elements, which the sizes of the two formats keep within
the vector. -/
theorem vectorConversions : Obligations.VectorConversions := by
  refine fun f => ⟨convAs_of_withFormats (fun _ => rfl) rfl rfl fun is s a b _ => ?cvt,
    convAs_of_withFormats (fun _ => rfl) rfl rfl fun is s a b _ => ?scale,
    convAs_of_withFormats (fun _ => rfl) rfl rfl fun is s a b hr => ?pack,
    convAs_of_withFormats (fun _ => rfl) rfl rfl fun is s a b hr => ?unpack⟩
  case cvt =>
    have hrun := take_drop_elemsOf (p := 0) is.l ((Nat.zero_add _).trans_le (div_max_fmtSize a b).2)
    simp only [List.drop_zero, Nat.zero_add] at hrun
    dsimp only
    rw [hrun, zipIdx_map_range, List.map_map]
    rfl
  case scale =>
    obtain ⟨hn, hle⟩ := div_max_fmtSize a b
    dsimp only
    rw [take_drop_elemsOf is.l (picked_run_le is.xw.toNat hn hle), zipIdx_map_range, List.map_map]
    rfl
  case pack =>
    have hsize : fmtSize b < fmtSize a := of_decide_eq_true hr
    dsimp only
    rw [elemsOf_eq_map_el, elemsOf_eq_map_el, zipIdx_map_range, List.map_map, splice_map_range _ _ (picked_narrow_le is.xw.toNat hsize)]
    rfl
  case unpack =>
    have hsize : fmtSize a < fmtSize b := of_decide_eq_true hr
    dsimp only
    rw [take_drop_elemsOf is.l (picked_narrow_le is.xw.toNat hsize), zipIdx_map_range, List.map_map]
    rfl

end Sys2Proof.Machine
end

section
/-!
Ricks: their allocation, the instructions that name one, and fills (R305, R307 to R309).
-/

namespace Sys2Proof.Machine
open Sys2Proof Sys2Proof.Claims

/-! ### RKALLOC (R305, R308) -/

theorem bankQuota_eq (x : Ctx) : bankQuota x = x.rkquota.toNat % 16 := field_zero x.rkquota 4

/-- The array after an RKALLOC of `n` banks into entry `e`: the reservation stands, and the next serial follows 8191 with 1. -/
def Copse.reserveRick (x : Copse) (e ctx n now : Nat) : Copse :=
  { x.takeBanks (x.serial * 8 + e) (x.openBanks.take n) with
    rsv := x.rsv.put e { handle := x.serial * 8 + e, ctx := ctx, state := .empty, nbanks := n, banks := x.openBanks.take n,
                         used := now }
    serial := if x.serial == 8191 then 1 else x.serial + 1 }

section
variable {f : Form} {s : State} {is : Iss} (h : Fires (.rkalloc f) s is)
include h

theorem exec_rkalloc_of_badCount (hn : is.lw.toNat = 0 ∨ 8 < is.lw.toNat) :
    exec (.rkalloc f) s = .next (s.trapAt is .badControlValue) := by
  have hbad : (is.lw.toNat == 0 || 8 < is.lw.toNat) = true := by simpa using hn
  show execRkalloc f s = _
  rw [execRkalloc, issue_body_of_fires h]
  exact if_pos hbad

/-- A legal count is checked against the quota, then the array makes room, and looks for banks and an entry. -/
theorem exec_rkalloc_of_count (h1 : 1 ≤ is.lw.toNat) (h8 : is.lw.toNat ≤ 8) :
    let n := is.lw.toNat
    let cp := is.c / 8
    let u := s.sweepRicks cp
    let v := u.makeRoom cp n 8
    exec (.rkalloc f) s =
      if bankQuota (u.ctx is.ctx) < (u.copse cp).heldBy is.ctx + n then .next (u.emit is (.sc (rkStatus 1)))
      else if (v.copse cp).openBanks.length < n then .next (v.emit is (.sc (rkStatus 2)))
      else match (v.copse cp).openEntry with
        | none => .next (v.emit is (.sc (rkStatus 3)))
        | some e => .next ((v.setCopse cp ((v.copse cp).reserveRick e is.ctx n v.now)).emitDue is
            (.sc (wd ((v.copse cp).serial * 8 + e))) (.rkalloc e)) := by
  have hgood : ¬ (is.lw.toNat == 0 || 8 < is.lw.toNat) = true := by
    simp only [Bool.or_eq_true, beq_iff_eq, decide_eq_true_eq]
    omega
  show execRkalloc f s = _
  rw [execRkalloc, issue_body_of_fires h]
  exact if_neg hgood

end

/-! ### RKALLOC's commit (R307) -/

theorem SMap.get?_eq_none_of_lt {α : Type} {m : SMap α} {a : Nat} (h : ∀ p ∈ m, a < p.1) : m.get? a = none := by
  cases m with
  | nil => rfl
  | cons p rest =>
    have hlt : a < p.1 := h p List.mem_cons_self
    rw [SMap.get?, if_neg (by simpa using hlt.ne'), if_pos hlt]

/-- A key that is removed from a map with rising keys is gone. -/
theorem SMap.get?_del_self {α : Type} {m : SMap α} (a : Nat) (h : (m.map Prod.fst).Pairwise (· < ·)) :
    (m.del a).get? a = none := by
  induction m with
  | nil => rfl
  | cons p rest ih =>
    obtain ⟨k, w⟩ := p
    obtain ⟨hk, hrest⟩ := List.pairwise_cons.1 h
    have hkeys : ∀ p ∈ rest, k < p.1 := fun p hp => hk p.1 (List.mem_map_of_mem hp)
    rw [SMap.del]
    by_cases ha : k = a
    · rw [if_pos (beq_iff_eq.2 ha)]
      exact SMap.get?_eq_none_of_lt fun p hp => ha ▸ hkeys p hp
    · rw [if_neg (by simpa using ha)]
      by_cases hlt : a < k
      · rw [if_pos hlt, SMap.get?, if_neg (by simpa using ha), if_pos hlt]
      · rw [if_neg hlt, SMap.get?, if_neg (by simpa using ha), if_neg hlt]
        exact ih hrest

section
variable {x : Copse} {e : Nat} {r : Rick}

theorem Copse.rick_setRick_self (he : e < 8) : (x.setRick e r).rick e = r := by simp [Copse.rick, Copse.setRick, he]

theorem Copse.rick_setRick_ne {e' : Nat} (he : e' ≠ e) : (x.setRick e r).rick e' = x.rick e' := by
  rw [Copse.rick, Copse.rick, Copse.setRick, Vector.getElem?_setIfInBounds_ne he.symm]

theorem Copse.bindRick_of_reserved (h : x.rsv.get? e = some r) : x.bindRick e =
    { x.setRick e { r with bound := true } with
      rsv := x.rsv.del e
      gone := if (x.rick e).bound && !(x.rick e).banks.isEmpty then x.gone ++ [x.rick e] else x.gone
      usedEntry := if x.usedEntry.contains e then x.usedEntry else e :: x.usedEntry } := by
  rw [Copse.bindRick, h]

/-- The revoked rick whose entry is taken is kept apart while it holds banks. -/
theorem Copse.mem_gone_bindRick (h : x.rsv.get? e = some r) (hb : (x.rick e).bound = true) (hn : (x.rick e).banks ≠ []) :
    x.rick e ∈ (x.bindRick e).gone := by
  have hkept : ((x.rick e).bound && !(x.rick e).banks.isEmpty) = true := by simp [hb, hn]
  rw [Copse.bindRick_of_reserved h]
  dsimp only
  rw [if_pos hkept]
  exact List.mem_append_right _ List.mem_cons_self

end

/-! ### The instructions that name a rick (R308, R309) -/

section
variable {i : Instr} {f : Form} {s t : State} {is : Iss} {act : Nat → Act} {e : Nat} {r : Rick}

theorem State.needRick_of_unknown (hr : (s.copse (is.c / 8)).rick? is.ctx is.lw = none) :
    s.needRick is = .error .badRick := by rw [State.needRick, hr]

theorem State.needRick_of_known (hr : (s.copse (is.c / 8)).rick? is.ctx is.lw = some (e, r)) :
    s.needRick is = if r.state = .revoked then .error .rickRevoked else .ok (e, r) := by
  rw [State.needRick, hr]
  simp only [beq_iff_eq]

/-- RKPIN, RKUNPIN and RKREV are the same instruction but for the action they leave. -/
theorem exec_rickAt (hi : (i = .rkpin f ∧ act = fun h => Act.rkpin h true) ∨ (i = .rkunpin f ∧ act = fun h => Act.rkpin h false) ∨
    (i = .rkrev f ∧ act = Act.rkrev)) : exec i s = rickAt i s act := by
  obtain ⟨rfl, rfl⟩ | ⟨rfl, rfl⟩ | ⟨rfl, rfl⟩ := hi
  · rfl
  · rfl
  · rfl

theorem rickAt_of_error {c : Cause} (h : Fires i s is) (hr : s.needRick is = .error c) :
    rickAt i s act = .next (s.trapAt is c) := by
  rw [rickAt, issue_body_of_fires h, hr]

theorem rickAt_of_ok (h : Fires i s is) (hr : s.needRick is = .ok (e, r)) :
    rickAt i s act = .next (s.fireDue is (act r.handle)) := by
  rw [rickAt, issue_body_of_fires h, hr]

theorem exec_rkqry (h : Fires (.rkqry f) s is) : exec (.rkqry f) s =
    .next ((s.sweepRicks (is.c / 8)).emit is
      (.sc (rickWord (((s.sweepRicks (is.c / 8)).copse (is.c / 8)).rick? is.ctx is.lw)))) :=
  issue_body_of_fires (body := fun is s => .next ((s.sweepRicks (is.c / 8)).emit is
    (.sc (rickWord (((s.sweepRicks (is.c / 8)).copse (is.c / 8)).rick? is.ctx is.lw))))) h

theorem exec_rkfill_of_waits (h : Fires (.rkfill f) s is) (hw : rkfillWaits is s = true) : exec (.rkfill f) s = .next s := by
  obtain ⟨his, hb, hn, hr⟩ := h
  show execRkfill f s = _
  exact issueWhen_of_waits his hb hn hr hw

/-- An RKFILL whose rick and descriptor are good is decided by the remaining checks of the fill (R308). -/
theorem exec_rkfill_of_descriptor {bs : List Byte} {d : Tensor} (h : Fires (.rkfill f) s is) (hw : rkfillWaits is s = false)
    (hr : s.needRick is = .ok (e, r))
    (hv : s.readVa is.xer is.agent is.ctx is.priv is.rw_.toNat 32 (coverWord is.rw_.toNat 32) = (t, .ok bs))
    (ha : is.rw_.toNat % 32 = 0) (hd : tensorOf (wordsFrom 4 bs) = some d) : exec (.rkfill f) s =
      match fillCheck d (depthOf f) is.xw.toNat r.nbanks with
      | some c => .next (t.trapAt is c)
      | none => .next ((t.modFlight is.c is.k fun fl => { fl with uses := fl.uses ++ [r.handle] }).fireDue is
          (.command (.fill r.handle (wordsFrom 4 bs) is.xw.toNat (depthOf f) is.priv))) := by
  obtain ⟨his, hb, hn, hreg⟩ := h
  show execRkfill f s = _
  rw [execRkfill, issueWhen_of_fires his hb hn hreg hw, hr]
  simp only [hv, ha, hd, beq_self_eq_true, if_true] <;> rfl

end

/-- Settles O34: RKALLOC by its checks in their order, its commit by the entry that it fills, the others by the rick that
their handle names. -/
theorem ricks : Obligations.Ricks := by
  refine ⟨fun f s is h => ?alloc, fun x e r he hr => ?bind, fun f s is => ⟨fun i act hi h => ?named, exec_rkqry, exec_rkfill_of_waits,
    fun h hw e r t bs d hr hv ha hd => ?fill⟩⟩
  case alloc =>
    intro n cp u v x
    refine ⟨exec_rkalloc_of_badCount h, fun h1 h8 hq => ?_, fun h1 h8 hq => ⟨fun hb => ?_, fun hb he => ?_, fun hb e he => ?_⟩⟩
    · rw [exec_rkalloc_of_count h h1 h8, if_pos (by rwa [bankQuota_eq])]
      rfl
    all_goals rw [exec_rkalloc_of_count h h1 h8, if_neg (by rw [bankQuota_eq]; exact Nat.not_lt.2 hq)]
    · rw [if_pos hb]
      rfl
    · rw [if_neg (Nat.not_lt.2 hb), he]
      rfl
    · rw [if_neg (Nat.not_lt.2 hb), he]
      refine ⟨x.reserveRick e is.ctx n v.now, ?_, ?_, SMap.get?_put_self _ _ _, fun _ => rfl⟩
      · rw [Nat.mul_comm 8]
        rfl
      · simp [Copse.reserveRick]
  case bind =>
    refine ⟨?_, fun hs => ?_, Copse.mem_gone_bindRick hr, fun e' hne => ?_⟩
    all_goals rw [Copse.bindRick_of_reserved hr]
    · exact Copse.rick_setRick_self he
    · exact SMap.get?_del_self e hs
    · exact Copse.rick_setRick_ne hne
  case named =>
    refine ⟨fun hr => ?_, fun e r hr => ⟨fun hv => ?_, fun hv => ?_⟩⟩
    · rw [exec_rickAt hi, rickAt_of_error h (State.needRick_of_unknown hr)]
    · rw [exec_rickAt hi, rickAt_of_error h ((State.needRick_of_known hr).trans (if_pos hv))]
    · rw [exec_rickAt hi, rickAt_of_ok h ((State.needRick_of_known hr).trans (if_neg hv))]
  case fill =>
    refine ⟨fun c hc => ?_, fun hc => ?_⟩
    · rw [exec_rkfill_of_descriptor h hw hr hv ha hd, hc]
    · rw [exec_rkfill_of_descriptor h hw hr hv ha hd, hc]

end Sys2Proof.Machine
end

section
/-!
MMA and MMAZ (R306, R310, R311; logs 74 and 75).
-/

namespace Sys2Proof.Machine
open Sys2Proof Sys2Proof.Claims

/-- The state after an MMA has fired: its rick is in use, the refills that it waits for are noted, and its command is due. -/
def State.mmaFired (s : State) (is : Iss) (zero : Bool) (r : Rick) (w : Nat) (refills : List (Nat × Nat)) : State :=
  (s.modFlight is.c is.k fun fl => { fl with uses := fl.uses ++ [r.handle], refill := fl.refill ++ refills }).fireDue is
    (.command (.mma zero (is.f.sub.toNat % 2) (is.rw_.toNat / 8 % 4) (is.rw_.toNat % 8) r.handle w))

/-- A rick that is stale or evicted. -/
abbrev Rick.old (r : Rick) : Prop := r.state = .stale ∨ r.state = .evicted

theorem nbits_zero (v len : Nat) : nbits v 0 len = v % 2 ^ len := by rw [nbits, Nat.pow_zero, Nat.div_one]

theorem mmaBank_eq (w : Word) : mmaBank w = w.toNat % 8 := field_zero w 3

section
variable {i : Instr} {f : Form} {s : State} {is : Iss} {zero : Bool} {e w : Nat} {r : Rick}

/-- MMA and MMAZ are the same instruction but for what they add to. -/
theorem exec_mma (hi : (i = .mma f ∧ zero = false) ∨ (i = .mmaz f ∧ zero = true)) : exec i s = mmaAt i s zero := by
  obtain ⟨rfl, rfl⟩ | ⟨rfl, rfl⟩ := hi
  · rfl
  · rfl

variable (h : Fires i s is)
include h

theorem mmaAt_of_error {c : Cause} (hc : mmaCheck is s = .error c) : mmaAt i s zero = .next (s.trapAt is c) := by
  rw [mmaAt, issue_body_of_fires h, hc]

variable (hc : mmaCheck is s = .ok (e, r, w))
include hc

/-- A rick with contents: the command is due, behind the refill that is under way, if any. -/
theorem mmaAt_of_current (ho : ¬ r.old) :
    mmaAt i s zero = .next (s.mmaFired is zero r w (if r.refilling then [(is.pos, r.handle)] else [])) := by
  have hold : (r.state == .stale || r.state == .evicted) = false := by simpa [not_or] using ho
  rw [mmaAt, issue_body_of_fires h, hc]
  simp only [hold, Bool.false_and, Bool.false_or, Bool.false_eq_true, if_false, State.mmaFired, nbits_zero, mmaBank_eq]
  cases r.refilling
  · simp only [Bool.false_eq_true, if_false, List.append_nil]
    rfl
  · rfl

/-- A rick that is stale or evicted starts a refill, under RFX = 0. -/
theorem mmaAt_of_old (ho : r.old) (hx : (s.core is.c).mxcfg.getLsbD 8 = false) :
    mmaAt i s zero = .next ((s.modCopse (is.c / 8) fun x => x.modRick e fun r =>
      { r with state := .filling, refilling := true, marked := false, before := r.state }).mmaFired is zero r w
        [(is.pos, r.handle)]) := by
  have hold : (r.state == .stale || r.state == .evicted) = true := by simpa using ho
  rw [mmaAt, issue_body_of_fires h, hc]
  simp only [hold, Core.rfx, hx, Bool.and_false, Bool.true_or, Bool.false_eq_true, if_false, if_true, State.mmaFired,
    nbits_zero, mmaBank_eq]
  rfl

/-- Under RFX = 1 it traps. -/
theorem mmaAt_of_rfx (ho : r.old) (hx : (s.core is.c).mxcfg.getLsbD 8 = true) :
    mmaAt i s zero = .next (s.trapAt is (if r.state = .stale then .staleRick else .evictedRick)) := by
  have hold : (r.state == .stale || r.state == .evicted) = true := by simpa using ho
  rw [mmaAt, issue_body_of_fires h, hc]
  simp only [hold, Core.rfx, hx, Bool.and_true, if_true, beq_iff_eq]

end

/-- Settles O35: an MMA that passes its checks is decided by its rick's state and RFX. -/
theorem multiplyCommands : Obligations.MultiplyCommands := by
  intro f s is i zero hi h
  have hform : i.form = some f := by obtain ⟨rfl, -⟩ | ⟨rfl, -⟩ := hi <;> rfl
  obtain rfl := form_of_fires h hform
  rw [exec_mma hi]
  refine ⟨fun c hc => mmaAt_of_error h hc, fun e r w hc => ⟨fun hs he hr => ?_, fun hs he hr => ?_, fun ho hx => mmaAt_of_old h hc ho hx,
    fun hs hx => ?_, fun he hx => ?_⟩⟩
  · rw [mmaAt_of_current h hc (not_or.2 ⟨hs, he⟩), hr]
    rfl
  · rw [mmaAt_of_current h hc (not_or.2 ⟨hs, he⟩), hr]
    rfl
  · rw [mmaAt_of_rfx h hc (.inl hs) hx, if_pos hs]
  · rw [mmaAt_of_rfx h hc (.inr he) hx, if_neg (by rw [he]; decide)]

end Sys2Proof.Machine
end

section
/-!
An MTAIL whose ring has a tail still to move waits (R303; log 75).
-/

namespace Sys2Proof.Machine
open Sys2Proof Sys2Proof.Claims

/-- While a tail of its ring has still to move, an MTAIL changes nothing (R303). -/
theorem exec_mtail_of_waits {f : Form} {s : State} {is : Iss} (h : Fires (.mtail f) s is) (hw : mtailWaits is s = true) :
    exec (.mtail f) s = .next s := by
  obtain ⟨his, hb, hn, hr⟩ := h
  show execMtail f s = _
  exact issueWhen_of_waits his hb hn hr hw

/-- An MTAIL without an IMX chain or a second operand. -/
def mtailForm : Form := { t := ⟨0, 63⟩ }

/-- A sheaf of this one MTAIL, with ring 0 on its port. -/
def mtailFlight : Flight where
  sheaf := { hdr := default, insts := [.mtail mtailForm], size := 20 }
  run := 0
  nodes := [{ l := some (.sc 0) }]

/-- The sheaf in slot 0 of core 0, where a store to the own scratchpad still holds back a tail of ring 0. -/
def mtailBehindTail : State :=
  ({} : State).setSlot 0 0 { occ := true, fl := some mtailFlight, ocnt := 1, tails := [(0, 1)] }

/-- Refutes O36: an MTAIL behind a tail of its ring that has still to move.  The statement has it fire; in the model it waits
(`mtailWaits`, R303). -/
theorem not_drainsRingsAndCounters : ¬ Obligations.DrainsRingsAndCounters := by
  intro h
  let s := mtailBehindTail
  obtain ⟨is, his⟩ : ∃ is, s.issuer (.mtail mtailForm) = some is := ⟨_, rfl⟩
  have hfires : Fires (.mtail mtailForm) s is := by
    cases his
    exact ⟨rfl, rfl, rfl, rfl⟩
  obtain ⟨-, -, -, -, hmtail, -⟩ := h mtailForm s is
  have hclaim := hmtail hfires (by cases his; decide) (by cases his; decide)
  have hmodel := exec_mtail_of_waits hfires (by cases his; rfl)
  have hdue := congrArg (fun t : State => (t.flight 0 0).map (·.due.length)) (Host.Outcome.next.inj (hmodel.symm.trans hclaim))
  cases his
  exact absurd hdue (by decide)

end Sys2Proof.Machine
end

section
/-!
COPY, the tag waits, TAGCLR and the runnel bindings (R323, R328, R332 to R334; logs 47, 48, 55 and 122).
-/

namespace Sys2Proof.Machine
open Sys2Proof Sys2Proof.Claims

/-! ### COPY at fire (R323) -/

section
variable {f : Form} {s t : State} {is : Iss}

theorem exec_copy_of_waits (h : Fires (.copy f) s is) (hw : copyWaits is s = true) : exec (.copy f) s = .next s := by
  obtain ⟨his, hb, hn, hr⟩ := h
  show execCopy f s = _
  exact issueWhen_of_waits his hb hn hr hw

/-- Outside the drover's slot a COPY neither waits nor looks at its descriptor. -/
theorem exec_copy_of_other_slot (h : Fires (.copy f) s is) (hk : is.k ≠ 7) :
    exec (.copy f) s = .next (s.trapAt is .droverOnly) := by
  obtain ⟨his, hb, hn, hr⟩ := h
  have hw : copyWaits is s = false := by simp [copyWaits, hk]
  show execCopy f s = _
  rw [execCopy, issueWhen_of_fires his hb hn hr hw]
  exact if_pos (bne_iff_ne.2 hk)

/-- In the drover's slot the descriptor's checks decide. -/
theorem exec_copy_of_drover (h : Fires (.copy f) s is) (hk : is.k = 7) (hw : copyWaits is s = false) : exec (.copy f) s =
    match s.copyCheck is.c is.ctx is.priv is.lw is.rw_ with
      | (t, .error r) => .next (t.recTrap is r)
      | (t, .ok d) => .next (t.fireDue is (.copy (is.rw_.toNat % 64) d)) := by
  obtain ⟨his, hb, hn, hr⟩ := h
  show execCopy f s = _
  rw [execCopy, issueWhen_of_fires his hb hn hr hw, field_zero, hk]
  rfl

end

/-! ### Tag waits (R328, R332, R333) -/

section
variable {f : Form} {s : State} {is : Iss} {seen : Word}

theorem acqSeen_iff : acqSeen is s seen = true ↔
    is.f.sub.getLsbD 0 = true ∧ seen &&& (s.core is.c).ctagl &&& (s.core is.c).acqTags ≠ 0 := by
  simp [acqSeen]

/-- Without an ACQ copy among what it sees, a wait fires at once and invalidates nothing. -/
theorem acqHeld_of_not_acq (ha : ¬ acqSeen is s seen = true) : acqHeld is s seen = false := by simp [acqHeld, ha]

theorem waitFire_of_not_acq (res : Word) (ha : ¬ acqSeen is s seen = true) :
    waitFire is s seen res = s.emit is (.sc res) := by rw [waitFire, if_neg ha]

/-- With one, it waits for the slot to be quiet, and invalidates the context's L1 sectors. -/
theorem acqHeld_of_quiet (seen : Word) (hq : s.quiet is.c is.k = true) : acqHeld is s seen = false := by
  rw [acqHeld, hq, Bool.not_true, Bool.and_false]

theorem waitFire_of_acq (res : Word) (ha : acqSeen is s seen = true) :
    waitFire is s seen res = (s.modCore is.c (·.l1Invalidate is.ctx)).emit is (.sc res) := by rw [waitFire, if_pos ha]

/-- A mask with a satisfied tag is not empty. -/
theorem mask_ne_zero_of_waitSat (hs : waitSat is s ≠ 0) : is.lw ≠ 0 := fun h0 => hs <| by
  rw [waitSat, h0, satisfied]
  exact BitVec.zero_and

theorem exec_waitany_of_seen (h : Fires (.waitany f) s is) (hs : waitSat is s ≠ 0) (ha : acqHeld is s (waitSat is s) = false) :
    exec (.waitany f) s = .next (waitFire is s (waitSat is s) (waitSat is s)) := by
  obtain ⟨his, hb, hn, hr⟩ := h
  have hw : waitanyWaits is s = false := by
    rw [waitanyWaits, beq_eq_false_iff_ne.2 hs, ha, Bool.or_false, Bool.and_false]
  show execWaitany f s = _
  rw [execWaitany, issueWhen_of_fires his hb hn hr hw]
  exact if_neg (by simpa using mask_ne_zero_of_waitSat hs)

theorem exec_waitany_of_no_mask (h : Fires (.waitany f) s is) (h0 : is.lw = 0) :
    exec (.waitany f) s = .next (s.trapAt is .badControlValue) := by
  obtain ⟨his, hb, hn, hr⟩ := h
  have hw : waitanyWaits is s = false := by simp [waitanyWaits, h0]
  show execWaitany f s = _
  rw [execWaitany, issueWhen_of_fires his hb hn hr hw, h0]
  rfl

theorem exec_waitany_of_unseen (h : Fires (.waitany f) s is) (h0 : is.lw ≠ 0) (hs : waitSat is s = 0) :
    exec (.waitany f) s = .next s := by
  obtain ⟨his, hb, hn, hr⟩ := h
  have hw : waitanyWaits is s = true := by
    rw [waitanyWaits, bne_iff_ne.2 h0, hs, beq_self_eq_true, Bool.true_or, Bool.true_and]
  show execWaitany f s = _
  exact issueWhen_of_waits his hb hn hr hw

theorem exec_waitall_of_seen (h : Fires (.waitall f) s is) (hs : waitSat is s = is.lw) (ha : acqHeld is s is.lw = false) :
    exec (.waitall f) s = .next (waitFire is s is.lw is.lw) := by
  obtain ⟨his, hb, hn, hr⟩ := h
  have hw : waitallWaits is s = false := by simp [waitallWaits, hs, ha]
  show execWaitall f s = _
  exact issueWhen_of_fires his hb hn hr hw

theorem exec_waitall_of_unseen (h : Fires (.waitall f) s is) (hs : waitSat is s ≠ is.lw) :
    exec (.waitall f) s = .next s := by
  obtain ⟨his, hb, hn, hr⟩ := h
  have hw : waitallWaits is s = true := by simp [waitallWaits, hs]
  show execWaitall f s = _
  exact issueWhen_of_waits his hb hn hr hw

/-- The lowest set bit of a word that has one. -/
theorem lowestBit_spec {w : Word} (hw : w ≠ 0) :
    lowestBit w < 64 ∧ w.getLsbD (lowestBit w) = true ∧ ∀ j, j < lowestBit w → w.getLsbD j = false := by
  obtain ⟨-, hle, hbelow, hset⟩ := lowestFrom_spec w 64 0
  rw [Nat.zero_add] at hle hset
  have hlt : lowestBit w < 64 := by
    refine Nat.lt_of_le_of_ne hle fun h64 => hw (BitVec.eq_of_getLsbD_eq fun j hj => ?_)
    exact (hbelow j (Nat.zero_le j) (hj.trans_eq h64.symm)).trans BitVec.getLsbD_zero.symm
  exact ⟨hlt, hset hlt, fun j hj => hbelow j (Nat.zero_le j) hj⟩

/-- An FFR of the fill plane sees no ACQ copy. -/
theorem exec_ffr_of_seen (h : Fires (.ffr f) s is) (hs : waitSat is s ≠ 0) (hp : is.f.sub.getLsbD 0 = false) :
    exec (.ffr f) s = .next (s.emit is (.sc (wd (lowestBit (waitSat is s))))) := by
  obtain ⟨his, hb, hn, hr⟩ := h
  have ha : ¬ acqSeen is s (ffrSeen is s) = true := fun h => Bool.false_ne_true (hp.symm.trans (acqSeen_iff.1 h).1)
  have hw : ffrWaits is s = false := by
    rw [ffrWaits, beq_eq_false_iff_ne.2 hs, acqHeld_of_not_acq ha, Bool.or_false, Bool.and_false]
  show execFfr f s = _
  rw [execFfr, issueWhen_of_fires his hb hn hr hw, waitFire_of_not_acq _ ha]
  exact if_neg (by simpa using mask_ne_zero_of_waitSat hs)

theorem exec_tagclr (h : Fires (.tagclr f) s is) :
    exec (.tagclr f) s = .next (s.emitDue is (.sc (is.lw &&& (s.core is.c).busy)) (.tagclr is.lw)) := by
  show execTagclr f s = _
  rw [execTagclr, issue_body_of_fires h]

end

/-! ### Runnel bindings (R334) -/

/-- The port that an RNBIND or RNUNBIND names has no binding, and the sheaf makes none. -/
abbrev Iss.portFree (is : Iss) : Prop := is.th.ports.get? is.portNo = none ∧ is.fl.binds is.portNo = false

theorem Iss.portFree_iff (is : Iss) :
    ((is.th.ports.get? is.portNo).isSome || is.fl.binds is.portNo) = true ↔ ¬ is.portFree := by
  rw [Iss.portFree, Bool.or_eq_true, Option.isSome_iff_ne_none, not_and_or, Bool.not_eq_false]

section
variable {f : Form} {s t : State} {is : Iss}

theorem exec_rnbind_of_waits (h : Fires (.rnbind f) s is) (hw : rnbindWaits is s = true) : exec (.rnbind f) s = .next s := by
  obtain ⟨his, hb, hn, hr⟩ := h
  show execRnbind f s = _
  exact issueWhen_of_waits his hb hn hr hw

theorem exec_rnbind_of_busy (h : Fires (.rnbind f) s is) (hw : rnbindWaits is s = false) (hp : ¬ is.portFree) :
    exec (.rnbind f) s = .next (s.trapAt is .runnelBusy) := by
  obtain ⟨his, hb, hn, hr⟩ := h
  show execRnbind f s = _
  rw [execRnbind, issueWhen_of_fires his hb hn hr hw]
  exact if_pos (is.portFree_iff.2 hp)

section
variable (h : Fires (.rnbind f) s is) (hp : is.portFree)
include h hp

/-- A fill or drain takes the pattern record that it reads. -/
theorem exec_rnbind_of_pattern {pat : List Word} (hm : is.f.sub.toNat ≤ 1) (hw : rnbindWaits is s = false)
    (hr : s.readWords is.xer is.agent is.ctx is.priv is.lw.toNat 8 = (t, .ok pat)) : exec (.rnbind f) s =
      if (!(patValid is.lw.toNat pat)) = true then .next (t.trapAt is .badDescriptor)
      else if (!(canonical (some (patRange pat)))) = true then .next (t.trapAt is .nonCanonicalAddress)
      else .next (t.fireDue is (.rnbind is.portNo is.f.sub.toNat is.lw 0 pat is.priv)) := by
  obtain ⟨his, hb, hn, hreg⟩ := h
  show execRnbind f s = _
  rw [execRnbind, issueWhen_of_fires his hb hn hreg hw]
  dsimp only
  rw [if_neg (is.portFree_iff.not_left.2 hp), if_pos hm, hr]

/-- A neighbour port takes a stile of kind 0 and a link below 64. -/
theorem exec_rnbind_of_neighbour (hm : is.f.sub.toNat = 2) : exec (.rnbind f) s =
    if is.lw.toNat < 64 ∧ stileOk ((s.core is.c).stile.get is.lw.toNat 0) [0] 59 = true then
      (if 64 ≤ is.xw.toNat then .next (s.trapAt is .badControlValue)
       else .next (s.fireDue is (.rnbind is.portNo 2 ((s.core is.c).stile.get is.lw.toNat 0) is.xw [is.lw] is.priv)))
    else .next (s.trapAt is .stileFault) := by
  obtain ⟨his, hb, hn, hreg⟩ := h
  have hw : rnbindWaits is s = false := by simp [rnbindWaits, hm]
  show execRnbind f s = _
  rw [execRnbind, issueWhen_of_fires his hb hn hreg hw]
  dsimp only
  rw [if_neg (is.portFree_iff.not_left.2 hp), hm, if_neg (by decide), if_pos (by decide)]
  by_cases hok : is.lw.toNat < 64 ∧ stileOk ((s.core is.c).stile.get is.lw.toNat 0) [0] 59 = true
  · rw [if_pos hok, if_neg (by simpa using hok)]
  · rw [if_neg hok, if_pos (by simpa [not_and_or, -not_and] using hok)]

/-- A ring port takes an enabled ring. -/
theorem exec_rnbind_of_ring (hm : is.f.sub.toNat = 3) (hl : is.lw.toNat < 4) (he : ((s.core is.c).ring is.lw.toNat).en = true) :
    exec (.rnbind f) s = .next (s.fireDue is (.rnbind is.portNo 3 is.lw 0 [] is.priv)) := by
  obtain ⟨his, hb, hn, hreg⟩ := h
  have hw : rnbindWaits is s = false := by simp [rnbindWaits, hm]
  rw [Core.ring] at he
  show execRnbind f s = _
  rw [execRnbind, issueWhen_of_fires his hb hn hreg hw]
  dsimp only
  rw [if_neg (is.portFree_iff.not_left.2 hp), hm]
  simp [Nat.not_le.2 hl, he]

end

theorem exec_rnunbind_of_unbound (h : Fires (.rnunbind f) s is) (hp : is.th.port? is.portNo = none) :
    exec (.rnunbind f) s = .next (s.trapAt is .runnelUnbound) := by
  obtain ⟨his, hb, hn, hr⟩ := h
  have hw : rnunbindWaits is s = false := by rw [rnunbindWaits, hp]
  show execRnunbind f s = _
  rw [execRnunbind, issueWhen_of_fires his hb hn hr hw, hp]

/-- A port whose work is settled is unbound. -/
theorem exec_rnunbind_of_settled {x : Port} (h : Fires (.rnunbind f) s is) (hp : is.th.port? is.portNo = some x)
    (hd : x.mode = .drain → x.buf = []) (hu : x.mode = .nbr → x.unack = 0) :
    exec (.rnunbind f) s = .next (s.fireDue is (.rnunbind is.portNo)) := by
  obtain ⟨his, hb, hn, hr⟩ := h
  have hw : rnunbindWaits is s = false := by
    rw [rnunbindWaits, hp]
    dsimp only
    split
    · simp [hd ‹_›]
    · simp [hu ‹_›]
    · rfl
  show execRnunbind f s = _
  rw [execRnunbind, issueWhen_of_fires his hb hn hr hw, hp]

end

/-- Settles O38: COPY by its slot and its check, the tag waits by the tags that their masks see, the bindings by the mode of
the port. -/
theorem copiesTagsAndRunnels : Obligations.CopiesTagsAndRunnels := by
  refine ⟨fun f s is => ⟨exec_copy_of_other_slot, fun h _ => exec_copy_of_waits h, fun h hk hw t d hc => ?_, fun h hk hw t r hc => ?_,
    fun h => ?any, fun h => ?anyAcq, exec_waitany_of_no_mask, fun h => ?anyUnseen, fun h => ?all, fun h => ?allAcq,
    fun h => ?allUnseen, fun h => ?ffr, exec_tagclr⟩,
    fun f s is => ⟨fun h hp hw => exec_rnbind_of_busy h hw hp, exec_rnbind_of_waits, fun h => ?pattern, fun h => ?neighbour,
      fun h => ?ring, exec_rnunbind_of_unbound, fun h x hp hd hu => exec_rnunbind_of_settled h hp hd hu⟩⟩
  · rw [exec_copy_of_drover h hk hw, hc]
  · rw [exec_copy_of_drover h hk hw, hc]
  all_goals obtain rfl := form_of_fires h rfl
  case any =>
    intro hs ha
    have ha := mt acqSeen_iff.1 ha
    exact (exec_waitany_of_seen h hs (acqHeld_of_not_acq ha)).trans (congrArg _ (waitFire_of_not_acq _ ha))
  case anyAcq =>
    intro hs ha hq
    exact (exec_waitany_of_seen h hs (acqHeld_of_quiet _ hq)).trans (congrArg _ (waitFire_of_acq _ (acqSeen_iff.2 ha)))
  case anyUnseen => exact exec_waitany_of_unseen h
  case all =>
    intro hs ha
    have ha := mt acqSeen_iff.1 ha
    rw [exec_waitall_of_seen h hs (acqHeld_of_not_acq ha), waitFire_of_not_acq _ ha]
  case allAcq =>
    intro hs ha hq
    rw [exec_waitall_of_seen h hs (acqHeld_of_quiet _ hq), waitFire_of_acq _ (acqSeen_iff.2 ha)]
  case allUnseen => exact exec_waitall_of_unseen h
  case ffr =>
    intro hs hp
    obtain ⟨hlt, hset, hbelow⟩ := lowestBit_spec hs
    exact ⟨_, hlt, hset, hbelow, exec_ffr_of_seen h hs hp⟩
  case pattern =>
    intro hp hm hw t pat hr
    refine ⟨fun hv => ?_, fun hv hc => ?_⟩
    · rw [exec_rnbind_of_pattern h hp hm hw hr, hv]
      rfl
    · rw [exec_rnbind_of_pattern h hp hm hw hr, hv, hc]
      rfl
  case neighbour =>
    intro hp hm
    refine ⟨fun hok hx => ?_, fun hbad => ?_⟩
    · rw [exec_rnbind_of_neighbour h hp hm, if_pos hok, if_neg (Nat.not_le.2 hx)]
    · have hbad : ¬ (is.lw.toNat < 64 ∧ stileOk ((s.core is.c).stile.get is.lw.toNat 0) [0] 59 = true) := by
        rwa [not_and_or, Nat.not_lt, Bool.not_eq_true]
      rw [exec_rnbind_of_neighbour h hp hm, if_neg hbad]
  case ring => exact exec_rnbind_of_ring h

end Sys2Proof.Machine
end

section
/-!
Flocks, channels and SETRND (R360 to R365; logs 65 and 66).
-/

namespace Sys2Proof.Machine
open Sys2Proof Sys2Proof.Claims

/-- A flock id is legal from 1 to 255. -/
theorem flockOk_iff (w : Word) : flockOk w = true ↔ 1 ≤ w.toNat ∧ w.toNat ≤ 255 := by
  have hzero : (w != 0) = true ↔ w.toNat ≠ 0 := (bne_iff_ne (b := 0#64)).trans (not_congr BitVec.toNat_inj.symm)
  rw [flockOk, Bool.and_eq_true, hzero, decide_eq_true_iff]
  omega

/-- A field is zero where its bits are. -/
theorem field_ne_zero_iff (w : Word) (lo len : Nat) : (field w lo len != 0) = true ↔ w.extractLsb' lo len ≠ 0 := by
  rw [field_eq_extractLsb', bne_iff_ne]
  exact not_congr (BitVec.toNat_inj (y := 0#len))

theorem tchanBad_iff (e : Word) : tchanBad e = true ↔ ¬ (e.extractLsb' 17 41 = 0 ∧ e.extractLsb' 0 4 = 0) := by
  rw [tchanBad, Bool.or_eq_true, field_ne_zero_iff, field_ne_zero_iff, Decidable.not_and_iff_not_or_not]

section
variable {i : Instr} {f : Form} {s : State} {is : Iss}

/-- FJOIN and FLEAVE: the id decides. -/
theorem flockAt_of_fires (h : Fires i s is) (act : Nat → Act) :
    flockAt i s act = .next (if flockOk is.lw then s.fireDue is (act is.lw.toNat) else s.trapAt is .badControlValue) := by
  rw [flockAt, issue_body_of_fires h]
  exact (apply_ite Host.Outcome.next ..).symm

theorem exec_fbar_of_fires (h : Fires (.fbar f) s is) : exec (.fbar f) s =
    .next (if is.lw.toNat ∈ flocksOf is.th.memb then s.fireDue is (.fbar is.lw.toNat) else s.trapAt is .flockMember) := by
  show execFbar f s = _
  rw [execFbar, issue_body_of_fires h, apply_ite Host.Outcome.next]
  simp only [List.contains_iff_mem]

/-- TBLK and TUBL: the channel that the operand names, or why it names none. -/
theorem blockAt_of_target {blk : Bool} (h : Fires i s is) {c ch : Nat} {own : Bool} (ht : chanTarget is s = .ok (c, ch, own)) :
    blockAt i s blk = .next (s.fireDue is (.chan c ch own blk)) := by
  rw [blockAt, issue_body_of_fires h, ht]

theorem blockAt_of_no_target {blk : Bool} (h : Fires i s is) {c : Cause} (ht : chanTarget is s = .error c) :
    blockAt i s blk = .next (s.trapAt is c) := by
  rw [blockAt, issue_body_of_fires h, ht]

theorem exec_tset_of_bad (h : Fires (.tset f) s is) (hb : 64 ≤ is.lw.toNat ∨ tchanBad is.rw_ = true) :
    exec (.tset f) s = .next (s.trapAt is .badControlValue) := by
  show execTset f s = _
  rw [execTset, issue_body_of_fires h]
  exact if_pos (by simpa using hb)

theorem exec_tset_of_ok (h : Fires (.tset f) s is) (hch : is.lw.toNat < 64) (he : ¬ tchanBad is.rw_ = true) :
    exec (.tset f) s = .next (s.fireDue is (.tset is.lw.toNat is.rw_)) := by
  show execTset f s = _
  rw [execTset, issue_body_of_fires h]
  exact if_neg (by simpa using ⟨hch, Bool.eq_false_iff.2 he⟩)

theorem exec_setrnd_of_bad (h : Fires (.setrnd f) s is) (hm : 7 ≤ is.lw.toNat) :
    exec (.setrnd f) s = .next (s.trapAt is .badControlValue) := by
  show execSetrnd f s = _
  rw [execSetrnd, issue_body_of_fires h]
  exact if_pos hm

/-- The first SETRND of a sheaf: the rounding state is written at commit. -/
theorem exec_setrnd_of_first (h : Fires (.setrnd f) s is) (hm : is.lw.toNat < 7) (hfirst : ∀ e ∈ is.fl.regw, e.1 ≠ Reg.rnd) :
    exec (.setrnd f) s = .next ((s.modFlight is.c is.k fun fl => { fl with
      regw := fl.regw ++ [(.rnd, .null)],
      rndMode := some (is.lw.extractLsb' 0 3, if is.fed 1 then some (is.rw_.extractLsb' 0 32) else none) }).fire is) := by
  have hnone : ¬ (is.fl.regw.any fun e => e.1 == .rnd) = true := by simpa using fun b hb => hfirst (.rnd, b) hb rfl
  show execSetrnd f s = _
  rw [execSetrnd, issue_body_of_fires h]
  exact (if_neg (Nat.not_le.2 hm)).trans (if_neg hnone)

end

/-- Settles O41: each instruction by the check of its operands. -/
theorem flocksChannelsRounding : Obligations.FlocksChannelsRounding := by
  refine fun f s is => ⟨fun i act hi h => ?flock, fun h hf => ?_, fun h hf => ?_, fun i blk hi h => ?chan, fun h hch h1 h2 => ?_,
    fun h hch => exec_tset_of_bad h (.inl hch), exec_setrnd_of_bad, exec_setrnd_of_first⟩
  case flock =>
    have hexec : exec i s = flockAt i s act := by obtain ⟨rfl, rfl⟩ | ⟨rfl, rfl⟩ := hi <;> rfl
    rw [hexec, flockAt_of_fires h]
    refine ⟨fun h1 h2 => ?_, fun hbad => ?_⟩
    · rw [if_pos ((flockOk_iff _).2 ⟨h1, h2⟩)]
    · rw [if_neg (mt (flockOk_iff _).1 (by omega))]
  case chan =>
    have hexec : exec i s = blockAt i s blk := by obtain ⟨rfl, rfl⟩ | ⟨rfl, rfl⟩ := hi <;> rfl
    rw [hexec]
    exact ⟨fun c ch own => blockAt_of_target h, fun c => blockAt_of_no_target h⟩
  · rw [exec_fbar_of_fires h, if_pos hf]
  · rw [exec_fbar_of_fires h, if_neg hf]
  · exact exec_tset_of_ok h hch fun hb => (tchanBad_iff _).1 hb ⟨h1, h2⟩

end Sys2Proof.Machine
end

section
/-!
CTLGET and CTLSET (R369, R374; logs 80 and 81).
-/

namespace Sys2Proof.Machine
open Sys2Proof Sys2Proof.Claims

/-- The bits of a word from one of them up are set where the word reaches it. -/
theorem field_high_ne_zero_iff (w : Word) {lo len : Nat} (hw : lo + len = 64) : (field w lo len != 0) = true ↔ 2 ^ lo ≤ w.toNat := by
  have hlt : w.toNat / 2 ^ lo < 2 ^ len := Nat.div_lt_of_lt_mul (by rw [← Nat.pow_add, hw]; exact w.isLt)
  rw [bne_iff_ne, field, nbits, Nat.mod_eq_of_lt hlt, ne_eq, Nat.div_eq_zero_iff, not_or, Nat.not_lt]
  exact ⟨And.right, fun hle => ⟨(Nat.two_pow_pos lo).ne', hle⟩⟩

/-- A selector that names a register within its indexes, with its reserved bits clear. -/
def selOk (w : Word) : Prop := w.toNat < 2 ^ 16 ∧ selIdx w < ctlIndexes (selReg w)

theorem selIdx_eq (w : Word) : selIdx w = w.toNat % 2 ^ 8 := field_zero w 8

/-- The selectors that CTLGET and CTLSET refuse. -/
theorem selBad_iff (w : Word) : field w 16 48 != 0 ∨ ctlIndexes (selReg w) ≤ selIdx w ↔ ¬ selOk w := by
  rw [field_high_ne_zero_iff w (by rfl), selOk, Decidable.not_and_iff_not_or_not, Nat.not_lt, Nat.not_lt]

/-- A sheaf that is privileged where it must be is not barred. -/
theorem not_barred {needs priv : Bool} (h : needs = false ∨ priv = true) : ¬ (needs = true ∧ priv = false) := by
  rintro ⟨rfl, rfl⟩
  obtain h | h := h <;> cases h

section
variable {f : Form} {s : State} {is : Iss}

theorem exec_ctlget_of_unread (h : Fires (.ctlget f) s is)
    (hv : s.ctlValue is.c is.k (selReg is.lw) (selIdx is.lw) = none ∨ ¬ selOk is.lw) :
    exec (.ctlget f) s = .next (s.trapAt is .badControlValue) := by
  show execCtlget f s = _
  rw [execCtlget, issue_body_of_fires h]
  obtain hv | hv := hv
  · dsimp only
    rw [hv]
  · dsimp only
    split
    · rfl
    · refine if_pos ?_
      rwa [Bool.or_eq_true, decide_eq_true_iff, selBad_iff]

/-- A register that has a value is read by a sheaf that may. -/
theorem exec_ctlget_of_value (h : Fires (.ctlget f) s is) {v : Word}
    (hv : s.ctlValue is.c is.k (selReg is.lw) (selIdx is.lw) = some v) (hok : selOk is.lw) : exec (.ctlget f) s =
      .next (if ctlReadPriv (selReg is.lw) = true ∧ is.priv = false then s.trapAt is .privilege
        else (if selReg is.lw = 1 ∧ selIdx is.lw = 0 then s.modFlight is.c is.k fun fl => { fl with tcause := true } else s).emit is (.sc v)) := by
  have hshape : ¬ (field is.lw 16 48 != 0 || decide (ctlIndexes (selReg is.lw) ≤ selIdx is.lw)) = true := by
    rwa [Bool.or_eq_true, decide_eq_true_iff, selBad_iff, not_not]
  show execCtlget f s = _
  rw [execCtlget, issue_body_of_fires h]
  dsimp only
  rw [hv]
  dsimp only
  rw [if_neg hshape, apply_ite Host.Outcome.next]
  simp only [Bool.and_eq_true, Bool.not_eq_true', beq_iff_eq]

/-- A selector that CTLSET refuses. -/
theorem exec_ctlset_of_unknown (h : Fires (.ctlset f) s is) (hbad : ¬ selOk is.lw ∨ ctlKnown (selReg is.lw) = false) :
    exec (.ctlset f) s = .next (s.trapAt is .badControlValue) := by
  show execCtlset f s = _
  rw [execCtlset, issue_body_of_fires h]
  refine if_pos ?_
  rwa [Bool.or_eq_true, Bool.or_eq_true, decide_eq_true_iff, or_right_comm, selBad_iff, Bool.not_eq_true']

/-- A register of the table is written by a sheaf that may, with a value that it takes. -/
theorem exec_ctlset_of_known (h : Fires (.ctlset f) s is) (hok : selOk is.lw) (hk : ctlKnown (selReg is.lw) = true) :
    exec (.ctlset f) s =
      .next (if ctlWritable (selReg is.lw) = false ∨ (ctlWritePriv (selReg is.lw) = true ∧ is.priv = false) then s.trapAt is .privilege
        else match s.ctlBad (selReg is.lw) is.rw_ with
          | some c => s.trapAt is c
          | none => s.fireDue is (.ctlset (selReg is.lw) (selIdx is.lw) is.rw_)) := by
  have hshape : ¬ (field is.lw 16 48 != 0 || !(ctlKnown (selReg is.lw)) || decide (ctlIndexes (selReg is.lw) ≤ selIdx is.lw)) = true := by
    rw [Bool.or_eq_true, Bool.or_eq_true, decide_eq_true_iff, or_right_comm, selBad_iff, hk]
    exact not_or.2 ⟨not_not.2 hok, Bool.false_ne_true⟩
  show execCtlset f s = _
  rw [execCtlset, issue_body_of_fires h]
  dsimp only
  rw [if_neg hshape, apply_ite Host.Outcome.next]
  simp only [Bool.or_eq_true, Bool.and_eq_true, Bool.not_eq_true']
  split
  · rfl
  · cases s.ctlBad (selReg is.lw) is.rw_ <;> rfl

end

/-- Settles O42: a register is read or written where the selector, the privilege and the value pass, in this order. -/
theorem controlRegisters : Obligations.ControlRegisters := by
  intro f s is reg i shape
  have hreg : reg = selReg is.lw := rfl
  have hi : i = selIdx is.lw := (selIdx_eq is.lw).symm
  have hshape : shape ↔ selOk is.lw := by rw [selOk, ← hi]; rfl
  clear_value shape i reg
  subst hi hreg
  rw [hshape]
  refine ⟨exec_ctlget_of_unread, fun h v hv hok => ⟨fun hp hn => ?_, fun hp hr => ?_, fun hp hr => ?_⟩, exec_ctlset_of_unknown,
    fun h hok hk hp => ?_, fun h hok hk hw hp => ⟨fun c hc => ?_, fun hc => ?_⟩⟩
  · exact (exec_ctlget_of_value h hv hok).trans (congrArg _ (if_pos ⟨hp, hn⟩))
  · refine (exec_ctlget_of_value h hv hok).trans (congrArg _ ((if_neg (not_barred hp)).trans ?_))
    rw [if_neg hr]
  · refine (exec_ctlget_of_value h hv hok).trans (congrArg _ ((if_neg (not_barred hp)).trans ?_))
    rw [if_pos hr]
  · exact (exec_ctlset_of_known h hok hk).trans (congrArg _ (if_pos hp))
  · refine (exec_ctlset_of_known h hok hk).trans (congrArg _ ((if_neg (not_or.2 ⟨ne_false_of_eq_true hw, not_barred hp⟩)).trans ?_))
    rw [hc]
  · refine (exec_ctlset_of_known h hok hk).trans (congrArg _ ((if_neg (not_or.2 ⟨ne_false_of_eq_true hw, not_barred hp⟩)).trans ?_))
    rw [hc]

end Sys2Proof.Machine
end

section
/-!
PREEMPT, SAVEC and LOADC (R376, R421, R422; logs 15, 83 and 84).
-/

namespace Sys2Proof.Machine
open Sys2Proof Sys2Proof.Claims

section
variable {f : Form} {s : State} {is : Iss}

theorem exec_preempt_of_fires (h : Fires (.preempt f) s is) : exec (.preempt f) s =
    .next (if 2 ^ 20 ≤ is.lw.toNat ∨ preAct is.lw = 3 then s.trapAt is .badControlValue else s.fireDue is (.preempt is.lw)) := by
  show execPreempt f s = _
  rw [execPreempt, issue_body_of_fires h, apply_ite Host.Outcome.next]
  simp only [Bool.or_eq_true, field_high_ne_zero_iff is.lw (lo := 20) (len := 44) rfl, beq_iff_eq]

/-- A SAVEC of a misaligned address or with reserved bits set. -/
theorem exec_savec_of_bad (h : Fires (.savec f) s is) (hbad : is.lw.toNat % 64 ≠ 0 ∨ 2 ^ 18 ≤ is.rw_.toNat) :
    exec (.savec f) s = .next (s.trapAt is .badControlValue) := by
  show execSavec f s = _
  rw [execSavec, issue_body_of_fires h]
  refine if_pos ?_
  rw [Bool.or_eq_true, Bool.or_eq_true, field_high_ne_zero_iff is.rw_ (by rfl), bne_iff_ne]
  exact .inl hbad

section
variable {e : CacheEnt} (h : Fires (.savec f) s is) (ha : is.lw.toNat % 64 = 0) (hctl : is.rw_.toNat < 2 ^ 18)
  (hwin : windowOk is.rw_ is.xw = true) (he : s.savEntry is.ctx is.rw_ = some e)
  (hstop : (s.ctx is.ctx).saveStops (savNew is.rw_) = false)
include h ha hctl hwin he hstop

/-- A SAVEC of an entry that may be saved goes on to the checks of what it holds. -/
theorem exec_savec_of_entry : exec (.savec f) s =
    if e.th.bad ≠ [] ∨ s.windowLost (savCore is.rw_) (savWindow is.rw_ is.xw) = true then
      .next (s.trapAt is .uncorrectableData)
    else
      let v := s.fixWindow (savCore is.rw_) (savWindow is.rw_ is.xw)
      let recs := v.records (savCore is.rw_) (savEnt is.rw_) e (savWindow is.rw_ is.xw) (savRick is.rw_)
      let n := 64 + recs.length + 16
      match v.checkBytes is.xer is.ctx is.priv is.lw.toNat n false true with
      | (t, .error x) => .next (t.accessTrap is x (coverWord is.lw.toNat n))
      | (t, .ok ps) => .next (t.emitDue is (.sc (wd n)) (.savec is.lw.toNat is.rw_ is.xw e.kind recs
          (storePieces is.lw.toNat (List.replicate n (some 0)) (joinParts ps)))) := by
  have hok : ¬ (is.lw.toNat % 64 != 0 || field is.rw_ 18 46 != 0 || !(windowOk is.rw_ is.xw)) = true := by
    rw [Bool.or_eq_true, Bool.or_eq_true, field_high_ne_zero_iff is.rw_ (by rfl), bne_iff_ne, hwin]
    simpa [ha] using hctl
  show execSavec f s = _
  rw [execSavec, issue_body_of_fires h]
  dsimp only
  rw [if_neg hok, he]
  dsimp only
  rw [hstop]
  simp only [Bool.false_eq_true, if_false, Bool.or_eq_true, Bool.not_eq_true', List.isEmpty_eq_false_iff] <;> rfl

end

/-- A LOADC of a misaligned address, with reserved bits set, or into a core of another context. -/
theorem exec_loadc_of_bad (h : Fires (.loadc f) s is)
    (hbad : 2 ^ 17 ≤ is.rw_.toNat ∨ is.lw.toNat % 64 ≠ 0 ∨ s.hosts (lodCore is.rw_) is.ctx = false) :
    exec (.loadc f) s = .next (s.trapAt is .badControlValue) := by
  show execLoadc f s = _
  rw [execLoadc, issue_body_of_fires h]
  refine if_pos ?_
  rwa [Bool.or_eq_true, Bool.or_eq_true, field_high_ne_zero_iff is.rw_ (by rfl), bne_iff_ne, Bool.not_eq_true', or_assoc]

/-- A LOADC that has read its image delivers what the check of it finds, and claims the index of one that may be installed. -/
theorem exec_loadc_of_image (h : Fires (.loadc f) s is) (hctl : is.rw_.toNat < 2 ^ 17) (ha : is.lw.toNat % 64 = 0)
    (hh : s.hosts (lodCore is.rw_) is.ctx = true) {t : State} {image recs : List Byte} {st kind index : Nat}
    (hr : s.readImage is is.lw.toNat = (t, .ok image)) (hc : t.loadcCheck is is.rw_ image = (st, kind, index, recs)) :
    exec (.loadc f) s = .next (if st = 0 then
      (t.modCtx is.ctx fun x => { x with claims := x.claims ++ [(index, is.c, is.k)] }).emitDue is (.sc 0)
        (.loadc is.rw_ index kind (t.ctx is.ctx).savecnt recs)
      else t.emit is (.sc (wd st))) := by
  have hok : ¬ (field is.rw_ 17 47 != 0 || is.lw.toNat % 64 != 0 || !(s.hosts (lodCore is.rw_) is.ctx)) = true := by
    rw [Bool.or_eq_true, Bool.or_eq_true, field_high_ne_zero_iff is.rw_ (by rfl), bne_iff_ne, hh]
    simpa [ha] using hctl
  show execLoadc f s = _
  rw [execLoadc, issue_body_of_fires h]
  dsimp only
  rw [if_neg hok, hr]
  dsimp only
  rw [hc]
  dsimp only
  rw [State.modCtx, State.ctx_setCtx_self]
  by_cases hst : st = 0
  · rw [if_pos hst, if_neg (by simpa using hst)]
  · rw [if_neg hst, if_pos (by simpa using hst)]

end

/-- Settles O43: PREEMPT by its selector, SAVEC by what the named entry holds, LOADC by what it finds in the image. -/
theorem preemptionAndImages : Obligations.PreemptionAndImages := by
  refine fun f s is => ⟨fun h hl ha => ?_, fun h hbad => ?_, fun h ha hctl hwin e t ps he hstop => ?savec,
    exec_savec_of_bad, fun h hctl ha hh t image st kind index recs hr hc => ⟨fun hst => ?_, fun hst => ?_⟩, exec_loadc_of_bad⟩
  · rw [exec_preempt_of_fires h, if_neg (not_or.2 ⟨Nat.not_le.2 hl, ha⟩)]
  · rw [exec_preempt_of_fires h, if_pos hbad]
  case savec =>
    have hexec := exec_savec_of_entry h ha hctl hwin he hstop
    intro lost
    refine ⟨fun hl => hexec.trans (if_pos hl), fun hb hl hck => ?_⟩
    refine hexec.trans ((if_neg (not_or.2 ⟨not_not.2 hb, Bool.eq_false_iff.1 hl⟩)).trans ?_)
    dsimp only
    rw [hck] <;> rfl
  · exact (exec_loadc_of_image h hctl ha hh hr hc).trans (congrArg _ (if_neg hst))
  · exact (exec_loadc_of_image h hctl ha hh hr hc).trans (congrArg _ (if_pos hst))

end Sys2Proof.Machine
end

section
/-!
What a step of the whole device keeps, and what it finds: alarms, monitors, bring-up and resets (R396, R436 to R440; logs 107
and 108).
-/

namespace Sys2Proof.Machine
open Sys2Proof Sys2Proof.Claims

/-! ### Shared facts -/

/-- What every step of a fold keeps, the fold keeps. -/
theorem foldl_keeps {α β : Type} (g : State → β) {f : State → α → State} (h : ∀ s x, g (f s x) = g s) (l : List α) (s : State) :
    g (l.foldl f s) = g s := by
  induction l generalizing s with
  | nil => rfl
  | cons x l ih => rw [List.foldl_cons, ih, h]

/-- A draw of free words takes only these. -/
theorem State.draw_snd (s : State) (n : Nat) : (s.draw n).2 = { s with fresh := s.fresh + n } := by
  induction n generalizing s with
  | zero => rfl
  | succ n ih =>
    show ((State.free s).2.draw n).2 = _
    rw [ih, State.free]
    dsimp only
    rw [Nat.add_assoc, Nat.add_comm 1 n]

/-- A map of the values reads at each key what it makes of the value there. -/
theorem SMap.get?_map {α β : Type} (m : SMap α) (g : α → β) (a : Nat) :
    SMap.get? (m.map fun (i, x) => (i, g x)) a = (m.get? a).map g := by
  induction m with
  | nil => rfl
  | cons p m ih =>
    obtain ⟨k, v⟩ := p
    simp only [List.map_cons, SMap.get?, ih]
    split
    · rfl
    · split <;> rfl

theorem SMap.get_map {α β : Type} (m : SMap α) (g : α → β) (a : Nat) (d : α) :
    SMap.get (m.map fun (i, x) => (i, g x)) a (g d) = g (m.get a d) := by
  rw [SMap.get, SMap.get?_map, Option.getD_map, SMap.get]

/-! ### HEALTH and the monitors -/

theorem alarmBits_eq : alarmBits = 0xD8 := rfl

/-- HEALTH's alarm bits, but those raised in this clock, are cleared. -/
theorem State.clearAlarms_of_old {s : State} (h : s.alarms.1 ≠ s.clock) (v : Word) :
    s.clearAlarms v = { s with health := s.health &&& ~~~(v &&& 0xD8) } := by
  have hall : ~~~(0 : Word) = BitVec.allOnes 64 := rfl
  rw [State.clearAlarms, if_neg (by simpa using h), alarmBits_eq, hall, BitVec.and_allOnes]

theorem State.clearAlarms_of_now {s : State} (h : s.alarms.1 = s.clock) (v : Word) :
    s.clearAlarms v = { s with health := s.health &&& ~~~(v &&& 0xD8 &&& ~~~s.alarms.2) } := by
  rw [State.clearAlarms, if_pos (by simpa using h), alarmBits_eq]

/-- MONCFG's limits, as numbers. -/
theorem moncfgOk_iff (v : Word) : moncfgOk v = true ↔ v.toNat < 2 ^ 24 ∧ v.toNat % 16 = 0 ∧ v.toNat / 2 ^ 16 ≤ 110 ∧
    v.toNat / 2 ^ 8 % 2 ^ 8 < v.toNat / 2 ^ 16 ∧ 1 ≤ v.toNat / 16 % 16 ∧ v.toNat / 16 % 16 ≤ 8 := by
  have hv := v.isLt
  simp only [moncfgOk, Bool.and_eq_true, decide_eq_true_eq, beq_iff_eq]
  simp only [field, nbits]
  omega

theorem exec_moncfgWrite {s : State} {d : Nat} {v : Word} (h : s.event = some (.moncfgWrite d v)) :
    exec .moncfgWrite s = .next (if moncfgOk v then s.taken.modDie d fun x => { x with moncfg := v } else s.taken) := by
  show execMoncfgWrite s = _
  rw [execMoncfgWrite, h]

/-- The state after the readings of a die have been taken. -/
abbrev State.sensedAt (u : State) (d : Nat) (y : Sense) : State := u.modDie d fun x => x.sensed y

theorem State.tthr_sensedAt (u : State) (d : Nat) (y : Sense) :
    ((u.sensedAt d y).die d).tthr = (u.die d).moncfg.toNat / 2 ^ 8 % 2 ^ 8 := by
  rw [State.sensedAt, State.modDie, State.die_setDie_self]
  rfl

/-- A die at or above its threshold throttles. -/
theorem State.throttle_sensedAt {u : State} {d : Nat} {y : Sense} (h : (u.die d).moncfg.toNat / 2 ^ 8 % 2 ^ 8 ≤ y.temp) :
    (u.sensedAt d y).throttle d y.temp = (((u.sensedAt d y).modDie d fun x => { x with thr := true }).alarm 4).thrBit := by
  rw [State.throttle, State.tthr_sensedAt, if_pos h]

/-- Neither the alarm nor the throttling touches its configuration. -/
theorem State.ttrip_throttled (u : State) (d : Nat) (y : Sense) :
    (((((u.sensedAt d y).modDie d fun x => { x with thr := true }).alarm 4).thrBit).die d).ttrip =
      (u.die d).moncfg.toNat / 2 ^ 16 % 2 ^ 8 := by
  show (State.die (State.modDie (u.sensedAt d y) d fun x => { x with thr := true }) d).ttrip = _
  rw [State.modDie, State.die_setDie_self, State.sensedAt, State.modDie, State.die_setDie_self]
  rfl

/-! ### Bring-up -/

/-- A device that has come up with the firmware `v`, and nothing at its copses. -/
structure State.Started (s : State) (v : BitVec 32) : Prop where
  up : s.up = true
  ready : s.health.getLsbD 2 = true
  fwver : s.fwver = v
  copses : s.copses = []

theorem State.Started.setRpl {s : State} {v : BitVec 32} (h : s.Started v) : s.setRpl.Started v := by
  rw [State.setRpl]
  split
  · exact ⟨h.up, by rw [BitVec.getLsbD_or, h.ready, Bool.true_or], h.fwver, h.copses⟩
  · exact h

theorem State.Started.newAttKey {s : State} {v : BitVec 32} (h : s.Started v) : s.newAttKey.Started v := by
  rw [State.newAttKey]
  split
  · exact ⟨h.up, h.ready, h.fwver, h.copses⟩
  · dsimp only
    rw [State.draw_snd]
    exact State.Started.setRpl ⟨h.up, h.ready, h.fwver, h.copses⟩

/-- Bit 2 of HEALTH is READY. -/
theorem getLsbD_or_ready (h : Word) (deg : Bool) : (h ||| wd (4 + bit1 deg * 2)).getLsbD 2 = true := by
  rw [BitVec.getLsbD_or, Bool.or_eq_true]
  right
  cases deg <;> rfl

/-- The last step of bring-up. -/
theorem State.started_ready (s : State) (live spare : BitVec 16) (hc : s.copses = []) :
    (s.ready live spare).Started (Config.firmwareVersion s.image) := by
  rw [State.ready]
  dsimp only
  rw [State.draw_snd]
  exact State.Started.setRpl (State.Started.newAttKey ⟨rfl, getLsbD_or_ready _ _, rfl, hc⟩)

theorem State.train_image (s : State) (live : BitVec 16) (gws : List Nat) : (s.train live gws).image = s.image := by
  rw [State.train]
  refine (foldl_keeps State.image ?gateways _ _).trans (foldl_keeps State.image ?compute _ _)
  case gateways => exact fun _ _ => rfl
  case compute => exact fun _ _ => rfl

theorem State.tables_image (s : State) (live spare : BitVec 16) : (s.tables live spare).image = s.image := by
  rw [State.tables]
  refine foldl_keeps State.image ?_ _ _
  exact fun _ _ => rfl

/-- The local memory is zero after it. -/
theorem State.memRead_zeroAll {s : State} (h : Memory.wf s.mem = true) {a : Nat} (h1 : localBase ≤ a) (h2 : a < hostBase) :
    memRead s.zeroAll.mem a = 0 := (memRead_memZero _ _ _ h).trans (if_pos ⟨h1, h2⟩)

theorem exec_bringUp_of_good {s : State} (he : s.event = some .bringUp) (hg : Config.firmwareGood Config.romHash s.image = true) :
    ∃ fit gws live spare, exec .bringUp s =
      .next ((((({ s.taken with fresh := s.fresh + 1 } : State).train fit gws).tables live spare).zeroAll).ready live spare) := by
  have hexec : exec .bringUp s = execBringUp s := rfl
  rw [hexec, execBringUp, he]
  exact ⟨_, _, _, _, if_neg (by simpa using hg)⟩

theorem exec_bringUp_of_bad {s : State} (he : s.event = some .bringUp) (hg : Config.firmwareGood Config.romHash s.image = false) :
    exec .bringUp s = .next { s.taken with fresh := s.fresh + 1 } := by
  show execBringUp s = _
  rw [execBringUp, he]
  exact if_pos (by rw [Bool.not_eq_true']; exact hg)

/-! ### Resets -/

/-- The part of a die that outlives a reset. -/
def Die.kept (d : Die) : Die := { leaf := d.leaf, leafEnd := d.leafEnd }

theorem State.die_afterReset (s : State) (d : Nat) : s.afterReset.die d = (s.die d).kept :=
  SMap.get_map s.dies Die.kept d {}

/-- With the supply, the rest of the reserved leaves is lost. -/
def Die.cut (d : Die) : Die := { d with leaf := d.leafEnd }

theorem State.die_powerCut (s : State) (d : Nat) :
    State.die { s.afterReset with dies := s.afterReset.dies.map fun (i, x) => (i, x.cut) } d = (s.die d).kept.cut :=
  (SMap.get_map s.afterReset.dies Die.cut d {}).trans (congrArg Die.cut (State.die_afterReset s d))

/-- Settles O60: each step by its own lemma. -/
theorem deviceSteps : Obligations.DeviceSteps := by
  refine ⟨fun v s he hw => ?clearOld, fun v s he hw => ?clearNow, fun d v s he hw => ?monOk, fun d v s he hw => ?monBad,
    fun d y s he hw => ?alarm, fun d y s he hw => ?trip, fun d y s he hw => ?throttleEnd, fun d p s he _ => ?droop,
    fun s he => ?bringUp, fun i e hi s he => ?resets⟩
  case clearOld =>
    show execHealthClear s = _
    rw [execHealthClear, he]
    exact congrArg _ (State.clearAlarms_of_old hw v)
  case clearNow =>
    show execHealthClear s = _
    rw [execHealthClear, he]
    exact congrArg _ (State.clearAlarms_of_now hw v)
  case monOk => rw [exec_moncfgWrite he, if_pos ((moncfgOk_iff v).2 hw)]
  case monBad => rw [exec_moncfgWrite he, if_neg (mt (moncfgOk_iff v).1 hw)]
  case alarm =>
    show execThermalAlarm s = _
    rw [execThermalAlarm, he]
    exact congrArg _ (State.throttle_sensedAt hw)
  case trip =>
    obtain ⟨htrip, hthr⟩ := hw
    show execThermalTrip s = _
    rw [execThermalTrip, he]
    dsimp only
    rw [State.throttle_sensedAt hthr, State.ttrip_throttled, if_pos htrip]
  case throttleEnd =>
    show execThrottleEnd s = _
    rw [execThrottleEnd, he]
    exact congrArg _ (if_pos hw)
  case droop =>
    show execDroop s = _
    rw [execDroop, he]
    rfl
  case bringUp =>
    cases hg : Config.firmwareGood Config.romHash s.image with
    | false => exact ⟨_, exec_bringUp_of_bad he hg, Bool.noConfusion, fun _ => rfl⟩
    | true =>
      obtain ⟨fit, gws, live, spare, hexec⟩ := exec_bringUp_of_good he hg
      obtain ⟨hup, hready, hver, hcopses⟩ := State.started_ready
        (((({ s.taken with fresh := s.fresh + 1 } : State).train fit gws).tables live spare).zeroAll) live spare rfl
      refine ⟨_, hexec, fun _ => ⟨hup, hready, hver.trans (congrArg _ ?_), hcopses, fun hm a h1 h2 => ?_⟩, Bool.noConfusion⟩
      · exact (State.tables_image _ _ _).trans (State.train_image _ _ _)
      · rw [State.ready_mem]
        exact State.memRead_zeroAll (by rwa [State.tables_mem, State.train_mem]) h1 h2
  case resets =>
    obtain ⟨rfl, image, rfl⟩ | ⟨rfl, rfl⟩ := hi
    · have hdie := State.die_afterReset s
      refine ⟨{ s.afterReset with image := image }, ?_, rfl, rfl, rfl, rfl, fun d => (congrArg Die.leafEnd (hdie d)).trans rfl,
        fun d => (congrArg Die.leaf (hdie d)).trans rfl⟩
      show execFirmwareReload s = _
      rw [execFirmwareReload, he]
    · have hdie := State.die_powerCut s
      refine ⟨{ s.afterReset with dies := s.afterReset.dies.map fun (i, x) => (i, x.cut) }, ?_, rfl, rfl, rfl, rfl,
        fun d => (congrArg Die.leafEnd (hdie d)).trans rfl, fun d => (congrArg Die.leaf (hdie d)).trans rfl⟩
      show execPowerCut s = _
      rw [execPowerCut, he] <;> rfl

end Sys2Proof.Machine
end

section
/-!
What a command of the trust core finds in its slot (R383, R431, R441): the operand words of a command that opens, and the
body that runs on them.
-/

namespace Sys2Proof.Machine
open Sys2Proof Sys2Proof.Claims

/-! ### Operand words -/

/-- Word `j` of some bytes is made of bytes `8 j` to `8 j + 7`. -/
theorem getElem?_wordsFrom {n j : Nat} (h : j < n) (bs : List Byte) :
    (wordsFrom n bs)[j]? = some (wd (ofBytes ((bs.drop (8 * j)).take 8))) := by
  induction n generalizing j bs with
  | zero => exact absurd h (Nat.not_lt_zero j)
  | succ n ih =>
    cases j with
    | zero => rfl
    | succ j =>
      rw [wordsFrom, List.getElem?_cons_succ, ih (Nat.lt_of_succ_lt_succ h), List.drop_drop,
        Nat.mul_succ, Nat.add_comm]

/-- The bytes of words from word `j` on. -/
theorem drop_flatMap_toBytes (ws : List Word) (j : Nat) :
    (ws.flatMap fun w => toBytes 8 w.toNat).drop (8 * j) = (ws.drop j).flatMap fun w => toBytes 8 w.toNat := by
  induction ws generalizing j with
  | nil => simp
  | cons w ws ih =>
    cases j with
    | zero => rfl
    | succ j =>
      rw [List.drop_succ_cons, ← ih, List.flatMap_cons, Nat.mul_succ, Nat.add_comm, ← List.drop_drop,
        List.drop_left' (length_toBytes 8 w.toNat)]

/-- The first word of the bytes of some words; no words read as 0. -/
theorem word_take_flatMap_toBytes (ws : List Word) :
    wd (ofBytes ((ws.flatMap fun w => toBytes 8 w.toNat).take 8)) = (ws[0]?).getD 0 := by
  cases ws with
  | nil => rfl
  | cons w ws =>
    rw [List.flatMap_cons, List.take_left' (length_toBytes 8 w.toNat), ofBytes_toBytes 8 w.toNat w.isLt, wd, BitVec.ofNat_toNat,
      BitVec.setWidth_eq]
    rfl

/-- The operand words of a host's command are the slot's words from word 1 on. -/
theorem cmdBytes_word (s : State) (i : Nat) {j n len : Nat} (hj : j < n) (hn : 8 * n ≤ len) :
    ((wordsFrom (len / 8) (s.cmdBytes i len))[j]?).getD 0 = ((s.cmdWords i)[j + 1]?).getD 0 := by
  have htake : ((s.cmdBytes i len).drop (8 * j)).take 8 =
      (((s.cmdWords i).drop (j + 1)).flatMap fun w => toBytes 8 w.toNat).take 8 := by
    rw [State.cmdBytes, List.drop_take, List.take_take, drop_flatMap_toBytes, List.drop_drop, Nat.min_eq_left (by omega),
      Nat.add_comm]
  rw [getElem?_wordsFrom (by omega), Option.getD_some, htake, word_take_flatMap_toBytes, List.getElem?_drop]

/-- The bytes of operand words that two readings of them agree on. -/
theorem operandBytes_congr {op op' : Nat → Word} {n k : Nat} (hop : ∀ j, j < n → op' j = op j) {f : Nat → Nat}
    (hf : ∀ m, m < k → f m < n) : ((List.range k).flatMap fun m => toBytes 8 (op' (f m)).toNat) =
      (List.range k).flatMap fun m => toBytes 8 (op (f m)).toNat :=
  List.flatMap_congr fun m hm => by rw [hop _ (hf m (List.mem_range.1 hm))]

section
variable {s : State} {e : Event} {i n : Nat} {t : Option Nat} {op : Nat → Word}

/-- A slot's command that is at hand, in no later stage. -/
theorem named_of_commanded (h : Commanded s e i n t op) : s.event = some e ∧ s.tcstage = 0 ∧
    commandOf (cmdCode (((s.cmdWords i)[0]?).getD 0)) i = some e := by
  obtain ⟨he, hst, -, hc, -⟩ := h
  exact ⟨he, hst, hc⟩

/-- It opens to its operand words. -/
theorem openCmd_of_commanded (h : Commanded s e i n t op) : ∃ c : Cmd, s.taken.openCmd i = .ok c ∧ c.tenant = t ∧
    n ≤ c.ops.length ∧ ∀ j, j < n → (c.ops[j]?).getD 0 = op j := by
  obtain ⟨-, -, hbad, -, hrest⟩ := h
  have hbad : ¬ cmdBad (((s.taken.cmdWords i)[0]?).getD 0) = true := Bool.eq_false_iff.1 hbad
  have hdiv {m : Nat} (hm : 8 * n ≤ m) : n ≤ m / 8 := (Nat.le_div_iff_mul_le (by decide)).2 (by omega)
  cases t with
  | none =>
    obtain ⟨hten, hlen, hop⟩ := hrest
    refine ⟨⟨none, wordsFrom _ _⟩, (if_neg hbad).trans (if_pos ?_), rfl, ?_, fun j hj => ?_⟩
    · rw [Bool.not_eq_true']
      exact hten
    · rw [length_wordsFrom]
      exact hdiv hlen
    · exact (cmdBytes_word s.taken i hj hlen).trans (hop j hj).symm
  | some ctx =>
    obtain ⟨hten, h28, x, clear, hx, hctx, hclear, hlen, hop⟩ := hrest
    refine ⟨⟨some ctx, wordsFrom (clear.length / 8) clear⟩, ?_, rfl, ?_, fun j hj => ?_⟩
    · have htaken : s.taken.openCmd i = (match s.sessions.get? (cmdSess (((s.cmdWords i)[0]?).getD 0)) with
        | none => .error 1
        | some x =>
          if cmdLen (((s.cmdWords i)[0]?).getD 0) < 28 then .error 4
          else match openSealed x.key (s.cmdBytes i (cmdLen (((s.cmdWords i)[0]?).getD 0))) with
            | none => .error 1
            | some clear => .ok { tenant := some x.ctx, ops := wordsFrom (clear.length / 8) clear }) := by
        refine (if_neg hbad).trans ((if_neg ?_).trans rfl)
        rw [Bool.not_eq_true', Bool.not_eq_false]
        exact hten
      rw [htaken, hx]
      dsimp only
      rw [if_neg (Nat.not_lt.2 h28), hclear, hctx]
    · rw [length_wordsFrom]
      exact hdiv hlen
    · rw [getElem?_wordsFrom (Nat.lt_of_lt_of_le hj (hdiv hlen))]
      exact (hop j hj).symm

/-- A command of an issuer that may give it runs its body, which sees its operands through the first `n` words only. -/
theorem withCmd_of_commanded {get : Event → Option Nat} {who : Issuer} {body : State → Nat → Option Nat → (Nat → Word) → State}
    {v : State} (h : Commanded s e i n t op) (hget : get e = some i) (hwho : who.allows t.isSome = true)
    (hv : ∀ op', (∀ j, j < n → op' j = op j) → body s.taken i t op' = v) : withCmd s get who n body = .next v := by
  obtain ⟨he, -, hc⟩ := named_of_commanded h
  obtain ⟨c, ho, rfl, hlen, hop⟩ := openCmd_of_commanded h
  rw [withCmd_runs he hget hc ho hwho hlen]
  exact congrArg _ (hv _ hop)

end

end Sys2Proof.Machine
end

section
/-!
The trust core's commands on contexts, cores and keys (R382 to R385, R390 to R392; logs 103 to 105).
-/

namespace Sys2Proof.Machine
open Sys2Proof Sys2Proof.Claims

/-! ### What the commands' steps keep -/

/-- Ending the host's hold on sectors touches gateways and sectors only. -/
theorem State.unhold_keeps {β : Type} (g : State → β) (hg : ∀ (s : State) j x, g (s.setGw j x) = g s)
    (hsec : ∀ (s : State) j x, g (s.setSector j x) = g s) (s : State) (sec : Nat) : g (s.unhold sec) = g s := by
  rw [State.unhold]
  split
  · exact (hsec _ _ _).trans (hg _ _ _)
  · rfl

/-- The scrub of key ids touches gateways and sectors only. -/
theorem State.scrubKeys_keeps {β : Type} (g : State → β) (hg : ∀ (s : State) j x, g (s.setGw j x) = g s)
    (hsec : ∀ (s : State) j x, g (s.setSector j x) = g s) (hsecs : ∀ (s : State) m, g { s with secs := m } = g s) (s : State) (ids : List Nat) :
    g (s.scrubKeys ids) = g s :=
  (hsecs _ _).trans (foldl_keeps g (State.unhold_keeps g hg hsec) _ _)

theorem State.scrubKeys_shared (s : State) (ids : List Nat) : (s.scrubKeys ids).shared = s.shared :=
  State.scrubKeys_keeps State.shared (fun _ _ _ => rfl) (fun _ _ _ => rfl) (fun _ _ => rfl) s ids

theorem State.scrubKeys_shareAsk (s : State) (ids : List Nat) : (s.scrubKeys ids).shareAsk = s.shareAsk :=
  State.scrubKeys_keeps State.shareAsk (fun _ _ _ => rfl) (fun _ _ _ => rfl) (fun _ _ => rfl) s ids

/-- The context that CREATE makes reads as its record has it. -/
theorem newCtx_tctl (troot dtroot supv flags : Word) (kx ki : Nat) :
    (newCtx troot dtroot supv flags kx ki).tctl = truth (flags.getLsbD 62 = true) := by
  show wd (bit1 (flags.getLsbD 62)) = _
  cases flags.getLsbD 62 <;> rfl

/-- The state in which a CREATE that has a free id waits for its key. -/
def State.createWaits (s : State) (id : Nat) (troot dtroot supv flags : Word) : State :=
  let kx := s.draw 8
  let ki := kx.2.draw 4
  { ((ki.2.scrubKeys [id]).setCtx id (newCtx troot dtroot supv flags kx.1 ki.1)).loadKey id with tcstage := id + 1 }

theorem State.createGo_of_free {s : State} {id : Nat} {troot dtroot supv flags : Word} (i : Nat)
    (hbad : recordBad troot dtroot supv flags = false) (hid : s.freeId = some id) :
    s.createGo i troot dtroot supv flags = s.createWaits id troot dtroot supv flags := by
  rw [State.createGo, if_neg (Bool.eq_false_iff.1 hbad), hid]
  rfl

theorem State.ctx_createWaits (s : State) (id : Nat) (troot dtroot supv flags : Word) :
    (s.createWaits id troot dtroot supv flags).ctx id = newCtx troot dtroot supv flags (s.draw 8).1 ((s.draw 8).2.draw 4).1 :=
  State.ctx_setCtx_self _ _ _

/-- The state in which the second SHAREKEY of a pair waits for its key. -/
def State.shareWaits (s : State) (id a b : Nat) (ask : Nat × Nat) : State :=
  let kx := s.draw 8
  let u := kx.2.scrubKeys [id]
  { ({ u with shared := u.shared ++ [id], sharedKx := u.sharedKx.put id kx.1, shareAsk := u.shareAsk.erase ask } : State).loadKey id with
    tcstage := 1 + id + 64 * a + 4096 * b }

theorem State.shareWaits_shared (s : State) (id a b : Nat) (ask : Nat × Nat) :
    (s.shareWaits id a b ask).shared = s.shared ++ [id] := by
  show (State.scrubKeys (s.draw 8).2 [id]).shared ++ [id] = _
  rw [State.scrubKeys_shared, State.draw_snd]

theorem State.shareWaits_shareAsk (s : State) (id a b : Nat) (ask : Nat × Nat) :
    (s.shareWaits id a b ask).shareAsk = s.shareAsk.erase ask := by
  show (State.scrubKeys (s.draw 8).2 [id]).shareAsk.erase ask = _
  rw [State.scrubKeys_shareAsk, State.draw_snd]

theorem State.shareWaits_sharedKx (s : State) (id a b : Nat) (ask : Nat × Nat) :
    (s.shareWaits id a b ask).sharedKx.get? id = some (s.draw 8).1 := SMap.get?_put_self _ _ _

/-- A tenant that has been told BUSY has asked. -/
theorem mem_asked (p : Nat × Nat) (l : List (Nat × Nat)) : p ∈ if l.contains p then l else l ++ [p] := by
  split
  next h => exact List.contains_iff_mem.1 h
  next => exact List.mem_append_right _ List.mem_cons_self

/-- A tenant's session names its own context. -/
theorem namesCtx_some (t c : Nat) : namesCtx (some t) c = true ↔ t = c := beq_iff_eq

/-! ### The commands -/

section
variable {s : State} {i : Nat} {op : Nat → Word}

theorem exec_create_of_commanded {id : Nat} (h : Commanded s (.create i) i 4 none op)
    (hbad : recordBad (op 0) (op 1) (op 2) (op 3) = false) (hid : s.taken.freeId = some id) :
    exec .create s = .next (s.taken.createWaits id (op 0) (op 1) (op 2) (op 3)) := by
  obtain ⟨-, hst, -⟩ := named_of_commanded h
  show execCreate s = _
  rw [execCreate, cmdOf_of_zero hst]
  refine withCmd_of_commanded h rfl rfl fun op' hop => ?_
  rw [hop 0 (by decide), hop 1 (by decide), hop 2 (by decide), hop 3 (by decide)]
  exact State.createGo_of_free i hbad hid

theorem exec_create_of_loaded {id : Nat} (he : s.event = some (.create i)) (hst : s.tcstage = id + 1)
    (hk : s.keyIds.contains id = true) : exec .create s = .next (s.taken.cmdDone i 0 id) := by
  have hid : s.taken.tcstage - 1 = id := by
    show s.tcstage - 1 = id
    omega
  show execCreate s = _
  rw [execCreate, cmdOf_of_stage (by omega) he]
  dsimp only
  rw [hid]
  exact congrArg _ (if_pos hk)

theorem exec_addcore_of_commanded (h : Commanded s (.addcore i) i 2 none op) (hc : (op 0).toNat < 2048)
    (hd : s.taken.dieLive ((op 0).toNat / 128) = true) (hf : (s.taken.core (op 0).toNat).ctx = none)
    (hl : s.taken.liveCtx (op 1) = true) :
    exec .addcore s = .next ((s.taken.joinCore (op 0).toNat (op 1).toNat).cmdDone i 0 0) := by
  show execAddcore s = _
  rw [execAddcore]
  refine withCmd_of_commanded h rfl rfl fun op' hop => ?_
  dsimp only
  rw [hop 0 (by decide), hop 1 (by decide), hd, hf, hl]
  exact if_neg (by simpa using hc)

theorem exec_remcore_of_commanded {ctx : Nat} (h : Commanded s (.remcore i) i 1 none op)
    (hc : (s.taken.core (op 0).toNat).ctx = some ctx)
    (hs : s.taken.supvCore ctx ≠ (op 0).toNat ∨ (s.taken.coresOf ctx).length ≤ 1)
    (hi : (s.taken.core (op 0).toNat).idle = true) : exec .remcore s = .next ((s.taken.modCore (op 0).toNat fun k =>
      ({ k with ctx := none } : Core).setSlot 7 { runs := (k.slot 7).runs }).cmdDone i 0 0) := by
  have hkeep : ¬ (s.taken.supvCore ctx == (op 0).toNat && decide (1 < (s.taken.coresOf ctx).length)) = true := by
    rw [Bool.and_eq_true, beq_iff_eq, decide_eq_true_iff]
    omega
  show execRemcore s = _
  rw [execRemcore]
  refine withCmd_of_commanded h rfl rfl fun op' hop => ?_
  dsimp only
  rw [hop 0 (by decide), hc]
  dsimp only
  rw [if_neg hkeep, hi]
  rfl

theorem exec_setquota_of_commanded (h : Commanded s (.setquota i) i 2 none op) (hb : flagsBad (op 1) = false)
    (hl : s.taken.liveCtx (op 0) = true) : exec .setquota s =
      .next (((s.taken.setCsched (op 0).toNat (recCsched (op 1))).modCtx (op 0).toNat (·.quotas (op 1))).cmdDone i 0 0) := by
  show execSetquota s = _
  rw [execSetquota]
  refine withCmd_of_commanded h rfl rfl fun op' hop => ?_
  rw [hop 0 (by decide), hop 1 (by decide), hb, hl]
  rfl

/-- SHAREKEY of two live contexts with room, by the tenant of one of them: told BUSY, or the key is drawn. -/
theorem exec_sharekey_of_commanded {t : Nat} (h : Commanded s (.sharekey i) i 2 (some t) op) (ha : s.taken.liveCtx (op 0) = true)
    (hb : s.taken.liveCtx (op 1) = true) (hne : op 0 ≠ op 1) (ht : t = (op 0).toNat ∨ t = (op 1).toNat)
    (hfa : (s.ctx (op 0).toNat).sharedIds.length < (s.ctx (op 0).toNat).shmax)
    (hfb : (s.ctx (op 1).toNat).sharedIds.length < (s.ctx (op 1).toNat).shmax) :
    let other := if t = (op 0).toNat then (op 1).toNat else (op 0).toNat
    exec .sharekey s = .next (if s.shareAsk.contains (other, t) = false then
      ({ s.taken with shareAsk := if s.shareAsk.contains (t, other) then s.shareAsk else s.shareAsk ++ [(t, other)] } : State).cmdDone i 2 0
      else match s.taken.freeId with
        | none => s.taken.cmdDone i 3 0
        | some id => s.taken.shareWaits id (op 0).toNat (op 1).toNat (other, t)) := by
  intro other
  have hok : ¬ (!(s.taken.liveCtx (op 0)) || !(s.taken.liveCtx (op 1)) || (op 0).toNat == (op 1).toNat ||
      !(namesCtx (some t) (op 0).toNat || namesCtx (some t) (op 1).toNat) ||
      decide ((s.taken.ctx (op 0).toNat).shmax ≤ (s.taken.ctx (op 0).toNat).sharedIds.length) ||
      decide ((s.taken.ctx (op 1).toNat).shmax ≤ (s.taken.ctx (op 1).toNat).sharedIds.length)) = true := by
    have hne : ((op 0).toNat == (op 1).toNat) = false := beq_eq_false_iff_ne.2 (mt BitVec.eq_of_toNat_eq hne)
    have hnames : (namesCtx (some t) (op 0).toNat || namesCtx (some t) (op 1).toNat) = true := by
      rw [Bool.or_eq_true, namesCtx_some, namesCtx_some]
      exact ht
    rw [ha, hb, hne, hnames]
    simpa using ⟨hfa, hfb⟩
  obtain ⟨-, hst, -⟩ := named_of_commanded h
  show execSharekey s = _
  rw [execSharekey, cmdOf_of_zero hst]
  refine withCmd_of_commanded h rfl rfl fun op' hop => ?_
  dsimp only
  rw [hop 0 (by decide), hop 1 (by decide), if_neg hok]
  simp only [beq_iff_eq, Bool.not_eq_true', State.asked, Option.getD_some]
  have hother : (if t = (op 0).toNat then (op 1).toNat else (op 0).toNat) = other := rfl
  rw [hother]
  clear_value other
  by_cases hask : s.shareAsk.contains (other, t) = false
  · exact (if_pos hask).trans (if_pos hask).symm
  · refine (if_neg hask).trans (Eq.trans ?_ (if_neg hask).symm)
    cases s.taken.freeId <;> rfl

theorem exec_sharekey_of_loaded {id a b : Nat} (he : s.event = some (.sharekey i)) (hid : id < 64) (ha : a < 64) (hb : b < 64)
    (hst : s.tcstage = 1 + id + 64 * a + 4096 * b) (hk : s.keyIds.contains id = true) :
    exec .sharekey s = .next (((s.taken.modCtx a (·.holdKey id)).modCtx b (·.holdKey id)).cmdDone i 0 id) := by
  have hid' : (s.taken.tcstage - 1) % 64 = id := by
    show (s.tcstage - 1) % 64 = id
    omega
  have ha' : (s.taken.tcstage - 1) / 64 % 64 = a := by
    show (s.tcstage - 1) / 64 % 64 = a
    omega
  have hb' : (s.taken.tcstage - 1) / 4096 = b := by
    show (s.tcstage - 1) / 4096 = b
    omega
  show execSharekey s = _
  rw [execSharekey, cmdOf_of_stage (by omega) he]
  dsimp only
  rw [hid', ha', hb']
  exact congrArg _ (if_pos hk)

theorem exec_stop_of_commanded (h : Commanded s (.stop i) i 1 none op) (hl : s.taken.liveCtx (op 0) = true) :
    exec .stop s = .next { s.taken.stopCtx (op 0).toNat with tcstage := 1 + (op 0).toNat } := by
  obtain ⟨-, hst, -⟩ := named_of_commanded h
  show execStop s = _
  rw [execStop, cmdOf_of_zero hst]
  refine withCmd_of_commanded h rfl rfl fun op' hop => ?_
  dsimp only
  rw [hop 0 (by decide), hl]
  rfl

theorem exec_stop_of_done {ctx : Nat} (he : s.event = some (.stop i)) (hst : s.tcstage = 1 + ctx) (hd : s.taken.stopDone ctx = true) :
    exec .stop s = .next (s.taken.cmdDone i 0 0) := by
  have hctx : s.taken.tcstage - 1 = ctx := by
    show s.tcstage - 1 = ctx
    omega
  show execStop s = _
  rw [execStop, cmdOf_of_stage (by omega) he]
  dsimp only
  rw [hctx]
  exact congrArg _ (if_pos hd)

theorem exec_destroy_of_commanded (h : Commanded s (.destroy i) i 1 none op) (hl : s.taken.liveCtx (op 0) = true) :
    exec .destroy s = .next { ((s.taken.modCtx (op 0).toNat fun x => { x with stopped := true }).stopCtx (op 0).toNat) with
      tcstage := 1 + (op 0).toNat } := by
  obtain ⟨-, hst, -⟩ := named_of_commanded h
  show execDestroy s = _
  rw [execDestroy, cmdOf_of_zero hst]
  refine withCmd_of_commanded h rfl rfl fun op' hop => ?_
  dsimp only
  rw [hop 0 (by decide), hl]
  rfl

theorem exec_destroy_of_stopped {ctx : Nat} (he : s.event = some (.destroy i)) (hctx : ctx < 64) (hst : s.tcstage = 1 + ctx)
    (hd : s.taken.stopDone ctx = true) : exec .destroy s = .next { s.taken.destroyStiles ctx with tcstage := 65 + ctx } := by
  have hst' : s.taken.tcstage = 1 + ctx := hst
  show execDestroy s = _
  rw [execDestroy, cmdOf_of_stage (by omega) he]
  dsimp only
  rw [hst', Nat.add_sub_cancel_left, Nat.mod_eq_of_lt hctx, if_pos (by omega), if_pos hd, Nat.add_right_comm]

theorem exec_destroy_of_cleared {ctx : Nat} (he : s.event = some (.destroy i)) (hctx : ctx < 64) (hst : s.tcstage = 65 + ctx)
    (hd : s.taken.stilesCleared = true) : exec .destroy s = .next ((s.taken.destroyRest ctx).cmdDone i 0 0) := by
  have hst' : s.taken.tcstage = 65 + ctx := hst
  have hmod : (65 + ctx - 1) % 64 = ctx := by omega
  show execDestroy s = _
  rw [execDestroy, cmdOf_of_stage (by omega) he]
  dsimp only
  rw [hst', hmod, if_neg (by omega), if_pos hd]

/-- The bundle of context `t` is wrapped under a fresh nonce and written at `a`. -/
def State.bundleOut (s : State) (i t a : Nat) : State :=
  let nonce := s.draw 2
  nonce.2.putBytes a ((sealBlock (s.sessionOf i).mig (nonce.1 % 2 ^ 32) (nonce.1 / 2 ^ 32 % 2 ^ 64) (bundleBytes (nonce.2.ctx t))).map some)

/-- The state after an EXPORT: the bundle is out, the source's counter and sessions end. -/
def State.exported (s : State) (i t a : Nat) : State :=
  let v := (s.bundleOut i t a).modCtx t fun x => { x with savecnt := savecntEnd }
  ({ v with sessions := v.sessions.filter fun p => p.2.ctx != t } : State).cmdDone i 0 bundleLen

theorem exec_exportKeys_of_commanded (h : Commanded s (.exportKeys i) i 2 (some (op 0).toNat) op)
    (hl : s.taken.liveCtx (op 0) = true) (hr : hostRange (op 1).toNat bundleLen = true) :
    exec .exportKeys s = .next (s.taken.exported i (op 0).toNat (op 1).toNat) := by
  show execExportKeys s = _
  rw [execExportKeys]
  refine withCmd_of_commanded h rfl rfl fun op' hop => ?_
  dsimp only
  rw [hop 0 (by decide), hop 1 (by decide), hl, hr, (namesCtx_some _ _).2 rfl]
  rfl

theorem State.exported_ctx (s : State) (i t a : Nat) : ((s.exported i t a).ctx t).savecnt = savecntEnd := by
  have hctxs : (s.exported i t a).ctxs =
    (s.bundleOut i t a).ctxs.put t { (s.bundleOut i t a).ctx t with savecnt := savecntEnd } := rfl
  rw [State.ctx, hctxs, SMap.get_put_self]

theorem State.exported_sessions (s : State) (i t a : Nat) : ∀ p ∈ (s.exported i t a).sessions, p.2.ctx ≠ t := by
  intro p hp
  have hp : p ∈ (s.bundleOut i t a).sessions.filter fun p => p.2.ctx != t := hp
  exact bne_iff_ne.1 (List.mem_filter.1 hp).2

theorem exec_importKeys_of_commanded {b : List Byte} (h : Commanded s (.importKeys i) i 12 (some (op 11).toNat) op)
    (hl : s.taken.liveCtx (op 11) = true) (hm : (s.ctx (op 11).toNat).made = true)
    (ho : openSealed (s.sessionOf i).mig (((List.range 11).flatMap fun j => toBytes 8 (op j).toNat).take bundleLen) = some b) :
    exec .importKeys s = .next { (((s.taken.draw 8).2.modCtx (op 11).toNat fun x => x.importBundle b (s.taken.draw 8).1).loadKey
      (op 11).toNat) with tcstage := 1 + (op 11).toNat } := by
  obtain ⟨-, hst, -⟩ := named_of_commanded h
  have hm : (s.taken.ctx (op 11).toNat).made = true := hm
  have ho : openSealed (s.taken.sessionOf i).mig (((List.range 11).flatMap fun j => toBytes 8 (op j).toNat).take bundleLen) = some b := ho
  show execImportKeys s = _
  rw [execImportKeys, cmdOf_of_zero hst]
  refine withCmd_of_commanded h rfl rfl fun op' hop => ?_
  have hbytes : ((List.range 11).flatMap fun j => toBytes 8 (op' j).toNat) = (List.range 11).flatMap fun j => toBytes 8 (op j).toNat :=
    operandBytes_congr hop fun m hm => Nat.lt_succ_of_lt hm
  dsimp only
  rw [hop 11 (by decide), hl, hm, (namesCtx_some _ _).2 rfl, hbytes, ho]
  rfl

theorem exec_importKeys_of_loaded {ctx : Nat} (he : s.event = some (.importKeys i)) (hst : s.tcstage = 1 + ctx)
    (hk : s.keyIds.contains ctx = true) : exec .importKeys s = .next (s.taken.cmdDone i 0 0) := by
  have hctx : s.taken.tcstage - 1 = ctx := by
    show s.tcstage - 1 = ctx
    omega
  show execImportKeys s = _
  rw [execImportKeys, cmdOf_of_stage (by omega) he]
  dsimp only
  rw [hctx]
  exact congrArg _ (if_pos hk)

end

/-- Settles O58: each command and each later stage by its own lemma. -/
theorem trustContextCommands : Obligations.TrustContextCommands := by
  refine ⟨fun kid s he hk => ?newKey, fun kid s he hk => ?oldKey, fun s i op id h hbad hid => ?create,
    fun s i id => exec_create_of_loaded, fun s i op => exec_addcore_of_commanded, fun s i op ctx => exec_remcore_of_commanded,
    fun s i op => exec_setquota_of_commanded, fun s i t op id h ha hb hne ht hfa hfb => ?sharekey,
    fun s i id a b => exec_sharekey_of_loaded, fun s i op => exec_stop_of_commanded, fun s i ctx => exec_stop_of_done,
    fun s i op => exec_destroy_of_commanded, fun s i ctx => exec_destroy_of_stopped, fun s i ctx => exec_destroy_of_cleared,
    fun s i t op h hl ht hr => ?exportKeys, fun s i t op b h hl ht hm ho => ?importKeys, fun s i ctx => exec_importKeys_of_loaded⟩
  case newKey =>
    show execKeyLoad s = _
    rw [execKeyLoad, he]
    dsimp only
    rw [if_neg (Bool.eq_false_iff.1 hk)]
  case oldKey =>
    show execKeyLoad s = _
    rw [execKeyLoad, he]
    dsimp only
    rw [if_pos hk]
    rfl
  case create =>
    have hctx := s.taken.ctx_createWaits id (op 0) (op 1) (op 2) (op 3)
    refine ⟨_, exec_create_of_commanded h hbad hid, rfl, ?_⟩
    rw [hctx]
    exact ⟨rfl, rfl, rfl, rfl, rfl, rfl, newCtx_tctl _ _ _ _ _ _⟩
  case sharekey =>
    have hexec := exec_sharekey_of_commanded h ha hb hne ht hfa hfb
    intro other
    refine ⟨fun hask => ⟨_, hexec.trans (congrArg _ (if_pos hask)), rfl, ?_⟩, fun hask hid =>
      ⟨s.taken.shareWaits id (op 0).toNat (op 1).toNat (other, t), ?_, State.shareWaits_shared _ _ _ _ _,
      State.shareWaits_sharedKx _ _ _ _ _, State.shareWaits_shareAsk _ _ _ _ _, rfl⟩⟩
    · exact mem_asked _ _
    · exact hexec.trans (congrArg _ ((if_neg (ne_false_of_eq_true hask)).trans (by rw [hid])))
  case exportKeys =>
    subst ht
    exact ⟨_, exec_exportKeys_of_commanded h hl hr, State.exported_ctx _ _ _ _, State.exported_sessions _ _ _ _⟩
  case importKeys =>
    subst ht
    exact exec_importKeys_of_commanded h hl hm ho

end Sys2Proof.Machine
end

section
/-!
The trust core's commands on stiles, windows, streams and reports, and the commands that it refuses (R383, R386 to R388, R393,
R394, R398, R441; logs 102, 103, 106 and 110).
-/

namespace Sys2Proof.Machine
open Sys2Proof Sys2Proof.Claims

/-! ### Attestation -/

theorem State.draw_cmds (s : State) (n : Nat) : (s.draw n).2.cmds = s.cmds := by rw [State.draw_snd]
theorem State.draw_ctxs (s : State) (n : Nat) : (s.draw n).2.ctxs = s.ctxs := by rw [State.draw_snd]
theorem State.draw_attLeaf (s : State) (n : Nat) : (s.draw n).2.attLeaf = s.attLeaf := by rw [State.draw_snd]

/-- The RPL bit is all that its setting may change. -/
theorem State.setRpl_keeps {β : Type} (g : State → β) (hg : ∀ (s : State) h, g { s with health := h } = g s) (s : State) :
    g s.setRpl = g s := by
  rw [State.setRpl]
  split
  · exact hg s _
  · rfl

theorem State.newAttKey_cmds (s : State) : s.newAttKey.cmds = s.cmds := by
  rw [State.newAttKey]
  split
  · rfl
  · exact (State.setRpl_keeps State.cmds (fun _ _ => rfl) _).trans (s.draw_cmds 4)

theorem State.newAttKey_ctxs (s : State) : s.newAttKey.ctxs = s.ctxs := by
  rw [State.newAttKey]
  split
  · rfl
  · exact (State.setRpl_keeps State.ctxs (fun _ _ => rfl) _).trans (s.draw_ctxs 4)

/-- With a leaf left, a new key's leaves are counted from 0. -/
theorem State.newAttKey_attLeaf {s : State} (h : (s.die (16 + s.primaryGw)).spent = false) : s.newAttKey.attLeaf = 0 := by
  rw [State.newAttKey, if_neg (Bool.eq_false_iff.1 h)]
  exact State.setRpl_keeps State.attLeaf (fun _ _ => rfl) _

/-- The state with a key that can sign a report, as far as there is one. -/
def State.attReady (s : State) : State := if s.attLeaf == 1024 then s.newAttKey else s

theorem State.attReady_cmds (s : State) : s.attReady.cmds = s.cmds := by
  rw [State.attReady]
  split
  · exact s.newAttKey_cmds
  · rfl

theorem State.attReady_ctxs (s : State) : s.attReady.ctxs = s.ctxs := by
  rw [State.attReady]
  split
  · exact s.newAttKey_ctxs
  · rfl

theorem State.attReady_attLeaf {s : State} (h : s.attLeaf ≠ 1024 ∨ (s.die (16 + s.primaryGw)).spent = false) :
    s.attReady.attLeaf = if s.attLeaf = 1024 then 0 else s.attLeaf := by
  rw [State.attReady]
  by_cases hl : s.attLeaf = 1024
  · rw [if_pos (beq_iff_eq.2 hl), if_pos hl]
    exact State.newAttKey_attLeaf (h.resolve_left (not_not.2 hl))
  · rw [if_neg (mt beq_iff_eq.1 hl), if_neg hl]

/-- The state after a report on context `ctx` for a nonce has been written at `a`. -/
def State.attested (s : State) (i ctx a : Nat) (nonce : List Byte) : State :=
  let kem := s.draw 4
  let key := kem.2.draw 4
  let mig := key.2.draw 4
  let bs := mig.2.report ctx nonce (toBytes 32 kem.1) ++ (List.range Config.signatureLength.val).map (Config.signature mig.2.fresh)
  let v := mig.2.putBytes a (bs.map some)
  ({ v with attLeaf := v.attLeaf + 1, fresh := v.fresh + 1,
            sessions := v.sessions.put (cmdSess (((v.cmdWords i)[0]?).getD 0)) { ctx := ctx, key := key.1, mig := mig.1 } } : State).cmdDone
    i 0 (152 + Config.signatureLength.val)

theorem State.attested_attLeaf (s : State) (i ctx a : Nat) (nonce : List Byte) :
    (s.attested i ctx a nonce).attLeaf = s.attLeaf + 1 := by
  show (State.draw (State.draw (s.draw 4).2 4).2 4).2.attLeaf + 1 = _
  rw [State.draw_attLeaf, State.draw_attLeaf, State.draw_attLeaf]

/-- Its session stands under the number that the slot names. -/
theorem State.attested_session (s : State) (i ctx a : Nat) (nonce : List Byte) :
    ∃ x, (s.attested i ctx a nonce).sessions.get? (cmdSess (((s.cmdWords i)[0]?).getD 0)) = some x ∧ x.ctx = ctx := by
  have hcmds : (State.draw (State.draw (s.draw 4).2 4).2 4).2.cmds = s.cmds := by
    rw [State.draw_cmds, State.draw_cmds, State.draw_cmds]
  have hwords : s.cmdWords i = (State.draw (State.draw (s.draw 4).2 4).2 4).2.cmdWords i := by
    rw [State.cmdWords, State.cmdWords, hcmds]
  refine ⟨{ ctx := ctx, key := ((s.draw 4).2.draw 4).1, mig := (State.draw (State.draw (s.draw 4).2 4).2 4).1 }, ?_, rfl⟩
  rw [hwords]
  exact SMap.get?_put_self _ _ _

/-! ### Streams -/

theorem State.streamKeys_stream (s : State) (gw n tx rx : Nat) (early : Bool) :
    (s.streamKeys gw n tx rx early).stream gw n = { s.stream gw n with
      keys := (s.stream gw n).keys.put (bit1 (!(s.stream gw n).ph)) (tx, rx), nkr := true, early := early, held := [] } := by
  rw [State.streamKeys]
  refine (foldl_keeps (fun v : State => v.stream gw n) ?_ _ _).trans (State.stream_modStream_self _ _ _ _)
  exact fun _ _ => rfl

/-! ### The commands -/

section
variable {s : State} {i : Nat} {op : Nat → Word}

/-- The first entry of the registry that is free. -/
theorem find_free_stile {n : Nat} (hn : n < 4096) (hfree : (s.stiles.get n {}).live = false)
    (hfirst : ∀ m, m < n → (s.stiles.get m {}).live = true) :
    (List.range 4096).find? (fun n => !((s.stiles.get n {}).live)) = some n := by
  rw [List.find?_range_eq_some]
  refine ⟨by rw [hfree]; rfl, List.mem_range.2 hn, fun m hm => ?_⟩
  rw [hfirst m hm]
  rfl

theorem exec_grant_of_commanded {n : Nat} (h : Commanded s (.grant i) i 2 (some (entCtx (op 0))) op)
    (h43 : (op 0).getLsbD 43 = false) (h16 : (op 0).toNat % 2 ^ 16 = 0) (hl : s.taken.liveCtx (op 1) = true)
    (hg : s.taken.grantOk (entCtx (op 0)) (op 1).toNat (op 0) = true)
    (hn : (List.range 4096).find? (fun n => !((s.taken.stiles.get n {}).live)) = some n) :
    let x : StileEnt := { s.stiles.get n {} with
      live := true, content := op 0 ||| 0x8000000000000000, grantee := (op 1).toNat, mask := [] }
    exec .grant s = .next (({ s.taken with stiles := s.stiles.put n x } : State).cmdDone i 0 (x.handle s.stileKey n)) := by
  have hok : ¬ ((op 0).getLsbD 43 || field (op 0) 0 16 != 0) = true := by
    rw [h43, field_zero, h16]
    decide
  show execGrant s = _
  rw [execGrant]
  refine withCmd_of_commanded h rfl rfl fun op' hop => ?_
  dsimp only
  rw [hop 0 (by decide), hop 1 (by decide), if_neg hok, (namesCtx_some _ _).2 rfl, hl, hg, hn]
  rfl

theorem exec_install_of_commanded {e : StileEnt} (h : Commanded s (.install i) i 3 (some e.grantee) op) (hn : (op 2).toNat ≤ 63)
    (he : s.taken.stile? (op 0) = some e) (hc : s.taken.hosts (op 1).toNat e.grantee = true) :
    let m := 64 * (op 1).toNat + (op 2).toNat
    let x := { e with mask := if e.mask.contains m then e.mask else e.mask ++ [m] }
    exec .install s = .next ((({ s.taken with stiles := s.stiles.put (handleIdx (op 0)) x } : State).stileWrite (op 1).toNat
      (op 2).toNat e.content).cmdDone i 0 0) := by
  show execInstall s = _
  rw [execInstall]
  refine withCmd_of_commanded h rfl rfl fun op' hop => ?_
  dsimp only
  rw [hop 0 (by decide), hop 1 (by decide), hop 2 (by decide), if_neg (Nat.not_lt.2 hn), he]
  dsimp only
  rw [(namesCtx_some _ _).2 rfl, hc]
  rfl

/-- The host names every context, a tenant its own. -/
theorem namesCtx_of_own {t : Option Nat} {ctx : Nat} (h : ∀ c, t = some c → c = ctx) : namesCtx t ctx = true := by
  cases t with
  | none => rfl
  | some c => exact (namesCtx_some c ctx).2 (h c rfl)

theorem exec_revoke_of_commanded {t : Option Nat} {e : StileEnt} (h : Commanded s (.revoke i) i 1 t op)
    (he : s.taken.stile? (op 0) = some e) (ht : ∀ c, t = some c → c = entCtx e.content) :
    exec .revoke s = .next { s.taken.endStile (handleIdx (op 0)) with tcstage := 1 } := by
  obtain ⟨-, hst, -⟩ := named_of_commanded h
  show execRevoke s = _
  rw [execRevoke, cmdOf_of_zero hst]
  refine withCmd_of_commanded h rfl rfl fun op' hop => ?_
  dsimp only
  rw [hop 0 (by decide), he]
  exact if_pos (namesCtx_of_own ht)

theorem exec_revoke_of_cleared (he : s.event = some (.revoke i)) (hst : s.tcstage ≠ 0) (hc : s.taken.stilesCleared = true) :
    exec .revoke s = .next (s.taken.cmdDone i 0 0) := by
  show execRevoke s = _
  rw [execRevoke, cmdOf_of_stage hst he]
  exact congrArg _ (if_pos hc)

theorem exec_attest_of_commanded {t : Option Nat} (h : Commanded s (.attest i) i 6 t op) (hl : s.taken.liveCtx (op 4) = true)
    (ht : ∀ c, t = some c → c = (op 4).toNat) (hk : s.attLeaf ≠ 1024 ∨ (s.die (16 + s.primaryGw)).spent = false)
    (hr : hostRange (op 5).toNat (152 + Config.signatureLength.val) = true) : exec .attest s =
      .next (s.taken.attReady.attested i (op 4).toNat (op 5).toNat ((List.range 4).flatMap fun j => toBytes 8 (op j).toNat)) := by
  have hlive : s.taken.attReady.liveCtx (op 4) = true := by
    rw [State.liveCtx, State.ctx, State.attReady_ctxs]
    exact hl
  have hleaf : (s.taken.attReady.attLeaf == 1024) = false := by
    rw [beq_eq_false_iff_ne, State.attReady_attLeaf (s := s.taken) hk]
    split
    · decide
    · assumption
  show execAttest s = _
  rw [execAttest]
  refine withCmd_of_commanded h rfl rfl fun op' hop => ?_
  have hnonce : ((List.range 4).flatMap fun j => toBytes 8 (op' j).toNat) = (List.range 4).flatMap fun j => toBytes 8 (op j).toNat :=
    operandBytes_congr hop fun m hm => Nat.lt_trans hm (by decide)
  have hready : (if s.taken.attLeaf == 1024 then s.taken.newAttKey else s.taken) = s.taken.attReady := rfl
  dsimp only
  rw [hready, hop 4 (by decide), hop 5 (by decide), hlive, namesCtx_of_own ht, hleaf, hr, hnonce]
  rfl

/-- A key of four operand words from word `j` on. -/
def keyAt (op : Nat → Word) (j : Nat) : Nat := ofBytes ((List.range 4).flatMap fun m => toBytes 8 (op (j + m)).toNat)

theorem exec_streamkey_of_commanded (h : Commanded s (.streamkey i) i 11 none op) (hg : (op 0).toNat ≤ 3) (hn : (op 1).toNat ≤ 31)
    (he : (op 10).toNat ≤ 1) (ho : (s.taken.stream (op 0).toNat (op 1).toNat).oldrx = false) : exec .streamkey s =
      .next ((s.taken.streamKeys (op 0).toNat (op 1).toNat (keyAt op 2) (keyAt op 6) (op 10 == 1)).cmdDone i 0 0) := by
  have hok : ¬ (decide (3 < (op 0).toNat) || decide (31 < (op 1).toNat) || decide (1 < (op 10).toNat)) = true := by
    simp only [Bool.or_eq_true, decide_eq_true_iff]
    omega
  show execStreamkey s = _
  rw [execStreamkey]
  refine withCmd_of_commanded h rfl rfl fun op' hop => ?_
  have htx : ofBytes ((List.range 4).flatMap fun m => toBytes 8 (op' (2 + m)).toNat) = keyAt op 2 :=
    congrArg ofBytes (operandBytes_congr hop fun m hm => by omega)
  have hrx : ofBytes ((List.range 4).flatMap fun m => toBytes 8 (op' (6 + m)).toNat) = keyAt op 6 :=
    congrArg ofBytes (operandBytes_congr hop fun m hm => by omega)
  dsimp only
  rw [hop 0 (by decide), hop 1 (by decide), hop 10 (by decide), if_neg hok, ho, htx, hrx]
  rfl

/-- The window that a HOSTMAP of context `t` describes. -/
def hostWindow (t : Nat) (op : Nat → Word) : Window :=
  { ctx := t, hb := (op 1).toNat, len := (op 2).toNat, vb := (op 3).toNat, rw := op 4 == 1 }

/-- HOSTMAP of a window that its tenant may set. -/
theorem exec_hostmap_of_commanded {t : Nat} (h : Commanded s (.hostmap i) i 5 (some t) op) (hw : (op 0).toNat ≤ 15)
    (h1 : (op 1).toNat % 4096 = 0) (h2 : (op 2).toNat % 4096 = 0) (h3 : (op 3).toNat % 4096 = 0) (h4 : (op 4).toNat ≤ 1)
    (ho : ∀ x, s.windows.get? (op 0).toNat = some x → x.ctx = t) : exec .hostmap s =
      .next (if (op 2).toNat == 0 then ({ s.taken with windows := s.windows.del (op 0).toNat } : State).cmdDone i 0 0
        else if s.windows.any fun p => p.1 != (op 0).toNat && p.2.meets (op 1).toNat (op 2).toNat then s.taken.cmdDone i 1 0
        else ({ s.taken with windows := s.windows.put (op 0).toNat (hostWindow t op) } : State).cmdDone i 0 0) := by
  have hok : ¬ (decide (15 < (op 0).toNat) || (op 1).toNat % 4096 != 0 || (op 2).toNat % 4096 != 0 || (op 3).toNat % 4096 != 0 ||
      decide (1 < (op 4).toNat)) = true := by
    rw [h1, h2, h3]
    simp only [bne_self_eq_false, Bool.or_false, Bool.or_eq_true, decide_eq_true_iff]
    omega
  have hown : ¬ (s.taken.windows.get? (op 0).toNat).any (fun x => x.ctx != t) = true := by
    simp only [Option.any_eq_true, bne_iff_ne, not_exists, not_and, not_not]
    exact ho
  show execHostmap s = _
  rw [execHostmap]
  refine withCmd_of_commanded h rfl rfl fun op' hop => ?_
  dsimp only
  rw [hop 0 (by decide), hop 1 (by decide), hop 2 (by decide), hop 3 (by decide), hop 4 (by decide), if_neg hok]
  exact if_neg hown

end

/-! ### Commands that are refused -/

/-- The commands of slot `i`, with the instruction that carries each out. -/
def commandsOf (i : Nat) : List (Instr × Event) :=
  [(.create, .create i), (.addcore, .addcore i), (.remcore, .remcore i), (.setquota, .setquota i), (.grant, .grant i),
    (.install, .install i), (.revoke, .revoke i), (.sharekey, .sharekey i), (.stop, .stop i), (.destroy, .destroy i),
    (.exportKeys, .exportKeys i), (.importKeys, .importKeys i), (.attest, .attest i), (.streamkey, .streamkey i),
    (.hostmap, .hostmap i)]

/-- The instruction opens the command of slot `i` that is at hand for its event. -/
def Opens (s : State) (i : Nat) (p : Instr × Event) : Prop :=
  ∃ get who n body, exec p.1 s = withCmd s get who n body ∧ get p.2 = some i

/-- A command without later stages is opened. -/
theorem opens_of_exec {s : State} {i : Nat} {x : Instr} {e : Event} {get : Event → Option Nat} {who : Issuer} {n : Nat}
    {body : State → Nat → Option Nat → (Nat → Word) → State} (h : exec x s = withCmd s get who n body) (hget : get e = some i) :
    Opens s i (x, e) := ⟨get, who, n, body, h, hget⟩

/-- In no later stage, each of the commands is opened. -/
theorem opens_of_mem {s : State} {i : Nat} {p : Instr × Event} (hp : p ∈ commandsOf i) (hst : s.tcstage = 0) : Opens s i p := by
  have staged {get : Event → Option Nat} {later : Nat → Out} {first : Out} : (match cmdOf s get with
    | some i => later i
    | none => first) = first := by rw [cmdOf_of_zero hst]
  simp only [commandsOf, List.mem_cons, List.not_mem_nil, or_false] at hp
  obtain rfl | rfl | rfl | rfl | rfl | rfl | rfl | rfl | rfl | rfl | rfl | rfl | rfl | rfl | rfl := hp
  · exact opens_of_exec staged rfl
  · exact opens_of_exec (rfl : execAddcore s = _) rfl
  · exact opens_of_exec (rfl : execRemcore s = _) rfl
  · exact opens_of_exec (rfl : execSetquota s = _) rfl
  · exact opens_of_exec (rfl : execGrant s = _) rfl
  · exact opens_of_exec (rfl : execInstall s = _) rfl
  · exact opens_of_exec staged rfl
  · exact opens_of_exec staged rfl
  · exact opens_of_exec staged rfl
  · exact opens_of_exec staged rfl
  · exact opens_of_exec (rfl : execExportKeys s = _) rfl
  · exact opens_of_exec staged rfl
  · exact opens_of_exec (rfl : execAttest s = _) rfl
  · exact opens_of_exec (rfl : execStreamkey s = _) rfl
  · exact opens_of_exec (rfl : execHostmap s = _) rfl

theorem exec_of_malformed {s : State} {i : Nat} {p : Instr × Event} (hp : Opens s i p) (he : s.event = some p.2)
    (hbad : cmdBad (((s.cmdWords i)[0]?).getD 0) = true ∨ commandOf (cmdCode (((s.cmdWords i)[0]?).getD 0)) i ≠ some p.2) :
    exec p.1 s = .next (s.taken.cmdDone i 4 0) := by
  obtain ⟨get, who, n, body, hexec, hget⟩ := hp
  rw [hexec]
  by_cases hc : commandOf (cmdCode (((s.cmdWords i)[0]?).getD 0)) i = some p.2
  · exact withCmd_refused he hget hc (if_pos (hbad.resolve_right (not_not.2 hc)))
  · exact withCmd_unnamed he hget hc

theorem exec_of_unopened {s : State} {i : Nat} {p : Instr × Event} (hp : Opens s i p) (he : s.event = some p.2)
    (hok : cmdBad (((s.cmdWords i)[0]?).getD 0) = false) (hc : commandOf (cmdCode (((s.cmdWords i)[0]?).getD 0)) i = some p.2)
    (ht : cmdTenant (((s.cmdWords i)[0]?).getD 0) = true) (hs : s.sessions.get? (cmdSess (((s.cmdWords i)[0]?).getD 0)) = none) :
    exec p.1 s = .next (s.taken.cmdDone i 1 0) := by
  obtain ⟨get, who, n, body, hexec, hget⟩ := hp
  have hopen : s.taken.openCmd i = .error 1 := by
    have hok : ¬ cmdBad (((s.taken.cmdWords i)[0]?).getD 0) = true := Bool.eq_false_iff.1 hok
    have ht : ¬ (!(cmdTenant (((s.taken.cmdWords i)[0]?).getD 0))) = true := by
      rw [Bool.not_eq_true', Bool.not_eq_false]
      exact ht
    have hs : s.taken.sessions.get? (cmdSess (((s.taken.cmdWords i)[0]?).getD 0)) = none := hs
    rw [State.openCmd, if_neg hok, if_neg ht, hs]
  rw [hexec]
  exact withCmd_refused he hget hc hopen

/-- Settles O59: each command by its own lemma, the refused ones by what their slot holds. -/
theorem trustRegistryCommands : Obligations.TrustRegistryCommands := by
  refine ⟨fun s i t op n h h43 h16 ht hl hg hn hfree hfirst => ?grant, fun s i t op e h hn he ht hc => ?install,
    fun s i t op e => exec_revoke_of_commanded, fun s i => exec_revoke_of_cleared, fun s i t op h hl ht hk hr => ?attest,
    fun s i op h hg hn he ho => ?streamkey, fun s i t op h hw h1 h2 h3 h4 ho => ?hostmap, fun s i p hp he hst => ?refused⟩
  case grant =>
    subst ht
    exact exec_grant_of_commanded h h43 h16 hl hg (find_free_stile hn hfree hfirst)
  case install =>
    subst ht
    exact exec_install_of_commanded h hn he hc
  case attest =>
    have hleaf := State.attReady_attLeaf (s := s.taken) hk
    obtain ⟨x, hx, hctx⟩ := s.taken.attReady.attested_session i (op 4).toNat (op 5).toNat
      ((List.range 4).flatMap fun j => toBytes 8 (op j).toNat)
    have hwords : s.taken.attReady.cmdWords i = s.cmdWords i := by
      rw [State.cmdWords, State.attReady_cmds]
      rfl
    rw [hwords] at hx
    refine ⟨_, exec_attest_of_commanded h hl ht hk hr, ?_, x, hx, hctx⟩
    rw [State.attested_attLeaf, hleaf]
    exact apply_ite (· + 1) _ _ _
  case streamkey =>
    have hstream := s.taken.streamKeys_stream (op 0).toNat (op 1).toNat (keyAt op 2) (keyAt op 6) (op 10 == 1)
    refine ⟨_, exec_streamkey_of_commanded h hg hn he ho, ?_⟩
    rw [hstream]
    exact ⟨rfl, rfl⟩
  case hostmap =>
    have hexec := exec_hostmap_of_commanded h hw h1 h2 h3 h4 ho
    refine ⟨fun hlen => hexec.trans (congrArg _ (if_pos ?_)), fun hlen hmeet => hexec.trans (congrArg _ ((if_neg ?_).trans (if_neg ?_)))⟩
    · rw [hlen]
      rfl
    · rw [beq_iff_eq]
      exact mt (BitVec.eq_of_toNat_eq (y := 0#64)) hlen
    · simp only [List.any_eq_true, Bool.and_eq_true, bne_iff_ne, not_exists, not_and]
      intro p hp hne
      exact Bool.eq_false_iff.1 (hmeet p hp hne)
  case refused =>
    have hopens := opens_of_mem hp hst
    exact ⟨exec_of_malformed hopens he, exec_of_unopened hopens he⟩

end Sys2Proof.Machine
end

section
/-!
Updates of one core and of one slot compose: the later one of two is left, or both become one.
-/

namespace Sys2Proof.Machine
open Sys2Proof Sys2Proof.Claims

/-! ### Updates of one core compose -/

theorem SMap.put_put {α : Type} (m : SMap α) (a : Nat) (v w : α) : (m.put a v).put a w = m.put a w := by
  induction m with
  | nil => simp [SMap.put]
  | cons x rest ih =>
    obtain ⟨k, u⟩ := x
    by_cases hk : k = a
    · simp [SMap.put, hk]
    · by_cases hlt : a < k
      · simp [SMap.put, hk, hlt]
      · simp [SMap.put, hk, hlt, ih]

theorem State.setCore_setCore (s : State) (c : Nat) (x y : Core) : (s.setCore c x).setCore c y = s.setCore c y := by
  simp only [State.setCore, SMap.put_put]

theorem State.modCore_modCore (s : State) (c : Nat) (f g : Core → Core) :
    (s.modCore c f).modCore c g = s.modCore c fun x => g (f x) := by
  simp only [State.modCore, State.core_setCore_self, State.setCore_setCore]

/-- A slot is changed within its core. -/
theorem State.modSlot_eq_modCore (s : State) (c k : Nat) (f : Slot → Slot) :
    s.modSlot c k f = s.modCore c fun x => x.setSlot k (f (x.slot k)) := rfl

theorem Core.setSlot_of_le (x : Core) {k : Nat} (y : Slot) (hk : 8 ≤ k) : x.setSlot k y = x := by
  rw [Core.setSlot, Vector.setIfInBounds_eq_of_size_le hk]

theorem Core.setSlot_setSlot (x : Core) (k : Nat) (f g : Slot → Slot) :
    (x.setSlot k (f (x.slot k))).setSlot k (g ((x.setSlot k (f (x.slot k))).slot k)) = x.setSlot k (g (f (x.slot k))) := by
  rcases lt_or_ge k 8 with hk | hk
  · rw [Core.slot_setSlot_self _ _ hk]
    simp [Core.setSlot, Vector.setIfInBounds_setIfInBounds]
  · simp only [Core.setSlot_of_le _ _ hk]

theorem State.modSlot_modSlot (s : State) (c k : Nat) (f g : Slot → Slot) :
    (s.modSlot c k f).modSlot c k g = s.modSlot c k fun x => g (f x) := by
  simp only [State.modSlot_eq_modCore, State.modCore_modCore, Core.setSlot_setSlot]

end Sys2Proof.Machine
end

section
/-!
A trap discards the sheaf in flight with whatever has been marked in it (R162, R370).
-/

namespace Sys2Proof.Machine
open Sys2Proof Sys2Proof.Claims

/-! ### A change of the flight that a discard does not see -/

section
variable {c k : Nat} {g : Flight → Flight}

theorem State.modFlight_eq_modCore (s : State) (c k : Nat) (g : Flight → Flight) :
    s.modFlight c k g = s.modCore c fun x => x.setSlot k { x.slot k with fl := (x.slot k).fl.map g } := rfl

theorem State.slot_modFlight (s : State) (c k : Nat) (g : Flight → Flight) :
    (s.modFlight c k g).slot c k = { s.slot c k with fl := (s.slot c k).fl.map g } := by
  rcases lt_or_ge k 8 with hk | hk
  · rw [State.modFlight, State.slot_modSlot_self _ _ _ hk]
  · rw [State.modFlight, State.slot_modSlot_of_le _ _ _ hk, State.slot, Core.slot]
    simp [Nat.not_lt.2 hk]

theorem State.th_modFlight (s : State) (c k : Nat) (g : Flight → Flight) :
    ((s.modFlight c k g).slot c k).th = (s.slot c k).th := by
  rw [State.slot_modFlight]

theorem State.flight_modFlight (s : State) (c k : Nat) (g : Flight → Flight) :
    (s.modFlight c k g).flight c k = (s.flight c k).map g := by
  rw [State.flight, State.slot_modFlight, State.flight]

/-- A change of the core besides the flight of one of its slots, and a change of that flight. -/
theorem State.modCore_modFlight (s : State) (g : Flight → Flight) {f : Core → Core}
    (h : ∀ x : Core, f (x.setSlot k { x.slot k with fl := (x.slot k).fl.map g }) =
      (f x).setSlot k { (f x).slot k with fl := ((f x).slot k).fl.map g }) :
    (s.modFlight c k g).modCore c f = (s.modCore c f).modFlight c k g := by
  simp only [State.modFlight_eq_modCore, State.modCore_modCore, h]

theorem State.sendCancel_modFlight (s : State) (g : Flight → Flight) (run : Nat) (h : Held) :
    (s.modFlight c k g).sendCancel c k run h = (s.sendCancel c k run h).modFlight c k g := by
  unfold State.sendCancel
  cases h.home with
  | none => rfl
  | some granule =>
    have hloads : ((s.modFlight c k g).core c).loads = (s.core c).loads := by
      rw [State.modFlight_eq_modCore, State.core_modCore_self]
      rfl
    simp only [hloads, State.th_modFlight]
    split
    · exact State.modCore_modFlight s g fun _ => rfl
    · have hslot : (s.modFlight c k g).modSlot c k (fun x => { x with cancels := x.cancels + 1 }) =
          (s.modSlot c k fun x => { x with cancels := x.cancels + 1 }).modFlight c k g := by
        rw [State.modFlight, State.modFlight, State.modSlot_modSlot, State.modSlot_modSlot]
      rw [hslot]
      rfl

theorem Core.unclaim_setSlot (x : Core) (k : Nat) (g : Flight → Flight) :
    (x.setSlot k { x.slot k with fl := (x.slot k).fl.map g }).unclaim k =
      (x.unclaim k).setSlot k { (x.unclaim k).slot k with fl := ((x.unclaim k).slot k).fl.map g } := by
  simp only [Core.unclaim, Core.setSlot, Core.slot, Core.mk.injEq, and_self, and_true, true_and]
  ext1 j hj
  rcases eq_or_ne j k with rfl | hjk
  · simp [hj]
  · simp [Vector.getElem_setIfInBounds_ne, hjk.symm]

theorem State.foldl_modFlight {α : Type} {f : State → α → State}
    (h : ∀ s x, f (s.modFlight c k g) x = (f s x).modFlight c k g) (l : List α) (s : State) :
    l.foldl f (s.modFlight c k g) = (l.foldl f s).modFlight c k g :=
  List.foldl_hom (fun s : State => s.modFlight c k g) h

theorem State.modCtx_modFlight (s : State) (g : Flight → Flight) (i : Nat) (f : Ctx → Ctx) :
    (s.modFlight c k g).modCtx i f = (s.modCtx i f).modFlight c k g := rfl

/-- A change of the slot that puts another flight, or none, in the place of its own. -/
theorem State.modSlot_modFlight (s : State) (g : Flight → Flight) {f : Slot → Slot} (h : ∀ x o, f { x with fl := o } = f x) :
    (s.modFlight c k g).modSlot c k f = s.modSlot c k f := by
  rw [State.modFlight, State.modSlot_modSlot]
  exact congrArg (s.modSlot c k) (funext fun x => h x _)

/-- A trap discards the sheaf, so a change of its flight that keeps its run, its accesses and its actions is gone (R162). -/
theorem State.discard_modFlight {s : State} {fl : Flight} (hf : s.flight c k = some fl)
    (hg : (g fl).held = fl.held ∧ (g fl).run = fl.run ∧ (g fl).due = fl.due) :
    (s.modFlight c k g).discard c k = s.discard c k := by
  obtain ⟨hheld, hrun, hdue⟩ := hg
  rw [State.discard, State.discard, State.flight_modFlight, hf]
  simp only [Option.map_some, hheld, hrun, hdue]
  rw [State.foldl_modFlight fun s h => s.sendCancel_modFlight g fl.run h, State.modCore_modFlight _ g (Core.unclaim_setSlot · k g),
    State.foldl_modFlight, State.th_modFlight, State.modCtx_modFlight, State.modSlot_modFlight _ _ fun _ _ => rfl]
  intro s d
  split <;> rfl

theorem State.takeTrap_modFlight {s : State} {fl : Flight} (hf : s.flight c k = some fl)
    (hg : (g fl).held = fl.held ∧ (g fl).run = fl.run ∧ (g fl).due = fl.due) (r : TrapRec) :
    (s.modFlight c k g).takeTrap c k r = s.takeTrap c k r := by
  rw [State.takeTrap, State.discard_modFlight hf hg, State.takeTrap]
end

end Sys2Proof.Machine
end

section
/-!
Dataflow instructions keep to their own sheaf in flight (R162, R237, R281).
-/

namespace Sys2Proof.Machine
open Sys2Proof Sys2Proof.Claims

/-! ### What a dataflow instruction can do (R162, R237, R281) -/

/-- The slot holds a flight, or a trap is taken in it, or nothing happens. -/
def OwnFlight (c k : Nat) (s t : State) : Prop :=
  t = s ∨ (∃ fl, t = s.setFlight c k fl) ∨ ∃ r, t = s.takeTrap c k r

section
variable {i : Instr} {s t : State} {is : Iss}

theorem State.emit2_ownFlight (s : State) (is : Iss) (a b : Tok) : OwnFlight is.c is.k s (s.emit2 is a b) :=
  (State.emit2_cases s is a b).imp_right (Or.imp_right fun h => ⟨_, h⟩)

theorem State.trapAt_ownFlight (s : State) (is : Iss) (cause : Cause) : OwnFlight is.c is.k s (s.trapAt is cause) :=
  .inr (.inr ⟨_, rfl⟩)

/-- A mark in the flight before a result is delivered is part of the flight, and a trap discards it. -/
theorem State.emitRounded_ownFlight (hf : s.flight is.c is.k = some is.fl) (rounds : Bool) (a : Tok) :
    OwnFlight is.c is.k s (s.emitRounded is rounds a) := by
  unfold State.emitRounded
  split
  · exact s.trapAt_ownFlight is _
  cases rounds
  · exact s.emit2_ownFlight is a a
  · rcases State.emit_cases (s.modFlight is.c is.k fun fl => { fl with rounded := true }) is a with h | ⟨fl, h⟩ | h
    · refine .inr (.inl ⟨{ is.fl with rounded := true }, h.trans ?_⟩)
      have hfl : (s.slot is.c is.k).fl = some is.fl := hf
      exact State.modSlot_congr (congrArg (fun o => { s.slot is.c is.k with fl := o }) (congrArg (Option.map _) hfl))
    · exact .inr (.inl ⟨fl, h.trans (State.modSlot_modFlight s _ fun _ _ => rfl)⟩)
    · exact .inr (.inr ⟨_, h.trans (State.takeTrap_modFlight hf ⟨rfl, rfl, rfl⟩ _)⟩)

/-- Delivering results or trapping. -/
inductive Answers (s : State) (is : Iss) : Out → Prop
  | emit2 (a b : Tok) : Answers s is (.next (s.emit2 is a b))
  | rounded (r : Bool) (a : Tok) : Answers s is (.next (s.emitRounded is r a))
  | trap (cause : Cause) : Answers s is (.next (s.trapAt is cause))

theorem Answers.emit (a : Tok) : Answers s is (.next (s.emit is a)) := .emit2 a a

theorem Answers.ownFlight (hf : s.flight is.c is.k = some is.fl) (h : Answers s is (.next t)) : OwnFlight is.c is.k s t := by
  cases h with
  | emit2 a b => exact s.emit2_ownFlight is a b
  | rounded r a => exact State.emitRounded_ownFlight hf r a
  | trap cause => exact s.trapAt_ownFlight is cause

/-- Whatever the state, the instruction keeps to its own flight. -/
def Dataflow (i : Instr) : Prop := ∀ s t, exec i s = .next t → OwnFlight s.turn.core s.turn.slot s t

section
variable {body : Iss → State → Out}

theorem Dataflow.of_issue (hx : ∀ s, exec i s = issue i s body) (hb : ∀ is s, Answers s is (body is s)) : Dataflow i := by
  intro s t h
  obtain ⟨is, his, hcase⟩ := issue_next ((hx s).symm.trans h)
  obtain ⟨-, -, hc, hk, -, hf, -⟩ := State.issuer_spec his
  rw [← hc, ← hk]
  rcases hcase with ⟨-, rfl⟩ | ⟨-, -, rfl⟩ | ⟨-, -, -, rfl⟩ | ⟨-, -, -, ht⟩
  · exact .inl rfl
  · exact s.emit2_ownFlight is _ _
  · exact s.trapAt_ownFlight is _
  · exact (ht ▸ hb is s).ownFlight hf

theorem Dataflow.of_issueRaw (hx : ∀ s, exec i s = issueRaw i s body) (hb : ∀ is s, Answers s is (body is s)) : Dataflow i := by
  intro s t h
  rw [hx, issueRaw] at h
  split at h
  · cases h
  next is his =>
    obtain ⟨-, -, hc, hk, -, hf, -⟩ := State.issuer_spec his
    rw [← hc, ← hk]
    exact (h ▸ hb is s).ownFlight hf
end

theorem Dataflow.of_scalar1 {g : Word → Word} (hx : ∀ s, exec i s = scalar1 i s g) : Dataflow i :=
  Dataflow.of_issue hx fun _ _ => .emit _

theorem Dataflow.of_scalar2 {g : Word → Word → Word} (hx : ∀ s, exec i s = scalar2 i s g) : Dataflow i :=
  Dataflow.of_issue hx fun _ _ => .emit _

theorem Dataflow.of_scalar3 {g : Word → Word → Word → Word} (hx : ∀ s, exec i s = scalar3 i s g) : Dataflow i :=
  Dataflow.of_issue hx fun _ _ => .emit _

theorem Dataflow.of_withFormat {body : Iss → State → Nat → Out} (hx : ∀ s, exec i s = withFormat i s body)
    (hb : ∀ is s c, Answers s is (body is s c)) : Dataflow i := by
  refine Dataflow.of_issue hx fun is s => ?_
  split
  · split
    · exact hb is s _
    · exact .trap _
  · exact .trap _

theorem Dataflow.of_withFormats {body : Iss → State → Nat → Nat → Out} (hx : ∀ s, exec i s = withFormats i s body)
    (hb : ∀ is s a b, Answers s is (body is s a b)) : Dataflow i := by
  refine Dataflow.of_issue hx fun is s => ?_
  split
  · split
    · split
      · exact hb is s _ _
      · exact .trap _
    · exact .trap _
  · exact .trap _

theorem Dataflow.of_vec1 {r : Nat → Bool} {g : Nat → RMode → Bool → Nat → Nat} (hx : ∀ s, exec i s = vec1 i s r g) : Dataflow i :=
  Dataflow.of_withFormat hx fun _ _ _ => .rounded _ _

theorem Dataflow.of_vec2 {r : Nat → Bool} {g : Nat → RMode → Bool → Nat → Nat → Nat} (hx : ∀ s, exec i s = vec2 i s r g) :
    Dataflow i := Dataflow.of_withFormat hx fun _ _ _ => .rounded _ _

theorem Dataflow.of_vec3 {g : Nat → RMode → Bool → Nat → Nat → Nat → Nat} (hx : ∀ s, exec i s = vec3 i s g) : Dataflow i :=
  Dataflow.of_withFormat hx fun _ _ _ => .rounded _ _

theorem Dataflow.of_reduceVec {r : Bool} {g : Nat → RMode → Bool → Nat → Nat → Nat} {fin : Nat → Nat → Nat}
    (hx : ∀ s, exec i s = reduceVec i s r g fin) : Dataflow i := by
  refine Dataflow.of_withFormat hx fun is s c => ?_
  dsimp only
  split
  · exact .emit _
  · exact .rounded _ _

end

theorem Dataflow.vext (f : Form) : Dataflow (.vext f) := by
  refine Dataflow.of_withFormat (fun _ => rfl) fun is s c => ?_
  dsimp only
  split
  · exact .emit _
  · exact .emit _

theorem Dataflow.vqshuf (f : Form) : Dataflow (.vqshuf f) := by
  refine Dataflow.of_withFormat (fun _ => rfl) fun is s c => ?_
  dsimp only
  split
  · exact .trap _
  · exact .emit _

/-- Settles O14, by the shape of each instruction's meaning. -/
theorem dataflowFrame : Obligations.DataflowFrame := by
  intro f
  suffices h : ∀ i ∈ _, Dataflow i from h
  simp only [List.forall_mem_cons, List.not_mem_nil, false_imp_iff, implies_true, and_true]
  exact ⟨.of_issueRaw (fun _ => rfl) fun _ _ => .emit _, .of_issue (fun _ => rfl) fun _ _ => .emit _,
    .of_issueRaw (fun _ => rfl) fun _ _ => .emit _, .of_scalar2 fun _ => rfl, .of_scalar2 fun _ => rfl,
    .of_scalar2 fun _ => rfl, .of_scalar2 fun _ => rfl, .of_scalar2 fun _ => rfl, .of_scalar2 fun _ => rfl,
    .of_scalar2 fun s => (rfl : execAndn f s = _), .of_scalar1 fun _ => rfl, .of_scalar2 fun _ => rfl,
    .of_scalar2 fun _ => rfl, .of_scalar2 fun _ => rfl, .of_scalar3 fun s => (rfl : execSel f s = _),
    .of_scalar2 fun _ => rfl, .of_scalar2 fun _ => rfl, .of_scalar2 fun _ => rfl, .of_scalar2 fun _ => rfl,
    .of_scalar2 fun _ => rfl, .of_scalar2 fun _ => rfl, .of_scalar2 fun _ => rfl, .of_scalar2 fun _ => rfl,
    .of_scalar1 fun _ => rfl, .of_scalar2 fun _ => rfl, .of_scalar2 fun _ => rfl, .of_scalar2 fun _ => rfl,
    .of_scalar2 fun _ => rfl, .of_scalar2 fun _ => rfl, .of_scalar2 fun _ => rfl, .of_scalar2 fun _ => rfl,
    .of_scalar2 fun _ => rfl, .of_scalar2 fun _ => rfl, .of_scalar2 fun _ => rfl, .of_scalar2 fun _ => rfl,
    .of_scalar1 fun _ => rfl, .of_scalar1 fun _ => rfl, .of_scalar1 fun _ => rfl, .of_scalar1 fun _ => rfl,
    .of_scalar1 fun _ => rfl, .of_scalar1 fun _ => rfl, .of_scalar1 fun _ => rfl, .of_scalar1 fun _ => rfl,
    .of_scalar2 fun _ => rfl, .of_scalar3 fun _ => rfl, .of_scalar2 fun _ => rfl, .of_scalar1 fun _ => rfl,
    .of_scalar2 fun _ => rfl, .of_scalar2 fun _ => rfl, .of_issue (fun _ => rfl) fun _ _ => .emit2 _ _,
    .of_scalar2 fun _ => rfl, .of_scalar2 fun _ => rfl, .of_scalar2 fun _ => rfl,
    .of_scalar1 fun s => (rfl : execKget f s = _), .of_vec2 fun _ => rfl, .of_vec2 fun _ => rfl, .of_vec2 fun _ => rfl,
    .of_vec3 fun _ => rfl, .of_vec3 fun _ => rfl, .of_vec2 fun _ => rfl, .of_vec2 fun _ => rfl, .of_vec1 fun _ => rfl,
    .of_vec1 fun _ => rfl, .of_vec1 fun _ => rfl, .of_vec1 fun _ => rfl, .of_vec1 fun _ => rfl, .of_vec1 fun _ => rfl,
    .of_vec2 fun s => (rfl : execVand f s = _), .of_vec2 fun s => (rfl : execVor f s = _),
    .of_vec2 fun s => (rfl : execVxor f s = _), .of_vec2 fun _ => rfl, .of_vec2 fun _ => rfl, .of_vec2 fun _ => rfl,
    .of_withFormat (fun _ => rfl) fun _ _ _ => .emit _, .of_withFormat (fun _ => rfl) fun _ _ _ => .emit _,
    .of_reduceVec fun _ => rfl, .of_reduceVec fun s => (rfl : execVredmax f s = _),
    .of_withFormat (fun _ => rfl) fun _ _ _ => .rounded _ _, .of_withFormats (fun _ => rfl) fun _ _ _ _ => .rounded _ _,
    .of_withFormats (fun _ => rfl) fun _ _ _ _ => .rounded _ _, .of_withFormat (fun _ => rfl) fun _ _ _ => .emit _,
    .of_withFormat (fun _ => rfl) fun _ _ _ => .emit _, .of_withFormat (fun _ => rfl) fun _ _ _ => .emit _, .vext f,
    .of_withFormat (fun _ => rfl) fun _ _ _ => .emit _, .of_withFormats (fun _ => rfl) fun _ _ _ _ => .rounded _ _,
    .of_withFormats (fun _ => rfl) fun _ _ _ _ => .rounded _ _, .of_withFormat (fun _ => rfl) fun _ _ _ => .emit _,
    .vqshuf f⟩

end Sys2Proof.Machine
end

section
/-!
The instructions that access no memory as they fire leave it alone (R162); a lookup that the croft cache answers reads none
(R345, R416).
-/

namespace Sys2Proof.Machine
open Sys2Proof Sys2Proof.Claims

/-! ### A trap leaves no sheaf in flight (R162, R370) -/

theorem State.orFree_cores (s : State) (w : Option Word) : (s.orFree w).2.cores = s.cores := by
  cases w <;> rfl

theorem State.bankOf_cores (s : State) (n : Word) (r : TrapRec) : (s.bankOf n r).2.cores = s.cores := by
  simp only [State.bankOf, State.orFree_cores]

theorem State.supvMsg_cores (s : State) (src : Nat × Nat) (ctx type : Nat) (core slot low : Option Nat) (w1 w2 w3 : Option Word) :
    (s.supvMsg src ctx type core slot low w1 w2 w3).cores = s.cores := by
  simp only [State.supvMsg, State.supvSend, State.postMgmt, State.post_cores, State.orFree_cores]

theorem State.orphans_cores (s : State) (c k ctx : Nat) (rs : List TrapRec) : (s.orphans c k ctx rs).cores = s.cores :=
  foldl_keeps State.cores (fun s _ => s.supvMsg_cores ..) _ s

/-- What a slot holds depends on the cores alone. -/
theorem State.slot_congr {s u : State} (h : s.cores = u.cores) (c k : Nat) : s.slot c k = u.slot c k := by
  rw [State.slot, State.core, h, State.slot, State.core]

theorem Core.fl_slot_setSlot (x : Core) (k : Nat) {y : Slot} (h : y.fl = none) : ((x.setSlot k y).slot k).fl = none := by
  rcases lt_or_ge k 8 with hk | hk
  · rw [Core.slot_setSlot_self _ _ hk, h]
  · simp [Core.slot, Core.setSlot, Nat.not_lt.2 hk]

/-- A change of a core that leaves a slot without a flight. -/
theorem State.flight_modCore_none (s : State) {c k : Nat} {f : Core → Core} (h : ∀ x, ((f x).slot k).fl = none) :
    (s.modCore c f).flight c k = none := by
  rw [State.flight, State.slot, State.core_modCore_self, h]

theorem State.discard_flight (s : State) (c k : Nat) : (s.discard c k).flight c k = none := by
  unfold State.discard
  split
  · assumption
  · exact State.flight_modCore_none _ fun x => x.fl_slot_setSlot k rfl

theorem State.flight_modThread (s : State) (c k : Nat) (g : Thread → Thread) : (s.modThread c k g).flight c k = s.flight c k := by
  rcases lt_or_ge k 8 with hk | hk
  · rw [State.flight, State.modThread, State.slot_modSlot_self _ _ _ hk, State.flight]
  · rw [State.flight, State.modThread, State.slot_modSlot_of_le _ _ _ hk, State.flight]

theorem State.takeTrap_flight (s : State) (c k : Nat) (r : TrapRec) : (s.takeTrap c k r).flight c k = none := by
  have hbank (n : Word) : ((s.discard c k).bankOf n r).2.flight c k = none :=
    (congrArg Slot.fl (State.slot_congr (State.bankOf_cores ..) c k)).trans (s.discard_flight c k)
  unfold State.takeTrap
  dsimp only
  split
  · exact State.flight_modCore_none _ fun x => Core.fl_slot_setSlot _ k rfl
  · split
    · rw [State.flight, State.slotMsg, State.slot_congr (State.supvMsg_cores ..) c k]
      exact (State.flight_modThread ..).trans (hbank _)
    · rw [State.flight_modThread, hbank]

/-! ### A hit of the croft cache reads no memory (R345, R416) -/

theorem State.lookup_of_hit {s : State} {c ctx : Nat} {k : Word} (h : s.croftHit c ctx k = true) :
    (s.lookup c ctx k false).1 = s := by
  obtain ⟨e, he, hp⟩ := List.any_eq_true.1 h
  have hfind : ((s.core c).crofts.find? fun e => e.ctx == ctx && kPath k / 4 ^ (32 - e.depth) == e.path).isSome :=
    List.find?_isSome.2 ⟨e, he, hp⟩
  obtain ⟨x, hx⟩ := Option.isSome_iff_exists.1 hfind
  simp only [State.lookup, Bool.false_eq_true, if_false, hx]
  split <;> rfl

theorem State.ownerAnswer_mem_of_hit {s : State} (t : Tag) {k : Word}
    (h : s.flight t.core t.slot ≠ none → s.croftHit t.core (s.slot t.core t.slot).th.ctx k = true) :
    (s.ownerAnswer t k).mem = s.mem := by
  unfold State.ownerAnswer
  split
  · rfl
  next fl hf =>
    split
    · rfl
    split
    · rfl
    have hlook := State.lookup_of_hit (h (by simp [hf]))
    dsimp only
    split
    · rw [State.fault_mem, State.modFlight_mem, hlook]
    split
    · split
      · rw [State.fault_mem, State.modFlight_mem, hlook]
      · rw [State.modFlight_mem, State.modFlight_mem, hlook]
    · rw [State.modFlight_mem, State.modFlight_mem, hlook]

/-- Asking for the owner in the context of the slot's thread. -/
theorem State.askOwner_mem {s : State} (t : Tag) {ctx : Nat} (k : Word)
    (h : s.flight t.core t.slot = none ∨ (s.slot t.core t.slot).th.ctx = ctx) : (s.askOwner t ctx k).mem = s.mem := by
  unfold State.askOwner
  split
  next hhit =>
    refine State.ownerAnswer_mem_of_hit t fun hf => ?_
    rw [h.resolve_left hf, hhit]
  · exact s.due_mem _

theorem State.th_setFlight (s : State) (c k : Nat) (fl : Flight) : ((s.setFlight c k fl).slot c k).th = (s.slot c k).th := by
  rcases lt_or_ge k 8 with hk | hk
  · rw [State.setFlight, State.slot_modSlot_self _ _ _ hk]
  · rw [State.setFlight, State.slot_modSlot_of_le _ _ _ hk]

/-- After a change of its flight a slot has its thread as before, or has trapped. -/
theorem State.withFlight_th (s : State) (c k : Nat) (g : Flight → Option Flight) :
    (s.withFlight c k g).flight c k = none ∨ ((s.withFlight c k g).slot c k).th = (s.slot c k).th := by
  rcases s.withFlight_cases c k g with h | ⟨fl, h⟩ | h <;> rw [h]
  · exact .inr rfl
  · exact .inr (s.th_setFlight c k fl)
  · exact .inl (s.takeTrap_flight c k _)

theorem State.fire_th (s : State) (is : Iss) :
    (s.fire is).flight is.c is.k = none ∨ ((s.fire is).slot is.c is.k).th = (s.slot is.c is.k).th := s.withFlight_th ..

theorem State.emitDue_th (s : State) (is : Iss) (t : Tok) (a : Act) :
    (s.emitDue is t a).flight is.c is.k = none ∨ ((s.emitDue is t a).slot is.c is.k).th = (s.slot is.c is.k).th :=
  (State.withFlight_th ..).imp_right fun h => h.trans (s.th_modFlight ..)

theorem State.resolveReg_mem {s : State} {is : Iss} (hth : is.th = (s.slot is.c is.k).th) (reg : Reg) (t : Tok) :
    (s.resolveReg is reg t).mem = s.mem := by
  unfold State.resolveReg
  split
  · exact s.fault_mem ..
  split
  · exact s.trapAt_mem ..
  dsimp only
  split
  · rw [State.askOwner_mem]
    · simp
    · refine (State.fire_th _ is).imp_right fun h => ?_
      rw [h, State.th_modFlight, State.th_modFlight, Iss.ctx, hth]
  · simp

theorem execWrite_mem (f : Form) (s t : State) (h : execWrite f s = .next t) : t.mem = s.mem := by
  unfold execWrite at h
  split at h
  · obtain ⟨is, -, hcase⟩ := issue_next h
    rcases hcase with ⟨-, rfl⟩ | ⟨-, -, rfl⟩ | ⟨-, -, -, rfl⟩ | ⟨-, -, -, ht⟩
    · rfl
    · exact s.emit_mem ..
    · exact s.trapAt_mem ..
    · cases ht
      exact rnwrite_mem is s
  · unfold issueRaw at h
    split at h
    · cases h
    next is his =>
      obtain ⟨-, -, -, -, -, -, hth, -⟩ := State.issuer_spec his
      split at h
      · split at h <;> cases h
        · exact State.resolveReg_mem hth _ _
        · exact s.fire_mem _
      · cases h
        exact s.fire_mem _

theorem execSpawnb_mem (f : Form) (s t : State) (h : execSpawnb f s = .next t) : t.mem = s.mem := by
  unfold execSpawnb issueWhen at h
  obtain ⟨is, his, hcase⟩ := issue_next h
  obtain ⟨-, -, -, -, -, -, hth, -⟩ := State.issuer_spec his
  rcases hcase with ⟨-, rfl⟩ | ⟨-, -, rfl⟩ | ⟨-, -, -, rfl⟩ | ⟨-, -, -, ht⟩
  · rfl
  · exact s.emit_mem ..
  · exact s.trapAt_mem ..
  dsimp only at ht
  split at ht
  · cases ht
    rfl
  split at ht
  · cases ht
    exact s.trapAt_mem ..
  split at ht
  · cases ht
    exact s.trapAt_mem ..
  cases ht
  rw [State.askOwner_mem]
  · simp
  · refine (State.emitDue_th _ is _ _).imp_right fun h => ?_
    rw [h, State.th_modFlight, Iss.ctx, hth]
    exact congrArg (·.th.ctx) (s.slot_modCore (c := is.c) (g := Core.takeSerial) rfl is.c is.k)

/-- Settles O15: each instruction of the list keeps the whole memory. -/
theorem memoryFrame : Obligations.MemoryFrame := by
  intro f i hi s t h a
  suffices hmem : ∀ i ∈ _, ∀ s t, exec i s = .next t → t.mem = s.mem by rw [hmem i hi s t h]
  simp only [List.forall_mem_cons, List.not_mem_nil, false_imp_iff, implies_true, and_true]
  exact ⟨execRead_mem f, execWrite_mem f, execMov_mem f, execConst_mem f, execNull_mem f, execAdd_mem f, execSub_mem f,
    execMul_mem f, execAnd_mem f, execOr_mem f, execXor_mem f, execAndn_mem f, execNot_mem f, execShl_mem f, execShr_mem f,
    execSar_mem f, execSel_mem f, execTeq_mem f, execTne_mem f, execTlt_mem f, execTle_mem f, execTltu_mem f,
    execTleu_mem f, execPand_mem f, execPor_mem f, execPnot_mem f, execBr_mem f, execBri_mem f, execCall_mem f,
    execRet_mem f, execExit_mem f, execMulh_mem f, execMulhu_mem f, execDiv_mem f, execDivu_mem f, execRem_mem f,
    execRemu_mem f, execRot_mem f, execMin_mem f, execMax_mem f, execMinu_mem f, execMaxu_mem f, execAbs_mem f,
    execNeg_mem f, execClz_mem f, execCtz_mem f, execPopc_mem f, execBrev_mem f, execSext_mem f, execZext_mem f,
    execQdig_mem f, execQset_mem f, execQtrunc_mem f, execQparent_mem f, execQchild_mem f, execQinter_mem f,
    execQsplit_mem f, execQdepth_mem f, execQnext_mem f, execFence_mem f, execXfence_mem f, execVadd_mem f, execVsub_mem f,
    execVmul_mem f, execVfma_mem f, execVfms_mem f, execVmin_mem f, execVmax_mem f, execVabs_mem f, execVneg_mem f,
    execVrcp_mem f, execVrsq_mem f, execVexp2_mem f, execVlog2_mem f, execVand_mem f, execVor_mem f, execVxor_mem f,
    execVshl_mem f, execVshr_mem f, execVsar_mem f, execVcmp_mem f, execVsel_mem f, execVredsum_mem f, execVredmax_mem f,
    execVdot_mem f, execVcvt_mem f, execVscale_mem f, execVpack_mem f, execVunpack_mem f, execVperm_mem f,
    execVbcast_mem f, execVins_mem f, execVext_mem f, execVqshuf_mem f, execVtrn_mem f, execViota_mem f, execRkalloc_mem f,
    execRkpin_mem f, execRkunpin_mem f, execRkrev_mem f, execRkqry_mem f, execMma_mem f, execMmaz_mem f, execMdrain_mem f,
    execMring_mem f, execMtail_mem f, execMcnt_mem f, execMthr_mem f, execMwgt_mem f, execMbxw_mem f, execMbxr_mem f,
    execWaitany_mem f, execWaitall_mem f, execFfr_mem f, execTagclr_mem f, execRnunbind_mem f, execSend_mem f,
    execSendOrd_mem f, execWaitmsg_mem f, execMsgpop_mem f, execSpawn_mem f, execSpawnb_mem f, execKset_mem f,
    execKget_mem f, execNbr_mem f, execNbrn_mem f, execFjoin_mem f, execFleave_mem f, execFbar_mem f, execTblk_mem f,
    execTubl_mem f, execTset_mem f, execYield_mem f, execPark_mem f, execDone_mem f, execSetrnd_mem f, execTrap_mem f,
    execTret_mem f, execCtlget_mem f, execCtlset_mem f, execHalt_mem f, execPreempt_mem f⟩

end Sys2Proof.Machine
end

section
/-!
A null token on a port of an instruction (R159; log 46).
-/

namespace Sys2Proof.Machine
open Sys2Proof Sys2Proof.Claims

/-- An instruction that is issued answers a null token there (R159). -/
theorem exec_of_null {i : Instr} {body : Iss → State → Out} (hx : ∀ s, exec i s = issue i s body) {s : State} {is : Iss}
    (h : s.issuer i = some is) (hb : is.fl.heldBack is.th is.pos = false) (hn : is.anyNull = true) :
    exec i s = .next (s.emit is .null) := by
  rw [hx, issue_of_null h hb hn]

/-- MOV sees null tokens itself, and passes them on. -/
theorem exec_mov_of_null {f : Form} {s : State} {is : Iss} (h : s.issuer (.mov f) = some is) (hn : is.anyNull = true) :
    exec (.mov f) s = .next (s.emit is .null) := by
  show execMov f s = _
  rw [execMov, issueRaw_of_issuer h, if_pos hn]

/-- Settles O13: every instruction of the list is issued, but for MOV, which sees null tokens itself. -/
theorem nullTokenFiresWithoutEffect : Obligations.NullTokenFiresWithoutEffect := by
  intro f k i hi s is h hb hn
  fin_cases hi
  any_goals exact exec_of_null (fun _ => rfl) h hb hn
  exact exec_mov_of_null h hn

end Sys2Proof.Machine
end

section
/-!
A step runs the instruction at the place of its turn, or one of two candidates (R157; logs 2 to 4).
-/

namespace Sys2Proof.Machine
open Sys2Proof Sys2Proof.Claims

theorem State.pick_of_pair {s : State} {a b : Cand} (h : s.cands = [a, b]) :
    s.pick = (some (if Config.choice s.fresh % 2 = 0 then a else b), { s with fresh := s.fresh + 1 }) := by
  simp only [State.pick, h, List.length_cons, List.length_nil, Nat.zero_add, Nat.reduceAdd]
  rcases Nat.mod_two_eq_zero_or_one (Config.choice s.fresh) with h0 | h1
  · rw [h0, if_pos rfl]
    rfl
  · rw [h1, if_neg Nat.one_ne_zero]
    rfl

/-- Settles O7: the only candidate is prepared; of two, the free choice decides. -/
theorem stepRunsTheDecodedInstruction : Obligations.StepRunsTheDecodedInstruction := by
  refine ⟨fun s c k pos fl i hcands hf hi => ?issue, fun s e rest hp hcands => ?due⟩
  case issue =>
    rw [step_of_pick (State.pick_of_singleton hcands) (by simp)]
    simp only [State.prepare, hf, Option.bind_some, hi, Option.getD_some]
  case due =>
    have hpick := State.pick_of_pair hcands
    dsimp only
    split
    next hc =>
      rw [if_pos hc] at hpick
      rw [step_of_pick hpick (by simp)]
      simp only [State.prepare, hp, List.tail_cons]
    next hc =>
      rw [if_neg hc] at hpick
      exact step_of_pick_clock hpick

end Sys2Proof.Machine
end

section
/-!
Exits and disposals (R160, R254, R255, R358, R359, R375).
-/

namespace Sys2Proof.Machine
open Sys2Proof Sys2Proof.Claims

theorem exec_of_fires {i : Instr} {s : State} {is : Iss} {body : Iss → State → Out} (h : Fires i s is)
    (hx : exec i s = issue i s body) : exec i s = body is s := hx.trans (issue_body_of_fires h)

/-! ### Exits and disposals (R160, R254, R255, R358, R359, R375) -/

section
variable {s : State} {is : Iss}

theorem State.exitTo_of_second (target : Word) (res : Option Tok) (h : is.fl.exit_.isSome = true) :
    s.exitTo is target res = s.fault is.c is.k .multipleExit := if_pos h

theorem State.exitTo_of_first (target : Word) (h : is.fl.exit_ = none) :
    s.exitTo is target none = (s.modFlight is.c is.k fun fl => { fl with exit_ := some target }).fire is := by
  rw [State.exitTo, h]
  rfl

theorem State.exitTo_result_of_first (target : Word) (t : Tok) (h : is.fl.exit_ = none) :
    s.exitTo is target (some t) = (s.modFlight is.c is.k fun fl => { fl with exit_ := some target }).emit is t := by
  rw [State.exitTo, h]
  rfl

theorem State.dispose_of_second (d : Dispo) (h : is.fl.dispo.isSome = true) :
    s.dispose is d = s.fault is.c is.k .multipleExit := if_pos h

theorem State.dispose_of_first (d : Dispo) (h : is.fl.dispo = none) :
    s.dispose is d = (s.modFlight is.c is.k fun fl => { fl with dispo := some d }).fire is := by
  rw [State.dispose, h]
  rfl

/-- The fall-through offset, as an integer (R255). -/
theorem fallThrough_eq (n : Word) (size : Nat) : fallThrough n size = n + ofZ (((size : Int) + 15) / 16 * 16) := by
  have hcast : ((size : Int) + 15) / 16 * 16 = ((size + 15) / 16 * 16 : Nat) := by omega
  rw [hcast, fallThrough, ofZ, BitVec.ofInt_natCast]
  rfl

theorem exec_trap_of_fires {f : Form} (h : Fires (.trap f) s is) : exec (.trap f) s =
    if 256 ≤ is.lw.toNat then .next (s.trapAt is .badControlValue) else .next (s.dispose is (.softTrap is.lw)) := by
  refine (exec_of_fires h (rfl : execTrap f s = _)).trans (if_congr ?_ rfl rfl)
  exact field_high_ne_zero_iff is.lw (lo := 8) rfl

theorem exec_migrate_of_rooted {f : Form} (h : Fires (.migrate f) s is) (hb : is.burr = false) :
    exec (.migrate f) s = .next (s.trapAt is .burrOnly) := by
  refine (exec_of_fires h (rfl : execMigrate f s = _)).trans ?_
  rw [hb]
  rfl

theorem exec_migrate_of_burr {f : Form} {t : State} {l : Leaf} (h : Fires (.migrate f) s is) (hb : is.burr = true)
    (ha : is.lw.toNat < 2 ^ 56) (hx : s.xlate is.xer is.ctx is.lw.toNat = (t, .ok l)) :
    exec (.migrate f) s = .next (t.dispose is (.migrate
      ((if l.kind == 2 then none else t.followOwner (t.leafPa l is.lw.toNat)).getD is.c) true)) := by
  refine (exec_of_fires h (rfl : execMigrate f s = _)).trans ?_
  simp only [hb, Nat.not_le.2 ha, hx]
  rfl
end

/-- Settles O19: exits, then the disposals, each first or second. -/
theorem exitsAndDisposals : Obligations.ExitsAndDisposals := by
  refine ⟨fun f => ⟨fun s is h h1 => ?br, fun s is h h1 => ?ret, fun s is h h1 => ?bri, fun s is h h1 => ?exit,
    fun s is h h1 => ?call, fun s is i hi h h2 => ?second⟩, fun f s is => ⟨fun i d hi h => ?dispose, fun h hl hd => ?trap,
    fun h hl => ?badTrap, exec_migrate_of_rooted, fun h hb ha hd t l hx => ?migrate⟩⟩
  case br => rw [exec_of_fires h (rfl : execBr f s = _), State.exitTo_of_first _ h1]
  case ret => rw [exec_of_fires h (rfl : execRet f s = _), State.exitTo_of_first _ h1]
  case bri => rw [exec_of_fires h (rfl : execBri f s = _), State.exitTo_of_first _ h1]
  case exit => rw [exec_of_fires h (rfl : execExit f s = _), State.exitTo_of_first _ h1, fallThrough_eq]
  case call => rw [exec_of_fires h (rfl : execCall f s = _), State.exitTo_result_of_first _ _ h1, fallThrough_eq]
  case second =>
    have hsecond : ∃ target res, exec i s = .next (s.exitTo is target res) := by
      fin_cases hi
      · exact ⟨_, _, exec_of_fires h (rfl : execBr f s = _)⟩
      · exact ⟨_, _, exec_of_fires h (rfl : execRet f s = _)⟩
      · exact ⟨_, _, exec_of_fires h (rfl : execBri f s = _)⟩
      · exact ⟨_, _, exec_of_fires h (rfl : execExit f s = _)⟩
      · exact ⟨_, _, exec_of_fires h (rfl : execCall f s = _)⟩
    obtain ⟨target, res, hx⟩ := hsecond
    rw [hx, State.exitTo_of_second _ _ h2]
  case dispose =>
    have hx : exec i s = .next (s.dispose is d) := by
      simp only [List.mem_cons, Prod.mk.injEq, List.not_mem_nil, or_false] at hi
      rcases hi with ⟨rfl, rfl⟩ | ⟨rfl, rfl⟩ | ⟨rfl, rfl⟩ | ⟨rfl, rfl⟩ | ⟨rfl, rfl⟩
      · exact exec_of_fires h (rfl : execYield f s = _)
      · exact exec_of_fires h (rfl : execPark f s = _)
      · exact exec_of_fires h (rfl : execDone f s = _)
      · exact exec_of_fires h (rfl : execTret f s = _)
      · exact exec_of_fires h (rfl : execHalt f s = _)
    exact ⟨fun hd => by rw [hx, State.dispose_of_first _ hd], fun hd => by rw [hx, State.dispose_of_second _ hd]⟩
  case trap => rw [exec_trap_of_fires h, if_neg (by omega), State.dispose_of_first _ hd]
  case badTrap => rw [exec_trap_of_fires h, if_pos hl]
  case migrate => rw [exec_migrate_of_burr h hb ha hx, State.dispose_of_first _ hd]

end Sys2Proof.Machine
end

section
/-!
A WRITE of K and the croft cache (R240, R345, R416).
-/

namespace Sys2Proof.Machine
open Sys2Proof Sys2Proof.Claims

/-! ### A WRITE of K whose owner the croft cache gives (R416) -/

/-- WRITE of K. -/
def writeKForm : Form := { t := ⟨0, 63⟩, reg := some (2, 0) }

/-- A sheaf of this one WRITE, with K = 0 on its port. -/
def writeKFlight : Flight where
  sheaf := { hdr := default, insts := [.write writeKForm], size := 20 }
  run := 0
  nodes := [{ l := some (.sc 0) }]

/-- The sheaf in slot 0 of core 0, whose croft cache holds the croft of the whole plane, its own. -/
def writeKAtHit : State :=
  (({} : State).setSlot 0 0 { occ := true, fl := some writeKFlight }).modCore 0 fun x =>
    { x with croot := 1, crofts := [{ path := 0, depth := 0, core := 0, splt := 0, version := 0, ctx := 0 }] }

/-- The croft cache answers as the WRITE fires, so that no lookup is due. -/
theorem exec_writeKAtHit : ∃ t, exec (.write writeKForm) writeKAtHit = .next t ∧ t.pending = [] := by
  refine ⟨_, rfl, ?_⟩
  decide +kernel

/-- Refutes O20: a WRITE of K whose owner stands in the croft cache.  The statement has a lookup become due; in the model a hit
answers at once (R416, `State.askOwner`). -/
theorem not_registerReadsAndWrites : ¬ Obligations.RegisterReadsAndWrites := by
  rintro ⟨-, hwrite, -⟩
  obtain ⟨is, his⟩ : ∃ is, writeKAtHit.issuer (.write writeKForm) = some is := ⟨_, rfl⟩
  obtain ⟨-, -, -, hk⟩ := hwrite writeKForm writeKAtHit is 2 0 .k his rfl rfl
  obtain ⟨t, ht, hpending⟩ := exec_writeKAtHit
  cases his
  have hclaim := hk (List.forall_mem_nil _) rfl rfl 0 rfl
  rw [Host.Outcome.next.inj (ht.symm.trans hclaim)] at hpending
  exact absurd hpending (by decide +kernel)

end Sys2Proof.Machine
end

section
/-!
A SPAWNB and the croft cache (R345, R355, R416).
-/

namespace Sys2Proof.Machine
open Sys2Proof Sys2Proof.Claims

/-! ### A SPAWNB whose burr has its owner in the croft cache (R416) -/

/-- SPAWNB. -/
def spawnbForm : Form := { t := ⟨0, 63⟩, lsq := some (0, false) }

/-- A sheaf of this one SPAWNB, with control word 0, arguments of zeros and K = 0 on its ports. -/
def spawnbFlight : Flight where
  sheaf := { hdr := default, insts := [.spawnb spawnbForm], size := 20 }
  run := 0
  nodes := [{ l := some (.sc 0), r := some (.ve 0 0), x := some (.sc 0) }]

/-- The sheaf in slot 0 of core 0, whose channel 0 takes burrs and whose croft cache holds the croft of the whole plane, its
own. -/
def spawnbAtHit : State :=
  (({} : State).setSlot 0 0 { occ := true, fl := some spawnbFlight }).modCore 0 fun x =>
    { x with serial := 1, tchan := [(0, 0xC000000000000000)], croot := 1,
             crofts := [{ path := 0, depth := 0, core := 0, version := 0, ctx := 0 }] }

/-- The croft cache answers as the SPAWNB fires, so that no lookup is due. -/
theorem exec_spawnbAtHit : ∃ t, exec (.spawnb spawnbForm) spawnbAtHit = .next t ∧ t.pending = [] := by
  refine ⟨_, rfl, ?_⟩
  decide +kernel

/-- Refutes O39: a SPAWNB whose owner stands in the croft cache.  The statement has a lookup become due; in the model a hit
answers at once (R416, `State.askOwner`). -/
theorem not_spawning : ¬ Obligations.Spawning := by
  intro h
  obtain ⟨is, his⟩ : ∃ is, spawnbAtHit.issuer (.spawnb spawnbForm) = some is := ⟨_, rfl⟩
  obtain ⟨-, -, -, -, -, hspawnb⟩ := h spawnbForm spawnbAtHit is
  obtain ⟨t, ht, hpending⟩ := exec_spawnbAtHit
  cases his
  have hclaim := hspawnb ⟨rfl, rfl, rfl, rfl⟩ rfl rfl rfl
  rw [Host.Outcome.next.inj (ht.symm.trans hclaim)] at hpending
  exact absurd hpending (by decide +kernel)

end Sys2Proof.Machine
end

section
/-!
A pad of a held load keeps what the reply gave (R263, R269).
-/

namespace Sys2Proof.Machine
open Sys2Proof Sys2Proof.Claims

/-! ### The pads of a held load (R269) -/

/-- A load of one byte at 0, LSN 1, answered with 7. -/
def padHeld : Held := { lsn := 1, pos := 1, kind := .load (.vec 1), va := 0, got := [some 7] }

/-- The store of LSN 0 that writes 5 there. -/
def padStore : Touch := { lsn := 0, kind := .store, va := 0, bytes := [some 5] }

/-- The sheaf of both: the byte is a pad of the load, which is an element form and does not read it. -/
def padFlight : Flight where
  sheaf := default
  run := 0
  nodes := []
  touch := [padStore, { lsn := 1, kind := .load, va := 0, bytes := [none], elem := true }]

/-- A pad keeps what the reply gave it. -/
theorem replay_padFlight : padFlight.replay padHeld = [7] := by decide

/-- Refutes O22: a byte that the held load does not read, a pad of an element form of QLD (R269), is not replayed
(`Flight.padAt`), though a lower-LSN store of the sheaf writes it.  The statement has every byte of an answer replayed. -/
theorem not_loadedBytesBecomeTheToken : ¬ Obligations.LoadedBytesBecomeTheToken := by
  rintro ⟨-, hreplay⟩
  obtain ⟨-, hstore⟩ := hreplay padFlight padHeld 0 7 rfl
  have honly : ∀ u ∈ padFlight.touch,
      (u.kind = .store ∧ u.lsn < padHeld.lsn ∧ u.va ≤ padHeld.va + 0 ∧
        ∃ v, u.bytes[padHeld.va + 0 - u.va]? = some (some v)) → u ≠ padStore → u.lsn < padStore.lsn := by
    intro u hu hwrites hne
    obtain rfl | rfl := List.mem_pair.mp hu
    · exact absurd rfl hne
    · exact absurd hwrites.1 (by decide)
  have h : (padFlight.replay padHeld)[0]? = some 5 :=
    hstore padStore (List.mem_cons_self ..) ⟨rfl, by decide, Nat.le_refl _, 5, rfl⟩ honly 5 rfl
  rw [replay_padFlight] at h
  exact absurd h (by decide)

end Sys2Proof.Machine
end

section
/-!
Vector elements read back; integer elements wrap or clamp (R159, R188, R198, R281, R284, R287).
-/

namespace Sys2Proof.Machine
open Sys2Proof Sys2Proof.Claims

/-! ### Integer elements (R188, R198, R284, R287) -/

/-- The codes of the integer formats are those the model takes for integers (R188). -/
theorem fmtIsInt_of_le {code : Nat} (hlo : 0x28 ≤ code) (hhi : code ≤ 0x2F) : fmtIsInt code = true := by
  simp [fmtIsInt, hlo, hhi]

theorem intBits_pos (code : Nat) : 0 < intBits code := by simp [intBits]

/-- The codes of one width are twice as many as those below its sign bit. -/
theorem two_pow_intBits (code : Nat) : 2 ^ intBits code = 2 * 2 ^ (intBits code - 1) :=
  (mul_pow_sub_one (Nat.ne_of_gt (intBits_pos code)) 2).symm

theorem signed_modEq (n v : Nat) : signed n v ≡ v [ZMOD (2 ^ n : Nat)] := by
  unfold signed
  split
  · exact Int.ModEq.refl _
  · simp [Int.ModEq]

/-- The exact integer of an integer code stands for the code itself, modulo its width. -/
theorem intValue_modEq (code v : Nat) : intValue code v ≡ v [ZMOD (2 ^ intBits code : Nat)] := by
  have hmod : ((v % 2 ^ intBits code : Nat) : Int) ≡ v [ZMOD (2 ^ intBits code : Nat)] := by
    rw [Int.natCast_emod]; exact Int.mod_modEq _ _
  unfold intValue
  split
  · exact (signed_modEq _ _).trans hmod
  · exact hmod

theorem intValue_of_unsigned {code v : Nat} (hu : intSigned code = false) (hv : v < 2 ^ intBits code) : intValue code v = v := by
  simp [intValue, hu, Nat.mod_eq_of_lt hv]

theorem intValue_of_signed {code v : Nat} (hs : intSigned code = true) (hv : v < 2 ^ intBits code) :
    intValue code v = signed (intBits code) v := by
  simp [intValue, hs, Nat.mod_eq_of_lt hv]

/-- The code of an integer is that of any number of its residue, modulo the width. -/
theorem intCode_of_modEq {code : Nat} {i : Int} {k : Nat} (h : i ≡ k [ZMOD (2 ^ intBits code : Nat)]) :
    intCode code i = k % 2 ^ intBits code := by
  rw [intCode, h, ← Int.natCast_emod, Int.toNat_natCast]

/-- Without SAT a result wraps (R284). -/
theorem intResult_wraps {code : Nat} {i : Int} {k : Nat} (h : i ≡ k [ZMOD (2 ^ intBits code : Nat)]) :
    (intResult code false i).1 = k % 2 ^ intBits code := intCode_of_modEq h

theorem intMin_le_intMax (code : Nat) : intMin code ≤ intMax code := by
  have hlow : 0 < 2 ^ (intBits code - 1) := by positivity
  have hall : 0 < 2 ^ intBits code := by positivity
  unfold intMin intMax
  split <;> omega

/-- With SAT a result is clamped to the range of its format (R198). -/
theorem intResult_clamps (code : Nat) (i : Int) :
    (intResult code true i).1 = intCode code (max (intMin code) (min i (intMax code))) := by
  have hrange := intMin_le_intMax code
  have hclamp : (intClamp code i).1 = max (intMin code) (min i (intMax code)) := by
    unfold intClamp
    split_ifs <;> simp only <;> omega
  exact congrArg (intCode code) hclamp

/-- An unsigned integer within its range is its own code. -/
theorem intCode_of_unsigned {code k : Nat} (hk : k < 2 ^ intBits code) : intCode code k = k :=
  (intCode_of_modEq (Int.ModEq.refl _)).trans (Nat.mod_eq_of_lt hk)

/-- A signed integer within its range reads back from its code. -/
theorem signed_intCode {code : Nat} {i : Int} (hlo : -(2 ^ (intBits code - 1) : Nat) ≤ i)
    (hhi : i < (2 ^ (intBits code - 1) : Nat)) : signed (intBits code) (intCode code i) = i := by
  have hwidth := two_pow_intBits code
  unfold signed intCode
  rw [hwidth]
  generalize 2 ^ (intBits code - 1) = half at *
  obtain hneg | hpos := lt_or_ge i 0
  · have hmod : i % (2 * half : Nat) = i + (2 * half : Nat) := by
      rw [← Int.add_emod_right, Int.emod_eq_of_lt (by omega) (by omega)]
    rw [hmod, if_neg (by omega)]
    omega
  · rw [Int.emod_eq_of_lt hpos (by omega), if_pos (by omega)]
    omega

section
variable {code : Nat} {md : RMode} {a b c : Nat} (hint : fmtIsInt code = true)
include hint

theorem addElem_int (sat : Bool) : addElem code md sat a b = (intResult code sat (intValue code a + intValue code b)).1 :=
  if_pos hint

theorem subElem_int (sat : Bool) : subElem code md sat a b = (intResult code sat (intValue code a - intValue code b)).1 :=
  if_pos hint

theorem addElem_wraps : addElem code md false a b = (a + b) % 2 ^ intBits code := by
  rw [addElem_int hint]
  exact intResult_wraps (by simpa using (intValue_modEq code a).add (intValue_modEq code b))

theorem subElem_wraps (hb : b < 2 ^ intBits code) :
    subElem code md false a b = (a + 2 ^ intBits code - b) % 2 ^ intBits code := by
  rw [subElem_int hint]
  refine intResult_wraps (((intValue_modEq code a).sub (intValue_modEq code b)).trans ?_)
  rw [Nat.cast_sub (by omega), Nat.cast_add, add_sub_right_comm]
  exact Int.add_modEq_right.symm

theorem mulElem_wraps : mulElem code md false a b = a * b % 2 ^ intBits code :=
  (if_pos hint).trans (intResult_wraps (by simpa using (intValue_modEq code a).mul (intValue_modEq code b)))

theorem fmaElem_wraps : fmaElem code md false a b c = (a * b + c) % 2 ^ intBits code :=
  (if_pos hint).trans (intResult_wraps
    (by simpa using ((intValue_modEq code a).mul (intValue_modEq code b)).add (intValue_modEq code c)))

theorem negElem_wraps (ha : a < 2 ^ intBits code) : negElem code md false a = (2 ^ intBits code - a) % 2 ^ intBits code := by
  refine (if_pos hint).trans (intCode_of_modEq ((intValue_modEq code a).neg.trans ?_))
  rw [Nat.cast_sub ha.le, sub_eq_neg_add]
  exact Int.add_modEq_right.symm

theorem addElem_clamps_unsigned (hu : intSigned code = false) (ha : a < 2 ^ intBits code) (hb : b < 2 ^ intBits code) :
    addElem code md true a b = min (a + b) (2 ^ intBits code - 1) := by
  have hsum : max (intMin code) (min (intValue code a + intValue code b) (intMax code))
      = (min (a + b) (2 ^ intBits code - 1) : Nat) := by
    rw [intValue_of_unsigned hu ha, intValue_of_unsigned hu hb]
    simp only [intMin, intMax, hu, Bool.false_eq_true, if_false]
    omega
  rw [addElem_int hint, intResult_clamps, hsum, intCode_of_unsigned (by omega)]

theorem subElem_clamps_unsigned (hu : intSigned code = false) (ha : a < 2 ^ intBits code) (hb : b < 2 ^ intBits code) :
    subElem code md true a b = a - b := by
  have hdiff : max (intMin code) (min (intValue code a - intValue code b) (intMax code)) = (a - b : Nat) := by
    rw [intValue_of_unsigned hu ha, intValue_of_unsigned hu hb]
    simp only [intMin, intMax, hu, Bool.false_eq_true, if_false]
    omega
  rw [subElem_int hint, intResult_clamps, hdiff, intCode_of_unsigned (by omega)]

theorem addElem_clamps_signed (hs : intSigned code = true) (ha : a < 2 ^ intBits code) (hb : b < 2 ^ intBits code) :
    signed (intBits code) (addElem code md true a b) = max (-2 ^ (intBits code - 1))
      (min (signed (intBits code) a + signed (intBits code) b) (2 ^ (intBits code - 1) - 1)) := by
  have hpos : 0 < 2 ^ (intBits code - 1) := by positivity
  rw [addElem_int hint, intResult_clamps, intValue_of_signed hs ha, intValue_of_signed hs hb]
  simp only [intMin, intMax, hs, if_true]
  rw [signed_intCode (by omega) (by omega)]
  push_cast
  rfl

end

theorem shiftElem_shlBits (code : Nat) (md : RMode) (a b : Nat) :
    shiftElem shlBits code md false a b = a * 2 ^ (b % intBits code) % 2 ^ intBits code := rfl

theorem shiftElem_shrBits {code a : Nat} (md : RMode) (b : Nat) (ha : a < 2 ^ intBits code) :
    shiftElem shrBits code md false a b = a / 2 ^ (b % intBits code) :=
  Nat.mod_eq_of_lt (Nat.lt_of_le_of_lt (Nat.div_le_self _ _) ha)

/-! ### Elements packed into a vector (R159, R281) -/

/-- A digit reads back from its number. -/
theorem ofDigits_digit {p i d : Nat} {l : List Nat} (hl : ∀ x ∈ l, x < p) (hi : l[i]? = some d) :
    Nat.ofDigits p l / p ^ i % p = d := by
  have hd : d < p := hl d (List.mem_of_getElem? hi)
  obtain ⟨hlen, hget⟩ := List.getElem?_eq_some_iff.mp hi
  rw [Nat.ofDigits_div_pow_eq_ofDigits_drop i (Nat.zero_lt_of_lt hd) l hl, List.drop_eq_getElem_cons hlen, hget,
    Nat.ofDigits_cons, Nat.add_mul_mod_self_left, Nat.mod_eq_of_lt hd]

/-- The digit of an element: its code, 0 where it is not valid. -/
def elemDigit (s : Nat) (e : Option Nat) : Nat := e.getD 0 % 2 ^ (8 * s)

/-- The digit of an element's bytes in a mask: all ones where it is valid. -/
def maskDigit (s : Nat) (b : Bool) : Nat := if b then 2 ^ s - 1 else 0

theorem elemDigit_lt (s : Nat) (es : List (Option Nat)) : ∀ x ∈ es.map (elemDigit s), x < 2 ^ (8 * s) := by
  simp only [List.mem_map, forall_exists_index, and_imp]
  rintro _ e - rfl
  exact Nat.mod_lt _ (by positivity)

theorem maskDigit_lt (s : Nat) (bs : List Bool) : ∀ x ∈ bs.map (maskDigit s), x < 2 ^ s := by
  have hpos : 0 < 2 ^ s := by positivity
  simp only [List.mem_map, forall_exists_index, and_imp]
  rintro _ b - rfl
  unfold maskDigit
  split <;> omega

theorem packElems_eq_ofDigits (s : Nat) (es : List (Option Nat)) :
    packElems s es = Nat.ofDigits (2 ^ (8 * s)) (es.map (elemDigit s)) := by
  induction es with
  | nil => rfl
  | cons e es ih => rw [packElems, ih, List.map_cons, Nat.ofDigits_cons, elemDigit]

theorem maskFrom_eq_ofDigits (s j : Nat) (bs : List Bool) :
    maskFrom s j bs = (2 ^ s) ^ j * Nat.ofDigits (2 ^ s) (bs.map (maskDigit s)) := by
  induction bs generalizing j with
  | nil => rfl
  | cons b bs ih =>
    have hhead : (if b then (2 ^ s - 1) * 2 ^ (j * s) else 0) = (2 ^ s) ^ j * maskDigit s b := by
      rw [maskDigit, mul_ite, Nat.mul_zero, Nat.mul_comm j s, pow_mul, Nat.mul_comm]
    rw [maskFrom, ih, hhead, List.map_cons, Nat.ofDigits_cons, pow_succ]
    ring

/-- The bits of a number below the width that holds it. -/
theorem nbits_ofNat_of_le {v lo len n : Nat} (h : lo + len ≤ n) : nbits (BitVec.ofNat n v).toNat lo len = nbits v lo len := by
  have hcut : 2 ^ n = 2 ^ lo * 2 ^ (n - lo) := by rw [← pow_add]; congr 1; omega
  rw [BitVec.toNat_ofNat, nbits, nbits, hcut, Nat.mod_mul_right_div_self, Nat.mod_mod_of_dvd _ (pow_dvd_pow 2 (by omega))]

section
variable {s j : Nat} (hj : (j + 1) * s ≤ 64)
include hj

/-- Element j of a packed vector. -/
theorem nbits_packElems {es : List (Option Nat)} {e : Option Nat} (he : es[j]? = some e) :
    nbits (BitVec.ofNat 512 (packElems s es)).toNat (8 * s * j) (8 * s) = elemDigit s e := by
  have hdigit : nbits (packElems s es) (8 * s * j) (8 * s) = elemDigit s e := by
    rw [nbits, packElems_eq_ofDigits, pow_mul 2 (8 * s) j]
    exact ofDigits_digit (elemDigit_lt s es) (List.getElem?_map.trans (congrArg (Option.map (elemDigit s)) he))
  have hfit : 8 * s * j + 8 * s ≤ 512 := by nlinarith
  rw [nbits_ofNat_of_le hfit, hdigit]

/-- The bit of element j's lowest byte in a mask of elements. -/
theorem getLsbD_elemMask (hs : 0 < s) {bs : List Bool} {b : Bool} (hb : bs[j]? = some b) :
    (elemMask s bs).getLsbD (j * s) = b := by
  have hdigit : maskFrom s 0 bs / (2 ^ s) ^ j % 2 ^ s = maskDigit s b := by
    rw [maskFrom_eq_ofDigits, pow_zero, Nat.one_mul]
    exact ofDigits_digit (maskDigit_lt s bs) (by simp [hb])
  have hbit : (maskFrom s 0 bs).testBit (j * s) = (maskDigit s b).testBit 0 := by
    rw [← hdigit, Nat.testBit_mod_two_pow, ← pow_mul, Nat.testBit_div_two_pow, Nat.mul_comm s j]
    simp [hs]
  have hlow : j * s < 64 := by nlinarith
  rw [elemMask, BitVec.getLsbD_ofNat, hbit, decide_eq_true hlow, Bool.true_and]
  cases b with
  | false => simp [maskDigit]
  | true => rw [maskDigit, if_pos rfl, Nat.testBit_two_pow_sub_one, decide_eq_true hs]

end

/-- The elements of a vector token read back, with their validity. -/
theorem elemsOf_vecTok {s : Nat} {es : List (Option Nat)} (hs : 0 < s) (hlen : es.length = 64 / s)
    (hfit : ∀ v, some v ∈ es → v < 2 ^ (8 * s)) : elemsOf s (vecTok s es) = es := by
  refine List.ext_getElem (by simp [elemsOf_length, hlen]) fun j hj hj' => ?_
  have hget : es[j]? = some es[j] := List.getElem?_eq_getElem hj'
  have hroom : (j + 1) * s ≤ 64 := (Nat.mul_le_mul_right s (hlen ▸ hj' : j < 64 / s)).trans (Nat.div_mul_le_self 64 s)
  have hvalid : (elemMask s (es.map (·.isSome))).getLsbD (j * s) = es[j].isSome :=
    getLsbD_elemMask hroom hs (by simp [hget])
  simp only [elemsOf, vecTok, List.getElem_map, List.getElem_range, hvalid, nbits_packElems hroom hget]
  have hmem : es[j] ∈ es := List.getElem_mem hj'
  cases hj : es[j] with
  | none => rfl
  | some v =>
    rw [hj] at hmem
    simp [elemDigit, Nat.mod_eq_of_lt (hfit v hmem)]

/-- Settles O31: the elements as the digits of a number, the integer arithmetic modulo the width or clamped to the range. -/
theorem vectorElementsAndIntegers : Obligations.VectorElementsAndIntegers := by
  refine ⟨fun sz es hsz hlen hfit => elemsOf_vecTok ?_ hlen hfit, fun code md a b c hlo hhi ha hb hc => ?_⟩
  · exact Nat.pos_of_ne_zero fun h => absurd (h ▸ hsz) (by decide)
  · have hint := fmtIsInt_of_le hlo hhi
    exact ⟨addElem_wraps hint, subElem_wraps hint hb, mulElem_wraps hint, fmaElem_wraps hint, negElem_wraps hint ha,
      fun hu => addElem_clamps_unsigned hint hu ha hb, fun hu => subElem_clamps_unsigned hint hu ha hb,
      fun hs => addElem_clamps_signed hint hs ha hb, shiftElem_shlBits code md a b, shiftElem_shrBits md b ha⟩

end Sys2Proof.Machine
end

section
/-!
A sheaf's commit and its registers (R160 to R162, R166, R240, R280, R375).
-/

namespace Sys2Proof.Machine
open Sys2Proof Sys2Proof.Claims

/-! ### The bytes of a vector (R13, R159) -/

theorem ofBytes_eq_ofDigits (bs : List Byte) : ofBytes bs = Nat.ofDigits (2 ^ 8) (bs.map (·.toNat)) := by
  induction bs with
  | nil => rfl
  | cons b bs ih =>
    rw [ofBytes, ih, List.map_cons, Nat.ofDigits_cons]
    rfl

/-- A byte of a vector reads back. -/
theorem extractLsb'_vecOf {bs : List Byte} {j : Nat} {b : Byte} (hj : j < 64) (hb : bs[j]? = some b) :
    (vecOf bs).extractLsb' (8 * j) 8 = b := by
  have hdigits : ∀ x ∈ bs.map (·.toNat), x < 2 ^ 8 := by
    simp only [List.mem_map, forall_exists_index, and_imp]
    rintro _ b - rfl
    exact b.isLt
  have hbyte : nbits (vecOf bs).toNat (8 * j) 8 = b.toNat := by
    rw [vecOf, nbits_ofNat_of_le (by omega), nbits, ofBytes_eq_ofDigits, pow_mul]
    exact ofDigits_digit hdigits (List.getElem?_map.trans (congrArg (Option.map (·.toNat)) hb))
  refine BitVec.eq_of_toNat_eq ?_
  rw [BitVec.extractLsb'_toNat, Nat.shiftRight_eq_div_pow]
  exact hbyte

theorem getElem?_vecBytes (v : Vec) {j : Nat} (hj : j < 64) : (vecBytes v)[j]? = some (v.extractLsb' (8 * j) 8) := by
  rw [vecBytes, toBytes_eq_map, List.getElem?_map, List.getElem?_range hj, Option.map_some]
  refine congrArg some (BitVec.eq_of_toNat_eq ?_)
  rw [BitVec.extractLsb'_toNat, Nat.shiftRight_eq_div_pow, BitVec.toNat_ofNat, pow_mul]
  rfl

/-- Merged, a vector has the valid bytes of the token and keeps the others. -/
theorem extractLsb'_mergeVec (old d : Vec) (m : Mask) {j : Nat} (hj : j < 64) :
    (mergeVec old d m).extractLsb' (8 * j) 8 = if m.getLsbD j then d.extractLsb' (8 * j) 8 else old.extractLsb' (8 * j) 8 := by
  refine extractLsb'_vecOf hj ?_
  rw [List.getElem?_map, List.getElem?_zipIdx, getElem?_vecBytes old hj]
  simp

/-! ### Registers after a sheaf (R160, R240) -/

theorem Regs.write_null (r : Regs) (reg : Reg) : r.write reg .null = r := by cases reg <;> rfl

/-- A part of the registers that belongs to one register: writes of others keep it. -/
def Regs.Part {α : Type} (reg : Reg) (f : Regs → α) : Prop := ∀ r reg' t, reg' ≠ reg → f (r.write reg' t) = f r

section
variable {α : Type} {reg : Reg} {f : Regs → α} (hf : Regs.Part reg f)
include hf

/-- A register without a value keeps what it holds. -/
theorem Regs.Part.foldl_write_of_null {l : List (Reg × Tok)} (h : ∀ e ∈ l, e.1 = reg → e.2 = .null) (r : Regs) :
    f (l.foldl (fun r e => r.write e.1 e.2) r) = f r := by
  induction l generalizing r with
  | nil => rfl
  | cons e l ih =>
    obtain ⟨hnull, hrest⟩ := List.forall_mem_cons.mp h
    rw [List.foldl_cons, ih hrest]
    rcases eq_or_ne e.1 reg with heq | hne
    · rw [hnull heq, Regs.write_null]
    · exact hf r e.1 e.2 hne

/-- The one value that a register receives is written over what it holds. -/
theorem Regs.Part.foldl_write_of_mem {l : List (Reg × Tok)} {t : Tok} (hnd : (l.map Prod.fst).Nodup) (hmem : (reg, t) ∈ l)
    (r : Regs) : ∃ r', f r' = f r ∧ f (l.foldl (fun r e => r.write e.1 e.2) r) = f (r'.write reg t) := by
  induction l generalizing r with
  | nil => exact absurd hmem List.not_mem_nil
  | cons e l ih =>
    rw [List.map_cons, List.nodup_cons] at hnd
    obtain ⟨hnew, hnd⟩ := hnd
    rw [List.foldl_cons]
    rcases List.mem_cons.mp hmem with rfl | hrest
    · have hothers : ∀ e ∈ l, e.1 = reg → e.2 = .null := fun e he heq =>
        absurd (List.mem_map.mpr ⟨e, he, heq⟩) hnew
      exact ⟨r, rfl, hf.foldl_write_of_null hothers _⟩
    · obtain ⟨r', hkeeps, hwrites⟩ := ih hnd hrest (r.write e.1 e.2)
      have hne : e.1 ≠ reg := fun heq => hnew (heq ▸ List.mem_map_of_mem (f := Prod.fst) hrest)
      exact ⟨r', hkeeps.trans (hf r e.1 e.2 hne), hwrites⟩

end

theorem Regs.part_g {n : Nat} (h : n < 32) : Regs.Part (.g n) fun r => r.g[n] := by
  intro r reg t hne
  unfold Regs.write
  split
  case h_1 => exact Vector.getElem_setIfInBounds_ne h fun heq => hne (congrArg Reg.g heq)
  all_goals rfl

theorem Regs.part_v {n : Nat} (h : n < 64) : Regs.Part (.v n) fun r => r.v[n] := by
  intro r reg t hne
  unfold Regs.write
  split
  case h_2 => exact Vector.getElem_setIfInBounds_ne h fun heq => hne (congrArg Reg.v heq)
  all_goals rfl

theorem Regs.part_q {n : Nat} (h : n < 8) : Regs.Part (.q n) fun r => r.q[n] := by
  intro r reg t hne
  unfold Regs.write
  split
  case h_3 => exact Vector.getElem_setIfInBounds_ne h fun heq => hne (congrArg Reg.q heq)
  all_goals rfl

theorem Regs.part_k : Regs.Part .k Regs.k := by
  intro r reg t hne
  unfold Regs.write
  split
  case h_4 => exact absurd rfl hne
  all_goals rfl

theorem Regs.part_rnd : Regs.Part .rnd Regs.rnd := by
  intro r reg t hne
  unfold Regs.write
  split
  case h_5 => exact absurd rfl hne
  all_goals rfl

/-- Neither N nor the F registers are written by a token. -/
theorem Regs.write_n_f (r : Regs) (reg : Reg) (t : Tok) : (r.write reg t).n = r.n ∧ (r.write reg t).f = r.f := by
  unfold Regs.write
  split <;> exact ⟨rfl, rfl⟩

theorem Regs.foldl_write_n_f (l : List (Reg × Tok)) (r : Regs) :
    (l.foldl (fun r e => r.write e.1 e.2) r).n = r.n ∧ (l.foldl (fun r e => r.write e.1 e.2) r).f = r.f := by
  induction l generalizing r with
  | nil => exact ⟨rfl, rfl⟩
  | cons e l ih =>
    obtain ⟨hn, hf⟩ := r.write_n_f e.1 e.2
    exact ⟨(ih _).1.trans hn, (ih _).2.trans hf⟩

/-! ### RND after a sheaf (R193, R195, R365) -/

/-- A written LFSR of zero is stored as 1. -/
theorem Regs.rnd_write (r : Regs) (v : Word) :
    (r.write .rnd (.sc v)).rnd = if v.toNat / 2 ^ 32 = 0 then v + 2 ^ 32 else v := by
  have hfield : field v 32 32 = v.toNat / 2 ^ 32 := Nat.mod_eq_of_lt (by omega)
  simp only [Regs.write, hfield, beq_iff_eq]
  refine ite_congr rfl (fun hzero => ?_) fun _ => rfl
  have hone : BitVec.ofNat 64 (1 % 2 ^ 32 * 2 ^ 32) = (2 ^ 32 : Word) := BitVec.ofNat_pow 64 2 32
  rw [setField, hfield, hzero, wd, Nat.zero_mul, Nat.sub_zero, BitVec.ofNat_add, BitVec.ofNat_toNat, BitVec.setWidth_eq, hone]

theorem field_mode (old : Word) : field old 0 3 = old.toNat % 8 := nbits_zero old.toNat 3

section
variable {fl : Flight} {old : Word}

theorem Flight.newRnd_of_setRnd {mode : BitVec 3} {seed : Option (BitVec 32)} (h : fl.rndMode = some (mode, seed)) :
    fl.newRnd old = setRnd old mode seed := by
  rw [Flight.newRnd, h]

theorem Flight.writesRnd_of_null (hmode : fl.rndMode = none) (hnull : ∀ e ∈ fl.regw, e.1 = .rnd → e.2 = .null) :
    fl.writesRnd = false := by
  simpa [Flight.writesRnd, hmode] using fun r t he hr => hnull (r, t) he hr

theorem Flight.newRnd_of_no_write (hmode : fl.rndMode = none) (hnull : ∀ e ∈ fl.regw, e.1 = .rnd → e.2 = .null) :
    fl.newRnd old = if fl.rounded = true ∧ old.toNat % 8 = 6
      then BitVec.ofNat 64 ((lfsrAdv 4096 (old.extractLsb' 32 32)).toNat * 2 ^ 32 + 6) else old := by
  simp only [Flight.newRnd, hmode, Flight.writesRnd_of_null hmode hnull, Bool.not_false, Bool.true_and, Bool.and_eq_true,
    beq_iff_eq, field_mode]
  rfl

theorem setRnd_seed (mode : BitVec 3) (z : BitVec 32) :
    setRnd old mode (some z) = BitVec.ofNat 64 ((if z = 0 then 1 else z.toNat) * 2 ^ 32 + mode.toNat) := by
  rw [setRnd]
  simp only [beq_iff_eq, rndWord, wd]
  split <;> rfl

end

/-- What the registers hold after a sheaf, by what each has received. -/
theorem Flight.n_newRegs {fl : Flight} {w : Word} (h : fl.exit_ = some w) (r : Regs) :
    (fl.newRegs r).n = w ∧ (fl.newRegs r).f = r.f := by
  obtain ⟨hn, hf⟩ := Regs.foldl_write_n_f fl.regw { r with rnd := fl.newRnd r.rnd, n := fl.exit_.getD r.n }
  exact ⟨hn.trans (congrArg (Option.getD · r.n) h), hf⟩

section
variable {fl : Flight} (r : Regs)

/-- A register that receives no value keeps what it holds, RND what the sheaf has made of it. -/
theorem Flight.newRegs_of_null {α : Type} {reg : Reg} {f : Regs → α} (hf : Regs.Part reg f)
    (h : ∀ e ∈ fl.regw, e.1 = reg → e.2 = .null) :
    f (fl.newRegs r) = f { r with rnd := fl.newRnd r.rnd, n := fl.exit_.getD r.n } := hf.foldl_write_of_null h _

theorem Flight.newRegs_of_mem {α : Type} {reg : Reg} {f : Regs → α} (hf : Regs.Part reg f) {t : Tok}
    (hnd : (fl.regw.map Prod.fst).Nodup) (h : (reg, t) ∈ fl.regw) :
    ∃ r', f r' = f { r with rnd := fl.newRnd r.rnd, n := fl.exit_.getD r.n } ∧ f (fl.newRegs r) = f (r'.write reg t) :=
  hf.foldl_write_of_mem hnd h _

theorem Flight.newRegs_g {n : Nat} (h : n < 32) {v : Word} (hnd : (fl.regw.map Prod.fst).Nodup) (hmem : (.g n, .sc v) ∈ fl.regw) :
    (fl.newRegs r).g[n] = v := by
  obtain ⟨r', -, hwritten⟩ := fl.newRegs_of_mem r (Regs.part_g h) hnd hmem
  exact hwritten.trans (Vector.getElem_setIfInBounds_self ..)

theorem Flight.newRegs_q {n : Nat} (h : n < 8) {v : Word} (hnd : (fl.regw.map Prod.fst).Nodup) (hmem : (.q n, .sc v) ∈ fl.regw) :
    (fl.newRegs r).q[n] = v := by
  obtain ⟨r', -, hwritten⟩ := fl.newRegs_of_mem r (Regs.part_q h) hnd hmem
  exact hwritten.trans (Vector.getElem_setIfInBounds_self ..)

theorem Flight.newRegs_v {n : Nat} (h : n < 64) {d : Vec} {m : Mask} (hnd : (fl.regw.map Prod.fst).Nodup)
    (hmem : (.v n, .ve d m) ∈ fl.regw) : (fl.newRegs r).v[n] = mergeVec r.v[n] d m := by
  obtain ⟨r', hkept, hwritten⟩ := fl.newRegs_of_mem r (Regs.part_v h) hnd hmem
  have hold : r'.v[n]?.getD 0 = r.v[n] := by rw [Vector.getElem?_eq_getElem h, Option.getD_some]; exact hkept
  rw [hwritten, ← hold]
  exact Vector.getElem_setIfInBounds_self ..

theorem Flight.newRegs_k {v : Word} (hnd : (fl.regw.map Prod.fst).Nodup) (hmem : (.k, .sc v) ∈ fl.regw) :
    (fl.newRegs r).k = v := by
  obtain ⟨r', -, hwritten⟩ := fl.newRegs_of_mem r Regs.part_k hnd hmem
  exact hwritten

theorem Flight.newRegs_rnd {v : Word} (hnd : (fl.regw.map Prod.fst).Nodup) (hmem : (.rnd, .sc v) ∈ fl.regw) :
    (fl.newRegs r).rnd = if v.toNat / 2 ^ 32 = 0 then v + 2 ^ 32 else v := by
  obtain ⟨r', -, hwritten⟩ := fl.newRegs_of_mem r Regs.part_rnd hnd hmem
  exact hwritten.trans (r'.rnd_write v)

end

/-! ### The step of a commit (R160 to R162) -/

section
variable {s : State} {c k : Nat} {fl : Flight}

theorem State.complete_of_stuck (hfl : s.flight c k = some fl) (h : s.stuck c k = true) : fl.complete = false := by
  simp only [State.stuck, hfl, Bool.and_eq_true, Bool.not_eq_true'] at h
  exact h.1.1

/-- Without a due action a sheaf has nothing to perform at commit. -/
theorem Flight.acts_of_no_due (h : fl.due = []) : fl.acts = [] := by
  simp [Flight.acts, h]

theorem State.commit_of_badRnd (h : fl.badRnd = true) : s.commit c k fl = .error { cause := .badControlValue } := by
  rw [State.commit, if_pos h]

/-- The one action of a sheaf that a fault at its home stops. -/
theorem State.commit_of_actFault {d : Due} {r : TrapRec} (hrnd : fl.badRnd = false) (hacts : fl.acts = [d])
    (hfault : ((s.modThread c k fl.newThread).commitK c k fl (s.slot c k).th.regs.k).actFault c k fl d.act = some r) :
    s.commit c k fl = .error { r with lsn := d.lsn } := by
  simp only [State.commit, hrnd, Bool.false_eq_true, if_false, hacts, State.commitActs, hfault]

theorem State.commitK_of_rooted (h : (s.slot c k).th.kind = .rooted) (old : Word) : s.commitK c k fl old = s := by
  simp [State.commitK, h]

theorem State.leavesFor_of_rooted (h : (s.slot c k).th.kind = .rooted) : s.leavesFor c k fl = none := by
  simp [State.leavesFor, h]

theorem State.slot_modThread (s : State) (c : Nat) {k : Nat} (hk : k < 8) (g : Thread → Thread) :
    (s.modThread c k g).slot c k = { s.slot c k with th := g (s.slot c k).th } := s.slot_modSlot_self c _ hk

/-- A rooted thread's sheaf with no disposal but TRET leaves the thread in its slot. -/
theorem State.dispoCommit_of_rooted (h : (s.slot c k).th.kind = .rooted) (hdispo : fl.dispo = none ∨ fl.dispo = some .tret) :
    s.dispoCommit c k fl = s.modSlot c k fun x =>
      { x with th := { x.th with moveTo := none, hnd := if fl.dispo = some .tret then false else x.th.hnd } } := by
  have hstays := State.leavesFor_of_rooted (fl := fl) h
  obtain hd | hd := hdispo
  · simp only [State.dispoCommit, hstays, Option.map_none, hd]
    rfl
  · simp only [State.dispoCommit, hstays, Option.map_none, hd, State.modThread, State.modSlot_modSlot]
    rfl

/-- The slot after the commit of a rooted thread's sheaf that leaves no effect but its registers. -/
def Flight.committed (fl : Flight) (x : Slot) : Slot :=
  { x with fl := none
           th := { x.th with regs := fl.newRegs x.th.regs, fw := false, moveTo := none, act := x.th.act && !fl.tcause,
                             hnd := if fl.dispo = some .tret then false else x.th.hnd,
                             bad := x.th.bad.filter fun w => !(fl.overwrites w),
                             soft := x.th.soft.filter fun w => !(fl.overwrites w) } }

theorem State.commit_of_rooted (hk : k < 8) (hroot : (s.slot c k).th.kind = .rooted) (hrnd : fl.badRnd = false)
    (hdue : fl.due = []) (hdispo : fl.dispo = none ∨ fl.dispo = some .tret) :
    s.commit c k fl = .ok (s.modSlot c k fl.committed) := by
  have hacts := fl.acts_of_no_due hdue
  have hroot' : ((s.modThread c k fl.newThread).slot c k).th.kind = .rooted := by
    rw [State.slot_modThread s c hk]; exact hroot
  have hgone : (((s.modThread c k fl.newThread).modSlot c k fun x => { x with fl := none }).slot c k).th.kind = .rooted := by
    rw [State.slot_modSlot_self _ c _ hk]; exact hroot'
  have hdisposed : ((s.modThread c k fl.newThread).modSlot c k fun x => { x with fl := none }).dispoCommit c k fl =
      s.modSlot c k fl.committed := by
    rw [State.dispoCommit_of_rooted hgone hdispo, State.modThread, State.modSlot_modSlot, State.modSlot_modSlot]
    rfl
  simp only [State.commit, hrnd, Bool.false_eq_true, if_false, State.commitK_of_rooted hroot', hacts, State.commitActs, hdisposed,
    State.commitPreempts, List.foldl_nil]

variable (he : s.event = some (.sheafCommit c k)) (hfl : s.taken.flight c k = some fl)
include he hfl

theorem exec_sheafCommit_of_withdrawn (hc : fl.complete = true) {o : Nat} (hw : fl.withdrawTo = some o) :
    exec .sheafCommit s = .next ((s.taken.discard c k).disposed c k (.migrate o true)) := by
  change execSheafCommit s = _
  simp only [execSheafCommit, he, hfl, hc, if_true, hw]

theorem exec_sheafCommit_of_stuck (h : s.taken.stuck c k = true) :
    exec .sheafCommit s = .next (s.taken.fault c k .sheafStuck) := by
  change execSheafCommit s = _
  simp only [execSheafCommit, he, hfl, State.complete_of_stuck hfl h, Bool.false_eq_true, if_false, h, if_true]

variable (hc : fl.complete = true) (hw : fl.withdrawTo = none) (hwait : s.taken.commitWaits c k fl = false)
include hc hw hwait

theorem exec_sheafCommit_of_ok {t : State} (h : s.taken.commit c k fl = .ok t) : exec .sheafCommit s = .next t := by
  change execSheafCommit s = _
  simp only [execSheafCommit, he, hfl, hc, if_true, hw, hwait, Bool.false_eq_true, if_false, h]

theorem exec_sheafCommit_of_error {r : TrapRec} (h : s.taken.commit c k fl = .error r) :
    exec .sheafCommit s = .next (s.taken.takeTrap c k r) := by
  change execSheafCommit s = _
  simp only [execSheafCommit, he, hfl, hc, if_true, hw, hwait, Bool.false_eq_true, if_false, h]

end

/-- Settles O45: the fate of a commit by its outcome; a rooted thread's sheaf without a due action changes its own slot alone, and
each register by the one value it has received. -/
theorem sheafCommit : Obligations.SheafCommit := by
  refine ⟨fun s c k fl he hfl => ⟨fun hc hw hwait => ⟨fun t h => ?_, fun r h => ?_, fun hrnd => ?_, fun d r hrnd hacts hfault => ?_⟩,
    fun hc o hw => exec_sheafCommit_of_withdrawn he hfl hc hw, fun h => exec_sheafCommit_of_stuck he hfl h⟩, ?_⟩
  · exact exec_sheafCommit_of_ok he hfl hc hw hwait h
  · exact exec_sheafCommit_of_error he hfl hc hw hwait h
  · exact exec_sheafCommit_of_error he hfl hc hw hwait (State.commit_of_badRnd hrnd)
  · exact exec_sheafCommit_of_error he hfl hc hw hwait (State.commit_of_actFault hrnd hacts hfault)
  intro s c k fl w he hfl hk hroot hc hfollow hwait hrnd hdue hexit hdispo hnd
  have hstays : fl.withdrawTo = none := by rw [Flight.withdrawTo, hfollow]; rfl
  have hcommit := State.commit_of_rooted (s := s.taken) hk hroot hrnd hdue hdispo
  let old := (s.slot c k).th.regs
  obtain ⟨hn, hf⟩ := Flight.n_newRegs hexit old
  refine ⟨fl.newRegs old, ?_, hn, hf, fun n h v hmem => fl.newRegs_g old h hnd hmem,
    fun n h hnull => fl.newRegs_of_null old (Regs.part_g h) hnull, fun n h hnull => fl.newRegs_of_null old (Regs.part_v h) hnull,
    fun n h d m hmem j hj => ?_, fun n h v hmem => fl.newRegs_q old h hnd hmem,
    fun n h hnull => fl.newRegs_of_null old (Regs.part_q h) hnull, fun v hmem => fl.newRegs_k old hnd hmem,
    fun hnull => fl.newRegs_of_null old Regs.part_k hnull, fun v hmem => fl.newRegs_rnd old hnd hmem, fun hnull => ?_⟩
  · rw [exec_sheafCommit_of_ok he hfl hc hstays hwait hcommit]
    exact congrArg Host.Outcome.next (State.modSlot_congr rfl)
  · rw [fl.newRegs_v old h hnd hmem, extractLsb'_mergeVec _ _ _ hj]
  · have hrndKept : (fl.newRegs old).rnd = fl.newRnd old.rnd := fl.newRegs_of_null old Regs.part_rnd hnull
    refine ⟨fun mode hmode => ?_, fun mode z hmode => ?_, fun hmode => ?_⟩
    · rw [hrndKept, Flight.newRnd_of_setRnd hmode]
      rfl
    · rw [hrndKept, Flight.newRnd_of_setRnd hmode, setRnd_seed]
    · rw [hrndKept, Flight.newRnd_of_no_write hmode hnull]

end Sys2Proof.Machine
end

section
/-!
Owner lookups, K notices, tables and map updates (R165, R344 to R350, R355, R356).
-/

namespace Sys2Proof.Machine
open Sys2Proof Sys2Proof.Claims

variable {s : State} {t : Tag} {k : Word} {fl : Flight} {look : Nat × Nat × Word}

/-! ### Owner lookups (R345) -/

theorem exec_ownerLookup (he : s.event = some (.ownerLookup t k)) : exec .ownerLookup s = .next (s.taken.ownerAnswer t k) := by
  change execOwnerLookup s = _
  rw [execOwnerLookup, he]

section
variable {v : State} {n : Option Nat} (hfl : s.flight t.core t.slot = some fl) (hrun : fl.run = t.run)
  (hlook : fl.looks.find? (fun l => l.1 == t.lsn && l.2.2 == k) = some look)
include hfl hrun hlook

theorem State.ownerAnswer_of_unmapped (hv : s.lookup t.core (s.slot t.core t.slot).th.ctx k false = (v, none, n)) :
    s.ownerAnswer t k = (v.modFlight t.core t.slot fun fl => { fl with looks := fl.looks.erase look }).fault t.core t.slot
      .croftUnmapped ((fl.sheaf.ordered t.lsn).map (·.1)) := by
  simp only [State.ownerAnswer, hfl, hlook, hrun, bne_self_eq_false, Bool.false_eq_true, if_false, hv]

variable {o : Owner} (hv : s.lookup t.core (s.slot t.core t.slot).th.ctx k false = (v, some o, n))
include hv

theorem State.ownerAnswer_of_range (huse : look.2.1 = 0) (hrooted : (s.slot t.core t.slot).th.kind = .rooted)
    (hcore : o.core ≠ t.core) :
    s.ownerAnswer t k =
      (v.modFlight t.core t.slot fun fl => { fl with looks := fl.looks.erase look }).fault t.core t.slot .croftRange := by
  simp only [State.ownerAnswer, hfl, hlook, hrun, bne_self_eq_false, Bool.false_eq_true, if_false, hv, huse, beq_self_eq_true,
    if_true, hrooted, bne_iff_ne.mpr hcore, Bool.and_self]

theorem State.ownerAnswer_of_owner (huse : look.2.1 = 0)
    (howner : ¬ ((s.slot t.core t.slot).th.kind = .rooted ∧ o.core ≠ t.core)) :
    s.ownerAnswer t k = (v.modFlight t.core t.slot fun fl => { fl with looks := fl.looks.erase look }).modFlight t.core t.slot
      fun fl => { fl with kOwner := some (some o.core) } := by
  simp only [State.ownerAnswer, hfl, hlook, hrun, bne_self_eq_false, Bool.false_eq_true, if_false, hv, huse, beq_self_eq_true,
    if_true, Bool.and_eq_true, beq_iff_eq, bne_iff_ne, if_neg howner]

theorem State.ownerAnswer_of_burr (huse : look.2.1 ≠ 0) :
    s.ownerAnswer t k = (v.modFlight t.core t.slot fun fl => { fl with looks := fl.looks.erase look }).modFlight t.core t.slot
      fun fl => { fl with due := fl.due.map fun d =>
        match d.act with
        | .spawnb b _ mi => if d.pos == t.lsn then { d with act := .spawnb b o.core mi } else d
        | _ => d } := by
  simp only [State.ownerAnswer, hfl, hlook, hrun, bne_self_eq_false, Bool.false_eq_true, if_false, hv, beq_iff_eq, if_neg huse]
    <;> rfl

end

/-! ### K notices (R349, R350) -/

section
variable {n : Notice} (he : s.event = some (.kNotice n))
include he

theorem exec_kNotice_of_stray (hh : s.taken.hosts n.core n.ctx = false) :
    exec .kNotice s = .next ((s.taken.strayMgmt n.core).spreadNotice n []) := by
  change execKNotice s = _
  simp only [execKNotice, he, hh, Bool.not_false, if_true]

theorem exec_kNotice_of_no_map (hh : s.taken.hosts n.core n.ctx = true) (hm : s.taken.croftMap n.core n.ctx = none) :
    exec .kNotice s = .next ((s.taken.modCore n.core fun x =>
      { x with table := x.table.filter fun e => e.1 != n.bid.toNat }).spreadNotice n []) := by
  change execKNotice s = _
  simp only [execKNotice, he, hh, Bool.not_true, Bool.false_eq_true, if_false, hm]

theorem exec_kNotice_of_map {root : Root} {cs : List Croft} (hh : s.taken.hosts n.core n.ctx = true)
    (hm : s.taken.croftMap n.core n.ctx = some (root, cs)) :
    exec .kNotice s = .next (
      let v := (s.taken.modCore n.core fun x =>
        x.tableApply (coveredBy cs n.core 0) (coveredBy cs n.core root.hw) n.bid.toNat n.k n.remove).crowdAll n.core root cs
      if n.version < root.version then v.spreadNotice { n with version := root.version } (v.missed n root cs)
      else v.spreadNotice n []) := by
  change execKNotice s = _
  simp only [execKNotice, he, hh, Bool.not_true, Bool.false_eq_true, if_false, hm]

end

/-- A notice that goes nowhere else is acknowledged to the slot that counts it. -/
theorem State.spreadNotice_acknowledges (s : State) {n : Notice} {c k : Nat} (hj : n.join = none) (hs : n.sender = some (c, k))
    (hk : k < 8) : s.spreadNotice n [] =
      s.post { msg := true, cls := 4, src := coreEnd n.core, dst := coreEnd c, ctx := n.ctx, deliver := .writeAck c k .notice none } := by
  simp [State.spreadNotice, hj, State.noticeDone, hs, hk]

theorem State.mem_missed {s : State} {n : Notice} {root : Root} {cs : List Croft} {g : Nat} (h : g ∈ s.missed n root cs) :
    g ≠ n.core ∧ inBoxes (coveredBy cs g root.hw) n.k = true := by
  simp only [State.missed, List.mem_filter, Bool.and_eq_true, bne_iff_ne] at h
  exact h.2.1

/-! ### Rebuilds of a table (R350) -/

section
variable {c ctx : Nat} (he : s.event = some (.tableRebuild c)) (hctx : (s.taken.core c).ctx = some ctx)
include he hctx

theorem exec_tableRebuild_of_no_map (hm : (s.taken.modCore c fun x => { x with dropped := false }).croftMap c ctx = none) :
    exec .tableRebuild s = .next (((s.taken.modCore c fun x => { x with dropped := false }).modCore c fun x =>
      { x with table := [] }).endRebuild c) := by
  change execTableRebuild s = _
  simp only [execTableRebuild, he, State.core_modCore_self, hctx, Option.getD_some, hm]

theorem exec_tableRebuild_of_map {root : Root} {cs : List Croft}
    (hm : (s.taken.modCore c fun x => { x with dropped := false }).croftMap c ctx = some (root, cs)) :
    exec .tableRebuild s = .next (
      let v := s.taken.modCore c fun x => { x with dropped := false }
      let ns := v.rebuildNotices c ctx root cs
      let w := (v.modCore c fun x => { x with table := x.table.filter fun e => inBoxes (coveredBy cs c root.hw) e.2 }).crowdAll
        c root cs
      if ns = [] then w.endRebuild c
      else
        let x := ns.foldl (fun (s : State) n => s.postMgmt (coreEnd c) (coreEnd n.core) ctx (.kNotice { n with join := some s.nextId }))
          { w with joins := w.joins.put w.nextId (ns.length, none) }
        { x with nextId := x.nextId + 1 }) := by
  change execTableRebuild s = _
  simp only [execTableRebuild, he, State.core_modCore_self, hctx, Option.getD_some, hm, List.isEmpty_iff]
  split <;> rfl

end

/-- What a rebuild's notice says: an inside entry of the core's table, to another core that now covers it. -/
theorem State.mem_rebuildNotices {s : State} {c ctx : Nat} {root : Root} {cs : List Croft} {n : Notice}
    (h : n ∈ s.rebuildNotices c ctx root cs) : n.remove = false ∧ n.core ≠ c ∧
      inBoxes (coveredBy cs c 0) n.k = true ∧ inBoxes (coveredBy cs n.core root.hw) n.k = true ∧
      ∃ b, (b, n.k) ∈ (s.core c).table ∧ n.bid = BitVec.ofNat 32 b := by
  simp only [State.rebuildNotices, List.mem_flatMap, List.mem_map, List.mem_filter, bne_iff_ne] at h
  obtain ⟨e, ⟨hmem, hinside⟩, g, ⟨⟨-, hother⟩, hcovers⟩, rfl⟩ := h
  exact ⟨rfl, hother, hinside, hcovers, e.1, hmem, rfl⟩

/-- LOST clears when nothing has been dropped since the rebuild began. -/
theorem State.endRebuild_lost (s : State) {c : Nat} {x : Core} (hx : s.cores.get? c = some x) :
    ∃ y, (s.endRebuild c).cores.get? c = some y ∧ y.lost = (x.lost && x.dropped) := by
  have hcore : s.core c = x := by rw [State.core, SMap.get, hx, Option.getD_some]
  exact ⟨_, SMap.get?_put_self _ _ _, by rw [hcore]⟩

/-! ### The words of a map update (R346) -/

section
variable {id ctx : Nat} {o : Op} {p : MapPlan} (he : s.event = some (.mapUpdateComplete id)) (ho : s.taken.op? id = some o)
  (hkind : o.kind = .mapUpdate ctx p) (hb : o.behind = 0)
include he ho hkind hb

theorem exec_mapUpdateComplete_of_written (hw : p.writes = []) :
    exec .mapUpdateComplete s = .next (s.taken.mapRelease o ctx p) := by
  change execMapUpdateComplete s = _
  rw [State.op?] at ho
  simp only [execMapUpdateComplete, he, ho, hb, bne_self_eq_false, Bool.false_eq_true, if_false, hkind, hw]

section
variable {w : Piece} {rest : List Piece} {v : State} (hw : p.writes = w :: rest)
include hw

theorem exec_mapUpdateComplete_of_fault {r : TrapRec}
    (hv : s.taken.engineWrite (.slot o.core o.slot) ctx w.kid w.va w.pa w.bytes 0 = .fault v r) :
    exec .mapUpdateComplete s = .next (
      let x := (v.impTrap (.slot o.core o.slot) r).serveCancel
        { agent := .slot o.core o.slot, tag := p.tag, ctx := ctx, kid := p.root.kid, pa := p.root.pa / 16 * 16, va := p.root.va,
          acc := .cancel }
      { x with ops := x.ops.filter fun y => y.id != id }) := by
  change execMapUpdateComplete s = _
  rw [State.op?] at ho
  simp only [execMapUpdateComplete, he, ho, hb, bne_self_eq_false, Bool.false_eq_true, if_false, hkind, hw, hv]

theorem exec_mapUpdateComplete_of_done
    (hv : s.taken.engineWrite (.slot o.core o.slot) ctx w.kid w.va w.pa w.bytes 0 = .done v) :
    exec .mapUpdateComplete s = .next (
      let x := v.modCore o.core (·.l1Drop w.pa)
      { x with ops := x.ops.map fun y => if y.id == id then { y with kind := .mapUpdate ctx { p with writes := rest } } else y }) := by
  change execMapUpdateComplete s = _
  rw [State.op?] at ho
  simp only [execMapUpdateComplete, he, ho, hb, bne_self_eq_false, Bool.false_eq_true, if_false, hkind, hw, hv]

end
end

/-! ### The croft caches after an update (R346, R347) -/

/-- A croft cache without entries of a context that are older than a version. -/
def Core.CroftsFrom (ctx v : Nat) (x : Core) : Prop := ∀ e ∈ x.crofts, e.ctx = ctx → v ≤ e.version

/-- Every core that stands in the state has such a cache. -/
def State.CroftsFrom (ctx v : Nat) (s : State) : Prop := ∀ c x, s.cores.get? c = some x → x.CroftsFrom ctx v

section
variable {ctx v : Nat}

theorem State.CroftsFrom.core (h : s.CroftsFrom ctx v) (c : Nat) : (s.core c).CroftsFrom ctx v := by
  rw [State.core, SMap.get]
  cases hx : s.cores.get? c with
  | none => exact List.forall_mem_nil _
  | some x => exact h c x hx

theorem State.CroftsFrom.setCore (h : s.CroftsFrom ctx v) {c : Nat} {y : Core} (hy : y.CroftsFrom ctx v) :
    (s.setCore c y).CroftsFrom ctx v := by
  intro d x hx
  rcases eq_or_ne d c with rfl | hne
  · rw [State.setCore, SMap.get?_put_self] at hx
    exact Option.some.inj hx ▸ hy
  · exact h d x ((SMap.get?_put_ne _ _ hne).symm.trans hx)

theorem State.CroftsFrom.of_cores {u : State} (h : s.CroftsFrom ctx v) (hu : u.cores = s.cores) : u.CroftsFrom ctx v := by
  rwa [State.CroftsFrom, hu]

theorem Core.reload_crofts (n : Nat) (x : Core) : (x.reload n).crofts = x.crofts := by
  induction n generalizing x with
  | zero => rfl
  | succ n ih =>
    unfold Core.reload
    split
    · split
      · exact ih _
      · rfl
    · rfl

theorem State.CroftsFrom.handOver (h : s.CroftsFrom ctx v) (a c path depth : Nat) : (s.handOver a c path depth).CroftsFrom ctx v := by
  refine State.CroftsFrom.of_cores (State.CroftsFrom.setCore h ?_) (foldl_keeps State.cores (fun s e => ?_) _ _)
  · rw [Core.CroftsFrom, Core.reload_crofts]
    exact h.core a
  · split <;> rfl

/-- A core whose croft cache has lost the context's older entries. -/
def Core.dropCrofts (ctx v : Nat) (x : Core) : Core :=
  { x with crofts := x.crofts.filter fun e => !(e.ctx == ctx && e.version < v) }

theorem State.croftsFrom_of_dropCrofts {u : State} (hu : u.cores = s.cores.map fun (n, x) => (n, x.dropCrofts ctx v)) :
    u.CroftsFrom ctx v := by
  intro c y hy e he hctx
  rw [hu, SMap.get?_map s.cores (Core.dropCrofts ctx v)] at hy
  obtain ⟨x, -, rfl⟩ := Option.map_eq_some_iff.mp hy
  have hkept := (List.mem_filter.mp he).2
  simpa [hctx] using hkept

/-- The release of the root granule empties every croft cache of the context's older entries. -/
theorem State.mapRelease_croftsFrom (s : State) (o : Op) (p : MapPlan) : (s.mapRelease o ctx p).CroftsFrom ctx p.version := by
  unfold State.mapRelease
  refine State.CroftsFrom.of_cores ?_ (foldl_keeps State.cores (fun s g => s.due_cores _) _ _)
  have hcrowded {u : State} (hu : u.CroftsFrom ctx p.version) : State.CroftsFrom ctx p.version
      (if p.kind == 0 then u.modCore o.core fun x => { x with crowded := x.crowded.erase (p.path, p.depth) } else u) := by
    split
    · exact hu.setCore (hu.core _)
    · exact hu
  split
  · exact State.CroftsFrom.handOver (hcrowded (State.croftsFrom_of_dropCrofts rfl)) _ _ _ _
  · exact hcrowded (State.croftsFrom_of_dropCrofts rfl)

end

/-! ### Retire notices (R356) -/

section
variable {c ctx : Nat} {bid : BitVec 32} (he : s.event = some (.retireNotice c ctx bid))
include he

theorem exec_retireNotice_of_hosts (hh : s.taken.hosts c ctx = true) :
    exec .retireNotice s = .next (s.taken.modCore c fun k =>
      if bid.getLsbD 20 then { k with live1 := k.live1 - 1 } else { k with live0 := k.live0 - 1 }) := by
  change execRetireNotice s = _
  simp only [execRetireNotice, he, hh, if_true]

theorem exec_retireNotice_of_stray (hh : s.taken.hosts c ctx = false) :
    exec .retireNotice s = .next (s.taken.strayMgmt c) := by
  change execRetireNotice s = _
  simp only [execRetireNotice, he, hh, Bool.false_eq_true, if_false]

end

/-- Settles O54: each step behind K and the croft map is the row of its event; the end of an update leaves no older croft of its
context in a cache. -/
theorem croftSteps : Obligations.CroftSteps := by
  refine ⟨?_, fun n s he hh => exec_kNotice_of_stray he hh, fun n s he hw => exec_kNotice_of_no_map he hw.1 hw.2,
    fun n root cs s he hw => exec_kNotice_of_map he hw.1 hw.2, fun s n c k hj hs hk => s.spreadNotice_acknowledges hj hs hk,
    fun s n root cs g hg => State.mem_missed hg, fun c ctx s he hw => exec_tableRebuild_of_no_map he hw.1 hw.2,
    fun c ctx root cs s he hw => exec_tableRebuild_of_map he hw.1 hw.2, fun s c ctx root cs n hn => State.mem_rebuildNotices hn,
    fun s c x _ hx => s.endRebuild_lost hx, ?_, ?_, ?_, fun c ctx b s he hh => exec_retireNotice_of_hosts he hh,
    fun c ctx b s he hh => exec_retireNotice_of_stray he hh⟩
  · intro s t k fl pos usage v o n he hfl hrun hlook hv
    rw [exec_ownerLookup he]
    refine ⟨fun ho => ?_, fun w ho huse hrooted hcore => ?_, fun w ho huse howner => ?_, fun w ho huse => ?_⟩
    · subst ho
      rw [State.ownerAnswer_of_unmapped hfl hrun hlook hv]
    · subst ho
      rw [State.ownerAnswer_of_range hfl hrun hlook hv huse hrooted hcore]
    · subst ho
      rw [State.ownerAnswer_of_owner hfl hrun hlook hv huse howner]
    · subst ho
      exact congrArg Host.Outcome.next (State.ownerAnswer_of_burr hfl hrun hlook hv huse)
  · rintro id o ctx p w rest v r s he ⟨ho, hkind, hw, hb, hv⟩
    exact exec_mapUpdateComplete_of_fault he ho hkind hb hw hv
  · rintro id o ctx p w rest v s he ⟨ho, hkind, hw, hb, hv⟩
    exact exec_mapUpdateComplete_of_done he ho hkind hb hw hv
  · intro s id o ctx p he ho hkind hw hb
    exact ⟨_, exec_mapUpdateComplete_of_written he ho hkind hb hw, State.mapRelease_croftsFrom _ o p⟩

end Sys2Proof.Machine
end
